-- ==== Sys2Proof/Word.lean ====
section
/-! DEFINITION. The words of the LX4192: bytes and 32-bit registers (R5, R21), and the index types of its objects. -/

namespace Sys2Proof

/-- A byte of memory or of a frame. -/
abbrev Byte := BitVec 8

/-- A 32-bit register or interconnect word (R21). -/
abbrev Word := BitVec 32

/-- Switch ports P0 to P23 (R10). -/
abbrev Port := Fin 24

/-- CAN channels CAN0 to CAN31 (R203). -/
abbrev CanCh := Fin 32

/-- LIN channels LIN0 to LIN15 (R227). -/
abbrev LinCh := Fin 16

/-- Mailboxes MB0 to MB15 (R276). -/
abbrev Mb := Fin 16

end Sys2Proof
end

