-- ==== Sys2Proof/Syntax.lean ====
section
/-! DEFINITION. The commands of the LX4192: one constructor of `Instr` for each row of spec/opcode_table.json,
with the operands that the outside world supplies. -/

namespace Sys2Proof

/-- The masters of the internal interconnect (R19). -/
inductive Master where
  | core0 | core1 | mir | update | pcie | spi | island
  deriving DecidableEq, Repr

/-- The two host bridges (R269). -/
inductive Bridge where
  | pcie | spi
  deriving DecidableEq, Repr

/-- The three BARs of the PCIe endpoint (R264). -/
inductive Bar where
  | bar0 | bar2 | bar4
  deriving DecidableEq, Repr

/-- The monitored rails, in the bit order of DW_SUPPLY.LOW (R312, R447). -/
inductive Rail where
  | vcore | vser | vio18 | vio33 | vaon
  deriving DecidableEq, Repr

/-- A reference time value (R9, R41): seconds, nanoseconds 0 to 999,999,999, binary fraction of a nanosecond. -/
structure RT where
  sec  : BitVec 48
  ns   : BitVec 30
  frac : BitVec 16
  deriving DecidableEq, Repr

/-- What an extra compare of the comparator injection test reads: the core, its window, the bits that read unequal and those with an invalid
rail pair (R343, R344). -/
structure CmpReport where
  core    : Fin 2
  window  : Fin 64
  unequal : BitVec 64
  badRail : BitVec 64
  deriving DecidableEq, Repr

/-- The store of the boot ROM that a loss of power cuts off (R363, R410). -/
inductive StartCut where
  /-- copy of an area: blocks and words of the next one that stand, and what the word in progress reads as -/
  | copying (blocks : Nat) (words : Nat) (torn : Word)
  /-- write of the active record -/
  | activeRecord
  /-- write of SOURCE into the staging record -/
  | sourceRecord
  /-- write of PREVIOUS into the other staging record -/
  | previousRecord
  /-- programming of SPOIL of a slot -/
  | spoiling (slot : Fin 64)
  deriving DecidableEq, Repr

/-- What the self-tests of a start find in the silicon (R432, R434). Which test fails, if any, is physical (log entry 43). -/
structure StartReport where
  /-- first failing block of R434 and, for SELFTEST, its detail words D0 to D2 (R436) -/
  selfTest : Option (Byte × Word × Word × Word)
  /-- failed comparator injection test (block 0x0A): core, window j and the map of bits read unequal (R436) -/
  cmpTest  : Option CmpReport
  /-- duration of the self-test in µs (DW_BIST.TIME) -/
  bistTime : BitVec 16
  /-- the boot ROM's check of the active image as the MRAM array reads back, and the check after one restore -/
  imageOk  : Bool
  restoreOk : Bool
  /-- rails, TAMPER_N and the other tamper sources active at the start (R389), numbered as PID 0x0E01 -/
  tamperActive : BitVec 4
  /-- levels of WAKE0 to WAKE3 after the filter time -/
  wakeLevels : BitVec 4
  /-- sources of a tamper event inside the start-up, before FW_READY (R388) -/
  tamper : BitVec 4
  /-- the slot whose marking as spoiled that event cuts off (R388) -/
  tamperSpoil : Option (Fin 64)
  /-- a loss of power that ends the start, at a store of the boot ROM (R363, R410) -/
  cut : Option StartCut
  deriving DecidableEq, Repr

/-- The kinds of unit that the MAC merge sublayer of P0 to P7 tells apart (R141). -/
inductive MacUnit where
  | express      -- an ordinary frame
  | preemptable  -- a frame reassembled from mPackets
  | malformed    -- a fragment sequence that is discarded as malformed
  | verify       -- a verify mPacket of the link partner
  | respond      -- the response to this port's verify mPacket
  deriving DecidableEq, Repr

/-- A frame arriving at a switch port (R68, R73). `bytes` runs from DA, with the FCS at P0 to P21 and without at P22, P23. -/
structure RxFrame where
  port    : Port
  unit    : MacUnit
  bytes   : List Byte
  /-- a code error reported by the PCS or PHY inside the frame (R73) -/
  codeErr : Bool
  /-- class and domain descriptor of a frame from P22 or P23 (R89) -/
  cls     : BitVec 3
  dom     : BitVec 4
  deriving DecidableEq, Repr

/-- A CAN message on a bus (R203, R211). -/
structure CanMsg where
  id   : BitVec 29
  ide  : Bool
  fdf  : Bool
  xlf  : Bool
  brs  : Bool
  esi  : Bool
  rtr  : Bool
  sec  : Bool
  dlc  : BitVec 4
  sdt  : Byte
  vcid : Byte
  af   : Word
  data : List Byte
  deriving DecidableEq, Repr

/-- The data bytes that the DLC of a classical or FD message states (R203, R216); a remote frame has none. -/
def CanMsg.dlcLen (m : CanMsg) : Nat :=
  let d := m.dlc.toNat
  if m.rtr then 0 else if d ≤ 8 then d else if !m.fdf then 8 else [12, 16, 20, 24, 32, 48, 64].getD (d - 9) 64

/-- The protocol errors of a CAN channel (R221, R225, LEC codes 1 to 6). -/
inductive CanErrKind where
  | stuff | form | ack | bitRecessive | bitDominant | crc
  deriving DecidableEq, Repr

/-- Where a CAN channel meets an error (R221): in a frame, as it sends an error or overload flag, in the first bit after its error
flag, or in each further run of dominant bits after it. -/
inductive CanErrPlace where
  | frame | flag | afterFlag | dominantRun
  deriving DecidableEq, Repr

/-- Where an error of a CAN channel was detected; `dominant`: the bus read dominant where a recessive stuff bit was sent, or during the
passive error flag after a missing acknowledge; `xl`: the frame received is an XL frame (R221). -/
structure CanErrAt where
  place    : CanErrPlace
  dominant : Bool
  xl       : Bool
  deriving DecidableEq, Repr

/-- The source of a Sync: its gPTP domain, and the clockIdentity of its grandmaster, first byte on the wire in the low byte (R47, R311). -/
structure SyncSource where
  domain   : Byte
  identity : BitVec 64
  deriving DecidableEq, Repr

/-- How a CAN transmission attempt ends (R218). -/
inductive CanTxResult where
  | sent | lostArbitration | error
  deriving DecidableEq, Repr

/-- What a LIN receiver observes of a response (R229). -/
structure LinRx where
  data     : List Byte
  checksum : Byte
  framing  : Bool
  bitErr   : Bool
  deriving DecidableEq, Repr

/-- Where an update message comes from (R394, R396). -/
inductive UpdSrc where
  | mailbox (mb : Mb)
  | svc
  deriving DecidableEq, Repr

/-- One write that a core issued in a lockstep window and the release buffer holds (R336). -/
structure HeldWrite where
  addr : Word
  data : Word
  be   : BitVec 4
  deriving DecidableEq, Repr

/-- One read that a core issued in a lockstep window, after so many of its writes (R336). -/
structure CoreRead where
  addr  : Word
  after : Nat
  deriving DecidableEq, Repr

/-- What one core's checker sees in a window (R335, R343): the folded outputs of both copies cycle by cycle, the
map of signature bits with an invalid rail pair, the writes and reads issued, and a release-buffer entry that ECC cannot correct. -/
structure CoreWindow where
  lead    : List (BitVec 64)
  trail   : List (BitVec 64)
  badRail : BitVec 64
  writes  : List HeldWrite
  reads   : List CoreRead
  eccBad  : Option (Fin 64)
  deriving DecidableEq, Repr

/-- The 8-byte header of a MIR record (R348). -/
structure MirHeader where
  table   : Byte
  index   : BitVec 16
  version : BitVec 16
  valid   : Bool
  deriving DecidableEq, Repr

/-- The body of a heartbeat record (R348): roles are 0 not paired, 1 primary, 2 secondary. -/
structure Heartbeat where
  role     : BitVec 2
  prefRole : BitVec 2
  takeover : Bool
  uid      : BitVec 64
  cfgGen   : Word
  run      : Word
  deriving DecidableEq, Repr

/-- The commands of the device: one constructor per row of the table. -/
inductive Instr where
  -- supplies, reset and clocks (17_startup_faults, 18_electrical)
  | vaonApplied (r : StartReport)
  | vaonLoss
  | rstNAssert
  | rstNRelease (r : StartReport)
  | refclkLoss (fabricLocked coreLocked : Bool)
  | supplyLow (rail : Rail) (millivolt : Nat)
  | supplyFault (rail : Fin 4)
  | storeOkSet
  | tempSample (temp : BitVec 16)
  | battSample (raw : BitVec 12)
  -- the reference (02_reference)
  | ppsEdge (freqCount : Nat) (freqAbsent : Bool)
  | sync (port : Port) (gm : SyncSource) (ref : RT) (interval : Fin 6)
  | syncReceiptTimeout
  | holdoverTime
  | countEdge (a b z : Bool)
  | angleGateEdge (port : Port)
  | stallTime
  -- ingress (03_ingress)
  | frameReceive (f : RxFrame)
  | linkDown (port : Port)
  | linkUp (port : Port) (mbps : Nat)
  | agingSweep
  | recoveryResetTimeout (fn : Fin 2048)
  -- buffer and fabric (04_buffer_fabric)
  | scrubRead (upset : List (Fin 36 × Byte))
  | scrubSweepEnd
  | egressSelect (port : Port)
  | cellArrive (out inp : Port) (plane : Fin 4) (seq : BitVec 12) (upset : List (Fin 2 × Fin 36 × Byte))
  | confluenceTimeout (out : Port)
  | underrun (out : Port)
  | frameTransmitEnd (port : Port)
  -- scheduling (05_scheduling)
  | atsEligible (port : Port) (cls : Fin 8) (dom : Fin 16)
  | gateEdge (port : Port)
  | gateListSwitch (port : Port)
  | preempt (port : Port)
  | mmVerifyTimeout (port : Fin 8)
  -- millrace windows (06_millrace)
  | windowDecision (port : Fin 20) (w : Fin 64)
  | windowOpen (port : Fin 20)
  | windowEnd (port : Fin 20)
  | windowSetAdopt (port : Fin 20)
  -- the screen (07_screen)
  | connSweep (entry : Fin 65536)
  | ruleBankSwap
  -- CAN channels (08_edge_buses)
  -- `age`: FCLK cycles since the start-of-frame edge
  | canReceive (ch : CanCh) (m : CanMsg) (own : Bool) (age : Nat)
  | canBusError (ch : CanCh) (kind : CanErrKind) (place : CanErrAt) (afterArbitration : Bool)
  | busOffRecoveryComplete (ch : CanCh)
  | canModeChange (ch : CanCh)
  | txPush (ch : CanCh) (buf : Fin 4) (prio : Bool)
  | canTxStart (ch : CanCh)
  | canTxEnd (ch : CanCh) (r : CanTxResult) (delay : Option Nat)
  | canLifetimeExpiry (ch : CanCh)
  | recover (ch : CanCh)
  | abortHead (ch : CanCh)
  | abortPrio (ch : CanCh)
  | flush (ch : CanCh)
  -- LIN channels (08_edge_buses)
  -- `baud`: the rate measured on the sync byte; `age`: FCLK cycles since the falling edge of the break
  | linHeader (ch : LinCh) (pid : Byte) (baud age : Nat)
  | linResponse (ch : LinCh) (r : LinRx)
  | lpub (ch : LinCh) (obj : Fin 64)
  | linSched (ch : LinCh) (v : Byte)
  | linSlot (ch : LinCh)
  | linNoResponse (ch : LinCh)
  | goToSleep
  | linRestart (ch : LinCh)
  -- the gateway (09_gateway)
  | periodBoundary (route : Fin 4096)
  | runRetry (route : Fin 4096)
  | spacedRun (route : Fin 4096)
  -- the frame the fabric has handed to the gateway at P23
  | acfFrameReceive (bytes : List Byte) (stomped : Bool)
  | gwStale (obj : Fin 2048)
  | cvStart (u : Fin 8)
  | cvFeed8 (u : Fin 8) (v : Byte)
  | cvFeed16 (u : Fin 8) (v : BitVec 16)
  | cvFeed32 (u : Fin 8) (v : Word)
  -- host bridges (10_host)
  -- the first word with its byte enables, and the words after it
  | pcieMemoryWrite (bar : Bar) (off : Nat) (more : List (Word × BitVec 4)) (be : BitVec 4) (v : Word)
  | postedWriteDeliver (b : Bridge)
  | pcieMemoryRead (bar : Bar) (off words : Nat)
  | pcieConfigurationRequest (reg : Fin 1024) (w : Option Word)
  | functionLevelReset
  | perstN (low : Bool)
  | write (addr : Word) (words : List Word)
  | read (addr : Word) (words : Nat)
  | status
  | targetTimeout (b : Bridge) (isRead : Bool)
  | dwPwePop
  | dwMbRing (mask : BitVec 16)
  | dwMbDone (mask : BitVec 16)
  | dwMbAbort (mask : BitVec 16)
  | registerWrite (m : Master) (addr : Word) (v : Word) (be : BitVec 4)
  -- mailbox commands (10_host)
  | echo (mb : Mb)
  | getInfo (mb : Mb)
  | paramGet (mb : Mb)
  | paramSet (mb : Mb)
  | objOpen (mb : Mb)
  | objWrite (mb : Mb)
  | objCommit (mb : Mb)
  | objCancel (mb : Mb)
  | objDma (mb : Mb)
  | objDmaCompletion (data : List Byte) (ok : Bool)
  | objDmaTimeout
  | objAreaTimeout
  | objLoad (mb : Mb)
  | frameSend (mb : Mb)
  | faultClear (mb : Mb)
  | connRemove (mb : Mb)
  | nmHostNeed (mb : Mb)
  | nmHostRelease (mb : Mb)
  | nmStatus (mb : Mb)
  | pairStatus (mb : Mb)
  | pairRole (mb : Mb)
  -- security commands (14_security)
  | keyLoad (mb : Mb)
  | keyClear (mb : Mb)
  | keyDerive (mb : Mb)
  | otpProgram (mb : Mb)
  | otpProgrammingComplete
  | sigVerify (mb : Mb)
  | aesGcmEncrypt (mb : Mb)
  | aesGcmDecrypt (mb : Mb)
  | aesCmacGenerate (mb : Mb)
  | aesCmacVerify (mb : Mb)
  | sha384 (mb : Mb)
  -- field update (15_update)
  | updStatus (mb : Mb)
  | updLock (mb : Mb)
  | header (src : UpdSrc)
  | block (src : UpdSrc)
  | blockStore
  | finish (src : UpdSrc)
  | cancel (src : UpdSrc)
  | go (src : UpdSrc)
  | pairGoIssue
  | activation (r : StartReport) (copyOk recopyOk : Bool)
  | activationDeadline
  | svcFrameReceive (bytes : List Byte)
  -- island commands and diagnostics (16_nernum, 17_startup_faults)
  | nrnRead (mb : Mb)
  | nrnStage (mb : Mb)
  | nrnFetch (mb : Mb)
  | diagMemtest (mb : Mb)
  | regionTestEnd (bad : Option (Word × Word × Word))
  | diagScrubFast (mb : Mb)
  | diagCmpTest (mb : Mb)
  | diagCounters (mb : Mb)
  | maintenanceTokenGrant
  -- the direct window (11_parameters)
  | capture
  | snapSecondCapture
  | dwIrqForce (v : Word)
  | irqModerationExpiry
  | snapshotStaticRewrite
  -- wake and sleep (12_wake_sleep)
  | keepAliveSend
  | wakeHoldExpiry
  | ebbTimeout
  | commit
  | wakeLineEdge (w : Fin 4)
  | canWakePattern (ch : CanCh)
  | linWakePulse (ch : LinCh)
  | phyWake (k : Fin 8)
  | aonSwWake
  | warmWake (r : StartReport) (slackMs : Word)
  | wakePulseEnd (w : Fin 4)
  | maximumAwakeTime (node : Byte)
  | ignoredNodeRelease (node : Byte)
  -- lockstep and the pair (13_redundancy)
  | lockstepCompare (c0 c1 : CoreWindow)
  | checkpoint (body : List Byte)
  | comparatorInjectionTest (fail : Option CmpReport)
  | heartbeatSend
  | heartbeat (h : Heartbeat)
  | entryUpdate (h : MirHeader) (body : List Byte)
  | digest (table : Fin 5) (v : BitVec 64)
  | resyncBegin (table : Fin 5)
  | resyncEnd (table : Fin 5)
  | roleChange (at_ : RT)
  | mailboxTransaction (addr : Word) (w : Option Word)
  | wakeRequest
  | mirrorCompare
  | resync (table : Fin 5)
  | partnerSilence
  | pairRoleTimeout
  -- tamper, working-key material and authenticator (14_security)
  | tamperEvent (src : BitVec 4)
  | wkMat (m : Master) (wk : Fin 32) (word : Fin 24) (v : Word)
  | authStart (ctx : Fin 4)
  | authFeed8 (ctx : Fin 4) (v : Byte)
  | authFeed32 (ctx : Fin 4) (v : Word)
  | authFinish (ctx : Fin 4)
  -- the Nernum island (16_nernum); `dt` counts 250 ns periods of the island oscillator since its last command
  | islandStart (dt : Nat)
  | islandStop
  | wheelPulse (dt : Nat) (chB : Bool)
  | speedZero (dt : Nat)
  | motionStop (dt : Nat)
  | periodicRecord (dt : Nat)
  | recordWrite (dt : Nat)
  | referenceLinkMessage (dt : Nat)
  | sealOpened (dt : Nat)
  | sealClosed (dt : Nat)
  | calibrationPoll (dt : Nat)
  -- JTAG (18_electrical)
  | bypass
  | idcode
  | samplePreload (pins : List Bool)
  | extest (pins : List Bool)
  -- further reference, CAN, host, wake and pair events
  | syncTransmission (port : Port)
  | pdelayReq (port : Port) (t2 t3 : RT) (turnaround : Nat)
  | canIntegration (ch : CanCh)
  | unknownInstruction (op : Byte)
  | unknownCommand (mb : Mb)
  | wakeLineLow (w : Fin 4)
  | badRecord (badCrc : Bool)
  | resyncCompleted (table : Fin 5)
  | tqExpiry (dt : Nat)
  | pcieLinkLoss
  deriving DecidableEq, Repr

end Sys2Proof
end

