-- ==== Sys2Proof/Decode.lean ====
section
/-! DEFINITION. The decoder of table words. The spec gives no row of the command table any bits, so no word spells a command:
commands come from outside as operations and events, with the operands of `Instr`. -/

namespace Sys2Proof

/-- The command that a word of the table spells: none. -/
def decodeTableWord (nbits w : Nat) : Option Instr :=
  match nbits, w with
  | _, _ => none

end Sys2Proof
end

