-- ==== Sys2Proof/Config.lean ====
section
/-! DEFINITION. What one part or one run fixes and the spec leaves open: free values. Nothing here has a body, so no
proof can rest on a value of it. Each constant is named in the assumption log. -/

namespace Sys2Proof.Config

/-- A free value: the n-th open choice of a run (log entry 2). -/
opaque freeNat : Nat → Nat

/-- Whether a half of 1 m°C is rounded up at a code of the die temperature (R307). -/
opaque tempRound : Nat → Bool

/-- A free 64-bit value: the n-th open word of a run (log entry 2). -/
opaque freeWord : Nat → BitVec 64

/-- Contents of the boot mask ROM (R22). -/
opaque romByte : Nat → Byte

/-- Unique device number, from OTP (R299, R311). -/
opaque uid : BitVec 64

/-- Silicon step, DW_REV.STEP (R311). -/
opaque siliconStep : Byte

/-- Firmware version and build of the firmware in the part (R284). -/
opaque fwVersion : Word

/-- The firmware's build identification (R284). -/
opaque fwBuild : Word

/-- Island version and code checksum (R306, R428). -/
opaque islandVersion : Word

/-- Checksum of the island's mask ROM (R428). -/
opaque islandChecksum : Word

/-- IDCODE bits outside the part-number field (R461). -/
opaque idcodeRest : Word

/-- The island's unique number (R421, R427). -/
opaque islandUid : BitVec 64

/-- SHA-384 of the island's mask ROM (R427), byte by byte. -/
opaque islandRomDigest : Nat → Byte

/-- The island's signature of a digest with its OTP key (R421): 96 bytes r ‖ s. -/
opaque islandSign : List Byte → List Byte

/-- The public key of the island's OTP key: 96 bytes. -/
opaque islandPublic : List Byte

/-- What a PCIe configuration register reads before anything has written it (R263). -/
opaque pcieConfig : Nat → Word

/-- DW_BATT.MV of a converter code whose product does not fit its 16 bits, and the die temperature of a sample outside the range of PID 0x1101:
the spec states no value (R307, R312). -/
opaque battOver : Nat → BitVec 16
opaque tempOver : BitVec 16 → Nat

/-- The first registers of the PCI Express, MSI-X and advanced error reporting capabilities: the spec does not say where they lie (R263). -/
opaque pcieExpressCap : Nat
opaque pcieMsixCap : Nat
opaque pcieAerCap : Nat

/-- The largest burst count and the longest frame in bytes on the 10BASE-T1S segment of P20 + i, which its other stations share in
(R301). -/
opaque plcaBurst : Nat → Nat
opaque plcaLongest : Nat → Nat

/-- What a PCIe configuration register holds after a write: register, value before, value written (R263). -/
opaque pcieStore : Nat → Word → Word → Word

/-- Which MSI-X vectors are enabled and unmasked after a write to a configuration register: register, value written, vectors before.
The spec does not say where the MSI-X structures lie (R263, R265). -/
opaque msixStore : Nat → Word → BitVec 4 → BitVec 4

/-- Bytes that the spec leaves open: a draw and a length (log entry 2). -/
opaque freeBytes : Nat → Nat → List Byte

/-- Room of the firmware transmit queue of P22 beyond one frame (R290). -/
opaque p22Queue : Nat

/-- Size in bytes of a stored snapshot that holds so many bytes of table memory and so many parameters (R329, R330). -/
opaque snapBytes : Nat → Nat → Nat

/-- The stored snapshot as a reader of its MRAM region sees it: sequence and address. -/
opaque snapByte : Nat → Nat → Byte

/-- A byte of the staging record of an area, whose layout is open: number of record writes and address (R404). -/
opaque recordByte : Nat → Nat → Byte

/-- The MAC address of SVC (R392). -/
opaque svcMac : BitVec 48

/-- The link-local IPv4 address of SVC (R392). -/
opaque linkLocal : Word

end Sys2Proof.Config
end

