-- ==== Sys2Proof/Machine/SMap.lean ====
section
/-! DEFINITION. Sparse maps in one canonical form: the shape of every memory, counter file and indexed group of State. -/

namespace Sys2Proof.Machine

/-- Sparse data by key: pairs with strictly rising keys, none of which holds the value an unlisted key reads as. -/
abbrev SMap (β : Type) := List (Nat × β)

/-- The value at `k`; `d` is what an unlisted key reads as. -/
def SMap.get {β : Type} (d : β) : SMap β → Nat → β
  | [], _ => d
  | (j, v) :: m, k => if j = k then v else SMap.get d m k

/-- `m` without any entry at `k`. -/
def SMap.erase {β : Type} : SMap β → Nat → SMap β
  | [], _ => []
  | (j, v) :: m, k => if j = k then SMap.erase m k else (j, v) :: SMap.erase m k

/-- `m` with `v` at `k`, in key order. -/
def SMap.put {β : Type} : SMap β → Nat → β → SMap β
  | [], k, v => [(k, v)]
  | (j, w) :: m, k, v =>
    if k < j then (k, v) :: (j, w) :: m
    else if k = j then (k, v) :: m
    else (j, w) :: SMap.put m k v

/-- Write `v` at `k`; writing the default removes the entry, so equal maps are equal data. -/
def SMap.set {β : Type} [DecidableEq β] (d : β) (m : SMap β) (k : Nat) (v : β) : SMap β :=
  if v = d then SMap.erase m k else SMap.put m k v

/-- Every key of `m` is above `b`, keys rise, and no entry holds what its key reads as when unlisted. -/
def SMap.wfAbove {β : Type} [DecidableEq β] (d : Nat → β) : Option Nat → SMap β → Bool
  | _, [] => true
  | b, (k, v) :: m =>
    (match b with | none => true | some j => decide (j < k)) && decide (v ≠ d k) && SMap.wfAbove d (some k) m

/-- The canonical form; `d` gives what an unlisted key reads as. -/
def SMap.wf {β : Type} [DecidableEq β] (d : Nat → β) (m : SMap β) : Bool := SMap.wfAbove d none m

/-- Drop the entries whose key satisfies `p`. -/
def SMap.dropKeys {β : Type} (p : Nat → Bool) (m : SMap β) : SMap β := m.filter (fun e => !p e.1)

/-- Keep the entries whose key satisfies `p`. -/
def SMap.keepKeys {β : Type} (p : Nat → Bool) (m : SMap β) : SMap β := m.filter (fun e => p e.1)

end Sys2Proof.Machine
end

