-- ==== Sys2Proof/Machine/State.lean ====
section
/-! DEFINITION. The state of the LX4192: everything the spec gives the device, as plain data, and its value at reset. -/

namespace Sys2Proof.Machine

/-- Power modes (R28). -/
inductive PowerMode where
  | off | startUp | operating | slack | failSilent
  deriving DecidableEq, Repr

/-- States of the time source (R52). -/
inductive TimeState where
  | free | unset | acquiring | locked | holdover | lost
  deriving DecidableEq, Repr

/-- States of the angle source (R65). -/
inductive AngleState where
  | off | unindexed | running | stalled | lost
  deriving DecidableEq, Repr

/-- Network-management states outside Slack (R320). -/
inductive NmState where
  | awake | ebb | commit
  deriving DecidableEq, Repr

/-- Local time, FCLK count and time source (R37 to R57). Local time and rate are in units of 2⁻³² ns. -/
structure TimeRef where
  cycle      : Nat            -- FCLK cycles since release of RST_N or warm wake (R39)
  ltime      : Nat            -- local time (R37)
  since    : Nat          -- local time at which it last began or was stepped: from there on it has been continuous
  incr       : Nat            -- increment of one FCLK cycle (R37, R38)
  state      : TimeState
  inWindow   : Nat            -- consecutive samples inside the lock window (R53)
  lastSample : Nat            -- cycle of the last valid sample
  holdSince  : Nat            -- cycle of entry to Holdover
  interval   : Nat            -- sample interval in cycles (R53)
  gm         : Option (BitVec 64) -- grandmaster identity
  offset     : Int            -- last measured offset, in 2⁻³² ns
  slew       : Int            -- offset still to be slewed (R38)
  refIncr    : Nat            -- measured reference rate, as an increment (R38)
  steps      : Word           -- DW_REF_STEPS (R54)
  ppsSec     : Option (Nat × Nat) -- pending seconds value and the local time of its write (R50)
  ppsLast    : Option Nat     -- local time of the previous PPS edge (R51)
  ppsCycle   : Option Nat     -- cycle of the previous PPS edge (R49)
  upstream   : Option (Nat × Nat) -- time that the last Sync gave, link delay included, and its timestamp (R40, R47)
  deriving DecidableEq, Repr

/-- The two-step Sync that a master port has sent, as its follow-up states it (R40, R47): domain, sequence number, egress
timestamp with the compensation of the port, reference time of that instant, and how much of it is residence in the device. -/
structure FollowUp where
  domain    : Byte
  seq       : BitVec 16
  stamp     : Nat
  time      : Nat
  residence : Nat
  deriving DecidableEq, Repr

/-- What one gPTP port keeps (R47). -/
structure GptpPort where
  syncSeq   : BitVec 16
  pdelaySeq : BitVec 16
  lastResp  : Option (Nat × Nat)  -- remote and local time of the last response
  rateNum   : Nat                 -- neighbour rate ratio as a fraction
  rateDen   : Nat
  linkDelay : Int                 -- in 2⁻³² ns
  announce  : Option (Nat × Nat)  -- priority vector of the last Announce received, and the cycle in which it expires
  sentSync  : Option FollowUp     -- the last Sync sent
  sentAnn   : Option (Byte × BitVec 64 × Byte) -- the last Announce sent: priority1, grandmaster, domain
  deriving DecidableEq, Repr

/-- A gate or guard edge placed between count edges (R62, R152). -/
structure PlacedEdge where
  port  : Nat
  angle : Nat
  fire  : Nat    -- FCLK cycle
  entry : Nat    -- entry that a gate edge begins
  guard : Bool   -- a guard edge rather than a gate edge
  cls   : Nat    -- class of a guard edge
  close : Nat    -- turn and angle of the closing of a guard edge
  deriving DecidableEq, Repr

/-- A guard band that has begun on an angle basis (R152): port, class, turn and angle of its closing, and the name of the merged
band that it belongs to (R151). -/
structure AngleBand where
  port  : Nat
  cls   : Nat
  close : Nat
  mark  : Nat
  deriving DecidableEq, Repr

/-- The shaft-angle source (R58 to R65). -/
structure AngleUnit where
  encA     : Bool
  encB     : Bool
  angle    : BitVec 16
  turn     : Word
  rev      : Bool
  indexed  : Bool
  zTaken   : Bool              -- the index of the present ENC_Z pulse has been taken (R60)
  state    : AngleState
  hist     : List (Nat × Nat)  -- recorded angle and local time of the last edges of one direction, newest first (R61)
  lastEdge : Nat               -- cycle of the last count edge
  quadErrs : Word              -- quadrature-error counter
  quadTurn : Nat               -- quadrature errors in the present turn
  mismatch : Word              -- index-mismatch counter
  placed   : List PlacedEdge
  guards   : List AngleBand    -- guard bands that have begun (R152)
  deriving DecidableEq, Repr

/-- The captured reference-time snapshot (R46, R314). -/
structure Snap where
  auto   : BitVec 2
  secSeen : Nat      -- SEC of local time at the last automatic capture or at the write of AUTO
  count  : BitVec 16
  at_    : Option Nat -- FCLK cycle of the last capture of this run
  ltime  : Nat
  cycle  : Nat
  stamp  : BitVec 64
  tstate : BitVec 3
  astate : BitVec 3
  cause  : BitVec 2
  omega  : Word
  offset : Word
  steps  : Word
  gm     : BitVec 64
  deriving DecidableEq, Repr

/-- Header of a gate list held in a bank (R144). -/
structure GateHdr where
  gen   : BitVec 16
  angle : Bool
  count : Nat
  cycleTime : Nat     -- ns
  base  : Nat         -- BASE_TIME in 2⁻³² ns
  deriving DecidableEq, Repr

/-- The weir of one port (R143 to R149, R157). -/
structure Gate where
  cur      : Option GateHdr
  pend     : Option GateHdr
  switchAt : Nat       -- switch instant of the pending list, local time; angle basis: earliest local time of it
  entry    : Nat       -- entry in effect
  state    : Byte      -- gate state applied at the MAC
  nextEdge : Nat       -- time basis: local time at which the next entry begins
  due      : Bool      -- angle basis: the turn boundary of the switch has been crossed
  deriving DecidableEq, Repr

/-- A decided millrace window (R159): index in its set, the instant of its opening and the set's own copy of the entry. -/
structure DecidedWin where
  idx    : Nat
  inPort : Nat
  handle : Nat
  maxLen : Nat
  cyc    : Int         -- cycle of the list to which the opening belongs
  open_  : Nat         -- local time of the opening
  arrive : Nat         -- ns
  span   : Nat         -- ns
  ownSet : Bool        -- false: it stands from an earlier set (R162)
  guard  : List Nat    -- guard band of each class at the decision, in cycles; classes 0 to 7
  deriving DecidableEq, Repr

/-- The window that is open on a port, and its candidate (R164 to R166). -/
structure OpenWin where
  win       : DecidedWin
  openedAt  : Nat            -- FCLK cycle
  candidate : Bool           -- a candidate has been taken
  candEnd   : Nat            -- cycle in which the gap after the candidate ends
  candFrom  : Nat            -- cycle in which its preamble begins at Pi
  candTo    : Nat            -- cycle in which its last byte completes at Pi
  deriving DecidableEq, Repr

/-- The millrace unit of one egress port (R159 to R166, R174). -/
structure Millrace where
  curGen    : Option (BitVec 16)  -- generation of the current window set
  curCount  : Nat
  pendGen   : Option (BitVec 16)
  pendCount : Nat
  nextGen   : Option (BitVec 16)  -- a set for the current generation that waits for the next cycle start (R162)
  nextCount : Nat
  nextSet   : List Byte           -- its entries
  nextAt    : Nat                 -- local time of that cycle start
  decided   : List DecidedWin
  judged    : SMap (List Int)     -- per window of the current set: the cycles of the list whose opening has been decided or withdrawn
  opened    : Option OpenWin
  freeAt    : Nat                 -- first cycle in which the port is free of the last window that has ended (R166)
  lastIdx   : Nat
  deriving DecidableEq, Repr

/-- The result of a lookup of the screen (R183). -/
structure Verdict where
  pass   : Bool
  cls    : Option Nat
  dom    : Option Nat
  copied : Bool
  rule   : Nat       -- 0x3FFF for a default action
  reason : Nat
  deriving DecidableEq, Repr

/-- What stages 1 to 6 have made of a frame so far (R68). `dropped`: 0 no, else the stage. -/
structure Head where
  dropped : Nat
  count   : Nat              -- offset of the port counter of a drop by stage 4; 0 none
  vid     : Nat
  entry   : Option Nat       -- its stream entry
  dests   : Nat              -- destination set of stage 4
  trap22  : Bool             -- P22 is in the set by a trap
  asIs    : Bool             -- trapped while P22 is no member of its VLAN (R154)
  several : Bool             -- flooded, a group address, sent by OUT_PORTS, or with a trap copy (R122)
  untag   : Nat
  act     : Option (Option Nat × Nat) -- the rule that stage 3 has matched, and its action (R193)
  cause   : Nat              -- why the screen drops it: offset of the counter of its lookup port; 0 it passes (R183, R199)
  length  : Nat              -- the length with which it is charged (R190)
  verdict : Verdict
  learn   : Option Nat       -- FID in which the source may be learned
  seq     : Option (BitVec 16) -- sequence number received or assigned (R86)
  cls     : Nat
  dom     : Nat              -- until stage 6 the domain that its VLAN entry gives, 16 none (R310)
  deriving DecidableEq, Repr

/-- A frame that is arriving at a switch port, or whose stages have not ended (R68 to R94, R165 to R173). -/
structure Arrival where
  fid      : Nat               -- its number, and that of its record in the buffer
  port     : Port
  express  : Bool
  raw      : List Byte         -- its bytes as they arrive, DA to FCS, as far as the MAC takes them (R73)
  code     : Bool              -- a code error is reported inside it
  past     : Bool              -- it is cut for oversize (R73)
  fell     : Bool              -- the link fell before its end (R73)
  cls      : BitVec 3          -- descriptor of a frame from P22 or P23 (R89)
  dom      : BitVec 4
  rate     : Nat               -- Mb/s at which it arrives
  pre      : Nat               -- cycle in which its preamble begins
  start    : Nat               -- cycle in which its first byte begins
  stop     : Nat               -- cycle in which its last byte is complete
  ts       : Nat               -- timestamp of its start-of-frame delimiter, with the ingress compensation (R40)
  hdr      : Nat               -- cycle in which its bytes can be parsed; then that in which its last parsed header byte is complete, H
  hs       : Nat               -- steps of its head that have been taken
  es       : Nat               -- steps of its end that have been taken
  admitted : Bool
  quiet    : Bool              -- refused, or dropped by its MAC or by MACsec: its bytes arrive and do nothing more
  resv     : Nat               -- cells reserved and not yet taken (R102)
  buf      : List Byte         -- the frame for the buffer, DA to FCS; behind MACsec the plain one
  off      : Nat               -- bytes of the SecTAG that precede its buffered bytes
  sa       : Option Nat        -- the secure association whose check its end awaits (R90, R373)
  wiped    : Bool              -- it was in verification as a tamper event erased the keys (R387)
  bad      : Bool              -- found bad (R119)
  head     : Head
  stored   : Bool              -- it has a record in the buffer
  cand     : Option Nat        -- Po of the window whose candidate it is
  fail     : Option (Nat × Nat) -- cause and cycle of the failure of the candidate (R170)
  decided  : Bool              -- the check of the candidate has ended
  deriving DecidableEq, Repr

/-- A frame in the buffer (R16, R95, R103). Its bytes, DA to FCS, stand in its cells. Destination 24 is a screen copy
to P22 (R192). -/
structure Frame where
  inp     : Port
  len     : Nat               -- bytes, DA to FCS
  cells   : List Nat          -- buffer cells enqueued so far, in order
  whole   : Bool              -- its last cell is among them
  cls     : Fin 8
  dom     : Fin 16
  vid     : BitVec 12         -- classified VID
  pcp     : Option (BitVec 3) -- received PCP
  dei     : Bool
  ctag    : Bool              -- a C-VLAN tag stands in its bytes
  rtag    : Bool              -- an R-TAG stands in its bytes
  seq     : Option (BitVec 16) -- sequence number assigned or received
  rtags   : Option (BitVec 24) -- RTAG_PORTS of its stream; none: no stream
  untag   : BitVec 24         -- UNTAG of its VLAN
  trap    : Bool              -- trapped to P22 outside its VLAN (R154)
  ip      : Nat               -- 0, 4 or 6
  ipOff   : Nat               -- offset of the IP header
  ecn     : Nat               -- ECN field as received
  dests   : BitVec 25         -- destinations that have not finished with it
  queued  : BitVec 25         -- destinations at which it has been enqueued
  cutOk   : BitVec 24         -- destinations toward which it is cut-through eligible (R90)
  markEcn : BitVec 25         -- destinations at which it leaves with ECN 0b11 (R105)
  markDei : BitVec 25         -- destinations at which it leaves with DEI 1
  multi   : Bool              -- its destinations are served as those of R122
  copy    : Option (Port × BitVec 14 × Byte × Bool) -- the screen copy: LPORT, rule index, COPY_REASON, verdict pass
  copyCls : Fin 8             -- class and domain of the copy (R192)
  copyDom : Fin 16
  bad     : Bool              -- found bad (R119)
  first   : Nat               -- cycle of its first byte
  endAt   : Nat               -- cycle of its last byte
  readBy  : SMap Nat          -- cells that each destination has read
  freed   : Nat               -- cells returned
  gptp    : Bool              -- its EtherType, directly after SA or its C-VLAN tag, is that of gPTP (R371)
  ts      : Option Nat        -- a gPTP frame: local time of its arrival, with the ingress compensation (R40, R74)
  deriving DecidableEq, Repr

/-- A cell on its way to an output (R109 to R113), or held in its confluence. -/
structure CellTx where
  fid   : Nat
  inp   : Port
  out   : Port
  dest  : Nat        -- destination of the frame it serves: the port, or 24 for a copy
  idx   : Nat        -- which cell of the frame
  cell  : Nat        -- buffer cell
  cls   : Fin 8
  seq   : BitVec 12
  at_   : Nat        -- waiting: cycle from which it may launch; in flight or held: of its arrival; released: of its decoding
  data  : List Byte  -- its 64 bytes and 8 check symbols, once it has been read
  upset : List (Nat × Nat × Nat) -- errors in its codewords as it arrived: half, symbol, value
  deriving DecidableEq, Repr

/-- What the read port of an input still has to read for a frame that an output has pulled (R109). -/
structure Pull where
  fid  : Nat
  inp  : Port
  out  : Port
  dest : Nat
  cls  : Fin 8
  idx  : Nat        -- which cell of the frame comes next
  at_  : Nat        -- first cycle in which its read may begin
  deriving DecidableEq, Repr

/-- An installed MACsec secure association (R372). Key: port · 32 + dir · 16 + sc · 4 + an. -/
structure SecAssoc where
  wk      : Fin 32
  conf    : Bool
  active  : Bool
  replay  : Bool
  window  : Word
  sci     : BitVec 64
  salt    : BitVec 96
  ssci    : Word
  pn      : BitVec 64      -- transmit: next packet number; receive: highest verified
  deriving DecidableEq, Repr

/-- A frame that an egress port has selected or is sending (R133 to R142). -/
structure TxFrame where
  fid    : Nat
  frame  : Frame       -- its record as it was selected
  dest   : Nat         -- the port, or 24 for a screen copy
  cls    : Fin 8
  dom    : Fin 16
  pcpCls : Bool        -- the egress options in force at its selection (R154, R158)
  cost   : Nat         -- the cost that its leaf has been charged (R129)
  known  : Bool        -- the cost is that of its length; else that of MAXF, until its last byte has arrived (R129)
  tau    : Nat         -- the MAC start instant for which it was selected; once begun, the cycle in which it began
  begun  : Bool        -- it is in transmission
  got    : Nat         -- cells taken from the confluence
  raw    : List Byte   -- the bytes of those cells
  sent   : Nat         -- bytes sent before the present fragment
  fragAt : Nat         -- cycle from which its first bit can leave the MAC
  preempted : Bool     -- a fragment of it has been sent
  overran   : Bool     -- its class has reached Closed during its transmission (R134)
  sa     : Option (Nat × SecAssoc × List Byte) -- AN, association and key that protect it, from its beginning on (R372)
  cut    : Option (Nat × Nat) -- bytes that had left when a tamper event fell into its protection, and the draw of the rest
  deriving DecidableEq, Repr

/-- PLCA of P20 or P21 (R153, R301). -/
structure Plca where
  wait  : Option Nat -- cycle of the transmit opportunity that the selected frame waits for
  left  : Nat        -- frames that may still begin in the present opportunity
  till  : Nat        -- last cycle in which the next of them may begin
  fresh : Bool       -- it restarts at the next BEACON of another station
  deriving DecidableEq, Repr

/-- The egress side of one port (R127 to R142). -/
structure Egress where
  tx         : Option TxFrame
  next       : List TxFrame   -- selected after it, in order
  held       : Option TxFrame
  freeAt     : Nat        -- cycle at which the MAC is free
  lastSelect : Nat        -- the cycle after the last selection
  plca       : Plca       -- P20, P21
  limits     : List (Option Nat × Nat) -- port rate limit: next start by each frame sent, in 2⁻¹⁶ cycles (R140)
  verify     : BitVec 2   -- MM_STATUS.VERIFY
  attempts   : Nat
  verifyAt   : Nat        -- cycle of the last verification attempt
  deriving DecidableEq, Repr

/-- One class of one port (R129, R136, R138). -/
structure ClassQ where
  v         : Word        -- V[o, c]
  credit    : Int         -- 1/256 bit
  carry     : Nat         -- part of an increment below 1/256 bit, in units of 1/(256 · 10⁶) bit
  atsBucket : Int         -- bucket_empty, 2⁻¹⁶ cycle
  atsGroup  : Int
  depth     : Nat         -- D[o, c]
  guardMark : Nat         -- closing whose guard band has been counted in GUARD_HOLD
  deriving DecidableEq, Repr

/-- A frame waiting in a leaf (R103, R128). -/
structure LeafItem where
  fid  : Nat
  dest : Nat            -- the port, or 24 for a screen copy
  enq  : Nat            -- cycle in which its first cell is enqueued
  elig : Option Nat     -- eligibility cycle under the asynchronous shaper; none: eligible when enqueued
  act  : Bool           -- the eligibility time has arrived (R138)
  deriving DecidableEq, Repr

/-- One leaf (R128, R129). -/
structure Leaf where
  s     : Word
  items : List LeafItem
  deriving DecidableEq, Repr

/-- State of a recovery function (R87). -/
structure Recov where
  takeAny : Bool
  seq     : BitVec 16
  hist    : Word
  timer   : Option Nat      -- cycle of the last passed frame while the timer runs
  deriving DecidableEq, Repr

/-- State of a meter (R190, R191): tokens in 1/256 byte or unit, remainders, cycle of the last charge, mark-all-red latch. -/
structure Meter where
  tc    : Nat
  te    : Nat
  tcRem : Nat
  teRem : Nat
  last  : Nat
  mar   : Bool
  deriving DecidableEq, Repr

/-- A CAN transmit entry (R216, R217). `src`: 0 to 3 a staging buffer, 4 + r a gateway route, 5000 a keep-alive. -/
structure CanEntry where
  msg      : CanMsg
  src      : Nat
  tag      : BitVec 16
  lifetime : Nat
  tick     : Nat
  long     : Option (Fin 4)
  deriving DecidableEq, Repr

/-- A PDU on its way into a gateway object (R242). -/
structure Pdu where
  id   : Nat
  ide  : Bool
  fdf  : Bool
  xlf  : Bool
  brs  : Bool
  rtr  : Bool
  sec  : Bool
  sdt  : Nat
  vcid : Nat
  af   : Nat
  data : List Byte
  ts   : Word
  deriving DecidableEq, Repr

/-- A unit whose key the gateway lookup port takes (R194), with what it becomes when it passes: a message received on a CAN or LIN channel, one taken
from an IEEE 1722 frame, a transmit push, a LIN commit. `rs`: the routes that it feeds. -/
inductive GwUnit where
  | canRx (ch : CanCh) (m : CanMsg) (own : Bool) (ts : Word) (obj : Option Nat) (rs : List Nat)
  | linRx (ch : LinCh) (obj : Nat) (data : List Byte) (ts : Word) (rs : List Nat)
  | acf (rs : List Nat) (pdu : Pdu)
  | push (ch : CanCh) (buf : Fin 4) (prio : Bool) (e : CanEntry)
  | lpub (ch : LinCh) (obj : Nat) (data : List Byte)
  deriving DecidableEq, Repr

/-- A key that has become complete, with the data of its unit. -/
structure GwKey where
  unit : GwUnit
  key  : Nat
  data : List Byte
  at_  : Nat               -- cycle in which it became complete
  deriving DecidableEq, Repr

/-- A lookup of the gateway port under way: cycle 0 of R193, the steps taken and their results. -/
structure GwLookup where
  k       : GwKey
  from_   : Nat
  hs      : Nat
  act     : Option Nat × Nat
  cause   : Nat
  verdict : Verdict
  deriving DecidableEq, Repr

/-- The gateway lookup port (R193, R194). -/
structure GwPort where
  first  : List GwKey        -- keys that wait, by source; of the third source those beyond 64 are writes held on the interconnect
  second : List GwKey
  third  : List GwKey
  turn   : Bool              -- the third source is served next where the second waits too
  nextAt : Nat               -- cycle from which the next key can be taken
  hand   : List GwLookup
  rest   : Option (Nat × Word × List Byte) -- the frame from P23 that is being taken apart: receive slot, timestamp, messages that have not entered
  deriving DecidableEq, Repr

/-- A CAN channel (R204 to R226). -/
structure Can where
  mode     : Fin 4
  pstate   : Fin 8
  lec      : BitVec 3
  tec      : Nat
  recErr   : Nat
  busOff   : Bool
  recov    : Nat
  recovering : Bool
  tdcv     : Byte
  irq      : Byte
  irqEn    : Byte
  queue    : List CanEntry
  prio     : Option CanEntry
  attempt  : Option Bool        -- an attempt is in progress: true from the priority slot
  sof      : Word               -- TS32 of its start of frame
  doomed   : Option (BitVec 3)  -- the entry in the attempt leaves with this OUTCOME if the attempt fails
  opts     : BitVec 9           -- format options in force (R239)
  boOpts   : BitVec 2           -- bus-off options in force (R239)
  nominal  : Word               -- bit timing in force (R206)
  fdData   : Word
  xlData   : Word
  lastTx   : Option CanMsg      -- the last message the channel began to send
  busyTo   : Nat                -- cycle in which the bus becomes idle after a frame, as far as known
  startAt  : Nat                -- first cycle in which an attempt may begin after suspend transmission (R221)
  acked    : Bool               -- the channel has sent the acknowledge bit of the last frame received (R204)
  ours     : Bool               -- the frame, or error, after which the bus has still to become idle was in an attempt of its own (R225)
  hold     : Bool               -- restricted operation goes on after a takeover until the bus is idle (R355)
  ended    : Bool               -- bus-off has ended the attempt whose end is still to be reported (R208, R222)
  errFlag  : Option Bool        -- the error flag sent for the last error: true active, false passive; none: none (R204, R221)
  deriving DecidableEq, Repr

/-- What a header on a LIN channel stands for: a frame of its own, an event-triggered slot, a sporadic frame, or the go-to-sleep
command (R236, R323). -/
inductive LinKind
  | plain
  | event
  | sporadic
  | sleep
  deriving DecidableEq, Repr

/-- The header on a LIN channel. -/
structure LinHdr where
  id   : Nat
  kind : LinKind
  at_  : Nat                -- cycle in which its protected identifier completes
  past : Bool               -- it has completed
  ctrl : List Nat           -- control fields of the channel's objects as they stood when it began (R230)
  sig  : Nat                -- the response error signal, PID 0x0950 + m, as it stood when it began (R240)
  deriving DecidableEq, Repr

/-- A LIN channel (R227 to R238). -/
structure Lin where
  running  : Bool
  table    : Fin 8
  entry    : Fin 64
  rets     : List (Fin 8 × Fin 64) -- entries whose collisions are being resolved, the latest first: where each returns to
  collNext : Option (Fin 8) -- a collision in the present slot: the table that resolves it
  pending  : Option (Option (Fin 8)) -- an accepted switch, or a stop
  started  : Bool          -- an entry of the running table has begun
  header   : Option LinHdr -- the header on the bus
  slotEnd  : Nat           -- cycle in which the running slot ends
  sending  : Option Nat    -- the object whose send buffer answers the header on the bus
  headTs   : Word
  irq      : BitVec 6
  irqEn    : BitVec 6
  baud     : Nat
  respErr  : Bool
  asleep   : Bool          -- go-to-sleep sent or received
  sleepDue : Bool          -- go-to-sleep is sent at the end of the current slot
  old      : Option (Nat × Nat) -- role and rate in force while a change of either waits for the bus to be idle (R240)
  idleFrom : Nat           -- cycle in which the bus was last in use
  resume   : Option (Fin 8)
  initDue  : Bool          -- its initial table starts once its role of commander takes effect (R240)
  wakeAt   : Option Nat    -- cycle of the wake-up signal
  lastTx   : List Byte     -- the last response or header sent
  deriving DecidableEq, Repr

/-- Run state of a cyclic route (R254, R255). A run index k is the number of boundaries before B_k. -/
structure RouteRun where
  last     : Option Nat    -- index of the last run that has been handed over or passed over
  cur      : Option Nat    -- index of the run in hand
  trying   : Bool          -- the run in hand has been refused and retries
  overrun  : Nat           -- runs up to this index have been judged for overrun
  startAt  : Nat           -- local time at which the run in hand may begin
  useq     : Option Word   -- USEQ last sent (TRIG 2)
  retryAt  : Nat           -- cycle of the next retry
  deriving DecidableEq, Repr

/-- A check-value unit (R256, R257). `act*` is the configuration in force since the last CV_START. -/
structure CvUnit where
  poly  : BitVec 64
  init  : BitVec 64
  xor_  : BitVec 64
  cfg   : BitVec 10
  aPoly : BitVec 64
  aXor  : BitVec 64
  aCfg  : BitVec 10
  run   : BitVec 64
  gwRes : BitVec 64       -- result of the last gateway computation
  last  : Word            -- CV_LAST
  deriving DecidableEq, Repr

/-- What a host address names (R264, R267): the direct window, the mailboxes, the aperture, or nothing. -/
inductive Space where
  | window | mailboxes | aperture | none_
  deriving DecidableEq, Repr

/-- A posted write (R269): what of it has still to be delivered, word by word with byte enables, and whether a part of it has failed
(R270, R273). -/
structure Posted where
  space : Space
  off   : Nat
  words : List (Word × BitVec 4)
  split : Bool
  failed : Bool
  deriving DecidableEq, Repr

/-- A wide PCIe read in hand: the next part, the words read so far, and the cause of the first part that failed (R270, R273). -/
structure Reading where
  space : Space
  off   : Nat
  left  : Nat
  words : List Word
  cause : Nat
  deriving DecidableEq, Repr

/-- An accepted object of types 0x01 to 0x05 that is being written: its type, the index written next and the entries left (R309). -/
structure TableLoad where
  type : Nat
  next : Nat
  rest : List Nat
  deriving DecidableEq, Repr

/-- An entry of the posted-write error log (R274). -/
structure PweEntry where
  addr  : Word
  cause : BitVec 4
  spi   : Bool
  split : Bool
  ts    : Word
  deriving DecidableEq, Repr

/-- The answer that a host bridge last gave (R273): value and cause of failure, 0 none. -/
structure Answer where
  words : List Word
  cause : BitVec 4
  deriving DecidableEq, Repr

/-- State of a mailbox (R278). -/
inductive MbState where
  | idle | pending | busy | done
  deriving DecidableEq, Repr

/-- A mailbox: its state and the last completed command with its stored response (R280). -/
structure MbRec where
  state  : MbState
  stored : Option (BitVec 16 × BitVec 16 × List Byte)
  rung   : Nat                  -- cycle of the ring that made it Pending
  since  : Nat                  -- HostIf.free at that ring (R279)
  deriving DecidableEq, Repr

/-- What a Busy mailbox waits for (R283 with R401, R440, R444, R197, R289). -/
inductive Waiting where
  | taken                     -- firmware has taken the request and has not executed it yet (R278)
  | dma                       -- OBJ_DMA
  | ruleLoad                  -- a full rule set is being written
  | tableLoad                 -- a table object is being written
  | scrubFast | cmpTest | memtest (region : Byte) | otp
  | blockStore
  deriving DecidableEq, Repr

/-- The object assembly area (R288, R289). -/
structure Assembly where
  mb   : Mb
  type : Byte
  size : Nat
  data : List Byte
  last : Nat                    -- cycle of the holder's last object command
  dma  : Option (BitVec 64 × Nat) -- host address and start cycle of an OBJ_DMA
  deriving DecidableEq, Repr

/-- A copy for firmware of a message or of an SVC frame (R192): LPORT, rule, COPY_REASON, verdict pass, the unit itself. -/
structure CopyMsg where
  lport  : BitVec 5
  rule   : BitVec 14
  reason : Byte
  pass   : Bool
  unit   : List Byte
  deriving DecidableEq, Repr

/-- A full rule set on its way into the inactive bank (R197). -/
structure RuleLoad where
  gen   : BitVec 16
  count : Nat
  start : Nat       -- cycle of the first write
  next  : Nat       -- the entry that is written next
  rest  : List Byte -- the entries not yet written
  mb    : Option Mb
  deriving DecidableEq, Repr

/-- One entry of the fault record (R315, R436). -/
structure FaultEntry where
  code   : BitVec 16
  unit   : Byte
  ltime  : Nat
  tstate : BitVec 3
  cycle  : Nat
  detail : List Word      -- D0 to D8; missing words read zero
  deriving DecidableEq, Repr

/-- The fault record (R315). -/
structure FaultRecord where
  first  : Option FaultEntry
  last   : Option FaultEntry
  silent : Bool
  count  : Nat
  starts : Word       -- DW_FR_STARTS
  here   : Bool       -- the first entry is of this run
  deriving DecidableEq, Repr

/-- Activities of the maintenance token, coded by R439. -/
inductive Activity where
  | scrub | comparator | staging | otp | resync | memtest
  deriving DecidableEq, Repr

/-- The maintenance token (R439, R440): holder, waiting requests oldest first, start of the previous comparator test. -/
structure Token where
  holder  : Option Activity
  queue   : List Activity
  lastCmp : Option Nat
  deriving DecidableEq, Repr

/-- What the network management keeps of one node (R316, R328). -/
structure NmNode where
  lastKa  : Option Nat    -- cycle of its last keep-alive
  awakeAt : Option Nat    -- start of its awake clock
  ignored : Bool
  deriving DecidableEq, Repr

/-- Network management (R316 to R333) and the always-on domain (R332). -/
structure Nm where
  state    : NmState
  host     : Bool
  hostIgnored : Bool
  hostAwake : Option Nat    -- start of the awake clock of the host
  hostLast : Option Nat     -- cycle in which the host's need last ended
  wakeHold : Bool
  awakeAt  : Nat          -- cycle of the last entry to Awake
  countAt  : Nat          -- cycle from which the countdown runs
  lastKaTx : Option Nat   -- cycle of the last keep-alive sent
  firstKa  : Bool         -- the next keep-alive is the first after entry to Awake
  nodes    : SMap NmNode
  lastNode : Byte
  lastSrc  : Byte
  snapOk   : Bool
  kaRx     : Word
  kaTx     : Word
  aborts   : Word
  sleeps   : Word
  ignoredN : BitVec 16
  badKa    : BitVec 16
  accepted : Bool          -- AON_NM_CTRL.ACCEPTED
  latch    : BitVec 9      -- AON_WAKE_LATCH
  missed   : Bool          -- a bit of the latch arose while firmware did not run, or by AON_SW_WAKE: firmware has still to handle it (R321)
  snapSeq  : Word          -- AON_SNAP_SEQ
  snapDirty : Bool         -- a change waits for the rewrite of the static part of the snapshot (R329)
  slackMs  : Word          -- AON_SLACK_TIME
  chan     : BitVec 5      -- channel of the first bus wake
  chanSet  : Bool
  lines    : BitVec 4      -- levels of WAKE0 to WAKE3 after the filter
  pulses   : BitVec 4      -- wake lines the device drives
  pulseAt  : SMap Nat      -- cycle in which the pulse of a line began
  pulseEnd : SMap Nat      -- cycle in which the last pulse of a line ended
  wakeSrc  : BitVec 7      -- DW_WAKE_SRC flags
  wakeChan : BitVec 5
  commitAt : Nat
  deriving DecidableEq, Repr

/-- The retained-state snapshot (R329, R330), as what a warm wake restores. -/
structure RetSnap where
  seq     : Word
  image   : List Byte           -- digest of the active image that it names
  params  : SMap (Option (BitVec 64))
  tables  : SMap Byte           -- restored table memory
  gates   : SMap Gate
  mills   : SMap Millrace
  ruleBank : Bool
  ruleGen : BitVec 16
  dwRw    : List Word           -- RW fields of the direct window
  canIrqEn : SMap Byte
  linIrqEn : SMap (BitVec 6)
  ltime   : Nat
  nmCount : List Word           -- network-management counters (R333)
  kept    : List Word           -- other counters that count from cold start (R303, R311, R359, R413)
  bytes   : Nat                 -- size of the stored snapshot
  deriving DecidableEq, Repr

/-- One lockstep core (R335, R336). -/
structure Core where
  misrLead  : BitVec 64
  misrTrail : BitVec 64
  held      : List HeldWrite
  deriving DecidableEq, Repr

/-- Lockstep checking and checkpoints (R334 to R346). -/
structure Lockstep where
  core0   : Core
  core1   : Core
  last1   : Option Nat     -- cycles of the last two mismatches, newest first (R340)
  last2   : Option Nat
  single  : Bool
  testing : Bool
  restarting : Bool
  half    : Bool           -- half used by the last restart
  lsCore  : Bool
  both    : Bool
  nbits   : BitVec 7
  diff    : BitVec 64
  cyc     : BitVec 64
  total   : Word           -- PID 0x0D10
  heartbeat : Word         -- DW_HEARTBEAT
  coreFrom : Nat           -- cycle of the release of core reset (R335)
  windowN : Nat            -- windows compared since then
  ckptTick : Option Nat    -- the 1 ms tick of the last checkpoint (R337)
  deriving DecidableEq, Repr

/-- One mirrored table as the compare sees it (R353). -/
structure MirTable where
  local_   : Option (BitVec 64)  -- local digest at the last compare boundary
  remote   : Option (BitVec 64)  -- partner's digest
  suspect  : Bool
  unequal  : Bool
  needSync : Bool
  equal    : Bool
  recv     : Option (List Nat)   -- entries received in a resync in progress
  deriving DecidableEq, Repr

/-- The redundant pair (R347 to R361). -/
structure Pair where
  role      : BitVec 2
  lock      : Bool
  present   : Bool
  silent    : Bool
  partner   : Option Heartbeat
  takeover  : Bool
  run       : Word
  split     : Bool
  cfgDiff   : Bool
  lastRx    : Nat           -- cycle of the last valid record
  sentAt    : Option Nat    -- cycle of the last heartbeat sent
  readyAt   : Option Nat    -- cycle of FW_READY, while no heartbeat has been received since
  tables    : SMap MirTable
  versions  : SMap (BitVec 16)  -- kept by the MIR engine: key table · 2¹⁷ + entry
  queue     : List (List Byte) -- the send queue: records not yet sent
  connSent  : SMap Nat      -- cycle of the last update that a connection's LAST_MS caused
  resync    : Option (Fin 5)
  roleAt    : Option Nat    -- local time at which roles are exchanged
  takeovers : Word          -- PID 0x0D11
  cmpFails  : Word
  lastCmp   : BitVec 5
  tkTs      : Word          -- PAIR_TAKEOVER_TS
  mirNm     : List Byte     -- network-management entry as the mirror shows it
  mirSched  : SMap (List Byte) -- mirrored schedule positions (TABLE 4)
  lastSent  : List Byte     -- the last record sent
  shown     : BitVec 3      -- DW_PAIR while the control processor restarts (R311)
  deriving DecidableEq, Repr

/-- A vault slot's OTP cells (R362). -/
structure Slot where
  data   : BitVec 256
  desc   : Word
  check  : Word
  commit : Bool
  spoil  : Bool
  deriving DecidableEq, Repr

/-- A working-key register (R366). -/
structure WorkKey where
  valid  : Bool
  engine : BitVec 3
  klen   : Byte
  keyId  : BitVec 16
  key    : List Byte
  deriving DecidableEq, Repr

/-- An authenticator context (R376). -/
structure AuthCtx where
  keyIdx : Fin 32
  busy   : Bool            -- a computation has been started
  done   : Bool
  err    : Bool
  key    : List Byte
  msg    : List Byte
  tag    : List Byte
  deriving DecidableEq, Repr

/-- An OTP programming operation in progress (R365). -/
structure OtpOp where
  slot : Fin 64
  data : BitVec 256
  desc : Word
  refused : Bool           -- the supply was too low when it was to begin (R365)
  deriving DecidableEq, Repr

/-- The security block and the tamper registers (R362 to R391). -/
structure Sec where
  slots    : SMap Slot
  wks      : SMap WorkKey
  sas      : SMap SecAssoc
  going    : List (Nat × SecAssoc × List Byte)  -- uninstalled, with its key, until a frame under way has ended (R381)
  auth     : SMap AuthCtx
  locked   : Bool
  otp      : Option OtpOp
  classified : Bool         -- the boot ROM has classified the slots
  tamper   : BitVec 4       -- AON_TAMPER.SRC
  phase    : BitVec 2
  tamperN  : Word           -- AON_TAMPER_COUNT
  deriving DecidableEq, Repr

/-- States of a staging area (R405). -/
inductive AreaState where
  | empty | receiving | verified | armed | copying | source | previous | invalid
  deriving DecidableEq, Repr

/-- The staging record of an area (R404). -/
structure Area where
  state  : AreaState
  header : List Byte       -- 512 bytes, or empty
  map    : List Nat        -- stored block indices, in the order stored
  wear   : Nat
  seq    : Word            -- sequence of the newer record copy
  lock   : Bool            -- owner lock and lock counter, as the record holds them (R409)
  count  : Word
  deriving DecidableEq, Repr

/-- The two copies of the record of an MRAM area; none: its CRC-32C does not match (R404, R410). -/
structure Copies where
  lo : Option Area
  hi : Option Area
  deriving DecidableEq, Repr

/-- The update message that the primary has sent for its partner image and whose answer it awaits: OP, block and offset in it (R407). -/
structure Relay where
  op    : Nat
  block : Nat
  off   : Nat
  deriving DecidableEq, Repr

/-- A block being received in fragments (R394). -/
structure Partial where
  index : Nat
  data  : List Byte
  crc   : Word
  deriving DecidableEq, Repr

/-- The TCP connection and DoIP session on SVC (R392, R393). -/
structure SvcConn where
  peer    : BitVec 48       -- remote IPv4 address and port
  rxNext  : Word            -- next sequence number expected
  txNext  : Word
  buffer  : List Byte       -- received stream not yet consumed
  skip    : Nat             -- bytes of a refused message that are still to come
  routed  : Bool            -- routing activation done
  tester  : BitVec 16       -- logical address of the tester
  alive   : Option Nat      -- cycle in which an alive check request was sent that is not answered (R392)
  deriving DecidableEq, Repr

/-- Field update (R392 to R413). -/
structure Upd where
  areaA   : Area
  areaB   : Area
  active  : Option (List Byte) -- header of the active image, from the active record
  recA    : Copies           -- the records as MRAM holds them; the fields above are what firmware has read of them and written (R404)
  recB    : Copies
  recActive : Copies
  activeBad : Bool           -- neither copy of the active record is valid (R410)
  wroteAt : Nat              -- cycle of the last record write, and the areas written in it
  wrote   : List Bool
  owner   : Option UpdSrc
  parts   : List Partial     -- one for each INDEX of which fragments have come
  ready   : Option (Partial × UpdSrc) -- a checked block that waits to be stored
  ownerLock : Bool
  lockCount : Word
  wearSnap : Nat
  actRun  : Bool             -- UPD_STATUS.ACT
  last    : BitVec 16        -- LAST_STATUS
  badCrc  : Word
  refusals : Word
  expired : Word
  actAt   : Option Nat       -- ACT, local time
  goOk    : Option Nat       -- local time at which GO was answered OK
  goSent  : Bool             -- GO has been sent and not answered
  relay   : Option Relay
  partnerArmed : Bool
  partnerRelease : Option (BitVec 64)
  partnerReady : Bool        -- the partner's conditions as its UPD_STATUS shows them
  svc     : Option SvcConn
  svcMsg  : Option (List Byte)  -- an update message received over SVC
  posted  : Bool                -- the update engine's request for it stands in MB8 (R19, R394)
  svcOut  : List Byte        -- the last frame or message SVC sent
  deriving DecidableEq, Repr

/-- A pending metrology record (R420): the samples taken at its trigger. -/
structure PendRec where
  kind    : Fin 10
  time    : Nat
  tq      : BitVec 2
  dist    : Word
  speed   : BitVec 16
  detail  : BitVec 64
  disagree : Bool
  sealOpen : Bool
  deriving DecidableEq, Repr

/-- The Nernum island (R414 to R429). -/
structure Island where
  present  : Bool
  osc      : Nat            -- island oscillator periods since the island last started
  sealLow  : Bool
  cal0     : List Byte      -- calibration copies: block and CRC, or empty
  cal1     : List Byte
  useCal   : Option (List Byte) -- block in use
  calRefused : Bool
  rem      : Nat
  dist     : Word
  cntA     : Word
  cntB     : Word
  srcB     : Bool
  failA    : Bool
  failB    : Bool
  perA     : Nat            -- pulses of each channel in the present period
  perB     : Nat
  last1    : Option Nat     -- oscillator count of the last two pulses of the source
  last2    : Option Nat
  speed    : BitVec 16
  speedMax : BitVec 16
  time     : Nat            -- island time in 2⁻³² ns
  tq       : BitVec 2
  refAt    : Option Nat     -- oscillator count of the last adopted reference time
  pend     : List PendRec   -- pending records, rising KIND order not required
  moving   : Bool           -- a motion-start record has been made since the last motion stop
  zeroAt   : Option Nat     -- oscillator count at which SPEED became 0
  ring     : SMap (List Byte) -- slot to record
  latest   : List Byte
  nextSeq  : Nat
  staged   : Option (List Byte) -- the staged block on the main side (R429)
  lastPer  : Nat            -- number of the period in which island time last stood
  pollAt   : Option Nat       -- oscillator count of the last calibration poll (R426)
  deriving DecidableEq, Repr

/-- The instructions of the JTAG port (R461). -/
inductive Jtag where
  | bypass | idcode | samplePreload | extest
  deriving DecidableEq, Repr

/-- The JTAG port (R461): instruction, boundary register and the pins EXTEST drives. -/
structure JtagPort where
  instr    : Jtag
  boundary : List Bool
  driving  : Bool            -- EXTEST drives the pins
  tdo      : List Bool       -- what the last instruction shifts out (IDCODE 32 bits, BYPASS one)
  deriving DecidableEq, Repr

/-- Supplies, clocks, reset, start and fault record (R24 to R36, R312, R430 to R438, R447). -/
structure Power where
  mode      : PowerMode
  vaon      : Bool
  rstLow    : Bool
  refclk    : Bool
  inh0      : Bool
  inh1      : Bool
  fsRun     : Bool            -- the present run has entered fail-silent (the source of AFTER_FS)
  vaonStart : Bool            -- no run has started since VAON was applied
  cause     : BitVec 3        -- DW_START_CAUSE.CAUSE
  causeFs   : Bool            -- DW_START_CAUSE.AFTER_FS
  warm      : Bool            -- FW_STATE.WARM
  fwReady   : Bool
  fwRan     : Bool            -- firmware of this start has set DW_FW_VERSION (R311)
  bistDone  : Bool
  bistPass  : Bool
  bistBlock : Byte
  bistTime  : BitVec 16
  supplyLow : BitVec 5
  storeLow  : BitVec 5     -- rails below what STORE_OK requires of them
  storeAt   : Option Nat   -- cycle of this run since which no rail is in storeLow; none: since before it
  lowAt     : SMap (Option Nat) -- cycle of this run since which a rail is in supplyLow; none: since before it
  storeOk   : Bool
  dieTemp   : BitVec 16
  battRaw   : BitVec 12
  coldStarts : Word           -- PID 0x1103
  warmWakes  : Word           -- PID 0x1104
  fr        : FaultRecord
  token     : Token
  deriving DecidableEq, Repr

/-- A frame that P22 has delivered to firmware: its bytes without FCS, the time stamp of a gPTP frame (R74), and what the
descriptor of a screen copy says (R192). -/
structure FwFrame where
  bytes : List Byte
  stamp : Option Nat
  copy  : Option (Port × BitVec 14 × Byte × Bool)
  deriving DecidableEq, Repr

/-- The switch: ports, buffer, queues, weirs, shapers (R68 to R176). -/
structure Switch where
  link     : BitVec 24
  rate     : SMap Nat         -- rate of the present link in Mb/s
  occ      : SMap Nat         -- cells held by each input
  arriving : List Arrival     -- frames that arrive, or whose stages have not ended
  inPeak   : SMap Nat
  spillPeak : Nat
  used     : SMap Bool        -- buffer cells in use
  frames   : SMap (Option Frame)
  nextFid  : Nat              -- number of the next frame
  leaves   : SMap Leaf        -- key port · 128 + class · 16 + domain
  classes  : SMap ClassQ      -- key port · 8 + class
  egress   : SMap Egress
  gates    : SMap Gate
  mills    : SMap Millrace
  seqGen   : SMap (BitVec 16)
  recovs   : SMap Recov
  rsLast   : Word             -- BUF_RS_LAST
  scrubPos : Nat              -- BUF_SCRUB_POS
  scrubLeft : Nat             -- half-cells left in an accelerated sweep
  scrubDue : Nat              -- cycle in which the next scrub read is due (R99)
  scrubHold : List (Nat × Nat × List Byte) -- corrected codewords that wait for their write-back: cycle, half-cell, symbols (R100)
  scrubAt  : Nat              -- the cycle after the one in which the last scrub read began
  readAt   : Nat              -- the cycle after the last one in which a traffic read began (R100)
  readHold : Nat              -- the cycle after the one in which a late scrub read delays a traffic read (R100)
  clsOld   : SMap (List Byte) -- class-table entries still in force, key port · 8 + class, until the next selection (R135)
  parOld   : SMap (Option (BitVec 64)) -- parameters of R158 still in force, by PID, until the next selection of their port
  parHist  : List (Nat × Nat × Nat) -- changes of parameters that act on later frames and lookups only: parameter, cycle, value before (R126, R202)
  agePhase : Nat              -- quarter of the aging sweep
  wire     : SMap (List Byte) -- last frame of a port, DA to FCS (the model's own, log entry 42)
  toFw     : Option FwFrame   -- last frame that P22 delivered to firmware (the model's own, log entry 42)
  toGw     : List (List Byte × Bool) -- frames that have left at P23 and that the gateway has not taken, without FCS; true: stomped
  deriving DecidableEq, Repr

/-- The fabric (R107 to R115). -/
structure Fabric where
  pulls    : List Pull        -- frames pulled and not read whole, the one served last at the end
  waiting  : List CellTx      -- cells read and not yet launched
  flight   : List CellTx
  store    : List CellTx      -- cells held in the confluences
  out      : List CellTx      -- cells that have become in order and are on their way through the decoders
  nextSeq  : SMap (BitVec 12) -- next number of the pair inp · 24 + out
  expect   : SMap (BitVec 12) -- E of the pair
  grant    : SMap Nat         -- grant pointer, key plane · 24 + output
  accept   : SMap Nat         -- accept pointer, key plane · 24 + input
  deriving DecidableEq, Repr

/-- The screen (R177 to R202). -/
structure Screen where
  meters   : SMap Meter
  bank     : Bool             -- SCR_STATUS.BANK
  gen      : BitVec 16        -- SCR_STATUS.GEN
  load     : Option RuleLoad
  connPeak : Nat
  finSide  : SMap Nat         -- which side of a CLOSING connection has sent FIN: 1 initiator, 2 responder (R186)
  copyQ    : List CopyMsg     -- firmware copy queue (R192)
  gw       : GwPort
  svcIn    : List (List Byte) -- frames that have reached SVC in this cycle
  svcCopy  : Option CopyMsg   -- last dropped frame that the SVC lookup port has delivered to firmware (R192; the model's own, log entry 42)
  deriving DecidableEq, Repr

/-- Edge buses and gateway (R203 to R262). -/
structure Buses where
  can      : SMap Can
  lin      : SMap Lin
  linSend  : SMap (Option (List Byte)) -- send buffers, key channel · 64 + object
  runs     : SMap RouteRun
  cv       : SMap CvUnit
  goTick   : SMap Nat         -- millisecond tick of the last update of a gateway object
  goTime   : SMap Nat         -- local time of the last update of a gateway object, in ns (R249)
  deriving DecidableEq, Repr

/-- Host bridges, mailboxes and object assembly (R263 to R293). -/
structure HostIf where
  pcieQ    : List Posted
  spiQ     : List Posted
  pcieLink : Bool
  perst    : Bool
  aperPcie : Word
  aperSpi  : Word
  pwe      : List PweEntry
  pweLost  : Byte
  pcieAns  : Option Answer
  spiOut   : List Byte
  reading  : Option Reading
  spiWait  : Option (Nat × Nat × Nat) -- a READ whose first word has no answer yet: address, words, cycle of its address (R266)
  pcieCfg  : SMap (Option Word)
  msix     : SMap Nat         -- messages sent per vector
  msixOn   : BitVec 4         -- MSI-X is enabled and the vector unmasked (R265)
  lastMsix3 : Option Nat      -- cycle of the last vector 3 message
  msix3Due : Bool             -- an edge waits for the end of the moderation interval
  mbs      : SMap MbRec
  overring : BitVec 16
  rings    : List Mb          -- Pending mailboxes in the order rung
  free     : Nat              -- cycles in which requests have waited and no command was executing (R279)
  busy     : Option (Mb × Waiting)
  area     : Option Assembly
  memtest  : Option Byte      -- region of a memory test in progress
  table    : Option TableLoad
  lastEntry : Option (Nat × Nat × Nat) -- cycle, type and index of the last entry that an object has written (R310)
  deriving DecidableEq, Repr

/-- Writable and latched fields of the direct window (R311 to R314). -/
structure DwRegs where
  scratch0 : Word
  scratch1 : Word
  mbIrqEn  : BitVec 16
  irqW1c   : BitVec 16        -- latched W1C bits of DW_IRQ
  irqAt    : Nat              -- cycle in which a bit was last set, and the bits set in it (R313)
  irqSet   : BitVec 16
  irqEn    : BitVec 16
  irqnMbEn : BitVec 16
  linkChg  : BitVec 24
  linkChgEn : BitVec 24
  fwEvent  : BitVec 5
  fwDue    : BitVec 5         -- events of a restart, in which DW_FW_EVENT is frozen (R311, R339)
  fwEventEn : BitVec 5
  portErr  : BitVec 24
  portErrEn : BitVec 24
  irqLat   : BitVec 16
  gateSum  : BitVec 24
  mrSum    : BitVec 20
  deriving DecidableEq, Repr

/-- The state of the LX4192. -/
structure State where
  /-- the commands that wait, first in first out -/
  pending  : List Instr
  pw       : Power
  /-- every byte of memory of R22: SRAM, MRAM, mailbox buffers, table memories -/
  mem      : SMap Byte
  /-- Reed-Solomon check symbols of half-cells of the packet buffer -/
  check    : SMap Word
  /-- 32-bit counters by internal address -/
  cnt32    : SMap Word
  /-- 64-bit counters by internal address -/
  cnt64    : SMap (BitVec 64)
  /-- latched high words of 64-bit counters (R92) -/
  hiLatch  : SMap Word
  /-- parameters that no longer have their default -/
  params   : SMap (Option (BitVec 64))
  /-- how many free values have been drawn (the model's own, log entry 42) -/
  fresh    : Nat
  time     : TimeRef
  gptp     : SMap GptpPort
  angle    : AngleUnit
  snap     : Snap
  sw       : Switch
  fab      : Fabric
  scr      : Screen
  bus      : Buses
  host     : HostIf
  dw       : DwRegs
  nm       : Nm
  snapshot : Option RetSnap
  ls       : Lockstep
  pair     : Pair
  sec      : Sec
  upd      : Upd
  isl      : Island
  jtag     : JtagPort
  deriving DecidableEq, Repr

/-- Why a step stops with a fault. Device faults of the manual are no stop: the device goes on in fail-silent. -/
inductive Fault where
  /-- Raised by a write that sets a reserved bit of a register: its effect is undefined (R6). Safe (log entry 6). -/
  | reservedOne
  deriving DecidableEq, Repr

/-- Why a step is refused. -/
inductive Refusal where
  /-- Raised by an arm of exec whose command has no meaning yet. Safe. -/
  | notModelled (mnemonic : String)
  deriving DecidableEq, Repr

/-! Reset values. Each group's value right after reset: the device is powered, RST_N is held low, every register holds
the value the spec gives, else zero (DESIGN CHOICE, log entry 1). -/

/-- Nominal increment of local time per FCLK cycle, 1.25 ns in units of 2⁻³² ns (R37). -/
def nominalIncr : Nat := 5368709120

/-- The time reference at reset: Unset, as R52 and R53 have it with a source selected, nominal rate (DESIGN CHOICE: the table of R312 gives
DW_STATUS.TIME_STATE the reset value 0, and R8 says where such a value applies; log entry 53). -/
def TimeRef.reset : TimeRef :=
  { cycle := 0, ltime := 0, since := 0, incr := nominalIncr, state := .unset, inWindow := 0, lastSample := 0, holdSince := 0,
    interval := 0, gm := none, offset := 0, slew := 0, refIncr := nominalIncr, steps := 0, ppsSec := none, ppsLast := none,
    ppsCycle := none, upstream := none }

/-- A gPTP port at reset. -/
def GptpPort.reset : GptpPort :=
  { syncSeq := 0, pdelaySeq := 0, lastResp := none, rateNum := 1, rateDen := 1, linkDelay := 0, announce := none,
    sentSync := none, sentAnn := none }

/-- The angle source at reset: Off, count at zero. -/
def AngleUnit.reset : AngleUnit :=
  { encA := false, encB := false, angle := 0, turn := 0, rev := false, indexed := false, zTaken := false, state := .off, hist := [],
    lastEdge := 0, quadErrs := 0, quadTurn := 0, mismatch := 0, placed := [], guards := [] }

/-- The snapshot registers at reset. -/
def Snap.reset : Snap :=
  { auto := 0, secSeen := 0, count := 0, at_ := none, ltime := 0, cycle := 0, stamp := 0, tstate := 0, astate := 0, cause := 0, omega := 0,
    offset := 0, steps := 0, gm := 0 }

/-- A weir with no list: every class open. -/
def Gate.reset : Gate :=
  { cur := none, pend := none, switchAt := 0, entry := 0, state := 0xFF, nextEdge := 0, due := false }

/-- A millrace unit with no window set. -/
def Millrace.reset : Millrace :=
  { curGen := none, curCount := 0, pendGen := none, pendCount := 0, nextGen := none, nextCount := 0, nextSet := [], nextAt := 0,
    decided := [], judged := [], opened := none, freeAt := 0, lastIdx := 0 }

/-- A verdict for a frame that the screen has not judged. -/
def Verdict.none : Verdict := { pass := false, cls := Option.none, dom := Option.none, copied := false, rule := 0, reason := 0 }

/-- A frame that stage `k` drops; 0: one that no stage has seen yet. -/
def Head.drop (k : Nat) : Head :=
  { dropped := k, count := 0, vid := 0, entry := none, dests := 0, trap22 := false, asIs := false, several := false, untag := 0,
    act := none, cause := 0, length := 0, verdict := Verdict.none, learn := none, seq := none, cls := 0, dom := 0 }

/-- An egress port with nothing in transmission. -/
def Egress.reset : Egress :=
  { tx := none, next := [], held := none, freeAt := 0, lastSelect := 0, plca := { wait := none, left := 0, till := 0, fresh := false }, limits := [], verify := 0, attempts := 0, verifyAt := 0 }

/-- A class with nothing queued. -/
def ClassQ.reset : ClassQ :=
  { v := 0, credit := 0, carry := 0, atsBucket := 0, atsGroup := 0, depth := 0, guardMark := 0 }

/-- A leaf with nothing queued. -/
def Leaf.reset : Leaf := { s := 0, items := [] }

/-- A recovery function that takes any sequence number (R87). -/
def Recov.reset : Recov := { takeAny := true, seq := 0, hist := 0, timer := none }

/-- A meter with full buckets (R190). -/
def Meter.reset : Meter := { tc := 0, te := 0, tcRem := 0, teRem := 0, last := 0, mar := false }

/-- A CAN channel in Off (R205). -/
def Can.reset : Can :=
  { mode := 0, pstate := 0, lec := 0, tec := 0, recErr := 0, busOff := false, recov := 0, recovering := false, tdcv := 0,
    irq := 0, irqEn := 0, queue := [], prio := none, attempt := none, sof := 0, doomed := none, opts := 0, boOpts := 0, nominal := 0,
    fdData := 0, xlData := 0, lastTx := none, busyTo := 0, startAt := 0, acked := false, ours := false, hold := false, ended := false, errFlag := none }

/-- A LIN channel that is Off (R228). -/
def Lin.reset : Lin :=
  { running := false, table := 0, entry := 0, rets := [], collNext := none, pending := none,
    started := false, header := none, slotEnd := 0, sending := none, headTs := 0, irq := 0, irqEn := 0, baud := 0, respErr := false, asleep := false, sleepDue := false, old := none, idleFrom := 0,
    resume := none, initDue := false, wakeAt := none, lastTx := [] }

/-- A route that has not run. -/
def RouteRun.reset : RouteRun :=
  { last := none, cur := none, trying := false, overrun := 0, startAt := 0, useq := none, retryAt := 0 }

/-- A check-value unit at reset. -/
def CvUnit.reset : CvUnit :=
  { poly := 0, init := 0, xor_ := 0, cfg := 0x20, aPoly := 0, aXor := 0, aCfg := 0x20, run := 0, gwRes := 0, last := 0 }

/-- An Idle mailbox that has completed no command. -/
def MbRec.reset : MbRec := { state := .idle, stored := none, rung := 0, since := 0 }

/-- A node from which nothing has been received. -/
def NmNode.reset : NmNode := { lastKa := none, awakeAt := none, ignored := false }

/-- Network management at reset: Awake (R320). -/
def Nm.reset : Nm :=
  { state := .awake, host := false, hostIgnored := false, hostAwake := none, hostLast := none, wakeHold := false, awakeAt := 0,
    countAt := 0, lastKaTx := none, firstKa := true, nodes := [], lastNode := 0, lastSrc := 0, snapOk := false,
    kaRx := 0, kaTx := 0, aborts := 0, sleeps := 0, ignoredN := 0, badKa := 0, accepted := false, latch := 0, missed := false,
    snapSeq := 0, snapDirty := false, slackMs := 0, chan := 0, chanSet := false, lines := 0, pulses := 0, pulseAt := [], pulseEnd := [], wakeSrc := 0, wakeChan := 0,
    commitAt := 0 }

/-- A lockstep core at reset. -/
def Core.reset : Core := { misrLead := 0, misrTrail := 0, held := [] }

/-- Lockstep checking at reset. -/
def Lockstep.reset : Lockstep :=
  { core0 := Core.reset, core1 := Core.reset, last1 := none, last2 := none, single := true, testing := false,
    restarting := false, half := false, lsCore := false, both := false, nbits := 0, diff := 0, cyc := 0, total := 0,
    heartbeat := 0, coreFrom := 0, windowN := 0, ckptTick := none }

/-- A mirrored table of which nothing is known. -/
def MirTable.reset : MirTable :=
  { local_ := none, remote := none, suspect := false, unequal := false, needSync := false, equal := false, recv := none }

/-- The pair unit at reset. -/
def Pair.reset : Pair :=
  { role := 0, lock := false, present := false, silent := false, partner := none, takeover := false, run := 0,
    split := false, cfgDiff := false, lastRx := 0, sentAt := none, readyAt := none, tables := [], versions := [], queue := [], connSent := [],
    resync := none, roleAt := none, takeovers := 0, cmpFails := 0, lastCmp := 0, tkTs := 0, mirNm := [], mirSched := [],
    lastSent := [], shown := 0 }

/-- A blank vault slot: no cell programmed (R362). -/
def Slot.blank : Slot := { data := 0, desc := 0, check := 0, commit := false, spoil := false }

/-- An empty working-key register. -/
def WorkKey.reset : WorkKey := { valid := false, engine := 0, klen := 0, keyId := 0, key := [] }

/-- An unused authenticator context. -/
def AuthCtx.reset : AuthCtx :=
  { keyIdx := 0, busy := false, done := false, err := false, key := [], msg := [], tag := [] }

/-- The security block at reset. -/
def Sec.reset : Sec :=
  { slots := [], wks := [], sas := [], going := [], auth := [], locked := false, otp := none, classified := false, tamper := 0,
    phase := 0, tamperN := 0 }

/-- An EMPTY staging area. -/
def Area.reset : Area := { state := .empty, header := [], map := [], wear := 0, seq := 0, lock := false, count := 0 }

/-- Records as the device left the factory: both copies valid, of an area that holds nothing of use (log entry 31). -/
def Copies.factory : Copies := { lo := some Area.reset, hi := some Area.reset }

/-- Field update at reset. -/
def Upd.reset : Upd :=
  { areaA := Area.reset, areaB := Area.reset, active := none, recA := Copies.factory, recB := Copies.factory,
    recActive := Copies.factory, activeBad := false, wroteAt := 0, wrote := [], owner := none, parts := [], ready := none,
    ownerLock := false, lockCount := 0, wearSnap := 0, actRun := false, last := 0, badCrc := 0, refusals := 0,
    expired := 0, actAt := none, goOk := none, goSent := false, relay := none, partnerArmed := false, partnerRelease := none,
    partnerReady := false, svc := none, svcMsg := none, posted := false, svcOut := [] }

/-- The island before VNRN is applied. -/
def Island.reset : Island :=
  { present := false, osc := 0, sealLow := false, cal0 := [], cal1 := [], useCal := none, calRefused := false, rem := 0,
    dist := 0, cntA := 0, cntB := 0, srcB := false, failA := false, failB := false, perA := 0, perB := 0, last1 := none,
    last2 := none, speed := 0, speedMax := 0, time := 0, tq := 2, refAt := none, pend := [], moving := false,
    zeroAt := none, ring := [], latest := [], nextSeq := 0, staged := none, lastPer := 0, pollAt := none }

/-- An empty fault record. -/
def FaultRecord.reset : FaultRecord := { first := none, last := none, silent := false, count := 0, starts := 0, here := false }

/-- The token held by nobody. -/
def Token.reset : Token := { holder := none, queue := [], lastCmp := none }

/-- Power at reset: supplies present, RST_N held low, both INH high (R431), before the first start (DESIGN CHOICE, log
entry 5). -/
def Power.reset : Power :=
  { mode := .startUp, vaon := true, rstLow := true, refclk := true, inh0 := true, inh1 := true, fsRun := false, vaonStart := true,
    cause := 0, causeFs := false, warm := false, fwReady := false, fwRan := false, bistDone := false, bistPass := false, bistBlock := 0,
    bistTime := 0, supplyLow := 0, storeLow := 0, storeAt := none, lowAt := [], storeOk := false, dieTemp := 0, battRaw := 0, coldStarts := 0, warmWakes := 0,
    fr := FaultRecord.reset, token := Token.reset }

/-- The switch with empty buffer and queues, every link down. -/
def Switch.reset : Switch :=
  { link := 0, rate := [], occ := [], arriving := [], inPeak := [], spillPeak := 0, used := [], frames := [], nextFid := 0,
    leaves := [], classes := [], egress := [], gates := [], mills := [], seqGen := [], recovs := [], rsLast := 0,
    scrubPos := 0, scrubLeft := 0, scrubDue := 0, scrubHold := [], scrubAt := 0, readAt := 0, readHold := 0, clsOld := [], parOld := [], parHist := [],
    agePhase := 0, wire := [], toFw := none, toGw := [] }

/-- The fabric with no cell in it. -/
def Fabric.reset : Fabric :=
  { pulls := [], waiting := [], flight := [], store := [], out := [], nextSeq := [], expect := [], grant := [], accept := [] }

/-- The gateway lookup port at reset: nothing waits. -/
def GwPort.reset : GwPort := { first := [], second := [], third := [], turn := false, nextAt := 0, hand := [], rest := none }

/-- The screen at reset: rule bank 0 active, generation 0. -/
def Screen.reset : Screen :=
  { meters := [], bank := false, gen := 0, load := none, connPeak := 0, finSide := [], copyQ := [], gw := GwPort.reset, svcIn := [], svcCopy := none }

/-- Edge buses and gateway at reset. -/
def Buses.reset : Buses := { can := [], lin := [], linSend := [], runs := [], cv := [], goTick := [], goTime := [] }

/-- Host interface at reset. -/
def HostIf.reset : HostIf :=
  { pcieQ := [], spiQ := [], pcieLink := false, perst := false, aperPcie := 0, aperSpi := 0, pwe := [], pweLost := 0,
    pcieAns := none, spiOut := [], pcieCfg := [], msix := [], msixOn := 0, lastMsix3 := none, msix3Due := false, mbs := [],
    overring := 0, rings := [], free := 0, busy := none, area := none, memtest := none, reading := none, spiWait := none, table := none, lastEntry := none }

/-- Direct-window fields at reset. -/
def DwRegs.reset : DwRegs :=
  { scratch0 := 0, scratch1 := 0, mbIrqEn := 0, irqW1c := 0, irqAt := 0, irqSet := 0, irqEn := 0, irqnMbEn := 0, linkChg := 0, linkChgEn := 0,
    fwEvent := 0, fwDue := 0, fwEventEn := 0, portErr := 0, portErrEn := 0, irqLat := 0, gateSum := 0, mrSum := 0 }

/-- The JTAG port at reset: the IDCODE instruction stands after reset of a test access port (PRESUMED). -/
def JtagPort.reset : JtagPort := { instr := .idcode, boundary := [], driving := false, tdo := [] }

/-- The machine right after reset: RST_N low, nothing queued, memory with nothing listed. -/
def State.reset : State :=
  { pending := [], pw := Power.reset, mem := [], check := [], cnt32 := [], cnt64 := [], hiLatch := [], params := [],
    fresh := 0, time := TimeRef.reset, gptp := [], angle := AngleUnit.reset, snap := Snap.reset, sw := Switch.reset,
    fab := Fabric.reset, scr := Screen.reset, bus := Buses.reset, host := HostIf.reset, dw := DwRegs.reset,
    nm := Nm.reset, snapshot := none, ls := Lockstep.reset, pair := Pair.reset, sec := Sec.reset, upd := Upd.reset,
    isl := Island.reset, jtag := JtagPort.reset }

end Sys2Proof.Machine
end

