-- ==== Sys2Proof/Machine/Ops.lean ====
section
/-! DEFINITION. Named operations over memory, counters, time and the indexed groups of State, and the device fault. -/

namespace Sys2Proof.Machine

/-- The outcome of a command. -/
abbrev Out := Host.Outcome State Fault Refusal

/-! Bits and bytes (R5). -/

/-- Bits `hi` to `lo` of `v`. -/
def bits (v hi lo : Nat) : Nat := (v >>> lo) % 2 ^ (hi + 1 - lo)

/-- Bit `i` of `v`. -/
def bit (v i : Nat) : Bool := v.testBit i

/-- Little-endian value of bytes. -/
def leNat : List Byte → Nat
  | [] => 0
  | b :: bs => b.toNat + 256 * leNat bs

/-- The `n` low bytes of `v`, little-endian. -/
def natLe : Nat → Nat → List Byte
  | 0, _ => []
  | n + 1, v => BitVec.ofNat 8 v :: natLe n (v / 256)

/-- Big-endian value of bytes. -/
def beNat (bs : List Byte) : Nat := bs.foldl (fun a b => a * 256 + b.toNat) 0

/-- The `n` low bytes of `v`, big-endian. -/
def natBe (n v : Nat) : List Byte := (natLe n v).reverse

/-- `bs` cut or zero-filled to `n` bytes. -/
def fitBytes (n : Nat) (bs : List Byte) : List Byte := (bs ++ List.replicate (n - bs.length) 0).take n

/-- `n` bytes of `bs` from offset `o`; bytes beyond the end read zero. -/
def slice (bs : List Byte) (o n : Nat) : List Byte := fitBytes n ((bs.drop o).take n)

/-- Byte `i` of `bs`, zero beyond its end. -/
def byteAt (bs : List Byte) (i : Nat) : Nat := (bs.getD i 0).toNat

/-- `bs` with its bytes from offset `o` replaced by `xs`. -/
def splice (bs : List Byte) (o : Nat) (xs : List Byte) : List Byte :=
  fitBytes o (bs.take o) ++ xs ++ bs.drop (o + xs.length)

/-- Two's complement value of the `w` low bits of `v`. -/
def sext (w v : Nat) : Int := if v.testBit (w - 1) then (v % 2 ^ w : Nat) - (2 ^ w : Nat) else (v % 2 ^ w : Nat)

/-- A value clipped to the range of a signed `w`-bit field and coded in two's complement. -/
def satInt (w : Nat) (lo hi v : Int) : BitVec w := BitVec.ofInt w (max lo (min hi v))

/-- Add one, stopping at all ones. -/
def satInc {w : Nat} (v : BitVec w) : BitVec w := if v = BitVec.allOnes w then v else v + 1

/-- Set or clear bit `i`. -/
def setBit {w : Nat} (v : BitVec w) (i : Nat) (b : Bool) : BitVec w :=
  if b then v ||| (1#w <<< i) else v &&& ~~~(1#w <<< i)

/-! Memory (R22). -/

/-- What a byte of memory reads as before anything has written it: zero (log entry 3), but for MAXF of the class
tables, whose value before the first object is 1,532 (R135). -/
def memReset (a : Nat) : Byte :=
  if 0x04460000 ≤ a ∧ a < 0x04460C00 then (if a % 16 = 0 then 0xFC else if a % 16 = 1 then 0x05 else 0) else 0

/-- The canonical form of a memory: addresses rise, and no entry equals what its address reads as when unlisted. -/
def Memory.wf (m : SMap Byte) : Bool := SMap.wf memReset m

/-- The byte at `a` of a memory. -/
def memGet (m : SMap Byte) (a : Nat) : Byte := SMap.get (memReset a) m a

/-- A memory with one byte written. -/
def memSet (m : SMap Byte) (a : Nat) (b : Byte) : SMap Byte := SMap.set (memReset a) m a b

/-- A memory with bytes written from `a`. -/
def memWrite (m : SMap Byte) (a : Nat) : List Byte → SMap Byte
  | [] => m
  | b :: bs => memWrite (memSet m a b) (a + 1) bs

/-- The byte of memory at `a`. -/
def State.rd8 (s : State) (a : Nat) : Byte := memGet s.mem a

/-- `n` bytes from `a`. -/
def State.rdB (s : State) (a : Nat) : Nat → List Byte
  | 0 => []
  | n + 1 => s.rd8 a :: s.rdB (a + 1) n

/-- The little-endian value of `n` bytes from `a`. -/
def State.rd (s : State) (a n : Nat) : Nat := leNat (s.rdB a n)

/-- Write bytes from `a`. -/
def State.wrB (s : State) (a : Nat) (bs : List Byte) : State := { s with mem := memWrite s.mem a bs }

/-- Write the `n` low bytes of `v` at `a`, little-endian. -/
def State.wr (s : State) (a n v : Nat) : State := s.wrB a (natLe n v)

/-- Memory from `a`, `n` bytes, returns to what it reads as at reset. -/
def State.clearMem (s : State) (a n : Nat) : State :=
  { s with mem := SMap.dropKeys (fun k => a ≤ k && k < a + n) s.mem }

/-! Counters (R91, R92). -/

/-- The 32-bit counter at internal address `a`. -/
def State.c32 (s : State) (a : Nat) : Word := SMap.get 0 s.cnt32 a

/-- Set the 32-bit counter at `a`. -/
def State.setC32 (s : State) (a : Nat) (v : Word) : State := { s with cnt32 := SMap.set 0 s.cnt32 a v }

/-- Count one at `a`; a 32-bit counter saturates (R57). -/
def State.bump (s : State) (a : Nat) : State := s.setC32 a (satInc (s.c32 a))

/-- Add `n` to the 32-bit counter at `a`, saturating. -/
def State.bumpBy (s : State) (a n : Nat) : State :=
  s.setC32 a (BitVec.ofNat 32 (min ((s.c32 a).toNat + n) 0xFFFFFFFF))

/-- Raise the 32-bit peak register at `a` to at least `v`. -/
def State.peak (s : State) (a v : Nat) : State := s.setC32 a (BitVec.ofNat 32 (max (s.c32 a).toNat v))

/-- The 64-bit counter at `a`. -/
def State.c64 (s : State) (a : Nat) : BitVec 64 := SMap.get 0 s.cnt64 a

/-- Add `n` to the 64-bit counter at `a`; 64-bit counters wrap (R57). -/
def State.add64 (s : State) (a n : Nat) : State :=
  { s with cnt64 := SMap.set 0 s.cnt64 a (s.c64 a + BitVec.ofNat 64 n) }

/-- Register address of a port block (R22). -/
def portReg (p off : Nat) : Nat := 0x0B000000 + p * 0x10000 + off

/-- Count one in an RC counter of R92, R124 or R174 of a port: DW_PORT_ERR shows it (R311). -/
def State.portErr (s : State) (p off : Nat) : State :=
  let s := s.bump (portReg p off)
  { s with dw.portErr := setBit s.dw.portErr p true }

/-- Count one in a gate counter of a port: DW_GATE_SUM shows it (R311). -/
def State.gateErr (s : State) (p off : Nat) : State :=
  let s := s.bump (portReg p off)
  { s with dw.gateSum := setBit s.dw.gateSum p true }

/-! Free values. -/

/-- The next free number. -/
def State.draw (s : State) : Nat × State := (Config.freeNat s.fresh, { s with fresh := s.fresh + 1 })

/-- The next free word. -/
def State.drawWord (s : State) : BitVec 64 × State := (Config.freeWord s.fresh, { s with fresh := s.fresh + 1 })

/-! Time (R37 to R43). Local time is counted in units of 2⁻³² ns. -/

/-- One nanosecond of local time. -/
def nsUnit : Nat := 2 ^ 32

/-- One second of local time. -/
def secUnit : Nat := 1000000000 * 2 ^ 32

/-- Whole nanoseconds of an instant of local time. -/
def ltNs (t : Nat) : Nat := t / nsUnit

/-- An RT value as an instant of local time. -/
def RT.toLt (r : RT) : Nat := r.sec.toNat * secUnit + r.ns.toNat * nsUnit + r.frac.toNat * 2 ^ 16

/-- An instant of local time as an RT value: SEC wraps modulo 2⁴⁸ (R57). -/
def ltRT (t : Nat) : RT :=
  { sec := BitVec.ofNat 48 (t / secUnit), ns := BitVec.ofNat 30 (t % secUnit / nsUnit),
    frac := BitVec.ofNat 16 (t / 2 ^ 16) }

/-- TS32 of an instant of local time (R42). -/
def ts32 (t : Nat) : Word := BitVec.ofNat 32 (ltNs t)

/-- TS32 of now. -/
def State.ts (s : State) : Word := ts32 s.time.ltime

/-- FCLK cycles of a number of nanoseconds, rounded up (1.25 ns a cycle). -/
def nsCycles (ns : Nat) : Nat := (ns * 4 + 4) / 5

/-- FCLK cycles of a number of microseconds. -/
def usCycles (us : Nat) : Nat := us * 800

/-- FCLK cycles of a number of milliseconds. -/
def msCycles (ms : Nat) : Nat := ms * 800000

/-- The cycle count now. -/
def State.now (s : State) : Nat := s.time.cycle

/-- Milliseconds of the run. -/
def State.nowMs (s : State) : Nat := s.time.cycle / 800000

/-- Cycles until local time reaches `t` at the present rate, rounded up. -/
def State.cyclesTo (s : State) (t : Nat) : Nat := (t - s.time.ltime + s.time.incr - 1) / s.time.incr

/-! Interrupt flags (R313). -/

/-- Set W1C bits of DW_IRQ, or one. -/
def State.setIrq (s : State) (v : BitVec 16) : State :=
  { s with dw := { s.dw with irqW1c := s.dw.irqW1c ||| v, irqAt := s.now, irqSet := (if s.dw.irqAt = s.now then s.dw.irqSet else 0) ||| v } }
def State.irq (s : State) (i : Nat) : State := s.setIrq (BitVec.ofNat 16 (2 ^ i))

/-- Set a bit of DW_FW_EVENT; during a restart of the control processor that waits (R311, R339). -/
def State.fwEvent (s : State) (i : Nat) : State :=
  { s with dw := if s.ls.restarting then { s.dw with fwDue := setBit s.dw.fwDue i true }
                 else { s.dw with fwEvent := setBit s.dw.fwEvent i true } }

/-! Indexed groups. -/

/-- Egress state of a port. -/
def State.egr (s : State) (p : Nat) : Egress := SMap.get Egress.reset s.sw.egress p
def State.setEgr (s : State) (p : Nat) (e : Egress) : State := { s with sw.egress := SMap.set Egress.reset s.sw.egress p e }
/-- Class of a port. -/
def State.cls (s : State) (p c : Nat) : ClassQ := SMap.get ClassQ.reset s.sw.classes (p * 8 + c)
def State.setCls (s : State) (p c : Nat) (q : ClassQ) : State :=
  { s with sw.classes := SMap.set ClassQ.reset s.sw.classes (p * 8 + c) q }
/-- Leaf of a port, class and domain. -/
def State.leaf (s : State) (p c d : Nat) : Leaf := SMap.get Leaf.reset s.sw.leaves (p * 128 + c * 16 + d)
def State.setLeaf (s : State) (p c d : Nat) (l : Leaf) : State :=
  { s with sw.leaves := SMap.set Leaf.reset s.sw.leaves (p * 128 + c * 16 + d) l }
/-- Weir of a port. -/
def State.gate (s : State) (p : Nat) : Gate := SMap.get Gate.reset s.sw.gates p
def State.setGate (s : State) (p : Nat) (g : Gate) : State := { s with sw.gates := SMap.set Gate.reset s.sw.gates p g }
/-- Millrace unit of a port. -/
def State.mill (s : State) (p : Nat) : Millrace := SMap.get Millrace.reset s.sw.mills p
def State.setMill (s : State) (p : Nat) (m : Millrace) : State :=
  { s with sw.mills := SMap.set Millrace.reset s.sw.mills p m }
/-- A frame in the buffer. -/
def State.frame (s : State) (f : Nat) : Option Frame := SMap.get none s.sw.frames f
def State.setFrame (s : State) (f : Nat) (v : Option Frame) : State := { s with sw.frames := SMap.set none s.sw.frames f v }
/-- Cells held by an input. -/
def State.heldCells (s : State) (p : Nat) : Nat := SMap.get 0 s.sw.occ p
/-- OCC of an input: cells held or reserved (R101). -/
def State.occ (s : State) (p : Nat) : Nat :=
  s.heldCells p + ((s.sw.arriving.filter (fun a => a.port.val = p)).map (fun a => a.resv)).sum
/-- A recovery function. -/
def State.recov (s : State) (i : Nat) : Recov := SMap.get Recov.reset s.sw.recovs i
def State.setRecov (s : State) (i : Nat) (r : Recov) : State := { s with sw.recovs := SMap.set Recov.reset s.sw.recovs i r }
/-- A meter. -/
def State.meter (s : State) (i : Nat) : Meter := SMap.get Meter.reset s.scr.meters i
def State.setMeter (s : State) (i : Nat) (m : Meter) : State := { s with scr.meters := SMap.set Meter.reset s.scr.meters i m }
/-- A CAN channel. -/
def State.can (s : State) (n : Nat) : Can := SMap.get Can.reset s.bus.can n
def State.setCan (s : State) (n : Nat) (c : Can) : State := { s with bus.can := SMap.set Can.reset s.bus.can n c }
/-- A LIN channel. -/
def State.lin (s : State) (m : Nat) : Lin := SMap.get Lin.reset s.bus.lin m
def State.setLin (s : State) (m : Nat) (l : Lin) : State := { s with bus.lin := SMap.set Lin.reset s.bus.lin m l }
/-- A check-value unit. -/
def State.cv (s : State) (u : Nat) : CvUnit := SMap.get CvUnit.reset s.bus.cv u
def State.setCv (s : State) (u : Nat) (c : CvUnit) : State := { s with bus.cv := SMap.set CvUnit.reset s.bus.cv u c }
/-- Run state of a route. -/
def State.run (s : State) (r : Nat) : RouteRun := SMap.get RouteRun.reset s.bus.runs r
def State.setRun (s : State) (r : Nat) (x : RouteRun) : State := { s with bus.runs := SMap.set RouteRun.reset s.bus.runs r x }
/-- A mailbox. -/
def State.mb (s : State) (n : Nat) : MbRec := SMap.get MbRec.reset s.host.mbs n
def State.setMb (s : State) (n : Nat) (m : MbRec) : State := { s with host.mbs := SMap.set MbRec.reset s.host.mbs n m }
/-- A vault slot. -/
def State.slot (s : State) (n : Nat) : Slot := SMap.get Slot.blank s.sec.slots n
def State.setSlot (s : State) (n : Nat) (x : Slot) : State := { s with sec.slots := SMap.set Slot.blank s.sec.slots n x }
/-- A working-key register. -/
def State.wk (s : State) (n : Nat) : WorkKey := SMap.get WorkKey.reset s.sec.wks n
def State.setWk (s : State) (n : Nat) (x : WorkKey) : State := { s with sec.wks := SMap.set WorkKey.reset s.sec.wks n x }
/-- An authenticator context. -/
def State.auth (s : State) (n : Nat) : AuthCtx := SMap.get AuthCtx.reset s.sec.auth n
def State.setAuth (s : State) (n : Nat) (x : AuthCtx) : State := { s with sec.auth := SMap.set AuthCtx.reset s.sec.auth n x }

/-- A link is up; P22 and P23 are always up while the device runs (R311). -/
def State.linkUp (s : State) (p : Nat) : Bool := s.sw.link.getLsbD p || (p == 22 || p == 23)

/-- A staging area is in use from RECEIVING to the end of ARMED (R319, R405). -/
def Area.staging (a : Area) : Bool := a.state == .receiving || a.state == .verified || a.state == .armed

/-- Send MSI-X vector `v`, while the link is up and the vector is enabled and unmasked (R265). -/
def HostIf.send (h : HostIf) (v : Nat) : HostIf :=
  if h.pcieLink && h.msixOn.getLsbD v then { h with msix := SMap.set 0 h.msix v (SMap.get 0 h.msix v + 1) } else h

end Sys2Proof.Machine
end

