-- ==== Sys2Proof/Machine/Crc.lean ====
section
/-! DEFINITION. Cyclic redundancy checks in reflected form: the Ethernet FCS and the CRC-32C of R348, R394 and R404. Their
polynomials stand in the standards that the manual names (log entry 20). -/

namespace Sys2Proof.Machine

/-- One bit of a reflected CRC of 32 bits. -/
def crcBit (poly c : Nat) : Nat := if c % 2 = 1 then (c / 2) ^^^ poly else c / 2

/-- One byte of a reflected CRC of 32 bits. -/
def crcByte (poly c : Nat) (b : Byte) : Nat :=
  let f := crcBit poly
  f (f (f (f (f (f (f (f (c ^^^ b.toNat))))))))

/-- A reflected CRC of 32 bits with initial value and final complement of all ones. -/
def crc32With (poly : Nat) (bs : List Byte) : Nat := (bs.foldl (crcByte poly) 0xFFFFFFFF) ^^^ 0xFFFFFFFF

/-- CRC-32 of IEEE 802.3. -/
def crc32 (bs : List Byte) : Nat := crc32With 0xEDB88320 bs

/-- CRC-32C. -/
def crc32c (bs : List Byte) : Nat := crc32With 0x82F63B78 bs

/-- The frame check sequence of a frame, as a word whose low byte leaves first. -/
def fcsOf (bs : List Byte) : Word := BitVec.ofNat 32 (crc32 bs)

end Sys2Proof.Machine
end

