-- ==== Sys2Proof/Machine/Params.lean ====
section
/-! DEFINITION. The parameter space (R294 to R307): every PID with its type, range, access and default. -/

namespace Sys2Proof.Machine

/-- Value types of parameters (R285). -/
inductive PType where
  | u8 | u16 | u32 | u64 | s32
  deriving DecidableEq, Repr

/-- Width of a type in bits. -/
def PType.width : PType → Nat
  | .u8 => 8 | .u16 => 16 | .u32 => 32 | .u64 => 64 | .s32 => 32

/-- What a value must meet beside its numeric range. -/
inductive PCheck where
  | none | pow2 | mult125 | mode | canNominal | canFd | table8 | speedSource | rate | gwMac
  deriving DecidableEq, Repr

/-- One row of a parameter table: `count` PIDs from `base`. -/
structure PidRow where
  base  : Nat
  count : Nat
  type  : PType
  ro    : Bool
  lo    : Int
  hi    : Int
  dflt  : Int
  check : PCheck
  deriving DecidableEq, Repr

/-- A read-write row without a further check. -/
def rw (base count : Nat) (type : PType) (lo hi dflt : Int) : PidRow := ⟨base, count, type, false, lo, hi, dflt, .none⟩

/-- A read-write row with a further check. -/
def rwc (base count : Nat) (type : PType) (lo hi dflt : Int) (c : PCheck) : PidRow :=
  ⟨base, count, type, false, lo, hi, dflt, c⟩

/-- A read-only row (R296). -/
def ro (base count : Nat) (type : PType) : PidRow := ⟨base, count, type, true, 0, 0, 0, .none⟩

/-- Groups 0x01 to 0x03 (R94, R126, R299, R300). -/
def pidRowsA : List PidRow :=
  [ rw 0x0101 1 .u32 0 0xFFFFFFFF 0, rw 0x0102 1 .s32 90 125 115, ro 0x0103 1 .u32, ro 0x0104 1 .u64,
    rw 0x0105 1 .u32 0 0xFFFFFFFF 0, rw 0x0120 24 .u32 0 16384 1024, rw 0x0140 24 .u32 0 196608 49152,
    rw 0x0160 24 .u32 0 0xFFFFFF 0, rw 0x0180 8 .u32 1 196608 1024, rw 0x0188 8 .u32 144 196608 16384,
    rw 0x0190 8 .u8 0 3 1,
    rw 0x0210 1 .u32 0 1000000 300, rw 0x0220 22 .u8 0 1 1, rw 0x0240 8 .u8 0 1 0, rw 0x0248 2 .u8 0 0 0,
    rw 0x024A 8 .u8 0 2 2, rw 0x0252 2 .u8 0 1 0, rw 0x0260 10 .u8 0 1 0, rw 0x0270 8 .u8 0 1 1,
    rw 0x0280 24 .u16 64 9216 1522, rw 0x02A0 24 .u16 1 4094 1, rwc 0x02C0 24 .u8 0 255 0x1C .mode,
    rw 0x02E0 24 .u32 0 0xFFFFFF 0xFAC688,
    rw 0x0301 1 .u8 0 7 7, rw 0x0302 1 .u8 0 7 7, rw 0x0320 24 .u8 0 15 0, rw 0x0340 24 .u8 0 7 0,
    rw 0x0380 8 .u8 0 7 0, rw 0x0388 8 .u8 0 7 1, rw 0x0390 8 .u8 0 7 2, rw 0x0398 8 .u8 0 7 3,
    rw 0x03A0 8 .u8 0 7 4, rw 0x03A8 8 .u8 0 7 5, rw 0x03B0 8 .u8 0 7 6, rw 0x03B8 8 .u8 0 7 7 ]

/-- Groups 0x04 to 0x07 (R66, R158, R176, R202). -/
def pidRowsB : List PidRow :=
  [ rw 0x0401 1 .u16 100 400 125, rw 0x0402 1 .u32 20 1000000 100, rw 0x0410 16 .u16 1 1024 64,
    rw 0x0420 24 .u8 0 1 0, rw 0x0440 8 .u8 0 15 8, rw 0x0460 24 .u32 0 1000000 0,
    rwc 0x0480 24 .u32 0 25000 0 .rate, rw 0x04A0 24 .u8 0 1 0,
    rw 0x0501 1 .u8 0 2 1, rw 0x0502 1 .u8 0 127 0, rw 0x0503 1 .u8 0 1 1, rw 0x0504 1 .u8 2 10 3,
    rw 0x0505 1 .u32 10 10000 100, rw 0x0506 1 .u32 100 1000000000 1000, rw 0x0507 1 .u32 0 60000 1000,
    rw 0x0508 1 .u8 1 100 10, rw 0x0509 1 .u64 0 0xFFFFFFFFFFFF 0, rw 0x050A 1 .s32 (-1000) 1000 0,
    rw 0x0510 1 .u8 0 1 0, rwc 0x0511 1 .u16 16 16384 1024 .pow2, rw 0x0512 1 .u16 0 65535 0, rw 0x0513 1 .u8 0 15 2,
    rw 0x0514 1 .u8 1 64 8, rw 0x0515 1 .u16 1 10000 60, rw 0x0516 1 .u32 100 100000 10000, rw 0x0517 1 .u16 0 800 40,
    rw 0x0518 1 .u8 0 1 0, rw 0x0520 20 .u8 0 3 0, rw 0x0540 24 .s32 (-1000) 1000 0, rw 0x0560 24 .s32 (-1000) 1000 0,
    rw 0x0580 24 .u8 0 1 0, rw 0x05A0 24 .u8 0 255 255, rw 0x05C0 24 .u8 0 1 0,
    rw 0x0600 20 .u8 0 1 0,
    rw 0x0701 1 .u8 0 7 1, rw 0x0702 1 .u16 0 4095 0, rw 0x0703 1 .u8 0 1 0, rw 0x0720 8 .u32 100 86400000 5000,
    rw 0x0730 1 .u32 100 60000 2000, rw 0x0731 1 .u32 100 60000 1000, rw 0x0740 26 .u8 0 3 0 ]

/-- Groups 0x08 to 0x0B (R239, R240, R262, R301). -/
def pidRowsC : List PidRow :=
  [ rw 0x0800 32 .u8 0 3 0, rwc 0x0820 32 .u32 0 0xFFFFFFFF 0x1F1F7E00 .canNominal,
    rwc 0x0840 32 .u32 0 0xFFFFFFFF 0x07071E00 .canFd, rwc 0x0860 32 .u32 0 0xFFFFFFFF 0x01010400 .canFd,
    rwc 0x0880 32 .u16 0 0x1FF 0 .mode, rw 0x08A0 32 .u8 0 127 32, rw 0x08C0 32 .u8 0 3 0,
    rw 0x0900 16 .u8 0 2 0, rw 0x0910 16 .u16 1000 20000 19200, rw 0x0920 16 .u8 0 1 1, rw 0x0930 16 .u8 1 50 5,
    rw 0x0940 16 .u8 13 26 13, rw 0x0950 16 .u16 0 0x1FFF 0, rwc 0x0960 16 .u8 0 255 255 .table8,
    rw 0x0A00 2 .u8 0 1 1, rw 0x0A02 2 .u8 0 254 0, rw 0x0A04 2 .u8 1 255 8, rw 0x0A06 2 .u8 1 255 32,
    rw 0x0A08 2 .u8 0 255 0, rw 0x0A0A 2 .u8 1 255 128,
    rwc 0x0B01 1 .u64 0 0xFFFFFFFFFFFF 0 .gwMac, rw 0x0B02 1 .u8 0 8 2, rw 0x0B03 1 .u16 10 1000 10 ]

/-- Groups 0x0C to 0x11 (R302 to R307). -/
def pidRowsD : List PidRow :=
  [ rw 0x0C01 1 .u32 100 60000 1500, rw 0x0C02 1 .u16 1 1440 30, rw 0x0C03 1 .u16 10 10000 500,
    rwc 0x0C04 1 .u16 500 5000 1000 .mult125, rw 0x0C05 1 .u8 0 255 0, rw 0x0C06 1 .u16 0 65535 0,
    rw 0x0C07 1 .u16 1 4094 1, rw 0x0C10 1 .u32 0 0xFFFFFFFF 0, rw 0x0C11 1 .u16 0 0x7FF 0x680,
    rw 0x0C20 4 .u8 0 3 3, rw 0x0C24 4 .u16 10 10000 100, rw 0x0C28 1 .u32 0 0xFFFFFFFF 0xFFFFFFFF,
    rw 0x0C29 1 .u16 0 65535 65535, rw 0x0C2A 1 .u8 0 255 255, rw 0x0C30 1 .u8 0 1 1,
    rw 0x0D01 1 .u8 0 1 0, rw 0x0D02 1 .u8 1 2 1, rw 0x0D03 1 .u8 0 1 1, rw 0x0D04 1 .u16 1 1000 10,
    ro 0x0D10 1 .u32, ro 0x0D11 1 .u32,
    rw 0x0E01 1 .u8 0 15 15, rw 0x0E02 1 .u8 0 1 1, ro 0x0E03 1 .u8,
    rwc 0x0F01 1 .u16 0 65535 65535 .speedSource, rw 0x0F02 1 .u16 6000 30000 11500, rw 0x0F03 1 .u32 1 20000 7324,
    ro 0x0F04 1 .u8, rw 0x0F05 1 .u8 0 1 1, rw 0x0F06 1 .u16 1 65535 0x1000, rw 0x0F07 1 .u32 0 0xFFFFFFFF 0,
    ro 0x0F10 3 .u32, ro 0x1001 1 .u8, ro 0x1002 3 .u32, ro 0x1101 1 .s32, ro 0x1102 1 .u16, ro 0x1103 2 .u32 ]

/-- The parameter space of R298. -/
def pidRows : List PidRow := pidRowsA ++ pidRowsB ++ pidRowsC ++ pidRowsD

/-- The row of a PID; none: the PID is unknown (R294). -/
def pidRow? (pid : Nat) : Option PidRow := pidRows.find? (fun r => r.base ≤ pid && pid < r.base + r.count)

/-- The default of a PID, coded in its type's width. -/
def pidDefault (pid : Nat) : Nat :=
  match pidRow? pid with
  | some r => (r.dflt % (2 ^ r.type.width : Nat)).toNat
  | none => 0

/-- The value of a parameter, as PARAM_GET would show its bits. -/
def State.param (s : State) (pid : Nat) : Nat :=
  match SMap.get none s.params pid with
  | some v => v.toNat
  | none => pidDefault pid

/-- The value of an S32 parameter. -/
def State.paramInt (s : State) (pid : Nat) : Int := sext 32 (s.param pid)

/-- A parameter of a switch or option: bit `i`. -/
def State.paramBit (s : State) (pid i : Nat) : Bool := (s.param pid).testBit i

/-- The value of a port's parameter of R158 that is in force: a write takes effect at the port's next selection. -/
def State.inForce (s : State) (pid : Nat) : Nat :=
  match SMap.get none s.sw.parOld pid with
  | some v => v.toNat
  | none => s.param pid

/-- Bit `i` of a port's parameter of R158 that is in force. -/
def State.inForceBit (s : State) (pid i : Nat) : Bool := (s.inForce pid).testBit i

/-- Store a parameter; its default is stored as no entry. -/
def State.setParam (s : State) (pid v : Nat) : State :=
  { s with params := SMap.set none s.params pid (if v = pidDefault pid then none else some (BitVec.ofNat 64 v)) }

/-- A field value inside the check of its row. `v` holds the bits of the request in the width of the type. -/
def PCheck.ok (c : PCheck) (pid v : Nat) : Bool :=
  match c with
  | .none => true
  | .pow2 => v != 0 && 2 ^ Nat.log2 v == v
  | .mult125 => v % 125 == 0
  -- acceptable frame types 0 to 2 (R94); the options of a CAN channel: mode switching only without error signalling
  | .mode => if pid < 0x0800 then v % 4 < 3 else !(bit v 4 && bit v 5)
  -- TSEG1 2 to 256, TSEG2 and SJW 1 to 128; every other bit zero (R239)
  | .canNominal => v &&& 0x80800000 == 0 && bits v 15 8 ≥ 1
  | .canFd => v &&& 0xF0F0E0E0 == 0
  | .table8 => v < 8 || v == 255
  | .speedSource => v < 2048 || v == 65535
  -- the line rate of R467 in Mb/s is checked with the present interface mode where the value is written
  | .rate => true
  -- a unicast address: byte 0 first on the wire, group bit clear (R262)
  | .gwMac => !bit v 0

/-- The bits of a request value are inside the range of the row. -/
def PidRow.inRange (r : PidRow) (pid v : Nat) : Bool :=
  let i : Int := if r.type = .s32 then sext 32 v else (v : Int)
  r.lo ≤ i && i ≤ r.hi && r.check.ok pid v

/-! Parameters of a lookup and of a frame (R126, R202). -/

/-- A parameter as it applies to a frame whose first byte came, or a lookup that began, in cycle `t`: a change acts on those that begin after it
(R126, R202). -/
def State.paramFor (s : State) (t pid : Nat) : Nat :=
  match s.sw.parHist.find? (fun x => x.1 = pid && t ≤ x.2.1) with
  | some x => x.2.2
  | none => s.param pid

/-- A step of a lookup that began in cycle `t`, with the parameters as they apply to it (R202). -/
def State.asOf (s : State) (t : Nat) (f : State → State) : State :=
  let old := s.sw.parHist.filter (fun x => t ≤ x.2.1)
  if old.isEmpty then f s
  else { f (old.foldr (fun x v => v.setParam x.1 x.2.2) s) with params := s.params }

end Sys2Proof.Machine
end

