-- ==== Sys2Proof/Machine/Flags.lean ====
section
/-! DEFINITION. Every flag computation of the direct window: DW_IRQ, its summaries, IRQ_N and MSI-X vector 3 (R311, R313). -/

namespace Sys2Proof.Machine

/-- The bits of `n` indices that satisfy `f`. -/
def maskOf (n : Nat) (f : Nat → Bool) : Nat := (List.range n).foldl (fun m i => if f i then m ||| 2 ^ i else m) 0

/-- DW_CAN_SUM (R311). -/
def State.canSum (s : State) : Nat := maskOf 32 (fun n => (s.can n).irq &&& (s.can n).irqEn != 0)

/-- DW_LIN_SUM (R311). -/
def State.linSum (s : State) : Nat := maskOf 16 (fun m => (s.lin m).irq &&& (s.lin m).irqEn != 0)

/-- DW_DIE_TEMP.ALARM: TEMP, in units of 0.0625 °C, at or above PID 0x0102 (R312). -/
def State.tempAlarm (s : State) : Bool := s.pw.dieTemp.toInt ≥ 16 * s.paramInt 0x0102

/-- DW_IRQ (R313): levels from their sources, and the latched W1C bits. -/
def State.dwIrq (s : State) : Nat :=
  let lv := fun (i : Nat) (b : Bool) => if b then 2 ^ i else 0
  (s.dw.irqW1c.toNat &&& 0x3701) ||| lv 1 (s.canSum != 0) ||| lv 2 (s.linSum != 0) |||
  lv 3 (s.dw.linkChg &&& s.dw.linkChgEn != 0) ||| lv 4 (s.dw.fwEvent &&& s.dw.fwEventEn != 0) |||
  lv 5 (s.dw.portErr &&& s.dw.portErrEn != 0) ||| lv 6 (s.dw.gateSum != 0) ||| lv 7 (s.dw.mrSum != 0) |||
  lv 11 s.pw.fr.first.isSome ||| lv 14 (s.pw.supplyLow != 0) ||| lv 15 s.tempAlarm

/-- DW_MB_DONE: bit n is 1 while MBn is Done (R278). -/
def State.mbDone (s : State) : Nat := maskOf 16 (fun n => (s.mb n).state == .done)

/-- IRQ_N is driven low (R313); while RST_N is low it is released (R431). -/
def State.irqnLow (s : State) : Bool :=
  !s.pw.rstLow &&
  (s.pw.mode == .failSilent || s.dwIrq &&& s.dw.irqEn.toNat != 0 || s.mbDone &&& s.dw.irqnMbEn.toNat != 0)

/-- MSI-X vector 3 after a command: each rising edge of a bit of DW_IRQ & DW_IRQ_EN but PWE, which is vector 1's (R265), sends it, or waits for the end of the
moderation interval (R313). -/
def msixEdges (s s' : State) : HostIf :=
  let h := s'.host
  let before := s.dwIrq &&& s.dw.irqEn.toNat
  let after := s'.dwIrq &&& s'.dw.irqEn.toNat
  if after &&& (0xFFFE ^^^ (before &&& 0xFFFE)) = 0 || !h.pcieLink || !h.msixOn.getLsbD 3 || s'.pw.mode = .failSilent then h
  else
    let hold := match h.lastMsix3 with
      | some t => s'.dw.irqLat != 0 && s'.now < t + usCycles s'.dw.irqLat.toNat
      | none => false
    if hold then { h with msix3Due := true }
    else { h.send 3 with lastMsix3 := some s'.now }

/-- The next state of a command, with the MSI-X messages that its effect on DW_IRQ sends. -/
def settle (s s' : State) : State := { s' with host := msixEdges s s' }

/-- The command takes effect: the next state is its own. -/
def done (s s' : State) : Out := .next (settle s s')

end Sys2Proof.Machine
end

