-- ==== Sys2Proof/Machine/Gates.lean ====
section
/-! DEFINITION. Weirs and millrace windows: gate lists, closings, guard bands, window sets (R131, R143 to R166). -/

namespace Sys2Proof.Machine

/-! The class table (R135) and line rates (R467, R150). -/

/-- Address of a class-table entry (R135). -/
def classAddr (p c : Nat) : Nat := 0x04460000 + p * 0x80 + c * 16

/-- `n` bytes at offset `o` of the class-table entry in force: a loaded one takes effect at the class's next selection (R135). -/
def State.clsField (s : State) (p c o n : Nat) : Nat :=
  match SMap.get [] s.sw.clsOld (p * 8 + c) with
  | [] => s.rd (classAddr p c + o) n
  | b => leNat (slice b o n)

/-- MAXF of a class. -/
def State.maxF (s : State) (p c : Nat) : Nat := bits (s.clsField p c 0 2) 13 0
/-- SHAPER of a class: 0 none, 1 credit-based, 2 asynchronous. -/
def State.shaper (s : State) (p c : Nat) : Nat := bits (s.clsField p c 2 1) 1 0
/-- PREEMPTABLE of a class. -/
def State.preemptable (s : State) (p c : Nat) : Bool := bit (s.clsField p c 2 1) 2
/-- RATE of a class, kb/s. -/
def State.clsRate (s : State) (p c : Nat) : Nat := s.clsField p c 4 4
/-- BURST of a class, bits. -/
def State.clsBurst (s : State) (p c : Nat) : Nat := s.clsField p c 8 4
/-- MAX_RES of a class, ns. -/
def State.clsMaxRes (s : State) (p c : Nat) : Nat := s.clsField p c 12 4

/-- The highest line rate of the configured interface mode, Mb/s (R467). -/
def State.rateBound (s : State) (p : Nat) : Nat :=
  let m := s.param (0x0240 + p)
  if p < 8 then 10000
  else if p < 10 then 25000
  else if p < 18 then (if m == 1 then 100 else 1000)
  else if p < 20 then (if m == 1 then 1000 else 2500)
  else if p < 22 then 10
  else 10000

/-- The line rate of the present link, Mb/s; without a link, the highest of its mode (log entry 35). -/
def State.lineRate (s : State) (p : Nat) : Nat :=
  if p ≥ 20 then s.rateBound p else
  let r := SMap.get 0 s.sw.rate p
  if r = 0 then s.rateBound p else r

/-- Preemption is active on a port (R141). -/
def State.mmActive (s : State) (p : Nat) : Bool :=
  p < 8 && s.inForceBit (0x0440 + p) 0 && (!s.inForceBit (0x0440 + p) 3 || (s.egr p).verify == 2)

/-- The class is sent by the preemptable MAC. -/
def State.isPreemptable (s : State) (p c : Nat) : Bool := s.mmActive p && s.preemptable p c

/-- Minimum fragment F in bytes (R141). -/
def State.minFrag (s : State) (p : Nat) : Nat := 64 * (1 + bits (s.inForce (0x0440 + p)) 2 1)

/-- FCLK cycles of `b` bytes at `rate` Mb/s, rounded up. -/
def byteCycles (b rate : Nat) : Nat := (b * 6400 + rate - 1) / rate

/-- The bytes of R150 that a frame of the class can hold the port for. -/
def State.guardBytes (s : State) (p c : Nat) : Nat :=
  if s.isPreemptable p c then 8 + s.minFrag p + 63 + 12
  else s.maxF p c + (if p < 22 then 20 else 0)

/-- The guard band of a class without its 4-cycle margin, in cycles (R150). -/
def State.guardBase (s : State) (p c : Nat) : Nat :=
  byteCycles (s.guardBytes p c) (s.lineRate p) + nsCycles (s.inForce (0x0460 + p))

/-- The guard band of a class, in cycles (R150). -/
def State.guardBand (s : State) (p c : Nat) : Nat := s.guardBase p c + 4

/-! Gate lists (R143 to R149). -/

/-- Address of entry `k` in the current or the pending bank of a port; the pending bank lies 0x2000 above (log entry 8). -/
def gateEntryAddr (p : Nat) (pend : Bool) (k : Nat) : Nat :=
  0x04400000 + p * 0x4000 + (if pend then 0x2000 else 0) + k * 8

/-- GATES of an entry. -/
def State.gateGates (s : State) (p : Nat) (pend : Bool) (k : Nat) : Nat := s.rd (gateEntryAddr p pend k) 1
/-- INTERVAL of an entry. -/
def State.gateInterval (s : State) (p : Nat) (pend : Bool) (k : Nat) : Nat := s.rd (gateEntryAddr p pend k + 2) 4

/-- The entry that contains offset `x` (in units of 1/`unit` of an interval step), and the offset at which it begins. -/
def State.walkGate (s : State) (p : Nat) (pend : Bool) (unit x : Nat) : Nat → Nat → Nat → Nat × Nat
  | 0, k, start => (k, start)
  | n + 1, k, start =>
    let e := start + s.gateInterval p pend k * unit
    if n = 0 || x < e then (k, start) else s.walkGate p pend unit x n (k + 1) e

/-- Offset of local time `t` in the cycle of a list, and the number of that cycle (R147). -/
def cyclePos (h : GateHdr) (t : Nat) : Nat × Int :=
  let c : Int := (h.cycleTime * nsUnit : Nat)
  let d : Int := (t : Int) - (h.base : Int)
  ((d % c).toNat, d / c)

/-- The entry in effect at local time `t` of a time-indexed list, and the local time at which it began. -/
def State.gateAt (s : State) (p : Nat) (pend : Bool) (h : GateHdr) (t : Nat) : Nat × Nat :=
  let x := (cyclePos h t).1
  let (k, st) := s.walkGate p pend nsUnit x h.count 0 0
  (k, t - x + st)

/-- The next `n` entries from entry `k`, which begins at local time `b`: pairs of beginning and GATES, cut at `limit`. -/
def State.gateSegs (s : State) (p : Nat) (pend : Bool) (cnt limit : Nat) : Nat → Nat → Nat → List (Nat × Nat)
  | 0, _, _ => []
  | n + 1, k, b =>
    if b ≥ limit then []
    else (b, s.gateGates p pend k) ::
      s.gateSegs p pend cnt limit n (if k + 1 ≥ cnt then 0 else k + 1) (b + s.gateInterval p pend k * nsUnit)

/-- The list governs the gates of a port: the hold mask and the loss policy do not (R55, R65). -/
def State.gateHold (s : State) (p : Nat) : Bool :=
  match (s.gate p).cur with
  | some h =>
    s.inForce (0x0420 + p) == 1 &&
    (if h.angle then s.angle.state != .running && s.angle.state != .off
     else s.time.state == .lost && s.param (0x0580 + p) == 1)
  | none => false

/-- The gate state that applies, given what the list says (R55, R65, R143). -/
def State.effState (s : State) (p listState : Nat) : Nat :=
  match (s.gate p).cur with
  | none => 0xFF
  | some h =>
    if s.inForce (0x0420 + p) != 1 then 0xFF
    else if h.angle then
      (match s.angle.state with
       | .off => 0xFF
       | .running => listState
       | _ => s.param (0x05A0 + p))
    else if s.time.state == .lost && s.param (0x0580 + p) == 1 then 0xFF
    else listState

/-- The gate state and the guard bands of an angle-indexed port at the cycle `cyc`: those of now, and what the edges placed
within the present count do by then (R62, R133, R152). -/
def State.angleGateAt (s : State) (p cyc : Nat) : Nat × List AngleBand :=
  let due := s.angle.placed.filter (fun e => e.port = p && e.fire ≤ cyc)
  due.foldl (fun (st, l) e =>
    if e.guard then
      let mark := match l.find? (fun x => x.cls = e.cls) with | some x => x.mark | none => e.close + 1
      (st, l ++ [{ port := p, cls := e.cls, close := e.close, mark := mark }])
    else (s.effState p (s.gateGates p false e.entry), l.filter (fun x => x.close % 65536 ≠ e.angle)))
    ((s.gate p).state.toNat, s.angle.guards.filter (fun x => x.port = p))

/-- The gate states of a port from local time `t` on: those of the current list up to the switch to a pending time-indexed list, and then
those of that list, one cycle of each (R133, R149). Of a current angle-indexed list it holds the state at `t` alone. -/
def State.gatePlan (s : State) (p t : Nat) : List (Nat × Nat) :=
  let g := s.gate p
  let far := t + 2 ^ 80
  let sw := match g.pend with
    | some h => if h.angle then far else g.switchAt
    | none => far
  let a := match g.cur with
    | some h => if t ≥ sw then [] else if h.angle then [(t, (s.angleGateAt p (s.now + s.cyclesTo t)).1)] else
        let (k, b) := s.gateAt p false h t
        s.gateSegs p false h.count sw (h.count + 1) k b
    | none => if t ≥ sw then [] else [(t, 0xFF)]
  let b := match g.pend with
    | some h => if h.angle then [] else
        let t0 := max t sw
        let (k, b) := s.gateAt p true h t0
        s.gateSegs p true h.count (t0 + 2 ^ 80) (h.count + 1) k b
    | none => []
  a ++ b

/-- The instants after the head of a plan at which class `c` closes (R150). -/
def planClosings (c : Nat) : List (Nat × Nat) → List Nat
  | (_, g) :: (t, g') :: r => if bit g c && !bit g' c then t :: planClosings c ((t, g') :: r) else planClosings c ((t, g') :: r)
  | _ => []

/-- Mark a frame in transmission whose class `closed` says has reached Closed (R134). -/
def State.markOverrun (s : State) (p : Nat) (closed : Nat → Bool) : State :=
  let e := s.egr p
  match e.tx with
  | some x =>
    if x.begun && closed x.cls.val && !s.isPreemptable p x.cls.val then s.setEgr p { e with tx := some { x with overran := true } }
    else s
  | none => s

/-- Apply a gate state at the MAC of a port. -/
def State.applyGates (s : State) (p st : Nat) : State :=
  let g := s.gate p
  let s := s.setGate p { g with state := BitVec.ofNat 8 st }
  s.markOverrun p (fun c => !bit st c)

/-- Apply the state that the list of a port gives now (R56, R143). -/
def State.refreshGates (s : State) (p : Nat) : State :=
  let g := s.gate p
  match g.cur with
  | none => s.applyGates p 0xFF
  | some h =>
    -- an angle-indexed list keeps the entry that its edges have led to (R62, R143)
    if h.angle then s.applyGates p (s.effState p (s.gateGates p false g.entry))
    else
      let (k, b) := s.gateAt p false h s.time.ltime
      (s.setGate p { g with entry := k, nextEdge := b + s.gateInterval p false k * nsUnit }).applyGates p
        (s.effState p (s.gateGates p false k))

/-- An angle-indexed list takes the entry that contains the angle `a`. -/
def State.seatGates (s : State) (p a : Nat) : State :=
  let g := s.gate p
  match g.cur with
  | some h => if h.angle then (s.setGate p { g with entry := (s.walkGate p false 1 a h.count 0 0).1 }).refreshGates p else s
  | none => s

/-- `f` applied for every index from `n - 1` down to 0, lowest index first. -/
def foldN (n : Nat) (f : State → Nat → State) (s : State) : State := (List.range n).foldl f s

/-- Apply the lists of every port again: the state of a source has changed (R55, R65). -/
def State.refreshAllGates (s : State) : State :=
  foldN 24 (fun s p => if (s.gate p).cur.isSome then s.refreshGates p else s) s

/-! Millrace windows (R159 to R166). -/

/-- Address of window `w` in the current or the pending bank. -/
def windowAddr (p : Nat) (pend : Bool) (w : Nat) : Nat :=
  0x04470000 + p * 0x1000 + (if pend then 0x800 else 0) + w * 32

/-- Address of the counters of window `w` (R175). -/
def windowCnt (p w off : Nat) : Nat := 0x048B0000 + (64 * p + w) * 16 + off

/-- Links, rates and MACsec of R159 hold between two ports, and the reference permits windows (R55, R159). -/
def State.millPorts (s : State) (po pi : Nat) : Bool :=
  po < 20 && s.param (0x0600 + po) == 1 && s.inForce (0x0420 + po) == 1 && s.param (0x05C0 + po) == 0 &&
  pi < 20 && pi != po && s.lineRate pi == s.lineRate po &&
  !(po < 10 && s.param (0x0260 + po) == 1) && !(pi < 10 && s.param (0x0260 + pi) == 1) &&
  s.linkUp po && s.linkUp pi &&
  (s.time.state == .free || s.time.state == .locked || s.time.state == .holdover)

/-- The port conditions of R159 for Po alone (MR_STATUS.ENABLED). -/
def State.millEnabled (s : State) (po : Nat) : Bool :=
  po < 20 && s.param (0x0600 + po) == 1 && s.inForce (0x0420 + po) == 1 && s.param (0x05C0 + po) == 0

/-- The opening of window `w` of the current set in cycle `m` of the list, in local time. -/
def State.windowOpening (s : State) (p w : Nat) (h : GateHdr) (m : Int) : Nat :=
  ((h.base : Int) + m * ((h.cycleTime * nsUnit : Nat) : Int) + ((s.rd (windowAddr p false w + 8) 4 * nsUnit : Nat) : Int)).toNat

/-- The longest guard band among the classes whose gate is open at an opening, and the band of each class (R159). -/
def State.windowGuards (s : State) (p opening : Nat) : Nat × List Nat :=
  let g := match s.gatePlan p opening with
    | (_, g) :: _ => g
    | [] => 0xFF
  let l := (List.range 8).map (fun c => if bit g c then s.guardBand p c else 0)
  (l.foldl max 0, l)

/-- The next opening of window `w` that has not been decided or withdrawn: its cycle of the list and its local time. In the FCLK cycle of
an opening, the opening itself is the next one. -/
def State.nextOpening (s : State) (p w : Nat) : Option (Int × Nat) :=
  match (s.gate p).cur with
  | some h =>
    if h.angle then none else
    let m := (cyclePos h s.time.ltime).2
    let done := SMap.get [] (s.mill p).judged w
    ((List.range (done.length + 2)).map (fun (i : Nat) => (m + (i : Int), s.windowOpening p w h (m + (i : Int))))).find?
      (fun x => s.time.ltime < x.2 + s.time.incr && !done.contains x.1)
  | none => none

/-- Record that the opening of window `w` in cycle `m` of the list has been judged. Openings that have passed are forgotten. -/
def State.judgeOpening (s : State) (p w : Nat) (m : Int) : State :=
  let x := s.mill p
  let past := match (s.gate p).cur with | some h => (cyclePos h s.time.ltime).2 | none => m
  s.setMill p { x with judged := SMap.set [] x.judged w (m :: (SMap.get [] x.judged w).filter (fun j => past ≤ j)) }

/-- Count a withdrawn window (R160); `own`: the window belongs to the current set. -/
def State.countWithdrawn (s : State) (p w : Nat) (own : Bool) : State :=
  let s := s.portErr p 0x0268
  if own then s.bump (windowCnt p w 0xC) else s

/-- Withdraw every decided window that has not opened (R160, R163). -/
def State.withdrawDecided (s : State) (p : Nat) (ownCounts : Bool) : State :=
  let x := s.mill p
  let s := x.decided.foldl (fun s d => s.countWithdrawn p d.idx (ownCounts && d.ownSet)) s
  s.setMill p { s.mill p with decided := [] }

/-- Withdraw the openings of window `w`, `n` at most, whose decision instant has passed, or which fall before `busyTo`. -/
def State.withdrawOpenings (p w busyTo : Nat) : Nat → State → State
  | 0, s => s
  | n + 1, s =>
    match s.nextOpening p w with
    | some (m, o) =>
      if s.cyclesTo o < (s.windowGuards p o).1 || o < busyTo then
        State.withdrawOpenings p w busyTo n ((s.judgeOpening p w m).countWithdrawn p w true)
      else s
    | none => s

/-- Withdraw the windows of a set that has just become current whose decision instant has passed, or whose opening falls
before `busyTo`, the end of what still stands on the port (R159, R160, R162, R163). -/
def State.withdrawLate (s : State) (p : Nat) (busyTo : Nat) : State :=
  match (s.gate p).cur with
  | some h =>
    let band := (List.range 8).foldl (fun b c => max b (s.guardBand p c)) 0 * s.time.incr
    let n := (max band (busyTo - s.time.ltime)) / max 1 (h.cycleTime * nsUnit) + 2
    (List.range (s.mill p).curCount).foldl (fun s w => State.withdrawOpenings p w busyTo n s) s
  | none => s

/-- Clear the counters of every window of a port (R175). -/
def State.clearWindowCnt (s : State) (p : Nat) : State :=
  { s with cnt32 := SMap.dropKeys (fun k => windowCnt p 0 0 ≤ k && k < windowCnt p 64 0) s.cnt32 }

/-- Local time at which a cycle count is reached at the present rate. -/
def State.ltAt (s : State) (cyc : Nat) : Nat := s.time.ltime + (cyc - s.now) * s.time.incr

/-- Cycle in which an open window ends, as far as time and its candidate bring its end (R166). -/
def OpenWin.endAt (w : OpenWin) : Nat :=
  min (if w.candidate then w.candEnd else w.openedAt + nsCycles w.win.arrive) (w.openedAt + nsCycles w.win.span)

/-- First cycle in which a port is free of the window that is open on it, or of the last one (R166). -/
def Millrace.freeFrom (x : Millrace) : Nat := match x.opened with | some w => w.endAt + 1 | none => x.freeAt

/-- What window `w` will do at its opening `o` of cycle `m` if it is decided as things stand (R159). -/
def State.windowPlan (s : State) (p w : Nat) (m : Int) (o : Nat) (guards : List Nat) : Option DecidedWin :=
  let a := windowAddr p false w
  let pi := bits (s.rd a 1) 4 0
  if s.millPorts p pi then
    some { idx := w, inPort := pi, handle := bits (s.rd a 4) 21 8, maxLen := bits (s.rd (a + 4) 4) 13 0, cyc := m, open_ := o,
           arrive := s.rd (a + 12) 4, span := s.rd (a + 16) 4, ownSet := true, guard := guards }
  else none

/-- The windows of a port that have been decided to open, and those that will be by the cycle `cyc` as things stand (R133, R164). -/
def State.windowsBy (s : State) (p cyc : Nat) : List DecidedWin :=
  let x := s.mill p
  x.decided ++ (if cyc ≤ s.now then [] else (List.range x.curCount).filterMap (fun w =>
    match s.nextOpening p w with
    | some (m, o) =>
      let (lead, guards) := s.windowGuards p o
      if s.now + s.cyclesTo o ≤ cyc + lead then s.windowPlan p w m o guards else none
    | none => none))

/-- The millrace unit closes the classes of a port at the cycle `cyc`: a window is or will be open then (R164). -/
def State.millClosed (s : State) (p cyc : Nat) : Bool :=
  decide (cyc < (s.mill p).freeFrom) || (s.windowsBy p cyc).any (fun d => d.open_ ≤ s.ltAt cyc)

/-- The guard bands of openings that cover the cycle `cyc` for class `c`: the cycle in which each begins, and its name (R164). -/
def State.millBands (s : State) (p c cyc : Nat) : List (Nat × Nat) :=
  (s.windowsBy p cyc).filterMap (fun d =>
    let o := s.now + s.cyclesTo d.open_
    let g := d.guard.getD c 0
    if cyc < o && o ≤ cyc + g && g ≠ 0 then some (o - g, d.open_ + 1) else none)

/-- States of a weir (R131). -/
inductive Weir where
  | closed | open_ | guard
  deriving DecidableEq, Repr

/-- The guard bands of the closings of class `c` in the plan of a port that cover the cycle `cyc`: the cycle in which each begins, and its
name, the local time of the closing (R150, R151). -/
def State.listBands (s : State) (p c cyc : Nat) : List (Nat × Nat) :=
  (planClosings c (s.gatePlan p (s.ltAt cyc))).filterMap (fun t =>
    let b := s.now + s.cyclesTo t - s.guardBand p c
    if b ≤ cyc then some (b, t) else none)

/-- The guard bands of class `c` that the lists of a port place over the cycle `cyc` (R149 to R152): on a time basis those of the plan, on
an angle basis those that have begun, each with the cycle in which it begins (0: known only to have begun) and its name. -/
def State.gateBands (s : State) (p c cyc : Nat) : List (Nat × Nat) :=
  if s.inForce (0x0420 + p) != 1 then []
  else
    let g := s.gate p
    let isTime := fun (h : Option GateHdr) => match h with | some h => !h.angle | none => false
    let isAngle := fun (h : Option GateHdr) => match h with | some h => h.angle | none => false
    let held := isTime g.cur && s.gateHold p
    let onTime := (isTime g.cur || isTime g.pend) && !held
    let onAngle := (isAngle g.cur && !(isTime g.pend && s.ltAt cyc ≥ g.switchAt)) || (isAngle g.pend && !held)
    (if onTime then s.listBands p c cyc else []) ++
    (if onAngle then ((s.angleGateAt p cyc).2.filter (fun x => x.cls = c)).map (fun x => (0, x.mark)) else [])

/-- The gate state that the lists of a port give for the cycle `cyc` (R131, R133). -/
def State.gateStateAt (s : State) (p cyc : Nat) : Nat :=
  if s.inForce (0x0420 + p) != 1 || (s.gateHold p && (match (s.gate p).cur with | some h => !h.angle | none => false)) then 0xFF
  else match s.gatePlan p (s.ltAt cyc) with
    | (_, st) :: _ => st
    | [] => 0xFF

/-- Every guard band of class `c` that covers the cycle `cyc` (R151, R164). -/
def State.bandsAt (s : State) (p c cyc : Nat) : List (Nat × Nat) := s.gateBands p c cyc ++ s.millBands p c cyc

/-- The weir of class `c` of a port at the cycle `cyc`, with the names of the guard bands that hold it (R131, R150 to R152). -/
def State.weir (s : State) (p c cyc : Nat) : Weir × List Nat :=
  if s.millClosed p cyc || !bit (s.gateStateAt p cyc) c then (.closed, [])
  else match s.bandsAt p c cyc with
    | [] => (.open_, [])
    | l => (.guard, l.map (fun x => x.2))

/-- At a closing of class `c` in this cycle, the count of the guard band that ends goes over to one that overlaps it: the two are one guard
band (R151). -/
def State.carryBand (s : State) (p c : Nat) : State :=
  let q := s.cls p c
  if q.guardMark = 0 then s
  else match (s.bandsAt p c s.now).find? (fun x => x.1 < s.now) with
    | some x => s.setCls p c { q with guardMark := x.2 }
    | none => s

/-- `carryBand` for each class that `closed` says has just closed. -/
def State.carryBands (s : State) (p : Nat) (closed : Nat → Bool) : State :=
  (List.range 8).foldl (fun s c => if closed c then s.carryBand p c else s) s

/-- The changes of the gate state of a port from now on, by the cycle in which each is applied: the plan of a time-indexed list,
or the edges that an angle-indexed one has placed (R133). -/
def State.gateChanges (s : State) (p : Nat) : List (Nat × Nat) :=
  if s.inForce (0x0420 + p) != 1 || s.gateHold p then []
  else
    let plan := (s.gatePlan p s.time.ltime).map (fun (b, g) => (s.now + s.cyclesTo b, g))
    match (s.gate p).cur with
    | some h =>
      if h.angle then
        -- up to the switch to a pending list, the first of the plan after the present state
        let rest := plan.drop 1
        let sw := match rest with | (t, _) :: _ => t | [] => s.now + 2 ^ 80
        ((s.angle.placed.filter (fun e => e.port = p && !e.guard && e.fire < sw)).map (fun e => (e.fire, s.gateGates p false e.entry))) ++ rest
      else plan
    | none => plan

/-- How many of the cycles after now, up to `cyc`, the weir of a class is not Closed for (R132, R136). -/
def State.openFor (s : State) (p c cyc : Nat) : Nat :=
  let busy := (s.mill p).freeFrom
  let changes := (s.gateChanges p).filter (fun x => x.1 ≤ cyc)
  let (since, n) := changes.foldl (fun (b : Option Nat × Nat) (t, g) =>
    match b.1 with
    | some t0 => if bit g c then b else (none, b.2 + (t - max t0 busy))
    | none => if bit g c then (some (max s.now t), b.2) else b) (if bit (s.gate p).state.toNat c then some s.now else none, 0)
  match since with
  | some t => n + (cyc - max t busy)
  | none => n

/-- The weir of a class now, as the credit-based shaper sees it (R136). -/
def State.weirClosedNow (s : State) (p c : Nat) : Bool :=
  (s.mill p).opened.isSome || s.now < (s.mill p).freeAt || !bit (s.gate p).state.toNat c

/-! Commands of the weirs and of the millrace unit. -/

/-- Count entry 0 of the current list taking effect (R157). -/
def State.countCycle (s : State) (p : Nat) : State :=
  if s.inForce (0x0420 + p) == 1 then s.bump (portReg p 0x0208) else s

/-- A time-indexed entry begins (R147). -/
def gateEdge (s : State) (p : Nat) : State :=
  let g := s.gate p
  match g.cur with
  | some h =>
    if h.angle || s.time.ltime < g.nextEdge then s
    else
      let k := if g.entry + 1 ≥ h.count then 0 else g.entry + 1
      let s := s.setGate p { g with entry := k, nextEdge := g.nextEdge + s.gateInterval p false k * nsUnit }
      let was := g.state.toNat
      let s := s.applyGates p (s.effState p (s.gateGates p false k))
      let s := s.carryBands p (fun c => bit was c && !bit (s.gate p).state.toNat c)
      if k = 0 then s.countCycle p else s
  | none => s

/-- The pending window set becomes the current one at a switch (R162, R163). -/
def switchWindows (s : State) (p : Nat) : State :=
  if p ≥ 20 then s else
  let s := s.withdrawDecided p false
  let s := s.clearWindowCnt p
  let x := s.mill p
  let bytes := s.rdB (windowAddr p true 0) (x.pendCount * 32)
  let opened := match x.opened with
    | some w => if w.candidate then some { w with win := { w.win with ownSet := false } } else none
    | none => none
  let s := s.setMill p { x with curGen := x.pendGen, curCount := x.pendCount, pendGen := none, pendCount := 0,
                                nextGen := none, nextCount := 0, nextSet := [], judged := [], opened := opened }
  let s := s.wrB (windowAddr p false 0) bytes
  let busy := match opened with
    | some w => s.ltAt w.candEnd
    | none => 0
  s.withdrawLate p busy

/-- The pending list becomes current (R149). -/
def gateListSwitch (s : State) (p : Nat) : State :=
  let g := s.gate p
  match g.pend with
  | some h =>
    let ready := if h.angle then g.due else decide (s.time.ltime ≥ g.switchAt)
    if !ready then s
    else
      let bytes := s.rdB (gateEntryAddr p true 0) (h.count * 8)
      let s := s.wrB (gateEntryAddr p false 0) bytes
      let s := s.setGate p { g with cur := some h, pend := none, due := false }
      let s := s.bump (portReg p 0x020C)
      -- in reverse the switch comes as the angle passes below 0x0000 (R64)
      let a := s.angle.angle.toNat
      let s := if h.angle then s.seatGates p (if s.angle.rev then (a + 65535) % 65536 else a) else s.refreshGates p
      let s := s.carryBands p (fun c => bit g.state.toNat c && !bit (s.gate p).state.toNat c)
      let s := if (s.gate p).entry = 0 then s.countCycle p else s
      switchWindows s p
  | none => s

/-- A window set for the current generation becomes the current set at its cycle start (R162). -/
def windowSetAdopt (s : State) (p : Nat) : State :=
  let x := s.mill p
  match x.nextGen with
  | some gen =>
    if s.time.ltime < x.nextAt then s
    else
      let standing := x.decided.map (fun d => { d with ownSet := false })
      let opened := x.opened.map (fun w => { w with win := { w.win with ownSet := false } })
      let s := s.clearWindowCnt p
      let s := s.setMill p { x with curGen := some gen, curCount := x.nextCount, nextGen := none, nextCount := 0,
                                    nextSet := [], judged := [], decided := standing, opened := opened }
      let s := s.wrB (windowAddr p false 0) x.nextSet
      let busy := standing.foldl (fun b d => max b (d.open_ + d.span * nsUnit)) 0
      let busy := match opened with
        | some w => max busy (w.win.open_ + w.win.span * nsUnit)
        | none => busy
      s.withdrawLate p busy
  | none => s

/-- A window is decided to open or is withdrawn (R159, R160). -/
def windowDecision (s : State) (p w : Nat) : State :=
  let x := s.mill p
  if w ≥ x.curCount then s
  else match s.nextOpening p w with
    | some (m, o) =>
      let (lead, guards) := s.windowGuards p o
      if s.cyclesTo o > lead then s
      else
        let s := s.judgeOpening p w m
        match s.windowPlan p w m o guards with
        | some d => s.setMill p { s.mill p with decided := (s.mill p).decided ++ [d] }
        | none => s.countWithdrawn p w true
    | none => s

/-- The decided window whose opening comes first. -/
def firstOpening (l : List DecidedWin) : Option DecidedWin :=
  l.foldl (fun b d => match b with
    | none => some d
    | some x => if d.open_ < x.open_ then some d else some x) none

/-- A decided window opens and closes every class of the port (R164). -/
def windowOpen (s : State) (p : Nat) : State :=
  let x := s.mill p
  match firstOpening x.decided with
  | some d =>
    if s.time.ltime < d.open_ || x.opened.isSome then s
    else
      let w : OpenWin := { win := d, openedAt := s.now, candidate := false, candEnd := 0, candFrom := 0, candTo := 0 }
      let s := s.setMill p { x with decided := x.decided.erase d, opened := some w, lastIdx := d.idx }
      let open_ := (s.gate p).state.toNat
      (s.markOverrun p (fun _ => true)).carryBands p (fun c => bit open_ c)
  | none => s

/-- A window ends, and the port is free from the cycle after its end (R166). -/
def windowEnd (s : State) (p : Nat) : State :=
  let x := s.mill p
  match x.opened with
  | some w =>
    let empty := !w.candidate && s.now ≥ w.openedAt + nsCycles w.win.arrive
    if s.now ≥ w.endAt || !s.linkUp p then
      let s := s.setMill p { x with opened := none, freeAt := min w.endAt s.now + 1 }
      if empty then
        let s := s.portErr p 0x0264
        if w.win.ownSet then s.bump (windowCnt p w.win.idx 0x8) else s
      else s
    else s
  | none => s

/-- After a step of local time: every time-indexed list applies the entry of the new time, and windows that were decided
and have not opened are withdrawn (R56, R160; log entry 29). -/
def scheduleStep (s : State) : State :=
  foldN 24 (fun s p =>
    let s := match (s.gate p).cur with
      | some h => if h.angle then s else (s.refreshGates p).gateErr p 0x0210
      | none => s
    if p < 20 && !((s.mill p).decided.isEmpty && (s.mill p).judged.isEmpty) then
      -- an opening that the step withdraws stays withdrawn; every other one is judged anew
      let gone := (s.mill p).decided.filter (·.ownSet)
      let s := s.withdrawDecided p true
      s.setMill p { s.mill p with judged := gone.foldl (fun j d => SMap.set [] j d.idx (d.cyc :: SMap.get [] j d.idx)) [] }
    else s) s

end Sys2Proof.Machine
end

