-- ==== Sys2Proof/Machine/Reference.lean ====
section
/-! DEFINITION. Following the reference: time samples, steering, angle source, snapshot (R36 to R65, R314). -/

namespace Sys2Proof.Machine

/-- The main side runs: Operating, RST_N high (R28, R431). An event that the state of the device does not let happen changes
nothing (DESIGN CHOICE, log entry 7). -/
def State.live (s : State) : Bool := s.pw.mode == .operating && !s.pw.rstLow

/-- Firmware runs: the main side runs, and the control processor is neither starting nor restarting. -/
def State.fw (s : State) : Bool := s.live && s.pw.fwReady && !s.ls.restarting

/-! The time source (R52 to R54). -/

/-- 3-bit code of a time-source state (R52). -/
def TimeState.code : TimeState → BitVec 3
  | .free => 0 | .unset => 1 | .acquiring => 2 | .locked => 3 | .holdover => 4 | .lost => 5

/-- 3-bit code of an angle-source state (R65). -/
def AngleState.code : AngleState → BitVec 3
  | .off => 0 | .unindexed => 1 | .running => 2 | .stalled => 3 | .lost => 4

/-- Enter a state of the time source: DW_IRQ.REF marks a change, and the gates follow R55. -/
def State.setTimeState (s : State) (st : TimeState) : State :=
  if s.time.state = st then s
  else
    let s := { s with time.state := st, time.inWindow := if st = TimeState.acquiring then 0 else s.time.inWindow }
    (s.irq 8).refreshAllGates

/-- Largest departure of the increment from nominal: 250 ppm (R38). -/
def steerMax : Nat := nominalIncr * 250 / 1000000

/-- An increment held within the steering range (R38). -/
def clampIncr (i : Int) : Nat := (max ((nominalIncr - steerMax : Nat) : Int) (min ((nominalIncr + steerMax : Nat) : Int) i)).toNat

/-- Address of a route (R241). -/
def routeAddr (r : Nat) : Nat := 0x04220000 + r * 32
/-- A counter of a route: 0 runs, 4 overrun, 8 skipped, 12 fail (R261). -/
def routeCnt (r off : Nat) : Nat := 0x04920000 + r * 16 + off
/-- A route entry. -/
def State.route (s : State) (r : Nat) : Nat := s.rd (routeAddr r) 32

/-- PERIOD and PHASE of a route in ns. -/
def routePeriod (w : Nat) : Nat := max 1 (bits w 221 208) * 1000000
def routePhase (w : Nat) : Nat := bits w 237 224 * 1000000

/-- A forward step of local time from `old` skips the boundary of a run that waits for the spacing rule: the run is not made, and counts in
ROUTE_SKIPPED (R57). -/
def State.skipRuns (s : State) (old : Nat) : State :=
  s.bus.runs.foldl (fun s e =>
    let x := s.run e.1
    let w := s.route e.1
    match x.cur with
    | some k =>
      let b := routePhase w + k * routePeriod w
      if !x.trying && ltNs old < b && b ≤ ltNs s.time.ltime then
        (s.setRun e.1 { x with last := some k, cur := none }).bump (routeCnt e.1 8)
      else s
    | none => s) s

/-- Step local time to the value of a sample (R54); the schedules lose their position (R56). The local time since the last
PPS edge and since the write of a seconds value (R50, R51) does not count the step (DEDUCED, log entry 46), nor does that since the last
Sync and since the last response of a neighbour (R47). The recorded edges of the encoder stay as they are (DESIGN CHOICE: R61 does not
say; log entry 54). -/
def State.stepTime (s : State) (off : Int) : State :=
  let moved := fun (t : Nat) => ((t : Int) - off).toNat
  let old := s.time.ltime
  let s := { s with time.ltime := moved s.time.ltime, time.since := moved s.time.ltime, time.steps := satInc s.time.steps, time.slew := 0,
                    time.incr := s.time.refIncr, time.ppsLast := s.time.ppsLast.map moved,
                    time.ppsSec := s.time.ppsSec.map (fun (x : Nat × Nat) => (x.1, moved x.2)),
                    time.upstream := s.time.upstream.map (fun (x : Nat × Nat) => (x.1, moved x.2)),
                    gptp := s.gptp.map (fun (x : Nat × GptpPort) => (x.1, { x.2 with lastResp := x.2.lastResp.map (fun (y : Nat × Nat) => (y.1, moved y.2)) })) }
  scheduleStep (s.skipRuns old)

/-- Slew an offset: the rate departs from the measured reference rate by no more than the maximum slew (R38). The
departure itself is the steering firmware's, a free value within that bound (log entry 37). -/
def State.slewTime (s : State) (off : Int) : State :=
  let lim := s.time.refIncr * s.param 0x0508 / 1000000
  let (x, s) := s.draw
  let dep : Int := if off = 0 || lim = 0 then 0 else ((1 + x % lim : Nat) : Int)
  let i : Int := if off > 0 then (s.time.refIncr : Int) - dep else (s.time.refIncr : Int) + dep
  { s with time.slew := off, time.incr := clampIncr i }

/-- The measured rate of the reference: what FREQ_IN has shown, or, for network time, a free value within the steering range
(R38, R47, R49; log entry 37). -/
def State.setRate (s : State) (freq : Option Nat) : State :=
  match freq with
  | some r => { s with time.refIncr := clampIncr r }
  | none =>
    let (x, s) := s.draw
    { s with time.refIncr := nominalIncr - steerMax + x % (2 * steerMax + 1) }

/-- Take one valid sample (R53, R54). `off` is local time less reference time, `ivl` the sample interval in cycles, `rate` the
rate that FREQ_IN has shown. A sample that enters Acquiring is the first of the eight of its lock condition (DESIGN CHOICE: R53
does not say; log entry 33). -/
def State.timeSample (s : State) (off : Int) (ivl : Nat) (gmChange : Bool) (rate : Option Nat) : State :=
  let win : Int := (s.param 0x0505 * nsUnit : Nat)
  let thr : Int := (s.param 0x0506 * nsUnit : Nat)
  let a : Int := off.natAbs
  let s := s.setRate rate
  let s := { s with time.offset := off, time.lastSample := s.now, time.interval := ivl }
  let next : TimeState :=
    match s.time.state with
    | .free => .free
    | .unset => .acquiring
    | .lost => .acquiring
    | .acquiring => .acquiring
    | .locked => if gmChange || a > thr then .acquiring else .locked
    | .holdover => if gmChange || a > win then .acquiring else .locked
  let s := if gmChange then { s with time.inWindow := 0 } else s
  let s := s.setTimeState next
  if s.time.state = .acquiring then
    -- a sample inside the lock window counts although a smaller step threshold steps it (DEDUCED, log entry 33)
    let n := if a ≤ win then s.time.inWindow + 1 else 0
    let s := { s with time.inWindow := n }
    if n ≥ 8 then (s.setTimeState .locked).slewTime off
    else if a > thr then s.stepTime off
    else s.slewTime off
  else s.slewTime off

/-! The angle source (R58 to R65). -/

/-- Angle units of one count, u (R58). -/
def State.angleUnit (s : State) : Nat := 65536 / (4 * s.param 0x0511)

/-- The way from one recorded angle to another in the direction of motion, in angle units; a whole turn where both are the same
(DEDUCED from R61: W counts span at most one turn). -/
def angleMoved (rev : Bool) (a0 a1 : Nat) : Nat :=
  ((if rev then a0 + 131072 - a1 else a1 + 131072 - a0) - 1) % 65536 + 1

/-- The speed over the last W counts, as angle units over units of 2⁻³² ns; none: undefined (R61). The counts are those since the
last stall or reversal, and the edge before a stall is none of them (DESIGN CHOICE, log entry 54). -/
def State.omega (s : State) : Option (Int × Nat) :=
  let w := s.param 0x0514
  match s.angle.hist.head?, s.angle.hist[w]? with
  | some (a1, t1), some (a0, t0) =>
    let d : Int := angleMoved s.angle.rev a0 a1
    if t1 > t0 then some (if s.angle.rev then -d else d, t1 - t0) else none
  | _, _ => none

/-- The speed is at least the minimum speed (R65). -/
def State.fastEnough (s : State) : Bool :=
  match s.omega with
  | some (n, d) => n.natAbs * 60000000000 * nsUnit ≥ s.param 0x0515 * 65536 * d
  | none => false

/-- The speed register: units per µs with 16 fraction bits, rounded to the nearest (R45); 0 while undefined (R311). -/
def State.omegaReg (s : State) : Word :=
  match s.omega with
  | some (n, d) =>
    let m := (n.natAbs * 1000 * nsUnit * 65536 * 2 + d) / (2 * d)
    satInt 32 (-(2 ^ 31)) (2 ^ 31 - 1) (if n < 0 then -(m : Int) else m)
  | none => 0

/-- The angle and turn now, extrapolated within the present count (R44, R62) while the source is Running and in no other state
(DESIGN CHOICE: R44 does not say what a stamp shows in Unindexed or Lost; log entry 54). -/
def State.angleNow (s : State) : Nat :=
  let base := s.angle.turn.toNat * 65536 + s.angle.angle.toNat
  match s.angle.state, s.omega, s.angle.hist.head? with
  | .running, some (n, d), some (_, t) =>
    let x := min ((s.time.ltime - t) * n.natAbs / d) (s.angleUnit - 1)
    if n < 0 then (((base : Int) - x) % (2 ^ 48 : Nat)).toNat else (base + x) % 2 ^ 48
  | _, _, _ => base

/-- The angle stamp (R44). -/
def State.angleStamp (s : State) : BitVec 64 :=
  BitVec.ofNat 64 (s.angleNow + (if s.angle.rev then 2 ^ 48 else 0) + (if s.angle.indexed then 2 ^ 49 else 0) +
    (if s.angle.state = .stalled then 2 ^ 50 else 0))

/-! The snapshot (R46, R314). -/

/-- Capture the snapshot registers; `cause` as DW_SNAP_STATE.CAUSE. Triggers that fall in one cycle make one capture, that of the trigger
which comes first (R314; which one is a DESIGN CHOICE, log entry 27). -/
def State.capture (s : State) (cause : BitVec 2) : State :=
  if s.snap.at_ = some s.now then s else
  let off := (s.time.offset / (nsUnit : Int))
  let sn := { s.snap with
    count := s.snap.count + 1, at_ := some s.now, ltime := s.time.ltime, cycle := s.now, stamp := s.angleStamp,
    tstate := s.time.state.code, astate := s.angle.state.code, cause := cause, omega := s.omegaReg,
    offset := satInt 32 (-(2 ^ 31 - 1)) (2 ^ 31 - 1) off, steps := s.time.steps,
    gm := s.time.gm.getD 0 }
  { s with snap := sn }.irq 9

/-! Angle-indexed gate lists (R62 to R64, R152). -/

/-- The entries of an angle-indexed list with the angle at which each begins: index, beginning, GATES. -/
def State.angleEntries (s : State) (p : Nat) (pend : Bool) (cnt : Nat) : List (Nat × Nat × Nat) :=
  ((List.range cnt).foldl (fun (acc : List (Nat × Nat × Nat) × Nat) k =>
    (acc.1 ++ [(k, acc.2, s.gateGates p pend k)], acc.2 + s.gateInterval p pend k)) ([], 0)).1

/-- The edges of a list in the direction of motion: angle of the edge, entry that then holds, GATES before and after. In
reverse, crossing the beginning of entry k downwards leads to entry k - 1. -/
def angleEdges (rev : Bool) (l : List (Nat × Nat × Nat)) (first : Option Nat) : List (Nat × Nat × Nat × Nat) :=
  let n := l.length
  l.map (fun (k, b, g) =>
    let j := if k = 0 then n - 1 else k - 1
    let gj := match l[j]? with | some (_, _, x) => x | none => g
    if rev then (b, j, g, if k = 0 then first.getD gj else gj)
    else (b, k, gj, if k = 0 then first.getD g else g))

/-- Distance from angle `a` to angle `b` in the direction of motion. -/
def angleAhead (rev : Bool) (a b : Nat) : Nat := if rev then (a + 65536 - b) % 65536 else (b + 65536 - a) % 65536

/-- Cycle in which an edge `dist` units ahead of the last count edge fires (R62). It is that of the placement: a later change of the
increment or a step of local time does not move it (DESIGN CHOICE: R62 does not say; log entry 54). -/
def State.fireCycle (s : State) (dist : Nat) : Nat :=
  match s.omega, s.angle.hist.head? with
  | some (n, d), some (_, t) =>
    let tg := t + (dist * d + n.natAbs - 1) / n.natAbs
    s.now + s.cyclesTo tg
  | _, _ => s.now

/-- GATES that take effect at the next turn boundary, if the switch of a pending list falls there (R148, R149): those of its entry 0, or
of its last entry in reverse (R64). -/
def State.boundaryGates (s : State) (p : Nat) : Option Nat :=
  match (s.gate p).pend, s.omega, s.angle.hist.head? with
  | some h, some (n, d), some (_, t) =>
    let a := s.angle.angle.toNat
    let dist := if s.angle.rev then (if a = 0 then 65536 else a) else 65536 - a
    if h.angle && t + dist * d / n.natAbs ≥ (s.gate p).switchAt then
      some (s.gateGates p true (if s.angle.rev then h.count - 1 else 0))
    else none
  | _, _, _ => none

/-- The edges that the lists of a port have in one turn (R62, R149). -/
def State.portEdges (s : State) (p : Nat) : List (Nat × Nat × Nat × Nat) :=
  match (s.gate p).cur with
  | some h =>
    if h.angle then angleEdges s.angle.rev (s.angleEntries p false h.count) (s.boundaryGates p)
    else match s.boundaryGates p with
      | some g => [(0, 0, (s.gate p).state.toNat, g)]
      | none => []
  | none => match s.boundaryGates p with
    | some g => [(0, 0, 0xFF, g)]
    | none => []

/-- An edge in the order of the placed ones: by its cycle, then by its placement. -/
def insertEdge (e : PlacedEdge) : List PlacedEdge → List PlacedEdge
  | [] => [e]
  | x :: r => if e.fire < x.fire then e :: x :: r else x :: insertEdge e r

/-- The closings of a class that lie ahead, in the order in which they come: distance, angle, entry that then begins. -/
def State.closings (s : State) (edges : List (Nat × Nat × Nat × Nat)) (c : Nat) : List (Nat × Nat × Nat) :=
  let l := edges.filterMap (fun (b, k, g0, g1) =>
    if bit g0 c && !bit g1 c then some (angleAhead s.angle.rev s.angle.angle.toNat b, b, k) else none)
  l.foldl (fun acc x => acc.filter (fun y => y.1 ≤ x.1) ++ [x] ++ acc.filter (fun y => x.1 < y.1)) []

/-- Turn and angle of the crossing that lies `dist` units ahead. -/
def State.crossing (s : State) (dist : Nat) : Nat :=
  let base := s.angle.turn.toNat * 65536 + s.angle.angle.toNat
  if s.angle.rev then (base + 2 ^ 48 - dist) % 2 ^ 48 else (base + dist) % 2 ^ 48

/-- The guard band of a class in angle units at the present speed, rounded up (R152). -/
def State.angleBand (s : State) (p c : Nat) : Nat :=
  match s.omega with
  | some (n, d) =>
    let num := s.guardBase p c * nominalIncr * n.natAbs * s.param 0x0401
    (num + d * 100 - 1) / (d * 100)
  | none => 0

/-- The name of a guard band that has begun: that of the band with which it overlaps, else its own (R151). -/
def bandMark (old : List AngleBand) (p c close : Nat) : Nat :=
  match old.find? (fun x => x.port = p && x.cls = c) with
  | some x => x.mark
  | none => close + 1

/-- The guard bands of a port that cover the present angle, as this count edge converts them (R151, R152). -/
def State.bandsNow (s : State) (p : Nat) (edges : List (Nat × Nat × Nat × Nat)) : List AngleBand :=
  (List.range 8).flatMap (fun c =>
    let w := s.angleBand p c
    let l := (s.closings edges c).filter (fun x => 0 < x.1 && x.1 < w)
    l.foldl (fun (acc : List AngleBand) x =>
      let close := s.crossing x.1
      let mark := match s.angle.guards.find? (fun y => y.port = p && y.cls = c && y.close = close) with
        | some y => y.mark
        | none => bandMark acc p c close
      acc ++ [{ port := p, cls := c, close := close, mark := mark }]) [])

/-- Place the gate and guard edges of one port that lie within the count after the present angle (R62, R152). `here`: an edge at the
present angle is one of them. A list whose switch is due places no more edges (R149). -/
def State.placePort (s : State) (p : Nat) (here : Bool) : State :=
  let g := s.gate p
  let isAngle := fun (h : Option GateHdr) => match h with | some h => h.angle | none => false
  let listed := isAngle g.cur || isAngle g.pend
  if !listed || g.due then s
  else
    let rev := s.angle.rev
    let u := s.angleUnit
    let a := s.angle.angle.toNat
    let edges := s.portEdges p
    let gates := if !isAngle g.cur then [] else edges.filterMap (fun (b, k, _, _) =>
      let d := angleAhead rev a b
      if d < u && (here || d ≠ 0) then
        some ({ port := p, angle := b, fire := s.fireCycle d, entry := k, guard := false, cls := 0, close := 0 } : PlacedEdge)
      else none)
    let guards := (List.range 8).flatMap (fun c =>
      let w := s.angleBand p c
      (s.closings edges c).filterMap (fun (d, b, k) =>
        if w ≤ d && d - w < u && 0 < w && 0 < d then
          some ({ port := p, angle := b, fire := s.fireCycle (d - w), entry := k, guard := true, cls := c, close := s.crossing d } : PlacedEdge)
        else none))
    { s with angle.placed := (gates ++ guards).foldl (fun l e => insertEdge e l) s.angle.placed,
             angle.guards := s.angle.guards.filter (fun x => x.port ≠ p) ++ s.bandsNow p edges }

/-- A new list has become current: the edges of the old one are gone, and those of an angle-indexed one that lie within the present count are
placed (R62, R149). -/
def State.replacePort (s : State) (p : Nat) : State :=
  let s := { s with angle.placed := s.angle.placed.filter (fun e => e.port ≠ p), angle.guards := s.angle.guards.filter (fun x => x.port ≠ p) }
  if s.angle.state = .running then s.placePort p false else s

/-- Fire one placed edge: a guard band begins, or an entry begins and the bands of its closings end (R62, R152). -/
def State.fireEdge (s : State) (e : PlacedEdge) : State :=
  if e.guard then
    { s with angle.guards := s.angle.guards ++
        [{ port := e.port, cls := e.cls, close := e.close, mark := bandMark s.angle.guards e.port e.cls e.close }] }
  else
    let s := s.setGate e.port { s.gate e.port with entry := e.entry }
    let s := { s with angle.guards := s.angle.guards.filter (fun x => !(x.port = e.port && x.close % 65536 = e.angle)) }
    let s := s.applyGates e.port (s.effState e.port (s.gateGates e.port false e.entry))
    if e.entry = 0 then s.countCycle e.port else s

/-- Fire the placed edges of a port that are due, in the order of their cycles. -/
def State.fireDue (s : State) (p : Nat → Bool) : State :=
  let due := s.angle.placed.filter (fun e => p e.port && e.fire ≤ s.now)
  let s := { s with angle.placed := s.angle.placed.filter (fun e => !(p e.port && e.fire ≤ s.now)) }
  due.foldl State.fireEdge s

/-- Enter a state of the angle source (R65). -/
def State.setAngleState (s : State) (st : AngleState) : State :=
  if s.angle.state = st then s
  else
    let keep : Bool := st == .running
    let s := { s with angle.state := st, angle.placed := if keep then s.angle.placed else [],
                      angle.guards := if keep then s.angle.guards else [] }
    let s := s.irq 8
    foldN 24 (fun s p => match (s.gate p).cur with
      | some h => if !h.angle then s else if keep then s.seatGates p s.angle.angle.toNat else s.refreshGates p
      | none => s) s

/-- One count in direction `fwd`, and the index if ENC_Z is high (R59, R60, R64). The quadrature errors of a turn are counted from one
wrap of ANGLE to the next; an index correction moves TURN with the angle, by the shorter way, and neither fires nor refreshes the gate
edges that it passes over (DESIGN CHOICE: R59 and R60 do not say; log entry 54). The filter time of an edge is taken off local time at the
nominal increment (DESIGN CHOICE: R61 gives it in cycles; log entry 54). -/
def State.countOne (s : State) (fwd z : Bool) : State :=
  let u := s.angleUnit
  let a := s.angle
  let d : Int := if fwd then u else -(u : Int)
  let tk := s.time.ltime - s.param 0x0517 * nominalIncr
  let full : Int := (a.turn.toNat * 65536 + a.angle.toNat : Nat) + d
  let full := (full % (2 ^ 48 : Nat)).toNat
  let turned := full / 65536 ≠ a.turn.toNat
  let before := if a.rev = !fwd then a.hist else []
  let a := { a with turn := BitVec.ofNat 32 (full / 65536), angle := BitVec.ofNat 16 full, rev := !fwd, lastEdge := s.now,
                    quadTurn := if turned then 0 else a.quadTurn }
  let take := z && !a.zTaken
  let a := if take then
      let off := s.param 0x0512
      let diff := sext 16 (off + 65536 - full % 65536)
      let full' := (((full : Int) + diff) % (2 ^ 48 : Nat)).toNat
      let mism := diff.natAbs > s.param 0x0513 * u
      { a with angle := BitVec.ofNat 16 full', turn := BitVec.ofNat 32 (full' / 65536),
               mismatch := if mism then satInc a.mismatch else a.mismatch, indexed := true,
               quadTurn := if a.state = .unindexed || a.state = .lost then 0 else a.quadTurn }
    else a
  let a := { a with zTaken := z, hist := ((a.angle.toNat, tk) :: before).take 65 }
  let s := { s with angle := a }
  -- a turn boundary crossed in Running makes a pending angle-indexed list due (R148); in reverse it is crossed as the edge at
  -- 0x0000 fires (R64)
  let s := if (if fwd then turned else full % 65536 = 0) && s.angle.state = .running then
      foldN 24 (fun s p => let g := s.gate p
        match g.pend with
        | some h => if h.angle && s.time.ltime ≥ g.switchAt then s.setGate p { g with due := true } else s
        | none => s) s
    else s
  let follow := if s.fastEnough then AngleState.running else .stalled
  let s := match s.angle.state with
    | .unindexed => if take then s.setAngleState follow else s
    | .lost => if take then s.setAngleState follow else s
    | .running => s.setAngleState follow
    | .stalled => s.setAngleState follow
    | .off => s
  if take && s.snap.auto = 3 then s.capture 3 else s

/-- The edges still placed when a count edge arrives are late: they fire in the next cycle (R63). -/
def State.lateEdges (s : State) : State :=
  let s := s.fireDue (fun _ => true)
  let late := s.angle.placed
  let s := late.foldl (fun s e => s.gateErr e.port 0x0214) s
  { s with angle.placed := late.map (fun e => { e with fire := s.now + 1 }) }

/-! Meanings. -/

/-- PPS_EDGE (R49 to R51, R53, R54). The nearest second and the 10 ms of a pending value are judged at the captured instant less
PID 0x050A (DESIGN CHOICE: R50 does not say; log entry 46). A consumed value leaves PID 0x0509 at 0 (DESIGN CHOICE: R50 does not say what it
then reads; log entry 46). Edges are captured also while PPS is not selected or firmware restarts, so that the period of the next
edge is known (DEDUCED, log entry 46). -/
def ppsEdge (freqCount : Nat) (freqAbsent : Bool) (s : State) : State :=
  if !s.live then s
  else
    let t : Int := (s.time.ltime : Int) - s.paramInt 0x050A * (nsUnit : Int)
    let t := t.toNat
    let near := match s.time.ppsLast with
      | some l => (t : Int) - l < (900000000 * nsUnit : Nat)
      | none => false
    let valid := freqCount ≤ 25005000 && freqCount ≥ 24995000 && !freqAbsent && !near
    -- FREQ_IN has counted 40 ns for each of its edges since the previous PPS edge (R49)
    let rate := match s.time.ppsCycle with
      | some c => if s.now > c then some (freqCount * 40 * nsUnit / (s.now - c)) else none
      | none => none
    let rate := some (rate.getD s.time.refIncr)
    let s := { s with time.ppsLast := some t, time.ppsCycle := some s.now }
    if !valid || s.param 0x0501 != 2 then s
    else if !s.fw then if s.snap.auto = 2 then s.capture 2 else s
    else
      let whole := if t % secUnit ≥ 500000000 * nsUnit then t / secUnit + 1 else t / secUnit
      let pending := match s.time.ppsSec with
        | some (v, w) => if w + 10000000 * nsUnit ≤ t then some v else none
        | none => none
      let s := if pending.isSome then { s with time.ppsSec := none }.setParam 0x0509 0 else s
      let ref := (pending.getD whole) * secUnit
      let s := s.timeSample ((t : Int) - ref) 800000000 false rate
      if s.snap.auto = 2 then s.capture 2 else s
def execPpsEdge (freqCount : Nat) (freqAbsent : Bool) (s : State) : Out := done s (ppsEdge freqCount freqAbsent s)

/-- The records of gPTP of a port. -/
def State.ptp (s : State) (p : Nat) : GptpPort := SMap.get GptpPort.reset s.gptp p
def State.setPtp (s : State) (p : Nat) (g : GptpPort) : State := { s with gptp := SMap.set GptpPort.reset s.gptp p g }

/-- The priority vector of the last Announce of a port whose link is up, while it has not expired. -/
def State.announced (s : State) (p : Nat) : Option Nat :=
  if p < 20 && s.linkUp p then
    (match (s.ptp p).announce with
     | some (v, t) => if s.now < t then some v else none
     | none => none)
  else none

/-- The port with the best priority vector, the lower one first (R47, log entry 50). -/
def State.bestPort (s : State) : Option (Nat × Nat) :=
  (List.range 20).foldl (fun b p => match s.announced p, b with
    | some v, none => some (p, v)
    | some v, some (q, w) => if v < w then some (p, v) else some (q, w)
    | none, b => b) none

/-- A priority vector without its sender: root and steps removed. -/
def rootPart (v : Nat) : Nat := v / 2 ^ 80

/-- The port is a slave port (`role` 1) or a master port (`role` 2) of gPTP: by external configuration, or by best master selection of
IEEE 802.1AS on the announcements received (R47; PRESUMED, log entry 50). -/
def State.gptpRole (s : State) (p role : Nat) : Bool :=
  p < 20 && s.linkUp p &&
  (if s.param 0x0503 == 1 then s.param (0x0520 + p) == role
   else match s.bestPort with
     | none => role == 2
     | some (q, v) =>
       if p == q then role == 1
       else role == 2 && (match s.announced p with
         | some w => rootPart v + 1 < rootPart w
         | none => true))

/-- The port takes part in gPTP. -/
def State.gptpOn (s : State) (p : Nat) : Bool := p < 20 && s.linkUp p && (s.param 0x0503 == 0 || s.param (0x0520 + p) != 0)

/-- A gPTP frame from port `p` reaches firmware: an Announce of the domain is taken into best master selection (R47, log entry 50). It
counts for three of its intervals. -/
def State.takeAnnounce (s : State) (p : Nat) (b : List Byte) : State :=
  let o := if byteAt b 12 = 0x81 && byteAt b 13 = 0 then 18 else 14
  if !s.fw || s.param 0x0501 != 1 || p ≥ 20 || byteAt b o % 16 ≠ 0xB || byteAt b (o + 4) ≠ s.param 0x0502 || b.length < o + 64 then s
  else
    -- priority1, quality, priority2, identity; steps removed; sender
    let v := beNat (slice b (o + 47) 1 ++ slice b (o + 48) 4 ++ slice b (o + 52) 9 ++ slice b (o + 61) 2 ++ slice b (o + 20) 10)
    let ivl := (sext 8 (byteAt b (o + 33))).toNat
    s.setPtp p { s.ptp p with announce := some (v, s.now + 3 * 800000000 * 2 ^ (min ivl 8)) }

/-- Every second a master port announces the grandmaster, with priority1 255 (R47; the interval is PRESUMED, log entry 50). -/
def State.sendAnnounces (s : State) : State :=
  match s.time.gm with
  | some gm =>
    if s.param 0x0501 != 1 then s
    else foldN 20 (fun s p => if s.gptpRole p 2 then
      s.setPtp p { s.ptp p with sentAnn := some (255, gm, BitVec.ofNat 8 (s.param 0x0502)) } else s) s
  | none => s

/-- The timestamp of a gPTP frame that crosses an external port now (R40): `base` 0x0540 on ingress, 0x0560 on egress. -/
def State.portStamp (s : State) (base p : Nat) : Nat := ((s.time.ltime : Int) + s.paramInt (base + p) * (nsUnit : Int)).toNat

/-- The time that a Sync at port `p` gives: what its follow-up carries, and the delay of the link (R47). -/
def State.syncTime (s : State) (p : Nat) (ref : RT) : Nat := ((RT.toLt ref : Int) + (s.ptp p).linkDelay).toNat

/-- SYNC (R40, R47, R53, R54): a Sync with its follow-up at a slave port, in the domain of the device. -/
def sync (p : Nat) (gm : SyncSource) (ref : RT) (interval : Fin 6) (s : State) : State :=
  if !s.fw || s.param 0x0501 != 1 || !s.gptpRole p 1 || gm.domain.toNat ≠ s.param 0x0502 || ref.ns.toNat > 999999999 then s
  else
    let change := match s.time.gm with
      | some g => g != gm.identity
      | none => false
    let here := s.portStamp 0x0540 p
    let there := s.syncTime p ref
    let s := { s with time.gm := some gm.identity, time.upstream := some (there, here) }
    s.timeSample ((here : Int) - there) (800000000 / 2 ^ (5 - interval.val)) change none
def execSync (p : Port) (gm : SyncSource) (ref : RT) (interval : Fin 6) (s : State) : Out :=
  done s (sync p.val gm ref interval s)

/-- SYNC_RECEIPT_TIMEOUT (R53). -/
def syncReceiptTimeout (s : State) : State :=
  if s.live && (s.time.state = .locked || s.time.state = .acquiring) &&
     s.now ≥ s.time.lastSample + s.param 0x0504 * s.time.interval then
    { s.setTimeState .holdover with time.holdSince := s.now }
  else s
def execSyncReceiptTimeout (s : State) : Out := done s (syncReceiptTimeout s)

/-- HOLDOVER_TIME (R53). -/
def holdoverTime (s : State) : State :=
  if s.live && s.time.state = .holdover && s.now ≥ s.time.holdSince + msCycles (s.param 0x0507) then s.setTimeState .lost
  else s
def execHoldoverTime (s : State) : Out := done s (holdoverTime s)

/-- COUNT_EDGE (R59 to R65): the filtered levels of ENC_A, ENC_B and ENC_Z after an accepted change. The levels are followed in every
state; an index pulse ends when ENC_Z falls. -/
def countEdge (a b z : Bool) (s : State) : State :=
  let ca := a != s.angle.encA
  let cb := b != s.angle.encB
  let taken := s.angle.zTaken && z
  let s := { s with angle.encA := a, angle.encB := b, angle.zTaken := taken }
  if !s.live || s.angle.state = .off then { s with angle.zTaken := false }
  else if ca && cb then
    let n := s.angle.quadTurn + 1
    let s := { s with angle.quadErrs := satInc s.angle.quadErrs, angle.quadTurn := n }
    if n ≥ 16 && s.angle.state ≠ .lost then
      { s with angle.indexed := false, angle.hist := [] }.setAngleState .lost
    else s
  else if !ca && !cb then s
  else
    let adv := if ca then a != b else a == b
    let fwd := adv != (s.param 0x0518 == 1)
    let s := s.lateEdges
    let s := s.countOne fwd z
    if s.angle.state = .running then
      -- an edge at the angle of the count fires in this cycle (R63)
      (foldN 24 (fun s p => s.placePort p true) s).fireDue (fun _ => true)
    else s
def execCountEdge (a b z : Bool) (s : State) : Out := done s (countEdge a b z s)

/-- ANGLE_GATE_EDGE (R62, R63). -/
def angleGateEdge (p : Nat) (s : State) : State := if s.live then s.fireDue (fun q => q == p) else s
def execAngleGateEdge (p : Port) (s : State) : Out := done s (angleGateEdge p.val s)

/-- STALL_TIME (R65). -/
def stallTime (s : State) : State :=
  if s.live && s.angle.state ≠ .off && s.now ≥ s.angle.lastEdge + usCycles (s.param 0x0516) then
    let s := { s with angle.hist := [] }
    if s.angle.state = .running then s.setAngleState .stalled else s
  else s
def execStallTime (s : State) : Out := done s (stallTime s)

/-- SYNC_TRANSMISSION (R40, R47, R48): a master port sends a two-step Sync while the grandmaster is reachable; its follow-up gives the
reference time of its egress timestamp, the time that the frame has spent in the device at the rate of the reference. -/
def syncTransmission (p : Nat) (s : State) : State :=
  if s.fw && s.param 0x0501 == 1 && s.gptpRole p 2 && s.time.gm.isSome &&
     (s.time.state = .acquiring || s.time.state = .locked) then
    match s.time.upstream with
    | some (t, seen) =>
      let g := s.ptp p
      let stamp := s.portStamp 0x0560 p
      let res := (stamp - seen) * s.time.refIncr / (max 1 s.time.incr)
      let f : FollowUp := { domain := BitVec.ofNat 8 (s.param 0x0502), seq := g.syncSeq, stamp := stamp, time := t + res, residence := res }
      s.setPtp p { g with syncSeq := g.syncSeq + 1, sentSync := some f }
    | none => s
  else s
def execSyncTransmission (p : Port) (s : State) : Out := done s (syncTransmission p.val s)

/-- PDELAY_REQ (R40, R47): neighbour rate ratio and link delay from the four timestamps of one exchange, the local ones with the
compensations of the port. `turnaround` is the time from the request to the response in local time. -/
def pdelayReq (p : Nat) (t2 t3 : RT) (turnaround : Nat) (s : State) : State :=
  if s.fw && s.param 0x0501 == 1 && s.gptpOn p then
    let g := s.ptp p
    let r3 := RT.toLt t3
    let l1 := s.portStamp 0x0560 p
    let l4 := s.portStamp 0x0540 p + turnaround
    let (num, den) := match g.lastResp with
      | some (r, l) => if r3 > r && l4 > l then (r3 - r, l4 - l) else (g.rateNum, g.rateDen)
      | none => (g.rateNum, g.rateDen)
    let round : Int := (((l4 - l1) * num / (max den 1) : Nat) : Int)
    let delay := (round - ((r3 : Int) - RT.toLt t2)) / 2
    s.setPtp p { g with pdelaySeq := g.pdelaySeq + 1, lastResp := some (r3, l4), rateNum := num, rateDen := den, linkDelay := delay }
  else s
def execPdelayReq (p : Port) (t2 t3 : RT) (turnaround : Nat) (s : State) : Out :=
  done s (pdelayReq p.val t2 t3 turnaround s)

/-- CAPTURE (R314): a write of DW_SNAP_CTRL.CAPTURE. -/
def capture (s : State) : State := if s.live then s.capture 0 else s
def execCapture (s : State) : Out := done s (capture s)

/-- SNAP_SECOND_CAPTURE (R314): SEC of local time has changed while AUTO is 1. -/
def snapSecondCapture (s : State) : State :=
  let sec := s.time.ltime / secUnit
  if s.live && s.snap.auto = 1 && sec ≠ s.snap.secSeen then { s with snap.secSeen := sec }.capture 1 else s
def execSnapSecondCapture (s : State) : Out := done s (snapSecondCapture s)

end Sys2Proof.Machine
end

