-- ==== Sys2Proof/Machine/Mirror.lean ====
section
/-! DEFINITION. What every command uses of the pair: roles, mirror records and entry updates (R347 to R352). -/

namespace Sys2Proof.Machine

/-- The device works as the secondary of a pair (R350). -/
def State.secondary (s : State) : Bool := s.pair.role == 2

/-- The device is the primary of a pair whose partner is heard: it sends entry updates (R351, R357). -/
def State.mirroring (s : State) : Bool := s.pair.role == 1 && s.pair.lock && !s.pair.silent && s.pair.present

/-- A register of the MIR engine (R360). -/
def mirReg (off : Nat) : Nat := 0x0F008000 + off

/-- A mirror record: header, body, CRC-32C over both (R348). -/
def mirRecord (type table index version : Nat) (valid : Bool) (body : List Byte) : List Byte :=
  let h := natLe 8 (type + table * 2 ^ 8 + index % 65536 * 2 ^ 16 + version % 65536 * 2 ^ 32 + body.length * 2 ^ 48 +
    (if valid then 2 ^ 60 else 0))
  let r := h ++ body
  r ++ natLe 4 (crc32c r)

/-- Send one record. -/
def State.sendRecord (s : State) (r : List Byte) : State :=
  { s with pair.lastSent := r }.add64 (mirReg 0x08) 1

/-- Bytes in the send queue, MIR_QUEUE. -/
def State.mirQueue (s : State) : Nat := (s.pair.queue.map List.length).sum

/-- A mirrored table's record. -/
def State.mirTable (s : State) (t : Nat) : MirTable := SMap.get MirTable.reset s.pair.tables t
def State.setMirTable (s : State) (t : Nat) (m : MirTable) : State :=
  { s with pair.tables := SMap.set MirTable.reset s.pair.tables t m }

/-- A resync runs: the primary sends it, or the secondary is between its begin and its end (R354, R359, R360). -/
def State.resyncing (s : State) : Bool := s.pair.resync.isSome || s.pair.tables.any (fun e => e.2.recv.isSome)

/-- DW_PAIR (R311). -/
def State.dwPair (s : State) : BitVec 3 :=
  BitVec.ofBool s.pair.silent ++ BitVec.ofBool (s.pair.lastCmp == 0x1F) ++ BitVec.ofBool s.pair.present

/-- Send an entry update, or queue it while a resync runs; a full queue marks the table for resync (R351, R352, R354). -/
def State.entryUpdate (s : State) (table index version : Nat) (valid : Bool) (body : List Byte) : State :=
  if !s.mirroring then s
  else
    let r := mirRecord 2 table index version valid body
    if s.pair.resync.isNone then s.sendRecord r
    else if s.mirQueue + r.length > 262144 then
      (s.setMirTable table { s.mirTable table with needSync := true }).bump (mirReg 0x1C)
    else { s with pair.queue := s.pair.queue ++ [r] }

/-- Key of a version that the MIR engine keeps. -/
def verKey (table index : Nat) : Nat := table * 2 ^ 17 + index

/-- The version that the MIR engine keeps of an entry. -/
def State.mirVersion (s : State) (table index : Nat) : BitVec 16 := SMap.get 0 s.pair.versions (verKey table index)

/-- An entry whose version the MIR engine keeps has changed: its version advances and the primary sends it (R351). -/
def State.keptUpdate (s : State) (table index : Nat) (valid : Bool) (body : List Byte) : State :=
  if s.pair.role != 1 then s
  else
    let v := s.mirVersion table index + 1
    { s with pair.versions := SMap.set 0 s.pair.versions (verKey table index) v }.entryUpdate table index v.toNat valid body

/-- Address of a MAC-table entry (R83). -/
def macAddr (i : Nat) : Nat := 0x04100000 + i * 16

/-- A MAC-table entry has changed. -/
def State.mirrorMac (s : State) (i : Nat) : State :=
  s.keptUpdate 1 i (bit (s.rd (macAddr i) 16) 88) (s.rdB (macAddr i) 16)

/-- Address of a connection-state entry (R184). -/
def connAddr (e : Nat) : Nat := 0x04C00000 + e * 64

/-- A connection-state entry has changed; `old` holds what it was. LAST_MS alone is sent at most once in 100 ms (R351). -/
def State.mirrorConn (s : State) (e : Nat) (old : List Byte) : State :=
  let new := s.rdB (connAddr e) 64
  if s.pair.role != 1 || new = old then s
  else
    let only := splice new 12 (slice old 12 4) = old
    let last := SMap.get 0 s.pair.connSent e
    if only && last ≠ 0 && s.now < last + msCycles 100 then s
    else
      let s := { s with pair.connSent := SMap.set 0 s.pair.connSent e s.now }
      let valid := byteAt new 0 % 2 = 1
      s.entryUpdate 2 e (leNat (slice (if valid then new else old) 8 2)) valid (if valid then new else [])

/-- Schedule position of a port with a gate list: current and pending generation, cycle number, entry index (R351). -/
def State.schedBody (s : State) (p : Nat) : List Byte :=
  let g := s.gate p
  let gen := fun (h : Option GateHdr) => match h with | some x => x.gen.toNat | none => 0
  let cyc := match g.cur with
    | some h => if h.angle then s.angle.turn.toNat else ((cyclePos h s.time.ltime).2 % (2 ^ 64 : Nat)).toNat
    | none => 0
  natLe 2 (gen g.cur) ++ natLe 2 (gen g.pend) ++ natLe 8 cyc ++ natLe 4 g.entry

/-- The schedule position of a port has changed, or a compare sends it; the primary keeps what it has sent, for the next compare (R353). -/
def State.mirrorSched (s : State) (p : Nat) : State :=
  let b := s.schedBody p
  let on := (s.gate p).cur.isSome
  let s := if s.pair.role = 1 then { s with pair.mirSched := SMap.set [] s.pair.mirSched p (if on then b else []) } else s
  s.keptUpdate 4 p on b

end Sys2Proof.Machine
end

