-- ==== Sys2Proof/Machine/KeepAlive.lean ====
section
/-! DEFINITION. What every command uses of network management: local need, entry to Awake, wake requests, counted
keep-alives (R316 to R322, R328). -/

namespace Sys2Proof.Machine

/-- The Ebb timeout in cycles. -/
def State.ebbCycles (s : State) : Nat := msCycles (s.param 0x0C01)

/-- A wake line ignores its input while the device drives it and for one filter time after (R327). -/
def State.lineDeaf (s : State) (w : Nat) : Bool :=
  s.nm.pulses.getLsbD w ||
  (s.live && (match s.nm.pulseEnd.find? (fun e => e.1 = w) with
    | some (_, t) => decide (s.now < t + nsCycles (s.param 0x0C04))
    | none => false))

/-- A wake line whose input bit is set, and that does not ignore its input, reads high (R319, R327). -/
def State.wakeLevel (s : State) : Bool :=
  (List.range 4).any (fun w => s.paramBit (0x0C20 + w) 0 && s.nm.lines.getLsbD w && !s.lineDeaf w)

/-- The awake clocks of nodes and host, held at zero by the wake-line level, run from here once it is gone; `before`: the state before a
change (R328). -/
def State.levelGone (s before : State) : State :=
  if before.wakeLevel && !s.wakeLevel then
    { s with nm := { s.nm with nodes := s.nm.nodes.map (fun e => (e.1, { e.2 with awakeAt := e.2.awakeAt.map (fun _ => s.now) })),
                               hostAwake := s.nm.hostAwake.map (fun _ => s.now) } }
  else s

/-- The sources of local need that are present, bit b for source b (R319). -/
def State.needMask (s : State) : Nat :=
  (if s.nm.host && !s.nm.hostIgnored then 1 else 0) + (if s.wakeLevel then 2 else 0) +
  (if s.upd.svc.isSome then 4 else 0) +
  (if s.upd.areaA.staging || s.upd.areaB.staging then 8 else 0) + (if s.nm.wakeHold then 16 else 0)

/-- The device has local need (R319). -/
def State.localNeed (s : State) : Bool := s.needMask != 0

/-- Code of DW_STATUS.NM_STATE (R311). -/
def NmState.code : NmState → Nat
  | .awake => 0 | .ebb => 1 | .commit => 2

/-- What the network management keeps of a node. -/
def State.node (s : State) (i : Nat) : NmNode := SMap.get NmNode.reset s.nm.nodes i
def State.setNode (s : State) (i : Nat) (x : NmNode) : State := { s with nm.nodes := SMap.set NmNode.reset s.nm.nodes i x }

/-- The map of ignored nodes, bit i for node i (R328). The host is shown as the node of the device itself. -/
def State.ignoredMap (s : State) : Nat :=
  (s.nm.nodes.foldl (fun m e => if e.2.ignored then m ||| 2 ^ e.1 else m) 0) |||
  (if s.nm.hostIgnored then 2 ^ s.param 0x0C05 else 0)

/-- The network-management entry of the mirror: state, local need, ignored-node map (R351). -/
def State.mirrorNmBody (s : State) : List Byte := natLe 2 (s.nm.state.code + 256 * s.needMask) ++ natLe 32 s.ignoredMap

/-- The network-management state has changed (R351). -/
def State.mirrorNm (s : State) : State := s.keptUpdate 3 0 true s.mirrorNmBody

/-- Enter a network-management state: DW_FW_EVENT marks the change (R320). -/
def State.setNm (s : State) (x : NmState) : State :=
  if s.nm.state = x then s else ({ s with nm.state := x }.fwEvent 0).mirrorNm

/-- Drive the wake pulses of an entry to Awake on every output line but those of `except` (R327). -/
def State.wakePulses (s : State) (except : Nat) : State :=
  (foldN 4 (fun s w =>
    if s.paramBit (0x0C20 + w) 1 && !bit except w then
      { s with nm.pulses := setBit s.nm.pulses w true, nm.pulseAt := SMap.set 0 s.nm.pulseAt w s.now }
    else s) s).levelGone s

/-- Enter Awake: wake hold begins, the next keep-alive is sent at once and carries AWOKEN (R319, R320, R327). -/
def State.enterAwake (s : State) (except : Nat) : State :=
  let s := { s with nm.wakeHold := true, nm.awakeAt := s.now, nm.firstKa := true, nm.lastKaTx := none }
  ({ s with nm.state := .awake }.fwEvent 0).mirrorNm.wakePulses except

/-- Role of a LIN channel (R228); a change waits for the bus to be idle (R240). -/
def State.linRole (s : State) (m : Nat) : Nat :=
  match (s.lin m).old with | some (r, _) => r | none => s.param (0x0900 + m)

/-- Bit rate of a LIN channel (R228, R240). -/
def State.linRate (s : State) (m : Nat) : Nat :=
  match (s.lin m).old with | some (_, r) => r | none => s.param (0x0910 + m)

/-- A LIN commander that has sent go-to-sleep sends a wake-up signal; its table restarts 100 ms later. A responder answers
headers again (R323). -/
def State.linWakeUp (s : State) : State :=
  foldN 16 (fun s m =>
    let l := s.lin m
    if !l.asleep then (if l.sleepDue then s.setLin m { l with sleepDue := false } else s)
    else if s.linRole m = 1 then s.setLin m { l with asleep := false, header := none, sending := none, wakeAt := some s.now,
                                                     idleFrom := s.now + msCycles 1 }
    else s.setLin m { l with asleep := false }) s

/-- Set bits of AON_WAKE_LATCH (R332). -/
def State.latchWake (s : State) (m : BitVec 9) : State := { s with nm.latch := s.nm.latch ||| m }

/-- Set bits of AON_WAKE_LATCH that firmware, which does not run, has to handle as it resumes (R321). -/
def State.latchMissed (s : State) (m : BitVec 9) : State := { s.latchWake m with nm.missed := true }

/-- Return from Ebb to Awake on a wake request (R320). -/
def State.abortEbb (s : State) (except : Nat) : State :=
  { s with nm.aborts := satInc s.nm.aborts }.linWakeUp.enterAwake except

/-- A wake request (R320): Ebb is left, Commit holds it as a wake event (R322). The secondary of a pair sends it to the
primary (R361). It sets SW (R321); while firmware restarts, that holds it. -/
def State.wakeRequest (s : State) (except : Nat) : State :=
  match s.nm.state with
  | .awake => s
  | .ebb =>
    if !s.fw then s.latchMissed 0x80
    else if s.secondary then (s.latchWake 0x80).sendRecord (mirRecord 8 0 0 0 false []) else (s.latchWake 0x80).abortEbb except
  | .commit => s.latchWake 0x80

/-- A keep-alive of a node that needs the network arrives (R316, R320, R328). `src`: 0 UDP, 1 + n for CANn. -/
def State.countKa (s : State) (node : Nat) (awoken : Bool) (src : Nat) : State :=
  let x := s.node node
  let silent := match x.lastKa with
    | some t => decide (s.now ≥ t + s.ebbCycles)
    | none => true
  let ignored := x.ignored && !silent
  let awakeAt := if silent then some s.now else x.awakeAt
  let s := s.setNode node { lastKa := some s.now, awakeAt := awakeAt, ignored := ignored }
  if ignored then s
  else
    let s := { s with nm.kaRx := satInc s.nm.kaRx, nm.lastNode := BitVec.ofNat 8 node, nm.lastSrc := BitVec.ofNat 8 src,
                      nm.countAt := s.now }
    match s.nm.state with
    | .awake => s
    | .ebb => if awoken then (s.latchWake 0x100).wakeRequest 0 else s.latchWake 0x100
    | .commit => s.latchWake 0x80

end Sys2Proof.Machine
end

