-- ==== Sys2Proof/Machine/Operands.lean ====
section
/-! DEFINITION. The forms of the units that commands carry: parsed frames (R69 to R71, R468) and screen keys (R178 to R180). -/

namespace Sys2Proof.Machine

/-- What the parser takes from a frame (R69). Addresses are in wire order; a field that no header supplies is zero. -/
structure Parsed where
  da      : List Byte
  sa      : List Byte
  ctag    : Option (Nat × Bool × Nat)   -- PCP, DEI, VID of a C-VLAN tag
  rtag    : Option (BitVec 16)          -- sequence number of an R-TAG
  etype   : Nat                         -- first EtherType after the C-VLAN tag and R-TAG
  etOff   : Nat                         -- offset of that EtherType
  ip      : Nat                         -- 0, 4 or 6
  ipOff   : Nat
  src     : List Byte
  dst     : List Byte
  dscp    : Nat
  ecn     : Nat
  proto   : Nat
  frag    : Bool
  l4      : Bool
  flags   : Nat                         -- TCP flags
  sport   : Nat
  dport   : Nat
  payload : List Byte                   -- first 8 bytes of the L4 payload
  plen0   : Bool
  ipTotal : Nat                         -- bytes before the IP header plus the length that it states
  subtype : Nat
  stream  : List Byte                   -- IEEE 1722 stream ID
  acfType : Nat
  acfBus  : Nat
  trunc   : Bool
  hdr     : Nat                         -- number of the last parsed header byte, from 1 (R468)
  deriving DecidableEq, Repr

/-- How a header of `k` bytes at offset `o` lies in a frame of `n` bytes without FCS (R69). -/
inductive Fit where
  | whole | cut | trunc
  deriving DecidableEq, Repr

/-- Bytes `o` to `o + k - 1` against the end of the frame and byte 128. A header of a longer frame that would begin directly after byte
128 sets TRUNC (DESIGN CHOICE: R69 speaks of one that crosses byte 128; log entry 51). -/
def fits (n o k : Nat) : Fit := if o + k ≤ min n 128 then .whole else if n ≤ 128 then .cut else .trunc

/-- A big-endian 16-bit field. -/
def be16 (b : List Byte) (o : Nat) : Nat := byteAt b o * 256 + byteAt b (o + 1)

/-- The parse stops before a header that does not fit. `total` is the frame's length with FCS. -/
def Parsed.stop (p : Parsed) (f : Fit) (total : Nat) : Parsed :=
  match f with
  | .whole => p
  | .cut => { p with hdr := total }
  | .trunc => { p with trunc := true, hdr := 128 }

/-- TCP or UDP after an IP header; `len` is the length of the L4 part by the IP length fields. -/
def parseL4 (b : List Byte) (total o len : Nat) (p : Parsed) : Parsed :=
  let n := b.length
  let pay := fun (h : Nat) =>
    (List.range 8).map (fun i => if o + h + i < min n 128 && h + i < len then b.getD (o + h + i) 0 else 0)
  if p.proto = 6 then
    match fits n o 20 with
    | .whole =>
      let d := byteAt b (o + 12) / 16
      if d < 5 then p
      else
        match fits n o (d * 4) with
        | .whole => { p with l4 := true, sport := be16 b o, dport := be16 b (o + 2), flags := byteAt b (o + 13),
                             payload := pay (d * 4), plen0 := decide (len ≤ d * 4), hdr := o + d * 4 }
        | f => p.stop f total
    | f => p.stop f total
  else if p.proto = 17 then
    match fits n o 8 with
    | .whole => { p with l4 := true, sport := be16 b o, dport := be16 b (o + 2), payload := pay 8,
                         plen0 := decide (len ≤ 8), hdr := o + 8 }
    | f => p.stop f total
  else p

/-- IPv6 extension headers, two at most, and what follows. -/
def parseV6 (b : List Byte) (total : Nat) : Nat → Nat → Nat → Parsed → Parsed
  | k, o, len, p =>
    let n := b.length
    if p.proto = 0 || p.proto = 43 || p.proto = 60 || p.proto = 44 then
      match k with
      | 0 => p
      | k + 1 =>
        match fits n o 8 with
        | .whole =>
          let h := if p.proto = 44 then 8 else (byteAt b (o + 1) + 1) * 8
          match fits n o h with
          | .whole =>
            let frag := p.proto = 44 && be16 b (o + 2) / 8 ≠ 0
            let p := { p with proto := byteAt b o, hdr := o + h, frag := p.frag || frag }
            if frag then p else parseV6 b total k (o + h) (len - h) p
          | f => p.stop f total
        | f => p.stop f total
    else parseL4 b total o len p

/-- The header that follows the EtherType of a frame. -/
def parseAfter (b : List Byte) (total : Nat) (p : Parsed) : Parsed :=
  let n := b.length
  let o := p.etOff + 2
  if p.etype = 0x0800 then
    if o < min n 128 && byteAt b o / 16 ≠ 4 then p
    else
      match fits n o 20 with
      | .whole =>
        let ihl := byteAt b o % 16
        if ihl < 5 then p
        else
          match fits n o (ihl * 4) with
          | .whole =>
            let fo := be16 b (o + 6) % 8192
            let tl := be16 b (o + 2)
            let p := { p with ip := 4, ipOff := o, dscp := byteAt b (o + 1) / 4, ecn := byteAt b (o + 1) % 4,
                              proto := byteAt b (o + 9), src := slice b (o + 12) 4, dst := slice b (o + 16) 4,
                              frag := decide (fo ≠ 0), ipTotal := o + tl, hdr := o + ihl * 4 }
            if fo ≠ 0 then p else parseL4 b total (o + ihl * 4) (tl - ihl * 4) p
          | f => p.stop f total
      | f => p.stop f total
  else if p.etype = 0x86DD then
    if o < min n 128 && byteAt b o / 16 ≠ 6 then p
    else
      match fits n o 40 with
      | .whole =>
        let tc := be16 b o / 16 % 256
        let pl := be16 b (o + 4)
        let p := { p with ip := 6, ipOff := o, dscp := tc / 4, ecn := tc % 4, proto := byteAt b (o + 6),
                          src := slice b (o + 8) 16, dst := slice b (o + 24) 16, ipTotal := o + 40 + pl, hdr := o + 40 }
        parseV6 b total 2 (o + 40) pl p
      | f => p.stop f total
  else if p.etype = 0x22F0 then
    match fits n o 12 with
    | .whole =>
      let st := byteAt b o
      let p := { p with subtype := st, stream := slice b (o + 4) 8, hdr := o + 12 }
      if st = 0x82 || st = 0x02 then
        let a := o + (if st = 0x82 then 12 else 24)
        match fits n a 4 with
        | .whole =>
          let t := byteAt b a / 2
          { p with acfType := t, acfBus := if t = 1 || t = 2 then byteAt b (a + 3) % 32 else 0, hdr := a + 4 }
        | f => p.stop f total
      else p
    | f => p.stop f total
  else p

/-- Parse a frame given without its FCS; `total` is its length from DA to FCS (R69, R468). -/
def parseFrame (b : List Byte) (total : Nat) : Parsed :=
  let n := b.length
  let p : Parsed :=
    { da := slice b 0 6, sa := slice b 6 6, ctag := none, rtag := none, etype := be16 b 12, etOff := 12, ip := 0, ipOff := 0,
      src := [], dst := [], dscp := 0, ecn := 0, proto := 0, frag := false, l4 := false, flags := 0, sport := 0, dport := 0,
      payload := [], plen0 := false, ipTotal := 0, subtype := 0, stream := [], acfType := 0, acfBus := 0, trunc := false,
      hdr := 14 }
  if n < 14 then { p with hdr := total }
  else
    -- C-VLAN tag directly after SA
    let (p, stop) :=
      if p.etype = 0x8100 then
        match fits n 14 4 with
        | .whole =>
          let t := be16 b 14
          ({ p with ctag := some (t / 8192, decide (t / 4096 % 2 = 1), t % 4096), etype := be16 b 16, etOff := 16, hdr := 18 }, false)
        | f => (p.stop f total, true)
      else (p, false)
    if stop then p
    else
      -- R-TAG after SA or after the C-VLAN tag
      let (p, stop) :=
        if p.etype = 0xF1C1 then
          let o := p.etOff + 2
          match fits n o 6 with
          | .whole =>
            ({ p with rtag := some (BitVec.ofNat 16 (be16 b (o + 2))), etype := be16 b (o + 4), etOff := o + 4, hdr := o + 6 }, false)
          | f => (p.stop f total, true)
        else (p, false)
      if stop then p else parseAfter b total p

/-- A field placed at bit `lo` of a key. -/
def kf (lo v : Nat) : Nat := v * 2 ^ lo

/-- 0 or 1. -/
def b2n (b : Bool) : Nat := if b then 1 else 0

/-- The screen key of a frame (R178, R179). -/
def frameKey (lport : Nat) (p : Parsed) (handle : Option Nat) (vid : Nat) : Nat :=
  let kind := if p.ip = 4 then 1 else if p.ip = 6 then 2 else 0
  let tagged := match p.ctag with | some (_, _, v) => decide (1 ≤ v ∧ v ≤ 4094) | none => false
  let (pcp, dei) := match p.ctag with | some (a, d, _) => (a, d) | none => (0, false)
  let common :=
    kf 0 kind + kf 4 lport + kf 9 (b2n handle.isSome) + kf 10 (handle.getD 0) + kf 24 (b2n p.trunc) + kf 25 (b2n p.frag) +
    kf 26 (b2n tagged) + kf 27 (b2n p.l4) + kf 28 (b2n (p.l4 && p.plen0)) + kf 29 (b2n p.rtag.isSome) +
    kf 30 (b2n (bit (byteAt p.da 0) 0)) + kf 64 p.etype + kf 80 vid + kf 92 pcp + kf 95 (b2n dei)
  if kind = 0 then
    common + kf 96 p.subtype + kf 104 p.acfType + kf 112 p.acfBus + kf 160 (leNat p.stream) + kf 224 (leNat p.da) + kf 272 (leNat p.sa)
  else
    let l4 := kf 96 p.dscp + kf 102 p.ecn + kf 104 p.proto + kf 112 (if p.l4 && p.proto = 6 then p.flags else 0) +
      kf 128 p.sport + kf 144 p.dport + kf 160 (leNat p.payload)
    if kind = 1 then common + l4 + kf 224 (leNat p.da) + kf 272 (leNat p.sa) + kf 320 (leNat p.src) + kf 352 (leNat p.dst)
    else common + l4 + kf 224 (leNat p.src) + kf 352 (leNat p.dst)

/-- The screen key of a CAN message (R178, R180). `origin`: false from a bus, true from an IEEE 1722 frame. -/
def canKey (chan : Nat) (origin : Bool) (route : Option Nat) (m : CanMsg) : Nat :=
  kf 0 3 + kf 4 24 +
  kf 64 (if m.ide then m.id.toNat else m.id.toNat % 2048) + kf 93 (b2n m.ide) + kf 94 (b2n (m.fdf || m.xlf)) + kf 95 (b2n m.xlf) +
  kf 96 m.dlc.toNat + kf 100 (b2n m.rtr) + kf 101 (b2n m.brs) + kf 102 (b2n m.esi) + kf 104 chan + kf 109 (b2n origin) +
  kf 112 (route.getD 0) + kf 124 (b2n route.isSome) +
  (if m.xlf then kf 128 m.sdt.toNat + kf 136 m.vcid.toNat + kf 144 (m.data.length - 1) + kf 160 m.af.toNat else 0) +
  kf 192 (leNat (m.data.take 8))

/-- The screen key of a LIN message (R178, R180). -/
def linKey (chan : Nat) (origin : Bool) (route : Option Nat) (id : Nat) (enhanced : Bool) (data : List Byte) : Nat :=
  kf 0 4 + kf 4 24 + kf 64 id + kf 96 (data.length % 16) + kf 100 (b2n enhanced) + kf 104 chan + kf 109 (b2n origin) +
  kf 112 (route.getD 0) + kf 124 (b2n route.isSome) + kf 192 (leNat (data.take 8))

end Sys2Proof.Machine
end

