-- ==== Sys2Proof/Machine/Screen.lean ====
section
/-! DEFINITION. The screen: rules, connection state, meters, copies (R177 to R201). -/

namespace Sys2Proof.Machine

/-! Rules (R181, R182). -/

/-- Base address of a rule bank. -/
def ruleBase (bank : Bool) : Nat := if bank then 0x04640000 else 0x04500000

/-- The rules of a bank whose VALID is 1, in ascending index. -/
def State.validRules (s : State) (bank : Bool) : List Nat :=
  let b := ruleBase bank
  s.mem.filterMap (fun e => if b ≤ e.1 && e.1 < b + 8192 * 160 && (e.1 - b) % 160 = 128 && e.2.getLsbD 0
    then some ((e.1 - b) / 160) else none)

/-- Rule `r` of a bank matches a key (R181). -/
def State.ruleMatches (s : State) (bank : Bool) (key r : Nat) : Bool :=
  let a := ruleBase bank + r * 160
  (key ^^^ s.rd a 64) &&& s.rd (a + 64) 64 == 0

/-- The action word of a rule. -/
def State.ruleAction (s : State) (bank : Bool) (r : Nat) : Nat := s.rd (ruleBase bank + r * 160 + 128) 32

/-- The active bank for a lookup whose cycle 1 is this cycle: from the cycle after the last write of a full set on, the new one (R193, R197). -/
def State.activeBank (s : State) : Bool :=
  match s.scr.load with
  | some l => if l.start + 4 * l.count ≤ s.now && l.count ≤ l.next then !s.scr.bank else s.scr.bank
  | none => s.scr.bank

/-- The first matching rule of the active bank and its action, or the default action of the lookup port (R181). -/
def State.judgeKey (s : State) (lport key : Nat) : Option Nat × Nat :=
  match (s.validRules s.activeBank).find? (s.ruleMatches s.activeBank key) with
  | some r => (some r, s.ruleAction s.activeBank r)
  | none =>
    let d := s.param (0x0740 + lport)
    (none, (if bit d 0 then 2 else 0) + (if bit d 1 then 16 else 0))

/-! Meters (R190, R191). -/

/-- Address of a meter's configuration. -/
def meterAddr (m : Nat) : Nat := 0x04200000 + m * 32
/-- Address of a meter's counters. -/
def meterCnt (m off : Nat) : Nat := 0x048E0000 + m * 32 + off

/-- Colours of a meter. -/
inductive Colour where
  | green | yellow | red
  deriving DecidableEq, Repr

/-- The state of a meter whose configuration entry has just been loaded: both buckets full (R190). -/
def State.fullMeter (s : State) (m : Nat) : Meter :=
  { Meter.reset with tc := s.rd (meterAddr m + 4) 4 * 256, te := s.rd (meterAddr m + 12) 4 * 256, last := s.now }

/-- Charge a meter for a unit of `len` bytes (R191): the colour, and whether the unit is to be dropped. -/
def State.charge (s : State) (m len : Nat) : (Colour × Bool) × State :=
  let a := meterAddr m
  let opt := s.rd (a + 16) 1
  if !bit opt 0 then ((.green, false), s)
  else
    let unit := bit opt 1
    let scale := if unit then 3125000 else 25000
    let cbs := s.rd (a + 4) 4 * 256
    let ebs := s.rd (a + 12) 4 * 256
    let x := s.meter m
    let dt := s.now - x.last
    let cn := s.rd a 4 * dt + x.tcRem
    let en := s.rd (a + 8) 4 * dt + x.teRem
    let tcNew := x.tc + cn / scale
    let ovr := if bit opt 2 then tcNew - cbs else 0
    let tc := min cbs tcNew
    let te := min ebs (x.te + en / scale + ovr)
    let need := (if unit then 1 else len) * 256
    let x := { x with tcRem := cn % scale, teRem := en % scale, last := s.now, tc := tc, te := te }
    if x.mar then ((.red, true), (s.setMeter m x).bump (meterCnt m 0xC))
    else if need ≤ tc then ((.green, false), (s.setMeter m { x with tc := tc - need }).add64 (meterCnt m 0) 1)
    else if need ≤ te then
      let s := (s.setMeter m { x with te := te - need }).bump (meterCnt m 8)
      if bit opt 3 then ((.yellow, true), s.bump (meterCnt m 0x10)) else ((.yellow, false), s)
    else ((.red, true), (s.setMeter m { x with mar := bit opt 4 }).bump (meterCnt m 0xC))

/-! Connection state (R184 to R189). -/

/-- The millisecond tick of R188. -/
def State.tick (s : State) : Nat := s.nowMs % 2 ^ 32

/-- The entry at index `e` has expired (R188). -/
def State.connExpired (s : State) (e : Nat) : Bool :=
  let a := connAddr e
  let st := bits (s.rd a 1) 7 4
  let lim := if st = 1 then s.param 0x0730 else if st = 5 then s.param 0x0731
    else s.param (0x0720 + bits (s.rd (a + 10) 1) 2 0)
  let d := (s.tick + 2 ^ 32 - s.rd (a + 12) 4) % 2 ^ 32
  d < 2 ^ 31 && d > lim

/-- A unit as connection tracking sees it: the tuple that its key and the rule give (R184). -/
structure ConnUnit where
  kind  : Nat
  v6    : Bool
  src   : List Byte     -- 16 bytes in wire order
  dst   : List Byte
  sport : Nat
  dport : Nat
  app   : Nat           -- PAYLOAD bytes 0 to 3
  chan  : Nat
  resp  : Nat
  canId : Nat
  flags : Nat
  plen0 : Bool
  pay   : Nat           -- PAYLOAD
  deriving DecidableEq, Repr

/-- The unit of a key for a rule of kind `k`, if it fits that kind (R184). -/
def connUnit (key k resp : Nat) : Option ConnUnit :=
  let kind := bits key 2 0
  let v6 := kind = 2
  let proto := bits key 111 104
  let l4 := bit key 27
  let src := if v6 then natLe 16 (bits key 351 224) else natLe 4 (bits key 351 320) ++ List.replicate 12 0
  let dst := if v6 then natLe 16 (bits key 479 352) else natLe 4 (bits key 383 352) ++ List.replicate 12 0
  let u : ConnUnit :=
    { kind := k, v6 := v6, src := src, dst := dst, sport := bits key 143 128, dport := bits key 159 144,
      app := bits key 191 160, chan := bits key 108 104, resp := resp, canId := bits key 92 64, flags := bits key 119 112,
      plen0 := bit key 28, pay := bits key 223 160 }
  if k = 4 then (if kind = 3 then some u else none)
  else if (kind = 1 || kind = 2) && l4 then
    if (k = 0 || k = 2) && proto = 6 then some u
    else if (k = 1 || k = 3) && proto = 17 then some u
    else none
  else none

/-- Byte strings compared from their first byte. -/
def blockLe : List Byte → List Byte → Bool
  | [], _ => true
  | _ :: _, [] => false
  | a :: as, b :: bs => if a = b then blockLe as bs else a.toNat < b.toNat

/-- The two buckets of a unit (R184). -/
def ConnUnit.buckets (u : ConnUnit) : Nat × Nat :=
  let input :=
    if u.kind = 4 then BitVec.ofNat 8 u.chan :: natLe 4 u.resp
    else
      let a := u.src ++ natBe 2 u.sport
      let b := u.dst ++ natBe 2 u.dport
      (if blockLe a b then a ++ b else b ++ a) ++ [if u.v6 then 1 else 0] ++ (if u.kind = 3 then natLe 4 u.app else [])
  let c := crc32c input
  let b0 := bits c 13 0
  let b1 := bits c 27 14
  (b0, if b1 = b0 then b0 ^^^ 1 else b1)

/-- The indices of the eight places of a unit, b0 first. -/
def ConnUnit.places (u : ConnUnit) : List Nat :=
  let (b0, b1) := u.buckets
  (List.range 4).map (b0 * 4 + ·) ++ (List.range 4).map (b1 * 4 + ·)

/-- The address field of an entry for a 16-byte address: IPv4 in its low 32 bits. -/
def addrField (a : List Byte) : Nat := leNat a

/-- The entry at `e` is of the unit's connection, seen from its initiator (`true`) or its responder. -/
def State.connIs (s : State) (u : ConnUnit) (e : Nat) : Option Bool :=
  let a := connAddr e
  let w := s.rd a 8
  if !bit w 0 || bits w 3 1 ≠ u.kind then none
  else
    let ia := s.rd (a + 16) 16
    let ra := s.rd (a + 32) 16
    if u.kind = 4 then (if ia = u.chan && ra = u.resp then some (u.canId != u.resp) else none)
    else if bit w 8 ≠ u.v6 || (u.kind = 3 && s.rd (a + 48) 4 ≠ u.app) then none
    else
      let ip := bits w 31 16
      let rp := bits w 47 32
      if ia = addrField u.src && ra = addrField u.dst && ip = u.sport && rp = u.dport then some true
      else if ia = addrField u.dst && ra = addrField u.src && ip = u.dport && rp = u.sport then some false
      else none

/-- The live entry of a unit and its direction. -/
def State.connFind (s : State) (u : ConnUnit) : Option (Nat × Bool) :=
  u.places.findSome? (fun e => match s.connIs u e with
    | some d => if s.connExpired e then none else some (e, d)
    | none => none)

/-- The unit may create an entry (R184). -/
def ConnUnit.creates (u : ConnUnit) : Bool :=
  if u.kind = 0 || u.kind = 2 then bit u.flags 1 && !bit u.flags 4 else true

/-- DoIP payload type of a segment that begins with a DoIP header (R186). -/
def ConnUnit.doip (u : ConnUnit) : Option Nat :=
  let b0 := u.pay % 256
  let b1 := u.pay / 256 % 256
  if (b0 = 2 || b0 = 3) && b1 = 255 - b0 then some (u.pay / 2 ^ 16 % 256 * 256 + u.pay / 2 ^ 24 % 256) else none

/-- An entry in state `st` admits a segment, and its next state (R186). `finSide` is the side that has sent FIN. -/
def tcpStep (u : ConnUnit) (st : Nat) (init : Bool) (finSide : Option Bool) : Option Nat :=
  let fin := bit u.flags 0
  let syn := bit u.flags 1
  let rst := bit u.flags 2
  let ack := bit u.flags 4
  match st with
  | 1 =>
    if rst then some 5
    else if init && syn && !ack then some 1
    else if !init && syn && ack then some 2
    else none
  | 2 =>
    let ok := u.kind = 0 || !init || u.plen0 || u.doip = some 5 || u.doip = some 7 || u.doip = some 8
    if !ok then none
    else if rst then some 5 else if fin then some 4
    else if u.kind = 2 && !init && u.doip = some 6 then some 3
    else some 2
  | 3 => if rst then some 5 else if fin then some 4 else some 3
  | 4 => if rst then some 5 else if fin && finSide ≠ some init then some 5 else some 4
  | 5 => if u.flags = 16 then some 5 else none
  | _ => none

/-- The entry at `e` admits the unit: its next state and OUTSTANDING (R186, R187). -/
def State.connAdmits (s : State) (u : ConnUnit) (e : Nat) (init : Bool) : Option (Nat × Nat) :=
  let a := connAddr e
  let w := s.rd a 8
  let st := bits w 7 4
  let out := bits w 15 12
  match u.kind with
  | 1 => some (st, out)
  | 3 => if init then some (st, min 15 (out + 1)) else if out > 0 then some (st, out - 1) else none
  | 4 => if u.canId = u.resp then some (st, out) else none
  | _ =>
    let fs := SMap.get 0 s.scr.finSide e
    match tcpStep u st init (if fs = 1 then some true else if fs = 2 then some false else none) with
    | some n => some (n, out)
    | none => none

/-- Connection entries with VALID 1, SCR_CONN_USED (R201). -/
def State.connUsed (s : State) : Nat :=
  (s.mem.filter (fun x => 0x04C00000 ≤ x.1 && x.1 < 0x05000000 && x.1 % 64 = 0 && x.2.getLsbD 0)).length

/-- Note the peak of SCR_CONN_USED as it now stands (R201). -/
def State.noteConn (s : State) : State := { s with scr.connPeak := max s.scr.connPeak s.connUsed }

/-- Remove the entry at `e`. -/
def State.connDrop (s : State) (e : Nat) : State :=
  { s.clearMem (connAddr e) 64 with scr.finSide := SMap.set 0 s.scr.finSide e 0 }

/-- Address of a screen counter of a lookup port (R199). -/
def scrCnt (lport off : Nat) : Nat := 0x04900100 + lport * 0x40 + off

/-- Write a new entry for a unit at `e` (R184, R185). -/
def State.connWrite (s : State) (u : ConnUnit) (lport sel e : Nat) : State :=
  let a := connAddr e
  let st := if u.kind = 0 || u.kind = 2 then 1 else 6
  let out := if u.kind = 3 then 1 else 0
  let w0 := 1 + u.kind * 2 + st * 16 + (if u.v6 then 256 else 0) + out * 4096 + u.sport * 2 ^ 16 + u.dport * 2 ^ 32 + lport * 2 ^ 48
  let w0 := if u.kind = 4 then 1 + u.kind * 2 + st * 16 + lport * 2 ^ 48 else w0
  let (ia, ra) := if u.kind = 4 then (u.chan, u.resp) else (addrField u.src, addrField u.dst)
  let s := s.wr a 8 w0
  let s := s.wr (a + 8) 8 (sel * 2 ^ 16 + s.tick * 2 ^ 32)
  let s := s.wr (a + 16) 16 ia
  let s := s.wr (a + 32) 16 ra
  s.wr (a + 48) 16 (if u.kind = 3 then u.app else 0)

/-- Create an entry, if a place is free (R184). Which of several free places is taken is open (log entry 38). -/
def State.connCreate (s : State) (u : ConnUnit) (lport sel : Nat) : State :=
  let free := u.places.filter (fun e => !bit (s.rd (connAddr e) 1) 0 || s.connExpired e)
  if free.isEmpty then s.bump (scrCnt lport 0x24)
  else
    let (x, s) := s.draw
    let e := free.getD (x % free.length) 0
    let s := if bit (s.rd (connAddr e) 1) 0 then (s.connDrop e).bump 0x0490000C else s
    let s := (s.connWrite u lport sel e).noteConn
    s.bump (scrCnt lport 0x20)

/-- Update or create the entry of an admitted or creating unit (R183 to R187). -/
def State.connChange (s : State) (u : ConnUnit) (track : Bool) (lport sel : Nat) : State :=
  match s.connFind u with
  | some (e, init) =>
    let a := connAddr e
    match s.connAdmits u e init with
    | some (st, out) =>
      let w := s.rd a 8
      let w' := w - bits w 7 4 * 16 - bits w 15 12 * 4096 + st * 16 + out * 4096
      let fin := u.kind = 0 || u.kind = 2
      let s := if fin && st = 4 && bits w 7 4 ≠ 4
        then { s with scr.finSide := SMap.set 0 s.scr.finSide e (if init then 1 else 2) } else s
      let s := if w' = w then s else (s.wr a 8 w').wr (a + 8) 2 (s.rd (a + 8) 2 + 1)
      s.wr (a + 12) 4 s.tick
    | none => if track && u.creates then s.wr (a + 12) 4 s.tick else s
  | none => if track && u.creates then s.connCreate u lport sel else s

/-- As `connChange`; a secondary changes nothing, and the primary of a pair mirrors what changed (R350, R351). -/
def State.connUpdate (s : State) (u : ConnUnit) (track : Bool) (lport sel : Nat) : State :=
  if s.secondary then s
  else
    let old := u.places.map (fun e => (e, s.rdB (connAddr e) 64))
    old.foldl (fun s (e, b) => s.mirrorConn e b) (s.connChange u track lport sel)

/-! Copies and the verdict (R183, R192). -/

/-- What becomes of a copy at the lookup port. -/
inductive CopyPath where
  | frame      -- an extra destination P22
  | noCells    -- a candidate without cells: the copy is lost
  | message    -- the firmware copy queue
  | svc        -- delivered to firmware when the verdict is drop
  deriving DecidableEq, Repr

/-- Make the copy of a unit, subject to the copy meter (R192). `unit` is the unit itself, as firmware receives it. -/
def State.copyUnit (s : State) (path : CopyPath) (lport len rule reason : Nat) (pass : Bool) (unit : List Byte) : Bool × State :=
  match path with
  | .noCells => (false, s.bump (scrCnt lport 0x1C))
  | _ =>
    if path = .svc && pass then (false, s)
    else
      let (refused, s) :=
        if s.param 0x0703 = 1 then
          let (r, s) := s.charge (s.param 0x0702 % 4096) len
          (r.2, s)
        else (false, s)
      let msg : CopyMsg :=
        { lport := BitVec.ofNat 5 lport, rule := BitVec.ofNat 14 rule, reason := BitVec.ofNat 8 reason, pass := pass, unit := unit }
      if refused then (false, s.bump (scrCnt lport 0x1C))
      else match path with
        | .message =>
          if s.scr.copyQ.length ≥ 256 then (false, (s.bump (scrCnt lport 0x1C)).fwEvent 4)
          else (true, { s with scr.copyQ := s.scr.copyQ ++ [msg] }.bump (scrCnt lport 0x18))
        | .svc => (true, { s with scr.svcCopy := some msg }.bump (scrCnt lport 0x18))
        | _ => (true, s.bump (scrCnt lport 0x18))

/-- Count the hit of a rule that has matched (R183). `m`: the rule, or none for a default action, and its action. -/
def State.countHit (s : State) (m : Option Nat × Nat) : State :=
  match m.1 with
  | some r => if bit m.2 3 then s.add64 (0x048C0000 + r * 16) 1 else s
  | none => s

/-- The unit of a key as the rule of an action tracks it. -/
def actUnit (key act : Nat) : Option ConnUnit := connUnit key (bits act 34 32) (bits act 76 48)

/-- Disposition and require-state of a unit (R183): the counter of the cause of a drop, or 0. A drop for its state counts at once (R193). -/
def State.dispose (s : State) (m : Option Nat × Nat) (lport key : Nat) : Nat × State :=
  let act := m.2
  let disp := bits act 2 1
  let u := actUnit key act
  let admitted := match u with
    | some u => match s.connFind u with
      | some (e, d) => (s.connAdmits u e d).isSome
      | none => false
    | none => false
  let creates := match u with | some u => bit act 6 && u.creates | none => false
  if disp = 1 then (if m.1.isSome then 0x08 else 0x0C, s)
  else if disp = 2 && !admitted && !creates then (0x10, s.bump (scrCnt lport 0x10))
  else (0, s)

/-- Charge the stream meter `sm` and then the meter of the rule for a unit of `len` bytes that nothing has dropped (R183). -/
def State.chargeUnit (s : State) (act cause len : Nat) (sm : Option Nat) : Nat × State :=
  let (cause, s) := match sm with
    | some m => if cause = 0 then
        let (r, s) := s.charge m len
        (if r.2 then 0x14 else 0, s) else (cause, s)
    | none => (cause, s)
  let rm := bits act 31 20
  if cause = 0 && bit act 5 && sm ≠ some rm then
    let (r, s) := s.charge rm len
    (if r.2 then 0x14 else 0, s)
  else (cause, s)

/-- Create or update the connection entry of a unit that passes (R183). -/
def State.trackUnit (s : State) (act cause lport key : Nat) : State :=
  let track := bit act 6
  match actUnit key act with
  | some u => if cause = 0 && (track || bits act 2 1 = 2) then s.connUpdate u track lport (bits act 37 35) else s
  | none => s

/-- Count the verdict at the lookup port, and make the copy that the rule asks for (R183, R192, R199). -/
def State.closeUnit (s : State) (m : Option Nat × Nat) (cause lport len : Nat) (path : CopyPath) (unit : List Byte) : Verdict × State :=
  let (rule, act) := m
  let pass := cause = 0
  let s := if pass then s.add64 (scrCnt lport 0) 1 else if cause = 0x10 then s else s.bump (scrCnt lport cause)
  let no := rule.getD 0x3FFF
  let reason := bits act 47 40
  let (copied, s) := if bit act 4 then s.copyUnit path lport len no reason pass unit else (false, s)
  ({ pass := pass, cls := if pass && bit act 7 then some (bits act 14 12) else none,
     dom := if pass && bit act 8 then some (bits act 19 16) else none, copied := copied, rule := no, reason := reason }, s)

/-- Judge a unit in one step (R183). `len` is its length for meters, `sm` the meter of its stream. -/
def State.screen (s : State) (lport key len : Nat) (sm : Option Nat) (path : CopyPath) (unit : List Byte) : Verdict × State :=
  let m := s.judgeKey lport key
  let (cause, s) := (s.countHit m).dispose m lport key
  let (cause, s) := s.chargeUnit m.2 cause len sm
  (s.trackUnit m.2 cause lport key).closeUnit m cause lport len path unit

/-! The gateway lookup port (R193, R194). -/

/-- The source of a key, and its place among the keys of one source that become complete in one cycle (R194). -/
def GwUnit.source : GwUnit → Nat
  | .canRx .. | .linRx .. => 1
  | .acf .. => 2
  | .push .. | .lpub .. => 3
def GwUnit.rank : GwUnit → Nat
  | .canRx ch .. => ch.val
  | .linRx ch .. => 32 + ch.val
  | _ => 0

/-- A key takes its place in the queue of its source. -/
def placeKey (k : GwKey) (l : List GwKey) : List GwKey :=
  let before := fun (x : GwKey) => decide (x.at_ < k.at_) || decide (x.unit.rank ≤ k.unit.rank)
  l.takeWhile before ++ [k] ++ l.dropWhile before

/-- A key has become complete: it waits for the gateway lookup port. -/
def State.postKey (s : State) (u : GwUnit) (key : Nat) (data : List Byte) : State :=
  let k : GwKey := { unit := u, key := key, data := data, at_ := s.now }
  let g := s.scr.gw
  { s with scr.gw := match u.source with
    | 1 => { g with first := placeKey k g.first }
    | 2 => { g with second := placeKey k g.second }
    | _ => { g with third := placeKey k g.third } }

/-- The next key that the port takes, with the queues after it: received messages first, then the other two sources, alternately where both wait. -/
def GwPort.next (g : GwPort) : Option (GwKey × GwPort) :=
  match g.first, g.second, g.third with
  | k :: l, _, _ => some (k, { g with first := l })
  | [], k :: l, [] => some (k, { g with second := l })
  | [], [], k :: l => some (k, { g with third := l })
  | [], a :: l, b :: m => some (if g.turn then (b, { g with third := m, turn := false }) else (a, { g with second := l, turn := true }))
  | [], [], [] => none

/-- The port accepts one key every 4 cycles. The cycle that has just passed is cycle 0 of its lookup. -/
def State.gwAccept (s : State) : State :=
  let t := s.now - 1
  if t < s.scr.gw.nextAt then s
  else match s.scr.gw.next with
    | some (k, g) =>
      let l : GwLookup := { k := k, from_ := t, hs := 0, act := (none, 0), cause := 0,
                            verdict := { pass := false, cls := none, dom := none, copied := false, rule := 0, reason := 0 } }
      { s with scr.gw := { g with hand := g.hand ++ [l], nextAt := t + 4 } }
    | none => s

/-- Write a lookup back. -/
def State.putLookup (s : State) (l : GwLookup) : State :=
  { s with scr.gw := { s.scr.gw with hand := s.scr.gw.hand.map (fun x => if x.from_ = l.from_ then l else x) } }

/-- Cycle of the next step of a lookup. -/
def GwLookup.due (l : GwLookup) : Nat :=
  l.from_ + (match l.hs with | 0 => 1 | 1 => 5 | 2 => 8 | 3 => 10 | 4 => 12 | 5 => 13 | _ => 14)

/-- The next step of a lookup at the gateway port (R193): rules matched, hit counted, disposition, meters charged, connection entry, verdict and copy. A
copy holds the key and the data of the message (R192). -/
def State.gwStep (s : State) (l : GwLookup) : State :=
  let key := l.k.key
  s.asOf l.from_ (fun s => match l.hs with
    | 0 => s.putLookup { l with hs := 1, act := s.judgeKey 24 key }
    | 1 => (s.putLookup { l with hs := 2 }).countHit l.act
    | 2 =>
      let (cause, s) := s.dispose l.act 24 key
      s.putLookup { l with hs := 3, cause := cause }
    | 3 =>
      let (cause, s) := s.chargeUnit l.act.2 l.cause l.k.data.length none
      s.putLookup { l with hs := 4, cause := cause }
    | 4 => (s.putLookup { l with hs := 5 }).trackUnit l.act.2 l.cause 24 key
    | _ =>
      let (v, s) := s.closeUnit l.act l.cause 24 l.k.data.length .message (natLe 64 key ++ l.k.data)
      s.putLookup { l with hs := 6, verdict := v })

/-! Commands of the screen. -/

/-- CONN_SWEEP (R188): the sweeper visits one entry. -/
def connSweep (e : Nat) (s : State) : State :=
  if s.live && !s.secondary && bit (s.rd (connAddr e) 1) 0 && s.connExpired e then
    let old := s.rdB (connAddr e) 64
    ((s.connDrop e).bump 0x0490000C).mirrorConn e old
  else s
def execConnSweep (e : Fin 65536) (s : State) : Out := done s (connSweep e.val s)

end Sys2Proof.Machine
end

