-- ==== Sys2Proof/Machine/Can.lean ====
section
/-! DEFINITION. The CAN channels: transmission, errors, modes, and the store of a received message (R203 to R226).
Choices where the rules leave one open: log entry 13. -/

namespace Sys2Proof.Machine

/-- Internal address of a register of a channel block (R22, R225). -/
def canReg (n off : Nat) : Nat := 0x0A000000 + n * 0x1000 + off
/-- Address of a staging buffer (R215). -/
def txsAddr (n b : Nat) : Nat := canReg n (0x400 + b * 0x80)
/-- Address of a receive object (R211). -/
def canObj (n k : Nat) : Nat := 0x04A00000 + (128 * n + k) * 128
/-- Address of a long receive area (R211). -/
def canLong (n j : Nat) : Nat := 0x04A80000 + (8 * n + j) * 2048
/-- Address of a long transmit area (R215). -/
def canTxLong (n j : Nat) : Nat := 0x04B00000 + (4 * n + j) * 2048

/-- Set a bit of CAN_IRQ. -/
def State.canIrq (s : State) (n i : Nat) : State := s.setCan n { s.can n with irq := setBit (s.can n).irq i true }

/-- The mode in which a channel acts: the secondary of a pair works in restricted operation, after a takeover
until its bus is idle (R350, R355). -/
def State.canMode (s : State) (n : Nat) : Nat :=
  let m := (s.can n).mode.val
  if m = 1 && (s.secondary || (s.can n).hold) then 2 else m

/-- ERRSTATE (R221). -/
def Can.errState (c : Can) : Nat := if c.busOff then 2 else if c.tec ≥ 128 || c.recErr ≥ 128 then 1 else 0

/-- Replace a channel; a change of ERRSTATE sets ERR_STATE, and an entry to error passive counts (R221, R225). -/
def State.canErr (s : State) (n : Nat) (c : Can) : State :=
  let old := (s.can n).errState
  let s := s.setCan n c
  let s := if c.errState ≠ old then s.canIrq n 4 else s
  if old = 0 && c.errState = 1 then s.bump (canReg n 0x150) else s

/-- Parameters other than bit timing take effect at bus idle (R239). -/
def State.canLatch (s : State) (n : Nat) : State :=
  s.setCan n { s.can n with opts := BitVec.ofNat 9 (s.param (0x0880 + n)), boOpts := BitVec.ofNat 2 (s.param (0x08C0 + n)) }

/-! Bit timing (R206). -/

/-- Fields of a bit timing: BRP, number of time quanta, TSEG2, SJW. -/
def canTiming (pid v : Nat) : Nat × Nat × Nat × Nat :=
  if pid < 0x0840 then (bits v 7 0 + 1, 3 + bits v 15 8 + bits v 22 16, bits v 22 16 + 1, bits v 30 24 + 1)
  else (bits v 4 0 + 1, 3 + bits v 12 8 + bits v 19 16, bits v 19 16 + 1, bits v 27 24 + 1)

/-- Time-quantum clocks of a bit: the rate is 80 MHz divided by it. -/
def canBitClocks (pid v : Nat) : Nat := let (brp, q, _, _) := canTiming pid v; brp * q

/-- FCLK cycles of `k` nominal bits of a channel. -/
def State.canBits (s : State) (n k : Nat) : Nat := k * canBitClocks 0x0820 (s.can n).nominal.toNat * 10

/-- The bus of a channel is idle: no frame, error frame or intermission (R204). -/
def State.canIdle (s : State) (n : Nat) : Bool :=
  let c := s.can n
  c.pstate = 2 && c.attempt.isNone && c.busyTo ≤ s.now

/-- CAN_STATUS.PSTATE (R225): after a frame that has been received the channel is receiving until the bus is idle, and after one of its own it is
transmitting until then (PRESUMED, ISO 11898-1; log entry 13). -/
def State.canPstate (s : State) (n : Nat) : Nat :=
  let c := s.can n
  if c.pstate = 2 && s.now < c.busyTo then (if c.ours then 4 else 3) else c.pstate.val

/-- Every channel whose bus becomes idle in this cycle takes its options (R239). -/
def State.canTick (s : State) : State :=
  (s.bus.can.filter (fun e => e.2.busyTo = s.now || e.2.hold)).foldl (fun s e =>
    if s.canIdle e.1 then (s.setCan e.1 { s.can e.1 with hold := false }).canLatch e.1 else s) s

/-! Lengths (R216). -/

/-- The lengths of a CAN FD frame. -/
def fdLens : List Nat := [0, 1, 2, 3, 4, 5, 6, 7, 8, 12, 16, 20, 24, 32, 48, 64]

/-- A length that a format allows: 0 classical, 1 FD, 3 XL. -/
def canLenOk (fmt len : Nat) : Bool := if fmt = 3 then 1 ≤ len && len ≤ 2048 else if fmt = 0 then len ≤ 8 else fdLens.contains len

/-- The smallest allowed length that holds `len` bytes. -/
def canFit (fmt len : Nat) : Option Nat :=
  if fmt = 3 then (if 1 ≤ len && len ≤ 2048 then some len else none)
  else if fmt = 0 then (if len ≤ 8 then some len else none)
  else fdLens.find? (fun l => len ≤ l)

/-- The DLC of a classical or FD length. -/
def canDlc (len : Nat) : BitVec 4 := BitVec.ofNat 4 (fdLens.idxOf len)

/-! Entries. -/

/-- Every entry that waits in a channel, the priority slot first. -/
def Can.entries (c : Can) : List CanEntry := (match c.prio with | some e => [e] | none => []) ++ c.queue

/-- Bit j of CAN_LONG_BUSY: long area j is referenced (R225). -/
def Can.longBusy (c : Can) (j : Nat) : Bool :=
  c.entries.any (fun e => match e.long with | some i => i.val == j | none => false)

/-- An entry has left the channel: report to its staging buffer, CAN_IRQ and counter (R205, R218, R220). `outcome` is
1 sent, 2 expired, 3 aborted, 4 flushed; `cnt` is the counter offset, 0 for none. -/
def State.canLeft (s : State) (n : Nat) (e : CanEntry) (outcome cnt : Nat) (ts : Word) : State :=
  let s :=
    if e.src < 4 then
      let a := txsAddr n e.src
      ((s.wr (a + 24) 2 e.tag.toNat).wr (a + 26) 1 outcome).wr (a + 28) 4 ts.toNat
    else s
  let s := s.canIrq n (if outcome = 1 then 2 else 3)
  if cnt = 0 then s else if outcome = 1 then s.add64 (canReg n cnt) 1 else s.bump (canReg n cnt)

/-- Counter offset of a removal with an outcome. -/
def outcomeCnt (outcome : Nat) : Nat := if outcome = 1 then 0x108 else if outcome = 2 then 0x144 else 0x148

/-- Every entry outside the attempt leaves with an outcome; the one in the attempt is marked (R205, R220, R222). -/
def State.canFlush (s : State) (n outcome : Nat) : State :=
  let c := s.can n
  let keepPrio := if c.attempt = some true then c.prio else none
  let keepHead := if c.attempt = some false then c.queue.take 1 else []
  let out := (match c.prio with | some e => if c.attempt = some true then [] else [e] | none => []) ++ c.queue.drop keepHead.length
  let s := s.setCan n { c with prio := keepPrio, queue := keepHead,
                               doomed := if c.attempt.isSome && c.doomed.isNone then some (BitVec.ofNat 3 outcome) else c.doomed }
  out.foldl (fun s e => s.canLeft n e outcome (outcomeCnt outcome) s.ts) s

/-- Put an entry into the queue or the priority slot; `none` if there is no room (R216, R217). -/
def State.canPut (s : State) (n : Nat) (e : CanEntry) (prio : Bool) : Option State :=
  let c := s.can n
  if prio then (if c.prio.isSome then none else some (s.setCan n { c with prio := some e }))
  else if c.queue.length ≥ 32 then none else some (s.setCan n { c with queue := c.queue ++ [e] })

/-! Transmission. -/

/-- The message in a staging buffer (R215). -/
def State.stagedMsg (s : State) (n b : Nat) : CanMsg :=
  let a := txsAddr n b
  let w := s.rd a 16
  let len := bits w 43 32
  let xl := bit w 45
  let rtr := bit w 30
  let data := if rtr then [] else if bit w 47 then s.rdB (canTxLong n (bits w 82 81)) len else s.rdB (a + 32) (min len 64)
  { id := BitVec.ofNat 29 (bits w 28 0), ide := bit w 29, fdf := bit w 44 || xl, xlf := xl, brs := bit w 46, esi := false,
    rtr := rtr, sec := bit w 80, dlc := if xl then 0 else canDlc len, sdt := BitVec.ofNat 8 (bits w 71 64),
    vcid := BitVec.ofNat 8 (bits w 79 72), af := BitVec.ofNat 32 (bits w 127 96), data := data }

/-- A staging buffer holds an invalid entry (R216). -/
def State.stagedBad (s : State) (n b : Nat) : Bool :=
  let w := s.rd (txsAddr n b) 16
  let o := (s.can n).opts
  let len := bits w 43 32
  let fdf := bit w 44
  let xlf := bit w 45
  let ide := bit w 29
  !canLenOk (if xlf then 3 else if fdf then 1 else 0) len || (fdf && !o.getLsbD 0) || (xlf && !o.getLsbD 1) ||
  (bit w 46 && !fdf) || (bit w 30 && fdf) || (ide && xlf) || (!ide && bits w 28 0 > 0x7FF) || (len > 64 && !bit w 47)

/-- RESULT of a staging buffer (R216). -/
def State.pushResult (s : State) (n b r : Nat) : State := s.wr (txsAddr n b + 20) 1 r

/-- A push is refused (R216). -/
def State.pushRefused (s : State) (n b r : Nat) : State := (s.pushResult n b r).canIrq n 7

/-- The screen has judged a push (R216). Where mode or room have gone while it was checked, it is refused for that (DESIGN CHOICE, log entry 36). -/
def State.pushJudged (s : State) (n b : Nat) (prio : Bool) (e : CanEntry) (pass : Bool) : State :=
  if !pass then (s.bump (canReg n 0x13C)).pushRefused n b 5
  else if (s.can n).mode = 0 || (s.can n).mode = 3 then s.pushRefused n b 7
  else match s.canPut n e prio with
    | some s => s.pushResult n b (if prio then 2 else 1)
    | none => (s.bump (canReg n 0x140)).pushRefused n b 3

/-- TX_PUSH (R216): the checks run in the order mode, entry, long area, room, screen; RESULT reads 0 while the screen judges. -/
def txPush (n b : Nat) (prio : Bool) (s : State) : State :=
  if !s.live then s
  else
    let a := txsAddr n b
    let c := s.can n
    let w := s.rd a 18
    let refuse := fun (s : State) (r : Nat) => s.pushRefused n b r
    if c.mode = 0 || c.mode = 3 then refuse s 7
    else if s.stagedBad n b then refuse s 4
    else if bit w 47 && c.longBusy (bits w 82 81) then refuse s 6
    else if (if prio then c.prio.isSome else decide (c.queue.length ≥ 32)) then refuse (s.bump (canReg n 0x140)) 3
    else
      let m := s.stagedMsg n b
      let e : CanEntry :=
        { msg := m, src := b, tag := BitVec.ofNat 16 (bits w 63 48), lifetime := bits w 143 128, tick := s.tick,
          long := if bit w 47 then some (Fin.ofNat 4 (bits w 82 81)) else none }
      (s.pushResult n b 0).postKey (.push (Fin.ofNat 32 n) (Fin.ofNat 4 b) prio e) (canKey n true none m) m.data
def execTxPush (ch : CanCh) (buf : Fin 4) (prio : Bool) (s : State) : Out := done s (txPush ch.val buf.val prio s)

/-- The candidate of a channel: the priority slot, else the queue head (R218). -/
def Can.candidate (c : Can) : Option (Bool × CanEntry) :=
  match c.prio, c.queue with
  | some e, _ => some (true, e)
  | none, e :: _ => some (false, e)
  | none, [] => none

/-- The channel may begin an attempt (R204, R205, R218, R221): in Normal mode with no mode change waiting, on an idle bus, after suspend
transmission. -/
def State.canMayStart (s : State) (n : Nat) : Bool :=
  let c := s.can n
  s.live && s.canMode n = 1 && s.param (0x0800 + n) = 1 && s.canIdle n && !c.busOff && c.startAt ≤ s.now && s.nm.state ≠ .commit

/-- CAN_TX_START (R218): at an instant at which the channel may begin an attempt. Data of a long area is read as it is sent. -/
def canTxStart (n : Nat) (s : State) : State :=
  let c := s.can n
  if s.canMayStart n then
    match c.candidate with
    | some (fromPrio, e) =>
      let m := match e.long with
        | some j => { e.msg with data := s.rdB (canTxLong n j.val) e.msg.data.length }
        | none => e.msg
      s.setCan n { c with attempt := some fromPrio, sof := s.ts, pstate := 4, ended := false, lastTx := some { m with esi := decide (c.errState = 1) && m.fdf } }
    | none => s
  else s
def execCanTxStart (ch : CanCh) (s : State) : Out := done s (canTxStart ch.val s)

/-- Take the entry in the attempt out of its place. -/
def Can.takeAttempt (c : Can) : Option CanEntry × Can :=
  match c.attempt with
  | some true => (c.prio, { c with prio := none, attempt := none, doomed := none })
  | some false => (c.queue.head?, { c with queue := c.queue.drop 1, attempt := none, doomed := none })
  | none => (none, c)

/-- The attempt ends without success: the entry stays, or leaves in single-shot mode or where it is marked (R218, R220). -/
def State.canFailed (s : State) (n : Nat) : State :=
  let c := s.can n
  let leave := match c.doomed with
    | some o => some (o.toNat, outcomeCnt o.toNat)
    | none => if c.opts.getLsbD 6 then some (3, 0) else none
  match leave with
  | some (o, k) =>
    match c.takeAttempt with
    | (some e, c) => (s.setCan n c).canLeft n e o k s.ts
    | (none, c) => s.setCan n c
  | none => s.setCan n { c with attempt := none }

/-- The bus after an attempt that has ended: intermission, and for an error-passive transmitter suspend transmission (R221). -/
def State.canGap (s : State) (n : Nat) : State :=
  let idle := s.now + s.canBits n 3
  let c := s.can n
  s.setCan n { c with busyTo := idle, ours := true, startAt := if c.errState = 1 then idle + s.canBits n 8 else idle }

/-- CAN_TX_END (R218): an attempt ends. A frame sent lowers TEC by one (R221); one that has lost arbitration receives on. `delay` is the transmitter delay, if the
frame reached the edge at which it is measured, in 12.5 ns (R208); of an attempt that bus-off has ended it is all that is left to report. -/
def canTxEnd (n : Nat) (r : CanTxResult) (delay : Option Nat) (s : State) : State :=
  let c := s.can n
  let fd := match c.lastTx with | some m => m.fdf | none => false
  let c := match delay with
    | some d => if c.opts.getLsbD 3 && fd then { c with tdcv := BitVec.ofNat 8 (min 255 d) } else c
    | none => c
  if s.live && c.ended then s.setCan n { c with ended := false }
  else if s.live && c.attempt.isSome then
    let s := s.setCan n { c with pstate := 2 }
    let s := match r with
      | .sent =>
        match (s.can n).takeAttempt with
        | (some e, c) => ((s.canErr n { c with tec := c.tec - 1 }).canLeft n e 1 0x108 c.sof).canGap n
        | (none, c) => s.setCan n c
      | .lostArbitration =>
        let s := (s.bump (canReg n 0x128)).canFailed n
        s.setCan n { s.can n with pstate := 3 }
      | .error => (s.canFailed n).canGap n
    s
  else s
def execCanTxEnd (ch : CanCh) (r : CanTxResult) (delay : Option Nat) (s : State) : Out := done s (canTxEnd ch.val r delay s)

/-- An entry has expired at the present tick (R220). -/
def State.canExpired (s : State) (e : CanEntry) : Bool :=
  e.lifetime != 0 && (s.tick + 2 ^ 32 - e.tick) % 2 ^ 32 > e.lifetime

/-- CAN_LIFETIME_EXPIRY (R220). -/
def canLifetimeExpiry (n : Nat) (s : State) : State :=
  if !s.live then s
  else
    let c := s.can n
    let mark := fun (e : Option CanEntry) => match e with | some e => s.canExpired e && c.doomed.isNone | none => false
    let (outP, prio, d1) :=
      match c.prio with
      | some e => if s.canExpired e then (if c.attempt = some true then ([], some e, mark (some e)) else ([e], none, false)) else ([], some e, false)
      | none => ([], none, false)
    let head := if c.attempt = some false then c.queue.take 1 else []
    let rest := c.queue.drop head.length
    let d2 := mark head.head?
    let s := s.setCan n { c with prio := prio, queue := head ++ rest.filter (fun e => !s.canExpired e),
                                 doomed := if d1 || d2 then some 2 else c.doomed }
    (outP ++ rest.filter s.canExpired).foldl (fun s e => s.canLeft n e 2 0x144 s.ts) s
def execCanLifetimeExpiry (ch : CanCh) (s : State) : Out := done s (canLifetimeExpiry ch.val s)

/-- RECOVER (R222). -/
def recover (n : Nat) (s : State) : State :=
  let c := s.can n
  if s.live && c.busOff && !c.recovering then s.setCan n { c with recovering := true, pstate := 6 } else s
def execRecover (ch : CanCh) (s : State) : Out := done s (recover ch.val s)

/-- ABORT_HEAD (R220). -/
def abortHead (n : Nat) (s : State) : State :=
  let c := s.can n
  if !s.live then s
  else
    match c.queue with
    | e :: q =>
      if c.attempt = some false then s.setCan n { c with doomed := if c.doomed.isNone then some 3 else c.doomed }
      else (s.setCan n { c with queue := q }).canLeft n e 3 0x148 s.ts
    | [] => s
def execAbortHead (ch : CanCh) (s : State) : Out := done s (abortHead ch.val s)

/-- ABORT_PRIO (R220). -/
def abortPrio (n : Nat) (s : State) : State :=
  let c := s.can n
  if !s.live then s
  else
    match c.prio with
    | some e =>
      if c.attempt = some true then s.setCan n { c with doomed := if c.doomed.isNone then some 3 else c.doomed }
      else (s.setCan n { c with prio := none }).canLeft n e 3 0x148 s.ts
    | none => s
def execAbortPrio (ch : CanCh) (s : State) : Out := done s (abortPrio ch.val s)

/-- FLUSH (R220). -/
def canFlushAll (n : Nat) (s : State) : State := if s.live then s.canFlush n 4 else s
def execFlush (ch : CanCh) (s : State) : Out := done s (canFlushAll ch.val s)

/-! Errors (R221, R222). -/

/-- LEC code and error-counter offset of an error (R225, R226). -/
def canErrCode : CanErrKind → BitVec 3 × Nat
  | .stuff => (1, 0x114) | .form => (2, 0x118) | .ack => (3, 0x11C) | .bitRecessive => (4, 0x120)
  | .bitDominant => (5, 0x120) | .crc => (6, 0x110)

/-- The fault-confinement rules of ISO 11898-1 (R221). -/
inductive CanErrRule where
  | receiver         -- a receiver detects an error: REC + 1
  | receiverDominant -- a receiver reads dominant after its error flag, or a bit error in its flag: REC + 8
  | transmitter      -- a transmitter sends an error flag, or meets a bit error in it: TEC + 8
  | exempt           -- an exception of the standard: neither counter changes
  deriving DecidableEq, Repr

/-- The rule of ISO 11898-1 that applies to an error (R221; PRESUMED, the standard is no part of the spec: log entry 13). A transmitter is
exempt for a recessive stuff bit of arbitration read as dominant, and, error passive, for a missing acknowledge with no dominant bit in its
flag. -/
def Can.errRule (c : Can) (kind : CanErrKind) (place : CanErrPlace) (after dominant : Bool) : CanErrRule :=
  let tx := c.attempt.isSome
  match place with
  | .frame =>
    if !tx then .receiver
    else if kind = .stuff && !after && dominant then .exempt
    else if kind = .ack && c.errState = 1 && !dominant then .exempt
    else .transmitter
  | .afterFlag => if tx then .exempt else .receiverDominant
  | _ => if tx then .transmitter else .receiverDominant

/-- TEC and REC after an error (R221). -/
def Can.countErr (c : Can) (rule : CanErrRule) : Can :=
  match rule with
  | .receiver => { c with recErr := min 255 (c.recErr + 1) }
  | .receiverDominant => { c with recErr := min 255 (c.recErr + 8) }
  | .transmitter => { c with tec := c.tec + 8 }
  | .exempt => c

/-- Enter bus-off (R222). -/
def State.canBusOff (s : State) (n : Nat) : State :=
  let c := s.can n
  let auto := !c.boOpts.getLsbD 0
  let had := c.attempt.isSome
  let s := s.canErr n { c with busOff := true, ended := had, recovering := auto, recov := 0, pstate := if auto then 6 else 5 }
  let s := (s.canIrq n 5).bump (canReg n 0x14C)
  let s := if had then s.canFailed n else s
  if c.boOpts.getLsbD 1 then s.canFlush n 4 else s

/-- An error of a frame, as LEC and the error counters of R226 show it. -/
def State.canNoteErr (s : State) (n : Nat) (kind : CanErrKind) (after : Bool) : State :=
  let (lec, off) := canErrCode kind
  let tx := (s.can n).attempt.isSome
  let s := s.bump (canReg n off)
  let s := if after && kind = CanErrKind.bitRecessive && tx then s.bump (canReg n 0x124) else s
  s.setCan n { s.can n with lec := lec }

/-- In Normal mode an error is counted and signalled (R204, R221). What an XL frame counts while its error signalling is off is what the
standard defines: a free value here (log entry 13). -/
def State.canCount (s : State) (n : Nat) (rule : CanErrRule) (xl : Bool) : State :=
  let c := s.can n
  let silent := xl && !c.opts.getLsbD 4
  let (rule, s) :=
    if silent then
      let (x, s) := s.draw
      (if x % 2 = 0 then CanErrRule.exempt else rule, s)
    else (rule, s)
  let flag := if silent then none else some (decide (c.errState = 0))
  let s := s.canErr n { c.countErr rule with errFlag := flag }
  if (s.can n).tec > 255 then s.canBusOff n else s

/-- CAN_BUS_ERROR (R204, R214, R221, R224). A receiver waits for the bus to be idle: 14 bits of error flag and delimiter, and intermission;
in restricted operation it integrates anew. -/
def canBusError (n : Nat) (kind : CanErrKind) (at_ : CanErrAt) (after : Bool) (s : State) : State :=
  let c := s.can n
  if s.live && c.mode ≠ 0 && (c.pstate = 2 || c.pstate = 3 || c.pstate = 4) then
    let rule := c.errRule kind at_.place after at_.dominant
    let xl := match c.attempt, c.lastTx with | some _, some m => m.xlf | _, _ => at_.xl
    let s := if at_.place = .frame || at_.place = .flag then s.canNoteErr n kind after else s
    let s := if c.attempt.isSome then s
      else s.setCan n { s.can n with pstate := if s.canMode n = 2 then 1 else 2, busyTo := s.now + s.canBits n 17, ours := false }
    if s.canMode n = 1 then s.canCount n rule xl else s.setCan n { s.can n with errFlag := none }
  else s
def execCanBusError (ch : CanCh) (kind : CanErrKind) (place : CanErrAt) (after : Bool) (s : State) : Out :=
  done s (canBusError ch.val kind place after s)

/-- BUS_OFF_RECOVERY_COMPLETE (R222). -/
def busOffRecoveryComplete (n : Nat) (s : State) : State :=
  let c := s.can n
  if s.live && c.busOff && c.recovering then
    ((s.canErr n { c with tec := 0, recErr := 0, busOff := false, recovering := false, recov := 128, pstate := 2 }).canIrq n 6).canLatch n
  else s
def execBusOffRecoveryComplete (ch : CanCh) (s : State) : Out := done s (busOffRecoveryComplete ch.val s)

/-- A mode change can take effect: the channel is Off, its bus is idle, or it is bus-off (R204). From
the instant at which Commit sets the channels Off none does (R324). -/
def State.canMayChange (s : State) (n : Nat) : Bool :=
  let c := s.can n
  (c.pstate = 0 || c.pstate = 5 || c.pstate = 6 || s.canIdle n) && c.attempt.isNone &&
  !(s.nm.state == .commit && decide (s.now ≥ s.nm.commitAt + usCycles 1800))

/-- CAN_MODE_CHANGE (R204 to R206): at a bus idle, so outside an attempt. -/
def canModeChange (n : Nat) (s : State) : State :=
  let c := s.can n
  let m := Fin.ofNat 4 (s.param (0x0800 + n))
  if s.live && c.mode ≠ m && s.canMayChange n then
    if c.mode = 0 then
      (s.setCan n { c with mode := m, pstate := 1, tec := 0, recErr := 0,
                           nominal := BitVec.ofNat 32 (s.param (0x0820 + n)), fdData := BitVec.ofNat 32 (s.param (0x0840 + n)),
                           xlData := BitVec.ofNat 32 (s.param (0x0860 + n)) }).canLatch n
    else
      let s := if m = 0 || m = 3 then s.canFlush n 4 else s
      let c := { s.can n with mode := m }
      let s := if m = 0 then s.canErr n { c with pstate := 0, tec := 0, recErr := 0, busOff := false, recovering := false, recov := 0 }
        else s.setCan n c
      s.canLatch n
  else s
def execCanModeChange (ch : CanCh) (s : State) : Out := done s (canModeChange ch.val s)

/-- CAN_INTEGRATION (R204, R239): 11 recessive bits have been seen, and the bus is idle. -/
def canIntegration (n : Nat) (s : State) : State :=
  let c := s.can n
  if s.live && c.pstate = 1 then (s.setCan n { c with pstate := 2, busyTo := s.now }).canLatch n else s
def execCanIntegration (ch : CanCh) (s : State) : Out := done s (canIntegration ch.val s)

/-! Reception. -/

/-- Format index of a message: 0 classical, 1 FD, 2 XL. -/
def canFmt (m : CanMsg) : Nat := if m.xlf then 2 else if m.fdf then 1 else 0

/-- Receive object k is enabled. -/
def State.objEn (s : State) (n k : Nat) : Bool := bit (s.rd (canObj n k + 4) 1) 0

/-- Receive object k matches a message (R210). -/
def State.objMatches (s : State) (n : Nat) (m : CanMsg) (k : Nat) : Bool :=
  let w := s.rd (canObj n k) 8
  bit w 32 && bits w 28 0 = m.id.toNat && bit w 29 = m.ide && bit w (33 + canFmt m)

/-- The lowest-numbered object that matches (R210). -/
def State.objFor (s : State) (n : Nat) (m : CanMsg) : Option Nat := (List.range 128).find? (s.objMatches n m)

/-- Object k uses its long area: no lower-numbered enabled object names it (R211). -/
def State.objLong (s : State) (n k : Nat) : Option Nat :=
  let f := fun i => let w := s.rd (canObj n i + 4) 1; if bit w 0 && bit w 4 then some (bits w 7 5) else none
  match f k with
  | some j => if (List.range k).any (fun i => f i = some j) then none else some j
  | none => none

/-- CAN_STATUS.DUP: two enabled objects hold one identifier (R211). -/
def State.canDup (s : State) (n : Nat) : Bool :=
  let ids := ((List.range 128).filter (s.objEn n)).map (fun k => s.rd (canObj n k) 4 % 2 ^ 30)
  ids.any (fun i => ids.count i > 1)

/-- A message as its format has it: the data bytes that its DLC states, none in a remote frame (R212). -/
def canNorm (m : CanMsg) : CanMsg := if m.xlf then m else { m with data := m.data.take m.dlcLen }

/-- Store a message in object k (R212). -/
def State.canStore (s : State) (n k : Nat) (m : CanMsg) (ts : Word) : State :=
  let a := canObj n k
  let lost := bit (s.rd (a + 8) 1) 0
  let len := m.data.length
  let s := s.wr (a + 8) 1 (bits (s.rd (a + 8) 1) 7 2 * 4 + (if lost || bit (s.rd (a + 8) 1) 1 then 3 else 1))
  let s := s.wr (a + 12) 4 (s.rd (a + 12) 4 + 1)
  let s := s.wr (a + 16) 4 ts.toNat
  let s := s.wr (a + 20) 2 (len + (if m.xlf then 0 else m.dlc.toNat) * 4096)
  let s := s.wr (a + 22) 1 (b2n (m.fdf || m.xlf) + 2 * b2n m.xlf + 4 * b2n m.brs + 8 * b2n m.esi + 16 * b2n m.rtr + 32 * b2n m.sec)
  let s := s.wr (a + 24) 2 (m.sdt.toNat + 256 * m.vcid.toNat)
  let s := s.wr (a + 28) 4 m.af.toNat
  let s := match s.objLong n k with
    | some j => s.wrB (canLong n j) m.data
    | none => s.wrB (a + 32) m.data
  let s := s.canIrq n 0
  if lost then (s.canIrq n 1).bump (canReg n 0x130) else s

/-- A message received without error lowers REC (R221); above 127 it becomes a value of 119 to 127. -/
def State.canGood (s : State) (n : Nat) : State :=
  let c := s.can n
  if s.canMode n ≠ 1 || c.recErr = 0 then s
  else if c.recErr > 127 then
    let (x, s) := s.draw
    s.canErr n { c with recErr := 119 + x % 9 }
  else s.canErr n { c with recErr := c.recErr - 1 }

end Sys2Proof.Machine
end

