-- ==== Sys2Proof/Machine/Faults.lean ====
section
/-! DEFINITION. The device fault: fault record and entry into fail-silent (R31 to R34, R315, R436, R437). -/

namespace Sys2Proof.Machine

/-- Write an entry of the fault record (R315). -/
def FaultRecord.add (r : FaultRecord) (e : FaultEntry) : FaultRecord :=
  match r.first with
  | none => { r with first := some e, last := some e, silent := true, count := 1, here := true }
  | some _ => { r with last := some e, count := min 255 (r.count + 1) }

/-- A further fault of a run that has had one: latched in the same FCLK cycle as the last one, with a lower code, it is the earlier of
the two to be written (R437). -/
def FaultRecord.addAgain (r : FaultRecord) (e : FaultEntry) : FaultRecord :=
  let before := fun (x : Option FaultEntry) => x.any (fun y => y.cycle == e.cycle && decide (e.code.toNat < y.code.toNat))
  if before r.last then { r with first := if r.here && before r.first then some e else r.first, count := min 255 (r.count + 1) }
  else r.add e

/-- DW_LINK while links are up, and what changes when every link falls. -/
def State.allLinksDown (s : State) : State :=
  { s with dw.linkChg := s.dw.linkChg ||| s.sw.link, sw.link := 0, sw.rate := [] }

/-- What the buffer, queues and fabric hold is discarded (R34). Virtual times and counters keep their values. -/
def State.discardTraffic (s : State) : State :=
  { s with
    sw.occ := [], sw.arriving := [], sw.used := [], sw.frames := [], sw.scrubHold := [], sw.toGw := [],
    sw.leaves := (s.sw.leaves.map (fun e => (e.1, { e.2 with items := [] }))).filter (fun e => e.2 ≠ Leaf.reset),
    sw.classes := (s.sw.classes.map (fun e => (e.1, { e.2 with depth := 0 }))).filter (fun e => e.2 ≠ ClassQ.reset),
    sw.egress := [],
    fab := { s.fab with pulls := [], waiting := [], flight := [], store := [], out := [] } }

/-- Transmission on every edge bus stops and every queued message is discarded (R33, R34). -/
def State.silenceBuses (s : State) : State :=
  { s with
    bus.can := (s.bus.can.map (fun e => (e.1, { e.2 with queue := [], prio := none, attempt := none }))).filter (fun e => e.2 ≠ Can.reset),
    bus.lin := (s.bus.lin.map (fun e => (e.1, { e.2 with header := none, sending := none, running := false, sleepDue := false }))).filter (fun e => e.2 ≠ Lin.reset) }

/-- Programming of a vault slot is cut off: cells programmed so far stay, one at least, and COMMIT is clear, so that the slot is interrupted (R363,
R365). How far it had come is open. -/
def State.cutOtp (s : State) : State :=
  match s.sec.otp with
  | some o =>
    let s := { s with sec.otp := none }
    if s.pw.token.holder ≠ some .otp || o.refused then s
    else
      let (n, s) := s.draw
      let (a, s) := s.drawWord
      let (b, s) := s.drawWord
      let (c, s) := s.drawWord
      let (d, s) := s.drawWord
      let some_ := o.data &&& (a ++ b ++ c ++ d)
      let part := if n % 3 ≠ 0 then o.data else if some_ = 0 then o.data &&& -o.data else some_
      let desc := if n % 3 = 0 then 0 else if n % 3 = 1 then o.desc &&& BitVec.ofNat 32 a.toNat else o.desc
      let chk := if n % 3 = 2 then crc32c (natLe 32 o.data.toNat ++ natLe 4 o.desc.toNat) &&& (a.toNat % 2 ^ 32) else 0
      s.setSlot o.slot.val { data := part, desc := desc, check := BitVec.ofNat 32 chk, commit := false, spoil := false }
  | none => s

/-- The valid copy of a record that is the newer by serial arithmetic, with its place: true, the second copy (R404). -/
def Copies.newer (c : Copies) : Option (Bool × Area) :=
  match c.lo, c.hi with
  | some x, some y => if (y.seq - x.seq).toInt > 0 then some (true, y) else some (false, x)
  | some x, none => some (false, x)
  | none, some y => some (true, y)
  | none, none => none

/-- A record write goes to the copy that is not the newer valid one (R404). -/
def Copies.target (c : Copies) : Bool := match c.newer with | some (h, _) => !h | none => false

/-- A copy takes a value. -/
def Copies.set (c : Copies) (h : Bool) (x : Option Area) : Copies := if h then { c with hi := x } else { c with lo := x }

/-- The record copies of a staging area: false A, true B. -/
def Upd.copies (u : Upd) (b : Bool) : Copies := if b then u.recB else u.recA
def Upd.setCopies (u : Upd) (b : Bool) (c : Copies) : Upd := if b then { u with recB := c } else { u with recA := c }

/-- A record write of a staging area is cut off: the copy written last is corrupt (R410). -/
def Upd.tearLast (u : Upd) (b : Bool) : Upd :=
  match (u.copies b).newer with
  | some (h, _) => u.setCopies b ((u.copies b).set h none)
  | none => u

/-- A record write of a staging area is cut off before the copy can be read as the newer one (R410). -/
def Upd.tearNext (u : Upd) (b : Bool) : Upd := u.setCopies b ((u.copies b).set (u.copies b).target none)

/-- Record writes that a loss of power, a reset or fail-silent may cut off: those of the last 60 µs (R34, R410; DESIGN CHOICE, log entry 18). How many of
them had ended is open; the change that the others carried is lost. -/
def State.tornRecords (s : State) : State :=
  if s.upd.wrote.isEmpty || s.now > s.upd.wroteAt + usCycles 60 then s
  else
    let (n, s) := s.draw
    { s with upd := (s.upd.wrote.drop (n % (s.upd.wrote.length + 1))).foldl Upd.tearLast { s.upd with wrote := [] } }

/-- Base of a staging area: false A, true B. -/
def stageBase (b : Bool) : Nat := if b then 0x02400000 else 0x02200000

/-- A block store that is cut off: the words written so far stand, how many is open, and with `half` the one in progress is indeterminate; after the
last one the write of the map bit is what is cut off (R34, R400, R401, R410). -/
def State.endStore (s : State) (half : Bool) : State :=
  match s.upd.ready with
  | some (x, _) =>
    if s.pw.token.holder ≠ some .staging then s
    else
      let b := !s.upd.areaA.staging
      let (n, s) := s.draw
      let (w, s) := s.drawWord
      let k := n % 1025
      let u := if k = 1024 then s.upd.tearNext b else s.upd
      { s.wrB (stageBase b + x.index * 4096) (x.data.take (4 * k) ++ (if half && k < 1024 then natLe 4 w.toNat else [])) with upd := u }
  | none => s

/-- A block store that a reset or fail-silent cuts off: the word in progress is finished (R34). -/
def State.cutStore (s : State) : State := s.endStore false

/-- Work that the control processor and the maintenance activities have in hand is abandoned (R32, R34, R442). -/
def State.dropWork (s : State) : State :=
  let s := s.cutOtp.cutStore.tornRecords
  { s with
    pw.token := { s.pw.token with holder := none, queue := [] },
    host := { s.host with busy := none, area := none, memtest := none, table := none },
    sw.scrubLeft := 0, upd.ready := none, upd.parts := [], upd.relay := none, upd.posted := false, scr := { s.scr with load := none, gw := GwPort.reset, svcIn := [] },
    ls := { s.ls with testing := false, core0 := Core.reset, core1 := Core.reset } }

/-- Enter fail-silent (R32 to R34). -/
def State.failSilent (s : State) : State :=
  let s := s.discardTraffic.silenceBuses.dropWork.allLinksDown
  { s with pw := { s.pw with mode := .failSilent, fsRun := true, fwReady := false },
           host := { s.host.send 2 with msix3Due := false },
           nm := { s.nm with pulses := 0 } }

/-- Latch a device fault: record it, and enter fail-silent unless the device is silent already. Faults are detected only
while INH0 is high (R437). -/
def State.deviceFault (s : State) (code unit : Nat) (detail : List Nat) : State :=
  if !s.pw.inh0 || !s.pw.vaon || s.pw.rstLow then s
  else
    let e : FaultEntry :=
      { code := BitVec.ofNat 16 code, unit := BitVec.ofNat 8 unit, ltime := s.time.ltime, tstate := s.time.state.code,
        cycle := s.now, detail := detail.map (BitVec.ofNat 32) }
    if s.pw.mode = .failSilent then { s with pw.fr := s.pw.fr.addAgain e } else { s with pw.fr := s.pw.fr.add e }.failSilent

end Sys2Proof.Machine
end

