-- ==== Sys2Proof/Machine/Crypto.lean ====
section
/-! DEFINITION. The cryptographic functions that the manual names by their standards (R4, R362 to R384): AES, CMAC, GCM,
SHA-384, HMAC, RFC 5649, ECDSA P-384. The manual gives none of their internals (log entry 20). -/

namespace Sys2Proof.Machine

/-! AES (FIPS 197). -/

/-- Multiplication by x in GF(2⁸) of AES. -/
def xtime (a : Nat) : Nat := let b := a * 2; if b ≥ 256 then b ^^^ 0x11B else b

/-- Multiplication in GF(2⁸) of AES by a constant below 16. -/
def gfMul (c a : Nat) : Nat :=
  let a2 := xtime a
  let a4 := xtime a2
  (if bit c 0 then a else 0) ^^^ (if bit c 1 then a2 else 0) ^^^ (if bit c 2 then a4 else 0) ^^^ (if bit c 3 then xtime a4 else 0)

/-- The S-box of AES, entry a in byte a. -/
def sboxTab : Nat :=
  0x16bb54b00f2d99416842e6bf0d89a18cdf2855cee9871e9b948ed9691198f8e19e1dc186b95735610ef6034866b53e708a8bbd4b1f74dde8c6b4a61c2e2578ba * 2 ^ 1536 +
  0x08ae7a65eaf4566ca94ed58d6d37c8e779e4959162acd3c25c2406490a3a32e0db0b5ede14b8ee4688902a22dc4f816073195d643d7ea7c41744975fec130ccd * 2 ^ 1024 +
  0xd2f3ff1021dab6bcf5389d928f40a351a89f3c507f02f94585334d43fbaaefd0cf584c4a39becb6a5bb1fc20ed00d153842fe329b3d63b52a05a6e1b1a2c8309 * 2 ^ 512 +
  0x75b227ebe28012079a059618c323c7041531d871f1e5a534ccf73f362693fdb7c072a49cafa2d4adf04759fa7dc982ca76abd7fe2b670130c56f6bf27b777c63

/-- The inverse S-box of AES, entry a in byte a. -/
def sboxInvTab : Nat :=
  0x7d0c2155631469e126d677ba7e042b17619953833cbbebc8b0f52aae4d3be0a0ef9cc9939f7ae52d0d4ab519a97f51605fec8027591012b131c7078833a8dd1f * 2 ^ 1536 +
  0xf45acd78fec0db9a2079d2c64b3e56fc1bbe18aa0e62b76f89c5291d711af1476edf751ce837f9e28535ade72274ac9673e6b4f0cecff297eadc674f4111913a * 2 ^ 1024 +
  0x6b8a130103bdafc1020f3fca8f1e2cd00645b3b80558e4f70ad3bc8c00abd890849d8da75746155edab9edfd5048706c92b6655dcc5ca4d41698688664f6f872 * 2 ^ 512 +
  0x25d18b6d49a25b76b224d92866a12e084ec3fa420b954cee3d23c2a632947b54cbe9dec444438e3487ff2f9b8239e37cfbd7f3819ea340bf38a53630d56a0952

/-- The S-box of AES. -/
def sbox (a : Nat) : Nat := (sboxTab >>> (8 * a)) % 256

/-- The inverse S-box of AES. -/
def sboxInv (a : Nat) : Nat := (sboxInvTab >>> (8 * a)) % 256

/-- XOR of two lists, element by element. -/
def xorL (a b : List Nat) : List Nat := List.zipWith (· ^^^ ·) a b

/-- The key schedule as words of four bytes, `n` words more, newest first. -/
def expandKey (nk : Nat) : Nat → Nat → Nat → List (List Nat) → List (List Nat)
  | 0, _, _, acc => acc
  | n + 1, i, rcon, acc =>
    let prev := acc.headD []
    let old := acc.getD (nk - 1) []
    let (t, rcon) :=
      if i % nk = 0 then
        let r := (prev.drop 1 ++ prev.take 1).map sbox
        ((r.headD 0 ^^^ rcon) :: r.drop 1, xtime rcon)
      else if nk > 6 && i % nk = 4 then (prev.map sbox, rcon)
      else (prev, rcon)
    expandKey nk n (i + 1) rcon (xorL old t :: acc)

/-- Cut a list in pieces of `n`; `k` pieces at most. -/
def chunks {α : Type} (n : Nat) : Nat → List α → List (List α)
  | 0, _ => []
  | k + 1, l => if l.isEmpty then [] else l.take n :: chunks n k (l.drop n)

/-- The round keys of a key of 16 or 32 bytes. -/
def roundKeys (key : List Byte) : List (List Nat) :=
  let k := key.map BitVec.toNat
  let nk := k.length / 4
  let ws := (expandKey nk (4 * (nk + 7) - nk) nk 1 (chunks 4 nk k).reverse).reverse
  (chunks 4 (nk + 7) ws).map List.flatten

/-- Rows shifted left by their number; columns stand four bytes each. -/
def shiftRows (s : List Nat) : List Nat := (List.range 16).map (fun i => s.getD ((i + 4 * (i % 4)) % 16) 0)
/-- The inverse of `shiftRows`. -/
def shiftRowsInv (s : List Nat) : List Nat := (List.range 16).map (fun i => s.getD ((i + 12 * (i % 4)) % 16) 0)

/-- Columns multiplied by a circulant matrix with first row `m`. -/
def mixCols (m s : List Nat) : List Nat :=
  (List.range 16).map (fun i =>
    (List.range 4).foldl (fun a j => a ^^^ gfMul (m.getD ((j + 4 - i % 4) % 4) 0) (s.getD (i / 4 * 4 + j) 0)) 0)

/-- AES encryption of one block with expanded keys. -/
def aesRounds : List (List Nat) → List Nat → List Nat
  | [], s => s
  | [k], s => xorL (shiftRows (s.map sbox)) k
  | k :: k' :: ks, s => aesRounds (k' :: ks) (xorL (mixCols [2, 3, 1, 1] (shiftRows (s.map sbox))) k)

/-- AES decryption of one block, round keys in reverse order. -/
def aesRoundsInv : List (List Nat) → List Nat → List Nat
  | [], s => s
  | [k], s => xorL ((shiftRowsInv s).map sboxInv) k
  | k :: k' :: ks, s => aesRoundsInv (k' :: ks) (mixCols [14, 11, 13, 9] (xorL ((shiftRowsInv s).map sboxInv) k))

/-- AES encryption of a 16-byte block. -/
def aesEnc (key blk : List Byte) : List Byte :=
  match roundKeys key with
  | [] => blk
  | k0 :: ks => (aesRounds ks (xorL (blk.map BitVec.toNat) k0)).map (BitVec.ofNat 8)

/-- AES decryption of a 16-byte block. -/
def aesDec (key blk : List Byte) : List Byte :=
  match (roundKeys key).reverse with
  | [] => blk
  | k0 :: ks => (aesRoundsInv ks (xorL (blk.map BitVec.toNat) k0)).map (BitVec.ofNat 8)

/-- XOR of byte lists. -/
def xorB (a b : List Byte) : List Byte := List.zipWith (· ^^^ ·) a b

/-! AES-CMAC (SP 800-38B). -/

/-- Doubling in GF(2¹²⁸), most significant bit first. -/
def dbl128 (b : List Byte) : List Byte :=
  let v := beNat b
  let w := (v * 2) % 2 ^ 128
  natBe 16 (if v ≥ 2 ^ 127 then w ^^^ 0x87 else w)

/-- The CMAC of a message: 16 bytes. -/
def cmac (key msg : List Byte) : List Byte :=
  let k1 := dbl128 (aesEnc key (List.replicate 16 0))
  let k2 := dbl128 k1
  let n := (msg.length + 15) / 16
  let blocks := chunks 16 n msg
  let last := blocks.getLastD []
  let final := if last.length = 16 then xorB last k1 else xorB (fitBytes 16 (last ++ [0x80])) k2
  let x := (blocks.dropLast).foldl (fun c b => aesEnc key (xorB c b)) (List.replicate 16 0)
  aesEnc key (xorB x final)

/-! AES-GCM (SP 800-38D) with 96-bit IVs. -/

/-- Multiplication in GF(2¹²⁸) of GHASH, bit 0 the most significant. -/
def ghMul (x y : Nat) : Nat :=
  ((List.range 128).foldl (fun (acc : Nat × Nat) i =>
    let (z, v) := acc
    (if bit x (127 - i) then z ^^^ v else z, if v % 2 = 1 then (v / 2) ^^^ (0xE1 <<< 120) else v / 2)) (0, y)).1

/-- Pad with zeros to whole blocks. -/
def pad16 (b : List Byte) : List Byte := fitBytes ((b.length + 15) / 16 * 16) b

/-- GHASH of whole blocks. -/
def ghash (h : Nat) (bs : List Byte) : Nat :=
  (chunks 16 (bs.length / 16) bs).foldl (fun y b => ghMul (y ^^^ beNat b) h) 0

/-- Counter-mode keystream over `bs` from counter `ctr`. -/
def gctr (key iv : List Byte) (ctr : Nat) (bs : List Byte) : List Byte :=
  ((chunks 16 (bs.length / 16 + 1) bs).zipIdx).flatMap (fun (b, i) => xorB b (aesEnc key (iv ++ natBe 4 (ctr + i))))

/-- The GCM tag of a ciphertext and its associated data. -/
def gcmTag (key iv aad ct : List Byte) : List Byte :=
  let h := beNat (aesEnc key (List.replicate 16 0))
  let s := ghash h (pad16 aad ++ pad16 ct ++ natBe 8 (aad.length * 8) ++ natBe 8 (ct.length * 8))
  xorB (natBe 16 s) (aesEnc key (iv ++ natBe 4 1))

/-- GCM encryption: ciphertext and tag. -/
def gcmEnc (key iv aad pt : List Byte) : List Byte × List Byte :=
  let ct := gctr key iv 2 pt
  (ct, gcmTag key iv aad ct)

/-- GCM decryption; none when the tag does not match. -/
def gcmDec (key iv aad ct tag : List Byte) : Option (List Byte) :=
  if gcmTag key iv aad ct = tag then some (gctr key iv 2 ct) else none

/-! SHA-384 (FIPS 180) and HMAC. -/

/-- Round constants 0 to 39: fractions of the cube roots of the first 80 primes. -/
def sha512KA : List Nat :=
  [ 0x428A2F98D728AE22, 0x7137449123EF65CD, 0xB5C0FBCFEC4D3B2F, 0xE9B5DBA58189DBBC, 0x3956C25BF348B538,
    0x59F111F1B605D019, 0x923F82A4AF194F9B, 0xAB1C5ED5DA6D8118, 0xD807AA98A3030242, 0x12835B0145706FBE,
    0x243185BE4EE4B28C, 0x550C7DC3D5FFB4E2, 0x72BE5D74F27B896F, 0x80DEB1FE3B1696B1, 0x9BDC06A725C71235,
    0xC19BF174CF692694, 0xE49B69C19EF14AD2, 0xEFBE4786384F25E3, 0x0FC19DC68B8CD5B5, 0x240CA1CC77AC9C65,
    0x2DE92C6F592B0275, 0x4A7484AA6EA6E483, 0x5CB0A9DCBD41FBD4, 0x76F988DA831153B5, 0x983E5152EE66DFAB,
    0xA831C66D2DB43210, 0xB00327C898FB213F, 0xBF597FC7BEEF0EE4, 0xC6E00BF33DA88FC2, 0xD5A79147930AA725,
    0x06CA6351E003826F, 0x142929670A0E6E70, 0x27B70A8546D22FFC, 0x2E1B21385C26C926, 0x4D2C6DFC5AC42AED,
    0x53380D139D95B3DF, 0x650A73548BAF63DE, 0x766A0ABB3C77B2A8, 0x81C2C92E47EDAEE6, 0x92722C851482353B ]

/-- Round constants 40 to 79: fractions of the cube roots of the first 80 primes. -/
def sha512KB : List Nat :=
  [ 0xA2BFE8A14CF10364, 0xA81A664BBC423001, 0xC24B8B70D0F89791, 0xC76C51A30654BE30, 0xD192E819D6EF5218,
    0xD69906245565A910, 0xF40E35855771202A, 0x106AA07032BBD1B8, 0x19A4C116B8D2D0C8, 0x1E376C085141AB53,
    0x2748774CDF8EEB99, 0x34B0BCB5E19B48A8, 0x391C0CB3C5C95A63, 0x4ED8AA4AE3418ACB, 0x5B9CCA4F7763E373,
    0x682E6FF3D6B2B8A3, 0x748F82EE5DEFB2FC, 0x78A5636F43172F60, 0x84C87814A1F0AB72, 0x8CC702081A6439EC,
    0x90BEFFFA23631E28, 0xA4506CEBDE82BDE9, 0xBEF9A3F7B2C67915, 0xC67178F2E372532B, 0xCA273ECEEA26619C,
    0xD186B8C721C0C207, 0xEADA7DD6CDE0EB1E, 0xF57D4F7FEE6ED178, 0x06F067AA72176FBA, 0x0A637DC5A2C898A6,
    0x113F9804BEF90DAE, 0x1B710B35131C471B, 0x28DB77F523047D84, 0x32CAAB7B40C72493, 0x3C9EBE0A15C9BEBC,
    0x431D67C49C100D4C, 0x4CC5D4BECB3E42B6, 0x597F299CFC657E2A, 0x5FCB6FAB3AD6FAEC, 0x6C44198C4A475817 ]

/-- The round constants. -/
def sha512K : List Nat := sha512KA ++ sha512KB

/-- The initial value of SHA-384: fractions of the square roots of the 9th to 16th primes. -/
def sha384H : List Nat :=
  [ 0xCBBB9D5DC1059ED8, 0x629A292A367CD507, 0x9159015A3070DD17, 0x152FECD8F70E5939,
    0x67332667FFC00B31, 0x8EB44A8768581511, 0xDB0C2E0D64F98FA7, 0x47B5481DBEFA4FA4 ]

/-- Rotation right of a 64-bit word. -/
def rotr64 (x n : Nat) : Nat := ((x >>> n) ||| (x <<< (64 - n))) % 2 ^ 64

/-- The message schedule: words appended to the newest-first list. -/
def shaSched : Nat → List Nat → List Nat
  | 0, w => w
  | n + 1, w =>
    let a := w.getD 1 0
    let b := w.getD 14 0
    let s1 := rotr64 a 19 ^^^ rotr64 a 61 ^^^ (a >>> 6)
    let s0 := rotr64 b 1 ^^^ rotr64 b 8 ^^^ (b >>> 7)
    shaSched n (((s1 + w.getD 6 0 + s0 + w.getD 15 0) % 2 ^ 64) :: w)

/-- One round on the eight working variables. -/
def shaRound (v : List Nat) (kw : Nat) : List Nat :=
  match v with
  | [a, b, c, d, e, f, g, h] =>
    let m := 2 ^ 64
    let t1 := h + (rotr64 e 14 ^^^ rotr64 e 18 ^^^ rotr64 e 41) + ((e &&& f) ^^^ ((m - 1 - e) &&& g)) + kw
    let t2 := (rotr64 a 28 ^^^ rotr64 a 34 ^^^ rotr64 a 39) + ((a &&& b) ^^^ (a &&& c) ^^^ (b &&& c))
    [(t1 + t2) % m, a, b, c, (d + t1) % m, e, f, g]
  | _ => v

/-- One block of 128 bytes. -/
def shaBlock (ks h : List Nat) (blk : List Byte) : List Nat :=
  let w := (shaSched 64 ((chunks 8 16 blk).map beNat).reverse).reverse
  let v := (List.zipWith (· + ·) ks w).foldl shaRound h
  List.zipWith (fun a b => (a + b) % 2 ^ 64) h v

/-- SHA-384: 48 bytes. -/
def sha384 (msg : List Byte) : List Byte :=
  let l := msg.length
  let z := (128 - (l + 17) % 128) % 128
  let padded := msg ++ [0x80] ++ List.replicate z 0 ++ natBe 16 (l * 8)
  let ks := sha512K
  let h := (chunks 128 (padded.length / 128) padded).foldl (shaBlock ks) sha384H
  (h.flatMap (natBe 8)).take 48

/-- HMAC with SHA-384. -/
def hmac384 (key msg : List Byte) : List Byte :=
  let k := fitBytes 128 (if key.length > 128 then sha384 key else key)
  sha384 (k.map (· ^^^ 0x5C) ++ sha384 (k.map (· ^^^ 0x36) ++ msg))

/-! AES key wrap with padding (RFC 5649). -/

/-- One unwrapping step of RFC 3394 with counter `t`. -/
def unwrapSteps (key : List Byte) (n : Nat) : Nat → List Byte × List (List Byte) → List Byte × List (List Byte)
  | 0, x => x
  | t + 1, (a, r) =>
    let i := t % n
    let b := aesDec key (natBe 8 (beNat a ^^^ (t + 1)) ++ r.getD i [])
    unwrapSteps key n t (b.take 8, r.set i (b.drop 8))

/-- Unwrap; none when the check value, the length or the padding is wrong. -/
def keyUnwrap (kek ct : List Byte) : Option (List Byte) :=
  if ct.length % 8 ≠ 0 || ct.length < 16 then none else
  let n := ct.length / 8 - 1
  let (a, p) :=
    if n = 1 then let b := aesDec kek ct; (b.take 8, b.drop 8)
    else
      let (a, r) := unwrapSteps kek n (6 * n) (ct.take 8, chunks 8 n (ct.drop 8))
      (a, r.flatten)
  let len := beNat (a.drop 4)
  if a.take 4 = [0xA6, 0x59, 0x59, 0xA6] && len ≤ 8 * n && len + 8 > 8 * n && (p.drop len).all (· == 0) then some (p.take len)
  else none

/-! ECDSA P-384 (FIPS 186). -/

/-- The prime of P-384. -/
def p384P : Nat := 2 ^ 384 - 2 ^ 128 - 2 ^ 96 + 2 ^ 32 - 1
/-- The order of P-384. -/
def p384N : Nat := 0xFFFFFFFFFFFFFFFFFFFFFFFFFFFFFFFFFFFFFFFFFFFFFFFFC7634D81F4372DDF581A0DB248B0A77AECEC196ACCC52973
/-- The coefficient b of P-384. -/
def p384B : Nat := 0xB3312FA7E23EE7E4988E056BE3F82D19181D9C6EFE8141120314088F5013875AC656398D8A2ED19D2A85C8EDD3EC2AEF
/-- The base point of P-384. -/
def p384G : Nat × Nat :=
  (0xAA87CA22BE8B05378EB1C71EF320AD746E1D3B628BA79B9859F741E082542A385502F25DBF55296C3A545E3872760AB7,
   0x3617DE4A96262C6F5D9E98BF9292DC29F8F41DBD289A147CE9DA3113B5F0B8C00A60B1CE1D7E819D7A431D7C90EA0E5F)

/-- b^e modulo m, over the `n` low bits of e. -/
def powMod (b e m : Nat) : Nat → Nat
  | 0 => 1 % m
  | n + 1 => let r := powMod b e m n; let q := r * r % m; if bit e (383 - n) then q * b % m else q

/-- Inverse modulo a prime of 384 bits. -/
def invMod (a m : Nat) : Nat := powMod (a % m) (m - 2) m 384

/-- A point in Jacobian coordinates; z = 0 is infinity. -/
abbrev JPoint := Nat × Nat × Nat

/-- Difference modulo the prime. -/
def subP (a b : Nat) : Nat := (a + (p384P - b % p384P)) % p384P

/-- Twice a point of P-384. -/
def jDouble : JPoint → JPoint
  | (x, y, z) =>
    let p := p384P
    let zz := z * z % p
    let yy := y * y % p
    let s := 4 * x * yy % p
    let m := 3 * (subP x zz) * (x + zz) % p
    let x' := subP (m * m % p) (2 * s)
    (x', subP (m * subP s x' % p) (8 * (yy * yy % p)), 2 * y * z % p)

/-- Sum of two points of P-384. -/
def jAdd (a b : JPoint) : JPoint :=
  let p := p384P
  let (x1, y1, z1) := a
  let (x2, y2, z2) := b
  if z1 = 0 then b else if z2 = 0 then a else
  let q1 := z1 * z1 % p
  let q2 := z2 * z2 % p
  let u1 := x1 * q2 % p
  let u2 := x2 * q1 % p
  let s1 := y1 * q2 % p * z2 % p
  let s2 := y2 * q1 % p * z1 % p
  if u1 = u2 then (if s1 = s2 then jDouble a else (1, 1, 0)) else
  let h := subP u2 u1
  let r := subP s2 s1
  let hh := h * h % p
  let hhh := h * hh % p
  let v := u1 * hh % p
  let x3 := subP (subP (r * r % p) hhh) (2 * v)
  (x3, subP (r * subP v x3 % p) (s1 * hhh), h * z1 % p * z2 % p)

/-- k times a point, over `n` bits of k from the top of 384. -/
def jMul (k : Nat) (a : JPoint) : Nat → JPoint
  | 0 => (1, 1, 0)
  | n + 1 => let r := jDouble (jMul k a n); if bit k (383 - n) then jAdd r a else r

/-- The affine x coordinate of a point. -/
def jX : JPoint → Option Nat
  | (x, _, z) => if z = 0 then none else let i := invMod z p384P; some (x * (i * i % p384P) % p384P)

/-- The affine coordinates of a point. -/
def jAffine : JPoint → Option (Nat × Nat)
  | (x, y, z) => if z = 0 then none else
    let i := invMod z p384P
    let i2 := i * i % p384P
    some (x * i2 % p384P, y * i2 % p384P * i % p384P)

/-- Verify a signature r ‖ s over a 48-byte digest with a public key X ‖ Y, big-endian. -/
def ecdsaVerify (pub digest sig : List Byte) : Bool :=
  let qx := beNat (pub.take 48)
  let qy := beNat (pub.drop 48)
  let r := beNat (sig.take 48)
  let s := beNat (sig.drop 48)
  let e := beNat digest
  let onCurve := qx < p384P && qy < p384P && qy * qy % p384P == (qx * qx * qx + (p384P - 3) * qx + p384B) % p384P
  if pub.length != 96 || sig.length != 96 || !onCurve || r = 0 || s = 0 || r ≥ p384N || s ≥ p384N then false else
  let w := invMod s p384N
  let (gx, gy) := p384G
  match jX (jAdd (jMul (e * w % p384N) (gx, gy, 1) 384) (jMul (r * w % p384N) (qx, qy, 1) 384)) with
  | some x => x % p384N == r
  | none => false

/-- The nonce of RFC 6979 for a private key and a digest, with HMAC-SHA-384. -/
def rfc6979 (d digest : List Byte) : Nat → List Byte → List Byte → Nat
  | 0, _, _ => 1
  | f + 1, k, v =>
    let v := hmac384 k v
    let x := beNat v
    if x ≠ 0 && x < p384N then x
    else let k := hmac384 k (v ++ [0]); rfc6979 d digest f k (hmac384 k v)

/-- Sign a 48-byte digest with a private key of 48 bytes: r ‖ s. -/
def ecdsaSign (priv digest : List Byte) : List Byte :=
  let e := beNat digest % p384N
  let h := natBe 48 e
  let k0 := List.replicate 48 (0 : Byte)
  let v0 := List.replicate 48 (1 : Byte)
  let k1 := hmac384 k0 (v0 ++ [0] ++ priv ++ h)
  let v1 := hmac384 k1 v0
  let k2 := hmac384 k1 (v1 ++ [1] ++ priv ++ h)
  let v2 := hmac384 k2 v1
  let k := rfc6979 priv h 8 k2 v2
  let (gx, gy) := p384G
  match jX (jMul k (gx, gy, 1) 384) with
  | some x =>
    let r := x % p384N
    natBe 48 r ++ natBe 48 (invMod k p384N * ((e + r * beNat priv) % p384N) % p384N)
  | none => List.replicate 96 0

/-- The public key X ‖ Y of a private key. -/
def ecdsaPublic (priv : List Byte) : List Byte :=
  let (gx, gy) := p384G
  match jAffine (jMul (beNat priv) (gx, gy, 1) 384) with
  | some (x, y) => natBe 48 x ++ natBe 48 y
  | none => List.replicate 96 0

end Sys2Proof.Machine
end

