-- ==== Sys2Proof/Machine/Macsec.lean ====
section
/-! DEFINITION. MACsec on P0 to P9 (R371 to R375). The cipher suite's nonce, associated data and packet-number recovery are
those of IEEE 802.1AE, which the manual names (log entry 20). -/

namespace Sys2Proof.Machine

/-- Key of a secure association. -/
def saKey (port dir sc an : Nat) : Nat := port * 32 + dir * 16 + sc * 4 + an

/-- What the header of a frame gives MACsec on receive (R371, R373): it passes as it stands, it is dropped, or it is protected by the
secure association under `key`. -/
inductive MsHead where
  | open_
  | dropped (cnt : Nat)
  | sealed (key : Nat)
  deriving DecidableEq, Repr

/-- The IV of GCM-AES-XPN: SSCI and packet number, added to the salt. -/
def SecAssoc.iv (a : SecAssoc) (pn : Nat) : List Byte := xorB (natLe 4 a.ssci.toNat ++ natBe 8 pn) (natLe 12 a.salt.toNat)

/-- The extended packet number of a received frame. -/
def recoverPn (highest low : Nat) : Nat :=
  let up := highest / 2 ^ 32
  let lo := highest % 2 ^ 32
  (if bit lo 31 && !bit low 31 then up + 1 else up) * 2 ^ 32 + low

/-- A MACsec counter of a port. -/
def msCnt (p off : Nat) : Nat := portReg p off

/-- The length of the SecTAG with its SCI (R371). -/
def secTag : Nat := 16

/-- The secure associations of frames received or under way, each with its key (R368, R381). -/
def State.saKeys (s : State) : List (Nat × SecAssoc × List Byte) :=
  s.sec.sas.map (fun e => (e.1, e.2, (s.wk e.2.wk.val).key)) ++ s.sec.going

/-- The header check of a frame received at a MACsec port; `b` is the frame without FCS, or as much of it as has arrived, and `len` its
length as far as known (R373). -/
def macsecHead (s : State) (p : Nat) (b : List Byte) : MsHead :=
  let et := byteAt b 12 * 256 + byteAt b 13
  if et = 0x88F7 then .open_
  else if et ≠ 0x88E5 then .dropped 0x290
  else
    let tci := byteAt b 14
    let sl := byteAt b 15
    let body := b.length - 28 - 16
    -- V 0, ES 0, SC 1, SCB 0, E and C alike; a short length agrees with the frame
    let okTag := b.length ≥ 28 + 16 && bits tci 7 4 = 2 && (bit tci 3 == bit tci 2) && (sl = 0 || (sl < 48 && sl ≤ body))
    let sci := BitVec.ofNat 64 (leNat (slice b 20 8))
    let sc := (List.range 4).find? (fun c => (List.range 4).any (fun an =>
      s.saKeys.any (fun e => e.1 = saKey p 0 c an && e.2.1.sci = sci)))
    match okTag, sc with
    | true, some c =>
      let k := saKey p 0 c (tci % 4)
      if s.saKeys.any (fun e => e.1 = k) then .sealed k else .dropped 0x298
    | _, _ => .dropped 0x294

/-- The data of a protected frame, deciphered with the key of its secure association; not yet verified (R371, R373). -/
def macsecOpen (s : State) (k : Nat) (b : List Byte) : List Byte :=
  match s.saKeys.find? (fun e => e.1 = k) with
  | none => b.take 12
  | some (_, sa, key) =>
    let sl := byteAt b 15
    let n := if sl = 0 then b.length - 28 - 16 else sl
    let pn := recoverPn sa.pn.toNat (beNat (slice b 16 4))
    let data := slice b 28 n
    b.take 12 ++ (if bit (byteAt b 14) 3 then gctr key (sa.iv pn) 2 data else data)

/-- The end check of a protected frame: the integrity check value, then replay; none: it is verified, and the packet number advances
(R373). -/
def macsecCheck (s : State) (p k : Nat) (b : List Byte) : Option Nat × State :=
  match s.saKeys.find? (fun e => e.1 = k) with
  | none => (some 0x298, s)
  | some (_, sa, key) =>
    let sl := byteAt b 15
    let n := if sl = 0 then b.length - 28 - 16 else sl
    let pn := recoverPn sa.pn.toNat (beNat (slice b 16 4))
    let data := slice b 28 n
    let hdr := b.take 28
    let tag := if bit (byteAt b 14) 3 then gcmTag key (sa.iv pn) hdr data else gcmTag key (sa.iv pn) (hdr ++ data) []
    if tag ≠ slice b (28 + n) 16 || pn = 0 then (some 0x29C, s)
    else if sa.replay && pn + sa.window.toNat < sa.pn.toNat then (some 0x2A0, s)
    else
      let seen := { sa with pn := BitVec.ofNat 64 (max sa.pn.toNat pn) }
      let s := if s.sec.sas.any (fun e => e.1 = k) then { s with sec.sas := SMap.put s.sec.sas k seen } else s
      (none, s.add64 (msCnt p 0x280) 1)

/-- The transmitting SA of a port as a frame begins, and the next packet number with it; none: no such SA, or it is retired
(R372, R374). -/
def macsecTake (s : State) (p : Nat) : Option (Nat × SecAssoc × List Byte) × State :=
  match s.sec.sas.find? (fun e => e.1 / 32 = p && e.1 / 16 % 2 = 1 && e.2.active) with
  | some (k, sa) =>
    if sa.pn.toNat = 2 ^ 64 - 1 then (none, s)
    else (some (k % 4, sa, (s.wk sa.wk.val).key), { s with sec.sas := SMap.put s.sec.sas k { sa with pn := sa.pn + 1 } })
  | none => (none, s)

/-- The protected form of a frame without FCS (R371, R374). After a tamper event, from byte `n` on the ciphertext is open
and the ICV is zero (R387). -/
def macsecSeal (an : Nat) (sa : SecAssoc) (key b : List Byte) (cut : Option (Nat × Nat)) : List Byte :=
  let pn := sa.pn.toNat
  let data := b.drop 12
  let tci := 0x20 + (if sa.conf then 0x0C else 0) + an
  let sl := if data.length < 48 then data.length else 0
  let hdr := b.take 12 ++ [0x88, 0xE5, BitVec.ofNat 8 tci, BitVec.ofNat 8 sl] ++ natBe 4 pn ++ natLe 8 sa.sci.toNat
  let (ct, icv) := if sa.conf then gcmEnc key (sa.iv pn) hdr data else (data, gcmTag key (sa.iv pn) (hdr ++ data) [])
  match cut with
  | none => hdr ++ ct ++ icv
  | some (n, x) =>
    let sent := (hdr ++ ct).take n
    let rest := hdr.length + ct.length - sent.length
    if sa.conf then sent ++ fitBytes rest (Config.freeBytes x rest) ++ List.replicate 16 0 else hdr ++ ct ++ List.replicate 16 0

end Sys2Proof.Machine
end

