-- ==== Sys2Proof/Machine/Rs.lean ====
section
/-! DEFINITION. The Reed-Solomon code of the packet buffer (R96, R97). -/

namespace Sys2Proof.Machine

/-- Multiplication by α = x in GF(2⁸) with polynomial 0x11D. -/
def rsX (a : Nat) : Nat := let b := a * 2; if b ≥ 256 then b ^^^ 0x11D else b

/-- Multiplication in that field. -/
def rsMul (a b : Nat) : Nat :=
  ((List.range 8).foldl (fun (acc : Nat × Nat) i => (if bit b i then acc.1 ^^^ acc.2 else acc.1, rsX acc.2)) (0, a)).1

/-- α to the power `n`. -/
def rsPow : Nat → Nat
  | 0 => 1
  | n + 1 => rsX (rsPow n)

/-- Power of an element by squaring over 8 bits of the exponent. -/
def rsExp (a : Nat) : Nat → Nat → Nat
  | 0, _ => 1
  | n + 1, e => let r := rsExp (rsMul a a) n (e / 2); if e % 2 = 1 then rsMul a r else r

/-- Inverse; 0 for 0. -/
def rsInv (a : Nat) : Nat := rsExp a 8 254

/-- The coefficients of g(x) below x⁴, x³ first: 15, 54, 120, 64 times their places (R96). -/
def rsGen : List Nat :=
  (List.range 4).foldl (fun (g : List Nat) i =>
    -- multiply by (x + αⁱ); highest coefficient first
    List.zipWith (· ^^^ ·) (g ++ [0]) (0 :: g.map (rsMul (rsPow i)))) [1] |>.drop 1

/-- One step of the division: the remainder after the next data symbol. -/
def rsStep (rem : List Nat) (d : Nat) : List Nat :=
  let f := rem.headD 0 ^^^ d
  List.zipWith (· ^^^ ·) (rem.drop 1 ++ [0]) (rsGen.map (rsMul f))

/-- The four check symbols of 32 data symbols. -/
def rsCheck (data : List Nat) : List Nat := data.foldl rsStep [0, 0, 0, 0]

/-- Syndrome i of 36 symbols, coefficient of x³⁵ first. -/
def rsSyn (i : Nat) (cw : List Nat) : Nat := cw.foldl (fun a c => rsMul a (rsPow i) ^^^ c) 0

/-- The syndromes S0 to S3. -/
def rsSyns (cw : List Nat) : List Nat := (List.range 4).map (fun i => rsSyn i cw)

/-- Add `v` to symbol `j`. -/
def rsFlip (cw : List Nat) (j v : Nat) : List Nat := cw.set j (cw.getD j 0 ^^^ v)

/-- What the decoder makes of a codeword: corrected symbols and how many were wrong, or none (R97). -/
def rsDecode (cw : List Nat) : Option (List Nat × Nat) :=
  match rsSyns cw with
  | [s0, s1, s2, s3] =>
    if s0 = 0 && s1 = 0 && s2 = 0 && s3 = 0 then some (cw, 0)
    else
      let one := (List.range 36).find? (fun j =>
        let x := rsPow (35 - j)
        s0 != 0 && rsMul s0 x == s1 && rsMul s1 x == s2 && rsMul s2 x == s3)
      match one with
      | some j => some (rsFlip cw j s0, 1)
      | none =>
        let det := rsMul s1 s1 ^^^ rsMul s0 s2
        if det = 0 then none
        else
          let di := rsInv det
          let a := rsMul (rsMul s0 s3 ^^^ rsMul s1 s2) di
          let b := rsMul (rsMul s1 s3 ^^^ rsMul s2 s2) di
          let roots := (List.range 36).filter (fun j => let x := rsPow (35 - j); rsMul x x ^^^ rsMul a x ^^^ b == 0)
          match roots with
          | [i, j] =>
            let xi := rsPow (35 - i)
            let xj := rsPow (35 - j)
            let yi := rsMul (s1 ^^^ rsMul s0 xj) (rsInv (xi ^^^ xj))
            let yj := s0 ^^^ yi
            if yi = 0 || yj = 0 then none else some (rsFlip (rsFlip cw i yi) j yj, 2)
          | _ => none
  | _ => none

/-- Check symbols as a word, the coefficient of x³ in its low byte. -/
def checkWord (data : List Byte) : Word := BitVec.ofNat 32 (leNat ((rsCheck (data.map BitVec.toNat)).map (BitVec.ofNat 8)))

/-- The 36 symbols of a half-cell. -/
def codeword (data : List Byte) (chk : Word) : List Nat := (data ++ natLe 4 chk.toNat).map BitVec.toNat

end Sys2Proof.Machine
end

