-- ==== Sys2Proof/Machine/Buffer.lean ====
section
/-! DEFINITION. Buffer, virtual output queues and egress edits (R95 to R107, R128 to R130, R138, R154, R155). -/

namespace Sys2Proof.Machine

/-- Cells of the buffer (R95). -/
def bufCells : Nat := 196608

/-- Address of a cell in the diagnostic view (R95). -/
def cellAddr (c : Nat) : Nat := 0x08000000 + c * 64

/-- Port of a destination: 24 is a screen copy to P22. -/
def destPort (d : Nat) : Nat := if d = 24 then 22 else d

/-! Admission (R101, R102). -/

/-- G[n]. -/
def State.guar (s : State) (n : Nat) : Nat := s.param (0x0120 + n)

/-- The spillway in use (R101). -/
def State.spillUsed (s : State) : Nat := ((List.range 24).map (fun n => s.occ n - s.guar n)).sum

/-- Size of the spillway, S. -/
def State.spillSize (s : State) : Nat := bufCells - ((List.range 24).map s.guar).sum

/-- The reservation of a frame that begins at input `n`. -/
def State.reserve (s : State) (n : Nat) : Nat := (s.param (0x0280 + n) + 1 + 63) / 64

/-- The admission test (R102). -/
def State.admits (s : State) (n : Nat) : Bool :=
  let now := s.occ n - s.guar n
  let new := s.occ n + s.reserve n - s.guar n
  new ≤ s.param (0x0140 + n) && s.spillUsed - now + new ≤ s.spillSize

/-- Change the cells held by an input. -/
def State.setOcc (s : State) (n v : Nat) : State := { s with sw.occ := SMap.set 0 s.sw.occ n v }

/-- Peaks of an input and of the spillway as they now stand (R125). -/
def State.notePeaks (s : State) (n : Nat) : State :=
  { s with sw.inPeak := SMap.set 0 s.sw.inPeak n (max (SMap.get 0 s.sw.inPeak n) (s.occ n)),
           sw.spillPeak := max s.sw.spillPeak s.spillUsed }

/-! Cells (R95, R96, R107). -/

/-- The first free cell at or after `c`, with fuel. -/
def State.freeFrom (s : State) : Nat → Nat → Nat
  | 0, c => c % bufCells
  | n + 1, c => if SMap.get false s.sw.used (c % bufCells) then s.freeFrom n (c + 1) else c % bufCells

/-- Take a free cell. Which free cell is given is open (R95, log entry 38). -/
def State.takeCell (s : State) : Nat × State :=
  let (x, s) := s.draw
  let c := s.freeFrom (s.sw.used.length + 1) x
  (c, { s with sw.used := SMap.set false s.sw.used c true })

/-- Write one half-cell with its check symbols (R96). A write-back of the scrubber to it is cancelled (R100). -/
def State.writeHalf (s : State) (h : Nat) (b : List Byte) : State :=
  let s := s.wrB (0x08000000 + h * 32) b
  let s := { s with sw.scrubHold := s.sw.scrubHold.filter (fun x => x.2.1 ≠ h) }
  { s with check := SMap.set 0 s.check h (checkWord b) }

/-- Write a cell: `b` filled with zero bytes to 64. -/
def State.writeCell (s : State) (c : Nat) (b : List Byte) : State :=
  (s.writeHalf (2 * c) (slice b 0 32)).writeHalf (2 * c + 1) (slice b 32 32)

/-- Cells of a frame (R17). -/
def Frame.total (f : Frame) : Nat := (f.len + 63) / 64

/-- The destinations that have not finished with a frame. -/
def Frame.waiting (f : Frame) : List Nat := (List.range 25).filter (fun d => f.dests.getLsbD d)

/-- Return the cells that every remaining destination has read. When none remains, the rest returns at the end of the frame, and its
record goes (R107). -/
def State.releaseCells (s : State) (fid : Nat) : State :=
  match s.frame fid with
  | some f =>
    let n := f.cells.length
    let past := f.waiting.isEmpty && f.whole && s.now ≥ f.endAt + 2
    let need := if past then n else if f.waiting.isEmpty then f.freed else f.waiting.foldl (fun m d => min m (SMap.get 0 f.readBy d)) n
    let gone := (f.cells.take need).drop f.freed
    let s := s.setOcc f.inp.val (s.heldCells f.inp.val - gone.length)
    let s := { s with sw.used := SMap.dropKeys (fun k => gone.contains k) s.sw.used }
    s.setFrame fid (if past then none else some { f with freed := max f.freed need })
  | none => s

/-- A destination no longer waits for a frame. -/
def State.finishDest (s : State) (fid d : Nat) : State :=
  match s.frame fid with
  | some f => (s.setFrame fid (some { f with dests := setBit f.dests d false })).releaseCells fid
  | none => s

/-! Egress edits (R154, R155, R105, R98). -/

/-- The frame leaves toward destination `d` as it arrived: trapped outside its VLAN (R154). -/
def Frame.asIs (f : Frame) (d : Nat) : Bool := f.trap && destPort d = 22

/-- The frame leaves port `o` with a C-VLAN tag. -/
def Frame.tagOut (f : Frame) (d : Nat) : Bool := !f.asIs d && !f.untag.getLsbD (destPort d)

/-- The R-TAG number with which the frame leaves, and whether a received R-TAG is removed. -/
def Frame.rtagOut (f : Frame) (d : Nat) : Option (BitVec 16) × Bool :=
  if f.asIs d then (none, false)
  else match f.rtags with
    | some m => if m.getLsbD (destPort d) then (f.seq, f.rtag) else (none, f.rtag)
    | none => (none, false)

/-- Class and domain of a frame toward a destination: a screen copy has its own (R192). -/
def Frame.classOf (f : Frame) (d : Nat) : Fin 8 := if d = 24 then f.copyCls else f.cls
def Frame.domOf (f : Frame) (d : Nat) : Fin 16 := if d = 24 then f.copyDom else f.dom

/-- The C-VLAN tag with which a frame leaves (R154). `pcpCls`: the egress options put the class number into its PCP. -/
def Frame.tagBytes (f : Frame) (d : Nat) (pcpCls : Bool) : List Byte :=
  let pcp := if pcpCls then (f.classOf d).val else match f.pcp with
    | some v => v.toNat
    | none => (f.classOf d).val
  let dei := f.dei || f.markDei.getLsbD d
  [0x81, 0x00] ++ natBe 2 (pcp * 8192 + b2n dei * 4096 + f.vid.toNat)

/-- Set ECN to 0b11 in an IP header at offset `o`, with the IPv4 header checksum updated (R105). -/
def markEcn (ip o : Nat) (b : List Byte) : List Byte :=
  if ip = 4 then
    let old := byteAt b (o + 1)
    let new := old ||| 3
    let c := byteAt b (o + 10) * 256 + byteAt b (o + 11)
    -- RFC 1624: HC' = ~(~HC + ~m + m')
    let w := byteAt b o * 256
    let sum := (0xFFFF - c) + (0xFFFF - (w + old)) + (w + new)
    let sum := sum % 65536 + sum / 65536
    let sum := sum % 65536 + sum / 65536
    splice (splice b (o + 1) [BitVec.ofNat 8 new]) (o + 10) (natBe 2 (0xFFFF - sum))
  else splice b (o + 1) [BitVec.ofNat 8 (byteAt b (o + 1) ||| 0x30)]

/-- The frame as it leaves toward `d`, FCS excluded, from its bytes without FCS; padded to 60 bytes (R155). -/
def Frame.edit (f : Frame) (d : Nat) (pcpCls : Bool) (b : List Byte) : List Byte :=
  if f.asIs d then b
  else
    let b := if f.markEcn.getLsbD d then Machine.markEcn f.ip f.ipOff b else b
    let o := 12 + (if f.ctag then 4 else 0)
    let (rt, strip) := f.rtagOut d
    let rest := b.drop (o + (if strip then 6 else 0))
    let rtag := match rt with
      | some q => [0xF1, 0xC1, 0x00, 0x00] ++ natBe 2 q.toNat
      | none => []
    let out := b.take 12 ++ (if f.tagOut d then f.tagBytes d pcpCls else []) ++ rtag ++ rest
    fitBytes (max 60 out.length) out

/-- The frame with its FCS as it leaves toward `d`: the new FCS is derived from the carried one and the changed bytes, so a
corruption of the buffered bytes shows (R98). `raw` ends in the carried FCS. -/
def Frame.send (f : Frame) (d : Nat) (pcpCls : Bool) (raw : List Byte) : List Byte × Word :=
  let b := raw.take (f.len - 4)
  let carried := BitVec.ofNat 32 (leNat (slice raw (f.len - 4) 4))
  let out := f.edit d pcpCls b
  (out, fcsOf out ^^^ fcsOf b ^^^ carried)

/-- MACsec is on at a port (R371). -/
def State.macsecOn (s : State) (o : Nat) : Bool := o < 10 && s.param (0x0260 + o) == 1

/-- Bytes that the egress edits add to a frame, and those that they take away (R154, R155). -/
def Frame.grown (f : Frame) (d : Nat) : Nat × Nat :=
  if f.asIs d then (0, 0)
  else
    let (rt, strip) := f.rtagOut d
    ((if f.tagOut d then 4 else 0) + (if rt.isSome then 6 else 0), (if f.ctag then 4 else 0) + (if strip then 6 else 0))

/-- A frame leaves toward `d` protected: its port uses MACsec, and it is no gPTP frame, untagged as it leaves (R371, R374). -/
def State.protects (s : State) (f : Frame) (d : Nat) : Bool :=
  s.macsecOn (destPort d) && !(f.gptp && !f.tagOut d && (f.rtagOut d).1.isNone)

/-- Length of a frame as it leaves toward `d`, DA to FCS (R129, R155, R374). -/
def State.outLen (s : State) (f : Frame) (d : Nat) : Nat :=
  let (up, down) := f.grown d
  let n := f.len + up - down
  (if f.asIs d then n else max 64 n) + (if s.protects f d then 32 else 0)

/-! Queues (R103 to R106, R128, R138). -/

/-- Address of an egress-queue counter of R123. -/
def qCnt (o c off : Nat) : Nat := 0x04880000 + (8 * o + c) * 32 + off
/-- Address of an egress-queue counter of R156. -/
def txCnt (o c off : Nat) : Nat := 0x048A0000 + (8 * o + c) * 32 + off

/-- A destination fails: counted where the frame had several (R122). -/
def State.mcFail (s : State) (f : Frame) (d : Nat) : State :=
  if f.multi && d < 24 then s.portErr (destPort d) 0x190 else s

/-- Change D[o, c], keeping its peak. -/
def State.addDepth (s : State) (o c n : Nat) : State :=
  let q := s.cls o c
  (s.setCls o c { q with depth := q.depth + n }).peak (qCnt o c 0xC) (q.depth + n)

/-- Cost of a frame of `len` bytes at the weight of a domain. -/
def State.cost (s : State) (dom len : Nat) : Nat := let w := max 1 (s.param (0x0410 + dom)); (len * 64 + w - 1) / w

/-- Bytes around a frame on the wire: preamble, SFD and gap; none on P22 and P23. -/
def overhead (o : Nat) : Nat := if o < 22 then 20 else 0

/-- Charge `len` bytes of a class to its credit (R136, R137). -/
def State.chargeCredit (s : State) (o c : Nat) (len : Int) : State :=
  if s.shaper o c = 1 then let q := s.cls o c; s.setCls o c { q with credit := q.credit - len * 8 * 256 } else s

/-- The frame of a destination, as the port rate limit tells it from others. -/
def limitKey (fid d : Nat) : Option Nat := some (fid * 32 + d)

/-- The instant, in 2⁻¹⁶ cycles, before which a frame of `len` bytes that begins in cycle `t` keeps the port from beginning another
(R140). -/
def State.limitEnd (s : State) (o len t : Nat) : Nat :=
  let lim := s.inForce (0x0480 + o)
  if lim = 0 then 0 else t * 65536 + ((len + overhead o) * 6400 * 65536 + lim - 1) / lim

/-- Charge the port rate limit for a frame of `len` bytes as sent that begins in cycle `t` (R140). A second charge for the
frame `key`, with the bytes that it sent in the end, replaces the first. -/
def State.chargeLimit (s : State) (o : Nat) (key : Option Nat) (len t : Nat) : State :=
  if s.inForce (0x0480 + o) = 0 then s
  else
    let e := s.egr o
    let past := e.limits.filter (fun x => s.now * 65536 < x.2 && (key.isNone || x.1 != key))
    s.setEgr o { e with limits := past ++ [(key, s.limitEnd o len t)] }

/-- Take from D[o, c]. -/
def State.subDepth (s : State) (o c n : Nat) : State := let q := s.cls o c; s.setCls o c { q with depth := q.depth - n }

/-- Place an item in a leaf by its enqueue cycle, then by the port order of its input (R103). -/
def insertItem (inp : Nat → Nat) (x : LeafItem) : List LeafItem → List LeafItem
  | [] => [x]
  | y :: r => if x.enq < y.enq || (x.enq = y.enq && inp x.fid < inp y.fid) then x :: y :: r else y :: insertItem inp x r

/-- Link a frame into the leaf of destination `d`. A leaf that leaves Idle starts at the present virtual time (R129). -/
def State.pushLeaf (s : State) (o c dom : Nat) (x : LeafItem) : State :=
  let l := s.leaf o c dom
  let l := if l.items.isEmpty then { l with s := (s.cls o c).v } else l
  let inp := fun fid => match s.frame fid with | some f => f.inp.val | none => 0
  s.setLeaf o c dom { l with items := insertItem inp x l.items }

/-- The next cell of a frame enters the queues of the destinations at which the frame has been enqueued (R91, R103). It comes out of
the reservation of its input. -/
def State.cellIn (s : State) (a : Arrival) : State :=
  match s.frame a.fid with
  | none => s
  | some f =>
    let k := f.cells.length
    let (c, s) := s.takeCell
    let s := s.writeCell c (slice a.buf (64 * k) 64)
    let s := s.setOcc f.inp.val (s.heldCells f.inp.val + 1)
    let s := s.setFrame a.fid (some { f with cells := f.cells ++ [c], whole := decide (k + 1 ≥ f.total) })
    f.waiting.foldl (fun s d => if f.queued.getLsbD d then s.addDepth (destPort d) (f.classOf d).val 1 else s) s

/-- `n` cells of a frame at once. -/
def State.cellsIn : Nat → State → Arrival → State
  | 0, s, _ => s
  | n + 1, s, a => State.cellsIn n (s.cellIn a) a

/-- The eligibility of a frame under the asynchronous shaper; none: the destination is removed (R138). -/
def State.atsEligibility (s : State) (o c lenBytes endAt : Nat) : Option Nat × State :=
  let q := s.cls o c
  let rate := max 1 (s.clsRate o c)
  let unit : Int := 65536
  let recov : Int := ((lenBytes * 8 * 800000 * 65536 / rate : Nat) : Int)
  let e2f : Int := ((s.clsBurst o c * 800000 * 65536 / rate : Nat) : Int)
  let sched := q.atsBucket + recov
  let full := q.atsBucket + e2f
  let arr : Int := (endAt : Int) * unit
  let elig := max arr (max q.atsGroup sched)
  let lim : Int := ((s.clsMaxRes o c * 65536 * 4 / 5 : Nat) : Int)
  if elig ≤ arr + lim then
    let q := { q with atsGroup := elig, atsBucket := if elig < full then sched else sched + elig - full }
    (some ((elig + unit - 1) / unit).toNat, s.setCls o c q)
  else (none, s.bump (txCnt o c 0x18))

/-- The marking of a frame at destination port `o` (R105): ECN, or DEI. -/
def State.marking (s : State) (f : Frame) (prof d : Nat) : Bool × Bool :=
  let opt := s.paramFor f.first (0x0190 + prof)
  if (f.ip = 4 || f.ip = 6) && (f.ecn = 1 || f.ecn = 2) && bit opt 0 then (true, false)
  else (false, f.tagOut d && bit opt 1 && !f.dei)

/-- Enqueue a frame for one destination in the present cycle (R104). -/
def State.enqueue (s : State) (fid d : Nat) : State :=
  match s.frame fid with
  | none => s
  | some f =>
    let o := destPort d
    let c := (f.classOf d).val
    let (elig, ok, s) :=
      if s.shaper o c = 2 then
        let (e, s) := s.atsEligibility o c (s.outLen f d) f.endAt
        (e, e.isSome, s)
      else (none, true, s)
    if !ok then s.finishDest fid d
    else
      let prof := bits (s.paramFor f.first (0x0160 + o)) (3 * c + 2) (3 * c)
      if !s.linkUp o then ((s.bump (qCnt o c 0x1C)).mcFail f d).finishDest fid d
      else if (s.cls o c).depth ≥ s.paramFor f.first (0x0188 + prof) then ((s.bump (qCnt o c 0x14)).mcFail f d).finishDest fid d
      else
        let (me, md) := if (s.cls o c).depth ≥ s.paramFor f.first (0x0180 + prof) then s.marking f prof d else (false, false)
        let s := if me || md then s.bump (qCnt o c 0x10) else s
        let s := s.setFrame fid (some { f with queued := setBit f.queued d true, markEcn := setBit f.markEcn d me, markDei := setBit f.markDei d md })
        let s := (s.add64 (qCnt o c 0) 1).addDepth o c f.cells.length
        s.pushLeaf o c (f.domOf d).val { fid := fid, dest := d, enq := s.now, elig := elig, act := elig.isNone }

/-- The start tag of a leaf that is Active: it is never below V, so that a leaf that has waited for eligibility gains nothing (R129, R130; DEDUCED,
log entry 51). -/
def State.startTag (s : State) (o c d : Nat) : Word :=
  let v := (s.cls o c).v
  let t := (s.leaf o c d).s
  if (t - v).toInt < 0 then v else t

/-- A destination gives a frame up: D loses the cells that it has not read, its pull ends, and the frame waits for it no more (R103,
R107). -/
def State.abandon (s : State) (fid d : Nat) : State :=
  match s.frame fid with
  | none => s
  | some f =>
    let s := if f.queued.getLsbD d then s.subDepth (destPort d) (f.classOf d).val (f.cells.length - SMap.get 0 f.readBy d) else s
    { s with fab.pulls := s.fab.pulls.filter (fun p => !(p.fid = fid && p.dest = d)) }.finishDest fid d

/-- Take a waiting frame out of its leaf. -/
def State.unlink (s : State) (f : Frame) (fid d : Nat) : State :=
  let o := destPort d
  let l := s.leaf o (f.classOf d).val (f.domOf d).val
  s.setLeaf o (f.classOf d).val (f.domOf d).val { l with items := l.items.filter (fun x => !(x.fid = fid && x.dest = d)) }

/-- Remove a queued frame from one destination, with the queue counter at `off` (R106). -/
def State.unqueue (s : State) (fid d off : Nat) : State :=
  match s.frame fid with
  | none => s
  | some f => (((s.unlink f fid d).bump (qCnt (destPort d) (f.classOf d).val off)).mcFail f d).abandon fid d

/-- Every item that waits at a port: frame and destination. -/
def State.portItems (s : State) (o : Nat) : List LeafItem :=
  (s.sw.leaves.filter (fun e => e.1 / 128 = o)).flatMap (fun e => e.2.items)

/-- The first bit of the frame has left the MAC. -/
def TxFrame.left (x : TxFrame) : Bool := x.begun || x.preempted

/-- The frames that a port has selected and not sent, in their order. -/
def Egress.chosen (e : Egress) : List TxFrame := e.tx.toList ++ e.next

/-- The record of the frame that a port has selected or is sending. -/
def State.txFrame (s : State) (x : TxFrame) : Frame := (s.frame x.fid).getD x.frame

/-- The start tag of a leaf is corrected by the cost of a frame of `len` bytes less the `cost` that its selection charged, and then raised
to V (R129). -/
def State.correctLeaf (s : State) (o c dom cost len : Nat) : State :=
  let l := s.leaf o c dom
  let v := (s.cls o c).v
  let x := l.s + BitVec.ofInt 32 (((s.cost dom len : Nat) : Int) - ((cost : Nat) : Int))
  s.setLeaf o c dom { l with s := if (x - v).toInt < 0 then v else x }

/-- Correct the start tag for a frame whose selection charged MAXF (R129). -/
def State.correctTx (s : State) (o : Nat) (x : TxFrame) (len : Nat) : State :=
  if x.known then s else s.correctLeaf o x.cls.val x.dom.val x.cost len

/-- Bytes of the present frame that have left by cycle `t`. -/
def State.bytesOut (s : State) (o : Nat) (x : TxFrame) (t : Nat) : Nat :=
  x.sent + (if x.begun then (t - x.tau) * s.lineRate o / 6400 - (if o < 22 then 8 else 0) else 0)

/-- The link of an output goes down: it is removed from every frame in its queues, and from a frame that it has selected
and not begun (R106). A frame in transmission is lost. -/
def State.dropPortQueues (s : State) (o : Nat) : State :=
  let s := (s.portItems o).foldl (fun s x => s.unqueue x.fid x.dest 0x1C) s
  let e := s.egr o
  let s := (e.chosen ++ e.held.toList).foldl (fun s x =>
    -- what TX_FRAMES has counted counts in TX_BYTES as far as it was sent (R156)
    let s := if x.left then s.add64 (txCnt o x.cls.val 8) (min (s.outLen (s.txFrame x) x.dest) (s.bytesOut o x s.now))
      else (s.bump (qCnt o x.cls.val 0x1C)).mcFail x.frame x.dest
    (s.correctTx o x (s.outLen (s.txFrame x) x.dest)).abandon x.fid x.dest) s
  s.setEgr o { s.egr o with tx := none, next := [], held := none, plca := { (s.egr o).plca with wait := none } }

end Sys2Proof.Machine
end

