-- ==== Sys2Proof/Machine/Ingress.lean ====
section
/-! DEFINITION. The ingress pipeline: parse, stream identification, screen, lookup, replication and elimination, class
assignment and cell split, and the check of millrace candidates (R68 to R94, R102, R118 to R120, R165 to R173).
A command begins the arrival of a frame; its stages and its end take effect in the cycles that the rules give them, by `ingressTick`
(log entry 12). -/

namespace Sys2Proof.Machine

/-- Ingress option `i` of a port (R94). -/
def State.inOpt (s : State) (p i : Nat) : Bool := s.paramBit (0x02C0 + p) i

/-- Two bucket numbers of `w` bits from the CRC-32C of an input (R77, R83). -/
def twoBuckets (w : Nat) (input : List Byte) : Nat × Nat :=
  let c := crc32c input
  let b0 := c % 2 ^ w
  let b1 := c / 2 ^ w % 2 ^ w
  (b0, if b1 = b0 then b0 ^^^ 1 else b1)

/-- The eight places of two buckets of four, b0 first. -/
def bucketPlaces (b : Nat × Nat) : List Nat := (List.range 4).map (b.1 * 4 + ·) ++ (List.range 4).map (b.2 * 4 + ·)

/-! Stream identification (R75 to R78). -/

/-- Address of a stream entry. -/
def streamAddr (i : Nat) : Nat := 0x04000000 + i * 64

/-- The key bits of a method; tag mode and reserved bits are none of them. -/
def streamMask (m : Nat) : Nat := if m = 2 then (2 ^ 303 - 1) + (2 ^ 12 - 1) * 2 ^ 304 else 2 ^ 60 - 1

/-- The buckets of a key (R77). -/
def streamBuckets (m key : Nat) : Nat × Nat := twoBuckets 12 (BitVec.ofNat 8 m :: natLe 40 key)

/-- The key of a frame for a method, if the method applies to it (R76, R78). The first byte of DST_IP and SRC_IP on the wire is the lowest of
its field, as R78 states for MAC (DESIGN CHOICE, log entry 51). -/
def State.streamKey (s : State) (m : Nat) (p : Parsed) (vid : Nat) : Option Nat :=
  if m = 0 then some (leNat p.da + kf 48 vid)
  else if m = 1 then some (leNat p.sa + kf 48 vid)
  else
    let mask := s.param 0x0302
    if p.ip = 0 || (p.frag && mask % 4 ≠ 0) then none
    else some (leNat p.dst + kf 128 (leNat p.src) + (if bit mask 0 then kf 256 p.sport else 0) +
      (if bit mask 1 then kf 272 p.dport else 0) + kf 288 p.proto + (if bit mask 2 then kf 296 p.dscp else 0) +
      kf 302 (if p.ip = 6 then 1 else 0) + kf 304 vid)

/-- The stream entry that a method finds: 512 bits. -/
def State.streamFind (s : State) (m port : Nat) (p : Parsed) (vid : Nat) (tagged : Bool) : Option Nat :=
  if !s.paramBit 0x0301 m then none
  else match s.streamKey m p vid with
    | none => none
    | some key =>
      ((bucketPlaces (streamBuckets m key)).map (fun i => s.rd (streamAddr i) 64)).find? (fun e =>
        let tm := if m = 2 then bits e 317 316 else bits e 61 60
        bit e 320 && bits e 322 321 == m && bit e (328 + port) && e &&& streamMask m == key &&
        (if tm = 0 then tagged else if tm = 1 then !tagged else tm == 2))

/-- The stream entry of a frame: method 2, then 1, then 0 (R75). -/
def State.streamLookup (s : State) (port : Nat) (p : Parsed) (vid : Nat) (tagged : Bool) : Option Nat :=
  [2, 1, 0].findSome? (fun m => s.streamFind m port p vid tagged)

/-- A per-stream counter (R93). -/
def streamCnt (handle off : Nat) : Nat := 0x04800000 + handle * 16 + off

/-! Forwarding lookup and learning (R82 to R85). -/

/-- The places of an address in the MAC table (R83). -/
def macPlaces (mac : List Byte) (fid : Nat) : List Nat := bucketPlaces (twoBuckets 13 (mac ++ natLe 2 fid))

/-- A MAC-table entry: 128 bits. -/
def State.macEntry (s : State) (i : Nat) : Nat := s.rd (macAddr i) 16

/-- The index of the entry of (address, FID). -/
def State.macFind (s : State) (mac : List Byte) (fid : Nat) : Option Nat :=
  (macPlaces mac fid).find? (fun i => let e := s.macEntry i; bit e 88 && bits e 47 0 == leNat mac && bits e 59 48 == fid)

/-- The VLAN entry of a VID: 128 bits. -/
def State.vlan (s : State) (vid : Nat) : Nat := s.rd (0x04180000 + vid * 16) 16

/-- An object writes MAC entry `i` in this cycle: a learning write to it yields (R310). -/
def State.macTaken (s : State) (i : Nat) : Bool := s.host.lastEntry == some (s.now, 2, i)

/-- Learn a source address at the end of a frame (R84). -/
def State.learn (s : State) (p : Nat) (sa : List Byte) (fid : Nat) : State :=
  let fresh := leNat sa + kf 48 fid + kf (64 + p) 1 + kf 88 1
  match s.macFind sa fid with
  | some i =>
    let e := s.macEntry i
    if bit e 89 || s.macTaken i then s
    else if bit e (64 + p) then
      if bits e 99 96 = 0 then s else s.wr (macAddr i) 16 (e - kf 96 (bits e 99 96))
    else ((s.wr (macAddr i) 16 (e - kf 64 (bits e 87 64) - kf 96 (bits e 99 96) + kf (64 + p) 1)).portErr p 0x0138).mirrorMac i
  | none =>
    let pl := macPlaces sa fid
    let free := fun (l : List Nat) => l.filter (fun i => !bit (s.macEntry i) 88)
    let l := if (free (pl.take 4)).isEmpty then free (pl.drop 4) else free (pl.take 4)
    if l.isEmpty then s.portErr p 0x0134
    else
      -- which of several free places of the bucket is taken is open (log entry 38)
      let (x, s) := s.draw
      let i := l.getD (x % l.length) 0
      if s.macTaken i then s else (s.wr (macAddr i) 16 fresh).mirrorMac i

/-! Frame replication and elimination (R86 to R88). -/

/-- A counter of a recovery function (R93). -/
def recovCnt (i off : Nat) : Nat := 0x04840000 + i * 32 + off

/-- Pass a frame through a recovery function at the end of the frame (R87). -/
def State.recover (s : State) (i : Nat) (seq : Option (BitVec 16)) : Bool × State :=
  let cfg := s.rd (0x04190000 + i * 16) 4
  match seq with
  | none => (true, s.bump (recovCnt i 0x18))
  | some q =>
    if !bit cfg 0 then (true, s.bump (recovCnt i 0x18))
    else
      let r := s.recov i
      let len := bits cfg 8 3
      let pass := fun (x : Recov) (s : State) => (true, (s.setRecov i { x with timer := some s.now }).bump (recovCnt i 0))
      let first := { r with takeAny := false, seq := q, hist := 1 }
      if bit cfg 1 then
        if r.takeAny || q ≠ r.seq then pass { first with hist := r.hist } s else (false, s.bump (recovCnt i 4))
      else if r.takeAny then pass first s
      else
        let delta := (q - r.seq).toInt
        if delta ≥ len || delta ≤ -(len : Int) then (false, s.bump (recovCnt i 0xC))
        else if delta > 0 then
          let d := delta.toNat
          let lost := ((List.range len).filter (fun b => len - d ≤ b && !r.hist.getLsbD b)).length
          let hist := BitVec.ofNat 32 ((r.hist.toNat * 2 ^ d + 1) % 2 ^ len)
          pass { r with seq := q, hist := hist } (s.bumpBy (recovCnt i 0x10) lost)
        else
          let b := (-delta).toNat
          if r.hist.getLsbD b then (false, s.bump (recovCnt i 4))
          else pass { r with hist := setBit r.hist b true } (s.bump (recovCnt i 8))

/-! The head of the pipeline: stages 1 to 6. -/

/-- The frame carried a C-VLAN tag of VID 1 to 4,094 (R71). -/
def Parsed.tagged (p : Parsed) : Bool := match p.ctag with | some (_, _, v) => decide (1 ≤ v ∧ v ≤ 4094) | none => false

/-- DA is one of the reserved addresses of R74. -/
def Parsed.reserved (p : Parsed) : Bool := p.da.take 5 == [0x01, 0x80, 0xC2, 0x00, 0x00] && byteAt p.da 5 < 16

/-- Stage 4: destinations, drop counter, trap, FID for learning (R74, R82, R83, R350). A trap adds P22 also to a frame that came from P22
(DESIGN CHOICE: R82 does not say; log entry 51), and where P22 is in the set by MEMBERS already the frame is not there by a trap, so that R90 lets
it be cut through (DESIGN CHOICE, log entry 51). A locked port drops a frame of a static station
of another port whether or not the frame is a source for learning (DESIGN CHOICE: R84 lists the drop under learning; log entry 51). -/
def State.forward (s : State) (port : Nat) (p : Parsed) (vid : Nat) (entry : Option Nat) : Head :=
  let v := s.vlan vid
  let members := bits v 23 0
  let fid := bits v 75 64
  -- the learning request of this stage, which a drop by the stage itself does not take back (R68, R84)
  let learn := if s.inOpt port 3 && bit v 24 && bit v 25 && !bit (byteAt p.sa 0) 0 && !p.reserved && !s.secondary then some fid else none
  let h := { Head.drop 0 with learn := learn, untag := bits v 55 32, dom := if bit v 60 then bits v 59 56 else 16 }
  if p.reserved then
    let last := byteAt p.da 5
    if last = 0x0E && (p.etype = 0x88F7 || p.etype = 0x88CC) then
      { h with dests := 2 ^ 22, trap22 := true, asIs := !(bit v 24 && bit members 22), several := true }
    else if last = 1 && p.etype = 0x8808 then { h with dropped := 4, count := 0x0128 }
    else { h with dropped := 4, count := 0x0124 }
  else if !bit v 24 || (s.inOpt port 2 && !bit members port) then { h with dropped := 4, count := 0x0120 }
  else
    let src := (s.macFind p.sa fid).map s.macEntry
    let locked := match src with
      | some e => bit e 91 || (bit e 89 && s.inOpt port 7 && !bit e (64 + port))
      | none => false
    if locked then { h with dropped := 4, count := 0x013C }
    else
      let group := bit (byteAt p.da 0) 0
      let out := match entry with | some e => if bit e 472 then some (bits e 471 448) else none | none => none
      let hit := if out.isSome || leNat p.da = 2 ^ 48 - 1 then none else (s.macFind p.da fid).map s.macEntry
      let cand := match out, hit with
        | some x, _ => x
        | none, some e => bits e 87 64
        | none, none =>
          if leNat p.da = 2 ^ 48 - 1 then members
          else if group then (if bit v 27 then members else 0)
          else (if bit v 26 then members else 0)
      let set := cand &&& members &&& ((2 ^ 24 - 1) ^^^ 2 ^ port)
      let trap := match hit with | some e => bit e 90 && !bit set 22 | none => false
      let set := if trap then set ||| 2 ^ 22 else set
      let h := { h with trap22 := trap, several := out.isSome || group || hit.isNone || trap }
      if set = 0 then { h with dropped := 4, count := 0x0130 }
      else
        let prot := p.rtag.isSome || (match entry with | some e => bit e 416 || bit e 428 | none => false)
        let set' := if s.secondary && !prot then set &&& 0xC00000 else set
        if set' = 0 then { h with dropped := 4, count := 1 } else { h with dests := set' }

/-- Stage 6: class and domain (R74, R89). -/
def State.classOf (s : State) (port : Nat) (p : Parsed) (h : Head) (dcls ddom : Nat) : Nat × Nat :=
  if p.reserved then (7, s.param (0x0320 + 22) % 16)
  else
    let e := h.entry.getD 0
    let cls := match h.verdict.cls with
      | some c => c
      | none =>
        if h.entry.isSome && bit e 400 then bits e 399 397
        else if p.ip ≠ 0 && s.inOpt port 6 then s.param (0x0380 + p.dscp)
        else match p.ctag with
          | some (pcp, _, _) => bits (s.param (0x02E0 + port)) (3 * pcp + 2) (3 * pcp)
          | none => if port ≥ 22 then dcls else s.param (0x0340 + port)
    let dom := match h.verdict.dom with
      | some d => d
      | none =>
        if h.entry.isSome && bit e 405 then bits e 404 401
        else if h.dom < 16 then h.dom
        else if port ≥ 22 then ddom
        else s.param (0x0320 + port)
    (cls % 8, dom % 16)

/-- Count a drop by stage 4. -/
def State.countDrop (s : State) (port count : Nat) : State :=
  if count = 0 then s else if count = 1 then s.bump (mirReg 0x30) else s.portErr port count

/-- The length that a meter charges (R190): that of a frame whose last byte has arrived by the charge, else the length that its
IP header states, else MAX_SDU of its stream, else the maximum frame size of its port. `a` is the frame as it arrives. -/
def State.chargeLen (s : State) (a : Arrival) (p : Parsed) (entry : Option Nat) (arrived : Bool) : Nat :=
  let sdu := match entry with | some e => bits e 381 368 | none => 0
  if arrived then a.raw.length
  else if p.ip ≠ 0 then p.ipTotal + a.off + 4
  else if sdu ≠ 0 then sdu
  else s.param (0x0280 + a.port.val)

/-- The frame is longer than MAX_SDU of its stream (R80). -/
def Head.tooLong (h : Head) (len : Nat) : Bool :=
  match h.entry with | some e => decide (bits e 381 368 ≠ 0) && decide (len > bits e 381 368) | none => false

/-- A frame is cut-through eligible toward port `o` (R90, R139). -/
def State.cutOk (s : State) (port o : Nat) (p : Parsed) (h : Head) : Bool :=
  port < 22 && s.inOpt port 4 && (!(port < 10 && s.param (0x0260 + port) == 1) || s.inOpt port 5) &&
  s.lineRate port ≥ s.lineRate o && !p.trunc && !(o == 22 && h.trap22) && s.shaper o h.cls != 2 &&
  (match h.entry with | some e => !bit e 406 && !bit e 428 | none => true)

/-! Frames found bad (R119, R120). -/

/-- A destination acts on a frame found bad (R120): one that waits or that has not sent its first bit discards it, one that has begun it
stomps it at its end. The cost of a frame that its port had selected becomes that of `len`, its length as received (R129). -/
def State.badAt (s : State) (fid d len : Nat) : State :=
  match s.frame fid with
  | none => s
  | some f =>
    let o := destPort d
    let e := s.egr o
    let mine := fun (x : TxFrame) => x.fid = fid && x.dest = d
    if !f.dests.getLsbD d then s
    else if !f.queued.getLsbD d then (s.portErr o 0x018C).finishDest fid d
    else match (e.tx.toList ++ e.next ++ e.held.toList).find? mine with
      | some x =>
        if x.left then s
        else
          let s := s.setEgr o { e with tx := e.tx.filter (fun x => !mine x), next := e.next.filter (fun x => !mine x) }
          ((s.portErr o 0x018C).correctLeaf o x.cls.val x.dom.val x.cost len).abandon fid d
      | none => ((s.unlink f fid d).portErr o 0x018C).abandon fid d

/-- A frame is found bad: its record says so, and each of its destinations acts on its own (R119, R120). -/
def State.foundBad (s : State) (fid len : Nat) : State :=
  match s.frame fid with
  | none => s
  | some f => f.waiting.foldl (fun s d => s.badAt fid d len) (s.setFrame fid (some { f with bad := true }))

/-! Millrace candidates (R165 to R173). -/

/-- The windows whose arrival interval is open on input `p` as a preamble begins in cycle `t`. -/
def State.candWindows (s : State) (p t : Nat) : List Nat :=
  (List.range 20).filter (fun o => match (s.mill o).opened with
    | some w => w.win.inPort == p && !w.candidate && w.openedAt ≤ t && t < w.openedAt + nsCycles w.win.arrive
    | none => false)

/-- The frame arrives at an external port. -/
def Arrival.ext (a : Arrival) : Bool := a.port.val < 22

/-- Cycle in which its byte `n`, counted from 1, is complete: 8 bytes of preamble precede it at an external port (R167). -/
def Arrival.byteAt (a : Arrival) (n : Nat) : Nat := a.pre + byteCycles (n + (if a.ext then 8 else 0)) a.rate

/-- The bytes that leave Po for a candidate stomped by a failure known in cycle `t` (R172). One that the fall of a link has cut has no FCS
byte to replace. -/
def stompCand (a : Arrival) (t : Nat) : List Byte :=
  let b := a.raw
  let n := ((List.range b.length).filter (fun j => a.byteAt (j + 1) + 4 ≤ t)).length
  if a.fell || n + 3 < b.length then
    let out := fitBytes (max n 60) (b.take n)
    out ++ natLe 4 (0xFFFFFFFF - (fcsOf out).toNat)
  else
    let body := b.take (b.length - 4)
    let n := min n (b.length - 1)
    b.take n ++ (natLe 4 (0xFFFFFFFF - (fcsOf body).toNat)).drop (n - (b.length - 4))

/-- The counter of Po for a cause. -/
def candCounter (k : Nat) : Nat :=
  match k with | 2 => 0x24C | 5 => 0x250 | 6 => 0x254 | 7 => 0x258 | _ => 0x248

/-- What a window makes of its candidate: the frame that leaves Po, the counters and the end of the candidate. `fail`: cause of the failure
and the cycle in which it is known. -/
def State.finishCand (s : State) (o : Nat) (fail : Option (Nat × Nat)) (a : Arrival) : State :=
  let x := s.mill o
  match x.opened with
  | none => s
  | some w =>
    let (out, s) := match fail with
      | none =>
        let s := s.add64 (portReg o 0x240) 1
        (a.raw, if w.win.ownSet then s.bump (windowCnt o w.win.idx 0) else s)
      | some (k, t) =>
        let s := ((s.portErr o 0x0180).portErr o (candCounter k))
        let s := { s with dw.mrSum := setBit s.dw.mrSum o true }
        (stompCand a t, if w.win.ownSet then s.bump (windowCnt o w.win.idx 4) else s)
    let s := ({ s with sw.wire := SMap.set [] s.sw.wire o out }).chargeLimit o none out.length (a.pre + 4)
    let last := match fail with | some (_, t) => t + 1 + byteCycles 12 a.rate | none => 0
    s.setMill o { s.mill o with opened := some { w with candTo := a.stop, candEnd := max (a.byteAt (out.length + 12) + 4) last } }

/-! The frames that arrive. -/

/-- A frame that arrives. -/
def State.arr (s : State) (fid : Nat) : Option Arrival := s.sw.arriving.find? (fun a => a.fid = fid)
def State.putArr (s : State) (a : Arrival) : State :=
  { s with sw.arriving := s.sw.arriving.map (fun x => if x.fid = a.fid then a else x) }
def State.dropArr (s : State) (fid : Nat) : State := { s with sw.arriving := s.sw.arriving.filter (fun x => x.fid ≠ fid) }

/-- Shorter than 64 bytes at an external port; a frame cut by the fall of its link is none (R73). -/
def Arrival.runt (a : Arrival) : Bool := a.ext && a.raw.length < 64 && !a.fell

/-- Its FCS is wrong (R73). -/
def Arrival.fcsBad (a : Arrival) : Bool :=
  a.ext && leNat (a.raw.drop (a.raw.length - 4)) ≠ (fcsOf (a.raw.take (a.raw.length - 4))).toNat

/-- Its MAC finds an error in it (R73): P22 and P23 check the length alone. A candidate that is a runt fails by it with cause 6, at its last
byte (DESIGN CHOICE: R170 names no cause for it; log entry 51). -/
def Arrival.macBad (a : Arrival) : Bool := a.past || (a.ext && (a.code || a.runt || a.fcsBad))

/-- The frame without its FCS, as the stages see it. -/
def Arrival.body (a : Arrival) : List Byte := a.buf.take (a.buf.length - 4)

/-- What the parser takes from it. -/
def Arrival.parsed (a : Arrival) : Parsed := parseFrame a.body a.buf.length

/-- Cycle in which cell `k` of the frame for the buffer is complete. The last cell of a frame behind MACsec waits for the ICV. -/
def Arrival.cellAt (a : Arrival) (k : Nat) : Nat :=
  if 64 * (k + 1) ≥ a.buf.length then a.stop else a.byteAt (64 * (k + 1) + a.off)

/-- Cycle in which a frame is enqueued where it is not cut through (R118). -/
def Arrival.storeAt (a : Arrival) : Nat := max (a.stop + 2) (a.hdr + 28)

/-- Cycle in which its first cell is enqueued where it is cut through (R91). -/
def Arrival.cutAt (a : Arrival) : Nat := max (a.hdr + 28) (a.cellAt 0 + 1)

/-- The candidate of a window fails by a cause, at once (R170): the first cause to become known. -/
def State.candFail (s : State) (a : Arrival) (k : Nat) : State :=
  match a.cand with
  | some o => if a.decided then s else
      (s.putArr { a with fail := some (k, s.now), decided := true }).finishCand o (some (k, s.now)) a
  | none => s

/-- The candidate is found bad in this cycle, by cause 6, or by cause 5 where byte MAX_LEN + 1 completes in it too or has (R170). -/
def State.candBad (s : State) (a : Arrival) : State :=
  let long := match a.cand with
    | some o => (match (s.mill o).opened with
      | some w => decide (a.raw.length > w.win.maxLen) && decide (a.byteAt (w.win.maxLen + 1) ≤ s.now)
      | none => false)
    | none => false
  s.candFail a (if long then 5 else 6)

/-- As `candFail`, while the stages of the frame go on. -/
def State.candCheck (s : State) (a : Arrival) (bad : Bool) (k : Nat) : State := if bad then s.candFail a k else s

/-! Steps of the head: what each stage does in its cycle (R68, R91, R193). -/

/-- The first byte arrives: the frame is cut where it exceeds the maximum size, and admitted or refused (R73, R102). -/
def State.admitStep (s : State) (a : Arrival) : State :=
  let p := a.port.val
  let macsec := s.macsecOn p
  let maxF := s.param (0x0280 + p) + (if macsec && be16 a.raw 12 = 0x88E5 then 32 else 0)
  let past := a.raw.length > maxF
  let a := if past then { a with raw := a.raw.take (maxF + 1), past := true, stop := a.byteAt (maxF + 1) } else a
  let ok := a.admitted || s.admits p
  let s := if ok then s else s.portErr p 0x0144
  let quiet := (!ok || a.runt) && a.cand.isNone
  let opens := if !macsec then a.start else if s.inOpt p 5 then min a.stop (a.byteAt 28) else a.stop
  let a := { a with admitted := ok, resv := if ok then s.reserve p else 0, quiet := quiet, hs := if quiet then 14 else 1, hdr := opens,
                    ts := s.portStamp 0x0540 p }
  let s := (s.putArr a).notePeaks p
  match a.cand with
  | some o => match (s.mill o).opened with
    | some w => if a.decided then s else
        s.setMill o { s.mill o with opened := some { w with candTo := a.stop, candEnd := a.byteAt (a.raw.length + 12) + 4 } }
    | none => s
  | none => s

/-- A stage drops the frame: its reservation returns at once, unless a copy needs the cells (R68, R102). The learning request is a result of stage
4 and outlives its own drop (R84; DEDUCED, log entry 51). -/
def Arrival.dropBy (a : Arrival) (k : Nat) : Arrival :=
  { a with head := { a.head with dropped := k, learn := if k = 4 then a.head.learn else none }, resv := if a.head.verdict.copied then a.resv else 0 }

/-- Stage 1 ends (R69 to R72), and stage 2 begins (R75). -/
def State.parseStep (s : State) (a : Arrival) : State :=
  let p := a.port.val
  let x := a.parsed
  let s := if x.trunc then s.portErr p 0x0140 else s
  let acc := s.param (0x02C0 + p) % 4
  let bad := match x.ctag with | some (_, _, v) => v == 4095 | none => false
  if bad || (acc = 1 && !x.tagged) || (acc = 2 && x.tagged) then
    let a := { (a.dropBy 1) with hs := 13 }
    ((s.portErr p 0x0120).putArr a).candCheck a true 1
  else
    let vid := match x.ctag with
      | some (_, _, v) => if x.tagged then v else s.param (0x02A0 + p)
      | none => s.param (0x02A0 + p)
    s.putArr { a with head := { a.head with vid := vid, entry := s.streamLookup p x vid x.tagged }, hs := 3 }

/-- Stage 2 ends: the stream is known (R75, R92, R93, R170). -/
def State.streamStep (s : State) (a : Arrival) : State :=
  let a := { a with hs := 4 }
  let handle := a.head.entry.map (fun e => bits e 365 352)
  let s := match handle with
    | some h => (s.add64 (portReg a.port.val 0x0148) 1).add64 (streamCnt h 0) 1
    | none => s
  let other := match a.cand with
    | some o => match (s.mill o).opened with
      | some w => handle != some w.win.handle
      | none => false
    | none => false
  (s.putArr a).candCheck a other 1

/-- The screen key of the frame (R178, R179). -/
def Arrival.key (a : Arrival) : Nat := frameKey a.port.val a.parsed (a.head.entry.map (fun e => bits e 365 352)) a.head.vid

/-- Cycle in which the lookup of stage 3 begins: cycle 0 of R193. -/
def Arrival.lookupAt (a : Arrival) : Nat := a.hdr + 8

/-- Stage 4 looks up the destinations, and stage 3 matches the rules of the active bank, in its cycle 1 (R82, R193). -/
def State.lookupStep (s : State) (a : Arrival) : State :=
  let h := s.forward a.port.val a.parsed a.head.vid a.head.entry
  s.asOf a.lookupAt (fun s =>
    s.putArr { a with head := { h with vid := a.head.vid, entry := a.head.entry, act := some (s.judgeKey a.port.val a.key) }, hs := 5 })

/-- The rule that stage 3 has matched, and its action. -/
def Arrival.matched (a : Arrival) : Option Nat × Nat := a.head.act.getD (none, 0)

/-- The matching rule is known: its hit counts, in cycle 5 (R193). -/
def State.hitStep (s : State) (a : Arrival) : State := (s.putArr { a with hs := 6 }).countHit a.matched

/-- Disposition and require-state are decided, in cycle 8 (R193; DESIGN CHOICE among cycles 6 to 8, log entry 47). -/
def State.disposeStep (s : State) (a : Arrival) : State :=
  s.asOf a.lookupAt (fun s =>
    let (cause, s) := s.dispose a.matched a.port.val a.key
    s.putArr { a with head := { a.head with cause := cause }, hs := 7 })

/-- Stage 4 ends: the destination set is known (R170). -/
def State.destStep (s : State) (a : Arrival) : State :=
  let a := { a with hs := 8 }
  let other := match a.cand with | some o => !bit a.head.dests o || a.head.dropped ≠ 0 | none => false
  (s.putArr a).candCheck a other 3

/-- Stage 3 charges the meters (R183, R190, R193). The charge falls in one of the cycles 9 to 11 of the stage; which of them is open (log
entry 47). -/
def State.chargeStep (s : State) (a : Arrival) : State :=
  let (arrived, s) :=
    if a.stop + 1 ≤ s.now then (true, s) else if a.stop > s.now + 1 then (false, s)
    else (Config.freeNat s.fresh % 2 = 1, s.draw.2)
  let e := a.head.entry
  let sm := match e with | some e => if bit e 396 then some (bits e 395 384) else none | none => none
  let len := s.chargeLen a a.parsed e arrived
  let (cause, s) := s.chargeUnit a.matched.2 a.head.cause len sm
  s.putArr { a with head := { a.head with cause := cause, length := len }, hs := 9 }

/-- The connection entry is created or updated, in cycle 12 (R193). -/
def State.connStep (s : State) (a : Arrival) : State :=
  s.asOf a.lookupAt (fun s => (s.putArr { a with hs := 10 }).trackUnit a.matched.2 a.head.cause a.port.val a.key)

/-- Verdict, rewrites and copy request, in cycle 13 (R193). -/
def State.judgeStep (s : State) (a : Arrival) : State :=
  s.asOf a.lookupAt (fun s =>
    let (v, s) := s.closeUnit a.matched a.head.cause a.port.val a.head.length (if a.admitted then .frame else .noCells) []
    s.putArr { a with head := { a.head with verdict := v }, hs := 11 })

/-- Stage 3 ends: the verdict, MAX_SDU of a frame that has arrived whole and well, and the drop that stage 4 has found (R80, R82). A frame over
MAX_SDU that stage 4 drops and that has not arrived whole by now is counted for that drop alone (DESIGN CHOICE, log entry 51). -/
def State.verdictStep (s : State) (a : Arrival) : State :=
  let p := a.port.val
  let a := { a with hs := 12 }
  if !a.head.verdict.pass then
    let a := a.dropBy 3
    (s.putArr a).candCheck a true 2
  else if a.stop ≤ s.now && !a.macBad && !a.bad && a.head.tooLong a.buf.length then
    let a := a.dropBy 3
    let s := (s.portErr p 0x012C).bump (streamCnt (bits (a.head.entry.getD 0) 365 352) 8)
    (s.putArr a).candBad a
  else if a.head.dropped = 4 then (s.countDrop p a.head.count).putArr (a.dropBy 4)
  else s.putArr a

/-- The record of the frame in the buffer, with its destinations `own` (R16, R103). -/
def State.record (s : State) (a : Arrival) (own : Nat) : Frame :=
  let p := a.parsed
  let h := a.head
  let copy := h.verdict.copied && a.admitted
  { inp := a.port, len := a.buf.length, cells := [], whole := false, cls := BitVec.toFin (BitVec.ofNat 3 h.cls),
    dom := BitVec.toFin (BitVec.ofNat 4 h.dom), vid := BitVec.ofNat 12 h.vid, pcp := p.ctag.map (fun t => BitVec.ofNat 3 t.1),
    dei := match p.ctag with | some (_, d, _) => d | none => false, ctag := p.ctag.isSome, rtag := p.rtag.isSome, seq := h.seq,
    rtags := h.entry.map (fun e => BitVec.ofNat 24 (bits e 503 480)), untag := BitVec.ofNat 24 h.untag, trap := h.asIs,
    ip := p.ip, ipOff := p.ipOff, ecn := p.ecn, dests := BitVec.ofNat 25 (own + (if copy then 2 ^ 24 else 0)), queued := 0,
    cutOk := BitVec.ofNat 24 (maskOf 24 (fun o => bit own o && s.cutOk a.port.val o p h)), markEcn := 0, markDei := 0,
    multi := h.several || h.dests &&& (h.dests - 1) ≠ 0,
    copy := if copy then some (a.port, BitVec.ofNat 14 h.verdict.rule, BitVec.ofNat 8 h.verdict.reason, h.verdict.pass) else none,
    copyCls := BitVec.toFin (BitVec.ofNat 3 (s.paramFor a.lookupAt 0x0701)), copyDom := BitVec.toFin (BitVec.ofNat 4 (s.param (0x0320 + 22))),
    bad := a.bad, first := a.start, endAt := a.stop, readBy := [], freed := 0,
    gptp := p.etype = 0x88F7 && p.rtag.isNone, ts := if p.reserved && p.etype = 0x88F7 then some a.ts else none }

/-- Stages 5 and 6: a sequence number is taken, class and domain are fixed, and the frame is compared with what its window expects (R86,
R89, R170). -/
def State.classStep (s : State) (a : Arrival) : State :=
  let p := a.parsed
  let h := a.head
  let e := h.entry.getD 0
  let a := { a with hs := 13 }
  if h.dropped ≠ 0 then s.putArr a
  else
    let (seq, s) :=
      if h.entry.isSome && bit e 416 then
        let i := bits e 427 417
        let q := SMap.get 0 s.sw.seqGen i
        (some q, { s with sw.seqGen := SMap.set 0 s.sw.seqGen i (q + 1) })
      else (p.rtag, s)
    let (c, d) := s.classOf a.port.val p h a.cls.toNat a.dom.toNat
    let a := { a with head := { h with seq := seq, cls := c, dom := d } }
    let edited := match a.cand with
      | some o => (s.record a 0).edit o (s.inForceBit (0x04A0 + o) 0) a.body ≠ a.body || (h.entry.isSome && bit e 428)
      | none => false
    (s.putArr a).candCheck a edited 4

/-- The destinations of the frame but for Po of its window (R173). -/
def Arrival.own (a : Arrival) : Nat :=
  if a.head.dropped ≠ 0 then 0
  else match a.cand with
    | some o => a.head.dests &&& ((2 ^ 24 - 1) ^^^ 2 ^ o)
    | none => a.head.dests

/-- The first cell of a frame enters the queues of the destinations toward which it is cut through (R90, R91, R104). Po of its window is held out until
the check is decided (R173). -/
def State.cutStep (s : State) (a : Arrival) : State :=
  let a := { a with hs := 14 }
  let all := if a.head.dropped ≠ 0 then 0 else a.head.dests
  let f := s.record a all
  let cut := (List.range 24).filter (fun o => bit a.own o && f.cutOk.getLsbD o)
  if cut.isEmpty || !a.admitted || a.bad || a.stop + 2 ≤ s.now then s.putArr a
  else
    let a := { a with stored := true, resv := a.resv - 1 }
    let s := (s.putArr a).setFrame a.fid (some f)
    let s := s.cellIn a
    cut.foldl (fun s o => s.enqueue a.fid o) s

/-- The stages 1 to 7 of the head of a frame. -/
def State.stageStep (s : State) (a : Arrival) : State :=
  match a.hs with
  | 2 => s.parseStep a
  | 3 => s.streamStep a
  | 4 => s.lookupStep a
  | 5 => s.hitStep a
  | 6 => s.disposeStep a
  | 7 => s.destStep a
  | 8 => s.chargeStep a
  | 9 => s.connStep a
  | 10 => s.judgeStep a
  | 11 => s.verdictStep a
  | 12 => s.classStep a
  | _ => s.cutStep a

/-- The stages would cut the frame through to some destination as the device stands (R90): its MACsec check then comes with its end. What such a
trial changes is not kept. -/
def State.wouldCut (s : State) (a : Arrival) : Bool :=
  let t := foldN 12 (fun s _ => match s.arr a.fid with | some x => if x.hs < 14 then s.stageStep x else s | none => s) (s.putArr a)
  match t.arr a.fid with | some x => x.stored | none => false

/-- What the header of a frame gives MACsec. A frame that a tamper event has caught in verification finds no SA (R387). -/
def State.msHead (s : State) (a : Arrival) : MsHead :=
  if a.wiped then .dropped 0x298 else macsecHead s a.port.val (a.raw.take (a.raw.length - 4))

/-- The frame is there to be parsed: MACsec has opened it, or has dropped it (R69, R90, R373). A frame that is cut through is opened as its SecTAG
is there, and any other at its end, verified before the screen sees it. -/
def State.openStep (s : State) (a : Arrival) : State :=
  let p := a.port.val
  let ready := fun (a : Arrival) => { a with hs := 2, hdr := max a.hdr (a.byteAt (a.parsed.hdr + a.off)) }
  let b := a.raw.take (a.raw.length - 4)
  let gone := { a with quiet := true, hs := 14 }
  if !s.macsecOn p then s.putArr (ready { a with buf := a.raw, hdr := a.start })
  else if a.stop ≤ s.now then
    if a.macBad then s.putArr gone
    else match s.msHead a with
      | .open_ => (s.add64 (msCnt p 0x280) 1).putArr (ready { a with buf := a.raw, hdr := a.stop })
      | .dropped n => (s.bump (msCnt p n)).putArr gone
      | .sealed k =>
        match macsecCheck s p k b with
        | (some n, s) => (s.bump (msCnt p n)).putArr gone
        | (none, s) => let x := macsecOpen s k b; s.putArr (ready { a with buf := x ++ natLe 4 (fcsOf x).toNat, off := secTag })
  else
    let late := s.putArr { a with hdr := a.stop }
    match s.msHead a with
    | .sealed k =>
      let x := macsecOpen s k b
      let a := ready { a with buf := x ++ natLe 4 (fcsOf x).toNat, off := secTag, sa := some k }
      if s.wouldCut a then s.putArr a else late
    | _ => late

/-- Cycle of the next step of the head. -/
def Arrival.headDue (a : Arrival) : Nat :=
  match a.hs with
  | 0 => a.start
  | 1 => a.hdr
  | 2 => a.hdr + 2
  | 3 => a.hdr + 8
  | 4 => a.hdr + 9
  | 5 => a.hdr + 13
  | 6 => a.hdr + 16
  | 7 => a.hdr + 16
  | 8 => a.hdr + 18
  | 9 => a.hdr + 20
  | 10 => a.hdr + 21
  | 11 => a.hdr + 22
  | 12 => a.hdr + 26
  | _ => a.cutAt

/-- The next step of the head of a frame. -/
def State.headStep (s : State) (a : Arrival) : State :=
  match a.hs with
  | 0 => s.admitStep a
  | 1 => s.openStep a
  | _ => s.stageStep a

/-- The steps of the head that are due, `n` at most. -/
def State.headSteps (fid : Nat) : Nat → State → State
  | 0, s => s
  | n + 1, s =>
    match s.arr fid with
    | some a => if a.hs < 14 && a.headDue ≤ s.now then State.headSteps fid n (s.headStep a) else s
    | none => s

/-! Steps of the end of a frame (R73, R118, R119). -/

/-- The last byte is complete: the MAC counts the frame (R73, R92). A frame refused admission counts in IN_BUF_DROP alone (R102). -/
def State.lastByte (s : State) (a : Arrival) : State :=
  let p := a.port.val
  let s := s.putArr { a with es := 1 }
  if !a.admitted && a.cand.isNone then s
  else if a.runt then s.portErr p 0x0114
  else
    let s := if a.past then s.portErr p 0x0118 else s
    if a.macBad then s else (s.add64 (portReg p 0x0100) 1).add64 (portReg p 0x0108) a.raw.length

/-- The checks of the end of the frame are known: FCS, code error, MACsec, MAX_SDU. The unused part of the reservation returns (R80, R102,
R119). -/
def State.checkStep (s : State) (a : Arrival) : State :=
  let p := a.port.val
  let counted := a.admitted || a.cand.isSome
  let s := if !counted || !a.ext || a.runt then s
    else if a.code then s.portErr p 0x011C
    else if a.fcsBad && !a.past then s.portErr p 0x0110
    else s
  let (failed, s) := match a.sa with
    | some k => if a.quiet || a.macBad then (false, s) else
        (match macsecCheck s p k (a.raw.take (a.raw.length - 4)) with
         | (some n, s) => (true, s.bump (msCnt p n))
         | (none, s) => (false, s))
    | none => (false, s)
  let s := { s with sec.going := s.sec.going.filter (fun e => e.1 / 32 ≠ p) }
  let long := !a.quiet && !a.macBad && !failed && a.hs ≥ 12 && a.head.dropped = 0 && a.head.tooLong a.buf.length
  let s := if long then (s.portErr p 0x012C).bump (streamCnt (bits (a.head.entry.getD 0) 365 352) 8) else s
  let bad := a.macBad || failed || long
  let need := if a.quiet || bad || (a.head.dropped ≠ 0 && !a.head.verdict.copied) then 0 else (a.buf.length + 63) / 64
  let held := if a.stored then (match s.frame a.fid with | some f => f.cells.length | none => need) else 0
  -- a frame whose head has begun to leave keeps room for its last cells
  let need := if a.stored then (a.buf.length + 63) / 64 else need
  let s := s.putArr { a with es := 2, bad := a.bad || bad, resv := min a.resv (need - held) }
  if !bad then s.releaseCells a.fid
  else
    -- the window of a candidate has sent what Po sends of it (R172, R173)
    let s := match a.cand with | some o => if a.stored then s.finishDest a.fid o else s | none => s
    (s.foundBad a.fid a.raw.length).releaseCells a.fid

/-- The end of the frame as sequence recovery sees it (R87). -/
def State.recoverStep (s : State) (a : Arrival) : State :=
  let e := a.head.entry.getD 0
  let a := { a with es := 3 }
  if a.quiet || a.bad || a.head.dropped ≠ 0 || a.head.entry.isNone || !bit e 428 then s.putArr a
  else
    let (passed, s) := s.recover (bits e 439 429) a.parsed.rtag
    s.putArr (if passed then a else { a with head := { a.head with dropped := 5 } })

/-- Po of a failed candidate whose fate is a redirect, where it is in the frame's own set (R170, R173). -/
def Arrival.redirect (a : Arrival) : Option Nat :=
  match a.cand, a.fail with
  | some o, some (k, _) => if k ≠ 2 && k ≠ 6 && a.head.dropped = 0 && bit a.head.dests o then some o else none
  | _, _ => none

/-- The destinations at which a frame is enqueued after its last byte, with Po where a failed candidate is redirected to it (R118, R173). -/
def Arrival.allDests (a : Arrival) : Nat :=
  match a.redirect with
  | some o => if a.admitted then a.own ||| 2 ^ o else 0
  | none => a.own

/-- Enqueue a frame that has arrived whole for one destination; a redirect that enqueues it to Po is counted (R118, R173). -/
def State.enqueueWhole (s : State) (a : Arrival) (d : Nat) : State :=
  let s := s.enqueue a.fid d
  if a.redirect = some d && (match s.frame a.fid with | some f => f.queued.getLsbD d | none => false) then s.portErr d 0x25C else s

/-- A frame that has passed every check is enqueued where it has not been yet (R118), and its screen copy (R192). Destinations of a class with
the asynchronous shaper take their turn in the order in which frames complete (R139). -/
def State.storeStep (s : State) (a : Arrival) : State :=
  let a := { a with es := 4 }
  let s := s.putArr a
  if a.quiet || a.bad then (s.putArr { a with resv := if a.stored then a.resv else 0 }).releaseCells a.fid
  else
    let s := match a.redirect with | some o => if a.admitted then s else s.portErr o 0x260 | none => s
    if !a.admitted then s
    else
      let all := a.allDests
      let (a, s) := if a.stored then (a, s) else
        let f := s.record a all
        if f.dests = 0 then ({ a with resv := 0 }, s.putArr { a with resv := 0 })
        else
          let b := { a with stored := true, resv := a.resv - f.total }
          (b, State.cellsIn f.total ((s.putArr b).setFrame a.fid (some f)) b)
      match s.frame a.fid with
      | none => s
      | some f =>
        let s := f.waiting.foldl (fun s d =>
          if f.queued.getLsbD d then s
          else if !(d = 24 || bit all d) then s.finishDest a.fid d
          else if s.shaper (destPort d) (f.classOf d).val = 2 then s
          else s.enqueueWhole a d) s
        s.releaseCells a.fid

/-- The frame takes its turn among those that have completed: it is given its eligibility times (R139), and its source is learned (R84). Frames
that complete in one cycle are taken in the port order of R13. -/
def State.orderStep (s : State) (a : Arrival) : State :=
  let s := s.putArr { a with es := 5 }
  if a.quiet || a.bad then s
  else
    let s := match s.frame a.fid with
      | some f => (f.waiting.filter (fun d => !f.queued.getLsbD d)).foldl (fun s d => s.enqueueWhole a d) s
      | none => s
    match a.head.learn with
    | some fid => s.learn a.port.val a.parsed.sa fid
    | none => s

/-- Another frame that completed before this one, or in its cycle at a port before it, has not taken its turn. -/
def State.waitsTurn (s : State) (a : Arrival) : Bool :=
  s.sw.arriving.any (fun x => x.fid ≠ a.fid && x.es < 5 && !x.quiet && !x.bad &&
    (x.stop < a.stop || (x.stop = a.stop && (x.port.val < a.port.val || (x.port = a.port && x.fid < a.fid)))))

/-- Cycle of the next step of the end. -/
def Arrival.endDue (a : Arrival) : Nat :=
  match a.es with
  | 0 => a.stop
  | 1 => a.stop + 2
  | 2 => if a.quiet then a.stop + 2 else max (a.stop + 2) (a.hdr + 26)
  | _ => if a.quiet then a.stop + 2 else a.storeAt

/-- The next step of the end of a frame; those that need its class come after its head. -/
def State.endStep (s : State) (a : Arrival) : State :=
  match a.es with
  | 0 => s.lastByte a
  | 1 => s.checkStep a
  | 2 => s.recoverStep a
  | 3 => s.storeStep a
  | _ => s.orderStep a

/-- The next step of the end may be taken. -/
def State.endReady (s : State) (a : Arrival) : Bool :=
  a.hs ≥ 1 && a.es < 5 && a.endDue ≤ s.now && (a.es < 2 || a.hs ≥ 13) && (a.es < 4 || a.quiet || a.bad || !s.waitsTurn a)

/-- The steps of the end that are due, `n` at most. -/
def State.endSteps (fid : Nat) : Nat → State → State
  | 0, s => s
  | n + 1, s =>
    match s.arr fid with
    | some a =>
      if s.endReady a then State.endSteps fid n (s.endStep a) else s
    | none => s

/-- The next cell of a frame that is cut through enters its queues one cycle after it is complete, one in a cycle (R91). -/
def State.cellStep (s : State) (fid : Nat) : State :=
  match s.arr fid with
  | some a => match s.frame fid with
    | some f => if a.stored && !f.whole && a.cellAt f.cells.length + 1 ≤ s.now then
        let b := { a with resv := a.resv - 1 }
        (s.putArr b).cellIn b
      else s
    | none => s
  | none => s

/-- The causes of R170 that time brings: 5, 6 and 7, and the end of the check of a candidate. -/
def State.candStep (s : State) (fid : Nat) : State :=
  match s.arr fid with
  | some a => match a.cand with
    | some o =>
      let maxLen := match (s.mill o).opened with | some w => w.win.maxLen | none => 9216
      if a.decided || a.hs = 0 then s
      else if a.raw.length > maxLen && a.byteAt (maxLen + 1) ≤ s.now then s.candFail a 5
      else if a.stop ≤ s.now && (a.macBad || (a.hs ≥ 4 && a.head.tooLong a.raw.length)) then s.candBad a
      else if a.stop + 3 ≤ s.now && a.hs < 13 then s.candFail a 7
      else if a.stop ≤ s.now && a.hs ≥ 13 then (s.putArr { a with decided := true }).finishCand o none a
      else s
    | none => s
  | none => s

/-- Po of a candidate that has passed has been served by its window (R173). -/
def State.arrivalDone (s : State) (fid : Nat) : State :=
  match s.arr fid with
  | some a =>
    let whole := match s.frame fid with | some f => f.whole | none => true
    if a.hs ≥ 13 && a.es ≥ 5 && (a.cand.isNone || a.decided) && whole then s.dropArr fid else s
  | none => s

/-- The turn of a frame that has completed, once those before it have had theirs, and the end of a frame with nothing left to do. -/
def State.turn (s : State) (fid : Nat) : State := (State.endSteps fid 1 s).arrivalDone fid

/-- One cycle of a frame that arrives. -/
def State.arrivalTick (s : State) (fid : Nat) : State :=
  let fresh := match s.arr fid with | some a => a.stored | none => false
  let s := State.headSteps fid 15 s
  let s := if fresh then s.cellStep fid else s
  let s := (State.endSteps fid 5 s).candStep fid
  s.arrivalDone fid

/-- What a parameter was before a change is kept while a frame is in the pipeline whose first byte came before it, or a lookup of the gateway port that
began before it (R126, R202). -/
def State.parForget (s : State) : State :=
  if s.sw.parHist.isEmpty then s
  else { s with sw.parHist := s.sw.parHist.filter (fun x => s.sw.arriving.any (fun a => a.start ≤ x.2.1) || s.scr.gw.hand.any (fun l => l.from_ ≤ x.2.1)) }

/-- One cycle of every frame that arrives, in the port order of R13. The turns of frames that have completed come after it, in the order of
their completion. -/
def State.ingressTick (s : State) : State :=
  let ids := (List.range 24).flatMap (fun p => (s.sw.arriving.filter (fun a => a.port.val = p)).map (fun a => a.fid))
  let s := ids.foldl State.arrivalTick s
  let byStop := s.sw.arriving.foldl (fun l x => l.filter (fun y => y.stop ≤ x.stop) ++ [x] ++ l.filter (fun y => x.stop < y.stop)) []
  ((byStop.map (fun a => a.fid)).foldl State.turn s).parForget

/-! A frame arrives (R68). -/

/-- A frame begins to arrive: at an external port with its preamble, at P22 and P23 with its first byte in the next cycle, or after the end of
the frame before it. An express frame whose preamble begins in the arrival interval of a window becomes its candidate; other windows that lose it
count a conflict (R165). `sure`: the input has admitted the frame already. -/
def State.arrive (s : State) (f : RxFrame) (sure : Bool) : State :=
  let port := f.port.val
  let rate := s.lineRate port
  let ext := port < 22
  -- at P22 and P23 the device computes the FCS as the frame enters (R11, R98)
  let raw := if ext then f.bytes else f.bytes ++ natLe 4 (fcsOf f.bytes).toNat
  let ends := (s.sw.arriving.filter (fun a => a.port.val = port)).foldl (fun t a => max t a.stop) (s.now + 1)
  let start := if ext then s.now + 8 * 6400 / rate else ends
  let ws := if f.unit = .express && ext then s.candWindows port s.now else []
  let s := ws.drop 1 |>.foldl (fun s o => s.portErr o 0x026C) s
  let s := match ws.head? with
    | some o => match (s.mill o).opened with
      | some w =>
        s.setMill o { s.mill o with opened := some { w with candidate := true, candFrom := s.now, candTo := s.now + byteCycles (raw.length + 8) rate,
                                                               candEnd := s.now + byteCycles (raw.length + 20) rate + 4 } }
      | none => s
    | none => s
  let a : Arrival :=
    { fid := s.sw.nextFid, port := f.port, express := f.unit = .express, raw := raw, code := f.codeErr, past := false, fell := false,
      cls := f.cls, dom := f.dom, rate := rate, pre := if ext then s.now else start, start := start, stop := 0, ts := 0, hdr := start, hs := 0, es := 0,
      admitted := sure, quiet := false, resv := if sure then s.reserve port else 0, buf := [], off := 0, sa := none, wiped := false, bad := false, head := Head.drop 0, stored := false,
      cand := ws.head?, fail := none, decided := false }
  let s := { s with sw.nextFid := s.sw.nextFid + 1, sw.arriving := s.sw.arriving ++ [{ a with stop := a.byteAt raw.length }] }
  if sure then s.notePeaks port else s

/-- A frame begins to arrive; its input tests admission at its first byte (R102). -/
def State.receive (s : State) (f : RxFrame) : State := s.arrive f false

/-- The gateway hands a frame to P23: admission is decided at the hand-over, also while an earlier frame still enters (R102, R250,
R254; log entry 15). -/
def State.handOver (s : State) (f : RxFrame) : Bool × State :=
  if s.admits f.port.val then (true, s.arrive f true) else (false, s.portErr f.port.val 0x0144)

/-- A frame of the kind of `f` is arriving at its external port: another cannot begin. -/
def State.receiving (s : State) (f : RxFrame) : Bool :=
  f.port.val < 22 && s.sw.arriving.any (fun a => a.port == f.port && a.express == (f.unit == .express) && s.now < a.stop)

/-- FRAME_RECEIVE (R68): a frame, or another unit of the MAC merge sublayer (R141), arrives at a port whose link is up. A frame begins with
its preamble. -/
def frameReceive (f : RxFrame) (s : State) : State :=
  let p := f.port.val
  if !s.live || !s.linkUp p then s
  else
    let mm := p < 8 && s.inForceBit (0x0440 + p) 0
    match f.unit with
    | .express => if s.receiving f then s else s.receive f
    | .preemptable => if mm && !s.receiving f then s.receive f else s
    | .malformed => if mm then s.bump (portReg p 0x220) else s
    | .verify => s
    | .respond => if mm && (s.egr p).verify = 1 then s.setEgr p { s.egr p with verify := 2 } else s
def execFrameReceive (f : RxFrame) (s : State) : Out := done s (frameReceive f s)

/-! Other commands of the ingress side. -/

/-- A frame that is arriving as its link falls ends at the byte in progress with a code error (R73). -/
def State.cutArrival (s : State) (a : Arrival) : State :=
  let p := a.port.val
  let n := if s.now < a.start then 0 else min a.raw.length ((s.now - a.pre) * a.rate / 6400 + 1 - 8)
  let raw := a.raw.take n
  let buf := a.buf.take (n - a.off)
  let b := { a with raw := raw, code := true, past := false, fell := true, stop := s.now, buf := buf, hdr := min a.hdr s.now }
  if a.hs = 0 then
    -- its first byte has not begun
    let s := (s.portErr p 0x011C).dropArr a.fid
    if a.cand.isSome then s.candBad b else s
  else
    let s := if a.cand.isSome && !a.decided then (s.putArr b).candBad b else s.putArr b
    match s.frame a.fid with
    | some f =>
      let f := { f with len := buf.length, endAt := s.now }
      s.setFrame a.fid (some { f with whole := decide (f.cells.length ≥ f.total) })
    | none => s

/-- The frames that are arriving at an input as its link falls (R73). -/
def State.cutArrivals (s : State) (p : Nat) : State :=
  (s.sw.arriving.filter (fun a => a.port.val = p && s.now < a.stop)).foldl State.cutArrival s

/-- LINK_DOWN (R73, R106, R166). -/
def linkDown (p : Nat) (s : State) : State :=
  if !s.live || p ≥ 22 || !s.sw.link.getLsbD p then s
  else
    let s := s.cutArrivals p
    let s := { s with sw.link := setBit s.sw.link p false, sw.rate := SMap.set 0 s.sw.rate p 0, dw.linkChg := setBit s.dw.linkChg p true }
    let s := s.dropPortQueues p
    let s := s.setEgr p { s.egr p with verify := 0, attempts := 0 }
    if (s.mill p).opened.isSome then windowEnd s p else s
def execLinkDown (p : Port) (s : State) : Out := done s (linkDown p.val s)

/-- A rate that the interface mode of a port allows (R10, R300). -/
def State.rateOk (s : State) (p mbps : Nat) : Bool :=
  let m := s.param (0x0240 + p)
  if p < 8 then (if m == 1 then [10000, 5000, 2500, 1000, 100].contains mbps else mbps == 10000)
  else if p < 10 then mbps == 25000
  else if p < 18 then (if m == 1 then mbps == 100 else if m == 2 then mbps == 1000 || mbps == 100 else mbps == 1000)
  else if p < 20 then (if m == 1 then mbps == 1000 else mbps == 2500)
  else mbps == 10

/-- Begin verification of preemption on a port whose link is up (R141). -/
def State.startVerify (s : State) (p : Nat) : State :=
  s.setEgr p { s.egr p with verify := 1, attempts := 1, verifyAt := s.now }

/-- LINK_UP (R300, R311): training ends and the link comes up at a rate of its mode; verification of preemption begins
(R141). -/
def linkUp (p mbps : Nat) (s : State) : State :=
  if !s.live || p ≥ 22 || s.sw.link.getLsbD p || s.param (0x0220 + p) ≠ 1 || !s.rateOk p mbps || s.nm.state = .commit then s
  else
    let s := { s with sw.link := setBit s.sw.link p true, sw.rate := SMap.set 0 s.sw.rate p mbps, dw.linkChg := setBit s.dw.linkChg p true }
    if p < 8 && s.inForceBit (0x0440 + p) 0 && s.inForceBit (0x0440 + p) 3 then s.startVerify p else s
def execLinkUp (p : Port) (mbps : Nat) (s : State) : Out := done s (linkUp p.val mbps s)

/-- The MAC-table entries whose VALID is 1, in ascending index. -/
def State.validMacs (s : State) : List Nat :=
  s.mem.filterMap (fun e => if 0x04100000 ≤ e.1 && e.1 < 0x04180000 && e.1 % 16 = 11 && e.2.getLsbD 0
    then some ((e.1 - 0x04100000) / 16) else none)

/-- AGING_SWEEP (R85): AGE of every dynamic entry rises, and an entry whose AGE reaches 4 is removed. -/
def agingSweep (s : State) : State :=
  if !s.live || s.param 0x0210 = 0 || s.secondary || s.now < s.sw.agePhase + s.param 0x0210 * 200000000 then s
  else
    let s := { s with sw.agePhase := s.now }
    s.validMacs.foldl (fun s i =>
      let e := s.macEntry i
      if bit e 89 then s
      else
        let a := bits e 99 96 + 1
        if a ≥ 4 then (s.clearMem (macAddr i) 16).mirrorMac i
        else s.wr (macAddr i) 16 (e - kf 96 (bits e 99 96) + kf 96 a)) s
def execAgingSweep (s : State) : Out := done s (agingSweep s)

/-- RECOVERY_RESET_TIMEOUT (R87). -/
def recoveryResetTimeout (i : Nat) (s : State) : State :=
  let r := s.recov i
  match r.timer with
  | some t =>
    if s.live && !r.takeAny && s.now ≥ t + msCycles (bits (s.rd (0x04190000 + i * 16) 4) 31 16) then
      (s.setRecov i { r with takeAny := true, timer := none }).bump (recovCnt i 0x14)
    else s
  | none => s
def execRecoveryResetTimeout (i : Fin 2048) (s : State) : Out := done s (recoveryResetTimeout i.val s)

end Sys2Proof.Machine
end

