-- ==== Sys2Proof/Machine/Lin.lean ====
section
/-! DEFINITION. The LIN channels: objects, checksums, schedules, sleep (R227 to R238, R323).
Choices where the rules leave one open: log entry 14. -/

namespace Sys2Proof.Machine

/-- Internal address of a register of a channel block (R22, R238). -/
def linReg (m off : Nat) : Nat := 0x0A020000 + m * 0x1000 + off
/-- Address of a frame object (R230). -/
def linObj (m i : Nat) : Nat := 0x04B40000 + (64 * m + i) * 32
/-- Address of a schedule entry (R234). -/
def linEntry (m t e : Nat) : Nat := 0x04B50000 + (8 * m + t) * 512 + e * 8

/-- Set a bit of LIN_IRQ. -/
def State.linIrq (s : State) (m i : Nat) : State := s.setLin m { s.lin m with irq := setBit (s.lin m).irq i true }

/-- FCLK cycles of a number of bit times, rounded up. -/
def State.linBits (s : State) (m n : Nat) : Nat :=
  let r := s.linRate m
  (n * 800000000 + r - 1) / r

/-- The protected identifier of an identifier: parity as ISO 17987 defines it. -/
def linPid (i : Nat) : Nat :=
  let x := fun k => b2n (bit i k)
  let p0 := (x 0 + x 1 + x 2 + x 4) % 2
  let p1 := (x 1 + x 3 + x 4 + x 5 + 1) % 2
  i % 64 + p0 * 64 + p1 * 128

/-- Checksum: the inverted sum with end-around carry, over the data or over the protected identifier and the data. -/
def linChecksum (i : Nat) (enh : Bool) (data : List Byte) : Byte :=
  let add := fun (a : Nat) (b : Byte) => let t := a + b.toNat; if t ≥ 256 then t - 255 else t
  BitVec.ofNat 8 (255 - data.foldl add (if enh then linPid i else 0))

/-- DIR, LEN, CHK_ENH, EVENT, ASSOC of an object (R230). -/
structure LinCfg where
  dir   : Nat
  len   : Nat
  enh   : Bool
  event : Bool
  assoc : Nat
  bad   : Bool      -- DIR not 0 with a LEN that no response has
  deriving DecidableEq, Repr

/-- The configuration that an object's control fields give; what is treated as ignored has DIR 0 (R230). -/
def linCfgOf (i w : Nat) : LinCfg :=
  let dir := if i ≥ 62 || bits w 1 0 = 3 then 0 else bits w 1 0
  let len := bits w 5 2
  let bad := dir != 0 && (len == 0 || len > 8)
  { dir := if bad then 0 else dir, len := len, enh := bit w 6 && i < 60, event := bit w 7, assoc := bits w 13 8, bad := bad }

/-- The configuration of an object as it stands. -/
def State.linCfg (s : State) (m i : Nat) : LinCfg := linCfgOf i (s.rd (linObj m i) 2)

/-- The control fields of a channel's objects. -/
def State.linCtrl (s : State) (m : Nat) : List Nat := (List.range 64).map (fun i => s.rd (linObj m i) 2)

/-- The configuration of an object in force for a header: that of the header's begin (R230). -/
def LinHdr.cfg (h : LinHdr) (i : Nat) : LinCfg := linCfgOf i (h.ctrl.getD i 0)

/-- Bytes of the response to a header: the object's LEN, eight for a diagnostic frame. -/
def LinHdr.len (h : LinHdr) : Nat := if h.id ≥ 60 then 8 else (h.cfg h.id).len

/-- Flags byte of an object: NEWDAT, LOST, UPDATED, DATA_VALID. -/
def State.linFlags (s : State) (m i : Nat) : Nat := s.rd (linObj m i + 4) 1
def State.setLinFlags (s : State) (m i v : Nat) : State := s.wr (linObj m i + 4) 1 v

/-- UPDATED of an object (R230). -/
def State.linUpdated (s : State) (m i : Nat) : Bool := bit (s.linFlags m i) 2
def State.clearUpdated (s : State) (m i : Nat) : State :=
  if s.linUpdated m i then s.setLinFlags m i (s.linFlags m i - 4) else s

/-- Send buffer of an object. -/
def State.linBuf (s : State) (m i : Nat) : List Byte := (SMap.get none s.bus.linSend (m * 64 + i)).getD []

/-- Commit data to the send buffer of an object (R232). -/
def State.linCommit (s : State) (m i : Nat) (data : List Byte) : State :=
  let s := { s with bus.linSend := SMap.set none s.bus.linSend (m * 64 + i) (some (fitBytes 8 data)) }
  s.setLinFlags m i (s.linFlags m i ||| 12)

/-- The screen has judged a commit (R232). -/
def State.lpubJudged (s : State) (m i : Nat) (data : List Byte) (pass : Bool) : State :=
  if pass then s.linCommit m i data else s.bump (linReg m 0x134)

/-- LPUB (R232): the data goes to the screen. -/
def lpub (m i : Nat) (s : State) : State :=
  if !s.live then s
  else
    let c := s.linCfg m i
    let data := s.rdB (linObj m i + 16) 8
    let d := data.take c.len
    s.postKey (.lpub (Fin.ofNat 16 m) i data) (linKey m true none i c.enh d) d
def execLpub (ch : LinCh) (obj : Fin 64) (s : State) : Out := done s (lpub ch.val obj.val s)

/-! Sending. -/

/-- The response error signal `p` placed in a published frame (R233). -/
def State.linSignal (s : State) (m p i : Nat) (data : List Byte) : List Byte :=
  let b := bits p 8 6
  if bit p 12 && bits p 5 0 = i && b < data.length then
    splice data b [setBit (data.getD b 0) (bits p 11 9) (s.lin m).respErr]
  else data

/-- Nothing more belongs to the header: the bus is unused from now. -/
def State.linEnd (s : State) (m : Nat) : State := s.setLin m { s.lin m with header := none, sending := none, idleFrom := s.now }

/-- A response of this channel has been sent whole (R233, R238). -/
def State.linSent (s : State) (m : Nat) : State :=
  match (s.lin m).sending with
  | some i =>
    let p := match (s.lin m).header with | some h => h.sig | none => 0
    let s := s.linEnd m
    (s.setLin m { s.lin m with respErr := (s.lin m).respErr && !(bit p 12 && bits p 5 0 = i) }).linIrq m 2
  | none => s

/-- Begin the response to a header with the send buffer of object `o` (R232, R237). -/
def State.linAnswer (s : State) (m : Nat) (h : LinHdr) (o : Nat) (assoc : Bool) : State :=
  let c := h.cfg h.id
  let buf := (s.linBuf m o).take (if assoc then (h.cfg o).len else c.len)
  let data := s.linSignal m h.sig o buf
  let data := if assoc then BitVec.ofNat 8 (linPid o) :: data.drop 1 else data
  let s := s.clearUpdated m o
  s.setLin m { s.lin m with sending := some o, lastTx := data ++ [linChecksum h.id c.enh data] }

/-- Answer a header from the object that publishes it (R232, R237). -/
def State.linPublish (s : State) (m : Nat) (h : LinHdr) : State :=
  let c := h.cfg h.id
  if c.event && h.kind ≠ .sporadic then
    if s.linUpdated m c.assoc then s.linAnswer m h c.assoc true else s.linEnd m
  else if bit (s.linFlags m h.id) 3 then s.linAnswer m h h.id false
  else (s.linEnd m).bump (linReg m 0x12C)

/-- The object of a header publishes. A sporadic frame is sent because its object has UPDATED set (R236). -/
def LinHdr.publishes (h : LinHdr) : Bool :=
  let c := h.cfg h.id
  match h.kind with
  | .plain => c.dir == 2
  | .sporadic => decide (h.id < 62) && decide (1 ≤ c.len) && decide (c.len ≤ 8)
  | .event | .sleep => false

/-- The response of the go-to-sleep command (R323). -/
def sleepData : List Byte := 0 :: List.replicate 7 0xFF

/-- The protected identifier of a header completes: it counts, and a response of this channel carries the send buffer as it stands
now (R230, R232, R238). -/
def State.linComplete (s : State) (m : Nat) (h : LinHdr) : State :=
  let h := { h with past := true }
  let s := s.setLin m { s.lin m with header := some h }
  let s := s.add64 (linReg m 0x100) 1
  let s := if (h.cfg h.id).bad then s.bump (linReg m 0x128) else s
  if h.kind = .sleep then
    s.setLin m { s.lin m with sending := some h.id, lastTx := sleepData ++ [linChecksum 0x3C false sleepData] }
  else if h.publishes && !s.secondary && (s.linRole m = 1 || !(s.lin m).asleep) then s.linPublish m h else s

/-- Record an error of R229. -/
def State.linError (s : State) (m off : Nat) : State :=
  let s := s.bump (linReg m off)
  let s := s.setLin m { s.lin m with respErr := true }
  s.linIrq m 3

/-- LIN_HEADER (R228, R229, R237): a responder receives a header. -/
def linHeader (m pid baud age : Nat) (s : State) : State :=
  if s.live && s.linRole m = 2 then
    let s := (s.linSent m).linEnd m
    let rate := s.linRate m
    let sync := s.paramBit (0x0920 + m) 0
    let s := if sync then s.setLin m { s.lin m with baud := baud } else s
    let dev := ((baud : Int) - rate).natAbs
    if sync && dev * 100 > rate * 14 then s.bump (linReg m 0x11C)
    else if linPid pid ≠ pid then (s.bump (linReg m 0x110)).linIrq m 3
    else
      let s := s.setLin m { s.lin m with headTs := ts32 (s.time.ltime - age * s.time.incr) }
      s.linComplete m { id := pid % 64, kind := .plain, at_ := s.now, past := true, ctrl := s.linCtrl m, sig := s.param (0x0950 + m) }
  else s
def execLinHeader (ch : LinCh) (pid : Byte) (baud age : Nat) (s : State) : Out := done s (linHeader ch.val pid.toNat baud age s)

/-! Schedules (R234 to R236). -/

/-- SLOT of an entry; beyond entry 63 a table has ended. -/
def State.linSlotLen (s : State) (m t e : Nat) : Nat := if e < 64 then bits (s.rd (linEntry m t e) 8) 23 16 else 0

/-- The frames that an entry can carry, and its TYPE (R234, R236). -/
def State.linFrames (s : State) (m t e : Nat) : Nat × List Nat :=
  let w := s.rd (linEntry m t e) 8
  match bits w 10 8 with
  | 2 => (2, [bits w 37 32, bits w 45 40, bits w 53 48, bits w 61 56].filter (· ≠ 0x3F))
  | 3 => (3, [0x3C])
  | 4 => (4, [0x3D])
  | k => (k, [bits w 5 0])

/-- Response length of a frame on the bus: the object's LEN, eight bytes for a diagnostic frame. -/
def State.linLen (s : State) (m i : Nat) : Nat := if i ≥ 60 then 8 else bits (s.rd (linObj m i) 1) 5 2

/-- An entry passes the check of a table switch (R235). -/
def State.linEntryOk (s : State) (m t e : Nat) : Bool :=
  let (k, ids) := s.linFrames m t e
  let n := ids.foldl (fun a i => max a (s.linLen m i)) 0
  k ≤ 4 && s.linSlotLen m t e * s.param (0x0930 + m) * s.linRate m * 10 ≥ 14 * (34 + 10 * (n + 1)) * 1000

/-- Every entry of a table passes, and the table has one (R235). -/
def State.linTableOk (s : State) (m t : Nat) : Bool :=
  let n := ((List.range 64).takeWhile (fun e => s.linSlotLen m t e ≠ 0)).length
  n ≠ 0 && (List.range n).all (s.linEntryOk m t)

/-- Start a table at its entry 0 (R235). -/
def State.linStart (s : State) (m : Nat) (t : Fin 8) : State :=
  (s.setLin m { s.lin m with running := true, rets := [], collNext := none, table := t, entry := 0, started := false,
                             pending := none, slotEnd := s.now }).linIrq m 4

/-- LIN_SCHED (R235): with no table running an accepted switch starts its table at once. -/
def linSched (m v : Nat) (s : State) : State :=
  if s.live && s.linRole m = 1 then
    let l := s.lin m
    if v = 0xFF then (if l.running then s.setLin m { l with pending := some none } else s)
    else if v < 8 then
      if !s.linTableOk m v then s.bump (linReg m 0x128)
      else if l.running then s.setLin m { l with pending := some (some (Fin.ofNat 8 v)) }
      else s.linStart m (Fin.ofNat 8 v)
    else s
  else s
def execLinSched (ch : LinCh) (v : Byte) (s : State) : Out := done s (linSched ch.val v.toNat s)

/-- The entry after entry `e` of table `t`, and what is still being resolved: a table that resolves a collision runs once and
returns to the entry after the one that collided; the table of the schedule begins again (R234, R236). -/
def State.linNext (s : State) (m : Nat) (t : Fin 8) (e : Fin 64) : List (Fin 8 × Fin 64) → Fin 8 × Fin 64 × List (Fin 8 × Fin 64)
  | [] => (t, if s.linSlotLen m t.val (e.val + 1) = 0 then 0 else Fin.ofNat 64 (e.val + 1), [])
  | r :: rs => if s.linSlotLen m t.val (e.val + 1) = 0 then s.linNext m r.1 r.2 rs else (t, Fin.ofNat 64 (e.val + 1), r :: rs)

/-- The schedule's place after the slot that has ended (R235, R236). A stop and a switch take effect here; a switch that waits while
a collision is resolved takes effect once that resolution has ended, with what collides in it resolved too. -/
def State.linAdvance (s : State) (m : Nat) : State :=
  let l := s.lin m
  let (t, e, rs) := s.linNext m l.table l.entry l.rets
  -- a collision in the slot is resolved by a table of its own
  let resolve := match l.collNext with | some ct => decide (s.linSlotLen m ct.val 0 ≠ 0) | none => false
  match l.pending with
  | some none => s.setLin m { l with running := false, rets := [], collNext := none, pending := none, started := false }
  | p =>
    let switch := match p with | some (some new) => if l.rets.isEmpty || (rs.isEmpty && !resolve) then some new else none | _ => none
    match switch with
    | some new => s.linStart m new
    | none =>
      if !l.started then s
      else if resolve then
        s.setLin m { l with collNext := none, table := l.collNext.getD 0, entry := 0, rets := (l.table, l.entry) :: l.rets }
      else s.setLin m { l with collNext := none, table := t, entry := e, rets := rs }

/-- Begin the header of identifier `i` (R228, R236). -/
def State.linSendHeader (s : State) (m i : Nat) (kind : LinKind) : State :=
  s.setLin m { s.lin m with
    header := some { id := i, kind := kind, at_ := s.now + s.linBits m (s.param (0x0940 + m) + 21), past := false, ctrl := s.linCtrl m,
                     sig := s.param (0x0950 + m) },
    headTs := s.ts, lastTx := [BitVec.ofNat 8 (linPid i)] }

/-- Run the entry in progress (R236). -/
def State.linRunEntry (s : State) (m : Nat) : State :=
  let l := s.lin m
  let (k, ids) := s.linFrames m l.table.val l.entry.val
  match k with
  | 1 => s.linSendHeader m (ids.headD 0) .event
  | 2 =>
    match ids.find? (s.linUpdated m) with
    | some i => s.linSendHeader m i .sporadic
    | none => s
  | 0 | 3 | 4 => s.linSendHeader m (ids.headD 0) .plain
  | _ => s

/-- LIN_SLOT (R235, R236): at the end of the running slot the next one begins. The time base counts FCLK cycles. -/
def linSlot (m : Nat) (s : State) : State :=
  let l := s.lin m
  if s.live && s.linRole m = 1 && l.running && !s.secondary && !l.asleep && s.now ≥ l.slotEnd then
    let s := s.linSent m
    let s := if (s.lin m).header.isSome then s.linEnd m else s
    let s := s.linAdvance m
    let l := s.lin m
    let len := s.linSlotLen m l.table.val l.entry.val
    if !l.running then s
    else if len = 0 then s.setLin m { l with running := false, started := false }
    else
      let start := if l.started && s.now < l.slotEnd + 800 then l.slotEnd else s.now
      let s := s.setLin m { l with started := true, slotEnd := start + msCycles (len * s.param (0x0930 + m)) }
      s.linRunEntry m
  else s
def execLinSlot (ch : LinCh) (s : State) : Out := done s (linSlot ch.val s)

/-- LIN_NO_RESPONSE (R236): the wait after a header has ended. -/
def linNoResponse (m : Nat) (s : State) : State :=
  let l := s.lin m
  match l.header with
  | some h =>
    if s.live && s.linRole m = 1 && h.past && l.sending.isNone && s.now ≥ h.at_ + (s.linBits m (14 * (h.len + 1))) then
      let s := s.linEnd m
      if h.kind = .event then s else s.bump (linReg m 0x108)
    else s
  | none => s
def execLinNoResponse (ch : LinCh) (s : State) : Out := done s (linNoResponse ch.val s)

/-! Sleep (R323). -/

/-- Cycles of the countdown in Ebb that are left (R320). -/
def State.ebbLeft (s : State) : Nat := s.nm.countAt + s.ebbCycles - s.now

/-- The go-to-sleep command begins and the schedule has ended (R323). -/
def State.linSleep (s : State) (m : Nat) : State :=
  let s := s.linSent m
  let l := s.lin m
  let s := s.setLin m { l with running := false, rets := [], collNext := none, started := false, pending := none, asleep := true,
                               sleepDue := false,
                               resume := if l.running then some ((l.rets.getLast?.map (·.1)).getD l.table) else none }
  s.linSendHeader m 0x3C .sleep

/-- GO_TO_SLEEP (R323): every commander ends its schedule at the end of its current slot and then sends the command. -/
def goToSleep (s : State) : State :=
  if s.live && s.nm.state = .ebb && !s.secondary && s.ebbLeft ≤ msCycles 50 then
    foldN 16 (fun s m =>
      let l := s.lin m
      if s.linRole m = 1 && !l.asleep then
        if l.running && l.started && s.now < l.slotEnd then s.setLin m { l with sleepDue := true } else s.linSleep m
      else s) s
  else s
def execGoToSleep (s : State) : Out := done s (goToSleep s)

/-- LIN_RESTART (R323): 100 ms after the wake-up signal the table that was running restarts. -/
def linRestart (m : Nat) (s : State) : State :=
  let l := s.lin m
  match l.wakeAt with
  | some t =>
    if s.live && s.now ≥ t + msCycles 100 then
      let s := s.setLin m { l with wakeAt := none, resume := none }
      match l.resume with
      | some tb => s.linStart m tb
      | none => s
    else s
  | none => s
def execLinRestart (ch : LinCh) (s : State) : Out := done s (linRestart ch.val s)

/-! What a channel does of itself. -/

/-- The bus of a channel has been idle for 25 bit times (R240). -/
def State.linIdle (s : State) (m : Nat) : Bool :=
  let l := s.lin m
  l.sending.isNone && decide (s.now ≥ s.linBits m 25 + (match l.header with
    | some h => if h.past then h.at_ + s.linBits m (14 * (h.len + 1)) else s.now + 1
    | none => l.idleFrom))

/-- A commander starts its initial table, if that passes the check of a switch (R235, R240). -/
def State.linFirst (s : State) (m : Nat) : State :=
  let t := s.param (0x0960 + m)
  let s := s.setLin m { s.lin m with initDue := false }
  if s.linRole m ≠ 1 || t ≥ 8 then s
  else if s.linTableOk m t then s.linStart m (Fin.ofNat 8 t) else s.bump (linReg m 0x128)

/-- A change of role or rate takes effect at bus idle; a channel whose role changes leaves what it was doing (R228, R240). -/
def State.linFollow (s : State) (m : Nat) : State :=
  let l := s.lin m
  match l.old with
  | some (r, _) =>
    if s.linIdle m then
      if r = s.param (0x0900 + m) then s.setLin m { l with old := none }
      else
        let t := s.setLin m { l with old := none, running := false, rets := [], collNext := none, pending := none, started := false, header := none,
                                     sending := none, asleep := false, sleepDue := false, resume := none, wakeAt := none }
        if l.initDue then t.linFirst m else t
    else s
  | none => s

/-- Role or rate of a channel is set; `role` and `rate` were in force before (R240). -/
def State.linChange (s : State) (m role rate : Nat) : State :=
  let l := s.lin m
  (if l.old.isSome then s else s.setLin m { l with old := some (role, rate) }).linFollow m

/-- One cycle of a channel: a header completes, go-to-sleep begins at the end of a slot, a change of role or rate takes effect. -/
def State.linCycle (s : State) (m : Nat) : State :=
  let l := s.lin m
  let s := match l.header with
    | some h => if !h.past && s.now ≥ h.at_ then s.linComplete m h else s
    | none => s
  let s := if (s.lin m).sleepDue && !s.secondary && s.now ≥ (s.lin m).slotEnd then s.linSleep m else s
  let s := s.linFollow m
  if (s.lin m).initDue && (s.lin m).old.isNone && s.linIdle m then s.linFirst m else s

/-- One cycle of every LIN channel. -/
def State.linTick (s : State) : State := s.bus.lin.foldl (fun s e => s.linCycle e.1) s

/-! Reception. -/

/-- Store a response in object `i`, with the timestamp of its header (R212, R230). -/
def State.linStore (s : State) (m i : Nat) (data : List Byte) (ts : Word) : State :=
  let a := linObj m i
  let f := s.linFlags m i
  let lost := bit f 0
  let s := s.setLinFlags m i (f ||| (if lost then 3 else 1))
  let s := s.wr (a + 8) 4 ts.toNat
  let s := s.wr (a + 12) 4 (s.rd (a + 12) 4 + 1)
  let s := s.wrB (a + 16) data
  let s := s.linIrq m 0
  if lost then (s.linIrq m 1).bump (linReg m 0x124) else s

end Sys2Proof.Machine
end

