-- ==== Sys2Proof/Machine/Gateway.lean ====
section
/-! DEFINITION. The gateway engine: check-value units, updates, runs, ACF frames, and the receptions that feed it (R209,
R231, R241 to R262).
Choices where the rules leave one open: log entry 15. -/

namespace Sys2Proof.Machine

/-- A register of the gateway block (R22, R261). -/
def gwReg (off : Nat) : Nat := 0x0A040000 + off
/-- Address of a gateway object (R241). -/
def goAddr (g : Nat) : Nat := 0x04780000 + g * 256
/-- Address of a gateway long area (R241). -/
def goLong (j : Nat) : Nat := 0x04240000 + j * 2048
/-- Address of an ACF slot (R241). -/
def slotAddr (i : Nat) : Nat := 0x04250000 + i * 32

/-! Check-value units (R256, R257). -/

/-- The `w` low bits of `v` in reverse order. -/
def reflect (w v : Nat) : Nat := (List.range w).foldl (fun a i => a * 2 + v / 2 ^ i % 2) 0

/-- One byte into the running value of a CRC (R256). -/
def cvByte (w poly : Nat) (refin : Bool) (run : Nat) (b : Byte) : Nat :=
  let x := if refin then reflect 8 b.toNat else b.toNat
  (List.range 8).foldl (fun r i =>
    let top := r / 2 ^ (w - 1) % 2
    let s := r * 2 % 2 ^ w
    if (top + x / 2 ^ (7 - i)) % 2 = 1 then s ^^^ poly else s) run

/-- The result of a CRC from its running value (R256). -/
def cvResult (w xor_ : Nat) (refout : Bool) (run : Nat) : Nat := (if refout then reflect w run else run) ^^^ xor_

/-- WIDTH, REFIN, REFOUT of a configuration word. -/
def cvWidth (cfg : BitVec 10) : Nat := cfg.toNat % 128

/-- CV_RESULT (R257). -/
def CvUnit.result (c : CvUnit) : BitVec 64 :=
  if c.cfg.getLsbD 9 then
    BitVec.ofNat 64 (cvResult (cvWidth c.aCfg) c.aXor.toNat (c.aCfg.getLsbD 8) c.run.toNat)
  else c.gwRes

/-- CV_START in MODE 1 (R256). -/
def cvStart (u : Nat) (s : State) : State :=
  let c := s.cv u
  if s.live && c.cfg.getLsbD 9 then
    s.setCv u { c with aPoly := c.poly, aXor := c.xor_, aCfg := c.cfg, run := c.init }
  else s
def execCvStart (u : Fin 8) (s : State) : Out := done s (cvStart u.val s)

/-- Feed bytes to a unit in MODE 1 (R256, R257). -/
def State.cvFeed (s : State) (u : Nat) (bs : List Byte) : State :=
  let c := s.cv u
  if s.live && c.cfg.getLsbD 9 then
    let w := cvWidth c.aCfg
    s.setCv u { c with run := BitVec.ofNat 64 (bs.foldl (cvByte w c.aPoly.toNat (c.aCfg.getLsbD 7)) c.run.toNat) }
  else s
/-- CV_FEED8. -/
def execCvFeed8 (u : Fin 8) (v : Byte) (s : State) : Out := done s (s.cvFeed u.val [v])
/-- CV_FEED16: the low byte first. -/
def execCvFeed16 (u : Fin 8) (v : BitVec 16) (s : State) : Out := done s (s.cvFeed u.val (natLe 2 v.toNat))
/-- CV_FEED32: the low byte first. -/
def execCvFeed32 (u : Fin 8) (v : Word) (s : State) : Out := done s (s.cvFeed u.val (natLe 4 v.toNat))

/-- A gateway computation in a MODE 0 unit: its value, and the unit after it (R257). -/
def State.cvGateway (s : State) (u : Nat) (bs : List Byte) : Nat × CvUnit :=
  let c := s.cv u
  let w := cvWidth c.cfg
  let run := bs.foldl (cvByte w c.poly.toNat (c.cfg.getLsbD 7)) c.init.toNat
  let r := cvResult w c.xor_.toNat (c.cfg.getLsbD 8) run
  -- the unused high bits of a check value are zero (R258)
  (r % 2 ^ w, { c with aPoly := c.poly, aXor := c.xor_, aCfg := c.cfg, run := BitVec.ofNat 64 run, gwRes := BitVec.ofNat 64 r })

/-- CV_LAST after a computation (R257). -/
def cvLast (route : Nat) (pass append : Bool) : Word :=
  BitVec.ofNat 32 (route + 4096 * b2n pass + 8192 * b2n append + 16384)

/-! Routes (R245). -/

/-- The routes whose VALID is 1, in ascending index. -/
def State.validRoutes (s : State) : List Nat :=
  s.mem.filterMap (fun e => if 0x04220000 ≤ e.1 && e.1 < 0x04240000 && e.1 % 32 = 0 && e.2.getLsbD 0
    then some ((e.1 - 0x04220000) / 32) else none)

/-- A route is cyclic: it sends, with TRIG 1 or 2 (R243). -/
def routeCyclic (w : Nat) : Bool := bits w 6 5 != 0 && (bits w 2 1 == 1 || bits w 2 1 == 2)

/-- Valid feeding routes from object `obj` of channel `chan`; `kind` 1 CAN, 2 LIN (R242). -/
def State.feeding (s : State) (kind chan obj : Nat) : List Nat :=
  s.validRoutes.filter (fun r => let w := s.route r; bits w 4 3 = kind && bits w 52 48 = chan && bits w 62 56 = obj)

/-- The PDU of a CAN message. -/
def canPdu (m : CanMsg) (ts : Word) : Pdu :=
  { id := m.id.toNat, ide := m.ide, fdf := m.fdf || m.xlf, xlf := m.xlf, brs := m.brs, rtr := m.rtr, sec := m.sec,
    sdt := m.sdt.toNat, vcid := m.vcid.toNat, af := m.af.toNat, data := m.data, ts := ts }

/-- The PDU of a LIN response. -/
def linPdu (i : Nat) (data : List Byte) (ts : Word) : Pdu :=
  { id := i, ide := false, fdf := false, xlf := false, brs := false, rtr := false, sec := false, sdt := 0, vcid := 0, af := 0,
    data := data, ts := ts }

/-! Gateway objects (R246). -/

/-- Bytes 0 to 31 of an object. -/
def State.goHead (s : State) (g : Nat) : Nat := s.rd (goAddr g) 32

/-- The objects whose VALID is 1, in ascending index. -/
def State.validGos (s : State) : List Nat :=
  s.mem.filterMap (fun e => if 0x04780000 ≤ e.1 && e.1 < 0x04800000 && e.1 % 256 = 0 && e.2.getLsbD 0
    then some ((e.1 - 0x04780000) / 256) else none)

/-- The long area that an object uses: no lower-numbered valid object names it (R246). -/
def State.goArea (s : State) (g : Nat) : Option Nat :=
  let f := fun i => let w := s.rd (goAddr i) 2; if bit w 0 && bit w 3 then some (bits w 8 4) else none
  match f g with
  | some j => if s.validGos.any (fun i => i < g && f i = some j) then none else some j
  | none => none

/-- The content of an object: LEN bytes. -/
def State.goData (s : State) (g : Nat) : List Byte :=
  let len := bits (s.goHead g) 203 192
  match s.goArea g with
  | some j => s.rdB (goLong j) len
  | none => s.rdB (goAddr g + 32) (min len 64)

/-- The body of an entry update of a gateway object: the entry, and its long area (R348, R351). -/
def State.goBody (s : State) (g : Nat) : List Byte :=
  s.rdB (goAddr g) 256 ++ (match s.goArea g with | some _ => s.goData g | none => [])

/-- A gateway object's content has changed (R351). -/
def State.mirrorGo (s : State) (g : Nat) : State :=
  let w := s.goHead g
  s.entryUpdate 5 g (bits w 143 128) (bit w 0) (s.goBody g)

/-- A field of a number replaced. -/
def setBits (w hi lo v : Nat) : Nat := w - bits w hi lo * 2 ^ lo + v % 2 ^ (hi + 1 - lo) * 2 ^ lo

/-- Substitute data of an object (R246). -/
def State.goSubst (s : State) (g : Nat) : List Byte := s.rdB (goAddr g + 96) (min 64 (bits (s.rd (goAddr g + 160) 1) 6 0))

/-- Write `data` as the content of an object and count the update (R242, R259). `w` is its head with the fields that the
update sets. -/
def State.goWrite (s : State) (g w : Nat) (data : List Byte) : State :=
  let w := setBits w 95 64 (bits w 95 64 + 1)
  let w := setBits w 143 128 (bits w 143 128 + 1)
  let w := setBits w 203 192 data.length
  let area := s.goArea g
  let s := s.wr (goAddr g) 32 w
  let s := match area with
    | some j => s.wrB (goLong j) data
    | none => s.wrB (goAddr g + 32) data
  let s := { s with bus.goTick := SMap.set 0 s.bus.goTick g s.tick, bus.goTime := SMap.set 0 s.bus.goTime g (ltNs s.time.ltime) }
  (s.add64 (gwReg 0x110) 1).mirrorGo g

/-- The check of an update's PDU (R258): the bytes that the object takes, or none for a failed check. -/
def State.e2eCheck (s : State) (r w : Nat) (data : List Byte) : Option (List Byte) × State :=
  let u := bits w 24 22
  let c := s.cv u
  let b := (cvWidth c.cfg + 7) / 8
  if c.cfg.getLsbD 9 then (none, s)
  else if data.length < b then (none, s)
  else
    let body := data.take (data.length - b)
    let (v, c) := s.cvGateway u ((if bit w 25 then natLe 2 (bits w 47 32) else []) ++ body)
    let pass := v = beNat (data.drop body.length)
    (if pass then some body else none, s.setCv u { c with last := cvLast r pass false })

/-- Route `r` makes an update of its object (R242, R246, R247, R258, R259); true: the update was made. -/
def State.goUpdate (s : State) (r : Nat) (p : Pdu) : Bool × State :=
  let w := s.route r
  let g := bits w 18 8
  let o := s.goHead g
  let fail := fun (s : State) => s.bump (routeCnt r 12)
  if !bit o 0 then (false, fail s)
  else if bit o 1 && bit o 60 && !bit o 32 && bits o 59 48 ≠ r then (false, s.bump (gwReg 0x13C))
  else if p.data.length > 64 && (s.goArea g).isNone then (false, fail s)
  else
    let (d, s) := if bits w 21 20 = 1 then s.e2eCheck r w p.data else (some p.data, s)
    let o := setBits o 127 48 (r + 4096 + bits o 95 64 * 2 ^ 16 + p.ts.toNat * 2 ^ 48)
    let o := setBits o 191 160 (p.id % 2 ^ 29 + b2n p.ide * 2 ^ 29 + b2n p.fdf * 2 ^ 30 + b2n p.xlf * 2 ^ 31)
    let o := setBits o 206 204 (b2n p.brs + 2 * b2n p.rtr + 4 * b2n p.sec)
    let o := setBits o 255 208 (p.sdt % 256 + p.vcid % 256 * 2 ^ 8 + p.af * 2 ^ 16)
    match d with
    | some d => (true, s.goWrite g (setBits o 34 32 0) d)
    | none => (true, (fail s).bump (gwReg 0x138) |>.goWrite g (setBits o 34 32 (bits o 32 32 + 6)) (s.goSubst g))

/-! Runs (R243, R248, R250). -/

/-- What becomes of a run: handed over; refused for room; ended, counted by ROUTE_FAIL; a frame not built for its length. -/
inductive RunEnd where
  | handed | refused | failed | tooLong
  deriving DecidableEq, Repr

/-- The content that a run sends: padded to a length that the destination holds, with the check value of E2E_MODE 2
(R248, R258). `fit` gives that length, `pad` the filling byte. None: the destination cannot hold it. -/
def State.runData (s : State) (r w : Nat) (data : List Byte) (fit : Nat → Option Nat) (pad : Byte) : Option (List Byte) × State :=
  if bits w 21 20 = 2 then
    let u := bits w 24 22
    let c := s.cv u
    let b := (cvWidth c.cfg + 7) / 8
    if c.cfg.getLsbD 9 then (none, s)
    else
      match fit (data.length + b) with
      | none => (none, s)
      | some n =>
        let body := data ++ List.replicate (n - b - data.length) pad
        let (v, c) := s.cvGateway u ((if bit w 25 then natLe 2 (bits w 47 32) else []) ++ body)
        (some (body ++ natBe b v), s.setCv u { c with last := cvLast r true true })
  else
    match fit data.length with
    | none => (none, s)
    | some n => (some (data ++ List.replicate (n - data.length) pad), s)

/-- A run to a CAN channel (R248). -/
def State.runCan (s : State) (r w : Nat) : RunEnd × State :=
  let g := bits w 18 8
  let o := s.goHead g
  let fmt := bits w 121 120
  let n := bits w 116 112
  let c := s.can n
  let rtr := bit o 205
  let len := bits o 203 192
  let fk := if fmt = 3 then 3 else if fmt = 0 then 0 else 1
  let (d, s) :=
    -- a remote frame carries its length and no data
    if rtr then (if fmt = 0 && bits w 21 20 ≠ 2 && (canFit 0 len).isSome then (some [], s) else (none, s))
    else if fmt = 3 && len = 0 then (none, s)
    else s.runData r w (s.goData g) (canFit fk) 0
  match d with
  | none => (.failed, s)
  | some d =>
    let off := c.mode = 0 || c.mode = 3 || ((fmt = 1 || fmt = 2) && !c.opts.getLsbD 0) || (fmt = 3 && !c.opts.getLsbD 1)
    if off then (.failed, s)
    else
      let m : CanMsg :=
        { id := BitVec.ofNat 29 (if fmt = 3 then bits w 138 128 else bits w 156 128), ide := bit w 122, fdf := fmt ≠ 0, xlf := fmt = 3, brs := fmt = 2, esi := false,
          rtr := rtr, sec := fmt = 3 && bit o 206, dlc := if fmt = 3 then 0 else canDlc (if rtr then len else d.length),
          sdt := if fmt = 3 then BitVec.ofNat 8 (bits o 215 208) else 0, vcid := if fmt = 3 then BitVec.ofNat 8 (bits o 223 216) else 0,
          af := if fmt = 3 then BitVec.ofNat 32 (bits o 255 224) else 0, data := d }
      let e : CanEntry := { msg := m, src := 4 + r, tag := 0, lifetime := bits w 207 192, tick := s.tick, long := none }
      match s.canPut n e (bit w 184) with
      | some s => (.handed, s)
      | none => (.refused, s)

/-- A run to a LIN frame object (R248). -/
def State.runLin (s : State) (r w : Nat) : RunEnd × State :=
  let m := bits w 116 112
  let i := bits w 133 128
  let n := (s.linCfg m i).len
  let (d, s) := s.runData r w (s.goData (bits w 18 8)) (fun l => if l ≤ n then some n else none) 0xFF
  match d with
  | none => (.failed, s)
  | some d => (.handed, s.linCommit m i d)

/-- An ACF header: type, length in quadlets. -/
def acfHead (type bytes : Nat) : List Byte := natBe 2 (type * 512 + bytes / 4)

/-- Zero bytes up to a multiple of four. -/
def padQuad (bs : List Byte) : List Byte := fitBytes ((bs.length + 3) / 4 * 4) bs

/-- The ACF message of a run (R249, R252); none: too long for its type. -/
def State.acfMessage (s : State) (w : Nat) (d : List Byte) : Option (List Byte) :=
  let g := bits w 18 8
  let o := s.goHead g
  let bus := bits w 172 168
  let stamp := natBe 8 (SMap.get 0 s.bus.goTime g)
  let pad := (4 - d.length % 4) % 4
  let id := bits w 156 128
  match bits w 121 120 with
  | 0 =>
    let flags := pad * 64 + 32 + 16 * b2n (bit o 205) + 8 * b2n (bit w 122) + 4 * b2n (bit o 204) + 2 * b2n (bit o 190 || d.length > 8)
    if d.length > 64 then none
    else some (acfHead 1 (16 + d.length + pad) ++ [BitVec.ofNat 8 flags, BitVec.ofNat 8 bus] ++ stamp ++ natBe 4 id ++ padQuad d)
  | 1 =>
    if d.length > 8 then none
    else some (acfHead 3 (12 + d.length + pad) ++ [BitVec.ofNat 8 (pad * 64 + 32 + bus), BitVec.ofNat 8 (id % 64)] ++ stamp ++ padQuad d)
  | _ =>
    if d.length > 2032 then none
    else
      let mid := bus * 2 ^ 43 + (d.length - 1) % 2048 * 2 ^ 32 + bits o 215 208 * 2 ^ 24 + bits o 223 216 * 2 ^ 16 +
        b2n (bit o 206) * 2 ^ 15 + id % 2048
      some (acfHead 5 (8 + 4 + d.length + pad) ++ natBe 6 mid ++ natBe 4 (bits o 255 224) ++ padQuad d)

/-- A run to an ACF slot (R250, R252, R262). -/
def State.runAcf (s : State) (r w : Nat) : RunEnd × State :=
  let i := bits w 167 160
  let sl := s.rd (slotAddr i) 32
  let g := bits w 18 8
  let sa := s.param 0x0B01
  let fmt := bits w 121 120
  if !bit sl 0 || !bit sl 1 || sa = 0 then (.failed, s)
  else
    let cap := if fmt = 0 then 64 else if fmt = 1 then 8 else 2048
    let (d, s) := if fmt = 2 && bits (s.goHead g) 203 192 = 0 then (none, s)
      else s.runData r w (s.goData g) (fun l => if l ≤ cap then some l else none) 0
    match d with
    | none => (.failed, s)
    | some d =>
      match s.acfMessage w d with
      | none => (.tooLong, s.bump (gwReg 0x134))
      | some msg =>
        let cls := bits w 178 176
        let frame := natLe 6 (bits sl 79 32) ++ natLe 6 sa ++ natBe 2 0x8100 ++ natBe 2 (cls * 8192 + bits sl 27 16) ++
          natBe 2 0x22F0 ++ [0x82] ++ natBe 2 (0x8000 + msg.length) ++ [BitVec.ofNat 8 (bits sl 199 192)] ++
          natLe 8 (bits sl 191 128) ++ msg
        if frame.length + 4 > s.param (0x0280 + 23) then (.tooLong, s.bump (gwReg 0x134))
        else
          let f : RxFrame := { port := 23, unit := .express, bytes := frame, codeErr := false,
                               cls := BitVec.ofNat 3 cls, dom := BitVec.ofNat 4 (bits w 183 180) }
          let (ok, s) := s.handOver f
          if ok then (.handed, (s.wr (slotAddr i + 24) 1 ((bits sl 199 192 + 1) % 256)).add64 (gwReg 0x108) 1) else (.refused, s)

/-- One run of route `r` (R243, R248, R250). -/
def State.goRun (s : State) (r : Nat) : RunEnd × State :=
  let w := s.route r
  let g := bits w 18 8
  let (e, s') :=
    if !bit (s.goHead g) 0 then (.failed, s)
    else match bits w 6 5 with
      | 1 => s.runCan r w
      | 2 => s.runLin r w
      | _ => s.runAcf r w
  match e with
  | .handed =>
    let x := s'.run r
    (.handed, (s'.setRun r { x with useq := some (BitVec.ofNat 32 (bits (s'.goHead g) 95 64)) }).bump (routeCnt r 0))
  | .failed => (.failed, s'.bump (routeCnt r 12))
  | e => (e, s')

/-- The event runs that follow an update of object `g` (R243, R244). -/
def State.eventRuns (s : State) (g : Nat) : State :=
  (s.validRoutes.filter (fun r => let w := s.route r; bits w 18 8 = g && bits w 6 5 ≠ 0 && bits w 2 1 = 0)).foldl
    (fun s r =>
      let (e, s) := s.goRun r
      if e = .refused then s.bump (routeCnt r 12) else s) s

/-- Every route of `rs` makes its update, each followed by its event runs (R242 to R244). The secondary makes none (R350). -/
def State.feed (s : State) (rs : List Nat) (p : Pdu) : State :=
  if s.secondary then s
  else rs.foldl (fun s r =>
    let g := bits (s.route r) 18 8
    let (m, s) := s.goUpdate r p
    if m then s.eventRuns g else s) s

/-! Cyclic runs (R254, R255). Local time in ns; boundary B_k lies at PHASE + k · PERIOD. -/

/-- The number of boundaries that local time has reached; the last of them is B_(n - 1). -/
def State.boundaries (s : State) (w : Nat) : Nat :=
  let t := ltNs s.time.ltime
  if t < routePhase w then 0 else (t - routePhase w) / routePeriod w + 1

/-- A cyclic route may run (R254, R324, R350). -/
def State.routeRuns (s : State) (r : Nat) : Bool :=
  let w := s.route r
  s.live && bit w 0 && routeCyclic w && !s.secondary && s.nm.state != .commit

/-- Take run `k` in hand at its start, with its overrun if B_(k+1) has passed. -/
def State.takeRun (s : State) (r k startAt : Nat) : State :=
  let ovr := s.boundaries (s.route r) ≥ k + 2
  let s := s.setRun r { s.run r with cur := some k, trying := false, startAt := startAt, overrun := if ovr then k + 1 else (s.run r).overrun }
  if ovr then s.bump (routeCnt r 4) else s

/-- The first boundary that a step of local time has not skipped: it lies where local time has been continuous since (R57). -/
def State.firstBoundary (s : State) (w : Nat) : Nat :=
  let f := (s.time.since + nsUnit - 1) / nsUnit
  if f ≤ routePhase w then 0 else (f - routePhase w + routePeriod w - 1) / routePeriod w

/-- Run `k` has been handed over now: where the next one begins (R255). Boundaries that a step has skipped meanwhile are counted and
not made up (R57). -/
def State.afterRun (s : State) (r k : Nat) : State :=
  let w := s.route r
  let per := routePeriod w
  let ph := routePhase w
  let h := ltNs s.time.ltime
  let early := h + per * 3 / 4
  let b := fun k => ph + k * per
  let d := s.param 0x0B02
  let next := max (k + 1) (s.firstBoundary w)
  let s := s.bumpBy (routeCnt r 8) (next - (k + 1))
  let s := s.setRun r { s.run r with last := some (next - 1), cur := none, trying := false }
  if early ≤ b next then s
  else if early ≤ b next + d * per then s.takeRun r next early
  else
    -- the smallest j with B_j + D · PERIOD at least H + 0.75 · PERIOD
    let j := (early - d * per - ph + per - 1) / per
    let s := s.bumpBy (routeCnt r 8) (j - next)
    if early ≤ b j then s.setRun r { s.run r with last := some (j - 1) } else s.takeRun r j early

/-- Run `k` has not been handed over by B_(k+1): it has overrun, and counts once (R255). -/
def State.noteOverrun (s : State) (r k : Nat) : State :=
  let x := s.run r
  if s.boundaries (s.route r) ≥ k + 2 && x.overrun < k + 1 then (s.setRun r { x with overrun := k + 1 }).bump (routeCnt r 4) else s

/-- Try the run in hand: handed over, refused until a retry, or ended (R254, R255). -/
def State.tryRun (s : State) (r k : Nat) : State :=
  let w := s.route r
  let same := bits w 2 1 = 2 && bits (s.goHead (bits w 18 8)) 95 64 = ((s.run r).useq.getD 0).toNat
  if same && !(s.run r).trying then s.setRun r { s.run r with last := some k, cur := none, trying := false }
  else
    let s := s.noteOverrun r k
    let (e, s) := s.goRun r
    match e with
    | .handed => s.afterRun r k
    | .refused => s.setRun r { s.run r with trying := true, retryAt := s.now + usCycles (s.param 0x0B03) }
    | _ => s.setRun r { s.run r with last := some k, cur := none, trying := false }

/-- The longest time in ns that a run waits in the engine: 2,047 cyclic runs ahead of it (R244). -/
def runWait : Nat := (4 * 2048 + 40) * 5 / 4

/-- A boundary of a route has just been reached, and its run is not in hand nor past: its index (R57, R254). -/
def State.newBoundary (s : State) (r : Nat) : Option Nat :=
  let w := s.route r
  let n := s.boundaries w
  let x := s.run r
  if n = 0 || x.cur.isSome then none
  else
    let k := n - 1
    if s.firstBoundary w ≤ k && ltNs s.time.ltime ≤ routePhase w + k * routePeriod w + runWait &&
       (match x.last with | some l => decide (l < k) | none => true) then some k else none

/-- The run of a boundary begins; boundaries passed over since the last run are counted (R57, R255). -/
def State.boundaryRun (s : State) (r k : Nat) : State :=
  let x := s.run r
  let s := match x.last with | some l => s.bumpBy (routeCnt r 8) (k - l - 1) | none => s
  (s.setRun r { x with cur := some k, startAt := ltNs s.time.ltime }).tryRun r k

/-- The run in hand may be tried now: its retry is due (R254), or the spacing rule lets it begin (R255). -/
def State.runReady (s : State) (r : Nat) (retry : Bool) : Option Nat :=
  let x := s.run r
  match x.cur with
  | some k => if x.trying = retry && (if retry then decide (s.now ≥ x.retryAt) else decide (ltNs s.time.ltime ≥ x.startAt)) then some k else none
  | none => none

/-- Make what is due of a route. -/
def State.cyclicRun (s : State) (r : Nat) : State :=
  if !s.routeRuns r then s
  else
    match s.newBoundary r, s.runReady r true, s.runReady r false with
    | some k, _, _ => s.boundaryRun r k
    | none, some k, _ => s.tryRun r k
    | none, none, some k => s.tryRun r k
    | none, none, none => s

/-- Cyclic runs due at one instant are made in ascending route index: those of lower index come first (R244). -/
def State.runLower (s : State) (r : Nat) : State := (s.validRoutes.filter (· < r)).foldl State.cyclicRun s

/-- PERIOD_BOUNDARY (R254, R255, R57). -/
def periodBoundary (r : Nat) (s : State) : State :=
  if !s.routeRuns r then s
  else
    match (s.run r).cur with
    | some k => s.noteOverrun r k
    | none => match s.newBoundary r with
      | some k => (s.runLower r).boundaryRun r k
      | none => s
def execPeriodBoundary (route : Fin 4096) (s : State) : Out := done s (periodBoundary route.val s)

/-- RUN_RETRY (R254). -/
def runRetry (r : Nat) (s : State) : State :=
  match s.runReady r true with
  | some k => if s.routeRuns r then (s.runLower r).tryRun r k else s
  | none => s
def execRunRetry (route : Fin 4096) (s : State) : Out := done s (runRetry route.val s)

/-- SPACED_RUN (R255). -/
def spacedRun (r : Nat) (s : State) : State :=
  match s.runReady r false with
  | some k => if s.routeRuns r then (s.runLower r).tryRun r k else s
  | none => s
def execSpacedRun (route : Fin 4096) (s : State) : Out := done s (spacedRun route.val s)

/-- GW_STALE (R259): the millisecond tick passes TIMEOUT after the last update. -/
def gwStale (g : Nat) (s : State) : State :=
  let o := s.goHead g
  let t := bits o 31 16
  let age := (s.tick + 2 ^ 32 - SMap.get 0 s.bus.goTick g) % 2 ^ 32
  if s.live && !s.secondary && bit o 0 && bit o 60 && t ≠ 0 && !bit o 32 && age > t then
    let s := s.bump (gwReg 0x140)
    let o := setBits o 32 32 1
    if bit o 2 then
      (s.goWrite g (setBits (setBits o 34 34 1) 127 96 s.ts.toNat) (s.goSubst g)).eventRuns g
    else (s.wr (goAddr g) 32 o).mirrorGo g
  else s
def execGwStale (obj : Fin 2048) (s : State) : Out := done s (gwStale obj.val s)

/-! IEEE 1722 frames (R251 to R253). -/

/-- A supported ACF message: bus_id, SRC_ACF kind, eff, identifier and PDU. -/
structure AcfMsg where
  bus  : Nat
  kind : Nat
  eff  : Bool
  esi  : Bool
  id   : Nat
  pdu  : Pdu
  deriving DecidableEq, Repr

/-- What one ACF message is. -/
inductive AcfItem where
  | malformed
  | unsupported
  | msg (m : AcfMsg)
  deriving DecidableEq, Repr

/-- The ACF message in `b`, whole with its header (R251, R252). -/
def acfItem (b : List Byte) (ts : Word) : AcfItem :=
  let t := byteAt b 0 / 2
  let n := b.length
  let fl := byteAt b 2
  let pad := fl / 64
  if t = 1 || t = 2 then
    let h := if t = 1 then 16 else 8
    if n < h + pad then .malformed
    else
      let data := (b.drop h).take (n - h - pad)
      let id := beNat (slice b (h - 4) 4) % 2 ^ 29
      let p : Pdu := { id := id, ide := bit fl 3, fdf := bit fl 1, xlf := false, brs := bit fl 2, rtr := bit fl 4, sec := false,
                       sdt := 0, vcid := 0, af := 0, data := data, ts := ts }
      .msg { bus := byteAt b 3 % 32, kind := 0, eff := bit fl 3, esi := bit fl 0, id := id, pdu := p }
  else if t = 3 then
    if n < 12 + pad then .malformed
    else
      let id := byteAt b 3 % 64
      .msg { bus := fl % 32, kind := 1, eff := false, esi := false, id := id, pdu := linPdu id ((b.drop 12).take (n - 12 - pad)) ts }
  else if t = 5 then
    let mid := beNat (slice b 2 6)
    let len := bits mid 42 32 + 1
    if n < 12 || len > n - 12 then .malformed
    else
      let id := bits mid 10 0
      let p : Pdu := { id := id, ide := false, fdf := true, xlf := true, brs := false, rtr := false, sec := bit mid 15,
                       sdt := bits mid 31 24, vcid := bits mid 23 16, af := beNat (slice b 8 4), data := (b.drop 12).take len, ts := ts }
      .msg { bus := bits mid 47 43, kind := 2, eff := false, esi := false, id := id, pdu := p }
  else .unsupported

/-- The feeding routes that match an ACF message of a slot (R253). -/
def State.acfRoutes (s : State) (slot : Nat) (m : AcfMsg) : List Nat :=
  s.validRoutes.filter (fun r =>
    let w := s.route r
    bits w 4 3 = 3 && bits w 71 64 = slot && bits w 52 48 = m.bus && bits w 73 72 = m.kind &&
    (m.kind ≠ 0 || bit w 76 = m.eff) &&
    (if m.kind = 1 then bits w 85 80 else if m.kind = 2 then bits w 90 80 else bits w 108 80) = m.id)

/-- The CAN message that a PDU stands for at the screen (R180). -/
def pduMsg (p : Pdu) (esi : Bool) : CanMsg :=
  { id := BitVec.ofNat 29 p.id, ide := p.ide, fdf := p.fdf, xlf := p.xlf, brs := p.brs, esi := esi, rtr := p.rtr, sec := p.sec,
    dlc := if p.xlf then 0 else canDlc ((canFit 1 p.data.length).getD 64), sdt := BitVec.ofNat 8 p.sdt,
    vcid := BitVec.ofNat 8 p.vcid, af := BitVec.ofNat 32 p.af, data := p.data }

/-- One message goes to the screen, to feed its routes if it passes (R253). -/
def State.acfTake (s : State) (slot : Nat) (m : AcfMsg) : State :=
  let rs := s.acfRoutes slot m
  let chan := match rs.head? with
    | some r => let w := s.route r; if bits w 6 5 = 1 || bits w 6 5 = 2 then bits w 116 112 else m.bus
    | none => m.bus
  let key := if m.kind = 1 then linKey chan true rs.head? m.id false m.pdu.data else canKey chan true rs.head? (pduMsg m.pdu m.esi)
  s.postKey (.acf rs m.pdu) key m.pdu.data

/-- What is left to take of the frame in hand. -/
def State.gwRest (s : State) (r : Option (Nat × Word × List Byte)) : State := { s with scr.gw := { s.scr.gw with rest := r } }

/-- The next message of the frame in hand enters the queue of the screen, or is skipped (R251). -/
def State.acfNext (s : State) (slot : Nat) (ts : Word) (b : List Byte) : State :=
  let len := (byteAt b 0 % 2 * 256 + byteAt b 1) * 4
  let on_ := if (b.drop len).isEmpty then none else some (slot, ts, b.drop len)
  if len = 0 || len > b.length then (s.bump (gwReg 0x11C)).gwRest none
  else
    match acfItem (b.take len) ts with
    | .malformed => (s.bump (gwReg 0x11C)).gwRest none
    | .unsupported => (s.bump (gwReg 0x120)).gwRest on_
    | .msg m => (s.acfTake slot m).gwRest on_

/-- Messages of the frame in hand enter the queue as it has room for them, 64 keys (R194); `n` bounds their number. -/
def State.acfWalk : Nat → State → State
  | 0, s => s
  | n + 1, s =>
    match s.scr.gw.rest with
    | some (slot, ts, b) => if s.scr.gw.second.length < 64 then State.acfWalk n (s.acfNext slot ts b) else s
    | none => s
def State.acfRefill (s : State) : State :=
  State.acfWalk (match s.scr.gw.rest with | some (_, _, b) => b.length | none => 0) s

/-- A frame, DA on and without FCS, has reached the gateway at P23 and is taken apart (R251). -/
def State.acfFrame (s : State) (b : List Byte) (stomped : Bool) : State :=
  if stomped then s.bump (gwReg 0x12C)
  else
    let p := parseFrame b (b.length + 4)
    let a := b.drop (p.etOff + 2)
    let sub := byteAt a 0
    let slot := (List.range 256).find? (fun i =>
      let sl := s.rd (slotAddr i) 32
      bit sl 0 && !bit sl 1 && natLe 8 (bits sl 191 128) = slice a 4 8 && (sub = 0x82 || bit sl 2))
    let sv := byteAt a 1
    if p.etype ≠ 0x22F0 || a.length < 12 || (sub ≠ 0x82 && sub ≠ 0x02) || !bit sv 7 || bits sv 6 4 ≠ 0 then s.bump (gwReg 0x118)
    else
      match slot with
      | none => s.bump (gwReg 0x118)
      | some i =>
        let len := if sub = 0x82 then be16 a 1 % 2048 else be16 a 20
        let h := if sub = 0x82 then 12 else 24
        let seq := byteAt a (if sub = 0x82 then 3 else 2)
        if len = 0 then s.bump (gwReg 0x128)
        else
          let s := s.add64 (gwReg 0x100) 1
          let old := s.rd (slotAddr i + 24) 1
          let s := if seq = (old + 1) % 256 then s else s.bump (gwReg 0x130)
          let s := s.wr (slotAddr i + 24) 1 seq
          (s.gwRest (some (i, s.ts, (a.drop h).take len))).acfRefill

/-- ACF_FRAME_RECEIVE (R251): the gateway takes the frame named, the oldest that has left the fabric at P23, once every message of the one before it
has gone to the screen (R194). -/
def acfFrameReceive (b : List Byte) (stomped : Bool) (s : State) : State :=
  match s.sw.toGw with
  | f :: rest => if s.live && f == (b, stomped) && s.scr.gw.rest.isNone then { s with sw.toGw := rest }.acfFrame b stomped else s
  | [] => s
def execAcfFrameReceive (bytes : List Byte) (stomped : Bool) (s : State) : Out := done s (acfFrameReceive bytes stomped s)

/-! Reception on the edge buses. -/

/-- Count a keep-alive on a CAN channel (R316, R317). -/
def State.canKeepAlive (s : State) (n : Nat) (m : CanMsg) : State :=
  let base := s.param 0x0C11
  let id := m.id.toNat
  if !s.paramBit 0x0C10 n || m.ide || m.xlf || id < base || id > min (base + 255) 0x7FF then s
  else
    let node := id - base
    let x := s.node node
    let silent := match x.lastKa with | some t => decide (s.now ≥ t + s.ebbCycles) | none => true
    let good := m.data.length ≥ 2 && byteAt m.data 0 = node && bit (byteAt m.data 1) 0
    if !good then { s with nm.badKa := satInc s.nm.badKa }
    else
      let s := if x.ignored && !silent then { s with nm.badKa := satInc s.nm.badKa } else s
      s.countKa node (bit (byteAt m.data 1) 1) (1 + n)

/-- A frame is received well: REC falls, Normal mode and restricted operation acknowledge, and the bus is idle after the last bit of
end-of-frame and intermission (R204, R209, R221). -/
def State.canHeard (s : State) (n : Nat) : State :=
  let ack := s.canMode n = 1 || s.canMode n = 2
  let s := s.canGood n
  s.setCan n { s.can n with pstate := 2, busyTo := s.now + s.canBits n 4, ours := false, acked := ack }

/-- The screen has judged a message received on a channel (R209 to R212, R242, R317). -/
def State.canJudged (s : State) (n : Nat) (m : CanMsg) (own : Bool) (ts : Word) (obj : Option Nat) (rs : List Nat) (pass : Bool) : State :=
  let s := if pass then s else s.bump (canReg n 0x134)
  let ovr := match obj with | some k => m.xlf && m.data.length > 64 && (s.objLong n k).isNone | none => false
  let s := if ovr then s.bump (canReg n 0x138) else s
  let s := match obj with
    | some k => if pass && !ovr then (s.canStore n k m ts).feed rs (canPdu m ts) else s
    | none => s
  if pass && !own then s.canKeepAlive n m else s

/-- CAN_RECEIVE (R203, R204, R209 to R212, R242, R317). `own`: the message is the channel's own, heard as it is sent. -/
def canReceive (n : Nat) (m : CanMsg) (own : Bool) (age : Nat) (s : State) : State :=
  let c := s.can n
  let fmtOn := (!m.fdf || m.xlf || c.opts.getLsbD 0) && (!m.xlf || c.opts.getLsbD 1)
  let ready := if own then c.attempt.isSome && c.opts.getLsbD 7 else c.pstate = 2 || c.pstate = 3
  if !s.live || c.mode = 0 || !ready then s
  else if !fmtOn then
    -- protocol exception: the channel integrates anew (R203)
    if c.opts.getLsbD 8 && !own then s.setCan n { c with pstate := 1 } else s
  else
    let m := canNorm m
    let s := if own then s else s.canHeard n
    let s := s.add64 (canReg n 0x100) 1
    let obj := s.objFor n m
    let rs := match obj with | some k => s.feeding 1 n k | none => []
    let ts := ts32 (s.time.ltime - age * s.time.incr)
    let s := if obj.isNone then s.bump (canReg n 0x12C) else s
    s.postKey (.canRx (Fin.ofNat 32 n) m own ts obj rs) (canKey n false rs.head? m) m.data
def execCanReceive (ch : CanCh) (m : CanMsg) (own : Bool) (age : Nat) (s : State) : Out := done s (canReceive ch.val m own age s)

/-- A response that is received whole and without error goes to the screen, for object `o` (R231, R236). -/
def State.linTake (s : State) (m o : Nat) (enh : Bool) (data : List Byte) : State :=
  let rs := s.feeding 2 m o
  s.postKey (.linRx (Fin.ofNat 16 m) o data (s.lin m).headTs rs) (linKey m false rs.head? o enh data) data

/-- The screen has judged a response received (R231). -/
def State.linJudged (s : State) (m o : Nat) (data : List Byte) (ts : Word) (rs : List Nat) (pass : Bool) : State :=
  if pass then (s.linStore m o data ts).feed rs (linPdu o data ts) else s.bump (linReg m 0x130)

/-- A response to the header on the bus, sent by another node (R229, R231, R236). A framing error shows in any response; a checksum
error in one whose length the channel knows: its object is not ignored, or it is a diagnostic frame (log entry 14). -/
def State.linReceived (s : State) (m : Nat) (h : LinHdr) (r : LinRx) : State :=
  let c := h.cfg h.id
  let sumBad := (c.dir ≠ 0 || h.id = 0x3C || h.id = 0x3D || h.kind = .event) &&
    (r.data.length ≠ (if h.kind = .event then r.data.length else h.len) || r.checksum ≠ linChecksum h.id c.enh r.data)
  let s := s.linEnd m
  if h.kind = .event then
    if r.framing || sumBad || r.bitErr then
      let l := s.lin m
      let ct := bits (s.rd (linEntry m l.table.val l.entry.val) 8) 26 24
      ((s.setLin m { l with collNext := some (Fin.ofNat 8 ct) }).bump (linReg m 0x120)).linIrq m 5
    else
      let pid := byteAt r.data 0
      let o := pid % 64
      let oc := h.cfg o
      if linPid pid = pid && oc.dir = 1 && oc.len = r.data.length then s.linTake m o c.enh r.data else s
  else if r.framing then s.linError m 0x114
  else if sumBad then s.linError m 0x10C
  else
    let s := if s.linRole m = 2 && h.id = 0x3C && r.data = sleepData then s.setLin m { s.lin m with asleep := true } else s
    if c.dir = 1 then s.linTake m h.id c.enh r.data else s

/-- LIN_RESPONSE (R229, R231, R236): the response to the header on the bus completes. Before the header has completed, `bitErr` is a
mismatch in the commander's own header. -/
def linResponse (m : Nat) (r : LinRx) (s : State) : State :=
  let l := s.lin m
  if !s.live || s.linRole m = 0 then s
  else
    match l.header with
    | some h =>
      if !h.past then (if r.bitErr then ((s.linEnd m).bump (linReg m 0x118)).linIrq m 3 else s)
      else if l.sending.isSome then (if r.bitErr then (s.linEnd m).linError m 0x118 else s.linSent m)
      else s.linReceived m h r
    | none => s
def execLinResponse (ch : LinCh) (r : LinRx) (s : State) : Out := done s (linResponse ch.val r s)

/-! The gateway lookup port: what a verdict does to its unit (R194). -/

/-- The verdict on a unit of the gateway lookup port takes effect. -/
def State.gwJudged (s : State) (u : GwUnit) (pass : Bool) : State :=
  match u with
  | .canRx ch m own ts obj rs => s.canJudged ch.val m own ts obj rs pass
  | .linRx ch o data ts rs => s.linJudged ch.val o data ts rs pass
  | .acf rs p => if rs.isEmpty then s.bump (gwReg 0x124) else if pass then s.feed rs p else s
  | .push ch b prio e => s.pushJudged ch.val b.val prio e pass
  | .lpub ch o data => s.lpubJudged ch.val o data pass

/-- A step of a lookup at the gateway port that is due; the last one passes the verdict on. -/
def State.gwTurn (s : State) (l : GwLookup) : State :=
  if s.now < l.due then s
  else if l.hs < 6 then s.gwStep l
  else { s with scr.gw := { s.scr.gw with hand := s.scr.gw.hand.filter (fun x => x.from_ ≠ l.from_) } }.gwJudged l.k.unit l.verdict.pass

/-- One cycle of the gateway lookup port (R193, R194). -/
def State.gwTick (s : State) : State :=
  let s := s.acfRefill.gwAccept
  s.scr.gw.hand.foldl State.gwTurn s

end Sys2Proof.Machine
end

