-- ==== Sys2Proof/Machine/Token.lean ====
section
/-! DEFINITION. The maintenance token (R439 to R443).
Choices where the rules leave one open: log entry 28. -/

namespace Sys2Proof.Machine

/-- Code of an activity (R439). -/
def actCode : Activity → Nat
  | .scrub => 0 | .comparator => 1 | .staging => 2 | .otp => 3 | .resync => 4 | .memtest => 5

/-- The longest time in cycles that an activity holds the token (R439). -/
def actBound : Activity → Nat
  | .scrub => 7864000 | .comparator => 43688 | .staging => 48000 | .otp => 4800000 | .resync => 8000000 | .memtest => 4200000

/-- A request of the row's activity that finds the token held by `h` waits; else it is refused (R441). -/
def actWaits (h r : Activity) : Bool :=
  match r with
  | .staging | .resync | .comparator => true
  | .scrub | .otp | .memtest => h == .comparator || h == .staging

/-- The cycle in which the next in-service comparator test is due; none while it is disabled (R344, R441). -/
def State.cmpDue (s : State) : Option Nat :=
  if s.param 0x0D03 = 1 then some (match s.pw.token.lastCmp with | some t => t + msCycles 100 | none => 0) else none

/-- R344 holds the activity back: its hold would reach past the next comparator test. -/
def State.heldBack (s : State) (a : Activity) : Bool :=
  match s.cmpDue with
  | some d => a != .comparator && s.now + actBound a > d
  | none => false

/-- The answer to a request for the token. -/
inductive TokenAnswer where
  | granted | waits | busy
  deriving DecidableEq, Repr

/-- Give the token to an activity: an accelerated scrub reads every half-cell once (R99). -/
def State.giveToken (s : State) (a : Activity) : State :=
  let t := s.pw.token
  { s with pw.token := { t with holder := some a, queue := t.queue.filter (· != a) },
           ls.testing := s.ls.testing || a == .comparator,
           sec.otp := if a == .otp then s.sec.otp.map (fun o => { o with refused := !s.pw.storeOk }) else s.sec.otp,
           sw.scrubLeft := if a == .scrub then 393216 else s.sw.scrubLeft,
           sw.scrubDue := if a == .scrub then min s.sw.scrubDue (s.now + 20) else s.sw.scrubDue }

/-- Whose the token is: its holder's, or of the oldest request that it goes to as it is released (R440). -/
def State.tokenOf (s : State) : Option Activity :=
  match s.pw.token.holder with
  | some h => some h
  | none => s.pw.token.queue.find? (fun a => !s.heldBack a)

/-- Request the token (R440, R441, R443). -/
def State.requestToken (s : State) (a : Activity) : TokenAnswer × State :=
  let t := s.pw.token
  let wait := { s with pw.token := { t with queue := t.queue ++ [a] } }
  if t.queue.contains a then (.busy, s)
  else
    match s.tokenOf with
    | none => if s.heldBack a || s.nm.state == .commit then (.waits, wait) else (.granted, s.giveToken a)
    | some h => if actWaits h a then (.waits, wait) else (.busy, s)

/-- What `requestToken` will answer. -/
def State.tokenAnswer (s : State) (a : Activity) : TokenAnswer := (s.requestToken a).1

/-- Release the token if `a` holds it. -/
def State.releaseToken (s : State) (a : Activity) : State :=
  if s.pw.token.holder = some a then { s with pw.token := { s.pw.token with holder := none } } else s

/-- `a` holds the token. -/
def State.holds (s : State) (a : Activity) : Bool := s.pw.token.holder == some a

/-- DW_MAINT (R312). -/
def State.dwMaint (s : State) : Nat :=
  let t := s.pw.token
  (match t.holder with | some a => 1 + 2 * actCode a | none => 0) + t.queue.foldl (fun m a => m ||| 2 ^ (8 + actCode a)) 0

/-- MAINTENANCE_TOKEN_GRANT (R440): the free token goes to a due comparator test, else to the oldest request that R344
does not hold back. -/
def maintenanceTokenGrant (s : State) : State :=
  let t := s.pw.token
  if !s.live || t.holder.isSome || s.nm.state = .commit then s
  else
    let due := match s.cmpDue with | some d => decide (s.now ≥ d) | none => false
    if due then { s.giveToken .comparator with pw.token := { t with holder := some .comparator, lastCmp := some s.now } }
    else
      match t.queue.find? (fun a => !s.heldBack a) with
      | some a => s.giveToken a
      | none => s
def execMaintenanceTokenGrant (s : State) : Out := done s (maintenanceTokenGrant s)

end Sys2Proof.Machine
end

