-- ==== Sys2Proof/Machine/Mailbox.lean ====
section
/-! DEFINITION. The mailbox protocol and its own commands (R276 to R285, R293). -/

namespace Sys2Proof.Machine

/-! Error codes (R293). -/

/-- The values of STATUS (R293). -/
inductive Status where
  | ok | unknownCmd | badLength | badField | unknownPid | pidReadOnly | range | busy | aborted | restarted | conflict | state
  | objType | objLength | objField | objMisplaced | objGeneration | objConsistency | objCapacity | objTooLarge | objNotOpen
  | objOffset | objIncomplete | dmaError | rtInvalid | noEntry | queueFull | refusedMoving | refusedBattery | refusedLocked
  | refusedSupply | keyAttribute | unwrapFailed | slotWritten | slotSpoiled | vaultLocked | signatureFailed | imageRefused
  deriving DecidableEq, Repr

/-- Code of a status. -/
def Status.code : Status → Nat
  | .ok => 0 | .unknownCmd => 1 | .badLength => 2 | .badField => 3 | .unknownPid => 4 | .pidReadOnly => 5 | .range => 6
  | .busy => 7 | .aborted => 8 | .restarted => 9 | .conflict => 0xA | .state => 0xB | .objType => 0x10 | .objLength => 0x11
  | .objField => 0x12 | .objMisplaced => 0x13 | .objGeneration => 0x14 | .objConsistency => 0x15 | .objCapacity => 0x16
  | .objTooLarge => 0x17 | .objNotOpen => 0x18 | .objOffset => 0x19 | .objIncomplete => 0x1A | .dmaError => 0x1B
  | .rtInvalid => 0x20 | .noEntry => 0x21 | .queueFull => 0x22 | .refusedMoving => 0x30 | .refusedBattery => 0x31
  | .refusedLocked => 0x32 | .refusedSupply => 0x33 | .keyAttribute => 0x34 | .unwrapFailed => 0x35 | .slotWritten => 0x36
  | .slotSpoiled => 0x37 | .vaultLocked => 0x38 | .signatureFailed => 0x39 | .imageRefused => 0x3A

/-! Buffers (R276). -/

/-- Address of the request buffer of a mailbox. -/
def reqAddr (mb : Nat) : Nat := 0x03000000 + mb * 0x800
/-- Address of the response buffer of a mailbox. -/
def respAddr (mb : Nat) : Nat := reqAddr mb + 0x400

/-- CMD, SEQ and LEN of the request of a mailbox. -/
def State.reqCmd (s : State) (mb : Nat) : Nat := s.rd (reqAddr mb) 2
def State.reqSeq (s : State) (mb : Nat) : Nat := s.rd (reqAddr mb + 2) 2
def State.reqLen (s : State) (mb : Nat) : Nat := s.rd (reqAddr mb + 4) 2

/-- The payload of the request. -/
def State.reqPay (s : State) (mb : Nat) : List Byte := s.rdB (reqAddr mb + 8) (s.reqLen mb)

/-- A mailbox enters Done: MSI-X vector 0 if DW_MB_IRQ_EN enables it (R265). -/
def State.enterDone (s : State) (mb : Nat) (stored : Option (BitVec 16 × BitVec 16 × List Byte)) : State :=
  let h := s.host
  let h := if s.dw.mbIrqEn.getLsbD mb then h.send 0 else h
  { s with host := { h with rings := h.rings.filter (fun x => x.val ≠ mb),
                            busy := match h.busy with | some (b, w) => if b.val = mb then none else some (b, w) | none => none } }.setMb mb
    { s.mb mb with state := .done, stored := stored }

/-- The response to the request of a mailbox: header and payload (R276). -/
def State.response (s : State) (mb : Nat) (st : Status) (pay : List Byte) : List Byte :=
  natLe 8 (s.reqCmd mb + s.reqSeq mb * 2 ^ 16 + pay.length * 2 ^ 32 + st.code * 2 ^ 48) ++ pay

/-- Write the response and enter Done; the response is stored against repetition (R278, R280). -/
def State.complete (s : State) (mb : Nat) (st : Status) (pay : List Byte) : State :=
  let r := s.response mb st pay
  (s.wrB (respAddr mb) r).enterDone mb (some (BitVec.ofNat 16 (s.reqCmd mb), BitVec.ofNat 16 (s.reqSeq mb), r))

/-- Complete with a status that is not the outcome of the command: it is not stored (R281, log entry 24). -/
def State.completeOnly (s : State) (mb : Nat) (st : Status) : State :=
  (s.wrB (respAddr mb) (s.response mb st [])).enterDone mb (s.mb mb).stored

/-- What a command answers: a response now, or one that a later event gives. -/
inductive Reply where
  | done (st : Status) (pay : List Byte)
  | wait (w : Waiting)
  deriving DecidableEq, Repr

/-- STATUS 0 and no payload. -/
def Reply.ok : Reply := .done .ok []
/-- A refusal without payload. -/
def Reply.no (st : Status) : Reply := .done st []

/-- Firmware can execute the request of a mailbox: it has taken it, or no command executes and it is the oldest one rung (R279). -/
def State.canTake (s : State) (mb : Nat) : Bool :=
  s.fw && (match s.host.busy, s.host.rings with
    | some (x, .taken), _ => x.val == mb
    | none, x :: _ => x.val == mb
    | _, _ => false)

/-- A mailbox becomes Pending: after those rung before, and among those rung in one cycle in ascending number (R278, R279). -/
def State.ring (s : State) (mb : Mb) : State :=
  let before := fun (x : Mb) => (s.mb x.val).rung != s.now || decide (x.val < mb.val)
  { s with host.rings := s.host.rings.takeWhile before ++ mb :: s.host.rings.dropWhile before }.setMb mb.val
    { s.mb mb.val with state := .pending, rung := s.now, since := s.host.free }

/-- One cycle of firmware with a request waiting and no command executing: it takes the oldest request, which becomes Busy. In which of
the 20 µs after the ring it does so is free (R278, R279; log entry 23). -/
def State.takeTick (s : State) : State :=
  match s.host.busy, s.host.rings with
  | none, mb :: rest =>
    let (k, s) := s.draw
    let n := s.host.free + 1
    if n ≥ (s.mb mb.val).since + usCycles 20 || k % 2 = 1 then
      { s with host := { s.host with rings := rest, busy := some (mb, .taken), free := n } }.setMb mb.val { s.mb mb.val with state := .busy }
    else { s with host.free := n }
  | _, _ => s

/-- Give the answer of a command to its mailbox. -/
def State.answer (s : State) (mb : Mb) (r : Reply) : State :=
  match r with
  | .done st pay => s.complete mb.val st pay
  | .wait w => { s with host := { s.host with rings := s.host.rings.filter (· ≠ mb), busy := some (mb, w) } }.setMb mb.val
      { s.mb mb.val with state := .busy }

/-! What a refused LEN does beyond its answer: the object assembly area and the update engine see the command (R288, R395, R413). -/

/-- An object command of the holder restarts the second of R288. -/
def State.touchArea (s : State) (mb : Mb) : State :=
  match s.host.area with
  | some a => if a.mb = mb then { s with host := { s.host with area := some { a with last := s.now } } } else s
  | none => s

/-- The area that `mb` holds. -/
def State.areaOf (s : State) (mb : Mb) : Option Assembly := s.host.area.filter (fun a => a.mb = mb)

/-- Release the object assembly area. -/
def State.freeArea (s : State) : State := { s with host := { s.host with area := none } }

def hdrBits (h : List Byte) (hi lo : Nat) : Nat := bits (leNat h) hi lo
/-- VERSION. -/
def imgVersion (h : List Byte) : Nat := hdrBits h 127 96
/-- The wear count at which no further store begins (R412). -/
def wearLimit : Nat := 99000000
/-- PAYLOAD_LEN (R398). -/
def imgLen (h : List Byte) : Nat := hdrBits h 95 64
/-- BLOCKS (R398). -/
def imgBlocks (h : List Byte) : Nat := (imgLen h + 4095) / 4096

/-- The staging record of an area. -/
def State.stage (s : State) (b : Bool) : Area := if b then s.upd.areaB else s.upd.areaA

/-- The area with a staging session: RECEIVING, VERIFIED or ARMED. -/
def State.staged (s : State) : Option Bool :=
  if s.upd.areaA.staging then some false else if s.upd.areaB.staging then some true else none

/-- The record of the session's area. -/
def State.stagedArea (s : State) : Area := match s.staged with | some b => s.stage b | none => Area.reset

/-- NEXT: the lowest block index not yet stored, 0xFFFF when none is missing (R395). -/
def State.nextBlock (s : State) : Nat :=
  let a := s.stagedArea
  ((List.range (imgBlocks a.header)).find? (fun i => !a.map.contains i)).getD 0xFFFF

/-- The payload of an answer over a mailbox (R395). -/
def updPayload (next : Option Nat) : List Byte := match next with | some n => natLe 4 n | none => []

/-- Count a refusal (R413). -/
def State.noteRefusal (s : State) (st : Status) (isMsg : Bool) : State :=
  if st = .ok then s
  else { s with upd := { s.upd with last := BitVec.ofNat 16 st.code, refusals := if isMsg then satInc s.upd.refusals else s.upd.refusals } }

/-- The answer BAD_LENGTH. An object command has restarted the second of the area's holder, and its OBJ_COMMIT releases the area (R288); a refused
update command is noted, and an UPD_BLOCK is answered with NEXT (R395, R413). -/
def State.refuseLength (s : State) (mb : Mb) : State :=
  let c := s.reqCmd mb.val
  if 0x0010 ≤ c ∧ c ≤ 0x0015 then
    let s := s.touchArea mb
    (if c = 0x0012 && (s.areaOf mb).isSome then s.freeArea else s).complete mb.val .badLength []
  else if c = 0x0F03 then (s.noteRefusal .badLength true).complete mb.val .badLength (updPayload (some s.nextBlock))
  else if c = 0x0F01 || c = 0x0F02 then (s.noteRefusal .badLength false).complete mb.val .badLength []
  else s.complete mb.val .badLength []

/-- Execute a request that is not a repetition. -/
def State.runRequest (s : State) (mb : Mb) (lenOk : Nat → Bool) (f : List Byte → State → Reply × State) : State :=
  let len := s.reqLen mb.val
  if len > 1016 || !lenOk len then s.refuseLength mb
  else
    let (r, s) := f (s.reqPay mb.val) s
    s.answer mb r

/-- The stored response of a mailbox, if its request repeats the last completed command (R280). -/
def State.replay (s : State) (mb : Nat) : Option (List Byte) :=
  match (s.mb mb).stored with
  | some (c, q, r) => if c.toNat = s.reqCmd mb && q.toNat = s.reqSeq mb then some r else none
  | none => none

/-- Firmware takes and executes the request of a mailbox whose header carries `code`: a repeated request gets its stored
response with REPLAY 1 (R280), a LEN that the command does not allow BAD_LENGTH (R283). -/
def State.serve (s : State) (mb : Mb) (isCode : Nat → Bool) (lenOk : Nat → Bool) (f : List Byte → State → Reply × State) : State :=
  let n := mb.val
  if !s.canTake n || !isCode (s.reqCmd n) then s
  else
    match s.replay n with
    | some r => (s.wrB (respAddr n) (splice r 5 [BitVec.ofNat 8 (byteAt r 5 ||| 0x80)])).enterDone n (s.mb n).stored
    | none => s.runRequest mb lenOk f

/-- Give a Busy command its response. -/
def State.finishBusy (s : State) (w : Waiting) (st : Status) (pay : List Byte) : State :=
  match s.host.busy with
  | some (b, x) => if x = w then s.complete b.val st pay else s
  | none => s

/-! Masters inside the device that use a mailbox (R19, R394, R426). -/

/-- The next request of such a master: a fresh SEQ, and the ring. -/
def State.postRequest (s : State) (mb : Mb) (cmd len : Nat) (pay : List Byte) : State :=
  let n := mb.val
  let s := s.wrB (reqAddr n) (natLe 8 (cmd + (s.reqSeq n + 1) % 65536 * 2 ^ 16 + len * 2 ^ 32) ++ pay)
  s.ring mb

/-- The master has read the response: Done becomes Idle. -/
def State.takeResponse (s : State) (n : Nat) : State := s.setMb n { s.mb n with state := .idle }

/-- End the Busy command of a mailbox with a status and no payload; every completion of a security command sets DW_FW_EVENT bit 3
(R379). -/
def State.completeSec (s : State) (mb : Nat) (st : Status) : State :=
  let t := s.complete mb st []
  if 0x0E01 ≤ s.reqCmd mb ∧ s.reqCmd mb ≤ 0x0E06 then t.fwEvent 3 else t

/-- A checkpoint restart completes a Busy command with RESTARTED and releases the assembly area (R282; log
entry 25). -/
def State.restartMailboxes (s : State) : State :=
  let s := match s.host.busy with
    | some (b, _) =>
      let s := s.completeSec b.val .restarted
      if b = 8 && s.upd.posted then { s.takeResponse 8 with upd.posted := false } else s
    | none => s
  { s with host.area := none }

/-! Doorbells (R278, R281). -/

/-- DW_MB_RING: an Idle mailbox becomes Pending; a ring in another state sets its bit of DW_MB_OVERRING. -/
def dwMbRing (mask : BitVec 16) (s : State) : State :=
  if !s.live then s
  else foldN 16 (fun s n =>
    if !mask.getLsbD n then s
    else if (s.mb n).state = .idle then s.ring (Fin.ofNat 16 n)
    else { s with host.overring := setBit s.host.overring n true }) s
def execDwMbRing (mask : BitVec 16) (s : State) : Out := done s (dwMbRing mask s)

/-- DW_MB_DONE: a Done mailbox becomes Idle. -/
def dwMbDone (mask : BitVec 16) (s : State) : State :=
  if !s.live then s
  else foldN 16 (fun s n =>
    if mask.getLsbD n && (s.mb n).state = .done then s.setMb n { s.mb n with state := .idle } else s) s
def execDwMbDone (mask : BitVec 16) (s : State) : Out := done s (dwMbDone mask s)

/-- DW_MB_ABORT: a Pending mailbox becomes Done with ABORTED; a Busy OBJ_DMA ends with ABORTED and releases the area. -/
def dwMbAbort (mask : BitVec 16) (s : State) : State :=
  if !s.live then s
  else foldN 16 (fun s n =>
    if !mask.getLsbD n then s
    else
      match (s.mb n).state with
      | .pending => s.completeOnly n .aborted
      | .busy =>
        match s.host.busy with
        | some (b, .dma) => if b.val = n then { s.complete n .aborted [] with host.area := none } else s
        -- an OBJ_DMA that firmware has taken and not begun
        | some (b, .taken) =>
          if b.val = n && s.reqCmd n = 0x0014 then
            let t := s.complete n .aborted []
            if t.host.area.any (fun a => a.mb.val == n) then { t with host.area := none } else t
          else s
        | _ => s
      | _ => s) s
def execDwMbAbort (mask : BitVec 16) (s : State) : Out := done s (dwMbAbort mask s)

/-! ECHO, GET_INFO and unknown codes (R283, R284). -/

/-- The command codes of R283. -/
def cmdCodes : List Nat :=
  [0x0001, 0x0002, 0x0003, 0x0004, 0x0010, 0x0011, 0x0012, 0x0013, 0x0014, 0x0015, 0x0030, 0x0040, 0x0720, 0x0C01, 0x0C02, 0x0C03,
   0x0D01, 0x0D02, 0x0E01, 0x0E02, 0x0E03, 0x0E04, 0x0E05, 0x0E06, 0x0F01, 0x0F02, 0x0F03, 0x1001, 0x1101, 0x1102, 0x1103, 0x1104]

/-- ECHO: the payload unchanged. -/
def echo (mb : Mb) (s : State) : State := s.serve mb (· == 0x0001) (fun _ => true) (fun p s => (.done .ok p, s))
def execEcho (mb : Mb) (s : State) : Out := done s (echo mb s)

/-- GET_INFO: firmware version, mailbox number, protocol version 1 and the maximum payload. -/
def getInfo (mb : Mb) (s : State) : State :=
  s.serve mb (· == 0x0002) (· == 0)
    (fun _ s => (.done .ok (natLe 4 Config.fwVersion.toNat ++ natLe 4 (mb.val + 1 * 2 ^ 8 + 1016 * 2 ^ 16)), s))
def execGetInfo (mb : Mb) (s : State) : Out := done s (getInfo mb s)

/-- UNKNOWN_COMMAND: a code outside R283. -/
def unknownCommand (mb : Mb) (s : State) : State :=
  if !s.canTake mb.val || cmdCodes.contains (s.reqCmd mb.val) then s
  else
    match s.replay mb.val with
    | some _ => s.serve mb (fun _ => true) (fun _ => true) (fun _ s => (.no .unknownCmd, s))
    | none => s.complete mb.val .unknownCmd []
def execUnknownCommand (mb : Mb) (s : State) : Out := done s (unknownCommand mb s)

/-! PARAM_GET (R285). -/

/-- The die temperature in m°C; TEMP counts units of 62.5 m°C, and which way a half is rounded is open. For a sample outside the range
that R307 gives the value is free (log entry 57). -/
def State.dieMilli (s : State) : Int :=
  let t := s.pw.dieTemp.toInt
  let m := (t * 125) / 2 + (if t % 2 ≠ 0 && Config.tempRound s.pw.dieTemp.toNat then 1 else 0)
  if -40000 ≤ m && m ≤ 150000 then m else (Config.tempOver s.pw.dieTemp % 190001 : Nat) - 40000

/-- DW_BATT.MV (R312); where the product does not fit 16 bits the value is free (log entry 57). -/
def State.battMv (s : State) : Nat :=
  let m := s.pw.battRaw.toNat * s.param 0x0F03 / 1000
  if m < 65536 then m else (Config.battOver m).toNat

/-- The value of a parameter as a 64-bit number in two's complement. -/
def State.paramValue (s : State) (pid : Nat) : Int :=
  match pid with
  | 0x0103 => Config.fwVersion.toNat
  | 0x0104 => Config.uid.toNat
  | 0x0D10 => s.ls.total.toNat
  | 0x0D11 => s.pair.takeovers.toNat
  | 0x0E03 => if s.sec.locked then 1 else 0
  | 0x0F04 => if s.upd.ownerLock then 1 else 0
  | 0x0F10 => s.upd.areaA.wear
  | 0x0F11 => s.upd.areaB.wear
  | 0x0F12 => s.upd.wearSnap
  | 0x1001 => if s.isl.present then 1 else 0
  | 0x1002 => if s.isl.present then Config.islandVersion.toNat else 0
  | 0x1003 => if s.isl.present then Config.islandChecksum.toNat else 0
  | 0x1004 => if s.isl.present then (s.isl.nextSeq - 1 : Nat) else 0
  | 0x1101 => s.dieMilli
  | 0x1102 => s.battMv
  | 0x1103 => s.pw.coldStarts.toNat
  | 0x1104 => s.pw.warmWakes.toNat
  | _ =>
    match pidRow? pid with
    | some r => if r.type = .s32 then s.paramInt pid else s.param pid
    | none => 0

/-- Code of a value type in PARAM_GET. -/
def PType.code : PType → Nat
  | .u8 => 1 | .u16 => 2 | .u32 => 3 | .u64 => 4 | .s32 => 5

/-- The response entry of one PID. TYPE and value of an unknown PID are open. -/
def State.paramEntry (s : State) (pid : Nat) : List Byte × State :=
  match pidRow? pid with
  | some r => (natLe 4 (pid + r.type.code * 2 ^ 16) ++ natLe 8 ((s.paramValue pid) % (2 ^ 64 : Nat)).toNat, s)
  | none =>
    let (t, s) := s.draw
    let (v, s) := s.drawWord
    (natLe 4 (pid + t % 256 * 2 ^ 16 + 0x04 * 2 ^ 24) ++ natLe 8 v.toNat, s)

/-- The words of a payload. -/
def words (n : Nat) (p : List Byte) : List Nat := (List.range n).map (fun i => leNat (slice p (i * 4) 4))

/-- PARAM_GET. -/
def paramGet (mb : Mb) (s : State) : State :=
  s.serve mb (· == 0x0003) (fun l => l % 4 == 0 && l ≤ 336) (fun p s =>
    let ws := words (p.length / 4) p
    if ws.any (fun w => w ≥ 65536) then (.no .badField, s)
    else
      let (out, s) := ws.foldl (fun (acc : List Byte × State) w =>
        let (e, t) := acc.2.paramEntry w
        (acc.1 ++ e, t)) ([], s)
      (.done .ok out, s))
def execParamGet (mb : Mb) (s : State) : Out := done s (paramGet mb s)

end Sys2Proof.Machine
end

