-- ==== Sys2Proof/Machine/Objects.lean ====
section
/-! DEFINITION. Table objects: their checks, their loading, the object commands, and the commands of R290 and R291
(R287 to R291, R308 to R310, R135, R144 to R148, R161, R162, R196 to R198, R260). -/

namespace Sys2Proof.Machine

/-! Refusals (R287). -/

/-- Where a refusal points: the header, or an entry, and the byte offset in it; `noEntry`: no entry and no field of the object
is at fault; `open_`: the spec names no place. -/
inductive ObjAt where
  | noEntry
  | header (off : Nat)
  | entry (i : Nat) (off : Option Nat)
  | open_
  deriving DecidableEq, Repr

/-- The outcome of a check: none passes. -/
abbrev ObjCheck := Option (Status × ObjAt)

/-- The first check that fails. -/
def firstBad (l : List ObjCheck) : ObjCheck := l.findSome? id

/-- A condition that refuses. -/
def refuseIf (c : Bool) (st : Status) (at_ : ObjAt) : ObjCheck := if c then some (st, at_) else none

/-- The first reserved field of `v` that holds a one: byte offset. Fields are pairs of high and low bit. -/
def reservedOff (fields : List (Nat × Nat)) (v : Nat) : Option Nat :=
  (fields.find? (fun f => bits v f.1 f.2 != 0)).map (fun f => f.2 / 8)

/-- The first field outside its range: byte offset. A field out of range is a pair of a condition and an offset. -/
def badField (l : List (Bool × Nat)) : Option Nat := (l.find? (fun x => x.1)).map (fun x => x.2)

/-- A refusal with OBJ_FIELD at a field of the header. -/
def headBad (o : Option Nat) : ObjCheck := o.map (fun x => (.objField, .header x))

/-- A refusal with OBJ_FIELD at a field of entry `i`. -/
def entryBad (i : Nat) (o : Option Nat) : ObjCheck := o.map (fun x => (.objField, .entry i (some x)))

/-- The answer to a refused object: the index of the failing entry and the byte offset of the failing field in the object,
for the codes 0x0010 to 0x0016 (R287). A place that the spec does not name is open. A type code that names no object lies in no
entry: the index is that of the header and the offset is open (DEDUCED, log entry 45). -/
def State.refuseObj (s : State) (st : Status) (at_ : ObjAt) (hdr size : Nat) : Reply × State :=
  if 0x10 ≤ st.code && st.code ≤ 0x16 then
    let (x, s) := s.drawWord
    let (e, o) := match at_ with
      | .header off => (0xFFFFFFFF, off)
      | .entry i (some off) => (i, hdr + i * size + off)
      | .noEntry => (0xFFFFFFFF, x.toNat / 2 ^ 32)
      | .entry i none => (i, x.toNat / 2 ^ 32)
      | .open_ => (x.toNat % 2 ^ 32, x.toNat / 2 ^ 32)
    (.done st (natLe 4 e ++ natLe 4 o), s)
  else (.no st, s)

/-- The entries of an object as numbers. -/
def objEntries (b : List Byte) (hdr size n : Nat) : List Nat := (List.range n).map (fun i => leNat (slice b (hdr + i * size) size))

/-- Entries with their place in the object. -/
def numbered (l : List Nat) : List (Nat × Nat) := (List.range l.length).zip l

/-! Streams, MAC, VLAN, recovery functions, meters (R309). -/

/-- Header bytes, entry bytes, table entries and table address of the types 0x01 to 0x05 (R308). -/
def tableOf (type : Nat) : Nat × Nat × Nat :=
  if type = 1 then (64, 16384, 0x04000000) else if type = 2 then (16, 32768, 0x04100000)
  else if type = 3 then (16, 4096, 0x04180000) else if type = 4 then (16, 2048, 0x04190000) else (32, 4096, 0x04200000)

/-- A stream entry outside its ranges (R76, R78). -/
def State.streamBad (s : State) (e : Nat) : Option Nat :=
  let m := bits e 322 321
  let mask := s.param 0x0302
  let v4 := m = 2 && !bit e 302
  (badField [ (m == 3, 40), (m < 2 && bits e 61 60 == 3, 7), (m == 2 && bits e 317 316 == 3, 39),
    (v4 && bits e 127 32 != 0, 4), (v4 && bits e 255 160 != 0, 20),
    (m == 2 && !bit mask 0 && bits e 271 256 != 0, 32), (m == 2 && !bit mask 1 && bits e 287 272 != 0, 34),
    (m == 2 && !bit mask 2 && bits e 301 296 != 0, 37) ]).or
  (reservedOff ((if m = 2 then [(303, 303), (319, 318)] else [(319, 62)]) ++
    [(327, 323), (367, 366), (383, 382), (415, 407), (447, 440), (479, 473), (511, 504)]) e)

/-- An entry of a table whose fields lie outside their ranges (R309). -/
def State.tableBad (s : State) (type idx e : Nat) : Option Nat :=
  if type = 1 then (if bit e 320 then s.streamBad e else none)
  else if type = 2 then
    (if bit e 88 then
      let n := ((List.range 24).filter (fun p => bit e (64 + p))).length
      (badField [(!bit e 89 && n != 1, 8)]).or (reservedOff [(63, 60), (95, 92), (127, 100)] e)
     else none)
  else if type = 3 then
    (if bit e 24 then (badField [(idx == 0 || idx == 4095, 3)]).or (reservedOff [(31, 28), (63, 61), (127, 76)] e) else none)
  else if type = 4 then
    (if bit e 0 then
      (badField [(bits e 8 3 == 0 || bits e 8 3 > 32, 0), (bits e 31 16 == 0, 2)]).or (reservedOff [(2, 2), (15, 9), (127, 32)] e)
     else none)
  else (if bit e 128 then reservedOff [(255, 133)] e else none)

/-- The key of a stream entry and its buckets (R77). -/
def streamEntryKey (e : Nat) : Nat × Nat := (bits e 322 321, e &&& streamMask (bits e 322 321))

/-- Two stream entries carry one key, admit a common frame and share a port (R309). -/
def streamClash (a b : Nat) : Bool :=
  let tm := fun e => if bits e 322 321 = 2 then bits e 317 316 else bits e 61 60
  bit a 320 && bit b 320 && streamEntryKey a == streamEntryKey b && (tm a == tm b || tm a == 2 || tm b == 2) &&
  (bits a 351 328 &&& bits b 351 328) != 0

/-- Two MAC entries carry one MAC and FID. -/
def macClash (a b : Nat) : Bool := bit a 88 && bit b 88 && bits a 59 0 == bits b 59 0

/-- The places of a MAC entry. -/
def macEntryPlaces (e : Nat) : List Nat := macPlaces (natLe 6 (bits e 47 0)) (bits e 59 48)

/-- A valid stream or MAC entry outside its two buckets (R309). -/
def misplaced (type idx e : Nat) : Bool :=
  if type = 1 then bit e 320 && !(bucketPlaces (streamBuckets (bits e 322 321) (streamEntryKey e).2)).contains idx
  else if type = 2 then bit e 88 && !(macEntryPlaces e).contains idx
  else false

/-- The entry at `i` clashes with an earlier one of the object, or with one of the stream table that the object does not
write (R309). -/
def State.clashes (s : State) (type first : Nat) (es : List Nat) (i e : Nat) : Bool :=
  if type = 1 then
    (es.take i).any (streamClash e) ||
    (bit e 320 && (bucketPlaces (streamBuckets (bits e 322 321) (streamEntryKey e).2)).any (fun j =>
      !(first ≤ j && j < first + es.length) && streamClash e (s.rd (streamAddr j) 64)))
  else if type = 2 then (es.take i).any (macClash e)
  else false

/-- The check of R309. -/
def State.tableCheck (s : State) (type : Nat) (b : List Byte) : ObjCheck :=
  let (size, most, _) := tableOf type
  let h := leNat (slice b 0 16)
  let first := bits h 15 0
  let n := bits h 31 16
  let es := objEntries b 16 size n
  (refuseIf (b.length < 16 || b.length ≠ 16 + n * size) .objLength (.header 2)).or
  (if n = 0 then none
   else firstBad ([refuseIf (first + n > most) .objCapacity (.header 0), headBad (reservedOff [(127, 32)] h)] ++
     (numbered es).map (fun (i, e) => entryBad i (s.tableBad type (first + i) e)) ++
     (numbered es).map (fun (i, e) => refuseIf (misplaced type (first + i) e) .objMisplaced (.entry i none)) ++
     (numbered es).map (fun (i, e) => refuseIf (s.clashes type first es i e) .objConsistency (.entry i none))))

/-- Write one entry with its further effects (R310). -/
def State.tableWrite (s : State) (type idx e : Nat) : State :=
  let (size, _, base) := tableOf type
  let a := base + idx * size
  if type = 2 then
    let e := e - kf 96 (bits e 99 96)
    let s := if bit e 88 then
        ((macEntryPlaces e).filter (fun j => j ≠ idx && macClash e (s.macEntry j))).foldl (fun s j =>
          (s.clearMem (macAddr j) 16).mirrorMac j) s
      else s
    (s.wr a 16 e).mirrorMac idx
  else
    let s := s.wr a size e
    if type = 4 then s.setRecov idx { s.recov idx with takeAny := true, timer := none }
    else if type = 5 then s.setMeter idx (s.fullMeter idx)
    else s

/-- Write the next entry of a table object. -/
def State.tableNext (s : State) : State :=
  match s.host.table with
  | some l => match l.rest with
    | e :: r =>
      let s := s.tableWrite l.type l.next e
      { s with host := { s.host with lastEntry := some (s.now, l.type, l.next),
                                     table := if r.isEmpty then none else some { l with next := l.next + 1, rest := r } } }
    | [] => { s with host := { s.host with table := none } }
  | none => s

/-- Write every entry that is left: a start loads them so, and a further object finds none left (R282, R309). -/
def State.tablesNow (s : State) : State :=
  foldN (match s.host.table with | some l => l.rest.length | none => 0) (fun s _ => s.tableNext) s

/-- One entry of a table object is written per FCLK cycle, and the last one ends its command (R309). -/
def State.tableTick (s : State) : State :=
  match s.host.table with
  | some l => let s := s.tableNext; if l.rest.length ≤ 1 then s.finishBusy .tableLoad .ok [] else s
  | none => s

/-- Load the entries of an accepted object: the first in this cycle. -/
def State.tableApply (s : State) (type : Nat) (b : List Byte) : Reply × State :=
  let (size, _, _) := tableOf type
  let h := leNat (slice b 0 16)
  let s := s.tablesNow
  let l : TableLoad :=
    { type := type, next := bits h 15 0, rest := objEntries b 16 size (bits h 31 16) }
  let s := { s with host := { s.host with table := some l } }.tableNext
  (if s.host.table.isSome then .wait .tableLoad else .ok, s)

/-! Class tables (R135). -/

/-- The check of a class table object. -/
def State.classCheck (s : State) (b : List Byte) : ObjCheck :=
  let h := leNat (slice b 0 8)
  let port := bits h 7 0
  let n := bits h 23 16
  (refuseIf (b.length < 8 || b.length ≠ 8 + n * 16) .objLength (.header 2)).or
  (if n = 0 then none
   else firstBad (headBad ((badField [(port > 23, 0), (n != 8, 2)]).or (reservedOff [(15, 8), (63, 24)] h)) ::
     (numbered (objEntries b 8 16 n)).map (fun (i, e) =>
       let maxf := bits e 13 0
       let sh := bits e 17 16
       let rate := bits e 63 32
       let burst := bits e 95 64
       let res := bits e 127 96
       entryBad i ((badField [ (maxf < 64 || maxf > 9216, 0), (sh == 3, 2), (bit e 18 && port ≥ 8, 2),
         (if sh = 0 then rate != 0 else rate == 0 || rate > s.rateBound port * 1000, 4),
         (sh == 2 && burst < 8 * maxf, 8), (if sh = 2 then res < 1000 || res > 100000000 else res != 0, 12) ]).or
         (reservedOff [(15, 14), (31, 19)] e)))))

/-- Load a class table: each entry takes effect at its class's next selection; until then what it replaces stays in force (R135). -/
def State.classApply (s : State) (b : List Byte) : State :=
  let port := bits (leNat (slice b 0 8)) 7 0
  (numbered (objEntries b 8 16 8)).foldl (fun s (c, e) =>
    let old := s.rdB (classAddr port c) 16
    let s := if SMap.get [] s.sw.clsOld (port * 8 + c) = [] then { s with sw.clsOld := SMap.set [] s.sw.clsOld (port * 8 + c) old } else s
    s.wr (classAddr port c) 16 e) s

/-! Gate lists (R144 to R148). -/

/-- BASE_TIME of a gate-list header. -/
def gateBase (h : Nat) : RT :=
  { sec := BitVec.ofNat 48 (bits h 239 192), ns := BitVec.ofNat 30 (bits h 189 160), frac := BitVec.ofNat 16 (bits h 143 128) }

/-- The newest generation that a port holds (R146). -/
def State.newestGen (s : State) (p : Nat) : Option Nat :=
  let g := s.gate p
  (g.pend.or g.cur).map (fun x => x.gen.toNat)

/-- `a` is the same generation as `b` or newer by the half-range rule of R67. -/
def genNotOlder (a b : Nat) : Bool := (a + 65536 - b % 65536) % 65536 < 32768

/-- `a` is newer than `b` by the half-range rule of R67. -/
def genNewer (a b : Nat) : Bool := genNotOlder a b && a % 65536 != b % 65536

/-- The check of a gate-list object (R146). -/
def State.gateCheck (s : State) (b : List Byte) : ObjCheck :=
  let h := leNat (slice b 0 32)
  let port := bits h 4 0
  let angle := bit h 8
  let n := bits h 42 32
  let cyc := bits h 95 64
  let es := objEntries b 32 8 n
  (refuseIf (b.length < 32 || b.length ≠ 32 + n * 8) .objLength (.header 4)).or
  (if n = 0 then none
   else firstBad ([ headBad ((badField [ (port > 23, 0), (n > 1024, 4),
        (if angle then cyc != 0 else cyc < 1000 || cyc > 4000000000, 8),
        (if angle then bits h 255 128 != 0 else bits h 189 160 > 999999999, if angle then 16 else 20) ]).or
        (reservedOff [(7, 5), (15, 9), (63, 43), (127, 96), (159, 144), (191, 190), (255, 240)] h)) ] ++
     (numbered es).map (fun (i, e) =>
       entryBad i ((badField [(bits e 47 16 < (if angle then 1 else 10), 2)]).or (reservedOff [(15, 8), (63, 48)] e))) ++
     [ refuseIf (angle != (s.param (0x05C0 + port) == 1)) .objConsistency (.header 1),
       refuseIf ((es.map (fun e => bits e 47 16)).sum ≠ (if angle then 65536 else cyc)) .objConsistency .open_,
       match s.newestGen port with
       | some g => refuseIf (!genNotOlder (bits h 31 16) g) .objGeneration (.header 2)
       | none => none ]))

/-- The switch instant on a time basis: the earliest BASE_TIME + k · CYCLE_TIME at least the lead time ahead (R148). -/
def State.switchInstant (s : State) (base cycleNs : Nat) : Nat :=
  let early := s.time.ltime + s.param 0x0402 * 1000 * nsUnit
  let c := cycleNs * nsUnit
  if early ≤ base then base else base + (early - base + c - 1) / c * c

/-- Load a gate list: it becomes the pending list, and windows of an earlier pending list go with it (R148, R162). On an angle basis the lead
time after acceptance is measured in local time, so that a step moves its end (DESIGN CHOICE: R148 does not say; log entry 51). -/
def State.gateApply (s : State) (b : List Byte) : State :=
  let h := leNat (slice b 0 32)
  let port := bits h 4 0
  let n := bits h 42 32
  if s.newestGen port = some (bits h 31 16) then s
  else
    let angle := bit h 8
    let base := if angle then 0 else RT.toLt (gateBase h)
    let hdr : GateHdr := { gen := BitVec.ofNat 16 (bits h 31 16), angle := angle, count := n, cycleTime := bits h 95 64, base := base }
    let at_ := if angle then s.time.ltime + s.param 0x0402 * 1000 * nsUnit else s.switchInstant base hdr.cycleTime
    let s := s.wrB (gateEntryAddr port true 0) ((b.drop 32).take (n * 8))
    let s := s.setGate port { s.gate port with pend := some hdr, switchAt := at_, due := false }
    let s := s.setMill port { s.mill port with pendGen := none, pendCount := 0 }
    s.mirrorSched port

/-! Millrace windows (R161, R162). -/

/-- The gate list of a port that carries a generation: true, the pending one. -/
def State.listOfGen (s : State) (p gen : Nat) : Option (Bool × GateHdr) :=
  let g := s.gate p
  match g.cur, g.pend with
  | some h, some h' => if h.gen.toNat = gen then some (false, h) else if h'.gen.toNat = gen then some (true, h') else none
  | some h, none => if h.gen.toNat = gen then some (false, h) else none
  | none, some h' => if h'.gen.toNat = gen then some (true, h') else none
  | none, none => none

/-- The check of a window object. -/
def State.windowCheck (s : State) (b : List Byte) : ObjCheck :=
  let h := leNat (slice b 0 16)
  let port := bits h 4 0
  let gen := bits h 31 16
  let n := bits h 38 32
  let es := objEntries b 16 32 n
  let g := s.gate port
  let lists := g.cur.toList ++ g.pend.toList
  let off := fun e => bits e 95 64
  let stop := fun e => bits e 95 64 + bits e 159 128
  (refuseIf (b.length < 16 || b.length ≠ 16 + n * 32) .objLength (.header 4)).or
  (if n = 0 then none
   else firstBad ([ headBad ((badField [(port > 19, 0), (n > 64, 4)]).or (reservedOff [(15, 5), (127, 39)] h)) ] ++
     (numbered es).map (fun (i, e) =>
       entryBad i ((badField [ (bits e 4 0 > 19 || bits e 4 0 == port, 0), (bits e 45 32 < 64 || bits e 45 32 > 9216, 4),
         (bits e 127 96 < 10, 12) ]).or (reservedOff [(7, 5), (31, 22), (63, 46), (255, 160)] e))) ++
     [ refuseIf lists.isEmpty .objConsistency .open_,
       match s.listOfGen port gen with
       | none => some (.objGeneration, .header 2)
       | some _ => refuseIf (lists.any (·.angle)) .objConsistency .open_ ] ++
     (numbered es).map (fun (i, e) =>
       let cyc := match s.listOfGen port gen with | some (_, l) => l.cycleTime | none => 0
       let rate := s.lineRate port
       match es[i + 1]? with
       | some e' => (refuseIf (off e' < off e) .objConsistency (.entry (i + 1) (some 8))).or
           (refuseIf (stop e > off e') .objConsistency (.entry i none))
       | none => refuseIf (stop e > cyc) .objConsistency (.entry i none)
       |>.or (refuseIf (bits e 127 96 > bits e 159 128) .objConsistency (.entry i (some 12)))
       |>.or (refuseIf (bits e 159 128 * rate < (bits e 127 96 + 5) * rate + (bits e 45 32 + 20) * 8000) .objConsistency
           (.entry i (some 16))))))

/-- Load a window set: pending, or current from the next cycle start of the gate list (R162). -/
def State.windowApply (s : State) (b : List Byte) : State :=
  let h := leNat (slice b 0 16)
  let port := bits h 4 0
  let gen := BitVec.ofNat 16 (bits h 31 16)
  let n := bits h 38 32
  let bytes := (b.drop 16).take (n * 32)
  match s.listOfGen port gen.toNat with
  | some (true, _) =>
    (s.wrB (windowAddr port true 0) bytes).setMill port { s.mill port with pendGen := some gen, pendCount := n }
  | some (false, l) =>
    let at_ := s.time.ltime - (cyclePos l s.time.ltime).1 + l.cycleTime * nsUnit
    s.setMill port { s.mill port with nextGen := some gen, nextCount := n, nextSet := bytes, nextAt := at_ }
  | none => s

/-! Screen rules (R196 to R198). -/

/-- The check of a rule object but for BUSY (R196, R182). -/
def State.ruleCheck (s : State) (b : List Byte) : ObjCheck :=
  let h := leNat (slice b 0 16)
  let type := bits h 7 0
  let gen := bits h 31 16
  let first := bits h 44 32
  let n := bits h 61 48
  let es := objEntries b 16 160 n
  (refuseIf (b.length < 16 || b.length ≠ 16 + n * 160) .objLength (.header 6)).or
  (if n = 0 then none
   else firstBad ([ refuseIf (type > 1) .objType (.header 0), refuseIf (first + n > 8192) .objCapacity (.header 4),
       headBad ((badField [(type == 0 && first != 0, 4), (n > 8192, 6)]).or (reservedOff [(15, 8), (47, 45), (127, 62)] h)) ] ++
     (numbered es).map (fun (i, e) =>
       let a := bits e 1279 1024
       if !bit a 0 then none
       else entryBad i (((badField [(bits a 2 1 == 3, 0), (bits a 34 32 > 4, 4)]).or
         (reservedOff [(11, 9), (15, 15), (39, 38), (255, 77)] a)).map (· + 128))) ++
     (numbered es).map (fun (i, e) =>
       let a := bits e 1279 1024
       let kind := bits e 2 0
       let full := bits e 514 512 = 7
       let ck := bits a 34 32
       let pair := full && ((kind == 1 || kind == 2) && ck < 4 || kind == 3 && ck == 4)
       refuseIf (bit a 0 && (bit a 6 || bits a 2 1 == 2) && !pair) .objConsistency (.entry i none)) ++
     [ refuseIf (if type = 0 then !genNewer gen s.scr.gen.toNat else gen != s.scr.gen.toNat) .objGeneration (.header 2) ]))

/-- Write rule entries into a bank. -/
def State.ruleWrite (s : State) (bank : Bool) (first : Nat) (es : List Nat) : State :=
  (numbered es).foldl (fun s (i, e) => s.wr (ruleBase bank + (first + i) * 160) 160 e) s

/-- Clear VALID of every entry of a bank (R197). -/
def State.ruleClear (s : State) (bank : Bool) : State :=
  (s.validRules bank).foldl (fun s r =>
    let a := ruleBase bank + r * 160 + 128
    s.wr a 1 (s.rd a 1 - s.rd a 1 % 2)) s

/-- Load a rule object: a partial one into the active bank. A full set clears the inactive bank and is then written into it (R197,
R198). -/
def State.ruleApply (s : State) (b : List Byte) : Reply × State :=
  let h := leNat (slice b 0 16)
  let n := bits h 61 48
  let es := objEntries b 16 160 n
  if bits h 7 0 = 1 then (.ok, s.ruleWrite s.scr.bank (bits h 44 32) es)
  else
    let s := s.ruleClear !s.scr.bank
    (.wait .ruleLoad, { s with scr.load := some { gen := BitVec.ofNat 16 (bits h 31 16), count := n, start := s.now, next := 0,
                                                   rest := (b.drop 16).take (n * 160), mb := none } })

/-- The next entry of a full set goes into the inactive bank. -/
def State.ruleNext (s : State) (l : RuleLoad) : State :=
  { s.wr (ruleBase (!s.scr.bank) + l.next * 160) 160 (leNat (l.rest.take 160)) with
    scr.load := some { l with next := l.next + 1, rest := l.rest.drop 160 } }

/-- One entry of a full set is written every 4 cycles (R197). -/
def State.ruleTick (s : State) : State :=
  match s.scr.load with
  | some l => if l.next < l.count && s.now ≥ l.start + 4 * l.next + 3 then s.ruleNext l else s
  | none => s

/-- Address of a hit counter of a rule (R200). -/
def ruleHits (r : Nat) : Nat := 0x048C0000 + r * 16

/-- The banks swap after the load `l` (R197). -/
def State.swapBanks (s : State) (l : RuleLoad) : State :=
  { s with scr := { s.scr with bank := !s.scr.bank, gen := l.gen, load := none },
           cnt64 := SMap.dropKeys (fun k => ruleHits 0 ≤ k && k < ruleHits 8192) s.cnt64 }.bump 0x04900010

/-- A full set that a start loads: its entries, `n` at most, are written and the banks swap. -/
def State.rulesNow : Nat → State → State
  | 0, s => match s.scr.load with | some l => s.swapBanks l | none => s
  | n + 1, s => match s.scr.load with
    | some l => if l.next < l.count then State.rulesNow n (s.ruleNext l) else s.swapBanks l
    | none => s

/-- RULE_BANK_SWAP (R197): 4 cycles after the write of the last entry began, the banks swap. -/
def ruleBankSwap (s : State) : State :=
  match s.scr.load with
  | some l =>
    if !s.live || s.now < l.start + 4 * l.count || l.next < l.count then s
    else (s.swapBanks l).finishBusy .ruleLoad .ok []
  | none => s
def execRuleBankSwap (s : State) : Out := done s (ruleBankSwap s)

/-! Gateway tables (R260). -/

/-- A route entry outside its ranges (R243, R245): the refusal. -/
def routeBad (i e : Nat) : ObjCheck :=
  let src := bits e 4 3
  let dst := bits e 6 5
  let fmt := bits e 121 120
  let cyclic := routeCyclic e
  (entryBad i ((badField [ (bits e 2 1 == 3, 0), (bits e 21 20 == 3, 2), (bits e 21 20 == 1 && src == 0, 2),
    (bits e 21 20 == 2 && dst == 0, 2), (src == 2 && bits e 52 48 > 15, 6), (src == 2 && bits e 62 56 > 61, 7),
    (bits e 73 72 == 3, 9), (dst == 2 && bits e 116 112 > 15, 14), (dst == 3 && fmt == 3, 15), (dst == 2 && fmt != 0, 15),
    (dst == 1 && fmt == 3 && bit e 122, 15), (cyclic && (bits e 221 208 == 0 || bits e 221 208 > 10000), 26),
    (cyclic && bits e 237 224 ≥ bits e 221 208, 28) ]).or
    (reservedOff [(7, 7), (19, 19), (31, 26), (55, 53), (63, 63), (75, 74), (79, 77), (111, 109), (119, 117), (127, 123), (159, 157),
      (175, 173), (179, 179), (191, 185), (223, 222), (255, 238)] e))).or
  (refuseIf (src == 0 && dst == 0) .objConsistency (.entry i none))

/-- A gateway object outside its ranges (R246, R247). -/
def goBad (i e : Nat) : ObjCheck :=
  (entryBad i ((badField [(bits e 203 192 > 2048, 24), (bits e 1286 1280 > 64, 160)]).or
    (reservedOff [(15, 9), (47, 35), (63, 61), (159, 144), (207, 207), (2047, 1287)] e))).or
  (refuseIf (bit e 1 && bits e 31 16 == 0) .objConsistency (.entry i none))

/-- An ACF slot outside its ranges (R250). -/
def slotBad (i e : Nat) : ObjCheck :=
  entryBad i ((badField [(bit e 1 && (bits e 27 16 == 0 || bits e 27 16 > 4094), 2)]).or
    (reservedOff [(15, 3), (31, 28), (127, 80), (255, 200)] e))

/-- Entry bytes and table entries of a gateway object type. -/
def gwTable (type : Nat) : Nat × Nat := if type = 0 then (32, 4096) else if type = 1 then (256, 2048) else (32, 256)

/-- The valid cyclic routes after `es` have been written from `first`. -/
def State.cyclicAfter (s : State) (first : Nat) (es : List Nat) : Nat :=
  ((s.validRoutes.filter (fun r => !(first ≤ r && r < first + es.length) && routeCyclic (s.route r))).length) +
  (es.filter (fun e => bit e 0 && routeCyclic e)).length

/-- The check of a gateway table object. -/
def State.gwCheck (s : State) (b : List Byte) : ObjCheck :=
  let h := leNat (slice b 0 16)
  let type := bits h 7 0
  let first := bits h 27 16
  let n := bits h 44 32
  let (size, most) := gwTable type
  let es := objEntries b 16 size n
  (refuseIf (b.length < 16) .objLength (.header 4)).or
  (firstBad ([ refuseIf (type > 2) .objType (.header 0), refuseIf (b.length ≠ 16 + n * size) .objLength (.header 4),
       headBad ((badField [(n > 4096, 4)]).or (reservedOff [(15, 8), (31, 28), (127, 45)] h)),
       refuseIf (first + n > most) .objCapacity (.header 2) ] ++
     (numbered es).map (fun (i, e) =>
       if !bit e 0 then none else if type = 0 then routeBad i e else if type = 1 then goBad i e else slotBad i e) ++
     [ refuseIf (type == 0 && s.cyclicAfter first es > 2048) .objCapacity .open_ ]))

/-- Write a route; a route whose periods change begins at its next boundary. -/
def State.routeWrite (s : State) (r e : Nat) : State :=
  let old := s.route r
  let s := s.wr (routeAddr r) 32 e
  let same := bit old 0 && routeCyclic old && bits old 237 208 = bits e 237 208
  if !bit e 0 || !routeCyclic e then s.setRun r RouteRun.reset
  else if same then s
  else
    let n := s.boundaries e
    s.setRun r { RouteRun.reset with last := if n = 0 then none else some (n - 1), useq := (s.run r).useq }

/-- Write a gateway object: configuration and substitute data are set, status and content cleared, VERSION incremented
(R246). -/
def State.goLoad (s : State) (g e : Nat) : State :=
  let ver := (bits (s.goHead g) 143 128 + 1) % 65536
  let v := if bit e 0 then bits e 31 0 + ver * 2 ^ 128 + bits e 1286 768 * 2 ^ 768 else e
  let s := s.wr (goAddr g) 256 v
  let s := { s with bus.goTick := SMap.set 0 s.bus.goTick g 0, bus.goTime := SMap.set 0 s.bus.goTime g 0 }
  s.mirrorGo g

/-- Load a gateway table object. -/
def State.gwApply (s : State) (b : List Byte) : State :=
  let h := leNat (slice b 0 16)
  let type := bits h 7 0
  let (size, _) := gwTable type
  (numbered (objEntries b 16 size (bits h 44 32))).foldl (fun s (i, e) =>
    let k := bits h 27 16 + i
    if type = 0 then s.routeWrite k e else if type = 1 then s.goLoad k e else s.wr (slotAddr k) 32 e) s

/-! Any object. -/

/-- Header and entry bytes of an object of a type, for the place of a refusal. -/
def objShape (type : Nat) (b : List Byte) : Nat × Nat :=
  if type ≤ 5 then (16, (tableOf type).1) else if type = 6 then (8, 16) else if type = 7 then (32, 8) else if type = 8 then (16, 32)
  else if type = 9 then (16, 160) else (16, (gwTable (byteAt b 0)).1)

/-- The check of an object by the rules of its type. -/
def State.objCheck (s : State) (type : Nat) (b : List Byte) : ObjCheck :=
  if type ≤ 5 then s.tableCheck type b
  else if type = 6 then s.classCheck b
  else if type = 7 then s.gateCheck b
  else if type = 8 then s.windowCheck b
  else if type = 9 then (refuseIf s.scr.load.isSome .busy .open_).or (s.ruleCheck b)
  else s.gwCheck b

/-- The number of entries of an object. -/
def objCount (type : Nat) (b : List Byte) : Nat :=
  let h := leNat (slice b 0 16)
  if type ≤ 5 then bits h 31 16 else if type = 6 then bits h 23 16 else if type = 7 then bits h 42 32
  else if type = 8 then bits h 38 32 else if type = 9 then bits h 61 48 else bits h 44 32

/-- Check an object and load it: refused whole, or applied (R287, R309). -/
def State.loadObject (s : State) (type : Nat) (b : List Byte) : Reply × State :=
  match s.objCheck type b with
  | some (st, at_) => let (h, z) := objShape type b; s.refuseObj st at_ h z
  | none =>
    if objCount type b = 0 then (.ok, s)
    else
      let s := { s with nm := { s.nm with snapDirty := true } }
      if type ≤ 5 then s.tableApply type b
      else if type = 6 then (.ok, s.classApply b)
      else if type = 7 then (.ok, s.gateApply b)
      else if type = 8 then (.ok, s.windowApply b)
      else if type = 9 then s.ruleApply b
      else (.ok, s.gwApply b)

/-! The object commands (R287 to R289). -/

/-- The type code of R287 is known. -/
def objTypeOk (t : Nat) : Bool := 1 ≤ t && t ≤ 0x0A

/-- Size of the object assembly area. -/
def areaSize : Nat := 1376256

/-- OBJ_LOAD (R287). -/
def objLoad (mb : Mb) (s : State) : State :=
  s.serve mb (· == 0x0015) (fun l => 4 ≤ l) (fun p s =>
    let s := s.touchArea mb
    let w := leNat (slice p 0 4)
    if w ≥ 256 then (.no .badField, s)
    else if !objTypeOk w then s.refuseObj .objType .noEntry 0 0
    else if p.length = 4 then (.ok, s)
    else s.loadObject w (p.drop 4))
def execObjLoad (mb : Mb) (s : State) : Out := done s (objLoad mb s)

/-- OBJ_OPEN (R288). -/
def objOpen (mb : Mb) (s : State) : State :=
  s.serve mb (· == 0x0010) (· == 8) (fun p s =>
    let s := s.touchArea mb
    let w := leNat (slice p 0 4)
    let size := leNat (slice p 4 4)
    if w ≥ 256 then (.no .badField, s)
    else if !objTypeOk w then (.no .objType, s)
    else if size = 0 then (.ok, s)
    else if size > areaSize then (.no .objTooLarge, s)
    else if s.host.area.isSome && (s.areaOf mb).isNone then (.no .busy, s)
    else (.ok, { s with host := { s.host with
      area := some { mb := mb, type := BitVec.ofNat 8 w, size := size, data := [], last := s.now, dma := none } } }))
def execObjOpen (mb : Mb) (s : State) : Out := done s (objOpen mb s)

/-- OBJ_WRITE (R288). -/
def objWrite (mb : Mb) (s : State) : State :=
  s.serve mb (· == 0x0011) (fun l => 4 ≤ l) (fun p s =>
    match s.areaOf mb with
    | none => (.no .objNotOpen, s)
    | some a =>
      let s := s.touchArea mb
      let d := p.drop 4
      if leNat (slice p 0 4) ≠ a.data.length || a.data.length + d.length > a.size then (.no .objOffset, s)
      else (.ok, { s with host := { s.host with area := some { a with data := a.data ++ d, last := s.now } } }))
def execObjWrite (mb : Mb) (s : State) : Out := done s (objWrite mb s)

/-- OBJ_COMMIT (R288): the area is released whatever the outcome. -/
def objCommit (mb : Mb) (s : State) : State :=
  s.serve mb (· == 0x0012) (· == 0) (fun _ s =>
    match s.areaOf mb with
    | none => (.no .objNotOpen, s)
    | some a =>
      let s := s.freeArea
      if a.data.length < a.size then (.no .objIncomplete, s) else s.loadObject a.type.toNat a.data)
def execObjCommit (mb : Mb) (s : State) : Out := done s (objCommit mb s)

/-- OBJ_CANCEL (R288). -/
def objCancel (mb : Mb) (s : State) : State :=
  s.serve mb (· == 0x0013) (· == 0) (fun _ s =>
    match s.areaOf mb with
    | none => (.no .objNotOpen, s)
    | some _ => (.ok, s.freeArea))
def execObjCancel (mb : Mb) (s : State) : Out := done s (objCancel mb s)

/-- OBJ_AREA_TIMEOUT (R288): 1 s without an object command from the holder releases the area. -/
def objAreaTimeout (s : State) : State :=
  match s.host.area with
  | some a => if s.fw && a.dma.isNone && s.now ≥ a.last + msCycles 1000 then s.freeArea else s
  | none => s
def execObjAreaTimeout (s : State) : Out := done s (objAreaTimeout s)

/-- OBJ_DMA (R289). -/
def objDma (mb : Mb) (s : State) : State :=
  s.serve mb (· == 0x0014) (· == 16) (fun p s =>
    let s := s.touchArea mb
    let w := leNat (slice p 0 4)
    let size := leNat (slice p 4 4)
    let addr := leNat (slice p 8 8)
    if w ≥ 256 || addr % 4 ≠ 0 then (.no .badField, s)
    else if !objTypeOk w then s.refuseObj .objType .noEntry 0 0
    else if size = 0 then (.ok, s)
    else if size > areaSize then (.no .objTooLarge, s)
    else if s.host.area.isSome && (s.areaOf mb).isNone then (.no .busy, s)
    else if !s.host.pcieLink then (.no .dmaError, s)
    else (.wait .dma, { s with host := { s.host with
      area := some { mb := mb, type := BitVec.ofNat 8 w, size := size, data := [], last := s.now,
                     dma := some (BitVec.ofNat 64 addr, s.now) } } }))
def execObjDma (mb : Mb) (s : State) : Out := done s (objDma mb s)

/-- End the transfer in progress with DMA_ERROR: nothing is loaded. -/
def State.dmaFail (s : State) : State :=
  match s.host.busy with
  | some (_, .dma) => (s.finishBusy .dma .dmaError []).freeArea
  | _ => s

/-- OBJ_DMA_COMPLETION (R289): the completion of one read request, 512 bytes at most. The last one commits the object. -/
def objDmaCompletion (data : List Byte) (ok : Bool) (s : State) : State :=
  match s.host.busy, s.host.area with
  | some (b, .dma), some a =>
    if !s.fw || !s.host.pcieLink then s
    else if !ok then s.dmaFail
    else
      let d := a.data ++ data.take (min 512 (a.size - a.data.length))
      if d.length < a.size then { s with host := { s.host with area := some { a with data := d } } }
      else
        let (r, s) := (s.freeArea).loadObject a.type.toNat d
        s.answer b r
  | _, _ => s
def execObjDmaCompletion (data : List Byte) (ok : Bool) (s : State) : Out := done s (objDmaCompletion data ok s)

/-- OBJ_DMA_TIMEOUT (R289): the transfer has not completed within 100 ms. -/
def objDmaTimeout (s : State) : State :=
  match s.host.area with
  | some a =>
    match a.dma with
    | some (_, t) => if s.fw && s.now ≥ t + msCycles 100 then s.dmaFail else s
    | none => s
  | none => s
def execObjDmaTimeout (s : State) : Out := done s (objDmaTimeout s)

/-! CONN_REMOVE and FRAME_SEND (R290, R291). -/

/-- CONN_REMOVE. -/
def connRemove (mb : Mb) (s : State) : State :=
  s.serve mb (· == 0x0720) (· == 4) (fun p s =>
    let e := leNat p
    if e ≥ 65536 then (.no .badField, s)
    else if !bit (s.rd (connAddr e) 1) 0 then (.no .noEntry, s)
    else (.ok, (s.connDrop e).mirrorConn e (s.rdB (connAddr e) 64)))
def execConnRemove (mb : Mb) (s : State) : Out := done s (connRemove mb s)

/-- FRAME_SEND: firmware injects a frame at P22, unless its transmit queue is full. -/
def frameSend (mb : Mb) (s : State) : State :=
  s.serve mb (· == 0x0030) (fun l => 64 ≤ l) (fun p s =>
    let w := leNat (slice p 0 4)
    if w &&& 0xFFFFFF08 ≠ 0 then (.no .badField, s)
    else if (s.sw.arriving.filter (fun a => a.port == 22 && s.now < a.stop)).length > Config.p22Queue then (.no .queueFull, s)
    else (.ok, s.receive { port := 22, unit := .express, bytes := p.drop 4, codeErr := false, cls := BitVec.ofNat 3 (bits w 2 0),
                           dom := BitVec.ofNat 4 (bits w 7 4) }))
def execFrameSend (mb : Mb) (s : State) : Out := done s (frameSend mb s)

end Sys2Proof.Machine
end

