-- ==== Sys2Proof/Machine/Egress.lean ====
section
/-! DEFINITION. Selection at the egress, the four planes, the confluence and the MAC (R107 to R122, R127 to R142, R150 to
R155), and the commands of weirs and millrace windows. -/

namespace Sys2Proof.Machine

/-! What takes effect at a selection (R135, R158). -/

/-- Verification of preemption follows its parameter (R141). -/
def State.mmFollow (s : State) (p : Nat) : State :=
  let o := s.param (0x0440 + p)
  if bit o 0 && bit o 3 then (if s.linkUp p && (s.egr p).verify = 0 then s.startVerify p else s)
  else s.setEgr p { s.egr p with verify := 0, attempts := 0 }

/-- The initial shaper state of a class (R136, R138). -/
def State.shaperStart (s : State) (p c : Nat) : State :=
  let back : Int := ((s.clsBurst p c * 800000 * 65536 / max 1 (s.clsRate p c) : Nat) : Int)
  s.setCls p c { s.cls p c with credit := 0, carry := 0, atsBucket := ((s.now * 65536 : Nat) : Int) - back, atsGroup := 0 }

/-- A loaded entry of the class table takes effect: a class whose SHAPER, RATE or BURST changes starts from its initial shaper state
(R135). -/
def State.classEffect (s : State) (p c : Nat) : State :=
  match SMap.get [] s.sw.clsOld (p * 8 + c) with
  | [] => s
  | b =>
    let old := leNat b
    let e := s.rd (classAddr p c) 16
    let s := { s with sw.clsOld := SMap.set [] s.sw.clsOld (p * 8 + c) [] }
    if bits old 17 16 ≠ bits e 17 16 || bits old 95 32 ≠ bits e 95 32 then s.shaperStart p c else s

/-- A changed parameter of R158 of a port takes effect: gate list enable and preemption options do something of their own. -/
def State.paramTakes (s : State) (p base : Nat) : State :=
  match SMap.get none s.sw.parOld (base + p) with
  | none => s
  | some _ =>
    let s := { s with sw.parOld := SMap.set none s.sw.parOld (base + p) none }
    if base = 0x0420 then s.refreshGates p else if base = 0x0440 && p < 8 then s.mmFollow p else s

/-- What has been changed for a port takes effect at its selection (R135, R158; the selection of a class is that of its port, log
entry 51). -/
def State.takeEffect (s : State) (p : Nat) : State :=
  [0x0420, 0x0440, 0x0460, 0x0480, 0x04A0].foldl (fun s base => s.paramTakes p base) (foldN 8 (fun s c => s.classEffect p c) s)

/-! Eligibility (R132). -/

/-- The head frame of a leaf makes it Active, 2 cycles after it has become eligible; it is no earlier than its enqueue (R128). -/
def State.leafActive (s : State) (o c d : Nat) : Bool :=
  match (s.leaf o c d).items with
  | x :: _ => x.act && s.now ≥ max (x.elig.getD 0) x.enq + 2
  | [] => false

/-- The Active leaves of a class. -/
def State.activeLeaves (s : State) (o c : Nat) : List Nat := (List.range 16).filter (s.leafActive o c)

/-- A preempted frame is held: it has not been resumed (R142). -/
def State.frameHeld (s : State) (o : Nat) : Bool :=
  let e := s.egr o
  e.held.isSome || e.chosen.any (fun x => x.preempted && !x.begun)

/-- The class has an Active leaf, is sending, or has a preempted frame that is held (R136, R137). -/
def State.classBusy (s : State) (o c : Nat) : Bool :=
  let e := s.egr o
  !(s.activeLeaves o c).isEmpty || (e.chosen ++ e.held.toList).any (fun x => x.left && x.cls.val == c)

/-- A credit and its remainder after `n` more cycles at the idle slope (R136). A kilobit is 1,000 bits here, so that the idle slope
adds 1.25 × RATE / 1,000,000 bits in a cycle (DEDUCED: R469 and R136 also state 1.25 × RATE / 1,000, which differs by 1,000; log
entry 52). -/
def State.creditGrow (s : State) (o c : Nat) (q : Int × Nat) (n : Nat) : Int × Nat :=
  let x := q.2 + n * 320 * s.clsRate o c
  let cr := q.1 + ((x / 1000000 : Nat) : Int)
  let b := s.clsBurst o c
  (if b ≠ 0 then min cr ((b * 256 : Nat) : Int) else cr, x % 1000000)

/-- Credit of a class after `n` more cycles at the idle slope. -/
def State.creditAfter (s : State) (o c n : Nat) : Int × Nat := s.creditGrow o c ((s.cls o c).credit, (s.cls o c).carry) n

/-- Bytes that a frame which a port has selected has still to send. -/
def State.leftLen (s : State) (x : TxFrame) : Nat := s.outLen (s.txFrame x) x.dest - x.sent

/-- The cycle in which the MAC will be free, and the selected frames that have not begun, with the cycle in which each begins. A frame that
has not begun by 3 cycles after its instant keeps the port from another selection (R133). -/
def State.ahead (s : State) (o : Nat) : Nat × List (TxFrame × Nat) :=
  let e := s.egr o
  e.chosen.foldl (fun (free, l) x =>
    if x.begun then (e.freeAt, l)
    else
      let b := max x.tau free
      (if x.tau + 3 < s.now then s.now + 45 else b + byteCycles (s.leftLen x + overhead o) (s.lineRate o), l ++ [(x, b)])) (e.freeAt, [])

/-- The credit of a class at `τ` (R132, R136, R137): it grows while the class is not Closed, and each frame, or rest of a frame, that has been
selected and has not begun is charged as it begins. -/
def State.creditAt (s : State) (o c tau : Nat) : Int :=
  let q := s.cls o c
  let (v, n) := ((s.ahead o).2.filter (fun x => x.1.cls.val = c)).foldl (fun (b : (Int × Nat) × Nat) (x : TxFrame × Nat) =>
    let n := s.openFor o c (min x.2 tau)
    let (v, r) := s.creditGrow o c b.1 (n - b.2)
    ((v - ((s.leftLen x.1 + overhead o : Nat) : Int) * 8 * 256, r), n)) ((q.credit, q.carry), 0)
  (s.creditGrow o c v (s.openFor o c tau - n)).1

/-- The port rate limit permits a frame to begin at `τ` (R132, R140). -/
def State.limitOk (s : State) (o tau : Nat) : Bool :=
  (s.egr o).limits.all (fun x => x.2 ≤ tau * 65536) &&
  (s.ahead o).2.all (fun x => x.1.preempted || s.limitEnd o (s.leftLen x.1) x.2 ≤ tau * 65536)

/-- Every condition of R132 but the weir holds for a class at `τ`. -/
def State.mayServe (s : State) (o c tau : Nat) : Bool :=
  !(s.activeLeaves o c).isEmpty && (s.shaper o c != 1 || s.creditAt o c tau ≥ 0) && s.limitOk o tau &&
  (!s.isPreemptable o c || (match (s.egr o).held with | some h => h.cls.val == c | none => true))

/-- Classes in the order of R132: express from TC7 down, then preemptable. -/
def State.classOrder (s : State) (o : Nat) : List Nat :=
  let l := (List.range 8).reverse
  l.filter (fun c => !s.isPreemptable o c) ++ l.filter (fun c => s.isPreemptable o c)

/-- What a selection yields. -/
inductive Choice where
  | nothing | resume
  | take (cls : Nat)
  deriving DecidableEq, Repr

/-- The guard bands `l`, which are one, alone hold a class back: GUARD_HOLD counts them once (R151). -/
def State.holdBack (s : State) (o c : Nat) (l : List Nat) : State :=
  let q := s.cls o c
  if l.contains q.guardMark then s else (s.setCls o c { q with guardMark := l.headD 0 }).bump (txCnt o c 0x14)

/-- Go through the classes in order (R132): the first eligible one, counting the guard bands that alone hold a class back
before it (R151). `resumeOk`: a held frame may be resumed; `express`: only express classes may be taken. -/
def chooseClass (o tau : Nat) (resumeOk express : Bool) : List Nat → State → Choice × State
  | [], s => (if resumeOk then .resume else .nothing, s)
  | c :: cs, s =>
    let pre := s.isPreemptable o c
    if pre && resumeOk then (.resume, s)
    else if pre && express then (.nothing, s)
    else if !s.mayServe o c tau then chooseClass o tau resumeOk express cs s
    else
      match s.weir o c tau with
      | (.open_, _) => (.take c, s)
      | (.guard, t) => chooseClass o tau resumeOk express cs (s.holdBack o c t)
      | (.closed, _) => chooseClass o tau resumeOk express cs s

/-! The pull and the reads (R103, R107, R109, R110). -/

/-- The next read of a pull may begin: its cell has been enqueued in an earlier cycle. -/
def State.readable (s : State) (p : Pull) : Bool :=
  p.at_ ≤ s.now && (match s.frame p.fid with | some f => decide (p.idx < f.cells.length) | none => false)

/-- The read of the next cell of a pull begins: the cell takes the next number of its pair (R110), may launch in the cycle after
its 4 cycles, and the cell after it is read in a later cycle. -/
def State.beginRead (s : State) (p : Pull) : State :=
  match s.frame p.fid with
  | none => s
  | some f =>
    let pair := p.inp.val * 24 + p.out.val
    let seq := SMap.get 0 s.fab.nextSeq pair
    let x : CellTx :=
      { fid := p.fid, inp := p.inp, out := p.out, dest := p.dest, idx := p.idx, cell := f.cells.getD p.idx 0, cls := p.cls,
        seq := seq, at_ := s.now + 4, data := [], upset := [] }
    let others := s.fab.pulls.filter (fun q => !(q.fid = p.fid && q.dest = p.dest))
    { s with fab.waiting := s.fab.waiting ++ [x], fab.nextSeq := SMap.set 0 s.fab.nextSeq pair (seq + 1), sw.readAt := s.now + 1,
             fab.pulls := if p.idx + 1 ≥ f.total then others else others ++ [{ p with idx := p.idx + 1, at_ := s.now + 1 }] }

/-- The pulls of an input whose next read may begin now. -/
def State.dueReads (s : State) (i : Nat) : List Pull := s.fab.pulls.filter (fun p => p.inp.val = i && s.readable p)

/-- The read port of an input begins at most one read in a cycle (R109). Which of several due reads begins is open (a free value, log
entry 38). -/
def State.readPort (s : State) (i : Nat) : State :=
  match s.dueReads i with
  | [] => s
  | [p] => s.beginRead p
  | p :: q :: l =>
    let (x, s) := s.draw
    s.beginRead ((p :: q :: l).getD (x % (l.length + 2)) p)

/-- The read ports of every input in this cycle. A late scrub read delays one of the reads; which one is open (R100, log entry 38). -/
def State.readPorts (s : State) : State :=
  if s.fab.pulls.isEmpty then s
  else
    -- a frame cut short by the fall of its link has no more cells to read
    let past := fun (p : Pull) => match s.frame p.fid with | some f => f.whole && decide (p.idx ≥ f.total) | none => true
    let s := { s with fab.pulls := s.fab.pulls.filter (fun p => !past p) }
    let ports := (List.range 24).filter (fun i => !(s.dueReads i).isEmpty)
    let (late, s) :=
      if s.sw.readHold = s.now && !ports.isEmpty then
        let (x, s) := s.draw
        (ports[x % ports.length]?, s)
      else (none, s)
    ports.foldl (fun s i => if late = some i then s else s.readPort i) s

/-- A cell read for one destination. -/
def CellTx.same (x c : CellTx) : Bool := x.inp = c.inp && x.out = c.out && x.seq = c.seq

/-- The read of a cell is complete: its codewords leave the buffer, D falls, and its destination waits for it no more (R103, R107,
R109). -/
def State.endRead (s : State) (c : CellTx) : State :=
  let chk := fun h => natLe 4 (SMap.get 0 s.check h).toNat
  let data := s.rdB (cellAddr c.cell) 64 ++ chk (2 * c.cell) ++ chk (2 * c.cell + 1)
  let s := { s with fab.waiting := s.fab.waiting.map (fun (x : CellTx) => if x.same c then { x with data := data } else x) }
  match s.frame c.fid with
  | some f =>
    if f.dests.getLsbD c.dest then
      ((s.subDepth c.out.val c.cls.val 1).setFrame c.fid (some { f with readBy := SMap.set 0 f.readBy c.dest (c.idx + 1) })).releaseCells
        c.fid
    else s
  | none => s

/-- The reads that complete in this cycle. -/
def State.readDone (s : State) : State :=
  (s.fab.waiting.filter (fun c => c.data.isEmpty && c.at_ ≤ s.now)).foldl State.endRead s

/-! EGRESS_SELECT (R106, R127 to R133). -/

/-- Frames at the head of a queue that have been resident for more than 80,000,000 cycles lose this destination (R106). -/
def State.dropResident (s : State) (o : Nat) : State :=
  (s.sw.leaves.filter (fun e => e.1 / 128 = o)).foldl (fun s (_, l) =>
    (l.items.takeWhile (fun x => s.now > x.enq + 80000000)).foldl (fun s x => s.unqueue x.fid x.dest 0x18) s) s

/-- The leaf of a class that virtual time chooses (R129, R130): smallest start tag by serial arithmetic, then lowest domain. -/
def State.chooseLeaf (s : State) (o c : Nat) : Option Nat :=
  let v := (s.cls o c).v
  (s.activeLeaves o c).foldl (fun b d => match b with
    | none => some d
    | some x => if (s.startTag o c d - v).toInt < (s.startTag o c x - v).toInt then some d else b) none

/-- A frame joins those that a port has selected. -/
def Egress.add (e : Egress) (x : TxFrame) : Egress := if e.tx.isNone then { e with tx := some x } else { e with next := e.next ++ [x] }

/-- Take the head frame of the chosen leaf of a class. -/
def State.takeClass (s : State) (o c tau : Nat) (out : Port) : State :=
  match s.chooseLeaf o c with
  | none => s
  | some d =>
    let l := s.leaf o c d
    match l.items with
    | [] => s
    | x :: rest =>
      match s.frame x.fid with
      | none => s.setLeaf o c d { l with items := rest }
      | some f =>
        let whole := f.endAt ≤ s.now
        let cost := s.cost d (if whole then s.outLen f x.dest else s.maxF o c)
        let tag := s.startTag o c d
        let s := s.setCls o c { s.cls o c with v := tag }
        let s := s.setLeaf o c d { l with items := rest, s := tag + BitVec.ofNat 32 cost }
        let cf : Fin 8 := BitVec.toFin (BitVec.ofNat 3 c)
        let t : TxFrame :=
          { fid := x.fid, frame := f, dest := x.dest, cls := cf, dom := BitVec.toFin (BitVec.ofNat 4 d),
            pcpCls := s.inForceBit (0x04A0 + o) 0, cost := cost, known := whole, tau := tau, begun := false, got := 0,
            raw := [], sent := 0, fragAt := 0, preempted := false, overran := false, sa := none, cut := none }
        let p : Pull := { fid := x.fid, inp := f.inp, out := out, dest := x.dest, cls := cf, idx := 0, at_ := s.now + 2 }
        { s.setEgr o ((s.egr o).add t) with fab.pulls := s.fab.pulls ++ [p] }

/-- The held frame of a port is resumed (R132, R142). -/
def State.resumeHeld (s : State) (o tau : Nat) : State :=
  let e := s.egr o
  match e.held with
  | some h => s.setEgr o ({ e with held := none }.add { h with tau := tau, fragAt := tau })
  | none => s

/-- The port makes a selection now, for the MAC start instant 44 cycles later. -/
def State.select (s : State) (out : Port) (soon : Bool) : State :=
  let o := out.val
  let tau := s.now + 44
  let s := (s.takeEffect o).dropResident o
  let resumeOk := soon && (match (s.egr o).held with
    | some h => (match (s.weir o h.cls.val tau).1 with | .closed => false | _ => true)
    | none => false)
  match chooseClass o tau resumeOk (!soon) (s.classOrder o) s with
  | (.nothing, s) => s
  | (.take c, s) => s.takeClass o c tau out
  | (.resume, s) => s.resumeHeld o tau

/-- EGRESS_SELECT: a selection at a port whose MAC will be free within 44 cycles, one in 4 cycles at most (R133). An express frame
may also be selected while a preemptable one is in transmission (R142). -/
def egressSelect (out : Port) (s : State) : State :=
  let o := out.val
  if !s.live || s.nm.state = .commit then s
  else
    let e := s.egr o
    let soon := (s.ahead o).1 ≤ s.now + 44
    let cutIn := match e.tx with
      | some x => x.begun && s.isPreemptable o x.cls.val && e.next.isEmpty && !s.frameHeld o
      | none => false
    if (e.lastSelect ≠ 0 && s.now < e.lastSelect + 3) || !(soon || cutIn) then s
    else (s.setEgr o { e with lastSelect := s.now + 1 }).select out soon
def execEgressSelect (port : Port) (s : State) : Out := done s (egressSelect port s)

/-! The planes (R108, R111, R115). -/

/-- Ports whose slots the beats of a candidate take in this cycle: those with bytes that complete in it at Pi (R115, R167). -/
def State.beatPorts (s : State) : List Nat × List Nat :=
  (List.range 20).foldl (fun (a : List Nat × List Nat) o => match (s.mill o).opened with
    | some w =>
      let r := s.lineRate o
      let t := s.now - w.candFrom
      let ready := 0 < t && t * r / 6400 ≠ (t - 1) * r / 6400
      if w.candidate && s.now ≤ w.candTo && ready then (w.win.inPort :: a.1, o :: a.2) else a
    | none => a) ([], [])

/-- The confluence has not released a cell yet: it leaves 4 cycles after it has become in order (R113). -/
def State.unreleased (s : State) (c : CellTx) : Bool := c.at_ > s.now + 4

/-- The cells of an output that have been launched, or are to be, and that its confluence has not released. -/
def State.behind (s : State) : List CellTx := s.fab.flight ++ s.fab.store ++ s.fab.out.filter s.unreleased

/-- A continuation cell: the first cell of its frame has been released by the confluence (R111). -/
def State.continues (s : State) (c : CellTx) : Bool :=
  c.idx ≠ 0 && !(s.fab.waiting ++ s.behind).any (fun x => x.fid = c.fid && x.dest = c.dest && x.idx = 0)

/-- Precedence of a waiting cell: 0 a continuation cell, then by class, TC7 first (R111). -/
def State.cellRank (s : State) (c : CellTx) : Nat := if s.continues c then 0 else 8 - c.cls.val

/-- Cells launched toward an output and not yet released (R109). -/
def State.outCredit (s : State) (o : Nat) : Nat := (s.behind.filter (fun c => c.out.val = o)).length

/-- The cell of a pair that asks for a plane: the lowest number first. -/
def State.requests (s : State) (plane : Nat) (noIn noOut : List Nat) : List CellTx :=
  let l := s.fab.waiting.filter (fun c => c.seq.toNat % 4 = plane && !c.data.isEmpty && !noIn.contains c.inp.val &&
    !noOut.contains c.out.val && s.outCredit c.out.val < 256)
  l.filter (fun c => !(l.any (fun x => x.inp = c.inp && x.out = c.out && (c.seq - x.seq).toNat - 1 < 2048 && x.seq ≠ c.seq)))

/-- The best of `l` by rank, then by the round robin of a pointer. -/
def State.bestOf (s : State) (ptr : Nat) (port : CellTx → Nat) (l : List CellTx) : Option CellTx :=
  l.foldl (fun b c => match b with
    | none => some c
    | some x =>
      let k := fun (y : CellTx) => s.cellRank y * 24 + (port y + 24 - ptr) % 24
      if k c < k x then some c else some x) none

/-- Launch a cell: it reaches the confluence 12 cycles after the start of its slot (R108). -/
def State.launch (s : State) (c : CellTx) : State :=
  { s with fab.waiting := s.fab.waiting.filter (fun (x : CellTx) => !x.same c), fab.flight := s.fab.flight ++ [{ c with at_ := s.now + 12 }] }

/-- One slot of the plane that begins it in this cycle: grants, accepts, launches (R108, R111). -/
def State.planeSlot (s : State) : State :=
  let plane := s.now % 4
  if s.fab.waiting.isEmpty then s
  else
    let (noIn, noOut) := s.beatPorts
    let req := s.requests plane noIn noOut
    let grants := (List.range 24).filterMap (fun o =>
      s.bestOf (SMap.get 0 s.fab.grant (plane * 24 + o)) (fun c => c.inp.val) (req.filter (fun c => c.out.val = o)))
    let accepts := (List.range 24).filterMap (fun i =>
      s.bestOf (SMap.get 0 s.fab.accept (plane * 24 + i)) (fun c => c.out.val) (grants.filter (fun c => c.inp.val = i)))
    accepts.foldl (fun s c =>
      let s := { s with fab.grant := SMap.set 0 s.fab.grant (plane * 24 + c.out.val) ((c.inp.val + 1) % 24),
                        fab.accept := SMap.set 0 s.fab.accept (plane * 24 + c.inp.val) ((c.out.val + 1) % 24) }
      s.launch c) s

/-! The confluence (R112 to R114) and the decoder (R97). -/

/-- Decode the half-cells of a cell; none: a half-cell that the decoder cannot correct, with its syndromes. -/
def decodeHalf (cw : List Nat) : Option (List Nat × Nat) × Nat :=
  (rsDecode cw, (rsSyns cw).foldr (fun x a => x + 256 * a) 0)

/-- Note a corrected half-cell (R97, R125, R313). `src`: 0 egress, 1 scrubber, 2 diagnostic read. -/
def State.noteCorrected (s : State) (half n src : Nat) : State :=
  if n = 0 then s
  else
    let s := s.bump (if n = 1 then 0x0489000C else 0x04890010)
    { s with sw.rsLast := BitVec.ofNat 32 (half + src * 2 ^ 19 + 2 ^ 21) }.irq 10

/-- Codeword `h` (0 or 1) of a cell as it arrived. -/
def CellTx.word (c : CellTx) (h : Nat) : List Nat :=
  let cw := (slice c.data (h * 32) 32 ++ slice c.data (64 + h * 4) 4).map BitVec.toNat
  c.upset.foldl (fun w (k, j, v) => if k = h then rsFlip w j v else w) cw

/-- Half-cell `h` of a cell passes the decoder: its bytes; none: it cannot be corrected, which is a device fault (R97). -/
def State.decode (s : State) (c : CellTx) (h : Nat) : Option (List Byte) × State :=
  match decodeHalf (c.word h) with
  | (some (w, n), _) => (some ((w.take 32).map (BitVec.ofNat 8)), s.noteCorrected (2 * c.cell + h) n 0)
  | (none, y) => (none, s.deviceFault 0x0101 0 [2 * c.cell + h, c.out.val, y])

/-- A cell has passed the decoder: its bytes join those of the frame that its output has selected; a cell of another frame is discarded
(R97, R113, R121). The first bit of the frame can leave 18 cycles later. -/
def State.deliver (s : State) (c : CellTx) : State :=
  let o := c.out.val
  match s.decode c 0 with
  | (none, s) => s
  | (some b0, s) => match s.decode c 1 with
    | (none, s) => s
    | (some b1, s) =>
      let add := fun (x : TxFrame) =>
        if x.fid = c.fid && x.dest = c.dest then
          { x with got := x.got + 1, raw := x.raw ++ b0 ++ b1, fragAt := if c.idx = 0 then s.now + 18 else x.fragAt }
        else x
      let e := s.egr o
      s.setEgr o { e with tx := e.tx.map add, next := e.next.map add, held := e.held.map add }

/-- The cells whose decoding is complete in this cycle. Of several half-cells corrected in one cycle BUF_RS_LAST shows the last (DESIGN CHOICE:
R125 does not say which; log entry 38). -/
def State.deliverDue (s : State) : State :=
  let due := s.fab.out.filter (fun c => c.at_ ≤ s.now)
  due.foldl State.deliver { s with fab.out := s.fab.out.filter (fun c => !(c.at_ ≤ s.now)) }

/-- At an output at most one cell becomes in order in a cycle, that of the lowest input with one ready; it has passed the decoder
8 cycles later (R13, R113). -/
def State.releaseNext (s : State) (o : Nat) : State :=
  let ready := s.fab.store.filter (fun c => c.out.val = o && c.seq = SMap.get 0 s.fab.expect (c.inp.val * 24 + o))
  match ready.foldl (fun (b : Option CellTx) c => match b with
    | none => some c
    | some x => if c.inp.val < x.inp.val then some c else some x) none with
  | some c =>
    let pair := c.inp.val * 24 + o
    { s with fab.store := s.fab.store.filter (fun (x : CellTx) => !x.same c), fab.out := s.fab.out ++ [{ c with at_ := s.now + 8 }],
             fab.expect := SMap.set 0 s.fab.expect pair (SMap.get 0 s.fab.expect pair + 1) }
  | none => s

/-- What becomes in order in the cycle that ends. -/
def State.releases (s : State) : State := if s.fab.store.isEmpty then s else foldN 24 State.releaseNext s

/-- CELL_ARRIVE (R112, R113): a cell arrives at the confluence of an output with errors in symbols of its codewords. -/
def cellArrive (out inp : Port) (plane : Fin 4) (seq : BitVec 12) (upset : List (Fin 2 × Fin 36 × Byte)) (s : State) : State :=
  if !s.live then s
  else
    let pair := inp.val * 24 + out.val
    let d := (seq - SMap.get 0 s.fab.expect pair).toNat
    if seq.toNat % 4 ≠ plane.val || d ≥ 256 then s.deviceFault 0x0103 plane.val [inp.val, out.val, seq.toNat, d]
    else match s.fab.flight.find? (fun c => c.inp = inp && c.out = out && c.seq = seq && c.at_ ≤ s.now) with
      | none => s
      | some c =>
        let c := { c with at_ := s.now, upset := upset.map (fun (h, j, v) => (h.val, j.val, v.toNat)) }
        let s := { s with fab.flight := s.fab.flight.filter (fun (x : CellTx) => !x.same c), fab.store := s.fab.store ++ [c] }
        if d = 0 then s
        else
          let n := (s.fab.store.filter (fun x => x.out = out)).length
          (s.portErr out.val 0x194).peak (portReg out.val 0x198) n
def execCellArrive (out inp : Port) (plane : Fin 4) (seq : BitVec 12) (upset : List (Fin 2 × Fin 36 × Byte)) (s : State) : Out :=
  done s (cellArrive out inp plane seq upset s)

/-- CONFLUENCE_TIMEOUT (R114): a cell has been held for 1,600 cycles. -/
def confluenceTimeout (out : Port) (s : State) : State :=
  if !s.live then s
  else match s.fab.store.find? (fun c => c.out = out && s.now ≥ c.at_ + 1600) with
    | some c =>
      let e := SMap.get 0 s.fab.expect (c.inp.val * 24 + out.val)
      s.deviceFault 0x0102 out.val [c.inp.val, e.toNat, c.seq.toNat, (s.fab.store.filter (fun x => x.out = out)).length]
    | none => s
def execConfluenceTimeout (out : Port) (s : State) : Out := done s (confluenceTimeout out s)

/-! The MAC (R133, R136, R140, R374). -/

/-- The frame selected next takes the place of one that has left the MAC. -/
def State.promote (s : State) (o : Nat) : State :=
  let e := s.egr o
  match e.tx, e.next with
  | none, x :: l => s.setEgr o { e with tx := some x, next := l }
  | _, _ => s

/-- The start tags of leaves whose frames have arrived whole since their selection are corrected (R129). -/
def State.settleCosts (s : State) (o : Nat) : State :=
  let known := fun (s : State) (x : TxFrame) => !x.known && (s.txFrame x).endAt ≤ s.now
  let e := s.egr o
  let due := (e.chosen ++ e.held.toList).filter (known s)
  if due.isEmpty then s
  else
    let clear := fun (x : TxFrame) => if known s x then { x with known := true, cost := s.cost x.dom.val (s.outLen (s.txFrame x) x.dest) } else x
    due.foldl (fun s x => s.correctTx o x (s.outLen (s.txFrame x) x.dest))
      (s.setEgr o { e with tx := e.tx.map clear, next := e.next.map clear, held := e.held.map clear })

/-- Cycles of a bit time of P20 and P21. -/
def bitCycles (n : Nat) : Nat := n * 80

/-- PLCA of port `o` as the frame `x` begins: it opens an opportunity, or is the next frame of a burst (R301). -/
def State.plcaBegun (s : State) (o : Nat) (x : TxFrame) : Plca :=
  let c := (s.egr o).plca
  let left := if s.param (0x0A00 + o % 2) = 0 then 0 else if 0 < c.left && s.now ≤ c.till then c.left - 1 else s.param (0x0A08 + o % 2)
  { wait := none, left := left, fresh := false,
    till := s.now + byteCycles (8 + s.leftLen x) (s.lineRate o) + bitCycles (s.param (0x0A0A + o % 2)) }

/-- The longest wait for an opportunity, in cycles (R301). The node count of another coordinator is not known: its range bounds it. -/
def State.plcaBound (s : State) (o : Nat) : Nat :=
  let i := o % 2
  let n := if s.param (0x0A02 + i) = 0 then s.param (0x0A04 + i) else 255
  bitCycles (20 + n * s.param (0x0A06 + i) + (n - 1) * (1 + max (s.param (0x0A08 + i)) (Config.plcaBurst i)) * (Config.plcaLongest i + 20) * 8)

/-- The wait of a selected frame for its opportunity: free, bounded while PLCA runs. Without PLCA, and after a restart that waits for the BEACON
of another station, it has no bound (R153, R301; log entry 49). -/
def State.plcaWait (s : State) (o w : Nat) : Nat :=
  if s.param (0x0A00 + o % 2) = 0 || (s.egr o).plca.fresh then w else w % (s.plcaBound o + 1)

/-- A changed parameter of R301 restarts PLCA: at once at the coordinator, else at the next BEACON. -/
def State.plcaRestart (s : State) (i : Nat) : State :=
  let c := (s.egr (20 + i)).plca
  s.setEgr (20 + i) { s.egr (20 + i) with plca := { c with wait := none, left := 0, fresh := decide (s.param (0x0A02 + i) ≠ 0) } }

/-- The frame `x` begins at the MAC in this cycle, or a held one resumes; a frame that no association can protect is discarded (R133,
R136, R140, R156, R374). -/
def State.beginTx (s : State) (o : Nat) (x : TxFrame) : State :=
  let f := s.txFrame x
  let need := s.protects f x.dest && !x.preempted
  let (sa, s) := if need then macsecTake s o else (x.sa, s)
  if need && sa.isNone then
    let s := (s.setEgr o { s.egr o with tx := none }).bump (portReg o 0x2A4)
    ((s.correctTx o x (s.outLen f x.dest)).abandon x.fid x.dest).promote o
  else
    let len := s.leftLen x
    let s := s.setEgr o { s.egr o with tx := some { x with begun := true, tau := s.now, sa := sa }, plca := s.plcaBegun o x,
                                       freeAt := s.now + byteCycles (len + overhead o) (s.lineRate o) }
    let s := s.chargeCredit o x.cls.val (len + overhead o)
    if x.preempted then s.bump (portReg o 0x218)
    else (s.add64 (txCnt o x.cls.val 0) 1).chargeLimit o (limitKey x.fid x.dest) len s.now

/-- The MAC of a port in this cycle. The selected frame begins once its first bit can leave, the MAC is free and no window has the port
(R133, R164). On P20 and P21 it waits for the next transmit opportunity, which the device does not know: a free value, bounded by R301
(R153, log entry 49). -/
def State.macPort (s : State) (o : Nat) : State :=
  let s := (s.settleCosts o).promote o
  let e := s.egr o
  match e.tx with
  | some x =>
    -- P23 does not begin a frame before every message of the present one has gone to the screen (R194)
    let held := o = 23 && s.scr.gw.rest.isSome
    if x.begun || held || x.got = 0 || s.now < max x.fragAt e.freeAt || s.millClosed o s.now || (!x.preempted && !e.limits.all (fun y => y.2 ≤ s.now * 65536)) then s
    else if o = 20 || o = 21 then
      match e.plca.wait with
      | none =>
        if 0 < e.plca.left && s.now ≤ e.plca.till then s.beginTx o x
        else
          let (w, s) := s.draw
          let w := s.plcaWait o w
          if w = 0 then s.beginTx o x else s.setEgr o { s.egr o with plca := { (s.egr o).plca with wait := some (s.now + w) } }
      | some t => if s.now < t then s else s.beginTx o x
    else s.beginTx o x
  | none => s

/-- The MACs of every port in this cycle. -/
def State.macTick (s : State) : State := (s.sw.egress.map (fun e => e.1)).foldl State.macPort s

/-! Ends of transmission. -/

/-- The UDP keep-alive of a frame of VLAN `vid` that reaches P22: an IPv4 datagram with the 8 bytes of R316, from the address that carries its
node (R316, R318). -/
def State.udpKeepAlive (s : State) (b : List Byte) (vid : Nat) : State :=
  let p := parseFrame b (b.length + 4)
  let port := s.param 0x0C06
  let udpLen := be16 b (p.ipOff + byteAt b p.ipOff % 16 * 4 + 4)
  if s.fw && port ≠ 0 && p.ip = 4 && p.l4 && p.proto = 17 && p.dport = port && vid = s.param 0x0C07 && udpLen = 16 &&
      p.src = [169, 254, 1, BitVec.ofNat 8 (byteAt p.payload 0)] && bit (byteAt p.payload 1) 0
  then s.countKa (byteAt p.payload 0) (bit (byteAt p.payload 1) 1) 0 else s

/-- A frame reaches firmware at P22: it may be a keep-alive, or a gPTP message with its timestamp (R74, R192, R318). -/
def State.toFirmware (s : State) (f : Frame) (d : Nat) (b : List Byte) : State :=
  let s := { s with sw.toFw := some { bytes := b, stamp := f.ts, copy := if d = 24 then f.copy else none } }
  if d = 24 then s
  else
    let s := if f.ts.isSome then s.takeAnnounce f.inp.val b else s
    s.udpKeepAlive b f.vid.toNat

/-- Record what a port has put on the wire, count its bytes (R156), and hand a frame that leaves inside on: to firmware at P22, to the
gateway at P23. It has no FCS there (R11). -/
def State.sentFrame (s : State) (o c : Nat) (f : Frame) (d : Nat) (b : List Byte) (stomped : Bool) : State :=
  let s := { s with sw.wire := SMap.set [] s.sw.wire o b }.add64 (txCnt o c 8) b.length
  let body := b.take (b.length - 4)
  if o = 22 then (if stomped then s else s.toFirmware f d body)
  else if o = 23 then { s with sw.toGw := s.sw.toGw ++ [(body, stomped)] }
  else s

/-- Bytes of the present frame that have begun to leave by cycle `t`. -/
def State.bytesBegun (s : State) (o : Nat) (x : TxFrame) (t : Nat) : Nat :=
  x.sent + (((t - x.tau) * s.lineRate o + 6399) / 6400 - (if o < 22 then 8 else 0))

/-- Cycle in which byte `n` of the present frame, counted from 0, begins to leave. -/
def State.byteLeaves (s : State) (o : Nat) (x : TxFrame) (n : Nat) : Nat :=
  x.tau + byteCycles (n - x.sent + (if o < 22 then 8 else 0)) (s.lineRate o)

/-- The bytes as they leave the MAC: a protected frame with its SecTAG and its ICV (R371, R374). -/
def TxFrame.sealed (x : TxFrame) (b : List Byte) : List Byte :=
  match x.sa with
  | some (an, sa, key) => macsecSeal an sa key b x.cut
  | none => b

/-- A stomped frame ends in the complement of its FCS (R120). -/
def stompedFrame (b : List Byte) : List Byte := b ++ natLe 4 (0xFFFFFFFF - (fcsOf b).toNat)

/-- The cells of the present frame of an output that have left the confluence and have not passed the decoder. -/
def State.nearCells (s : State) (o : Nat) (x : TxFrame) : List CellTx :=
  s.fab.out.filter (fun c => c.out.val = o && c.fid = x.fid && c.dest = x.dest && !s.unreleased c)

/-- The bytes of cells as the decoder will deliver them, up to a half-cell that it cannot correct (R97). -/
def decodedBytes : List CellTx → List Byte
  | [] => []
  | c :: l => match decodeHalf (c.word 0), decodeHalf (c.word 1) with
    | (some (a, _), _), (some (b, _), _) => (a.take 32 ++ b.take 32).map (BitVec.ofNat 8) ++ decodedBytes l
    | (some (a, _), _), _ => (a.take 32).map (BitVec.ofNat 8)
    | _, _ => []

/-- The bytes of a frame that its MAC can send before it needs a cell that has not left the confluence (R121). -/
def State.inHand (s : State) (o : Nat) (x : TxFrame) : List Byte :=
  let f := s.txFrame x
  let raw := x.raw ++ decodedBytes (s.nearCells o x)
  let b := x.sealed (f.edit x.dest x.pcpCls (raw.take (f.len - 4)))
  if x.sa.isSome then b.take (b.length - 16) else b

/-- A protected frame has left, or what of it could: it counts, and one that a tamper event has met counts as sent without an SA (R374, R387). -/
def State.countSealed (s : State) (o : Nat) (x : TxFrame) : State :=
  if x.sa.isNone then s else if x.cut.isSome then s.bump (portReg o 0x2A4) else s.add64 (portReg o 0x288) 1

/-- UNDERRUN (R121): the next cell has not left the confluence 22 cycles before the MAC needs its first byte. The frame is stomped where that
byte is needed. -/
def underrun (out : Port) (s : State) : State :=
  let o := out.val
  let e := s.egr o
  match e.tx with
  | some x =>
    let f := s.txFrame x
    let b := s.inHand o x
    let need := s.byteLeaves o x b.length
    if !s.live || !x.begun || x.got + (s.nearCells o x).length ≥ f.total || s.now + 22 < need then s
    else
      let sent := stompedFrame b
      let s := s.setEgr o { e with tx := none, freeAt := need + byteCycles (4 + (if o < 22 then 12 else 0)) (s.lineRate o) }
      let s := ((s.portErr o 0x188).portErr o 0x180).countSealed o x
      let s := (s.chargeLimit o (limitKey x.fid x.dest) (sent.length - x.sent) x.tau).chargeCredit o x.cls.val
        ((sent.length : Int) - s.outLen f x.dest)
      let s := (s.mcFail f x.dest).sentFrame o x.cls.val f x.dest sent true
      ((s.correctTx o x (s.outLen f x.dest)).abandon x.fid x.dest).promote o
  | none => s
def execUnderrun (out : Port) (s : State) : Out := done s (underrun out s)

/-- FRAME_TRANSMIT_END (R134): the last byte of the frame leaves the MAC. -/
def frameTransmitEnd (out : Port) (s : State) : State :=
  let o := out.val
  let e := s.egr o
  match e.tx with
  | some x =>
    let f := s.txFrame x
    let len := s.outLen f x.dest
    if !s.live || !x.begun || x.got < f.total || s.now < s.byteLeaves o x len then s
    else
      let (b, fcs) := f.send x.dest x.pcpCls x.raw
      let m := x.sealed b
      -- a corruption that the code has not corrected shows in the FCS, protected or not (R98)
      let good := m ++ natLe 4 (fcsOf m ^^^ fcsOf b ^^^ fcs).toNat
      let s := if f.bad then (s.portErr o 0x180).portErr o 0x184 else s
      let s := s.countSealed o x
      let s := if x.overran then s.bump (txCnt o x.cls.val 0x10) else s
      let s := if x.overran then { s with dw.gateSum := setBit s.dw.gateSum o true } else s
      let s := s.setEgr o { s.egr o with tx := none, freeAt := s.byteLeaves o x (len + (if o < 22 then 12 else 0)) }
      ((s.sentFrame o x.cls.val f x.dest (if f.bad then stompedFrame m else good) f.bad).finishDest x.fid x.dest).promote o
  | none => s
def execFrameTransmitEnd (port : Port) (s : State) : Out := done s (frameTransmitEnd port s)

/-- ATS_ELIGIBLE (R138): the eligibility time of a frame arrives. -/
def atsEligible (o c d : Nat) (s : State) : State :=
  if !s.live then s
  else
    let l := s.leaf o c d
    s.setLeaf o c d { l with items := l.items.map (fun x => match x.elig with
      | some t => if t ≤ s.now then { x with act := true } else x
      | none => x) }
def execAtsEligible (port : Port) (cls : Fin 8) (dom : Fin 16) (s : State) : Out := done s (atsEligible port.val cls.val dom.val s)

/-- PREEMPT (R137, R142): the preemptable frame in progress stops at an 8-byte boundary and is held. A frame that has been resumed while its
class is in Guard or Closed is preempted again at the first boundary that the rule allows (DESIGN CHOICE: R142 names the beginning of the
band; log entry 51). -/
def preempt (out : Port) (s : State) : State :=
  let o := out.val
  let e := s.egr o
  match e.tx with
  | some x =>
    let len := s.outLen (s.txFrame x) x.dest
    -- the first boundary that has not been passed
    let b := (s.bytesBegun o x s.now + 7) / 8 * 8
    let b := max b ((max (s.minFrag o) (x.sent + 8) + 7) / 8 * 8)
    let express := match e.next with | y :: _ => !s.isPreemptable o y.cls.val | [] => false
    let held := (match (s.weir o x.cls.val s.now).1 with | .open_ => false | _ => true)
    if !s.live || !x.begun || !s.isPreemptable o x.cls.val || s.frameHeld o || !(express || held) || b + 64 > len then s
    else
      let frag := b - x.sent + 4
      let s := s.chargeCredit o x.cls.val ((frag : Int) - ((len - x.sent : Nat) : Int))
      let s := if x.preempted then s else s.bump (txCnt o x.cls.val 0x1C)
      let s := s.setEgr o { s.egr o with tx := none, held := some { x with sent := b, begun := false, preempted := true },
                                         freeAt := s.byteLeaves o x (b + 4 + 12) }
      s.promote o
  | none => s
def execPreempt (port : Port) (s : State) : Out := done s (preempt port s)

/-- MM_VERIFY_TIMEOUT (R141): verification is retried, or fails after 3 attempts. -/
def mmVerifyTimeout (p : Nat) (s : State) : State :=
  let e := s.egr p
  if !s.live || e.verify ≠ 1 || s.now < e.verifyAt + msCycles 10 then s
  else if e.attempts < 3 then s.setEgr p { e with attempts := e.attempts + 1, verifyAt := s.now }
  else s.setEgr p { e with verify := 3 }
def execMmVerifyTimeout (port : Fin 8) (s : State) : Out := done s (mmVerifyTimeout port.val s)

/-! Weirs and windows. -/

/-- GATE_EDGE (R147). -/
def execGateEdge (port : Port) (s : State) : Out := done s (if s.live then gateEdge s port.val else s)

/-- GATE_LIST_SWITCH (R149), mirrored to a secondary (R351): the edges of the old list are gone, and on an angle basis those of the new one within
the present count are placed (R62). -/
def listSwitch (p : Nat) (s : State) : State :=
  let t := gateListSwitch s p
  if t.gate p = s.gate p then t
  else
    (t.replacePort p).mirrorSched p
def execGateListSwitch (port : Port) (s : State) : Out :=
  done s (if s.live then listSwitch port.val s else s)

/-- WINDOW_DECISION (R159, R160). -/
def execWindowDecision (port : Fin 20) (w : Fin 64) (s : State) : Out := done s (if s.live then windowDecision s port.val w.val else s)

/-- WINDOW_OPEN (R164). -/
def execWindowOpen (port : Fin 20) (s : State) : Out := done s (if s.live then windowOpen s port.val else s)

/-- WINDOW_END (R166). -/
def execWindowEnd (port : Fin 20) (s : State) : Out := done s (if s.live then windowEnd s port.val else s)

/-- WINDOW_SET_ADOPT (R162). -/
def execWindowSetAdopt (port : Fin 20) (s : State) : Out := done s (if s.live then windowSetAdopt s port.val else s)

/-! The scrubber (R97, R99). -/

/-- Half-cells of the buffer. -/
def halfCells : Nat := 393216

/-- Store a codeword of a half-cell as it stands. -/
def State.putCodeword (s : State) (h : Nat) (b : List Byte) : State :=
  { s.wrB (0x08000000 + h * 32) (b.take 32) with check := SMap.set 0 s.check h (BitVec.ofNat 32 (leNat (b.drop 32))) }

/-- Read and decode one half-cell; a corrected codeword is held for 4 cycles before its write-back (R97, R100). -/
def State.scrubHalf (s : State) (h : Nat) (upset : List (Nat × Nat)) : State :=
  let cw := upset.foldl (fun w (j, v) => rsFlip w j v) (codeword (s.rdB (0x08000000 + h * 32) 32) (SMap.get 0 s.check h))
  let s := if upset.isEmpty then s else s.putCodeword h (cw.map (BitVec.ofNat 8))
  match decodeHalf cw with
  | (some (w, n), _) =>
    if n = 0 then s else { s with sw.scrubHold := s.sw.scrubHold ++ [(s.now + 4, h, w.map (BitVec.ofNat 8))] }.noteCorrected h n 1
  | (none, y) => s.deviceFault 0x0101 1 [h, 0xFF, y]

/-- The write-back of the scrubber, 4 cycles after its read (R100). -/
def State.scrubBack (s : State) : State :=
  let due := s.sw.scrubHold.filter (fun x => x.1 ≤ s.now)
  due.foldl (fun s (x : Nat × Nat × List Byte) => s.putCodeword x.2.1 x.2.2) { s with sw.scrubHold := s.sw.scrubHold.filter (fun x => !(x.1 ≤ s.now)) }

/-- SCRUB_READ (R99, R100): the next half-cell, with the errors that have arisen in its stored symbols. It is due every 320 cycles, or
every 20 in an accelerated sweep, and takes an idle cycle of the read port; 64 cycles late it takes the next cycle. One begins in a cycle. -/
def scrubRead (upset : List (Fin 36 × Byte)) (s : State) : State :=
  let due := s.sw.scrubDue
  let idle := s.sw.readAt ≤ s.now
  if !s.live || s.now < due || s.now < s.sw.scrubAt || !(idle || s.now ≥ due + 64) then s
  else
    let h := s.sw.scrubPos
    let next := if h + 1 ≥ halfCells then 0 else h + 1
    let step := if s.sw.scrubLeft = 0 then 320 else 20
    let s := { s with sw.scrubPos := next, sw.scrubLeft := s.sw.scrubLeft - 1, sw.scrubDue := due + step, sw.scrubAt := s.now + 1,
                      sw.readHold := if idle then s.sw.readHold else s.now + 1 }
    let s := if next = 0 then s.bump 0x04890018 else s
    s.scrubHalf h (upset.map (fun (j, v) => (j.val, v.toNat)))
def execScrubRead (upset : List (Fin 36 × Byte)) (s : State) : Out := done s (scrubRead upset s)

/-! One FCLK cycle (R39, R108, R136): what the tick of an empty queue does for the switch. -/

/-- Credit of a class over the cycle that ends now (R136). It keeps its value while the class is Closed, also while a frame of the class is
preempted and held (DESIGN CHOICE: R136 and R137 differ there; log entry 51). -/
def State.creditCycle (s : State) (o c : Nat) : State :=
  let q := s.cls o c
  let (cr, rest) := s.creditAfter o c 1
  if s.weirClosedNow o c then
    if (s.activeLeaves o c).isEmpty && q.credit > 0 then s.setCls o c { q with credit := 0 } else s
  else if s.classBusy o c then s.setCls o c { q with credit := cr, carry := rest }
  else if q.credit > 0 then s.setCls o c { q with credit := 0, carry := 0 }
  else if q.credit < 0 then (if cr ≥ 0 then s.setCls o c { q with credit := 0, carry := 0 } else s.setCls o c { q with credit := cr, carry := rest })
  else s

/-- Credit of every class with the credit-based shaper over one cycle (R136). -/
def State.creditTick (s : State) : State :=
  let listed := (s.mem.filter (fun e => 0x04460000 ≤ e.1 && e.1 < 0x04460C00 && e.1 % 16 = 2 && bits e.2.toNat 1 0 = 1)).map
    (fun e => (e.1 - 0x04460000) / 16)
  let keys := listed ++ (s.sw.clsOld.map (fun e => e.1)).filter (fun k => !listed.contains k)
  keys.foldl (fun s k => if s.shaper (k / 8) (k % 8) = 1 then s.creditCycle (k / 8) (k % 8) else s) s

end Sys2Proof.Machine
end

