-- ==== Sys2Proof/Machine/Island.lean ====
section
/-! DEFINITION. The Nernum island: pulses, distance, speed, time, records, calibration, read window (R414 to R428).
Choices where the rules leave one open: log entries 16 and 44. -/

namespace Sys2Proof.Machine

/-- An instant of local time in the layout of R41. -/
def rtBytes (t : Nat) : List Byte :=
  let r := ltRT t
  natLe 16 (r.frac.toNat + r.ns.toNat * 2 ^ 32 + r.sec.toNat * 2 ^ 64)

/-- Oscillator periods of 2 s. -/
def osc2s : Nat := 8000000

/-- A field of the calibration block in use; 0 while uncalibrated (R425). -/
def Island.cal (i : Island) (hi lo : Nat) : Nat := match i.useCal with | some b => bits (leNat b) hi lo | none => 0
/-- K_A and K_B. -/
def Island.kA (i : Island) : Nat := i.cal 31 0
def Island.kB (i : Island) : Nat := i.cal 63 32
/-- PERIOD in seconds. -/
def Island.period (i : Island) : Nat := i.cal 95 80

/-- K of the source channel (R416). -/
def Island.kSrc (i : Island) : Nat := if i.srcB then i.kB else i.kA

/-- SPEED by R417. -/
def Island.speedNow (i : Island) : BitVec 16 :=
  match i.useCal, i.last1 with
  | none, _ => 0xFFFF
  | some _, none => 0
  | some _, some t =>
    if i.osc - t ≥ osc2s then 0
    else
      let n := match i.last2 with | some u => max 1 (min osc2s (t - u)) | none => osc2s
      BitVec.ofNat 16 (min 0xFFFE (921600 * 4000000 / (i.kSrc * n)))

/-- The island's oscillator has run for `dt` periods of 250 ns. -/
def Island.advance (i : Island) (dt : Nat) : Island := { i with osc := i.osc + dt, time := i.time + dt * 250 * nsUnit }

/-- Set SPEED; when it becomes zero, from oscillator count `at_`. -/
def Island.setSpeed (i : Island) (v : BitVec 16) (at_ : Nat) : Island :=
  { i with speed := v, speedMax := if v.toNat > i.speedMax.toNat then v else i.speedMax,
           zeroAt := if v = 0 then (if i.speed = 0 && i.zeroAt.isSome then i.zeroAt else some at_) else none }

/-- A trigger of a record (R420): it adds nothing while its KIND is pending. -/
def Island.trigger (i : Island) (kind : Fin 10) (detail : BitVec 64) (disagree : Bool) : Island :=
  if i.pend.any (fun p => p.kind = kind) then i
  else { i with pend := i.pend ++ [{ kind := kind, time := i.time, tq := i.tq, dist := i.dist, speed := i.speed, detail := detail,
                                     disagree := disagree, sealOpen := i.sealLow }] }

/-- SPEED after an event, with the record of a motion start (R417, R420). -/
def Island.refreshSpeed (i : Island) : Island :=
  let j := i.setSpeed i.speedNow (match i.last1 with | some t => if i.osc - t ≥ osc2s then t + osc2s else i.osc | none => i.osc)
  if j.useCal.isSome && j.speed ≠ 0 && !j.moving then { (j.trigger 8 0 false) with moving := true } else j

/-- Run `f` on the island after `dt` oscillator periods; an island without VNRN does nothing. -/
def State.island (s : State) (dt : Nat) (f : Island → Island) : State :=
  if s.isl.present then { s with isl := f (s.isl.advance dt) } else s

/-! Records (R420 to R424). -/

/-- The record of a pending trigger (R421). -/
def Island.record (i : Island) (p : PendRec) : List Byte :=
  let flags := b2n p.disagree + 2 * b2n i.failA + 4 * b2n i.failB + 8 * b2n i.srcB + 16 * b2n p.sealOpen + 32 * b2n i.useCal.isNone
  let body := natLe 4 i.nextSeq ++ [BitVec.ofNat 8 p.kind.val, BitVec.ofNat 8 flags] ++ natLe 2 p.tq.toNat ++ rtBytes p.time ++
    natLe 4 p.dist.toNat ++ natLe 2 p.speed.toNat ++ natLe 2 i.speedMax.toNat ++ natLe 4 i.cntA.toNat ++ natLe 4 i.cntB.toNat ++
    natLe 2 (i.cal 247 232) ++ natLe 2 0 ++ natLe 8 p.detail.toNat ++ natLe 8 Config.islandUid.toNat ++ List.replicate 20 0 ++
    (if i.nextSeq = 0 then List.replicate 48 0 else sha384 (i.latest.take 224))
  fitBytes 256 (body ++ fitBytes 96 (Config.islandSign (sha384 body)))

/-- The record of a sequence number, while the ring holds it (R423). -/
def Island.find (i : Island) (seq : Nat) : Option (List Byte) :=
  let r := SMap.get [] i.ring (seq % 2032)
  if seq < i.nextSeq && r ≠ [] && leNat (slice r 0 4) = seq then some r else none

/-- The pending trigger that is written next: ascending KIND, KIND 1 last (R420). -/
def Island.nextPend (i : Island) : Option PendRec :=
  let rank := fun (p : PendRec) => if p.kind = 1 then 10 else p.kind.val
  i.pend.foldl (fun b p => match b with | some q => if rank p < rank q then some p else b | none => some p) none

/-- RECORD_WRITE (R420, R423): one pending record reaches its ring slot and NRN_LATEST. -/
def recordWrite (dt : Nat) (s : State) : State :=
  s.island dt (fun i =>
    match i.nextPend with
    | some p =>
      let r := i.record p
      { i with ring := SMap.set [] i.ring (i.nextSeq % 2032) r, latest := r, nextSeq := i.nextSeq + 1, speedMax := i.speed,
               pend := i.pend.filter (fun q => q.kind ≠ p.kind) }
    | none => i)
def execRecordWrite (dt : Nat) (s : State) : Out := done s (recordWrite dt s)

/-! Events. -/

/-- WHEEL_PULSE (R415 to R417). -/
def wheelPulse (dt : Nat) (chB : Bool) (s : State) : State :=
  s.island dt (fun i =>
    let i := if chB then { i with cntB := i.cntB + 1, perB := i.perB + 1 } else { i with cntA := i.cntA + 1, perA := i.perA + 1 }
    if chB ≠ i.srcB then i
    else
      let i := { i with last2 := i.last1, last1 := some i.osc }
      let i := if i.useCal.isNone then i
        else { i with dist := i.dist + BitVec.ofNat 32 ((i.rem + 1000) / i.kSrc), rem := (i.rem + 1000) % i.kSrc }
      i.refreshSpeed)
def execWheelPulse (dt : Nat) (chB : Bool) (s : State) : Out := done s (wheelPulse dt chB s)

/-- SPEED_ZERO (R417). -/
def speedZero (dt : Nat) (s : State) : State := s.island dt (fun i => if i.speedNow = 0 && i.speed ≠ 0 then i.refreshSpeed else i)
def execSpeedZero (dt : Nat) (s : State) : Out := done s (speedZero dt s)

/-- MOTION_STOP (R420): SPEED 0 for 10 s after a motion start. -/
def motionStop (dt : Nat) (s : State) : State :=
  s.island dt (fun i =>
    match i.zeroAt with
    | some t => if i.moving && i.speed = 0 && i.osc ≥ t + 40000000 then { (i.trigger 9 0 false) with moving := false } else i
    | none => i)
def execMotionStop (dt : Nat) (s : State) : Out := done s (motionStop dt s)

/-- PERIODIC_RECORD (R418, R420): SEC of island time has crossed a multiple of PERIOD. -/
def periodicRecord (dt : Nat) (s : State) : State :=
  s.island dt (fun i =>
    if i.period = 0 then i
    else
      let q := i.time / secUnit / i.period
      if q = i.lastPer then i
      else
        let x := i.perA * i.kB
        let y := i.perB * i.kA
        let dis := i.perA * 1000 ≥ 100 * i.kA && i.perB * 1000 ≥ 100 * i.kB && (max x y - min x y) * 100 > i.cal 71 64 * max x y
        let fA := if i.failA then decide (i.perA < 50) else i.perA == 0 && decide (i.perB ≥ 50)
        let fB := if i.failB then decide (i.perB < 50) else i.perB == 0 && decide (i.perA ≥ 50)
        let newA := fA && !i.failA
        let newB := fB && !i.failB
        let src := fA && !fB
        let i' := { i with failA := fA, failB := fB, srcB := src, perA := 0, perB := 0, lastPer := q }
        let i' := if src ≠ i.srcB then { i' with last1 := none, last2 := none }.refreshSpeed else i'
        let i' := if newA then i'.trigger 7 1 false else i'
        let i' := if newB then i'.trigger 7 2 false else i'
        i'.trigger 1 (BitVec.ofNat 64 i'.rem) dis)
def execPeriodicRecord (dt : Nat) (s : State) : Out := done s (periodicRecord dt s)

/-- VCORE is on: the reference link runs (R414). -/
def State.vcoreOn (s : State) : Bool := s.pw.inh0 && s.pw.vaon && s.pw.mode != .off

/-- REFERENCE_LINK_MESSAGE (R419). -/
def referenceLinkMessage (dt : Nat) (s : State) : State :=
  if !s.vcoreOn then s
  else
    let t := s.time.ltime
    let good := s.time.state == .locked || s.time.state == .holdover
    s.island dt (fun i =>
      if !good then i
      else
        let d : Int := (t : Int) - i.time
        let i := if d.natAbs > secUnit then i.trigger 3 (BitVec.ofInt 64 (d / (nsUnit : Int))) false else i
        { i with time := t, tq := 0, refAt := some i.osc })
def execReferenceLinkMessage (dt : Nat) (s : State) : Out := done s (referenceLinkMessage dt s)

/-- TQ_EXPIRY (R419). -/
def tqExpiry (dt : Nat) (s : State) : State :=
  s.island dt (fun i =>
    match i.refAt with
    | some t => if i.tq = 0 && i.osc > t + 4000000 then { i with tq := 1 } else i
    | none => i)
def execTqExpiry (dt : Nat) (s : State) : Out := done s (tqExpiry dt s)

/-- SEAL_OPENED (R420). -/
def sealOpened (dt : Nat) (s : State) : State :=
  s.island dt (fun i => if i.sealLow then i else { i with sealLow := true }.trigger 4 0 false)
def execSealOpened (dt : Nat) (s : State) : Out := done s (sealOpened dt s)

/-- SEAL_CLOSED (R420). -/
def sealClosed (dt : Nat) (s : State) : State :=
  s.island dt (fun i => if i.sealLow then { i with sealLow := false }.trigger 5 0 false else i)
def execSealClosed (dt : Nat) (s : State) : Out := done s (sealClosed dt s)

/-! Calibration (R425, R426). -/

/-- `a` is newer than `b` by the half-range rule of R67. -/
def newer16 (a b : Nat) : Bool := let d := (a + 65536 - b % 65536) % 65536; 1 ≤ d && d < 32768

/-- A block passes the check of R425. -/
def Island.calOk (i : Island) (b : List Byte) : Bool :=
  let v := leNat b
  let k := fun x => 1000 ≤ x && x ≤ 200000
  k (bits v 31 0) && k (bits v 63 32) && 1 ≤ bits v 71 64 && bits v 71 64 ≤ 20 && 60 ≤ bits v 95 80 && bits v 95 80 ≤ 3600 &&
  (i.useCal.isNone || newer16 (bits v 247 232) (i.cal 247 232))

/-- A calibration copy whose CRC checks. -/
def calCopy (c : List Byte) : Option (List Byte) :=
  if c.length = 36 && leNat (c.drop 32) = crc32c (c.take 32) then some (c.take 32) else none

/-- CAL_GEN of a block. -/
def calGen (b : List Byte) : Nat := bits (leNat b) 247 232

/-- The newer of the two valid copies (R425). -/
def Island.validCal (i : Island) : Option (List Byte) :=
  match calCopy i.cal0, calCopy i.cal1 with
  | some a, some b => some (if newer16 (calGen b) (calGen a) then b else a)
  | some a, none => some a
  | none, b => b

/-- Change the older calibration copy: the one that is not in use (R426). -/
def Island.writeOlder (i : Island) (f : List Byte → List Byte) : Island :=
  if i.useCal.isSome && calCopy i.cal0 = i.useCal then { i with cal1 := f i.cal1 } else { i with cal0 := f i.cal0 }

/-- A block that passes is written into the older copy and takes effect (R426). Periods of its PERIOD count from now on. -/
def Island.calibrate (i : Island) (b : List Byte) : Island :=
  let c := b ++ natLe 4 (crc32c b)
  let detail := BitVec.ofNat 64 (i.kA + bits (leNat b) 31 0 * 2 ^ 32)
  let j := i.writeOlder (fun _ => c)
  let j := { j with useCal := some b, rem := 0, calRefused := false }
  ({ j with lastPer := j.time / secUnit / j.period }.refreshSpeed).trigger 6 detail false

/-! Start and stop (R424, R29). -/

/-- ISLAND_START (R424): the scan of the ring finds the last record; time and speed begin anew. -/
def islandStart (s : State) : State :=
  if s.isl.present then s
  else
    let i := s.isl
    let cal := i.validCal
    let i := { i with present := true, osc := 0, time := 0, tq := 2, refAt := none, last1 := none, last2 := none, useCal := cal,
                      failA := false, failB := false, srcB := false, perA := 0, perB := 0, pend := [], moving := false,
                      zeroAt := some 0, lastPer := 0, calRefused := false, pollAt := none, speed := if cal.isNone then 0xFFFF else 0,
                      speedMax := if cal.isNone then 0xFFFF else 0 }
    { s with isl := i.trigger 2 (if i.nextSeq = 0 then 0xFFFFFFFF else BitVec.ofNat 64 (i.nextSeq - 1)) false }
/-- The count of oscillator periods begins at the start. -/
def execIslandStart (_dt : Nat) (s : State) : Out := done s (islandStart s)

/-- What stands in a store of the sealed region when a write of `new` over `old` is cut off after `n` bytes (R424, R426). -/
def tornWrite (n : Nat) (new old : List Byte) : List Byte :=
  if n = 0 then old else new.take n ++ (fitBytes new.length old).drop n

/-- The write of the next record is cut off after `n` bytes: its slot is torn, and no register shows it (R424). -/
def Island.tearRecord (i : Island) (n : Nat) : Island :=
  match i.nextPend with
  | some p => { i with ring := SMap.set [] i.ring (i.nextSeq % 2032) (tornWrite n (i.record p) (SMap.get [] i.ring (i.nextSeq % 2032))) }
  | none => i

/-- A staged block that the island may be writing: SEAL_N is low, and the block is new and passes. -/
def Island.writing (i : Island) : Option (List Byte) :=
  i.staged.filter (fun b => i.sealLow && i.useCal != some b && i.calOk b)

/-- The write of a calibration block is cut off after `n` bytes (R426). -/
def Island.tearCal (i : Island) (n : Nat) : Island :=
  match i.writing with
  | some b => i.writeOlder (tornWrite n (b ++ natLe 4 (crc32c b)))
  | none => i

/-- ISLAND_STOP (R29). How far a write of a record or of a calibration block had got is free; 0 where none was under way (R424, R426). -/
def islandStop (s : State) : State :=
  if !s.isl.present then s
  else
    let (a, s) := if s.isl.pend.isEmpty then (0, s) else s.draw
    let (b, s) := if s.isl.writing.isNone then (0, s) else s.draw
    { s with isl := { (s.isl.tearRecord (a % 256)).tearCal (b % 36) with present := false, pend := [] } }
def execIslandStop (s : State) : Out := done s (islandStop s)

/-! Read window and read view (R423, R427). -/

/-- NRN_STATUS. -/
def Island.status (i : Island) : Nat :=
  1 + 2 * b2n i.sealLow + 4 * b2n i.useCal.isSome + 8 * i.tq.toNat + 32 * b2n i.srcB + 64 * b2n i.failA + 128 * b2n i.failB +
  256 * b2n i.calRefused + i.pend.foldl (fun m p => m ||| 2 ^ (16 + p.kind.val - 1)) 0

/-- NRN_LATEST_SEQ and NRN_OLDEST_SEQ. -/
def Island.latestSeq (i : Island) : Nat := i.nextSeq - 1
def Island.oldestSeq (i : Island) : Nat :=
  let o := i.nextSeq - 2032
  if i.nextSeq < 2032 || (i.find o).isSome then o else o + 1

/-- The block in use and its CRC. -/
def Island.calBytes (i : Island) : List Byte :=
  match i.useCal with | some b => b ++ natLe 4 (crc32c b) | none => []

/-- A byte of the read window at an offset (R427). -/
def State.islandByte (s : State) (o : Nat) : Byte :=
  let i := s.isl
  let f := fun (base n v : Nat) => (natLe n v).getD (o - base) 0
  if !i.present then 0
  else if o < 4 then f 0 4 Config.islandVersion.toNat
  else if o < 8 then f 4 4 Config.islandChecksum.toNat
  else if o < 0xC then f 8 4 i.status
  else if o < 0x10 then f 0xC 4 i.latestSeq
  else if o < 0x14 then f 0x10 4 i.oldestSeq
  else if 0x40 ≤ o && o < 0x70 then Config.islandRomDigest (o - 0x40)
  else if 0x80 ≤ o && o < 0xE0 then Config.islandPublic.getD (o - 0x80) 0
  else if 0xE0 ≤ o && o < 0xE8 then f 0xE0 8 Config.islandUid.toNat
  else if 0x100 ≤ o && o < 0x200 then i.latest.getD (o - 0x100) 0
  else if 0x200 ≤ o && o < 0x224 then i.calBytes.getD (o - 0x200) 0
  else 0

/-- A byte of the read view at an offset (R423). -/
def State.sealedByte (s : State) (o : Nat) : Byte :=
  let i := s.isl
  if !i.present then 0
  else if o < 0x800 then i.cal0.getD o 0
  else if o < 0x1000 then i.cal1.getD (o - 0x800) 0
  else (SMap.get [] i.ring ((o - 0x1000) / 256)).getD (o % 256) 0

end Sys2Proof.Machine
end

