-- ==== Sys2Proof/Machine/Nm.lean ====
section
/-! DEFINITION. Network management: wake lines, keep-alives, Ebb, Commit and the retained-state snapshot (R316 to R333).
Choices where the rules leave one open: log entries 19 and 41. -/

namespace Sys2Proof.Machine

/-! The machine of R320. -/

/-- What follows a change of local need: Awake is left when it ends, Ebb when it returns (R320); the mirror sees a change of
the network-management entry (R351). A secondary follows its primary (R361). -/
def State.nmFollow (s before : State) : State :=
  let t :=
    if !s.fw then s
    else
      match s.nm.state with
      | .awake => if !s.localNeed && !s.secondary then s.setNm .ebb else s
      | .ebb => if s.localNeed && !before.localNeed then s.wakeRequest 0 else s
      | .commit => s
  if t.nm.state = before.nm.state && t.mirrorNmBody ≠ before.mirrorNmBody then t.mirrorNm else t

/-- What firmware does in each cycle with the latch, whose bits it clears as it handles them, and with local need that has ended (R320,
R321). A bit that arose while it did not run is handled as it resumes. -/
def State.nmTick (s : State) : State :=
  if s.nm.state = .commit then s
  else
    let l := s.nm.latch
    let t := if l = 0 then s else { s with nm := { s.nm with latch := 0, missed := false } }
    let t :=
      if s.nm.missed && s.nm.state = .ebb && l &&& 0xFF ≠ 0 then
        (if s.secondary then t.sendRecord (mirRecord 8 0 0 0 false []) else t.abortEbb (l.toNat % 16))
      else t
    if t.nm.state = .awake && !t.localNeed && !t.secondary then t.setNm .ebb else t

/-- WAKE_HOLD_EXPIRY (R319). -/
def wakeHoldExpiry (s : State) : State :=
  if s.live && s.nm.wakeHold && s.now ≥ s.nm.awakeAt + s.ebbCycles then
    { s with nm := { s.nm with wakeHold := false } }.nmFollow s
  else s
def execWakeHoldExpiry (s : State) : Out := done s (wakeHoldExpiry s)

/-! Keep-alives (R316 to R319). -/

/-- The payload of the device's own keep-alive (R316). -/
def State.kaPayload (s : State) : List Byte := natLe 8 (s.param 0x0C05 + (if s.nm.firstKa then 0x300 else 0x100))

/-- The keep-alive of a CAN channel; the channel's queue takes it or is full (R317). -/
def State.kaCan (s : State) (n : Nat) : State :=
  let c := s.can n
  if !s.paramBit 0x0C10 n || c.mode = 0 || c.mode = 3 then s
  else
    let m : CanMsg :=
      { id := BitVec.ofNat 29 (s.param 0x0C11 + s.param 0x0C05), ide := false, fdf := false, xlf := false, brs := false, esi := false,
        rtr := false, sec := false, dlc := 8, sdt := 0, vcid := 0, af := 0, data := s.kaPayload }
    match s.canPut n { msg := m, src := 5000, tag := 0, lifetime := s.param 0x0C03, tick := s.tick, long := none } false with
    | some s => { s with nm := { s.nm with kaTx := satInc s.nm.kaTx, countAt := s.now } }
    | none => s

/-- The ones' complement sum of 16-bit words, as the Internet checksum takes it (log entry 20). -/
def inetSum (bs : List Byte) : Nat :=
  let ws := (List.range ((bs.length + 1) / 2)).map (fun i => byteAt bs (2 * i) * 256 + byteAt bs (2 * i + 1))
  let v := ws.sum
  let v := v % 65536 + v / 65536
  0xFFFF - (v % 65536 + v / 65536)

/-- The keep-alive as a UDP frame, without FCS (R318). `x` supplies the header fields that the manual leaves open: the
identification, the DSCP, the don't-fragment bit, and whether a UDP checksum is sent. -/
def State.kaFrame (s : State) (x : Nat) : List Byte :=
  let node := BitVec.ofNat 8 (s.param 0x0C05)
  let port := s.param 0x0C06
  let src : List Byte := [169, 254, 1, node]
  let dst : List Byte := [255, 255, 255, 255]
  let ip := fun (c : Nat) => [0x45, BitVec.ofNat 8 (x / 2 ^ 16 % 64 * 4)] ++ natBe 2 36 ++ natBe 2 (x % 65536) ++
    natBe 2 (if bit x 24 then 0x4000 else 0) ++ [1, 17] ++ natBe 2 c ++ src ++ dst
  let udp := fun (c : Nat) => natBe 2 port ++ natBe 2 port ++ natBe 2 16 ++ natBe 2 c ++ s.kaPayload
  let sum := inetSum (src ++ dst ++ [0, 17] ++ natBe 2 16 ++ udp 0)
  fitBytes 60 (List.replicate 6 0xFF ++ natLe 6 (s.param 0x0B01) ++ [0x81, 0x00] ++ natBe 2 (7 * 8192 + s.param 0x0C07) ++
    [0x08, 0x00] ++ ip (inetSum (ip 0)) ++ udp (if bit x 25 then (if sum = 0 then 0xFFFF else sum) else 0))

/-- The keep-alive over UDP (R318). -/
def State.kaUdp (s : State) : State :=
  let queued := (s.sw.arriving.filter (fun a => a.port == 22 && s.now < a.stop)).length
  if s.param 0x0C06 = 0 || s.param 0x0B01 = 0 || queued > Config.p22Queue then s
  else
    let (x, s) := s.draw
    let s := { s with nm := { s.nm with kaTx := satInc s.nm.kaTx, countAt := s.now } }
    s.receive { port := 22, unit := .express, bytes := s.kaFrame x, codeErr := false, cls := 7,
                dom := BitVec.ofNat 4 (s.param (0x0320 + 22)) }

/-- KEEP_ALIVE_SEND (R317 to R319): at entry to Awake and then every period, while the device has local need. -/
def keepAliveSend (s : State) : State :=
  let due := match s.nm.lastKaTx with | none => true | some t => decide (s.now ≥ t + msCycles (s.param 0x0C03))
  if s.fw && s.nm.state = .awake && !s.secondary && s.localNeed && due then
    let s := (foldN 32 State.kaCan s).kaUdp
    { s with nm := { s.nm with lastKaTx := some s.now, firstKa := false } }
  else s
def execKeepAliveSend (s : State) : Out := done s (keepAliveSend s)

/-! Maximum awake time (R328). -/

/-- The awake clock that started at `t` exceeds the maximum awake time. -/
def State.awakeTooLong (s : State) (t : Option Nat) : Bool :=
  match t with
  | some t => !s.wakeLevel && s.now > t + msCycles (s.param 0x0C02 * 60000)
  | none => false

/-- MAXIMUM_AWAKE_TIME (R328): a node, or the host under the device's own identifier, is ignored. -/
def maximumAwakeTime (node : Nat) (s : State) : State :=
  if !s.fw then s
  else
    let x := s.node node
    let s1 :=
      if node = s.param 0x0C05 && s.nm.host && !s.nm.hostIgnored && s.awakeTooLong s.nm.hostAwake then
        { s with nm := { s.nm with hostIgnored := true, ignoredN := satInc s.nm.ignoredN } }
      else s
    let s2 :=
      if !x.ignored && x.lastKa.isSome && s.awakeTooLong x.awakeAt then
        { s1.setNode node { x with ignored := true } with nm.ignoredN := satInc s1.nm.ignoredN }
      else s1
    s2.nmFollow s
def execMaximumAwakeTime (node : Byte) (s : State) : Out := done s (maximumAwakeTime node.toNat s)

/-- IGNORED_NODE_RELEASE (R328): an ignored node has been silent for the Ebb timeout. -/
def ignoredNodeRelease (node : Nat) (s : State) : State :=
  let x := s.node node
  match x.lastKa with
  | some t => if s.fw && x.ignored && s.now ≥ t + s.ebbCycles then (s.setNode node { x with ignored := false }).nmFollow s else s
  | none => s
def execIgnoredNodeRelease (node : Byte) (s : State) : Out := done s (ignoredNodeRelease node.toNat s)

/-! Wake lines (R325, R327). -/

/-- WAKE_LINE_EDGE (R319 to R322, R325): the line has stayed high for the filter time. An edge is accepted where the input bit is set and the
device does not drive the line; the level counts from then on in every case. -/
def wakeLineEdge (w : Nat) (s : State) : State :=
  let t := { s with nm.lines := setBit s.nm.lines w true }
  if !s.pw.vaon || s.nm.lines.getLsbD w then s
  else if !s.paramBit (0x0C20 + w) 0 || s.lineDeaf w then t
  else
    if s.pw.mode = .slack then t.latchWake (BitVec.ofNat 9 (2 ^ w))
    -- in fail-silent a wake event is latched and recorded (R32)
    else if s.pw.mode = .failSilent then (t.latchWake (BitVec.ofNat 9 (2 ^ w))).irq 13
    else if !s.live then t
    else
      match s.nm.state with
      | .commit => t.latchWake (BitVec.ofNat 9 (2 ^ w))
      | .awake => ((t.latchWake (BitVec.ofNat 9 (2 ^ w))).irq 13).nmFollow s
      | .ebb => (((t.latchWake (BitVec.ofNat 9 (2 ^ w))).irq 13).wakeRequest (2 ^ w)).nmFollow t
def execWakeLineEdge (w : Fin 4) (s : State) : Out := done s (wakeLineEdge w.val s)

/-- WAKE_LINE_LOW (R319, R328): the awake clocks, held at zero by the wake-line level, run from here. -/
def wakeLineLow (w : Nat) (s : State) : State :=
  if !s.pw.vaon || !s.nm.lines.getLsbD w then s
  else
    let t := { s with nm.lines := setBit s.nm.lines w false }.levelGone s
    if s.live then t.nmFollow s else t
def execWakeLineLow (w : Fin 4) (s : State) : Out := done s (wakeLineLow w.val s)

/-- WAKE_PULSE_END (R327). -/
def wakePulseEnd (w : Nat) (s : State) : State :=
  if s.live && s.nm.pulses.getLsbD w && s.now ≥ SMap.get 0 s.nm.pulseAt w + usCycles (s.param (0x0C24 + w)) then
    { s with nm := { s.nm with pulses := setBit s.nm.pulses w false, pulseEnd := SMap.put s.nm.pulseEnd w s.now } }
  else s
def execWakePulseEnd (w : Fin 4) (s : State) : Out := done s (wakePulseEnd w.val s)

/-! Bus and PHY wake (R326). -/

/-- The always-on domain listens: in Slack, and in Commit. -/
def State.listens (s : State) : Bool := s.pw.vaon && (s.pw.mode == .slack || (s.live && s.nm.state == .commit))

/-- A bus source is accepted: it is latched, and the first one is recorded for DW_WAKE_SRC.CHAN. -/
def State.busWake (s : State) (m : BitVec 9) (chan : Nat) : State :=
  let s := s.latchWake m
  if s.nm.chanSet then s else { s with nm := { s.nm with chan := BitVec.ofNat 5 chan, chanSet := true } }

/-- CAN_WAKE_PATTERN: the detector of a channel that was transmitting is armed once that frame's intermission has ended (R324). -/
def canWakePattern (n : Nat) (s : State) : State :=
  let c := s.can n
  if s.listens && s.paramBit 0x0C28 n && (!s.live || (c.attempt.isNone && !(c.ours && s.now < c.busyTo))) then s.busWake 0x10 n else s
def execCanWakePattern (ch : CanCh) (s : State) : Out := done s (canWakePattern ch.val s)

/-- LIN_WAKE_PULSE: a wake event in Slack and Commit; a sleeping responder of a running device answers headers again (R323). -/
def linWakePulse (m : Nat) (s : State) : State :=
  let t := if s.live && (s.lin m).asleep && s.linRole m = 2 then s.setLin m { s.lin m with asleep := false } else s
  if t.listens && t.paramBit 0x0C29 m then t.busWake 0x20 m else t
def execLinWakePulse (ch : LinCh) (s : State) : Out := done s (linWakePulse ch.val s)

/-- PHY_WAKE on P(10 + k). -/
def phyWake (k : Nat) (s : State) : State := if s.listens && s.paramBit 0x0C2A k then s.busWake 0x40 k else s
def execPhyWake (k : Fin 8) (s : State) : Out := done s (phyWake k.val s)

/-- AON_SW_WAKE: a write of one sets SW, which firmware handles as a wake request (R321, R332). -/
def aonSwWake (s : State) : State :=
  if !s.live then s else if s.nm.state = .commit then s.latchWake 0x80 else s.latchMissed 0x80
def execAonSwWake (s : State) : Out := done s (aonSwWake s)

/-! The retained-state snapshot (R329, R330). -/

/-- Bit `i` of the entry of `size` bytes that holds address `a` of a table at `base`. -/
def State.entryBit (s : State) (base size a i : Nat) : Bool := bit (s.rd8 (base + (a - base) / size * size + i / 8)).toNat (i % 8)

/-- A byte of table memory that the snapshot holds: valid entries of static tables, lists, windows, classes, schedules, and
configuration fields (R329). -/
def State.retainedByte (s : State) (a : Nat) : Bool :=
  let off := fun (base size : Nat) => (a - base) % size
  if a < 0x04000000 then false
  else if a < 0x04100000 then s.entryBit 0x04000000 64 a 320
  else if a < 0x04180000 then s.entryBit 0x04100000 16 a 88 && s.entryBit 0x04100000 16 a 89
  else if a < 0x04190000 then s.entryBit 0x04180000 16 a 24
  else if a < 0x04198000 then s.entryBit 0x04190000 16 a 0
  else if a < 0x04200000 then false
  else if a < 0x04220000 then s.entryBit 0x04200000 32 a 128
  else if a < 0x04240000 then s.entryBit 0x04220000 32 a 0
  else if a < 0x04250000 then false
  else if a < 0x04252000 then s.entryBit 0x04250000 32 a 0
  else if a < 0x04400000 then false
  else if a < 0x04500000 then true
  else if a < 0x04640000 then s.entryBit 0x04500000 160 a 1024
  else if a < 0x04780000 then s.entryBit 0x04640000 160 a 1024
  else if a < 0x04800000 then
    s.entryBit 0x04780000 256 a 0 && (off 0x04780000 256 < 4 || (96 ≤ off 0x04780000 256 && off 0x04780000 256 < 161))
  else if a < 0x04A00000 then false
  else if a < 0x04A80000 then off 0x04A00000 128 < 5
  else if a < 0x04B40000 then false
  else if a < 0x04B48000 then off 0x04B40000 32 < 2
  else if a < 0x04B50000 then false
  else if a < 0x04B60000 then true
  else false

/-- Read-write fields of the direct window and the aperture registers, in one list (R329). -/
def State.dwRw (s : State) : List Word :=
  [ s.dw.scratch0, s.dw.scratch1, s.dw.mbIrqEn.zeroExtend 32, s.dw.irqEn.zeroExtend 32, s.dw.irqnMbEn.zeroExtend 32,
    s.dw.linkChgEn.zeroExtend 32, s.dw.fwEventEn.zeroExtend 32, s.dw.portErrEn.zeroExtend 32, s.dw.irqLat.zeroExtend 32,
    s.snap.auto.zeroExtend 32, s.host.aperPcie, s.host.aperSpi ]

/-- The network-management counters of R333. -/
def State.nmCount (s : State) : List Word :=
  [ s.nm.kaRx, s.nm.kaTx, s.nm.aborts, s.nm.sleeps, s.nm.ignoredN.zeroExtend 32, s.nm.badKa.zeroExtend 32 ]

/-- Counters outside it that the rules count from cold start, so that a warm wake does not clear them (R303, R311, R346, R359, R413; log entry
19). -/
def State.coldCounts (s : State) : List Word :=
  [ s.ls.total, s.pair.takeovers, s.pair.cmpFails, s.time.steps, s.upd.badCrc, s.upd.refusals, s.upd.expired ]

/-- The whole state that the snapshot retains (R329). -/
def State.retained (s : State) : RetSnap :=
  let tables := s.mem.filter (fun e => s.retainedByte e.1)
  let image := match s.upd.active with | some h => slice h 0 512 | none => []
  { seq := s.nm.snapSeq + 1, image := image, params := s.params, tables := tables, gates := s.sw.gates, mills := s.sw.mills,
    ruleBank := s.scr.bank, ruleGen := s.scr.gen, dwRw := s.dwRw,
    canIrqEn := s.bus.can.filterMap (fun e => if e.2.irqEn = 0 then none else some (e.1, e.2.irqEn)),
    linIrqEn := s.bus.lin.filterMap (fun e => if e.2.irqEn = 0 then none else some (e.1, e.2.irqEn)),
    ltime := s.time.ltime, nmCount := s.nmCount, kept := s.coldCounts, bytes := Config.snapBytes tables.length s.params.length }

/-- The static part is written, under the next sequence number: the snapshot is valid only once Commit has stored its dynamic
part (R329, R330). -/
def State.writeStatic (s : State) : State :=
  { s with snapshot := some s.retained, nm := { s.nm with snapDirty := false }, upd := { s.upd with wearSnap := s.upd.wearSnap + 1 } }.clearMem
    0x02600000 0x180000

/-- A store into the snapshot region may begin (R329, R412). -/
def State.snapStores (s : State) : Bool := s.pw.storeOk && s.upd.wearSnap < wearLimit

/-- SNAPSHOT_STATIC_REWRITE (R329): after a change; it waits while OTP programming holds the token or waits for it (R443). -/
def snapshotStaticRewrite (s : State) : State :=
  if s.fw && s.nm.snapDirty && s.nm.state ≠ .commit && s.snapStores && !s.holds .otp && !s.pw.token.queue.contains .otp then s.writeStatic else s
def execSnapshotStaticRewrite (s : State) : Out := done s (snapshotStaticRewrite s)

/-- C + 100 µs: the dynamic part is stored, with the static part if a change waits for it (R324, R329). A snapshot larger
than its region is invalid (R330). -/
def State.commitStore (s : State) : State :=
  if !s.snapStores then { s with nm := { s.nm with snapOk := false } }
  else
    let s := if s.nm.snapDirty || s.snapshot.isNone then s.writeStatic else { s with upd := { s.upd with wearSnap := s.upd.wearSnap + 1 } }
    match s.snapshot with
    | some r =>
      { s with snapshot := some { r with seq := s.nm.snapSeq + 1, ltime := s.time.ltime, nmCount := s.nmCount, kept := s.coldCounts },
               nm := { s.nm with snapOk := decide (r.bytes ≤ 1572864) } }
    | none => s

/-- C + 1.7 ms: the store is complete and AON_SNAP_SEQ is written, unless the supply failed it (R324, R330). -/
def State.commitStored (s : State) : State :=
  if s.nm.snapOk && s.pw.storeOk then { s with nm := { s.nm with snapSeq := s.nm.snapSeq + 1 } }
  else { s with nm := { s.nm with snapOk := false } }

/-- C + 1.8 ms: CAN channels Off, their entries removed with OUTCOME 4; ports held down (R324). -/
def State.commitSilence (s : State) : State :=
  (foldN 32 (fun s n =>
    let c := s.can n
    let s := s.setCan n { c with queue := [], prio := none, attempt := none, doomed := none, mode := 0, pstate := 0 }
    c.entries.foldl (fun s e => s.canLeft n e 4 0x148 s.ts) s) s).allLinksDown

/-- C + 2 ms: INH0 low; the main rails go off and Slack begins. Working keys are lost (R324, R366). -/
def State.enterSlack (s : State) : State :=
  { s.discardTraffic.silenceBuses.dropWork with
    pw := { s.pw with mode := .slack, inh0 := false, inh1 := false, fwReady := false, storeOk := false, token := Token.reset },
    sec := { s.sec with wks := [], sas := [], going := [], auth := [], otp := none },
    host := { s.host with pcieLink := false, pcieQ := [], spiQ := [] } }

/-- The timed steps of Commit (R324), at the cycle that they fall in. -/
def State.commitStep (s : State) : State :=
  if !s.live || s.nm.state ≠ .commit then s
  else
    let d := s.now - s.nm.commitAt
    if d = usCycles 100 then s.commitStore
    else if d = usCycles 1700 then s.commitStored
    else if d = usCycles 1800 then s.commitSilence
    else if d = usCycles 1900 then { s with pw := { s.pw with inh1 := false } }
    else if d = usCycles 2000 then s.enterSlack
    else s

/-! Commit (R321, R322, R361). -/

/-- A refused request: firmware reads and clears the latch, and returns to Awake or, when only KA was set, restarts the
countdown (R321). A secondary returns to Awake (R361). -/
def State.commitRefused (s : State) : State :=
  let l := s.nm.latch
  let s := { s with nm := { s.nm with accepted := false } }
  if !s.fw then s
  else
    let s := { s with nm := { s.nm with latch := 0, missed := false } }
    if s.secondary then s.abortEbb 0
    else if l &&& 0xFF ≠ 0 then s.abortEbb (l.toNat % 16) else { s with nm := { s.nm with countAt := s.now } }

/-- A request of Commit by firmware (R321): the always-on domain tests the latch and sets the commit latch in one cycle. A device in Awake never
enters Commit (R320). -/
def State.requestCommit (s : State) : State :=
  if !s.live then s
  else
    match s.nm.state with
    | .awake => { s with nm := { s.nm with accepted := false } }
    | .commit => s
    | .ebb =>
      if s.nm.latch ≠ 0 then s.commitRefused
      else { s with nm := { s.nm with accepted := true, sleeps := satInc s.nm.sleeps, commitAt := s.now } }.setNm .commit
/-- COMMIT: a write to AON_NM_CTRL. Ebb is left only once the countdown has reached the Ebb timeout (R320): an earlier request is refused. -/
def commit (s : State) : State :=
  if s.live && s.nm.state = .ebb && s.now < s.nm.countAt + s.ebbCycles then { s with nm := { s.nm with accepted := false } }
  else s.requestCommit
def execCommit (s : State) : Out := done s (commit s)

/-- Sleep aborts a scrub sweep and a memory test that hold the token; their commands end with ABORTED (R442). -/
def State.abortForSleep (s : State) : State :=
  if s.holds .scrub then (({ s with sw.scrubLeft := 0 }.releaseToken .scrub).finishBusy .scrubFast .aborted [])
  else if s.holds .memtest then
    let s := s.releaseToken .memtest
    match s.host.memtest with
    | some r => ({ s with host := { s.host with memtest := none } }).finishBusy (.memtest r) .aborted []
    | none => s
  else s

/-- EBB_TIMEOUT (R320, R321, R442): the countdown reaches the Ebb timeout and firmware requests Commit, once the token is
free. -/
def ebbTimeout (s : State) : State :=
  if s.fw && s.nm.state = .ebb && !s.secondary && s.now ≥ s.nm.countAt + s.ebbCycles then
    let s := s.abortForSleep
    if s.pw.token.holder.isSome then s else s.requestCommit
  else s
def execEbbTimeout (s : State) : Out := done s (ebbTimeout s)

/-! Mailbox commands (R333). -/

/-- Answer a network-management command in Commit: STATE, and a wake event (R322). -/
def State.nmInCommit (s : State) : Reply × State := (.no .state, s.latchWake 0x80)

/-- NM_HOST_NEED. -/
def nmHostNeed (mb : Mb) (s : State) : State :=
  s.serve mb (· == 0x0C01) (· == 0) (fun _ s =>
    if s.nm.state = .commit then s.nmInCommit
    else
      let silent := match s.nm.hostLast with | some t => decide (s.now ≥ t + s.ebbCycles) | none => true
      let clock := if s.nm.host then s.nm.hostAwake else if silent then some s.now else s.nm.hostAwake
      (.ok, { s with nm := { s.nm with host := true, hostAwake := clock } }.nmFollow s))
def execNmHostNeed (mb : Mb) (s : State) : Out := done s (nmHostNeed mb s)

/-- NM_HOST_RELEASE. -/
def nmHostRelease (mb : Mb) (s : State) : State :=
  s.serve mb (· == 0x0C02) (· == 0) (fun _ s =>
    if s.nm.state = .commit then s.nmInCommit
    else
      let last := if s.nm.host then some s.now else s.nm.hostLast
      (.ok, { s with nm := { s.nm with host := false, hostIgnored := false, hostLast := last } }.nmFollow s))
def execNmHostRelease (mb : Mb) (s : State) : Out := done s (nmHostRelease mb s)

/-- The response of NM_STATUS. -/
def State.nmStatusBytes (s : State) : List Byte :=
  natLe 4 (s.nm.state.code + (if s.nm.snapOk then 4 else 0) + s.needMask * 256) ++
  natLe 4 (if s.nm.state = .ebb then s.ebbLeft / 800000 else 0) ++
  natLe 4 (s.nm.lastNode.toNat + s.nm.lastSrc.toNat * 256) ++
  natLe 4 ((s.now - s.nm.awakeAt) / 800000000) ++ natLe 32 s.ignoredMap ++
  natLe 4 s.nm.kaRx.toNat ++ natLe 4 s.nm.kaTx.toNat ++ natLe 4 s.nm.aborts.toNat ++ natLe 4 s.nm.sleeps.toNat ++
  natLe 4 (s.nm.ignoredN.toNat + s.nm.badKa.toNat * 65536)

/-- NM_STATUS. -/
def nmStatus (mb : Mb) (s : State) : State := s.serve mb (· == 0x0C03) (· == 0) (fun _ s => (.done .ok s.nmStatusBytes, s))
def execNmStatus (mb : Mb) (s : State) : Out := done s (nmStatus mb s)

end Sys2Proof.Machine
end

