-- ==== Sys2Proof/Machine/Security.lean ====
section
/-! DEFINITION. Vault, working keys, MACsec installation, authenticator, tamper (R362 to R391).
Choices where the rules leave one open: log entries 17 and 34. -/

namespace Sys2Proof.Machine

/-- A register of the security block (R391). -/
def secReg (off : Nat) : Nat := 0x0C000000 + off

/-! The vault (R362 to R364). -/

/-- States of a slot (R363). -/
inductive SlotState where
  | blank | committed | spoiled | interrupted
  deriving DecidableEq, Repr

/-- Code of KS_DESC.STATE (R391). -/
def SlotState.code : SlotState → Nat
  | .blank => 0 | .committed => 1 | .spoiled => 2 | .interrupted => 3

/-- CHECK of R362. -/
def slotCheck (data : BitVec 256) (desc : Word) : Word := BitVec.ofNat 32 (crc32c (natLe 32 data.toNat ++ natLe 4 desc.toNat))

/-- The classification of a slot, by the first row of R363 that matches. -/
def Slot.state (x : Slot) : SlotState :=
  if x.spoil then .spoiled
  else if x = Slot.blank then .blank
  else if x.commit && x.check == slotCheck x.data x.desc then .committed
  else .interrupted

/-- USE of a slot. -/
def Slot.use (x : Slot) : Nat := x.desc.toNat % 4

/-- DATA of a slot as bytes. -/
def Slot.bytes (x : Slot) : List Byte := natLe 32 x.data.toNat

/-- The boot ROM programs SPOIL of every interrupted slot that it reaches (R363). -/
def State.spoilInterrupted (s : State) (marks : Nat → Bool) : State :=
  foldN 64 (fun s n => if (s.slot n).state = .interrupted && marks n then s.setSlot n { s.slot n with spoil := true } else s) s

/-- A slot that a command names with a use: why it is refused (R363, R380; log entry 34). -/
def State.slotRefused (s : State) (ks use : Nat) : Option Status :=
  match (s.slot ks).state with
  | .spoiled | .interrupted => some .slotSpoiled
  | .blank => some .state
  | .committed => if (s.slot ks).use = use then none else some .keyAttribute

/-- A refusal whose code the spec leaves open (log entry 2). -/
def State.openRefusal (s : State) : Reply × State :=
  let l : List Status := [.badField, .state, .keyAttribute, .unwrapFailed, .slotWritten, .slotSpoiled, .signatureFailed]
  let (n, s) := s.draw
  (.no (l.getD (n % l.length) .badField), s)

/-! Use of working keys (R366, R368). -/

/-- The key lengths that an engine takes (R366). -/
def engineLens : Nat → List Nat
  | 1 => [32] | 2 => [16, 32] | 3 => [96] | 4 => [48] | 5 => [16, 32] | _ => []

/-- An engine refuses the key of a register: it is absent, or it is another engine's (R368). -/
def State.keyRefused (s : State) (wk engine : Nat) : Option Status :=
  let k := s.wk wk
  if !k.valid then some .state else if k.engine.toNat ≠ engine then some .keyAttribute else none

/-- Answer a refused use: SEC_ATTR_REJ counts it (R368). -/
def State.attrRefuse (s : State) (st : Status) : Reply × State := (.no st, s.bump (secReg 8))

/-- An SA uses a register. -/
def State.wkBound (s : State) (wk : Nat) : Bool := s.sec.sas.any (fun e => e.2.wk.val = wk)

/-- A frame that a receive SA may protect is under way at its port. -/
def State.underWay (s : State) (k : Nat) : Bool :=
  k / 16 % 2 = 0 && s.sw.arriving.any (fun a => a.port.val = k / 32 && a.start ≤ s.now && a.es < 2)

/-- Uninstall every SA whose register is in a mask, at the next frame boundary of its port: a frame under way completes with the key
(R372, R381). -/
def State.uninstall (s : State) (mask : Nat) : State :=
  let gone := s.sec.sas.filter (fun e => bit mask e.2.wk.val && s.underWay e.1)
  { s with sec := { s.sec with sas := s.sec.sas.filter (fun e => !bit mask e.2.wk.val),
                               going := s.sec.going ++ gone.map (fun e => (e.1, e.2, (s.wk e.2.wk.val).key)) } }

/-- A bind block outside its ranges (R372). -/
def State.bindBad (s : State) (b : Nat) : Bool :=
  bits b 3 0 > 9 || s.param (0x0260 + bits b 3 0) = 0 || bits b 31 12 ≠ 0 || (bit b 4 && bits b 8 7 ≠ 0)

/-- Install the SA of a bind block with a working key (R372). -/
def State.install (s : State) (wk b : Nat) : State :=
  let port := bits b 3 0
  let tx := bit b 4
  let active := tx && bit b 10
  let k := saKey port (if tx then 1 else 0) (bits b 8 7) (bits b 6 5)
  let sa : SecAssoc :=
    { wk := Fin.ofNat 32 wk, conf := bit b 9, active := active, replay := bit b 11, window := BitVec.ofNat 32 (bits b 63 32),
      sci := BitVec.ofNat 64 (bits b 127 64), salt := BitVec.ofNat 96 (bits b 223 128), ssci := BitVec.ofNat 32 (bits b 255 224),
      pn := if tx then 1 else 0 }
  let off := fun (e : Nat × SecAssoc) => if active && e.1 / 16 = port * 2 + 1 then (e.1, { e.2 with active := false }) else e
  { s with sec.sas := SMap.put (s.sec.sas.map off) k sa }

/-- Write a working key, and install its SA if the command binds one (R368, R372). -/
def State.keyWrite (s : State) (wk : Nat) (k : WorkKey) (bind : Option Nat) : State :=
  let s := s.setWk wk k
  match bind with | some b => s.install wk b | none => s

/-- The last checks of KEY_LOAD and KEY_DERIVE: the register and the bind (R372, R380). -/
def State.keyTarget (s : State) (wk : Nat) (k : WorkKey) (bind : Option Nat) : Reply × State :=
  if bind.isSome && k.engine ≠ 1 then s.attrRefuse .keyAttribute
  else if s.wkBound wk then (.no .state, s)
  else (.ok, s.keyWrite wk k bind)

/-- A security command; every completion sets DW_FW_EVENT bit 3 (R379). -/
def State.secServe (s : State) (mb : Mb) (isCode : Nat → Bool) (f : List Byte → State → Reply × State) : State :=
  let t := s.serve mb isCode (fun _ => true) f
  if (t.mb mb.val).state = .done && (s.mb mb.val).state ≠ .done then t.fwEvent 3 else t

/-! KEY_LOAD, KEY_CLEAR, KEY_DERIVE (R367, R370, R380, R381). -/

/-- Blob lengths of a source (R379). -/
def blobLens : Nat → List Nat
  | 0 => [32, 48, 64, 112] | 1 => [96] | 2 => [16, 32] | _ => []

/-- The working key in an unwrapped blob (R367): none where its header is not allowed. -/
def innerKey (pt : List Byte) : Option WorkKey :=
  let engine := byteAt pt 0
  let klen := byteAt pt 1
  if !(engineLens engine).contains klen || slice pt 4 4 ≠ [0, 0, 0, 0] || pt.length ≠ 8 + klen then none
  else some { valid := true, engine := BitVec.ofNat 3 engine, klen := BitVec.ofNat 8 klen, keyId := BitVec.ofNat 16 (leNat (slice pt 2 2)), key := pt.drop 8 }

/-- A public key given in a request is accepted against a USE 2 slot (R377). -/
def State.rootAccepted (s : State) (ks : Nat) (pub : List Byte) : Bool := (sha384 pub).take 32 = (s.slot ks).bytes

/-- KEY_LOAD. -/
def keyLoad (mb : Mb) (s : State) : State :=
  s.secServe mb (· == 0x0E01) (fun p s =>
    let w := leNat (slice p 0 4)
    let n := leNat (slice p 4 4)
    let src := bits w 9 8
    let wk := bits w 4 0
    let ks := bits w 21 16
    let bind := if bit w 12 then some (leNat (slice p (8 + n) 32)) else none
    let blob := slice p 8 n
    if p.length < 8 || !(blobLens src).contains n || p.length ≠ 8 + n + (if bit w 12 then 32 else 0) then (.no .badLength, s)
    else if bits w 7 5 ≠ 0 || bits w 11 10 ≠ 0 || bits w 15 13 ≠ 0 || bits w 31 22 ≠ 0 || bind.any s.bindBad then (.no .badField, s)
    else if s.sec.locked then (.no .vaultLocked, s)
    else if src = 2 then
      s.keyTarget wk { valid := true, engine := 5, klen := BitVec.ofNat 8 n, keyId := 0, key := blob } bind
    else
      match s.slotRefused ks (if src = 0 then 0 else 2) with
      | some st => (.no st, s)
      | none =>
        if src = 1 then
          if s.rootAccepted ks blob then s.keyTarget wk { valid := true, engine := 3, klen := 96, keyId := 0, key := blob } bind
          else s.openRefusal
        else
          match keyUnwrap (s.slot ks).bytes blob with
          | none => (.no .unwrapFailed, s.bump (secReg 4))
          | some pt =>
            match innerKey pt with
            | some k => s.keyTarget wk k bind
            | none => (.no .badField, s))
def execKeyLoad (mb : Mb) (s : State) : Out := done s (keyLoad mb s)

/-- KEY_CLEAR. -/
def keyClear (mb : Mb) (s : State) : State :=
  s.secServe mb (· == 0x0E02) (fun p s =>
    if p.length ≠ 4 then (.no .badLength, s)
    else
      let m := leNat p
      let s := s.uninstall m
      (.ok, { s with sec.wks := SMap.dropKeys (fun w => bit m w) s.sec.wks }))
def execKeyClear (mb : Mb) (s : State) : Out := done s (keyClear mb s)

/-- The KDF of R370. -/
def kdf (root label context : List Byte) (engine klen : Nat) : List Byte :=
  let fixed := label ++ [0] ++ context ++ [BitVec.ofNat 8 engine] ++ natBe 4 (8 * klen)
  (cmac root (natBe 4 1 ++ fixed) ++ cmac root (natBe 4 2 ++ fixed)).take klen

/-- KEY_DERIVE. -/
def keyDerive (mb : Mb) (s : State) : State :=
  s.secServe mb (· == 0x0E03) (fun p s =>
    let w := leNat (slice p 0 4)
    let lens := leNat (slice p 4 4)
    let ll := bits lens 15 0
    let cl := bits lens 31 16
    let engine := bits w 10 8
    let klen := bits w 23 16
    let ks := bits w 29 24
    let bind := if bit w 12 then some (leNat (slice p (8 + ll + cl) 32)) else none
    if p.length < 8 || p.length ≠ 8 + ll + cl + (if bit w 12 then 32 else 0) then (.no .badLength, s)
    else if ll > 64 || cl > 64 || !([1, 2, 5] : List Nat).contains engine || !(engineLens engine).contains klen || bits w 7 5 ≠ 0 || bit w 11 ||
        bits w 15 13 ≠ 0 || bits w 31 30 ≠ 0 || bind.any s.bindBad then (.no .badField, s)
    else if s.sec.locked then (.no .vaultLocked, s)
    else
      match s.slotRefused ks 1 with
      | some st => (.no st, s)
      | none =>
        s.keyTarget (bits w 4 0)
          { valid := true, engine := BitVec.ofNat 3 engine, klen := BitVec.ofNat 8 klen, keyId := 0,
            key := kdf (s.slot ks).bytes (slice p 8 ll) (slice p (8 + ll) cl) engine klen } bind)
def execKeyDerive (mb : Mb) (s : State) : Out := done s (keyDerive mb s)

/-! OTP_PROGRAM (R365, R382). -/

/-- Check the supply and request the token for a programming (R365, R382). -/
def State.startOtp (s : State) (ks : Nat) (data : BitVec 256) (desc : Word) : Reply × State :=
  if !s.pw.storeOk then (.no .refusedSupply, s)
  else
    match s.requestToken .otp with
    | (.busy, _) => (.no .busy, s)
    | (_, s) => (.wait .otp, { s with sec.otp := some { slot := Fin.ofNat 64 ks, data := data, desc := desc, refused := false } })

/-- OTP_PROGRAM. -/
def otpProgram (mb : Mb) (s : State) : State :=
  s.secServe mb (· == 0x0E04) (fun p s =>
    let w := leNat (slice p 0 4)
    let desc := leNat (slice p 4 4)
    let ks := bits w 5 0
    let wrapped := bit w 8
    let blob := p.drop 8
    if p.length ≠ (if wrapped then 56 else 40) then (.no .badLength, s)
    else if bits w 7 6 ≠ 0 || bits w 15 9 ≠ 0 || bits w 31 22 ≠ 0 || desc > 2 || (!wrapped && leNat blob = 0) then (.no .badField, s)
    else if s.sec.locked then (.no .vaultLocked, s)
    else
      match (s.slot ks).state with
      | .committed => (.no .slotWritten, s)
      | .spoiled | .interrupted => (.no .slotSpoiled, s)
      | .blank =>
        if !wrapped then s.startOtp ks (BitVec.ofNat 256 (leNat blob)) (BitVec.ofNat 32 desc)
        else
          match s.slotRefused (bits w 21 16) 0 with
          | some st => (.no st, s)
          | none =>
            match keyUnwrap (s.slot (bits w 21 16)).bytes blob with
            | none => (.no .unwrapFailed, s.bump (secReg 4))
            | some pt =>
              if pt.length ≠ 40 || byteAt pt 0 ≠ 0 || byteAt pt 1 ≠ 32 || slice pt 4 4 ≠ [0, 0, 0, 0] || leNat (pt.drop 8) = 0 then
                (.no .badField, s)
              else s.startOtp ks (BitVec.ofNat 256 (leNat (pt.drop 8))) (BitVec.ofNat 32 desc))
def execOtpProgram (mb : Mb) (s : State) : Out := done s (otpProgram mb s)

/-- Complete the Busy OTP_PROGRAM. -/
def State.finishOtp (s : State) (st : Status) : State :=
  match s.host.busy with
  | some (_, .otp) => (s.finishBusy .otp st []).fwEvent 3
  | _ => s

/-- OTP_PROGRAMMING_COMPLETE (R365): the token is held; COMMIT is written last. A programming whose supply was too low when it got the
token is refused. -/
def otpProgrammingComplete (s : State) : State :=
  match s.sec.otp with
  | some o =>
    if !s.live || !s.holds .otp then s
    else
      let t := { s with sec.otp := none }.releaseToken .otp
      if o.refused then t.finishOtp .refusedSupply
      else (t.setSlot o.slot.val { data := o.data, desc := o.desc, check := slotCheck o.data o.desc, commit := true, spoil := false }).finishOtp .ok
  | none => s
def execOtpProgrammingComplete (s : State) : Out := done s (otpProgrammingComplete s)

/-! SIG_VERIFY (R377, R383). -/

/-- A byte of the staging record of a staging area or of the active area (R404): what of a record copy stands where is not said. -/
def State.recordByte (s : State) (a : Nat) : Byte :=
  match s.mem.find? (fun e => e.1 = a) with
  | some (_, b) => b
  | none =>
    let c := if a < 0x02200000 then s.upd.recActive else s.upd.copies (decide (0x02400000 ≤ a))
    Config.recordByte (match (if a % 0x1000 < 0x800 then c.lo else c.hi) with | some x => x.seq.toNat | none => 2 ^ 32) a

/-- The address lies in a record of an MRAM area (R404). -/
def inRecord (a : Nat) : Bool := 0x02000000 ≤ a && a < 0x02600000 && a % 0x200000 ≥ 0x1FF000

/-- A byte of core SRAM or MRAM as the signature verifier reads it. -/
def State.storeByte (s : State) (a : Nat) : Byte :=
  if inRecord a then s.recordByte a
  else
  if 0x02780000 ≤ a then s.sealedByte (a - 0x02780000)
  else if 0x02600000 ≤ a then
    match s.snapshot, s.mem.find? (fun e => e.1 = a) with
    | _, some (_, b) => b
    | some r, none => Config.snapByte r.seq.toNat a
    | none, none => s.rd8 a
  else s.rd8 a

/-- A range that lies in core SRAM or in MRAM. -/
def inStore (a n : Nat) : Bool :=
  (0x01000000 ≤ a && a + n ≤ 0x01400000) || (0x02000000 ≤ a && a + n ≤ 0x02800000)

/-- SIG_VERIFY. -/
def sigVerify (mb : Mb) (s : State) : State :=
  s.secServe mb (· == 0x0E05) (fun p s =>
    let w := leNat (slice p 0 4)
    let root := bit w 0
    let mem := bit w 1
    let o := 4 + (if root then 96 else 0)
    let n := if mem then 8 else 48
    let addr := leNat (slice p o 4)
    let len := leNat (slice p (o + 4) 4)
    let sig := slice p (o + n) 96
    if p.length ≠ o + n + 96 then (.no .badLength, s)
    else if bits w 7 2 ≠ 0 || bits w 15 13 ≠ 0 || bits w 31 22 ≠ 0 || (mem && !inStore addr len) then (.no .badField, s)
    else
      let digest := fun (_ : Unit) => if mem then sha384 ((List.range len).map (fun i => s.storeByte (addr + i))) else slice p o 48
      let judge := fun (pub : List Byte) =>
        if ecdsaVerify pub (digest ()) sig then (Reply.ok, s) else (Reply.no .signatureFailed, s.bump (secReg 0xC))
      if root then
        match s.slotRefused (bits w 21 16) 2 with
        | some st => (.no st, s)
        | none => if s.rootAccepted (bits w 21 16) (slice p 4 96) then judge (slice p 4 96) else s.openRefusal
      else
        match s.keyRefused (bits w 12 8) 3 with
        | some st => s.attrRefuse st
        | none => judge (s.wk (bits w 12 8)).key)
def execSigVerify (mb : Mb) (s : State) : Out := done s (sigVerify mb s)

/-! HOST_CRYPTO (R384). -/

/-- OP of the request of a mailbox; a request that is too short to hold it counts as OP 1. -/
def State.cryptoOp (s : State) (mb : Nat) : Nat := if s.reqLen mb < 8 then 1 else s.rd (reqAddr mb + 8) 1 % 16

/-- The operations of HOST_CRYPTO on the key, IV, AAD, data and tag. What OP 3 to 5 make of AAD is open. -/
def State.cryptoRun (s : State) (op : Nat) (key iv aad data tag : List Byte) : Reply × State :=
  let msg := fun (s : State) =>
    if aad.isEmpty then (data, s) else let (n, s) := s.draw; (Config.freeBytes n data.length, s)
  if op = 1 then let (ct, t) := gcmEnc key iv aad data; (.done .ok (ct ++ t), s)
  else if op = 2 then
    match gcmDec key iv aad data tag with
    | some pt => (.done .ok pt, s)
    | none => (.no .signatureFailed, s)
  else if op = 3 then let (m, s) := msg s; (.done .ok (cmac key m), s)
  else if op = 4 then let (m, s) := msg s; (if cmac key m = tag then .ok else .no .signatureFailed, s)
  else let (m, s) := msg s; (.done .ok (sha384 m), s)

/-- HOST_CRYPTO, for the requests whose OP satisfies `mine`. -/
def hostCrypto (mine : Nat → Bool) (mb : Mb) (s : State) : State :=
  if !mine (s.cryptoOp mb.val) then s
  else s.secServe mb (· == 0x0E06) (fun p s =>
    let w := leNat (slice p 0 4)
    let lens := leNat (slice p 4 4)
    let op := bits w 3 0
    let al := bits lens 15 0
    let dl := bits lens 31 16
    let iv := if op = 1 || op = 2 then 12 else 0
    let tag := if op = 2 || op = 4 then 16 else 0
    let run := fun (key : List Byte) =>
      s.cryptoRun op key (slice p 8 iv) (slice p (8 + iv) al) (slice p (8 + iv + al) dl) (slice p (8 + iv + al + dl) tag)
    if p.length < 8 || p.length ≠ 8 + iv + al + dl + tag then (.no .badLength, s)
    else if bits w 7 4 ≠ 0 || bits w 31 13 ≠ 0 || op = 0 || op > 5 then (.no .badField, s)
    else if s.param 0x0E02 = 0 then (.no .state, s)
    else if op = 5 then run []
    else
      match s.keyRefused (bits w 12 8) 5 with
      | some st => s.attrRefuse st
      | none => run (s.wk (bits w 12 8)).key)

/-- HOST_CRYPTO OP 1, and requests with an OP that R384 does not list. -/
def aesGcmEncrypt (mb : Mb) (s : State) : State := hostCrypto (fun op => op < 2 || op > 5) mb s
def execAesGcmEncrypt (mb : Mb) (s : State) : Out := done s (aesGcmEncrypt mb s)
/-- HOST_CRYPTO OP 2. -/
def aesGcmDecrypt (mb : Mb) (s : State) : State := hostCrypto (· == 2) mb s
def execAesGcmDecrypt (mb : Mb) (s : State) : Out := done s (aesGcmDecrypt mb s)
/-- HOST_CRYPTO OP 3. -/
def aesCmacGenerate (mb : Mb) (s : State) : State := hostCrypto (· == 3) mb s
def execAesCmacGenerate (mb : Mb) (s : State) : Out := done s (aesCmacGenerate mb s)
/-- HOST_CRYPTO OP 4. -/
def aesCmacVerify (mb : Mb) (s : State) : State := hostCrypto (· == 4) mb s
def execAesCmacVerify (mb : Mb) (s : State) : Out := done s (aesCmacVerify mb s)
/-- HOST_CRYPTO OP 5. -/
def sha384Command (mb : Mb) (s : State) : State := hostCrypto (· == 5) mb s
def execSha384 (mb : Mb) (s : State) : Out := done s (sha384Command mb s)

/-! The authenticator (R376). -/

/-- AUTH_START. -/
def authStart (a : Nat) (s : State) : State :=
  if !s.live then s
  else
    let x := s.auth a
    match s.keyRefused x.keyIdx.val 2 with
    | none => s.setAuth a { x with busy := true, done := false, err := false, key := (s.wk x.keyIdx.val).key, msg := [] }
    | some _ => (s.setAuth a { x with busy := false, err := true, key := [], msg := [] }).bump (secReg 8)
def execAuthStart (ctx : Fin 4) (s : State) : Out := done s (authStart ctx.val s)

/-- Feed bytes to a context that accepts them. -/
def authFeed (a : Nat) (bs : List Byte) (s : State) : State :=
  let x := s.auth a
  if s.live && x.busy then s.setAuth a { x with msg := x.msg ++ bs } else s
/-- AUTH_FEED8. -/
def execAuthFeed8 (ctx : Fin 4) (v : Byte) (s : State) : Out := done s (authFeed ctx.val [v] s)
/-- AUTH_FEED32. -/
def execAuthFeed32 (ctx : Fin 4) (v : Word) (s : State) : Out := done s (authFeed ctx.val (natLe 4 v.toNat) s)

/-- AUTH_FINISH. -/
def authFinish (a : Nat) (s : State) : State :=
  let x := s.auth a
  if s.live && x.busy then s.setAuth a { x with busy := false, done := true, tag := cmac x.key x.msg, key := [], msg := [] } else s
def execAuthFinish (ctx : Fin 4) (s : State) : Out := done s (authFinish ctx.val s)

/-! WK_MAT (R369). -/

/-- WK_MAT: bytes of a host crypto key in plain text. No master is privileged (R20). -/
def wkMat (wk word : Nat) (v : Word) (s : State) : State :=
  if !s.live then s
  else
    let k := s.wk wk
    if s.sec.locked || !k.valid || k.engine ≠ 5 then s.bump (secReg 0x10)
    else s.setWk wk { k with key := fitBytes k.klen.toNat (splice (fitBytes 96 k.key) (word * 4) (natLe 4 v.toNat)) }
def execWkMat (_m : Master) (wk : Fin 32) (word : Fin 24) (v : Word) (s : State) : Out := done s (wkMat wk.val word.val v s)

/-! Tamper (R386 to R390). -/

/-- The always-on domain latches the event: AON_TAMPER and its count; the vault is locked (R387, R390). -/
def State.latchTamper (s : State) (src : BitVec 4) (phase : BitVec 2) : State :=
  { s with sec := { s.sec with tamper := s.sec.tamper ||| src, phase := if s.sec.tamper = 0 then phase else s.sec.phase,
                               tamperN := satInc s.sec.tamperN, locked := true } }

/-- Every working key and key schedule is zeroed, every SA uninstalled, every security operation aborted (R387, R388). A MACsec
frame in transmission loses its protection, and one in verification its SA. -/
def State.wipeKeys (s : State) : State :=
  let hit := fun (s : State) (o : Nat) (x : Option TxFrame) =>
    match x with
    | some t =>
      if t.begun && t.sa.isSome && t.cut.isNone then
        let (n, s) := s.draw
        (some { t with cut := some (s.bytesOut o t s.now, n) }, s)
      else (x, s)
    | none => (x, s)
  let s := foldN 10 (fun s o =>
    let (a, s) := hit s o (s.egr o).tx
    let (b, s) := hit s o (s.egr o).held
    s.setEgr o { s.egr o with tx := a, held := b }) s
  let caught := fun (a : Arrival) => s.macsecOn a.port.val && a.es < 2 && a.byteAt 28 ≤ s.now &&
    (match s.msHead a with | .sealed _ => true | _ => false)
  let arriving := s.sw.arriving.map (fun a => if caught a then { a with wiped := true } else a)
  let s := { s with sw.arriving := arriving, sec := { s.sec with wks := [], sas := [], going := [] } }
  foldN 4 (fun s a => if (s.auth a).busy then s.setAuth a { s.auth a with busy := false, err := true, key := [], msg := [] } else s) s

/-- A programming in progress stops; its command completes with VAULT_LOCKED (R388). -/
def State.stopOtp (s : State) : State :=
  if s.sec.otp.isNone then s
  else
    let s := s.cutOtp
    let s := { s with pw.token := { s.pw.token with queue := s.pw.token.queue.filter (· ≠ Activity.otp) } }
    (s.releaseToken .otp).finishOtp .vaultLocked

/-- A key operation that firmware has taken and not ended completes with VAULT_LOCKED (R388): the security commands other than
KEY_CLEAR, and NRN_RECORD OP 1 with countersigning (R378, R429). A repeated request (R280) runs no operation. -/
def State.stopTaken (s : State) : State :=
  match s.host.busy with
  | some (b, .taken) =>
    let c := s.reqCmd b.val
    let signs := c = 0x1001 && s.reqLen b.val = 12 && s.rd (reqAddr b.val + 8) 2 = 0x101
    if (signs || (0x0E01 ≤ c && c ≤ 0x0E06 && c ≠ 0x0E02)) && (s.replay b.val).isNone then s.completeSec b.val .vaultLocked else s
  | _ => s

/-- TAMPER_EVENT (R386 to R388): enabled sources only; in Slack TAMPER_N alone. -/
def tamperEvent (src : BitVec 4) (s : State) : State :=
  let src := src &&& BitVec.ofNat 4 (s.param 0x0E01) &&& (if s.pw.mode = .slack then 1 else 0xF)
  if !s.pw.vaon || s.pw.mode = .off || src = 0 then s
  else if s.pw.mode = .slack then s.latchTamper src 2
  else ((s.latchTamper src (if s.pw.mode = .startUp then 0 else 1)).wipeKeys.stopOtp.stopTaken).irq 12
def execTamperEvent (src : BitVec 4) (s : State) : Out := done s (tamperEvent src s)

/-! Read values (R391). -/

/-- A byte of the security block at an offset. Slot fields read zero until the boot ROM has classified the slots. -/
def State.secByte (s : State) (o : Nat) : Byte :=
  let f := fun (base n v : Nat) => (natLe n v).getD (o - base) 0
  let slots := (List.range 64).map (fun n => (s.slot n).state)
  let cnt := fun (p : SlotState → Bool) => if s.sec.classified then (slots.filter p).length else 0
  if o < 4 then
    f 0 4 ((if s.sec.locked then 1 else 0) + ((List.range 32).filter (fun w => (s.wk w).valid)).length * 2 ^ 8 +
      cnt (· == .committed) * 2 ^ 16 + cnt (fun x => x == .spoiled || x == .interrupted) * 2 ^ 24)
  else if 0x100 ≤ o && o < 0x200 then
    let x := s.slot ((o - 0x100) / 4)
    if s.sec.classified then f (o / 4 * 4) 4 (x.use + x.state.code * 256) else 0
  else if 0x400 ≤ o && o < 0x480 then
    let k := s.wk ((o - 0x400) / 4)
    f (o / 4 * 4) 4 ((if k.valid then 1 else 0) + k.engine.toNat * 2 + k.klen.toNat * 2 ^ 8 + k.keyId.toNat * 2 ^ 16)
  else if 0x1000 ≤ o && o < 0x1800 then
    let x := s.slot ((o - 0x1000) / 32)
    if s.sec.classified && x.state = .committed && x.use = 2 then x.bytes.getD (o % 32) 0 else 0
  else if 0x3000 ≤ o && o < 0x3100 then
    let x := s.auth ((o - 0x3000) / 0x40)
    let i := o % 0x40
    if i < 4 then f (o - i) 4 x.keyIdx.val
    else if 0x14 ≤ i && i < 0x18 then f (o - i + 0x14) 4 ((if x.done then 1 else 0) + (if x.err then 2 else 0))
    else if 0x20 ≤ i && i < 0x30 then x.tag.getD (i - 0x20) 0
    else 0
  else 0

end Sys2Proof.Machine
end

