-- ==== Sys2Proof/Machine/Nrn.lean ====
section
/-! DEFINITION. NRN_RECORD: records, staged and fetched calibration blocks (R429).
The order of its refusals: log entry 22. -/

namespace Sys2Proof.Machine

/-- OP of the NRN_RECORD request of a mailbox; a request that is too short to hold it counts as OP 1. -/
def State.nrnOp (s : State) (mb : Nat) : Nat := if s.reqLen mb < 4 then 1 else s.rd (reqAddr mb + 8) 1

/-- The records from `seq` on that are present, at most `n`. -/
def Island.findFrom (i : Island) (seq : Nat) : Nat → List (List Byte)
  | 0 => []
  | n + 1 => match i.find seq with | some r => r :: i.findFrom (seq + 1) n | none => []

/-- OP 1: the records, each followed by its countersignature (R378) where the request asks for one. -/
def State.nrnReadReply (s : State) (w : Nat) (p : List Byte) : Reply × State :=
  let counter := bit w 8
  let cw := leNat (slice p 8 4)
  let n := bits cw 7 0
  if p.length ≠ 12 then (.no .badLength, s)
  else if bits w 15 9 ≠ 0 || bits w 31 21 ≠ 0 || bits cw 31 8 ≠ 0 || n = 0 || n > (if counter then 2 else 3) then (.no .badField, s)
  else if !s.isl.present then (.no .state, s)
  else
    match s.isl.findFrom (leNat (slice p 4 4)) n with
    | [] => (.no .noEntry, s)
    | rs =>
      if !counter then (.done .ok rs.flatten, s)
      else if s.sec.locked then (.no .vaultLocked, s)
      else
        match s.keyRefused (bits w 20 16) 4 with
        | some st => s.attrRefuse st
        | none => (.done .ok (rs.map (fun r => r ++ ecdsaSign (s.wk (bits w 20 16)).key (sha384 r))).flatten, s)

/-- OP 2: replace the staged block. -/
def State.nrnStageReply (s : State) (w : Nat) (p : List Byte) : Reply × State :=
  if p.length ≠ 36 then (.no .badLength, s)
  else if w ≠ 2 then (.no .badField, s)
  else if !s.isl.present then (.no .state, s)
  else (.ok, { s with isl.staged := some (p.drop 4) })

/-- OP 3: the staged block, or a zero word. -/
def State.nrnFetchReply (s : State) (w : Nat) (p : List Byte) : Reply × State :=
  if p.length ≠ 4 then (.no .badLength, s)
  else if w ≠ 3 then (.no .badField, s)
  else if !s.isl.present then (.no .state, s)
  else
    match s.isl.staged with
    | some b => (.done .ok (natLe 4 1 ++ b), s)
    | none => (.done .ok (natLe 4 0), s)

/-- NRN_RECORD, for the requests whose OP satisfies `mine`. -/
def nrnRecord (mine : Nat → Bool) (mb : Mb) (s : State) : State :=
  if !mine (s.nrnOp mb.val) then s
  else s.serve mb (· == 0x1001) (fun _ => true) (fun p s =>
    let w := leNat (slice p 0 4)
    if p.length < 4 then (.no .badLength, s)
    else
      match w % 256 with
      | 1 => s.nrnReadReply w p
      | 2 => s.nrnStageReply w p
      | 3 => s.nrnFetchReply w p
      | _ => (.no .badField, s))

/-- NRN_RECORD OP 1, and requests with an OP that R429 does not list. -/
def nrnRead (mb : Mb) (s : State) : State := nrnRecord (fun op => op ≠ 2 && op ≠ 3) mb s
def execNrnRead (mb : Mb) (s : State) : Out := done s (nrnRead mb s)
/-- NRN_RECORD OP 2. -/
def nrnStage (mb : Mb) (s : State) : State := nrnRecord (· == 2) mb s
def execNrnStage (mb : Mb) (s : State) : Out := done s (nrnStage mb s)
/-- NRN_RECORD OP 3. -/
def nrnFetch (mb : Mb) (s : State) : State := nrnRecord (· == 3) mb s
def execNrnFetch (mb : Mb) (s : State) : Out := done s (nrnFetch mb s)

/-! Calibration (R426). -/

/-- The island's NRN_RECORD with OP 3 on MB9, and the block in its response. A request that firmware has not answered stays there, and
the next poll reads its response. -/
def State.islandFetch (s : State) : Option (List Byte) × State :=
  let s := nrnFetch 9 (if (s.mb 9).state = .idle then s.postRequest 9 0x1001 4 (natLe 4 3) else s)
  if (s.mb 9).state = .done then
    (if bits (s.rd (respAddr 9) 8) 63 48 = 0 && s.rd (respAddr 9 + 8) 4 = 1 then some (s.rdB (respAddr 9 + 12) 32) else none, s.takeResponse 9)
  else (none, s)

/-- The island has fetched a block: a new one that passes is written, one that fails is refused. -/
def Island.poll (i : Island) : Option (List Byte) → Island
  | some b => if i.useCal = some b then i else if i.calOk b then i.calibrate b else { i with calRefused := true }
  | none => i

/-- The next poll is due: one every 100 ms (R426). -/
def Island.pollDue (i : Island) : Bool := match i.pollAt with | some t => decide (i.osc ≥ t + 400000) | none => true

/-- CALIBRATION_POLL (R426): with SEAL_N low the island fetches the staged block through MB9. -/
def calibrationPoll (dt : Nat) (s : State) : State :=
  let due := s.isl.present && s.isl.sealLow && (s.isl.advance dt).pollDue
  let (b, s) := if due then s.islandFetch else (none, s)
  s.island dt (fun i => if due then { i with pollAt := some i.osc }.poll b else i)
def execCalibrationPoll (dt : Nat) (s : State) : Out := done s (calibrationPoll dt s)

end Sys2Proof.Machine
end

