-- ==== Sys2Proof/Machine/ParamSet.lean ====
section
/-! DEFINITION. PARAM_SET: its checks, and what a changed parameter does at once (R286, R295). -/

namespace Sys2Proof.Machine

/-! Bit timing (R206, R207). -/

/-- The check of a timing against its own phase (R206). -/
def canPhaseOk (pid v : Nat) : Bool :=
  let (_, q, t2, sjw) := canTiming pid v
  let c := canBitClocks pid v
  decide (sjw ≤ t2) &&
  (if pid < 0x0840 then decide (q ≥ 8) && decide (80000000 ≥ 10000 * c) && decide (80 ≤ c)
   else decide (q ≥ 4) && decide (80000000 ≤ (if pid < 0x0860 then 8000000 else 20000000) * c))

/-- The timings and options of channel `n` contradict each other: an enabled data phase slower than the nominal phase (R206),
or triple sampling above 125 kbit/s (R207). `fd`, `xl`, `tri` say which comparisons the write makes. -/
def State.canConflict (s : State) (n : Nat) (fd xl tri : Bool) : Bool :=
  let o := s.param (0x0880 + n)
  let nom := canBitClocks 0x0820 (s.param (0x0820 + n))
  (fd && bit o 0 && canBitClocks 0x0840 (s.param (0x0840 + n)) > nom) ||
  (xl && bit o 1 && canBitClocks 0x0860 (s.param (0x0860 + n)) > nom) || (tri && bit o 2 && nom < 640)

/-! The checks (R286). -/

/-- The 64-bit value of an entry fits the type of its parameter; S32 is sign-extended. -/
def fitsType (t : PType) (v : Nat) : Bool :=
  match t with
  | .s32 => v < 2 ^ 31 || (2 ^ 64 - 2 ^ 31 ≤ v && v < 2 ^ 64)
  | t => v < 2 ^ t.width

/-- The value is inside the range of its table. -/
def State.rangeOk (s : State) (r : PidRow) (pid v : Nat) : Bool :=
  fitsType r.type v && r.inRange pid v &&
  (r.check != .rate || v ≤ s.rateBound (pid - 0x0480)) &&
  -- no aging, or at least 10 s (R94)
  (pid != 0x0210 || v = 0 || 10 ≤ v) &&
  (!(0x0820 ≤ pid && pid < 0x0880) || canPhaseOk pid v)

/-- Another parameter forbids the value; `s` holds it already, `old` is the value before (R60, R126, R206, R207, R302, R304). -/
def State.conflicts (s : State) (pid old v : Nat) : Bool :=
  if pid = 0x0511 || pid = 0x0512 then s.param 0x0512 % s.angleUnit ≠ 0
  else if 0x0120 ≤ pid && pid < 0x0138 then ((List.range 24).map s.guar).sum > 98304
  else if 0x0180 ≤ pid && pid < 0x0190 then
    let k := pid % 8
    s.param (0x0180 + k) > s.param (0x0188 + k)
  else if 0x0820 ≤ pid && pid < 0x0840 then s.canConflict (pid - 0x0820) true true true
  else if 0x0840 ≤ pid && pid < 0x0860 then s.canConflict (pid - 0x0840) true false false
  else if 0x0860 ≤ pid && pid < 0x0880 then s.canConflict (pid - 0x0860) false true false
  else if 0x0880 ≤ pid && pid < 0x08A0 then s.canConflict (pid - 0x0880) true true true
  else if pid = 0x0C01 || pid = 0x0C03 then s.param 0x0C03 ≥ s.param 0x0C01
  else if pid = 0x0C05 || pid = 0x0C11 then s.param 0x0C11 + s.param 0x0C05 > 0x7FF
  else if pid = 0x0E01 then old &&& (0xF ^^^ v) ≠ 0
  else false

/-- The bits that a parameter stores. -/
def storedBits (r : PidRow) (v : Nat) : Nat := v % 2 ^ r.type.width

/-- Check one entry against the values that earlier entries would set: its failure, or the values with it. -/
def State.paramCheck (s : State) (pid v : Nat) : Status ⊕ State :=
  match pidRow? pid with
  | none => .inl .unknownPid
  | some r =>
    if r.ro then .inl .pidReadOnly
    else if !s.rangeOk r pid v then .inl .range
    else
      let t := s.setParam pid (storedBits r v)
      if t.conflicts pid (s.param pid) v then .inl .conflict else .inr t

/-- The entries of a payload: word 0 and value. -/
def paramEntries (p : List Byte) : List (Nat × Nat) :=
  (List.range (p.length / 12)).map (fun i => (leNat (slice p (12 * i) 4), leNat (slice p (12 * i + 4) 8)))

/-- The first entry that fails: its index, word 0 and code. -/
def State.paramFailure (s : State) : Nat → List (Nat × Nat) → Option (Nat × Nat × Status)
  | _, [] => none
  | i, (w, v) :: es =>
    if w ≥ 65536 then some (i, w, .badField)
    else
      match s.paramCheck w v with
      | .inl st => some (i, w, st)
      | .inr t => t.paramFailure (i + 1) es

/-! Effects. -/

/-- The link of a port goes down and restarts in the new setting (R300). -/
def State.restartLink (s : State) (p : Nat) : State := linkDown p s

/-- The time source is selected (R53); without one, local time runs at nominal rate (R52). -/
def State.selectTime (s : State) (v : Nat) : State :=
  let s := s.setTimeState (if v = 0 then .free else .unset)
  if v = 0 then
    { s with time := { s.time with gm := none, inWindow := 0, incr := nominalIncr, refIncr := nominalIncr, slew := 0 } }
  else { s with time := { s.time with gm := none, inWindow := 0 } }

/-- The encoder is enabled or disabled (R65). -/
def State.encoderFollow (s : State) (old v : Nat) : State :=
  if v = 0 then { s.setAngleState .off with angle.zTaken := false }
  else if old = 0 then { s.setAngleState .unindexed with angle.indexed := false, angle.hist := [], angle.quadTurn := 0 }
  else s

/-- The pair mode changes: single, or a pair whose role is still open (R347, R349). -/
def State.pairMode (s : State) (old v : Nat) : State :=
  if old = v then s
  else
    let p := s.pair
    let r : BitVec 2 := if v = 1 then 2 else 0
    let s := if p.role = r then s else s.fwEvent 1
    { s with pair := { Pair.reset with role := r, run := p.run, versions := p.versions, takeovers := p.takeovers, cmpFails := p.cmpFails,
                                       lastCmp := p.lastCmp, tkTs := p.tkTs, readyAt := if v = 1 then some s.now else none } }

/-- SVC is switched off: its connection ends, and with it a message that firmware has not taken. -/
def State.svcOff (s : State) : State :=
  let s := { s with upd.svc := none, upd.svcMsg := none }
  if s.upd.posted && (s.mb 8).state = .pending then
    { s with upd.posted := false, host.rings := s.host.rings.filter (· ≠ 8) }.takeResponse 8
  else s

/-- A parameter of R158 has changed: its old value stays in force until the next selection of its port. -/
def State.waitSelection (s : State) (pid old : Nat) : State :=
  if (SMap.get none s.sw.parOld pid).isSome then s
  else { s with sw.parOld := SMap.set none s.sw.parOld pid (some (BitVec.ofNat 64 old)) }

/-- What a parameter does when it is set; `old` is its value before. -/
def State.paramEffect (s : State) (pid old v : Nat) : State :=
  let fam := fun (base n : Nat) => decide (base ≤ pid) && decide (pid < base + n)
  let changed := old != v
  if fam 0x0120 24 then s.notePeaks (pid - 0x0120)
  else if fam 0x0160 24 || fam 0x0180 24 || fam 0x0700 0x60 then
    (if s.sw.arriving.isEmpty && s.scr.gw.hand.isEmpty then s else { s with sw.parHist := s.sw.parHist ++ [(pid, s.now, old)] })
  else if fam 0x0220 22 then (if changed then s.restartLink (pid - 0x0220) else s)
  else if fam 0x0240 20 then (if changed then s.restartLink (pid - 0x0240) else s)
  else if fam 0x0270 8 then (if changed then s.restartLink (pid - 0x0270 + 10) else s)
  else if fam 0x0420 24 || fam 0x0440 8 || fam 0x0460 24 || fam 0x0480 24 || fam 0x04A0 24 then
    (if changed then s.waitSelection pid old else s)
  else if pid = 0x0501 then s.selectTime v
  else if pid = 0x0509 then { s with time.ppsSec := some (v, s.time.ltime) }
  else if pid = 0x0510 then s.encoderFollow old v
  else if fam 0x0580 24 then s.refreshGates (pid - 0x0580)
  else if fam 0x05A0 24 then s.refreshGates (pid - 0x05A0)
  else if fam 0x05C0 24 then s.refreshGates (pid - 0x05C0)
  else if fam 0x0600 20 then (if v = 0 then s.withdrawDecided (pid - 0x0600) true else s)
  else if fam 0x0880 32 || fam 0x08C0 32 then
    let n := pid % 32
    let c := s.can n
    if c.pstate = 0 || s.canIdle n then s.canLatch n else s
  else if fam 0x0900 16 then (if changed then s.linChange (pid - 0x0900) old (s.param (pid + 16)) else s)
  else if fam 0x0910 16 then (if changed then s.linChange (pid - 0x0910) (s.param (pid - 16)) old else s)
  else if fam 0x0A00 12 then (if changed then s.plcaRestart (pid % 2) else s)
  else if fam 0x0C20 4 then s.levelGone (s.setParam pid old)
  else if pid = 0x0D01 then s.pairMode old v
  else if pid = 0x0D03 then (if old = 0 && v = 1 then { s with pw.token.lastCmp := none } else s)
  else if pid = 0x0F05 then (if v = 0 then s.svcOff else s)
  else s

/-- Set one parameter whose check has passed. -/
def State.paramApply (s : State) (pid v : Nat) : State :=
  match pidRow? pid with
  | some r => (s.setParam pid (storedBits r v)).paramEffect pid (s.param pid) (storedBits r v)
  | none => s

/-- Apply entries in request order; the static part of the snapshot waits for its rewrite (R295, R329). -/
def State.paramsApply (s : State) (es : List (Nat × Nat)) : State :=
  let t := es.foldl (fun s (w, v) => s.paramApply w v) s
  { t with nm := { t.nm with snapDirty := t.nm.snapDirty || !es.isEmpty } }

/-- PARAM_SET. -/
def paramSet (mb : Mb) (s : State) : State :=
  s.serve mb (· == 0x0004) (fun l => l % 12 == 0) (fun p s =>
    let es := paramEntries p
    match s.paramFailure 0 es with
    | some (i, w, st) => (.done st (natLe 4 (i + w % 65536 * 65536)), s)
    | none => (.ok, (s.paramsApply es).nmFollow s))
def execParamSet (mb : Mb) (s : State) : Out := done s (paramSet mb s)

end Sys2Proof.Machine
end

