-- ==== Sys2Proof/Machine/Update.lean ====
section
/-! DEFINITION. Field update: staging, checks, the update messages, the owner lock (R392 to R413). Activation itself stands with
the starts.
Choices where the rules leave one open: log entries 18 and 39. -/

namespace Sys2Proof.Machine

/-! Image headers (R398). -/

/-- The PAIR bit. -/
def imgPair (h : List Byte) : Bool := bit (leNat h) 288
/-- RELEASE. -/
def imgRelease (h : List Byte) : Nat := hdrBits h 1599 1536
/-- An RT value in the layout of R41. -/
def rtOf (v : Nat) : RT := { sec := BitVec.ofNat 48 (bits v 111 64), ns := BitVec.ofNat 30 (bits v 61 32), frac := BitVec.ofNat 16 (bits v 15 0) }
/-- Reserved bits of an RT value. -/
def rtReserved (v : Nat) : Bool := bits v 31 16 ≠ 0 || bits v 63 62 ≠ 0 || bits v 127 112 ≠ 0
/-- NOT_BEFORE as an instant of local time. -/
def imgNotBefore (h : List Byte) : Nat := RT.toLt (rtOf (hdrBits h 255 128))
/-- NOT_BEFORE + DEADLINE. -/
def imgDeadline (h : List Byte) : Nat := imgNotBefore h + hdrBits h 287 256 * secUnit

/-! Staging areas (R404, R405, R411). -/

/-- What firmware holds of the record of an area. -/
def Upd.view (u : Upd) (b : Bool) (a : Area) : Upd := if b then { u with areaB := a } else { u with areaA := a }

/-- The record of an area is written in cycle `t`, with the sequence after the one it had, and lock and counter (R404, R409, R411). -/
def Upd.writeRecord (u : Upd) (t : Nat) (b : Bool) (a : Area) : Upd :=
  let a := { a with seq := a.seq + 1, wear := if a.seq.toNat % 2 = 0 then a.wear + 1 else a.wear, lock := u.ownerLock, count := u.lockCount }
  let c := (u.copies b).set (u.copies b).target (some a)
  { (u.view b a) with wroteAt := t, wrote := if u.wroteAt = t then u.wrote ++ [b] else [b] }.setCopies b c

/-- The wear count of an area has reached its limit: no store into it begins (R412). -/
def State.worn (s : State) (b : Bool) : Bool := wearLimit ≤ (s.stage b).wear

/-- Address of a record copy of a staging area (R404; which of the two lies lower is open: DESIGN CHOICE, log entry 18). -/
def copyAddr (b hi : Bool) : Nat := stageBase b + 0x1FF000 + (if hi then 0x800 else 0)

/-- A record write: it goes to the older copy, so the most-written word is written at every second one (R404, R411). In a worn area nothing is stored
(R412). -/
def State.setStage (s : State) (b : Bool) (a : Area) : State :=
  { s with mem := if s.worn b then s.mem else (s.clearMem (copyAddr b (s.upd.copies b).target) 0x800).mem,
           upd := if s.worn b then s.upd.view b a else s.upd.writeRecord s.now b a }

/-- A master has written into a record copy of a staging area: its CRC-32C no longer matches (R404; log entry 18). -/
def State.spoilCopy (s : State) (a : Nat) : State :=
  if 0x02200000 ≤ a && inRecord a then
    let b := decide (0x02400000 ≤ a)
    { s with upd := s.upd.setCopies b ((s.upd.copies b).set (decide (a % 0x1000 ≥ 0x800)) none) }
  else s

/-- An area becomes EMPTY; the session ends. -/
def State.emptyStage (s : State) (b : Bool) : State :=
  let a := s.stage b
  let s := s.setStage b { a with state := .empty, header := [], map := [] }
  { s with upd := { s.upd with owner := none, parts := [], ready := none, actAt := none, goOk := none, goSent := false, relay := none } }

/-- The area that a header is staged in (R399). -/
def State.targetArea (s : State) : Bool :=
  if s.upd.areaA.state = .source && s.upd.areaB.state ≠ .source then true
  else if s.upd.areaB.state = .source && s.upd.areaA.state ≠ .source then false
  else decide (s.upd.areaB.wear < s.upd.areaA.wear)

/-- Payload bytes of an area. -/
def State.stagePayload (s : State) (b : Bool) : List Byte := s.rdB (stageBase b) (imgLen (s.stage b).header)

/-! Conditions (R397). -/

/-- The vehicle moves, by the source of PID 0x0F01. -/
def State.moving (s : State) : Bool :=
  let g := s.param 0x0F01
  if g = 0xFFFF then !s.isl.present || leNat (slice s.isl.latest 28 2) ≠ 0
  else
    let h := s.goHead g
    leNat (slice (s.goData g) 0 2) ≠ 0 || bit h 32 || bit h 34

/-- The battery is low. -/
def State.battLow (s : State) : Bool := s.battMv < s.param 0x0F02

/-- The first condition of R397 that holds, supply excepted. -/
def State.updRefused (s : State) : Option Status :=
  if s.moving then some .refusedMoving else if s.battLow then some .refusedBattery else if s.upd.ownerLock then some .refusedLocked else none

/-- The time source permits a not-before activation (R55). -/
def State.timePermits (s : State) : Bool := s.time.state != .unset && s.time.state != .acquiring

/-! Manifest and records (R402, R403). -/

/-- A manifest entry as a number, with its index. -/
def manifest (p : List Byte) : List Nat := (List.range (byteAt p 0)).map (fun i => leNat (slice p (16 + 32 * i) 32))

/-- KIND, OFFSET and LENGTH of a manifest entry. -/
def compKind (e : Nat) : Nat := bits e 7 0
def compOff (e : Nat) : Nat := bits e 63 32
def compLen (e : Nat) : Nat := bits e 95 64

/-- The record types that a component kind holds. -/
def kindRecords : Nat → List Nat
  | 2 => [0, 1, 2, 3, 4, 5, 6, 8] | 3 => [7] | 4 => [9] | 5 => [10] | _ => []

/-- Apply one record as its command would be; none where the command refuses it. A rule set is written whole and swaps its bank
at once (R197). -/
def State.applyRecord (s : State) (rtype : Nat) (body : List Byte) : Option State :=
  if rtype = 0 then
    if body.length % 12 ≠ 0 || (s.paramFailure 0 (paramEntries body)).isSome then none else some (s.paramsApply (paramEntries body))
  else
    match s.loadObject rtype body with
    | (.done .ok _, t) => some t
    | (.wait _, t) =>
      let t := t.tablesNow
      match t.scr.load with
      | some _ => some (State.rulesNow 8192 t)
      | none => some t
    | _ => none

/-- Apply the records of a component; `n` bounds their number. -/
def State.applyRecords (s : State) (kinds : List Nat) : Nat → List Byte → Option State
  | 0, b => if b.isEmpty then some s else none
  | n + 1, b =>
    if b.isEmpty then some s
    else
      let h := leNat (slice b 0 8)
      let len := bits h 31 8
      if b.length < 8 + len || bits h 63 32 ≠ 0 || !kinds.contains (bits h 7 0) then none
      else
        match s.applyRecord (bits h 7 0) (slice b 8 len) with
        | some t => t.applyRecords kinds n (b.drop (8 + len))
        | none => none

/-- The bytes of a component. -/
def compBytes (p : List Byte) (e : Nat) : List Byte := slice p (compOff e) (compLen e)

/-- Apply the record components of a payload in the order of the manifest: the state, or the entry that fails. -/
def State.applyManifest (s : State) (p : List Byte) : Nat → List Nat → Nat ⊕ State
  | _, [] => .inr s
  | i, e :: es =>
    if (kindRecords (compKind e)).isEmpty then s.applyManifest p (i + 1) es
    else
      let b := compBytes p e
      match s.applyRecords (kindRecords (compKind e)) (b.length / 8 + 1) b with
      | some t => t.applyManifest p (i + 1) es
      | none => .inl i

/-- The first entry of a manifest, by index, that fails a check; the check sees the entries before it. -/
def firstEntry (es : List Nat) (bad : List Nat → Nat → Bool) : Option Nat :=
  ((es.zipIdx).find? (fun (e, i) => bad (es.take i) e)).map (fun x => x.2)

/-- An entry lies outside the payload, in the manifest or over an entry before it, or is not of the form of R402. -/
def entryMisplaced (p : List Byte) (n : Nat) (before : List Nat) (e : Nat) : Bool :=
  let stop := fun (x : Nat) => compOff x + compLen x
  bits e 31 8 ≠ 0 || bits e 255 160 ≠ 0 || compOff e % 16 ≠ 0 || compLen e = 0 || stop e > p.length || compOff e < 16 + 32 * n ||
  before.any (fun x => compOff x < stop e && compOff e < stop x)

/-- The checks of the manifest in the order of R403, then of its records: the entry that fails, if any; an index that the manifest does not give is
open. -/
def checkPayload (h p : List Byte) (open_ : Nat) : Option Nat :=
  let es := manifest p
  let has := fun (k : Nat) => es.any (compKind · = k)
  if p.length < 16 || es.length = 0 || es.length > 16 || (slice p 1 15).any (· ≠ 0) then some open_
  else
    [ firstEntry es (fun l e => l.any (fun x => compKind x = compKind e)),
      if has 1 then none else some open_,
      firstEntry es (fun _ e => compKind e = 0 || compKind e > 6),
      firstEntry es (entryMisplaced p es.length),
      firstEntry es (fun _ e => crc32c (compBytes p e) ≠ bits e 127 96),
      if imgPair h then (if has 6 then none else some open_) else firstEntry es (fun _ e => compKind e = 6),
      match State.reset.applyManifest p 0 es with | .inl i => some i | .inr _ => none ].findSome? id

/-! Update messages (R394 to R403). -/

/-- What an update message is answered: STATUS and NEXT (none: no NEXT), or a block that waits to be stored. -/
inductive UpdReply where
  | done (st : Status) (next : Option Nat)
  | wait
  deriving DecidableEq, Repr

/-- A DoIP message (R392): version 2, type, payload. -/
def doip (type : Nat) (p : List Byte) : List Byte := [0x02, 0xFD] ++ natBe 2 type ++ natBe 4 p.length ++ p

/-- SVC sends a message on its TCP connection. -/
def State.svcSend (s : State) (m : List Byte) : State :=
  match s.upd.svc with
  | some c => { s with upd := { s.upd with svcOut := m, svc := some { c with txNext := c.txNext + BitVec.ofNat 32 m.length } } }
  | none => s

/-- The update engine passes a message from SVC to firmware on MB8 as an UPD_BLOCK request, once MB8 is Idle (R19, R394). A whole
block is longer than a mailbox payload: the engine holds the rest (log entry 40). -/
def State.postUpd (s : State) : State :=
  match s.upd.svcMsg with
  | some p => if s.upd.posted || (s.mb 8).state ≠ .idle then s
              else { s.postRequest 8 0x0F03 (min p.length 0xFFFF) (p.take 1016) with upd.posted := true }
  | none => s

/-- The engine sends the answer to an update message over SVC (R395). -/
def State.svcReply (s : State) (op code : Nat) (pay : List Byte) : State :=
  let tester := match s.upd.svc with | some c => c.tester.toNat | none => 0
  { s with upd.svcMsg := none }.svcSend (doip 0x8001 (natBe 2 (s.param 0x0F06) ++ natBe 2 tester ++ natLe 4 (op + 0x80 + code * 2 ^ 16) ++ pay))

/-- A request of the engine that a master has aborted before firmware took it (R281): the engine sends the STATUS that it finds. Where the
master has also moved MB8 to Idle, the engine makes its request again. -/
def State.relayAborted (s : State) : State :=
  match s.upd.svcMsg with
  | some p =>
    if s.upd.posted && (s.mb 8).state = .done then
      ({ s.takeResponse 8 with upd.posted := false }.noteRefusal .aborted true).svcReply (byteAt p 0) (s.rd (respAddr 8 + 6) 2) (updPayload (some s.nextBlock))
    else if s.upd.posted && (s.mb 8).state = .idle then { s with upd.posted := false }
    else s
  | none => s

/-- The answer to an update message over SVC: firmware writes it to MB8, and the engine sends it (R393 to R395). -/
def State.svcAnswer (s : State) (op : Nat) (st : Status) (next : Option Nat) : State :=
  let s := if s.upd.posted then { (s.complete 8 st (updPayload next)).takeResponse 8 with upd.posted := false } else s
  s.svcReply op st.code (updPayload next)

/-- Run the update message of a source: `mine` selects the OPs of the row; `f` takes the message. -/
def State.updServe (s : State) (src : UpdSrc) (mine : Nat → Bool) (f : List Byte → State → UpdReply × State) : State :=
  match src with
  | .mailbox mb =>
    let op := if s.reqLen mb.val < 4 then 1 else s.rd (reqAddr mb.val + 8) 1
    -- MB8 with a message of the engine holds no request of a mailbox source
    if !mine op || (mb.val = 8 && s.upd.posted) then s
    else
      (s.serve mb (· == 0x0F03) (fun _ => true) (fun p s =>
        match f p s with
        | (.done st next, t) => (.done st (updPayload next), t.noteRefusal st true)
        | (.wait, t) => (.wait .blockStore, t))).nmFollow s
  | .svc =>
    match s.upd.svcMsg with
    | some p =>
      let t := s.postUpd
      if !mine (byteAt p 0) || s.upd.ready.isSome || !t.upd.posted || !t.canTake 8 then s
      else
        match f p t with
        | (.done st next, t) => ((t.noteRefusal st true).svcAnswer (byteAt p 0) st next).nmFollow s
        | (.wait, t) => (t.answer 8 (.wait .blockStore)).nmFollow s
    | none => s

/-- A refusal that carries NEXT. -/
def State.updNo (s : State) (st : Status) : UpdReply × State := (.done st (some s.nextBlock), s)

/-- The session belongs to a source. -/
def State.owns (s : State) (src : UpdSrc) : Bool := s.staged.isSome && s.upd.owner == some src

/-- The checks of R399 in order, supply and token excepted. -/
def State.headerRefused (s : State) (h : List Byte) : Option Status :=
  match s.updRefused with
  | some st => some st
  | none =>
    let nb := hdrBits h 255 128
    let dl := hdrBits h 287 256
    let slot := s.slot (hdrBits h 325 320)
    if hdrBits h 31 0 ≠ 0x4C584192 || hdrBits h 47 32 ≠ 1 || hdrBits h 63 48 ≠ 0x4192 || rtReserved nb || hdrBits h 319 289 ≠ 0 ||
        hdrBits h 383 326 ≠ 0 || hdrBits h 3327 1600 ≠ 0 then some .imageRefused
    else if imgLen h = 0 || imgLen h > 2093056 || dl = 0 || dl > 604800 then some .imageRefused
    else if (rtOf nb).ns.toNat > 999999999 then some .rtInvalid
    else if imgPair h && s.param 0x0D01 = 0 then some .imageRefused
    else if imgVersion h < (match s.upd.active with | some a => imgVersion a | none => 0) then some .imageRefused
    else if slot.state ≠ .committed || slot.use ≠ 2 || !s.rootAccepted (hdrBits h 325 320) (slice h 96 96) ||
        !ecdsaVerify (slice h 96 96) (sha384 (h.take 416)) (slice h 416 96) then some .signatureFailed
    else none

/-- HEADER (R396, R399). A message with no OP of R394 is answered here. -/
def header (src : UpdSrc) (s : State) : State :=
  -- its record write waits for a programming that waits for the token (R443)
  if s.sec.otp.isSome && s.pw.token.holder.isNone then s
  else s.updServe src (fun op => op < 2 || op > 5) (fun p s =>
    let w := leNat (slice p 0 4)
    let h := p.drop 8
    if p.length < 4 then s.updNo .badLength
    else if w % 256 ≠ 1 then s.updNo .badField
    else if p.length ≠ 520 then s.updNo .badLength
    else if w ≠ 1 || leNat (slice p 4 4) ≠ 0 then s.updNo .badField
    -- the conditions are tested at each HEADER, also at one that only moves the session (R397)
    else if s.updRefused.isSome then s.updNo (s.updRefused.getD .ok)
    else if s.staged.isSome && s.stagedArea.header = h then
      let s := { s with upd := { s.upd with owner := some src, parts := [] } }
      (.done .ok (some s.nextBlock), s)
    else if (s.staged.isSome && s.upd.owner.isSome && s.upd.owner ≠ some src) || (s.staged.isSome && s.stagedArea.state ≠ .receiving) then
      s.updNo .state
    else
      let t := s.targetArea
      match s.headerRefused h with
      | some st => s.updNo st
      | none =>
        if s.worn t then s.updNo .state
        else if !s.pw.storeOk then s.updNo .refusedSupply
        else if s.pw.token.holder.isSome then s.updNo .busy
        else
          let s := match s.staged with
            | some b => if b = t then s else s.emptyStage b
            | none => s
          let s := s.setStage t { s.stage t with state := .receiving, header := h, map := [] }
          let s := { s with upd := { s.upd with owner := some src, parts := [], ready := none, actAt := none, goOk := none, goSent := false, relay := none } }
          (.done .ok (some s.nextBlock), s))
def execHeader (src : UpdSrc) (s : State) : Out := done s (header src s)

/-- The partial block of an INDEX is discarded. -/
def State.dropPart (s : State) (i : Nat) : State := { s with upd.parts := s.upd.parts.filter (fun x => x.index ≠ i) }

/-- A complete block (R400): rejected, re-requested, known, refused, or on its way to the store. -/
def State.blockComplete (s : State) (src : UpdSrc) (x : Partial) : UpdReply × State :=
  let s := s.dropPart x.index
  if x.index ≥ imgBlocks s.stagedArea.header then s.updNo .badField
  else if crc32c x.data ≠ x.crc.toNat then
    (.done .ok (some x.index), { s with upd.badCrc := satInc s.upd.badCrc })
  else if s.stagedArea.map.contains x.index then (.done .ok (some s.nextBlock), s)
  else
    match s.updRefused with
    | some st => s.updNo st
    | none =>
      if !s.pw.storeOk then s.updNo .refusedSupply
      else (.wait, { (s.requestToken .staging).2 with upd.ready := some (x, src) })

/-- BLOCK (R394, R400). -/
def block (src : UpdSrc) (s : State) : State :=
  s.updServe src (· == 2) (fun p s =>
    let w := leNat (slice p 0 4)
    let w1 := leNat (slice p 4 4)
    let index := bits w 31 16
    let off := bits w1 12 0
    let last := bit w1 16
    let d := p.drop 12
    let got := match s.upd.parts.find? (fun x => x.index = index) with | some x => x.data | none => []
    let fail := (s.dropPart index).updNo .badField
    if p.length < 16 || p.length % 4 ≠ 0 || p.length > 4108 then s.updNo .badLength
    else if !s.owns src || s.stagedArea.state ≠ .receiving then s.updNo .state
    else if bits w 15 8 ≠ 0 || bits w1 15 13 ≠ 0 || bits w1 31 17 ≠ 0 then fail
    else if off ≠ got.length || off + d.length > 4096 || (last && off + d.length ≠ 4096) then fail
    else
      let x : Partial := { index := index, data := got ++ d, crc := if last then BitVec.ofNat 32 (leNat (slice p 8 4)) else 0 }
      if last then s.blockComplete src x else (.done .ok none, { s with upd.parts := (s.dropPart index).upd.parts ++ [x] }))
def execBlock (src : UpdSrc) (s : State) : Out := done s (block src s)

/-- Answer the message whose block has been stored or refused. -/
def State.blockAnswer (s : State) (src : UpdSrc) (st : Status) : State :=
  let next := some s.nextBlock
  let s := s.noteRefusal st true
  match src with
  | .mailbox _ => s.finishBusy .blockStore st (updPayload next)
  | .svc => s.svcAnswer 2 st next

/-- BLOCK_STORE (R397, R400, R401): under the token, the block and then its map bit are stored. -/
def blockStore (s : State) : State :=
  match s.upd.ready, s.staged with
  | some (x, src), some b =>
    if !s.live || !s.holds .staging then s
    else
      let t := { s with upd.ready := none }.releaseToken .staging
      match s.updRefused with
      | some st => t.blockAnswer src st
      | none =>
      if !s.pw.storeOk then t.blockAnswer src .refusedSupply
      else if s.worn b then t.blockAnswer src .state
      else
        let t := t.wrB (stageBase b + x.index * 4096) x.data
        let a := t.stage b
        (t.setStage b { a with map := a.map ++ [x.index] }).blockAnswer src .ok
  | _, _ => s
def execBlockStore (s : State) : Out := done s (blockStore s)

/-- The partner image of the staged payload (R402, R407). -/
def State.partnerImage (s : State) : List Byte :=
  match s.staged with
  | some b => let p := s.stagePayload b
    match (manifest p).find? (fun e => compKind e = 6) with | some e => compBytes p e | none => []
  | none => []

/-- A message of the primary to the partner's MB6 ends its block (R394). -/
def Relay.last (r : Relay) : Bool := r.off + 1004 ≥ 4096

/-- An update message that carries an image to the partner: HEADER, BLOCK in fragments that fill a mailbox, FINISH (R394, R398). -/
def relayMessage (img : List Byte) (r : Relay) : List Byte :=
  if r.op = 1 then natLe 8 1 ++ slice img 0 512
  else if r.op = 2 then
    let blk := slice (slice img 512 (imgLen img)) (r.block * 4096) 4096
    natLe 4 (2 + r.block * 2 ^ 16) ++ natLe 4 (r.off + (if r.last then 2 ^ 16 else 0)) ++ natLe 4 (if r.last then crc32c blk else 0) ++
      (blk.drop r.off).take 1004
  else natLe 4 3

/-- The primary sends a message of the partner image and awaits its answer (R407). -/
def State.relaySend (s : State) (r : Relay) : State :=
  { s with upd.relay := some r }.sendRecord (mirRecord 7 0 0 0 false (relayMessage s.partnerImage r))

/-- The STATUS of an answer to a message of the partner image: a refusal makes the primary's area EMPTY; after a fragment that does not end its block the
next one follows (R395, R407). -/
def State.relayStatus (s : State) (r : Relay) (code : Nat) : State :=
  if code ≠ 0 then
    match s.staged with
    | some b => if s.stagedArea.state = .verified && imgPair s.stagedArea.header then s.emptyStage b else { s with upd.relay := none }
    | none => { s with upd.relay := none }
  else if r.op = 2 && !r.last then s.relaySend { r with off := r.off + 1004 }
  else s

/-- NEXT of such an answer: that block follows, or FINISH, or the partner image has been sent (R395, R407). -/
def State.relayNext (s : State) (r : Relay) (next : Nat) : State :=
  if r.op = 3 then { s with upd.relay := none }
  else if next = 0xFFFF then s.relaySend { op := 3, block := 0, off := 0 }
  else s.relaySend { op := 2, block := next, off := 0 }

/-- FINISH (R403, R407). Its record write waits while a vault slot is being programmed (R443). -/
def finish (src : UpdSrc) (s : State) : State :=
  if s.sec.otp.isSome then s
  else s.updServe src (· == 3) (fun p s =>
    match s.staged with
    | none => if p.length ≠ 4 then s.updNo .badLength else if leNat p ≠ 3 then s.updNo .badField else s.updNo .state
    | some b =>
      let a := s.stage b
      if p.length ≠ 4 then s.updNo .badLength
      else if leNat p ≠ 3 then s.updNo .badField
      else if !s.owns src || a.state ≠ .receiving || s.nextBlock ≠ 0xFFFF || s.worn b then s.updNo .state
      else
        let pay := s.stagePayload b
        if sha384 pay ≠ slice a.header 48 48 then let s := s.emptyStage b; s.updNo .signatureFailed
        else
          let (x, s) := s.draw
          -- whether RELEASE, NOT_BEFORE or DEADLINE differs from the primary's, which no message carries to the partner, is free (R407; log entry 18)
          let (y, s) := s.draw
          let differs := imgPair a.header && s.secondary && src = .mailbox 6 && y % 2 = 1
          match (checkPayload a.header pay (x % 65536)).orElse (fun _ => if differs then some (x % 65536) else none) with
          | some i => (.done .imageRefused (some i), s.emptyStage b)
          | none =>
            let wait := imgPair a.header && s.pair.role == 1
            let s := s.setStage b { a with state := if wait then .verified else .armed }
            -- the primary sends the partner image over MIR, HEADER first (R407)
            let s := if wait then s.relaySend { op := 1, block := 0, off := 0 } else s
            (.done .ok (some s.nextBlock), s))
def execFinish (src : UpdSrc) (s : State) : Out := done s (finish src s)

/-- CANCEL (R405). Its record write waits while a vault slot is being programmed (R443). -/
def cancel (src : UpdSrc) (s : State) : State :=
  if s.sec.otp.isSome then s
  else s.updServe src (· == 4) (fun p s =>
    if p.length ≠ 4 then s.updNo .badLength
    else if leNat p ≠ 4 then s.updNo .badField
    else
      match s.staged with
      | some b => if s.owns src && !s.worn b then let s := s.emptyStage b; (.done .ok (some s.nextBlock), s) else s.updNo .state
      | none => s.updNo .state)
def execCancel (src : UpdSrc) (s : State) : Out := done s (cancel src s)

/-- GO (R407): only a secondary in ARMED with a PAIR image accepts it. -/
def go (src : UpdSrc) (s : State) : State :=
  s.updServe src (· == 5) (fun p s =>
    let act := leNat (slice p 8 16)
    if p.length ≠ 24 then s.updNo .badLength
    else if leNat (slice p 0 4) ≠ 5 || leNat (slice p 4 4) ≠ 0 || rtReserved act then s.updNo .badField
    else if (rtOf act).ns.toNat > 999999999 then s.updNo .rtInvalid
    -- a start has ended the session's ownership, not the ARMED state (R396, R407)
    else if !s.secondary || !(s.owns src || s.upd.owner.isNone) || s.stagedArea.state ≠ .armed || !imgPair s.stagedArea.header then s.updNo .state
    else (.done .ok (some s.nextBlock), { s with upd.actAt := some (RT.toLt (rtOf act)) }))
def execGo (src : UpdSrc) (s : State) : Out := done s (go src s)

/-- The conditions of R406 hold at this device. -/
def State.mayActivate (s : State) (h : List Byte) : Bool :=
  s.fw && s.time.ltime ≥ imgNotBefore h && s.timePermits && s.updRefused.isNone && s.pw.storeOk && s.pw.token.holder.isNone

/-- PAIR_GO_ISSUE (R407): the primary sends GO with ACT, and again while no answer came at least 1 ms before it. -/
def pairGoIssue (s : State) : State :=
  let a := s.stagedArea
  let due := match s.upd.actAt, s.upd.goOk with
    | some t, some k => decide (k + 1000000 * nsUnit > t)
    | some t, none => decide (s.time.ltime + 1000000 * nsUnit > t)
    | none, _ => true
  if s.staged.isNone || a.state ≠ .armed || !imgPair a.header || s.pair.role ≠ 1 || !s.pair.present || !s.mayActivate a.header ||
      !s.upd.partnerArmed || !s.upd.partnerReady || !due || s.time.ltime > imgDeadline a.header then s
  else
    let act := max (imgNotBefore a.header) (s.time.ltime + 10000000 * nsUnit)
    let s := { s with upd := { s.upd with actAt := some (RT.toLt (ltRT act)), goOk := none, goSent := true } }
    s.sendRecord (mirRecord 7 0 0 0 false (natLe 8 5 ++ rtBytes act))
def execPairGoIssue (s : State) : Out := done s (pairGoIssue s)

/-- ACTIVATION_DEADLINE (R406). -/
def activationDeadline (s : State) : State :=
  match s.staged with
  | some b =>
    let a := s.stage b
    if s.fw && a.state = .armed && s.sec.otp.isNone && s.time.ltime > imgDeadline a.header then
      ({ s.emptyStage b with upd.expired := satInc s.upd.expired }).nmFollow s
    else s
  | none => s
def execActivationDeadline (s : State) : Out := done s (activationDeadline s)

/-- What the primary learns from the partner's answer to UPD_STATUS or to an update message, word by word of the partner's
response buffer (R407). -/
def State.partnerAnswer (s : State) (off : Nat) (w : Word) : State :=
  let a := s.stagedArea
  let u := s.upd
  let v := w.toNat
  if off = 4 then
    if u.goSent then
      { s with upd := { u with goSent := false, goOk := if bits v 31 16 = 0 then some s.time.ltime else none } }
    else match u.relay with | some r => s.relayStatus r (bits v 31 16) | none => s
  else if off = 8 && u.relay.isSome then
    match u.relay with | some r => s.relayNext r (bits v 15 0) | none => s
  else if off = 8 then
    let armed := bits v 2 0 = 3 || bits v 6 4 = 3
    let s := { s with upd := { u with partnerArmed := armed, partnerReady := bits v 18 16 = 0 } }
    match s.staged with
    | some b => if armed && a.state = .verified && imgPair a.header then s.setStage b { a with state := .armed } else s
    | none => s
  else if off = 24 then
    { s with upd := { u with partnerRelease := some (BitVec.ofNat 64 ((u.partnerRelease.getD 0).toNat / 2 ^ 32 * 2 ^ 32 + v)) } }
  else if off = 28 then
    { s with upd := { u with partnerRelease := some (BitVec.ofNat 64 ((u.partnerRelease.getD 0).toNat % 2 ^ 32 + v * 2 ^ 32)) } }
  else s

/-! UPD_STATUS and UPD_LOCK (R409, R413). -/

/-- Code of an area state (R405). -/
def AreaState.code : AreaState → Nat
  | .empty => 0 | .receiving => 1 | .verified => 2 | .armed => 3 | .copying => 4 | .source => 5 | .previous => 6 | .invalid => 7

/-- The response of UPD_STATUS. -/
def State.updStatusBytes (s : State) : List Byte :=
  let u := s.upd
  let owner := match u.owner with | none => 0 | some .svc => 1 | some (.mailbox mb) => 2 + mb.val
  let act := u.active.getD []
  natLe 4 (u.areaA.state.code + u.areaB.state.code * 16 + owner * 2 ^ 8 + b2n u.ownerLock * 2 ^ 16 + b2n s.moving * 2 ^ 17 +
    b2n s.battLow * 2 ^ 18 + b2n u.actRun * 2 ^ 19) ++
  natLe 4 (s.nextBlock + s.stagedArea.map.length * 2 ^ 16) ++ natLe 4 (imgVersion act) ++ natLe 4 (imgVersion s.stagedArea.header) ++
  natLe 8 (imgRelease act) ++ natLe 4 u.last.toNat ++ natLe 4 u.badCrc.toNat ++ natLe 4 u.refusals.toNat ++ natLe 4 u.expired.toNat

/-- UPD_STATUS. -/
def updStatus (mb : Mb) (s : State) : State := s.serve mb (· == 0x0F01) (· == 0) (fun _ s => (.done .ok s.updStatusBytes, s))
def execUpdStatus (mb : Mb) (s : State) : Out := done s (updStatus mb s)

/-- UPD_LOCK: its store waits while a vault slot is being programmed (R443). -/
def updLock (mb : Mb) (s : State) : State :=
  if s.sec.otp.isSome then s
  else s.serve mb (· == 0x0F02) (· == 200) (fun p s =>
    let w := leNat (slice p 0 4)
    let c := leNat (slice p 4 4)
    let pub := slice p 8 96
    let no := fun (st : Status) => (Reply.no st, s.noteRefusal st false)
    if bits w 7 1 ≠ 0 || bits w 31 14 ≠ 0 then no .badField
    else if c ≤ s.upd.lockCount.toNat then no .state
    else if s.slotRefused (bits w 13 8) 2 = some .slotSpoiled then no .slotSpoiled
    else if (s.slotRefused (bits w 13 8) 2).isSome || !s.rootAccepted (bits w 13 8) pub ||
        !ecdsaVerify pub (sha384 (natLe 8 Config.uid.toNat ++ p.take 8)) (slice p 104 96) then no .signatureFailed
    else if !s.pw.storeOk then no .refusedSupply
    else if s.worn false || s.worn true then no .state
    else
      let s := { s with upd := { s.upd with ownerLock := bit w 0, lockCount := BitVec.ofNat 32 c } }
      let s := s.setStage false s.upd.areaA
      (.ok, s.setStage true s.upd.areaB))
def execUpdLock (mb : Mb) (s : State) : Out := done s (updLock mb s)

/-! SVC (R392, R393). The formats of ARP, ICMP, UDP, TCP and DoIP are those of the standards that R392 names (log entry 20). -/

/-- The IPv4 address of SVC, first byte on the wire first. -/
def State.svcIp (s : State) : List Byte :=
  let v := s.param 0x0F07
  natBe 4 (if v = 0 then Config.linkLocal.toNat else v)

/-- VIN, EID and GID with the logical address (R392). -/
def State.vehicleId (s : State) : List Byte :=
  let id := natBe 6 (Config.uid.toNat % 2 ^ 48)
  List.replicate 17 0xFF ++ natBe 2 (s.param 0x0F06) ++ id ++ id ++ [0]

/-- An Ethernet frame of SVC toward `da`. -/
def svcFrame (da : List Byte) (etype : Nat) (p : List Byte) : List Byte := da ++ natBe 6 Config.svcMac.toNat ++ natBe 2 etype ++ p

/-- An IPv4 packet of SVC; identification and life time are open. -/
def State.svcPacket (s : State) (dst : List Byte) (proto : Nat) (p : List Byte) : List Byte × State :=
  let (x, s) := s.draw
  let ip := fun (c : Nat) => [0x45, 0] ++ natBe 2 (20 + p.length) ++ natBe 2 (x % 65536) ++ [0, 0, BitVec.ofNat 8 (1 + x / 65536 % 255), BitVec.ofNat 8 proto] ++
    natBe 2 c ++ s.svcIp ++ dst
  (ip (inetSum (ip 0)) ++ p, s)

/-- Answer an ARP request for the address of SVC. -/
def State.svcArp (s : State) (b : List Byte) (p : Parsed) : State :=
  let o := p.etOff + 2
  if be16 b (o + 6) = 1 && slice b (o + 24) 4 = s.svcIp then
    let r := [0, 1, 8, 0, 6, 4, 0, 2] ++ natBe 6 Config.svcMac.toNat ++ s.svcIp ++ slice b (o + 8) 10
    { s with upd.svcOut := svcFrame (slice b (o + 8) 6) 0x0806 r }
  else s

/-- Answer an ICMP echo request. -/
def State.svcIcmp (s : State) (b : List Byte) (p : Parsed) : State :=
  let n := be16 b (p.ipOff + 2) - 20
  let m := slice b (p.ipOff + 20) n
  if byteAt m 0 = 8 && byteAt m 1 = 0 then
    let r := fun (c : Nat) => [0, 0] ++ natBe 2 c ++ m.drop 4
    let (pk, s) := s.svcPacket p.src 1 (r (inetSum (r 0)))
    { s with upd.svcOut := svcFrame p.sa 0x0800 pk }
  else s

/-- Answer a vehicle identification request on UDP port 13400. -/
def State.svcUdp (s : State) (b : List Byte) (p : Parsed) : State :=
  let m := b.drop (p.ipOff + 28)
  let type := be16 m 2
  let id := natBe 6 (Config.uid.toNat % 2 ^ 48)
  let ask := type = 1 || (type = 2 && slice m 8 6 = id) || (type = 3 && slice m 8 17 = List.replicate 17 0xFF)
  if p.dport = 13400 && ask then
    let r := doip 4 s.vehicleId
    let (pk, s) := s.svcPacket p.src 17 (natBe 2 13400 ++ natBe 2 p.sport ++ natBe 2 (8 + r.length) ++ [0, 0] ++ r)
    { s with upd.svcOut := svcFrame p.sa 0x0800 pk }
  else s

/-- One DoIP message of the TCP stream (R392, R393): header type `type`, payload `m`. -/
def State.doipMessage (s : State) (type : Nat) (m : List Byte) : State :=
  match s.upd.svc with
  | none => s
  | some c =>
    let entity := natBe 2 (s.param 0x0F06)
    if type = 0x0005 then
      let kind := byteAt m 2
      let ok := kind < 2
      let c := if ok then { c with routed := true, tester := BitVec.ofNat 16 (be16 m 0) } else c
      { s with upd.svc := some c }.svcSend (doip 6 (slice m 0 2 ++ entity ++ [if ok then 0x10 else 0x06, 0, 0, 0, 0]))
    else if type = 0x0008 then { s with upd.svc := some { c with alive := none } }
    else if type = 0x8001 then
      let user := m.drop 4
      let addr := entity ++ slice m 0 2
      if !c.routed then s.svcSend (doip 0x8003 (addr ++ [0x02]))
      else if slice m 2 2 ≠ entity then s.svcSend (doip 0x8003 (addr ++ [0x03]))
      else if byteAt user 0 = 0 || byteAt user 0 > 5 then s.svcSend (doip 0x8003 (addr ++ [0x08]))
      else ({ s with upd.svcMsg := some user }.svcSend (doip 0x8002 (addr ++ [0]))).postUpd
    else s

/-- Take the complete messages from the received stream; an update message in hand holds the rest back. -/
def State.doipStream (s : State) : Nat → State
  | 0 => s
  | n + 1 =>
    match s.upd.svc with
    | none => s
    | some c =>
      let len := beNat (slice c.buffer 4 4)
      if c.buffer.length < 8 || s.upd.svcMsg.isSome then s
      -- a larger diagnostic message is refused by the generic header negative acknowledgement 0x02
      else if len > 4112 then
        let c := { c with buffer := c.buffer.drop (8 + len), skip := 8 + len - c.buffer.length }
        ({ s with upd.svc := some c }.svcSend (doip 0 [0x02])).doipStream n
      else if c.buffer.length < 8 + len then s
      else ({ s with upd.svc := some { c with buffer := c.buffer.drop (8 + len) } }.doipMessage (be16 c.buffer 2) (slice c.buffer 8 len)).doipStream n

/-- A TCP segment for port 13400: one connection at a time, data in order. -/
def State.svcTcp (s : State) (b : List Byte) (p : Parsed) : State :=
  let o := p.ipOff + 20
  let seq := BitVec.ofNat 32 (beNat (slice b (o + 4) 4))
  let hl := byteAt b (o + 12) / 16 * 4
  let data := slice b (o + hl) (be16 b (p.ipOff + 2) - 20 - hl)
  let peer := BitVec.ofNat 48 (beNat p.src * 65536 + p.sport)
  if p.dport ≠ 13400 then s
  else
    let syn := bit p.flags 1 && !bit p.flags 2
    -- a tester that has left an alive check unanswered for 500 ms has lost its connection to the next one (PRESUMED, log entry 20)
    let lost := match s.upd.svc with
      | some c => syn && c.peer ≠ peer && (match c.alive with | some t => decide (s.now ≥ t + msCycles 500) | none => false)
      | none => false
    match (if lost then none else s.upd.svc) with
    | none =>
      if syn then
        let (x, s) := s.draw
        { s with upd.svc := some { peer := peer, rxNext := seq + 1, txNext := BitVec.ofNat 32 x, buffer := [], skip := 0, routed := false, tester := 0, alive := none } }
      else s
    | some c =>
      -- another tester calls: the one connected is asked whether it is alive
      if c.peer ≠ peer then
        if syn && c.alive.isNone then { s with upd.svc := some { c with alive := some s.now } }.svcSend (doip 7 []) else s
      else if bit p.flags 2 then { s with upd.svc := none }
      else
        let c := if seq = c.rxNext then
            { c with rxNext := seq + BitVec.ofNat 32 data.length, buffer := c.buffer ++ data.drop c.skip, skip := c.skip - data.length }
          else c
        let s := ({ s with upd.svc := some c }).doipStream (c.buffer.length / 8 + 1)
        if bit p.flags 0 && seq + BitVec.ofNat 32 data.length = c.rxNext then { s with upd.svc := none } else s

/-- SVC_FRAME_RECEIVE (R392): a frame without FCS reaches SVC. Its lookup comes after those of the other lookup ports in the cycle (R13). -/
def svcFrameReceive (b : List Byte) (s : State) : State :=
  if !s.fw || s.param 0x0F05 = 0 then s else { s with scr.svcIn := s.scr.svcIn ++ [b] }
def execSvcFrameReceive (bytes : List Byte) (s : State) : Out := done s (svcFrameReceive bytes s)

/-- A frame at SVC is screened at lookup port 25, then handled (R392). -/
def State.svcFrame (s : State) (b : List Byte) : State :=
  if !s.fw || s.param 0x0F05 = 0 then s
  else
    let p := parseFrame b (b.length + 4)
    -- the classified VID is that of the tag (R71, R179); a frame without one has none
    let vid := match p.ctag with | some (_, _, v) => if 1 ≤ v && v ≤ 4094 then v else 0 | none => 0
    let (v, t) := s.screen 25 (frameKey 25 p none vid) (b.length + 4) none .svc b
    if !v.pass then t
    else
      let t :=
        if p.etype = 0x0806 then t.svcArp b p
        else if p.ip ≠ 4 || p.frag || (p.dst ≠ t.svcIp && !(p.proto = 17 && p.dst = [255, 255, 255, 255])) then t
        else if p.proto = 1 then t.svcIcmp b p
        else if p.proto = 17 && p.l4 then t.svcUdp b p
        else if p.proto = 6 && p.l4 then t.svcTcp b p
        else t
      t.nmFollow s

/-- One cycle of the SVC lookup port. -/
def State.svcTick (s : State) : State := s.scr.svcIn.foldl State.svcFrame { s with scr.svcIn := [] }

end Sys2Proof.Machine
end

