-- ==== Sys2Proof/Machine/Regs.lean ====
section
/-! DEFINITION. The internal address map as a master reads it: regions, counters, status registers, the direct window
(R6, R7, R22, R92, R270, R275, R311 to R315 and the register tables of every unit).
Choices where the rules leave one open: log entry 27. -/

namespace Sys2Proof.Machine

/-! Regions (R22). -/

/-- The listed regions: first and last address. -/
def regions : List (Nat × Nat) :=
  [ (0x00000000, 0x0000FFFF), (0x01000000, 0x0141FFFF), (0x02000000, 0x027FFFFF), (0x03000000, 0x03007FFF),
    (0x03010000, 0x0301017F), (0x04000000, 0x04FFFFFF), (0x08000000, 0x08BFFFFF), (0x0A000000, 0x0A02FFFF),
    (0x0A040000, 0x0A0507FF), (0x0B000000, 0x0B17FFFF), (0x0C000000, 0x0C00FFFF), (0x0D000000, 0x0D000FFF),
    (0x0E000000, 0x0E000FFF), (0x0F000000, 0x0F00FFFF) ]

/-- The regions marked RO (R22, R272). -/
def roRegions : List (Nat × Nat) :=
  [ (0x00000000, 0x0000FFFF), (0x02000000, 0x021FFFFF), (0x02780000, 0x027FFFFF), (0x08000000, 0x08BFFFFF),
    (0x0D000000, 0x0D000FFF) ]

/-- An address lies in one of the regions. -/
def inRegions (l : List (Nat × Nat)) (a : Nat) : Bool := l.any (fun r => r.1 ≤ a && a ≤ r.2)

/-- Offset of `a` in an array of `count` blocks of `stride` bytes at `base`: block and offset in it. -/
def blockOf (base stride count a : Nat) : Option (Nat × Nat) :=
  if base ≤ a && a < base + stride * count then some ((a - base) / stride, (a - base) % stride) else none

/-! Counters (R92). -/

/-- One array of counter blocks: base, stride, count, offsets of its 64-bit counters, ranges of its RC words. -/
structure CntBlock where
  base   : Nat
  stride : Nat
  count  : Nat
  wide   : List Nat
  rc     : List (Nat × Nat)   -- first and last offset
  deriving DecidableEq, Repr

/-- Every array of counters of the device. -/
def cntBlocks : List CntBlock :=
  [ ⟨0x0B000000, 0x10000, 10, [0x280, 0x288], [(0x290, 0x2A4)]⟩,
    ⟨0x0B000000, 0x10000, 20, [0x240], [(0x248, 0x26C)]⟩,
    ⟨0x0B000000, 0x10000, 24, [0x100, 0x108, 0x148], [(0x110, 0x144), (0x180, 0x198), (0x208, 0x218), (0x220, 0x220)]⟩,
    ⟨0x0A000000, 0x1000, 32, [0x100, 0x108], [(0x110, 0x150)]⟩,
    ⟨0x0A020000, 0x1000, 16, [0x100], [(0x108, 0x134)]⟩,
    ⟨0x0A040000, 0x10000, 1, [0x100, 0x108, 0x110], [(0x118, 0x140)]⟩,
    ⟨0x04800000, 16, 16384, [0], [(8, 8)]⟩,
    ⟨0x04840000, 32, 2048, [], [(0, 0x18)]⟩,
    ⟨0x04880000, 32, 192, [0], [(0xC, 0x1C)]⟩,
    ⟨0x04890000, 0x20, 1, [], [(8, 0x10), (0x18, 0x18)]⟩,
    ⟨0x04890100, 16, 24, [], [(4, 4)]⟩,
    ⟨0x048A0000, 32, 192, [0, 8], [(0x10, 0x1C)]⟩,
    ⟨0x048B0000, 16, 1280, [], [(0, 0xC)]⟩,
    ⟨0x048C0000, 16, 8192, [0], []⟩,
    ⟨0x048E0000, 32, 4096, [0], [(8, 0x10)]⟩,
    ⟨0x04900000, 0x20, 1, [], [(8, 0x10)]⟩,
    ⟨0x04900100, 0x40, 26, [0], [(8, 0x24)]⟩,
    ⟨0x04920000, 16, 4096, [], [(0, 0xC)]⟩,
    ⟨0x0F008000, 0x40, 1, [8, 0x10], [(0x18, 0x30)]⟩,
    ⟨0x0E000000, 0x20, 1, [], [(0x18, 0x18)]⟩,
    ⟨0x0E000100, 0x24, 1, [], [(4, 4), (0x1C, 0x20)]⟩,
    ⟨0x0C000000, 0x20, 1, [], [(4, 0x10)]⟩ ]

/-- `a` is the low word of a 64-bit counter. -/
def isWide (a : Nat) : Bool :=
  cntBlocks.any (fun b => match blockOf b.base b.stride b.count a with | some (_, o) => b.wide.contains o | none => false)

/-- `a` is a word with access code RC. -/
def isRc (a : Nat) : Bool :=
  cntBlocks.any (fun b => match blockOf b.base b.stride b.count a with
    | some (_, o) => b.rc.any (fun r => r.1 ≤ o && o ≤ r.2)
    | none => false)

/-- Cells held in a confluence store. -/
def State.confHeld (s : State) (p : Nat) : Nat := (s.fab.store.filter (fun c => c.out.val = p)).length

/-- The value of an RC word. Some peaks and one count stand outside the counter file. -/
def State.rcValue (s : State) (a : Nat) : Word :=
  if a = 0x04890008 then BitVec.ofNat 32 s.sw.spillPeak
  else if a = 0x04900008 then BitVec.ofNat 32 s.scr.connPeak
  else if a = 0x0E000018 then s.sec.tamperN
  else
    match blockOf 0x04890100 16 24 a with
    | some (n, 4) => BitVec.ofNat 32 (SMap.get 0 s.sw.inPeak n)
    | _ => s.c32 a

/-- Clear an RC word; a peak returns to the present value (R123). -/
def State.rcClear (s : State) (a : Nat) : State :=
  if a = 0x04890008 then { s with sw.spillPeak := s.spillUsed }
  else if a = 0x04900008 then { s with scr.connPeak := s.connUsed }
  else if a = 0x0E000018 then { s with sec.tamperN := 0 }
  else
    match blockOf 0x04890100 16 24 a, blockOf 0x04880000 32 192 a, blockOf 0x0B000000 0x10000 24 a with
    | some (n, 4), _, _ => { s with sw.inPeak := SMap.set 0 s.sw.inPeak n (s.occ n) }
    | _, some (q, 0xC), _ => s.setC32 a (BitVec.ofNat 32 (s.cls (q / 8) (q % 8)).depth)
    | _, _, some (p, 0x198) => s.setC32 a (BitVec.ofNat 32 (s.confHeld p))
    | _, _, _ => s.setC32 a 0

/-! The direct window (R311 to R315). -/

/-- DW_MB_STATE code of a mailbox (R278). -/
def MbState.code : MbState → Nat
  | .idle => 0 | .pending => 1 | .busy => 2 | .done => 3

/-- DW_STATUS.MODE (R312). -/
def PowerMode.code : PowerMode → Nat
  | .operating => 1 | .failSilent => 2 | _ => 0

/-- DW_STATUS (R312). -/
def State.dwStatus (s : State) : Nat :=
  s.pw.mode.code + 4 * b2n s.pw.fwReady + 8 * b2n s.pw.warm + 2 ^ 4 * s.time.state.code.toNat + 2 ^ 8 * s.angle.state.code.toNat +
  2 ^ 12 * s.nm.state.code + 2 ^ 14 * s.pair.role.toNat + 2 ^ 16 * b2n s.isl.present + 2 ^ 17 * b2n s.pw.fr.first.isSome +
  2 ^ 18 * b2n s.sec.locked + 2 ^ 19 * b2n s.upd.ownerLock

/-- DW_LINK: P22 and P23 read 1 outside fail-silent (R311). -/
def State.dwLink (s : State) : Nat := s.sw.link.toNat % 2 ^ 22 + (if s.pw.mode = .failSilent then 0 else 3 * 2 ^ 22)

/-- The words of a fault-record entry (R315). -/
def faultWords : Option FaultEntry → List Nat
  | some e =>
    let t := ltRT e.ltime
    [e.code.toNat + e.unit.toNat * 2 ^ 16, t.ns.toNat, t.sec.toNat % 2 ^ 32, t.sec.toNat / 2 ^ 32 + e.tstate.toNat * 2 ^ 16,
     e.cycle % 2 ^ 32, e.cycle / 2 ^ 32 % 2 ^ 32] ++ e.detail.map BitVec.toNat
  | none => []

/-- Word 0x0C4 to 0x0FC of the snapshot (R314). -/
def State.snapWord (s : State) (o : Nat) : Nat :=
  let t := ltRT s.snap.ltime
  match o with
  | 0x0C4 => t.frac.toNat
  | 0x0C8 => t.ns.toNat
  | 0x0CC => t.sec.toNat % 2 ^ 32
  | 0x0D0 => t.sec.toNat / 2 ^ 32
  | 0x0D4 => s.snap.cycle % 2 ^ 32
  | 0x0D8 => s.snap.cycle / 2 ^ 32 % 2 ^ 32
  | 0x0DC => s.snap.stamp.toNat % 2 ^ 32
  | 0x0E0 => s.snap.stamp.toNat / 2 ^ 32
  | 0x0E4 => s.snap.tstate.toNat + s.snap.astate.toNat * 2 ^ 4 + s.snap.cause.toNat * 2 ^ 8
  | 0x0E8 => s.snap.omega.toNat
  | 0x0EC => s.snap.offset.toNat
  | 0x0F0 => s.snap.steps.toNat
  | 0x0F4 => s.snap.gm.toNat % 2 ^ 32
  | 0x0F8 => s.snap.gm.toNat / 2 ^ 32
  | 0x0FC => (ts32 s.snap.ltime).toNat
  | _ => 0

/-- The oldest entry of the posted-write error log (R274). -/
def State.pweWord (s : State) (o : Nat) : Nat :=
  match o, s.host.pwe.head? with
  | 0x058, _ => s.host.pwe.length + s.host.pweLost.toNat * 2 ^ 16
  | 0x05C, some e => e.addr.toNat
  | 0x060, some e => e.cause.toNat + 2 ^ 4 * b2n e.spi + 2 ^ 5 * b2n e.split
  | 0x064, some e => e.ts.toNat
  | _, _ => 0

/-- A register of the direct window; write-only registers read zero. -/
def State.dwWord (s : State) (o : Nat) : Nat :=
  if 0x0C4 ≤ o && o ≤ 0x0FC then s.snapWord o
  else if 0x058 ≤ o && o ≤ 0x064 then s.pweWord o
  else if 0x104 ≤ o && o ≤ 0x13C then (faultWords s.pw.fr.first).getD ((o - 0x104) / 4) 0
  else if 0x140 ≤ o && o ≤ 0x178 then (faultWords s.pw.fr.last).getD ((o - 0x140) / 4) 0
  else
    match o with
    | 0x000 => 0x41921F3C
    | 0x004 => Config.siliconStep.toNat + 0x100
    | 0x008 => s.dwStatus
    | 0x00C => if s.pw.fwRan then Config.fwVersion.toNat else 0
    | 0x010 => s.ls.heartbeat.toNat
    | 0x014 => s.pw.cause.toNat + 8 * b2n s.pw.causeFs
    | 0x018 => b2n s.pw.bistDone + 2 * b2n s.pw.bistPass + s.pw.bistBlock.toNat * 2 ^ 8 + s.pw.bistTime.toNat * 2 ^ 16
    | 0x01C => s.pw.dieTemp.toNat + 2 ^ 16 * b2n s.tempAlarm
    | 0x020 => s.battMv + s.pw.battRaw.toNat * 2 ^ 16
    | 0x024 => s.pw.supplyLow.toNat + 2 ^ 8 * b2n s.pw.storeOk
    | 0x028 => s.dwMaint
    | 0x02C => (if s.ls.restarting then s.pair.shown else s.dwPair).toNat
    | 0x030 => s.dw.scratch0.toNat
    | 0x034 => s.dw.scratch1.toNat
    | 0x038 => Config.uid.toNat % 2 ^ 32
    | 0x03C => Config.uid.toNat / 2 ^ 32
    | 0x044 => ((List.range 16).map (fun n => (s.mb n).state.code * 4 ^ n)).sum
    | 0x048 => s.mbDone
    | 0x050 => s.dw.mbIrqEn.toNat
    | 0x054 => s.host.overring.toNat
    | 0x06C => s.host.aperPcie.toNat
    | 0x070 => s.host.aperSpi.toNat
    | 0x074 => s.nm.wakeSrc.toNat + s.nm.wakeChan.toNat * 2 ^ 8
    | 0x078 => if s.isl.present then Config.islandVersion.toNat else 0
    | 0x07C => if s.isl.present then Config.islandChecksum.toNat else 0
    | 0x080 => s.dwIrq
    | 0x084 => s.dw.irqEn.toNat
    | 0x08C => s.dw.irqnMbEn.toNat
    | 0x090 => s.canSum
    | 0x094 => s.linSum
    | 0x098 => s.dwLink
    | 0x09C => s.dw.linkChg.toNat
    | 0x0A0 => s.dw.linkChgEn.toNat
    | 0x0A4 => s.dw.fwEvent.toNat
    | 0x0A8 => s.dw.fwEventEn.toNat
    | 0x0AC => s.dw.portErr.toNat
    | 0x0B0 => s.dw.portErrEn.toNat
    | 0x0B4 => s.dw.irqLat.toNat
    | 0x0B8 => s.dw.gateSum.toNat
    | 0x0BC => s.dw.mrSum.toNat
    | 0x0C0 => s.snap.auto.toNat * 2 + s.snap.count.toNat * 2 ^ 16
    | 0x100 => b2n s.pw.fr.first.isSome + 2 * b2n s.pw.fr.silent + s.pw.fr.count * 2 ^ 8
    | 0x17C => s.pw.fr.starts.toNat
    | _ => 0

/-! Unit registers. -/

/-- GATE_GEN, GATE_STATUS, MM_STATUS and MR_STATUS of a port block (R143, R157, R174). -/
def State.portWord (s : State) (p o : Nat) : Nat :=
  let g := s.gate p
  let m := s.mill p
  let gen := fun (h : Option GateHdr) => match h with | some x => x.gen.toNat | none => 0
  match o with
  | 0x200 => gen g.cur + gen g.pend * 2 ^ 16
  | 0x204 =>
    b2n (g.cur.isSome && s.inForce (0x0420 + p) == 1) + 2 * b2n g.pend.isSome + 4 * b2n (match g.cur with | some h => h.angle | none => false) +
    8 * b2n (s.gateHold p) + g.state.toNat * 2 ^ 8 + g.entry % 1024 * 2 ^ 16
  | 0x21C => (s.egr p).verify.toNat + 4 * b2n (s.mmActive p) + 8 * b2n (s.frameHeld p)
  | 0x270 =>
    if p ≥ 20 then 0
    else
      let crossing := match m.opened with | some x => x.candidate && x.candFrom ≤ s.now && s.now < x.candTo | none => false
      b2n (s.millEnabled p) + 2 * b2n m.opened.isSome + 4 * b2n crossing + m.curCount % 128 * 2 ^ 8 + m.pendCount % 128 * 2 ^ 16 +
      m.lastIdx % 64 * 2 ^ 24
  | _ => 0

/-- CAN_STATUS and the other registers of a CAN channel (R225); its staging buffers stand in memory. -/
def State.canWord (s : State) (n o : Nat) : Nat :=
  let c := s.can n
  if 0x400 ≤ o && o < 0x600 then s.rd (canReg n o) 4
  else
    match o with
    | 0x000 =>
      s.canPstate n + c.errState * 2 ^ 3 + c.lec.toNat * 2 ^ 5 + c.queue.length % 64 * 2 ^ 8 + 2 ^ 14 * b2n c.prio.isSome +
      2 ^ 15 * b2n (s.canDup n) + c.tdcv.toNat * 2 ^ 16
    | 0x004 =>
      (if c.busOff then 255 else c.tec % 256) + c.recErr % 128 * 2 ^ 8 + 2 ^ 15 * b2n (c.recErr ≥ 128) + c.recov % 256 * 2 ^ 16
    | 0x008 => c.irq.toNat
    | 0x00C => c.irqEn.toNat
    | 0x018 => maskOf 4 c.longBusy
    | _ => 0

/-- LIN_STATUS and the other registers of a LIN channel (R238). -/
def State.linWord (s : State) (m o : Nat) : Nat :=
  let l := s.lin m
  match o with
  | 0x000 =>
    s.param (0x0900 + m) + 4 * b2n l.running + 8 * b2n (!l.rets.isEmpty) + l.table.val * 2 ^ 4 + l.entry.val * 2 ^ 8 + 2 ^ 14 * b2n l.pending.isSome +
    (match l.pending with | some (some t) => t.val * 2 ^ 16 | _ => 0)
  | 0x004 => l.irq.toNat
  | 0x008 => l.irqEn.toNat
  | 0x010 => l.baud
  | _ => 0

/-- A register of a check-value unit (R257). -/
def State.cvWord (s : State) (u o : Nat) : Nat :=
  let c := s.cv u
  let half := fun (v : BitVec 64) => if o % 8 = 0 then v.toNat % 2 ^ 32 else v.toNat / 2 ^ 32
  if o < 8 then half c.poly
  else if o < 0x10 then half c.init
  else if o < 0x18 then half c.xor_
  else if o = 0x18 then c.cfg.toNat
  else if 0x20 ≤ o && o < 0x28 then half c.run
  else if 0x38 ≤ o && o < 0x40 then half c.result
  else if o = 0x40 then c.last.toNat
  else 0

/-- Mismatches in the last second (R346). -/
def State.recentMismatches (s : State) : Nat :=
  b2n (match s.ls.last1 with | some t => decide (s.now < t + 800000000) | none => false) +
  b2n (match s.ls.last2 with | some t => decide (s.now < t + 800000000) | none => false)

/-- A register of the always-on domain (R332, R346, R390). -/
def State.aonWord (s : State) (o : Nat) : Nat :=
  let l := s.ls
  match o with
  | 0x000 => 2 * b2n s.nm.accepted
  | 0x004 => s.nm.latch.toNat
  | 0x00C => s.nm.snapSeq.toNat
  | 0x010 => s.nm.slackMs.toNat
  | 0x014 => s.sec.tamper.toNat + s.sec.phase.toNat * 2 ^ 4
  | 0x100 => b2n (l.single || l.testing) + 2 * b2n l.testing + 4 * b2n l.restarting + s.recentMismatches * 2 ^ 3 + 2 ^ 5 * b2n l.half
  | 0x108 => b2n l.lsCore + 2 * b2n l.both + l.nbits.toNat * 2 ^ 8
  | 0x10C => l.diff.toNat % 2 ^ 32
  | 0x110 => l.diff.toNat / 2 ^ 32
  | 0x114 => l.cyc.toNat % 2 ^ 32
  | 0x118 => l.cyc.toNat / 2 ^ 32
  | _ => 0

/-- Role in the partner's last heartbeat; 0 when silent (R359). -/
def State.partnerRole (s : State) : Nat :=
  match s.pair.partner with | some h => if s.pair.silent || !s.pair.present then 0 else h.role.toNat | none => 0

/-- A register of the MIR engine (R360). -/
def State.mirWord (s : State) (o : Nat) : Nat :=
  let p := s.pair
  match o with
  | 0x00 =>
    b2n p.lock + 2 * b2n p.present + p.role.toNat * 2 ^ 2 + s.partnerRole * 2 ^ 4 + 2 ^ 6 * b2n (p.lastCmp == 0x1F) +
    2 ^ 7 * b2n s.resyncing + 2 ^ 8 * b2n p.split + 2 ^ 9 * b2n p.cfgDiff
  | 0x04 => s.mirQueue
  | 0x34 => p.tkTs.toNat
  | _ => 0

/-- A status register inside the counter area of the table memories (R123, R125, R200, R201). -/
def State.statWord (s : State) (a : Nat) : Nat :=
  match blockOf 0x04880000 32 192 a, blockOf 0x04890100 16 24 a, blockOf 0x048E0000 32 4096 a with
  | some (q, 8), _, _ => (s.cls (q / 8) (q % 8)).depth
  | _, some (n, 0), _ => s.occ n
  | _, _, some (m, 0x14) => b2n (s.meter m).mar
  | _, _, _ =>
    match a with
    | 0x04890000 => bufCells - ((List.range 24).map s.occ).sum
    | 0x04890004 => s.spillUsed
    | 0x04890014 => s.sw.rsLast.toNat
    | 0x0489001C => s.sw.scrubPos
    | 0x04900000 => b2n s.scr.bank + 2 * b2n s.scr.load.isSome + s.scr.gen.toNat * 2 ^ 16
    | 0x04900004 => s.connUsed
    | _ => 0

/-! Memories. -/

/-- Byte ranges that hold memory: SRAM, checkpoint SRAM, MRAM, mailbox buffers, and the tables of 0x0400_0000 on. -/
def memRanges : List (Nat × Nat) :=
  [ (0x01000000, 0x0141FFFF), (0x02000000, 0x0277FFFF), (0x03000000, 0x03007FFF),
    (0x04000000, 0x04197FFF), (0x04200000, 0x04251FFF), (0x04400000, 0x04460BFF), (0x04470000, 0x04483FFF),
    (0x04500000, 0x047FFFFF), (0x04A00000, 0x04B47FFF), (0x04B50000, 0x04B5FFFF), (0x04C00000, 0x04FFFFFF) ]

/-- A byte of memory as a master reads it. -/
def State.busByte (s : State) (a : Nat) : Byte :=
  if inRecord a then s.recordByte a
  else if 0x02600000 ≤ a && a < 0x02780000 then s.storeByte a
  else s.rd8 a

/-- A word of memory as a master reads it. -/
def State.busRd (s : State) (a : Nat) : Nat := leNat ((List.range 4).map (fun i => s.busByte (a + i)))

/-! Reading a word. -/

/-- A word that reading does not change. -/
def State.plainWord (s : State) (a : Nat) : Nat :=
  if a < 0x10000 then leNat ((List.range 4).map (fun i => Config.romByte (a + i)))
  else if inRegions memRanges a then s.busRd a
  else if 0x02780000 ≤ a && a ≤ 0x027FFFFF then leNat ((List.range 4).map (fun i => s.sealedByte (a - 0x02780000 + i)))
  else if 0x03010000 ≤ a && a ≤ 0x0301017F then s.dwWord (a - 0x03010000)
  else if 0x04800000 ≤ a && a ≤ 0x0493FFFF then s.statWord a
  else if 0x0A000000 ≤ a && a ≤ 0x0A01FFFF then s.canWord ((a - 0x0A000000) / 0x1000) (a % 0x1000)
  else if 0x0A020000 ≤ a && a ≤ 0x0A02FFFF then s.linWord ((a - 0x0A020000) / 0x1000) (a % 0x1000)
  else if a = 0x0A040000 then s.cyclicAfter 4096 []
  else if 0x0A050000 ≤ a && a ≤ 0x0A0507FF then s.cvWord ((a - 0x0A050000) / 0x100) (a % 0x100)
  else if 0x0B000000 ≤ a && a ≤ 0x0B17FFFF then s.portWord ((a - 0x0B000000) / 0x10000) (a % 0x10000)
  else if 0x0C000000 ≤ a && a ≤ 0x0C00FFFF then leNat ((List.range 4).map (fun i => s.secByte (a - 0x0C000000 + i)))
  else if 0x0D000000 ≤ a && a ≤ 0x0D000FFF then leNat ((List.range 4).map (fun i => s.islandByte (a - 0x0D000000 + i)))
  else if 0x0E000000 ≤ a && a ≤ 0x0E000FFF then s.aonWord (a - 0x0E000000)
  else if 0x0F008000 ≤ a && a ≤ 0x0F00803F then s.mirWord (a - 0x0F008000)
  else 0

/-- Read a word of the packet buffer: the half-cell is decoded, and only the corrected data is returned (R22, R97). -/
def State.readBuffer (s : State) (a : Nat) : Word × State :=
  let h := (a - 0x08000000) / 32
  let base := 0x08000000 + h * 32
  match decodeHalf (codeword (s.rdB base 32) (SMap.get 0 s.check h)) with
  | (some (w, n), _) =>
    (BitVec.ofNat 32 (leNat (((w.map (BitVec.ofNat 8)).drop (a - base)).take 4)), if n = 0 then s else s.noteCorrected h n 2)
  | (none, y) => (0, s.deviceFault 0x0101 2 [h, 0xFF, y])

/-- RECOV while recovery sequences are being counted: how far it has come is open, and it does not fall (R222, R225). -/
def State.seeRecov (s : State) (a : Nat) : State :=
  match blockOf 0x0A000000 0x1000 32 a with
  | some (n, 4) =>
    let c := s.can n
    if c.recovering && c.recov < 128 then
      let (x, s) := s.draw
      s.setCan n { c with recov := c.recov + x % (128 - c.recov) }
    else s
  | _ => s

/-- Read a word: its value, and the state after the side effects of the read. `peek` leaves RC fields as they are (R268);
the low word of a 64-bit counter latches its high word with or without it (R275). -/
def State.readWord (s : State) (a : Nat) (peek : Bool) : Word × State :=
  if isWide a then
    let v := s.c64 a
    (BitVec.ofNat 32 v.toNat, { s with hiLatch := SMap.set 0 s.hiLatch a (BitVec.ofNat 32 (v.toNat / 2 ^ 32)) })
  else if a ≥ 4 && isWide (a - 4) then (SMap.get 0 s.hiLatch (a - 4), s)
  else if isRc a then (s.rcValue a, if peek then s else s.rcClear a)
  else if 0x08000000 ≤ a && a ≤ 0x08BFFFFF then s.readBuffer a
  else
    let s := s.seeRecov a
    (BitVec.ofNat 32 (s.plainWord a), s)

end Sys2Proof.Machine
end

