-- ==== Sys2Proof/Machine/Host.lean ====
section
/-! DEFINITION. Writes over the interconnect and the two host bridges (R6, R7, R19 to R22, R263 to R275, R313, R314).
Choices where the rules leave one open: log entry 21. -/

namespace Sys2Proof.Machine

/-! Reserved bits (R6). -/

/-- Table layouts: base, entry bytes, entries, fields whose bits are reserved in every entry. -/
def tableReserved : List (Nat × Nat × Nat × List (Nat × Nat)) :=
  [ (0x04000000, 64, 16384, [(303, 303), (319, 318), (327, 323), (367, 366), (383, 382), (415, 407), (447, 440), (479, 473), (511, 504)]),
    (0x04100000, 16, 32768, [(63, 60), (95, 92), (127, 100)]),
    (0x04180000, 16, 4096, [(31, 28), (63, 61), (127, 76)]),
    (0x04190000, 16, 2048, [(2, 2), (15, 9), (127, 32)]),
    (0x04200000, 32, 4096, [(255, 133)]),
    (0x04220000, 32, 4096,
      [(7, 7), (19, 19), (31, 26), (55, 53), (63, 63), (75, 74), (79, 77), (111, 109), (119, 117), (127, 123), (159, 157),
       (175, 173), (179, 179), (191, 185), (223, 222), (255, 238)]),
    (0x04250000, 32, 256, [(15, 3), (31, 28), (127, 80), (255, 200)]),
    (0x04400000, 8, 49152, [(15, 8), (63, 48)]),
    (0x04460000, 16, 192, [(15, 14), (31, 19)]),
    (0x04470000, 32, 2560, [(7, 5), (31, 22), (63, 46), (255, 160)]),
    (0x04500000, 160, 16384, [(1035, 1033), (1039, 1039), (1063, 1062), (1279, 1101)]),
    (0x04780000, 256, 2048, [(15, 9), (47, 35), (63, 61), (159, 144), (207, 207), (2047, 1287)]),
    (0x04A00000, 128, 4096, [(31, 30), (63, 40), (95, 66)]),
    (0x04B40000, 32, 1024, [(31, 14), (63, 36), (255, 193)]),
    (0x04B50000, 8, 8192, [(7, 6), (15, 11), (31, 27), (39, 38), (47, 46), (55, 54), (63, 62)]),
    (0x04C00000, 64, 65536, [(11, 9), (63, 53), (95, 83), (511, 416)]) ]

/-- Reserved bits of a word of the direct window that takes writes (R268, R278, R311 to R314). -/
def dwReserved (o : Nat) : Nat :=
  match o with
  | 0x040 | 0x048 | 0x04C | 0x050 | 0x054 | 0x080 | 0x084 | 0x088 | 0x08C | 0x0B4 => 0xFFFF0000
  | 0x06C | 0x070 => 0xFFFFFEF0
  | 0x074 => 0xFFFFE080
  | 0x09C | 0x0A0 | 0x0AC | 0x0B0 | 0x0B8 => 0xFF000000
  | 0x0A4 | 0x0A8 => 0xFFFFFFE0
  | 0x0BC => 0xFFF00000
  | 0x0C0 => 0x0000FFF8
  | _ => 0

/-- Reserved bits of a register of a CAN channel that takes writes (R215, R225). -/
def canReserved (o : Nat) : Nat :=
  if 0x400 ≤ o && o < 0x600 then
    match o % 0x80 with
    | 0x00 => 0x80000000 | 0x08 => 0xFFF80000 | 0x10 => 0xFFFF0000 | _ => 0
  else
    match o with
    | 0x008 | 0x00C => 0xFFFFFF00 | 0x010 => 0xFFFFFFF0 | 0x014 => 0xFFFFFFF8 | _ => 0

/-- The reserved bits of the word at `a`. -/
def reservedBits (a : Nat) : Nat :=
  if 0x03010000 ≤ a && a ≤ 0x0301017F then dwReserved (a - 0x03010000)
  else if 0x0A000000 ≤ a && a ≤ 0x0A01FFFF then canReserved (a % 0x1000)
  else if 0x0A020000 ≤ a && a ≤ 0x0A02FFFF then
    (match a % 0x1000 with | 0x004 | 0x008 => 0xFFFFFFC0 | 0x00C => 0xFFFFFF00 | _ => 0)
  else if 0x0A050000 ≤ a && a ≤ 0x0A0507FF then (if a % 0x100 = 0x18 then 0xFFFFFC00 else 0)
  else if 0x0C003000 ≤ a && a < 0x0C003100 then (if a % 0x40 = 0 then 0xFFFFFFE0 else 0)
  else if 0x0E000000 ≤ a && a ≤ 0x0E00001F then
    (match a - 0x0E000000 with | 0 => 0xFFFFFFFC | 4 => 0xFFFFFE00 | 8 => 0xFFFFFFFE | 0x14 => 0xFFFFFFC0 | _ => 0)
  else
    match blockOf 0x048E0000 32 4096 a with
    | some (_, 0x14) => 0xFFFFFFFE
    | _ =>
      match tableReserved.find? (fun t => t.1 ≤ a && a < t.1 + t.2.1 * t.2.2.1) with
      | some (b, size, _, fields) =>
        let w := (a - b) % size * 8
        maskOf 32 (fun i => fields.any (fun f => f.2 ≤ w + i && w + i ≤ f.1))
      | none => 0

/-- The bits that byte enables pass. -/
def laneMask (be : Nat) : Nat := ((List.range 4).map (fun i => if bit be i then 0xFF * 2 ^ (8 * i) else 0)).sum

/-- A write that sets a reserved bit: its effect is undefined (R6). -/
def setsReserved (a v be : Nat) : Bool := reservedBits a &&& v &&& laneMask be != 0

/-! Writing a word. -/

/-- The value of a RW field after a write. -/
def mergeW (old v be : Nat) : Nat := (old &&& (0xFFFFFFFF ^^^ laneMask be)) ||| (v &&& laneMask be)

/-- The ones of a write. -/
def ones (v be : Nat) : Nat := v &&& laneMask be

/-- The value given to a feed register; bytes that the write does not enable are open. -/
def State.feedValue (s : State) (n v be : Nat) : Nat × State :=
  if be % 2 ^ n = 2 ^ n - 1 then (v, s)
  else
    let (x, s) := s.drawWord
    (mergeW (x.toNat % 2 ^ 32) v be, s)

/-- Remove the oldest entry of the posted-write error log (R274). -/
def State.popPwe (s : State) : State :=
  match s.host.pwe with
  | _ :: r => { s with host := { s.host with pwe := r, pweLost := if r.isEmpty then 0 else s.host.pweLost } }
  | [] => s

/-- Set W1C bits of DW_IRQ (R311). -/
def State.forceIrq (s : State) (v : Nat) : State := s.setIrq (BitVec.ofNat 16 (v &&& 0x3701))

/-- Write DW_SNAP_CTRL (R314). -/
def State.writeSnapCtrl (s : State) (v be : Nat) : State :=
  let auto := BitVec.ofNat 2 (mergeW (s.snap.auto.toNat * 2) v be / 2)
  let s := if bit be 0 then { s with snap := { s.snap with auto := auto, secSeen := s.time.ltime / secUnit } } else s
  if bit (ones v be) 0 then s.capture 0 else s

/-- Write a register of the direct window (R7, R268, R274, R278, R281, R311 to R314). -/
def State.writeDw (s : State) (o v be : Nat) : State :=
  let x := ones v be
  let m16 := fun (old : BitVec 16) => BitVec.ofNat 16 (mergeW old.toNat v be)
  let m24 := fun (old : BitVec 24) => BitVec.ofNat 24 (mergeW old.toNat v be)
  let m32 := fun (old : Word) => BitVec.ofNat 32 (mergeW old.toNat v be)
  match o with
  | 0x030 => { s with dw.scratch0 := m32 s.dw.scratch0 }
  | 0x034 => { s with dw.scratch1 := m32 s.dw.scratch1 }
  | 0x040 => dwMbRing (BitVec.ofNat 16 x) s
  | 0x048 => dwMbDone (BitVec.ofNat 16 x) s
  | 0x04C => dwMbAbort (BitVec.ofNat 16 x) s
  | 0x050 => { s with dw.mbIrqEn := m16 s.dw.mbIrqEn }
  | 0x054 => { s with host.overring := s.host.overring &&& ~~~BitVec.ofNat 16 x }
  | 0x068 => if be = 0 then s else s.popPwe
  | 0x06C => { s with host.aperPcie := m32 s.host.aperPcie &&& 0x10F }
  | 0x070 => { s with host.aperSpi := m32 s.host.aperSpi &&& 0x10F }
  | 0x074 => { s with nm.wakeSrc := s.nm.wakeSrc &&& ~~~BitVec.ofNat 7 x }
  -- a bit set in this cycle stays (R313)
  | 0x080 => { s with dw.irqW1c := s.dw.irqW1c &&& (~~~BitVec.ofNat 16 x ||| (if s.dw.irqAt = s.now then s.dw.irqSet else 0)) }
  | 0x084 => { s with dw.irqEn := m16 s.dw.irqEn }
  | 0x088 => s.forceIrq x
  | 0x08C => { s with dw.irqnMbEn := m16 s.dw.irqnMbEn }
  | 0x09C => { s with dw.linkChg := s.dw.linkChg &&& ~~~BitVec.ofNat 24 x }
  | 0x0A0 => { s with dw.linkChgEn := m24 s.dw.linkChgEn }
  | 0x0A4 => { s with dw.fwEvent := s.dw.fwEvent &&& ~~~BitVec.ofNat 5 x }
  | 0x0A8 => { s with dw.fwEventEn := BitVec.ofNat 5 (mergeW s.dw.fwEventEn.toNat v be) }
  | 0x0AC => { s with dw.portErr := s.dw.portErr &&& ~~~BitVec.ofNat 24 x }
  | 0x0B0 => { s with dw.portErrEn := m24 s.dw.portErrEn }
  | 0x0B4 => { s with dw.irqLat := m16 s.dw.irqLat }
  | 0x0B8 => { s with dw.gateSum := s.dw.gateSum &&& ~~~BitVec.ofNat 24 x }
  | 0x0BC => { s with dw.mrSum := s.dw.mrSum &&& ~~~BitVec.ofNat 20 x }
  | 0x0C0 => s.writeSnapCtrl v be
  | _ => s

/-- RW and W1C bits of a word of a table or staging buffer whose other fields are RO (R211, R215, R230, R234); none: a
word of plain memory. -/
def wordAccess (a : Nat) : Option (Nat × Nat) :=
  match blockOf 0x04A00000 128 4096 a, blockOf 0x04B40000 32 1024 a, blockOf 0x04B50000 8 8192 a with
  | some (_, o), _, _ => some (if o = 0 then 0x3FFFFFFF else if o = 4 then 0xFF else 0, if o = 8 then 3 else 0)
  | _, some (_, o), _ => some (if o = 0 then 0x3FFF else if o = 16 || o = 20 then 0xFFFFFFFF else 0, if o = 4 then 3 else 0)
  | _, _, some (_, o) => some (if o = 0 then 0x07FF073F else 0x3F3F3F3F, 0)
  | _, _, _ =>
    if 0x0A000000 ≤ a && a ≤ 0x0A01FFFF && 0x400 ≤ a % 0x1000 && a % 0x1000 < 0x600 then
      let o := a % 0x80
      some (if o = 0 then 0x7FFFFFFF else if o = 4 || o = 0xC then 0xFFFFFFFF else if o = 8 then 0x7FFFF
            else if o = 0x10 then 0xFFFF else if 0x20 ≤ o && o < 0x60 then 0xFFFFFFFF else 0, 0)
    else none

/-- Write a word that memory holds, by the access codes of its fields. -/
def State.writeMem (s : State) (a v be : Nat) : State :=
  match wordAccess a with
  | some (rwm, w1c) =>
    let old := s.rd a 4
    let x := (old &&& (0xFFFFFFFF ^^^ rwm)) ||| (mergeW old v be &&& rwm)
    s.wr a 4 (x &&& (0xFFFFFFFF ^^^ (ones v be &&& w1c)))
  | none => foldN 4 (fun s i => if bit be i then s.wr (a + i) 1 (v / 2 ^ (8 * i)) else s) s

/-- What follows a write into table memory: LPUB commits, and a changed entry of a mirrored table is sent (R232, R351). -/
def State.afterTable (s s' : State) (a v be : Nat) : State :=
  match blockOf 0x04B40000 32 1024 a, blockOf 0x04100000 16 32768 a, blockOf 0x04780000 256 2048 a, blockOf 0x04C00000 64 65536 a with
  | some (i, 24), _, _, _ => if bit (ones v be) 0 then lpub (i / 64) (i % 64) s' else s'
  | _, some (i, _), _, _ => s'.mirrorMac i
  | _, _, some (g, _), _ => s'.mirrorGo g
  | _, _, _, some (e, _) => s'.noteConn.mirrorConn e (s.rdB (connAddr e) 64)
  | _, _, _, _ => s'

/-- Write CAN_IRQ, CAN_IRQ_EN, CAN_CMD or TX_PUSH (R220, R222, R225). The bits of CAN_CMD act from bit 0 on. -/
def State.writeCan (s : State) (n o v be : Nat) : State :=
  let c := s.can n
  let x := ones v be
  match o with
  | 0x008 => s.setCan n { c with irq := c.irq &&& ~~~BitVec.ofNat 8 x }
  | 0x00C => s.setCan n { c with irqEn := BitVec.ofNat 8 (mergeW c.irqEn.toNat v be) }
  | 0x010 =>
    let s := if bit x 0 then Machine.recover n s else s
    let s := if bit x 1 then abortHead n s else s
    let s := if bit x 2 then abortPrio n s else s
    if bit x 3 then canFlushAll n s else s
  | 0x014 => if bit be 0 then txPush n (x % 4) (bit x 2) s else s
  | _ => s

/-- Write LIN_IRQ, LIN_IRQ_EN or LIN_SCHED (R235, R238). -/
def State.writeLin (s : State) (m o v be : Nat) : State :=
  let l := s.lin m
  match o with
  | 0x004 => s.setLin m { l with irq := l.irq &&& ~~~BitVec.ofNat 6 (ones v be) }
  | 0x008 => s.setLin m { l with irqEn := BitVec.ofNat 6 (mergeW l.irqEn.toNat v be) }
  | 0x00C => if bit be 0 then linSched m (v % 256) s else s
  | _ => s

/-- Write one half of a 64-bit register. -/
def half64 (old : BitVec 64) (hi : Bool) (v be : Nat) : BitVec 64 :=
  let l := old.toNat % 2 ^ 32
  let h := old.toNat / 2 ^ 32
  if hi then BitVec.ofNat 64 (l + mergeW h v be * 2 ^ 32) else BitVec.ofNat 64 (mergeW l v be + h * 2 ^ 32)

/-- Write a register of a check-value unit (R256, R257). -/
def State.writeCv (s : State) (u o v be : Nat) : State :=
  let c := s.cv u
  let hi := o % 8 = 4
  if o < 8 then s.setCv u { c with poly := half64 c.poly hi v be }
  else if o < 0x10 then s.setCv u { c with init := half64 c.init hi v be }
  else if o < 0x18 then s.setCv u { c with xor_ := half64 c.xor_ hi v be }
  else if o = 0x18 then
    let x := mergeW c.cfg.toNat v be
    if 1 ≤ x % 128 && x % 128 ≤ 64 then s.setCv u { c with cfg := BitVec.ofNat 10 x } else s
  else if o = 0x1C then (if be = 0 then s else cvStart u s)
  else if 0x20 ≤ o && o < 0x28 then (if c.cfg.getLsbD 9 then s.setCv u { c with run := half64 c.run hi v be } else s)
  else if be = 0 then s
  else if o = 0x28 then let (x, s) := s.feedValue 1 v be; s.cvFeed u (natLe 1 x)
  else if o = 0x2C then let (x, s) := s.feedValue 2 v be; s.cvFeed u (natLe 2 x)
  else if o = 0x30 then let (x, s) := s.feedValue 4 v be; s.cvFeed u (natLe 4 x)
  else s

/-- Write a register of the security block (R369, R376). Key material is merged inside the block. -/
def State.writeSec (s : State) (o v be : Nat) : State :=
  if 0x2000 ≤ o && o < 0x3000 then
    let w := (o - 0x2000) / 0x80
    let i := (o - 0x2000) % 0x80 / 4
    if i ≥ 24 || be = 0 then s
    else wkMat w i (BitVec.ofNat 32 (mergeW (leNat (slice (s.wk w).key (i * 4) 4)) v be)) s
  else if 0x3000 ≤ o && o < 0x3100 then
    let a := (o - 0x3000) / 0x40
    let x := s.auth a
    if be = 0 then s
    else
      match (o - 0x3000) % 0x40 with
      | 0x00 => s.setAuth a { x with keyIdx := Fin.ofNat 32 (mergeW x.keyIdx.val v be) }
      | 0x04 => authStart a s
      | 0x08 => let (y, s) := s.feedValue 1 v be; authFeed a (natLe 1 y) s
      | 0x0C => let (y, s) := s.feedValue 4 v be; authFeed a (natLe 4 y) s
      | 0x10 => authFinish a s
      | _ => s
  else s

/-- Write a register of the always-on domain (R332, R390). -/
def State.writeAon (s : State) (o v be : Nat) : State :=
  let x := ones v be
  match o with
  | 0x000 => if bit x 0 then commit s else s
  -- in Commit no wake event is cleared before the run that it starts (R322)
  | 0x004 => if s.nm.state = .commit then s else { s with nm.latch := s.nm.latch &&& ~~~BitVec.ofNat 9 x }
  | 0x008 => if bit x 0 then aonSwWake s else s
  | 0x014 => { s with sec.tamper := s.sec.tamper &&& ~~~BitVec.ofNat 4 x }
  | _ => s

/-- The word holds what a warm wake restores (R329): RW fields of the direct window, aperture registers, bus interrupt enables, and
configuration in table memory. -/
def retainedWord (a : Nat) : Bool :=
  inRegions [ (0x03010030, 0x03010037), (0x03010050, 0x03010053), (0x0301006C, 0x03010073), (0x03010084, 0x03010087), (0x0301008C, 0x0301008F),
    (0x030100A0, 0x030100A3), (0x030100A8, 0x030100AB), (0x030100B0, 0x030100B7), (0x030100C0, 0x030100C3), (0x04000000, 0x04197FFF),
    (0x04200000, 0x0423FFFF), (0x04250000, 0x04251FFF), (0x04400000, 0x047FFFFF), (0x04A00000, 0x04A7FFFF), (0x04B40000, 0x04B47FFF),
    (0x04B50000, 0x04B5FFFF) ] a ||
  (0x0A000000 ≤ a && a ≤ 0x0A01FFFF && a % 0x1000 == 0x00C) || (0x0A020000 ≤ a && a ≤ 0x0A02FFFF && a % 0x1000 == 0x008)

/-- Write the word at `a` with byte enables: what the access codes of its target make of it (R7, R22). A change of what a warm wake restores waits
for the rewrite of the snapshot (R329). -/
def State.writeWord (s : State) (a v be : Nat) : State :=
  let s := if retainedWord a then { s with nm := { s.nm with snapDirty := true } } else s
  if 0x03010000 ≤ a && a ≤ 0x0301017F then s.writeDw (a - 0x03010000) v be
  else if inRegions roRegions a then s
  else if 0x0A000000 ≤ a && a ≤ 0x0A01FFFF then
    (if (wordAccess a).isSome then s.writeMem a v be else s.writeCan ((a - 0x0A000000) / 0x1000) (a % 0x1000) v be)
  else if 0x0A020000 ≤ a && a ≤ 0x0A02FFFF then s.writeLin ((a - 0x0A020000) / 0x1000) (a % 0x1000) v be
  else if 0x0A050000 ≤ a && a ≤ 0x0A0507FF then s.writeCv ((a - 0x0A050000) / 0x100) (a % 0x100) v be
  else if 0x0C000000 ≤ a && a ≤ 0x0C00FFFF then s.writeSec (a - 0x0C000000) v be
  else if 0x0E000000 ≤ a && a ≤ 0x0E000FFF then s.writeAon (a - 0x0E000000) v be
  else if inRegions memRanges a then
    let t := s.writeMem a v be
    if 0x02600000 ≤ a && a ≤ 0x0277FFFF then { t with snapshot := none } else (s.afterTable t a v be).spoilCopy a
  else
    match blockOf 0x048E0000 32 4096 a with
    | some (m, 0x14) => if bit (ones v be) 0 then s.setMeter m { s.meter m with mar := false } else s
    | _ => s

/-! Access over the interconnect (R272). -/

/-- The cause with which an access to an internal address fails; 0: it is served. In fail-silent only reads of the direct
window are served (R32). -/
def State.accessCause (s : State) (a : Nat) (isWrite : Bool) : Nat :=
  if s.pw.mode = .failSilent && (isWrite || a < 0x03010000 || a > 0x0301017F) then 4
  else if !inRegions regions a then 1
  else if isWrite && inRegions roRegions a then 2
  else 0

/-- The bridges answer: the main side runs, or the device is fail-silent. -/
def State.bridgeUp (s : State) : Bool := (s.pw.mode == .operating || s.pw.mode == .failSilent) && !s.pw.rstLow

/-- The internal address of a host address; `none` in the first place: it reads zero and ignores writes (R264); in the
second: it is not decoded (R267). -/
def State.target (s : State) (b : Bridge) (sp : Space) (off : Nat) : Option (Option Nat) :=
  let aper := match b with | .pcie => s.host.aperPcie | .spi => s.host.aperSpi
  match sp with
  | .window => if off < 0x180 then some (some (0x03010000 + off)) else match b with | .pcie => some none | .spi => none
  | .mailboxes => if off < 0x8000 then some (some (0x03000000 + off)) else none
  | .aperture => if off < 0x1000000 then some (some (aper.toNat % 16 * 0x1000000 + off)) else none
  | .none_ => none

/-- Log a failed posted write (R265, R274). -/
def State.logPwe (s : State) (b : Bridge) (addr cause : Nat) (split : Bool) : State :=
  if s.host.pwe.length ≥ 32 then { s with host.pweLost := satInc s.host.pweLost }
  else
    let e : PweEntry := { addr := BitVec.ofNat 32 addr, cause := BitVec.ofNat 4 cause, spi := b == .spi, split := split, ts := s.ts }
    let h := s.host
    let h := if s.pw.mode != .failSilent && s.dw.irqEn.getLsbD 0 then h.send 1 else h
    { s with host := { h with pwe := h.pwe ++ [e] } }.irq 0

/-- The address that the log shows: the internal one, or the host's own where none is decoded. -/
def State.loggedAddr (s : State) (b : Bridge) (p : Posted) : Nat :=
  match s.target b p.space p.off with | some (some a) => a | _ => p.off

/-- The cause with which the next part of a posted write fails. -/
def State.partCause (s : State) (b : Bridge) (p : Posted) : Nat :=
  match s.target b p.space p.off with
  | some (some a) => s.accessCause a true
  | some none => if s.pw.mode = .failSilent then 4 else 0
  | none => 1

/-- The next part reaches its target (R270). -/
def State.deliverPart (s : State) (b : Bridge) (p : Posted) (x : Word × BitVec 4) : State :=
  match s.target b p.space p.off with
  | some (some a) => if s.accessCause a true = 0 then s.writeWord a x.1.toNat x.2.toNat else s
  | _ => s

/-- The queue of a bridge. -/
def State.queueOf (s : State) : Bridge → List Posted
  | .pcie => s.host.pcieQ
  | .spi => s.host.spiQ
def State.setQueue (s : State) (b : Bridge) (q : List Posted) : State :=
  match b with
  | .pcie => { s with host.pcieQ := q }
  | .spi => { s with host.spiQ := q }

/-- The next part of the oldest posted write of a bridge would set a reserved bit. -/
def State.postedReserved (s : State) (b : Bridge) : Bool :=
  match s.queueOf b with
  | p :: _ => match p.words, s.target b p.space p.off with
    | x :: _, some (some a) => s.accessCause a true == 0 && setsReserved a x.1.toNat x.2.toNat
    | _, _ => false
  | [] => false

/-- A part of the oldest posted write is over, with cause `c` if it failed. A part that fails does not stop the parts after it, and the
first one that fails makes the write's one entry, as it fails (R270, R273, R274). `s'` is the state after the part. -/
def State.partOver (s s' : State) (b : Bridge) (p : Posted) (q : List Posted) (c : Nat) : State :=
  let s' := if c ≠ 0 && !p.failed then s'.logPwe b (s.loggedAddr b p) c p.split else s'
  match p.words.drop 1 with
  | [] => s'.setQueue b q
  | ws => s'.setQueue b ({ p with off := p.off + 4, words := ws, failed := p.failed || decide (c ≠ 0) } :: q)

/-- The next part of the oldest posted write of a bridge is a TX_PUSH or an LPUB that is held on the interconnect: 64 keys of its source wait at the
gateway lookup port (R194). -/
def State.partHeld (s : State) (b : Bridge) : Bool :=
  64 ≤ s.scr.gw.third.length &&
  match s.queueOf b with
  | p :: _ => (match p.words, s.target b p.space p.off with
    | x :: _, some (some a) => s.accessCause a true == 0 &&
      ((0x0A000000 ≤ a && a ≤ 0x0A01FFFF && a % 0x1000 == 0x014 && bit x.2.toNat 0) ||
       (match blockOf 0x04B40000 32 1024 a with | some (_, 24) => bit (ones x.1.toNat x.2.toNat) 0 | _ => false))
    | _, _ => false)
  | [] => false

/-- Deliver the next part of the oldest posted write of a bridge: another master can act between two parts (R270). A part that is held stays. -/
def State.deliverOne (s : State) (b : Bridge) : State :=
  if s.partHeld b then s else
  match s.queueOf b with
  | p :: q => match p.words with
    | x :: _ => s.partOver ((s.setQueue b q).deliverPart b p x) b p q (s.partCause b p)
    | [] => s.setQueue b q
  | [] => s

/-- The parts that a bridge holds; a write of no word is one. -/
def State.partsOf (s : State) (b : Bridge) : Nat := ((s.queueOf b).map (fun p => max 1 p.words.length)).sum

/-- Deliver every posted write that the bridge holds, oldest first: a read waits for them (R269). -/
def State.deliverAll (s : State) (b : Bridge) : State := foldN (s.partsOf b) (fun s _ => s.deliverOne b) s

/-- Some posted write that the bridge holds sets a reserved bit as it is delivered. -/
def State.drainReserved (b : Bridge) : Nat → State → Bool
  | 0, _ => false
  | n + 1, s => s.postedReserved b || State.drainReserved b n (s.deliverOne b)

/-- Deliver posted writes of a bridge while a read waits for them, up to one that is held or that would set a reserved bit. -/
def State.deliverFree (s : State) (b : Bridge) : State :=
  foldN (s.partsOf b) (fun s _ => if s.postedReserved b then s else s.deliverOne b) s

/-- Run `f` after the posted writes of a bridge; a write among them with a reserved one stops the step (R6). -/
def State.afterPosted (s : State) (b : Bridge) (f : State → State) : Out :=
  if State.drainReserved b (s.partsOf b) s then .fault .reservedOne else done s (f (s.deliverAll b))

/-! PCIe (R263, R264, R270, R273). -/

/-- What a BAR holds. -/
def barSpace : Bar → Space
  | .bar0 => .window
  | .bar2 => .mailboxes
  | .bar4 => .aperture

/-- The endpoint receives requests. -/
def State.pcieUp (s : State) : Bool := s.bridgeUp && s.host.pcieLink

/-- PCIE_MEMORY_WRITE (R269): the bridge grants no credit while its queue is full. -/
def pcieMemoryWrite (bar : Bar) (off : Nat) (ws : List (Word × BitVec 4)) (s : State) : State :=
  if s.pcieUp && s.host.pcieQ.length < 64 then
    { s with host.pcieQ := s.host.pcieQ ++ [{ space := barSpace bar, off := off, words := ws, split := decide (1 < ws.length), failed := false }] }
  else s
def execPcieMemoryWrite (bar : Bar) (off : Nat) (more : List (Word × BitVec 4)) (be : BitVec 4) (v : Word) (s : State) : Out :=
  done s (pcieMemoryWrite bar off ((v, be) :: more) s)

/-- POSTED_WRITE_DELIVER (R269 to R274). -/
def postedWriteDeliver (b : Bridge) (s : State) : State := if s.bridgeUp then s.deliverOne b else s
def execPostedWriteDeliver (b : Bridge) (s : State) : Out :=
  if s.bridgeUp && State.drainReserved b 1 s then .fault .reservedOne else done s (postedWriteDeliver b s)

/-- The target of a read does not answer yet: AUTH_TAG before DONE (R376). -/
def State.readWaits (s : State) (b : Bridge) (sp : Space) (off : Nat) : Bool :=
  match s.target b sp off with
  | some (some a) => 0x0C003000 ≤ a && a < 0x0C003100 && a % 0x40 ≥ 0x20 && a % 0x40 < 0x30 && !(s.auth ((a - 0x0C003000) / 0x40)).done &&
      s.accessCause a false = 0
  | _ => false

/-- Read one word for a bridge: value, cause of failure, and the state after it. PEEK acts in the aperture alone (R268). -/
def State.bridgeRead (s : State) (b : Bridge) (sp : Space) (off : Nat) : Nat × Nat × State :=
  let aper := match b with | .pcie => s.host.aperPcie | .spi => s.host.aperSpi
  match s.target b sp off with
  | some (some a) =>
    let c := s.accessCause a false
    if c ≠ 0 then (0, c, s)
    else
      let (v, s) := s.readWord a (sp == .aperture && aper.getLsbD 8)
      (v.toNat, 0, s)
  | some none => (0, if s.pw.mode = .failSilent then 4 else 0, s)
  | none => (0, 1, s)

/-- The part `r` of a read is served: the read goes on with the next part, and with the last one it completes with its words or with
Completer Abort (R270, R273). -/
def State.readPart (s : State) (r : Reading) : State :=
  let (v, c, s) := s.bridgeRead .pcie r.space r.off
  let ws := r.words ++ [BitVec.ofNat 32 v]
  let c := if r.cause ≠ 0 then r.cause else c
  if r.left ≤ 1 then
    { s with host := { s.host with reading := none, pcieAns := some { words := if c = 0 then ws else [], cause := BitVec.ofNat 4 c } } }
  else { s with host.reading := some { r with off := r.off + 4, left := r.left - 1, words := ws, cause := c } }

/-- The next part of the read in hand, after the posted writes of the bridge: one in an FCLK cycle, so that another master can act between two (R269,
R270; log entry 21). -/
def State.readTick (s : State) : State :=
  match s.host.reading with
  | some r =>
    let s := s.deliverFree .pcie
    if s.host.pcieLink && s.host.pcieQ.isEmpty && !s.readWaits .pcie r.space r.off then s.readPart r else s
  | none => s

/-- The read in hand ends before the next request of the bridge is served. -/
def State.readRest (s : State) : State :=
  foldN (match s.host.reading with | some r => r.left | none => 0) (fun s _ => s.readTick) s

/-- Serve `f` after the read in hand. While that one waits for its target, the endpoint takes no other request (DESIGN CHOICE, log entry 21). -/
def State.afterRead (s : State) (f : State → State) : State :=
  let t := s.readRest
  if t.host.reading.isSome then t else f t

/-- PCIE_MEMORY_READ (R269, R270, R273): its first part is served, unless its target lets it wait, and the others follow. -/
def pcieMemoryRead (bar : Bar) (off n : Nat) (s : State) : State :=
  s.afterRead (fun s =>
    { s with host.reading := some { space := barSpace bar, off := off, left := n, words := [], cause := 0 } }.readTick)
def execPcieMemoryRead (bar : Bar) (off words : Nat) (s : State) : Out :=
  if s.pcieUp then s.afterPosted .pcie (pcieMemoryRead bar off words) else done s s

/-- Size of a BAR and its flags: each is 64-bit, and BAR2 prefetchable (R264). -/
def barShape (i : Nat) : Nat × Nat := if i = 0 then (0x1000, 4) else if i = 1 then (0x8000, 12) else (0x1000000, 4)

/-- The word `v` with the field [hi:lo] at `x`. -/
def withField (v : Word) (hi lo x : Nat) : Word :=
  BitVec.ofNat 32 (v.toNat - bits v.toNat hi lo * 2 ^ lo + x * 2 ^ lo)

/-- A register of a capability that R263 fixes in part: an endpoint with a maximum payload of 256 bytes and function level reset, a link
of ×2 at 16 GT/s without ASPM, MSI-X with 4 vectors, advanced error reporting. The layouts of the capabilities are those of the PCIe Base
Specification (PRESUMED, log entry 21); where they lie is free. -/
def capWord (r : Nat) (v : Word) : Word :=
  if r = Config.pcieExpressCap then withField (withField v 7 0 0x10) 23 20 0
  else if r = Config.pcieExpressCap + 1 then withField (withField v 2 0 1) 28 28 1
  else if r = Config.pcieExpressCap + 3 then withField (withField (withField v 3 0 4) 9 4 2) 11 10 0
  else if r = Config.pcieMsixCap then withField (withField v 7 0 0x11) 26 16 3
  else if r = Config.pcieAerCap then withField v 15 0 0x0001
  else v

/-- A PCIe configuration register: identity and class code, one function of type 0 with capabilities, no INTx, and the BARs (R263, R264). Any
other stands by the PCIe Base Specification, whose layout of the type 0 header is taken (PRESUMED, log entry 21). -/
def State.cfgWord (s : State) (r : Nat) : Word :=
  let v := (SMap.get none s.host.pcieCfg r).getD (Config.pcieConfig r)
  let bar := ((SMap.get none s.host.pcieCfg r).getD 0).toNat
  match r with
  | 0 => 0x41921F3C
  | 1 => v ||| 0x00100000
  | 2 => BitVec.ofNat 32 (0x028000 * 256 + v.toNat % 256)
  | 3 => v &&& 0xFF00FFFF
  | 15 => v &&& 0xFFFF00FF
  | 4 | 6 | 8 => let (size, flags) := barShape ((r - 4) / 2); BitVec.ofNat 32 (bar / size * size + flags)
  | 5 | 7 | 9 => BitVec.ofNat 32 bar
  | _ => if r < 16 then v else capWord r v

/-- PCIE_CONFIGURATION_REQUEST (R263, R269). A write beyond the header may set up MSI-X. -/
def pcieConfigurationRequest (reg : Nat) (w : Option Word) (s : State) : State :=
  s.afterRead (fun s => if !s.host.pcieQ.isEmpty then s else match w with
  | some v =>
    let x := if 4 ≤ reg && reg ≤ 9 then v else Config.pcieStore reg (s.cfgWord reg) v
    { s with host := { s.host with pcieCfg := SMap.set none s.host.pcieCfg reg (some x),
                                   msixOn := if reg < 16 then s.host.msixOn else Config.msixStore reg v s.host.msixOn,
                                   pcieAns := some { words := [], cause := 0 } } }
  | none => { s with host.pcieAns := some { words := [s.cfgWord reg], cause := 0 } })
def execPcieConfigurationRequest (reg : Fin 1024) (w : Option Word) (s : State) : Out :=
  if s.pcieUp then s.afterPosted .pcie (pcieConfigurationRequest reg.val w) else done s s

/-- What a function level reset resets: the bridge, its posted-write queue and its aperture register (R263). -/
def State.resetPcie (s : State) : State :=
  { s with host := { s.host with pcieQ := [], reading := none, aperPcie := 0, pcieAns := none, pcieCfg := [], msixOn := 0, msix3Due := false } }

/-- FUNCTION_LEVEL_RESET (R263). -/
def functionLevelReset (s : State) : State := if s.pcieUp then s.resetPcie else s
def execFunctionLevelReset (s : State) : Out := done s (functionLevelReset s)

/-- PERST_N (R454): low holds the link down and resets the bridge; when it rises the link comes up. An OBJ_DMA in progress
ends with DMA_ERROR (R289). -/
def perstN (low : Bool) (s : State) : State :=
  let s := { s with host.perst := low }
  if !s.bridgeUp then s
  else if low then ({ s.resetPcie with host.pcieLink := false }).dmaFail
  else { s with host.pcieLink := true }
def execPerstN (low : Bool) (s : State) : Out := done s (perstN low s)

/-- PCIE_LINK_LOSS (R289). -/
def pcieLinkLoss (s : State) : State :=
  if s.pcieUp then ({ s with host := { s.host with pcieLink := false, reading := none } }).dmaFail else s
def execPcieLinkLoss (s : State) : Out := done s (pcieLinkLoss s)

/-! Quad-SPI (R266, R267, R269). -/

/-- The range of R267 that holds an address. -/
def spiSpace (a : Nat) : Space × Nat :=
  if a < 0x180 then (.window, a)
  else if 0x10000 ≤ a && a < 0x18000 then (.mailboxes, a - 0x10000)
  else if 0x1000000 ≤ a && a < 0x2000000 then (.aperture, a - 0x1000000)
  else (.none_, a)

/-- Words of a burst that lie in the range of its first word, and the first word beyond it: it fails with cause 1. -/
def spiWords (addr : Nat) (ws : List Word) : List Posted :=
  let sp := (spiSpace addr).1
  let inside := (ws.zipIdx).takeWhile (fun x => sp != .none_ && (spiSpace (addr + 4 * x.2)).1 == sp)
  let all := (ws.zipIdx).take (inside.length + 1)
  all.map (fun (w, i) =>
    let (x, o) := spiSpace (addr + 4 * i)
    { space := if x == sp then x else .none_, off := if x == sp then o else addr + 4 * i, words := [(w, 0xF)], split := false, failed := false })

/-- Accept one word, or log a queue overrun. -/
def State.spiAccept (s : State) (p : Posted) : State :=
  if s.host.spiQ.length ≥ 64 then s.logPwe .spi (s.loggedAddr .spi p) 5 false
  else { s with host.spiQ := s.host.spiQ ++ [p] }

/-- WRITE (R266, R269): each word is a posted write; a misaligned address discards the transaction with cause 6. -/
def spiWrite (addr : Nat) (ws : List Word) (s : State) : State :=
  if !s.bridgeUp then s
  else
  let s := { s with host.spiWait := none }
  if addr % 4 ≠ 0 then
    s.logPwe .spi (s.loggedAddr .spi { space := (spiSpace addr).1, off := (spiSpace addr).2, words := [], split := false, failed := false }) 6 false
  else (spiWords addr ws).foldl State.spiAccept s
def execWrite (addr : Word) (ws : List Word) (s : State) : Out := done s (spiWrite addr.toNat ws s)

/-- Read the words of a READ; what is sent from a failing word on is open. -/
def State.spiReadWords (s : State) (sp : Space) (off : Nat) : Nat → List Byte × State
  | 0 => ([], s)
  | n + 1 =>
    let (v, c, t) := s.bridgeRead .spi sp off
    if c ≠ 0 || s.readWaits .spi sp off then
      let (x, t) := t.draw
      (Config.freeBytes x (4 * (n + 1)), t)
    else
      let (l, t) := t.spiReadWords sp (off + 4) n
      (natLe 4 v ++ l, t)

/-- What a READ sends once it has failed: 0xE0 + cause, and 0xFF (R266, R273). -/
def spiFailed (cause n : Nat) : List Byte := BitVec.ofNat 8 (0xE0 + cause) :: List.replicate (4 * n) 0xFF

/-- READ (R266, R273): status byte 0xA5 and the words, or 0xE0 + cause and 0xFF; `from_` is the cycle of its last address bit. The WAIT bytes
before it are not kept; while the first word has no answer the READ goes on (R376). -/
def State.spiReadFrom (s : State) (addr n from_ : Nat) : State :=
  let s := { s with host.spiWait := none }.deliverFree .spi
  let (sp, off) := spiSpace addr
  let (_, c, _) := s.bridgeRead .spi sp off
  let cause := if addr % 4 ≠ 0 then 6 else c
  if cause ≠ 0 then { s with host.spiOut := spiFailed cause n }
  else if !s.host.spiQ.isEmpty || s.readWaits .spi sp off then
    if s.now ≥ from_ + usCycles 2 then { s with host.spiOut := spiFailed 3 n }
    else { s with host := { s.host with spiOut := [], spiWait := some (addr, n, from_) } }
  else
    let (l, s) := s.spiReadWords sp off n
    { s with host.spiOut := 0xA5 :: l }
def spiRead (addr n : Nat) (s : State) : State := s.spiReadFrom addr n s.now

/-- A READ that waits for its first word: it is served, or 2 µs have passed (R266). -/
def State.spiTick (s : State) : State :=
  match s.host.spiWait with
  | some (addr, n, t) => s.spiReadFrom addr n t
  | none => s
def execRead (addr : Word) (n : Nat) (s : State) : Out :=
  if s.bridgeUp then s.afterPosted .spi (spiRead addr.toNat n) else done s s

/-- STATUS (R266). -/
def spiStatus (s : State) : State :=
  if !s.bridgeUp then s
  else
    let b := b2n (s.pw.mode == .failSilent) + 2 * b2n (!s.host.spiQ.isEmpty) + 4 * b2n (!s.host.pwe.isEmpty)
    { s with host := { s.host with spiOut := [BitVec.ofNat 8 b], spiWait := none } }
def execStatus (s : State) : Out := done s (spiStatus s)

/-- UNKNOWN_INSTRUCTION (R266): discarded and logged with cause 6. The address that the entry shows is open. -/
def unknownInstruction (op : Byte) (s : State) : State :=
  if !s.bridgeUp || op = 0x02 || op = 0x0B || op = 0x05 then s
  else
    let (x, s) := { s with host.spiWait := none }.drawWord
    s.logPwe .spi (x.toNat % 2 ^ 32) 6 false
def execUnknownInstruction (op : Byte) (s : State) : Out := done s (unknownInstruction op s)

/-- TARGET_TIMEOUT (R272, R273): the access that a bridge has in hand fails with cause 3: an open read is answered so, the
next part of the oldest posted write has failed, and its parts after it go on. -/
def targetTimeout (b : Bridge) (isRead : Bool) (s : State) : State :=
  if !s.bridgeUp then s
  else if isRead then
    match b with
    | .pcie => if s.host.pcieLink then { s with host := { s.host with reading := none, pcieAns := some { words := [], cause := 3 } } } else s
    | .spi => { s with host := { s.host with spiOut := [0xE3], spiWait := none } }
  else
    match s.queueOf b with
    | p :: q => s.partOver s b p q 3
    | [] => s
def execTargetTimeout (b : Bridge) (isRead : Bool) (s : State) : Out := done s (targetTimeout b isRead s)

/-! Single registers of the direct window. -/

/-- DW_PWE_POP (R274). -/
def dwPwePop (s : State) : State := if s.live then s.popPwe else s
def execDwPwePop (s : State) : Out := done s (dwPwePop s)

/-- DW_IRQ_FORCE (R311). -/
def execDwIrqForce (v : Word) (s : State) : Out :=
  if s.live && setsReserved 0x03010088 v.toNat 0xF then .fault .reservedOne
  else done s (if s.live then s.forceIrq v.toNat else s)

/-- IRQ_MODERATION_EXPIRY (R313): the edges of the interval are sent in one message. -/
def irqModerationExpiry (s : State) : State :=
  let h := s.host
  match h.lastMsix3 with
  | some t =>
    if s.live && h.msix3Due && h.pcieLink && s.now ≥ t + usCycles s.dw.irqLat.toNat then
      { s with host := { h.send 3 with lastMsix3 := some s.now, msix3Due := false } }
    else s
  | none => s
def execIrqModerationExpiry (s : State) : Out := done s (irqModerationExpiry s)

/-- REGISTER_WRITE (R7, R20 to R22): a master writes a word. An error response goes to the master; a bridge logs it. -/
def registerWrite (m : Master) (a v be : Nat) (s : State) : State :=
  let c := s.accessCause a true
  if c = 0 then (if s.live then s.writeWord a v be else s)
  else if !s.bridgeUp then s
  else
    match m with
    | .pcie => s.logPwe .pcie a c false
    | .spi => s.logPwe .spi a c false
    | _ => s
def execRegisterWrite (m : Master) (addr v : Word) (be : BitVec 4) (s : State) : Out :=
  if s.live && s.accessCause addr.toNat true = 0 && setsReserved addr.toNat v.toNat be.toNat then .fault .reservedOne
  else done s (registerWrite m addr.toNat v.toNat be.toNat s)

/-! DIAG_COUNTERS (R292). -/

/-- The regions whose counters DIAG_COUNTERS reads. -/
def counterRegions : List (Nat × Nat) :=
  [ (0x0B000000, 0x0B17FFFF), (0x0A000000, 0x0A02FFFF), (0x0A040000, 0x0A04FFFF), (0x04800000, 0x0493FFFF),
    (0x0F008000, 0x0F00803F), (0x0E000100, 0x0E000123), (0x0C000000, 0x0C00001F) ]

/-- A request word names no counter that the command may read. -/
def counterBad (w : Nat) : Bool := bit w 1 || (bit w 0 && (w - 1) % 8 ≠ 0) || !inRegions counterRegions (w / 4 * 4)

/-- Read one counter: its entry in the response. -/
def State.readCounter (s : State) (w : Nat) : List Byte × State :=
  let a := w / 4 * 4
  let (l, s) := s.readWord a false
  if bit w 0 then
    let (h, s) := s.readWord (a + 4) false
    (natLe 4 l.toNat ++ natLe 4 h.toNat, s)
  else (natLe 8 l.toNat, s)

/-- DIAG_COUNTERS. -/
def diagCounters (mb : Mb) (s : State) : State :=
  s.serve mb (· == 0x1104) (fun l => l % 4 == 0 && l ≤ 508) (fun p s =>
    let ws := words (p.length / 4) p
    if ws.any counterBad then (.no .badField, s)
    else
      let (out, s) := ws.foldl (fun (acc : List Byte × State) w =>
        let (e, t) := acc.2.readCounter w
        (acc.1 ++ e, t)) ([], s)
      (.done .ok out, s))
def execDiagCounters (mb : Mb) (s : State) : Out := done s (diagCounters mb s)

end Sys2Proof.Machine
end

