-- ==== Sys2Proof/Machine/Lockstep.lean ====
section
/-! DEFINITION. Lockstep compare, checkpoint, restart and comparator injection test (R334 to R346).
Choices where the rules leave one open: log entries 11, 23 and 25. -/

namespace Sys2Proof.Machine

/-- A lockstep register (R346). -/
def lsReg (off : Nat) : Nat := 0x0E000100 + off

/-! Signatures (R335). -/

/-- One core cycle of a signature register. -/
def misrStep (m out64 : BitVec 64) : BitVec 64 :=
  (m <<< 1) ^^^ (if m.getLsbD 63 then 0x1B else 0) ^^^ out64

/-- The signature registers of a core after the cycles of a window. -/
def Core.window (c : Core) (w : CoreWindow) : Core :=
  { misrLead := w.lead.foldl misrStep c.misrLead, misrTrail := w.trail.foldl misrStep c.misrTrail, held := c.held ++ w.writes }

/-- Signature bits that read unequal (R343). -/
def Core.unequal (c : Core) : BitVec 64 := c.misrLead ^^^ c.misrTrail

/-! Checkpoints (R337). -/

/-- Base of a half. -/
def ckptBase (b : Bool) : Nat := if b then 0x01410000 else 0x01400000

/-- SEQ and LEN of a half. -/
def State.ckptSeq (s : State) (b : Bool) : Nat := s.rd (ckptBase b) 4
def State.ckptLen (s : State) (b : Bool) : Nat := s.rd (ckptBase b + 4) 2

/-- A half is valid: LEN in range and CRC good. -/
def State.ckptValid (s : State) (b : Bool) : Bool :=
  let n := s.ckptLen b
  16 ≤ n && n ≤ 65520 && s.rd (ckptBase b + 8) 4 == crc32c (s.rdB (ckptBase b) 8 ++ s.rdB (ckptBase b + 16) n)

/-- SEQ `a` is greater than `b` under serial arithmetic. -/
def newerSeq (a b : Nat) : Bool := let d := (a + 2 ^ 32 - b % 2 ^ 32) % 2 ^ 32; 1 ≤ d && d < 2 ^ 31

/-- The half that holds the newest valid checkpoint. -/
def State.newestCkpt (s : State) : Option Bool :=
  match s.ckptValid false, s.ckptValid true with
  | true, true => some (newerSeq (s.ckptSeq true) (s.ckptSeq false))
  | true, false => some false
  | false, true => some true
  | false, false => none

/-- Write a checkpoint into the half that does not hold the newest one; CRC is the last word written. The first SEQ of a
run is open. -/
def State.writeCkpt (s : State) (body : List Byte) : State :=
  let half := match s.newestCkpt with | some b => !b | none => false
  let (seq, s) := match s.newestCkpt with
    | some b => ((s.ckptSeq b + 1) % 2 ^ 32, s)
    | none => let (x, s) := s.drawWord; (x.toNat % 2 ^ 32, s)
  let h := natLe 4 seq ++ natLe 2 body.length ++ natLe 2 0
  let base := ckptBase half
  ((s.wrB (base + 16) body).wrB base h).wrB (base + 8) (natLe 4 (crc32c (h ++ body)) ++ natLe 4 0)

/-- A checkpoint is due: one for each 1 ms tick of the cycle count, complete within 500 µs of it (R337). -/
def State.ckptDue (s : State) : Bool := s.now % 800000 ≤ 400000 && s.ls.ckptTick != some (s.now / 800000)

/-- CHECKPOINT (R337): firmware writes one. -/
def checkpoint (body : List Byte) (s : State) : State :=
  if s.fw && s.ckptDue && 16 ≤ body.length && body.length ≤ 65520 then
    { s with ls := { s.ls with ckptTick := some (s.now / 800000) } }.writeCkpt body
  else s
def execCheckpoint (body : List Byte) (s : State) : Out := done s (checkpoint body s)

/-! Mismatch and restart (R338 to R340, R442). -/

/-- What a restart does to the token: hardware activities go on, a comparator test and a resync are abandoned, waiting
requests are removed (R442). Updates that waited for the end of the resync are sent. -/
def State.restartToken (s : State) : State :=
  let t := s.pw.token
  let drop := t.holder == some .comparator || t.holder == some .resync
  let s := if t.queue.contains .otp then { s with sec.otp := none } else s
  let s := if t.queue.contains .staging then { s with upd.ready := none } else s
  let s := if t.queue.contains .memtest then { s with host.memtest := none } else s
  let s := { s with pw.token := { t with holder := if drop then none else t.holder, queue := [] }, ls.testing := false }
  match s.pair.resync with
  | some k =>
    let s := s.setMirTable (k.val + 1) { s.mirTable (k.val + 1) with needSync := true, recv := none }
    let q := s.pair.queue
    q.foldl State.sendRecord { s with pair := { s.pair with resync := none, queue := [] } }
  | none => s

/-- Steps 1 to 4 of R338: the release buffers are discarded, the newer valid checkpoint is selected, a Busy mailbox
completes with RESTARTED; without a valid half the device fails silent. -/
def State.restartCores (s : State) : State :=
  let s := if s.ls.restarting then s else { s with pair.shown := s.dwPair }
  let l := { s.ls with core0 := Core.reset, core1 := Core.reset, single := true, restarting := true, coreFrom := s.now, windowN := 0 }
  let s := { s with ls := l }
  match s.newestCkpt with
  | some b => ({ s with ls.half := b }.restartMailboxes).restartToken
  | none => s.deviceFault 0x0205 0 [s.ckptSeq false, s.ckptSeq true]

/-- The two halves of a 64-bit detail. -/
def detail64 (v : Nat) : List Nat := [v % 2 ^ 32, v / 2 ^ 32 % 2 ^ 32]

/-- A compare is unequal: count and record it; the third within one second is a device fault (R338, R340, R346). Which core
LS_LAST names when both checkers saw a mismatch is open. -/
def State.mismatch (s : State) (d0 d1 : BitVec 64) : State :=
  let both := d0 != 0 && d1 != 0
  let (x, s) := if both then s.draw else (if d0 != 0 then 0 else 1, s)
  let core := x % 2 = 1
  let d := if core then d1 else d0
  let n := ((List.range 64).filter (fun i => d.getLsbD i)).length
  let l := s.ls
  let first := l.last2
  let second := l.last1
  let s := { s with ls := { l with last1 := some s.now, last2 := second, lsCore := core, both := both, nbits := BitVec.ofNat 7 n,
                                   diff := d, cyc := BitVec.ofNat 64 s.now, total := satInc l.total } }.bump (lsReg 4)
  match first, second with
  | some t, some u =>
    if s.now < t + 800000000 then s.deviceFault 0x0201 (b2n core) (detail64 d.toNat ++ detail64 t ++ detail64 u)
    else s.restartCores
  | _, _ => s.restartCores

/-! Release (R336). -/

/-- Deliver one released write over the interconnect. -/
def State.release (s : State) (w : HeldWrite) : State :=
  if s.live && s.accessCause w.addr.toNat true = 0 then s.writeWord w.addr.toNat w.data.toNat w.be.toNat else s

/-- A released write sets a reserved bit. -/
def State.releaseReserved (s : State) (w : HeldWrite) : Bool :=
  s.live && s.accessCause w.addr.toNat true == 0 && setsReserved w.addr.toNat w.data.toNat w.be.toNat

/-- Held writes of one core from entry `i` on, with core and buffer entry. -/
def numberHeld (c : Nat) : Nat → List HeldWrite → List (Nat × Nat × HeldWrite)
  | _, [] => []
  | i, w :: l => (c, i, w) :: numberHeld c (i + 1) l

/-- The held writes of both cores in the order in which they reach the interconnect: each core in issue order, core 0 first
in one cycle (R21), with core and buffer entry. -/
def releaseOrder : Nat → List HeldWrite → List HeldWrite → List (Nat × Nat × HeldWrite)
  | i, [], bs => numberHeld 1 i bs
  | i, a :: as, [] => (0, i, a) :: numberHeld 0 (i + 1) as
  | i, a :: as, b :: bs => (0, i, a) :: (1, i, b) :: releaseOrder (i + 1) as bs

/-- Release writes in order, up to an entry that ECC cannot correct: that is a device fault. -/
def State.releaseAll (bad : Nat → Option Nat) : List (Nat × Nat × HeldWrite) → State → Out
  | [], s => .next s
  | (c, i, w) :: l, s =>
    if bad c = some i then .next (s.deviceFault 0x0204 c [i, w.addr.toNat])
    else if s.releaseReserved w then .fault .reservedOne
    else State.releaseAll bad l (s.release w)

/-- The next window has been compared by now: window k is compared in core cycle 1,024k + 1,026; three core cycles pass in two
cycles of FCLK (R24, R335). -/
def State.compareDue (s : State) : Bool := 1024 * s.ls.windowN + 1026 ≤ 3 * (s.now - s.ls.coreFrom) / 2

/-- A read of a window waits for the release of a write to its address that the core issued before it (R336). -/
def readWaits (w : CoreWindow) (r : CoreRead) : Bool :=
  (w.writes.take r.after).any (fun x => x.addr.toNat / 4 == r.addr.toNat / 4)

/-- Reads of a window that meet `p`, in issue order: their side effects. What they return is the core's (R336). -/
def State.coreReads (s : State) (p : CoreRead → Bool) (w : CoreWindow) : State :=
  (w.reads.filter p).foldl (fun s r =>
    if s.live && s.accessCause r.addr.toNat false = 0 then (s.readWord r.addr.toNat false).2 else s) s

/-- LOCKSTEP_COMPARE (R335, R336, R338, R343): the end of one window of both cores. Reads that wait for no write have been made by then,
whatever the compare shows; those that wait are made after the release. -/
def lockstepCompare (w0 w1 : CoreWindow) (s : State) : Out :=
  if !s.live || !s.compareDue then .next s
  else
    let a := s.ls.core0.window w0
    let b := s.ls.core1.window w1
    -- both signatures restart from 0 with the next window
    let s := { s with ls := { s.ls with core0 := Core.reset, core1 := Core.reset, windowN := s.ls.windowN + 1 } }
    let s := (s.coreReads (fun r => !readWaits w0 r) w0).coreReads (fun r => !readWaits w1 r) w1
    if w0.badRail ≠ 0 then .next (s.deviceFault 0x0203 0 (detail64 w0.badRail.toNat))
    else if w1.badRail ≠ 0 then .next (s.deviceFault 0x0203 1 (detail64 w1.badRail.toNat))
    else if a.unequal ≠ 0 || b.unequal ≠ 0 then .next (s.mismatch a.unequal b.unequal)
    else
      let bad := fun c => ((if c = 0 then w0 else w1).eccBad).map Fin.val
      match State.releaseAll bad (releaseOrder 0 a.held b.held) s with
      | .next t => .next ((t.coreReads (readWaits w0) w0).coreReads (readWaits w1) w1)
      | o => o

/-- The outcome of a command that may stop on a reserved bit, with the messages of its effect. -/
def settleOut (s : State) : Out → Out
  | .next t => done s t
  | o => o
def execLockstepCompare (w0 w1 : CoreWindow) (s : State) : Out := settleOut s (lockstepCompare w0 w1 s)

/-! The comparator injection test (R344). -/

/-- The failure that a report shows: a rail pair is invalid, or in window j bit j, and no other, does not read unequal (R343, R344). -/
def cmpFailure (fail : Option CmpReport) : Option CmpReport :=
  fail.filter (fun r => r.badRail ≠ 0 || r.unequal ≠ 1#64 <<< r.window.val)

/-- A failed test is a device fault, and so is an invalid rail pair at one of its compares. `ctx`: 0 cold start, 1 warm wake, 2 restart, 3 in
service, 4 DIAG_CMP_TEST (R343, R436). -/
def State.cmpFault (s : State) (f : CmpReport) (ctx : Nat) : State :=
  if f.badRail ≠ 0 then s.deviceFault 0x0203 f.core.val (detail64 f.badRail.toNat)
  else s.deviceFault 0x0202 f.core.val ([f.window.val] ++ detail64 f.unequal.toNat ++ [ctx])

/-- The in-service test is due and can begin. -/
def State.cmpReady (s : State) : Bool :=
  s.pw.token.holder.isNone && s.nm.state != .commit && (match s.cmpDue with | some d => decide (s.now ≥ d) | none => false)

/-- COMPARATOR_INJECTION_TEST (R344): the test of step 5 of a restart, the one that holds the token, or a due one. -/
def comparatorInjectionTest (fail : Option CmpReport) (s : State) : State :=
  if !s.live then s
  else if s.ls.restarting then
    match cmpFailure fail with
    | some f => s.cmpFault f 2
    | none =>
      { s with ls := { s.ls with restarting := false, single := false },
               dw := { s.dw with fwEvent := s.dw.fwEvent ||| s.dw.fwDue, fwDue := 0 } }.bump (lsReg 0x20)
  else if s.ls.testing && s.holds .comparator then
    let cmd := !s.pw.token.queue.contains .comparator && (match s.host.busy with | some (_, .cmpTest) => true | _ => false)
    match cmpFailure fail with
    | some f => s.cmpFault f (if cmd then 4 else 3)
    | none =>
      let t := ({ s with ls.testing := false }.bump (lsReg 0x1C)).releaseToken .comparator
      if cmd then t.finishBusy .cmpTest .ok [] else t
  else if s.cmpReady then
    match cmpFailure fail with
    | some f => s.cmpFault f 3
    | none => { s with pw.token := { s.pw.token with lastCmp := some s.now } }.bump (lsReg 0x1C)
  else s
def execComparatorInjectionTest (fail : Option CmpReport) (s : State) : Out :=
  done s (comparatorInjectionTest fail s)

end Sys2Proof.Machine
end

