-- ==== Sys2Proof/Machine/Pair.lean ====
section
/-! DEFINITION. The redundant pair: heartbeats, roles, mirror, compare, resync, takeover (R347 to R361).
Choices where the rules leave one open: log entries 26 and 30. -/

namespace Sys2Proof.Machine

/-- The device works as one of a pair (R347). -/
def State.paired (s : State) : Bool := s.live && s.param 0x0D01 == 1

/-- A record with a good CRC has arrived (R348, R360). -/
def State.mirReceived (s : State) : State :=
  { s with pair := { s.pair with lock := true, lastRx := s.now } }.add64 (mirReg 0x10) 1

/-- Mark every mirrored table for a resync (R349, R357). -/
def State.syncAll (s : State) : State :=
  foldN 5 (fun s i => s.setMirTable (i + 1) { s.mirTable (i + 1) with needSync := true }) s

/-- Change the role; DW_FW_EVENT bit 1 marks it (R349). -/
def State.setRole (s : State) (r : BitVec 2) : State :=
  if s.pair.role = r then s else { s with pair.role := r }.fwEvent 1

/-! Tables (R351, R353). -/

/-- Indices of the entries of a table whose VALID is 1: base, entry bytes, end, byte and bit of VALID. -/
def State.validIn (s : State) (base size top byte b : Nat) : List Nat :=
  s.mem.filterMap (fun e => if base ≤ e.1 && e.1 < top && (e.1 - base) % size = byte && e.2.getLsbD b
    then some ((e.1 - base) / size) else none)

/-- Indices of the valid entries of a mirrored table. -/
def State.mirValid (s : State) (t : Nat) : List Nat :=
  match t with
  | 1 => s.validIn 0x04100000 16 0x04180000 11 0
  | 2 => s.validIn 0x04C00000 64 0x05000000 0 0
  | 3 => [0]
  | 4 => s.pair.mirSched.map (fun e => e.1)
  | _ => s.validGos

/-- The network-management entry of the pair: the primary's own, or as the mirror shows it. -/
def State.nmEntry (s : State) : List Byte := if s.secondary then s.pair.mirNm else s.mirrorNmBody

/-- An entry with the fields that are not compared entered as zero (R351). -/
def State.comparedBytes (s : State) (t i : Nat) : List Byte :=
  match t with
  | 1 => natLe 16 (s.rd (macAddr i) 12 &&& (2 ^ 92 - 1 - 0xF * 2 ^ 60))
  | 2 =>
    let w := s.rd (connAddr i) 64
    let w := setBits w 127 96 0
    natLe 64 (if bits w 3 1 = 3 then w else setBits (setBits w 15 12 0) 415 384 0)
  | 3 => s.nmEntry
  | 4 => SMap.get [] s.pair.mirSched i
  | _ =>
    let w := s.goHead i
    let kept := bits w 34 32 * 2 ^ 32 + bits w 59 48 * 2 ^ 48 + bits w 206 160 * 2 ^ 160 + bits w 255 208 * 2 ^ 208
    let data := s.goData i
    let long := (s.goArea i).isSome
    natLe 32 kept ++ fitBytes 224 (if long then [] else data) ++ (if long then data else [])

/-- Version of an entry (R351). -/
def State.entryVersion (s : State) (t i : Nat) : Nat :=
  match t with
  | 2 => s.rd (connAddr i + 8) 2
  | 5 => bits (s.goHead i) 143 128
  | _ => (s.mirVersion t i).toNat

/-- The digest of a mirrored table (R353). -/
def State.mirDigest (s : State) (t : Nat) : BitVec 64 :=
  let l := s.mirValid t
  let sum := l.foldl (fun a i => a + crc32c (natLe 4 i ++ natLe 2 (s.entryVersion t i) ++ s.comparedBytes t i)) 0
  BitVec.ofNat 64 (sum % 2 ^ 32 + l.length * 2 ^ 32)

/-- Judge a table once both digests of a compare are known: two differing compares in succession make it unequal (R353). -/
def State.judge (s : State) (t : Nat) : State :=
  let m := s.mirTable t
  match m.local_, m.remote with
  | some a, some b =>
    let i := t - 1
    if a = b then
      { s with pair.lastCmp := setBit s.pair.lastCmp i true }.setMirTable t
        { m with local_ := none, remote := none, suspect := false, unequal := false, equal := true }
    else
      let s := { s with pair.lastCmp := setBit s.pair.lastCmp i false }
      let m := { m with local_ := none, remote := none, suspect := true, equal := false }
      if !(s.mirTable t).suspect then s.setMirTable t m
      else
        { s with pair.cmpFails := satInc s.pair.cmpFails }.bump (mirReg 0x20) |>.setMirTable t { m with unequal := true, needSync := true }
  | _, _ => s

/-! Takeover and roles (R349, R355, R357, R358). -/

/-- The LIN commanders start their initial table at the next bus idle of their channel (R240, R355). -/
def State.linInitial (s : State) : State :=
  foldN 16 (fun s m =>
    if s.linRole m = 1 && s.linIdle m then s.linFirst m
    else if s.param (0x0900 + m) = 1 && s.param (0x0960 + m) < 8 then s.setLin m { s.lin m with initDue := true }
    else s) s

/-- CAN channels whose bus is not idle go on in restricted operation until it is (R355). -/
def State.canHold (s : State) : State :=
  s.bus.can.foldl (fun s e => if e.2.mode = 1 && !s.canIdle e.1 then s.setCan e.1 { s.can e.1 with hold := true } else s) s

/-- The secondary takes over (R355). -/
def State.takeover (s : State) : State :=
  let s := s.setRole 1
  let s := { s with pair := { s.pair with takeover := true, takeovers := satInc s.pair.takeovers, tkTs := s.ts, readyAt := none } }
  let s := s.canHold.linInitial
  keepAliveSend { s with nm := { s.nm with lastKaTx := none } }

/-- Clear a table that holds bytes in a range. -/
def State.clearTable (s : State) (lo hi : Nat) : State := s.clearMem lo (hi - lo)

/-- The end of a split for the device with the takeover flag: secondary, with MAC and connection tables cleared (R357). -/
def State.yieldRole (s : State) : State :=
  let s := (s.clearTable 0x04100000 0x04180000).clearTable 0x04C00000 0x05000000
  { s.setRole 2 with scr.finSide := [], pair.takeover := false }

/-- A split ends once no table waits for its resync (R360). -/
def State.endSplit (s : State) : State :=
  if (List.range 5).any (fun i => (s.mirTable (i + 1)).needSync) then s else { s with pair.split := false }

/-- What a heartbeat decides for a secondary (R349); `starting`: it is the first one since this device set FW_READY. -/
def State.heartbeatSecondary (s : State) (h : Heartbeat) (fresh starting : Bool) : State :=
  if h.role = 1 then (if fresh then s.syncAll else s)
  else if h.role = 2 && starting then
    let mine := s.param 0x0D02 == 1
    let theirs := h.prefRole == 1
    let lead := if mine = theirs then decide (Config.uid.toNat < h.uid.toNat) else mine
    if lead then (s.setRole 1).syncAll else s
  else s

/-- What a heartbeat decides for a primary (R357); `split`: the partner has taken over while only its side of MIR was silent. -/
def State.heartbeatPrimary (s : State) (h : Heartbeat) (fresh silent split : Bool) : State :=
  if fresh then { s with pair.takeover := false }.syncAll
  else if silent || split then
    if h.role = 1 then
      let s := ({ s with pair.split := true }.bump (mirReg 0x2C)).syncAll
      if s.pair.takeover then s.yieldRole else s
    else s.syncAll
  else s

/-- HEARTBEAT (R348, R349, R357). -/
def heartbeat (h : Heartbeat) (s : State) : State :=
  if !s.paired then s
  else
    let s := s.mirReceived
    let p := s.pair
    let fresh := match p.partner with | some q => q.run != h.run | none => true
    let s := { s with pair := { p with partner := some h, present := true, silent := false, readyAt := none,
                                       cfgDiff := h.cfgGen.toNat != s.param 0x0105 } }
    let taken := fun (q : Heartbeat) => q.role == 1 && q.takeover
    if p.role = 1 then s.heartbeatPrimary h fresh p.silent (taken h && !p.partner.any taken)
    else if p.role = 2 then s.heartbeatSecondary h fresh p.readyAt.isSome
    else s
def execHeartbeat (h : Heartbeat) (s : State) : Out := done s (heartbeat h s)

/-- HEARTBEAT_SEND (R348): one every 1 µs. The places of the fields in the body are open (log entry 30). -/
def heartbeatSend (s : State) : State :=
  if !s.paired || (match s.pair.sentAt with | some t => decide (s.now < t + usCycles 1) | none => false) then s
  else
    let s := { s with pair := { s.pair with sentAt := some s.now } }
    let body := [BitVec.ofNat 8 s.pair.role.toNat, BitVec.ofNat 8 (s.param 0x0D02), BitVec.ofNat 8 (b2n s.pair.takeover), 0, 0, 0, 0, 0] ++
      natLe 8 Config.uid.toNat ++ natLe 4 (s.param 0x0105) ++ natLe 4 s.pair.run.toNat
    s.sendRecord (mirRecord 1 0 0 0 false (fitBytes 32 body))
def execHeartbeatSend (s : State) : Out := done s (heartbeatSend s)

/-- PAIR_ROLE_TIMEOUT (R349): no heartbeat within 20 ms of FW_READY. -/
def pairRoleTimeout (s : State) : State :=
  match s.pair.readyAt with
  | some t => if s.paired && s.pair.role = 2 && s.now ≥ t + msCycles 20 then { s.setRole 1 with pair.readyAt := none } else s
  | none => s
def execPairRoleTimeout (s : State) : Out := done s (pairRoleTimeout s)

/-- PARTNER_SILENCE (R355, R357): no valid record for 4 µs; before that, block lock is lost. -/
def partnerSilence (s : State) : State :=
  if !s.paired || s.pair.silent || s.pair.partner.isNone then s
  else
    let timed := s.now ≥ s.pair.lastRx + usCycles 4
    let (x, s) := if timed then s.draw else (0, s)
    let s := { s with pair := { s.pair with silent := true, present := false, lock := x % 2 = 1 } }
    if s.secondary then (s.bump (mirReg 0x28)).takeover else s
def execPartnerSilence (s : State) : Out := done s (partnerSilence s)

/-- ROLE_CHANGE (R358): the partner has sent the instant at which roles are exchanged. -/
def roleChange (at_ : RT) (s : State) : State :=
  if s.paired then { s.mirReceived with pair.roleAt := some (RT.toLt at_) } else s
def execRoleChange (at_ : RT) (s : State) : Out := done s (roleChange at_ s)

/-- Exchange roles (R358). -/
def State.exchangeRoles (s : State) : State :=
  let s := { s with pair.roleAt := none }
  if s.pair.role = 1 then s.setRole 2 else if s.pair.role = 2 then s.setRole 1 else s

/-! Compare (R353). -/

/-- The mirror compare interval in units of local time. -/
def State.cmpInterval (s : State) : Nat := max 1 (s.param 0x0D04) * 1000000 * nsUnit

/-- MIRROR_COMPARE (R353, R351, R358): at a boundary both devices sweep their tables and send a digest of each; then the
primary sends its schedule positions, and an exchange of roles takes place. -/
def mirrorCompare (s : State) : State :=
  if !s.paired || s.time.ltime % s.cmpInterval ≥ s.time.incr then s
  else
    let s := if s.pair.present && !s.pair.silent && s.pair.role ≠ 0 then
        let s := foldN 5 (fun s i =>
          let t := i + 1
          let d := s.mirDigest t
          let s := s.sendRecord (mirRecord 3 t 0 0 false (natLe 8 d.toNat))
          (s.setMirTable t { s.mirTable t with local_ := some d }).judge t) s
        foldN 24 (fun s p => if (s.gate p).cur.isSome then s.mirrorSched p else s) s
      else s
    match s.pair.roleAt with
    | some t => if s.time.ltime ≥ t then s.exchangeRoles else s
    | none => s
def execMirrorCompare (s : State) : Out := done s (mirrorCompare s)

/-- DIGEST (R353): the partner's digest of a table. -/
def digest (t : Nat) (v : BitVec 64) (s : State) : State :=
  if s.paired then
    let s := s.mirReceived
    (s.setMirTable t { s.mirTable t with remote := some v }).judge t
  else s
def execDigest (table : Fin 5) (v : BitVec 64) (s : State) : Out := done s (digest (table.val + 1) v s)

/-! Entry updates at the secondary (R351). -/

/-- Write a connection entry, with the peak of entries in use. -/
def State.writeConn (s : State) (e : Nat) (b : List Byte) : State := (s.wrB (connAddr e) b).noteConn

/-- The content of a gateway object as the primary holds it; its configuration stays the secondary's own. -/
def State.writeGo (s : State) (g version : Nat) (body : List Byte) : State :=
  let own := s.goHead g
  let new := leNat (slice body 0 32)
  let head := setBits (new - new % 2 ^ 32 + own % 2 ^ 32) 143 128 version
  let area := s.goArea g
  let s := s.wr (goAddr g) 32 head
  -- an update that is not the STALE flag alone begins the object's time anew (R246, R259)
  let s := if bit head 32 then s else { s with bus.goTick := SMap.set 0 s.bus.goTick g s.tick }
  match area with
  | some j => s.wrB (goLong j) (slice body 256 (bits head 203 192))
  | none => s.wrB (goAddr g + 32) (slice body 32 64)

/-- Clear one entry of a mirrored table. -/
def State.clearEntry (s : State) (t i : Nat) : State :=
  match t with
  | 1 => s.wrB (macAddr i) (List.replicate 16 0)
  | 2 => s.writeConn i (List.replicate 64 0)
  | 4 => { s with pair.mirSched := SMap.set [] s.pair.mirSched i [] }
  | 5 => s.wrB (goAddr i + 4) (List.replicate 92 0)
  | _ => s

/-- The secondary follows the network-management state of the mirror (R361). -/
def State.followNm (s : State) (body : List Byte) : State :=
  let map := leNat (slice body 2 32)
  let s := { s with pair.mirNm := fitBytes 34 body }
  let s := foldN 256 (fun s i => if (s.node i).ignored = bit map i then s else s.setNode i { s.node i with ignored := bit map i }) s
  match byteAt body 0 % 4, s.nm.state with
  | 0, .ebb => s.abortEbb 0
  | 1, .awake => s.setNm .ebb
  | 2, .ebb => s.requestCommit
  | 2, .awake => (s.setNm .ebb).requestCommit
  | _, _ => s

/-- Write one update with the received VERSION. -/
def State.applyUpdate (s : State) (h : MirHeader) (body : List Byte) : State :=
  let i := h.index.toNat
  let t := h.table.toNat
  let keep := fun (s : State) => { s with pair.versions := SMap.set 0 s.pair.versions (verKey t i) h.version }
  let s := match (s.mirTable t).recv with
    | some l => if h.valid then s.setMirTable t { s.mirTable t with recv := some (l ++ [i]) } else s
    | none => s
  if t = 1 && i < 32768 then keep (s.wrB (macAddr i) (if h.valid then fitBytes 16 body else List.replicate 16 0))
  else if t = 2 then
    s.writeConn i (if h.valid then splice (fitBytes 64 body) 8 (natLe 2 h.version.toNat) else List.replicate 64 0)
  else if t = 3 && i = 0 then (keep s).followNm body
  else if t = 4 && i < 24 then
    keep { s with pair.mirSched := SMap.set [] s.pair.mirSched i (if h.valid then body else []) }
  else if t = 5 && i < 2048 then (if h.valid then s.writeGo i h.version.toNat body else s.clearEntry 5 i)
  else s

/-- ENTRY_UPDATE (R348, R351): a secondary writes it. -/
def entryUpdate (h : MirHeader) (body : List Byte) (s : State) : State :=
  if !s.paired then s
  else
    let s := s.mirReceived
    if s.secondary then s.applyUpdate h body else s
def execEntryUpdate (h : MirHeader) (body : List Byte) (s : State) : Out := done s (entryUpdate h body s)

/-! Resync (R354). -/

/-- RESYNC_BEGIN at the secondary. -/
def resyncBegin (t : Nat) (s : State) : State :=
  if !s.paired then s
  else
    let s := s.mirReceived
    if s.secondary then s.setMirTable t { s.mirTable t with recv := some [] } else s
def execResyncBegin (table : Fin 5) (s : State) : Out := done s (resyncBegin (table.val + 1) s)

/-- RESYNC_END at the secondary: it clears every entry that it did not receive. -/
def resyncEnd (t : Nat) (s : State) : State :=
  if !s.paired then s
  else
    let s := s.mirReceived
    match s.secondary, (s.mirTable t).recv with
    | true, some l =>
      let s := ((s.mirValid t).filter (fun i => !l.contains i)).foldl (fun s i => s.clearEntry t i) s
      (s.setMirTable t { s.mirTable t with recv := none, needSync := false, suspect := false, unequal := false }).endSplit
    | _, _ => s
def execResyncEnd (table : Fin 5) (s : State) : Out := done s (resyncEnd (table.val + 1) s)

/-- The record of an entry in a resync. -/
def State.entryRecord (s : State) (t i : Nat) : List Byte :=
  let body := match t with
    | 1 => s.rdB (macAddr i) 16
    | 2 => s.rdB (connAddr i) 64
    | 3 => s.mirrorNmBody
    | 4 => SMap.get [] s.pair.mirSched i
    | _ => s.goBody i
  mirRecord 2 t i (s.entryVersion t i) true body

/-- The primary may resync a table. -/
def State.maySync (s : State) (t : Nat) : Bool :=
  s.paired && s.fw && s.pair.role == 1 && s.pair.present && !s.pair.silent && (s.mirTable t).needSync && s.pair.resync.isNone

/-- Send resync begin and every valid entry; updates wait from now on. -/
def State.startSync (s : State) (t : Nat) : State :=
  let s := s.sendRecord (mirRecord 4 t 0 0 false [])
  let s := (s.mirValid t).foldl (fun s i => s.sendRecord (s.entryRecord t i)) s
  -- an overflow during the resync marks the table anew (R352)
  { s with pair.resync := some (Fin.ofNat 5 (t - 1)) }.setMirTable t { s.mirTable t with needSync := false }

/-- RESYNC (R354): firmware of the primary requests the token, and begins once it holds it. -/
def resync (t : Nat) (s : State) : State :=
  if !s.maySync t then s
  else if s.holds .resync then s.startSync t
  else
    match s.requestToken .resync with
    | (.granted, u) => u.startSync t
    | (_, u) => u
def execResync (table : Fin 5) (s : State) : Out := done s (resync (table.val + 1) s)

/-- RESYNC_COMPLETED (R354): resync end, then the updates that waited; the token is released. -/
def resyncCompleted (t : Nat) (s : State) : State :=
  if !s.fw || s.pair.resync ≠ some (Fin.ofNat 5 (t - 1)) then s
  else
    let s := s.sendRecord (mirRecord 5 t 0 0 false [])
    let q := s.pair.queue
    let s := q.foldl State.sendRecord { s with pair := { s.pair with queue := [], resync := none } }
    let s := s.setMirTable t { s.mirTable t with suspect := false, unequal := false }
    ((s.bump (mirReg 0x24)).releaseToken .resync).endSplit
def execResyncCompleted (table : Fin 5) (s : State) : Out := done s (resyncCompleted (table.val + 1) s)

/-! Other records. -/

/-- BAD_RECORD (R348): a record with a bad CRC, or of an unknown type. -/
def badRecord (badCrc : Bool) (s : State) : State :=
  if !s.paired then s else if badCrc then s.bump (mirReg 0x18) else s.mirReceived
def execBadRecord (badCrc : Bool) (s : State) : Out := done s (badRecord badCrc s)

/-- WAKE_REQUEST (R361): the primary treats it as its own. -/
def wakeRequest (s : State) : State :=
  if !s.paired then s
  else
    let s := s.mirReceived
    if s.secondary then s else s.wakeRequest 0
def execWakeRequest (s : State) : Out := done s (wakeRequest s)

/-- The words that the partner's firmware reaches over MIR: buffers of MB6 and MB7, and the doorbells (R19, R347). -/
def mirAddr (a : Nat) : Bool :=
  (0x03003000 ≤ a && a < 0x03004000) || [0x03010040, 0x03010044, 0x03010048, 0x0301004C].contains a

/-- What reaches a word: of a doorbell only MB6 and MB7 (R19, R347). -/
def mirData (a : Nat) (v : Word) : Word := if a < 0x03010000 then v else v &&& 0xC0

/-- The partner's answer, as it comes back to a primary that sends update messages through the partner's MB6 (R407). -/
def State.isAnswer (s : State) (a : Nat) : Bool := s.pair.role == 1 && 0x03003400 ≤ a && a < 0x03003800

/-- MAILBOX_TRANSACTION (R19, R347, R407): a write or a read of the partner. A read is answered in a record. -/
def mailboxTransaction (a : Nat) (w : Option Word) (s : State) : State :=
  let s := s.mirReceived
  match w with
  | some v =>
    if s.isAnswer a then s.partnerAnswer (a - 0x03003400) v
    else if mirAddr a then s.writeWord a (mirData a v).toNat 0xF else s
  | none =>
    if !mirAddr a then s
    else
      let (v, s) := s.readWord a false
      s.sendRecord (mirRecord 7 0 0 0 false (natLe 4 a ++ natLe 4 v.toNat))
def execMailboxTransaction (addr : Word) (w : Option Word) (s : State) : Out :=
  let a := addr.toNat / 4 * 4
  if !s.paired then done s s
  else if (match w with | some v => !s.isAnswer a && mirAddr a && setsReserved a (mirData a v).toNat 0xF | none => false) then .fault .reservedOne
  else done s (mailboxTransaction a w s)

/-! Commands (R358, R359). -/

/-- PAIR_ROLE. -/
def pairRole (mb : Mb) (s : State) : State :=
  s.serve mb (· == 0x0D02) (· == 4) (fun p s =>
    let w := leNat p
    let r := w % 4
    -- no record carries the state of the partner's time source: whether it permits the exchange is free (log entry 57)
    let (x, s') := s.draw
    if w ≥ 4 || r = 0 || r = 3 then (.no .badField, s)
    else if s.pair.role = 0 || s.pair.silent || !s.pair.present || s.pair.lastCmp ≠ 0x1F || s.resyncing ||
        (s.time.state != .free && s.time.state != .locked) then (.no .state, s)
    else if x % 2 = 1 then (.no .state, s')
    else if s.pair.role.toNat = r then (.ok, s')
    else
      let i := s.cmpInterval
      let t := (s.time.ltime + 1000000 * nsUnit + i - 1) / i * i
      (.ok, { s' with pair.roleAt := some t }.sendRecord (mirRecord 6 0 0 0 false (rtBytes t))))
def execPairRole (mb : Mb) (s : State) : Out := done s (pairRole mb s)

/-- The response of PAIR_STATUS. -/
def State.pairBytes (s : State) : List Byte :=
  let p := s.pair
  natLe 4 (p.role.toNat + s.partnerRole * 2 ^ 2 + 2 ^ 4 * b2n p.present + 2 ^ 5 * b2n (p.lastCmp == 0x1F) + 2 ^ 6 * b2n s.resyncing +
    2 ^ 7 * b2n p.split + 2 ^ 8 * b2n p.cfgDiff) ++
  natLe 8 (match p.partner with | some h => h.uid.toNat | none => 0) ++ natLe 4 p.takeovers.toNat ++ natLe 4 p.cmpFails.toNat ++
  natLe 4 p.lastCmp.toNat

/-- PAIR_STATUS. -/
def pairStatus (mb : Mb) (s : State) : State := s.serve mb (· == 0x0D01) (· == 0) (fun _ s => (.done .ok s.pairBytes, s))
def execPairStatus (mb : Mb) (s : State) : Out := done s (pairStatus mb s)

end Sys2Proof.Machine
end

