-- ==== Sys2Proof/Machine/Start.lean ====
section
/-! DEFINITION. Supplies, reset sources, starts, activation, device-fault sources of the supplies and clocks, and the
maintenance diagnostics (R24 to R35, R389, R408, R430 to R448).
Choices where the rules leave one open: log entries 5, 9, 10, 11, 31 and 32. -/

namespace Sys2Proof.Machine

/-! Reset (R430, R431). -/

/-- An address of MRAM (R22). -/
def isMram (a : Nat) : Bool := 0x02000000 ≤ a && a < 0x02800000

/-- The main side as RST_N leaves it; MRAM, OTP, the always-on domain, the island and the JTAG port keep what they hold
(R390, R430, R332). -/
def State.mainReset (s : State) : State :=
  { State.reset with
    pending := s.pending, mem := SMap.keepKeys isMram s.mem, fresh := s.fresh,
    angle := { AngleUnit.reset with encA := s.angle.encA, encB := s.angle.encB },
    host := { HostIf.reset with perst := s.host.perst },
    nm := { Nm.reset with accepted := s.nm.accepted, latch := s.nm.latch, snapSeq := s.nm.snapSeq, slackMs := s.nm.slackMs, chan := s.nm.chan,
                          chanSet := s.nm.chanSet, lines := s.nm.lines, wakeSrc := s.nm.wakeSrc, wakeChan := s.nm.wakeChan },
    snapshot := s.snapshot, pair := { Pair.reset with run := s.pair.run },
    sec := { Sec.reset with slots := s.sec.slots, locked := s.sec.locked, tamper := s.sec.tamper, phase := s.sec.phase,
                            tamperN := s.sec.tamperN },
    upd := { Upd.reset with areaA := s.upd.areaA, areaB := s.upd.areaB, active := s.upd.active, recA := s.upd.recA, recB := s.upd.recB,
                            recActive := s.upd.recActive, ownerLock := s.upd.ownerLock, lockCount := s.upd.lockCount, wearSnap := s.upd.wearSnap },
    isl := { s.isl with staged := none }, jtag := s.jtag,
    pw := { Power.reset with vaon := s.pw.vaon, rstLow := s.pw.rstLow, refclk := s.pw.refclk, inh0 := s.pw.inh0, inh1 := s.pw.inh1,
                             fsRun := s.pw.fsRun, vaonStart := s.pw.vaonStart, supplyLow := s.pw.supplyLow, storeLow := s.pw.storeLow, storeOk := s.pw.storeOk,
                             coldStarts := s.pw.coldStarts, warmWakes := s.pw.warmWakes, fr := s.pw.fr } }

/-- Reset the main side; a programming of the vault and an MRAM store are cut off (R363, R410), and both INH are driven high
(R27, R431). -/
def State.resetMain (s : State) : State :=
  let s := s.cutOtp.cutStore.tornRecords.mainReset
  { s with pw := { s.pw with inh0 := true, inh1 := true } }

/-- RST_N_ASSERT (R430, R431): in every mode. -/
def rstNAssert (s : State) : State :=
  if s.pw.rstLow then s
  else if !s.pw.vaon then { s with pw := { s.pw with rstLow := true } }
  else
    let s := s.resetMain
    { s with pw := { s.pw with rstLow := true } }
def execRstNAssert (s : State) : Out := done s (rstNAssert s)

/-- A block store that a loss of power cuts off: the words before the one in progress stand, that one is indeterminate (R410). -/
def State.tornStore (s : State) : State := s.endStore true

/-- VAON_LOSS (R448, R430, R330): the always-on domain, the fault record and the validity of the snapshot are lost; the device
is Off. MRAM, OTP and the island keep what they hold. -/
def vaonLoss (s : State) : State :=
  if !s.pw.vaon then s
  else
    let s := s.cutOtp.tornStore.tornRecords.mainReset
    { s with
      nm := Nm.reset, snapshot := none, jtag := JtagPort.reset,
      sec := { s.sec with tamper := 0, phase := 0, tamperN := 0 },
      pw := { s.pw with vaon := false, inh0 := false, inh1 := false, mode := .off, fsRun := false, fr := FaultRecord.reset,
                        supplyLow := 0, storeLow := 0, storeOk := false } }
def execVaonLoss (s : State) : Out := done s (vaonLoss s)

/-! Start-up (R432 to R434). -/

/-- Do `f` unless a device fault has ended the start-up. -/
def State.onStart (s : State) (f : State → State) : State := if s.pw.mode = .startUp then f s else s

/-- The first steps of a start: start cause, wake source, counters of starts, run number (R312, R332, R348, R437). How long the
start takes, up to `most` cycles, is open. A snapshot of an earlier run is no longer valid (R330). -/
def State.beginStart (s : State) (cause : BitVec 3) (warm : Bool) (most : Nat) (r : StartReport) : State :=
  let (n, s) := s.draw
  let t := n % (most + 1)
  let old := if cause.toNat < 2 then s.nm.wakeSrc else 0
  let oldChan := if cause.toNat < 2 then s.nm.wakeChan else 0
  let fr := { s.pw.fr with here := false }
  { s with
    time := { s.time with cycle := t, ltime := s.time.ltime + t * nominalIncr },
    -- the scrubber reads from the start on (R99)
    sw := { s.sw with scrubDue := t },
    nm := { s.nm with wakeSrc := old ||| BitVec.ofNat 7 s.nm.latch.toNat, wakeChan := if s.nm.chanSet then s.nm.chan else oldChan,
                      latch := 0, chan := 0, chanSet := false, lines := r.wakeLevels },
    snapshot := s.snapshot.map (fun x => { x with seq := s.nm.snapSeq + 1 }),
    pair := { s.pair with run := s.pair.run + 1 },
    pw := { s.pw with mode := .startUp, rstLow := false, refclk := true, inh0 := true, inh1 := true, cause := cause, causeFs := s.pw.fsRun,
                      fsRun := false, vaonStart := false,
                      coldStarts := if warm then s.pw.coldStarts else satInc s.pw.coldStarts,
                      warmWakes := if warm then satInc s.pw.warmWakes else s.pw.warmWakes,
                      fr := if warm || fr.first.isNone then fr else { fr with starts := satInc fr.starts } } }

/-- A loss of power inside the start (R410). -/
def State.cutPower (s : State) : State := vaonLoss { s with upd.wrote := [] }

/-- A tamper event inside the start-up locks the vault for the run (R388). -/
def State.startTamper (s : State) (r : StartReport) : State := tamperEvent r.tamper s

/-- The boot ROM classifies the slots and spoils the interrupted ones. A marking that a tamper event or a loss of power cuts off leaves its slot
interrupted (R363, R388). -/
def State.classifySlots (r : StartReport) (s : State) : State :=
  let hit := r.tamper &&& BitVec.ofNat 4 (s.param 0x0E01) ≠ 0
  let marks := fun (n : Nat) => match r.cut with
    | some (.spoiling k) => decide (n < k.val)
    | _ => !(hit && r.tamperSpoil.map Fin.val = some n)
  let s := if s.pw.storeOk then s.spoilInterrupted marks else s
  match r.cut with
  | some (.spoiling _) => s.cutPower
  | _ => { s with sec := { s.sec with classified := true } }

/-! The records of the MRAM areas (R404, R409, R410). -/

/-- What the boot ROM reads of a staging record: the newer valid copy. Of an area without one, sequence and wear count are open (R405; log entry 18). -/
def State.readCopy (s : State) (b : Bool) : State :=
  match (s.upd.copies b).newer with
  | some (_, a) => { s with upd := s.upd.view b a }
  | none =>
    let (n, s) := s.draw
    let (w, s) := s.drawWord
    { s with upd := s.upd.view b { Area.reset with state := .invalid, wear := n, seq := w.setWidth 32 } }

/-- The lock and counter that a start reads: those of the higher counter among the valid records (DEDUCED, log entry 18); without one they are open. -/
def State.readLock (s : State) : State :=
  let l := [s.upd.recA.newer, s.upd.recB.newer].filterMap (fun x => x.map (fun y => y.2))
  match l with
  | [] =>
    let (n, s) := s.draw
    let (w, s) := s.drawWord
    { s with upd := { s.upd with ownerLock := n % 2 = 1, lockCount := w.setWidth 32 } }
  | a :: l =>
    let a := l.foldl (fun a x => if a.count.toNat < x.count.toNat then x else a) a
    { s with upd := { s.upd with ownerLock := a.lock, lockCount := a.count } }

/-- The records of the active area and of both staging areas are read (R404, R432). -/
def State.readRecords (s : State) : State :=
  let s := ((s.readCopy false).readCopy true).readLock
  match s.upd.recActive.newer with
  | some (_, a) => { s with upd := { s.upd with active := if a.header = [] then none else some a.header, activeBad := false } }
  | none => { s with upd := { s.upd with activeBad := true } }

/-- A self-test fails: DW_BIST names the block, and the device fault follows (R434, R436). Whether DONE is then 1 is open. -/
def State.selfTestFault (s : State) (b : Byte) (d : List Word) (ctx : Nat) : State :=
  let (n, s) := s.draw
  let s := { s with pw := { s.pw with bistBlock := b, bistDone := n % 2 = 1 } }
  s.deviceFault 0x0401 b.toNat (d.map BitVec.toNat ++ [ctx])

/-- The blocks of R434 that `p` selects. -/
def State.testBlocks (s : State) (r : StartReport) (p : Nat → Bool) (ctx : Nat) : State :=
  match r.selfTest with
  | some (b, d0, d1, d2) => if p b.toNat then s.selfTestFault b [d0, d1, d2] ctx else s
  | none => s

/-- The comparator injection test of a start (R344). -/
def State.testComparator (s : State) (r : StartReport) (ctx : Nat) : State :=
  match cmpFailure r.cmpTest with
  | some f =>
    let (n, s) := s.draw
    { s with pw := { s.pw with bistBlock := 0x0A, bistDone := n % 2 = 1 } }.cmpFault f ctx
  | none => s

/-- The self-test is complete. -/
def State.bistPassed (s : State) (r : StartReport) : State :=
  { s with pw := { s.pw with bistDone := true, bistPass := true, bistBlock := 0, bistTime := r.bistTime } }

/-! The active image (R408, R432, R433). -/

/-- The active payload and its record are what was signed (R377, R432). A part that holds no image of its own in this model's
MRAM is taken as it left the factory (log entry 31). -/
def State.imageChecks (s : State) : Bool :=
  match s.upd.active with
  | none => true
  | some h =>
    let ks := hdrBits h 325 320
    let slot := s.slot ks
    sha384 (s.rdB 0x02000000 (imgLen h)) == slice h 48 48 && slot.state == .committed && slot.use == 2 &&
    s.rootAccepted ks (slice h 96 96) && ecdsaVerify (slice h 96 96) (sha384 (h.take 416)) (slice h 416 96)

/-- The active record is written after a copy: the image of the area that was copied (R404, R408). -/
def State.writeActive (s : State) (b : Bool) : State :=
  let c := s.upd.recActive
  let old := match c.newer with | some (_, a) => a | none => Area.reset
  let a := { old with state := .source, header := (s.stage b).header, map := (s.stage b).map, seq := old.seq + 1,
                      wear := if old.seq.toNat % 2 = 0 then old.wear + 1 else old.wear, lock := s.upd.ownerLock, count := s.upd.lockCount }
  { s with upd := { s.upd with recActive := c.set c.target (some a), active := some a.header, activeBad := false } }

/-- How a copy ends. -/
inductive CopyEnd where
  | done | failed | cut
  deriving DecidableEq, Repr

/-- Steps 3 and 4 of R408: the blocks of an area are copied and the digest is compared, at most twice, and the active record is written; `ok1` and `ok2`:
the active area reads back as it was written; where it does not, what stands there is open. A loss of power may cut it off (R410). -/
def State.copyImage (s : State) (b ok1 ok2 : Bool) (cut : Option StartCut) : CopyEnd × State :=
  let h := (s.stage b).header
  let n := imgBlocks h
  let blocks := fun (k : Nat) => s.wrB 0x02000000 (s.rdB (stageBase b) (k * 4096))
  match cut with
  | some (.copying k j w) =>
    let at_ := min (k * 4096 + 4 * (j % 1024)) (n * 4096 - 4)
    (.cut, ((s.wrB 0x02000000 (s.rdB (stageBase b) at_)).wrB (0x02000000 + at_) (natLe 4 w.toNat)).cutPower)
  | _ =>
    if sha384 (s.stagePayload b) ≠ slice h 48 48 then (.failed, blocks n)
    else if !ok1 && !ok2 then
      let (x, t) := (blocks n).draw
      (.failed, t.wrB 0x02000000 (fitBytes (n * 4096) (Config.freeBytes x (n * 4096))))
    else if cut = some .activeRecord then
      let c := s.upd.recActive
      (.cut, { blocks n with upd.recActive := c.set c.target none }.cutPower)
    else (.done, (blocks n).writeActive b)

/-- Step 5 of R408: the copied area becomes SOURCE, the former SOURCE area PREVIOUS; a loss of power may cut off either write (R410). -/
def State.nameSource (s : State) (b : Bool) (cut : Option StartCut) : State :=
  if cut = some .sourceRecord then { s with upd := s.upd.tearNext b }.cutPower
  else
    let s := s.setStage b { s.stage b with state := .source }
    if (s.stage (!b)).state ≠ .source then s
    else if cut = some .previousRecord then { s with upd := s.upd.tearNext (!b) }.cutPower
    else s.setStage (!b) { s.stage (!b) with state := .previous }

/-- An area that is COPYING is copied before anything else; a second failure is a device fault (R408, R410, R433). -/
def State.finishCopy (s : State) (ok1 ok2 : Bool) (cut : Option StartCut) : State :=
  let go := fun (b : Bool) =>
    match s.copyImage b ok1 ok2 cut with
    | (.done, t) => t.nameSource b cut
    | (.failed, t) => t.deviceFault 0x0402 (if b then 1 else 0) [imgVersion (t.stage b).header]
    | (.cut, t) => t
  if s.upd.areaA.state = .copying then go false
  else if s.upd.areaB.state = .copying then go true
  else s

/-- The area in state SOURCE; where a loss of power has left both so, the one whose image is active (R410; DEDUCED, log entry 18). -/
def State.sourceArea (s : State) : Option Bool :=
  let src := fun (b : Bool) => (s.stage b).state == .source
  if src false && src true then some (decide (s.upd.active = some s.upd.areaB.header))
  else if src false then some false else if src true then some true else none

/-- The active image cannot be restored (R436). VERSION of an image that the model does not hold is open. -/
def State.unrestorable (s : State) : State :=
  let (n, s) := s.draw
  let v := match s.upd.active with | some h => imgVersion h | none => n
  s.deviceFault 0x0403 0 [s.upd.areaA.state.code, s.upd.areaB.state.code, v]

/-- Step 5 of R432 for the active image, and its restoration from the SOURCE area, also where its record is corrupt (R410, R433). -/
def State.checkImage (s : State) (r : StartReport) : State :=
  if !s.upd.activeBad && r.imageOk && s.imageChecks then s
  else
    match s.sourceArea with
    | some b =>
      match s.copyImage b true r.restoreOk r.cut with
      | (.done, t) => if r.restoreOk && t.imageChecks then t else t.unrestorable
      | (.failed, t) => t.deviceFault 0x0402 (if b then 1 else 0) [imgVersion (t.stage b).header]
      | (.cut, t) => t
    | none => s.unrestorable

/-! The end of a start-up. -/

/-- Firmware starts, writes the first checkpoint and serves the mailboxes (R337, R432). Length and content of the body are its
own. -/
def State.startFirmware (s : State) (warm : Bool) : State :=
  let (n, s) := s.draw
  let s := s.writeCkpt (fitBytes (16 + n % 65505) (Config.freeBytes n 65520))
  { s with pw := { s.pw with mode := .operating, fwReady := true, fwRan := true, warm := warm },
           ls := { s.ls with single := false, coreFrom := s.now, windowN := 0 } }

/-- The configuration components of the active image are applied (R295, R402, R432 step 9). -/
def State.applyConfig (s : State) : State :=
  let t := match s.upd.active with
    | some h =>
      let p := s.rdB 0x02000000 (imgLen h)
      match s.applyManifest p 0 (manifest p) with
      | .inr t => t
      | .inl _ => s
    | none => s
  { t with nm := { t.nm with snapDirty := true } }.fwEvent 2

/-- What every start-up ends with: PCIe link, pair role, LIN tables, Awake (R240, R320, R327, R349). `except`: wake lines whose
own edge caused the start. -/
def State.enterRun (s : State) (except : Nat) : State :=
  let s := { s with host := { s.host with pcieLink := !s.host.perst } }
  let s := if s.param 0x0D01 = 1 then { s.setRole 2 with pair.readyAt := some s.now } else s
  s.linInitial.enterAwake except

/-! Cold start (R432, R433). -/

/-- A cold start of a reset main side. `unlock`: it may release the vault lock (R389); `copy`: what a copy of an activation
reads back as; `most`: the longest it takes. -/
def State.coldStart (s : State) (cause : BitVec 3) (unlock : Bool) (copy : Bool × Bool) (except : Nat) (r : StartReport) : State :=
  let s := { s with sec := { s.sec with locked := s.sec.locked && (!unlock || r.tamperActive != 0) } }
  (((((((s.beginStart cause false (msCycles 14) r).startTamper r).readRecords.onStart (fun s => s.finishCopy copy.1 copy.2 r.cut)).onStart
    (State.classifySlots r)).onStart
    (fun s => s.testBlocks r (fun b => b < 6) 0)).onStart (fun s => s.checkImage r)).onStart
    (fun s => s.testBlocks r (fun b => 6 ≤ b && b < 10) 0)).onStart (fun s => s.testComparator r 0) |>.onStart
    (fun s => s.testBlocks r (fun b => 10 < b) 0) |>.onStart
    (fun s => ((((s.bistPassed r).startFirmware false).applyConfig).enterRun except))

/-- RST_N_RELEASE (R430 to R433): the cold start. The first start since VAON was applied is that of VAON. -/
def rstNRelease (r : StartReport) (s : State) : State :=
  if !s.pw.rstLow then s
  else if !s.pw.vaon then { s with pw := { s.pw with rstLow := false } }
  else s.mainReset.coldStart (if s.pw.vaonStart then 0 else 1) true (r.restoreOk, r.restoreOk) 0 r
def execRstNRelease (r : StartReport) (s : State) : Out := done s (rstNRelease r s)

/-- VAON_APPLIED (R430, R448, R449): the always-on domain leaves its reset, INH0 goes high, and the device starts cold; while
RST_N is low the start waits for its release. -/
def vaonApplied (r : StartReport) (s : State) : State :=
  if s.pw.vaon then s
  else
    let s := s.mainReset
    let s := { s with pw := { s.pw with vaon := true, inh0 := true, inh1 := true, vaonStart := true } }
    if s.pw.rstLow then s else s.coldStart 0 true (r.restoreOk, r.restoreOk) 0 r
def execVaonApplied (r : StartReport) (s : State) : Out := done s (vaonApplied r s)

/-! Warm wake (R329 to R331). -/

/-- The stored snapshot can be restored (R330). -/
def State.snapValid (s : State) (x : RetSnap) : Bool :=
  x.seq == s.nm.snapSeq && x.image == (match s.upd.active with | some h => slice h 0 512 | none => []) && x.bytes ≤ 1572864

/-- Restore the snapshot into tables, parameters and registers (R329). A seconds value that waited for a PPS edge is dropped, while PID
0x0509 reads as it was written (DESIGN CHOICE: R50 does not say; log entry 53). -/
def State.restoreSnap (s : State) (x : RetSnap) : State :=
  let dw := fun (i : Nat) => x.dwRw.getD i 0
  let cnt := fun (i : Nat) => x.nmCount.getD i 0
  let mem : SMap Byte := x.tables.foldl (fun (m : SMap Byte) (e : Nat × Byte) => memSet m e.1 e.2) s.mem
  let idle := fun (m : Millrace) => { m with decided := [], judged := [], opened := none, freeAt := 0, lastIdx := 0 }
  let mills : SMap Millrace := (x.mills.map (fun (e : Nat × Millrace) => (e.1, idle e.2))).filter (fun e => e.2 ≠ Millrace.reset)
  let s := { s with
    params := x.params, mem := mem, sw.gates := x.gates, sw.mills := mills,
    scr.bank := x.ruleBank, scr.gen := x.ruleGen,
    dw := { s.dw with scratch0 := dw 0, scratch1 := dw 1, mbIrqEn := (dw 2).setWidth 16, irqEn := (dw 3).setWidth 16,
                      irqnMbEn := (dw 4).setWidth 16, linkChgEn := (dw 5).setWidth 24, fwEventEn := (dw 6).setWidth 5,
                      portErrEn := (dw 7).setWidth 24, irqLat := (dw 8).setWidth 16 },
    snap.auto := (dw 9).setWidth 2, host.aperPcie := dw 10, host.aperSpi := dw 11,
    time.ltime := x.ltime + s.nm.slackMs.toNat * 1000000 * nsUnit + s.time.ltime,
    time.since := x.ltime + s.nm.slackMs.toNat * 1000000 * nsUnit + s.time.ltime,
    nm := { s.nm with kaRx := cnt 0, kaTx := cnt 1, aborts := cnt 2, sleeps := cnt 3, ignoredN := (cnt 4).setWidth 16,
                      badKa := (cnt 5).setWidth 16, snapOk := true } }
  let kept := fun (i : Nat) => x.kept.getD i 0
  let s := { s with
    ls := { s.ls with total := kept 0 }, pair := { s.pair with takeovers := kept 1, cmpFails := kept 2 },
    time := { s.time with steps := kept 3 }, upd := { s.upd with badCrc := kept 4, refusals := kept 5, expired := kept 6 } }
  let s := x.canIrqEn.foldl (fun (s : State) (e : Nat × Byte) => s.setCan e.1 { s.can e.1 with irqEn := e.2 }) s
  let s := x.linIrqEn.foldl (fun (s : State) (e : Nat × BitVec 6) => s.setLin e.1 { s.lin e.1 with irqEn := e.2 }) s
  let time := if s.param 0x0501 = 0 then TimeState.free else .unset
  let angle := if s.param 0x0510 = 0 then AngleState.off else .unindexed
  let s := { s with time.state := time, angle.state := angle, snap.secSeen := s.time.ltime / secUnit }
  foldN 24 (fun s p => if (s.gate p).cur.isSome then s.refreshGates p else s) s

/-- The shortened start of R331 with a snapshot. -/
def State.warmStart (s : State) (x : RetSnap) (except : Nat) (r : StartReport) : State :=
  (((s.beginStart 2 true (msCycles 5) r).startTamper r).readRecords.onStart (State.classifySlots r)).onStart (fun s => s.testComparator r 1) |>.onStart
    (fun s => s.testBlocks r (fun b => b == 11) 1) |>.onStart
    (fun s => { (((s.bistPassed r).restoreSnap x).startFirmware true).enterRun except with nm.pulseAt := [] })

/-- WARM_WAKE (R320, R330, R331, R433): a latched wake event ends a Slack of at least 1 ms; without a valid snapshot, or with
PID 0x0C30 at 0, the wake is carried out as a cold start. STORE_OK is 0 then, since the rails have just risen. -/
def warmWake (r : StartReport) (slackMs : Nat) (s : State) : State :=
  if s.pw.mode ≠ .slack || !s.pw.vaon || s.pw.rstLow || s.nm.latch = 0 || slackMs = 0 then s
  else
    let keep := s.param 0x0C30 ≠ 0
    let except := s.nm.latch.toNat % 16
    let s := s.mainReset
    let s := { s with nm := { s.nm with slackMs := BitVec.ofNat 32 slackMs },
                      pw := { s.pw with storeOk := false, supplyLow := s.pw.supplyLow &&& 0x10, storeLow := s.pw.storeLow &&& 0x10 } }
    let cold := fun (_ : Unit) => { s.coldStart 3 false (r.restoreOk, r.restoreOk) except r with nm.pulseAt := [] }
    match s.snapshot with
    | some x => if keep && s.snapValid x then s.warmStart x except r else cold ()
    | none => cold ()
def execWarmWake (r : StartReport) (slackMs : Word) (s : State) : Out := done s (warmWake r slackMs.toNat s)

/-! Activation (R406 to R408). -/

/-- An ARMED image activates now: by R406; with PAIR at ACT of an accepted GO, or as the partner runs the same release
already (R407). -/
def State.activates (s : State) (h : List Byte) : Bool :=
  if imgPair h then
    let same := s.upd.partnerRelease == some (BitVec.ofNat 64 (imgRelease h))
    let due := match s.upd.actAt with | some t => decide (s.time.ltime ≥ t) | none => false
    let agreed := s.secondary || (match s.upd.actAt, s.upd.goOk with | some t, some k => decide (k + 1000000 * nsUnit ≤ t) | _, _ => false)
    s.fw && s.pw.storeOk && s.pw.token.holder.isNone && (same || (due && agreed))
  else s.mayActivate h && s.time.ltime ≤ imgDeadline h

/-- The wear count of the active area has reached its limit (R412). -/
def State.activeWorn (s : State) : Bool := match s.upd.recActive.newer with | some (_, a) => decide (wearLimit ≤ a.wear) | none => false

/-- ACTIVATION (R408): the record becomes COPYING, the device resets, copies the image and starts cold. The retained-state
snapshot becomes invalid; a locked vault stays locked. -/
def activation (r : StartReport) (copyOk recopyOk : Bool) (s : State) : State :=
  match s.staged with
  | some b =>
    let a := s.stage b
    if a.state = .armed && s.activates a.header && !s.worn b && !s.activeWorn then
      let s := { s.setStage b { a with state := .copying } with upd.wrote := [] }.resetMain
      { s with snapshot := none, upd.actRun := true }.coldStart 1 false (copyOk, recopyOk) 0 r
    else s
  | none => s
def execActivation (r : StartReport) (copyOk recopyOk : Bool) (s : State) : Out := done s (activation r copyOk recopyOk s)

/-! Supplies and clocks (R25, R312, R447, R453). -/

/-- Bit of a rail in DW_SUPPLY.LOW (R312). -/
def railBit : Rail → Nat
  | .vcore => 0 | .vser => 1 | .vio18 => 2 | .vio33 => 3 | .vaon => 4

/-- Low threshold in mV (R447). -/
def railLow : Rail → Nat
  | .vcore => 700 | .vser => 840 | .vio18 => 1620 | .vio33 => 3000 | .vaon => 2900

/-- What STORE_OK requires of a rail, in mV; 0: nothing (R447). -/
def railStore : Rail → Nat
  | .vcore => 720 | .vser => 0 | .vio18 => 1710 | .vio33 => 0 | .vaon => 3000

/-- SUPPLY_LOW (R447): a monitored rail stands at a voltage. The switched rails are monitored while INH0 is high. -/
def supplyLow (rail : Rail) (mv : Nat) (s : State) : State :=
  if !s.pw.vaon || (!s.pw.inh0 && rail ≠ .vaon) then s
  else
    let low := setBit s.pw.supplyLow (railBit rail) (decide (mv < railLow rail))
    let below := setBit s.pw.storeLow (railBit rail) (decide (mv < max (railLow rail) (railStore rail)))
    let lowAt := if mv ≥ railLow rail then none else if s.pw.supplyLow.getLsbD (railBit rail) then SMap.get none s.pw.lowAt (railBit rail) else some s.now
    { s with pw := { s.pw with supplyLow := low, storeLow := below, storeOk := s.pw.storeOk && low == 0 && below == 0,
                               storeAt := if below ≠ 0 then none else if s.pw.storeLow = 0 then s.pw.storeAt else some s.now,
                               lowAt := SMap.set none s.pw.lowAt (railBit rail) lowAt } }
def execSupplyLow (rail : Rail) (millivolt : Nat) (s : State) : Out := done s (supplyLow rail millivolt s)

/-- DW_SUPPLY (R312). -/
def State.dwSupply (s : State) : Nat := s.pw.supplyLow.toNat + (if s.pw.storeOk then 256 else 0)

/-- The main side stands, and no start is in hand: it runs or is fail-silent, RST_N high. -/
def State.mainOn (s : State) : Bool := s.pw.vaon && (s.pw.mode == .operating || s.pw.mode == .failSilent) && !s.pw.rstLow

/-- A rail has been low for more than 10 µs. -/
def State.lowLong (s : State) (rail : Nat) : Bool :=
  s.pw.supplyLow.getLsbD rail && (match SMap.get none s.pw.lowAt rail with | some t => decide (s.now > t + usCycles 10) | none => true)

/-- SUPPLY_FAULT (R436): a main rail has been low for more than 10 µs. UNIT is the number of its bit. -/
def supplyFault (rail : Nat) (s : State) : State :=
  if s.mainOn && s.lowLong rail then s.deviceFault 0x0302 rail [s.dwSupply] else s
def execSupplyFault (rail : Fin 4) (s : State) : Out := done s (supplyFault rail.val s)

/-- Every rail has had what STORE_OK requires for 1 ms (R447). -/
def State.storeDue (s : State) : Bool :=
  s.pw.supplyLow == 0 && s.pw.storeLow == 0 && (match s.pw.storeAt with | some t => decide (s.now ≥ t + msCycles 1) | none => true)

/-- STORE_OK_SET (R447). -/
def storeOkSet (s : State) : State :=
  if s.pw.vaon && s.pw.inh0 && s.storeDue then { s with pw := { s.pw with storeOk := true } } else s
def execStoreOkSet (s : State) : Out := done s (storeOkSet s)

/-- TEMP_SAMPLE (R312). -/
def tempSample (temp : BitVec 16) (s : State) : State := if s.mainOn then { s with pw := { s.pw with dieTemp := temp } } else s
def execTempSample (temp : BitVec 16) (s : State) : Out := done s (tempSample temp s)

/-- BATT_SAMPLE (R312, R453). -/
def battSample (raw : BitVec 12) (s : State) : State := if s.mainOn then { s with pw := { s.pw with battRaw := raw } } else s
def execBattSample (raw : BitVec 12) (s : State) : Out := done s (battSample raw s)

/-- REFCLK_LOSS (R25, R386, R436): the clock tamper event and the device fault. -/
def refclkLoss (fabricLocked coreLocked : Bool) (s : State) : State :=
  if !s.mainOn then s
  else
    ({ tamperEvent 0x4 s with pw.refclk := false }).deviceFault 0x0301 0
      [(if fabricLocked then 1 else 0) + (if coreLocked then 2 else 0)]
def execRefclkLoss (fabricLocked coreLocked : Bool) (s : State) : Out := done s (refclkLoss fabricLocked coreLocked s)

end Sys2Proof.Machine
end

