-- ==== Sys2Proof/Machine/Diag.lean ====
section
/-! DEFINITION. Fault clearing and the maintenance diagnostics (R99, R438, R444). -/

namespace Sys2Proof.Machine

/-- FAULT_CLEAR (R438). -/
def faultClear (mb : Mb) (s : State) : State :=
  s.serve mb (· == 0x0040) (· == 0) (fun _ s => (.ok, { s with pw := { s.pw with fr := FaultRecord.reset } }))
def execFaultClear (mb : Mb) (s : State) : Out := done s (faultClear mb s)

/-- Request the token for a diagnostic command (R440, R441, R444). -/
def State.diagRequest (s : State) (a : Activity) (w : Waiting) : Reply × State :=
  match s.requestToken a with
  | (.busy, _) => (.no .busy, s)
  | (_, t) => (.wait w, t)

/-- The memory of a region: first address, bytes, block code of R434 (R444). -/
def regionOf (r : Nat) : Option (Nat × Nat × Nat) :=
  if 0x10 ≤ r && r ≤ 0x1F then some (0x04000000 + (r - 0x10) * 0x100000, 0x100000, 2)
  else if 0x20 ≤ r && r ≤ 0x21 then some (0x01000000 + (r - 0x20) * 0x100000, 0x100000, 3)
  else if 0x22 ≤ r && r ≤ 0x23 then some (0x01200000 + (r - 0x22) * 0x100000, 0x100000, 4)
  else if r = 0x30 then some (0x01400000, 0x20000, 5)
  else none

/-- DIAG_MEMTEST. -/
def diagMemtest (mb : Mb) (s : State) : State :=
  s.serve mb (· == 0x1101) (· == 4) (fun p s =>
    let v := leNat p
    if v ≥ 256 || (regionOf v).isNone then (.no .badField, s)
    else
      let r := BitVec.ofNat 8 v
      match s.diagRequest .memtest (.memtest r) with
      | (.wait w, t) => (.wait w, { t with host := { t.host with memtest := some r } })
      | a => a)
def execDiagMemtest (mb : Mb) (s : State) : Out := done s (diagMemtest mb s)

/-- REGION_TEST_END (R444): the memory stands as before; a word that reads back wrongly raises SELFTEST. -/
def regionTestEnd (bad : Option (Word × Word × Word)) (s : State) : State :=
  match s.host.memtest with
  | some r =>
    if !s.live || !s.holds .memtest then s
    else
      match bad, regionOf r.toNat with
      | some (a, e, o), some (base, size, unit) =>
        if base ≤ a.toNat && a.toNat < base + size then s.deviceFault 0x0401 unit [a.toNat, e.toNat, o.toNat, 3] else s
      | _, _ => ({ s with host := { s.host with memtest := none } }.releaseToken .memtest).finishBusy (.memtest r) .ok []
  | none => s
def execRegionTestEnd (bad : Option (Word × Word × Word)) (s : State) : Out := done s (regionTestEnd bad s)

/-- DIAG_SCRUB_FAST. -/
def diagScrubFast (mb : Mb) (s : State) : State :=
  s.serve mb (· == 0x1102) (· == 0) (fun _ s => s.diagRequest .scrub .scrubFast)
def execDiagScrubFast (mb : Mb) (s : State) : Out := done s (diagScrubFast mb s)

/-- SCRUB_SWEEP_END (R99): the accelerated sweep has read every half-cell. -/
def scrubSweepEnd (s : State) : State :=
  if s.live && s.holds .scrub && s.sw.scrubLeft = 0 then (s.releaseToken .scrub).finishBusy .scrubFast .ok [] else s
def execScrubSweepEnd (s : State) : Out := done s (scrubSweepEnd s)

/-- DIAG_CMP_TEST. -/
def diagCmpTest (mb : Mb) (s : State) : State :=
  s.serve mb (· == 0x1103) (· == 0) (fun _ s => s.diagRequest .comparator .cmpTest)
def execDiagCmpTest (mb : Mb) (s : State) : Out := done s (diagCmpTest mb s)

end Sys2Proof.Machine
end

