-- ==== Sys2Proof/Machine/Jtag.lean ====
section
/-! DEFINITION. The boundary-scan port (R461). -/

namespace Sys2Proof.Machine

/-- The bits of a value, least significant first. -/
def bitList (n v : Nat) : List Bool := (List.range n).map (fun i => bit v i)

/-- TCK runs: the VIO18 bank is supplied. -/
def State.jtagOn (s : State) : Bool := s.pw.vaon && s.pw.inh0

/-- Place an instruction and what it shifts out. -/
def State.jtagSet (s : State) (i : Jtag) (drive : Bool) (out : List Bool) : State :=
  if s.jtagOn then { s with jtag := { s.jtag with instr := i, driving := drive, tdo := out } } else s

/-- BYPASS: one bit, zero as IEEE 1149.1 captures it (log entry 20). -/
def jtagBypass (s : State) : State := s.jtagSet .bypass false [false]
def execBypass (s : State) : Out := done s (jtagBypass s)

/-- IDCODE: the part-number field, [27:12] of the code, is 0x4192; bit 0 is 1 (log entry 20). Its other fields are open. -/
def idcode : Nat := (Config.idcodeRest.toNat &&& 0xF0000FFF) ||| 0x04192000 ||| 1
def jtagIdcode (s : State) : State := s.jtagSet .idcode false (bitList 32 idcode)
def execIdcode (s : State) : Out := done s (jtagIdcode s)

/-- SAMPLE/PRELOAD: the boundary register takes the levels of the pins. -/
def jtagSample (pins : List Bool) (s : State) : State :=
  if s.jtagOn then { s with jtag := { instr := .samplePreload, boundary := pins, driving := false, tdo := pins } } else s
def execSamplePreload (pins : List Bool) (s : State) : Out := done s (jtagSample pins s)

/-- EXTEST: it drives the pins while RST_N is low, and acts as BYPASS at other times. -/
def jtagExtest (pins : List Bool) (s : State) : State :=
  if !s.pw.rstLow then jtagBypass s
  else if s.jtagOn then { s with jtag := { instr := .extest, boundary := pins, driving := true, tdo := pins } }
  else s
def execExtest (pins : List Bool) (s : State) : Out := done s (jtagExtest pins s)

end Sys2Proof.Machine
end

