-- ==== Sys2Proof/Machine/Dispatch.lean ====
section
/-! DEFINITION. One arm per command of the table, each one call of its meaning. -/

namespace Sys2Proof.Machine

-- the effect of a command on everything but the queue
def exec (i : Instr) (s : State) : Host.Outcome State Fault Refusal :=
  match i with
  | .vaonApplied r => Sys2Proof.Machine.execVaonApplied r s
  | .vaonLoss => Sys2Proof.Machine.execVaonLoss s
  | .rstNAssert => Sys2Proof.Machine.execRstNAssert s
  | .rstNRelease r => Sys2Proof.Machine.execRstNRelease r s
  | .refclkLoss fabricLocked coreLocked => Sys2Proof.Machine.execRefclkLoss fabricLocked coreLocked s
  | .supplyLow rail millivolt => Sys2Proof.Machine.execSupplyLow rail millivolt s
  | .supplyFault rail => Sys2Proof.Machine.execSupplyFault rail s
  | .storeOkSet => Sys2Proof.Machine.execStoreOkSet s
  | .tempSample temp => Sys2Proof.Machine.execTempSample temp s
  | .battSample raw => Sys2Proof.Machine.execBattSample raw s
  | .ppsEdge freqCount freqAbsent => Sys2Proof.Machine.execPpsEdge freqCount freqAbsent s
  | .sync port gm ref interval => Sys2Proof.Machine.execSync port gm ref interval s
  | .syncReceiptTimeout => Sys2Proof.Machine.execSyncReceiptTimeout s
  | .holdoverTime => Sys2Proof.Machine.execHoldoverTime s
  | .countEdge a b z => Sys2Proof.Machine.execCountEdge a b z s
  | .angleGateEdge port => Sys2Proof.Machine.execAngleGateEdge port s
  | .stallTime => Sys2Proof.Machine.execStallTime s
  | .frameReceive f => Sys2Proof.Machine.execFrameReceive f s
  | .linkDown port => Sys2Proof.Machine.execLinkDown port s
  | .linkUp port mbps => Sys2Proof.Machine.execLinkUp port mbps s
  | .agingSweep => Sys2Proof.Machine.execAgingSweep s
  | .recoveryResetTimeout fn => Sys2Proof.Machine.execRecoveryResetTimeout fn s
  | .scrubRead upset => Sys2Proof.Machine.execScrubRead upset s
  | .scrubSweepEnd => Sys2Proof.Machine.execScrubSweepEnd s
  | .egressSelect port => Sys2Proof.Machine.execEgressSelect port s
  | .cellArrive out inp plane seq upset => Sys2Proof.Machine.execCellArrive out inp plane seq upset s
  | .confluenceTimeout out => Sys2Proof.Machine.execConfluenceTimeout out s
  | .underrun out => Sys2Proof.Machine.execUnderrun out s
  | .frameTransmitEnd port => Sys2Proof.Machine.execFrameTransmitEnd port s
  | .atsEligible port cls dom => Sys2Proof.Machine.execAtsEligible port cls dom s
  | .gateEdge port => Sys2Proof.Machine.execGateEdge port s
  | .gateListSwitch port => Sys2Proof.Machine.execGateListSwitch port s
  | .preempt port => Sys2Proof.Machine.execPreempt port s
  | .mmVerifyTimeout port => Sys2Proof.Machine.execMmVerifyTimeout port s
  | .windowDecision port w => Sys2Proof.Machine.execWindowDecision port w s
  | .windowOpen port => Sys2Proof.Machine.execWindowOpen port s
  | .windowEnd port => Sys2Proof.Machine.execWindowEnd port s
  | .windowSetAdopt port => Sys2Proof.Machine.execWindowSetAdopt port s
  | .connSweep entry => Sys2Proof.Machine.execConnSweep entry s
  | .ruleBankSwap => Sys2Proof.Machine.execRuleBankSwap s
  | .canReceive ch m own age => Sys2Proof.Machine.execCanReceive ch m own age s
  | .canBusError ch kind place afterArbitration => Sys2Proof.Machine.execCanBusError ch kind place afterArbitration s
  | .busOffRecoveryComplete ch => Sys2Proof.Machine.execBusOffRecoveryComplete ch s
  | .canModeChange ch => Sys2Proof.Machine.execCanModeChange ch s
  | .txPush ch buf prio => Sys2Proof.Machine.execTxPush ch buf prio s
  | .canTxStart ch => Sys2Proof.Machine.execCanTxStart ch s
  | .canTxEnd ch r delay => Sys2Proof.Machine.execCanTxEnd ch r delay s
  | .canLifetimeExpiry ch => Sys2Proof.Machine.execCanLifetimeExpiry ch s
  | .recover ch => Sys2Proof.Machine.execRecover ch s
  | .abortHead ch => Sys2Proof.Machine.execAbortHead ch s
  | .abortPrio ch => Sys2Proof.Machine.execAbortPrio ch s
  | .flush ch => Sys2Proof.Machine.execFlush ch s
  | .linHeader ch pid baud age => Sys2Proof.Machine.execLinHeader ch pid baud age s
  | .linResponse ch r => Sys2Proof.Machine.execLinResponse ch r s
  | .lpub ch obj => Sys2Proof.Machine.execLpub ch obj s
  | .linSched ch v => Sys2Proof.Machine.execLinSched ch v s
  | .linSlot ch => Sys2Proof.Machine.execLinSlot ch s
  | .linNoResponse ch => Sys2Proof.Machine.execLinNoResponse ch s
  | .goToSleep => Sys2Proof.Machine.execGoToSleep s
  | .linRestart ch => Sys2Proof.Machine.execLinRestart ch s
  | .periodBoundary route => Sys2Proof.Machine.execPeriodBoundary route s
  | .runRetry route => Sys2Proof.Machine.execRunRetry route s
  | .spacedRun route => Sys2Proof.Machine.execSpacedRun route s
  | .acfFrameReceive bytes stomped => Sys2Proof.Machine.execAcfFrameReceive bytes stomped s
  | .gwStale obj => Sys2Proof.Machine.execGwStale obj s
  | .cvStart u => Sys2Proof.Machine.execCvStart u s
  | .cvFeed8 u v => Sys2Proof.Machine.execCvFeed8 u v s
  | .cvFeed16 u v => Sys2Proof.Machine.execCvFeed16 u v s
  | .cvFeed32 u v => Sys2Proof.Machine.execCvFeed32 u v s
  | .pcieMemoryWrite bar off more be v => Sys2Proof.Machine.execPcieMemoryWrite bar off more be v s
  | .postedWriteDeliver b => Sys2Proof.Machine.execPostedWriteDeliver b s
  | .pcieMemoryRead bar off words => Sys2Proof.Machine.execPcieMemoryRead bar off words s
  | .pcieConfigurationRequest reg w => Sys2Proof.Machine.execPcieConfigurationRequest reg w s
  | .functionLevelReset => Sys2Proof.Machine.execFunctionLevelReset s
  | .perstN low => Sys2Proof.Machine.execPerstN low s
  | .write addr words => Sys2Proof.Machine.execWrite addr words s
  | .read addr words => Sys2Proof.Machine.execRead addr words s
  | .status => Sys2Proof.Machine.execStatus s
  | .targetTimeout b isRead => Sys2Proof.Machine.execTargetTimeout b isRead s
  | .dwPwePop => Sys2Proof.Machine.execDwPwePop s
  | .dwMbRing mask => Sys2Proof.Machine.execDwMbRing mask s
  | .dwMbDone mask => Sys2Proof.Machine.execDwMbDone mask s
  | .dwMbAbort mask => Sys2Proof.Machine.execDwMbAbort mask s
  | .registerWrite m addr v be => Sys2Proof.Machine.execRegisterWrite m addr v be s
  | .echo mb => Sys2Proof.Machine.execEcho mb s
  | .getInfo mb => Sys2Proof.Machine.execGetInfo mb s
  | .paramGet mb => Sys2Proof.Machine.execParamGet mb s
  | .paramSet mb => Sys2Proof.Machine.execParamSet mb s
  | .objOpen mb => Sys2Proof.Machine.execObjOpen mb s
  | .objWrite mb => Sys2Proof.Machine.execObjWrite mb s
  | .objCommit mb => Sys2Proof.Machine.execObjCommit mb s
  | .objCancel mb => Sys2Proof.Machine.execObjCancel mb s
  | .objDma mb => Sys2Proof.Machine.execObjDma mb s
  | .objDmaCompletion data ok => Sys2Proof.Machine.execObjDmaCompletion data ok s
  | .objDmaTimeout => Sys2Proof.Machine.execObjDmaTimeout s
  | .objAreaTimeout => Sys2Proof.Machine.execObjAreaTimeout s
  | .objLoad mb => Sys2Proof.Machine.execObjLoad mb s
  | .frameSend mb => Sys2Proof.Machine.execFrameSend mb s
  | .faultClear mb => Sys2Proof.Machine.execFaultClear mb s
  | .connRemove mb => Sys2Proof.Machine.execConnRemove mb s
  | .nmHostNeed mb => Sys2Proof.Machine.execNmHostNeed mb s
  | .nmHostRelease mb => Sys2Proof.Machine.execNmHostRelease mb s
  | .nmStatus mb => Sys2Proof.Machine.execNmStatus mb s
  | .pairStatus mb => Sys2Proof.Machine.execPairStatus mb s
  | .pairRole mb => Sys2Proof.Machine.execPairRole mb s
  | .keyLoad mb => Sys2Proof.Machine.execKeyLoad mb s
  | .keyClear mb => Sys2Proof.Machine.execKeyClear mb s
  | .keyDerive mb => Sys2Proof.Machine.execKeyDerive mb s
  | .otpProgram mb => Sys2Proof.Machine.execOtpProgram mb s
  | .otpProgrammingComplete => Sys2Proof.Machine.execOtpProgrammingComplete s
  | .sigVerify mb => Sys2Proof.Machine.execSigVerify mb s
  | .aesGcmEncrypt mb => Sys2Proof.Machine.execAesGcmEncrypt mb s
  | .aesGcmDecrypt mb => Sys2Proof.Machine.execAesGcmDecrypt mb s
  | .aesCmacGenerate mb => Sys2Proof.Machine.execAesCmacGenerate mb s
  | .aesCmacVerify mb => Sys2Proof.Machine.execAesCmacVerify mb s
  | .sha384 mb => Sys2Proof.Machine.execSha384 mb s
  | .updStatus mb => Sys2Proof.Machine.execUpdStatus mb s
  | .updLock mb => Sys2Proof.Machine.execUpdLock mb s
  | .header src => Sys2Proof.Machine.execHeader src s
  | .block src => Sys2Proof.Machine.execBlock src s
  | .blockStore => Sys2Proof.Machine.execBlockStore s
  | .finish src => Sys2Proof.Machine.execFinish src s
  | .cancel src => Sys2Proof.Machine.execCancel src s
  | .go src => Sys2Proof.Machine.execGo src s
  | .pairGoIssue => Sys2Proof.Machine.execPairGoIssue s
  | .activation r copyOk recopyOk => Sys2Proof.Machine.execActivation r copyOk recopyOk s
  | .activationDeadline => Sys2Proof.Machine.execActivationDeadline s
  | .svcFrameReceive bytes => Sys2Proof.Machine.execSvcFrameReceive bytes s
  | .nrnRead mb => Sys2Proof.Machine.execNrnRead mb s
  | .nrnStage mb => Sys2Proof.Machine.execNrnStage mb s
  | .nrnFetch mb => Sys2Proof.Machine.execNrnFetch mb s
  | .diagMemtest mb => Sys2Proof.Machine.execDiagMemtest mb s
  | .regionTestEnd bad => Sys2Proof.Machine.execRegionTestEnd bad s
  | .diagScrubFast mb => Sys2Proof.Machine.execDiagScrubFast mb s
  | .diagCmpTest mb => Sys2Proof.Machine.execDiagCmpTest mb s
  | .diagCounters mb => Sys2Proof.Machine.execDiagCounters mb s
  | .maintenanceTokenGrant => Sys2Proof.Machine.execMaintenanceTokenGrant s
  | .capture => Sys2Proof.Machine.execCapture s
  | .snapSecondCapture => Sys2Proof.Machine.execSnapSecondCapture s
  | .dwIrqForce v => Sys2Proof.Machine.execDwIrqForce v s
  | .irqModerationExpiry => Sys2Proof.Machine.execIrqModerationExpiry s
  | .snapshotStaticRewrite => Sys2Proof.Machine.execSnapshotStaticRewrite s
  | .keepAliveSend => Sys2Proof.Machine.execKeepAliveSend s
  | .wakeHoldExpiry => Sys2Proof.Machine.execWakeHoldExpiry s
  | .ebbTimeout => Sys2Proof.Machine.execEbbTimeout s
  | .commit => Sys2Proof.Machine.execCommit s
  | .wakeLineEdge w => Sys2Proof.Machine.execWakeLineEdge w s
  | .canWakePattern ch => Sys2Proof.Machine.execCanWakePattern ch s
  | .linWakePulse ch => Sys2Proof.Machine.execLinWakePulse ch s
  | .phyWake k => Sys2Proof.Machine.execPhyWake k s
  | .aonSwWake => Sys2Proof.Machine.execAonSwWake s
  | .warmWake r slackMs => Sys2Proof.Machine.execWarmWake r slackMs s
  | .wakePulseEnd w => Sys2Proof.Machine.execWakePulseEnd w s
  | .maximumAwakeTime node => Sys2Proof.Machine.execMaximumAwakeTime node s
  | .ignoredNodeRelease node => Sys2Proof.Machine.execIgnoredNodeRelease node s
  | .lockstepCompare c0 c1 => Sys2Proof.Machine.execLockstepCompare c0 c1 s
  | .checkpoint body => Sys2Proof.Machine.execCheckpoint body s
  | .comparatorInjectionTest fail => Sys2Proof.Machine.execComparatorInjectionTest fail s
  | .heartbeatSend => Sys2Proof.Machine.execHeartbeatSend s
  | .heartbeat h => Sys2Proof.Machine.execHeartbeat h s
  | .entryUpdate h body => Sys2Proof.Machine.execEntryUpdate h body s
  | .digest table v => Sys2Proof.Machine.execDigest table v s
  | .resyncBegin table => Sys2Proof.Machine.execResyncBegin table s
  | .resyncEnd table => Sys2Proof.Machine.execResyncEnd table s
  | .roleChange at_ => Sys2Proof.Machine.execRoleChange at_ s
  | .mailboxTransaction addr w => Sys2Proof.Machine.execMailboxTransaction addr w s
  | .wakeRequest => Sys2Proof.Machine.execWakeRequest s
  | .mirrorCompare => Sys2Proof.Machine.execMirrorCompare s
  | .resync table => Sys2Proof.Machine.execResync table s
  | .partnerSilence => Sys2Proof.Machine.execPartnerSilence s
  | .pairRoleTimeout => Sys2Proof.Machine.execPairRoleTimeout s
  | .tamperEvent src => Sys2Proof.Machine.execTamperEvent src s
  | .wkMat m wk word v => Sys2Proof.Machine.execWkMat m wk word v s
  | .authStart ctx => Sys2Proof.Machine.execAuthStart ctx s
  | .authFeed8 ctx v => Sys2Proof.Machine.execAuthFeed8 ctx v s
  | .authFeed32 ctx v => Sys2Proof.Machine.execAuthFeed32 ctx v s
  | .authFinish ctx => Sys2Proof.Machine.execAuthFinish ctx s
  | .islandStart dt => Sys2Proof.Machine.execIslandStart dt s
  | .islandStop => Sys2Proof.Machine.execIslandStop s
  | .wheelPulse dt chB => Sys2Proof.Machine.execWheelPulse dt chB s
  | .speedZero dt => Sys2Proof.Machine.execSpeedZero dt s
  | .motionStop dt => Sys2Proof.Machine.execMotionStop dt s
  | .periodicRecord dt => Sys2Proof.Machine.execPeriodicRecord dt s
  | .recordWrite dt => Sys2Proof.Machine.execRecordWrite dt s
  | .referenceLinkMessage dt => Sys2Proof.Machine.execReferenceLinkMessage dt s
  | .sealOpened dt => Sys2Proof.Machine.execSealOpened dt s
  | .sealClosed dt => Sys2Proof.Machine.execSealClosed dt s
  | .calibrationPoll dt => Sys2Proof.Machine.execCalibrationPoll dt s
  | .bypass => Sys2Proof.Machine.execBypass s
  | .idcode => Sys2Proof.Machine.execIdcode s
  | .samplePreload pins => Sys2Proof.Machine.execSamplePreload pins s
  | .extest pins => Sys2Proof.Machine.execExtest pins s
  | .syncTransmission port => Sys2Proof.Machine.execSyncTransmission port s
  | .pdelayReq port t2 t3 turnaround => Sys2Proof.Machine.execPdelayReq port t2 t3 turnaround s
  | .canIntegration ch => Sys2Proof.Machine.execCanIntegration ch s
  | .unknownInstruction op => Sys2Proof.Machine.execUnknownInstruction op s
  | .unknownCommand mb => Sys2Proof.Machine.execUnknownCommand mb s
  | .wakeLineLow w => Sys2Proof.Machine.execWakeLineLow w s
  | .badRecord badCrc => Sys2Proof.Machine.execBadRecord badCrc s
  | .resyncCompleted table => Sys2Proof.Machine.execResyncCompleted table s
  | .tqExpiry dt => Sys2Proof.Machine.execTqExpiry dt s
  | .pcieLinkLoss => Sys2Proof.Machine.execPcieLinkLoss s

end Sys2Proof.Machine
end

