-- ==== Sys2Proof/Machine/Tick.lean ====
section
/-! DEFINITION. One FCLK cycle: what the block does of itself while no command waits (R37, R39, R68, R99, R108, R136, R197, R240, R311,
R324). -/

namespace Sys2Proof.Machine

/-- What firmware does of itself while it runs: it empties the screen copy queue (R192), takes the next update message of the SVC stream
once none is in hand (R393, R394), handles the wake latch and local need (R320, R321), counts DW_HEARTBEAT every 1 ms (R311), announces a grandmaster every second (R47, log entry
50), and takes the oldest request (R278, R279). -/
def State.firmwareTick (s : State) : State :=
  if s.fw then
    let s := if s.scr.copyQ.isEmpty then s else { s with scr.copyQ := [] }
    let s := s.nmTick
    let s := match s.upd.svc with | some c => if c.buffer = [] then s else s.doipStream (c.buffer.length / 8 + 1) | none => s
    let s := if s.upd.svcMsg.isSome then s.relayAborted.postUpd else s
    let s := if s.now % 800000 = 0 then { s with ls := { s.ls with heartbeat := s.ls.heartbeat + 1 } } else s
    let s := if s.now % 800000000 = 0 then s.sendAnnounces else s
    s.takeTick
  else s

/-- A slew ends when its offset has been removed: the rate returns to the measured one (R38). In Holdover and Lost the last
steered rate stays (R52). -/
def State.slewTick (s : State) : State :=
  if s.time.slew = 0 || s.time.state = .holdover || s.time.state = .lost then s
  else
    let left := s.time.slew + ((s.time.incr : Int) - s.time.refIncr)
    if (s.time.slew > 0 && left ≤ 0) || (s.time.slew < 0 && left ≥ 0) then
      { s with time := { s.time with slew := 0, incr := s.time.refIncr } }
    else { s with time := { s.time with slew := left } }

/-- One FCLK cycle of a device that runs. While it is Off, in Slack or held by RST_N there is none. -/
def State.oneCycle (s : State) : State :=
  if !s.mainOn then s
  else
    let s := if s.live then s.releases else s
    let s := { s with time := { s.time with cycle := s.time.cycle + 1, ltime := s.time.ltime + s.time.incr } }
    let s := if s.bridgeUp then s.readTick.spiTick else s
    if s.live then
      s.slewTick.creditTick.readPorts.readDone.tableTick.ingressTick.gwTick.svcTick.deliverDue.macTick.planeSlot.ruleTick.scrubBack.canTick.linTick.firmwareTick.commitStep
    else s

/-- One cycle, with the messages of its effect. -/
def execTick (s : State) : Out := done s s.oneCycle

end Sys2Proof.Machine
end

