-- ==== Sys2Proof/Safety.lean ====
section
/-! DEFINITION. The terms in which statements are made: what firmware takes from a mailbox, what a part of a state keeps, and
the invariants of the state. -/

namespace Sys2Proof.Machine

/-- Memory stands in its canonical form. -/
def MemInv (s : State) : Prop := Memory.wf s.mem = true

/-- Firmware takes the request of a mailbox: it is the oldest one rung and no command executes (R279), its header carries
`code`, it does not repeat the last completed command (R280), and its payload is `pay` (R276). -/
def Taken (s : State) (mb : Mb) (code : Nat) (pay : List Byte) : Prop :=
  s.canTake mb.val = true ∧ s.reqCmd mb.val = code ∧ s.replay mb.val = none ∧
  s.reqLen mb.val = pay.length ∧ pay.length ≤ 1016 ∧ s.reqPay mb.val = pay

/-- Every byte of memory reads as before. -/
def SameMem (s t : State) : Prop := ∀ a, t.rd8 a = s.rd8 a

/-- Every byte of memory outside `n` bytes from `a` reads as before. -/
def SameMemBut (s t : State) (a n : Nat) : Prop := ∀ b, (b < a ∨ a + n ≤ b) → t.rd8 b = s.rd8 b

/-- An entry has left CAN channel `n` and is reported (R218, R220): OUTCOME, DONE_TAG and DONE_TS in the staging buffer it came from,
the bit of CAN_IRQ, and no other byte of memory. An entry of a route has no buffer. -/
def CanReported (s t : State) (n : Nat) (e : CanEntry) (outcome : Nat) (ts : Word) : Prop :=
  let a := txsAddr n e.src
  (e.src < 4 → t.rd (a + 24) 2 = e.tag.toNat ∧ t.rd (a + 26) 1 = outcome ∧ t.rd (a + 28) 4 = ts.toNat ∧ SameMemBut s t (a + 24) 8) ∧
  (4 ≤ e.src → SameMem s t) ∧ (t.can n).irq.getLsbD (if outcome = 1 then 2 else 3) = true

/-- The failed access of a bridge is logged with a cause (R274): a new last entry of the error log and bit 0 of DW_IRQ, or, in a full log, one
more in LOST. Memory stays. -/
def Logged (s t : State) (b : Bridge) (cause : Nat) : Prop :=
  (s.host.pwe.length < 32 → ∃ e : PweEntry, t.host.pwe = s.host.pwe ++ [e] ∧ e.cause.toNat = cause ∧ e.spi = decide (b = .spi) ∧
    e.ts = s.ts ∧ t.host.pweLost = s.host.pweLost ∧ t.dw.irqW1c.getLsbD 0 = true) ∧
  (32 ≤ s.host.pwe.length → t.host.pwe = s.host.pwe ∧ t.host.pweLost = satInc s.host.pweLost) ∧ t.mem = s.mem

/-- An update message `p` of a source is taken: an UPD_BLOCK request of a mailbox, or the message in hand of SVC (R393, R394). -/
def UpdTaken (s : State) (src : UpdSrc) (p : List Byte) : Prop :=
  match src with
  | .mailbox mb => Taken s mb 0x0F03 p ∧ ¬ (mb.val = 8 ∧ s.upd.posted = true)
  | .svc => s.fw = true ∧ s.upd.svcMsg = some p ∧ s.upd.ready = none ∧ s.upd.posted = true ∧ s.canTake 8 = true

/-- The command `c` answers the update message `p` of a source from `u`, with STATUS and NEXT (R395). A refusal is counted (R413). -/
def UpdAnswered (s : State) (c : Instr) (src : UpdSrc) (p : List Byte) (u : State) (st : Status) (next : Option Nat) : Prop :=
  match src with
  | .mailbox mb => exec c s = .next (settle s (((u.noteRefusal st true).complete mb.val st (updPayload next)).nmFollow s))
  | .svc => exec c s = .next (settle s (((u.noteRefusal st true).svcAnswer (byteAt p 0) st next).nmFollow s))

/-- The device is in fail-silent (R32 to R34): every link down, the buffer, the queues and the fabric empty, no wake pulse driven, no
work of firmware in hand. -/
def Silent (s : State) : Prop :=
  s.pw.mode = .failSilent ∧ s.pw.vaon = true ∧ s.pw.rstLow = false ∧ s.pw.fwReady = false ∧ s.sw.link = 0 ∧ s.sw.frames = [] ∧
  s.sw.egress = [] ∧ s.fab.flight = [] ∧ s.nm.pulses = 0 ∧ s.pw.token.holder = none ∧ s.host.busy = none

/-- Nothing is under way that an FCLK cycle carries on: no frame arrives, waits in the fabric or leaves, no key waits at the gateway or SVC lookup port,
no write-back of the scrubber, load of rules or of a table or read of a bridge is in hand, no LIN header, sleep, first table or change of role is due, no
diagnostic connection or update message stands, no wake event is latched, and local need agrees with the state of network management. -/
def Idle (s : State) : Prop :=
  s.sw.arriving = [] ∧ s.fab.pulls = [] ∧ s.fab.waiting = [] ∧ s.fab.store = [] ∧ s.fab.out = [] ∧ s.sw.scrubHold = [] ∧ s.scr.load = none ∧
  (∀ e ∈ s.sw.egress, e.2.tx = none ∧ e.2.next = []) ∧
  (∀ e ∈ s.bus.lin, e.2.header = none ∧ e.2.sleepDue = false ∧ e.2.old = none ∧ e.2.initDue = false) ∧ s.scr.gw.hand = [] ∧ s.scr.gw.first = [] ∧
  s.scr.gw.second = [] ∧ s.scr.gw.third = [] ∧ s.scr.gw.rest = none ∧ s.scr.svcIn = [] ∧ s.host.reading = none ∧ s.host.spiWait = none ∧
  s.host.table = none ∧ s.nm.latch = 0 ∧ (s.nm.state = .awake → s.localNeed = true ∨ s.secondary = true) ∧ s.upd.svc = none ∧ s.upd.svcMsg = none ∧ s.host.rings = []

/-- A start that has read the records of the MRAM areas (R404, R432). -/
def AfterRecords (s : State) (cause : BitVec 3) (warm : Bool) (most : Nat) (r : StartReport) : State :=
  ((s.beginStart cause warm most r).startTamper r).readRecords

/-- The start finds no activation to finish and an active image that passes its checks (R432, R433). -/
def Startable (s : State) (cause : BitVec 3) (warm : Bool) (most : Nat) (r : StartReport) : Prop :=
  let q := AfterRecords s cause warm most r
  q.upd.areaA.state ≠ .copying ∧ q.upd.areaB.state ≠ .copying ∧ q.upd.activeBad = false ∧ (q.classifySlots r).imageChecks = true

/-- What a start whose tests all pass goes through, from the reset main side on (R432): the first steps, the records, the slots, the
self-test result, firmware, configuration, Awake. -/
def StartSteps (s : State) (cause : BitVec 3) (except : Nat) (r : StartReport) : State :=
  (((((AfterRecords s cause false (msCycles 14) r).classifySlots r).bistPassed r).startFirmware false).applyConfig).enterRun except

/-- The newer valid record copy of each staging area holds what firmware holds of it (R404). -/
def RecordsAgree (s : State) : Prop := ∀ b, ((s.upd.copies b).newer).map Prod.snd = some (s.stage b)

/-- The report of a start in which nothing fails and no loss of power falls. -/
def Clean (r : StartReport) : Prop := r.selfTest = none ∧ cmpFailure r.cmpTest = none ∧ r.imageOk = true ∧ r.cut = none

end Sys2Proof.Machine
end

