-- ==== Sys2Proof/Certificates/Slice0/Obligations.lean ====
section
/-! DEFINITION. The statements for the provers, chapter by chapter of the spec. -/

open Sys2Proof Sys2Proof.Machine

/-- The command at the front of the queue runs on the state that keeps the rest of the queue: the step is exec of it, nothing else. -/
def Obligations.StepRunsFront : Prop :=
  ∀ (c : Instr) (rest : List Instr) (s : State), step { s with pending := c :: rest } = exec c { s with pending := rest }

/-- R37, R39, R311: on an empty queue a running device passes one FCLK cycle (the model's choice, log entry 4): every step answers a next
state; where nothing is under way that the cycle carries on, the cycle count and local time advance by their increments and
DW_HEARTBEAT counts at each millisecond while firmware runs. In fail-silent only the time goes on, with the read that a bridge has in hand; a device that is Off, in Slack or held by
RST_N idles. -/
def Obligations.EmptyQueueTick : Prop :=
  (∀ s : State, s.pending = [] → s.pw.vaon = true → s.pw.rstLow = false → s.pw.mode = .failSilent → s.host.reading = none → s.host.spiWait = none →
    step s = .next (settle s { s with time := { s.time with cycle := s.time.cycle + 1, ltime := s.time.ltime + s.time.incr } })) ∧
  (∀ s : State, s.pending = [] → ∃ t, step s = .next t) ∧
  (∀ s : State, s.pending = [] → s.pw.vaon = true → s.pw.rstLow = false → s.pw.mode = .operating → s.nm.state ≠ .commit → Idle s →
    ∃ t, step s = .next t ∧ t.time.cycle = s.time.cycle + 1 ∧ t.time.ltime = s.time.ltime + s.time.incr ∧ t.pw.mode = .operating ∧
      t.pending = [] ∧ t.params = s.params ∧ SameMem s t ∧ t.sec = s.sec ∧ t.upd = s.upd ∧ t.isl = s.isl ∧ t.nm = s.nm ∧
      t.ls = (if s.fw = true ∧ (s.time.cycle + 1) % 800000 = 0 then { s.ls with heartbeat := s.ls.heartbeat + 1 } else s.ls) ∧
      (s.time.slew = 0 → t.time.incr = s.time.incr)) ∧
  (∀ s : State, s.pending = [] → (s.pw.vaon = false ∨ s.pw.rstLow = true ∨ s.pw.mode = .slack ∨ s.pw.mode = .off ∨ s.pw.mode = .startUp) →
    step s = .next (settle s s))

/-- R431, R135, R205, R228, R320, R341, R362, R366, R405: what the machine holds right after reset: RST_N low, both INH high, no
command waiting, memory with nothing listed, every class table at MAXF 1,532, every channel off, inputs sampled singly, no key. That
unlisted memory reads as zero, and a value for which the rules give no reset, are the model's choice (log entries 1 and 3). -/
def Obligations.ResetState : Prop :=
  let s := State.reset
  s.pending = [] ∧ s.pw.mode = .startUp ∧ s.pw.rstLow = true ∧ s.pw.inh0 = true ∧ s.pw.inh1 = true ∧ s.pw.fwReady = false ∧
  MemInv s ∧ s.sw.link = 0 ∧ s.nm.state = .awake ∧ s.ls.single = true ∧ s.ls.restarting = false ∧ s.isl.tq = 2 ∧
  (∀ n : CanCh, (s.can n.val).mode = 0) ∧ (∀ m : LinCh, (s.lin m.val).running = false) ∧ (∀ n : Mb, (s.mb n.val).state = .idle) ∧
  (∀ n : Fin 64, s.slot n.val = Slot.blank) ∧ (∀ w : Fin 32, (s.wk w.val).valid = false) ∧
  s.upd.areaA.state = .empty ∧ s.upd.areaB.state = .empty ∧
  (∀ p : Port, ∀ c : Fin 8, s.rd (0x04460000 + (p.val * 8 + c.val) * 16) 2 = 1532) ∧
  (∀ a, s.rd8 a = memReset a) ∧ s.irqnLow = false

/-- Every step keeps memory in its canonical form: no command writes a byte out of order, twice, or equal to what its address
reads as at reset. -/
def Obligations.MemoryStaysCanonical : Prop :=
  ∀ s t : State, MemInv s → step s = .next t → MemInv t

/-- R35, R32, R34: a device in fail-silent stays silent: no command but RST_N low and the loss of VAON takes it out, brings up a link, puts
a frame into the buffer, drives a wake pulse or gives firmware work. -/
def Obligations.FailSilentStays : Prop :=
  ∀ s t : State, Silent s → s.pending.head? ≠ some .rstNAssert → s.pending.head? ≠ some .vaonLoss → step s = .next t → Silent t

/-- R42: TS32 is (SEC × 1,000,000,000 + NS) modulo 2³² of local time, wraps every 2³² ns, and two values compare by serial arithmetic while the
true difference is less than 2³¹ ns. -/
def Obligations.Ts32SerialArithmetic : Prop :=
  (∀ s : State, s.ts = BitVec.ofNat 32 ((ltRT s.time.ltime).sec.toNat * 1000000000 + (ltRT s.time.ltime).ns.toNat)) ∧
  (∀ t : Nat, ts32 (t + 2 ^ 32 * nsUnit) = ts32 t) ∧
  (∀ a b : Nat, ((ltNs a : Int) - ltNs b).natAbs < 2 ^ 31 → (ts32 a - ts32 b).toInt = (ltNs a : Int) - ltNs b)

/-- R291: CONN_REMOVE carries the index of an entry; it clears the entry whole, or answers NO_ENTRY when the entry is not VALID. -/
def Obligations.ConnRemoveAnswers : Prop :=
  ∀ (s : State) (mb : Mb) (e : Nat), e < 2 ^ 32 → Taken s mb 0x0720 (natLe 4 e) →
    (65536 ≤ e → exec (.connRemove mb) s = .next (settle s (s.complete mb.val .badField []))) ∧
    (e < 65536 → bit (s.rd (connAddr e) 1) 0 = false → exec (.connRemove mb) s = .next (settle s (s.complete mb.val .noEntry []))) ∧
    (e < 65536 → bit (s.rd (connAddr e) 1) 0 = true →
      ∃ u : State, exec (.connRemove mb) s = .next (settle s (u.complete mb.val .ok [])) ∧ (∀ i, i < 64 → u.rd8 (connAddr e + i) = 0) ∧
        SameMemBut s u (connAddr e) 64 ∧ (MemInv s → u.connUsed = s.connUsed - 1) ∧ u.params = s.params ∧ u.bus = s.bus ∧ u.sw = s.sw)

/-- R53, R54, R38: one valid Sync of the domain at a slave port; both instants, that of its arrival with the compensation of the port and that of
its follow-up with the delay of the link, are at least zero (the model's counters of time are). The source takes the state of the table of R53; local time is stepped to the
reference exactly when the sample leaves the source in Acquiring with an offset above the step threshold, and otherwise slewed
within 250 ppm of nominal and the maximum slew of the measured rate. Memory, parameters, the angle source, network management, the vault, the update and the
island stay; the instant of arrival that residence times count from moves with a step (DEDUCED, log entry 46).
A sample inside the lock window counts toward the eight although it is stepped (DEDUCED, log entry 33). R49 to R51, R54: a PPS edge. An invalid sample leaves everything but the instant of the edge; a valid one takes the rate from
the edges that FREQ_IN has counted since the edge before it, 40 ns each, and the pending seconds
value if it was written at least 10 ms of local time before the edge and consumes it, PID 0x0509 being 0 from then, and the nearest whole second
otherwise. The local time since that edge and since the write of a seconds value does not count a step (DEDUCED, log entry 46). -/
def Obligations.TimeSamples : Prop :=
  (∀ (s : State) (p : Port) (d : Byte) (gm : BitVec 64) (ref : RT) (iv : Fin 6), s.fw = true → s.param 0x0501 = 1 → s.gptpRole p.val 1 = true →
    d.toNat = s.param 0x0502 → ref.ns.toNat ≤ 999999999 → s.time.state ≠ .free →
    let here := ((s.time.ltime : Int) + s.paramInt (0x0540 + p.val) * (nsUnit : Int)).toNat
    let there := ((RT.toLt ref : Int) + (SMap.get GptpPort.reset s.gptp p.val).linkDelay).toNat
    let off : Int := (here : Int) - there
    let inWin := off.natAbs ≤ s.param 0x0505 * nsUnit
    let big := off.natAbs > s.param 0x0506 * nsUnit
    let change := ∃ g, s.time.gm = some g ∧ g ≠ gm
    ∃ t, exec (.sync p ⟨d, gm⟩ ref iv) s = .next t ∧
      t.time.gm = some gm ∧ t.time.cycle = s.time.cycle ∧ t.time.lastSample = s.time.cycle ∧ t.time.offset = off ∧
      (change ∨ s.time.state = .unset ∨ s.time.state = .lost → t.time.state = .acquiring) ∧
      (¬ change → s.time.state = .acquiring →
        (t.time.state = .locked ↔ inWin ∧ s.time.inWindow + 1 ≥ 8) ∧ (t.time.state = .acquiring ↔ ¬ (inWin ∧ s.time.inWindow + 1 ≥ 8))) ∧
      (¬ change → s.time.state = .locked → (t.time.state = .acquiring ↔ big) ∧ (t.time.state = .locked ↔ ¬ big)) ∧
      (¬ change → s.time.state = .holdover → (t.time.state = .locked ↔ inWin) ∧ (t.time.state = .acquiring ↔ ¬ inWin)) ∧
      (t.time.state = .acquiring ∧ big → t.time.ltime = ((s.time.ltime : Int) - off).toNat ∧ t.time.upstream = some (there, there) ∧
        t.time.steps = satInc s.time.steps) ∧
      (¬ (t.time.state = .acquiring ∧ big) → t.time.ltime = s.time.ltime ∧ t.time.upstream = some (there, here) ∧ t.time.steps = s.time.steps ∧
        (t.time.incr - t.time.refIncr ≤ t.time.refIncr * s.param 0x0508 / 1000000) ∧
        (t.time.refIncr - t.time.incr ≤ t.time.refIncr * s.param 0x0508 / 1000000)) ∧
      nominalIncr - nominalIncr * 250 / 1000000 ≤ t.time.incr ∧ t.time.incr ≤ nominalIncr + nominalIncr * 250 / 1000000 ∧
      SameMem s t ∧ t.params = s.params ∧ t.angle = s.angle ∧ t.nm = s.nm ∧ t.sec = s.sec ∧ t.upd = s.upd ∧ t.isl = s.isl) ∧
  (∀ (s : State) (n : Nat) (absent : Bool), s.fw = true → s.param 0x0501 = 2 →
    let edge := ((s.time.ltime : Int) - s.paramInt 0x050A * (nsUnit : Int)).toNat
    let near := ∃ l, s.time.ppsLast = some l ∧ (edge : Int) - l < (900000000 * nsUnit : Nat)
    let valid := 24995000 ≤ n ∧ n ≤ 25005000 ∧ absent = false ∧ ¬ near
    let big (o : Int) := o.natAbs > s.param 0x0506 * nsUnit
    (¬ valid → exec (.ppsEdge n absent) s = .next (settle s { s with time := { s.time with ppsLast := some edge, ppsCycle := some s.time.cycle } })) ∧
    (valid → ∃ t, exec (.ppsEdge n absent) s = .next t ∧
      (∀ v w, s.time.ppsSec = some (v, w) → w + 10000000 * nsUnit ≤ edge →
        t.time.offset = (edge : Int) - (v * secUnit : Nat) ∧ t.time.ppsSec = none ∧ t.param 0x0509 = 0) ∧
      (∀ c, s.time.ppsCycle = some c → c < s.time.cycle →
        t.time.refIncr = clampIncr ((n * 40 * nsUnit / (s.time.cycle - c) : Nat) : Int)) ∧
      (∀ q, q ≠ 0x0509 → t.param q = s.param q) ∧
      ((s.time.ppsSec = none ∨ ∃ v w, s.time.ppsSec = some (v, w) ∧ edge < w + 10000000 * nsUnit) →
        t.time.offset = (edge : Int) -
          ((if edge % secUnit ≥ 500000000 * nsUnit then edge / secUnit + 1 else edge / secUnit) * secUnit : Nat)) ∧
      let kept := if s.time.ppsSec.any (fun x => decide (x.2 + 10000000 * nsUnit ≤ edge)) then none else s.time.ppsSec
      (t.time.state = .acquiring ∧ big t.time.offset →
        t.time.ltime = ((s.time.ltime : Int) - t.time.offset).toNat ∧ t.time.ppsLast = some ((edge : Int) - t.time.offset).toNat ∧
        t.time.ppsSec = kept.map (fun x => (x.1, ((x.2 : Int) - t.time.offset).toNat))) ∧
      (¬ (t.time.state = .acquiring ∧ big t.time.offset) →
        t.time.ltime = s.time.ltime ∧ t.time.ppsLast = some edge ∧ t.time.ppsSec = kept) ∧
      t.time.ppsCycle = some s.time.cycle ∧
      t.time.cycle = s.time.cycle ∧ SameMem s t ∧ t.angle = s.angle ∧ t.sec = s.sec ∧ t.isl = s.isl))

/-- R53, R39, R314, R46, R47: the timers of the time source, measured in FCLK cycles; the snapshot takes its values in one cycle, in which further triggers
make no second capture; gPTP
counts its own sequence numbers. A timer that is not due leaves the state as it is. -/
def Obligations.ReferenceEvents : Prop :=
  (∀ s : State, s.live = true → (s.time.state = .locked ∨ s.time.state = .acquiring) →
    s.time.cycle ≥ s.time.lastSample + s.param 0x0504 * s.time.interval →
    ∃ t, exec .syncReceiptTimeout s = .next t ∧ t.time = { s.time with state := .holdover, holdSince := s.time.cycle } ∧
      t.dw.irqW1c.getLsbD 8 = true ∧ t.angle = s.angle ∧ SameMem s t) ∧
  (∀ s : State, s.live = true → s.time.state = .holdover → s.time.cycle ≥ s.time.holdSince + s.param 0x0507 * 800000 →
    ∃ t, exec .holdoverTime s = .next t ∧ t.time = { s.time with state := .lost } ∧
      t.dw.irqW1c.getLsbD 8 = true ∧ t.angle = s.angle ∧ SameMem s t) ∧
  (∀ s : State, s.time.cycle < s.time.lastSample + s.param 0x0504 * s.time.interval → exec .syncReceiptTimeout s = .next (settle s s)) ∧
  (∀ s : State, s.time.cycle < s.time.holdSince + s.param 0x0507 * 800000 → exec .holdoverTime s = .next (settle s s)) ∧
  (∀ s : State, s.snap.at_ = some s.time.cycle → exec .capture s = .next (settle s s)) ∧
  (∀ s : State, s.live = true → s.snap.at_ ≠ some s.time.cycle → ∃ t, exec .capture s = .next t ∧ t.snap.ltime = s.time.ltime ∧ t.snap.cycle = s.time.cycle ∧
      t.snap.stamp = s.angleStamp ∧ t.snap.tstate = s.time.state.code ∧ t.snap.astate = s.angle.state.code ∧ t.snap.cause = 0 ∧
      t.snap.count = s.snap.count + 1 ∧ t.snap.auto = s.snap.auto ∧ t.dw.irqW1c.getLsbD 9 = true ∧ t.time = s.time ∧ t.angle = s.angle ∧
      SameMem s t) ∧
  (∀ s : State, s.live = true → s.snap.auto = 1 → s.time.ltime / secUnit ≠ s.snap.secSeen → s.snap.at_ ≠ some s.time.cycle →
    ∃ t, exec .snapSecondCapture s = .next t ∧ t.snap.secSeen = s.time.ltime / secUnit ∧ t.snap.cause = 1 ∧
      t.snap.ltime = s.time.ltime ∧ t.snap.cycle = s.time.cycle ∧ t.snap.count = s.snap.count + 1 ∧ t.time = s.time) ∧
  (∀ (s : State) (p : Port) (up : Nat × Nat), s.fw = true → s.param 0x0501 = 1 → s.gptpRole p.val 2 = true → s.time.gm ≠ none →
    s.time.upstream = some up → (s.time.state = .acquiring ∨ s.time.state = .locked) →
    let stamp := ((s.time.ltime : Int) + s.paramInt (0x0560 + p.val) * (nsUnit : Int)).toNat
    ∃ t, exec (.syncTransmission p) s = .next t ∧
      (∃ f, (SMap.get GptpPort.reset t.gptp p.val).sentSync = some f ∧ f.domain.toNat = s.param 0x0502 % 256 ∧ f.stamp = stamp ∧
        f.seq = (SMap.get GptpPort.reset s.gptp p.val).syncSeq ∧ f.time = up.1 + f.residence ∧
        (s.time.incr = s.time.refIncr ∧ 0 < s.time.incr → f.residence = stamp - up.2)) ∧
      (SMap.get GptpPort.reset t.gptp p.val).syncSeq = (SMap.get GptpPort.reset s.gptp p.val).syncSeq + 1 ∧
      (∀ q, q ≠ p.val → SMap.get GptpPort.reset t.gptp q = SMap.get GptpPort.reset s.gptp q) ∧ t.time = s.time) ∧
  (∀ (s : State) (p : Port) (t2 t3 : RT) (turn : Nat), s.fw = true → s.param 0x0501 = 1 → s.gptpOn p.val = true →
    ∃ t, exec (.pdelayReq p t2 t3 turn) s = .next t ∧
      (SMap.get GptpPort.reset t.gptp p.val).lastResp = some (RT.toLt t3,
        ((s.time.ltime : Int) + s.paramInt (0x0540 + p.val) * (nsUnit : Int)).toNat + turn) ∧
      (SMap.get GptpPort.reset t.gptp p.val).pdelaySeq = (SMap.get GptpPort.reset s.gptp p.val).pdelaySeq + 1 ∧
      (∀ q, q ≠ p.val → SMap.get GptpPort.reset t.gptp q = SMap.get GptpPort.reset s.gptp q) ∧ t.time = s.time)

/-- R59, R60, R64, R65: one accepted change of ENC_A or ENC_B moves the angle by one count u in the direction that the levels give,
TURN counting the passages of 0xFFFF to 0; at the first count edge with ENC_Z high the angle becomes the index offset. Both in
one cycle leave the angle and count a quadrature error; sixteen in a turn lose the source. Without count edges for the stall
time a running source stalls. While the source is Off the levels are followed and nothing counts. -/
def Obligations.ShaftAngle : Prop :=
  (∀ (s : State) (a b z : Bool), s.live = true → s.angle.state ≠ .off →
    ((a = !s.angle.encA ∧ b = s.angle.encB) ∨ (a = s.angle.encA ∧ b = !s.angle.encB)) →
    let adv := if a = !s.angle.encA then (if a ≠ b then true else false) else (if a = b then true else false)
    let fwd := if s.param 0x0518 = 1 then !adv else adv
    let u : Int := s.angleUnit
    let full := (((s.angle.turn.toNat * 65536 + s.angle.angle.toNat : Nat) : Int) + (if fwd then u else -u)) % (2 ^ 48 : Nat)
    ∃ t, exec (.countEdge a b z) s = .next t ∧ t.angle.encA = a ∧ t.angle.encB = b ∧ t.angle.rev = !fwd ∧
      t.angle.lastEdge = s.time.cycle ∧ t.angle.zTaken = z ∧ t.angle.quadErrs = s.angle.quadErrs ∧
      (z = false ∨ s.angle.zTaken = true →
        ((t.angle.turn.toNat * 65536 + t.angle.angle.toNat : Nat) : Int) = full ∧ t.angle.mismatch = s.angle.mismatch ∧
        t.angle.indexed = s.angle.indexed) ∧
      (z = true ∧ s.angle.zTaken = false →
        t.angle.angle = BitVec.ofNat 16 (s.param 0x0512) ∧ t.angle.indexed = true ∧
        (s.angle.state = .unindexed ∨ s.angle.state = .lost → t.angle.state = .running ∨ t.angle.state = .stalled)) ∧
      t.time = s.time ∧ SameMem s t) ∧
  (∀ (s : State), s.live = true → s.angle.state ≠ .off →
    ∃ t, exec (.countEdge (!s.angle.encA) (!s.angle.encB) false) s = .next t ∧ t.angle.angle = s.angle.angle ∧ t.angle.turn = s.angle.turn ∧
      t.angle.quadErrs = satInc s.angle.quadErrs ∧ t.angle.quadTurn = s.angle.quadTurn + 1 ∧
      (s.angle.quadTurn + 1 ≥ 16 → t.angle.state = .lost) ∧ (s.angle.quadTurn + 1 < 16 → t.angle.state = s.angle.state) ∧ t.time = s.time) ∧
  (∀ (s : State) (a b z : Bool), s.angle.state = .off →
    exec (.countEdge a b z) s = .next (settle s { s with angle := { s.angle with encA := a, encB := b, zTaken := false } })) ∧
  (∀ s : State, s.live = true → s.angle.state ≠ .off → s.time.cycle ≥ s.angle.lastEdge + s.param 0x0516 * 800 →
    ∃ t, exec .stallTime s = .next t ∧ (t.angle.state = if s.angle.state = .running then .stalled else s.angle.state) ∧
      t.angle.angle = s.angle.angle ∧ t.angle.turn = s.angle.turn ∧ t.time = s.time) ∧
  (∀ (s : State) (p : Port), s.live = true →
    ∃ t, exec (.angleGateEdge p) s = .next t ∧
      t.angle.placed = s.angle.placed.filter (fun e => !(e.port == p.val && decide (e.fire ≤ s.time.cycle))) ∧
      t.angle.angle = s.angle.angle ∧ t.angle.state = s.angle.state ∧ t.time = s.time)

/-- R68, R73, R102, R71, R92: an express frame that begins to arrive at an external port, with its preamble, meeting no open window,
changes nothing but the list of the frames that arrive. At its first byte the input admits it, reserving the cells of the largest frame, or
refuses it and counts it. At its last byte the MAC counts a good frame with its bytes, and a runt or an oversize frame in one
counter; a frame that was refused touches nothing else. VID 4,095 is dropped at stage 1. -/
def Obligations.FramesArriving : Prop :=
  (∀ (s : State) (f : RxFrame), f.port.val < 22 → f.unit = .express →
    ((s.live = false ∨ s.linkUp f.port.val = false ∨ s.receiving f = true) → exec (.frameReceive f) s = .next (settle s s)) ∧
    (s.live = true → s.linkUp f.port.val = true → s.receiving f = false → (∀ o, o < 20 → (s.mill o).opened = none) →
      let rate := s.lineRate f.port.val
      ∃ t a, exec (.frameReceive f) s = .next t ∧ t.sw.arriving = s.sw.arriving ++ [a] ∧ a.port = f.port ∧ a.raw = f.bytes ∧
        a.code = f.codeErr ∧ a.fid = s.sw.nextFid ∧ t.sw.nextFid = s.sw.nextFid + 1 ∧ a.pre = s.time.cycle ∧
        a.start = s.time.cycle + 8 * 6400 / rate ∧ a.stop = s.time.cycle + byteCycles (f.bytes.length + 8) rate ∧ a.hs = 0 ∧ a.es = 0 ∧ a.cand = none ∧ a.admitted = false ∧
        t.sw.frames = s.sw.frames ∧ SameMem s t ∧ t.cnt32 = s.cnt32 ∧ t.cnt64 = s.cnt64 ∧ t.time = s.time ∧ t.params = s.params ∧
        t.sec = s.sec ∧ t.isl = s.isl)) ∧
  (∀ (s : State) (a : Arrival), s.arr a.fid = some a → a.port.val < 22 → a.cand = none → a.admitted = false →
    a.raw.length ≤ s.param (0x0280 + a.port.val) →
    (s.admits a.port.val = false → ∃ b, (s.admitStep a).arr a.fid = some b ∧ b.quiet = true ∧ b.hs = 14 ∧ b.resv = 0 ∧
      (s.admitStep a).c32 (portReg a.port.val 0x144) = satInc (s.c32 (portReg a.port.val 0x144)) ∧ SameMem s (s.admitStep a)) ∧
    (s.admits a.port.val = true → 64 ≤ a.raw.length → ∃ b, (s.admitStep a).arr a.fid = some b ∧ b.quiet = false ∧ b.admitted = true ∧
      b.resv = s.reserve a.port.val ∧ b.raw = a.raw ∧ b.stop = a.stop ∧ (s.admitStep a).cnt32 = s.cnt32 ∧ SameMem s (s.admitStep a))) ∧
  (∀ (s : State) (a : Arrival), a.port.val < 22 → a.cand = none →
    let p := a.port.val
    let u := s.putArr { a with es := 1 }
    (a.admitted = false → s.lastByte a = u) ∧
    (a.admitted = true → a.runt = true → s.lastByte a = u.portErr p 0x114) ∧
    (a.admitted = true → a.runt = false → a.past = true → s.lastByte a = u.portErr p 0x118) ∧
    (a.admitted = true → a.runt = false → a.past = false → (a.code = true ∨ a.fcsBad = true) → s.lastByte a = u) ∧
    (a.admitted = true → a.runt = false → a.past = false → a.code = false → a.fcsBad = false →
      (s.lastByte a).c64 (portReg p 0x100) = s.c64 (portReg p 0x100) + 1 ∧
      (s.lastByte a).c64 (portReg p 0x108) = s.c64 (portReg p 0x108) + BitVec.ofNat 64 a.raw.length ∧
      (s.lastByte a).cnt32 = s.cnt32 ∧ SameMem s (s.lastByte a))) ∧
  (∀ (s : State) (a : Arrival), s.sw.arriving = [a] → a.cand = none → a.quiet = true → a.stored = false → a.hs = 14 → a.es = 0 →
    s.sw.parHist = [] →
    (s.time.cycle < a.stop → s.ingressTick = s) ∧
    (a.stop ≤ s.time.cycle → s.time.cycle < a.stop + 2 → s.ingressTick = s.lastByte a)) ∧
  (∀ (s : State) (a : Arrival) (pcp : Nat) (dei : Bool), a.cand = none → a.parsed.trunc = false →
    a.parsed.ctag = some (pcp, dei, 4095) → s.parseStep a = (s.portErr a.port.val 0x120).putArr { a.dropBy 1 with hs := 13 } ∧
      (a.dropBy 1).head.dropped = 1 ∧ (a.dropBy 1).head.learn = none)

/-- R87, R88: one frame at a recovery function in use, as the algorithm of the rule computes it: pass or discard, the state after it and
the counter. A frame without R-TAG is passed and counted in TAGLESS only. The reset timer sets take_any once. -/
def Obligations.SequenceRecovery : Prop :=
  (∀ (s : State) (i : Nat) (q : BitVec 16), i < 2048 → bit (s.rd (0x04190000 + i * 16) 4) 0 = true →
    let cfg := s.rd (0x04190000 + i * 16) 4
    let len := bits cfg 8 3
    let r := s.recov i
    let delta := (q - r.seq).toInt
    let p := s.recover i (some q)
    let t := p.2
    (bit cfg 1 = false → r.takeAny = true →
      p.1 = true ∧ t.recov i = { takeAny := false, seq := q, hist := 1, timer := some s.time.cycle }) ∧
    (bit cfg 1 = false → r.takeAny = false → (delta ≥ len ∨ delta ≤ -(len : Int)) →
      p = (false, s.bump (recovCnt i 0xC))) ∧
    (bit cfg 1 = false → r.takeAny = false → 0 < delta → delta < len →
      p.1 = true ∧ (t.recov i).seq = q ∧ (t.recov i).takeAny = false ∧ (t.recov i).timer = some s.time.cycle ∧
      (∀ b, b < len → len ≤ 32 → (t.recov i).hist.getLsbD b =
        if b = 0 then true else if b < delta.toNat then false else r.hist.getLsbD (b - delta.toNat)) ∧
      (t.c32 (recovCnt i 0x10)).toNat = min 0xFFFFFFFF ((s.c32 (recovCnt i 0x10)).toNat +
        ((List.range len).filter (fun b => decide (len - delta.toNat ≤ b) && !r.hist.getLsbD b)).length)) ∧
    (bit cfg 1 = false → r.takeAny = false → delta ≤ 0 → -(len : Int) < delta → r.hist.getLsbD (-delta).toNat = true →
      p = (false, s.bump (recovCnt i 4))) ∧
    (bit cfg 1 = false → r.takeAny = false → delta ≤ 0 → -(len : Int) < delta → r.hist.getLsbD (-delta).toNat = false → len ≤ 32 →
      p.1 = true ∧ (t.recov i).hist = setBit r.hist (-delta).toNat true ∧ (t.recov i).seq = r.seq ∧
      t.c32 (recovCnt i 8) = satInc (s.c32 (recovCnt i 8)) ∧ (t.recov i).timer = some s.time.cycle) ∧
    (bit cfg 1 = true → (r.takeAny = true ∨ q ≠ r.seq) →
      p.1 = true ∧ (t.recov i).seq = q ∧ (t.recov i).takeAny = false ∧ (t.recov i).timer = some s.time.cycle) ∧
    (bit cfg 1 = true → r.takeAny = false → q = r.seq → p = (false, s.bump (recovCnt i 4))) ∧
    (p.1 = true → t.c32 (recovCnt i 0) = satInc (s.c32 (recovCnt i 0))) ∧
    (∀ j, j ≠ i → t.recov j = s.recov j)) ∧
  (∀ (s : State) (i : Nat), s.recover i none = (true, s.bump (recovCnt i 0x18))) ∧
  (∀ (s : State) (i : Fin 2048) (at_ : Nat), s.live = true → (s.recov i.val).takeAny = false → (s.recov i.val).timer = some at_ →
    let due := at_ + 800000 * bits (s.rd (0x04190000 + i.val * 16) 4) 31 16
    (due ≤ s.time.cycle → exec (.recoveryResetTimeout i) s = .next (settle s
      ((s.setRecov i.val { s.recov i.val with takeAny := true, timer := none }).bump (recovCnt i.val 0x14)))) ∧
    (s.time.cycle < due → exec (.recoveryResetTimeout i) s = .next (settle s s)))

/-- R82, R74, R83, R350: the destination set of stage 4. It never holds the ingress port but by a trap to P22, and outside traps it lies within the
members of the VLAN; reserved addresses are trapped or dropped; a VLAN that is not in use, and on a filtering port one that does
not hold the ingress port, drops the frame; an empty set drops it. -/
def Obligations.Forwarding : Prop :=
  ∀ (s : State) (port vid : Nat) (p : Parsed) (e : Option Nat), port < 24 →
    let h := s.forward port p vid e
    let v := s.vlan vid
    (h.dropped = 0 ∨ h.dropped = 4) ∧
    (h.dropped = 0 → h.trap22 = false → bit h.dests port = false ∧ ∀ i, bit h.dests i = true → bit v i = true ∧ i < 24) ∧
    (h.dropped = 0 → ∀ i, i ≠ 22 → bit h.dests i = true → bit v i = true ∧ i ≠ port) ∧
    (h.dropped = 0 → h.dests ≠ 0) ∧
    (p.reserved = true → byteAt p.da 5 = 0x0E → (p.etype = 0x88F7 ∨ p.etype = 0x88CC) → h.dropped = 0 ∧ h.dests = 2 ^ 22 ∧ h.learn = none) ∧
    (p.reserved = true → byteAt p.da 5 = 1 → p.etype = 0x8808 → h.dropped = 4 ∧ h.count = 0x128 ∧ h.learn = none) ∧
    (p.reserved = true → ¬ (byteAt p.da 5 = 0x0E ∧ (p.etype = 0x88F7 ∨ p.etype = 0x88CC)) → ¬ (byteAt p.da 5 = 1 ∧ p.etype = 0x8808) →
      h.dropped = 4 ∧ h.count = 0x124 ∧ h.learn = none) ∧
    (p.reserved = false → (bit v 24 = false ∨ (s.paramBit (0x02C0 + port) 2 = true ∧ bit v port = false)) →
      h.dropped = 4 ∧ h.count = 0x120) ∧
    (p.reserved = false → h.dropped = 4 → (h.count = 0x120 ∨ h.count = 0x13C ∨ h.count = 0x130 ∨ (s.secondary = true ∧ h.count = 1))) ∧
    (p.reserved = false → h.dropped = 0 → leNat p.da = 2 ^ 48 - 1 → s.secondary = false → (∀ x, e = some x → bit x 472 = false) →
      ∀ i, i < 24 → bit h.dests i = (bit v i && decide (i ≠ port)))

/-- R300, R311, R106, R85, R166: a link that comes up or goes down, and an aging sweep. The sweep raises AGE of every dynamic entry in
use and removes the entry whose AGE reaches 4; other bytes of memory and every static entry stay. -/
def Obligations.LinksAndAging : Prop :=
  (∀ (s : State) (p : Port) (mbps : Nat), s.live = true → p.val < 22 → s.sw.link.getLsbD p.val = false →
    s.param (0x0220 + p.val) = 1 → s.rateOk p.val mbps = true → s.nm.state ≠ .commit →
    ∃ t, exec (.linkUp p mbps) s = .next t ∧ (∀ i, i < 24 → t.sw.link.getLsbD i = (s.sw.link.getLsbD i || decide (i = p.val))) ∧
      SMap.get 0 t.sw.rate p.val = mbps ∧ t.dw.linkChg.getLsbD p.val = true ∧ t.sw.frames = s.sw.frames ∧ SameMem s t ∧
      t.cnt32 = s.cnt32 ∧ t.time = s.time) ∧
  (∀ (s : State) (p : Port), s.live = true → p.val < 22 → s.sw.link.getLsbD p.val = true →
    ∃ t, exec (.linkDown p) s = .next t ∧ (∀ i, i < 24 → t.sw.link.getLsbD i = (s.sw.link.getLsbD i && decide (i ≠ p.val))) ∧
      t.dw.linkChg.getLsbD p.val = true ∧ (t.egr p.val).tx = none ∧ (t.egr p.val).next = [] ∧ (t.egr p.val).held = none ∧
      SameMem s t ∧ t.time = s.time ∧ t.params = s.params) ∧
  (∀ (s : State) (p : Port), (s.sw.link.getLsbD p.val = false ∨ 22 ≤ p.val) → exec (.linkDown p) s = .next (settle s s)) ∧
  (∀ s : State, s.live = true → MemInv s → s.param 0x0210 ≠ 0 → s.secondary = false →
    s.time.cycle ≥ s.sw.agePhase + s.param 0x0210 * 200000000 →
    ∃ t, exec .agingSweep s = .next t ∧ t.sw.agePhase = s.time.cycle ∧
      (∀ i, i < 32768 →
        let e := s.macEntry i
        (bit e 88 = true → bit e 89 = false → 3 ≤ bits e 99 96 → t.macEntry i = 0) ∧
        (bit e 88 = true → bit e 89 = false → bits e 99 96 < 3 → t.macEntry i = e + 2 ^ 96) ∧
        (bit e 88 = false ∨ bit e 89 = true → t.macEntry i = e)) ∧
      (∀ a, (a < 0x04100000 ∨ 0x04180000 ≤ a) → t.rd8 a = s.rd8 a))

/-- R97, R99, R100: one scrub read, once it is due and the read port is idle or 64 cycles have passed. The next half-cell is decoded with the errors
that have arisen in it: a codeword that the decoder corrects is counted by its number of wrong symbols and written back 4 cycles
later, unless the half-cell is written first, one that needs no correction leaves memory as it was, and one that it cannot correct is the device fault of the buffer code with
the scrubber as its unit. Reads follow each other by 320 cycles, in an accelerated sweep by 20. -/
def Obligations.Scrubbing : Prop :=
  (∀ (s : State) (up : List (Fin 36 × Byte)), s.live = true → s.sw.scrubPos < 393216 → s.sw.scrubDue ≤ s.time.cycle → s.sw.scrubAt ≤ s.time.cycle →
    (s.sw.readAt ≤ s.time.cycle ∨ s.sw.scrubDue + 64 ≤ s.time.cycle) →
    let h := s.sw.scrubPos
    let a := 0x08000000 + h * 32
    let next := if h = 393215 then 0 else h + 1
    let cw := up.foldl (fun w (x : Fin 36 × Byte) => rsFlip w x.1.val x.2.toNat) (codeword (s.rdB a 32) (SMap.get 0 s.check h))
    (∀ w n, rsDecode cw = some (w, n) →
      ∃ t, exec (.scrubRead up) s = .next t ∧ t.sw.scrubPos = next ∧ t.sw.scrubLeft = s.sw.scrubLeft - 1 ∧
        t.sw.scrubDue = s.sw.scrubDue + (if s.sw.scrubLeft = 0 then 320 else 20) ∧ t.sw.scrubAt = s.time.cycle + 1 ∧
        (up = [] → SameMem s t ∧ t.check = s.check) ∧
        SameMemBut s t a 32 ∧ (∀ k, k ≠ h → SMap.get 0 t.check k = SMap.get 0 s.check k) ∧
        (n = 0 → t.sw.scrubHold = s.sw.scrubHold) ∧
        (n ≠ 0 → t.sw.scrubHold = s.sw.scrubHold ++ [(s.time.cycle + 4, h, w.map (BitVec.ofNat 8))] ∧
          t.sw.rsLast = BitVec.ofNat 32 (h + 2 ^ 19 + 2 ^ 21) ∧ t.dw.irqW1c.getLsbD 10 = true) ∧
        (n = 1 → t.c32 0x0489000C = satInc (s.c32 0x0489000C)) ∧ (n = 2 → t.c32 0x04890010 = satInc (s.c32 0x04890010)) ∧
        (next = 0 → t.c32 0x04890018 = satInc (s.c32 0x04890018)) ∧ (next ≠ 0 → t.c32 0x04890018 = s.c32 0x04890018) ∧
        t.sw.frames = s.sw.frames ∧ t.time = s.time) ∧
    (rsDecode cw = none → s.pw.inh0 = true → s.pw.vaon = true → s.upd.ready = none →
      ∃ t, exec (.scrubRead up) s = .next t ∧ t.pw.mode = .failSilent ∧ SameMemBut s t a 32 ∧
        ∃ e, t.pw.fr.last = some e ∧ e.code = 0x0101 ∧ e.unit = 1 ∧ e.detail.take 2 = [BitVec.ofNat 32 h, 0xFF])) ∧
  (∀ (s : State) (up : List (Fin 36 × Byte)), (s.time.cycle < s.sw.scrubDue ∨ s.time.cycle < s.sw.scrubAt ∨ (s.time.cycle < s.sw.readAt ∧ s.time.cycle < s.sw.scrubDue + 64)) →
    exec (.scrubRead up) s = .next (settle s s)) ∧
  (∀ (s : State) (at_ h : Nat) (b : List Byte), s.sw.scrubHold = [(at_, h, b)] → b.length = 36 →
    (s.time.cycle < at_ → s.scrubBack = s) ∧
    (at_ ≤ s.time.cycle → s.scrubBack.sw.scrubHold = [] ∧ SameMemBut s s.scrubBack (0x08000000 + h * 32) 32 ∧
      (∀ j, j < 32 → s.scrubBack.rd8 (0x08000000 + h * 32 + j) = b.getD j 0) ∧
      SMap.get 0 s.scrubBack.check h = BitVec.ofNat 32 (leNat (b.drop 32)))) ∧
  (∀ (s : State) (h : Nat) (b : List Byte), ∀ x ∈ (s.writeHalf h b).sw.scrubHold, x ∈ s.sw.scrubHold ∧ x.2.1 ≠ h)

/-- R96: the check symbols make a codeword: every syndrome of 32 data bytes with their check symbols is 0, so the decoder delivers them
as they are, with nothing counted. -/
def Obligations.CodewordsDecode : Prop :=
  ∀ data : List Nat, data.length = 32 → (∀ x, x ∈ data → x < 256) →
    rsSyns (data ++ rsCheck data) = [0, 0, 0, 0] ∧ rsDecode (data ++ rsCheck data) = some (data ++ rsCheck data, 0)

/-- R112, R113, R114: a cell at a confluence. A plane that does not fit the number, or a number outside the reorder window, is a fabric
integrity error; a number ahead of the expected one is held and counted. At the end of a cycle one cell with the expected number, that of
the lowest input, is released at an output and E advances. A cell held for 1,600 cycles is a confluence timeout. -/
def Obligations.Confluence : Prop :=
  (∀ (s : State) (o i : Port) (pl : Fin 4) (q : BitVec 12) (up : List (Fin 2 × Fin 36 × Byte)), s.live = true →
    let pair := i.val * 24 + o.val
    let d := (q - SMap.get 0 s.fab.expect pair).toNat
    ((q.toNat % 4 ≠ pl.val ∨ 256 ≤ d) → s.pw.inh0 = true → s.pw.vaon = true →
      ∃ t, exec (.cellArrive o i pl q up) s = .next t ∧ t.pw.mode = .failSilent ∧ ∃ e, t.pw.fr.last = some e ∧ e.code = 0x0103 ∧
        e.unit = BitVec.ofNat 8 pl.val ∧ e.detail = [BitVec.ofNat 32 i.val, BitVec.ofNat 32 o.val, BitVec.ofNat 32 q.toNat, BitVec.ofNat 32 d]) ∧
    (∀ c, q.toNat % 4 = pl.val → d < 256 →
      s.fab.flight.find? (fun c => c.inp = i && c.out = o && c.seq = q && c.at_ ≤ s.now) = some c →
      ∃ t, exec (.cellArrive o i pl q up) s = .next t ∧
        t.fab.store = s.fab.store ++
          [{ c with at_ := s.time.cycle, upset := up.map (fun (h, j, v) => (h.val, j.val, v.toNat)) }] ∧
        t.fab.flight = s.fab.flight.filter (fun x => !(x.inp = i && x.out = o && x.seq = q)) ∧
        t.fab.expect = s.fab.expect ∧ t.fab.out = s.fab.out ∧
        t.c32 (portReg o.val 0x194) = (if d = 0 then s.c32 (portReg o.val 0x194) else satInc (s.c32 (portReg o.val 0x194))) ∧
        t.pw.mode = .operating ∧ t.sw.frames = s.sw.frames ∧ SameMem s t)) ∧
  (∀ (s : State) (o : Nat),
    let due (c : CellTx) : Bool := c.out.val = o && c.seq = SMap.get 0 s.fab.expect (c.inp.val * 24 + o)
    let t := s.releaseNext o
    ((∀ c ∈ s.fab.store, due c = false) → t = s) ∧
    ((∃ c ∈ s.fab.store, due c = true) →
      ∃ c ∈ s.fab.store, due c = true ∧ (∀ x ∈ s.fab.store, due x = true → c.inp.val ≤ x.inp.val) ∧
        t.fab.out = s.fab.out ++ [{ c with at_ := s.time.cycle + 8 }] ∧
        t.fab.store = s.fab.store.filter (fun x => !(x.inp = c.inp && x.out = c.out && x.seq = c.seq)) ∧
        SMap.get 0 t.fab.expect (c.inp.val * 24 + o) = c.seq + 1 ∧
        (∀ k, k ≠ c.inp.val * 24 + o → SMap.get 0 t.fab.expect k = SMap.get 0 s.fab.expect k) ∧ t.sw = s.sw ∧ t.mem = s.mem)) ∧
  (∀ (s : State) (o : Port) (c : CellTx), s.live = true → s.pw.inh0 = true → s.pw.vaon = true →
    s.fab.store.find? (fun c => c.out = o && s.now ≥ c.at_ + 1600) = some c →
    ∃ t, exec (.confluenceTimeout o) s = .next t ∧ t.pw.mode = .failSilent ∧ ∃ e, t.pw.fr.last = some e ∧ e.code = 0x0102 ∧
      e.unit = BitVec.ofNat 8 o.val ∧ e.detail.take 3 = [BitVec.ofNat 32 c.inp.val,
        BitVec.ofNat 32 (SMap.get 0 s.fab.expect (c.inp.val * 24 + o.val)).toNat, BitVec.ofNat 32 c.seq.toNat])

/-- R98, R120, R121, R124: what a port puts on the wire as a frame ends. A good frame without MACsec leaves with the FCS that the carried one
and the edits give, and behind MACsec a corruption shows in the FCS as well; a frame found bad, and one whose next cell comes too late, leave
with the complement of the FCS over the bytes sent, and are counted in EG_STOMP and in the counter of the reason. The frame selected
next takes the place of the one that has left. -/
def Obligations.TransmitEnds : Prop :=
  (∀ (s : State) (o : Port) (x : TxFrame), s.live = true → (s.egr o.val).tx = some x → x.begun = true →
    let f := s.txFrame x
    let b := (f.send x.dest x.pcpCls x.raw).1
    let carried := (f.send x.dest x.pcpCls x.raw).2
    f.total ≤ x.got →
    x.tau + byteCycles (s.outLen f x.dest - x.sent + (if o.val < 22 then 8 else 0)) (s.lineRate o.val) ≤ s.time.cycle →
    ∃ t, exec (.frameTransmitEnd o) s = .next t ∧
      (f.bad = true → SMap.get [] t.sw.wire o.val = stompedFrame (x.sealed b) ∧
        t.c32 (portReg o.val 0x180) = satInc (s.c32 (portReg o.val 0x180)) ∧
        t.c32 (portReg o.val 0x184) = satInc (s.c32 (portReg o.val 0x184))) ∧
      (f.bad = false → x.sa = none →
        SMap.get [] t.sw.wire o.val = b ++ natLe 4 carried.toNat ∧ t.c32 (portReg o.val 0x180) = s.c32 (portReg o.val 0x180)) ∧
      (f.bad = false → carried = fcsOf b → SMap.get [] t.sw.wire o.val = x.sealed b ++ natLe 4 (fcsOf (x.sealed b)).toNat) ∧
      (f.bad = false → carried ≠ fcsOf b → SMap.get [] t.sw.wire o.val ≠ x.sealed b ++ natLe 4 (fcsOf (x.sealed b)).toNat) ∧
      (t.egr o.val).tx = (s.egr o.val).next.head? ∧ (t.egr o.val).next = (s.egr o.val).next.tail ∧
      (∀ p, p ≠ o.val → SMap.get [] t.sw.wire p = SMap.get [] s.sw.wire p) ∧ SameMem s t ∧ t.time = s.time) ∧
  (∀ b : List Byte, stompedFrame b = b ++ natLe 4 (0xFFFFFFFF - (fcsOf b).toNat)) ∧
  (∀ (s : State) (o : Port) (x : TxFrame), s.live = true → (s.egr o.val).tx = some x → x.begun = true →
    x.got + (s.nearCells o.val x).length < (s.txFrame x).total →
    let b := s.inHand o.val x
    s.byteLeaves o.val x b.length ≤ s.time.cycle + 22 →
    ∃ t, exec (.underrun o) s = .next t ∧ SMap.get [] t.sw.wire o.val = stompedFrame b ∧
      t.c32 (portReg o.val 0x188) = satInc (s.c32 (portReg o.val 0x188)) ∧
      t.c32 (portReg o.val 0x180) = satInc (s.c32 (portReg o.val 0x180)) ∧
      (t.egr o.val).tx = (s.egr o.val).next.head? ∧ SameMem s t ∧ t.time = s.time)

/-- R129, R132, R133: a selection. Of the classes in the order of R132 the first that is eligible with its weir open at the start instant is
taken; in it the Active leaf with the smallest start tag, the lower domain on equal tags; a tag below V counts as V (log entry 51). V becomes its tag, the tag grows by the
cost of the frame, the frame leaves its queue and its cells are pulled; a selection comes no earlier than 4 cycles after the one
before it. -/
def Obligations.EgressSelection : Prop :=
  (∀ (s s1 s2 : State) (o : Port) (c d : Nat) (x : LeafItem) (rest : List LeafItem) (f : Frame), s.live = true → s.nm.state ≠ .commit →
    let e := s.egr o.val
    (s.ahead o.val).1 ≤ s.time.cycle + 44 → (e.lastSelect = 0 ∨ e.lastSelect + 3 ≤ s.time.cycle) →
    s1 = ((s.setEgr o.val { e with lastSelect := s.time.cycle + 1 }).takeEffect o.val).dropResident o.val → (s1.egr o.val).held = none →
    chooseClass o.val (s.time.cycle + 44) false false (s1.classOrder o.val) s1 = (.take c, s2) →
    c < 8 → s2.chooseLeaf o.val c = some d → (s2.leaf o.val c d).items = x :: rest → s2.frame x.fid = some f → f.endAt ≤ s.time.cycle →
    ∃ t, exec (.egressSelect o) s = .next t ∧
      (t.leaf o.val c d).items = rest ∧ (t.cls o.val c).v = s2.startTag o.val c d ∧
      (t.leaf o.val c d).s = s2.startTag o.val c d + BitVec.ofNat 32 (s2.cost d (s2.outLen f x.dest)) ∧
      (t.egr o.val).lastSelect = s.time.cycle + 1 ∧
      (∃ y : TxFrame, y.fid = x.fid ∧ y.dest = x.dest ∧ y.begun = false ∧ y.tau = s.time.cycle + 44 ∧ y.cls.val = c ∧
        ((s2.egr o.val).tx = none → (t.egr o.val).tx = some y) ∧
        ((s2.egr o.val).tx ≠ none → (t.egr o.val).tx = (s2.egr o.val).tx ∧ (t.egr o.val).next = (s2.egr o.val).next ++ [y])) ∧
      (∃ p : Pull, t.fab.pulls = s2.fab.pulls ++ [p] ∧ p.fid = x.fid ∧ p.inp = f.inp ∧ p.out = o ∧ p.dest = x.dest ∧ p.idx = 0 ∧
        p.at_ = s.time.cycle + 2) ∧
      t.sw.frames = s2.sw.frames ∧ SameMem s t ∧ t.time = s.time) ∧
  (∀ (s : State) (o : Port), (s.live = false ∨ s.nm.state = .commit ∨
      ((s.egr o.val).lastSelect ≠ 0 ∧ s.time.cycle < (s.egr o.val).lastSelect + 3)) → exec (.egressSelect o) s = .next (settle s s)) ∧
  (∀ (s s' : State) (o tau c : Nat) (l : List Nat), chooseClass o tau false false l s = (.take c, s') →
    ∃ before after, l = before ++ c :: after ∧ s'.mayServe o c tau = true ∧ (s'.weir o c tau).1 = .open_ ∧
      ∀ b, b ∈ before → s.mayServe o b tau = false ∨ (s.weir o b tau).1 ≠ .open_) ∧
  (∀ (s : State) (o c d : Nat), s.chooseLeaf o c = some d →
    d < 16 ∧ s.leafActive o c d = true ∧ ∀ d', d' < 16 → s.leafActive o c d' = true →
      (s.startTag o c d - (s.cls o c).v).toInt < (s.startTag o c d' - (s.cls o c).v).toInt ∨
      ((s.startTag o c d - (s.cls o c).v).toInt = (s.startTag o c d' - (s.cls o c).v).toInt ∧ d ≤ d')) ∧
  (∀ (s : State) (o c d : Nat), 0 ≤ (s.startTag o c d - (s.cls o c).v).toInt ∧
    (0 ≤ ((s.leaf o c d).s - (s.cls o c).v).toInt → s.startTag o c d = (s.leaf o c d).s)) ∧
  (∀ (s : State) (o c : Nat), (∃ d, d < 16 ∧ s.leafActive o c d = true) → (s.chooseLeaf o c).isSome = true)

/-- R138, R141, R142: an eligibility time that arrives, the verification timer of preemption, and a preemption: at an 8-byte boundary, after at
least F bytes and with at least 64 left, the frame is held and counted once. -/
def Obligations.ShapersAndPreemption : Prop :=
  (∀ (s : State) (o : Port) (c : Fin 8) (d : Fin 16), s.live = true →
    ∃ t, exec (.atsEligible o c d) s = .next t ∧
      (t.leaf o.val c.val d.val).items.length = (s.leaf o.val c.val d.val).items.length ∧
      (∀ (i : Nat) (x : LeafItem), (s.leaf o.val c.val d.val).items[i]? = some x →
        (t.leaf o.val c.val d.val).items[i]? = some { x with act := x.act || (match x.elig with
          | some e => decide (e ≤ s.time.cycle)
          | none => false) }) ∧
      (∀ o' c' d', c' < 8 → d' < 16 → (o', c', d') ≠ (o.val, c.val, d.val) → t.leaf o' c' d' = s.leaf o' c' d') ∧ SameMem s t) ∧
  (∀ (s : State) (p : Fin 8), s.live = true → (s.egr p.val).verify = 1 → (s.egr p.val).verifyAt + 8000000 ≤ s.time.cycle →
    exec (.mmVerifyTimeout p) s = .next (settle s (s.setEgr p.val (if (s.egr p.val).attempts < 3
      then { s.egr p.val with attempts := (s.egr p.val).attempts + 1, verifyAt := s.time.cycle }
      else { s.egr p.val with verify := 3 })))) ∧
  (∀ (s : State) (p : Fin 8), s.time.cycle < (s.egr p.val).verifyAt + 8000000 → exec (.mmVerifyTimeout p) s = .next (settle s s)) ∧
  (∀ (s : State) (o : Port) (x y : TxFrame) (l : List TxFrame), s.live = true → (s.egr o.val).tx = some x → x.begun = true →
    x.preempted = false → s.isPreemptable o.val x.cls.val = true → s.frameHeld o.val = false →
    (s.egr o.val).next = y :: l → s.isPreemptable o.val y.cls.val = false →
    let len := s.outLen (s.txFrame x) x.dest
    let b := max ((s.bytesBegun o.val x s.time.cycle + 7) / 8 * 8) ((max (s.minFrag o.val) (x.sent + 8) + 7) / 8 * 8)
    (b + 64 ≤ len →
      ∃ t, exec (.preempt o) s = .next t ∧ (t.egr o.val).held = some { x with sent := b, begun := false, preempted := true } ∧
        (t.egr o.val).tx = some y ∧ (t.egr o.val).next = l ∧ b % 8 = 0 ∧ s.minFrag o.val ≤ b ∧ s.bytesBegun o.val x s.time.cycle ≤ b ∧
        t.c32 (txCnt o.val x.cls.val 0x1C) = satInc (s.c32 (txCnt o.val x.cls.val 0x1C)) ∧ SameMem s t) ∧
    (len < b + 64 → exec (.preempt o) s = .next (settle s s)))

/-- R147, R148, R149, R157: an entry of a time-indexed list begins at its instant and not before; a pending list becomes current at its
switch, bank and generation with it, and is counted. -/
def Obligations.GateLists : Prop :=
  (∀ (s : State) (p : Port) (h : GateHdr), s.live = true → (s.gate p.val).cur = some h → h.angle = false →
    let g := s.gate p.val
    let k := if g.entry + 1 ≥ h.count then 0 else g.entry + 1
    (s.time.ltime < g.nextEdge → exec (.gateEdge p) s = .next (settle s s)) ∧
    (g.nextEdge ≤ s.time.ltime → ∃ t, exec (.gateEdge p) s = .next t ∧
      t.gate p.val = { g with entry := k, nextEdge := g.nextEdge + s.gateInterval p.val false k * nsUnit,
                              state := BitVec.ofNat 8 (s.effState p.val (s.gateGates p.val false k)) } ∧
      t.c32 (portReg p.val 0x208) = (if k = 0 ∧ s.inForce (0x0420 + p.val) = 1 then satInc (s.c32 (portReg p.val 0x208))
        else s.c32 (portReg p.val 0x208)) ∧
      (∀ q, q ≠ p.val → t.gate q = s.gate q) ∧ SameMem s t ∧ t.time = s.time)) ∧
  (∀ (s : State) (p : Port) (h : GateHdr), s.live = true → (s.gate p.val).pend = some h → h.angle = false → h.count ≤ 1024 →
    (s.time.ltime < (s.gate p.val).switchAt → exec (.gateListSwitch p) s = .next (settle s s)) ∧
    ((s.gate p.val).switchAt ≤ s.time.ltime → ∃ t, exec (.gateListSwitch p) s = .next t ∧
      (t.gate p.val).cur = some h ∧ (t.gate p.val).pend = none ∧
      t.c32 (portReg p.val 0x20C) = satInc (s.c32 (portReg p.val 0x20C)) ∧
      (∀ i, i < h.count * 8 → t.rd8 (gateEntryAddr p.val false 0 + i) = s.rd8 (gateEntryAddr p.val true 0 + i)) ∧
      (∀ q, q ≠ p.val → t.gate q = s.gate q) ∧ t.time = s.time ∧ t.params = s.params)) ∧
  (∀ (s : State) (p : Port), (s.gate p.val).pend = none → exec (.gateListSwitch p) s = .next (settle s s))

/-- R159, R160, R164, R165, R166: a window is decided when its opening lies no more than the longest guard band ahead, or withdrawn and counted; it opens
at its instant and closes every class; it ends empty at the end of its arrival interval, and the port is free from the cycle after an end. R162, R175, R163: a set for the current generation is adopted at its cycle start: it becomes the current set in its bank, decided windows
of the earlier set stand on the port's counters alone, and the window counters start again. -/
def Obligations.MillraceWindows : Prop :=
  ((∀ (s : State) (p : Fin 20) (w : Fin 64) (m : Int) (o : Nat), s.live = true → w.val < (s.mill p.val).curCount →
    s.nextOpening p.val w.val = some (m, o) →
    let inPort := bits (s.rd (windowAddr p.val false w.val) 1) 4 0
    ((s.windowGuards p.val o).1 < s.cyclesTo o → exec (.windowDecision p w) s = .next (settle s s)) ∧
    (s.cyclesTo o ≤ (s.windowGuards p.val o).1 → s.millPorts p.val inPort = true →
      ∃ t d, exec (.windowDecision p w) s = .next t ∧ (t.mill p.val).decided = (s.mill p.val).decided ++ [d] ∧ d.idx = w.val ∧
        d.inPort = inPort ∧ d.open_ = o ∧ d.ownSet = true ∧ d.guard = (s.windowGuards p.val o).2 ∧
        t.cnt32 = s.cnt32 ∧ SameMem s t ∧ (∀ q, q ≠ p.val → t.mill q = s.mill q)) ∧
    (s.cyclesTo o ≤ (s.windowGuards p.val o).1 → s.millPorts p.val inPort = false →
      ∃ t, exec (.windowDecision p w) s = .next t ∧ (t.mill p.val).decided = (s.mill p.val).decided ∧
        t.c32 (portReg p.val 0x268) = satInc (s.c32 (portReg p.val 0x268)) ∧
        t.c32 (windowCnt p.val w.val 0xC) = satInc (s.c32 (windowCnt p.val w.val 0xC)) ∧ SameMem s t)) ∧
  (∀ (s : State) (p : Fin 20) (d : DecidedWin), s.live = true → d ∈ (s.mill p.val).decided →
    (∀ x ∈ (s.mill p.val).decided, x ≠ d → d.open_ < x.open_) →
    (s.mill p.val).opened = none →
    (s.time.ltime < d.open_ → exec (.windowOpen p) s = .next (settle s s)) ∧
    (d.open_ ≤ s.time.ltime → ∃ t, exec (.windowOpen p) s = .next t ∧
      (t.mill p.val).opened = some { win := d, openedAt := s.time.cycle, candidate := false, candEnd := 0, candFrom := 0, candTo := 0 } ∧
      (t.mill p.val).decided = (s.mill p.val).decided.erase d ∧ (∀ c, t.weirClosedNow p.val c = true) ∧
      (∀ c, (t.weir p.val c s.time.cycle).1 = .closed) ∧ SameMem s t)) ∧
  (∀ (s : State) (p : Fin 20) (w : OpenWin), s.live = true → (s.mill p.val).opened = some w → w.candidate = false →
    (w.openedAt + nsCycles w.win.arrive ≤ s.time.cycle → ∃ t, exec (.windowEnd p) s = .next t ∧ (t.mill p.val).opened = none ∧
      t.c32 (portReg p.val 0x264) = satInc (s.c32 (portReg p.val 0x264)) ∧
      (w.win.ownSet = true → t.c32 (windowCnt p.val w.win.idx 8) = satInc (s.c32 (windowCnt p.val w.win.idx 8))) ∧ SameMem s t) ∧
    (s.time.cycle < w.openedAt + nsCycles w.win.arrive → s.time.cycle < w.openedAt + nsCycles w.win.span → s.linkUp p.val = true →
      exec (.windowEnd p) s = .next (settle s s))) ∧
  (∀ (s : State) (p : Fin 20) (w : OpenWin), s.live = true → (s.mill p.val).opened = some w → w.candidate = true → w.candEnd ≤ s.time.cycle →
    exec (.windowEnd p) s = .next (settle s (s.setMill p.val { s.mill p.val with opened := none, freeAt := w.endAt + 1 })))) ∧
  (∀ (s : State) (p c : Nat), s.time.cycle < (s.mill p).freeAt → (s.mill p).opened = none → (s.weir p c s.time.cycle).1 = .closed) ∧
  (∀ (s : State) (p : Fin 20) (gen : BitVec 16), s.live = true → (s.mill p.val).nextGen = some gen →
    let x := s.mill p.val
    (s.time.ltime < x.nextAt → exec (.windowSetAdopt p) s = .next (settle s s)) ∧
    (x.nextAt ≤ s.time.ltime → ∃ t, exec (.windowSetAdopt p) s = .next t ∧
      (t.mill p.val).curGen = some gen ∧ (t.mill p.val).curCount = x.nextCount ∧ (t.mill p.val).nextGen = none ∧
      (t.mill p.val).decided = x.decided.map (fun d => { d with ownSet := false }) ∧
      (∀ i, i < x.nextSet.length → t.rd8 (windowAddr p.val false 0 + i) = x.nextSet.getD i 0) ∧
      (∀ w, w < 64 → t.c32 (windowCnt p.val w 0) = 0 ∧ t.c32 (windowCnt p.val w 4) = 0) ∧
      SameMemBut s t (windowAddr p.val false 0) x.nextSet.length ∧ (∀ q, q ≠ p.val → t.mill q = s.mill q) ∧ t.time = s.time))

/-- R177, R181, R183, R194, R199: one verdict for each unit, counted in exactly one counter of the lookup port. The first rule in ascending index
that is valid and matches decides; a rule or default action with DISP drop drops the unit, charges no meter and leaves memory as
it was. The gateway port takes a key every 4 cycles, received messages first and the two other sources in turn, and passes the verdict on. -/
def Obligations.ScreenVerdicts : Prop :=
  (∀ (s : State) (lport key len : Nat) (sm : Option Nat) (path : CopyPath) (unit : List Byte), lport < 26 → (∀ m, sm = some m → m < 4096) →
    let r := s.screen lport key len sm path unit
    let j := s.judgeKey lport key
    let t := r.2
    let cnt (o : Nat) := t.c32 (scrCnt lport o)
    let old (o : Nat) := s.c32 (scrCnt lport o)
    (r.1.pass = true →
      t.c64 (scrCnt lport 0) = s.c64 (scrCnt lport 0) + 1 ∧ cnt 0x8 = old 0x8 ∧ cnt 0xC = old 0xC ∧ cnt 0x10 = old 0x10 ∧ cnt 0x14 = old 0x14) ∧
    (r.1.pass = false →
      t.c64 (scrCnt lport 0) = s.c64 (scrCnt lport 0) ∧ r.1.cls = none ∧ r.1.dom = none ∧
      ∃ k, k ∈ [0x8, 0xC, 0x10, 0x14] ∧ cnt k = satInc (old k) ∧ ∀ i, i ∈ [0x8, 0xC, 0x10, 0x14] → i ≠ k → cnt i = old i) ∧
    (bits j.2 2 1 = 1 → path = .noCells ∨ s.param 0x0703 ≠ 1 →
      r.1.pass = false ∧ SameMem s t ∧ t.scr.meters = s.scr.meters ∧
      cnt (if j.1.isSome then 0x8 else 0xC) = satInc (old (if j.1.isSome then 0x8 else 0xC))) ∧
    (bits j.2 2 1 = 0 → sm = none → bit j.2 5 = false → r.1.pass = true) ∧
    (bit j.2 6 = false → bits j.2 2 1 ≠ 2 → SameMem s t)) ∧
  (∀ (s : State) (lport key : Nat), MemInv s →
    let valid (r : Nat) := r < 8192 ∧ bit (s.ruleAction s.activeBank r) 0 = true ∧ s.ruleMatches s.activeBank key r = true
    (∀ r a, s.judgeKey lport key = (some r, a) → valid r ∧ a = s.ruleAction s.activeBank r ∧ ∀ r', r' < r → ¬ valid r') ∧
    (∀ a, s.judgeKey lport key = (none, a) → ∀ r, ¬ valid r)) ∧
  (∀ g : GwPort,
    (∀ k l, g.first = k :: l → g.next = some (k, { g with first := l })) ∧
    (∀ k l, g.first = [] → g.second = k :: l → g.third = [] → g.next = some (k, { g with second := l })) ∧
    (∀ k l, g.first = [] → g.second = [] → g.third = k :: l → g.next = some (k, { g with third := l })) ∧
    (∀ a l b m, g.first = [] → g.second = a :: l → g.third = b :: m →
      g.next = some (if g.turn then (b, { g with third := m, turn := false }) else (a, { g with second := l, turn := true })))) ∧
  (∀ s : State, 0 < s.time.cycle →
    let at_ := s.time.cycle - 1
    (at_ < s.scr.gw.nextAt → s.gwAccept = s) ∧
    (∀ k g, s.scr.gw.nextAt ≤ at_ → s.scr.gw.next = some (k, g) →
      ∃ l : GwLookup, l.k = k ∧ l.from_ = at_ ∧ l.hs = 0 ∧
        s.gwAccept = { s with scr.gw := { g with hand := g.hand ++ [l], nextAt := at_ + 4 } }) ∧
    (∀ l : GwLookup, s.time.cycle < l.due → s.gwTurn l = s) ∧
    (∀ l : GwLookup, l.hs = 6 → l.from_ + 14 ≤ s.time.cycle →
      s.gwTurn l = { s with scr.gw := { s.scr.gw with hand := s.scr.gw.hand.filter (fun x => x.from_ ≠ l.from_) } }.gwJudged
        l.k.unit l.verdict.pass))

/-- R190, R191: one charge of a meter in use: both buckets grow by the rates over the cycles since the last charge and are clipped to
the bursts, and the colour follows; a meter that is not in use colours green and changes nothing. -/
def Obligations.Meters : Prop :=
  ∀ (s : State) (m len : Nat), m < 4096 →
    let a := 0x04200000 + m * 32
    let opt := s.rd (a + 16) 1
    let r := s.charge m len
    let x := s.meter m
    let y := r.2.meter m
    (bit opt 0 = false → r = ((.green, false), s)) ∧
    (bit opt 0 = true →
      let scale := if bit opt 1 then 3125000 else 25000
      let dt := s.time.cycle - x.last
      let new := x.tc + (s.rd a 4 * dt + x.tcRem) / scale
      let tc := min (s.rd (a + 4) 4 * 256) new
      let te := min (s.rd (a + 12) 4 * 256)
        (x.te + (s.rd (a + 8) 4 * dt + x.teRem) / scale + (if bit opt 2 then new - s.rd (a + 4) 4 * 256 else 0))
      let need := (if bit opt 1 then 1 else len) * 256
      let colour : Colour := if x.mar then .red else if need ≤ tc then .green else if need ≤ te then .yellow else .red
      r.1 = (colour, decide (colour = .red) || (decide (colour = .yellow) && bit opt 3)) ∧
      y.tc = (if colour = .green then tc - need else tc) ∧ y.te = (if colour = .yellow then te - need else te) ∧
      y.mar = (x.mar || (decide (colour = .red) && bit opt 4)) ∧ y.last = s.time.cycle ∧
      (colour = .green → r.2.c64 (meterCnt m 0) = s.c64 (meterCnt m 0) + 1) ∧
      (colour = .yellow → r.2.c32 (meterCnt m 8) = satInc (s.c32 (meterCnt m 8))) ∧
      (colour = .red → r.2.c32 (meterCnt m 0xC) = satInc (s.c32 (meterCnt m 0xC)))) ∧
    (bit opt 0 = true → (∀ k, k ≠ m → r.2.meter k = s.meter k) ∧ r.2.mem = s.mem ∧ r.2.time = s.time)

/-- R186: the states of a tracked TCP or DoIP connection: what each admits and where it leads; RST comes before FIN, and FIN before
what else a segment carries. R188, R197, R201: the sweeper removes an expired entry and counts it, and leaves any other; the banks swap when the last entry of a
full set has been written: bank and generation change, RULE_HITS start again and the load completes. -/
def Obligations.ConnectionsAndScreenCommands : Prop :=
  (∀ (u : ConnUnit) (init : Bool) (fin : Option Bool),
    let rst := bit u.flags 2
    let f := bit u.flags 0
    let sa := bit u.flags 1 && bit u.flags 4
    (tcpStep u 1 init fin = if rst then some 5 else if init && bit u.flags 1 && !bit u.flags 4 then some 1
      else if !init && sa then some 2 else none) ∧
    (u.kind = 0 → tcpStep u 2 init fin = if rst then some 5 else if f then some 4 else some 2) ∧
    (u.kind = 2 → init = true → u.plen0 = false → u.doip ≠ some 5 → u.doip ≠ some 7 → u.doip ≠ some 8 → tcpStep u 2 init fin = none) ∧
    (u.kind = 2 → init = false → tcpStep u 2 init fin =
      if rst then some 5 else if f then some 4 else if u.doip = some 6 then some 3 else some 2) ∧
    (tcpStep u 3 init fin = if rst then some 5 else if f then some 4 else some 3) ∧
    (tcpStep u 4 init fin = if rst then some 5 else if f = true ∧ fin ≠ some init then some 5 else some 4) ∧
    (∀ n, tcpStep u 5 init fin = some n → n = 5 ∧ u.flags = 16) ∧ (u.flags = 16 → tcpStep u 5 init fin = some 5)) ∧
  ((∀ (s : State) (e : Fin 65536), s.live = true → s.secondary = false → bit (s.rd (connAddr e.val) 1) 0 = true → s.connExpired e.val = true →
    ∃ t, exec (.connSweep e) s = .next t ∧ (∀ i, i < 64 → t.rd8 (connAddr e.val + i) = 0) ∧ SameMemBut s t (connAddr e.val) 64 ∧
      (MemInv s → t.connUsed = s.connUsed - 1) ∧ t.c32 0x0490000C = satInc (s.c32 0x0490000C) ∧ t.time = s.time ∧ t.params = s.params) ∧
  (∀ (s : State) (e : Fin 65536), (bit (s.rd (connAddr e.val) 1) 0 = false ∨ s.connExpired e.val = false) →
    exec (.connSweep e) s = .next (settle s s)) ∧
  (∀ (s : State) (l : RuleLoad), s.live = true → s.scr.load = some l →
    ((s.time.cycle < l.start + 4 * l.count ∨ l.next < l.count) → exec .ruleBankSwap s = .next (settle s s)) ∧
    (l.start + 4 * l.count ≤ s.time.cycle → l.count ≤ l.next → ∃ t, exec .ruleBankSwap s = .next t ∧ t.scr.bank = !s.scr.bank ∧ t.scr.gen = l.gen ∧
      t.scr.load = none ∧ t.scr.meters = s.scr.meters ∧ t.c32 0x04900010 = satInc (s.c32 0x04900010) ∧
      (∀ r, r < 8192 → t.c64 (ruleHits r) = 0) ∧
      (∀ a, (a < 0x048C0000 ∨ 0x048E0000 ≤ a) → t.c64 a = s.c64 a) ∧
      (∀ a, (a < 0x03000000 ∨ 0x03008000 ≤ a) → t.rd8 a = s.rd8 a) ∧
      (∀ b, s.host.busy = some (b, .ruleLoad) → t.host.busy = none ∧ (t.mb b.val).state = .done))) ∧
  (∀ s : State, s.scr.load = none → exec .ruleBankSwap s = .next (settle s s)))

/-- R215, R216, R218, R219, R220: a push is refused with its RESULT, or reads RESULT 0 while the screen judges it, and is then
refused or copied whole into the queue or the slot; the candidate of an attempt is the
priority slot, else the queue head; an entry sent leaves with OUTCOME 1; an entry outside the attempt leaves at an abort, a
flush or an expiry and is reported; one in the attempt stays. -/
def Obligations.CanTransmission : Prop :=
  (∀ (s : State) (ch : CanCh) (b : Fin 4) (prio : Bool), s.live = true →
    let n := ch.val
    let c := s.can n
    let a := txsAddr n b.val
    let w := s.rd a 18
    let busy := bit w 47 && c.longBusy (bits w 82 81)
    let full := if prio then c.prio.isSome else decide (c.queue.length ≥ 32)
    let m := s.stagedMsg n b.val
    let off := c.mode = 0 ∨ c.mode = 3
    (off → exec (.txPush ch b prio) s = .next (settle s ((s.wr (a + 20) 1 7).canIrq n 7))) ∧
    (¬ off → s.stagedBad n b.val = true → exec (.txPush ch b prio) s = .next (settle s ((s.wr (a + 20) 1 4).canIrq n 7))) ∧
    (¬ off → s.stagedBad n b.val = false → busy = true → exec (.txPush ch b prio) s = .next (settle s ((s.wr (a + 20) 1 6).canIrq n 7))) ∧
    (¬ off → s.stagedBad n b.val = false → busy = false → full = true →
      exec (.txPush ch b prio) s = .next (settle s (((s.bump (canReg n 0x140)).wr (a + 20) 1 3).canIrq n 7))) ∧
    (¬ off → s.stagedBad n b.val = false → busy = false → full = false →
      ∃ e : CanEntry, e.msg = m ∧ e.src = b.val ∧ e.tag = BitVec.ofNat 16 (bits w 63 48) ∧ e.lifetime = bits w 143 128 ∧ e.tick = s.tick ∧
        exec (.txPush ch b prio) s =
          .next (settle s ((s.wr (a + 20) 1 0).postKey (.push ch b prio e) (canKey n true none m) m.data)))) ∧
  (∀ (s : State) (ch : CanCh) (b : Fin 4) (prio : Bool) (e : CanEntry),
    let n := ch.val
    let c := s.can n
    let a := txsAddr n b.val
    let full := if prio then c.prio.isSome else decide (c.queue.length ≥ 32)
    let judged (pass : Bool) := s.gwJudged (.push ch b prio e) pass
    (judged false = ((s.bump (canReg n 0x13C)).wr (a + 20) 1 5).canIrq n 7) ∧
    (c.mode ≠ 0 → c.mode ≠ 3 → full = true → judged true = ((s.bump (canReg n 0x140)).wr (a + 20) 1 3).canIrq n 7) ∧
    (c.mode ≠ 0 → c.mode ≠ 3 → full = false →
      (judged true).can n = (if prio then { c with prio := some e } else { c with queue := c.queue ++ [e] }) ∧
      (judged true).rd (a + 20) 1 = (if prio then 2 else 1) ∧ SameMemBut s (judged true) (a + 20) 1 ∧
      (∀ k, k ≠ n → (judged true).can k = s.can k))) ∧
  (∀ (s : State) (ch : CanCh) (fp : Bool) (e : CanEntry),
    let c := s.can ch.val
    c.candidate = some (fp, e) →
    (s.live = true → s.nm.state ≠ .commit → s.secondary = false → c.mode = 1 → c.hold = false → s.param (0x0800 + ch.val) = 1 → c.pstate = 2 → c.attempt = none →
      c.busOff = false → c.busyTo ≤ s.time.cycle → c.startAt ≤ s.time.cycle →
      ∃ t m, exec (.canTxStart ch) s = .next t ∧ t.can ch.val = { c with attempt := some fp, sof := s.ts, pstate := 4, ended := false, lastTx := some m } ∧
        m.id = e.msg.id ∧ m.data.length = e.msg.data.length ∧ (e.long = none → m.data = e.msg.data) ∧ SameMem s t ∧
        (∀ k, k ≠ ch.val → t.can k = s.can k)) ∧
    ((c.mode ≠ 1 ∨ c.hold = true ∨ s.param (0x0800 + ch.val) ≠ 1 ∨ c.busOff = true ∨ c.pstate ≠ 2 ∨ s.time.cycle < c.busyTo ∨ s.time.cycle < c.startAt) →
      exec (.canTxStart ch) s = .next (settle s s))) ∧
  (∀ c : Can, (∀ e, c.prio = some e → c.candidate = some (true, e)) ∧
    (∀ e q, c.prio = none → c.queue = e :: q → c.candidate = some (false, e))) ∧
  (∀ (s : State) (ch : CanCh) (fp : Bool) (e : CanEntry) (d : Option Nat), s.live = true →
    let n := ch.val
    let c := s.can n
    c.attempt = some fp → (if fp then c.prio = some e else ∃ q, c.queue = e :: q) → c.ended = false →
    (∃ t, exec (.canTxEnd ch .sent d) s = .next t ∧ CanReported s t n e 1 c.sof ∧
      t.c64 (canReg n 0x108) = s.c64 (canReg n 0x108) + 1 ∧ (t.can n).attempt = none ∧ (t.can n).pstate = 2 ∧
      (t.can n).busyTo = s.time.cycle + s.canBits n 3 ∧ (t.can n).tec = c.tec - 1 ∧ (t.can n).prio = (if fp then none else c.prio) ∧
      (t.can n).queue = (if fp then c.queue else c.queue.drop 1) ∧ (∀ k, k ≠ n → t.can k = s.can k)) ∧
    (c.doomed = none → c.opts.getLsbD 6 = false →
      ∃ t, exec (.canTxEnd ch .lostArbitration d) s = .next t ∧ t.c32 (canReg n 0x128) = satInc (s.c32 (canReg n 0x128)) ∧
        (t.can n).attempt = none ∧ (t.can n).pstate = 3 ∧ (t.can n).prio = c.prio ∧ (t.can n).queue = c.queue ∧ (t.can n).tec = c.tec ∧
        SameMem s t) ∧
    (c.doomed = none → c.opts.getLsbD 6 = true →
      ∃ t, exec (.canTxEnd ch .error d) s = .next t ∧ CanReported s t n e 3 s.ts ∧ (t.can n).attempt = none ∧
        (t.can n).queue = (if fp then c.queue else c.queue.drop 1))) ∧
  (∀ (s : State) (ch : CanCh) (r : CanTxResult) (d : Option Nat), s.live = true → (s.can ch.val).ended = true →
    ∃ v, exec (.canTxEnd ch r d) s = .next (settle s (s.setCan ch.val { s.can ch.val with ended := false, tdcv := v })) ∧
      (d = none → v = (s.can ch.val).tdcv) ∧
      (∀ x m, d = some x → (s.can ch.val).opts.getLsbD 3 = true → (s.can ch.val).lastTx = some m → m.fdf = true →
        v = BitVec.ofNat 8 (min 255 x))) ∧
  (∀ (s : State) (ch : CanCh) (e : CanEntry), s.live = true →
    let n := ch.val
    let c := s.can n
    (∀ q, c.queue = e :: q → c.attempt ≠ some false →
      ∃ t, exec (.abortHead ch) s = .next t ∧ (t.can n).queue = q ∧ (t.can n).prio = c.prio ∧ CanReported s t n e 3 s.ts ∧
        t.c32 (canReg n 0x148) = satInc (s.c32 (canReg n 0x148))) ∧
    (∀ q, c.queue = e :: q → c.attempt = some false → c.doomed = none →
      exec (.abortHead ch) s = .next (settle s (s.setCan n { c with doomed := some 3 }))) ∧
    (c.prio = some e → c.attempt ≠ some true →
      ∃ t, exec (.abortPrio ch) s = .next t ∧ (t.can n).queue = c.queue ∧ (t.can n).prio = none ∧ CanReported s t n e 3 s.ts ∧
        t.c32 (canReg n 0x148) = satInc (s.c32 (canReg n 0x148))) ∧
    (c.prio = some e → c.attempt = some true → c.doomed = none →
      exec (.abortPrio ch) s = .next (settle s (s.setCan n { c with doomed := some 3 }))) ∧
    (c.queue = [] → exec (.abortHead ch) s = .next (settle s s)) ∧ (c.prio = none → exec (.abortPrio ch) s = .next (settle s s))) ∧
  (∀ (s : State) (ch : CanCh), s.live = true →
    let n := ch.val
    let c := s.can n
    (c.attempt = none →
      ∃ t, exec (.flush ch) s = .next t ∧ (t.can n).queue = [] ∧ (t.can n).prio = none ∧
        (t.c32 (canReg n 0x148)).toNat = min 0xFFFFFFFF ((s.c32 (canReg n 0x148)).toNat + c.entries.length) ∧
        (∀ k, k ≠ n → t.can k = s.can k)) ∧
    (c.attempt = none →
      ∃ t, exec (.canLifetimeExpiry ch) s = .next t ∧ (t.can n).queue = c.queue.filter (fun e => !s.canExpired e) ∧
        (t.can n).prio = c.prio.filter (fun e => !s.canExpired e) ∧
        (t.c32 (canReg n 0x144)).toNat = min 0xFFFFFFFF ((s.c32 (canReg n 0x144)).toNat + (c.entries.filter s.canExpired).length)) ∧
    (∀ (fp : Bool) (e : CanEntry), c.attempt = some fp → c.candidate = some (fp, e) →
      ∃ t u, exec (.flush ch) s = .next t ∧ (t.can n).attempt = some fp ∧ (t.can n).candidate = some (fp, e) ∧
        exec (.canLifetimeExpiry ch) s = .next u ∧ (u.can n).attempt = some fp ∧ (u.can n).candidate = some (fp, e)))

/-- R204, R205, R206, R221, R222, R224: an error of a frame counts in its counter and LEC, and in Normal mode in TEC and REC; TEC above 255
is bus-off, which keeps every waiting entry unless flushing is set; recovery clears both error counters. A mode change acts at a bus
idle. Which rule of the standard counts an error is the model's reading of ISO 11898-1 (PRESUMED, log entry 13), and what an XL frame
counts while its error signalling is off is free. -/
def Obligations.CanErrorsAndModes : Prop :=
  (∀ (s : State) (ch : CanCh) (kind : CanErrKind) (place : CanErrPlace) (after dominant xl : Bool), s.live = true →
    let n := ch.val
    let c := s.can n
    let x := c.countErr (c.errRule kind place after dominant)
    let counted := place = .frame ∨ place = .flag
    let silent := c.opts.getLsbD 4 = false ∧ (match c.attempt, c.lastTx with | some _, some m => m.xlf | _, _ => xl) = true
    c.mode ≠ 0 → (c.pstate = 2 ∨ c.pstate = 3 ∨ c.pstate = 4) →
    ∃ t, exec (.canBusError ch kind ⟨place, dominant, xl⟩ after) s = .next t ∧
      (counted → (t.can n).lec = (canErrCode kind).1 ∧
        t.c32 (canReg n (canErrCode kind).2) = satInc (s.c32 (canReg n (canErrCode kind).2)) ∧
        t.c32 (canReg n 0x124) = (if after && decide (kind = .bitRecessive) && c.attempt.isSome then satInc (s.c32 (canReg n 0x124))
          else s.c32 (canReg n 0x124))) ∧
      (¬ counted → (t.can n).lec = c.lec ∧ t.c32 (canReg n (canErrCode kind).2) = s.c32 (canReg n (canErrCode kind).2)) ∧
      (c.attempt = none → (t.can n).busyTo = s.time.cycle + s.canBits n 17 ∧ (s.canMode n = 2 → (t.can n).pstate = 1)) ∧
      (s.canMode n ≠ 1 → (t.can n).tec = c.tec ∧ (t.can n).recErr = c.recErr ∧ (t.can n).queue = c.queue ∧ (t.can n).prio = c.prio ∧
        (t.can n).errFlag = none) ∧
      (s.canMode n = 1 → x.tec ≤ 255 → c.tec ≤ 255 → (((t.can n).tec = x.tec ∧ (t.can n).recErr = x.recErr) ∨
          (silent ∧ (t.can n).tec = c.tec ∧ (t.can n).recErr = c.recErr)) ∧ (t.can n).busOff = c.busOff ∧
        (t.can n).queue = c.queue ∧ (t.can n).prio = c.prio ∧ (t.can n).attempt = c.attempt ∧ SameMem s t ∧
        (¬ silent → (t.can n).errFlag = some (decide (c.errState = 0)))) ∧
      (s.canMode n = 1 → ¬ silent → 255 < x.tec → (t.can n).busOff = true ∧ (t.can n).recovering = !c.boOpts.getLsbD 0 ∧
        (t.can n).attempt = none ∧ (t.can n).irq.getLsbD 5 = true ∧
        t.c32 (canReg n 0x14C) = satInc (s.c32 (canReg n 0x14C)) ∧
        (c.boOpts.getLsbD 1 = false → c.doomed = none → c.opts.getLsbD 6 = false →
          (t.can n).queue = c.queue ∧ (t.can n).prio = c.prio ∧ SameMem s t) ∧
        (c.boOpts.getLsbD 1 = true → (t.can n).queue = [] ∧ (t.can n).prio = none)) ∧
      (∀ k, k ≠ n → t.can k = s.can k)) ∧
  (∀ c : Can, (c.countErr .transmitter).tec = c.tec + 8 ∧ (c.countErr .transmitter).recErr = c.recErr ∧
    (c.countErr .receiver).recErr = min 255 (c.recErr + 1) ∧ (c.countErr .receiverDominant).recErr = min 255 (c.recErr + 8) ∧
    (c.countErr .receiver).tec = c.tec ∧ c.countErr .exempt = c) ∧
  (∀ (s : State) (ch : CanCh), s.live = true →
    let n := ch.val
    let c := s.can n
    (c.busOff = true → c.recovering = false →
      exec (.recover ch) s = .next (settle s (s.setCan n { c with recovering := true, pstate := 6 }))) ∧
    (c.busOff = false → exec (.recover ch) s = .next (settle s s)) ∧
    (c.busOff = true → c.recovering = true →
      ∃ t, exec (.busOffRecoveryComplete ch) s = .next t ∧ (t.can n).tec = 0 ∧ (t.can n).recErr = 0 ∧ (t.can n).busOff = false ∧
        (t.can n).recov = 128 ∧ (t.can n).pstate = 2 ∧ (t.can n).irq.getLsbD 6 = true ∧ (t.can n).queue = c.queue ∧
        (t.can n).prio = c.prio ∧ SameMem s t) ∧
    ((c.busOff = false ∨ c.recovering = false) → exec (.busOffRecoveryComplete ch) s = .next (settle s s)) ∧
    (c.pstate = 1 → exec (.canIntegration ch) s = .next (settle s ((s.setCan n { c with pstate := 2, busyTo := s.time.cycle }).canLatch n))) ∧
    (c.pstate ≠ 1 → exec (.canIntegration ch) s = .next (settle s s))) ∧
  (∀ (s : State) (ch : CanCh) (m : Fin 4), s.live = true → s.param (0x0800 + ch.val) = m.val →
    let n := ch.val
    let c := s.can n
    ((c.mode = m ∨ c.attempt ≠ none ∨ (c.pstate = 2 ∧ s.time.cycle < c.busyTo) ∨ c.pstate = 1 ∨ c.pstate = 3 ∨ c.pstate = 4) →
      exec (.canModeChange ch) s = .next (settle s s)) ∧
    (c.mode = 0 → m ≠ 0 → s.canMayChange n = true →
      ∃ t, exec (.canModeChange ch) s = .next t ∧ (t.can n).mode = m ∧ (t.can n).pstate = 1 ∧ (t.can n).tec = 0 ∧ (t.can n).recErr = 0 ∧
        (t.can n).nominal = BitVec.ofNat 32 (s.param (0x0820 + n)) ∧ (t.can n).opts = BitVec.ofNat 9 (s.param (0x0880 + n)) ∧
        (t.can n).queue = c.queue ∧ SameMem s t) ∧
    (c.mode ≠ 0 → c.mode ≠ m → s.canMayChange n = true → (m = 0 ∨ m = 3) →
      ∃ t, exec (.canModeChange ch) s = .next t ∧ (t.can n).mode = m ∧ (t.can n).queue = [] ∧ (t.can n).prio = none ∧
        (t.c32 (canReg n 0x148)).toNat = min 0xFFFFFFFF ((s.c32 (canReg n 0x148)).toNat + c.entries.length) ∧
        (m = 0 → (t.can n).tec = 0 ∧ (t.can n).recErr = 0 ∧ (t.can n).pstate = 0)) ∧
    (c.mode ≠ 0 → c.mode ≠ m → s.canMayChange n = true → (m = 1 ∨ m = 2) →
      ∃ t, exec (.canModeChange ch) s = .next t ∧ (t.can n).mode = m ∧ (t.can n).queue = c.queue ∧ (t.can n).prio = c.prio ∧
        (t.can n).tec = c.tec ∧ (t.can n).recErr = c.recErr ∧ SameMem s t)) ∧
  (∀ (s : State) (n : Nat), s.nm.state = .commit → s.nm.commitAt + 1440000 ≤ s.time.cycle → s.canMayChange n = false)

/-- R203, R204, R209, R210, R212: a valid message is counted and goes to the screen, matched or not, its data as long as its DLC states. The
lowest-numbered matching object takes it when the verdict is pass. A store sets NEWDAT, sets LOST over an unread message, counts OSEQ and
keeps what lies beyond its data. A message in a format that is off does nothing, or makes a channel with protocol exception integrate
anew. -/
def Obligations.CanReception : Prop :=
  (∀ (s : State) (ch : CanCh) (x : CanMsg) (own : Bool) (age : Nat),
    let n := ch.val
    let c := s.can n
    let m := canNorm x
    let fmtOn := (x.fdf = false ∨ x.xlf = true ∨ c.opts.getLsbD 0 = true) ∧ (x.xlf = false ∨ c.opts.getLsbD 1 = true)
    let ready := if own then c.attempt.isSome = true ∧ c.opts.getLsbD 7 = true else c.pstate = 2 ∨ c.pstate = 3
    let s1 := (if own then s else s.canHeard n).add64 (canReg n 0x100) 1
    let obj := s1.objFor n m
    let rs := match obj with | some k => s1.feeding 1 n k | none => []
    let ts := ts32 (s.time.ltime - age * s.time.incr)
    ((s.live = false ∨ c.mode = 0 ∨ ¬ ready) → exec (.canReceive ch x own age) s = .next (settle s s)) ∧
    (s.live = true → c.mode ≠ 0 → ready → ¬ fmtOn → exec (.canReceive ch x own age) s = .next (settle s
      (if c.opts.getLsbD 8 = true ∧ own = false then s.setCan n { c with pstate := 1 } else s))) ∧
    (own = false → (s.canHeard n).can n = { (s.canGood n).can n with
      pstate := 2, busyTo := s.time.cycle + (s.canGood n).canBits n 4, ours := false,
      acked := decide (s.canMode n = 1 ∨ s.canMode n = 2) }) ∧
    (s.live = true → c.mode ≠ 0 → ready → fmtOn →
      exec (.canReceive ch x own age) s = .next (settle s ((if obj = none then s1.bump (canReg n 0x12C) else s1).postKey
        (.canRx ch m own ts obj rs) (canKey n false rs.head? m) m.data)))) ∧
  (∀ (s : State) (ch : CanCh) (m : CanMsg) (own : Bool) (ts : Word) (rs : List Nat),
    let n := ch.val
    let judged (obj : Option Nat) (pass : Bool) := s.gwJudged (.canRx ch m own ts obj rs) pass
    (∀ k, (m.xlf = false ∨ m.data.length ≤ 64 ∨ (s.objLong n k).isSome = true) → judged (some k) true =
      (let u := (s.canStore n k m ts).feed rs (canPdu m ts); if own then u else u.canKeepAlive n m)) ∧
    (∀ k, m.xlf = true → 64 < m.data.length → (s.objLong n k).isSome = false → judged (some k) true =
      (let u := s.bump (canReg n 0x138); if own then u else u.canKeepAlive n m)) ∧
    (judged none true = if own then s else s.canKeepAlive n m) ∧
    (∀ obj, (judged obj false).mem = s.mem ∧ (judged obj false).c32 (canReg n 0x134) = satInc (s.c32 (canReg n 0x134)) ∧
      (judged obj false).bus = s.bus)) ∧
  (∀ (s : State) (n k : Nat) (m : CanMsg), s.objFor n m = some k →
    k < 128 ∧ s.objMatches n m k = true ∧ ∀ i, i < k → s.objMatches n m i = false) ∧
  (∀ (s : State) (n k : Nat) (m : CanMsg) (ts : Word), n < 32 → k < 128 → m.data.length ≤ 2048 →
    ((s.objLong n k).isSome = true ∨ m.data.length ≤ 64) →
    let a := canObj n k
    let base := match s.objLong n k with | some j => canLong n j | none => a + 32
    let t := s.canStore n k m ts
    let lost := bit (s.rd (a + 8) 1) 0
    bit (t.rd (a + 8) 1) 0 = true ∧ bit (t.rd (a + 8) 1) 1 = (lost || bit (s.rd (a + 8) 1) 1) ∧
    t.rd (a + 12) 4 = (s.rd (a + 12) 4 + 1) % 2 ^ 32 ∧ t.rd (a + 16) 4 = ts.toNat ∧
    bits (t.rd (a + 20) 2) 11 0 = m.data.length ∧ bit (t.rd (a + 22) 1) 4 = m.rtr ∧
    (∀ i, i < m.data.length → t.rd8 (base + i) = m.data.getD i 0) ∧
    (∀ b, (b < a + 8 ∨ a + 32 ≤ b) → (b < base ∨ base + m.data.length ≤ b) → t.rd8 b = s.rd8 b) ∧
    (t.can n).irq.getLsbD 0 = true ∧
    t.c32 (canReg n 0x130) = (if lost then satInc (s.c32 (canReg n 0x130)) else s.c32 (canReg n 0x130)))

/-- R234, R235, R236, R323: a table switch is checked, refused or held to the end of the slot; at the end of a slot the next entry begins, the
pending table starts, a resolving table runs or returns to the table before it; a header counts as its protected identifier completes.
A commander goes to sleep with 00 and seven FF, at the end of its slot, and restarts its table at entry 0. -/
def Obligations.LinSchedules : Prop :=
  (∀ (s : State) (ch : LinCh) (v : Byte), s.live = true → s.linRole ch.val = 1 →
    let m := ch.val
    let l := s.lin m
    (v = 0xFF → l.running = true → exec (.linSched ch v) s = .next (settle s (s.setLin m { l with pending := some none }))) ∧
    (v.toNat < 8 → s.linTableOk m v.toNat = false → exec (.linSched ch v) s = .next (settle s (s.bump (linReg m 0x128)))) ∧
    (v.toNat < 8 → s.linTableOk m v.toNat = true → l.running = true →
      ∃ tb : Fin 8, tb.val = v.toNat ∧ exec (.linSched ch v) s = .next (settle s (s.setLin m { l with pending := some (some tb) }))) ∧
    (v.toNat < 8 → s.linTableOk m v.toNat = true → l.running = false →
      ∃ t, exec (.linSched ch v) s = .next t ∧ (t.lin m).running = true ∧ (t.lin m).table.val = v.toNat ∧ (t.lin m).entry = 0 ∧
        (t.lin m).started = false ∧ (t.lin m).slotEnd = s.time.cycle ∧ (t.lin m).irq.getLsbD 4 = true ∧ SameMem s t)) ∧
  (∀ (s : State) (m t : Nat), s.linTableOk m t = true ↔
    (s.linSlotLen m t 0 ≠ 0 ∧ ∀ e, e < 64 → (∀ i, i ≤ e → s.linSlotLen m t i ≠ 0) → s.linEntryOk m t e = true)) ∧
  (∀ (s : State) (ch : LinCh), s.live = true → s.linRole ch.val = 1 → s.secondary = false →
    let m := ch.val
    let l := s.lin m
    l.running = true → l.asleep = false →
    (s.time.cycle < l.slotEnd → exec (.linSlot ch) s = .next (settle s s)) ∧
    (l.slotEnd ≤ s.time.cycle → l.started = true →
      let start := if s.time.cycle < l.slotEnd + 800 then l.slotEnd else s.time.cycle
      (l.collNext = none → l.rets = [] → l.pending = none → s.linSlotLen m l.table.val 0 ≠ 0 →
        let e := if s.linSlotLen m l.table.val (l.entry.val + 1) = 0 then 0 else l.entry.val + 1
        ∃ t, exec (.linSlot ch) s = .next t ∧ (t.lin m).running = true ∧ (t.lin m).table = l.table ∧ (t.lin m).entry.val = e ∧
          (t.lin m).slotEnd = start + msCycles (s.linSlotLen m l.table.val e * s.param (0x0930 + m)) ∧
          (∀ k, k ≠ m → t.lin k = s.lin k) ∧ t.c64 (linReg m 0x100) = s.c64 (linReg m 0x100) ∧ SameMem s t ∧
          (∀ i, s.linFrames m l.table.val e = (0, [i]) →
            ∃ h, (t.lin m).header = some h ∧ h.id = i ∧ h.kind = .plain ∧ h.past = false ∧
              h.at_ = s.time.cycle + s.linBits m (s.param (0x0940 + m) + 21) ∧ (t.lin m).lastTx = [BitVec.ofNat 8 (linPid i)]) ∧
          (∀ ids, s.linFrames m l.table.val e = (2, ids) → (∀ i, i ∈ ids → s.linUpdated m i = false) → (t.lin m).header = none)) ∧
      (∀ tb, l.rets = [] → l.pending = some (some tb) → s.linSlotLen m tb.val 0 ≠ 0 →
        ∃ t, exec (.linSlot ch) s = .next t ∧ (t.lin m).running = true ∧ (t.lin m).table = tb ∧ (t.lin m).entry = 0 ∧
          (t.lin m).pending = none ∧ (t.lin m).irq.getLsbD 4 = true) ∧
      (l.pending = some none →
        ∃ t, exec (.linSlot ch) s = .next t ∧ (t.lin m).running = false ∧ (t.lin m).pending = none ∧ SameMem s t) ∧
      (∀ ct, l.collNext = some ct → l.pending = none → s.linSlotLen m ct.val 0 ≠ 0 →
        ∃ t, exec (.linSlot ch) s = .next t ∧ (t.lin m).table = ct ∧ (t.lin m).entry = 0 ∧ (t.lin m).collNext = none ∧
          (t.lin m).rets = (l.table, l.entry) :: l.rets) ∧
      (∀ r rs, l.rets = r :: rs → l.collNext = none → l.pending = none → s.linSlotLen m l.table.val (l.entry.val + 1) = 0 →
        s.linSlotLen m r.1.val (r.2.val + 1) ≠ 0 →
        ∃ t, exec (.linSlot ch) s = .next t ∧ (t.lin m).table = r.1 ∧ (t.lin m).entry.val = r.2.val + 1 ∧ (t.lin m).rets = rs))) ∧
  (∀ (s : State) (ch : LinCh) (h : LinHdr),
    let m := ch.val
    let l := s.lin m
    l.header = some h → h.past = false → l.sleepDue = false → l.old = none → l.initDue = false →
    (s.time.cycle < h.at_ → s.linCycle m = s) ∧
    (h.at_ ≤ s.time.cycle → h.kind = .plain → (h.cfg h.id).bad = false → h.publishes = false →
      s.linCycle m = (s.setLin m { l with header := some { h with past := true } }).add64 (linReg m 0x100) 1) ∧
    (h.at_ ≤ s.time.cycle → h.kind = .sleep → h.id = 0x3C →
      (s.linCycle m).c64 (linReg m 0x100) = s.c64 (linReg m 0x100) + 1 ∧ ((s.linCycle m).lin m).sending = some 0x3C ∧
      ((s.linCycle m).lin m).lastTx = [0x00, 0xFF, 0xFF, 0xFF, 0xFF, 0xFF, 0xFF, 0xFF, 0x00])) ∧
  (∀ (s : State) (ch : LinCh) (h : LinHdr), s.live = true → s.linRole ch.val = 1 →
    let l := s.lin ch.val
    l.sending = none → l.header = some h → h.past = true →
    let due := h.at_ + s.linBits ch.val (14 * (h.len + 1))
    let u := s.setLin ch.val { l with header := none, sending := none, idleFrom := s.time.cycle }
    (due ≤ s.time.cycle → exec (.linNoResponse ch) s = .next (settle s (if h.kind = .event then u else u.bump (linReg ch.val 0x108)))) ∧
    (s.time.cycle < due → exec (.linNoResponse ch) s = .next (settle s s))) ∧
  (∀ (s : State) (ch : LinCh), s.live = true → s.nm.state = .ebb → s.secondary = false → s.ebbLeft ≤ 40000000 →
    let l := s.lin ch.val
    ∃ t, exec .goToSleep s = .next t ∧ SameMem s t ∧
      ((s.linRole ch.val ≠ 1 ∨ l.asleep = true) → t.lin ch.val = l) ∧
      (s.linRole ch.val = 1 → l.asleep = false → l.running = true → l.started = true → s.time.cycle < l.slotEnd →
        t.lin ch.val = { l with sleepDue := true }) ∧
      (s.linRole ch.val = 1 → l.asleep = false → (l.running = false ∨ l.started = false ∨ l.slotEnd ≤ s.time.cycle) →
        (t.lin ch.val).asleep = true ∧ (t.lin ch.val).running = false ∧ (t.lin ch.val).sleepDue = false ∧
        (∃ h, (t.lin ch.val).header = some h ∧ h.id = 0x3C ∧ h.kind = .sleep ∧ h.past = false) ∧
        (l.running = true → l.rets = [] → (t.lin ch.val).resume = some l.table))) ∧
  (∀ (s : State) (ch : LinCh) (at_ : Nat) (tb : Fin 8), s.live = true → (s.lin ch.val).wakeAt = some at_ → (s.lin ch.val).resume = some tb →
    (s.time.cycle < at_ + 80000000 → exec (.linRestart ch) s = .next (settle s s)) ∧
    (at_ + 80000000 ≤ s.time.cycle →
      ∃ t, exec (.linRestart ch) s = .next t ∧ (t.lin ch.val).running = true ∧ (t.lin ch.val).table = tb ∧ (t.lin ch.val).entry = 0 ∧
        (t.lin ch.val).wakeAt = none ∧ SameMem s t))

/-- R228, R229, R230, R231, R232, R233, R236, R237: a commit goes to the screen and is copied whole if it passes; a responder ignores a header out of rate or with
wrong parity, answers one whose object publishes, and counts one whose object was never committed; a response with an error is counted
and not stored, and one to an ignored object leaves no trace but a framing error. -/
def Obligations.LinResponses : Prop :=
  (∀ (s : State) (ch : LinCh) (obj : Fin 64), s.live = true →
    let m := ch.val
    let i := obj.val
    let c := s.linCfg m i
    let d := (s.rdB (linObj m i + 16) 8).take c.len
    exec (.lpub ch obj) s = .next (settle s
      (s.postKey (.lpub ch i (s.rdB (linObj m i + 16) 8)) (linKey m true none i c.enh d) d))) ∧
  (∀ (s : State) (ch : LinCh) (i : Nat) (data : List Byte), data.length = 8 →
    let t := s.gwJudged (.lpub ch i data) true
    t.linBuf ch.val i = data ∧ bit (t.linFlags ch.val i) 2 = true ∧ bit (t.linFlags ch.val i) 3 = true ∧
      SameMemBut s t (linObj ch.val i + 4) 1 ∧
      s.gwJudged (.lpub ch i data) false = s.bump (linReg ch.val 0x134)) ∧
  (∀ (s : State) (ch : LinCh) (o : Nat) (data : List Byte) (ts : Word) (rs : List Nat),
    s.gwJudged (.linRx ch o data ts rs) true = (s.linStore ch.val o data ts).feed rs (linPdu o data ts) ∧
    s.gwJudged (.linRx ch o data ts rs) false = s.bump (linReg ch.val 0x130)) ∧
  (∀ (s : State) (ch : LinCh) (pid : Byte) (baud age : Nat), s.live = true → s.linRole ch.val = 2 →
    let m := ch.val
    let rate := s.linRate m
    let sync := s.paramBit (0x0920 + m) 0
    let far := sync && decide (((baud : Int) - rate).natAbs * 100 > rate * 14)
    let s0 := (s.linSent m).linEnd m
    let s1 := if sync then s0.setLin m { s0.lin m with baud := baud } else s0
    let i := pid.toNat % 64
    let c := s.linCfg m i
    (far = true → exec (.linHeader ch pid baud age) s = .next (settle s (s1.bump (linReg m 0x11C)))) ∧
    (far = false → linPid pid.toNat ≠ pid.toNat →
      exec (.linHeader ch pid baud age) s = .next (settle s ((s1.bump (linReg m 0x110)).linIrq m 3))) ∧
    (far = false → linPid pid.toNat = pid.toNat →
      ∃ t, exec (.linHeader ch pid baud age) s = .next t ∧ t.c64 (linReg m 0x100) = s.c64 (linReg m 0x100) + 1 ∧
        (t.lin m).headTs = ts32 (s.time.ltime - age * s.time.incr) ∧
        ((c.dir ≠ 2 ∨ s.secondary = true ∨ (s.lin m).asleep = true) →
          (∃ h, (t.lin m).header = some h ∧ h.id = i ∧ h.kind = .plain ∧ h.past = true ∧ h.at_ = s.time.cycle) ∧
          (t.lin m).sending = none ∧ SameMem s t) ∧
        (c.dir = 2 → s.secondary = false → (s.lin m).asleep = false → c.event = false → bit (s.linFlags m i) 3 = false →
          (t.lin m).sending = none ∧ (t.lin m).header = none ∧ t.c32 (linReg m 0x12C) = satInc (s.c32 (linReg m 0x12C)) ∧ SameMem s t) ∧
        (c.dir = 2 → s.secondary = false → (s.lin m).asleep = false → c.event = false → bit (s.linFlags m i) 3 = true →
          let data := s0.linSignal m (s.param (0x0950 + m)) i ((s.linBuf m i).take c.len)
          (t.lin m).sending = some i ∧ (t.lin m).lastTx = data ++ [linChecksum i c.enh data] ∧ t.linUpdated m i = false ∧
          SameMemBut s t (linObj m i + 4) 1) ∧
        (c.dir = 2 → s.secondary = false → (s.lin m).asleep = false → c.event = true → s.linUpdated m c.assoc = false →
          (t.lin m).sending = none ∧ SameMem s t) ∧
        (c.dir = 2 → s.secondary = false → (s.lin m).asleep = false → c.event = true → s.linUpdated m c.assoc = true →
          (t.lin m).sending = some c.assoc ∧ (t.lin m).lastTx.head? = some (BitVec.ofNat 8 (linPid c.assoc)) ∧
          t.linUpdated m c.assoc = false))) ∧
  (∀ (s : State) (ch : LinCh) (r : LinRx) (h : LinHdr), s.live = true → s.linRole ch.val ≠ 0 →
    let m := ch.val
    let l := s.lin m
    let c := h.cfg h.id
    l.header = some h →
    (h.past = false → exec (.linResponse ch r) s = .next (settle s
      (if r.bitErr then ((s.linEnd m).bump (linReg m 0x118)).linIrq m 3 else s))) ∧
    (∀ o, h.past = true → l.sending = some o → r.bitErr = true →
      ∃ t, exec (.linResponse ch r) s = .next t ∧ (t.lin m).sending = none ∧ (t.lin m).respErr = true ∧ (t.lin m).irq.getLsbD 3 = true ∧
        t.c32 (linReg m 0x118) = satInc (s.c32 (linReg m 0x118)) ∧ SameMem s t) ∧
    (∀ o, h.past = true → l.sending = some o → r.bitErr = false →
      ∃ t, exec (.linResponse ch r) s = .next t ∧ (t.lin m).sending = none ∧ (t.lin m).irq.getLsbD 2 = true ∧
        (bit h.sig 12 = true → bits h.sig 5 0 = o → (t.lin m).respErr = false) ∧ SameMem s t) ∧
    (h.past = true → l.sending = none → h.kind ≠ .event →
      let good := r.data.length = h.len ∧ r.checksum = linChecksum h.id c.enh r.data
      let known := c.dir ≠ 0 ∨ h.id = 0x3C ∨ h.id = 0x3D
      (r.framing = true → ∃ t, exec (.linResponse ch r) s = .next t ∧ (t.lin m).header = none ∧ (t.lin m).respErr = true ∧
        t.c32 (linReg m 0x114) = satInc (s.c32 (linReg m 0x114)) ∧ SameMem s t) ∧
      (r.framing = false → known → ¬ good → ∃ t, exec (.linResponse ch r) s = .next t ∧ (t.lin m).header = none ∧ (t.lin m).respErr = true ∧
        t.c32 (linReg m 0x10C) = satInc (s.c32 (linReg m 0x10C)) ∧ SameMem s t) ∧
      (r.framing = false → ¬ known → exec (.linResponse ch r) s = .next (settle s (s.linEnd m))) ∧
      (r.framing = false → good → c.dir = 1 → (s.linRole m = 1 ∨ h.id ≠ 0x3C) →
        exec (.linResponse ch r) s = .next (settle s ((s.linEnd m).linTake m h.id c.enh r.data)))) ∧
    (h.past = true → l.sending = none → h.kind = .event → (r.framing = true ∨ r.bitErr = true) →
      ∃ t, exec (.linResponse ch r) s = .next t ∧ t.c32 (linReg m 0x120) = satInc (s.c32 (linReg m 0x120)) ∧
        (t.lin m).irq.getLsbD 5 = true ∧ (t.lin m).header = none ∧
        (t.lin m).collNext.map Fin.val = some (bits (s.rd (linEntry m l.table.val l.entry.val) 8) 26 24) ∧ SameMem s t))

/-- R242, R246, R247, R256, R258, R259: an update of a gateway object writes header, length and data, counts USEQ and VERSION and records the route; an
object of owner hold discards another route's PDU until it is stale; a failed check stores the substitute value. An
object whose TIMEOUT passes becomes stale once. -/
def Obligations.GatewayUpdates : Prop :=
  (∀ (s : State) (r : Nat) (p : Pdu), r < 4096 → p.data.length ≤ 2048 →
    let w := s.route r
    let g := bits w 18 8
    let o := s.goHead g
    let x := s.goUpdate r p
    let t := x.2
    let h := t.goHead g
    let held := bit o 1 && bit o 60 && !bit o 32 && decide (bits o 59 48 ≠ r)
    let fits := decide (p.data.length ≤ 64) || (s.goArea g).isSome
    (bit o 0 = false → x = (false, s.bump (routeCnt r 12))) ∧
    (bit o 0 = true → held = true → x = (false, s.bump (gwReg 0x13C))) ∧
    (bit o 0 = true → held = false → fits = false → x = (false, s.bump (routeCnt r 12))) ∧
    (bit o 0 = true → held = false → fits = true →
      let made (d : List Byte) : Prop := x.1 = true ∧ bits h 59 48 = r ∧ bit h 60 = true ∧ bits h 95 64 = (bits o 95 64 + 1) % 2 ^ 32 ∧
        bits h 143 128 = (bits o 143 128 + 1) % 2 ^ 16 ∧ bits h 203 192 = d.length ∧ bits h 127 96 = p.ts.toNat ∧
        bits h 188 160 = p.id % 2 ^ 29 ∧ bit h 189 = p.ide ∧ bit h 205 = p.rtr ∧ bits h 31 0 = bits o 31 0 ∧ t.goData g = d ∧
        t.c64 (gwReg 0x110) = s.c64 (gwReg 0x110) + 1 ∧
        (∀ a, (a < goAddr g ∨ goAddr g + 96 ≤ a) → (∀ j, s.goArea g = some j → a < goLong j ∨ goLong j + 2048 ≤ a) → t.rd8 a = s.rd8 a)
      let chk := s.e2eCheck r w p.data
      (bits w 21 20 ≠ 1 → made p.data ∧ bits h 34 32 = 0) ∧
      (∀ d, bits w 21 20 = 1 → chk.1 = some d → made d ∧ bits h 34 32 = 0) ∧
      (bits w 21 20 = 1 → chk.1 = none → made (s.goSubst g) ∧ bit h 33 = true ∧ bit h 34 = true ∧ bit h 32 = bit o 32 ∧
        t.c32 (gwReg 0x138) = satInc (s.c32 (gwReg 0x138)) ∧ t.c32 (routeCnt r 12) = satInc (s.c32 (routeCnt r 12))))) ∧
  (∀ (s : State) (r w : Nat) (data : List Byte),
    let u := bits w 24 22
    let c := s.cv u
    let b := (cvWidth c.cfg + 7) / 8
    let body := data.take (data.length - b)
    let run := ((if bit w 25 then natLe 2 (bits w 47 32) else []) ++ body).foldl
      (cvByte (cvWidth c.cfg) c.poly.toNat (c.cfg.getLsbD 7)) c.init.toNat
    let crc := cvResult (cvWidth c.cfg) c.xor_.toNat (c.cfg.getLsbD 8) run % 2 ^ cvWidth c.cfg
    (s.e2eCheck r w data).1 = (if c.cfg.getLsbD 9 = false ∧ b ≤ data.length ∧ crc = beNat (data.drop body.length) then some body else none)) ∧
  (∀ (s : State) (obj : Fin 2048), s.live = true → s.secondary = false →
    let g := obj.val
    let o := s.goHead g
    let age := (s.tick + 2 ^ 32 - SMap.get 0 s.bus.goTick g) % 2 ^ 32
    bit o 0 = true → bit o 60 = true → bits o 31 16 ≠ 0 →
    (bit o 32 = false → bits o 31 16 < age → bit o 2 = false →
      ∃ t, exec (.gwStale obj) s = .next t ∧ t.goHead g = o + 2 ^ 32 ∧ t.c32 (gwReg 0x140) = satInc (s.c32 (gwReg 0x140)) ∧
        SameMemBut s t (goAddr g) 32 ∧ t.bus.runs = s.bus.runs ∧ t.time = s.time) ∧
    (bit o 32 = false → bits o 31 16 < age → bit o 2 = true → (∀ r, r ∈ s.validRoutes → bits (s.route r) 18 8 ≠ g) →
      ∃ t, exec (.gwStale obj) s = .next t ∧ t.c32 (gwReg 0x140) = satInc (s.c32 (gwReg 0x140)) ∧ t.goData g = s.goSubst g ∧
        bit (t.goHead g) 32 = true ∧ bit (t.goHead g) 34 = true ∧ bits (t.goHead g) 95 64 = (bits o 95 64 + 1) % 2 ^ 32 ∧
        bits (t.goHead g) 127 96 = s.ts.toNat) ∧
    ((bit o 32 = true ∨ age ≤ bits o 31 16) → exec (.gwStale obj) s = .next (settle s s)))

/-- R244, R248, R254, R255, R57: a cyclic run begins as its boundary is reached, after those of lower routes that are due; a boundary that a step
of local time has skipped is not made up. A run retries when refused, and keeps three quarters of the period after the handover
before it; a run that lags too far skips to the first index within the limit; no index runs twice, and one not handed over by the next
boundary counts once as overrun. A run to a CAN channel sends the object's content, zero-filled to a valid length. -/
def Obligations.CyclicRuns : Prop :=
  (∀ (s : State) (route : Fin 4096), s.routeRuns route.val = true →
    let r := route.val
    let x := s.run r
    let w := s.route r
    let n := s.boundaries w
    let fresh := n ≠ 0 ∧ s.firstBoundary w ≤ n - 1 ∧ ltNs s.time.ltime ≤ routePhase w + (n - 1) * routePeriod w + runWait
    (∀ k, x.cur = some k → n ≥ k + 2 → x.overrun < k + 1 →
      exec (.periodBoundary route) s = .next (settle s ((s.setRun r { x with overrun := k + 1 }).bump (routeCnt r 4)))) ∧
    (∀ k, x.cur = some k → (n < k + 2 ∨ k + 1 ≤ x.overrun) → exec (.periodBoundary route) s = .next (settle s s)) ∧
    (x.cur = none → (¬ fresh ∨ ∃ l, x.last = some l ∧ n ≤ l + 1) → exec (.periodBoundary route) s = .next (settle s s)) ∧
    (x.cur = none → fresh → (∀ l, x.last = some l → l + 1 < n) →
      exec (.periodBoundary route) s = .next (settle s ((s.runLower r).boundaryRun r (n - 1)))) ∧
    (∀ k, x.cur = some k → x.trying = true → x.retryAt ≤ s.time.cycle →
      exec (.runRetry route) s = .next (settle s ((s.runLower r).tryRun r k))) ∧
    ((x.cur = none ∨ x.trying = false ∨ s.time.cycle < x.retryAt) → exec (.runRetry route) s = .next (settle s s)) ∧
    (∀ k, x.cur = some k → x.trying = false → x.startAt ≤ ltNs s.time.ltime →
      exec (.spacedRun route) s = .next (settle s ((s.runLower r).tryRun r k))) ∧
    ((x.cur = none ∨ x.trying = true ∨ ltNs s.time.ltime < x.startAt) → exec (.spacedRun route) s = .next (settle s s))) ∧
  (∀ (s : State) (r k : Nat), ((∀ q ∈ s.validRoutes, r ≤ q) → s.runLower r = s) ∧
    (∀ l, (s.run r).last = some l → s.boundaryRun r k = ((s.bumpBy (routeCnt r 8) (k - l - 1)).setRun r
      { s.run r with cur := some k, startAt := ltNs s.time.ltime }).tryRun r k)) ∧
  (∀ (s : State) (r k : Nat),
    let w := s.route r
    let h := ltNs s.time.ltime
    let early := h + routePeriod w * 3 / 4
    let b (k : Nat) := routePhase w + k * routePeriod w
    let late := s.param 0x0B02 * routePeriod w
    let nx := max (k + 1) (s.firstBoundary w)
    let t := s.afterRun r k
    let skipped (j : Nat) := (t.c32 (routeCnt r 8)).toNat = min 0xFFFFFFFF ((s.c32 (routeCnt r 8)).toNat + (j - (k + 1)))
    (early ≤ b nx → (t.run r).last = some (nx - 1) ∧ (t.run r).cur = none ∧ skipped nx) ∧
    (b nx < early → early ≤ b nx + late → (t.run r).cur = some nx ∧ (t.run r).startAt = early ∧ (t.run r).trying = false ∧ skipped nx) ∧
    (b nx + late < early → ∃ j, nx < j ∧ early ≤ b j + late ∧ (∀ i, nx ≤ i → i < j → b i + late < early) ∧ skipped j ∧
      (early ≤ b j → (t.run r).last = some (j - 1) ∧ (t.run r).cur = none) ∧
      (b j < early → (t.run r).cur = some j ∧ (t.run r).startAt = early))) ∧
  (∀ (s : State) (r k : Nat), ((s.noteOverrun r k).goRun r).1 = .refused → bits (s.route r) 2 1 = 1 →
    let t := s.tryRun r k
    (t.run r).trying = true ∧ (t.run r).retryAt = s.time.cycle + 800 * s.param 0x0B03 ∧ t.c32 (routeCnt r 0) = s.c32 (routeCnt r 0)) ∧
  (∀ (s : State) (r w : Nat), (s.runCan r w).1 = .handed →
    let n := bits w 116 112
    let o := s.goHead (bits w 18 8)
    let d := s.goData (bits w 18 8)
    let c := s.can n
    ∃ e : CanEntry, (s.runCan r w).2.can n = (if bit w 184 then { c with prio := some e } else { c with queue := c.queue ++ [e] }) ∧
      c.mode ≠ 0 ∧ c.mode ≠ 3 ∧ (if bit w 184 then c.prio = none else c.queue.length < 32) ∧
      e.msg.id = BitVec.ofNat 29 (if bits w 121 120 = 3 then bits w 138 128 else bits w 156 128) ∧ e.msg.ide = bit w 122 ∧ e.lifetime = bits w 207 192 ∧ e.tick = s.tick ∧
      e.msg.rtr = bit o 205 ∧ (bit o 205 = true → e.msg.data = [] ∧ bits w 121 120 = 0) ∧
      (bit o 205 = false → bits w 21 20 ≠ 2 → ∃ z, e.msg.data = d ++ List.replicate z 0) ∧
      canLenOk (if bits w 121 120 = 3 then 3 else if bits w 121 120 = 0 then 0 else 1) e.msg.data.length = true)

/-- R251, R256, R257: the oldest frame that has left the fabric at P23 is discarded and counted once, or taken apart; its sequence number is kept and a gap counted. Its
messages go to the screen in order, as the queue has room, and feed their routes if they pass. CV_START and the
feeds act on a unit of MODE 1 only, the low byte first. -/
def Obligations.AcfFramesAndCheckValues : Prop :=
  (∀ (s : State) (b : List Byte) (stomped : Bool) (rest : List (List Byte × Bool)), s.live = true → s.sw.toGw = (b, stomped) :: rest →
    s.scr.gw.rest = none →
    let a := b.drop ((parseFrame b (b.length + 4)).etOff + 2)
    let sub := byteAt a 0
    let fits (i : Nat) : Bool := let sl := s.rd (slotAddr i) 32
      bit sl 0 && !bit sl 1 && decide (natLe 8 (bits sl 191 128) = slice a 4 8) && (decide (sub = 0x82) || bit sl 2)
    let good := (parseFrame b (b.length + 4)).etype = 0x22F0 ∧ 12 ≤ a.length ∧ (sub = 0x82 ∨ sub = 0x02) ∧ bit (byteAt a 1) 7 = true ∧
      bits (byteAt a 1) 6 4 = 0
    let len := if sub = 0x82 then be16 a 1 % 2048 else be16 a 20
    let head := if sub = 0x82 then 12 else 24
    let seq := byteAt a (if sub = 0x82 then 3 else 2)
    let u : State := { s with sw := { s.sw with toGw := rest } }
    (stomped = true → exec (.acfFrameReceive b stomped) s = .next (settle s (u.bump (gwReg 0x12C)))) ∧
    (stomped = false → (¬ good ∨ ∀ i, i < 256 → fits i = false) → exec (.acfFrameReceive b stomped) s = .next (settle s (u.bump (gwReg 0x118)))) ∧
    (∀ i, stomped = false → good → i < 256 → fits i = true → (∀ k, k < i → fits k = false) → len = 0 →
      exec (.acfFrameReceive b stomped) s = .next (settle s (u.bump (gwReg 0x128)))) ∧
    (∀ i, stomped = false → good → i < 256 → fits i = true → (∀ k, k < i → fits k = false) → len ≠ 0 →
      let s1 := u.add64 (gwReg 0x100) 1
      let s2 := if seq = (s.rd (slotAddr i + 24) 1 + 1) % 256 then s1 else s1.bump (gwReg 0x130)
      exec (.acfFrameReceive b stomped) s = .next (settle s
        ((s2.wr (slotAddr i + 24) 1 seq).gwRest (some (i, s.ts, (a.drop head).take len))).acfRefill))) ∧
  (∀ (s : State) (b : List Byte) (stomped : Bool), (s.live = false ∨ s.sw.toGw.head? ≠ some (b, stomped) ∨ s.scr.gw.rest.isSome = true) →
    exec (.acfFrameReceive b stomped) s = .next (settle s s)) ∧
  (∀ (s : State) (slot : Nat) (ts : Word) (b : List Byte),
    let len := (byteAt b 0 % 2 * 256 + byteAt b 1) * 4
    let on_ := if b.drop len = [] then none else some (slot, ts, b.drop len)
    ((len = 0 ∨ b.length < len) → s.acfNext slot ts b = (s.bump (gwReg 0x11C)).gwRest none) ∧
    (len ≠ 0 → len ≤ b.length → byteAt b 0 / 2 ∉ [1, 2, 3, 5] →
      s.acfNext slot ts b = (s.bump (gwReg 0x120)).gwRest on_) ∧
    (len ≠ 0 → len ≤ b.length → ∀ m, acfItem (b.take len) ts = .msg m →
      s.acfNext slot ts b = (s.acfTake slot m).gwRest on_ ∧
      ∃ key, s.acfTake slot m = s.postKey (.acf (s.acfRoutes slot m) m.pdu) key m.pdu.data)) ∧
  (∀ s : State, (s.scr.gw.rest = none ∨ 64 ≤ s.scr.gw.second.length) → s.acfRefill = s) ∧
  (∀ (s : State) (rs : List Nat) (p : Pdu),
    (∀ pass, s.gwJudged (.acf [] p) pass = s.bump (gwReg 0x124)) ∧
    (rs ≠ [] → s.gwJudged (.acf rs p) true = s.feed rs p ∧ s.gwJudged (.acf rs p) false = s)) ∧
  (∀ (s : State) (u : Fin 8), s.live = true →
    let c := s.cv u.val
    let w := cvWidth c.aCfg
    let f := cvByte w c.aPoly.toNat (c.aCfg.getLsbD 7)
    let fed (x : Nat) := settle s (s.setCv u.val { c with run := BitVec.ofNat 64 x })
    (c.cfg.getLsbD 9 = true →
      (∃ t, exec (.cvStart u) s = .next t ∧ (t.cv u.val).run = c.init ∧
        (t.cv u.val).aPoly = c.poly ∧ (t.cv u.val).aCfg = c.cfg ∧ (t.cv u.val).aXor = c.xor_ ∧ (t.cv u.val).cfg = c.cfg ∧
        (∀ k, k ≠ u.val → t.cv k = s.cv k) ∧ SameMem s t) ∧
      (∀ v, exec (.cvFeed8 u v) s = .next (fed (f c.run.toNat v))) ∧
      (∀ lo hi : Byte, exec (.cvFeed16 u (hi ++ lo)) s = .next (fed (f (f c.run.toNat lo) hi))) ∧
      (∀ b0 b1 b2 b3 : Byte, exec (.cvFeed32 u (b3 ++ b2 ++ b1 ++ b0)) s = .next (fed (f (f (f (f c.run.toNat b0) b1) b2) b3)))) ∧
    (c.cfg.getLsbD 9 = false → exec (.cvStart u) s = .next (settle s s) ∧ (∀ v, exec (.cvFeed8 u v) s = .next (settle s s)) ∧
      (∀ v, exec (.cvFeed16 u v) s = .next (settle s s)) ∧ (∀ v, exec (.cvFeed32 u v) s = .next (settle s s))))

/-- R266, R267, R269, R270, R272, R273, R274: a bridge accepts posted writes while it has room and delivers them oldest first, a wide one part by part,
so that another master can act between two parts; one that fails leaves the cause of its first part that failed in the error log, as it
fails, and the parts and the write after it go on; a TX_PUSH or LPUB is held while 64 keys wait; a pop removes the oldest entry. A write with a reserved one stops (R6). -/
def Obligations.BridgeWrites : Prop :=
  (∀ (s : State) (bar : Bar) (off : Nat) (more : List (Word × BitVec 4)) (be : BitVec 4) (v : Word),
    (s.pcieUp = true → s.host.pcieQ.length < 64 → exec (.pcieMemoryWrite bar off more be v) s = .next (settle s
      { s with host := { s.host with
        pcieQ := s.host.pcieQ ++ [{ space := barSpace bar, off := off, words := (v, be) :: more, split := !more.isEmpty, failed := false }] } })) ∧
    ((s.pcieUp = false ∨ 64 ≤ s.host.pcieQ.length) → exec (.pcieMemoryWrite bar off more be v) s = .next (settle s s))) ∧
  (∀ (s : State) (b : Bridge) (p : Posted) (q : List Posted) (x : Word × BitVec 4) (xs : List (Word × BitVec 4)),
    s.bridgeUp = true → s.queueOf b = p :: q → p.words = x :: xs →
    let v := x.1.toNat
    let be := x.2.toNat
    let rest (c : Nat) := { p with off := p.off + 4, words := xs, failed := p.failed || decide (c ≠ 0) }
    let ended (c : Nat) (t : State) := t.queueOf b = (if xs = [] then q else rest c :: q) ∧ t.mem = s.mem ∧
      (p.failed = false → Logged s t b c) ∧ (p.failed = true → t.host.pwe = s.host.pwe)
    (∀ a, s.target b p.space p.off = some (some a) → s.accessCause a true = 0 → setsReserved a v be = false → s.partHeld b = false →
      exec (.postedWriteDeliver b) s = .next (settle s
        (((s.setQueue b q).writeWord a v be).setQueue b (if xs = [] then q else rest 0 :: q)))) ∧
    (∀ a, s.target b p.space p.off = some (some a) → s.accessCause a true = 0 → setsReserved a v be = false → s.partHeld b = true →
      64 ≤ s.scr.gw.third.length ∧ exec (.postedWriteDeliver b) s = .next (settle s s)) ∧
    (∀ a, s.target b p.space p.off = some (some a) → s.accessCause a true = 0 → setsReserved a v be = true →
      exec (.postedWriteDeliver b) s = .fault .reservedOne) ∧
    (∀ a c, s.target b p.space p.off = some (some a) → s.accessCause a true = c → c ≠ 0 →
      ∃ t, exec (.postedWriteDeliver b) s = .next t ∧ ended c t) ∧
    (s.target b p.space p.off = none → ∃ t, exec (.postedWriteDeliver b) s = .next t ∧ ended 1 t) ∧
    (∃ t, exec (.targetTimeout b false) s = .next t ∧ ended 3 t)) ∧
  (∀ (s : State) (b : Bridge), s.queueOf b = [] →
    exec (.postedWriteDeliver b) s = .next (settle s s) ∧ exec (.targetTimeout b false) s = .next (settle s s)) ∧
  (∀ (s : State) (a : Nat), s.pw.mode ≠ .failSilent →
    (s.accessCause a true = 1 ↔ inRegions regions a = false) ∧
    (s.accessCause a true = 2 ↔ inRegions regions a = true ∧ inRegions roRegions a = true) ∧ s.accessCause a true < 3) ∧
  (∀ (s : State) (a : Nat), s.pw.mode = .failSilent → s.accessCause a true = 4) ∧
  (∀ s : State, s.live = true →
    (∀ e r, s.host.pwe = e :: r → exec .dwPwePop s = .next (settle s
      { s with host := { s.host with pwe := r, pweLost := if r = [] then 0 else s.host.pweLost } })) ∧
    (s.host.pwe = [] → exec .dwPwePop s = .next (settle s s))) ∧
  (∀ (s : State) (addr : Word) (ws : List Word) (sp : Space) (o : Nat), s.bridgeUp = true → addr.toNat % 4 = 0 → sp ≠ .none_ →
    (∀ i, i < ws.length → spiSpace (addr.toNat + 4 * i) = (sp, o + 4 * i)) → s.host.spiQ.length + ws.length ≤ 64 →
    exec (.write addr ws) s = .next (settle s { s with host := { s.host with
      spiQ := s.host.spiQ ++ ws.zipIdx.map (fun (w, i) =>
        { space := sp, off := o + 4 * i, words := [(w, 0xF)], split := false, failed := false }),
      spiWait := none } })) ∧
  (∀ (s : State) (addr w : Word), s.bridgeUp = true →
    (addr.toNat % 4 ≠ 0 → ∀ ws, ∃ t, exec (.write addr ws) s = .next t ∧ t.host.spiQ = s.host.spiQ ∧ Logged s t .spi 6) ∧
    (addr.toNat % 4 = 0 → 64 ≤ s.host.spiQ.length →
      ∃ t, exec (.write addr [w]) s = .next t ∧ t.host.spiQ = s.host.spiQ ∧ Logged s t .spi 5)) ∧
  (∀ (s : State) (op : Byte), s.bridgeUp = true → op ≠ 0x02 → op ≠ 0x0B → op ≠ 0x05 →
    ∃ t, exec (.unknownInstruction op) s = .next t ∧ t.host.spiQ = s.host.spiQ ∧ Logged s t .spi 6)

/-- R263, R264, R266, R268, R269, R270, R272, R273, R289, R454: a read is served after every posted write of its bridge and answers the word or its
cause; a wide read of a 64-bit counter is consistent; configuration space identifies the function and sizes its BARs; a function level
reset resets the bridge and nothing else; loss of the link ends an OBJ_DMA with DMA_ERROR. -/
def Obligations.BridgeReads : Prop :=
  (∀ (s : State) (bar : Bar) (off : Nat), s.pcieUp = true → State.drainReserved .pcie (s.partsOf .pcie) s = false →
    let u := s.deliverAll .pcie
    let peek := decide (bar = .bar4) && u.host.aperPcie.getLsbD 8
    let sp := barSpace bar
    (s.scr.gw.third.length + s.partsOf .pcie ≤ 64 → u.host.pcieQ = []) ∧
    (u.host.pcieQ = [] → u.host.pcieLink = true → u.host.reading = none →
      (∀ a, u.target .pcie sp off = some (some a) → u.accessCause a false = 0 → u.readWaits .pcie sp off = false →
        exec (.pcieMemoryRead bar off 1) s = .next (settle s { (u.readWord a peek).2 with host.pcieAns := some ⟨[(u.readWord a peek).1], 0⟩ })) ∧
      (∀ n, u.readWaits .pcie sp off = true → exec (.pcieMemoryRead bar off n) s = .next (settle s
        { u with host.reading := some { space := sp, off := off, left := n, words := [], cause := 0 } })) ∧
      (∀ a, u.target .pcie sp off = some (some a) → u.accessCause a false ≠ 0 →
        exec (.pcieMemoryRead bar off 1) s = .next (settle s { u with host.pcieAns := some ⟨[], BitVec.ofNat 4 (u.accessCause a false)⟩ })) ∧
      (∀ a, u.target .pcie sp off = some (some a) → u.target .pcie sp (off + 4) = some (some (a + 4)) →
        u.accessCause a false = 0 → u.accessCause (a + 4) false = 0 → isWide a = true → isWide (a + 4) = false →
        let lo := BitVec.ofNat 32 (u.c64 a).toNat
        ∃ t, exec (.pcieMemoryRead bar off 2) s = .next t ∧ t.mem = u.mem ∧
          t.host.reading = some { space := sp, off := off + 4, left := 1, words := [lo], cause := 0 } ∧
          t.readTick.host.pcieAns = some { words := [lo, BitVec.ofNat 32 ((u.c64 a).toNat / 2 ^ 32)], cause := 0 } ∧
          t.readTick.host.reading = none))) ∧
  (∀ (s : State), State.drainReserved .pcie (s.partsOf .pcie) s = true → s.pcieUp = true →
    ∀ bar off n, exec (.pcieMemoryRead bar off n) s = .fault .reservedOne) ∧
  (∀ (s : State) (addr : Word), s.bridgeUp = true → State.drainReserved .spi (s.partsOf .spi) s = false →
    let u := s.deliverAll .spi
    let x := spiSpace addr.toNat
    let peek := decide (x.1 = .aperture) && u.host.aperSpi.getLsbD 8
    (s.scr.gw.third.length + s.partsOf .spi ≤ 64 → u.host.spiQ = []) ∧
    (u.host.spiQ = [] →
      (addr.toNat % 4 ≠ 0 → ∃ t, exec (.read addr 1) s = .next t ∧ t.host.spiOut = [0xE6, 0xFF, 0xFF, 0xFF, 0xFF] ∧ t.mem = u.mem) ∧
      (∀ a, addr.toNat % 4 = 0 → u.target .spi x.1 x.2 = some (some a) → u.accessCause a false ≠ 0 →
        ∃ t, exec (.read addr 1) s = .next t ∧
          t.host.spiOut = [BitVec.ofNat 8 (0xE0 + u.accessCause a false), 0xFF, 0xFF, 0xFF, 0xFF]) ∧
      (addr.toNat % 4 = 0 → x.1 = .none_ → ∃ t, exec (.read addr 1) s = .next t ∧ t.host.spiOut = [0xE1, 0xFF, 0xFF, 0xFF, 0xFF]) ∧
      (∀ a, addr.toNat % 4 = 0 → u.target .spi x.1 x.2 = some (some a) → u.accessCause a false = 0 → u.readWaits .spi x.1 x.2 = false →
        ∃ t, exec (.read addr 1) s = .next t ∧ t.host.spiOut = 0xA5 :: natLe 4 (u.readWord a peek).1.toNat ∧
          t.mem = (u.readWord a peek).2.mem) ∧
      (∀ n, addr.toNat % 4 = 0 → u.readWaits .spi x.1 x.2 = true →
        ∃ t, exec (.read addr n) s = .next t ∧ t.host.spiWait = some (addr.toNat, n, u.time.cycle) ∧ t.mem = u.mem))) ∧
  (∀ (s : State) (addr n from_ : Nat), s.host.spiWait = some (addr, n, from_) → s.host.spiQ = [] → addr % 4 = 0 →
    s.readWaits .spi (spiSpace addr).1 (spiSpace addr).2 = true → from_ + 1600 ≤ s.time.cycle →
    s.spiTick = { s with host := { s.host with spiWait := none, spiOut := 0xE3 :: List.replicate (4 * n) 0xFF } }) ∧
  (∀ s : State, s.bridgeUp = true →
    let v := (if s.pw.mode = .failSilent then 1 else 0) + (if s.host.spiQ = [] then 0 else 2) + (if s.host.pwe = [] then 0 else 4)
    exec .status s = .next (settle s { s with host.spiOut := [BitVec.ofNat 8 v], host.spiWait := none })) ∧
  (∀ s : State, s.bridgeUp = true → s.host.pcieLink = true →
    exec (.targetTimeout .pcie true) s = .next (settle s { s with host.pcieAns := some ⟨[], 3⟩, host.reading := none }) ∧
    exec (.targetTimeout .spi true) s = .next (settle s { s with host.spiOut := [0xE3], host.spiWait := none })) ∧
  (∀ s : State, s.pcieUp = true → s.host.pcieQ = [] → s.host.reading = none →
    exec (.pcieConfigurationRequest 0 none) s = .next (settle s { s with host.pcieAns := some ⟨[0x41921F3C], 0⟩ }) ∧
    (∃ t v, exec (.pcieConfigurationRequest 2 none) s = .next t ∧ t.host.pcieAns = some { words := [v], cause := 0 } ∧
      v.toNat / 256 = 0x028000 ∧ SameMem s t) ∧
    (∀ (r : Fin 1024) (w : Word), ∃ t, exec (.pcieConfigurationRequest r (some w)) s = .next t ∧
      t.host.pcieAns = some { words := [], cause := 0 } ∧ t.mem = s.mem ∧ t.params = s.params) ∧
    (∀ x : Fin 1024 × Word, x ∈ [(4, 0xFFFFF004), (6, 0xFFFF800C), (8, 0xFF000004), (5, 0xFFFFFFFF), (7, 0xFFFFFFFF), (9, 0xFFFFFFFF)] →
      ∃ t u, exec (.pcieConfigurationRequest x.1 (some 0xFFFFFFFF)) s = .next t ∧ exec (.pcieConfigurationRequest x.1 none) t = .next u ∧
        u.host.pcieAns = some { words := [x.2], cause := 0 })) ∧
  (∀ s : State, s.pcieUp = true →
    ∃ t, exec .functionLevelReset s = .next t ∧ t.host.pcieQ = [] ∧ t.host.aperPcie = 0 ∧ t.host.aperSpi = s.host.aperSpi ∧
      t.host.mbs = s.host.mbs ∧ t.host.spiQ = s.host.spiQ ∧ t.host.pcieLink = s.host.pcieLink ∧ t.mem = s.mem ∧ t.cnt32 = s.cnt32 ∧
      t.cnt64 = s.cnt64 ∧ t.params = s.params ∧ t.dw = s.dw ∧ t.sw = s.sw) ∧
  (∀ s : State, s.bridgeUp = true →
    exec (.perstN false) s = .next (settle s { s with host := { s.host with perst := false, pcieLink := true } }) ∧
    (∃ t, exec (.perstN true) s = .next t ∧ t.host.perst = true ∧ t.host.pcieLink = false ∧ t.host.pcieQ = [] ∧ t.host.aperPcie = 0) ∧
    (∀ mb, s.pcieUp = true → s.host.busy = some (mb, .dma) →
      ∃ t, exec .pcieLinkLoss s = .next t ∧ t.host.pcieLink = false ∧ t.host.area = none ∧ t.host.busy = none ∧
        (t.mb mb.val).state = .done ∧ t.rd (respAddr mb.val + 6) 2 = 0x1B ∧ t.params = s.params) ∧
    (s.pcieUp = true → s.host.busy = none →
      exec .pcieLinkLoss s = .next (settle s { s with host := { s.host with pcieLink := false, reading := none } })))

/-- R276 to R285: a ring, a done and an abort act on every named mailbox by its state; firmware takes the oldest rung request alone; a repeated
request gets its stored response with REPLAY 1 and is not executed; a length that a command does not allow is answered with
BAD_LENGTH, which an object or update command also counts as its own, an unknown code with UNKNOWN_CMD. ECHO, GET_INFO and PARAM_GET answer as stated. -/
def Obligations.MailboxProtocol : Prop :=
  (∀ (s : State) (mask : BitVec 16), s.live = true →
    (∃ t, exec (.dwMbRing mask) s = .next t ∧ SameMem s t ∧
      ((∀ x ∈ s.host.rings, (s.mb x.val).rung ≠ s.time.cycle) → t.host.rings = s.host.rings ++
        (List.finRange 16).filter (fun n => mask.getLsbD n.val && decide ((s.mb n.val).state = .idle))) ∧
      ((∀ x ∈ s.host.rings, (s.mb x.val).rung = s.time.cycle ∧ (s.mb x.val).state ≠ .idle) → s.host.rings.Pairwise (fun x y => x.val < y.val) →
        t.host.rings = (List.finRange 16).filter (fun n => decide (n ∈ s.host.rings) ||
          (mask.getLsbD n.val && decide ((s.mb n.val).state = .idle)))) ∧
      ∀ n : Mb, let r := mask.getLsbD n.val
        let idle := decide ((s.mb n.val).state = .idle)
        t.mb n.val = (if r && idle then { s.mb n.val with state := .pending, rung := s.time.cycle, since := s.host.free }
          else s.mb n.val) ∧
        t.host.overring.getLsbD n.val = (s.host.overring.getLsbD n.val || (r && !idle))) ∧
    (∃ t, exec (.dwMbDone mask) s = .next t ∧ SameMem s t ∧ t.host.rings = s.host.rings ∧
      ∀ n : Mb, t.mb n.val = (if mask.getLsbD n.val && decide ((s.mb n.val).state = .done) then { s.mb n.val with state := .idle }
        else s.mb n.val)) ∧
    (∃ t, exec (.dwMbAbort mask) s = .next t ∧ (∀ n : Mb, (mask.getLsbD n.val = false ∨ (s.mb n.val).state = .idle ∨ (s.mb n.val).state = .done) →
        t.mb n.val = s.mb n.val) ∧
      (∀ n : Mb, mask.getLsbD n.val = true → (s.mb n.val).state = .pending → (t.mb n.val).state = .done ∧
        (t.mb n.val).stored = (s.mb n.val).stored ∧ t.rd (respAddr n.val + 6) 2 = 8 ∧ n ∉ t.host.rings) ∧
      (∀ n : Mb, mask.getLsbD n.val = true → (s.mb n.val).state = .busy → s.host.busy = some (n, .dma) →
        (t.mb n.val).state = .done ∧ t.rd (respAddr n.val + 6) 2 = 8 ∧ t.host.area = none) ∧
      (∀ n : Mb, mask.getLsbD n.val = true → (s.mb n.val).state = .busy → s.host.busy = some (n, .taken) → s.reqCmd n.val = 0x0014 →
        (t.mb n.val).state = .done ∧ t.rd (respAddr n.val + 6) 2 = 8 ∧ t.host.busy = none ∧ ∀ a, t.host.area = some a → a.mb ≠ n) ∧
      (∀ (n : Mb) (w : Waiting), mask.getLsbD n.val = true → (s.mb n.val).state = .busy → s.host.busy = some (n, w) → w ≠ .dma →
        (w ≠ .taken ∨ s.reqCmd n.val ≠ 0x0014) → t.mb n.val = s.mb n.val ∧ t.host.busy = s.host.busy))) ∧
  (∀ (s : State) (mb : Mb) (rest : List Mb), s.host.busy = none → s.host.rings = mb :: rest →
    let t := s.takeTick
    ((s.mb mb.val).since + 16000 ≤ s.host.free + 1 → t.host.rings = rest ∧ t.host.busy = some (mb, .taken) ∧ (t.mb mb.val).state = .busy) ∧
    ((t.host.rings = s.host.rings ∧ t.host.busy = none ∧ t.host.mbs = s.host.mbs ∧ t.host.free = s.host.free + 1) ∨
      (t.host.rings = rest ∧ t.host.busy = some (mb, .taken) ∧ t.mb mb.val = { s.mb mb.val with state := .busy } ∧
        ∀ n : Mb, n ≠ mb → t.mb n.val = s.mb n.val))) ∧
  (∀ (s : State) (mb : Mb) (c : Instr × Nat),
    c ∈ [(.echo mb, 0x0001), (.getInfo mb, 0x0002), (.paramGet mb, 0x0003), (.paramSet mb, 0x0004), (.objOpen mb, 0x0010), (.objWrite mb, 0x0011),
      (.objCommit mb, 0x0012), (.objCancel mb, 0x0013), (.objDma mb, 0x0014), (.objLoad mb, 0x0015), (.frameSend mb, 0x0030),
      (.faultClear mb, 0x0040), (.connRemove mb, 0x0720), (.nmHostNeed mb, 0x0C01), (.nmHostRelease mb, 0x0C02), (.nmStatus mb, 0x0C03),
      (.pairStatus mb, 0x0D01), (.pairRole mb, 0x0D02), (.updStatus mb, 0x0F01), (.diagMemtest mb, 0x1101),
      (.diagScrubFast mb, 0x1102), (.diagCmpTest mb, 0x1103), (.diagCounters mb, 0x1104)] →
    (s.canTake mb.val = false → exec c.1 s = .next (settle s s)) ∧
    (∀ r, s.canTake mb.val = true → s.reqCmd mb.val = c.2 → s.replay mb.val = some r →
      exec c.1 s = .next (settle s ((s.wrB (respAddr mb.val) (splice r 5 [BitVec.ofNat 8 (byteAt r 5 ||| 0x80)])).enterDone mb.val
        (s.mb mb.val).stored)))) ∧
  (∀ (s : State) (mb : Mb) (x : Instr × Nat × (Nat → Bool)) (pay : List Byte),
    x ∈ [(.getInfo mb, 0x0002, fun l => l == 0), (.paramGet mb, 0x0003, fun l => l % 4 == 0 && decide (l ≤ 336)),
      (.paramSet mb, 0x0004, fun l => l % 12 == 0 && decide (l ≤ 1008)), (.objOpen mb, 0x0010, fun l => l == 8),
      (.objWrite mb, 0x0011, fun l => decide (4 ≤ l)), (.objCommit mb, 0x0012, fun l => l == 0), (.objCancel mb, 0x0013, fun l => l == 0),
      (.objDma mb, 0x0014, fun l => l == 16), (.objLoad mb, 0x0015, fun l => decide (4 ≤ l)), (.frameSend mb, 0x0030, fun l => decide (64 ≤ l)),
      (.faultClear mb, 0x0040, fun l => l == 0), (.connRemove mb, 0x0720, fun l => l == 4), (.nmHostNeed mb, 0x0C01, fun l => l == 0),
      (.nmHostRelease mb, 0x0C02, fun l => l == 0), (.nmStatus mb, 0x0C03, fun l => l == 0), (.pairStatus mb, 0x0D01, fun l => l == 0),
      (.updStatus mb, 0x0F01, fun l => l == 0), (.diagScrubFast mb, 0x1102, fun l => l == 0), (.diagCmpTest mb, 0x1103, fun l => l == 0),
      (.diagCounters mb, 0x1104, fun l => l % 4 == 0 && decide (l ≤ 508))] →
    Taken s mb x.2.1 pay → x.2.2 pay.length = false → exec x.1 s = .next (settle s (s.refuseLength mb))) ∧
  (∀ (s : State) (mb : Mb),
    let c := s.reqCmd mb.val
    ((c < 0x0010 ∨ 0x0015 < c) → c ∉ [0x0F01, 0x0F02, 0x0F03] → s.refuseLength mb = s.complete mb.val .badLength []) ∧
    (0x0010 ≤ c → c ≤ 0x0015 → (∀ a, s.host.area = some a → a.mb ≠ mb) → s.refuseLength mb = s.complete mb.val .badLength []) ∧
    (∀ a, 0x0010 ≤ c → c ≤ 0x0015 → s.host.area = some a → a.mb = mb → s.refuseLength mb = State.complete { s with host := { s.host with
      area := if c = 0x0012 then none else some { a with last := s.time.cycle } } } mb.val .badLength []) ∧
    (c = 0x0F01 ∨ c = 0x0F02 → s.refuseLength mb = (s.noteRefusal .badLength false).complete mb.val .badLength []) ∧
    (c = 0x0F03 → s.refuseLength mb = (s.noteRefusal .badLength true).complete mb.val .badLength (natLe 4 s.nextBlock))) ∧
  (∀ (s : State) (mb : Mb) (code : Nat) (pay : List Byte), Taken s mb code pay →
    (code = 0x0001 → exec (.echo mb) s = .next (settle s (s.complete mb.val .ok pay))) ∧
    (code = 0x0002 → pay = [] → exec (.getInfo mb) s = .next (settle s (s.complete mb.val .ok
      (natLe 4 Config.fwVersion.toNat ++ natLe 4 (mb.val + 0x100 + 1016 * 65536))))) ∧
    (code ∉ cmdCodes → exec (.unknownCommand mb) s = .next (settle s (s.complete mb.val .unknownCmd []))) ∧
    (∀ pids : List Nat, code = 0x0003 → pay = pids.flatMap (natLe 4) → pids.length ≤ 84 →
      (∀ p, p ∈ pids → p < 65536 ∧ (pidRow? p).isSome = true) →
      exec (.paramGet mb) s = .next (settle s (s.complete mb.val .ok (pids.flatMap (fun p => match pidRow? p with
        | some r => natLe 4 (p + r.type.code * 65536) ++ natLe 8 ((s.paramValue p) % (2 ^ 64 : Nat)).toNat
        | none => []))))) ∧
    (∀ p : Nat, code = 0x0003 → pay = natLe 4 p → p < 65536 → pidRow? p = none →
      ∃ t out, exec (.paramGet mb) s = .next (settle s t) ∧ out.length = 12 ∧ leNat (out.take 2) = p ∧ out.getD 3 0 = 4 ∧
        ∃ u, t = State.complete u mb.val .ok out ∧ u.mem = s.mem)) ∧
  (∀ (s : State) (mb : Mb) (st : Status) (pay : List Byte), pay.length ≤ 1016 →
    let t := s.complete mb.val st pay
    t.rd (respAddr mb.val) 2 = s.reqCmd mb.val ∧ t.rd (respAddr mb.val + 2) 2 = s.reqSeq mb.val ∧
    t.rd (respAddr mb.val + 4) 2 = pay.length ∧ t.rd (respAddr mb.val + 6) 2 = st.code ∧
    t.rdB (respAddr mb.val + 8) pay.length = pay ∧ SameMemBut s t (respAddr mb.val) (8 + pay.length) ∧
    (t.mb mb.val).state = .done ∧ (∀ n : Mb, n ≠ mb → t.mb n.val = s.mb n.val) ∧ t.params = s.params ∧ t.time = s.time)

/-- R287 to R289: the object assembly area: opened, written in order, committed and released, or refused; OBJ_DMA fills it in reads of 512 bytes
and commits at the last; an error, a timeout and a second of silence release it. A refused object changes nothing. R309: a table object is written one entry in a cycle, and the last one ends
its command. -/
def Obligations.ObjectCommands : Prop :=
  (∀ (s : State) (mb : Mb) (w size : Nat), w < 2 ^ 32 → size < 2 ^ 32 →
    let free := s.host.area = none ∨ ∃ a, s.host.area = some a ∧ a.mb = mb
    let area : Assembly := { mb := mb, type := BitVec.ofNat 8 w, size := size, data := [], last := s.time.cycle, dma := none }
    let ans (st : Status) := settle s ((s.touchArea mb).complete mb.val st [])
    Taken s mb 0x0010 (natLe 4 w ++ natLe 4 size) →
    (256 ≤ w → exec (.objOpen mb) s = .next (ans .badField)) ∧
    (w < 256 → (w = 0 ∨ 0x0A < w) → exec (.objOpen mb) s = .next (ans .objType)) ∧
    (1 ≤ w → w ≤ 0x0A → size = 0 → exec (.objOpen mb) s = .next (ans .ok)) ∧
    (1 ≤ w → w ≤ 0x0A → 1376256 < size → exec (.objOpen mb) s = .next (ans .objTooLarge)) ∧
    (1 ≤ w → w ≤ 0x0A → 0 < size → size ≤ 1376256 → ¬ free → exec (.objOpen mb) s = .next (ans .busy)) ∧
    (1 ≤ w → w ≤ 0x0A → 0 < size → size ≤ 1376256 → free →
      exec (.objOpen mb) s = .next (settle s (State.complete { s with host := { s.host with area := some area } } mb.val .ok [])))) ∧
  (∀ (s : State) (mb : Mb) (off : Nat) (d : List Byte) (a : Assembly), off < 2 ^ 32 →
    (Taken s mb 0x0011 (natLe 4 off ++ d) → s.host.area = some a → a.mb = mb →
      (off = a.data.length → off + d.length ≤ a.size → exec (.objWrite mb) s = .next (settle s
        (State.complete { s with host := { s.host with area := some { a with data := a.data ++ d, last := s.time.cycle } } } mb.val .ok []))) ∧
      ((off ≠ a.data.length ∨ a.size < off + d.length) → exec (.objWrite mb) s = .next (settle s
        (State.complete { s with host := { s.host with area := some { a with last := s.time.cycle } } } mb.val .objOffset [])))) ∧
    (Taken s mb 0x0012 [] → s.host.area = some a → a.mb = mb →
      (a.data.length < a.size → exec (.objCommit mb) s = .next (settle s (s.freeArea.complete mb.val .objIncomplete []))) ∧
      (a.size ≤ a.data.length →
        let r := s.freeArea.loadObject a.type.toNat a.data
        exec (.objCommit mb) s = .next (settle s (r.2.answer mb r.1)))) ∧
    (Taken s mb 0x0013 [] → s.host.area = some a → a.mb = mb →
      exec (.objCancel mb) s = .next (settle s (s.freeArea.complete mb.val .ok []))) ∧
    ((∀ x, s.host.area = some x → x.mb ≠ mb) →
      (Taken s mb 0x0011 (natLe 4 off ++ d) → exec (.objWrite mb) s = .next (settle s (s.complete mb.val .objNotOpen []))) ∧
      (Taken s mb 0x0012 [] → exec (.objCommit mb) s = .next (settle s (s.complete mb.val .objNotOpen []))) ∧
      (Taken s mb 0x0013 [] → exec (.objCancel mb) s = .next (settle s (s.complete mb.val .objNotOpen []))))) ∧
  (∀ (s : State) (mb : Mb) (type : Nat) (b : List Byte), 1 ≤ type → type ≤ 0x0A → Taken s mb 0x0015 (natLe 4 type ++ b) → s.host.area = none →
    (b = [] → exec (.objLoad mb) s = .next (settle s (s.complete mb.val .ok []))) ∧
    (b ≠ [] → ∀ st at_, s.objCheck type b = some (st, at_) → 0x10 ≤ st.code → st.code ≤ 0x16 →
      ∃ t pay, exec (.objLoad mb) s = .next (settle s t) ∧ pay.length = 8 ∧ ∃ n, t = State.complete { s with fresh := n } mb.val st pay) ∧
    (b ≠ [] → s.objCheck type b = none → exec (.objLoad mb) s = .next (settle s
      ((s.loadObject type b).2.answer mb (s.loadObject type b).1)))) ∧
  (∀ (s : State) (mb : Mb) (type size : Nat) (addr : BitVec 64), 1 ≤ type → type ≤ 0x0A → 0 < size → size ≤ 1376256 →
    Taken s mb 0x0014 (natLe 4 type ++ natLe 4 size ++ natLe 8 addr.toNat) → addr.toNat % 4 = 0 → s.host.area = none →
    (s.host.pcieLink = false → exec (.objDma mb) s = .next (settle s (s.complete mb.val .dmaError []))) ∧
    (s.host.pcieLink = true → exec (.objDma mb) s = .next (settle s (State.answer { s with host := { s.host with
      area := some { mb := mb, type := BitVec.ofNat 8 type, size := size, data := [], last := s.time.cycle,
                     dma := some (addr, s.time.cycle) } } } mb (.wait .dma))))) ∧
  (∀ (s : State) (mb : Mb) (a : Assembly) (d : List Byte), s.fw = true → s.host.busy = some (mb, .dma) → s.host.area = some a →
    let fail := settle s (s.complete mb.val .dmaError []).freeArea
    let part := d.take (min 512 (a.size - a.data.length))
    (s.host.pcieLink = true → exec (.objDmaCompletion d false) s = .next fail) ∧
    (s.host.pcieLink = true → a.data.length + part.length < a.size → exec (.objDmaCompletion d true) s = .next (settle s
      { s with host := { s.host with area := some { a with data := a.data ++ part } } })) ∧
    (s.host.pcieLink = true → a.size ≤ a.data.length + part.length →
      let r := s.freeArea.loadObject a.type.toNat (a.data ++ part)
      exec (.objDmaCompletion d true) s = .next (settle s (r.2.answer mb r.1))) ∧
    (∀ x t0, a.dma = some (x, t0) →
      (t0 + 80000000 ≤ s.time.cycle → exec .objDmaTimeout s = .next fail) ∧
      (s.time.cycle < t0 + 80000000 → exec .objDmaTimeout s = .next (settle s s)))) ∧
  (∀ (s : State) (a : Assembly), s.fw = true → s.host.area = some a → a.dma = none →
    (a.last + 800000000 ≤ s.time.cycle → exec .objAreaTimeout s = .next (settle s { s with host := { s.host with area := none } })) ∧
    (s.time.cycle < a.last + 800000000 → exec .objAreaTimeout s = .next (settle s s))) ∧
  (∀ (s : State) (l : TableLoad) (e : Nat) (r : List Nat), s.host.table = some l → l.rest = e :: r →
    let t := s.tableTick
    t.host.table = (if r = [] then none else some { l with next := l.next + 1, rest := r }) ∧
    (r ≠ [] → t.mem = (s.tableWrite l.type l.next e).mem ∧ t.host.busy = s.host.busy) ∧
    (∀ b, r = [] → s.host.busy = some (b, .tableLoad) → (t.mb b.val).state = .done ∧ t.host.busy = none))

/-- R290 to R292: FRAME_SEND hands the frame to P22 or is refused for a full queue; CONN_REMOVE frees a valid entry and no other; DIAG_COUNTERS reads
its counters in order and clears those of access RC, or reads none. -/
def Obligations.FirmwareCommands : Prop :=
  (∀ (s : State) (mb : Mb) (w : Word) (b : List Byte), 60 ≤ b.length → Taken s mb 0x0030 (natLe 4 w.toNat ++ b) →
    let waiting := (s.sw.arriving.filter (fun a => a.port == 22 && decide (s.time.cycle < a.stop))).length
    (w &&& 0xFFFFFF08 ≠ 0 → exec (.frameSend mb) s = .next (settle s (s.complete mb.val .badField []))) ∧
    (w &&& 0xFFFFFF08 = 0 → Config.p22Queue < waiting → exec (.frameSend mb) s = .next (settle s (s.complete mb.val .queueFull []))) ∧
    (w &&& 0xFFFFFF08 = 0 → waiting ≤ Config.p22Queue →
      exec (.frameSend mb) s = .next (settle s (State.complete (s.receive
        { port := 22, unit := .express, bytes := b, codeErr := false, cls := BitVec.ofNat 3 (bits w.toNat 2 0),
          dom := BitVec.ofNat 4 (bits w.toNat 7 4) }) mb.val .ok [])))) ∧
  (∀ (s : State) (mb : Mb) (e : Nat), e < 2 ^ 32 → Taken s mb 0x0720 (natLe 4 e) →
    (65536 ≤ e → exec (.connRemove mb) s = .next (settle s (s.complete mb.val .badField []))) ∧
    (e < 65536 → bit (s.rd (connAddr e) 1) 0 = false → exec (.connRemove mb) s = .next (settle s (s.complete mb.val .noEntry []))) ∧
    (e < 65536 → bit (s.rd (connAddr e) 1) 0 = true →
      ∃ u, exec (.connRemove mb) s = .next (settle s (State.complete u mb.val .ok [])) ∧ (∀ i, i < 64 → u.rd8 (connAddr e + i) = 0) ∧
        SameMemBut s u (connAddr e) 64 ∧ (MemInv s → u.connUsed = s.connUsed - 1) ∧ u.params = s.params ∧ u.time = s.time)) ∧
  (∀ (s : State) (mb : Mb) (ws : List Nat), (∀ w, w ∈ ws → w < 2 ^ 32) → ws.length ≤ 127 → Taken s mb 0x1104 (ws.flatMap (natLe 4)) →
    (ws = [] → exec (.diagCounters mb) s = .next (settle s (s.complete mb.val .ok []))) ∧
    ((∃ w, w ∈ ws ∧ counterBad w = true) → exec (.diagCounters mb) s = .next (settle s (s.complete mb.val .badField []))) ∧
    (∀ w, ws = [w] → counterBad w = false → w % 4 = 0 → isWide w = false → isRc w = true → (w < 4 ∨ isWide (w - 4) = false) →
      exec (.diagCounters mb) s = .next (settle s ((s.rcClear w).complete mb.val .ok (natLe 8 (s.rcValue w).toNat)))) ∧
    (∀ w, ws = [w] → counterBad w = false → w % 4 = 1 → isWide (w - 1) = true → isWide (w + 3) = false →
      ∃ u, exec (.diagCounters mb) s = .next (settle s (State.complete u mb.val .ok (natLe 8 (s.c64 (w - 1)).toNat))) ∧ u.mem = s.mem ∧
        u.cnt64 = s.cnt64 ∧ u.cnt32 = s.cnt32)) ∧
  (∀ (s : State) (a : Nat), 0x0B000110 ≤ a → a ≤ 0x0B000144 → s.rcValue a = s.c32 a ∧ (s.rcClear a).c32 a = 0 ∧
    ∀ b, b ≠ a → (s.rcClear a).c32 b = s.c32 b)

/-- R286, R294, R295, R296: PARAM_SET checks every entry in order against the values of those before it; a failure applies nothing and names entry,
PID and code; when every entry passes each parameter holds its value, every other parameter keeps its own, and the snapshot's
static part waits for its rewrite. -/
def Obligations.ParameterSetting : Prop :=
  (∀ (s : State) (mb : Mb) (es : List (Nat × Nat)), (∀ e, e ∈ es → e.1 < 2 ^ 32 ∧ e.2 < 2 ^ 64) → es.length ≤ 84 →
    Taken s mb 0x0004 (es.flatMap (fun e => natLe 4 e.1 ++ natLe 8 e.2)) →
    (∀ i w st, s.paramFailure 0 es = some (i, w, st) →
      exec (.paramSet mb) s = .next (settle s (s.complete mb.val st (natLe 4 (i + w % 65536 * 65536))))) ∧
    (s.paramFailure 0 es = none →
      ∃ u, exec (.paramSet mb) s = .next (settle s (State.complete u mb.val .ok [])) ∧
        (∀ p, (∀ e, e ∈ es → e.1 ≠ p) → u.param p = s.param p) ∧
        (∀ p v r pre post, es = pre ++ (p, v) :: post → (∀ e, e ∈ post → e.1 ≠ p) → pidRow? p = some r → u.param p = v % 2 ^ r.type.width) ∧
        (es ≠ [] → u.nm.snapDirty = true) ∧ u.time.cycle = s.time.cycle)) ∧
  (∀ (s : State) (p v : Nat), p < 65536 →
    (pidRow? p = none → s.paramFailure 0 [(p, v)] = some (0, p, .unknownPid)) ∧
    (∀ r, pidRow? p = some r →
      (r.ro = true → s.paramFailure 0 [(p, v)] = some (0, p, .pidReadOnly)) ∧
      (r.ro = false → s.rangeOk r p v = false → s.paramFailure 0 [(p, v)] = some (0, p, .range)) ∧
      (r.ro = false → s.rangeOk r p v = true → (s.setParam p (v % 2 ^ r.type.width)).conflicts p (s.param p) v = true →
        s.paramFailure 0 [(p, v)] = some (0, p, .conflict)) ∧
      (r.ro = false → s.rangeOk r p v = true → (s.setParam p (v % 2 ^ r.type.width)).conflicts p (s.param p) v = false →
        s.paramFailure 0 [(p, v)] = none))) ∧
  (∀ (s : State) (i : Nat) (a b : List (Nat × Nat)) (j w : Nat) (st : Status), s.paramFailure i a = some (j, w, st) →
    s.paramFailure i (a ++ b) = some (j, w, st)) ∧
  (∀ (s : State) (v : Nat), v < 16 → ((s.setParam 0x0E01 v).conflicts 0x0E01 (s.param 0x0E01) v = true ↔
    ∃ i, i < 4 ∧ (s.param 0x0E01).testBit i = true ∧ v.testBit i = false))

/-- R6, R7, R268, R272, R297, R311, R313: a word written by a master: what each access code of its target makes of it. RW fields take the enabled
bytes, W1C fields clear at ones but for a bit set in the same cycle, read-only words stay; an RO region and an address outside every region answer an error; a
reserved one stops the run. R329: a write of what a warm wake restores waits for the rewrite of the snapshot. -/
def Obligations.RegisterWrites : Prop :=
  (∀ (s : State) (m : Master) (a v : Word) (be : BitVec 4), s.live = true →
    let x := a.toNat
    (s.accessCause x true = 0 → setsReserved x v.toNat be.toNat = false →
      exec (.registerWrite m a v be) s = .next (settle s (s.writeWord x v.toNat be.toNat))) ∧
    (s.accessCause x true = 0 → setsReserved x v.toNat be.toNat = true → exec (.registerWrite m a v be) s = .fault .reservedOne) ∧
    (s.accessCause x true ≠ 0 → m ≠ .pcie → m ≠ .spi → exec (.registerWrite m a v be) s = .next (settle s s)) ∧
    (s.accessCause x true ≠ 0 → m = .spi → ∃ t, exec (.registerWrite m a v be) s = .next t ∧ Logged s t .spi (s.accessCause x true)) ∧
    (s.accessCause x true ≠ 0 → m = .pcie → ∃ t, exec (.registerWrite m a v be) s = .next t ∧ Logged s t .pcie (s.accessCause x true))) ∧
  (∀ (s : State) (v : Word) (be : BitVec 4),
    let lane (i : Nat) := be.getLsbD (i / 8)
    let at_ (o : Nat) := s.writeWord (0x03010000 + o) v.toNat be.toNat
    let u : State := { s with nm := { s.nm with snapDirty := true } }
    (∃ w, at_ 0x030 = { u with dw.scratch0 := w } ∧ ∀ i, i < 32 → w.getLsbD i = if lane i then v.getLsbD i else s.dw.scratch0.getLsbD i) ∧
    (∃ w, at_ 0x084 = { u with dw.irqEn := w } ∧ ∀ i, i < 16 → w.getLsbD i = if lane i then v.getLsbD i else s.dw.irqEn.getLsbD i) ∧
    (∃ w, at_ 0x080 = { s with dw.irqW1c := w } ∧ ∀ i, i < 16 → w.getLsbD i = (s.dw.irqW1c.getLsbD i &&
      (!(lane i && v.getLsbD i) || (decide (s.dw.irqAt = s.time.cycle) && s.dw.irqSet.getLsbD i)))) ∧
    (∃ w, at_ 0x09C = { s with dw.linkChg := w } ∧ ∀ i, i < 24 → w.getLsbD i = (s.dw.linkChg.getLsbD i && !(lane i && v.getLsbD i))) ∧
    (∃ w, at_ 0x06C = { u with host.aperPcie := w } ∧ w &&& 0xFFFFFEF0 = 0 ∧
      ∀ i, i < 4 → w.getLsbD i = if lane i then v.getLsbD i else s.host.aperPcie.getLsbD i) ∧
    at_ 0x000 = s ∧ at_ 0x008 = s ∧ at_ 0x098 = s ∧ at_ 0x100 = s ∧
    (∀ a, (a ≤ 0xFFFF ∨ (0x02000000 ≤ a ∧ a ≤ 0x021FFFFF) ∨ (0x08000000 ≤ a ∧ a ≤ 0x08BFFFFF) ∨ (0x0D000000 ≤ a ∧ a ≤ 0x0D000FFF)) →
      s.writeWord a v.toNat be.toNat = s ∧ (s.pw.mode ≠ .failSilent → s.accessCause a true = 2))) ∧
  (∀ (s : State) (a : Nat) (v : Word) (be : BitVec 4), 0x01000000 ≤ a → a + 3 ≤ 0x0141FFFF →
    let t := s.writeWord a v.toNat be.toNat
    (∀ i, i < 4 → t.rd8 (a + i) = if be.getLsbD i then (v >>> (8 * i)).setWidth 8 else s.rd8 (a + i)) ∧ SameMemBut s t a 4 ∧
    t.params = s.params ∧ t.dw = s.dw ∧ t.host = s.host ∧ t.cnt32 = s.cnt32 ∧ t.time = s.time) ∧
  (∀ (s : State) (a v be : Nat), retainedWord a = true → (s.writeWord a v be).nm.snapDirty = true) ∧
  (∀ (s : State) (v : Word), s.live = true →
    (v &&& 0xFFFF0000 ≠ 0 → exec (.dwIrqForce v) s = .fault .reservedOne) ∧
    (v &&& 0xFFFF0000 = 0 → ∃ w, exec (.dwIrqForce v) s = .next (settle s (s.setIrq w)) ∧ (s.setIrq w).dw.irqAt = s.time.cycle ∧
      ∀ i, i < 16 → (s.setIrq w).dw.irqW1c.getLsbD i = (s.dw.irqW1c.getLsbD i || (v.getLsbD i && decide (i ∈ [0, 8, 9, 10, 12, 13]))))) ∧
  (∀ (s : State) (t0 : Nat), s.live = true → s.host.lastMsix3 = some t0 → s.host.msix3Due = true → s.host.pcieLink = true → s.host.msixOn.getLsbD 3 = true →
    let due := t0 + 800 * s.dw.irqLat.toNat
    (due ≤ s.time.cycle → ∃ t, exec .irqModerationExpiry s = .next t ∧ SMap.get 0 t.host.msix 3 = SMap.get 0 s.host.msix 3 + 1 ∧
      t.host.msix3Due = false ∧ t.host.lastMsix3 = some s.time.cycle ∧ t.mem = s.mem ∧ t.dw = s.dw) ∧
    (s.time.cycle < due → exec .irqModerationExpiry s = .next (settle s s)))

/-- R32, R320 to R322, R324 to R327, R332: Commit is accepted only in Ebb, once the countdown has reached its timeout, with an empty wake latch; a refused request
returns to Awake, or restarts the countdown when only KA was set; an accepted wake-line edge ends Ebb and sets its bit of the latch; bus and
PHY wakes set it in Commit and Slack alone. A line that rises while its input bit is clear or while the device drives it counts as high from then on. 2 ms
after its acceptance Commit ends in Slack. -/
def Obligations.CommitAndWake : Prop :=
  (∀ s : State, s.live = true →
    (s.nm.state = .awake → exec .commit s = .next (settle s { s with nm := { s.nm with accepted := false } })) ∧
    (s.nm.state = .commit → exec .commit s = .next (settle s s)) ∧
    (s.nm.state = .ebb → s.time.cycle < s.nm.countAt + msCycles (s.param 0x0C01) →
      exec .commit s = .next (settle s { s with nm := { s.nm with accepted := false } })) ∧
    (s.nm.state = .ebb → s.nm.countAt + msCycles (s.param 0x0C01) ≤ s.time.cycle → s.nm.latch = 0 →
      ∃ t, exec .commit s = .next t ∧ t.nm.state = .commit ∧ t.nm.accepted = true ∧ t.nm.commitAt = s.time.cycle ∧
        t.nm.sleeps = satInc s.nm.sleeps ∧ t.nm.latch = 0 ∧ (if s.ls.restarting then t.dw.fwDue.getLsbD 0 = true else t.dw.fwEvent.getLsbD 0 = true) ∧ SameMem s t ∧ t.params = s.params ∧
        t.bus = s.bus ∧ t.sw = s.sw) ∧
    (s.nm.state = .ebb → s.nm.countAt + msCycles (s.param 0x0C01) ≤ s.time.cycle → s.nm.latch ≠ 0 → s.fw = true → s.secondary = false →
      ∃ t, exec .commit s = .next t ∧ t.nm.accepted = false ∧ t.nm.latch = 0 ∧ t.nm.sleeps = s.nm.sleeps ∧
        (s.nm.latch = 0x100 → t.nm.state = .ebb ∧ t.nm.countAt = s.time.cycle ∧ t.nm.aborts = s.nm.aborts) ∧
        (s.nm.latch &&& 0xFF ≠ 0 → t.nm.state = .awake ∧ t.nm.aborts = satInc s.nm.aborts ∧ t.nm.wakeHold = true ∧ t.nm.firstKa = true))) ∧
  (∀ s : State, s.fw = true → s.secondary = false → s.pw.token.holder = none →
    (s.nm.state = .ebb → s.nm.countAt + msCycles (s.param 0x0C01) ≤ s.time.cycle → exec .ebbTimeout s = exec .commit s) ∧
    ((s.nm.state ≠ .ebb ∨ s.time.cycle < s.nm.countAt + msCycles (s.param 0x0C01)) → exec .ebbTimeout s = .next (settle s s))) ∧
  (∀ (s : State) (w : Fin 4), s.pw.vaon = true → s.paramBit (0x0C20 + w.val) 0 = true → s.nm.lines.getLsbD w.val = false →
    s.lineDeaf w.val = false →
    (s.pw.mode = .slack → ∃ t, exec (.wakeLineEdge w) s = .next t ∧ t.nm.latch = s.nm.latch ||| BitVec.ofNat 9 (2 ^ w.val) ∧
      t.pw = s.pw ∧ t.mem = s.mem) ∧
    (s.pw.mode = .failSilent → ∃ t, exec (.wakeLineEdge w) s = .next t ∧ t.nm.latch = s.nm.latch ||| BitVec.ofNat 9 (2 ^ w.val) ∧
      t.dw.irqW1c.getLsbD 13 = true ∧ t.pw = s.pw ∧ t.mem = s.mem) ∧
    (s.live = true → s.nm.state = .commit → ∃ t, exec (.wakeLineEdge w) s = .next t ∧
      t.nm.latch = s.nm.latch ||| BitVec.ofNat 9 (2 ^ w.val) ∧ t.nm.state = .commit ∧ t.mem = s.mem) ∧
    (s.fw = true → s.secondary = false → s.nm.state = .ebb →
      ∃ t, exec (.wakeLineEdge w) s = .next t ∧ t.nm.state = .awake ∧ t.nm.aborts = satInc s.nm.aborts ∧ t.dw.irqW1c.getLsbD 13 = true ∧
        t.nm.latch = s.nm.latch ||| BitVec.ofNat 9 (2 ^ w.val) ||| 0x80 ∧ t.nm.lines.getLsbD w.val = true ∧ t.nm.lastKaTx = none ∧
        (∀ v : Fin 4, v ≠ w → s.paramBit (0x0C20 + v.val) 1 = true → t.nm.pulses.getLsbD v.val = true) ∧
        t.nm.pulses.getLsbD w.val = s.nm.pulses.getLsbD w.val) ∧
    (s.fw = true → s.nm.state = .awake → ∃ t, exec (.wakeLineEdge w) s = .next t ∧ t.nm.state = .awake ∧
      t.dw.irqW1c.getLsbD 13 = true ∧ t.nm.lines.getLsbD w.val = true ∧ t.nm.latch = s.nm.latch ||| BitVec.ofNat 9 (2 ^ w.val) ∧
      t.nm.aborts = s.nm.aborts)) ∧
  (∀ (s : State) (w : Fin 4),
    (s.pw.vaon = true → s.nm.lines.getLsbD w.val = false → (s.paramBit (0x0C20 + w.val) 0 = false ∨ s.lineDeaf w.val = true) →
      exec (.wakeLineEdge w) s = .next (settle s { s with nm := { s.nm with lines := setBit s.nm.lines w.val true } })) ∧
    (s.pw.vaon = false ∨ s.nm.lines.getLsbD w.val = true → exec (.wakeLineEdge w) s = .next (settle s s))) ∧
  (∀ (s : State) (w : Fin 4), s.pw.vaon = true → s.nm.lines.getLsbD w.val = true →
    ∃ t, exec (.wakeLineLow w) s = .next t ∧ t.nm.lines.getLsbD w.val = false ∧
      (∀ v : Fin 4, v ≠ w → t.nm.lines.getLsbD v.val = s.nm.lines.getLsbD v.val) ∧ t.nm.latch = s.nm.latch ∧ SameMem s t) ∧
  (∀ (s : State) (ch : CanCh) (m : LinCh) (k : Fin 8), s.listens = true →
    let rec_ (l : BitVec 9) (c : Nat) (t : State) : Prop := t.nm.latch = s.nm.latch ||| l ∧
      t.nm.chan = (if s.nm.chanSet then s.nm.chan else BitVec.ofNat 5 c) ∧ t.nm.chanSet = true ∧ t.mem = s.mem ∧ t.pw = s.pw
    (s.paramBit 0x0C28 ch.val = true →
      (s.live = true → (s.can ch.val).attempt = none ∧ ((s.can ch.val).ours = false ∨ (s.can ch.val).busyTo ≤ s.time.cycle)) → ∃ t, exec (.canWakePattern ch) s = .next t ∧ rec_ 0x10 ch.val t) ∧
    (s.paramBit 0x0C29 m.val = true → ∃ t, exec (.linWakePulse m) s = .next t ∧ rec_ 0x20 m.val t) ∧
    (s.paramBit 0x0C2A k.val = true → ∃ t, exec (.phyWake k) s = .next t ∧ rec_ 0x40 k.val t)) ∧
  (∀ (s : State) (ch : CanCh) (m : LinCh) (k : Fin 8), s.listens = false →
    exec (.canWakePattern ch) s = .next (settle s s) ∧ exec (.phyWake k) s = .next (settle s s) ∧
    ((s.lin m.val).asleep = false → exec (.linWakePulse m) s = .next (settle s s))) ∧
  (∀ s : State, s.live = true →
    (s.nm.state = .commit → exec .aonSwWake s = .next (settle s { s with nm := { s.nm with latch := s.nm.latch ||| 0x80 } })) ∧
    (s.nm.state ≠ .commit →
      exec .aonSwWake s = .next (settle s { s with nm := { s.nm with latch := s.nm.latch ||| 0x80, missed := true } }))) ∧
  (∀ (s : State) (w : Fin 4), s.live = true → s.nm.pulses.getLsbD w.val = true →
    let due := SMap.get 0 s.nm.pulseAt w.val + usCycles (s.param (0x0C24 + w.val))
    (due ≤ s.time.cycle → ∃ t, exec (.wakePulseEnd w) s = .next t ∧ t.nm.pulses.getLsbD w.val = false ∧
      (∀ v : Fin 4, v ≠ w → t.nm.pulses.getLsbD v.val = s.nm.pulses.getLsbD v.val) ∧ t.nm.state = s.nm.state ∧ t.mem = s.mem) ∧
    (s.time.cycle < due → exec (.wakePulseEnd w) s = .next (settle s s))) ∧
  (∀ s : State, s.pending = [] → s.live = true → s.pw.vaon = true → s.nm.state = .commit → Idle { s with nm := { s.nm with latch := 0 } } →
    s.time.cycle + 1 = s.nm.commitAt + 1600000 →
    ∃ t, step s = .next t ∧ t.pw.mode = .slack ∧ t.pw.inh0 = false ∧ t.pw.inh1 = false ∧ t.pw.fwReady = false ∧ t.sec.wks = [] ∧
      t.sw.frames = [] ∧ t.nm.latch = s.nm.latch ∧ t.snapshot = s.snapshot ∧ t.nm.snapSeq = s.nm.snapSeq)

/-- R317 to R319, R328, R329, R333: a keep-alive is sent at entry to Awake and then every period; wake hold ends at the Ebb timeout; the host asks for the network
and releases it; a node awake too long is ignored, and released after a silence. The static part of the snapshot is rewritten
with the parameters and tables as they stand. -/
def Obligations.LocalNeedAndKeepAlives : Prop :=
  (∀ s : State, s.fw = true → s.nm.state = .awake → s.secondary = false → s.localNeed = true → s.param 0x0C05 < 256 →
    ((s.nm.lastKaTx = none ∨ ∃ t0, s.nm.lastKaTx = some t0 ∧ t0 + msCycles (s.param 0x0C03) ≤ s.time.cycle) →
      ∃ t, exec .keepAliveSend s = .next t ∧ t.nm.lastKaTx = some s.time.cycle ∧ t.nm.firstKa = false ∧ t.nm.state = .awake ∧
        ∀ ch : CanCh, (s.paramBit 0x0C10 ch.val = false → t.can ch.val = s.can ch.val) ∧
          (s.paramBit 0x0C10 ch.val = true → (s.can ch.val).mode = 1 → (s.can ch.val).queue.length < 32 →
            t.nm.countAt = s.time.cycle ∧ ∃ e, t.can ch.val = { s.can ch.val with queue := (s.can ch.val).queue ++ [e] } ∧
            e.msg.id = BitVec.ofNat 29 (s.param 0x0C11 + s.param 0x0C05) ∧ e.msg.ide = false ∧ e.lifetime = s.param 0x0C03 ∧
            e.msg.data = [BitVec.ofNat 8 (s.param 0x0C05), if s.nm.firstKa then 3 else 1, 0, 0, 0, 0, 0, 0])) ∧
    (∀ t0, s.nm.lastKaTx = some t0 → s.time.cycle < t0 + msCycles (s.param 0x0C03) → exec .keepAliveSend s = .next (settle s s))) ∧
  (∀ s : State, (s.localNeed = false ∨ s.nm.state ≠ .awake) → exec .keepAliveSend s = .next (settle s s)) ∧
  (∀ s : State, s.fw = true → s.nm.wakeHold = true → s.secondary = false →
    let due := s.nm.awakeAt + msCycles (s.param 0x0C01)
    (due ≤ s.time.cycle → ∃ t, exec .wakeHoldExpiry s = .next t ∧ t.nm.wakeHold = false ∧ SameMem s t ∧ t.params = s.params ∧
      (s.nm.state = .awake → t.nm.state = (if s.needMask = 16 then .ebb else .awake))) ∧
    (s.time.cycle < due → exec .wakeHoldExpiry s = .next (settle s s))) ∧
  (∀ (s : State) (mb : Mb),
    (Taken s mb 0x0C01 [] → s.nm.state ≠ .commit → s.secondary = false →
      ∃ u, exec (.nmHostNeed mb) s = .next (settle s (State.complete u mb.val .ok [])) ∧ u.nm.host = true ∧ u.mem = s.mem ∧
        u.params = s.params ∧ (s.nm.state = .ebb → s.localNeed = false → s.nm.hostIgnored = false →
          u.nm.state = .awake ∧ u.nm.aborts = satInc s.nm.aborts)) ∧
    (Taken s mb 0x0C02 [] → s.nm.state ≠ .commit →
      ∃ u, exec (.nmHostRelease mb) s = .next (settle s (State.complete u mb.val .ok [])) ∧ u.nm.host = false ∧ u.nm.hostIgnored = false ∧
        u.mem = s.mem ∧ u.params = s.params) ∧
    (Taken s mb 0x0C01 [] → s.nm.state = .commit → exec (.nmHostNeed mb) s = .next (settle s
      (State.complete { s with nm := { s.nm with latch := s.nm.latch ||| 0x80 } } mb.val .state []))) ∧
    (Taken s mb 0x0C02 [] → s.nm.state = .commit → exec (.nmHostRelease mb) s = .next (settle s
      (State.complete { s with nm := { s.nm with latch := s.nm.latch ||| 0x80 } } mb.val .state []))) ∧
    (Taken s mb 0x0C03 [] → exec (.nmStatus mb) s = .next (settle s (s.complete mb.val .ok s.nmStatusBytes)) ∧ s.nmStatusBytes.length = 68 ∧
      leNat (slice s.nmStatusBytes 48 4) = s.nm.kaRx.toNat ∧ leNat (slice s.nmStatusBytes 52 4) = s.nm.kaTx.toNat ∧
      leNat (slice s.nmStatusBytes 56 4) = s.nm.aborts.toNat ∧ leNat (slice s.nmStatusBytes 60 4) = s.nm.sleeps.toNat ∧
      (byteAt s.nmStatusBytes 0) % 4 = s.nm.state.code ∧ bit (byteAt s.nmStatusBytes 0) 2 = s.nm.snapOk ∧
      (byteAt s.nmStatusBytes 1) = s.needMask)) ∧
  (∀ (s : State) (node : Byte), s.fw = true → s.wakeLevel = false →
    let x := s.node node.toNat
    let far (t : Nat) : Prop := t + msCycles (s.param 0x0C02 * 60000) < s.time.cycle
    (∀ t0, x.ignored = false → x.lastKa.isSome = true → x.awakeAt = some t0 → far t0 →
      ∃ t, exec (.maximumAwakeTime node) s = .next t ∧ (t.node node.toNat).ignored = true ∧ (t.node node.toNat).lastKa = x.lastKa ∧
        (node.toNat ≠ s.param 0x0C05 → t.nm.ignoredN = satInc s.nm.ignoredN) ∧ SameMem s t) ∧
    (∀ t0, node.toNat ≠ s.param 0x0C05 → x.awakeAt = some t0 → ¬ far t0 → (exec (.maximumAwakeTime node) s = .next (settle s (s.nmFollow s)))) ∧
    (∀ t0, x.ignored = true → x.lastKa = some t0 → t0 + msCycles (s.param 0x0C01) ≤ s.time.cycle →
      ∃ t, exec (.ignoredNodeRelease node) s = .next t ∧ t.node node.toNat = { x with ignored := false } ∧ SameMem s t) ∧
    (∀ t0, x.lastKa = some t0 → s.time.cycle < t0 + msCycles (s.param 0x0C01) → exec (.ignoredNodeRelease node) s = .next (settle s s))) ∧
  (∀ s : State, s.fw = true → s.nm.snapDirty = true → s.nm.state ≠ .commit → s.snapStores = true → s.pw.token.holder ≠ some .otp →
    Activity.otp ∉ s.pw.token.queue →
    ∃ t r, exec .snapshotStaticRewrite s = .next t ∧ t.snapshot = some r ∧ r.params = s.params ∧ r.gates = s.sw.gates ∧ r.mills = s.sw.mills ∧
      r.ruleBank = s.scr.bank ∧ r.ruleGen = s.scr.gen ∧ r.dwRw = s.dwRw ∧ r.kept = s.coldCounts ∧ r.seq = s.nm.snapSeq + 1 ∧ t.nm.snapDirty = false ∧ t.nm.snapSeq = s.nm.snapSeq ∧
      t.upd.wearSnap = s.upd.wearSnap + 1 ∧ (∀ a, (a < 0x02600000 ∨ 0x02780000 ≤ a) → t.rd8 a = s.rd8 a) ∧
      (∀ e, e ∈ r.tables ↔ e ∈ s.mem ∧ s.retainedByte e.1 = true)) ∧
  (∀ s : State, (s.nm.snapDirty = false ∨ s.snapStores = false ∨ s.pw.token.holder = some .otp) →
    exec .snapshotStaticRewrite s = .next (settle s s))

/-- R335 to R346: the reads of a window that wait for no write are made at once; a window whose signatures agree releases the held writes of both
cores in issue order, and then makes the other reads; one that differs restarts both cores from the newest valid checkpoint; a third mismatch within a second, no valid checkpoint, a bad comparator
rail or an entry that ECC cannot correct is a device fault. Firmware writes each checkpoint into the half that does not hold the
newest one. The injection test passes when the extra compare shows its own bit unequal and no other. -/
def Obligations.LockstepWindows : Prop :=
  (∀ (s : State) (w0 w1 : CoreWindow), s.live = true → s.pw.vaon = true → s.pw.inh0 = true → s.compareDue = true →
    let a := s.ls.core0.window w0
    let b := s.ls.core1.window w1
    let n := { s with ls := { s.ls with core0 := Core.reset, core1 := Core.reset, windowN := s.ls.windowN + 1 } }
    let u := (n.coreReads (fun r => !readWaits w0 r) w0).coreReads (fun r => !readWaits w1 r) w1
    let late (t : State) : State := (t.coreReads (readWaits w0) w0).coreReads (readWaits w1) w1
    let silent (t : State) (code unit : Nat) : Prop := t.pw.mode = .failSilent ∧
      (∃ e, t.pw.fr.last = some e ∧ e.code = BitVec.ofNat 16 code ∧ e.unit = BitVec.ofNat 8 unit ∧ e.cycle = s.time.cycle) ∧
      t.sw.link = 0 ∧ (u.upd.ready = none → t.mem = u.mem)
    (w0.reads = [] → w1.reads = [] → u = n ∧ ∀ t, late t = t) ∧
    (w0.badRail = 0 → w1.badRail = 0 → a.unequal = 0 → b.unequal = 0 →
      (a.held = [] → b.held = [] → exec (.lockstepCompare w0 w1) s = .next (settle s (late u))) ∧
      (∀ x, a.held = [x] → b.held = [] → w0.eccBad = none → u.releaseReserved x = false →
        exec (.lockstepCompare w0 w1) s = .next (settle s (late (u.release x)))) ∧
      (∀ x y, w0.eccBad = none → w1.eccBad = none → u.releaseReserved x = false → (u.release x).releaseReserved y = false →
        ((a.held = [x, y] ∧ b.held = []) ∨ (a.held = [] ∧ b.held = [x, y]) ∨ (a.held = [x] ∧ b.held = [y])) →
        exec (.lockstepCompare w0 w1) s = .next (settle s (late ((u.release x).release y)))) ∧
      (∀ x l, a.held = x :: l → w0.eccBad = some 0 → ∃ t, exec (.lockstepCompare w0 w1) s = .next t ∧ silent t 0x0204 0) ∧
      (∀ x l, a.held = x :: l → w0.eccBad = none → u.releaseReserved x = true →
        exec (.lockstepCompare w0 w1) s = .fault .reservedOne)) ∧
    (w0.badRail ≠ 0 → ∃ t, exec (.lockstepCompare w0 w1) s = .next t ∧ silent t 0x0203 0 ∧ t.ls.total = u.ls.total) ∧
    (w0.badRail = 0 → w1.badRail ≠ 0 → ∃ t, exec (.lockstepCompare w0 w1) s = .next t ∧ silent t 0x0203 1 ∧ t.ls.total = u.ls.total) ∧
    (w0.badRail = 0 → w1.badRail = 0 → (a.unequal ≠ 0 ∨ b.unequal ≠ 0) →
      ∃ t, exec (.lockstepCompare w0 w1) s = .next t ∧ t.ls.core0 = Core.reset ∧ t.ls.core1 = Core.reset ∧
        t.ls.last1 = some s.time.cycle ∧ t.ls.last2 = u.ls.last1 ∧ t.ls.total = satInc u.ls.total ∧
        t.c32 (lsReg 4) = satInc (u.c32 (lsReg 4)) ∧ t.ls.cyc = BitVec.ofNat 64 s.time.cycle ∧
        t.ls.diff = (if t.ls.lsCore then b.unequal else a.unequal) ∧ t.ls.both = (a.unequal != 0 && b.unequal != 0) ∧
        (b.unequal = 0 → t.ls.lsCore = false) ∧ (a.unequal = 0 → t.ls.lsCore = true) ∧ t.params = u.params ∧
        (∀ t0 t1, u.ls.last2 = some t0 → u.ls.last1 = some t1 → s.time.cycle < t0 + 800000000 →
          silent t 0x0201 (if t.ls.lsCore then 1 else 0) ∧ t.ls.restarting = u.ls.restarting) ∧
        ((u.ls.last2 = none ∨ ∃ t0, u.ls.last2 = some t0 ∧ t0 + 800000000 ≤ s.time.cycle) →
          (u.newestCkpt = none → silent t 0x0205 0) ∧
          (∀ h, u.newestCkpt = some h → t.ls.half = h ∧ t.ls.restarting = true ∧ t.ls.single = true ∧ t.fw = false ∧
            t.sw.frames = u.sw.frames ∧ t.sw.link = u.sw.link ∧ t.sw.gates = u.sw.gates ∧ t.scr = u.scr ∧ t.bus = u.bus ∧
            t.pw.mode = .operating ∧ t.host.area = none ∧ (u.host.busy = none → t.mem = u.mem) ∧
            t.ls.coreFrom = s.time.cycle ∧ t.ls.windowN = 0 ∧ t.pw.token.queue = [] ∧
            (∀ mb w, u.host.busy = some (mb, w) → (mb.val ≠ 8 → (t.mb mb.val).state = .done) ∧ t.rd (respAddr mb.val + 6) 2 = 9 ∧
              t.host.busy = none))))) ∧
  (∀ (s : State) (w0 w1 : CoreWindow), s.compareDue = false → exec (.lockstepCompare w0 w1) s = .next (settle s s)) ∧
  (∀ (s : State) (body : List Byte), s.fw = true → s.ckptDue = true → 16 ≤ body.length → body.length ≤ 65520 →
    ∃ t h, exec (.checkpoint body) s = .next t ∧ (∀ b, s.newestCkpt = some b → h = !b ∧ t.ckptSeq h = (s.ckptSeq b + 1) % 2 ^ 32) ∧
      t.newestCkpt = some h ∧ t.ckptLen h = body.length ∧ t.rdB (ckptBase h + 16) body.length = body ∧
      SameMemBut s t (ckptBase h) (16 + body.length) ∧ t.params = s.params ∧
      t.ls = { s.ls with ckptTick := some (s.time.cycle / 800000) }) ∧
  (∀ (s : State) (body : List Byte), (body.length < 16 ∨ 65520 < body.length ∨ s.ckptDue = false) → exec (.checkpoint body) s = .next (settle s s)) ∧
  (∀ (s : State) (fail : Option CmpReport), s.live = true → s.pw.vaon = true → s.pw.inh0 = true →
    let bad (ctx : Nat) : Prop := ∃ t, exec (.comparatorInjectionTest fail) s = .next t ∧ t.pw.mode = .failSilent ∧
      ∃ r e, fail = some r ∧ t.pw.fr.last = some e ∧ e.unit = BitVec.ofNat 8 r.core.val ∧
        (r.badRail ≠ 0 → e.code = 0x0203 ∧ e.detail = [r.badRail.setWidth 32, (r.badRail >>> 32).setWidth 32]) ∧
        (r.badRail = 0 → r.unequal ≠ 1#64 <<< r.window.val ∧ e.code = 0x0202 ∧
          e.detail = [BitVec.ofNat 32 r.window.val, r.unequal.setWidth 32, (r.unequal >>> 32).setWidth 32, BitVec.ofNat 32 ctx])
    (s.ls.restarting = true → cmpFailure fail = none → exec (.comparatorInjectionTest fail) s = .next (settle s
      (State.bump { s with ls := { s.ls with restarting := false, single := false },
                           dw := { s.dw with fwEvent := s.dw.fwEvent ||| s.dw.fwDue, fwDue := 0 } } (lsReg 0x20)))) ∧
    (s.ls.restarting = true → cmpFailure fail ≠ none → bad 2) ∧
    (s.ls.restarting = false → s.ls.testing = true → s.pw.token.holder = some .comparator → s.host.busy = none →
      (cmpFailure fail = none → ∃ t, exec (.comparatorInjectionTest fail) s = .next t ∧ t.ls.testing = false ∧
        t.pw.token.holder = none ∧ t.c32 (lsReg 0x1C) = satInc (s.c32 (lsReg 0x1C)) ∧ t.mem = s.mem ∧ t.ls.single = s.ls.single) ∧
      (cmpFailure fail ≠ none → bad 3)) ∧
    (s.ls.restarting = false → s.ls.testing = false →
      (s.cmpReady = true → cmpFailure fail = none → ∃ t, exec (.comparatorInjectionTest fail) s = .next t ∧
        t.pw.token = { s.pw.token with lastCmp := some s.time.cycle } ∧ t.c32 (lsReg 0x1C) = satInc (s.c32 (lsReg 0x1C)) ∧ t.mem = s.mem) ∧
      (s.cmpReady = true → cmpFailure fail ≠ none → bad 3) ∧
      (s.cmpReady = false → exec (.comparatorInjectionTest fail) s = .next (settle s s))) ∧
    (cmpFailure fail = none ↔ ∀ r, fail = some r → r.badRail = 0 ∧ r.unequal = 1#64 <<< r.window.val))

/-- R348, R349, R355, R357 to R359: heartbeats decide the role of a starting or returning device; a secondary that hears nothing for 4 µs takes
over, a primary stays primary; roles are exchanged at a compare boundary. The body of the heartbeat sent stands as the model lays it
out (log entry 30), and whether the partner's time source permits an exchange is free (log entry 57). -/
def Obligations.PairRoles : Prop :=
  (∀ (s : State) (t0 : Nat), s.pair.sentAt = some t0 → s.time.cycle < t0 + 800 → exec .heartbeatSend s = .next (settle s s)) ∧
  (∀ s : State, s.paired = true → (∀ t0, s.pair.sentAt = some t0 → t0 + 800 ≤ s.time.cycle) →
    ∃ r, exec .heartbeatSend s = .next (settle s (State.sendRecord
        { s with pair := { s.pair with sentAt := some s.time.cycle } } r)) ∧ r.length = 44 ∧ byteAt r 0 = 1 ∧ byteAt r 1 = 0 ∧
      leNat (slice r 0 8) / 2 ^ 48 % 4096 = 32 ∧ byteAt r 8 = s.pair.role.toNat ∧ byteAt r 9 = s.param 0x0D02 % 256 ∧
      byteAt r 10 = (if s.pair.takeover then 1 else 0) ∧ leNat (slice r 16 8) = Config.uid.toNat ∧
      leNat (slice r 24 4) = s.param 0x0105 % 2 ^ 32 ∧ leNat (slice r 28 4) = s.pair.run.toNat ∧
      leNat (slice r 40 4) = crc32c (r.take 40)) ∧
  (∀ (s : State) (h : Heartbeat), s.paired = true →
    ∃ t, exec (.heartbeat h) s = .next t ∧ t.pair.partner = some h ∧ t.pair.present = true ∧ t.pair.silent = false ∧ t.pair.lock = true ∧
      t.pair.lastRx = s.time.cycle ∧ t.pair.readyAt = none ∧ t.pair.cfgDiff = decide (h.cfgGen.toNat ≠ s.param 0x0105) ∧
      t.c64 (mirReg 0x10) = s.c64 (mirReg 0x10) + 1 ∧ t.params = s.params ∧ t.pw = s.pw ∧
      (t.pair.role ≠ s.pair.role → if s.ls.restarting then t.dw.fwDue.getLsbD 1 = true else t.dw.fwEvent.getLsbD 1 = true) ∧
      (s.pair.role = 2 → SameMem s t ∧
        (h.role = 1 → t.pair.role = 2 ∧ ((∀ q, s.pair.partner = some q → q.run ≠ h.run) → ∀ k : Fin 5, (t.mirTable (k.val + 1)).needSync = true)) ∧
        (h.role = 2 → (t.pair.role = 1 ↔ s.pair.readyAt.isSome = true ∧ (
          (s.param 0x0D02 = 1 ∧ h.prefRole ≠ 1) ∨ ((s.param 0x0D02 = 1 ↔ h.prefRole = 1) ∧ Config.uid.toNat < h.uid.toNat))) ∧
          (t.pair.role = 1 ∨ t.pair.role = 2))) ∧
      (s.pair.role = 1 →
        (∀ q, s.pair.partner = some q → q.run ≠ h.run → t.pair.role = 1 ∧ t.pair.takeover = false ∧ t.pair.split = s.pair.split ∧ SameMem s t ∧
          ∀ k : Fin 5, (t.mirTable (k.val + 1)).needSync = true) ∧
        (∀ q, s.pair.partner = some q → q.run = h.run →
          let taken := h.role = 1 ∧ h.takeover = true ∧ ¬ (q.role = 1 ∧ q.takeover = true)
          (s.pair.silent = false → ¬ taken → t.pair.role = 1 ∧ t.pair.takeover = s.pair.takeover ∧ t.pair.split = s.pair.split ∧
            t.pair.tables = s.pair.tables ∧ SameMem s t) ∧
          ((s.pair.silent = true ∨ taken) → h.role = 1 → t.pair.split = true ∧ t.c32 (mirReg 0x2C) = satInc (s.c32 (mirReg 0x2C)) ∧
            (∀ k : Fin 5, (t.mirTable (k.val + 1)).needSync = true) ∧
            (s.pair.takeover = false → t.pair.role = 1 ∧ SameMem s t) ∧
            (s.pair.takeover = true → t.pair.role = 2 ∧ t.pair.takeover = false ∧ t.connUsed = 0 ∧
              (∀ a, t.rd8 a = if (0x04100000 ≤ a ∧ a < 0x04180000) ∨ (0x04C00000 ≤ a ∧ a < 0x05000000) then memReset a else s.rd8 a)))))) ∧
  (∀ (s : State) (t0 : Nat), s.pair.readyAt = some t0 → s.paired = true → s.pair.role = 2 →
    (t0 + 16000000 ≤ s.time.cycle → ∃ t, exec .pairRoleTimeout s = .next t ∧ t.pair.role = 1 ∧ t.pair.readyAt = none ∧
      (if s.ls.restarting then t.dw.fwDue.getLsbD 1 = true else t.dw.fwEvent.getLsbD 1 = true) ∧ t.mem = s.mem ∧
      t.pair.takeovers = s.pair.takeovers) ∧
    (s.time.cycle < t0 + 16000000 → exec .pairRoleTimeout s = .next (settle s s))) ∧
  (∀ (s : State) (q : Heartbeat), s.paired = true → s.pair.silent = false → s.pair.partner = some q → s.pair.lastRx + 3200 ≤ s.time.cycle →
    ∃ t, exec .partnerSilence s = .next t ∧ t.pair.silent = true ∧ t.pair.present = false ∧ t.params = s.params ∧
      (s.pair.role ≠ 2 → t.pair.role = s.pair.role ∧ t.pair.takeover = s.pair.takeover ∧ t.cnt32 = s.cnt32 ∧ t.mem = s.mem) ∧
      (s.pair.role = 2 → t.pair.role = 1 ∧ t.pair.takeover = true ∧ t.pair.takeovers = satInc s.pair.takeovers ∧ t.pair.tkTs = s.ts ∧
        (if s.ls.restarting then t.dw.fwDue.getLsbD 1 = true else t.dw.fwEvent.getLsbD 1 = true) ∧ t.c32 (mirReg 0x28) = satInc (s.c32 (mirReg 0x28)) ∧
        (∀ ch : CanCh, (s.can ch.val).mode = 1 → s.canIdle ch.val = false → (t.can ch.val).hold = true) ∧
        (∀ m : LinCh, s.linIdle m.val = false → s.param (0x0900 + m.val) = 1 → s.param (0x0960 + m.val) < 8 →
          t.lin m.val = { s.lin m.val with initDue := true }) ∧
        (∀ m : LinCh, s.linRole m.val = 1 → s.linIdle m.val = true → s.param (0x0960 + m.val) < 8 → s.linTableOk m.val (s.param (0x0960 + m.val)) = true →
          (t.lin m.val).running = true ∧ (t.lin m.val).table.val = s.param (0x0960 + m.val) ∧ (t.lin m.val).entry = 0) ∧
        (s.fw = true → s.nm.state = .awake → s.localNeed = true → t.nm.lastKaTx = some s.time.cycle))) ∧
  (∀ s : State, (s.paired = false ∨ s.pair.silent = true) → exec .partnerSilence s = .next (settle s s)) ∧
  (∀ (s : State) (at_ : RT), s.paired = true →
    exec (.roleChange at_) s = .next (settle s { s.mirReceived with pair := { s.mirReceived.pair with roleAt := some (RT.toLt at_) } })) ∧
  (∀ s : State, s.paired = true → s.time.incr ≤ s.time.ltime % s.cmpInterval → exec .mirrorCompare s = .next (settle s s)) ∧
  (∀ s : State, s.paired = true → s.time.ltime % s.cmpInterval < s.time.incr →
    ∃ t, exec .mirrorCompare s = .next t ∧ SameMem s t ∧ t.params = s.params ∧
      (s.pair.roleAt = none → t.pair.role = s.pair.role) ∧
      (∀ at_, s.pair.roleAt = some at_ → s.time.ltime < at_ → t.pair.role = s.pair.role ∧ t.pair.roleAt = some at_) ∧
      (∀ at_, s.pair.roleAt = some at_ → at_ ≤ s.time.ltime → t.pair.roleAt = none ∧ (s.pair.role = 1 → t.pair.role = 2) ∧
        (s.pair.role = 2 → t.pair.role = 1)) ∧
      (s.pair.present = true → s.pair.silent = false → s.pair.role = 2 → t.c64 (mirReg 0x08) = s.c64 (mirReg 0x08) + 5) ∧
      (s.pair.present = true → s.pair.silent = false → s.pair.role ≠ 0 → ∀ k : Fin 5, (s.mirTable (k.val + 1)).remote = none →
        (t.mirTable (k.val + 1)).local_ = some (s.mirDigest (k.val + 1))) ∧
      ((s.pair.present = false ∨ s.pair.silent = true) → t.pair.tables = s.pair.tables)) ∧
  (∀ (s : State) (mb : Mb) (r : Nat), Taken s mb 0x0D02 (natLe 4 r) → r < 2 ^ 32 →
    (r ≠ 1 → r ≠ 2 → exec (.pairRole mb) s = .next (settle s (s.complete mb.val .badField []))) ∧
    ((r = 1 ∨ r = 2) → s.pair.role = 0 → exec (.pairRole mb) s = .next (settle s (s.complete mb.val .state []))) ∧
    ((r = 1 ∨ r = 2) → s.pair.role.toNat = r → s.pair.silent = false → s.pair.present = true → s.pair.lastCmp = 0x1F →
      s.resyncing = false → (s.time.state = .free ∨ s.time.state = .locked) →
      exec (.pairRole mb) s = .next (settle s (State.complete s.draw.2 mb.val (if s.draw.1 % 2 = 1 then .state else .ok) []))) ∧
    ((r = 1 ∨ r = 2) →
      (s.pair.silent = true ∨ s.pair.present = false ∨ s.pair.lastCmp ≠ 0x1F ∨ s.resyncing = true ∨
        (s.time.state ≠ .free ∧ s.time.state ≠ .locked)) → exec (.pairRole mb) s = .next (settle s (s.complete mb.val .state []))) ∧
    ((r = 1 ∨ r = 2) → s.pair.role ≠ 0 → s.pair.role.toNat ≠ r → s.pair.silent = false → s.pair.present = true → s.pair.lastCmp = 0x1F →
      s.resyncing = false → (s.time.state = .free ∨ s.time.state = .locked) →
      (s.draw.1 % 2 = 1 → exec (.pairRole mb) s = .next (settle s (State.complete s.draw.2 mb.val .state []))) ∧
      (s.draw.1 % 2 = 0 → ∃ at_ rec_, exec (.pairRole mb) s = .next (settle s (State.complete
          (State.sendRecord { s.draw.2 with pair := { s.pair with roleAt := some at_ } } rec_) mb.val .ok [])) ∧
        at_ % s.cmpInterval = 0 ∧ s.time.ltime + 1000000 * nsUnit ≤ at_ ∧ at_ < s.time.ltime + 1000000 * nsUnit + s.cmpInterval))) ∧
  (∀ (s : State) (mb : Mb), Taken s mb 0x0D01 [] →
    exec (.pairStatus mb) s = .next (settle s (s.complete mb.val .ok s.pairBytes)) ∧ s.pairBytes.length = 24 ∧
      byteAt s.pairBytes 0 % 4 = s.pair.role.toNat ∧ bit (byteAt s.pairBytes 0) 4 = s.pair.present ∧
      bit (byteAt s.pairBytes 0) 5 = decide (s.pair.lastCmp = 0x1F) ∧ bit (byteAt s.pairBytes 0) 6 = s.resyncing ∧
      bit (byteAt s.pairBytes 0) 7 = s.pair.split ∧ bit (byteAt s.pairBytes 1) 0 = s.pair.cfgDiff ∧
      leNat (slice s.pairBytes 4 8) = (match s.pair.partner with | some h => h.uid.toNat | none => 0) ∧
      leNat (slice s.pairBytes 12 4) = s.pair.takeovers.toNat ∧ leNat (slice s.pairBytes 16 4) = s.pair.cmpFails.toNat ∧
      leNat (slice s.pairBytes 20 4) = s.pair.lastCmp.toNat)

/-- R348, R351 to R354, R19, R361: the secondary writes each update with the received version; a table whose digests differ at two successive
compares is unequal and waits for a resync; a resync holds the token, carries every valid entry, and clears at its end every entry that it
did not carry. A mailbox transaction writes or reads the words of MB6 and MB7. -/
def Obligations.MirroredState : Prop :=
  (∀ (s : State) (h : MirHeader) (body : List Byte), s.paired = true →
    (s.pair.role ≠ 2 → exec (.entryUpdate h body) s = .next (settle s s.mirReceived)) ∧
    (s.pair.role = 2 → ∃ t, exec (.entryUpdate h body) s = .next t ∧ t.c64 (mirReg 0x10) = s.c64 (mirReg 0x10) + 1 ∧
      t.pair.lastRx = s.time.cycle ∧ t.pair.role = 2 ∧ t.params = s.params ∧
      (h.table = 1 → h.index.toNat < 32768 → t.rdB (macAddr h.index.toNat) 16 = (if h.valid then fitBytes 16 body else List.replicate 16 0) ∧
        t.mirVersion 1 h.index.toNat = h.version ∧ SameMemBut s t (macAddr h.index.toNat) 16) ∧
      (h.table = 2 → SameMemBut s t (connAddr h.index.toNat) 64 ∧
        (h.valid = false → t.rdB (connAddr h.index.toNat) 64 = List.replicate 64 0) ∧
        (h.valid = true → t.rd (connAddr h.index.toNat + 8) 2 = h.version.toNat ∧
          ∀ i, i < 64 → i ≠ 8 → i ≠ 9 → t.rd8 (connAddr h.index.toNat + i) = body.getD i 0)) ∧
      (h.table = 3 → h.index = 0 → t.pair.mirNm = fitBytes 34 body ∧ t.mirVersion 3 0 = h.version ∧ SameMem s t ∧
        (byteAt body 0 % 4 = 1 → s.nm.state = .awake → t.nm.state = .ebb) ∧
        (byteAt body 0 % 4 = 0 → s.nm.state = .ebb → t.nm.state = .awake ∧ t.nm.aborts = satInc s.nm.aborts) ∧
        (byteAt body 0 % 4 = 2 → s.nm.state ≠ .commit → s.nm.latch = 0 → t.nm.state = .commit ∧ t.nm.commitAt = s.time.cycle)) ∧
      (h.table = 4 → h.index.toNat < 24 → SMap.get [] t.pair.mirSched h.index.toNat = (if h.valid then body else []) ∧
        t.mirVersion 4 h.index.toNat = h.version ∧ SameMem s t) ∧
      (h.table = 5 → h.index.toNat < 2048 → h.valid = true → t.rd (goAddr h.index.toNat + 16) 2 = h.version.toNat ∧
        t.rd (goAddr h.index.toNat) 4 = s.rd (goAddr h.index.toNat) 4) ∧
      (h.table = 5 → h.index.toNat < 2048 → h.valid = false → SameMemBut s t (goAddr h.index.toNat + 4) 92 ∧
        ∀ i, 4 ≤ i → i < 96 → t.rd8 (goAddr h.index.toNat + i) = 0) ∧
      (5 < h.table.toNat → SameMem s t ∧ t.pair.versions = s.pair.versions))) ∧
  (∀ (s : State) (k : Fin 5) (v : BitVec 64), s.paired = true →
    let m := s.mirTable (k.val + 1)
    ∃ t, exec (.digest k v) s = .next t ∧ t.c64 (mirReg 0x10) = s.c64 (mirReg 0x10) + 1 ∧ SameMem s t ∧
      (∀ j : Fin 5, j ≠ k → t.mirTable (j.val + 1) = s.mirTable (j.val + 1) ∧ t.pair.lastCmp.getLsbD j.val = s.pair.lastCmp.getLsbD j.val) ∧
      (m.local_ = none → t.mirTable (k.val + 1) = { m with remote := some v } ∧ t.pair.lastCmp = s.pair.lastCmp) ∧
      (m.local_ = some v → t.mirTable (k.val + 1) =
          { m with local_ := none, remote := none, suspect := false, unequal := false, equal := true } ∧
        t.pair.lastCmp.getLsbD k.val = true ∧ t.pair.cmpFails = s.pair.cmpFails) ∧
      (∀ a, m.local_ = some a → a ≠ v → t.pair.lastCmp.getLsbD k.val = false ∧ (t.mirTable (k.val + 1)).suspect = true ∧
        (m.suspect = false → t.pair.cmpFails = s.pair.cmpFails ∧ (t.mirTable (k.val + 1)).needSync = m.needSync) ∧
        (m.suspect = true → t.pair.cmpFails = satInc s.pair.cmpFails ∧ t.c32 (mirReg 0x20) = satInc (s.c32 (mirReg 0x20)) ∧
          (t.mirTable (k.val + 1)).unequal = true ∧ (t.mirTable (k.val + 1)).needSync = true))) ∧
  (∀ (s : State) (k : Fin 5), s.paired = true →
    (s.pair.role = 2 → exec (.resyncBegin k) s = .next (settle s (s.mirReceived.setMirTable (k.val + 1)
      { s.mirTable (k.val + 1) with recv := some [] }))) ∧
    (s.pair.role ≠ 2 → exec (.resyncBegin k) s = .next (settle s s.mirReceived) ∧
      exec (.resyncEnd k) s = .next (settle s s.mirReceived))) ∧
  (∀ (s : State) (k : Fin 5) (l : List Nat), s.paired = true → s.pair.role = 2 → (s.mirTable (k.val + 1)).recv = some l →
    ∃ t, exec (.resyncEnd k) s = .next t ∧
      t.mirTable (k.val + 1) = { s.mirTable (k.val + 1) with recv := none, needSync := false, suspect := false, unequal := false } ∧
      (k = 0 → (∀ i, i < 32768 → i ∈ l → t.rdB (macAddr i) 16 = s.rdB (macAddr i) 16) ∧
        (∀ i, i < 32768 → i ∉ l → bit (t.rd (macAddr i) 16) 88 = false) ∧
        (∀ a, (a < 0x04100000 ∨ 0x04180000 ≤ a) → t.rd8 a = s.rd8 a)) ∧
      (k = 1 → (∀ i, i < 65536 → i ∈ l → t.rdB (connAddr i) 64 = s.rdB (connAddr i) 64) ∧
        (∀ i, i < 65536 → i ∉ l → bit (t.rd (connAddr i) 1) 0 = false) ∧
        (∀ a, (a < 0x04C00000 ∨ 0x05000000 ≤ a) → t.rd8 a = s.rd8 a)) ∧
      ((∀ j : Fin 5, j ≠ k → (s.mirTable (j.val + 1)).needSync = false) → t.pair.split = false)) ∧
  (∀ (s : State) (k : Fin 5),
    (s.maySync (k.val + 1) = false → exec (.resync k) s = .next (settle s s)) ∧
    (s.maySync (k.val + 1) = true → s.tokenOf = none → Activity.resync ∉ s.pw.token.queue → s.heldBack .resync = false →
      s.nm.state ≠ .commit →
      ∃ t, exec (.resync k) s = .next t ∧ t.pair.resync = some k ∧ (t.mirTable (k.val + 1)).needSync = false ∧ t.pw.token.holder = some .resync ∧ SameMem s t ∧
        t.c64 (mirReg 0x08) = s.c64 (mirReg 0x08) + BitVec.ofNat 64 (1 + (s.mirValid (k.val + 1)).length)) ∧
    (s.maySync (k.val + 1) = true → (∃ a, s.pw.token.holder = some a ∧ a ≠ .resync) → Activity.resync ∉ s.pw.token.queue →
      exec (.resync k) s = .next (settle s
        { s with pw := { s.pw with token := { s.pw.token with queue := s.pw.token.queue ++ [.resync] } } })) ∧
    (s.fw = true → s.pair.resync = some k → s.pw.token.holder = some .resync →
      ∃ t, exec (.resyncCompleted k) s = .next t ∧ t.pair.resync = none ∧ t.pair.queue = [] ∧ t.pw.token.holder = none ∧
        t.c32 (mirReg 0x24) = satInc (s.c32 (mirReg 0x24)) ∧ SameMem s t ∧
        t.c64 (mirReg 0x08) = s.c64 (mirReg 0x08) + BitVec.ofNat 64 (1 + s.pair.queue.length) ∧
        t.mirTable (k.val + 1) = { s.mirTable (k.val + 1) with suspect := false, unequal := false }) ∧
    (s.pair.resync ≠ some k → exec (.resyncCompleted k) s = .next (settle s s))) ∧
  (∀ s : State, s.paired = true →
    exec (.badRecord true) s = .next (settle s (s.bump (mirReg 0x18))) ∧ exec (.badRecord false) s = .next (settle s s.mirReceived) ∧
    (s.pair.role = 2 → exec .wakeRequest s = .next (settle s s.mirReceived)) ∧
    (s.pair.role ≠ 2 → s.nm.state = .awake → exec .wakeRequest s = .next (settle s s.mirReceived)) ∧
    (s.pair.role ≠ 2 → s.fw = true → s.nm.state = .ebb → ∃ t, exec .wakeRequest s = .next t ∧ t.nm.state = .awake ∧
      t.nm.aborts = satInc s.nm.aborts)) ∧
  (∀ (s : State) (addr : Word) (v : Word), s.paired = true →
    let a := addr.toNat / 4 * 4
    let x := if a < 0x03010000 then v else v &&& 0xC0
    (mirAddr a = true → s.isAnswer a = false → setsReserved a x.toNat 0xF = false →
      exec (.mailboxTransaction addr (some v)) s = .next (settle s (s.mirReceived.writeWord a x.toNat 0xF))) ∧
    (mirAddr a = true → s.isAnswer a = false → setsReserved a x.toNat 0xF = true →
      exec (.mailboxTransaction addr (some v)) s = .fault .reservedOne) ∧
    (mirAddr a = true → exec (.mailboxTransaction addr none) s = .next (settle s
      ((s.mirReceived.readWord a false).2.sendRecord (mirRecord 7 0 0 0 false
        (natLe 4 a ++ natLe 4 (s.mirReceived.readWord a false).1.toNat))))) ∧
    (mirAddr a = false → exec (.mailboxTransaction addr none) s = .next (settle s s.mirReceived)))

/-- R363, R365 to R368, R370, R372, R377, R379 to R383, R389: KEY_LOAD and KEY_DERIVE write a working key after every check has passed, and
install its SA where the command binds one; KEY_CLEAR clears keys and uninstalls their SAs; OTP_PROGRAM programs a blank slot and
COMMIT last; SIG_VERIFY answers by the signature. Every completion sets DW_FW_EVENT bit 3. A blank slot that a command names is
answered with STATE (DEDUCED, log entry 34). -/
def Obligations.KeysAndSignatures : Prop :=
  (∀ (s : State) (mb : Mb), (s.mb mb.val).state = .pending →
    let ans (c : Instr) (u : State) (st : Status) : Prop := exec c s = .next (settle s ((State.complete u mb.val st []).fwEvent 3))
    (∀ (wk : Nat) (key : List Byte), wk < 32 → key.length ∈ [16, 32] →
      Taken s mb 0x0E01 (natLe 4 (wk + 0x200) ++ natLe 4 key.length ++ key) →
      (s.sec.locked = true → ans (.keyLoad mb) s .vaultLocked) ∧
      (s.sec.locked = false → s.wkBound wk = true → ans (.keyLoad mb) s .state) ∧
      (s.sec.locked = false → s.wkBound wk = false → ans (.keyLoad mb)
        (s.setWk wk { valid := true, engine := 5, klen := BitVec.ofNat 8 key.length, keyId := 0, key := key }) .ok)) ∧
    (∀ (wk ks : Nat) (blob : List Byte), wk < 32 → ks < 64 → blob.length ∈ [32, 48, 64, 112] → s.sec.locked = false →
      Taken s mb 0x0E01 (natLe 4 (wk + ks * 65536) ++ natLe 4 blob.length ++ blob) →
      ((s.slot ks).state = .spoiled ∨ (s.slot ks).state = .interrupted → ans (.keyLoad mb) s .slotSpoiled) ∧
      ((s.slot ks).state = .blank → ans (.keyLoad mb) s .state) ∧
      ((s.slot ks).state = .committed → (s.slot ks).use ≠ 0 → ans (.keyLoad mb) s .keyAttribute) ∧
      ((s.slot ks).state = .committed → (s.slot ks).use = 0 →
        (keyUnwrap (s.slot ks).bytes blob = none → ans (.keyLoad mb) (s.bump (secReg 4)) .unwrapFailed) ∧
        (∀ pt, keyUnwrap (s.slot ks).bytes blob = some pt → innerKey pt = none → ans (.keyLoad mb) s .badField) ∧
        (∀ pt k, keyUnwrap (s.slot ks).bytes blob = some pt → innerKey pt = some k → s.wkBound wk = false →
          ans (.keyLoad mb) (s.setWk wk k) .ok))) ∧
    (∀ (wk ks b : Nat) (blob : List Byte), wk < 32 → ks < 64 → blob.length ∈ [32, 48, 64, 112] → b < 2 ^ 256 →
      Taken s mb 0x0E01 (natLe 4 (wk + 0x1000 + ks * 65536) ++ natLe 4 blob.length ++ blob ++ natLe 32 b) →
      (s.bindBad b = true → ans (.keyLoad mb) s .badField) ∧
      (∀ pt k, s.bindBad b = false → s.sec.locked = false → (s.slot ks).state = .committed → (s.slot ks).use = 0 →
        keyUnwrap (s.slot ks).bytes blob = some pt → innerKey pt = some k →
        (k.engine ≠ 1 → ans (.keyLoad mb) (s.bump (secReg 8)) .keyAttribute) ∧
        (k.engine = 1 → s.wkBound wk = false → ∃ u : State, ans (.keyLoad mb) u .ok ∧ u.wk wk = k ∧
          (∀ v, v ≠ wk → u.wk v = s.wk v) ∧ u.mem = s.mem ∧ u.cnt32 = s.cnt32 ∧
          ∃ e ∈ u.sec.sas, e.1 = saKey (bits b 3 0) (if bit b 4 then 1 else 0) (bits b 8 7) (bits b 6 5) ∧ e.2.wk.val = wk ∧
            e.2.conf = bit b 9 ∧ e.2.active = (bit b 4 && bit b 10) ∧ e.2.replay = bit b 11 ∧ e.2.window.toNat = bits b 63 32 ∧
            e.2.sci.toNat = bits b 127 64 ∧ e.2.salt.toNat = bits b 223 128 ∧ e.2.ssci.toNat = bits b 255 224))) ∧
    (∀ m : Nat, m < 2 ^ 32 → Taken s mb 0x0E02 (natLe 4 m) →
      ∃ u : State, ans (.keyClear mb) u .ok ∧ (∀ w, w < 32 → u.wk w = if bit m w then WorkKey.reset else s.wk w) ∧
        (∀ e, e ∈ u.sec.sas ↔ e ∈ s.sec.sas ∧ bit m e.2.wk.val = false) ∧ u.mem = s.mem ∧ u.cnt32 = s.cnt32 ∧ u.sw = s.sw) ∧
    (∀ (wk ks engine klen : Nat) (label ctx : List Byte), wk < 32 → ks < 64 → engine ∈ [1, 2, 5] → klen ∈ engineLens engine →
      label.length ≤ 64 → ctx.length ≤ 64 →
      Taken s mb 0x0E03 (natLe 4 (wk + engine * 256 + klen * 65536 + ks * 2 ^ 24) ++ natLe 4 (label.length + ctx.length * 65536) ++ label ++ ctx) →
      (s.sec.locked = true → ans (.keyDerive mb) s .vaultLocked) ∧
      (s.sec.locked = false → (s.slot ks).state = .committed → (s.slot ks).use ≠ 1 → ans (.keyDerive mb) s .keyAttribute) ∧
      (s.sec.locked = false → (s.slot ks).state = .committed → (s.slot ks).use = 1 → s.wkBound wk = false →
        ans (.keyDerive mb) (s.setWk wk
          ⟨true, BitVec.ofNat 3 engine, BitVec.ofNat 8 klen, 0, kdf (s.slot ks).bytes label ctx engine klen⟩) .ok)) ∧
    (∀ (ks use : Nat) (data : List Byte), ks < 64 → data.length = 32 →
      Taken s mb 0x0E04 (natLe 4 ks ++ natLe 4 use ++ data) → use < 2 ^ 32 →
      ((leNat data = 0 ∨ 2 < use) → ans (.otpProgram mb) s .badField) ∧
      (leNat data ≠ 0 → use ≤ 2 →
        (s.sec.locked = true → ans (.otpProgram mb) s .vaultLocked) ∧
        (s.sec.locked = false → (s.slot ks).state = .committed → ans (.otpProgram mb) s .slotWritten) ∧
        (s.sec.locked = false → ((s.slot ks).state = .spoiled ∨ (s.slot ks).state = .interrupted) → ans (.otpProgram mb) s .slotSpoiled) ∧
        (s.sec.locked = false → (s.slot ks).state = .blank →
          (s.pw.storeOk = false → ans (.otpProgram mb) s .refusedSupply) ∧
          (s.pw.storeOk = true → s.tokenAnswer .otp = .busy → ans (.otpProgram mb) s .busy) ∧
          (s.pw.storeOk = true → s.tokenAnswer .otp ≠ .busy → ∃ t o, exec (.otpProgram mb) s = .next t ∧ t.sec.otp = some o ∧ o.slot.val = ks ∧
            o.data.toNat = leNat data ∧ o.desc.toNat = use ∧ t.host.busy = some (mb, .otp) ∧ (t.mb mb.val).state = .busy ∧
            (t.pw.token.holder = some .otp ↔ s.tokenAnswer .otp = .granted ∨ s.pw.token.holder = some .otp) ∧ t.sec.slots = s.sec.slots ∧ t.mem = s.mem)))) ∧
    (∀ (wk : Nat) (digest sig : List Byte), wk < 32 → digest.length = 48 → sig.length = 96 →
      Taken s mb 0x0E05 (natLe 4 (wk * 256) ++ digest ++ sig) →
      (∀ st, s.keyRefused wk 3 = some st → ans (.sigVerify mb) (s.bump (secReg 8)) st) ∧
      (s.keyRefused wk 3 = none → ecdsaVerify (s.wk wk).key digest sig = true → ans (.sigVerify mb) s .ok) ∧
      (s.keyRefused wk 3 = none → ecdsaVerify (s.wk wk).key digest sig = false →
        ans (.sigVerify mb) (s.bump (secReg 0xC)) .signatureFailed)) ∧
    (∀ (ks addr len : Nat) (pub sig : List Byte), ks < 64 → addr < 2 ^ 32 → len < 2 ^ 32 → pub.length = 96 → sig.length = 96 →
      Taken s mb 0x0E05 (natLe 4 (3 + ks * 65536) ++ pub ++ natLe 4 addr ++ natLe 4 len ++ sig) →
      let d := sha384 ((List.range len).map (fun i => s.storeByte (addr + i)))
      (inStore addr len = false → ans (.sigVerify mb) s .badField) ∧
      (inStore addr len = true → (s.slot ks).state = .committed → (s.slot ks).use = 2 → (sha384 pub).take 32 = (s.slot ks).bytes →
        (ecdsaVerify pub d sig = true → ans (.sigVerify mb) s .ok) ∧
        (ecdsaVerify pub d sig = false → ans (.sigVerify mb) (s.bump (secReg 0xC)) .signatureFailed)))) ∧
  (∀ (s : State) (o : OtpOp), s.sec.otp = some o → s.live = true → s.pw.token.holder = some .otp →
    ∃ t, exec .otpProgrammingComplete s = .next t ∧ t.sec.otp = none ∧ t.pw.token.holder = none ∧
      (∀ n, n ≠ o.slot.val → t.slot n = s.slot n) ∧
      (o.refused = true → t.sec.slots = s.sec.slots) ∧
      (o.refused = false → (t.slot o.slot.val).state = .committed ∧ (t.slot o.slot.val).data = o.data ∧ (t.slot o.slot.val).desc = o.desc) ∧
      (∀ mb, s.host.busy = some (mb, .otp) → (t.mb mb.val).state = .done ∧ t.host.busy = none ∧
        (if s.ls.restarting then t.dw.fwDue.getLsbD 3 = true else t.dw.fwEvent.getLsbD 3 = true) ∧
        t.rd (respAddr mb.val + 6) 2 = (if o.refused then 0x33 else 0))) ∧
  (∀ s : State, (s.sec.otp = none ∨ s.pw.token.holder ≠ some .otp) → exec .otpProgrammingComplete s = .next (settle s s))

/-- R366, R368, R369, R376, R384, R386 to R390: HOST_CRYPTO answers each operation with a key of ENGINE 5; the authenticator gives the AES-CMAC
of the bytes fed; WK_MAT writes host keys only; a tamper event of an enabled source locks the vault, clears every key and SA and
stops a programming, and in Slack only latches. -/
def Obligations.CryptoAndTamper : Prop :=
  (∀ (s : State) (mb : Mb), (s.mb mb.val).state = .pending →
    let ans (c : Instr) (u : State) (st : Status) (out : List Byte) : Prop :=
      exec c s = .next (settle s ((State.complete u mb.val st out).fwEvent 3))
    let head (op wk al dl : Nat) : List Byte := natLe 4 (op + wk * 256) ++ natLe 4 (al + dl * 65536)
    (∀ (wk : Nat) (iv aad data tag : List Byte), wk < 32 → iv.length = 12 → tag.length = 16 →
      (Taken s mb 0x0E06 (head 1 wk aad.length data.length ++ iv ++ aad ++ data) →
        (s.param 0x0E02 = 0 → ans (.aesGcmEncrypt mb) s .state []) ∧
        (∀ st, s.param 0x0E02 ≠ 0 → s.keyRefused wk 5 = some st → ans (.aesGcmEncrypt mb) (s.bump (secReg 8)) st []) ∧
        (s.param 0x0E02 ≠ 0 → s.keyRefused wk 5 = none → ans (.aesGcmEncrypt mb) s .ok
          ((gcmEnc (s.wk wk).key iv aad data).1 ++ (gcmEnc (s.wk wk).key iv aad data).2))) ∧
      (Taken s mb 0x0E06 (head 2 wk aad.length data.length ++ iv ++ aad ++ data ++ tag) → s.param 0x0E02 ≠ 0 → s.keyRefused wk 5 = none →
        (∀ pt, gcmDec (s.wk wk).key iv aad data tag = some pt → ans (.aesGcmDecrypt mb) s .ok pt) ∧
        (gcmDec (s.wk wk).key iv aad data tag = none → ans (.aesGcmDecrypt mb) s .signatureFailed [])) ∧
      (Taken s mb 0x0E06 (head 3 wk 0 data.length ++ data) → s.param 0x0E02 ≠ 0 → s.keyRefused wk 5 = none →
        ans (.aesCmacGenerate mb) s .ok (cmac (s.wk wk).key data)) ∧
      (Taken s mb 0x0E06 (head 4 wk 0 data.length ++ data ++ tag) → s.param 0x0E02 ≠ 0 → s.keyRefused wk 5 = none →
        ans (.aesCmacVerify mb) s (if cmac (s.wk wk).key data = tag then .ok else .signatureFailed) []) ∧
      (Taken s mb 0x0E06 (head 5 wk 0 data.length ++ data) → s.param 0x0E02 ≠ 0 → ans (.sha384 mb) s .ok (sha384 data)))) ∧
  (∀ (s : State) (a : Fin 4) (v : Byte) (w : Word), s.live = true →
    let x := s.auth a.val
    let k := s.wk x.keyIdx.val
    (k.valid = true → k.engine = 2 → exec (.authStart a) s = .next (settle s
      (s.setAuth a.val { x with busy := true, done := false, err := false, key := k.key, msg := [] }))) ∧
    ((k.valid = false ∨ k.engine ≠ 2) → exec (.authStart a) s = .next (settle s
      ((s.setAuth a.val { x with busy := false, err := true, key := [], msg := [] }).bump (secReg 8)))) ∧
    (x.busy = true → exec (.authFeed8 a v) s = .next (settle s (s.setAuth a.val { x with msg := x.msg ++ [v] })) ∧
      exec (.authFeed32 a w) s = .next (settle s (s.setAuth a.val { x with msg := x.msg ++ natLe 4 w.toNat })) ∧
      exec (.authFinish a) s = .next (settle s (s.setAuth a.val
        { x with busy := false, done := true, tag := cmac x.key x.msg, key := [], msg := [] }))) ∧
    (x.busy = false → exec (.authFeed8 a v) s = .next (settle s s) ∧ exec (.authFeed32 a w) s = .next (settle s s) ∧
      exec (.authFinish a) s = .next (settle s s))) ∧
  (∀ (s : State) (m : Master) (wk : Fin 32) (i : Fin 24) (v : Word), s.live = true →
    let k := s.wk wk.val
    ((s.sec.locked = true ∨ k.valid = false ∨ k.engine ≠ 5) → exec (.wkMat m wk i v) s = .next (settle s (s.bump (secReg 0x10)))) ∧
    (s.sec.locked = false → k.valid = true → k.engine = 5 → k.key.length = k.klen.toNat → k.klen.toNat ≤ 96 →
      ∃ t, exec (.wkMat m wk i v) s = .next t ∧ (t.wk wk.val).valid = true ∧ (t.wk wk.val).engine = 5 ∧ (t.wk wk.val).klen = k.klen ∧
        (∀ j, j < k.klen.toNat → (t.wk wk.val).key.getD j 0 =
          if i.val * 4 ≤ j ∧ j < i.val * 4 + 4 then (natLe 4 v.toNat).getD (j - i.val * 4) 0 else k.key.getD j 0) ∧
        (∀ n, n ≠ wk.val → t.wk n = s.wk n) ∧ t.cnt32 = s.cnt32 ∧ t.mem = s.mem)) ∧
  (∀ (s : State) (src : BitVec 4), s.pw.vaon = true →
    let on := src &&& BitVec.ofNat 4 (s.param 0x0E01)
    (on = 0 → exec (.tamperEvent src) s = .next (settle s s)) ∧
    (s.pw.mode = .slack → on &&& 1 = 0 → exec (.tamperEvent src) s = .next (settle s s)) ∧
    (s.pw.mode = .slack → on &&& 1 = 1 → exec (.tamperEvent src) s = .next (settle s
      { s with sec := { s.sec with tamper := s.sec.tamper ||| 1, phase := if s.sec.tamper = 0 then 2 else s.sec.phase,
                                   tamperN := satInc s.sec.tamperN, locked := true } })) ∧
    (s.pw.mode = .operating → on ≠ 0 →
      ∃ t, exec (.tamperEvent src) s = .next t ∧ t.sec.tamper = s.sec.tamper ||| on ∧ t.sec.tamperN = satInc s.sec.tamperN ∧
        t.sec.phase = (if s.sec.tamper = 0 then 1 else s.sec.phase) ∧ t.sec.locked = true ∧ t.sec.wks = [] ∧ t.sec.sas = [] ∧ t.sec.going = [] ∧ t.sec.otp = none ∧
        t.dw.irqW1c.getLsbD 12 = true ∧ t.pw.mode = .operating ∧ t.sw.link = s.sw.link ∧ t.params = s.params ∧ t.nm = s.nm ∧
        (∀ a : Fin 4, (s.auth a.val).busy = true → (t.auth a.val).err = true ∧ (t.auth a.val).busy = false) ∧
        (s.sec.otp = none → t.sec.slots = s.sec.slots) ∧
        (s.sec.otp = none → (∀ mb, s.host.busy ≠ some (mb, .taken)) → t.mem = s.mem ∧ t.host.busy = s.host.busy) ∧
        (∀ mb, s.sec.otp = none → s.host.busy = some (mb, .taken) → s.replay mb.val = none →
          s.reqCmd mb.val ∈ [0x0E01, 0x0E03, 0x0E04, 0x0E05, 0x0E06] → (t.mb mb.val).state = .done ∧ t.host.busy = none ∧
          t.rd (respAddr mb.val + 4) 4 = 0x00380000 ∧ (if s.ls.restarting then t.dw.fwDue.getLsbD 3 = true else t.dw.fwEvent.getLsbD 3 = true)) ∧
        (∀ mb o, s.sec.otp = some o → s.host.busy = some (mb, .otp) → (t.mb mb.val).state = .done ∧
          t.rd (respAddr mb.val + 6) 2 = 0x38 ∧ (if s.ls.restarting then t.dw.fwDue.getLsbD 3 = true else t.dw.fwEvent.getLsbD 3 = true) ∧
          ∀ n, n ≠ o.slot.val → t.slot n = s.slot n)))

/-- R394 to R397, R399 to R401, R403, R405: over a mailbox or SVC alike, a HEADER that passes every check opens a session on the target area; blocks
arrive in order within themselves, a wrong check value asks for the block again, and each block is stored under the token; FINISH
judges the digest, the manifest and the records; CANCEL ends the session. A refused message changes nothing but the counters. A record write stores
into the record copies alone, and none begins in an area whose wear count has reached its limit. How FINISH answers where the partner's RELEASE,
NOT_BEFORE or DEADLINE may differ is free (log entry 18). -/
def Obligations.UpdateSessions : Prop :=
  (∀ (s : State) (src : UpdSrc) (h : List Byte), h.length = 512 →
    let p := natLe 4 1 ++ natLe 4 0 ++ h
    let slot := s.slot (hdrBits h 325 320)
    UpdTaken s src p → (s.sec.otp = none ∨ s.pw.token.holder ≠ none) →
    (∀ st, s.updRefused = some st → UpdAnswered s (.header src) src p s st (some s.nextBlock)) ∧
    (s.updRefused = none → s.staged ≠ none → s.stagedArea.header = h →
      UpdAnswered s (.header src) src p { s with upd := { s.upd with owner := some src, parts := [] } } .ok (some s.nextBlock)) ∧
    (∀ o, s.updRefused = none → s.staged ≠ none → s.stagedArea.header ≠ h → s.upd.owner = some o → o ≠ src →
      UpdAnswered s (.header src) src p s .state (some s.nextBlock)) ∧
    (s.updRefused = none → s.staged ≠ none → s.stagedArea.header ≠ h → s.stagedArea.state ≠ .receiving →
      UpdAnswered s (.header src) src p s .state (some s.nextBlock)) ∧
    (s.staged = none →
      (s.moving = true → UpdAnswered s (.header src) src p s .refusedMoving (some s.nextBlock)) ∧
      (s.moving = false → s.battLow = true → UpdAnswered s (.header src) src p s .refusedBattery (some s.nextBlock)) ∧
      (s.moving = false → s.battLow = false → s.upd.ownerLock = true →
        UpdAnswered s (.header src) src p s .refusedLocked (some s.nextBlock)) ∧
      (s.moving = false → s.battLow = false → s.upd.ownerLock = false →
        (hdrBits h 31 0 ≠ 0x4C584192 ∨ hdrBits h 47 32 ≠ 1 ∨ hdrBits h 63 48 ≠ 0x4192 ∨ imgLen h = 0 ∨ 2093056 < imgLen h ∨
            hdrBits h 287 256 = 0 ∨ 604800 < hdrBits h 287 256) →
          UpdAnswered s (.header src) src p s .imageRefused (some s.nextBlock)) ∧
      (s.moving = false → s.battLow = false → s.upd.ownerLock = false →
        hdrBits h 31 0 = 0x4C584192 → hdrBits h 47 32 = 1 → hdrBits h 63 48 = 0x4192 → rtReserved (hdrBits h 255 128) = false →
        hdrBits h 319 289 = 0 → hdrBits h 383 326 = 0 → hdrBits h 3327 1600 = 0 → imgLen h ≠ 0 → imgLen h ≤ 2093056 →
        hdrBits h 287 256 ≠ 0 → hdrBits h 287 256 ≤ 604800 →
        (999999999 < (rtOf (hdrBits h 255 128)).ns.toNat → UpdAnswered s (.header src) src p s .rtInvalid (some s.nextBlock)) ∧
        ((rtOf (hdrBits h 255 128)).ns.toNat ≤ 999999999 → (imgPair h = true → s.param 0x0D01 ≠ 0) →
          (∀ x, s.upd.active = some x → imgVersion x ≤ imgVersion h) →
          (ecdsaVerify (slice h 96 96) (sha384 (h.take 416)) (slice h 416 96) = false →
            UpdAnswered s (.header src) src p s .signatureFailed (some s.nextBlock)) ∧
          (slot.state = .committed → slot.use = 2 → (sha384 (slice h 96 96)).take 32 = slot.bytes →
            ecdsaVerify (slice h 96 96) (sha384 (h.take 416)) (slice h 416 96) = true →
            (99000000 ≤ (s.stage s.targetArea).wear → UpdAnswered s (.header src) src p s .state (some s.nextBlock)) ∧
            ((s.stage s.targetArea).wear < 99000000 → s.pw.storeOk = false → UpdAnswered s (.header src) src p s .refusedSupply (some s.nextBlock)) ∧
            ((s.stage s.targetArea).wear < 99000000 → s.pw.storeOk = true → s.pw.token.holder ≠ none →
              UpdAnswered s (.header src) src p s .busy (some s.nextBlock)) ∧
            ((s.stage s.targetArea).wear < 99000000 → s.pw.storeOk = true → s.pw.token.holder = none →
              ∃ u : State, UpdAnswered s (.header src) src p u .ok (some 0) ∧ (u.stage s.targetArea).state = .receiving ∧
                (u.stage s.targetArea).header = h ∧ (u.stage s.targetArea).map = [] ∧ u.upd.owner = some src ∧
                u.stage (!s.targetArea) = s.stage (!s.targetArea) ∧
                (u.stage s.targetArea).seq = (s.stage s.targetArea).seq + 1 ∧
                (∀ a, inRecord a = false → u.rd8 a = s.rd8 a) ∧ u.params = s.params)))))) ∧
  (∀ (s : State) (src : UpdSrc) (index off : Nat) (last : Bool) (crc : Word) (d : List Byte),
    index < 65536 → off % 4 = 0 → off < 4096 → d.length % 4 = 0 → 4 ≤ d.length → d.length ≤ 4096 →
    let p := natLe 4 (2 + index * 65536) ++ natLe 4 (off + (if last then 65536 else 0)) ++ natLe 4 crc.toNat ++ d
    let got := match s.upd.parts.find? (fun x => x.index = index) with | some x => x.data | none => []
    let x : Partial := { index := index, data := got ++ d, crc := crc }
    let u := { s with upd := { s.upd with parts := s.upd.parts.filter (fun x => x.index ≠ index) } }
    UpdTaken s src p →
    (s.owns src = false → UpdAnswered s (.block src) src p s .state (some s.nextBlock)) ∧
    (s.owns src = true → s.stagedArea.state = .receiving →
      ((off ≠ got.length ∨ 4096 < off + d.length ∨ (last = true ∧ off + d.length ≠ 4096)) →
        UpdAnswered s (.block src) src p u .badField (some s.nextBlock)) ∧
      (off = got.length → off + d.length ≤ 4096 → last = false →
        UpdAnswered s (.block src) src p { s with upd := { s.upd with parts := u.upd.parts ++ [{ x with crc := 0 }] } } .ok none) ∧
      (off = got.length → off + d.length = 4096 → last = true →
        (imgBlocks s.stagedArea.header ≤ index → UpdAnswered s (.block src) src p u .badField (some s.nextBlock)) ∧
        (index < imgBlocks s.stagedArea.header → crc32c x.data ≠ crc.toNat →
          UpdAnswered s (.block src) src p { u with upd := { u.upd with badCrc := satInc s.upd.badCrc } } .ok (some index)) ∧
        (index < imgBlocks s.stagedArea.header → crc32c x.data = crc.toNat → index ∈ s.stagedArea.map →
          UpdAnswered s (.block src) src p u .ok (some s.nextBlock)) ∧
        (index < imgBlocks s.stagedArea.header → crc32c x.data = crc.toNat → index ∉ s.stagedArea.map →
          (∀ st, s.updRefused = some st → UpdAnswered s (.block src) src p u st (some s.nextBlock)) ∧
          (s.updRefused = none → s.pw.storeOk = false → UpdAnswered s (.block src) src p u .refusedSupply (some s.nextBlock)) ∧
          (s.updRefused = none → s.pw.storeOk = true →
            ∃ t, exec (.block src) s = .next t ∧ t.upd.ready = some (x, src) ∧ t.upd.areaA = s.upd.areaA ∧ t.upd.areaB = s.upd.areaB ∧
              t.mem = s.mem ∧ (s.tokenOf = none → Activity.staging ∉ s.pw.token.queue → s.heldBack .staging = false →
                s.nm.state ≠ .commit → t.pw.token.holder = some .staging) ∧
              (∀ mb, src = .mailbox mb → t.host.busy = some (mb, .blockStore) ∧ (t.mb mb.val).state = .busy) ∧
              (src = .svc → t.host.busy = some (8, .blockStore) ∧ (t.mb 8).state = .busy)))))) ∧
  (∀ (s : State) (b : Bool) (x : Partial) (src : UpdSrc), s.upd.ready = some (x, src) → s.staged = some b → s.live = true →
    x.data.length = 4096 → x.index < 511 →
    (s.pw.token.holder ≠ some .staging → exec .blockStore s = .next (settle s s)) ∧
    (s.pw.token.holder = some .staging →
      ∃ t, exec .blockStore s = .next t ∧ t.upd.ready = none ∧ t.pw.token.holder = none ∧
        (s.updRefused = none → s.pw.storeOk = true → s.worn b = false → t.rdB (stageBase b + x.index * 4096) 4096 = x.data ∧ (t.stage b).map = (s.stage b).map ++ [x.index] ∧
          (t.stage b).state = (s.stage b).state ∧
          (∀ a, 0x02200000 ≤ a → a < 0x02600000 → inRecord a = false →
            (a < stageBase b + x.index * 4096 ∨ stageBase b + x.index * 4096 + 4096 ≤ a) → t.rd8 a = s.rd8 a)) ∧
        ((s.updRefused ≠ none ∨ s.pw.storeOk = false ∨ s.worn b = true) → (t.stage b).map = (s.stage b).map ∧ (∀ a, 0x02200000 ≤ a → a < 0x02600000 → t.rd8 a = s.rd8 a) ∧
          t.upd.refusals = satInc s.upd.refusals) ∧
        (∀ mb, src = .mailbox mb → s.host.busy = some (mb, .blockStore) → (t.mb mb.val).state = .done ∧ t.host.busy = none ∧
          t.rd (respAddr mb.val + 6) 2 =
            (match s.updRefused with | some st => st.code | none => if s.pw.storeOk then (if s.worn b then 0xB else 0) else 0x33)) ∧
        (src = .svc → t.upd.svcMsg = none ∧ t.upd.posted = false ∧
          (s.upd.posted = true → s.host.busy = some (8, .blockStore) → (t.mb 8).state = .idle ∧ t.host.busy = none)))) ∧
  (∀ (s : State) (src : UpdSrc), UpdTaken s src (natLe 4 3) → s.sec.otp = none →
    (s.staged = none → UpdAnswered s (.finish src) src (natLe 4 3) s .state (some s.nextBlock)) ∧
    (∀ b, s.staged = some b →
      ((s.owns src = false ∨ (s.stage b).state ≠ .receiving ∨ s.nextBlock ≠ 0xFFFF ∨ s.worn b = true) →
        UpdAnswered s (.finish src) src (natLe 4 3) s .state (some s.nextBlock)) ∧
      (s.owns src = true → (s.stage b).state = .receiving → s.nextBlock = 0xFFFF → s.worn b = false →
        let verified : Prop := sha384 (s.stagePayload b) = slice (s.stage b).header 48 48 ∧
          ∀ n, checkPayload (s.stage b).header (s.stagePayload b) n = none
        let partner : Prop := imgPair (s.stage b).header = true ∧ s.pair.role = 2 ∧ src = .mailbox 6
        (sha384 (s.stagePayload b) ≠ slice (s.stage b).header 48 48 →
          ∃ (u : State) (n : Nat), UpdAnswered s (.finish src) src (natLe 4 3) u .signatureFailed (some n) ∧ (u.stage b).state = .empty ∧
            u.upd.owner = none) ∧
        (∀ i, sha384 (s.stagePayload b) = slice (s.stage b).header 48 48 →
          (∀ n, checkPayload (s.stage b).header (s.stagePayload b) n = some i) →
          ∃ u : State, UpdAnswered s (.finish src) src (natLe 4 3) u .imageRefused (some i) ∧ (u.stage b).state = .empty ∧ u.upd.owner = none) ∧
        (verified → ¬ partner →
          ∃ u : State, UpdAnswered s (.finish src) src (natLe 4 3) u .ok (some 0xFFFF) ∧ (u.stage b).header = (s.stage b).header ∧
            (∀ a, inRecord a = false → u.rd8 a = s.rd8 a) ∧ u.upd.owner = some src ∧
            (u.stage b).state = (if imgPair (s.stage b).header && s.pair.role == 1 then .verified else .armed) ∧
            (imgPair (s.stage b).header = true → s.pair.role = 1 → u.upd.relay = some { op := 1, block := 0, off := 0 } ∧
              u.c64 (mirReg 0x08) = s.c64 (mirReg 0x08) + 1)) ∧
        (verified → partner →
          (∃ u : State, UpdAnswered s (.finish src) src (natLe 4 3) u .ok (some 0xFFFF) ∧ (u.stage b).state = .armed ∧ u.upd.owner = some src) ∨
          (∃ (u : State) (n : Nat), UpdAnswered s (.finish src) src (natLe 4 3) u .imageRefused (some n) ∧ (u.stage b).state = .empty ∧
            u.upd.owner = none))))) ∧
  (∀ (s : State) (src : UpdSrc), UpdTaken s src (natLe 4 4) → s.sec.otp = none →
    (s.owns src = false → UpdAnswered s (.cancel src) src (natLe 4 4) s .state (some s.nextBlock)) ∧
    (∀ b, s.staged = some b → s.owns src = true →
      (s.worn b = true → UpdAnswered s (.cancel src) src (natLe 4 4) s .state (some s.nextBlock)) ∧
      (s.worn b = false →
        ∃ (u : State) (n : Nat), UpdAnswered s (.cancel src) src (natLe 4 4) u .ok (some n) ∧ (u.stage b).state = .empty ∧ u.upd.owner = none ∧
          u.stage (!b) = s.stage (!b) ∧ ∀ a, inRecord a = false → u.rd8 a = s.rd8 a))) ∧
  (∀ (s : State) (src : UpdSrc), s.sec.otp ≠ none → exec (.finish src) s = .next (settle s s) ∧ exec (.cancel src) s = .next (settle s s) ∧
    (s.pw.token.holder = none → exec (.header src) s = .next (settle s s))) ∧
  (∀ (s : State) (c : Instr × Nat), c ∈ [(.header .svc, 1), (.block .svc, 2), (.finish .svc, 3), (.cancel .svc, 4), (.go .svc, 5)] →
    (s.upd.svcMsg = none ∨ s.fw = false ∨ ∃ p, s.upd.svcMsg = some p ∧ c.2 ≠ 1 ∧ byteAt p 0 ≠ c.2) → exec c.1 s = .next (settle s s))

/-- R392, R393, R406, R407, R409, R413: GO is accepted by a secondary that is ARMED with a PAIR image; the primary issues it once the conditions hold at
both devices; an image whose deadline passes is dropped; UPD_LOCK needs a counter that rises and a signature; UPD_STATUS shows the
session; a frame for SVC waits for the lookup of its port; SVC answers ARP, opens one DoIP connection, and asks its tester whether it is alive as another one
calls. -/
def Obligations.ActivationAndStatus : Prop :=
  (∀ (s : State) (src : UpdSrc) (v : Nat), v < 2 ^ 128 → rtReserved v = false →
    let p := natLe 4 5 ++ natLe 4 0 ++ natLe 16 v
    UpdTaken s src p →
    (999999999 < (rtOf v).ns.toNat → UpdAnswered s (.go src) src p s .rtInvalid (some s.nextBlock)) ∧
    ((rtOf v).ns.toNat ≤ 999999999 →
      (s.pair.role = 2 → (s.owns src = true ∨ s.upd.owner = none) → s.stagedArea.state = .armed → imgPair s.stagedArea.header = true →
        UpdAnswered s (.go src) src p { s with upd := { s.upd with actAt := some (RT.toLt (rtOf v)) } } .ok (some s.nextBlock)) ∧
      ((s.pair.role ≠ 2 ∨ (s.owns src = false ∧ s.upd.owner ≠ none) ∨ s.stagedArea.state ≠ .armed ∨ imgPair s.stagedArea.header = false) →
        UpdAnswered s (.go src) src p s .state (some s.nextBlock)))) ∧
  (∀ s : State,
    let h := s.stagedArea.header
    (s.staged ≠ none → s.stagedArea.state = .armed → imgPair h = true → s.pair.role = 1 → s.pair.present = true → s.mayActivate h = true →
      s.upd.partnerArmed = true → s.upd.partnerReady = true → s.upd.actAt = none → s.time.ltime ≤ imgDeadline h →
      ∃ t, exec .pairGoIssue s = .next t ∧ t.upd.goSent = true ∧ t.upd.goOk = none ∧
        t.upd.actAt = some (RT.toLt (ltRT (max (imgNotBefore h) (s.time.ltime + 10000000 * nsUnit)))) ∧
        t.c64 (mirReg 0x08) = s.c64 (mirReg 0x08) + 1 ∧ t.mem = s.mem ∧ t.upd.areaA = s.upd.areaA ∧ t.upd.areaB = s.upd.areaB) ∧
    (∀ a k, s.upd.actAt = some a → s.upd.goOk = some k → k + 1000000 * nsUnit ≤ a → exec .pairGoIssue s = .next (settle s s)) ∧
    ((s.staged = none ∨ s.pair.role ≠ 1 ∨ s.mayActivate h = false ∨ s.upd.partnerArmed = false) → exec .pairGoIssue s = .next (settle s s))) ∧
  (∀ (s : State) (b : Bool), s.staged = some b → s.fw = true →
    (s.sec.otp = none → (s.stage b).state = .armed → imgDeadline (s.stage b).header < s.time.ltime →
      ∃ t, exec .activationDeadline s = .next t ∧ (t.stage b).state = .empty ∧ t.upd.owner = none ∧ t.upd.expired = satInc s.upd.expired ∧
        t.stage (!b) = s.stage (!b) ∧ ∀ a, inRecord a = false → t.rd8 a = s.rd8 a) ∧
    ((s.sec.otp ≠ none ∨ (s.stage b).state ≠ .armed ∨ s.time.ltime ≤ imgDeadline (s.stage b).header) → exec .activationDeadline s = .next (settle s s))) ∧
  (∀ (s : State) (mb : Mb), Taken s mb 0x0F01 [] →
    exec (.updStatus mb) s = .next (settle s (s.complete mb.val .ok s.updStatusBytes)) ∧ s.updStatusBytes.length = 40 ∧
      byteAt s.updStatusBytes 0 = s.upd.areaA.state.code + 16 * s.upd.areaB.state.code ∧
      (s.upd.owner = none → byteAt s.updStatusBytes 1 = 0) ∧ (s.upd.owner = some .svc → byteAt s.updStatusBytes 1 = 1) ∧
      (∀ n : Mb, s.upd.owner = some (.mailbox n) → byteAt s.updStatusBytes 1 = 2 + n.val) ∧
      bit (byteAt s.updStatusBytes 2) 0 = s.upd.ownerLock ∧ bit (byteAt s.updStatusBytes 2) 1 = s.moving ∧
      bit (byteAt s.updStatusBytes 2) 2 = s.battLow ∧ bit (byteAt s.updStatusBytes 2) 3 = s.upd.actRun ∧
      (∀ h, s.upd.active = some h → leNat (slice s.updStatusBytes 8 4) = imgVersion h ∧ leNat (slice s.updStatusBytes 16 8) = imgRelease h) ∧
      leNat (slice s.updStatusBytes 28 4) = s.upd.badCrc.toNat ∧ leNat (slice s.updStatusBytes 32 4) = s.upd.refusals.toNat ∧
      leNat (slice s.updStatusBytes 36 4) = s.upd.expired.toNat) ∧
  (∀ (s : State) (mb : Mb) (lock : Bool) (ks c : Nat) (pub sig : List Byte), ks < 64 → c < 2 ^ 32 → pub.length = 96 → sig.length = 96 →
    s.sec.otp = none →
    let w := natLe 4 ((if lock then 1 else 0) + ks * 256) ++ natLe 4 c
    let no (st : Status) : Prop := exec (.updLock mb) s = .next (settle s ((s.noteRefusal st false).complete mb.val st []))
    Taken s mb 0x0F02 (w ++ pub ++ sig) →
    (c ≤ s.upd.lockCount.toNat → no .state) ∧
    (s.upd.lockCount.toNat < c → ((s.slot ks).state = .spoiled ∨ (s.slot ks).state = .interrupted) → no .slotSpoiled) ∧
    (s.upd.lockCount.toNat < c → (s.slot ks).state ≠ .spoiled → (s.slot ks).state ≠ .interrupted →
      ecdsaVerify pub (sha384 (natLe 8 Config.uid.toNat ++ w)) sig = false → no .signatureFailed) ∧
    (s.upd.lockCount.toNat < c → ecdsaVerify pub (sha384 (natLe 8 Config.uid.toNat ++ w)) sig = true →
      (s.slot ks).state = .committed → (s.slot ks).use = 2 → (sha384 pub).take 32 = (s.slot ks).bytes →
      (s.pw.storeOk = false → no .refusedSupply) ∧
      (s.pw.storeOk = true → (s.worn false = true ∨ s.worn true = true) → no .state) ∧
      (s.pw.storeOk = true → s.worn false = false → s.worn true = false → ∃ u : State, exec (.updLock mb) s = .next (settle s (u.complete mb.val .ok [])) ∧ u.upd.ownerLock = lock ∧
        u.upd.lockCount.toNat = c ∧ (∀ b, (u.stage b).state = (s.stage b).state ∧ (u.stage b).header = (s.stage b).header ∧
          (u.stage b).map = (s.stage b).map ∧ (u.stage b).lock = lock ∧ (u.stage b).count.toNat = c) ∧
        ∀ a, inRecord a = false → u.rd8 a = s.rd8 a))) ∧
  (∀ (s : State) (b : List Byte),
    let p := parseFrame b (b.length + 4)
    let vid := match p.ctag with | some (_, _, x) => if 1 ≤ x ∧ x ≤ 4094 then x else 0 | none => 0
    let v := s.screen 25 (frameKey 25 p none vid) (b.length + 4) none .svc b
    let t := s.svcFrame b
    let o := p.etOff + 2
    ((s.fw = false ∨ s.param 0x0F05 = 0) → exec (.svcFrameReceive b) s = .next (settle s s) ∧ t = s) ∧
    (s.fw = true → s.param 0x0F05 ≠ 0 →
      exec (.svcFrameReceive b) s = .next (settle s { s with scr := { s.scr with svcIn := s.scr.svcIn ++ [b] } }) ∧
      (v.1.pass = false → t = v.2) ∧
      (v.1.pass = true →
        (p.etype = 0x0806 → be16 b (o + 6) = 1 → slice b (o + 24) 4 = s.svcIp →
          t.upd.svcOut = svcFrame (slice b (o + 8) 6) 0x0806
              ([0, 1, 8, 0, 6, 4, 0, 2] ++ natBe 6 Config.svcMac.toNat ++ s.svcIp ++ slice b (o + 8) 10) ∧ t.upd.svc = s.upd.svc ∧
            t.upd.areaA = s.upd.areaA ∧ t.upd.areaB = s.upd.areaB) ∧
        (p.etype ≠ 0x0806 → p.ip ≠ 4 → t = v.2.nmFollow s) ∧
        (p.etype ≠ 0x0806 → p.ip = 4 → p.frag = false → p.dst = s.svcIp → p.proto = 6 → p.l4 = true → p.dport = 13400 → s.upd.svc = none →
          bit p.flags 1 = true → bit p.flags 2 = false →
          ∃ c, t.upd.svc = some c ∧ c.buffer = [] ∧ c.routed = false ∧ c.alive = none ∧
            c.rxNext = BitVec.ofNat 32 (beNat (slice b (p.ipOff + 24) 4)) + 1 ∧ bit t.needMask 2 = true) ∧
        (∀ c, p.etype ≠ 0x0806 → p.ip = 4 → p.frag = false → p.dst = s.svcIp → p.proto = 6 → p.l4 = true → p.dport = 13400 →
          s.upd.svc = some c → c.peer ≠ BitVec.ofNat 48 (beNat p.src * 65536 + p.sport) → c.alive = none → bit p.flags 1 = true →
          bit p.flags 2 = false → ∃ d, t.upd.svc = some d ∧ d.peer = c.peer ∧ d.alive = some s.time.cycle ∧ t.upd.svcOut = doip 7 []) ∧
        (∀ c, p.etype ≠ 0x0806 → p.ip = 4 → p.frag = false → p.dst = s.svcIp → p.proto = 6 → p.l4 = true → p.dport = 13400 →
          s.upd.svc = some c → c.peer = BitVec.ofNat 48 (beNat p.src * 65536 + p.sport) → bit p.flags 2 = true → t.upd.svc = none))))

/-- R415 to R420, R423, R424: pulses count on their channel; a pulse of the source adds 1,000 to the remainder and sets SPEED; SPEED falls to 0 after 2 s without
one and a motion-stop record follows after 10 s; each crossing of PERIOD compares the channels and makes a periodic record; records
are written in order of KIND, KIND 1 last, into ring slot SEQ mod 2,032. Without VNRN the island does nothing. -/
def Obligations.IslandPulsesAndRecords : Prop :=
  (∀ (s : State) (dt : Nat) (chB : Bool), s.isl.present = false →
    exec (.wheelPulse dt chB) s = .next (settle s s) ∧ exec (.speedZero dt) s = .next (settle s s) ∧
    exec (.motionStop dt) s = .next (settle s s) ∧ exec (.periodicRecord dt) s = .next (settle s s) ∧
    exec (.recordWrite dt) s = .next (settle s s) ∧ exec (.referenceLinkMessage dt) s = .next (settle s s) ∧
    exec (.tqExpiry dt) s = .next (settle s s) ∧ exec (.sealOpened dt) s = .next (settle s s) ∧
    exec (.sealClosed dt) s = .next (settle s s) ∧ exec (.calibrationPoll dt) s = .next (settle s s)) ∧
  (∀ (s : State) (dt : Nat) (chB : Bool), s.isl.present = true →
    let i := s.isl.advance dt
    ∃ t, exec (.wheelPulse dt chB) s = .next t ∧ t = settle s { s with isl := t.isl } ∧
      t.isl.cntA = (if chB then i.cntA else i.cntA + 1) ∧ t.isl.cntB = (if chB then i.cntB + 1 else i.cntB) ∧
      t.isl.perA = (if chB then i.perA else i.perA + 1) ∧ t.isl.perB = (if chB then i.perB + 1 else i.perB) ∧
      t.isl.osc = s.isl.osc + dt ∧ t.isl.time = s.isl.time + dt * 250 * nsUnit ∧ t.isl.ring = s.isl.ring ∧ t.isl.nextSeq = s.isl.nextSeq ∧
      (chB ≠ i.srcB → t.isl.dist = i.dist ∧ t.isl.rem = i.rem ∧ t.isl.speed = i.speed ∧ t.isl.pend = i.pend ∧ t.isl.last1 = i.last1) ∧
      (chB = i.srcB → t.isl.last1 = some i.osc ∧ t.isl.last2 = i.last1 ∧
        (i.useCal = none → t.isl.dist = i.dist ∧ t.isl.rem = i.rem ∧ t.isl.speed = 0xFFFF ∧ t.isl.pend = i.pend) ∧
        (i.useCal.isSome = true → 0 < i.kSrc →
          t.isl.dist = i.dist + BitVec.ofNat 32 ((i.rem + 1000) / i.kSrc) ∧ t.isl.rem = (i.rem + 1000) % i.kSrc ∧
          (i.last1 = none → t.isl.speed = BitVec.ofNat 16 (min 0xFFFE (921600 * 4000000 / (i.kSrc * 8000000)))) ∧
          (∀ l, i.last1 = some l → t.isl.speed = BitVec.ofNat 16 (min 0xFFFE (921600 * 4000000 / (i.kSrc * max 1 (min 8000000 (i.osc - l)))))) ∧
          (t.isl.speed ≠ 0 → t.isl.moving = true ∧ (i.moving = false → ∃ p ∈ t.isl.pend, p.kind = 8) ∧
            (i.moving = true → t.isl.pend = i.pend)) ∧
          t.isl.speedMax.toNat = max i.speedMax.toNat t.isl.speed.toNat))) ∧
  (∀ (s : State) (dt : Nat), s.isl.present = true →
    let i := s.isl.advance dt
    let same := settle s { s with isl := i }
    (∀ l, i.useCal.isSome = true → i.last1 = some l → i.speed ≠ 0 →
      (l + 8000000 ≤ i.osc → exec (.speedZero dt) s = .next (settle s { s with isl := { i with speed := 0, zeroAt := some (l + 8000000) } })) ∧
      (i.osc < l + 8000000 → i.speedNow ≠ 0 → exec (.speedZero dt) s = .next same)) ∧
    (i.useCal = none → exec (.speedZero dt) s = .next same) ∧
    (∀ z, i.zeroAt = some z → i.moving = true → i.speed = 0 →
      (z + 40000000 ≤ i.osc → ∃ t, exec (.motionStop dt) s = .next t ∧ t.isl.moving = false ∧ (∃ p ∈ t.isl.pend, p.kind = 9) ∧
        (∀ p ∈ i.pend, p ∈ t.isl.pend) ∧ t.isl.dist = i.dist ∧ t.isl.ring = i.ring ∧ t.mem = s.mem) ∧
      (i.osc < z + 40000000 → exec (.motionStop dt) s = .next same)) ∧
    ((i.moving = false ∨ i.speed ≠ 0) → exec (.motionStop dt) s = .next same) ∧
    (0 < i.period → i.time / secUnit / i.period ≠ i.lastPer → ∃ t, exec (.periodicRecord dt) s = .next t ∧
      t.isl.perA = 0 ∧ t.isl.perB = 0 ∧ t.isl.lastPer = i.time / secUnit / i.period ∧ t.isl.rem = i.rem ∧ t.isl.dist = i.dist ∧
      (t.isl.failA = true ↔ (i.failA = true ∧ i.perA < 50) ∨ (i.failA = false ∧ i.perA = 0 ∧ 50 ≤ i.perB)) ∧
      (t.isl.failB = true ↔ (i.failB = true ∧ i.perB < 50) ∨ (i.failB = false ∧ i.perB = 0 ∧ 50 ≤ i.perA)) ∧
      t.isl.srcB = (t.isl.failA && !t.isl.failB) ∧
      (i.pend = [] → ∃ p ∈ t.isl.pend, p.kind = 1 ∧ p.detail = BitVec.ofNat 64 i.rem ∧ p.dist = i.dist ∧ p.time = i.time ∧ p.tq = i.tq ∧
        (p.disagree = true ↔ 100 * i.kA ≤ i.perA * 1000 ∧ 100 * i.kB ≤ i.perB * 1000 ∧
          i.cal 71 64 * max (i.perA * i.kB) (i.perB * i.kA) <
            (max (i.perA * i.kB) (i.perB * i.kA) - min (i.perA * i.kB) (i.perB * i.kA)) * 100)) ∧
      (i.pend = [] → i.failA = false → t.isl.failA = true → ∃ p ∈ t.isl.pend, p.kind = 7 ∧ p.detail = 1) ∧
      (i.pend = [] → i.failB = false → t.isl.failB = true → ∃ p ∈ t.isl.pend, p.kind = 7 ∧ p.detail = 2)) ∧
    ((i.period = 0 ∨ i.time / secUnit / i.period = i.lastPer) → exec (.periodicRecord dt) s = .next same) ∧
    (i.pend = [] → exec (.recordWrite dt) s = .next same) ∧
    (∀ p, (i.pend = [p] ∨ (∃ q, i.pend = [p, q] ∧ p.kind ≠ 1 ∧ (q.kind = 1 ∨ p.kind < q.kind)) ∨
        (∃ q, i.pend = [q, p] ∧ p.kind ≠ 1 ∧ (q.kind = 1 ∨ p.kind < q.kind))) →
      ∃ t, exec (.recordWrite dt) s = .next t ∧ t = settle s { s with isl := t.isl } ∧ t.isl.nextSeq = i.nextSeq + 1 ∧
        SMap.get [] t.isl.ring (i.nextSeq % 2032) = t.isl.latest ∧
        (∀ k, k ≠ i.nextSeq % 2032 → SMap.get [] t.isl.ring k = SMap.get [] i.ring k) ∧
        t.isl.latest.length = 256 ∧ leNat (slice t.isl.latest 0 4) = i.nextSeq % 2 ^ 32 ∧ byteAt t.isl.latest 4 = p.kind.val ∧
        bit (byteAt t.isl.latest 5) 0 = p.disagree ∧ bit (byteAt t.isl.latest 5) 1 = i.failA ∧ bit (byteAt t.isl.latest 5) 2 = i.failB ∧
        bit (byteAt t.isl.latest 5) 3 = i.srcB ∧ bit (byteAt t.isl.latest 5) 4 = p.sealOpen ∧
        bit (byteAt t.isl.latest 5) 5 = i.useCal.isNone ∧ byteAt t.isl.latest 6 = p.tq.toNat ∧
        slice t.isl.latest 8 16 = rtBytes p.time ∧ leNat (slice t.isl.latest 24 4) = p.dist.toNat ∧
        leNat (slice t.isl.latest 28 2) = p.speed.toNat ∧ leNat (slice t.isl.latest 30 2) = i.speedMax.toNat ∧
        leNat (slice t.isl.latest 32 4) = i.cntA.toNat ∧ leNat (slice t.isl.latest 36 4) = i.cntB.toNat ∧
        leNat (slice t.isl.latest 44 8) = p.detail.toNat ∧ leNat (slice t.isl.latest 52 8) = Config.islandUid.toNat ∧
        (0 < i.nextSeq → slice t.isl.latest 80 48 = fitBytes 48 (sha384 (i.latest.take 224))) ∧
        p ∉ t.isl.pend ∧ t.isl.speedMax = i.speed))

/-- R419, R420, R424 to R427, R429: the reference link sets island time and TQ, which falls to 1 after a second without it; the seal is recorded; a staged block that
passes R425 is written into the older copy while SEAL_N is low; a start scans the calibration and makes a start record; NRN_RECORD reads
records, stages and fetches a block. -/
def Obligations.IslandTimeAndCalibration : Prop :=
  (∀ (s : State) (dt : Nat), s.isl.present = true →
    let i := s.isl.advance dt
    let same := settle s { s with isl := i }
    (s.vcoreOn = true → (s.time.state = .locked ∨ s.time.state = .holdover) →
      ∃ t, exec (.referenceLinkMessage dt) s = .next t ∧ t.isl.time = s.time.ltime ∧ t.isl.tq = 0 ∧ t.isl.refAt = some i.osc ∧
        t.isl.dist = i.dist ∧ t.mem = s.mem ∧ (((s.time.ltime : Int) - i.time).natAbs ≤ secUnit → t.isl.pend = i.pend) ∧
        (secUnit < ((s.time.ltime : Int) - i.time).natAbs → i.pend = [] → ∃ p, t.isl.pend = [p] ∧ p.kind = 3 ∧ p.time = i.time ∧ p.tq = i.tq)) ∧
    (s.vcoreOn = true → s.time.state ≠ .locked → s.time.state ≠ .holdover → exec (.referenceLinkMessage dt) s = .next same) ∧
    (s.vcoreOn = false → exec (.referenceLinkMessage dt) s = .next (settle s s)) ∧
    (∀ r, i.refAt = some r → i.tq = 0 →
      (r + 4000000 < i.osc → exec (.tqExpiry dt) s = .next (settle s { s with isl := { i with tq := 1 } })) ∧
      (i.osc ≤ r + 4000000 → exec (.tqExpiry dt) s = .next same)) ∧
    ((i.refAt = none ∨ i.tq ≠ 0) → exec (.tqExpiry dt) s = .next same) ∧
    (i.sealLow = false → exec (.sealClosed dt) s = .next same ∧ ∃ t, exec (.sealOpened dt) s = .next t ∧ t.isl.sealLow = true ∧
      (i.pend = [] → ∃ p, t.isl.pend = [p] ∧ p.kind = 4 ∧ p.sealOpen = true) ∧ t.isl.ring = i.ring ∧ t.isl.cal0 = i.cal0 ∧ t.isl.cal1 = i.cal1) ∧
    (i.sealLow = true → exec (.sealOpened dt) s = .next same ∧ ∃ t, exec (.sealClosed dt) s = .next t ∧ t.isl.sealLow = false ∧
      (i.pend = [] → ∃ p, t.isl.pend = [p] ∧ p.kind = 5 ∧ p.sealOpen = false) ∧ t.isl.ring = i.ring ∧ t.isl.cal0 = i.cal0 ∧ t.isl.cal1 = i.cal1) ∧
    ((i.sealLow = false ∨ i.pollDue = false) → exec (.calibrationPoll dt) s = .next same) ∧
    (i.sealLow = true → i.pollDue = true → s.fw = true → s.host.busy = none → s.host.rings = [] → (s.mb 9).state = .idle →
      (∀ x, (s.mb 9).stored = some x → x.2.1.toNat ≠ (s.reqSeq 9 + 1) % 65536) →
      ∃ t, exec (.calibrationPoll dt) s = .next t ∧ t.isl.pollAt = some i.osc ∧ (t.mb 9).state = .idle ∧
        SameMemBut s t (reqAddr 9) 0x800 ∧
        ((i.staged = none ∨ i.staged = i.useCal) → (∀ b, i.staged = some b → b.length = 32) → t.isl = { i with pollAt := some i.osc }) ∧
        (∀ b, i.staged = some b → b.length = 32 → i.useCal ≠ some b →
          (i.calOk b = false → t.isl = { i with pollAt := some i.osc, calRefused := true }) ∧
          (i.calOk b = true → t.isl.useCal = some b ∧ t.isl.rem = 0 ∧ t.isl.calRefused = false ∧ t.isl.dist = i.dist ∧ t.isl.ring = i.ring ∧
            ((t.isl.cal0 = b ++ natLe 4 (crc32c b) ∧ t.isl.cal1 = i.cal1) ∨ (t.isl.cal1 = b ++ natLe 4 (crc32c b) ∧ t.isl.cal0 = i.cal0)) ∧
            (i.useCal.isSome = true → calCopy i.cal0 = i.useCal → t.isl.cal0 = i.cal0) ∧
            (i.useCal.isSome = true → calCopy i.cal0 ≠ i.useCal → t.isl.cal1 = i.cal1) ∧
            (i.pend = [] → ∃ p ∈ t.isl.pend, p.kind = 6 ∧ p.detail = BitVec.ofNat 64 (i.kA + bits (leNat b) 31 0 * 2 ^ 32)))))) ∧
  (∀ (s : State) (dt : Nat), s.isl.present = true → exec (.islandStart dt) s = .next (settle s s)) ∧
  (∀ (s : State) (dt : Nat), s.isl.present = false →
    ∃ t, exec (.islandStart dt) s = .next t ∧ t.isl.present = true ∧ t.isl.useCal = s.isl.validCal ∧ t.isl.time = 0 ∧ t.isl.tq = 2 ∧
      t.isl.osc = 0 ∧ t.isl.cntA = s.isl.cntA ∧ t.isl.cntB = s.isl.cntB ∧ t.isl.ring = s.isl.ring ∧ t.isl.nextSeq = s.isl.nextSeq ∧
      t.isl.dist = s.isl.dist ∧ t.isl.speed = (if s.isl.validCal.isSome then 0 else 0xFFFF) ∧
      (∃ p, t.isl.pend = [p] ∧ p.kind = 2 ∧ p.tq = 2 ∧ (s.isl.nextSeq = 0 → p.detail = 0xFFFFFFFF) ∧
        (0 < s.isl.nextSeq → p.detail = BitVec.ofNat 64 (s.isl.nextSeq - 1))) ∧ t.mem = s.mem) ∧
  (∀ s : State, s.isl.present = false → exec .islandStop s = .next (settle s s) ∧ ∀ o, s.islandByte o = 0 ∧ s.sealedByte o = 0) ∧
  (∀ s : State, s.isl.present = true →
    (s.isl.pend = [] → s.isl.sealLow = false →
      exec .islandStop s = .next (settle s { s with isl := { s.isl with present := false, pend := [] } })) ∧
    ∃ t, exec .islandStop s = .next t ∧ t.isl.present = false ∧ t.isl.pend = [] ∧ t.isl.latest = s.isl.latest ∧ t.isl.nextSeq = s.isl.nextSeq ∧
      t.isl.useCal = s.isl.useCal ∧ t.isl.dist = s.isl.dist ∧ t.isl.cntA = s.isl.cntA ∧ t.isl.cntB = s.isl.cntB ∧ t.mem = s.mem ∧
      (∀ q, q < s.isl.nextSeq → s.isl.nextSeq < q + 2032 → t.isl.find q = s.isl.find q) ∧
      (t.isl.cal0 = s.isl.cal0 ∨ t.isl.cal1 = s.isl.cal1) ∧ (s.isl.sealLow = false → t.isl.cal0 = s.isl.cal0 ∧ t.isl.cal1 = s.isl.cal1) ∧
      (∀ b, s.isl.useCal = some b → calCopy s.isl.cal0 = some b → t.isl.cal0 = s.isl.cal0)) ∧
  (∀ (s : State) (mb : Mb) (w seq n : Nat), w < 2 ^ 32 → seq < 2 ^ 32 → n < 2 ^ 32 →
    Taken s mb 0x1001 (natLe 4 w ++ natLe 4 seq ++ natLe 4 n) →
    let no (st : Status) : Prop := exec (.nrnRead mb) s = .next (settle s (s.complete mb.val st []))
    (w = 1 → (n = 0 ∨ 3 < n) → no .badField) ∧
    (w = 1 → 0 < n → n ≤ 3 → s.isl.present = false → no .state) ∧
    (w = 1 → 0 < n → n ≤ 3 → s.isl.present = true → s.isl.find seq = none → no .noEntry) ∧
    (∀ r, w = 1 → n = 1 → s.isl.present = true → s.isl.find seq = some r →
      exec (.nrnRead mb) s = .next (settle s (s.complete mb.val .ok r))) ∧
    (∀ r r2, w = 1 → n = 2 → s.isl.present = true → s.isl.find seq = some r → s.isl.find (seq + 1) = some r2 →
      exec (.nrnRead mb) s = .next (settle s (s.complete mb.val .ok (r ++ r2)))) ∧
    (∀ r wk, w = 0x101 + wk * 65536 → wk < 32 → n = 1 → s.isl.present = true → s.isl.find seq = some r →
      (s.sec.locked = true → no .vaultLocked) ∧
      (∀ st, s.sec.locked = false → s.keyRefused wk 4 = some st →
        exec (.nrnRead mb) s = .next (settle s ((s.bump (secReg 8)).complete mb.val st []))) ∧
      (s.sec.locked = false → s.keyRefused wk 4 = none →
        exec (.nrnRead mb) s = .next (settle s (s.complete mb.val .ok (r ++ ecdsaSign (s.wk wk).key (sha384 r))))))) ∧
  (∀ (s : State) (mb : Mb) (b : List Byte), s.isl.present = true → b.length = 32 →
    (Taken s mb 0x1001 (natLe 4 2 ++ b) → exec (.nrnStage mb) s = .next (settle s
      (State.complete { s with isl := { s.isl with staged := some b } } mb.val .ok []))) ∧
    (Taken s mb 0x1001 (natLe 4 3) →
      (s.isl.staged = none → exec (.nrnFetch mb) s = .next (settle s (s.complete mb.val .ok (natLe 4 0)))) ∧
      (s.isl.staged = some b → exec (.nrnFetch mb) s = .next (settle s (s.complete mb.val .ok (natLe 4 1 ++ b))))))

/-- R461: the JTAG instructions place themselves and what they shift out; nothing else changes. EXTEST drives pins only while
RST_N is low and is BYPASS at other times. IDCODE shifts 32 bits whose part-number field, bits 27 to 12 by IEEE 1149.1 (log
entry 20), is 0x4192. -/
def Obligations.JtagInstructions : Prop :=
  ∀ (s : State) (pins : List Bool), s.pw.vaon = true → s.pw.inh0 = true →
    exec .bypass s = .next (settle s { s with jtag := { s.jtag with instr := .bypass, driving := false, tdo := [false] } }) ∧
    (∃ out : List Bool, out.length = 32 ∧
      (∀ i, i < 16 → out.getD (12 + i) false = bit 0x4192 i) ∧
      exec .idcode s = .next (settle s { s with jtag := { s.jtag with instr := .idcode, driving := false, tdo := out } })) ∧
    exec (.samplePreload pins) s =
      .next (settle s { s with jtag := { instr := .samplePreload, boundary := pins, driving := false, tdo := pins } }) ∧
    (s.pw.rstLow = true → exec (.extest pins) s =
      .next (settle s { s with jtag := { instr := .extest, boundary := pins, driving := true, tdo := pins } })) ∧
    (s.pw.rstLow = false → exec (.extest pins) s = exec .bypass s)

/-- R312, R447, R453: what the supply monitors and the converters write, and nothing else. R25, R31 to R34, R315, R436: SUPPLY and REFCLK_LOSS enter fail-silent from a running device: the fault is the last entry of
the record, every link is down, buffer, queues and mailbox work are gone, IRQ_N is low; memory and the counters stay. -/
def Obligations.SupplyAndClock : Prop :=
  ((∀ (s : State) (v : BitVec 16), s.mainOn = true →
    exec (.tempSample v) s = .next (settle s { s with pw := { s.pw with dieTemp := v } })) ∧
  (∀ (s : State) (v : BitVec 12), s.mainOn = true →
    exec (.battSample v) s = .next (settle s { s with pw := { s.pw with battRaw := v } })) ∧
  (∀ (s : State), s.pw.vaon = true → s.pw.inh0 = true → s.pw.supplyLow = 0 → s.pw.storeLow = 0 →
    (∀ t, s.pw.storeAt = some t → t + 800000 ≤ s.time.cycle) → exec .storeOkSet s = .next (settle s { s with pw := { s.pw with storeOk := true } })) ∧
  (∀ (s : State) (rail : Rail) (mv : Nat), s.pw.vaon = true → s.pw.inh0 = true →
    ∃ (low below : BitVec 5) (ok : Bool) (at_ : Option Nat) (l : SMap (Option Nat)),
      exec (.supplyLow rail mv) s = .next (settle s { s with pw := { s.pw with
        supplyLow := low, storeLow := below, storeOk := ok, storeAt := at_, lowAt := l } }) ∧
      (∀ i, i < 5 → below.getLsbD i = if i = railBit rail then decide (mv < railLow rail) || decide (mv < railStore rail) else s.pw.storeLow.getLsbD i) ∧
      (below = 0 → s.pw.storeLow ≠ 0 → at_ = some s.time.cycle) ∧
      (mv < railLow rail → s.pw.supplyLow.getLsbD (railBit rail) = false → SMap.get none l (railBit rail) = some s.time.cycle) ∧
      (∀ i, i < 5 → low.getLsbD i = if i = railBit rail then decide (mv < railLow rail) else s.pw.supplyLow.getLsbD i) ∧
      (ok = true ↔ s.pw.storeOk = true ∧ low = 0 ∧ below = 0)) ∧
  (∀ (s : State), (s.pw.supplyLow ≠ 0 ∨ s.pw.storeLow ≠ 0 ∨ ∃ t, s.pw.storeAt = some t ∧ s.time.cycle < t + 800000) →
    exec .storeOkSet s = .next (settle s s)) ∧
  (∀ (s : State) (rail : Fin 4) (t : Nat), SMap.get none s.pw.lowAt rail.val = some t → s.time.cycle ≤ t + 8000 →
    exec (.supplyFault rail) s = .next (settle s s))) ∧
  ((∀ (s : State) (rail : Fin 4), s.live = true → s.pw.vaon = true → s.pw.inh0 = true → s.pw.supplyLow.getLsbD rail.val = true →
    (∀ t0, SMap.get none s.pw.lowAt rail.val = some t0 → t0 + 8000 < s.time.cycle) → ∃ t, exec (.supplyFault rail) s = .next t ∧ t.pw.mode = .failSilent ∧
      (∃ e, t.pw.fr.last = some e ∧ e.code = 0x0302 ∧ e.unit = BitVec.ofNat 8 rail.val ∧
        e.detail = [BitVec.ofNat 32 s.dwSupply] ∧ e.cycle = s.time.cycle ∧ (s.pw.fr.first = none → t.pw.fr.first = some e)) ∧
      t.sw.link = 0 ∧ t.sw.frames = [] ∧ t.fab.flight = [] ∧ t.host.busy = none ∧ t.pw.token.holder = none ∧
      t.pw.fwReady = false ∧ t.irqnLow = true ∧ (s.upd.ready = none → t.mem = s.mem) ∧ t.cnt32 = s.cnt32 ∧ t.cnt64 = s.cnt64 ∧ t.params = s.params) ∧
  (∀ (s : State) (rail : Fin 4) (x y : FaultEntry), s.pw.mode = .failSilent → s.pw.vaon = true → s.pw.inh0 = true → s.pw.rstLow = false →
    s.pw.supplyLow.getLsbD rail.val = true →
    (∀ t0, SMap.get none s.pw.lowAt rail.val = some t0 → t0 + 8000 < s.time.cycle) → s.pw.fr.first = some x → s.pw.fr.last = some y →
    ∃ t, exec (.supplyFault rail) s = .next t ∧ t.pw.mode = .failSilent ∧ t.pw.fr.count = min 255 (s.pw.fr.count + 1) ∧ t.mem = s.mem ∧
      ((y.cycle ≠ s.time.cycle ∨ y.code.toNat ≤ 0x0302) → t.pw.fr.first = some x ∧ ∃ e, t.pw.fr.last = some e ∧ e.code = 0x0302) ∧
      (y.cycle = s.time.cycle → 0x0302 < y.code.toNat → t.pw.fr.last = some y ∧
        (s.pw.fr.here = true → x = y → ∃ e, t.pw.fr.first = some e ∧ e.code = 0x0302 ∧ e.cycle = s.time.cycle) ∧
        (s.pw.fr.here = false → t.pw.fr.first = some x))) ∧
  (∀ (s : State) (f c : Bool), s.live = true → s.pw.vaon = true → s.pw.inh0 = true →
    ∃ t, exec (.refclkLoss f c) s = .next t ∧ t.pw.mode = .failSilent ∧
      (∃ e, t.pw.fr.last = some e ∧ e.code = 0x0301 ∧ e.unit = 0 ∧
        e.detail = [BitVec.ofNat 32 ((if f then 1 else 0) + (if c then 2 else 0))]) ∧
      (s.paramBit 0x0E01 2 = true → t.sec.locked = true ∧ t.sec.tamper.getLsbD 2 = true ∧ t.sec.wks = []) ∧
      t.sw.link = 0 ∧ t.sw.frames = [] ∧ t.irqnLow = true))

/-- R431, R430, R35, R332, R390, R404: RST_N low resets the main side and raises both INH. The always-on registers, the fault record
and MRAM keep what they hold, the record copies among it where no write of one is in progress. R448, R430, R330: loss of VAON ends every mode: the device is Off, and the fault record, the always-on registers and the
snapshot are lost. MRAM and the island keep what they hold. -/
def Obligations.ResetAndVaonLoss : Prop :=
  (∀ s : State, s.pw.vaon = true → s.pw.rstLow = false →
    ∃ t, exec .rstNAssert s = .next t ∧ t.pw.rstLow = true ∧ t.pw.inh0 = true ∧ t.pw.inh1 = true ∧ t.pw.mode = .startUp ∧
      t.sw.link = 0 ∧ t.sw.frames = [] ∧ t.irqnLow = false ∧ t.params = [] ∧ t.cnt32 = [] ∧
      t.pw.fr = s.pw.fr ∧ t.nm.latch = s.nm.latch ∧ t.nm.snapSeq = s.nm.snapSeq ∧ t.nm.slackMs = s.nm.slackMs ∧
      t.sec.tamper = s.sec.tamper ∧ t.sec.tamperN = s.sec.tamperN ∧ t.sec.locked = s.sec.locked ∧
      t.nm.accepted = s.nm.accepted ∧ t.upd.active = s.upd.active ∧ t.upd.recActive = s.upd.recActive ∧
      (s.upd.ready = none → s.upd.wrote = [] → t.upd.recA = s.upd.recA ∧ t.upd.recB = s.upd.recB) ∧ t.pending = s.pending ∧
      t.isl = { s.isl with staged := none } ∧ (s.upd.ready = none → ∀ a, isMram a = true → t.rd8 a = s.rd8 a)) ∧
  (∀ s : State, s.pw.vaon = true →
    ∃ t, exec .vaonLoss s = .next t ∧ t.pw.mode = .off ∧ t.pw.vaon = false ∧ t.pw.inh0 = false ∧ t.pw.inh1 = false ∧
      t.pw.fr = FaultRecord.reset ∧ t.pw.fsRun = false ∧ t.nm = Nm.reset ∧ t.snapshot = none ∧ t.sec.tamper = 0 ∧ t.sec.tamperN = 0 ∧
      t.upd.active = s.upd.active ∧ t.upd.recActive = s.upd.recActive ∧ t.isl = { s.isl with staged := none } ∧
      (s.upd.ready = none → s.upd.wrote = [] → t.upd.recA = s.upd.recA ∧ t.upd.recB = s.upd.recB) ∧
      (s.upd.ready = none → ∀ a, isMram a = true → t.rd8 a = s.rd8 a))

/-- R430 to R433, R389: a clean cold start. It comes after the release of RST_N, or as VAON is applied with RST_N high. DW_START_CAUSE
tells which, a vault lock stays only if a tamper source is active, and the device ends Operating, Awake, with firmware
serving the mailboxes. The first start since VAON was applied shows cause 0 (DEDUCED, log entry 32). R28, R312, R320, R432, R437: what the steps of a cold start leave when the model holds no image of its own: Operating, the self-test
passed, firmware ready, Awake with wake hold, every link down, the fault record as it was with DW_FR_STARTS counted while it is
valid. -/
def Obligations.ColdStarts : Prop :=
  (∀ (s : State) (r : StartReport), Clean r →
    let lock := s.sec.locked && (r.tamperActive != 0)
    let base := { s.mainReset with sec := { s.mainReset.sec with locked := lock } }
    let first := { base with pw := { base.pw with vaon := true, inh0 := true, inh1 := true, vaonStart := true } }
    let cause : BitVec 3 := if s.pw.vaonStart then 0 else 1
    (s.pw.vaon = true → s.pw.rstLow = true → Startable base cause false (msCycles 14) r →
      exec (.rstNRelease r) s = .next (settle s (StartSteps base cause 0 r))) ∧
    (s.pw.vaon = false → s.pw.rstLow = false → Startable first 0 false (msCycles 14) r →
      exec (.vaonApplied r) s = .next (settle s (StartSteps first 0 0 r)))) ∧
  (∀ (s : State) (cause : BitVec 3) (r : StartReport), r.cut = none → (AfterRecords s.mainReset cause false (msCycles 14) r).upd.active = none →
    let t := StartSteps s.mainReset cause 0 r
    t.pw.mode = .operating ∧ t.pw.fwReady = true ∧ t.pw.warm = false ∧ t.pw.cause = cause ∧ t.pw.causeFs = s.pw.fsRun ∧
    t.pw.fsRun = false ∧ t.pw.rstLow = false ∧ t.pw.inh0 = true ∧ t.pw.inh1 = true ∧ t.pw.bistDone = true ∧ t.pw.bistPass = true ∧
    t.pw.bistBlock = 0 ∧ t.pw.bistTime = r.bistTime ∧ t.nm.state = .awake ∧ t.nm.wakeHold = true ∧ t.nm.latch = 0 ∧
    t.sw.link = 0 ∧ t.ls.single = false ∧ t.params = [] ∧ t.cnt32 = [] ∧ t.sec.classified = true ∧ t.time.cycle ≤ msCycles 14 ∧
    t.time.state = .unset ∧ t.pw.fr.first = s.pw.fr.first ∧ t.pw.fr.last = s.pw.fr.last ∧
    t.pw.fr.starts = (if s.pw.fr.first = none then s.pw.fr.starts else satInc s.pw.fr.starts) ∧
    t.pw.coldStarts = satInc s.pw.coldStarts)

/-- R434, R436, R437: a failing test of the start-up is a device fault at once: SELFTEST with the block code, CMP_INJECTION
with core, window and map, in context 0; the device is fail-silent and firmware does not start. -/
def Obligations.StartFaults : Prop :=
  ∀ (s : State) (r : StartReport), s.pw.vaon = true → s.pw.rstLow = true → r.cut = none →
    let q := AfterRecords { s.mainReset with sec := { s.mainReset.sec with locked := s.sec.locked && (r.tamperActive != 0) } }
      (if s.pw.vaonStart then 0 else 1) false (msCycles 14) r
    q.upd.areaA.state ≠ .copying → q.upd.areaB.state ≠ .copying →
    (∀ (b : Byte) (d0 d1 d2 : Word), r.selfTest = some (b, d0, d1, d2) → 1 ≤ b.toNat → b.toNat ≤ 5 →
      ∃ t, exec (.rstNRelease r) s = .next t ∧ t.pw.mode = .failSilent ∧ t.pw.fwReady = false ∧ t.pw.bistBlock = b ∧
        ∃ e, t.pw.fr.last = some e ∧ e.code = 0x0401 ∧ e.unit = b ∧ e.detail = [d0, d1, d2, 0]) ∧
    (∀ c, r.selfTest = none → r.imageOk = true → q.upd.activeBad = false → (q.classifySlots r).imageChecks = true → r.cmpTest = some c →
      (c.badRail ≠ 0 ∨ c.unequal ≠ 1#64 <<< c.window.val) →
      ∃ t, exec (.rstNRelease r) s = .next t ∧ t.pw.mode = .failSilent ∧ t.pw.fwReady = false ∧ t.pw.bistBlock = 0x0A ∧
        ∃ e, t.pw.fr.last = some e ∧ e.unit = BitVec.ofNat 8 c.core.val ∧
          (c.badRail ≠ 0 → e.code = 0x0203 ∧ e.detail = [BitVec.ofNat 32 c.badRail.toNat, BitVec.ofNat 32 (c.badRail.toNat / 2 ^ 32)]) ∧
          (c.badRail = 0 → e.code = 0x0202 ∧
            e.detail = [BitVec.ofNat 32 c.window.val, BitVec.ofNat 32 c.unequal.toNat, BitVec.ofNat 32 (c.unequal.toNat / 2 ^ 32), 0])) ∧
    (r.selfTest = none → (r.imageOk = false ∨ q.upd.activeBad = true) → q.upd.areaA.state ≠ .source → q.upd.areaB.state ≠ .source →
      ∃ t, exec (.rstNRelease r) s = .next t ∧ t.pw.mode = .failSilent ∧
        ∃ e, t.pw.fr.last = some e ∧ e.code = 0x0403 ∧ e.detail.take 2 =
          [BitVec.ofNat 32 q.upd.areaA.state.code, BitVec.ofNat 32 q.upd.areaB.state.code])

/-- R320, R329 to R331, R433: a latched wake event ends Slack. With a valid snapshot and PID 0x0C30 at 1 the start is warm: cause 2, tables,
parameters and local time are those of the snapshot, the time source starts Unset. Otherwise it is a cold start with cause 3
that keeps a vault lock. WARM_WAKE completes, with the device Operating, Awake and firmware ready, in every Slack of at least 1 ms that a
latched event ends and in which no test fails. -/
def Obligations.WakeFromSlack : Prop :=
  (∀ (s : State) (r : StartReport) (slackMs : Word), s.pw.mode = .slack → s.pw.vaon = true → s.pw.rstLow = false →
    s.nm.latch ≠ 0 → slackMs ≠ 0 → Clean r →
    let base := { s.mainReset with nm := { s.mainReset.nm with slackMs := slackMs },
                                   pw := { s.mainReset.pw with storeOk := false, supplyLow := s.pw.supplyLow &&& 0x10,
                                                               storeLow := s.pw.storeLow &&& 0x10 } }
    (∀ x, s.snapshot = some x → s.param 0x0C30 ≠ 0 → s.snapValid x = true →
      ∃ t, exec (.warmWake r slackMs) s = .next t ∧ t.pw.mode = .operating ∧ t.pw.fwReady = true ∧ t.pw.warm = true ∧ t.pw.cause = 2 ∧
        t.pw.bistDone = true ∧ t.pw.bistPass = true ∧ t.pw.warmWakes = satInc s.pw.warmWakes ∧ t.pw.coldStarts = s.pw.coldStarts ∧
        t.nm.state = .awake ∧ t.nm.wakeHold = true ∧ t.nm.latch = 0 ∧ t.nm.wakeSrc = BitVec.ofNat 7 s.nm.latch.toNat ∧
        t.nm.slackMs = slackMs ∧ t.params = x.params ∧ t.scr.bank = x.ruleBank ∧ t.scr.gen = x.ruleGen ∧ t.sw.link = 0 ∧
        x.ltime + slackMs.toNat * 1000000 * nsUnit ≤ t.time.ltime ∧
        t.time.state = (if t.param 0x0501 = 0 then .free else .unset) ∧ t.pw.fr.first = s.pw.fr.first ∧ t.pw.fr.last = s.pw.fr.last ∧
        t.pw.fr.count = s.pw.fr.count ∧ t.pw.fr.starts = s.pw.fr.starts) ∧
    ((s.snapshot = none ∨ s.param 0x0C30 = 0 ∨ ∃ x, s.snapshot = some x ∧ s.snapValid x = false) →
      Startable base 3 false (msCycles 14) r → (AfterRecords base 3 false (msCycles 14) r).upd.active = none →
      ∃ t, exec (.warmWake r slackMs) s = .next t ∧ t.pw.mode = .operating ∧ t.pw.fwReady = true ∧ t.pw.warm = false ∧ t.pw.cause = 3 ∧
        t.pw.bistPass = true ∧ t.pw.coldStarts = satInc s.pw.coldStarts ∧ t.nm.state = .awake ∧ t.nm.wakeHold = true ∧ t.nm.latch = 0 ∧
        t.nm.wakeSrc = BitVec.ofNat 7 s.nm.latch.toNat ∧ t.params = [] ∧ t.sw.link = 0 ∧ (r.tamper = 0 → t.sec.locked = s.sec.locked))) ∧
  ∀ (s : State) (r : StartReport) (slackMs : Word), s.pw.mode = .slack → s.pw.vaon = true → s.pw.rstLow = false →
    s.nm.latch ≠ 0 → slackMs ≠ 0 → Clean r →
    let base := { s.mainReset with nm := { s.mainReset.nm with slackMs := slackMs },
                                   pw := { s.mainReset.pw with storeOk := false, supplyLow := s.pw.supplyLow &&& 0x10,
                                                               storeLow := s.pw.storeLow &&& 0x10 } }
    let wakers := s.nm.latch.toNat % 16
    (∀ x, s.snapshot = some x → s.param 0x0C30 ≠ 0 → s.snapValid x = true →
      exec (.warmWake r slackMs) s = .next (settle s
        { (((((AfterRecords base 2 true (msCycles 5) r).classifySlots r).bistPassed r).restoreSnap x).startFirmware true).enterRun wakers
          with nm.pulseAt := [] })) ∧
    ((s.snapshot = none ∨ s.param 0x0C30 = 0 ∨ ∃ x, s.snapshot = some x ∧ s.snapValid x = false) → Startable base 3 false (msCycles 14) r →
      exec (.warmWake r slackMs) s = .next (settle s { StartSteps base 3 wakers r with nm.pulseAt := [] }))

/-- R406, R408, R330, R405: an ARMED image without PAIR whose conditions hold activates: reset, copy, cold start with cause 1 and ACT 1;
a locked vault stays locked. What the copy leaves: the image's header is the active one, its area SOURCE, a former SOURCE area PREVIOUS,
and the retained-state snapshot is gone. A loss of power in a copy leaves the device Off, and in the write of the active record the older record stands.
ACTIVATION completes with the device Awake whenever the conditions hold, the copy reads back
as it was written, the image is still what was signed and no test fails; with an image that carries no configuration it ends Operating,
with firmware ready and the image active. An image that is not ARMED, or whose conditions do not hold, or with an area at its wear limit, does not
activate. -/
def Obligations.ActivationCopies : Prop :=
  (∀ (s : State) (r : StartReport) (ok1 ok2 : Bool) (b : Bool), s.staged = some b → (s.stage b).state = .armed →
    let h := (s.stage b).header
    let ks := hdrBits h 325 320
    s.pw.vaon = true → RecordsAgree s → (s.stage (!b)).state ≠ .copying → s.activates h = true → s.worn b = false → s.activeWorn = false → imgLen h ≤ 2093056 → sha384 (s.stagePayload b) = slice h 48 48 → (ok1 || ok2) = true → Clean r →
    (s.slot ks).state = .committed → (s.slot ks).use = 2 → (sha384 (slice h 96 96)).take 32 = (s.slot ks).bytes →
    ecdsaVerify (slice h 96 96) (sha384 (h.take 416)) (slice h 416 96) = true →
    ∃ t, exec (.activation r ok1 ok2) s = .next t ∧ t.nm.state = .awake ∧ t.nm.wakeHold = true ∧
      ((manifest (s.stagePayload b)).all (fun e => (kindRecords (compKind e)).isEmpty) = true →
        t.pw.mode = .operating ∧ t.pw.fwReady = true ∧ t.pw.warm = false ∧ t.pw.cause = 1 ∧ t.upd.active = some h ∧
        (t.stage b).state = .source ∧ t.upd.actRun = true ∧ t.snapshot = none ∧ t.params = [] ∧ (r.tamper = 0 → t.sec.locked = s.sec.locked) ∧
        t.pw.coldStarts = satInc s.pw.coldStarts ∧ t.sw.link = 0 ∧ t.rdB 0x02000000 (imgLen h) = s.stagePayload b)) ∧
  (∀ (s : State) (r : StartReport) (ok1 ok2 : Bool),
    (s.staged = none ∨ ∃ b, s.staged = some b ∧ ((s.stage b).state ≠ .armed ∨ s.activates (s.stage b).header = false ∨ s.worn b = true ∨
      s.activeWorn = true)) →
    exec (.activation r ok1 ok2) s = .next (settle s s)) ∧
  ∀ (s : State) (r : StartReport) (ok1 ok2 : Bool) (b : Bool), s.staged = some b → (s.stage b).state = .armed →
    s.activates (s.stage b).header = true → s.worn b = false → s.activeWorn = false →
    let base := { ({ s.setStage b { s.stage b with state := .copying } with upd.wrote := [] }.resetMain) with snapshot := none, upd.actRun := true }
    exec (.activation r ok1 ok2) s = .next (settle s (base.coldStart 1 false (ok1, ok2) 0 r)) ∧
    base.snapshot = none ∧ (base.stage b).state = .copying ∧ base.sec.locked = s.sec.locked ∧
    ((s.stage (!b)).state ≠ .copying → sha384 (base.stagePayload b) = slice (base.stage b).header 48 48 → (ok1 || ok2) = true →
      let t := base.finishCopy ok1 ok2 none
      t.upd.active = some (s.stage b).header ∧ (t.stage b).state = .source ∧
      ((s.stage (!b)).state = .source → (t.stage (!b)).state = .previous) ∧ t.upd.actRun = true ∧
      (s.pw.vaon = true → ∀ (c : StartCut), (c = .activeRecord ∨ c = .sourceRecord ∨ ∃ k j w, c = .copying k j w) →
        (base.finishCopy ok1 ok2 (some c)).pw.mode = .off ∧ (base.finishCopy ok1 ok2 (some c)).snapshot = none ∧
        (c = .activeRecord → ((base.finishCopy ok1 ok2 (some c)).upd.recActive.newer).map Prod.snd = (s.upd.recActive.newer).map Prod.snd)))

/-- R439 to R441, R444: a diagnostic command that the token admits waits for its end; one that it does not is answered with
BUSY, and DIAG_MEMTEST with any other region code with BAD_FIELD. FAULT_CLEAR clears the fault record and DW_FR_STARTS. -/
def Obligations.DiagnosticCommands : Prop :=
  ∀ (s : State) (mb : Mb) (pay : List Byte),
    (Taken s mb 0x0040 [] → exec (.faultClear mb) s =
      .next (settle s ({ s with pw := { s.pw with fr := FaultRecord.reset } }.complete mb.val .ok []))) ∧
    (∀ (r : Byte) (base size unit : Nat), regionOf r.toNat = some (base, size, unit) →
      Taken s mb 0x1101 [r, 0, 0, 0] →
      (s.tokenAnswer .memtest = .busy → exec (.diagMemtest mb) s = .next (settle s (s.complete mb.val .busy []))) ∧
      (s.tokenAnswer .memtest ≠ .busy → exec (.diagMemtest mb) s = .next (settle s
        ({ (s.requestToken .memtest).2 with host := { (s.requestToken .memtest).2.host with memtest := some r } }.answer mb
          (.wait (.memtest r)))))) ∧
    (Taken s mb 0x1101 pay → pay.length = 4 → regionOf (leNat pay) = none →
      exec (.diagMemtest mb) s = .next (settle s (s.complete mb.val .badField []))) ∧
    (Taken s mb 0x1102 [] →
      (s.tokenAnswer .scrub = .busy → exec (.diagScrubFast mb) s = .next (settle s (s.complete mb.val .busy []))) ∧
      (s.tokenAnswer .scrub ≠ .busy → exec (.diagScrubFast mb) s =
        .next (settle s ((s.requestToken .scrub).2.answer mb (.wait .scrubFast))))) ∧
    (Taken s mb 0x1103 [] →
      (s.tokenAnswer .comparator = .busy → exec (.diagCmpTest mb) s = .next (settle s (s.complete mb.val .busy []))) ∧
      (s.tokenAnswer .comparator ≠ .busy → exec (.diagCmpTest mb) s =
        .next (settle s ((s.requestToken .comparator).2.answer mb (.wait .cmpTest)))))

/-- R439, R440, R444, R99: the token goes to a due comparator test first, else to the oldest waiting request that R344 does not hold
back; a scrub sweep and a region test release it and complete their command. A region test leaves memory as it was, and a bad word is the
device fault SELFTEST with the block of the region, in context 3. MAINTENANCE_TOKEN_GRANT completes with the token held, and
SCRUB_SWEEP_END and REGION_TEST_END with the token free and the command answered, under conditions on the state alone. -/
def Obligations.TokenAndTests : Prop :=
  (∀ (s : State) (a : Activity), s.live = true → s.pw.token.holder = none → s.nm.state ≠ .commit →
    (∀ d, s.cmpDue = some d → s.time.cycle < d) → s.pw.token.queue.find? (fun x => !s.heldBack x) = some a →
    ∃ t, exec .maintenanceTokenGrant s = .next t ∧ t.pw.token.holder = some a ∧ a ∉ t.pw.token.queue ∧
      (∀ x, x ≠ a → (x ∈ t.pw.token.queue ↔ x ∈ s.pw.token.queue)) ∧ (a = .scrub → t.sw.scrubLeft = 393216) ∧ t.mem = s.mem ∧
      t.params = s.params ∧ t.pw.mode = s.pw.mode) ∧
  (∀ (s : State) (mb : Mb), s.live = true → s.pw.token.holder = some .scrub → s.sw.scrubLeft = 0 → s.host.busy = some (mb, .scrubFast) →
    ∃ t, exec .scrubSweepEnd s = .next t ∧ t.pw.token.holder = none ∧ t.pw.token.queue = s.pw.token.queue ∧ t.host.busy = none ∧
      (t.mb mb.val).state = .done ∧ t.rd (respAddr mb.val + 6) 2 = 0 ∧ SameMemBut s t (respAddr mb.val) 8 ∧ t.params = s.params) ∧
  (∀ (s : State) (mb : Mb) (r : Byte), s.live = true → s.pw.token.holder = some .memtest → s.host.memtest = some r →
    s.host.busy = some (mb, .memtest r) →
    ∃ t, exec (.regionTestEnd none) s = .next t ∧ t.pw.token.holder = none ∧ t.host.memtest = none ∧ t.host.busy = none ∧
      (t.mb mb.val).state = .done ∧ t.rd (respAddr mb.val + 6) 2 = 0 ∧ SameMemBut s t (respAddr mb.val) 8 ∧ t.params = s.params) ∧
  (∀ s : State, s.pw.token.holder ≠ some .scrub → exec .scrubSweepEnd s = .next (settle s s)) ∧
  (∀ (s : State) (x : Option (Word × Word × Word)), (s.host.memtest = none ∨ s.pw.token.holder ≠ some .memtest) →
    exec (.regionTestEnd x) s = .next (settle s s)) ∧
  (∀ (s : State) (a : Activity) (rest : List Activity), s.live = true → s.pw.token.holder = none → s.nm.state ≠ .commit →
    s.cmpDue = none → s.pw.token.queue = a :: rest →
    exec .maintenanceTokenGrant s = .next (settle s (s.giveToken a)) ∧ (s.giveToken a).pw.token.holder = some a ∧
      a ∉ (s.giveToken a).pw.token.queue) ∧
  (∀ (s : State) (d : Nat), s.live = true → s.pw.token.holder = none → s.nm.state ≠ .commit → s.cmpDue = some d → d ≤ s.time.cycle →
    ∃ t, exec .maintenanceTokenGrant s = .next t ∧ t.pw.token.holder = some .comparator ∧ t.pw.token.lastCmp = some s.time.cycle ∧
      t.pw.token.queue = s.pw.token.queue ∧ t.ls.testing = true) ∧
  (∀ (s : State) (mb : Mb), s.live = true → s.pw.token.holder = some .scrub → s.sw.scrubLeft = 0 → s.host.busy = some (mb, .scrubFast) →
    exec .scrubSweepEnd s = .next (settle s ((s.releaseToken .scrub).complete mb.val .ok [])) ∧
      (s.releaseToken .scrub).pw.token.holder = none) ∧
  (∀ (s : State) (mb : Mb) (r : Byte), s.live = true → s.pw.token.holder = some .memtest → s.host.memtest = some r →
    s.host.busy = some (mb, .memtest r) →
    exec (.regionTestEnd none) s = .next (settle s
      (({ s with host := { s.host with memtest := none } }.releaseToken .memtest).complete mb.val .ok []))) ∧
  (∀ (s : State) (r : Byte) (base size unit : Nat) (a e o : Word), s.live = true → s.pw.vaon = true → s.pw.inh0 = true →
    s.pw.token.holder = some .memtest → s.host.memtest = some r → regionOf r.toNat = some (base, size, unit) →
    base ≤ a.toNat → a.toNat < base + size →
    ∃ t, exec (.regionTestEnd (some (a, e, o))) s = .next t ∧ t.pw.mode = .failSilent ∧ t.mem = s.mem ∧
      ∃ f, t.pw.fr.last = some f ∧ f.code = 0x0401 ∧ f.unit = BitVec.ofNat 8 unit ∧ f.detail = [a, e, o, 3])
end

