-- ==== Sys2Proof/Laws/Memory.lean ====
section
/-! SUPPORT. Sparse maps and memory: a read after a write, and the canonical form, which every memory operation keeps. -/

namespace Sys2Proof.Machine

variable {β : Type}

/-! Reading what was written. -/

theorem SMap.get_put_same (d v : β) (m : SMap β) (k : Nat) : SMap.get d (SMap.put m k v) k = v := by
  induction m with
  | nil => simp [SMap.put, SMap.get]
  | cons e m ih =>
    obtain ⟨j, w⟩ := e
    simp only [SMap.put]
    split
    · simp [SMap.get]
    · split
      · simp [SMap.get]
      · next h => simp [SMap.get, Ne.symm h, ih]

theorem SMap.get_put_other (d v : β) (m : SMap β) {k i : Nat} (h : i ≠ k) : SMap.get d (SMap.put m k v) i = SMap.get d m i := by
  induction m with
  | nil => simp [SMap.put, SMap.get, Ne.symm h]
  | cons e m ih =>
    obtain ⟨j, w⟩ := e
    simp only [SMap.put]
    split
    · simp [SMap.get, Ne.symm h]
    · split
      · next hk => subst hk; simp [SMap.get, Ne.symm h]
      · simp [SMap.get, ih]

theorem SMap.get_erase_same (m : SMap β) (k : Nat) (x : β) : SMap.get x (SMap.erase m k) k = x := by
  induction m with
  | nil => rfl
  | cons e m ih =>
    obtain ⟨j, w⟩ := e
    simp only [SMap.erase]
    split
    · exact ih
    · next hj => simp only [SMap.get, hj, if_false]; exact ih

theorem SMap.get_erase_other (d : β) (m : SMap β) {k i : Nat} (h : i ≠ k) : SMap.get d (SMap.erase m k) i = SMap.get d m i := by
  induction m with
  | nil => rfl
  | cons e m ih =>
    obtain ⟨j, w⟩ := e
    simp only [SMap.erase]
    split
    · next hj => subst hj; simp [SMap.get, Ne.symm h, ih]
    · simp [SMap.get, ih]

/-- A write is read back. -/
theorem SMap.get_set_same [DecidableEq β] (d : β) (m : SMap β) (k : Nat) (v : β) : SMap.get d (SMap.set d m k v) k = v := by
  unfold SMap.set
  split
  · next hv => rw [SMap.get_erase_same]; exact hv.symm
  · exact SMap.get_put_same _ _ _ _

/-- A write leaves every other key alone. -/
theorem SMap.get_set_other [DecidableEq β] (d e v : β) (m : SMap β) {k i : Nat} (h : i ≠ k) : SMap.get e (SMap.set d m k v) i = SMap.get e m i := by
  unfold SMap.set
  split
  · exact SMap.get_erase_other e m h
  · exact SMap.get_put_other e v m h

/-! The canonical form. -/

theorem SMap.wfAbove_weaken [DecidableEq β] (d : Nat → β) (b : Option Nat) (j : Nat) (m : SMap β)
    (hb : (match b with | none => true | some c => decide (c < j)) = true) (h : SMap.wfAbove d (some j) m = true) :
    SMap.wfAbove d b m = true := by
  cases m with
  | nil => rfl
  | cons e m =>
    obtain ⟨i, w⟩ := e
    simp only [SMap.wfAbove, Bool.and_eq_true, decide_eq_true_eq] at h ⊢
    refine ⟨⟨?_, h.1.2⟩, h.2⟩
    cases b with
    | none => rfl
    | some c => simp only [decide_eq_true_eq] at hb ⊢; omega

theorem SMap.wfAbove_erase [DecidableEq β] (d : Nat → β) (b : Option Nat) (m : SMap β) (k : Nat) (h : SMap.wfAbove d b m = true) :
    SMap.wfAbove d b (SMap.erase m k) = true := by
  induction m generalizing b with
  | nil => rfl
  | cons e m ih =>
    obtain ⟨j, w⟩ := e
    simp only [SMap.wfAbove, Bool.and_eq_true] at h
    simp only [SMap.erase]
    split
    · exact SMap.wfAbove_weaken d b j _ h.1.1 (ih _ h.2)
    · simp only [SMap.wfAbove, Bool.and_eq_true]
      exact ⟨h.1, ih _ h.2⟩

theorem SMap.wfAbove_put [DecidableEq β] (d : Nat → β) (b : Option Nat) (m : SMap β) (k : Nat) (v : β) (hv : v ≠ d k)
    (hb' : (match b with | none => true | some j => decide (j < k)) = true) (h : SMap.wfAbove d b m = true) :
    SMap.wfAbove d b (SMap.put m k v) = true := by
  induction m generalizing b with
  | nil => simp only [SMap.put, SMap.wfAbove, Bool.and_eq_true, decide_eq_true_eq]; exact ⟨⟨hb', hv⟩, trivial⟩
  | cons e m ih =>
    obtain ⟨j, w⟩ := e
    simp only [SMap.wfAbove, Bool.and_eq_true] at h
    simp only [SMap.put]
    split
    · next hk =>
      simp only [SMap.wfAbove, Bool.and_eq_true, decide_eq_true_eq]
      exact ⟨⟨hb', hv⟩, ⟨hk, by simpa using h.1.2⟩, h.2⟩
    · split
      · next hk =>
        subst hk
        simp only [SMap.wfAbove, Bool.and_eq_true, decide_eq_true_eq]
        exact ⟨⟨hb', hv⟩, h.2⟩
      · next h1 h2 =>
        simp only [SMap.wfAbove, Bool.and_eq_true]
        have hjk : j < k := by omega
        exact ⟨h.1, ih (some j) (by simpa using hjk) h.2⟩

/-- A write keeps the canonical form. -/
theorem SMap.wf_set [DecidableEq β] (d : Nat → β) (m : SMap β) (k : Nat) (v : β) (h : SMap.wf d m = true) :
    SMap.wf d (SMap.set (d k) m k v) = true := by
  unfold SMap.set
  split
  · exact SMap.wfAbove_erase d none m k h
  · next hv => exact SMap.wfAbove_put d none m k v hv rfl h

/-- Leaving entries out keeps the canonical form. -/
theorem SMap.wf_filter [DecidableEq β] (d : Nat → β) (m : SMap β) (p : Nat × β → Bool) (h : SMap.wf d m = true) :
    SMap.wf d (List.filter p m) = true := by
  unfold SMap.wf at *
  generalize none = b at h ⊢
  induction m generalizing b with
  | nil => rfl
  | cons e m ih =>
    obtain ⟨j, w⟩ := e
    simp only [SMap.wfAbove, Bool.and_eq_true] at h
    rw [List.filter_cons]
    split
    · simp only [SMap.wfAbove, Bool.and_eq_true]
      exact ⟨h.1, ih _ h.2⟩
    · exact SMap.wfAbove_weaken d b j _ h.1.1 (ih _ h.2)

theorem SMap.wf_dropKeys [DecidableEq β] (d : Nat → β) (m : SMap β) (p : Nat → Bool) (h : SMap.wf d m = true) :
    SMap.wf d (SMap.dropKeys p m) = true := SMap.wf_filter d m _ h

theorem SMap.wf_keepKeys [DecidableEq β] (d : Nat → β) (m : SMap β) (p : Nat → Bool) (h : SMap.wf d m = true) :
    SMap.wf d (SMap.keepKeys p m) = true := SMap.wf_filter d m _ h

theorem SMap.get_filter (m : SMap β) (p : Nat → Bool) (k : Nat) (x : β) :
    SMap.get x (List.filter (fun e => p e.1) m) k = if p k then SMap.get x m k else x := by
  induction m with
  | nil => simp [SMap.get]
  | cons e m ih =>
    obtain ⟨j, w⟩ := e
    rw [List.filter_cons]
    by_cases hj : j = k
    · subst hj
      by_cases hp : p j = true
      · simp [hp, SMap.get]
      · have hq : p j = false := by simpa using hp
        simp only [hq, Bool.false_eq_true, if_false]
        rw [ih, hq]; simp
    · split
      · simp only [SMap.get, hj, if_false]; exact ih
      · simp only [SMap.get, hj, if_false]; exact ih

/-! Memory. -/

/-- A byte written is read back. -/
theorem memGet_memSet_same (m : SMap Byte) (a : Nat) (b : Byte) : memGet (memSet m a b) a = b :=
  SMap.get_set_same (memReset a) m a b

/-- A byte written leaves every other byte alone. -/
theorem memGet_memSet_other (m : SMap Byte) {a i : Nat} (b : Byte) (h : i ≠ a) : memGet (memSet m a b) i = memGet m i :=
  SMap.get_set_other _ _ _ m h

/-- A byte write keeps the canonical form. -/
theorem wf_memSet (m : SMap Byte) (a : Nat) (b : Byte) (h : Memory.wf m = true) : Memory.wf (memSet m a b) = true :=
  SMap.wf_set memReset m a b h

/-- A write of bytes keeps the canonical form. -/
theorem wf_memWrite (m : SMap Byte) (a : Nat) (bs : List Byte) (h : Memory.wf m = true) : Memory.wf (memWrite m a bs) = true := by
  induction bs generalizing m a with
  | nil => exact h
  | cons b bs ih => exact ih _ _ (wf_memSet m a b h)

/-- A write of bytes leaves every byte outside alone. -/
theorem memGet_memWrite_other (m : SMap Byte) (a : Nat) (bs : List Byte) {i : Nat} (h : i < a ∨ a + bs.length ≤ i) :
    memGet (memWrite m a bs) i = memGet m i := by
  induction bs generalizing m a with
  | nil => rfl
  | cons b bs ih =>
    simp only [List.length_cons] at h
    rw [memWrite, ih _ _ (by omega)]
    exact memGet_memSet_other m b (by omega)

/-- A byte inside a write of bytes is read back. -/
theorem memGet_memWrite_same (m : SMap Byte) (a : Nat) (bs : List Byte) {i : Nat} (h : i < bs.length) :
    memGet (memWrite m a bs) (a + i) = bs[i] := by
  induction bs generalizing m a i with
  | nil => exact absurd h (Nat.not_lt_zero _)
  | cons b bs ih =>
    cases i with
    | zero =>
      rw [memWrite]
      simp only [Nat.add_zero, List.getElem_cons_zero]
      rw [memGet_memWrite_other _ _ _ (by omega)]
      exact memGet_memSet_same m a b
    | succ i =>
      rw [memWrite, List.getElem_cons_succ]
      have : a + (i + 1) = a + 1 + i := by omega
      rw [this]
      exact ih _ _ (by simpa using h)

/-- What a write of bytes makes of memory. -/
theorem State.wrB_mem (s : State) (a : Nat) (bs : List Byte) : (s.wrB a bs).mem = memWrite s.mem a bs := by cases s; rfl

theorem State.wrB_wf (s : State) (a : Nat) (bs : List Byte) (h : Memory.wf s.mem = true) : Memory.wf (s.wrB a bs).mem = true :=
  wf_memWrite s.mem a bs h

theorem State.wr_wf (s : State) (a n v : Nat) (h : Memory.wf s.mem = true) : Memory.wf (s.wr a n v).mem = true :=
  wf_memWrite s.mem a _ h

theorem State.clearMem_wf (s : State) (a n : Nat) (h : Memory.wf s.mem = true) : Memory.wf (s.clearMem a n).mem = true :=
  SMap.wf_filter memReset s.mem (fun e => !(a ≤ e.1 && e.1 < a + n)) h

theorem State.wrB_rd8_other (s : State) (a : Nat) (bs : List Byte) {i : Nat} (h : i < a ∨ a + bs.length ≤ i) :
    (s.wrB a bs).rd8 i = s.rd8 i := memGet_memWrite_other s.mem a bs h

theorem State.wrB_rd8_same (s : State) (a : Nat) (bs : List Byte) {i : Nat} (h : i < bs.length) :
    (s.wrB a bs).rd8 (a + i) = bs[i] := memGet_memWrite_same s.mem a bs h

/-- The memory after reset has the canonical form. -/
theorem reset_mem_wf : Memory.wf State.reset.mem = true := rfl

end Sys2Proof.Machine
end

