-- ==== Sys2Proof/Laws/State.lean ====
section
/-! SUPPORT. What each elementary update of the state leaves as it was: one lemma for each update and each group of fields. -/

namespace Sys2Proof.Machine

@[simp] theorem State.wrB_pending (s : State) (a : Nat) (bs : List Byte) : (s.wrB a bs).pending = s.pending := by cases s; rfl
@[simp] theorem State.wrB_pw (s : State) (a : Nat) (bs : List Byte) : (s.wrB a bs).pw = s.pw := by cases s; rfl
@[simp] theorem State.wrB_check (s : State) (a : Nat) (bs : List Byte) : (s.wrB a bs).check = s.check := by cases s; rfl
@[simp] theorem State.wrB_cnt32 (s : State) (a : Nat) (bs : List Byte) : (s.wrB a bs).cnt32 = s.cnt32 := by cases s; rfl
@[simp] theorem State.wrB_cnt64 (s : State) (a : Nat) (bs : List Byte) : (s.wrB a bs).cnt64 = s.cnt64 := by cases s; rfl
@[simp] theorem State.wrB_hiLatch (s : State) (a : Nat) (bs : List Byte) : (s.wrB a bs).hiLatch = s.hiLatch := by cases s; rfl
@[simp] theorem State.wrB_params (s : State) (a : Nat) (bs : List Byte) : (s.wrB a bs).params = s.params := by cases s; rfl
@[simp] theorem State.wrB_fresh (s : State) (a : Nat) (bs : List Byte) : (s.wrB a bs).fresh = s.fresh := by cases s; rfl
@[simp] theorem State.wrB_time (s : State) (a : Nat) (bs : List Byte) : (s.wrB a bs).time = s.time := by cases s; rfl
@[simp] theorem State.wrB_gptp (s : State) (a : Nat) (bs : List Byte) : (s.wrB a bs).gptp = s.gptp := by cases s; rfl
@[simp] theorem State.wrB_angle (s : State) (a : Nat) (bs : List Byte) : (s.wrB a bs).angle = s.angle := by cases s; rfl
@[simp] theorem State.wrB_snap (s : State) (a : Nat) (bs : List Byte) : (s.wrB a bs).snap = s.snap := by cases s; rfl
@[simp] theorem State.wrB_sw (s : State) (a : Nat) (bs : List Byte) : (s.wrB a bs).sw = s.sw := by cases s; rfl
@[simp] theorem State.wrB_fab (s : State) (a : Nat) (bs : List Byte) : (s.wrB a bs).fab = s.fab := by cases s; rfl
@[simp] theorem State.wrB_scr (s : State) (a : Nat) (bs : List Byte) : (s.wrB a bs).scr = s.scr := by cases s; rfl
@[simp] theorem State.wrB_bus (s : State) (a : Nat) (bs : List Byte) : (s.wrB a bs).bus = s.bus := by cases s; rfl
@[simp] theorem State.wrB_host (s : State) (a : Nat) (bs : List Byte) : (s.wrB a bs).host = s.host := by cases s; rfl
@[simp] theorem State.wrB_dw (s : State) (a : Nat) (bs : List Byte) : (s.wrB a bs).dw = s.dw := by cases s; rfl
@[simp] theorem State.wrB_nm (s : State) (a : Nat) (bs : List Byte) : (s.wrB a bs).nm = s.nm := by cases s; rfl
@[simp] theorem State.wrB_snapshot (s : State) (a : Nat) (bs : List Byte) : (s.wrB a bs).snapshot = s.snapshot := by cases s; rfl
@[simp] theorem State.wrB_ls (s : State) (a : Nat) (bs : List Byte) : (s.wrB a bs).ls = s.ls := by cases s; rfl
@[simp] theorem State.wrB_pair (s : State) (a : Nat) (bs : List Byte) : (s.wrB a bs).pair = s.pair := by cases s; rfl
@[simp] theorem State.wrB_sec (s : State) (a : Nat) (bs : List Byte) : (s.wrB a bs).sec = s.sec := by cases s; rfl
@[simp] theorem State.wrB_upd (s : State) (a : Nat) (bs : List Byte) : (s.wrB a bs).upd = s.upd := by cases s; rfl
@[simp] theorem State.wrB_isl (s : State) (a : Nat) (bs : List Byte) : (s.wrB a bs).isl = s.isl := by cases s; rfl
@[simp] theorem State.wrB_jtag (s : State) (a : Nat) (bs : List Byte) : (s.wrB a bs).jtag = s.jtag := by cases s; rfl

@[simp] theorem State.wr_pending (s : State) (a n v : Nat) : (s.wr a n v).pending = s.pending := by cases s; rfl
@[simp] theorem State.wr_pw (s : State) (a n v : Nat) : (s.wr a n v).pw = s.pw := by cases s; rfl
@[simp] theorem State.wr_check (s : State) (a n v : Nat) : (s.wr a n v).check = s.check := by cases s; rfl
@[simp] theorem State.wr_cnt32 (s : State) (a n v : Nat) : (s.wr a n v).cnt32 = s.cnt32 := by cases s; rfl
@[simp] theorem State.wr_cnt64 (s : State) (a n v : Nat) : (s.wr a n v).cnt64 = s.cnt64 := by cases s; rfl
@[simp] theorem State.wr_hiLatch (s : State) (a n v : Nat) : (s.wr a n v).hiLatch = s.hiLatch := by cases s; rfl
@[simp] theorem State.wr_params (s : State) (a n v : Nat) : (s.wr a n v).params = s.params := by cases s; rfl
@[simp] theorem State.wr_fresh (s : State) (a n v : Nat) : (s.wr a n v).fresh = s.fresh := by cases s; rfl
@[simp] theorem State.wr_time (s : State) (a n v : Nat) : (s.wr a n v).time = s.time := by cases s; rfl
@[simp] theorem State.wr_gptp (s : State) (a n v : Nat) : (s.wr a n v).gptp = s.gptp := by cases s; rfl
@[simp] theorem State.wr_angle (s : State) (a n v : Nat) : (s.wr a n v).angle = s.angle := by cases s; rfl
@[simp] theorem State.wr_snap (s : State) (a n v : Nat) : (s.wr a n v).snap = s.snap := by cases s; rfl
@[simp] theorem State.wr_sw (s : State) (a n v : Nat) : (s.wr a n v).sw = s.sw := by cases s; rfl
@[simp] theorem State.wr_fab (s : State) (a n v : Nat) : (s.wr a n v).fab = s.fab := by cases s; rfl
@[simp] theorem State.wr_scr (s : State) (a n v : Nat) : (s.wr a n v).scr = s.scr := by cases s; rfl
@[simp] theorem State.wr_bus (s : State) (a n v : Nat) : (s.wr a n v).bus = s.bus := by cases s; rfl
@[simp] theorem State.wr_host (s : State) (a n v : Nat) : (s.wr a n v).host = s.host := by cases s; rfl
@[simp] theorem State.wr_dw (s : State) (a n v : Nat) : (s.wr a n v).dw = s.dw := by cases s; rfl
@[simp] theorem State.wr_nm (s : State) (a n v : Nat) : (s.wr a n v).nm = s.nm := by cases s; rfl
@[simp] theorem State.wr_snapshot (s : State) (a n v : Nat) : (s.wr a n v).snapshot = s.snapshot := by cases s; rfl
@[simp] theorem State.wr_ls (s : State) (a n v : Nat) : (s.wr a n v).ls = s.ls := by cases s; rfl
@[simp] theorem State.wr_pair (s : State) (a n v : Nat) : (s.wr a n v).pair = s.pair := by cases s; rfl
@[simp] theorem State.wr_sec (s : State) (a n v : Nat) : (s.wr a n v).sec = s.sec := by cases s; rfl
@[simp] theorem State.wr_upd (s : State) (a n v : Nat) : (s.wr a n v).upd = s.upd := by cases s; rfl
@[simp] theorem State.wr_isl (s : State) (a n v : Nat) : (s.wr a n v).isl = s.isl := by cases s; rfl
@[simp] theorem State.wr_jtag (s : State) (a n v : Nat) : (s.wr a n v).jtag = s.jtag := by cases s; rfl

@[simp] theorem State.clearMem_pending (s : State) (a n : Nat) : (s.clearMem a n).pending = s.pending := by cases s; rfl
@[simp] theorem State.clearMem_pw (s : State) (a n : Nat) : (s.clearMem a n).pw = s.pw := by cases s; rfl
@[simp] theorem State.clearMem_check (s : State) (a n : Nat) : (s.clearMem a n).check = s.check := by cases s; rfl
@[simp] theorem State.clearMem_cnt32 (s : State) (a n : Nat) : (s.clearMem a n).cnt32 = s.cnt32 := by cases s; rfl
@[simp] theorem State.clearMem_cnt64 (s : State) (a n : Nat) : (s.clearMem a n).cnt64 = s.cnt64 := by cases s; rfl
@[simp] theorem State.clearMem_hiLatch (s : State) (a n : Nat) : (s.clearMem a n).hiLatch = s.hiLatch := by cases s; rfl
@[simp] theorem State.clearMem_params (s : State) (a n : Nat) : (s.clearMem a n).params = s.params := by cases s; rfl
@[simp] theorem State.clearMem_fresh (s : State) (a n : Nat) : (s.clearMem a n).fresh = s.fresh := by cases s; rfl
@[simp] theorem State.clearMem_time (s : State) (a n : Nat) : (s.clearMem a n).time = s.time := by cases s; rfl
@[simp] theorem State.clearMem_gptp (s : State) (a n : Nat) : (s.clearMem a n).gptp = s.gptp := by cases s; rfl
@[simp] theorem State.clearMem_angle (s : State) (a n : Nat) : (s.clearMem a n).angle = s.angle := by cases s; rfl
@[simp] theorem State.clearMem_snap (s : State) (a n : Nat) : (s.clearMem a n).snap = s.snap := by cases s; rfl
@[simp] theorem State.clearMem_sw (s : State) (a n : Nat) : (s.clearMem a n).sw = s.sw := by cases s; rfl
@[simp] theorem State.clearMem_fab (s : State) (a n : Nat) : (s.clearMem a n).fab = s.fab := by cases s; rfl
@[simp] theorem State.clearMem_scr (s : State) (a n : Nat) : (s.clearMem a n).scr = s.scr := by cases s; rfl
@[simp] theorem State.clearMem_bus (s : State) (a n : Nat) : (s.clearMem a n).bus = s.bus := by cases s; rfl
@[simp] theorem State.clearMem_host (s : State) (a n : Nat) : (s.clearMem a n).host = s.host := by cases s; rfl
@[simp] theorem State.clearMem_dw (s : State) (a n : Nat) : (s.clearMem a n).dw = s.dw := by cases s; rfl
@[simp] theorem State.clearMem_nm (s : State) (a n : Nat) : (s.clearMem a n).nm = s.nm := by cases s; rfl
@[simp] theorem State.clearMem_snapshot (s : State) (a n : Nat) : (s.clearMem a n).snapshot = s.snapshot := by cases s; rfl
@[simp] theorem State.clearMem_ls (s : State) (a n : Nat) : (s.clearMem a n).ls = s.ls := by cases s; rfl
@[simp] theorem State.clearMem_pair (s : State) (a n : Nat) : (s.clearMem a n).pair = s.pair := by cases s; rfl
@[simp] theorem State.clearMem_sec (s : State) (a n : Nat) : (s.clearMem a n).sec = s.sec := by cases s; rfl
@[simp] theorem State.clearMem_upd (s : State) (a n : Nat) : (s.clearMem a n).upd = s.upd := by cases s; rfl
@[simp] theorem State.clearMem_isl (s : State) (a n : Nat) : (s.clearMem a n).isl = s.isl := by cases s; rfl
@[simp] theorem State.clearMem_jtag (s : State) (a n : Nat) : (s.clearMem a n).jtag = s.jtag := by cases s; rfl

@[simp] theorem State.setC32_pending (s : State) (a : Nat) (v : Word) : (s.setC32 a v).pending = s.pending := by cases s; rfl
@[simp] theorem State.setC32_pw (s : State) (a : Nat) (v : Word) : (s.setC32 a v).pw = s.pw := by cases s; rfl
@[simp] theorem State.setC32_mem (s : State) (a : Nat) (v : Word) : (s.setC32 a v).mem = s.mem := by cases s; rfl
@[simp] theorem State.setC32_check (s : State) (a : Nat) (v : Word) : (s.setC32 a v).check = s.check := by cases s; rfl
@[simp] theorem State.setC32_cnt64 (s : State) (a : Nat) (v : Word) : (s.setC32 a v).cnt64 = s.cnt64 := by cases s; rfl
@[simp] theorem State.setC32_hiLatch (s : State) (a : Nat) (v : Word) : (s.setC32 a v).hiLatch = s.hiLatch := by cases s; rfl
@[simp] theorem State.setC32_params (s : State) (a : Nat) (v : Word) : (s.setC32 a v).params = s.params := by cases s; rfl
@[simp] theorem State.setC32_fresh (s : State) (a : Nat) (v : Word) : (s.setC32 a v).fresh = s.fresh := by cases s; rfl
@[simp] theorem State.setC32_time (s : State) (a : Nat) (v : Word) : (s.setC32 a v).time = s.time := by cases s; rfl
@[simp] theorem State.setC32_gptp (s : State) (a : Nat) (v : Word) : (s.setC32 a v).gptp = s.gptp := by cases s; rfl
@[simp] theorem State.setC32_angle (s : State) (a : Nat) (v : Word) : (s.setC32 a v).angle = s.angle := by cases s; rfl
@[simp] theorem State.setC32_snap (s : State) (a : Nat) (v : Word) : (s.setC32 a v).snap = s.snap := by cases s; rfl
@[simp] theorem State.setC32_sw (s : State) (a : Nat) (v : Word) : (s.setC32 a v).sw = s.sw := by cases s; rfl
@[simp] theorem State.setC32_fab (s : State) (a : Nat) (v : Word) : (s.setC32 a v).fab = s.fab := by cases s; rfl
@[simp] theorem State.setC32_scr (s : State) (a : Nat) (v : Word) : (s.setC32 a v).scr = s.scr := by cases s; rfl
@[simp] theorem State.setC32_bus (s : State) (a : Nat) (v : Word) : (s.setC32 a v).bus = s.bus := by cases s; rfl
@[simp] theorem State.setC32_host (s : State) (a : Nat) (v : Word) : (s.setC32 a v).host = s.host := by cases s; rfl
@[simp] theorem State.setC32_dw (s : State) (a : Nat) (v : Word) : (s.setC32 a v).dw = s.dw := by cases s; rfl
@[simp] theorem State.setC32_nm (s : State) (a : Nat) (v : Word) : (s.setC32 a v).nm = s.nm := by cases s; rfl
@[simp] theorem State.setC32_snapshot (s : State) (a : Nat) (v : Word) : (s.setC32 a v).snapshot = s.snapshot := by cases s; rfl
@[simp] theorem State.setC32_ls (s : State) (a : Nat) (v : Word) : (s.setC32 a v).ls = s.ls := by cases s; rfl
@[simp] theorem State.setC32_pair (s : State) (a : Nat) (v : Word) : (s.setC32 a v).pair = s.pair := by cases s; rfl
@[simp] theorem State.setC32_sec (s : State) (a : Nat) (v : Word) : (s.setC32 a v).sec = s.sec := by cases s; rfl
@[simp] theorem State.setC32_upd (s : State) (a : Nat) (v : Word) : (s.setC32 a v).upd = s.upd := by cases s; rfl
@[simp] theorem State.setC32_isl (s : State) (a : Nat) (v : Word) : (s.setC32 a v).isl = s.isl := by cases s; rfl
@[simp] theorem State.setC32_jtag (s : State) (a : Nat) (v : Word) : (s.setC32 a v).jtag = s.jtag := by cases s; rfl

@[simp] theorem State.bump_pending (s : State) (a : Nat) : (s.bump a).pending = s.pending := by cases s; rfl
@[simp] theorem State.bump_pw (s : State) (a : Nat) : (s.bump a).pw = s.pw := by cases s; rfl
@[simp] theorem State.bump_mem (s : State) (a : Nat) : (s.bump a).mem = s.mem := by cases s; rfl
@[simp] theorem State.bump_check (s : State) (a : Nat) : (s.bump a).check = s.check := by cases s; rfl
@[simp] theorem State.bump_cnt64 (s : State) (a : Nat) : (s.bump a).cnt64 = s.cnt64 := by cases s; rfl
@[simp] theorem State.bump_hiLatch (s : State) (a : Nat) : (s.bump a).hiLatch = s.hiLatch := by cases s; rfl
@[simp] theorem State.bump_params (s : State) (a : Nat) : (s.bump a).params = s.params := by cases s; rfl
@[simp] theorem State.bump_fresh (s : State) (a : Nat) : (s.bump a).fresh = s.fresh := by cases s; rfl
@[simp] theorem State.bump_time (s : State) (a : Nat) : (s.bump a).time = s.time := by cases s; rfl
@[simp] theorem State.bump_gptp (s : State) (a : Nat) : (s.bump a).gptp = s.gptp := by cases s; rfl
@[simp] theorem State.bump_angle (s : State) (a : Nat) : (s.bump a).angle = s.angle := by cases s; rfl
@[simp] theorem State.bump_snap (s : State) (a : Nat) : (s.bump a).snap = s.snap := by cases s; rfl
@[simp] theorem State.bump_sw (s : State) (a : Nat) : (s.bump a).sw = s.sw := by cases s; rfl
@[simp] theorem State.bump_fab (s : State) (a : Nat) : (s.bump a).fab = s.fab := by cases s; rfl
@[simp] theorem State.bump_scr (s : State) (a : Nat) : (s.bump a).scr = s.scr := by cases s; rfl
@[simp] theorem State.bump_bus (s : State) (a : Nat) : (s.bump a).bus = s.bus := by cases s; rfl
@[simp] theorem State.bump_host (s : State) (a : Nat) : (s.bump a).host = s.host := by cases s; rfl
@[simp] theorem State.bump_dw (s : State) (a : Nat) : (s.bump a).dw = s.dw := by cases s; rfl
@[simp] theorem State.bump_nm (s : State) (a : Nat) : (s.bump a).nm = s.nm := by cases s; rfl
@[simp] theorem State.bump_snapshot (s : State) (a : Nat) : (s.bump a).snapshot = s.snapshot := by cases s; rfl
@[simp] theorem State.bump_ls (s : State) (a : Nat) : (s.bump a).ls = s.ls := by cases s; rfl
@[simp] theorem State.bump_pair (s : State) (a : Nat) : (s.bump a).pair = s.pair := by cases s; rfl
@[simp] theorem State.bump_sec (s : State) (a : Nat) : (s.bump a).sec = s.sec := by cases s; rfl
@[simp] theorem State.bump_upd (s : State) (a : Nat) : (s.bump a).upd = s.upd := by cases s; rfl
@[simp] theorem State.bump_isl (s : State) (a : Nat) : (s.bump a).isl = s.isl := by cases s; rfl
@[simp] theorem State.bump_jtag (s : State) (a : Nat) : (s.bump a).jtag = s.jtag := by cases s; rfl

@[simp] theorem State.bumpBy_pending (s : State) (a n : Nat) : (s.bumpBy a n).pending = s.pending := by cases s; rfl
@[simp] theorem State.bumpBy_pw (s : State) (a n : Nat) : (s.bumpBy a n).pw = s.pw := by cases s; rfl
@[simp] theorem State.bumpBy_mem (s : State) (a n : Nat) : (s.bumpBy a n).mem = s.mem := by cases s; rfl
@[simp] theorem State.bumpBy_check (s : State) (a n : Nat) : (s.bumpBy a n).check = s.check := by cases s; rfl
@[simp] theorem State.bumpBy_cnt64 (s : State) (a n : Nat) : (s.bumpBy a n).cnt64 = s.cnt64 := by cases s; rfl
@[simp] theorem State.bumpBy_hiLatch (s : State) (a n : Nat) : (s.bumpBy a n).hiLatch = s.hiLatch := by cases s; rfl
@[simp] theorem State.bumpBy_params (s : State) (a n : Nat) : (s.bumpBy a n).params = s.params := by cases s; rfl
@[simp] theorem State.bumpBy_fresh (s : State) (a n : Nat) : (s.bumpBy a n).fresh = s.fresh := by cases s; rfl
@[simp] theorem State.bumpBy_time (s : State) (a n : Nat) : (s.bumpBy a n).time = s.time := by cases s; rfl
@[simp] theorem State.bumpBy_gptp (s : State) (a n : Nat) : (s.bumpBy a n).gptp = s.gptp := by cases s; rfl
@[simp] theorem State.bumpBy_angle (s : State) (a n : Nat) : (s.bumpBy a n).angle = s.angle := by cases s; rfl
@[simp] theorem State.bumpBy_snap (s : State) (a n : Nat) : (s.bumpBy a n).snap = s.snap := by cases s; rfl
@[simp] theorem State.bumpBy_sw (s : State) (a n : Nat) : (s.bumpBy a n).sw = s.sw := by cases s; rfl
@[simp] theorem State.bumpBy_fab (s : State) (a n : Nat) : (s.bumpBy a n).fab = s.fab := by cases s; rfl
@[simp] theorem State.bumpBy_scr (s : State) (a n : Nat) : (s.bumpBy a n).scr = s.scr := by cases s; rfl
@[simp] theorem State.bumpBy_bus (s : State) (a n : Nat) : (s.bumpBy a n).bus = s.bus := by cases s; rfl
@[simp] theorem State.bumpBy_host (s : State) (a n : Nat) : (s.bumpBy a n).host = s.host := by cases s; rfl
@[simp] theorem State.bumpBy_dw (s : State) (a n : Nat) : (s.bumpBy a n).dw = s.dw := by cases s; rfl
@[simp] theorem State.bumpBy_nm (s : State) (a n : Nat) : (s.bumpBy a n).nm = s.nm := by cases s; rfl
@[simp] theorem State.bumpBy_snapshot (s : State) (a n : Nat) : (s.bumpBy a n).snapshot = s.snapshot := by cases s; rfl
@[simp] theorem State.bumpBy_ls (s : State) (a n : Nat) : (s.bumpBy a n).ls = s.ls := by cases s; rfl
@[simp] theorem State.bumpBy_pair (s : State) (a n : Nat) : (s.bumpBy a n).pair = s.pair := by cases s; rfl
@[simp] theorem State.bumpBy_sec (s : State) (a n : Nat) : (s.bumpBy a n).sec = s.sec := by cases s; rfl
@[simp] theorem State.bumpBy_upd (s : State) (a n : Nat) : (s.bumpBy a n).upd = s.upd := by cases s; rfl
@[simp] theorem State.bumpBy_isl (s : State) (a n : Nat) : (s.bumpBy a n).isl = s.isl := by cases s; rfl
@[simp] theorem State.bumpBy_jtag (s : State) (a n : Nat) : (s.bumpBy a n).jtag = s.jtag := by cases s; rfl

@[simp] theorem State.peak_pending (s : State) (a v : Nat) : (s.peak a v).pending = s.pending := by cases s; rfl
@[simp] theorem State.peak_pw (s : State) (a v : Nat) : (s.peak a v).pw = s.pw := by cases s; rfl
@[simp] theorem State.peak_mem (s : State) (a v : Nat) : (s.peak a v).mem = s.mem := by cases s; rfl
@[simp] theorem State.peak_check (s : State) (a v : Nat) : (s.peak a v).check = s.check := by cases s; rfl
@[simp] theorem State.peak_cnt64 (s : State) (a v : Nat) : (s.peak a v).cnt64 = s.cnt64 := by cases s; rfl
@[simp] theorem State.peak_hiLatch (s : State) (a v : Nat) : (s.peak a v).hiLatch = s.hiLatch := by cases s; rfl
@[simp] theorem State.peak_params (s : State) (a v : Nat) : (s.peak a v).params = s.params := by cases s; rfl
@[simp] theorem State.peak_fresh (s : State) (a v : Nat) : (s.peak a v).fresh = s.fresh := by cases s; rfl
@[simp] theorem State.peak_time (s : State) (a v : Nat) : (s.peak a v).time = s.time := by cases s; rfl
@[simp] theorem State.peak_gptp (s : State) (a v : Nat) : (s.peak a v).gptp = s.gptp := by cases s; rfl
@[simp] theorem State.peak_angle (s : State) (a v : Nat) : (s.peak a v).angle = s.angle := by cases s; rfl
@[simp] theorem State.peak_snap (s : State) (a v : Nat) : (s.peak a v).snap = s.snap := by cases s; rfl
@[simp] theorem State.peak_sw (s : State) (a v : Nat) : (s.peak a v).sw = s.sw := by cases s; rfl
@[simp] theorem State.peak_fab (s : State) (a v : Nat) : (s.peak a v).fab = s.fab := by cases s; rfl
@[simp] theorem State.peak_scr (s : State) (a v : Nat) : (s.peak a v).scr = s.scr := by cases s; rfl
@[simp] theorem State.peak_bus (s : State) (a v : Nat) : (s.peak a v).bus = s.bus := by cases s; rfl
@[simp] theorem State.peak_host (s : State) (a v : Nat) : (s.peak a v).host = s.host := by cases s; rfl
@[simp] theorem State.peak_dw (s : State) (a v : Nat) : (s.peak a v).dw = s.dw := by cases s; rfl
@[simp] theorem State.peak_nm (s : State) (a v : Nat) : (s.peak a v).nm = s.nm := by cases s; rfl
@[simp] theorem State.peak_snapshot (s : State) (a v : Nat) : (s.peak a v).snapshot = s.snapshot := by cases s; rfl
@[simp] theorem State.peak_ls (s : State) (a v : Nat) : (s.peak a v).ls = s.ls := by cases s; rfl
@[simp] theorem State.peak_pair (s : State) (a v : Nat) : (s.peak a v).pair = s.pair := by cases s; rfl
@[simp] theorem State.peak_sec (s : State) (a v : Nat) : (s.peak a v).sec = s.sec := by cases s; rfl
@[simp] theorem State.peak_upd (s : State) (a v : Nat) : (s.peak a v).upd = s.upd := by cases s; rfl
@[simp] theorem State.peak_isl (s : State) (a v : Nat) : (s.peak a v).isl = s.isl := by cases s; rfl
@[simp] theorem State.peak_jtag (s : State) (a v : Nat) : (s.peak a v).jtag = s.jtag := by cases s; rfl

@[simp] theorem State.add64_pending (s : State) (a n : Nat) : (s.add64 a n).pending = s.pending := by cases s; rfl
@[simp] theorem State.add64_pw (s : State) (a n : Nat) : (s.add64 a n).pw = s.pw := by cases s; rfl
@[simp] theorem State.add64_mem (s : State) (a n : Nat) : (s.add64 a n).mem = s.mem := by cases s; rfl
@[simp] theorem State.add64_check (s : State) (a n : Nat) : (s.add64 a n).check = s.check := by cases s; rfl
@[simp] theorem State.add64_cnt32 (s : State) (a n : Nat) : (s.add64 a n).cnt32 = s.cnt32 := by cases s; rfl
@[simp] theorem State.add64_hiLatch (s : State) (a n : Nat) : (s.add64 a n).hiLatch = s.hiLatch := by cases s; rfl
@[simp] theorem State.add64_params (s : State) (a n : Nat) : (s.add64 a n).params = s.params := by cases s; rfl
@[simp] theorem State.add64_fresh (s : State) (a n : Nat) : (s.add64 a n).fresh = s.fresh := by cases s; rfl
@[simp] theorem State.add64_time (s : State) (a n : Nat) : (s.add64 a n).time = s.time := by cases s; rfl
@[simp] theorem State.add64_gptp (s : State) (a n : Nat) : (s.add64 a n).gptp = s.gptp := by cases s; rfl
@[simp] theorem State.add64_angle (s : State) (a n : Nat) : (s.add64 a n).angle = s.angle := by cases s; rfl
@[simp] theorem State.add64_snap (s : State) (a n : Nat) : (s.add64 a n).snap = s.snap := by cases s; rfl
@[simp] theorem State.add64_sw (s : State) (a n : Nat) : (s.add64 a n).sw = s.sw := by cases s; rfl
@[simp] theorem State.add64_fab (s : State) (a n : Nat) : (s.add64 a n).fab = s.fab := by cases s; rfl
@[simp] theorem State.add64_scr (s : State) (a n : Nat) : (s.add64 a n).scr = s.scr := by cases s; rfl
@[simp] theorem State.add64_bus (s : State) (a n : Nat) : (s.add64 a n).bus = s.bus := by cases s; rfl
@[simp] theorem State.add64_host (s : State) (a n : Nat) : (s.add64 a n).host = s.host := by cases s; rfl
@[simp] theorem State.add64_dw (s : State) (a n : Nat) : (s.add64 a n).dw = s.dw := by cases s; rfl
@[simp] theorem State.add64_nm (s : State) (a n : Nat) : (s.add64 a n).nm = s.nm := by cases s; rfl
@[simp] theorem State.add64_snapshot (s : State) (a n : Nat) : (s.add64 a n).snapshot = s.snapshot := by cases s; rfl
@[simp] theorem State.add64_ls (s : State) (a n : Nat) : (s.add64 a n).ls = s.ls := by cases s; rfl
@[simp] theorem State.add64_pair (s : State) (a n : Nat) : (s.add64 a n).pair = s.pair := by cases s; rfl
@[simp] theorem State.add64_sec (s : State) (a n : Nat) : (s.add64 a n).sec = s.sec := by cases s; rfl
@[simp] theorem State.add64_upd (s : State) (a n : Nat) : (s.add64 a n).upd = s.upd := by cases s; rfl
@[simp] theorem State.add64_isl (s : State) (a n : Nat) : (s.add64 a n).isl = s.isl := by cases s; rfl
@[simp] theorem State.add64_jtag (s : State) (a n : Nat) : (s.add64 a n).jtag = s.jtag := by cases s; rfl

@[simp] theorem State.portErr_pending (s : State) (p off : Nat) : (s.portErr p off).pending = s.pending := by cases s; rfl
@[simp] theorem State.portErr_pw (s : State) (p off : Nat) : (s.portErr p off).pw = s.pw := by cases s; rfl
@[simp] theorem State.portErr_mem (s : State) (p off : Nat) : (s.portErr p off).mem = s.mem := by cases s; rfl
@[simp] theorem State.portErr_check (s : State) (p off : Nat) : (s.portErr p off).check = s.check := by cases s; rfl
@[simp] theorem State.portErr_cnt64 (s : State) (p off : Nat) : (s.portErr p off).cnt64 = s.cnt64 := by cases s; rfl
@[simp] theorem State.portErr_hiLatch (s : State) (p off : Nat) : (s.portErr p off).hiLatch = s.hiLatch := by cases s; rfl
@[simp] theorem State.portErr_params (s : State) (p off : Nat) : (s.portErr p off).params = s.params := by cases s; rfl
@[simp] theorem State.portErr_fresh (s : State) (p off : Nat) : (s.portErr p off).fresh = s.fresh := by cases s; rfl
@[simp] theorem State.portErr_time (s : State) (p off : Nat) : (s.portErr p off).time = s.time := by cases s; rfl
@[simp] theorem State.portErr_gptp (s : State) (p off : Nat) : (s.portErr p off).gptp = s.gptp := by cases s; rfl
@[simp] theorem State.portErr_angle (s : State) (p off : Nat) : (s.portErr p off).angle = s.angle := by cases s; rfl
@[simp] theorem State.portErr_snap (s : State) (p off : Nat) : (s.portErr p off).snap = s.snap := by cases s; rfl
@[simp] theorem State.portErr_sw (s : State) (p off : Nat) : (s.portErr p off).sw = s.sw := by cases s; rfl
@[simp] theorem State.portErr_fab (s : State) (p off : Nat) : (s.portErr p off).fab = s.fab := by cases s; rfl
@[simp] theorem State.portErr_scr (s : State) (p off : Nat) : (s.portErr p off).scr = s.scr := by cases s; rfl
@[simp] theorem State.portErr_bus (s : State) (p off : Nat) : (s.portErr p off).bus = s.bus := by cases s; rfl
@[simp] theorem State.portErr_host (s : State) (p off : Nat) : (s.portErr p off).host = s.host := by cases s; rfl
@[simp] theorem State.portErr_nm (s : State) (p off : Nat) : (s.portErr p off).nm = s.nm := by cases s; rfl
@[simp] theorem State.portErr_snapshot (s : State) (p off : Nat) : (s.portErr p off).snapshot = s.snapshot := by cases s; rfl
@[simp] theorem State.portErr_ls (s : State) (p off : Nat) : (s.portErr p off).ls = s.ls := by cases s; rfl
@[simp] theorem State.portErr_pair (s : State) (p off : Nat) : (s.portErr p off).pair = s.pair := by cases s; rfl
@[simp] theorem State.portErr_sec (s : State) (p off : Nat) : (s.portErr p off).sec = s.sec := by cases s; rfl
@[simp] theorem State.portErr_upd (s : State) (p off : Nat) : (s.portErr p off).upd = s.upd := by cases s; rfl
@[simp] theorem State.portErr_isl (s : State) (p off : Nat) : (s.portErr p off).isl = s.isl := by cases s; rfl
@[simp] theorem State.portErr_jtag (s : State) (p off : Nat) : (s.portErr p off).jtag = s.jtag := by cases s; rfl

@[simp] theorem State.gateErr_pending (s : State) (p off : Nat) : (s.gateErr p off).pending = s.pending := by cases s; rfl
@[simp] theorem State.gateErr_pw (s : State) (p off : Nat) : (s.gateErr p off).pw = s.pw := by cases s; rfl
@[simp] theorem State.gateErr_mem (s : State) (p off : Nat) : (s.gateErr p off).mem = s.mem := by cases s; rfl
@[simp] theorem State.gateErr_check (s : State) (p off : Nat) : (s.gateErr p off).check = s.check := by cases s; rfl
@[simp] theorem State.gateErr_cnt64 (s : State) (p off : Nat) : (s.gateErr p off).cnt64 = s.cnt64 := by cases s; rfl
@[simp] theorem State.gateErr_hiLatch (s : State) (p off : Nat) : (s.gateErr p off).hiLatch = s.hiLatch := by cases s; rfl
@[simp] theorem State.gateErr_params (s : State) (p off : Nat) : (s.gateErr p off).params = s.params := by cases s; rfl
@[simp] theorem State.gateErr_fresh (s : State) (p off : Nat) : (s.gateErr p off).fresh = s.fresh := by cases s; rfl
@[simp] theorem State.gateErr_time (s : State) (p off : Nat) : (s.gateErr p off).time = s.time := by cases s; rfl
@[simp] theorem State.gateErr_gptp (s : State) (p off : Nat) : (s.gateErr p off).gptp = s.gptp := by cases s; rfl
@[simp] theorem State.gateErr_angle (s : State) (p off : Nat) : (s.gateErr p off).angle = s.angle := by cases s; rfl
@[simp] theorem State.gateErr_snap (s : State) (p off : Nat) : (s.gateErr p off).snap = s.snap := by cases s; rfl
@[simp] theorem State.gateErr_sw (s : State) (p off : Nat) : (s.gateErr p off).sw = s.sw := by cases s; rfl
@[simp] theorem State.gateErr_fab (s : State) (p off : Nat) : (s.gateErr p off).fab = s.fab := by cases s; rfl
@[simp] theorem State.gateErr_scr (s : State) (p off : Nat) : (s.gateErr p off).scr = s.scr := by cases s; rfl
@[simp] theorem State.gateErr_bus (s : State) (p off : Nat) : (s.gateErr p off).bus = s.bus := by cases s; rfl
@[simp] theorem State.gateErr_host (s : State) (p off : Nat) : (s.gateErr p off).host = s.host := by cases s; rfl
@[simp] theorem State.gateErr_nm (s : State) (p off : Nat) : (s.gateErr p off).nm = s.nm := by cases s; rfl
@[simp] theorem State.gateErr_snapshot (s : State) (p off : Nat) : (s.gateErr p off).snapshot = s.snapshot := by cases s; rfl
@[simp] theorem State.gateErr_ls (s : State) (p off : Nat) : (s.gateErr p off).ls = s.ls := by cases s; rfl
@[simp] theorem State.gateErr_pair (s : State) (p off : Nat) : (s.gateErr p off).pair = s.pair := by cases s; rfl
@[simp] theorem State.gateErr_sec (s : State) (p off : Nat) : (s.gateErr p off).sec = s.sec := by cases s; rfl
@[simp] theorem State.gateErr_upd (s : State) (p off : Nat) : (s.gateErr p off).upd = s.upd := by cases s; rfl
@[simp] theorem State.gateErr_isl (s : State) (p off : Nat) : (s.gateErr p off).isl = s.isl := by cases s; rfl
@[simp] theorem State.gateErr_jtag (s : State) (p off : Nat) : (s.gateErr p off).jtag = s.jtag := by cases s; rfl

@[simp] theorem State.irq_pending (s : State) (i : Nat) : (s.irq i).pending = s.pending := by cases s; rfl
@[simp] theorem State.irq_pw (s : State) (i : Nat) : (s.irq i).pw = s.pw := by cases s; rfl
@[simp] theorem State.irq_mem (s : State) (i : Nat) : (s.irq i).mem = s.mem := by cases s; rfl
@[simp] theorem State.irq_check (s : State) (i : Nat) : (s.irq i).check = s.check := by cases s; rfl
@[simp] theorem State.irq_cnt32 (s : State) (i : Nat) : (s.irq i).cnt32 = s.cnt32 := by cases s; rfl
@[simp] theorem State.irq_cnt64 (s : State) (i : Nat) : (s.irq i).cnt64 = s.cnt64 := by cases s; rfl
@[simp] theorem State.irq_hiLatch (s : State) (i : Nat) : (s.irq i).hiLatch = s.hiLatch := by cases s; rfl
@[simp] theorem State.irq_params (s : State) (i : Nat) : (s.irq i).params = s.params := by cases s; rfl
@[simp] theorem State.irq_fresh (s : State) (i : Nat) : (s.irq i).fresh = s.fresh := by cases s; rfl
@[simp] theorem State.irq_time (s : State) (i : Nat) : (s.irq i).time = s.time := by cases s; rfl
@[simp] theorem State.irq_gptp (s : State) (i : Nat) : (s.irq i).gptp = s.gptp := by cases s; rfl
@[simp] theorem State.irq_angle (s : State) (i : Nat) : (s.irq i).angle = s.angle := by cases s; rfl
@[simp] theorem State.irq_snap (s : State) (i : Nat) : (s.irq i).snap = s.snap := by cases s; rfl
@[simp] theorem State.irq_sw (s : State) (i : Nat) : (s.irq i).sw = s.sw := by cases s; rfl
@[simp] theorem State.irq_fab (s : State) (i : Nat) : (s.irq i).fab = s.fab := by cases s; rfl
@[simp] theorem State.irq_scr (s : State) (i : Nat) : (s.irq i).scr = s.scr := by cases s; rfl
@[simp] theorem State.irq_bus (s : State) (i : Nat) : (s.irq i).bus = s.bus := by cases s; rfl
@[simp] theorem State.irq_host (s : State) (i : Nat) : (s.irq i).host = s.host := by cases s; rfl
@[simp] theorem State.irq_nm (s : State) (i : Nat) : (s.irq i).nm = s.nm := by cases s; rfl
@[simp] theorem State.irq_snapshot (s : State) (i : Nat) : (s.irq i).snapshot = s.snapshot := by cases s; rfl
@[simp] theorem State.irq_ls (s : State) (i : Nat) : (s.irq i).ls = s.ls := by cases s; rfl
@[simp] theorem State.irq_pair (s : State) (i : Nat) : (s.irq i).pair = s.pair := by cases s; rfl
@[simp] theorem State.irq_sec (s : State) (i : Nat) : (s.irq i).sec = s.sec := by cases s; rfl
@[simp] theorem State.irq_upd (s : State) (i : Nat) : (s.irq i).upd = s.upd := by cases s; rfl
@[simp] theorem State.irq_isl (s : State) (i : Nat) : (s.irq i).isl = s.isl := by cases s; rfl
@[simp] theorem State.irq_jtag (s : State) (i : Nat) : (s.irq i).jtag = s.jtag := by cases s; rfl

@[simp] theorem State.fwEvent_pending (s : State) (i : Nat) : (s.fwEvent i).pending = s.pending := by cases s; rfl
@[simp] theorem State.fwEvent_pw (s : State) (i : Nat) : (s.fwEvent i).pw = s.pw := by cases s; rfl
@[simp] theorem State.fwEvent_mem (s : State) (i : Nat) : (s.fwEvent i).mem = s.mem := by cases s; rfl
@[simp] theorem State.fwEvent_check (s : State) (i : Nat) : (s.fwEvent i).check = s.check := by cases s; rfl
@[simp] theorem State.fwEvent_cnt32 (s : State) (i : Nat) : (s.fwEvent i).cnt32 = s.cnt32 := by cases s; rfl
@[simp] theorem State.fwEvent_cnt64 (s : State) (i : Nat) : (s.fwEvent i).cnt64 = s.cnt64 := by cases s; rfl
@[simp] theorem State.fwEvent_hiLatch (s : State) (i : Nat) : (s.fwEvent i).hiLatch = s.hiLatch := by cases s; rfl
@[simp] theorem State.fwEvent_params (s : State) (i : Nat) : (s.fwEvent i).params = s.params := by cases s; rfl
@[simp] theorem State.fwEvent_fresh (s : State) (i : Nat) : (s.fwEvent i).fresh = s.fresh := by cases s; rfl
@[simp] theorem State.fwEvent_time (s : State) (i : Nat) : (s.fwEvent i).time = s.time := by cases s; rfl
@[simp] theorem State.fwEvent_gptp (s : State) (i : Nat) : (s.fwEvent i).gptp = s.gptp := by cases s; rfl
@[simp] theorem State.fwEvent_angle (s : State) (i : Nat) : (s.fwEvent i).angle = s.angle := by cases s; rfl
@[simp] theorem State.fwEvent_snap (s : State) (i : Nat) : (s.fwEvent i).snap = s.snap := by cases s; rfl
@[simp] theorem State.fwEvent_sw (s : State) (i : Nat) : (s.fwEvent i).sw = s.sw := by cases s; rfl
@[simp] theorem State.fwEvent_fab (s : State) (i : Nat) : (s.fwEvent i).fab = s.fab := by cases s; rfl
@[simp] theorem State.fwEvent_scr (s : State) (i : Nat) : (s.fwEvent i).scr = s.scr := by cases s; rfl
@[simp] theorem State.fwEvent_bus (s : State) (i : Nat) : (s.fwEvent i).bus = s.bus := by cases s; rfl
@[simp] theorem State.fwEvent_host (s : State) (i : Nat) : (s.fwEvent i).host = s.host := by cases s; rfl
@[simp] theorem State.fwEvent_nm (s : State) (i : Nat) : (s.fwEvent i).nm = s.nm := by cases s; rfl
@[simp] theorem State.fwEvent_snapshot (s : State) (i : Nat) : (s.fwEvent i).snapshot = s.snapshot := by cases s; rfl
@[simp] theorem State.fwEvent_ls (s : State) (i : Nat) : (s.fwEvent i).ls = s.ls := by cases s; rfl
@[simp] theorem State.fwEvent_pair (s : State) (i : Nat) : (s.fwEvent i).pair = s.pair := by cases s; rfl
@[simp] theorem State.fwEvent_sec (s : State) (i : Nat) : (s.fwEvent i).sec = s.sec := by cases s; rfl
@[simp] theorem State.fwEvent_upd (s : State) (i : Nat) : (s.fwEvent i).upd = s.upd := by cases s; rfl
@[simp] theorem State.fwEvent_isl (s : State) (i : Nat) : (s.fwEvent i).isl = s.isl := by cases s; rfl
@[simp] theorem State.fwEvent_jtag (s : State) (i : Nat) : (s.fwEvent i).jtag = s.jtag := by cases s; rfl

@[simp] theorem State.setEgr_pending (s : State) (p : Nat) (e : Egress) : (s.setEgr p e).pending = s.pending := by cases s; rfl
@[simp] theorem State.setEgr_pw (s : State) (p : Nat) (e : Egress) : (s.setEgr p e).pw = s.pw := by cases s; rfl
@[simp] theorem State.setEgr_mem (s : State) (p : Nat) (e : Egress) : (s.setEgr p e).mem = s.mem := by cases s; rfl
@[simp] theorem State.setEgr_check (s : State) (p : Nat) (e : Egress) : (s.setEgr p e).check = s.check := by cases s; rfl
@[simp] theorem State.setEgr_cnt32 (s : State) (p : Nat) (e : Egress) : (s.setEgr p e).cnt32 = s.cnt32 := by cases s; rfl
@[simp] theorem State.setEgr_cnt64 (s : State) (p : Nat) (e : Egress) : (s.setEgr p e).cnt64 = s.cnt64 := by cases s; rfl
@[simp] theorem State.setEgr_hiLatch (s : State) (p : Nat) (e : Egress) : (s.setEgr p e).hiLatch = s.hiLatch := by cases s; rfl
@[simp] theorem State.setEgr_params (s : State) (p : Nat) (e : Egress) : (s.setEgr p e).params = s.params := by cases s; rfl
@[simp] theorem State.setEgr_fresh (s : State) (p : Nat) (e : Egress) : (s.setEgr p e).fresh = s.fresh := by cases s; rfl
@[simp] theorem State.setEgr_time (s : State) (p : Nat) (e : Egress) : (s.setEgr p e).time = s.time := by cases s; rfl
@[simp] theorem State.setEgr_gptp (s : State) (p : Nat) (e : Egress) : (s.setEgr p e).gptp = s.gptp := by cases s; rfl
@[simp] theorem State.setEgr_angle (s : State) (p : Nat) (e : Egress) : (s.setEgr p e).angle = s.angle := by cases s; rfl
@[simp] theorem State.setEgr_snap (s : State) (p : Nat) (e : Egress) : (s.setEgr p e).snap = s.snap := by cases s; rfl
@[simp] theorem State.setEgr_fab (s : State) (p : Nat) (e : Egress) : (s.setEgr p e).fab = s.fab := by cases s; rfl
@[simp] theorem State.setEgr_scr (s : State) (p : Nat) (e : Egress) : (s.setEgr p e).scr = s.scr := by cases s; rfl
@[simp] theorem State.setEgr_bus (s : State) (p : Nat) (e : Egress) : (s.setEgr p e).bus = s.bus := by cases s; rfl
@[simp] theorem State.setEgr_host (s : State) (p : Nat) (e : Egress) : (s.setEgr p e).host = s.host := by cases s; rfl
@[simp] theorem State.setEgr_dw (s : State) (p : Nat) (e : Egress) : (s.setEgr p e).dw = s.dw := by cases s; rfl
@[simp] theorem State.setEgr_nm (s : State) (p : Nat) (e : Egress) : (s.setEgr p e).nm = s.nm := by cases s; rfl
@[simp] theorem State.setEgr_snapshot (s : State) (p : Nat) (e : Egress) : (s.setEgr p e).snapshot = s.snapshot := by cases s; rfl
@[simp] theorem State.setEgr_ls (s : State) (p : Nat) (e : Egress) : (s.setEgr p e).ls = s.ls := by cases s; rfl
@[simp] theorem State.setEgr_pair (s : State) (p : Nat) (e : Egress) : (s.setEgr p e).pair = s.pair := by cases s; rfl
@[simp] theorem State.setEgr_sec (s : State) (p : Nat) (e : Egress) : (s.setEgr p e).sec = s.sec := by cases s; rfl
@[simp] theorem State.setEgr_upd (s : State) (p : Nat) (e : Egress) : (s.setEgr p e).upd = s.upd := by cases s; rfl
@[simp] theorem State.setEgr_isl (s : State) (p : Nat) (e : Egress) : (s.setEgr p e).isl = s.isl := by cases s; rfl
@[simp] theorem State.setEgr_jtag (s : State) (p : Nat) (e : Egress) : (s.setEgr p e).jtag = s.jtag := by cases s; rfl

@[simp] theorem State.setCls_pending (s : State) (p c : Nat) (q : ClassQ) : (s.setCls p c q).pending = s.pending := by cases s; rfl
@[simp] theorem State.setCls_pw (s : State) (p c : Nat) (q : ClassQ) : (s.setCls p c q).pw = s.pw := by cases s; rfl
@[simp] theorem State.setCls_mem (s : State) (p c : Nat) (q : ClassQ) : (s.setCls p c q).mem = s.mem := by cases s; rfl
@[simp] theorem State.setCls_check (s : State) (p c : Nat) (q : ClassQ) : (s.setCls p c q).check = s.check := by cases s; rfl
@[simp] theorem State.setCls_cnt32 (s : State) (p c : Nat) (q : ClassQ) : (s.setCls p c q).cnt32 = s.cnt32 := by cases s; rfl
@[simp] theorem State.setCls_cnt64 (s : State) (p c : Nat) (q : ClassQ) : (s.setCls p c q).cnt64 = s.cnt64 := by cases s; rfl
@[simp] theorem State.setCls_hiLatch (s : State) (p c : Nat) (q : ClassQ) : (s.setCls p c q).hiLatch = s.hiLatch := by cases s; rfl
@[simp] theorem State.setCls_params (s : State) (p c : Nat) (q : ClassQ) : (s.setCls p c q).params = s.params := by cases s; rfl
@[simp] theorem State.setCls_fresh (s : State) (p c : Nat) (q : ClassQ) : (s.setCls p c q).fresh = s.fresh := by cases s; rfl
@[simp] theorem State.setCls_time (s : State) (p c : Nat) (q : ClassQ) : (s.setCls p c q).time = s.time := by cases s; rfl
@[simp] theorem State.setCls_gptp (s : State) (p c : Nat) (q : ClassQ) : (s.setCls p c q).gptp = s.gptp := by cases s; rfl
@[simp] theorem State.setCls_angle (s : State) (p c : Nat) (q : ClassQ) : (s.setCls p c q).angle = s.angle := by cases s; rfl
@[simp] theorem State.setCls_snap (s : State) (p c : Nat) (q : ClassQ) : (s.setCls p c q).snap = s.snap := by cases s; rfl
@[simp] theorem State.setCls_fab (s : State) (p c : Nat) (q : ClassQ) : (s.setCls p c q).fab = s.fab := by cases s; rfl
@[simp] theorem State.setCls_scr (s : State) (p c : Nat) (q : ClassQ) : (s.setCls p c q).scr = s.scr := by cases s; rfl
@[simp] theorem State.setCls_bus (s : State) (p c : Nat) (q : ClassQ) : (s.setCls p c q).bus = s.bus := by cases s; rfl
@[simp] theorem State.setCls_host (s : State) (p c : Nat) (q : ClassQ) : (s.setCls p c q).host = s.host := by cases s; rfl
@[simp] theorem State.setCls_dw (s : State) (p c : Nat) (q : ClassQ) : (s.setCls p c q).dw = s.dw := by cases s; rfl
@[simp] theorem State.setCls_nm (s : State) (p c : Nat) (q : ClassQ) : (s.setCls p c q).nm = s.nm := by cases s; rfl
@[simp] theorem State.setCls_snapshot (s : State) (p c : Nat) (q : ClassQ) : (s.setCls p c q).snapshot = s.snapshot := by cases s; rfl
@[simp] theorem State.setCls_ls (s : State) (p c : Nat) (q : ClassQ) : (s.setCls p c q).ls = s.ls := by cases s; rfl
@[simp] theorem State.setCls_pair (s : State) (p c : Nat) (q : ClassQ) : (s.setCls p c q).pair = s.pair := by cases s; rfl
@[simp] theorem State.setCls_sec (s : State) (p c : Nat) (q : ClassQ) : (s.setCls p c q).sec = s.sec := by cases s; rfl
@[simp] theorem State.setCls_upd (s : State) (p c : Nat) (q : ClassQ) : (s.setCls p c q).upd = s.upd := by cases s; rfl
@[simp] theorem State.setCls_isl (s : State) (p c : Nat) (q : ClassQ) : (s.setCls p c q).isl = s.isl := by cases s; rfl
@[simp] theorem State.setCls_jtag (s : State) (p c : Nat) (q : ClassQ) : (s.setCls p c q).jtag = s.jtag := by cases s; rfl

@[simp] theorem State.setLeaf_pending (s : State) (p c d : Nat) (l : Leaf) : (s.setLeaf p c d l).pending = s.pending := by cases s; rfl
@[simp] theorem State.setLeaf_pw (s : State) (p c d : Nat) (l : Leaf) : (s.setLeaf p c d l).pw = s.pw := by cases s; rfl
@[simp] theorem State.setLeaf_mem (s : State) (p c d : Nat) (l : Leaf) : (s.setLeaf p c d l).mem = s.mem := by cases s; rfl
@[simp] theorem State.setLeaf_check (s : State) (p c d : Nat) (l : Leaf) : (s.setLeaf p c d l).check = s.check := by cases s; rfl
@[simp] theorem State.setLeaf_cnt32 (s : State) (p c d : Nat) (l : Leaf) : (s.setLeaf p c d l).cnt32 = s.cnt32 := by cases s; rfl
@[simp] theorem State.setLeaf_cnt64 (s : State) (p c d : Nat) (l : Leaf) : (s.setLeaf p c d l).cnt64 = s.cnt64 := by cases s; rfl
@[simp] theorem State.setLeaf_hiLatch (s : State) (p c d : Nat) (l : Leaf) : (s.setLeaf p c d l).hiLatch = s.hiLatch := by cases s; rfl
@[simp] theorem State.setLeaf_params (s : State) (p c d : Nat) (l : Leaf) : (s.setLeaf p c d l).params = s.params := by cases s; rfl
@[simp] theorem State.setLeaf_fresh (s : State) (p c d : Nat) (l : Leaf) : (s.setLeaf p c d l).fresh = s.fresh := by cases s; rfl
@[simp] theorem State.setLeaf_time (s : State) (p c d : Nat) (l : Leaf) : (s.setLeaf p c d l).time = s.time := by cases s; rfl
@[simp] theorem State.setLeaf_gptp (s : State) (p c d : Nat) (l : Leaf) : (s.setLeaf p c d l).gptp = s.gptp := by cases s; rfl
@[simp] theorem State.setLeaf_angle (s : State) (p c d : Nat) (l : Leaf) : (s.setLeaf p c d l).angle = s.angle := by cases s; rfl
@[simp] theorem State.setLeaf_snap (s : State) (p c d : Nat) (l : Leaf) : (s.setLeaf p c d l).snap = s.snap := by cases s; rfl
@[simp] theorem State.setLeaf_fab (s : State) (p c d : Nat) (l : Leaf) : (s.setLeaf p c d l).fab = s.fab := by cases s; rfl
@[simp] theorem State.setLeaf_scr (s : State) (p c d : Nat) (l : Leaf) : (s.setLeaf p c d l).scr = s.scr := by cases s; rfl
@[simp] theorem State.setLeaf_bus (s : State) (p c d : Nat) (l : Leaf) : (s.setLeaf p c d l).bus = s.bus := by cases s; rfl
@[simp] theorem State.setLeaf_host (s : State) (p c d : Nat) (l : Leaf) : (s.setLeaf p c d l).host = s.host := by cases s; rfl
@[simp] theorem State.setLeaf_dw (s : State) (p c d : Nat) (l : Leaf) : (s.setLeaf p c d l).dw = s.dw := by cases s; rfl
@[simp] theorem State.setLeaf_nm (s : State) (p c d : Nat) (l : Leaf) : (s.setLeaf p c d l).nm = s.nm := by cases s; rfl
@[simp] theorem State.setLeaf_snapshot (s : State) (p c d : Nat) (l : Leaf) : (s.setLeaf p c d l).snapshot = s.snapshot := by cases s; rfl
@[simp] theorem State.setLeaf_ls (s : State) (p c d : Nat) (l : Leaf) : (s.setLeaf p c d l).ls = s.ls := by cases s; rfl
@[simp] theorem State.setLeaf_pair (s : State) (p c d : Nat) (l : Leaf) : (s.setLeaf p c d l).pair = s.pair := by cases s; rfl
@[simp] theorem State.setLeaf_sec (s : State) (p c d : Nat) (l : Leaf) : (s.setLeaf p c d l).sec = s.sec := by cases s; rfl
@[simp] theorem State.setLeaf_upd (s : State) (p c d : Nat) (l : Leaf) : (s.setLeaf p c d l).upd = s.upd := by cases s; rfl
@[simp] theorem State.setLeaf_isl (s : State) (p c d : Nat) (l : Leaf) : (s.setLeaf p c d l).isl = s.isl := by cases s; rfl
@[simp] theorem State.setLeaf_jtag (s : State) (p c d : Nat) (l : Leaf) : (s.setLeaf p c d l).jtag = s.jtag := by cases s; rfl

@[simp] theorem State.setGate_pending (s : State) (p : Nat) (g : Gate) : (s.setGate p g).pending = s.pending := by cases s; rfl
@[simp] theorem State.setGate_pw (s : State) (p : Nat) (g : Gate) : (s.setGate p g).pw = s.pw := by cases s; rfl
@[simp] theorem State.setGate_mem (s : State) (p : Nat) (g : Gate) : (s.setGate p g).mem = s.mem := by cases s; rfl
@[simp] theorem State.setGate_check (s : State) (p : Nat) (g : Gate) : (s.setGate p g).check = s.check := by cases s; rfl
@[simp] theorem State.setGate_cnt32 (s : State) (p : Nat) (g : Gate) : (s.setGate p g).cnt32 = s.cnt32 := by cases s; rfl
@[simp] theorem State.setGate_cnt64 (s : State) (p : Nat) (g : Gate) : (s.setGate p g).cnt64 = s.cnt64 := by cases s; rfl
@[simp] theorem State.setGate_hiLatch (s : State) (p : Nat) (g : Gate) : (s.setGate p g).hiLatch = s.hiLatch := by cases s; rfl
@[simp] theorem State.setGate_params (s : State) (p : Nat) (g : Gate) : (s.setGate p g).params = s.params := by cases s; rfl
@[simp] theorem State.setGate_fresh (s : State) (p : Nat) (g : Gate) : (s.setGate p g).fresh = s.fresh := by cases s; rfl
@[simp] theorem State.setGate_time (s : State) (p : Nat) (g : Gate) : (s.setGate p g).time = s.time := by cases s; rfl
@[simp] theorem State.setGate_gptp (s : State) (p : Nat) (g : Gate) : (s.setGate p g).gptp = s.gptp := by cases s; rfl
@[simp] theorem State.setGate_angle (s : State) (p : Nat) (g : Gate) : (s.setGate p g).angle = s.angle := by cases s; rfl
@[simp] theorem State.setGate_snap (s : State) (p : Nat) (g : Gate) : (s.setGate p g).snap = s.snap := by cases s; rfl
@[simp] theorem State.setGate_fab (s : State) (p : Nat) (g : Gate) : (s.setGate p g).fab = s.fab := by cases s; rfl
@[simp] theorem State.setGate_scr (s : State) (p : Nat) (g : Gate) : (s.setGate p g).scr = s.scr := by cases s; rfl
@[simp] theorem State.setGate_bus (s : State) (p : Nat) (g : Gate) : (s.setGate p g).bus = s.bus := by cases s; rfl
@[simp] theorem State.setGate_host (s : State) (p : Nat) (g : Gate) : (s.setGate p g).host = s.host := by cases s; rfl
@[simp] theorem State.setGate_dw (s : State) (p : Nat) (g : Gate) : (s.setGate p g).dw = s.dw := by cases s; rfl
@[simp] theorem State.setGate_nm (s : State) (p : Nat) (g : Gate) : (s.setGate p g).nm = s.nm := by cases s; rfl
@[simp] theorem State.setGate_snapshot (s : State) (p : Nat) (g : Gate) : (s.setGate p g).snapshot = s.snapshot := by cases s; rfl
@[simp] theorem State.setGate_ls (s : State) (p : Nat) (g : Gate) : (s.setGate p g).ls = s.ls := by cases s; rfl
@[simp] theorem State.setGate_pair (s : State) (p : Nat) (g : Gate) : (s.setGate p g).pair = s.pair := by cases s; rfl
@[simp] theorem State.setGate_sec (s : State) (p : Nat) (g : Gate) : (s.setGate p g).sec = s.sec := by cases s; rfl
@[simp] theorem State.setGate_upd (s : State) (p : Nat) (g : Gate) : (s.setGate p g).upd = s.upd := by cases s; rfl
@[simp] theorem State.setGate_isl (s : State) (p : Nat) (g : Gate) : (s.setGate p g).isl = s.isl := by cases s; rfl
@[simp] theorem State.setGate_jtag (s : State) (p : Nat) (g : Gate) : (s.setGate p g).jtag = s.jtag := by cases s; rfl

@[simp] theorem State.setMill_pending (s : State) (p : Nat) (m : Millrace) : (s.setMill p m).pending = s.pending := by cases s; rfl
@[simp] theorem State.setMill_pw (s : State) (p : Nat) (m : Millrace) : (s.setMill p m).pw = s.pw := by cases s; rfl
@[simp] theorem State.setMill_mem (s : State) (p : Nat) (m : Millrace) : (s.setMill p m).mem = s.mem := by cases s; rfl
@[simp] theorem State.setMill_check (s : State) (p : Nat) (m : Millrace) : (s.setMill p m).check = s.check := by cases s; rfl
@[simp] theorem State.setMill_cnt32 (s : State) (p : Nat) (m : Millrace) : (s.setMill p m).cnt32 = s.cnt32 := by cases s; rfl
@[simp] theorem State.setMill_cnt64 (s : State) (p : Nat) (m : Millrace) : (s.setMill p m).cnt64 = s.cnt64 := by cases s; rfl
@[simp] theorem State.setMill_hiLatch (s : State) (p : Nat) (m : Millrace) : (s.setMill p m).hiLatch = s.hiLatch := by cases s; rfl
@[simp] theorem State.setMill_params (s : State) (p : Nat) (m : Millrace) : (s.setMill p m).params = s.params := by cases s; rfl
@[simp] theorem State.setMill_fresh (s : State) (p : Nat) (m : Millrace) : (s.setMill p m).fresh = s.fresh := by cases s; rfl
@[simp] theorem State.setMill_time (s : State) (p : Nat) (m : Millrace) : (s.setMill p m).time = s.time := by cases s; rfl
@[simp] theorem State.setMill_gptp (s : State) (p : Nat) (m : Millrace) : (s.setMill p m).gptp = s.gptp := by cases s; rfl
@[simp] theorem State.setMill_angle (s : State) (p : Nat) (m : Millrace) : (s.setMill p m).angle = s.angle := by cases s; rfl
@[simp] theorem State.setMill_snap (s : State) (p : Nat) (m : Millrace) : (s.setMill p m).snap = s.snap := by cases s; rfl
@[simp] theorem State.setMill_fab (s : State) (p : Nat) (m : Millrace) : (s.setMill p m).fab = s.fab := by cases s; rfl
@[simp] theorem State.setMill_scr (s : State) (p : Nat) (m : Millrace) : (s.setMill p m).scr = s.scr := by cases s; rfl
@[simp] theorem State.setMill_bus (s : State) (p : Nat) (m : Millrace) : (s.setMill p m).bus = s.bus := by cases s; rfl
@[simp] theorem State.setMill_host (s : State) (p : Nat) (m : Millrace) : (s.setMill p m).host = s.host := by cases s; rfl
@[simp] theorem State.setMill_dw (s : State) (p : Nat) (m : Millrace) : (s.setMill p m).dw = s.dw := by cases s; rfl
@[simp] theorem State.setMill_nm (s : State) (p : Nat) (m : Millrace) : (s.setMill p m).nm = s.nm := by cases s; rfl
@[simp] theorem State.setMill_snapshot (s : State) (p : Nat) (m : Millrace) : (s.setMill p m).snapshot = s.snapshot := by cases s; rfl
@[simp] theorem State.setMill_ls (s : State) (p : Nat) (m : Millrace) : (s.setMill p m).ls = s.ls := by cases s; rfl
@[simp] theorem State.setMill_pair (s : State) (p : Nat) (m : Millrace) : (s.setMill p m).pair = s.pair := by cases s; rfl
@[simp] theorem State.setMill_sec (s : State) (p : Nat) (m : Millrace) : (s.setMill p m).sec = s.sec := by cases s; rfl
@[simp] theorem State.setMill_upd (s : State) (p : Nat) (m : Millrace) : (s.setMill p m).upd = s.upd := by cases s; rfl
@[simp] theorem State.setMill_isl (s : State) (p : Nat) (m : Millrace) : (s.setMill p m).isl = s.isl := by cases s; rfl
@[simp] theorem State.setMill_jtag (s : State) (p : Nat) (m : Millrace) : (s.setMill p m).jtag = s.jtag := by cases s; rfl

@[simp] theorem State.setFrame_pending (s : State) (f : Nat) (v : Option Frame) : (s.setFrame f v).pending = s.pending := by cases s; rfl
@[simp] theorem State.setFrame_pw (s : State) (f : Nat) (v : Option Frame) : (s.setFrame f v).pw = s.pw := by cases s; rfl
@[simp] theorem State.setFrame_mem (s : State) (f : Nat) (v : Option Frame) : (s.setFrame f v).mem = s.mem := by cases s; rfl
@[simp] theorem State.setFrame_check (s : State) (f : Nat) (v : Option Frame) : (s.setFrame f v).check = s.check := by cases s; rfl
@[simp] theorem State.setFrame_cnt32 (s : State) (f : Nat) (v : Option Frame) : (s.setFrame f v).cnt32 = s.cnt32 := by cases s; rfl
@[simp] theorem State.setFrame_cnt64 (s : State) (f : Nat) (v : Option Frame) : (s.setFrame f v).cnt64 = s.cnt64 := by cases s; rfl
@[simp] theorem State.setFrame_hiLatch (s : State) (f : Nat) (v : Option Frame) : (s.setFrame f v).hiLatch = s.hiLatch := by cases s; rfl
@[simp] theorem State.setFrame_params (s : State) (f : Nat) (v : Option Frame) : (s.setFrame f v).params = s.params := by cases s; rfl
@[simp] theorem State.setFrame_fresh (s : State) (f : Nat) (v : Option Frame) : (s.setFrame f v).fresh = s.fresh := by cases s; rfl
@[simp] theorem State.setFrame_time (s : State) (f : Nat) (v : Option Frame) : (s.setFrame f v).time = s.time := by cases s; rfl
@[simp] theorem State.setFrame_gptp (s : State) (f : Nat) (v : Option Frame) : (s.setFrame f v).gptp = s.gptp := by cases s; rfl
@[simp] theorem State.setFrame_angle (s : State) (f : Nat) (v : Option Frame) : (s.setFrame f v).angle = s.angle := by cases s; rfl
@[simp] theorem State.setFrame_snap (s : State) (f : Nat) (v : Option Frame) : (s.setFrame f v).snap = s.snap := by cases s; rfl
@[simp] theorem State.setFrame_fab (s : State) (f : Nat) (v : Option Frame) : (s.setFrame f v).fab = s.fab := by cases s; rfl
@[simp] theorem State.setFrame_scr (s : State) (f : Nat) (v : Option Frame) : (s.setFrame f v).scr = s.scr := by cases s; rfl
@[simp] theorem State.setFrame_bus (s : State) (f : Nat) (v : Option Frame) : (s.setFrame f v).bus = s.bus := by cases s; rfl
@[simp] theorem State.setFrame_host (s : State) (f : Nat) (v : Option Frame) : (s.setFrame f v).host = s.host := by cases s; rfl
@[simp] theorem State.setFrame_dw (s : State) (f : Nat) (v : Option Frame) : (s.setFrame f v).dw = s.dw := by cases s; rfl
@[simp] theorem State.setFrame_nm (s : State) (f : Nat) (v : Option Frame) : (s.setFrame f v).nm = s.nm := by cases s; rfl
@[simp] theorem State.setFrame_snapshot (s : State) (f : Nat) (v : Option Frame) : (s.setFrame f v).snapshot = s.snapshot := by cases s; rfl
@[simp] theorem State.setFrame_ls (s : State) (f : Nat) (v : Option Frame) : (s.setFrame f v).ls = s.ls := by cases s; rfl
@[simp] theorem State.setFrame_pair (s : State) (f : Nat) (v : Option Frame) : (s.setFrame f v).pair = s.pair := by cases s; rfl
@[simp] theorem State.setFrame_sec (s : State) (f : Nat) (v : Option Frame) : (s.setFrame f v).sec = s.sec := by cases s; rfl
@[simp] theorem State.setFrame_upd (s : State) (f : Nat) (v : Option Frame) : (s.setFrame f v).upd = s.upd := by cases s; rfl
@[simp] theorem State.setFrame_isl (s : State) (f : Nat) (v : Option Frame) : (s.setFrame f v).isl = s.isl := by cases s; rfl
@[simp] theorem State.setFrame_jtag (s : State) (f : Nat) (v : Option Frame) : (s.setFrame f v).jtag = s.jtag := by cases s; rfl

@[simp] theorem State.setRecov_pending (s : State) (i : Nat) (r : Recov) : (s.setRecov i r).pending = s.pending := by cases s; rfl
@[simp] theorem State.setRecov_pw (s : State) (i : Nat) (r : Recov) : (s.setRecov i r).pw = s.pw := by cases s; rfl
@[simp] theorem State.setRecov_mem (s : State) (i : Nat) (r : Recov) : (s.setRecov i r).mem = s.mem := by cases s; rfl
@[simp] theorem State.setRecov_check (s : State) (i : Nat) (r : Recov) : (s.setRecov i r).check = s.check := by cases s; rfl
@[simp] theorem State.setRecov_cnt32 (s : State) (i : Nat) (r : Recov) : (s.setRecov i r).cnt32 = s.cnt32 := by cases s; rfl
@[simp] theorem State.setRecov_cnt64 (s : State) (i : Nat) (r : Recov) : (s.setRecov i r).cnt64 = s.cnt64 := by cases s; rfl
@[simp] theorem State.setRecov_hiLatch (s : State) (i : Nat) (r : Recov) : (s.setRecov i r).hiLatch = s.hiLatch := by cases s; rfl
@[simp] theorem State.setRecov_params (s : State) (i : Nat) (r : Recov) : (s.setRecov i r).params = s.params := by cases s; rfl
@[simp] theorem State.setRecov_fresh (s : State) (i : Nat) (r : Recov) : (s.setRecov i r).fresh = s.fresh := by cases s; rfl
@[simp] theorem State.setRecov_time (s : State) (i : Nat) (r : Recov) : (s.setRecov i r).time = s.time := by cases s; rfl
@[simp] theorem State.setRecov_gptp (s : State) (i : Nat) (r : Recov) : (s.setRecov i r).gptp = s.gptp := by cases s; rfl
@[simp] theorem State.setRecov_angle (s : State) (i : Nat) (r : Recov) : (s.setRecov i r).angle = s.angle := by cases s; rfl
@[simp] theorem State.setRecov_snap (s : State) (i : Nat) (r : Recov) : (s.setRecov i r).snap = s.snap := by cases s; rfl
@[simp] theorem State.setRecov_fab (s : State) (i : Nat) (r : Recov) : (s.setRecov i r).fab = s.fab := by cases s; rfl
@[simp] theorem State.setRecov_scr (s : State) (i : Nat) (r : Recov) : (s.setRecov i r).scr = s.scr := by cases s; rfl
@[simp] theorem State.setRecov_bus (s : State) (i : Nat) (r : Recov) : (s.setRecov i r).bus = s.bus := by cases s; rfl
@[simp] theorem State.setRecov_host (s : State) (i : Nat) (r : Recov) : (s.setRecov i r).host = s.host := by cases s; rfl
@[simp] theorem State.setRecov_dw (s : State) (i : Nat) (r : Recov) : (s.setRecov i r).dw = s.dw := by cases s; rfl
@[simp] theorem State.setRecov_nm (s : State) (i : Nat) (r : Recov) : (s.setRecov i r).nm = s.nm := by cases s; rfl
@[simp] theorem State.setRecov_snapshot (s : State) (i : Nat) (r : Recov) : (s.setRecov i r).snapshot = s.snapshot := by cases s; rfl
@[simp] theorem State.setRecov_ls (s : State) (i : Nat) (r : Recov) : (s.setRecov i r).ls = s.ls := by cases s; rfl
@[simp] theorem State.setRecov_pair (s : State) (i : Nat) (r : Recov) : (s.setRecov i r).pair = s.pair := by cases s; rfl
@[simp] theorem State.setRecov_sec (s : State) (i : Nat) (r : Recov) : (s.setRecov i r).sec = s.sec := by cases s; rfl
@[simp] theorem State.setRecov_upd (s : State) (i : Nat) (r : Recov) : (s.setRecov i r).upd = s.upd := by cases s; rfl
@[simp] theorem State.setRecov_isl (s : State) (i : Nat) (r : Recov) : (s.setRecov i r).isl = s.isl := by cases s; rfl
@[simp] theorem State.setRecov_jtag (s : State) (i : Nat) (r : Recov) : (s.setRecov i r).jtag = s.jtag := by cases s; rfl

@[simp] theorem State.setMeter_pending (s : State) (i : Nat) (m : Meter) : (s.setMeter i m).pending = s.pending := by cases s; rfl
@[simp] theorem State.setMeter_pw (s : State) (i : Nat) (m : Meter) : (s.setMeter i m).pw = s.pw := by cases s; rfl
@[simp] theorem State.setMeter_mem (s : State) (i : Nat) (m : Meter) : (s.setMeter i m).mem = s.mem := by cases s; rfl
@[simp] theorem State.setMeter_check (s : State) (i : Nat) (m : Meter) : (s.setMeter i m).check = s.check := by cases s; rfl
@[simp] theorem State.setMeter_cnt32 (s : State) (i : Nat) (m : Meter) : (s.setMeter i m).cnt32 = s.cnt32 := by cases s; rfl
@[simp] theorem State.setMeter_cnt64 (s : State) (i : Nat) (m : Meter) : (s.setMeter i m).cnt64 = s.cnt64 := by cases s; rfl
@[simp] theorem State.setMeter_hiLatch (s : State) (i : Nat) (m : Meter) : (s.setMeter i m).hiLatch = s.hiLatch := by cases s; rfl
@[simp] theorem State.setMeter_params (s : State) (i : Nat) (m : Meter) : (s.setMeter i m).params = s.params := by cases s; rfl
@[simp] theorem State.setMeter_fresh (s : State) (i : Nat) (m : Meter) : (s.setMeter i m).fresh = s.fresh := by cases s; rfl
@[simp] theorem State.setMeter_time (s : State) (i : Nat) (m : Meter) : (s.setMeter i m).time = s.time := by cases s; rfl
@[simp] theorem State.setMeter_gptp (s : State) (i : Nat) (m : Meter) : (s.setMeter i m).gptp = s.gptp := by cases s; rfl
@[simp] theorem State.setMeter_angle (s : State) (i : Nat) (m : Meter) : (s.setMeter i m).angle = s.angle := by cases s; rfl
@[simp] theorem State.setMeter_snap (s : State) (i : Nat) (m : Meter) : (s.setMeter i m).snap = s.snap := by cases s; rfl
@[simp] theorem State.setMeter_sw (s : State) (i : Nat) (m : Meter) : (s.setMeter i m).sw = s.sw := by cases s; rfl
@[simp] theorem State.setMeter_fab (s : State) (i : Nat) (m : Meter) : (s.setMeter i m).fab = s.fab := by cases s; rfl
@[simp] theorem State.setMeter_bus (s : State) (i : Nat) (m : Meter) : (s.setMeter i m).bus = s.bus := by cases s; rfl
@[simp] theorem State.setMeter_host (s : State) (i : Nat) (m : Meter) : (s.setMeter i m).host = s.host := by cases s; rfl
@[simp] theorem State.setMeter_dw (s : State) (i : Nat) (m : Meter) : (s.setMeter i m).dw = s.dw := by cases s; rfl
@[simp] theorem State.setMeter_nm (s : State) (i : Nat) (m : Meter) : (s.setMeter i m).nm = s.nm := by cases s; rfl
@[simp] theorem State.setMeter_snapshot (s : State) (i : Nat) (m : Meter) : (s.setMeter i m).snapshot = s.snapshot := by cases s; rfl
@[simp] theorem State.setMeter_ls (s : State) (i : Nat) (m : Meter) : (s.setMeter i m).ls = s.ls := by cases s; rfl
@[simp] theorem State.setMeter_pair (s : State) (i : Nat) (m : Meter) : (s.setMeter i m).pair = s.pair := by cases s; rfl
@[simp] theorem State.setMeter_sec (s : State) (i : Nat) (m : Meter) : (s.setMeter i m).sec = s.sec := by cases s; rfl
@[simp] theorem State.setMeter_upd (s : State) (i : Nat) (m : Meter) : (s.setMeter i m).upd = s.upd := by cases s; rfl
@[simp] theorem State.setMeter_isl (s : State) (i : Nat) (m : Meter) : (s.setMeter i m).isl = s.isl := by cases s; rfl
@[simp] theorem State.setMeter_jtag (s : State) (i : Nat) (m : Meter) : (s.setMeter i m).jtag = s.jtag := by cases s; rfl

@[simp] theorem State.setCan_pending (s : State) (n : Nat) (c : Can) : (s.setCan n c).pending = s.pending := by cases s; rfl
@[simp] theorem State.setCan_pw (s : State) (n : Nat) (c : Can) : (s.setCan n c).pw = s.pw := by cases s; rfl
@[simp] theorem State.setCan_mem (s : State) (n : Nat) (c : Can) : (s.setCan n c).mem = s.mem := by cases s; rfl
@[simp] theorem State.setCan_check (s : State) (n : Nat) (c : Can) : (s.setCan n c).check = s.check := by cases s; rfl
@[simp] theorem State.setCan_cnt32 (s : State) (n : Nat) (c : Can) : (s.setCan n c).cnt32 = s.cnt32 := by cases s; rfl
@[simp] theorem State.setCan_cnt64 (s : State) (n : Nat) (c : Can) : (s.setCan n c).cnt64 = s.cnt64 := by cases s; rfl
@[simp] theorem State.setCan_hiLatch (s : State) (n : Nat) (c : Can) : (s.setCan n c).hiLatch = s.hiLatch := by cases s; rfl
@[simp] theorem State.setCan_params (s : State) (n : Nat) (c : Can) : (s.setCan n c).params = s.params := by cases s; rfl
@[simp] theorem State.setCan_fresh (s : State) (n : Nat) (c : Can) : (s.setCan n c).fresh = s.fresh := by cases s; rfl
@[simp] theorem State.setCan_time (s : State) (n : Nat) (c : Can) : (s.setCan n c).time = s.time := by cases s; rfl
@[simp] theorem State.setCan_gptp (s : State) (n : Nat) (c : Can) : (s.setCan n c).gptp = s.gptp := by cases s; rfl
@[simp] theorem State.setCan_angle (s : State) (n : Nat) (c : Can) : (s.setCan n c).angle = s.angle := by cases s; rfl
@[simp] theorem State.setCan_snap (s : State) (n : Nat) (c : Can) : (s.setCan n c).snap = s.snap := by cases s; rfl
@[simp] theorem State.setCan_sw (s : State) (n : Nat) (c : Can) : (s.setCan n c).sw = s.sw := by cases s; rfl
@[simp] theorem State.setCan_fab (s : State) (n : Nat) (c : Can) : (s.setCan n c).fab = s.fab := by cases s; rfl
@[simp] theorem State.setCan_scr (s : State) (n : Nat) (c : Can) : (s.setCan n c).scr = s.scr := by cases s; rfl
@[simp] theorem State.setCan_host (s : State) (n : Nat) (c : Can) : (s.setCan n c).host = s.host := by cases s; rfl
@[simp] theorem State.setCan_dw (s : State) (n : Nat) (c : Can) : (s.setCan n c).dw = s.dw := by cases s; rfl
@[simp] theorem State.setCan_nm (s : State) (n : Nat) (c : Can) : (s.setCan n c).nm = s.nm := by cases s; rfl
@[simp] theorem State.setCan_snapshot (s : State) (n : Nat) (c : Can) : (s.setCan n c).snapshot = s.snapshot := by cases s; rfl
@[simp] theorem State.setCan_ls (s : State) (n : Nat) (c : Can) : (s.setCan n c).ls = s.ls := by cases s; rfl
@[simp] theorem State.setCan_pair (s : State) (n : Nat) (c : Can) : (s.setCan n c).pair = s.pair := by cases s; rfl
@[simp] theorem State.setCan_sec (s : State) (n : Nat) (c : Can) : (s.setCan n c).sec = s.sec := by cases s; rfl
@[simp] theorem State.setCan_upd (s : State) (n : Nat) (c : Can) : (s.setCan n c).upd = s.upd := by cases s; rfl
@[simp] theorem State.setCan_isl (s : State) (n : Nat) (c : Can) : (s.setCan n c).isl = s.isl := by cases s; rfl
@[simp] theorem State.setCan_jtag (s : State) (n : Nat) (c : Can) : (s.setCan n c).jtag = s.jtag := by cases s; rfl

@[simp] theorem State.setLin_pending (s : State) (m : Nat) (l : Lin) : (s.setLin m l).pending = s.pending := by cases s; rfl
@[simp] theorem State.setLin_pw (s : State) (m : Nat) (l : Lin) : (s.setLin m l).pw = s.pw := by cases s; rfl
@[simp] theorem State.setLin_mem (s : State) (m : Nat) (l : Lin) : (s.setLin m l).mem = s.mem := by cases s; rfl
@[simp] theorem State.setLin_check (s : State) (m : Nat) (l : Lin) : (s.setLin m l).check = s.check := by cases s; rfl
@[simp] theorem State.setLin_cnt32 (s : State) (m : Nat) (l : Lin) : (s.setLin m l).cnt32 = s.cnt32 := by cases s; rfl
@[simp] theorem State.setLin_cnt64 (s : State) (m : Nat) (l : Lin) : (s.setLin m l).cnt64 = s.cnt64 := by cases s; rfl
@[simp] theorem State.setLin_hiLatch (s : State) (m : Nat) (l : Lin) : (s.setLin m l).hiLatch = s.hiLatch := by cases s; rfl
@[simp] theorem State.setLin_params (s : State) (m : Nat) (l : Lin) : (s.setLin m l).params = s.params := by cases s; rfl
@[simp] theorem State.setLin_fresh (s : State) (m : Nat) (l : Lin) : (s.setLin m l).fresh = s.fresh := by cases s; rfl
@[simp] theorem State.setLin_time (s : State) (m : Nat) (l : Lin) : (s.setLin m l).time = s.time := by cases s; rfl
@[simp] theorem State.setLin_gptp (s : State) (m : Nat) (l : Lin) : (s.setLin m l).gptp = s.gptp := by cases s; rfl
@[simp] theorem State.setLin_angle (s : State) (m : Nat) (l : Lin) : (s.setLin m l).angle = s.angle := by cases s; rfl
@[simp] theorem State.setLin_snap (s : State) (m : Nat) (l : Lin) : (s.setLin m l).snap = s.snap := by cases s; rfl
@[simp] theorem State.setLin_sw (s : State) (m : Nat) (l : Lin) : (s.setLin m l).sw = s.sw := by cases s; rfl
@[simp] theorem State.setLin_fab (s : State) (m : Nat) (l : Lin) : (s.setLin m l).fab = s.fab := by cases s; rfl
@[simp] theorem State.setLin_scr (s : State) (m : Nat) (l : Lin) : (s.setLin m l).scr = s.scr := by cases s; rfl
@[simp] theorem State.setLin_host (s : State) (m : Nat) (l : Lin) : (s.setLin m l).host = s.host := by cases s; rfl
@[simp] theorem State.setLin_dw (s : State) (m : Nat) (l : Lin) : (s.setLin m l).dw = s.dw := by cases s; rfl
@[simp] theorem State.setLin_nm (s : State) (m : Nat) (l : Lin) : (s.setLin m l).nm = s.nm := by cases s; rfl
@[simp] theorem State.setLin_snapshot (s : State) (m : Nat) (l : Lin) : (s.setLin m l).snapshot = s.snapshot := by cases s; rfl
@[simp] theorem State.setLin_ls (s : State) (m : Nat) (l : Lin) : (s.setLin m l).ls = s.ls := by cases s; rfl
@[simp] theorem State.setLin_pair (s : State) (m : Nat) (l : Lin) : (s.setLin m l).pair = s.pair := by cases s; rfl
@[simp] theorem State.setLin_sec (s : State) (m : Nat) (l : Lin) : (s.setLin m l).sec = s.sec := by cases s; rfl
@[simp] theorem State.setLin_upd (s : State) (m : Nat) (l : Lin) : (s.setLin m l).upd = s.upd := by cases s; rfl
@[simp] theorem State.setLin_isl (s : State) (m : Nat) (l : Lin) : (s.setLin m l).isl = s.isl := by cases s; rfl
@[simp] theorem State.setLin_jtag (s : State) (m : Nat) (l : Lin) : (s.setLin m l).jtag = s.jtag := by cases s; rfl

@[simp] theorem State.setCv_pending (s : State) (u : Nat) (c : CvUnit) : (s.setCv u c).pending = s.pending := by cases s; rfl
@[simp] theorem State.setCv_pw (s : State) (u : Nat) (c : CvUnit) : (s.setCv u c).pw = s.pw := by cases s; rfl
@[simp] theorem State.setCv_mem (s : State) (u : Nat) (c : CvUnit) : (s.setCv u c).mem = s.mem := by cases s; rfl
@[simp] theorem State.setCv_check (s : State) (u : Nat) (c : CvUnit) : (s.setCv u c).check = s.check := by cases s; rfl
@[simp] theorem State.setCv_cnt32 (s : State) (u : Nat) (c : CvUnit) : (s.setCv u c).cnt32 = s.cnt32 := by cases s; rfl
@[simp] theorem State.setCv_cnt64 (s : State) (u : Nat) (c : CvUnit) : (s.setCv u c).cnt64 = s.cnt64 := by cases s; rfl
@[simp] theorem State.setCv_hiLatch (s : State) (u : Nat) (c : CvUnit) : (s.setCv u c).hiLatch = s.hiLatch := by cases s; rfl
@[simp] theorem State.setCv_params (s : State) (u : Nat) (c : CvUnit) : (s.setCv u c).params = s.params := by cases s; rfl
@[simp] theorem State.setCv_fresh (s : State) (u : Nat) (c : CvUnit) : (s.setCv u c).fresh = s.fresh := by cases s; rfl
@[simp] theorem State.setCv_time (s : State) (u : Nat) (c : CvUnit) : (s.setCv u c).time = s.time := by cases s; rfl
@[simp] theorem State.setCv_gptp (s : State) (u : Nat) (c : CvUnit) : (s.setCv u c).gptp = s.gptp := by cases s; rfl
@[simp] theorem State.setCv_angle (s : State) (u : Nat) (c : CvUnit) : (s.setCv u c).angle = s.angle := by cases s; rfl
@[simp] theorem State.setCv_snap (s : State) (u : Nat) (c : CvUnit) : (s.setCv u c).snap = s.snap := by cases s; rfl
@[simp] theorem State.setCv_sw (s : State) (u : Nat) (c : CvUnit) : (s.setCv u c).sw = s.sw := by cases s; rfl
@[simp] theorem State.setCv_fab (s : State) (u : Nat) (c : CvUnit) : (s.setCv u c).fab = s.fab := by cases s; rfl
@[simp] theorem State.setCv_scr (s : State) (u : Nat) (c : CvUnit) : (s.setCv u c).scr = s.scr := by cases s; rfl
@[simp] theorem State.setCv_host (s : State) (u : Nat) (c : CvUnit) : (s.setCv u c).host = s.host := by cases s; rfl
@[simp] theorem State.setCv_dw (s : State) (u : Nat) (c : CvUnit) : (s.setCv u c).dw = s.dw := by cases s; rfl
@[simp] theorem State.setCv_nm (s : State) (u : Nat) (c : CvUnit) : (s.setCv u c).nm = s.nm := by cases s; rfl
@[simp] theorem State.setCv_snapshot (s : State) (u : Nat) (c : CvUnit) : (s.setCv u c).snapshot = s.snapshot := by cases s; rfl
@[simp] theorem State.setCv_ls (s : State) (u : Nat) (c : CvUnit) : (s.setCv u c).ls = s.ls := by cases s; rfl
@[simp] theorem State.setCv_pair (s : State) (u : Nat) (c : CvUnit) : (s.setCv u c).pair = s.pair := by cases s; rfl
@[simp] theorem State.setCv_sec (s : State) (u : Nat) (c : CvUnit) : (s.setCv u c).sec = s.sec := by cases s; rfl
@[simp] theorem State.setCv_upd (s : State) (u : Nat) (c : CvUnit) : (s.setCv u c).upd = s.upd := by cases s; rfl
@[simp] theorem State.setCv_isl (s : State) (u : Nat) (c : CvUnit) : (s.setCv u c).isl = s.isl := by cases s; rfl
@[simp] theorem State.setCv_jtag (s : State) (u : Nat) (c : CvUnit) : (s.setCv u c).jtag = s.jtag := by cases s; rfl

@[simp] theorem State.setRun_pending (s : State) (r : Nat) (x : RouteRun) : (s.setRun r x).pending = s.pending := by cases s; rfl
@[simp] theorem State.setRun_pw (s : State) (r : Nat) (x : RouteRun) : (s.setRun r x).pw = s.pw := by cases s; rfl
@[simp] theorem State.setRun_mem (s : State) (r : Nat) (x : RouteRun) : (s.setRun r x).mem = s.mem := by cases s; rfl
@[simp] theorem State.setRun_check (s : State) (r : Nat) (x : RouteRun) : (s.setRun r x).check = s.check := by cases s; rfl
@[simp] theorem State.setRun_cnt32 (s : State) (r : Nat) (x : RouteRun) : (s.setRun r x).cnt32 = s.cnt32 := by cases s; rfl
@[simp] theorem State.setRun_cnt64 (s : State) (r : Nat) (x : RouteRun) : (s.setRun r x).cnt64 = s.cnt64 := by cases s; rfl
@[simp] theorem State.setRun_hiLatch (s : State) (r : Nat) (x : RouteRun) : (s.setRun r x).hiLatch = s.hiLatch := by cases s; rfl
@[simp] theorem State.setRun_params (s : State) (r : Nat) (x : RouteRun) : (s.setRun r x).params = s.params := by cases s; rfl
@[simp] theorem State.setRun_fresh (s : State) (r : Nat) (x : RouteRun) : (s.setRun r x).fresh = s.fresh := by cases s; rfl
@[simp] theorem State.setRun_time (s : State) (r : Nat) (x : RouteRun) : (s.setRun r x).time = s.time := by cases s; rfl
@[simp] theorem State.setRun_gptp (s : State) (r : Nat) (x : RouteRun) : (s.setRun r x).gptp = s.gptp := by cases s; rfl
@[simp] theorem State.setRun_angle (s : State) (r : Nat) (x : RouteRun) : (s.setRun r x).angle = s.angle := by cases s; rfl
@[simp] theorem State.setRun_snap (s : State) (r : Nat) (x : RouteRun) : (s.setRun r x).snap = s.snap := by cases s; rfl
@[simp] theorem State.setRun_sw (s : State) (r : Nat) (x : RouteRun) : (s.setRun r x).sw = s.sw := by cases s; rfl
@[simp] theorem State.setRun_fab (s : State) (r : Nat) (x : RouteRun) : (s.setRun r x).fab = s.fab := by cases s; rfl
@[simp] theorem State.setRun_scr (s : State) (r : Nat) (x : RouteRun) : (s.setRun r x).scr = s.scr := by cases s; rfl
@[simp] theorem State.setRun_host (s : State) (r : Nat) (x : RouteRun) : (s.setRun r x).host = s.host := by cases s; rfl
@[simp] theorem State.setRun_dw (s : State) (r : Nat) (x : RouteRun) : (s.setRun r x).dw = s.dw := by cases s; rfl
@[simp] theorem State.setRun_nm (s : State) (r : Nat) (x : RouteRun) : (s.setRun r x).nm = s.nm := by cases s; rfl
@[simp] theorem State.setRun_snapshot (s : State) (r : Nat) (x : RouteRun) : (s.setRun r x).snapshot = s.snapshot := by cases s; rfl
@[simp] theorem State.setRun_ls (s : State) (r : Nat) (x : RouteRun) : (s.setRun r x).ls = s.ls := by cases s; rfl
@[simp] theorem State.setRun_pair (s : State) (r : Nat) (x : RouteRun) : (s.setRun r x).pair = s.pair := by cases s; rfl
@[simp] theorem State.setRun_sec (s : State) (r : Nat) (x : RouteRun) : (s.setRun r x).sec = s.sec := by cases s; rfl
@[simp] theorem State.setRun_upd (s : State) (r : Nat) (x : RouteRun) : (s.setRun r x).upd = s.upd := by cases s; rfl
@[simp] theorem State.setRun_isl (s : State) (r : Nat) (x : RouteRun) : (s.setRun r x).isl = s.isl := by cases s; rfl
@[simp] theorem State.setRun_jtag (s : State) (r : Nat) (x : RouteRun) : (s.setRun r x).jtag = s.jtag := by cases s; rfl

@[simp] theorem State.setMb_pending (s : State) (n : Nat) (m : MbRec) : (s.setMb n m).pending = s.pending := by cases s; rfl
@[simp] theorem State.setMb_pw (s : State) (n : Nat) (m : MbRec) : (s.setMb n m).pw = s.pw := by cases s; rfl
@[simp] theorem State.setMb_mem (s : State) (n : Nat) (m : MbRec) : (s.setMb n m).mem = s.mem := by cases s; rfl
@[simp] theorem State.setMb_check (s : State) (n : Nat) (m : MbRec) : (s.setMb n m).check = s.check := by cases s; rfl
@[simp] theorem State.setMb_cnt32 (s : State) (n : Nat) (m : MbRec) : (s.setMb n m).cnt32 = s.cnt32 := by cases s; rfl
@[simp] theorem State.setMb_cnt64 (s : State) (n : Nat) (m : MbRec) : (s.setMb n m).cnt64 = s.cnt64 := by cases s; rfl
@[simp] theorem State.setMb_hiLatch (s : State) (n : Nat) (m : MbRec) : (s.setMb n m).hiLatch = s.hiLatch := by cases s; rfl
@[simp] theorem State.setMb_params (s : State) (n : Nat) (m : MbRec) : (s.setMb n m).params = s.params := by cases s; rfl
@[simp] theorem State.setMb_fresh (s : State) (n : Nat) (m : MbRec) : (s.setMb n m).fresh = s.fresh := by cases s; rfl
@[simp] theorem State.setMb_time (s : State) (n : Nat) (m : MbRec) : (s.setMb n m).time = s.time := by cases s; rfl
@[simp] theorem State.setMb_gptp (s : State) (n : Nat) (m : MbRec) : (s.setMb n m).gptp = s.gptp := by cases s; rfl
@[simp] theorem State.setMb_angle (s : State) (n : Nat) (m : MbRec) : (s.setMb n m).angle = s.angle := by cases s; rfl
@[simp] theorem State.setMb_snap (s : State) (n : Nat) (m : MbRec) : (s.setMb n m).snap = s.snap := by cases s; rfl
@[simp] theorem State.setMb_sw (s : State) (n : Nat) (m : MbRec) : (s.setMb n m).sw = s.sw := by cases s; rfl
@[simp] theorem State.setMb_fab (s : State) (n : Nat) (m : MbRec) : (s.setMb n m).fab = s.fab := by cases s; rfl
@[simp] theorem State.setMb_scr (s : State) (n : Nat) (m : MbRec) : (s.setMb n m).scr = s.scr := by cases s; rfl
@[simp] theorem State.setMb_bus (s : State) (n : Nat) (m : MbRec) : (s.setMb n m).bus = s.bus := by cases s; rfl
@[simp] theorem State.setMb_dw (s : State) (n : Nat) (m : MbRec) : (s.setMb n m).dw = s.dw := by cases s; rfl
@[simp] theorem State.setMb_nm (s : State) (n : Nat) (m : MbRec) : (s.setMb n m).nm = s.nm := by cases s; rfl
@[simp] theorem State.setMb_snapshot (s : State) (n : Nat) (m : MbRec) : (s.setMb n m).snapshot = s.snapshot := by cases s; rfl
@[simp] theorem State.setMb_ls (s : State) (n : Nat) (m : MbRec) : (s.setMb n m).ls = s.ls := by cases s; rfl
@[simp] theorem State.setMb_pair (s : State) (n : Nat) (m : MbRec) : (s.setMb n m).pair = s.pair := by cases s; rfl
@[simp] theorem State.setMb_sec (s : State) (n : Nat) (m : MbRec) : (s.setMb n m).sec = s.sec := by cases s; rfl
@[simp] theorem State.setMb_upd (s : State) (n : Nat) (m : MbRec) : (s.setMb n m).upd = s.upd := by cases s; rfl
@[simp] theorem State.setMb_isl (s : State) (n : Nat) (m : MbRec) : (s.setMb n m).isl = s.isl := by cases s; rfl
@[simp] theorem State.setMb_jtag (s : State) (n : Nat) (m : MbRec) : (s.setMb n m).jtag = s.jtag := by cases s; rfl

@[simp] theorem State.setSlot_pending (s : State) (n : Nat) (x : Slot) : (s.setSlot n x).pending = s.pending := by cases s; rfl
@[simp] theorem State.setSlot_pw (s : State) (n : Nat) (x : Slot) : (s.setSlot n x).pw = s.pw := by cases s; rfl
@[simp] theorem State.setSlot_mem (s : State) (n : Nat) (x : Slot) : (s.setSlot n x).mem = s.mem := by cases s; rfl
@[simp] theorem State.setSlot_check (s : State) (n : Nat) (x : Slot) : (s.setSlot n x).check = s.check := by cases s; rfl
@[simp] theorem State.setSlot_cnt32 (s : State) (n : Nat) (x : Slot) : (s.setSlot n x).cnt32 = s.cnt32 := by cases s; rfl
@[simp] theorem State.setSlot_cnt64 (s : State) (n : Nat) (x : Slot) : (s.setSlot n x).cnt64 = s.cnt64 := by cases s; rfl
@[simp] theorem State.setSlot_hiLatch (s : State) (n : Nat) (x : Slot) : (s.setSlot n x).hiLatch = s.hiLatch := by cases s; rfl
@[simp] theorem State.setSlot_params (s : State) (n : Nat) (x : Slot) : (s.setSlot n x).params = s.params := by cases s; rfl
@[simp] theorem State.setSlot_fresh (s : State) (n : Nat) (x : Slot) : (s.setSlot n x).fresh = s.fresh := by cases s; rfl
@[simp] theorem State.setSlot_time (s : State) (n : Nat) (x : Slot) : (s.setSlot n x).time = s.time := by cases s; rfl
@[simp] theorem State.setSlot_gptp (s : State) (n : Nat) (x : Slot) : (s.setSlot n x).gptp = s.gptp := by cases s; rfl
@[simp] theorem State.setSlot_angle (s : State) (n : Nat) (x : Slot) : (s.setSlot n x).angle = s.angle := by cases s; rfl
@[simp] theorem State.setSlot_snap (s : State) (n : Nat) (x : Slot) : (s.setSlot n x).snap = s.snap := by cases s; rfl
@[simp] theorem State.setSlot_sw (s : State) (n : Nat) (x : Slot) : (s.setSlot n x).sw = s.sw := by cases s; rfl
@[simp] theorem State.setSlot_fab (s : State) (n : Nat) (x : Slot) : (s.setSlot n x).fab = s.fab := by cases s; rfl
@[simp] theorem State.setSlot_scr (s : State) (n : Nat) (x : Slot) : (s.setSlot n x).scr = s.scr := by cases s; rfl
@[simp] theorem State.setSlot_bus (s : State) (n : Nat) (x : Slot) : (s.setSlot n x).bus = s.bus := by cases s; rfl
@[simp] theorem State.setSlot_host (s : State) (n : Nat) (x : Slot) : (s.setSlot n x).host = s.host := by cases s; rfl
@[simp] theorem State.setSlot_dw (s : State) (n : Nat) (x : Slot) : (s.setSlot n x).dw = s.dw := by cases s; rfl
@[simp] theorem State.setSlot_nm (s : State) (n : Nat) (x : Slot) : (s.setSlot n x).nm = s.nm := by cases s; rfl
@[simp] theorem State.setSlot_snapshot (s : State) (n : Nat) (x : Slot) : (s.setSlot n x).snapshot = s.snapshot := by cases s; rfl
@[simp] theorem State.setSlot_ls (s : State) (n : Nat) (x : Slot) : (s.setSlot n x).ls = s.ls := by cases s; rfl
@[simp] theorem State.setSlot_pair (s : State) (n : Nat) (x : Slot) : (s.setSlot n x).pair = s.pair := by cases s; rfl
@[simp] theorem State.setSlot_upd (s : State) (n : Nat) (x : Slot) : (s.setSlot n x).upd = s.upd := by cases s; rfl
@[simp] theorem State.setSlot_isl (s : State) (n : Nat) (x : Slot) : (s.setSlot n x).isl = s.isl := by cases s; rfl
@[simp] theorem State.setSlot_jtag (s : State) (n : Nat) (x : Slot) : (s.setSlot n x).jtag = s.jtag := by cases s; rfl

@[simp] theorem State.setWk_pending (s : State) (n : Nat) (x : WorkKey) : (s.setWk n x).pending = s.pending := by cases s; rfl
@[simp] theorem State.setWk_pw (s : State) (n : Nat) (x : WorkKey) : (s.setWk n x).pw = s.pw := by cases s; rfl
@[simp] theorem State.setWk_mem (s : State) (n : Nat) (x : WorkKey) : (s.setWk n x).mem = s.mem := by cases s; rfl
@[simp] theorem State.setWk_check (s : State) (n : Nat) (x : WorkKey) : (s.setWk n x).check = s.check := by cases s; rfl
@[simp] theorem State.setWk_cnt32 (s : State) (n : Nat) (x : WorkKey) : (s.setWk n x).cnt32 = s.cnt32 := by cases s; rfl
@[simp] theorem State.setWk_cnt64 (s : State) (n : Nat) (x : WorkKey) : (s.setWk n x).cnt64 = s.cnt64 := by cases s; rfl
@[simp] theorem State.setWk_hiLatch (s : State) (n : Nat) (x : WorkKey) : (s.setWk n x).hiLatch = s.hiLatch := by cases s; rfl
@[simp] theorem State.setWk_params (s : State) (n : Nat) (x : WorkKey) : (s.setWk n x).params = s.params := by cases s; rfl
@[simp] theorem State.setWk_fresh (s : State) (n : Nat) (x : WorkKey) : (s.setWk n x).fresh = s.fresh := by cases s; rfl
@[simp] theorem State.setWk_time (s : State) (n : Nat) (x : WorkKey) : (s.setWk n x).time = s.time := by cases s; rfl
@[simp] theorem State.setWk_gptp (s : State) (n : Nat) (x : WorkKey) : (s.setWk n x).gptp = s.gptp := by cases s; rfl
@[simp] theorem State.setWk_angle (s : State) (n : Nat) (x : WorkKey) : (s.setWk n x).angle = s.angle := by cases s; rfl
@[simp] theorem State.setWk_snap (s : State) (n : Nat) (x : WorkKey) : (s.setWk n x).snap = s.snap := by cases s; rfl
@[simp] theorem State.setWk_sw (s : State) (n : Nat) (x : WorkKey) : (s.setWk n x).sw = s.sw := by cases s; rfl
@[simp] theorem State.setWk_fab (s : State) (n : Nat) (x : WorkKey) : (s.setWk n x).fab = s.fab := by cases s; rfl
@[simp] theorem State.setWk_scr (s : State) (n : Nat) (x : WorkKey) : (s.setWk n x).scr = s.scr := by cases s; rfl
@[simp] theorem State.setWk_bus (s : State) (n : Nat) (x : WorkKey) : (s.setWk n x).bus = s.bus := by cases s; rfl
@[simp] theorem State.setWk_host (s : State) (n : Nat) (x : WorkKey) : (s.setWk n x).host = s.host := by cases s; rfl
@[simp] theorem State.setWk_dw (s : State) (n : Nat) (x : WorkKey) : (s.setWk n x).dw = s.dw := by cases s; rfl
@[simp] theorem State.setWk_nm (s : State) (n : Nat) (x : WorkKey) : (s.setWk n x).nm = s.nm := by cases s; rfl
@[simp] theorem State.setWk_snapshot (s : State) (n : Nat) (x : WorkKey) : (s.setWk n x).snapshot = s.snapshot := by cases s; rfl
@[simp] theorem State.setWk_ls (s : State) (n : Nat) (x : WorkKey) : (s.setWk n x).ls = s.ls := by cases s; rfl
@[simp] theorem State.setWk_pair (s : State) (n : Nat) (x : WorkKey) : (s.setWk n x).pair = s.pair := by cases s; rfl
@[simp] theorem State.setWk_upd (s : State) (n : Nat) (x : WorkKey) : (s.setWk n x).upd = s.upd := by cases s; rfl
@[simp] theorem State.setWk_isl (s : State) (n : Nat) (x : WorkKey) : (s.setWk n x).isl = s.isl := by cases s; rfl
@[simp] theorem State.setWk_jtag (s : State) (n : Nat) (x : WorkKey) : (s.setWk n x).jtag = s.jtag := by cases s; rfl

@[simp] theorem State.setAuth_pending (s : State) (n : Nat) (x : AuthCtx) : (s.setAuth n x).pending = s.pending := by cases s; rfl
@[simp] theorem State.setAuth_pw (s : State) (n : Nat) (x : AuthCtx) : (s.setAuth n x).pw = s.pw := by cases s; rfl
@[simp] theorem State.setAuth_mem (s : State) (n : Nat) (x : AuthCtx) : (s.setAuth n x).mem = s.mem := by cases s; rfl
@[simp] theorem State.setAuth_check (s : State) (n : Nat) (x : AuthCtx) : (s.setAuth n x).check = s.check := by cases s; rfl
@[simp] theorem State.setAuth_cnt32 (s : State) (n : Nat) (x : AuthCtx) : (s.setAuth n x).cnt32 = s.cnt32 := by cases s; rfl
@[simp] theorem State.setAuth_cnt64 (s : State) (n : Nat) (x : AuthCtx) : (s.setAuth n x).cnt64 = s.cnt64 := by cases s; rfl
@[simp] theorem State.setAuth_hiLatch (s : State) (n : Nat) (x : AuthCtx) : (s.setAuth n x).hiLatch = s.hiLatch := by cases s; rfl
@[simp] theorem State.setAuth_params (s : State) (n : Nat) (x : AuthCtx) : (s.setAuth n x).params = s.params := by cases s; rfl
@[simp] theorem State.setAuth_fresh (s : State) (n : Nat) (x : AuthCtx) : (s.setAuth n x).fresh = s.fresh := by cases s; rfl
@[simp] theorem State.setAuth_time (s : State) (n : Nat) (x : AuthCtx) : (s.setAuth n x).time = s.time := by cases s; rfl
@[simp] theorem State.setAuth_gptp (s : State) (n : Nat) (x : AuthCtx) : (s.setAuth n x).gptp = s.gptp := by cases s; rfl
@[simp] theorem State.setAuth_angle (s : State) (n : Nat) (x : AuthCtx) : (s.setAuth n x).angle = s.angle := by cases s; rfl
@[simp] theorem State.setAuth_snap (s : State) (n : Nat) (x : AuthCtx) : (s.setAuth n x).snap = s.snap := by cases s; rfl
@[simp] theorem State.setAuth_sw (s : State) (n : Nat) (x : AuthCtx) : (s.setAuth n x).sw = s.sw := by cases s; rfl
@[simp] theorem State.setAuth_fab (s : State) (n : Nat) (x : AuthCtx) : (s.setAuth n x).fab = s.fab := by cases s; rfl
@[simp] theorem State.setAuth_scr (s : State) (n : Nat) (x : AuthCtx) : (s.setAuth n x).scr = s.scr := by cases s; rfl
@[simp] theorem State.setAuth_bus (s : State) (n : Nat) (x : AuthCtx) : (s.setAuth n x).bus = s.bus := by cases s; rfl
@[simp] theorem State.setAuth_host (s : State) (n : Nat) (x : AuthCtx) : (s.setAuth n x).host = s.host := by cases s; rfl
@[simp] theorem State.setAuth_dw (s : State) (n : Nat) (x : AuthCtx) : (s.setAuth n x).dw = s.dw := by cases s; rfl
@[simp] theorem State.setAuth_nm (s : State) (n : Nat) (x : AuthCtx) : (s.setAuth n x).nm = s.nm := by cases s; rfl
@[simp] theorem State.setAuth_snapshot (s : State) (n : Nat) (x : AuthCtx) : (s.setAuth n x).snapshot = s.snapshot := by cases s; rfl
@[simp] theorem State.setAuth_ls (s : State) (n : Nat) (x : AuthCtx) : (s.setAuth n x).ls = s.ls := by cases s; rfl
@[simp] theorem State.setAuth_pair (s : State) (n : Nat) (x : AuthCtx) : (s.setAuth n x).pair = s.pair := by cases s; rfl
@[simp] theorem State.setAuth_upd (s : State) (n : Nat) (x : AuthCtx) : (s.setAuth n x).upd = s.upd := by cases s; rfl
@[simp] theorem State.setAuth_isl (s : State) (n : Nat) (x : AuthCtx) : (s.setAuth n x).isl = s.isl := by cases s; rfl
@[simp] theorem State.setAuth_jtag (s : State) (n : Nat) (x : AuthCtx) : (s.setAuth n x).jtag = s.jtag := by cases s; rfl

@[simp] theorem State.setParam_pending (s : State) (pid v : Nat) : (s.setParam pid v).pending = s.pending := by cases s; rfl
@[simp] theorem State.setParam_pw (s : State) (pid v : Nat) : (s.setParam pid v).pw = s.pw := by cases s; rfl
@[simp] theorem State.setParam_mem (s : State) (pid v : Nat) : (s.setParam pid v).mem = s.mem := by cases s; rfl
@[simp] theorem State.setParam_check (s : State) (pid v : Nat) : (s.setParam pid v).check = s.check := by cases s; rfl
@[simp] theorem State.setParam_cnt32 (s : State) (pid v : Nat) : (s.setParam pid v).cnt32 = s.cnt32 := by cases s; rfl
@[simp] theorem State.setParam_cnt64 (s : State) (pid v : Nat) : (s.setParam pid v).cnt64 = s.cnt64 := by cases s; rfl
@[simp] theorem State.setParam_hiLatch (s : State) (pid v : Nat) : (s.setParam pid v).hiLatch = s.hiLatch := by cases s; rfl
@[simp] theorem State.setParam_fresh (s : State) (pid v : Nat) : (s.setParam pid v).fresh = s.fresh := by cases s; rfl
@[simp] theorem State.setParam_time (s : State) (pid v : Nat) : (s.setParam pid v).time = s.time := by cases s; rfl
@[simp] theorem State.setParam_gptp (s : State) (pid v : Nat) : (s.setParam pid v).gptp = s.gptp := by cases s; rfl
@[simp] theorem State.setParam_angle (s : State) (pid v : Nat) : (s.setParam pid v).angle = s.angle := by cases s; rfl
@[simp] theorem State.setParam_snap (s : State) (pid v : Nat) : (s.setParam pid v).snap = s.snap := by cases s; rfl
@[simp] theorem State.setParam_sw (s : State) (pid v : Nat) : (s.setParam pid v).sw = s.sw := by cases s; rfl
@[simp] theorem State.setParam_fab (s : State) (pid v : Nat) : (s.setParam pid v).fab = s.fab := by cases s; rfl
@[simp] theorem State.setParam_scr (s : State) (pid v : Nat) : (s.setParam pid v).scr = s.scr := by cases s; rfl
@[simp] theorem State.setParam_bus (s : State) (pid v : Nat) : (s.setParam pid v).bus = s.bus := by cases s; rfl
@[simp] theorem State.setParam_host (s : State) (pid v : Nat) : (s.setParam pid v).host = s.host := by cases s; rfl
@[simp] theorem State.setParam_dw (s : State) (pid v : Nat) : (s.setParam pid v).dw = s.dw := by cases s; rfl
@[simp] theorem State.setParam_nm (s : State) (pid v : Nat) : (s.setParam pid v).nm = s.nm := by cases s; rfl
@[simp] theorem State.setParam_snapshot (s : State) (pid v : Nat) : (s.setParam pid v).snapshot = s.snapshot := by cases s; rfl
@[simp] theorem State.setParam_ls (s : State) (pid v : Nat) : (s.setParam pid v).ls = s.ls := by cases s; rfl
@[simp] theorem State.setParam_pair (s : State) (pid v : Nat) : (s.setParam pid v).pair = s.pair := by cases s; rfl
@[simp] theorem State.setParam_sec (s : State) (pid v : Nat) : (s.setParam pid v).sec = s.sec := by cases s; rfl
@[simp] theorem State.setParam_upd (s : State) (pid v : Nat) : (s.setParam pid v).upd = s.upd := by cases s; rfl
@[simp] theorem State.setParam_isl (s : State) (pid v : Nat) : (s.setParam pid v).isl = s.isl := by cases s; rfl
@[simp] theorem State.setParam_jtag (s : State) (pid v : Nat) : (s.setParam pid v).jtag = s.jtag := by cases s; rfl

@[simp] theorem State.setNode_pending (s : State) (i : Nat) (x : NmNode) : (s.setNode i x).pending = s.pending := by cases s; rfl
@[simp] theorem State.setNode_pw (s : State) (i : Nat) (x : NmNode) : (s.setNode i x).pw = s.pw := by cases s; rfl
@[simp] theorem State.setNode_mem (s : State) (i : Nat) (x : NmNode) : (s.setNode i x).mem = s.mem := by cases s; rfl
@[simp] theorem State.setNode_check (s : State) (i : Nat) (x : NmNode) : (s.setNode i x).check = s.check := by cases s; rfl
@[simp] theorem State.setNode_cnt32 (s : State) (i : Nat) (x : NmNode) : (s.setNode i x).cnt32 = s.cnt32 := by cases s; rfl
@[simp] theorem State.setNode_cnt64 (s : State) (i : Nat) (x : NmNode) : (s.setNode i x).cnt64 = s.cnt64 := by cases s; rfl
@[simp] theorem State.setNode_hiLatch (s : State) (i : Nat) (x : NmNode) : (s.setNode i x).hiLatch = s.hiLatch := by cases s; rfl
@[simp] theorem State.setNode_params (s : State) (i : Nat) (x : NmNode) : (s.setNode i x).params = s.params := by cases s; rfl
@[simp] theorem State.setNode_fresh (s : State) (i : Nat) (x : NmNode) : (s.setNode i x).fresh = s.fresh := by cases s; rfl
@[simp] theorem State.setNode_time (s : State) (i : Nat) (x : NmNode) : (s.setNode i x).time = s.time := by cases s; rfl
@[simp] theorem State.setNode_gptp (s : State) (i : Nat) (x : NmNode) : (s.setNode i x).gptp = s.gptp := by cases s; rfl
@[simp] theorem State.setNode_angle (s : State) (i : Nat) (x : NmNode) : (s.setNode i x).angle = s.angle := by cases s; rfl
@[simp] theorem State.setNode_snap (s : State) (i : Nat) (x : NmNode) : (s.setNode i x).snap = s.snap := by cases s; rfl
@[simp] theorem State.setNode_sw (s : State) (i : Nat) (x : NmNode) : (s.setNode i x).sw = s.sw := by cases s; rfl
@[simp] theorem State.setNode_fab (s : State) (i : Nat) (x : NmNode) : (s.setNode i x).fab = s.fab := by cases s; rfl
@[simp] theorem State.setNode_scr (s : State) (i : Nat) (x : NmNode) : (s.setNode i x).scr = s.scr := by cases s; rfl
@[simp] theorem State.setNode_bus (s : State) (i : Nat) (x : NmNode) : (s.setNode i x).bus = s.bus := by cases s; rfl
@[simp] theorem State.setNode_host (s : State) (i : Nat) (x : NmNode) : (s.setNode i x).host = s.host := by cases s; rfl
@[simp] theorem State.setNode_dw (s : State) (i : Nat) (x : NmNode) : (s.setNode i x).dw = s.dw := by cases s; rfl
@[simp] theorem State.setNode_snapshot (s : State) (i : Nat) (x : NmNode) : (s.setNode i x).snapshot = s.snapshot := by cases s; rfl
@[simp] theorem State.setNode_ls (s : State) (i : Nat) (x : NmNode) : (s.setNode i x).ls = s.ls := by cases s; rfl
@[simp] theorem State.setNode_pair (s : State) (i : Nat) (x : NmNode) : (s.setNode i x).pair = s.pair := by cases s; rfl
@[simp] theorem State.setNode_sec (s : State) (i : Nat) (x : NmNode) : (s.setNode i x).sec = s.sec := by cases s; rfl
@[simp] theorem State.setNode_upd (s : State) (i : Nat) (x : NmNode) : (s.setNode i x).upd = s.upd := by cases s; rfl
@[simp] theorem State.setNode_isl (s : State) (i : Nat) (x : NmNode) : (s.setNode i x).isl = s.isl := by cases s; rfl
@[simp] theorem State.setNode_jtag (s : State) (i : Nat) (x : NmNode) : (s.setNode i x).jtag = s.jtag := by cases s; rfl

@[simp] theorem State.latchWake_pending (s : State) (m : BitVec 9) : (s.latchWake m).pending = s.pending := by cases s; rfl
@[simp] theorem State.latchWake_pw (s : State) (m : BitVec 9) : (s.latchWake m).pw = s.pw := by cases s; rfl
@[simp] theorem State.latchWake_mem (s : State) (m : BitVec 9) : (s.latchWake m).mem = s.mem := by cases s; rfl
@[simp] theorem State.latchWake_check (s : State) (m : BitVec 9) : (s.latchWake m).check = s.check := by cases s; rfl
@[simp] theorem State.latchWake_cnt32 (s : State) (m : BitVec 9) : (s.latchWake m).cnt32 = s.cnt32 := by cases s; rfl
@[simp] theorem State.latchWake_cnt64 (s : State) (m : BitVec 9) : (s.latchWake m).cnt64 = s.cnt64 := by cases s; rfl
@[simp] theorem State.latchWake_hiLatch (s : State) (m : BitVec 9) : (s.latchWake m).hiLatch = s.hiLatch := by cases s; rfl
@[simp] theorem State.latchWake_params (s : State) (m : BitVec 9) : (s.latchWake m).params = s.params := by cases s; rfl
@[simp] theorem State.latchWake_fresh (s : State) (m : BitVec 9) : (s.latchWake m).fresh = s.fresh := by cases s; rfl
@[simp] theorem State.latchWake_time (s : State) (m : BitVec 9) : (s.latchWake m).time = s.time := by cases s; rfl
@[simp] theorem State.latchWake_gptp (s : State) (m : BitVec 9) : (s.latchWake m).gptp = s.gptp := by cases s; rfl
@[simp] theorem State.latchWake_angle (s : State) (m : BitVec 9) : (s.latchWake m).angle = s.angle := by cases s; rfl
@[simp] theorem State.latchWake_snap (s : State) (m : BitVec 9) : (s.latchWake m).snap = s.snap := by cases s; rfl
@[simp] theorem State.latchWake_sw (s : State) (m : BitVec 9) : (s.latchWake m).sw = s.sw := by cases s; rfl
@[simp] theorem State.latchWake_fab (s : State) (m : BitVec 9) : (s.latchWake m).fab = s.fab := by cases s; rfl
@[simp] theorem State.latchWake_scr (s : State) (m : BitVec 9) : (s.latchWake m).scr = s.scr := by cases s; rfl
@[simp] theorem State.latchWake_bus (s : State) (m : BitVec 9) : (s.latchWake m).bus = s.bus := by cases s; rfl
@[simp] theorem State.latchWake_host (s : State) (m : BitVec 9) : (s.latchWake m).host = s.host := by cases s; rfl
@[simp] theorem State.latchWake_dw (s : State) (m : BitVec 9) : (s.latchWake m).dw = s.dw := by cases s; rfl
@[simp] theorem State.latchWake_snapshot (s : State) (m : BitVec 9) : (s.latchWake m).snapshot = s.snapshot := by cases s; rfl
@[simp] theorem State.latchWake_ls (s : State) (m : BitVec 9) : (s.latchWake m).ls = s.ls := by cases s; rfl
@[simp] theorem State.latchWake_pair (s : State) (m : BitVec 9) : (s.latchWake m).pair = s.pair := by cases s; rfl
@[simp] theorem State.latchWake_sec (s : State) (m : BitVec 9) : (s.latchWake m).sec = s.sec := by cases s; rfl
@[simp] theorem State.latchWake_upd (s : State) (m : BitVec 9) : (s.latchWake m).upd = s.upd := by cases s; rfl
@[simp] theorem State.latchWake_isl (s : State) (m : BitVec 9) : (s.latchWake m).isl = s.isl := by cases s; rfl
@[simp] theorem State.latchWake_jtag (s : State) (m : BitVec 9) : (s.latchWake m).jtag = s.jtag := by cases s; rfl

@[simp] theorem State.allLinksDown_pending (s : State) : (s.allLinksDown).pending = s.pending := by cases s; rfl
@[simp] theorem State.allLinksDown_pw (s : State) : (s.allLinksDown).pw = s.pw := by cases s; rfl
@[simp] theorem State.allLinksDown_mem (s : State) : (s.allLinksDown).mem = s.mem := by cases s; rfl
@[simp] theorem State.allLinksDown_check (s : State) : (s.allLinksDown).check = s.check := by cases s; rfl
@[simp] theorem State.allLinksDown_cnt32 (s : State) : (s.allLinksDown).cnt32 = s.cnt32 := by cases s; rfl
@[simp] theorem State.allLinksDown_cnt64 (s : State) : (s.allLinksDown).cnt64 = s.cnt64 := by cases s; rfl
@[simp] theorem State.allLinksDown_hiLatch (s : State) : (s.allLinksDown).hiLatch = s.hiLatch := by cases s; rfl
@[simp] theorem State.allLinksDown_params (s : State) : (s.allLinksDown).params = s.params := by cases s; rfl
@[simp] theorem State.allLinksDown_fresh (s : State) : (s.allLinksDown).fresh = s.fresh := by cases s; rfl
@[simp] theorem State.allLinksDown_time (s : State) : (s.allLinksDown).time = s.time := by cases s; rfl
@[simp] theorem State.allLinksDown_gptp (s : State) : (s.allLinksDown).gptp = s.gptp := by cases s; rfl
@[simp] theorem State.allLinksDown_angle (s : State) : (s.allLinksDown).angle = s.angle := by cases s; rfl
@[simp] theorem State.allLinksDown_snap (s : State) : (s.allLinksDown).snap = s.snap := by cases s; rfl
@[simp] theorem State.allLinksDown_fab (s : State) : (s.allLinksDown).fab = s.fab := by cases s; rfl
@[simp] theorem State.allLinksDown_scr (s : State) : (s.allLinksDown).scr = s.scr := by cases s; rfl
@[simp] theorem State.allLinksDown_bus (s : State) : (s.allLinksDown).bus = s.bus := by cases s; rfl
@[simp] theorem State.allLinksDown_host (s : State) : (s.allLinksDown).host = s.host := by cases s; rfl
@[simp] theorem State.allLinksDown_nm (s : State) : (s.allLinksDown).nm = s.nm := by cases s; rfl
@[simp] theorem State.allLinksDown_snapshot (s : State) : (s.allLinksDown).snapshot = s.snapshot := by cases s; rfl
@[simp] theorem State.allLinksDown_ls (s : State) : (s.allLinksDown).ls = s.ls := by cases s; rfl
@[simp] theorem State.allLinksDown_pair (s : State) : (s.allLinksDown).pair = s.pair := by cases s; rfl
@[simp] theorem State.allLinksDown_sec (s : State) : (s.allLinksDown).sec = s.sec := by cases s; rfl
@[simp] theorem State.allLinksDown_upd (s : State) : (s.allLinksDown).upd = s.upd := by cases s; rfl
@[simp] theorem State.allLinksDown_isl (s : State) : (s.allLinksDown).isl = s.isl := by cases s; rfl
@[simp] theorem State.allLinksDown_jtag (s : State) : (s.allLinksDown).jtag = s.jtag := by cases s; rfl

@[simp] theorem State.discardTraffic_pending (s : State) : (s.discardTraffic).pending = s.pending := by cases s; rfl
@[simp] theorem State.discardTraffic_pw (s : State) : (s.discardTraffic).pw = s.pw := by cases s; rfl
@[simp] theorem State.discardTraffic_mem (s : State) : (s.discardTraffic).mem = s.mem := by cases s; rfl
@[simp] theorem State.discardTraffic_check (s : State) : (s.discardTraffic).check = s.check := by cases s; rfl
@[simp] theorem State.discardTraffic_cnt32 (s : State) : (s.discardTraffic).cnt32 = s.cnt32 := by cases s; rfl
@[simp] theorem State.discardTraffic_cnt64 (s : State) : (s.discardTraffic).cnt64 = s.cnt64 := by cases s; rfl
@[simp] theorem State.discardTraffic_hiLatch (s : State) : (s.discardTraffic).hiLatch = s.hiLatch := by cases s; rfl
@[simp] theorem State.discardTraffic_params (s : State) : (s.discardTraffic).params = s.params := by cases s; rfl
@[simp] theorem State.discardTraffic_fresh (s : State) : (s.discardTraffic).fresh = s.fresh := by cases s; rfl
@[simp] theorem State.discardTraffic_time (s : State) : (s.discardTraffic).time = s.time := by cases s; rfl
@[simp] theorem State.discardTraffic_gptp (s : State) : (s.discardTraffic).gptp = s.gptp := by cases s; rfl
@[simp] theorem State.discardTraffic_angle (s : State) : (s.discardTraffic).angle = s.angle := by cases s; rfl
@[simp] theorem State.discardTraffic_snap (s : State) : (s.discardTraffic).snap = s.snap := by cases s; rfl
@[simp] theorem State.discardTraffic_scr (s : State) : (s.discardTraffic).scr = s.scr := by cases s; rfl
@[simp] theorem State.discardTraffic_bus (s : State) : (s.discardTraffic).bus = s.bus := by cases s; rfl
@[simp] theorem State.discardTraffic_host (s : State) : (s.discardTraffic).host = s.host := by cases s; rfl
@[simp] theorem State.discardTraffic_dw (s : State) : (s.discardTraffic).dw = s.dw := by cases s; rfl
@[simp] theorem State.discardTraffic_nm (s : State) : (s.discardTraffic).nm = s.nm := by cases s; rfl
@[simp] theorem State.discardTraffic_snapshot (s : State) : (s.discardTraffic).snapshot = s.snapshot := by cases s; rfl
@[simp] theorem State.discardTraffic_ls (s : State) : (s.discardTraffic).ls = s.ls := by cases s; rfl
@[simp] theorem State.discardTraffic_pair (s : State) : (s.discardTraffic).pair = s.pair := by cases s; rfl
@[simp] theorem State.discardTraffic_sec (s : State) : (s.discardTraffic).sec = s.sec := by cases s; rfl
@[simp] theorem State.discardTraffic_upd (s : State) : (s.discardTraffic).upd = s.upd := by cases s; rfl
@[simp] theorem State.discardTraffic_isl (s : State) : (s.discardTraffic).isl = s.isl := by cases s; rfl
@[simp] theorem State.discardTraffic_jtag (s : State) : (s.discardTraffic).jtag = s.jtag := by cases s; rfl

@[simp] theorem State.silenceBuses_pending (s : State) : (s.silenceBuses).pending = s.pending := by cases s; rfl
@[simp] theorem State.silenceBuses_pw (s : State) : (s.silenceBuses).pw = s.pw := by cases s; rfl
@[simp] theorem State.silenceBuses_mem (s : State) : (s.silenceBuses).mem = s.mem := by cases s; rfl
@[simp] theorem State.silenceBuses_check (s : State) : (s.silenceBuses).check = s.check := by cases s; rfl
@[simp] theorem State.silenceBuses_cnt32 (s : State) : (s.silenceBuses).cnt32 = s.cnt32 := by cases s; rfl
@[simp] theorem State.silenceBuses_cnt64 (s : State) : (s.silenceBuses).cnt64 = s.cnt64 := by cases s; rfl
@[simp] theorem State.silenceBuses_hiLatch (s : State) : (s.silenceBuses).hiLatch = s.hiLatch := by cases s; rfl
@[simp] theorem State.silenceBuses_params (s : State) : (s.silenceBuses).params = s.params := by cases s; rfl
@[simp] theorem State.silenceBuses_fresh (s : State) : (s.silenceBuses).fresh = s.fresh := by cases s; rfl
@[simp] theorem State.silenceBuses_time (s : State) : (s.silenceBuses).time = s.time := by cases s; rfl
@[simp] theorem State.silenceBuses_gptp (s : State) : (s.silenceBuses).gptp = s.gptp := by cases s; rfl
@[simp] theorem State.silenceBuses_angle (s : State) : (s.silenceBuses).angle = s.angle := by cases s; rfl
@[simp] theorem State.silenceBuses_snap (s : State) : (s.silenceBuses).snap = s.snap := by cases s; rfl
@[simp] theorem State.silenceBuses_sw (s : State) : (s.silenceBuses).sw = s.sw := by cases s; rfl
@[simp] theorem State.silenceBuses_fab (s : State) : (s.silenceBuses).fab = s.fab := by cases s; rfl
@[simp] theorem State.silenceBuses_scr (s : State) : (s.silenceBuses).scr = s.scr := by cases s; rfl
@[simp] theorem State.silenceBuses_host (s : State) : (s.silenceBuses).host = s.host := by cases s; rfl
@[simp] theorem State.silenceBuses_dw (s : State) : (s.silenceBuses).dw = s.dw := by cases s; rfl
@[simp] theorem State.silenceBuses_nm (s : State) : (s.silenceBuses).nm = s.nm := by cases s; rfl
@[simp] theorem State.silenceBuses_snapshot (s : State) : (s.silenceBuses).snapshot = s.snapshot := by cases s; rfl
@[simp] theorem State.silenceBuses_ls (s : State) : (s.silenceBuses).ls = s.ls := by cases s; rfl
@[simp] theorem State.silenceBuses_pair (s : State) : (s.silenceBuses).pair = s.pair := by cases s; rfl
@[simp] theorem State.silenceBuses_sec (s : State) : (s.silenceBuses).sec = s.sec := by cases s; rfl
@[simp] theorem State.silenceBuses_upd (s : State) : (s.silenceBuses).upd = s.upd := by cases s; rfl
@[simp] theorem State.silenceBuses_isl (s : State) : (s.silenceBuses).isl = s.isl := by cases s; rfl
@[simp] theorem State.silenceBuses_jtag (s : State) : (s.silenceBuses).jtag = s.jtag := by cases s; rfl

@[simp] theorem State.giveToken_pending (s : State) (a : Activity) : (s.giveToken a).pending = s.pending := by cases s; rfl
@[simp] theorem State.giveToken_mem (s : State) (a : Activity) : (s.giveToken a).mem = s.mem := by cases s; rfl
@[simp] theorem State.giveToken_check (s : State) (a : Activity) : (s.giveToken a).check = s.check := by cases s; rfl
@[simp] theorem State.giveToken_cnt32 (s : State) (a : Activity) : (s.giveToken a).cnt32 = s.cnt32 := by cases s; rfl
@[simp] theorem State.giveToken_cnt64 (s : State) (a : Activity) : (s.giveToken a).cnt64 = s.cnt64 := by cases s; rfl
@[simp] theorem State.giveToken_hiLatch (s : State) (a : Activity) : (s.giveToken a).hiLatch = s.hiLatch := by cases s; rfl
@[simp] theorem State.giveToken_params (s : State) (a : Activity) : (s.giveToken a).params = s.params := by cases s; rfl
@[simp] theorem State.giveToken_fresh (s : State) (a : Activity) : (s.giveToken a).fresh = s.fresh := by cases s; rfl
@[simp] theorem State.giveToken_time (s : State) (a : Activity) : (s.giveToken a).time = s.time := by cases s; rfl
@[simp] theorem State.giveToken_gptp (s : State) (a : Activity) : (s.giveToken a).gptp = s.gptp := by cases s; rfl
@[simp] theorem State.giveToken_angle (s : State) (a : Activity) : (s.giveToken a).angle = s.angle := by cases s; rfl
@[simp] theorem State.giveToken_snap (s : State) (a : Activity) : (s.giveToken a).snap = s.snap := by cases s; rfl
@[simp] theorem State.giveToken_fab (s : State) (a : Activity) : (s.giveToken a).fab = s.fab := by cases s; rfl
@[simp] theorem State.giveToken_scr (s : State) (a : Activity) : (s.giveToken a).scr = s.scr := by cases s; rfl
@[simp] theorem State.giveToken_bus (s : State) (a : Activity) : (s.giveToken a).bus = s.bus := by cases s; rfl
@[simp] theorem State.giveToken_host (s : State) (a : Activity) : (s.giveToken a).host = s.host := by cases s; rfl
@[simp] theorem State.giveToken_dw (s : State) (a : Activity) : (s.giveToken a).dw = s.dw := by cases s; rfl
@[simp] theorem State.giveToken_nm (s : State) (a : Activity) : (s.giveToken a).nm = s.nm := by cases s; rfl
@[simp] theorem State.giveToken_snapshot (s : State) (a : Activity) : (s.giveToken a).snapshot = s.snapshot := by cases s; rfl
@[simp] theorem State.giveToken_pair (s : State) (a : Activity) : (s.giveToken a).pair = s.pair := by cases s; rfl
@[simp] theorem State.giveToken_upd (s : State) (a : Activity) : (s.giveToken a).upd = s.upd := by cases s; rfl
@[simp] theorem State.giveToken_isl (s : State) (a : Activity) : (s.giveToken a).isl = s.isl := by cases s; rfl
@[simp] theorem State.giveToken_jtag (s : State) (a : Activity) : (s.giveToken a).jtag = s.jtag := by cases s; rfl

@[simp] theorem State.enterDone_pending (s : State) (mb : Nat) (r : Option (BitVec 16 × BitVec 16 × List Byte)) : (s.enterDone mb r).pending = s.pending := by cases s; rfl
@[simp] theorem State.enterDone_pw (s : State) (mb : Nat) (r : Option (BitVec 16 × BitVec 16 × List Byte)) : (s.enterDone mb r).pw = s.pw := by cases s; rfl
@[simp] theorem State.enterDone_mem (s : State) (mb : Nat) (r : Option (BitVec 16 × BitVec 16 × List Byte)) : (s.enterDone mb r).mem = s.mem := by cases s; rfl
@[simp] theorem State.enterDone_check (s : State) (mb : Nat) (r : Option (BitVec 16 × BitVec 16 × List Byte)) : (s.enterDone mb r).check = s.check := by cases s; rfl
@[simp] theorem State.enterDone_cnt32 (s : State) (mb : Nat) (r : Option (BitVec 16 × BitVec 16 × List Byte)) : (s.enterDone mb r).cnt32 = s.cnt32 := by cases s; rfl
@[simp] theorem State.enterDone_cnt64 (s : State) (mb : Nat) (r : Option (BitVec 16 × BitVec 16 × List Byte)) : (s.enterDone mb r).cnt64 = s.cnt64 := by cases s; rfl
@[simp] theorem State.enterDone_hiLatch (s : State) (mb : Nat) (r : Option (BitVec 16 × BitVec 16 × List Byte)) : (s.enterDone mb r).hiLatch = s.hiLatch := by cases s; rfl
@[simp] theorem State.enterDone_params (s : State) (mb : Nat) (r : Option (BitVec 16 × BitVec 16 × List Byte)) : (s.enterDone mb r).params = s.params := by cases s; rfl
@[simp] theorem State.enterDone_fresh (s : State) (mb : Nat) (r : Option (BitVec 16 × BitVec 16 × List Byte)) : (s.enterDone mb r).fresh = s.fresh := by cases s; rfl
@[simp] theorem State.enterDone_time (s : State) (mb : Nat) (r : Option (BitVec 16 × BitVec 16 × List Byte)) : (s.enterDone mb r).time = s.time := by cases s; rfl
@[simp] theorem State.enterDone_gptp (s : State) (mb : Nat) (r : Option (BitVec 16 × BitVec 16 × List Byte)) : (s.enterDone mb r).gptp = s.gptp := by cases s; rfl
@[simp] theorem State.enterDone_angle (s : State) (mb : Nat) (r : Option (BitVec 16 × BitVec 16 × List Byte)) : (s.enterDone mb r).angle = s.angle := by cases s; rfl
@[simp] theorem State.enterDone_snap (s : State) (mb : Nat) (r : Option (BitVec 16 × BitVec 16 × List Byte)) : (s.enterDone mb r).snap = s.snap := by cases s; rfl
@[simp] theorem State.enterDone_sw (s : State) (mb : Nat) (r : Option (BitVec 16 × BitVec 16 × List Byte)) : (s.enterDone mb r).sw = s.sw := by cases s; rfl
@[simp] theorem State.enterDone_fab (s : State) (mb : Nat) (r : Option (BitVec 16 × BitVec 16 × List Byte)) : (s.enterDone mb r).fab = s.fab := by cases s; rfl
@[simp] theorem State.enterDone_scr (s : State) (mb : Nat) (r : Option (BitVec 16 × BitVec 16 × List Byte)) : (s.enterDone mb r).scr = s.scr := by cases s; rfl
@[simp] theorem State.enterDone_bus (s : State) (mb : Nat) (r : Option (BitVec 16 × BitVec 16 × List Byte)) : (s.enterDone mb r).bus = s.bus := by cases s; rfl
@[simp] theorem State.enterDone_dw (s : State) (mb : Nat) (r : Option (BitVec 16 × BitVec 16 × List Byte)) : (s.enterDone mb r).dw = s.dw := by cases s; rfl
@[simp] theorem State.enterDone_nm (s : State) (mb : Nat) (r : Option (BitVec 16 × BitVec 16 × List Byte)) : (s.enterDone mb r).nm = s.nm := by cases s; rfl
@[simp] theorem State.enterDone_snapshot (s : State) (mb : Nat) (r : Option (BitVec 16 × BitVec 16 × List Byte)) : (s.enterDone mb r).snapshot = s.snapshot := by cases s; rfl
@[simp] theorem State.enterDone_ls (s : State) (mb : Nat) (r : Option (BitVec 16 × BitVec 16 × List Byte)) : (s.enterDone mb r).ls = s.ls := by cases s; rfl
@[simp] theorem State.enterDone_pair (s : State) (mb : Nat) (r : Option (BitVec 16 × BitVec 16 × List Byte)) : (s.enterDone mb r).pair = s.pair := by cases s; rfl
@[simp] theorem State.enterDone_sec (s : State) (mb : Nat) (r : Option (BitVec 16 × BitVec 16 × List Byte)) : (s.enterDone mb r).sec = s.sec := by cases s; rfl
@[simp] theorem State.enterDone_upd (s : State) (mb : Nat) (r : Option (BitVec 16 × BitVec 16 × List Byte)) : (s.enterDone mb r).upd = s.upd := by cases s; rfl
@[simp] theorem State.enterDone_isl (s : State) (mb : Nat) (r : Option (BitVec 16 × BitVec 16 × List Byte)) : (s.enterDone mb r).isl = s.isl := by cases s; rfl
@[simp] theorem State.enterDone_jtag (s : State) (mb : Nat) (r : Option (BitVec 16 × BitVec 16 × List Byte)) : (s.enterDone mb r).jtag = s.jtag := by cases s; rfl

@[simp] theorem State.complete_pending (s : State) (mb : Nat) (st : Status) (pay : List Byte) : (s.complete mb st pay).pending = s.pending := by cases s; rfl
@[simp] theorem State.complete_pw (s : State) (mb : Nat) (st : Status) (pay : List Byte) : (s.complete mb st pay).pw = s.pw := by cases s; rfl
@[simp] theorem State.complete_check (s : State) (mb : Nat) (st : Status) (pay : List Byte) : (s.complete mb st pay).check = s.check := by cases s; rfl
@[simp] theorem State.complete_cnt32 (s : State) (mb : Nat) (st : Status) (pay : List Byte) : (s.complete mb st pay).cnt32 = s.cnt32 := by cases s; rfl
@[simp] theorem State.complete_cnt64 (s : State) (mb : Nat) (st : Status) (pay : List Byte) : (s.complete mb st pay).cnt64 = s.cnt64 := by cases s; rfl
@[simp] theorem State.complete_hiLatch (s : State) (mb : Nat) (st : Status) (pay : List Byte) : (s.complete mb st pay).hiLatch = s.hiLatch := by cases s; rfl
@[simp] theorem State.complete_params (s : State) (mb : Nat) (st : Status) (pay : List Byte) : (s.complete mb st pay).params = s.params := by cases s; rfl
@[simp] theorem State.complete_fresh (s : State) (mb : Nat) (st : Status) (pay : List Byte) : (s.complete mb st pay).fresh = s.fresh := by cases s; rfl
@[simp] theorem State.complete_time (s : State) (mb : Nat) (st : Status) (pay : List Byte) : (s.complete mb st pay).time = s.time := by cases s; rfl
@[simp] theorem State.complete_gptp (s : State) (mb : Nat) (st : Status) (pay : List Byte) : (s.complete mb st pay).gptp = s.gptp := by cases s; rfl
@[simp] theorem State.complete_angle (s : State) (mb : Nat) (st : Status) (pay : List Byte) : (s.complete mb st pay).angle = s.angle := by cases s; rfl
@[simp] theorem State.complete_snap (s : State) (mb : Nat) (st : Status) (pay : List Byte) : (s.complete mb st pay).snap = s.snap := by cases s; rfl
@[simp] theorem State.complete_sw (s : State) (mb : Nat) (st : Status) (pay : List Byte) : (s.complete mb st pay).sw = s.sw := by cases s; rfl
@[simp] theorem State.complete_fab (s : State) (mb : Nat) (st : Status) (pay : List Byte) : (s.complete mb st pay).fab = s.fab := by cases s; rfl
@[simp] theorem State.complete_scr (s : State) (mb : Nat) (st : Status) (pay : List Byte) : (s.complete mb st pay).scr = s.scr := by cases s; rfl
@[simp] theorem State.complete_bus (s : State) (mb : Nat) (st : Status) (pay : List Byte) : (s.complete mb st pay).bus = s.bus := by cases s; rfl
@[simp] theorem State.complete_dw (s : State) (mb : Nat) (st : Status) (pay : List Byte) : (s.complete mb st pay).dw = s.dw := by cases s; rfl
@[simp] theorem State.complete_nm (s : State) (mb : Nat) (st : Status) (pay : List Byte) : (s.complete mb st pay).nm = s.nm := by cases s; rfl
@[simp] theorem State.complete_snapshot (s : State) (mb : Nat) (st : Status) (pay : List Byte) : (s.complete mb st pay).snapshot = s.snapshot := by cases s; rfl
@[simp] theorem State.complete_ls (s : State) (mb : Nat) (st : Status) (pay : List Byte) : (s.complete mb st pay).ls = s.ls := by cases s; rfl
@[simp] theorem State.complete_pair (s : State) (mb : Nat) (st : Status) (pay : List Byte) : (s.complete mb st pay).pair = s.pair := by cases s; rfl
@[simp] theorem State.complete_sec (s : State) (mb : Nat) (st : Status) (pay : List Byte) : (s.complete mb st pay).sec = s.sec := by cases s; rfl
@[simp] theorem State.complete_upd (s : State) (mb : Nat) (st : Status) (pay : List Byte) : (s.complete mb st pay).upd = s.upd := by cases s; rfl
@[simp] theorem State.complete_isl (s : State) (mb : Nat) (st : Status) (pay : List Byte) : (s.complete mb st pay).isl = s.isl := by cases s; rfl
@[simp] theorem State.complete_jtag (s : State) (mb : Nat) (st : Status) (pay : List Byte) : (s.complete mb st pay).jtag = s.jtag := by cases s; rfl

@[simp] theorem State.completeOnly_pending (s : State) (mb : Nat) (st : Status) : (s.completeOnly mb st).pending = s.pending := by cases s; rfl
@[simp] theorem State.completeOnly_pw (s : State) (mb : Nat) (st : Status) : (s.completeOnly mb st).pw = s.pw := by cases s; rfl
@[simp] theorem State.completeOnly_check (s : State) (mb : Nat) (st : Status) : (s.completeOnly mb st).check = s.check := by cases s; rfl
@[simp] theorem State.completeOnly_cnt32 (s : State) (mb : Nat) (st : Status) : (s.completeOnly mb st).cnt32 = s.cnt32 := by cases s; rfl
@[simp] theorem State.completeOnly_cnt64 (s : State) (mb : Nat) (st : Status) : (s.completeOnly mb st).cnt64 = s.cnt64 := by cases s; rfl
@[simp] theorem State.completeOnly_hiLatch (s : State) (mb : Nat) (st : Status) : (s.completeOnly mb st).hiLatch = s.hiLatch := by cases s; rfl
@[simp] theorem State.completeOnly_params (s : State) (mb : Nat) (st : Status) : (s.completeOnly mb st).params = s.params := by cases s; rfl
@[simp] theorem State.completeOnly_fresh (s : State) (mb : Nat) (st : Status) : (s.completeOnly mb st).fresh = s.fresh := by cases s; rfl
@[simp] theorem State.completeOnly_time (s : State) (mb : Nat) (st : Status) : (s.completeOnly mb st).time = s.time := by cases s; rfl
@[simp] theorem State.completeOnly_gptp (s : State) (mb : Nat) (st : Status) : (s.completeOnly mb st).gptp = s.gptp := by cases s; rfl
@[simp] theorem State.completeOnly_angle (s : State) (mb : Nat) (st : Status) : (s.completeOnly mb st).angle = s.angle := by cases s; rfl
@[simp] theorem State.completeOnly_snap (s : State) (mb : Nat) (st : Status) : (s.completeOnly mb st).snap = s.snap := by cases s; rfl
@[simp] theorem State.completeOnly_sw (s : State) (mb : Nat) (st : Status) : (s.completeOnly mb st).sw = s.sw := by cases s; rfl
@[simp] theorem State.completeOnly_fab (s : State) (mb : Nat) (st : Status) : (s.completeOnly mb st).fab = s.fab := by cases s; rfl
@[simp] theorem State.completeOnly_scr (s : State) (mb : Nat) (st : Status) : (s.completeOnly mb st).scr = s.scr := by cases s; rfl
@[simp] theorem State.completeOnly_bus (s : State) (mb : Nat) (st : Status) : (s.completeOnly mb st).bus = s.bus := by cases s; rfl
@[simp] theorem State.completeOnly_dw (s : State) (mb : Nat) (st : Status) : (s.completeOnly mb st).dw = s.dw := by cases s; rfl
@[simp] theorem State.completeOnly_nm (s : State) (mb : Nat) (st : Status) : (s.completeOnly mb st).nm = s.nm := by cases s; rfl
@[simp] theorem State.completeOnly_snapshot (s : State) (mb : Nat) (st : Status) : (s.completeOnly mb st).snapshot = s.snapshot := by cases s; rfl
@[simp] theorem State.completeOnly_ls (s : State) (mb : Nat) (st : Status) : (s.completeOnly mb st).ls = s.ls := by cases s; rfl
@[simp] theorem State.completeOnly_pair (s : State) (mb : Nat) (st : Status) : (s.completeOnly mb st).pair = s.pair := by cases s; rfl
@[simp] theorem State.completeOnly_sec (s : State) (mb : Nat) (st : Status) : (s.completeOnly mb st).sec = s.sec := by cases s; rfl
@[simp] theorem State.completeOnly_upd (s : State) (mb : Nat) (st : Status) : (s.completeOnly mb st).upd = s.upd := by cases s; rfl
@[simp] theorem State.completeOnly_isl (s : State) (mb : Nat) (st : Status) : (s.completeOnly mb st).isl = s.isl := by cases s; rfl
@[simp] theorem State.completeOnly_jtag (s : State) (mb : Nat) (st : Status) : (s.completeOnly mb st).jtag = s.jtag := by cases s; rfl

@[simp] theorem State.setStage_pending (s : State) (b : Bool) (a : Area) : (s.setStage b a).pending = s.pending := by cases s; rfl
@[simp] theorem State.setStage_pw (s : State) (b : Bool) (a : Area) : (s.setStage b a).pw = s.pw := by cases s; rfl
@[simp] theorem State.setStage_check (s : State) (b : Bool) (a : Area) : (s.setStage b a).check = s.check := by cases s; rfl
@[simp] theorem State.setStage_cnt32 (s : State) (b : Bool) (a : Area) : (s.setStage b a).cnt32 = s.cnt32 := by cases s; rfl
@[simp] theorem State.setStage_cnt64 (s : State) (b : Bool) (a : Area) : (s.setStage b a).cnt64 = s.cnt64 := by cases s; rfl
@[simp] theorem State.setStage_hiLatch (s : State) (b : Bool) (a : Area) : (s.setStage b a).hiLatch = s.hiLatch := by cases s; rfl
@[simp] theorem State.setStage_params (s : State) (b : Bool) (a : Area) : (s.setStage b a).params = s.params := by cases s; rfl
@[simp] theorem State.setStage_fresh (s : State) (b : Bool) (a : Area) : (s.setStage b a).fresh = s.fresh := by cases s; rfl
@[simp] theorem State.setStage_time (s : State) (b : Bool) (a : Area) : (s.setStage b a).time = s.time := by cases s; rfl
@[simp] theorem State.setStage_gptp (s : State) (b : Bool) (a : Area) : (s.setStage b a).gptp = s.gptp := by cases s; rfl
@[simp] theorem State.setStage_angle (s : State) (b : Bool) (a : Area) : (s.setStage b a).angle = s.angle := by cases s; rfl
@[simp] theorem State.setStage_snap (s : State) (b : Bool) (a : Area) : (s.setStage b a).snap = s.snap := by cases s; rfl
@[simp] theorem State.setStage_sw (s : State) (b : Bool) (a : Area) : (s.setStage b a).sw = s.sw := by cases s; rfl
@[simp] theorem State.setStage_fab (s : State) (b : Bool) (a : Area) : (s.setStage b a).fab = s.fab := by cases s; rfl
@[simp] theorem State.setStage_scr (s : State) (b : Bool) (a : Area) : (s.setStage b a).scr = s.scr := by cases s; rfl
@[simp] theorem State.setStage_bus (s : State) (b : Bool) (a : Area) : (s.setStage b a).bus = s.bus := by cases s; rfl
@[simp] theorem State.setStage_host (s : State) (b : Bool) (a : Area) : (s.setStage b a).host = s.host := by cases s; rfl
@[simp] theorem State.setStage_dw (s : State) (b : Bool) (a : Area) : (s.setStage b a).dw = s.dw := by cases s; rfl
@[simp] theorem State.setStage_nm (s : State) (b : Bool) (a : Area) : (s.setStage b a).nm = s.nm := by cases s; rfl
@[simp] theorem State.setStage_snapshot (s : State) (b : Bool) (a : Area) : (s.setStage b a).snapshot = s.snapshot := by cases s; rfl
@[simp] theorem State.setStage_ls (s : State) (b : Bool) (a : Area) : (s.setStage b a).ls = s.ls := by cases s; rfl
@[simp] theorem State.setStage_pair (s : State) (b : Bool) (a : Area) : (s.setStage b a).pair = s.pair := by cases s; rfl
@[simp] theorem State.setStage_sec (s : State) (b : Bool) (a : Area) : (s.setStage b a).sec = s.sec := by cases s; rfl
@[simp] theorem State.setStage_isl (s : State) (b : Bool) (a : Area) : (s.setStage b a).isl = s.isl := by cases s; rfl
@[simp] theorem State.setStage_jtag (s : State) (b : Bool) (a : Area) : (s.setStage b a).jtag = s.jtag := by cases s; rfl

@[simp] theorem State.draw_pending (s : State) : (s.draw).2.pending = s.pending := by cases s; rfl
@[simp] theorem State.draw_pw (s : State) : (s.draw).2.pw = s.pw := by cases s; rfl
@[simp] theorem State.draw_mem (s : State) : (s.draw).2.mem = s.mem := by cases s; rfl
@[simp] theorem State.draw_check (s : State) : (s.draw).2.check = s.check := by cases s; rfl
@[simp] theorem State.draw_cnt32 (s : State) : (s.draw).2.cnt32 = s.cnt32 := by cases s; rfl
@[simp] theorem State.draw_cnt64 (s : State) : (s.draw).2.cnt64 = s.cnt64 := by cases s; rfl
@[simp] theorem State.draw_hiLatch (s : State) : (s.draw).2.hiLatch = s.hiLatch := by cases s; rfl
@[simp] theorem State.draw_params (s : State) : (s.draw).2.params = s.params := by cases s; rfl
@[simp] theorem State.draw_time (s : State) : (s.draw).2.time = s.time := by cases s; rfl
@[simp] theorem State.draw_gptp (s : State) : (s.draw).2.gptp = s.gptp := by cases s; rfl
@[simp] theorem State.draw_angle (s : State) : (s.draw).2.angle = s.angle := by cases s; rfl
@[simp] theorem State.draw_snap (s : State) : (s.draw).2.snap = s.snap := by cases s; rfl
@[simp] theorem State.draw_sw (s : State) : (s.draw).2.sw = s.sw := by cases s; rfl
@[simp] theorem State.draw_fab (s : State) : (s.draw).2.fab = s.fab := by cases s; rfl
@[simp] theorem State.draw_scr (s : State) : (s.draw).2.scr = s.scr := by cases s; rfl
@[simp] theorem State.draw_bus (s : State) : (s.draw).2.bus = s.bus := by cases s; rfl
@[simp] theorem State.draw_host (s : State) : (s.draw).2.host = s.host := by cases s; rfl
@[simp] theorem State.draw_dw (s : State) : (s.draw).2.dw = s.dw := by cases s; rfl
@[simp] theorem State.draw_nm (s : State) : (s.draw).2.nm = s.nm := by cases s; rfl
@[simp] theorem State.draw_snapshot (s : State) : (s.draw).2.snapshot = s.snapshot := by cases s; rfl
@[simp] theorem State.draw_ls (s : State) : (s.draw).2.ls = s.ls := by cases s; rfl
@[simp] theorem State.draw_pair (s : State) : (s.draw).2.pair = s.pair := by cases s; rfl
@[simp] theorem State.draw_sec (s : State) : (s.draw).2.sec = s.sec := by cases s; rfl
@[simp] theorem State.draw_upd (s : State) : (s.draw).2.upd = s.upd := by cases s; rfl
@[simp] theorem State.draw_isl (s : State) : (s.draw).2.isl = s.isl := by cases s; rfl
@[simp] theorem State.draw_jtag (s : State) : (s.draw).2.jtag = s.jtag := by cases s; rfl

@[simp] theorem State.drawWord_pending (s : State) : (s.drawWord).2.pending = s.pending := by cases s; rfl
@[simp] theorem State.drawWord_pw (s : State) : (s.drawWord).2.pw = s.pw := by cases s; rfl
@[simp] theorem State.drawWord_mem (s : State) : (s.drawWord).2.mem = s.mem := by cases s; rfl
@[simp] theorem State.drawWord_check (s : State) : (s.drawWord).2.check = s.check := by cases s; rfl
@[simp] theorem State.drawWord_cnt32 (s : State) : (s.drawWord).2.cnt32 = s.cnt32 := by cases s; rfl
@[simp] theorem State.drawWord_cnt64 (s : State) : (s.drawWord).2.cnt64 = s.cnt64 := by cases s; rfl
@[simp] theorem State.drawWord_hiLatch (s : State) : (s.drawWord).2.hiLatch = s.hiLatch := by cases s; rfl
@[simp] theorem State.drawWord_params (s : State) : (s.drawWord).2.params = s.params := by cases s; rfl
@[simp] theorem State.drawWord_time (s : State) : (s.drawWord).2.time = s.time := by cases s; rfl
@[simp] theorem State.drawWord_gptp (s : State) : (s.drawWord).2.gptp = s.gptp := by cases s; rfl
@[simp] theorem State.drawWord_angle (s : State) : (s.drawWord).2.angle = s.angle := by cases s; rfl
@[simp] theorem State.drawWord_snap (s : State) : (s.drawWord).2.snap = s.snap := by cases s; rfl
@[simp] theorem State.drawWord_sw (s : State) : (s.drawWord).2.sw = s.sw := by cases s; rfl
@[simp] theorem State.drawWord_fab (s : State) : (s.drawWord).2.fab = s.fab := by cases s; rfl
@[simp] theorem State.drawWord_scr (s : State) : (s.drawWord).2.scr = s.scr := by cases s; rfl
@[simp] theorem State.drawWord_bus (s : State) : (s.drawWord).2.bus = s.bus := by cases s; rfl
@[simp] theorem State.drawWord_host (s : State) : (s.drawWord).2.host = s.host := by cases s; rfl
@[simp] theorem State.drawWord_dw (s : State) : (s.drawWord).2.dw = s.dw := by cases s; rfl
@[simp] theorem State.drawWord_nm (s : State) : (s.drawWord).2.nm = s.nm := by cases s; rfl
@[simp] theorem State.drawWord_snapshot (s : State) : (s.drawWord).2.snapshot = s.snapshot := by cases s; rfl
@[simp] theorem State.drawWord_ls (s : State) : (s.drawWord).2.ls = s.ls := by cases s; rfl
@[simp] theorem State.drawWord_pair (s : State) : (s.drawWord).2.pair = s.pair := by cases s; rfl
@[simp] theorem State.drawWord_sec (s : State) : (s.drawWord).2.sec = s.sec := by cases s; rfl
@[simp] theorem State.drawWord_upd (s : State) : (s.drawWord).2.upd = s.upd := by cases s; rfl
@[simp] theorem State.drawWord_isl (s : State) : (s.drawWord).2.isl = s.isl := by cases s; rfl
@[simp] theorem State.drawWord_jtag (s : State) : (s.drawWord).2.jtag = s.jtag := by cases s; rfl

@[simp] theorem settle_pending (s t : State) : (settle s t).pending = t.pending := by cases t; rfl
@[simp] theorem settle_pw (s t : State) : (settle s t).pw = t.pw := by cases t; rfl
@[simp] theorem settle_mem (s t : State) : (settle s t).mem = t.mem := by cases t; rfl
@[simp] theorem settle_check (s t : State) : (settle s t).check = t.check := by cases t; rfl
@[simp] theorem settle_cnt32 (s t : State) : (settle s t).cnt32 = t.cnt32 := by cases t; rfl
@[simp] theorem settle_cnt64 (s t : State) : (settle s t).cnt64 = t.cnt64 := by cases t; rfl
@[simp] theorem settle_hiLatch (s t : State) : (settle s t).hiLatch = t.hiLatch := by cases t; rfl
@[simp] theorem settle_params (s t : State) : (settle s t).params = t.params := by cases t; rfl
@[simp] theorem settle_fresh (s t : State) : (settle s t).fresh = t.fresh := by cases t; rfl
@[simp] theorem settle_time (s t : State) : (settle s t).time = t.time := by cases t; rfl
@[simp] theorem settle_gptp (s t : State) : (settle s t).gptp = t.gptp := by cases t; rfl
@[simp] theorem settle_angle (s t : State) : (settle s t).angle = t.angle := by cases t; rfl
@[simp] theorem settle_snap (s t : State) : (settle s t).snap = t.snap := by cases t; rfl
@[simp] theorem settle_sw (s t : State) : (settle s t).sw = t.sw := by cases t; rfl
@[simp] theorem settle_fab (s t : State) : (settle s t).fab = t.fab := by cases t; rfl
@[simp] theorem settle_scr (s t : State) : (settle s t).scr = t.scr := by cases t; rfl
@[simp] theorem settle_bus (s t : State) : (settle s t).bus = t.bus := by cases t; rfl
@[simp] theorem settle_dw (s t : State) : (settle s t).dw = t.dw := by cases t; rfl
@[simp] theorem settle_nm (s t : State) : (settle s t).nm = t.nm := by cases t; rfl
@[simp] theorem settle_snapshot (s t : State) : (settle s t).snapshot = t.snapshot := by cases t; rfl
@[simp] theorem settle_ls (s t : State) : (settle s t).ls = t.ls := by cases t; rfl
@[simp] theorem settle_pair (s t : State) : (settle s t).pair = t.pair := by cases t; rfl
@[simp] theorem settle_sec (s t : State) : (settle s t).sec = t.sec := by cases t; rfl
@[simp] theorem settle_upd (s t : State) : (settle s t).upd = t.upd := by cases t; rfl
@[simp] theorem settle_isl (s t : State) : (settle s t).isl = t.isl := by cases t; rfl
@[simp] theorem settle_jtag (s t : State) : (settle s t).jtag = t.jtag := by cases t; rfl

@[simp] theorem State.releaseToken_pending (s : State) (a : Activity) : (s.releaseToken a).pending = s.pending := by
  unfold State.releaseToken; cases s; dsimp only; split <;> rfl
@[simp] theorem State.releaseToken_mem (s : State) (a : Activity) : (s.releaseToken a).mem = s.mem := by
  unfold State.releaseToken; cases s; dsimp only; split <;> rfl
@[simp] theorem State.releaseToken_check (s : State) (a : Activity) : (s.releaseToken a).check = s.check := by
  unfold State.releaseToken; cases s; dsimp only; split <;> rfl
@[simp] theorem State.releaseToken_cnt32 (s : State) (a : Activity) : (s.releaseToken a).cnt32 = s.cnt32 := by
  unfold State.releaseToken; cases s; dsimp only; split <;> rfl
@[simp] theorem State.releaseToken_cnt64 (s : State) (a : Activity) : (s.releaseToken a).cnt64 = s.cnt64 := by
  unfold State.releaseToken; cases s; dsimp only; split <;> rfl
@[simp] theorem State.releaseToken_hiLatch (s : State) (a : Activity) : (s.releaseToken a).hiLatch = s.hiLatch := by
  unfold State.releaseToken; cases s; dsimp only; split <;> rfl
@[simp] theorem State.releaseToken_params (s : State) (a : Activity) : (s.releaseToken a).params = s.params := by
  unfold State.releaseToken; cases s; dsimp only; split <;> rfl
@[simp] theorem State.releaseToken_fresh (s : State) (a : Activity) : (s.releaseToken a).fresh = s.fresh := by
  unfold State.releaseToken; cases s; dsimp only; split <;> rfl
@[simp] theorem State.releaseToken_time (s : State) (a : Activity) : (s.releaseToken a).time = s.time := by
  unfold State.releaseToken; cases s; dsimp only; split <;> rfl
@[simp] theorem State.releaseToken_gptp (s : State) (a : Activity) : (s.releaseToken a).gptp = s.gptp := by
  unfold State.releaseToken; cases s; dsimp only; split <;> rfl
@[simp] theorem State.releaseToken_angle (s : State) (a : Activity) : (s.releaseToken a).angle = s.angle := by
  unfold State.releaseToken; cases s; dsimp only; split <;> rfl
@[simp] theorem State.releaseToken_snap (s : State) (a : Activity) : (s.releaseToken a).snap = s.snap := by
  unfold State.releaseToken; cases s; dsimp only; split <;> rfl
@[simp] theorem State.releaseToken_sw (s : State) (a : Activity) : (s.releaseToken a).sw = s.sw := by
  unfold State.releaseToken; cases s; dsimp only; split <;> rfl
@[simp] theorem State.releaseToken_fab (s : State) (a : Activity) : (s.releaseToken a).fab = s.fab := by
  unfold State.releaseToken; cases s; dsimp only; split <;> rfl
@[simp] theorem State.releaseToken_scr (s : State) (a : Activity) : (s.releaseToken a).scr = s.scr := by
  unfold State.releaseToken; cases s; dsimp only; split <;> rfl
@[simp] theorem State.releaseToken_bus (s : State) (a : Activity) : (s.releaseToken a).bus = s.bus := by
  unfold State.releaseToken; cases s; dsimp only; split <;> rfl
@[simp] theorem State.releaseToken_host (s : State) (a : Activity) : (s.releaseToken a).host = s.host := by
  unfold State.releaseToken; cases s; dsimp only; split <;> rfl
@[simp] theorem State.releaseToken_dw (s : State) (a : Activity) : (s.releaseToken a).dw = s.dw := by
  unfold State.releaseToken; cases s; dsimp only; split <;> rfl
@[simp] theorem State.releaseToken_nm (s : State) (a : Activity) : (s.releaseToken a).nm = s.nm := by
  unfold State.releaseToken; cases s; dsimp only; split <;> rfl
@[simp] theorem State.releaseToken_snapshot (s : State) (a : Activity) : (s.releaseToken a).snapshot = s.snapshot := by
  unfold State.releaseToken; cases s; dsimp only; split <;> rfl
@[simp] theorem State.releaseToken_ls (s : State) (a : Activity) : (s.releaseToken a).ls = s.ls := by
  unfold State.releaseToken; cases s; dsimp only; split <;> rfl
@[simp] theorem State.releaseToken_pair (s : State) (a : Activity) : (s.releaseToken a).pair = s.pair := by
  unfold State.releaseToken; cases s; dsimp only; split <;> rfl
@[simp] theorem State.releaseToken_sec (s : State) (a : Activity) : (s.releaseToken a).sec = s.sec := by
  unfold State.releaseToken; cases s; dsimp only; split <;> rfl
@[simp] theorem State.releaseToken_upd (s : State) (a : Activity) : (s.releaseToken a).upd = s.upd := by
  unfold State.releaseToken; cases s; dsimp only; split <;> rfl
@[simp] theorem State.releaseToken_isl (s : State) (a : Activity) : (s.releaseToken a).isl = s.isl := by
  unfold State.releaseToken; cases s; dsimp only; split <;> rfl
@[simp] theorem State.releaseToken_jtag (s : State) (a : Activity) : (s.releaseToken a).jtag = s.jtag := by
  unfold State.releaseToken; cases s; dsimp only; split <;> rfl
@[simp] theorem State.cutOtp_pending (s : State) : s.cutOtp.pending = s.pending := by
  unfold State.cutOtp
  split
  · dsimp only
    split
    · rfl
    · simp only [State.setSlot_pending, State.drawWord_pending, State.draw_pending]
  · rfl
@[simp] theorem State.cutOtp_pw (s : State) : s.cutOtp.pw = s.pw := by
  unfold State.cutOtp
  split
  · dsimp only
    split
    · rfl
    · simp only [State.setSlot_pw, State.drawWord_pw, State.draw_pw]
  · rfl
@[simp] theorem State.cutOtp_mem (s : State) : s.cutOtp.mem = s.mem := by
  unfold State.cutOtp
  split
  · dsimp only
    split
    · rfl
    · simp only [State.setSlot_mem, State.drawWord_mem, State.draw_mem]
  · rfl
@[simp] theorem State.cutOtp_check (s : State) : s.cutOtp.check = s.check := by
  unfold State.cutOtp
  split
  · dsimp only
    split
    · rfl
    · simp only [State.setSlot_check, State.drawWord_check, State.draw_check]
  · rfl
@[simp] theorem State.cutOtp_cnt32 (s : State) : s.cutOtp.cnt32 = s.cnt32 := by
  unfold State.cutOtp
  split
  · dsimp only
    split
    · rfl
    · simp only [State.setSlot_cnt32, State.drawWord_cnt32, State.draw_cnt32]
  · rfl
@[simp] theorem State.cutOtp_cnt64 (s : State) : s.cutOtp.cnt64 = s.cnt64 := by
  unfold State.cutOtp
  split
  · dsimp only
    split
    · rfl
    · simp only [State.setSlot_cnt64, State.drawWord_cnt64, State.draw_cnt64]
  · rfl
@[simp] theorem State.cutOtp_hiLatch (s : State) : s.cutOtp.hiLatch = s.hiLatch := by
  unfold State.cutOtp
  split
  · dsimp only
    split
    · rfl
    · simp only [State.setSlot_hiLatch, State.drawWord_hiLatch, State.draw_hiLatch]
  · rfl
@[simp] theorem State.cutOtp_params (s : State) : s.cutOtp.params = s.params := by
  unfold State.cutOtp
  split
  · dsimp only
    split
    · rfl
    · simp only [State.setSlot_params, State.drawWord_params, State.draw_params]
  · rfl
@[simp] theorem State.cutOtp_time (s : State) : s.cutOtp.time = s.time := by
  unfold State.cutOtp
  split
  · dsimp only
    split
    · rfl
    · simp only [State.setSlot_time, State.drawWord_time, State.draw_time]
  · rfl
@[simp] theorem State.cutOtp_gptp (s : State) : s.cutOtp.gptp = s.gptp := by
  unfold State.cutOtp
  split
  · dsimp only
    split
    · rfl
    · simp only [State.setSlot_gptp, State.drawWord_gptp, State.draw_gptp]
  · rfl
@[simp] theorem State.cutOtp_angle (s : State) : s.cutOtp.angle = s.angle := by
  unfold State.cutOtp
  split
  · dsimp only
    split
    · rfl
    · simp only [State.setSlot_angle, State.drawWord_angle, State.draw_angle]
  · rfl
@[simp] theorem State.cutOtp_snap (s : State) : s.cutOtp.snap = s.snap := by
  unfold State.cutOtp
  split
  · dsimp only
    split
    · rfl
    · simp only [State.setSlot_snap, State.drawWord_snap, State.draw_snap]
  · rfl
@[simp] theorem State.cutOtp_sw (s : State) : s.cutOtp.sw = s.sw := by
  unfold State.cutOtp
  split
  · dsimp only
    split
    · rfl
    · simp only [State.setSlot_sw, State.drawWord_sw, State.draw_sw]
  · rfl
@[simp] theorem State.cutOtp_fab (s : State) : s.cutOtp.fab = s.fab := by
  unfold State.cutOtp
  split
  · dsimp only
    split
    · rfl
    · simp only [State.setSlot_fab, State.drawWord_fab, State.draw_fab]
  · rfl
@[simp] theorem State.cutOtp_scr (s : State) : s.cutOtp.scr = s.scr := by
  unfold State.cutOtp
  split
  · dsimp only
    split
    · rfl
    · simp only [State.setSlot_scr, State.drawWord_scr, State.draw_scr]
  · rfl
@[simp] theorem State.cutOtp_bus (s : State) : s.cutOtp.bus = s.bus := by
  unfold State.cutOtp
  split
  · dsimp only
    split
    · rfl
    · simp only [State.setSlot_bus, State.drawWord_bus, State.draw_bus]
  · rfl
@[simp] theorem State.cutOtp_host (s : State) : s.cutOtp.host = s.host := by
  unfold State.cutOtp
  split
  · dsimp only
    split
    · rfl
    · simp only [State.setSlot_host, State.drawWord_host, State.draw_host]
  · rfl
@[simp] theorem State.cutOtp_dw (s : State) : s.cutOtp.dw = s.dw := by
  unfold State.cutOtp
  split
  · dsimp only
    split
    · rfl
    · simp only [State.setSlot_dw, State.drawWord_dw, State.draw_dw]
  · rfl
@[simp] theorem State.cutOtp_nm (s : State) : s.cutOtp.nm = s.nm := by
  unfold State.cutOtp
  split
  · dsimp only
    split
    · rfl
    · simp only [State.setSlot_nm, State.drawWord_nm, State.draw_nm]
  · rfl
@[simp] theorem State.cutOtp_snapshot (s : State) : s.cutOtp.snapshot = s.snapshot := by
  unfold State.cutOtp
  split
  · dsimp only
    split
    · rfl
    · simp only [State.setSlot_snapshot, State.drawWord_snapshot, State.draw_snapshot]
  · rfl
@[simp] theorem State.cutOtp_ls (s : State) : s.cutOtp.ls = s.ls := by
  unfold State.cutOtp
  split
  · dsimp only
    split
    · rfl
    · simp only [State.setSlot_ls, State.drawWord_ls, State.draw_ls]
  · rfl
@[simp] theorem State.cutOtp_pair (s : State) : s.cutOtp.pair = s.pair := by
  unfold State.cutOtp
  split
  · dsimp only
    split
    · rfl
    · simp only [State.setSlot_pair, State.drawWord_pair, State.draw_pair]
  · rfl
@[simp] theorem State.cutOtp_upd (s : State) : s.cutOtp.upd = s.upd := by
  unfold State.cutOtp
  split
  · dsimp only
    split
    · rfl
    · simp only [State.setSlot_upd, State.drawWord_upd, State.draw_upd]
  · rfl
@[simp] theorem State.cutOtp_isl (s : State) : s.cutOtp.isl = s.isl := by
  unfold State.cutOtp
  split
  · dsimp only
    split
    · rfl
    · simp only [State.setSlot_isl, State.drawWord_isl, State.draw_isl]
  · rfl
@[simp] theorem State.cutOtp_jtag (s : State) : s.cutOtp.jtag = s.jtag := by
  unfold State.cutOtp
  split
  · dsimp only
    split
    · rfl
    · simp only [State.setSlot_jtag, State.drawWord_jtag, State.draw_jtag]
  · rfl

@[simp] theorem State.cutStore_pending (s : State) : s.cutStore.pending = s.pending := by
  unfold State.cutStore State.endStore; split
  · dsimp only; split <;> rfl
  · rfl
@[simp] theorem State.cutStore_pw (s : State) : s.cutStore.pw = s.pw := by
  unfold State.cutStore State.endStore; split
  · dsimp only; split <;> rfl
  · rfl
@[simp] theorem State.cutStore_check (s : State) : s.cutStore.check = s.check := by
  unfold State.cutStore State.endStore; split
  · dsimp only; split <;> rfl
  · rfl
@[simp] theorem State.cutStore_cnt32 (s : State) : s.cutStore.cnt32 = s.cnt32 := by
  unfold State.cutStore State.endStore; split
  · dsimp only; split <;> rfl
  · rfl
@[simp] theorem State.cutStore_cnt64 (s : State) : s.cutStore.cnt64 = s.cnt64 := by
  unfold State.cutStore State.endStore; split
  · dsimp only; split <;> rfl
  · rfl
@[simp] theorem State.cutStore_hiLatch (s : State) : s.cutStore.hiLatch = s.hiLatch := by
  unfold State.cutStore State.endStore; split
  · dsimp only; split <;> rfl
  · rfl
@[simp] theorem State.cutStore_params (s : State) : s.cutStore.params = s.params := by
  unfold State.cutStore State.endStore; split
  · dsimp only; split <;> rfl
  · rfl
@[simp] theorem State.cutStore_time (s : State) : s.cutStore.time = s.time := by
  unfold State.cutStore State.endStore; split
  · dsimp only; split <;> rfl
  · rfl
@[simp] theorem State.cutStore_gptp (s : State) : s.cutStore.gptp = s.gptp := by
  unfold State.cutStore State.endStore; split
  · dsimp only; split <;> rfl
  · rfl
@[simp] theorem State.cutStore_angle (s : State) : s.cutStore.angle = s.angle := by
  unfold State.cutStore State.endStore; split
  · dsimp only; split <;> rfl
  · rfl
@[simp] theorem State.cutStore_snap (s : State) : s.cutStore.snap = s.snap := by
  unfold State.cutStore State.endStore; split
  · dsimp only; split <;> rfl
  · rfl
@[simp] theorem State.cutStore_sw (s : State) : s.cutStore.sw = s.sw := by
  unfold State.cutStore State.endStore; split
  · dsimp only; split <;> rfl
  · rfl
@[simp] theorem State.cutStore_fab (s : State) : s.cutStore.fab = s.fab := by
  unfold State.cutStore State.endStore; split
  · dsimp only; split <;> rfl
  · rfl
@[simp] theorem State.cutStore_scr (s : State) : s.cutStore.scr = s.scr := by
  unfold State.cutStore State.endStore; split
  · dsimp only; split <;> rfl
  · rfl
@[simp] theorem State.cutStore_bus (s : State) : s.cutStore.bus = s.bus := by
  unfold State.cutStore State.endStore; split
  · dsimp only; split <;> rfl
  · rfl
@[simp] theorem State.cutStore_host (s : State) : s.cutStore.host = s.host := by
  unfold State.cutStore State.endStore; split
  · dsimp only; split <;> rfl
  · rfl
@[simp] theorem State.cutStore_dw (s : State) : s.cutStore.dw = s.dw := by
  unfold State.cutStore State.endStore; split
  · dsimp only; split <;> rfl
  · rfl
@[simp] theorem State.cutStore_nm (s : State) : s.cutStore.nm = s.nm := by
  unfold State.cutStore State.endStore; split
  · dsimp only; split <;> rfl
  · rfl
@[simp] theorem State.cutStore_snapshot (s : State) : s.cutStore.snapshot = s.snapshot := by
  unfold State.cutStore State.endStore; split
  · dsimp only; split <;> rfl
  · rfl
@[simp] theorem State.cutStore_ls (s : State) : s.cutStore.ls = s.ls := by
  unfold State.cutStore State.endStore; split
  · dsimp only; split <;> rfl
  · rfl
@[simp] theorem State.cutStore_pair (s : State) : s.cutStore.pair = s.pair := by
  unfold State.cutStore State.endStore; split
  · dsimp only; split <;> rfl
  · rfl
@[simp] theorem State.cutStore_sec (s : State) : s.cutStore.sec = s.sec := by
  unfold State.cutStore State.endStore; split
  · dsimp only; split <;> rfl
  · rfl
@[simp] theorem State.cutStore_isl (s : State) : s.cutStore.isl = s.isl := by
  unfold State.cutStore State.endStore; split
  · dsimp only; split <;> rfl
  · rfl
@[simp] theorem State.cutStore_jtag (s : State) : s.cutStore.jtag = s.jtag := by
  unfold State.cutStore State.endStore; split
  · dsimp only; split <;> rfl
  · rfl

@[simp] theorem State.tornRecords_pending (s : State) : s.tornRecords.pending = s.pending := by
  unfold State.tornRecords; split <;> rfl
@[simp] theorem State.tornRecords_pw (s : State) : s.tornRecords.pw = s.pw := by
  unfold State.tornRecords; split <;> rfl
@[simp] theorem State.tornRecords_mem (s : State) : s.tornRecords.mem = s.mem := by
  unfold State.tornRecords; split <;> rfl
@[simp] theorem State.tornRecords_check (s : State) : s.tornRecords.check = s.check := by
  unfold State.tornRecords; split <;> rfl
@[simp] theorem State.tornRecords_cnt32 (s : State) : s.tornRecords.cnt32 = s.cnt32 := by
  unfold State.tornRecords; split <;> rfl
@[simp] theorem State.tornRecords_cnt64 (s : State) : s.tornRecords.cnt64 = s.cnt64 := by
  unfold State.tornRecords; split <;> rfl
@[simp] theorem State.tornRecords_hiLatch (s : State) : s.tornRecords.hiLatch = s.hiLatch := by
  unfold State.tornRecords; split <;> rfl
@[simp] theorem State.tornRecords_params (s : State) : s.tornRecords.params = s.params := by
  unfold State.tornRecords; split <;> rfl
@[simp] theorem State.tornRecords_time (s : State) : s.tornRecords.time = s.time := by
  unfold State.tornRecords; split <;> rfl
@[simp] theorem State.tornRecords_gptp (s : State) : s.tornRecords.gptp = s.gptp := by
  unfold State.tornRecords; split <;> rfl
@[simp] theorem State.tornRecords_angle (s : State) : s.tornRecords.angle = s.angle := by
  unfold State.tornRecords; split <;> rfl
@[simp] theorem State.tornRecords_snap (s : State) : s.tornRecords.snap = s.snap := by
  unfold State.tornRecords; split <;> rfl
@[simp] theorem State.tornRecords_sw (s : State) : s.tornRecords.sw = s.sw := by
  unfold State.tornRecords; split <;> rfl
@[simp] theorem State.tornRecords_fab (s : State) : s.tornRecords.fab = s.fab := by
  unfold State.tornRecords; split <;> rfl
@[simp] theorem State.tornRecords_scr (s : State) : s.tornRecords.scr = s.scr := by
  unfold State.tornRecords; split <;> rfl
@[simp] theorem State.tornRecords_bus (s : State) : s.tornRecords.bus = s.bus := by
  unfold State.tornRecords; split <;> rfl
@[simp] theorem State.tornRecords_host (s : State) : s.tornRecords.host = s.host := by
  unfold State.tornRecords; split <;> rfl
@[simp] theorem State.tornRecords_dw (s : State) : s.tornRecords.dw = s.dw := by
  unfold State.tornRecords; split <;> rfl
@[simp] theorem State.tornRecords_nm (s : State) : s.tornRecords.nm = s.nm := by
  unfold State.tornRecords; split <;> rfl
@[simp] theorem State.tornRecords_snapshot (s : State) : s.tornRecords.snapshot = s.snapshot := by
  unfold State.tornRecords; split <;> rfl
@[simp] theorem State.tornRecords_ls (s : State) : s.tornRecords.ls = s.ls := by
  unfold State.tornRecords; split <;> rfl
@[simp] theorem State.tornRecords_pair (s : State) : s.tornRecords.pair = s.pair := by
  unfold State.tornRecords; split <;> rfl
@[simp] theorem State.tornRecords_sec (s : State) : s.tornRecords.sec = s.sec := by
  unfold State.tornRecords; split <;> rfl
@[simp] theorem State.tornRecords_isl (s : State) : s.tornRecords.isl = s.isl := by
  unfold State.tornRecords; split <;> rfl
@[simp] theorem State.tornRecords_jtag (s : State) : s.tornRecords.jtag = s.jtag := by
  unfold State.tornRecords; split <;> rfl
@[simp] theorem HostIf.send_pcieQ (h : HostIf) (v : Nat) : (h.send v).pcieQ = h.pcieQ := by
  unfold HostIf.send; split <;> rfl
@[simp] theorem HostIf.send_spiQ (h : HostIf) (v : Nat) : (h.send v).spiQ = h.spiQ := by
  unfold HostIf.send; split <;> rfl
@[simp] theorem HostIf.send_pcieLink (h : HostIf) (v : Nat) : (h.send v).pcieLink = h.pcieLink := by
  unfold HostIf.send; split <;> rfl
@[simp] theorem HostIf.send_perst (h : HostIf) (v : Nat) : (h.send v).perst = h.perst := by
  unfold HostIf.send; split <;> rfl
@[simp] theorem HostIf.send_aperPcie (h : HostIf) (v : Nat) : (h.send v).aperPcie = h.aperPcie := by
  unfold HostIf.send; split <;> rfl
@[simp] theorem HostIf.send_aperSpi (h : HostIf) (v : Nat) : (h.send v).aperSpi = h.aperSpi := by
  unfold HostIf.send; split <;> rfl
@[simp] theorem HostIf.send_pwe (h : HostIf) (v : Nat) : (h.send v).pwe = h.pwe := by
  unfold HostIf.send; split <;> rfl
@[simp] theorem HostIf.send_pweLost (h : HostIf) (v : Nat) : (h.send v).pweLost = h.pweLost := by
  unfold HostIf.send; split <;> rfl
@[simp] theorem HostIf.send_pcieAns (h : HostIf) (v : Nat) : (h.send v).pcieAns = h.pcieAns := by
  unfold HostIf.send; split <;> rfl
@[simp] theorem HostIf.send_spiOut (h : HostIf) (v : Nat) : (h.send v).spiOut = h.spiOut := by
  unfold HostIf.send; split <;> rfl
@[simp] theorem HostIf.send_reading (h : HostIf) (v : Nat) : (h.send v).reading = h.reading := by
  unfold HostIf.send; split <;> rfl
@[simp] theorem HostIf.send_spiWait (h : HostIf) (v : Nat) : (h.send v).spiWait = h.spiWait := by
  unfold HostIf.send; split <;> rfl
@[simp] theorem HostIf.send_pcieCfg (h : HostIf) (v : Nat) : (h.send v).pcieCfg = h.pcieCfg := by
  unfold HostIf.send; split <;> rfl
@[simp] theorem HostIf.send_msixOn (h : HostIf) (v : Nat) : (h.send v).msixOn = h.msixOn := by
  unfold HostIf.send; split <;> rfl
@[simp] theorem HostIf.send_lastMsix3 (h : HostIf) (v : Nat) : (h.send v).lastMsix3 = h.lastMsix3 := by
  unfold HostIf.send; split <;> rfl
@[simp] theorem HostIf.send_msix3Due (h : HostIf) (v : Nat) : (h.send v).msix3Due = h.msix3Due := by
  unfold HostIf.send; split <;> rfl
@[simp] theorem HostIf.send_mbs (h : HostIf) (v : Nat) : (h.send v).mbs = h.mbs := by
  unfold HostIf.send; split <;> rfl
@[simp] theorem HostIf.send_overring (h : HostIf) (v : Nat) : (h.send v).overring = h.overring := by
  unfold HostIf.send; split <;> rfl
@[simp] theorem HostIf.send_rings (h : HostIf) (v : Nat) : (h.send v).rings = h.rings := by
  unfold HostIf.send; split <;> rfl
@[simp] theorem HostIf.send_free (h : HostIf) (v : Nat) : (h.send v).free = h.free := by
  unfold HostIf.send; split <;> rfl
@[simp] theorem HostIf.send_busy (h : HostIf) (v : Nat) : (h.send v).busy = h.busy := by
  unfold HostIf.send; split <;> rfl
@[simp] theorem HostIf.send_area (h : HostIf) (v : Nat) : (h.send v).area = h.area := by
  unfold HostIf.send; split <;> rfl
@[simp] theorem HostIf.send_memtest (h : HostIf) (v : Nat) : (h.send v).memtest = h.memtest := by
  unfold HostIf.send; split <;> rfl
@[simp] theorem HostIf.send_table (h : HostIf) (v : Nat) : (h.send v).table = h.table := by
  unfold HostIf.send; split <;> rfl
@[simp] theorem HostIf.send_lastEntry (h : HostIf) (v : Nat) : (h.send v).lastEntry = h.lastEntry := by
  unfold HostIf.send; split <;> rfl

/-- Without a block store in progress a cut-off leaves memory as it is. -/
theorem State.cutStore_mem (s : State) (h : s.upd.ready = none) : s.cutStore.mem = s.mem := by
  unfold State.cutStore State.endStore; rw [h]

@[simp] theorem State.dropWork_pending (s : State) : s.dropWork.pending = s.pending := (State.tornRecords_pending _).trans ((State.cutStore_pending _).trans (State.cutOtp_pending s))
@[simp] theorem State.dropWork_check (s : State) : s.dropWork.check = s.check := (State.tornRecords_check _).trans ((State.cutStore_check _).trans (State.cutOtp_check s))
@[simp] theorem State.dropWork_cnt32 (s : State) : s.dropWork.cnt32 = s.cnt32 := (State.tornRecords_cnt32 _).trans ((State.cutStore_cnt32 _).trans (State.cutOtp_cnt32 s))
@[simp] theorem State.dropWork_cnt64 (s : State) : s.dropWork.cnt64 = s.cnt64 := (State.tornRecords_cnt64 _).trans ((State.cutStore_cnt64 _).trans (State.cutOtp_cnt64 s))
@[simp] theorem State.dropWork_hiLatch (s : State) : s.dropWork.hiLatch = s.hiLatch := (State.tornRecords_hiLatch _).trans ((State.cutStore_hiLatch _).trans (State.cutOtp_hiLatch s))
@[simp] theorem State.dropWork_params (s : State) : s.dropWork.params = s.params := (State.tornRecords_params _).trans ((State.cutStore_params _).trans (State.cutOtp_params s))
@[simp] theorem State.dropWork_time (s : State) : s.dropWork.time = s.time := (State.tornRecords_time _).trans ((State.cutStore_time _).trans (State.cutOtp_time s))
@[simp] theorem State.dropWork_gptp (s : State) : s.dropWork.gptp = s.gptp := (State.tornRecords_gptp _).trans ((State.cutStore_gptp _).trans (State.cutOtp_gptp s))
@[simp] theorem State.dropWork_angle (s : State) : s.dropWork.angle = s.angle := (State.tornRecords_angle _).trans ((State.cutStore_angle _).trans (State.cutOtp_angle s))
@[simp] theorem State.dropWork_snap (s : State) : s.dropWork.snap = s.snap := (State.tornRecords_snap _).trans ((State.cutStore_snap _).trans (State.cutOtp_snap s))
@[simp] theorem State.dropWork_fab (s : State) : s.dropWork.fab = s.fab := (State.tornRecords_fab _).trans ((State.cutStore_fab _).trans (State.cutOtp_fab s))
@[simp] theorem State.dropWork_bus (s : State) : s.dropWork.bus = s.bus := (State.tornRecords_bus _).trans ((State.cutStore_bus _).trans (State.cutOtp_bus s))
@[simp] theorem State.dropWork_dw (s : State) : s.dropWork.dw = s.dw := (State.tornRecords_dw _).trans ((State.cutStore_dw _).trans (State.cutOtp_dw s))
@[simp] theorem State.dropWork_nm (s : State) : s.dropWork.nm = s.nm := (State.tornRecords_nm _).trans ((State.cutStore_nm _).trans (State.cutOtp_nm s))
@[simp] theorem State.dropWork_snapshot (s : State) : s.dropWork.snapshot = s.snapshot := (State.tornRecords_snapshot _).trans ((State.cutStore_snapshot _).trans (State.cutOtp_snapshot s))
@[simp] theorem State.dropWork_pair (s : State) : s.dropWork.pair = s.pair := (State.tornRecords_pair _).trans ((State.cutStore_pair _).trans (State.cutOtp_pair s))
@[simp] theorem State.dropWork_isl (s : State) : s.dropWork.isl = s.isl := (State.tornRecords_isl _).trans ((State.cutStore_isl _).trans (State.cutOtp_isl s))
@[simp] theorem State.dropWork_jtag (s : State) : s.dropWork.jtag = s.jtag := (State.tornRecords_jtag _).trans ((State.cutStore_jtag _).trans (State.cutOtp_jtag s))
theorem State.dropWork_mem (s : State) (h : s.upd.ready = none) : s.dropWork.mem = s.mem :=
  (State.tornRecords_mem _).trans ((State.cutStore_mem _ (by rw [State.cutOtp_upd]; exact h)).trans (State.cutOtp_mem s))

@[simp] theorem State.failSilent_pending (s : State) : s.failSilent.pending = s.pending := by
  have h' : s.failSilent.pending = s.discardTraffic.silenceBuses.dropWork.pending := by
    unfold State.failSilent; generalize s.discardTraffic.silenceBuses.dropWork = d; cases d; rfl
  rw [h', State.dropWork_pending, State.silenceBuses_pending, State.discardTraffic_pending]
@[simp] theorem State.deviceFault_pending (s : State) (c u : Nat) (d : List Nat) : (s.deviceFault c u d).pending = s.pending := by
  unfold State.deviceFault
  split
  · rfl
  · dsimp only
    split
    · rfl
    · rw [State.failSilent_pending]
theorem State.failSilent_mem (s : State) (h : s.upd.ready = none) : s.failSilent.mem = s.mem := by
  have h' : s.failSilent.mem = s.discardTraffic.silenceBuses.dropWork.mem := by
    unfold State.failSilent; generalize s.discardTraffic.silenceBuses.dropWork = d; cases d; rfl
  rw [h', State.dropWork_mem _ (by rw [State.silenceBuses_upd, State.discardTraffic_upd]; exact h), State.silenceBuses_mem, State.discardTraffic_mem]
theorem State.deviceFault_mem (s : State) (c u : Nat) (d : List Nat) (h : s.upd.ready = none) : (s.deviceFault c u d).mem = s.mem := by
  unfold State.deviceFault
  split
  · rfl
  · dsimp only
    split
    · rfl
    · exact State.failSilent_mem _ h
@[simp] theorem State.failSilent_check (s : State) : s.failSilent.check = s.check := by
  have h' : s.failSilent.check = s.discardTraffic.silenceBuses.dropWork.check := by
    unfold State.failSilent; generalize s.discardTraffic.silenceBuses.dropWork = d; cases d; rfl
  rw [h', State.dropWork_check, State.silenceBuses_check, State.discardTraffic_check]
@[simp] theorem State.deviceFault_check (s : State) (c u : Nat) (d : List Nat) : (s.deviceFault c u d).check = s.check := by
  unfold State.deviceFault
  split
  · rfl
  · dsimp only
    split
    · rfl
    · rw [State.failSilent_check]
@[simp] theorem State.failSilent_cnt32 (s : State) : s.failSilent.cnt32 = s.cnt32 := by
  have h' : s.failSilent.cnt32 = s.discardTraffic.silenceBuses.dropWork.cnt32 := by
    unfold State.failSilent; generalize s.discardTraffic.silenceBuses.dropWork = d; cases d; rfl
  rw [h', State.dropWork_cnt32, State.silenceBuses_cnt32, State.discardTraffic_cnt32]
@[simp] theorem State.deviceFault_cnt32 (s : State) (c u : Nat) (d : List Nat) : (s.deviceFault c u d).cnt32 = s.cnt32 := by
  unfold State.deviceFault
  split
  · rfl
  · dsimp only
    split
    · rfl
    · rw [State.failSilent_cnt32]
@[simp] theorem State.failSilent_cnt64 (s : State) : s.failSilent.cnt64 = s.cnt64 := by
  have h' : s.failSilent.cnt64 = s.discardTraffic.silenceBuses.dropWork.cnt64 := by
    unfold State.failSilent; generalize s.discardTraffic.silenceBuses.dropWork = d; cases d; rfl
  rw [h', State.dropWork_cnt64, State.silenceBuses_cnt64, State.discardTraffic_cnt64]
@[simp] theorem State.deviceFault_cnt64 (s : State) (c u : Nat) (d : List Nat) : (s.deviceFault c u d).cnt64 = s.cnt64 := by
  unfold State.deviceFault
  split
  · rfl
  · dsimp only
    split
    · rfl
    · rw [State.failSilent_cnt64]
@[simp] theorem State.failSilent_hiLatch (s : State) : s.failSilent.hiLatch = s.hiLatch := by
  have h' : s.failSilent.hiLatch = s.discardTraffic.silenceBuses.dropWork.hiLatch := by
    unfold State.failSilent; generalize s.discardTraffic.silenceBuses.dropWork = d; cases d; rfl
  rw [h', State.dropWork_hiLatch, State.silenceBuses_hiLatch, State.discardTraffic_hiLatch]
@[simp] theorem State.deviceFault_hiLatch (s : State) (c u : Nat) (d : List Nat) : (s.deviceFault c u d).hiLatch = s.hiLatch := by
  unfold State.deviceFault
  split
  · rfl
  · dsimp only
    split
    · rfl
    · rw [State.failSilent_hiLatch]
@[simp] theorem State.failSilent_params (s : State) : s.failSilent.params = s.params := by
  have h' : s.failSilent.params = s.discardTraffic.silenceBuses.dropWork.params := by
    unfold State.failSilent; generalize s.discardTraffic.silenceBuses.dropWork = d; cases d; rfl
  rw [h', State.dropWork_params, State.silenceBuses_params, State.discardTraffic_params]
@[simp] theorem State.deviceFault_params (s : State) (c u : Nat) (d : List Nat) : (s.deviceFault c u d).params = s.params := by
  unfold State.deviceFault
  split
  · rfl
  · dsimp only
    split
    · rfl
    · rw [State.failSilent_params]
@[simp] theorem State.failSilent_time (s : State) : s.failSilent.time = s.time := by
  have h' : s.failSilent.time = s.discardTraffic.silenceBuses.dropWork.time := by
    unfold State.failSilent; generalize s.discardTraffic.silenceBuses.dropWork = d; cases d; rfl
  rw [h', State.dropWork_time, State.silenceBuses_time, State.discardTraffic_time]
@[simp] theorem State.deviceFault_time (s : State) (c u : Nat) (d : List Nat) : (s.deviceFault c u d).time = s.time := by
  unfold State.deviceFault
  split
  · rfl
  · dsimp only
    split
    · rfl
    · rw [State.failSilent_time]
@[simp] theorem State.failSilent_gptp (s : State) : s.failSilent.gptp = s.gptp := by
  have h' : s.failSilent.gptp = s.discardTraffic.silenceBuses.dropWork.gptp := by
    unfold State.failSilent; generalize s.discardTraffic.silenceBuses.dropWork = d; cases d; rfl
  rw [h', State.dropWork_gptp, State.silenceBuses_gptp, State.discardTraffic_gptp]
@[simp] theorem State.deviceFault_gptp (s : State) (c u : Nat) (d : List Nat) : (s.deviceFault c u d).gptp = s.gptp := by
  unfold State.deviceFault
  split
  · rfl
  · dsimp only
    split
    · rfl
    · rw [State.failSilent_gptp]
@[simp] theorem State.failSilent_angle (s : State) : s.failSilent.angle = s.angle := by
  have h' : s.failSilent.angle = s.discardTraffic.silenceBuses.dropWork.angle := by
    unfold State.failSilent; generalize s.discardTraffic.silenceBuses.dropWork = d; cases d; rfl
  rw [h', State.dropWork_angle, State.silenceBuses_angle, State.discardTraffic_angle]
@[simp] theorem State.deviceFault_angle (s : State) (c u : Nat) (d : List Nat) : (s.deviceFault c u d).angle = s.angle := by
  unfold State.deviceFault
  split
  · rfl
  · dsimp only
    split
    · rfl
    · rw [State.failSilent_angle]
@[simp] theorem State.failSilent_snap (s : State) : s.failSilent.snap = s.snap := by
  have h' : s.failSilent.snap = s.discardTraffic.silenceBuses.dropWork.snap := by
    unfold State.failSilent; generalize s.discardTraffic.silenceBuses.dropWork = d; cases d; rfl
  rw [h', State.dropWork_snap, State.silenceBuses_snap, State.discardTraffic_snap]
@[simp] theorem State.deviceFault_snap (s : State) (c u : Nat) (d : List Nat) : (s.deviceFault c u d).snap = s.snap := by
  unfold State.deviceFault
  split
  · rfl
  · dsimp only
    split
    · rfl
    · rw [State.failSilent_snap]
@[simp] theorem State.failSilent_pair (s : State) : s.failSilent.pair = s.pair := by
  have h' : s.failSilent.pair = s.discardTraffic.silenceBuses.dropWork.pair := by
    unfold State.failSilent; generalize s.discardTraffic.silenceBuses.dropWork = d; cases d; rfl
  rw [h', State.dropWork_pair, State.silenceBuses_pair, State.discardTraffic_pair]
@[simp] theorem State.deviceFault_pair (s : State) (c u : Nat) (d : List Nat) : (s.deviceFault c u d).pair = s.pair := by
  unfold State.deviceFault
  split
  · rfl
  · dsimp only
    split
    · rfl
    · rw [State.failSilent_pair]
@[simp] theorem State.failSilent_snapshot (s : State) : s.failSilent.snapshot = s.snapshot := by
  have h' : s.failSilent.snapshot = s.discardTraffic.silenceBuses.dropWork.snapshot := by
    unfold State.failSilent; generalize s.discardTraffic.silenceBuses.dropWork = d; cases d; rfl
  rw [h', State.dropWork_snapshot, State.silenceBuses_snapshot, State.discardTraffic_snapshot]
@[simp] theorem State.deviceFault_snapshot (s : State) (c u : Nat) (d : List Nat) : (s.deviceFault c u d).snapshot = s.snapshot := by
  unfold State.deviceFault
  split
  · rfl
  · dsimp only
    split
    · rfl
    · rw [State.failSilent_snapshot]
@[simp] theorem State.failSilent_isl (s : State) : s.failSilent.isl = s.isl := by
  have h' : s.failSilent.isl = s.discardTraffic.silenceBuses.dropWork.isl := by
    unfold State.failSilent; generalize s.discardTraffic.silenceBuses.dropWork = d; cases d; rfl
  rw [h', State.dropWork_isl, State.silenceBuses_isl, State.discardTraffic_isl]
@[simp] theorem State.deviceFault_isl (s : State) (c u : Nat) (d : List Nat) : (s.deviceFault c u d).isl = s.isl := by
  unfold State.deviceFault
  split
  · rfl
  · dsimp only
    split
    · rfl
    · rw [State.failSilent_isl]
@[simp] theorem State.failSilent_jtag (s : State) : s.failSilent.jtag = s.jtag := by
  have h' : s.failSilent.jtag = s.discardTraffic.silenceBuses.dropWork.jtag := by
    unfold State.failSilent; generalize s.discardTraffic.silenceBuses.dropWork = d; cases d; rfl
  rw [h', State.dropWork_jtag, State.silenceBuses_jtag, State.discardTraffic_jtag]
@[simp] theorem State.deviceFault_jtag (s : State) (c u : Nat) (d : List Nat) : (s.deviceFault c u d).jtag = s.jtag := by
  unfold State.deviceFault
  split
  · rfl
  · dsimp only
    split
    · rfl
    · rw [State.failSilent_jtag]

end Sys2Proof.Machine
end

