-- ==== Sys2Proof/Laws/Mailbox.lean ====
section
/-! SUPPORT. What firmware does with a request that it takes, and what completing a command changes. -/

namespace Sys2Proof.Machine

/-- A taken request with an allowed length is executed, and its answer goes to its mailbox. -/
theorem serve_taken {s : State} {mb : Mb} {code : Nat} {pay : List Byte} (h : Taken s mb code pay) {isCode lenOk : Nat → Bool}
    (hc : isCode code = true) (hl : lenOk pay.length = true) (f : List Byte → State → Reply × State) :
    s.serve mb isCode lenOk f = (f pay s).2.answer mb (f pay s).1 := by
  obtain ⟨h1, h2, h3, h4, h5, h6⟩ := h
  have h7 : ¬ (pay.length > 1016) := by omega
  unfold State.serve State.runRequest
  simp only [h1, h2, h3, h4, h6, hc, hl, Bool.not_true, Bool.or_self, Bool.false_eq_true, if_false, h7, decide_false]

/-- A taken request whose length the command does not allow is answered with BAD_LENGTH. -/
theorem serve_badLength {s : State} {mb : Mb} {code : Nat} {pay : List Byte} (h : Taken s mb code pay) {isCode lenOk : Nat → Bool}
    (hc : isCode code = true) (hl : lenOk pay.length = false) (f : List Byte → State → Reply × State) :
    s.serve mb isCode lenOk f = s.refuseLength mb := by
  obtain ⟨h1, h2, h3, h4, h5, h6⟩ := h
  unfold State.serve State.runRequest
  simp only [h1, h2, h3, h4, hc, hl, Bool.not_true, Bool.or_self, Bool.false_eq_true, if_false, Bool.not_false, Bool.or_true, if_true]

/-- A request with another code is left alone. -/
theorem serve_other {s : State} {mb : Mb} {isCode lenOk : Nat → Bool} (hc : isCode (s.reqCmd mb.val) = false)
    (f : List Byte → State → Reply × State) : s.serve mb isCode lenOk f = s := by
  unfold State.serve
  simp [hc]

@[simp] theorem answer_done (s : State) (mb : Mb) (st : Status) (pay : List Byte) : s.answer mb (.done st pay) = s.complete mb.val st pay := rfl

/-- The response to a request is 8 bytes and its payload. -/
theorem response_length (s : State) (mb : Nat) (st : Status) (pay : List Byte) : (s.response mb st pay).length = 8 + pay.length := by
  simp [State.response, natLe]; omega

/-- Completing a command writes the response buffer and nothing else of memory. -/
theorem complete_rd8_other (s : State) (mb : Nat) (st : Status) (pay : List Byte) {a : Nat}
    (h : a < respAddr mb ∨ respAddr mb + 8 + pay.length ≤ a) : (s.complete mb st pay).rd8 a = s.rd8 a := by
  have : (s.complete mb st pay).mem = memWrite s.mem (respAddr mb) (s.response mb st pay) := by
    unfold State.complete; rw [State.enterDone_mem, State.wrB_mem]
  unfold State.rd8
  rw [this]
  exact memGet_memWrite_other _ _ _ (by rw [response_length]; omega)

/-- Completing a command keeps the canonical form of memory. -/
theorem complete_wf (s : State) (mb : Nat) (st : Status) (pay : List Byte) (h : MemInv s) : MemInv (s.complete mb st pay) := by
  have : (s.complete mb st pay).mem = memWrite s.mem (respAddr mb) (s.response mb st pay) := by
    unfold State.complete; rw [State.enterDone_mem, State.wrB_mem]
  unfold MemInv
  rw [this]
  exact wf_memWrite _ _ _ h

/-- A command that takes effect answers a next state. -/
theorem done_eq (s t : State) : done s t = .next (settle s t) := rfl

end Sys2Proof.Machine
end

