-- ==== Sys2Proof/Laws/Faults.lean ====
section
/-! SUPPORT. What entering fail-silent and a device fault leave (R31 to R34, R315). -/

namespace Sys2Proof.Machine

/-- What fail-silent leaves: the part of the state that a statement can name. -/
theorem failSilent_fields (s : State) :
    s.failSilent.pw.mode = .failSilent ∧ s.failSilent.pw.fsRun = true ∧ s.failSilent.pw.fwReady = false ∧
    s.failSilent.pw.fr = s.pw.fr ∧ s.failSilent.pw.rstLow = s.pw.rstLow ∧ s.failSilent.pw.inh0 = s.pw.inh0 ∧ s.failSilent.pw.inh1 = s.pw.inh1 ∧
    s.failSilent.pw.token.holder = none ∧ s.failSilent.pw.token.queue = [] ∧
    s.failSilent.sw.link = 0 ∧ s.failSilent.sw.frames = [] ∧ s.failSilent.sw.egress = [] ∧ s.failSilent.fab.waiting = [] ∧
    s.failSilent.fab.flight = [] ∧ s.failSilent.fab.store = [] ∧ s.failSilent.host.busy = none ∧ s.failSilent.nm.pulses = 0 ∧
    s.failSilent.pw.bistBlock = s.pw.bistBlock ∧ s.failSilent.pw.vaon = s.pw.vaon := by
  have hp : s.discardTraffic.silenceBuses.cutOtp.cutStore.tornRecords.pw = s.pw := by
    rw [State.tornRecords_pw, State.cutStore_pw, State.cutOtp_pw, State.silenceBuses_pw, State.discardTraffic_pw]
  have hsw : s.discardTraffic.silenceBuses.cutOtp.cutStore.tornRecords.sw = s.discardTraffic.sw := by
    rw [State.tornRecords_sw, State.cutStore_sw, State.cutOtp_sw, State.silenceBuses_sw]
  have hf : s.discardTraffic.silenceBuses.cutOtp.cutStore.tornRecords.fab = s.discardTraffic.fab := by
    rw [State.tornRecords_fab, State.cutStore_fab, State.cutOtp_fab, State.silenceBuses_fab]
  unfold State.failSilent State.dropWork
  revert hp hsw hf
  generalize s.discardTraffic.silenceBuses.cutOtp.cutStore.tornRecords = d
  intro hp hsw hf
  cases d
  dsimp only at hp hsw hf
  subst hp hsw hf
  cases s
  exact ⟨rfl, rfl, rfl, rfl, rfl, rfl, rfl, rfl, rfl, rfl, rfl, rfl, rfl, rfl, rfl, HostIf.send_busy _ 2, rfl, rfl, rfl⟩

/-- The entry that a device fault writes. -/
def faultEntry (s : State) (code unit : Nat) (detail : List Nat) : FaultEntry :=
  { code := BitVec.ofNat 16 code, unit := BitVec.ofNat 8 unit, ltime := s.time.ltime, tstate := s.time.state.code, cycle := s.now,
    detail := detail.map (BitVec.ofNat 32) }

/-- A device fault of a device that is not silent yet: its entry is recorded and fail-silent is entered. -/
theorem deviceFault_enters {s : State} (hi : s.pw.inh0 = true) (hv : s.pw.vaon = true) (hr : s.pw.rstLow = false)
    (hm : s.pw.mode ≠ .failSilent) (code unit : Nat) (detail : List Nat) :
    s.deviceFault code unit detail = State.failSilent { s with pw.fr := s.pw.fr.add (faultEntry s code unit detail) } := by
  unfold State.deviceFault
  rw [if_neg (by simp [hi, hv, hr])]
  exact if_neg hm

/-- A fault is always the last entry of the record. -/
theorem add_last (r : FaultRecord) (e : FaultEntry) : (r.add e).last = some e := by
  unfold FaultRecord.add; cases r.first <;> rfl

/-- A fault found with no record becomes the first entry too. -/
theorem add_first_none {r : FaultRecord} (h : r.first = none) (e : FaultEntry) : (r.add e).first = some e := by
  unfold FaultRecord.add; rw [h]

/-- A fault found with a record leaves the first entry. -/
theorem add_first_some {r : FaultRecord} {f : FaultEntry} (h : r.first = some f) (e : FaultEntry) : (r.add e).first = some f := by
  unfold FaultRecord.add; rw [h]

/-- What a device fault leaves, from a device that is not silent yet. -/
theorem deviceFault_fields {s : State} (hi : s.pw.inh0 = true) (hv : s.pw.vaon = true) (hr : s.pw.rstLow = false)
    (hm : s.pw.mode ≠ .failSilent) (code unit : Nat) (detail : List Nat) :
    let t := s.deviceFault code unit detail
    t.pw.mode = .failSilent ∧ t.pw.fwReady = false ∧ t.pw.fr = s.pw.fr.add (faultEntry s code unit detail) ∧
    t.pw.rstLow = false ∧ t.pw.token.holder = none ∧
    t.sw.link = 0 ∧ t.sw.frames = [] ∧ t.fab.flight = [] ∧ t.host.busy = none ∧ t.nm.pulses = 0 ∧
    (s.upd.ready = none → t.mem = s.mem) ∧ t.cnt32 = s.cnt32 ∧ t.cnt64 = s.cnt64 ∧ t.params = s.params ∧ t.time = s.time ∧ t.pending = s.pending ∧
    t.isl = s.isl ∧ t.pw.bistBlock = s.pw.bistBlock := by
  intro t
  have ht : t = State.failSilent { s with pw.fr := s.pw.fr.add (faultEntry s code unit detail) } := deviceFault_enters hi hv hr hm _ _ _
  have h := failSilent_fields { s with pw.fr := s.pw.fr.add (faultEntry s code unit detail) }
  rw [← ht] at h
  obtain ⟨h1, h2, h3, h4, h5, h6, h7, h8, h9, h10, h11, h12, h13, h14, h15, h16, h17, h18, h19⟩ := h
  refine ⟨h1, h3, h4, h5.trans hr, h8, h10, h11, h14, h16, h17, ?_, ?_, ?_, ?_, ?_, ?_, ?_, h18⟩
  · exact State.deviceFault_mem _ _ _ _
  · exact State.deviceFault_cnt32 ..
  · exact State.deviceFault_cnt64 ..
  · exact State.deviceFault_params ..
  · exact State.deviceFault_time ..
  · exact State.deviceFault_pending ..
  · exact State.deviceFault_isl ..

/-- In fail-silent IRQ_N is low unless RST_N is (R32, R313). -/
theorem irqnLow_failSilent {t : State} (hm : t.pw.mode = .failSilent) (hr : t.pw.rstLow = false) : t.irqnLow = true := by
  simp [State.irqnLow, hm, hr]

end Sys2Proof.Machine
end

