-- ==== Sys2Proof/WellFormed.lean ====
section
/-! DEFINITION. Which command terms the outside world can send: lengths, ranges and alignments that the operand types of
`Instr` do not already hold. Every meaning is total; these are the terms that stand for something on the wire or at a pin. -/

namespace Sys2Proof.WellFormed

/-- Nanoseconds of a reference time value are below one second (R9). -/
def rt (r : RT) : Bool := decide (r.ns.toNat < 1000000000)

/-- A start report names a block of R434 other than the comparator test, which has its own field. -/
def report (r : StartReport) : Bool :=
  match r.selfTest with
  | some (b, _, _, _) => decide (1 ≤ b.toNat) && decide (b.toNat ≤ 11) && b != 10
  | none => true

/-- Only P0 to P7 have a MAC merge sublayer (R141); a descriptor belongs to P22 and P23 (R89). -/
def frame (f : RxFrame) : Bool :=
  (f.unit == .express || decide (f.port.val < 8)) && (decide (22 ≤ f.port.val) || (f.cls == 0 && f.dom == 0))

/-- A message fits its format (R203): base identifiers of 11 bits; data bytes by its DLC, 1 to 2,048 with XL, none in a remote frame. -/
def message (m : CanMsg) : Bool :=
  (m.ide || decide (m.id.toNat < 2048)) && !(m.xlf && m.ide) && !(m.xlf && !m.fdf) && !(m.rtr && m.fdf) &&
  (if m.xlf then decide (1 ≤ m.data.length) && decide (m.data.length ≤ 2048) else m.data.length == m.dlcLen)

/-- A request of `n` words at an offset: whole words inside its BAR (R264, R270), at most 256 bytes of a write (R263) or 4 KiB of a
read. -/
def barAccess (bar : Bar) (off n most : Nat) : Bool :=
  let size := match bar with | .bar0 => 0x1000 | .bar2 => 0x8000 | .bar4 => 0x1000000
  off % 4 == 0 && decide (1 ≤ n) && decide (n ≤ most) && decide (off + 4 * n ≤ size)

/-- A lockstep window holds 1,024 cycles of both copies and at most 64 writes (R335, R336). -/
def window (w : CoreWindow) : Bool := w.lead.length == 1024 && w.trail.length == 1024 && decide (w.writes.length ≤ 64)

/-- A body of a MIR record (R348). -/
def mirBody (b : List Byte) : Bool := decide (b.length ≤ 2304)

/-- Roles of a heartbeat: 3 is not used, and a device prefers one of two (R348). -/
def beat (h : Heartbeat) : Bool := h.role != 3 && (h.prefRole == 1 || h.prefRole == 2)

end Sys2Proof.WellFormed

namespace Sys2Proof

/-- The command is well formed. -/
def Instr.wf : Instr → Bool
  | .vaonApplied r | .rstNRelease r | .warmWake r _ | .activation r _ _ => WellFormed.report r
  | .sync _ _ ref _ => WellFormed.rt ref
  | .pdelayReq _ t2 t3 _ => WellFormed.rt t2 && WellFormed.rt t3
  | .roleChange t => WellFormed.rt t
  | .frameReceive f => WellFormed.frame f
  | .linkUp p mbps => decide (p.val < 22) && decide (0 < mbps)
  | .canReceive _ m _ _ => WellFormed.message m
  | .linHeader _ _ baud _ => decide (0 < baud)
  | .linResponse _ r => decide (r.data.length ≤ 8)
  | .pcieMemoryWrite bar off more _ _ => WellFormed.barAccess bar off (more.length + 1) 64
  | .pcieMemoryRead bar off n => WellFormed.barAccess bar off n 1024
  | .write _ ws => !ws.isEmpty
  | .read _ n => decide (0 < n)
  | .unknownInstruction op => op != 0x02 && op != 0x0B && op != 0x05
  | .registerWrite _ a _ _ => a.toNat % 4 == 0
  | .mailboxTransaction a _ => a.toNat % 4 == 0
  | .lockstepCompare a b => WellFormed.window a && WellFormed.window b
  | .checkpoint body => decide (16 ≤ body.length) && decide (body.length ≤ 65520)
  | .heartbeat h => WellFormed.beat h
  | .entryUpdate h body => decide (1 ≤ h.table.toNat) && decide (h.table.toNat ≤ 5) && WellFormed.mirBody body
  | .tamperEvent src => src != 0
  | .vaonLoss | .rstNAssert | .refclkLoss _ _ | .supplyLow _ _ | .supplyFault _ | .storeOkSet | .tempSample _ | .battSample _ => true
  | .ppsEdge _ _ | .syncReceiptTimeout | .holdoverTime | .countEdge _ _ _ | .angleGateEdge _ | .stallTime | .syncTransmission _ => true
  | .linkDown _ | .agingSweep | .recoveryResetTimeout _ => true
  | .scrubRead _ | .scrubSweepEnd | .egressSelect _ | .cellArrive _ _ _ _ _ | .confluenceTimeout _ | .underrun _ => true
  | .frameTransmitEnd _ | .atsEligible _ _ _ | .gateEdge _ | .gateListSwitch _ | .preempt _ | .mmVerifyTimeout _ => true
  | .windowDecision _ _ | .windowOpen _ | .windowEnd _ | .windowSetAdopt _ | .connSweep _ | .ruleBankSwap => true
  | .canBusError _ _ _ _ | .busOffRecoveryComplete _ | .canModeChange _ | .txPush _ _ _ | .canTxStart _ | .canTxEnd _ _ _ => true
  | .canLifetimeExpiry _ | .recover _ | .abortHead _ | .abortPrio _ | .flush _ | .canIntegration _ => true
  | .lpub _ _ | .linSched _ _ | .linSlot _ | .linNoResponse _ | .goToSleep | .linRestart _ => true
  | .periodBoundary _ | .runRetry _ | .spacedRun _ | .acfFrameReceive _ _ | .gwStale _ => true
  | .cvStart _ | .cvFeed8 _ _ | .cvFeed16 _ _ | .cvFeed32 _ _ => true
  | .postedWriteDeliver _ | .pcieConfigurationRequest _ _ | .functionLevelReset | .perstN _ | .pcieLinkLoss | .status => true
  | .targetTimeout _ _ | .dwPwePop | .dwMbRing _ | .dwMbDone _ | .dwMbAbort _ => true
  | .echo _ | .getInfo _ | .paramGet _ | .paramSet _ | .objOpen _ | .objWrite _ | .objCommit _ | .objCancel _ | .objDma _ => true
  | .objDmaCompletion _ _ | .objDmaTimeout | .objAreaTimeout | .objLoad _ | .frameSend _ | .faultClear _ | .connRemove _ => true
  | .nmHostNeed _ | .nmHostRelease _ | .nmStatus _ | .pairStatus _ | .pairRole _ | .unknownCommand _ => true
  | .keyLoad _ | .keyClear _ | .keyDerive _ | .otpProgram _ | .otpProgrammingComplete | .sigVerify _ => true
  | .aesGcmEncrypt _ | .aesGcmDecrypt _ | .aesCmacGenerate _ | .aesCmacVerify _ | .sha384 _ => true
  | .updStatus _ | .updLock _ | .header _ | .block _ | .blockStore | .finish _ | .cancel _ | .go _ | .pairGoIssue => true
  | .activationDeadline | .svcFrameReceive _ | .nrnRead _ | .nrnStage _ | .nrnFetch _ | .diagMemtest _ | .regionTestEnd _ => true
  | .diagScrubFast _ | .diagCmpTest _ | .diagCounters _ | .maintenanceTokenGrant | .capture | .snapSecondCapture => true
  | .dwIrqForce _ | .irqModerationExpiry | .snapshotStaticRewrite | .keepAliveSend | .wakeHoldExpiry | .ebbTimeout | .commit => true
  | .wakeLineEdge _ | .wakeLineLow _ | .canWakePattern _ | .linWakePulse _ | .phyWake _ | .aonSwWake | .wakePulseEnd _ => true
  | .maximumAwakeTime _ | .ignoredNodeRelease _ | .comparatorInjectionTest _ | .heartbeatSend | .digest _ _ => true
  | .resyncBegin _ | .resyncEnd _ | .resyncCompleted _ | .wakeRequest | .mirrorCompare | .resync _ | .partnerSilence => true
  | .pairRoleTimeout | .badRecord _ | .wkMat _ _ _ _ | .authStart _ | .authFeed8 _ _ | .authFeed32 _ _ | .authFinish _ => true
  | .islandStart _ | .islandStop | .wheelPulse _ _ | .speedZero _ | .motionStop _ | .periodicRecord _ | .recordWrite _ => true
  | .referenceLinkMessage _ | .sealOpened _ | .sealClosed _ | .calibrationPoll _ | .tqExpiry _ => true
  | .bypass | .idcode | .samplePreload _ | .extest _ => true

end Sys2Proof
end

