-- ==== Sys2Proof/Tests/Slice0.lean ====
section
/-! SUPPORT. Tests: what each command does on a small state, by the words of the rule it follows; the commands that are not well
formed; for each statement a state and operands that meet its hypotheses, clause by clause. Expected values are worked out from the
rules. -/

open Sys2Proof Sys2Proof.Machine

set_option Elab.async false

namespace Sys2Proof.Tests

/-- A device in Operating whose firmware runs; nothing is linked, queued or configured. -/
def op : State :=
  { State.reset with
    pw := { Power.reset with mode := .operating, rstLow := false, fwReady := true, storeOk := true },
    time := { TimeRef.reset with cycle := 1000000000, ltime := 5 * secUnit } }

/-- The state after a command; the state before it where the command stops. -/
def after (c : Instr) (s : State) : State := match exec c s with | .next t => t | _ => s

/-- The state after a step. -/
def stepped (s : State) : State := match step s with | .next t => t | _ => s

/-- A state with parameters set. -/
def setp (s : State) (l : List (Nat × Nat)) : State := l.foldl (fun s e => s.setParam e.1 e.2) s

/-- A state whose mailbox `mb` has been rung with a request of SEQ 7. -/
def req (s : State) (mb : Mb) (cmd : Nat) (p : List Byte) : State :=
  after (.dwMbRing (1 <<< mb.val)) (s.wrB (reqAddr mb.val) (natLe 2 cmd ++ natLe 2 7 ++ natLe 2 p.length ++ natLe 2 0 ++ p))

/-- STATUS of the response of a mailbox, and its payload. -/
def status (s : State) (mb : Mb) : Nat := s.rd (respAddr mb.val + 6) 2
def reply (s : State) (mb : Mb) : List Byte := s.rdB (respAddr mb.val + 8) (s.rd (respAddr mb.val + 4) 2)

/-- The device in fail-silent, and in Slack. -/
def silent : State := { op with pw := { op.pw with mode := .failSilent, fwReady := false } }
def slack : State := { op with pw := { op.pw with mode := .slack, fwReady := false, inh0 := false, inh1 := false } }

/-- The report of a start that finds nothing wrong. -/
def good : StartReport :=
  { selfTest := none, cmpTest := none, bistTime := 900, imageOk := true, restoreOk := true, tamperActive := 0, wakeLevels := 0,
    tamper := 0, tamperSpoil := none, cut := none }

/-- A local time of seconds and nanoseconds. -/
def rt (sec ns : Nat) : RT := { sec := BitVec.ofNat 48 sec, ns := BitVec.ofNat 30 ns, frac := 0 }

/-! The queue, the cycle, the invariants. -/

theorem test_step_runs_front : step { op with pending := [.aonSwWake, .goToSleep] } = exec .aonSwWake { op with pending := [.goToSleep] } := rfl
theorem test_tick_operating : op.pending = [] ∧ op.nm.state ≠ .commit ∧
    (stepped op).time.cycle = 1000000001 ∧ (stepped op).time.ltime = 5 * secUnit + nominalIncr := by decide +kernel
theorem test_tick_heartbeat : (stepped { op with time := { op.time with cycle := 799999 } }).ls.heartbeat = 1 := by decide +kernel
theorem test_tick_silent : (stepped silent).time.cycle = 1000000001 ∧ (stepped silent).ls.heartbeat = 0 := by decide +kernel
theorem test_tick_reset_idles : stepped State.reset = State.reset := by decide +kernel
theorem test_mem_inv_reset : MemInv State.reset := rfl
theorem test_mem_write : Memory.wf (op.wrB 0x01000000 [1, 0, 3]).mem = true ∧
    (op.wrB 0x01000000 [1, 0, 3]).mem = [(0x01000000, 1), (0x01000002, 3)] := by decide +kernel
theorem test_silent_witness : Silent silent := by unfold Silent; decide +kernel
theorem test_silent_stays : Silent (stepped { silent with pending := [.linkUp 3 1000] }) := by unfold Silent; decide +kernel
theorem test_ts32 : op.ts = BitVec.ofNat 32 5000000000 ∧ ts32 (0xFFFFFFFF * nsUnit) - ts32 (0x100000001 * nsUnit) = -2 := by decide +kernel
theorem test_pid_rows : (pidRows.map PidRow.count).sum = 1111 := by decide +kernel

/-! Commands that are not well formed. -/

theorem test_wf_report : Instr.wf (.rstNRelease { good with selfTest := some (10, 0, 0, 0) }) = false ∧
    Instr.wf (.warmWake { good with selfTest := some (0, 0, 0, 0) } 5) = false ∧ Instr.wf (.vaonApplied good) = true := by decide +kernel
theorem test_wf_rt : Instr.wf (.sync 0 ⟨0, 1⟩ (rt 1 1000000000) 0) = false ∧ Instr.wf (.pdelayReq 0 (rt 1 0) (rt 1 1000000000) 9) = false ∧
    Instr.wf (.roleChange (rt 1 1000000000)) = false ∧ Instr.wf (.sync 0 ⟨0, 1⟩ (rt 1 999999999) 0) = true := by decide +kernel
theorem test_wf_frame : Instr.wf (.frameReceive ⟨8, .preemptable, [], false, 0, 0⟩) = false ∧
    Instr.wf (.frameReceive ⟨3, .express, [], false, 0, 1⟩) = false ∧ Instr.wf (.linkUp 22 1000) = false ∧ Instr.wf (.linkUp 3 0) = false := by
  decide +kernel
theorem test_wf_message : Instr.wf (.canReceive 0 ⟨2048, false, false, false, false, false, false, false, 8, 0, 0, 0, []⟩ false 0) = false ∧
    Instr.wf (.canReceive 0 ⟨1, false, false, false, false, false, false, false, 8, 0, 0, 0, List.replicate 9 0⟩ false 0) = false ∧
    Instr.wf (.canReceive 0 ⟨1, false, true, true, false, false, false, false, 8, 0, 0, 0, []⟩ false 0) = false := by decide +kernel
theorem test_wf_lin : Instr.wf (.linHeader 0 0 0 0) = false ∧ Instr.wf (.linResponse 0 ⟨List.replicate 9 0, 0, false, false⟩) = false := by decide +kernel
theorem test_wf_bridges : Instr.wf (.pcieMemoryRead .bar0 0xFFC 2) = false ∧ Instr.wf (.pcieMemoryRead .bar0 0xFFC 1) = true ∧
    Instr.wf (.pcieMemoryWrite .bar2 2 [] 1 0) = false ∧ Instr.wf (.pcieMemoryWrite .bar2 0 (List.replicate 64 (0, 1)) 1 0) = false ∧
    Instr.wf (.write 0 []) = false ∧ Instr.wf (.read 0 0) = false ∧ Instr.wf (.unknownInstruction 0x0B) = false ∧
    Instr.wf (.registerWrite .spi 2 0 1) = false ∧ Instr.wf (.mailboxTransaction 1 none) = false := by decide +kernel
theorem test_wf_pair : Instr.wf (.heartbeat ⟨3, 1, false, 0, 0, 0⟩) = false ∧ Instr.wf (.entryUpdate ⟨6, 0, 0, true⟩ []) = false ∧
    Instr.wf (.entryUpdate ⟨1, 0, 0, true⟩ (List.replicate 2305 0)) = false ∧ Instr.wf (.tamperEvent 0) = false := by decide +kernel
theorem test_wf_lockstep : Instr.wf (.lockstepCompare ⟨[], [], 0, [], [], none⟩ ⟨[], [], 0, [], [], none⟩) = false ∧
    Instr.wf (.checkpoint (List.replicate 15 0)) = false := by decide +kernel

/-! 02: the reference. -/

/-- P3 is a slave port of gPTP with its link up. -/
def slave : State := { setp op [(0x0523, 1)] with sw := { op.sw with link := 8 } }

theorem test_sync_first_steps : slave.fw = true ∧ slave.param 0x0501 = 1 ∧ slave.gptpRole 3 1 = true ∧
    (let t := (after (.sync 3 ⟨0, 9⟩ (rt 7 0) 0) slave).time
     t.state = .acquiring ∧ t.ltime = 7 * secUnit ∧ t.steps = 1 ∧ t.offset = -(2 * secUnit : Nat) ∧ t.gm = some 9) := by decide +kernel
theorem test_sync_eighth_locks :
    (let s := { slave with time := { slave.time with state := .acquiring, inWindow := 7, gm := some 9 } }
     let t := (after (.sync 3 ⟨0, 9⟩ (rt 5 50) 0) s).time
     t.state = .locked ∧ t.ltime = 5 * secUnit ∧ t.steps = 0 ∧ t.offset = -(50 * nsUnit : Nat)) := by decide +kernel
theorem test_sync_locked_big_offset :
    (let s := { slave with time := { slave.time with state := .locked, gm := some 9 } }
     (after (.sync 3 ⟨0, 9⟩ (rt 5 1001) 0) s).time.state = .acquiring ∧ (after (.sync 3 ⟨0, 9⟩ (rt 5 1000) 0) s).time.state = .locked ∧
     (after (.sync 3 ⟨0, 8⟩ (rt 5 0) 0) s).time.state = .acquiring) := by decide +kernel
theorem test_sync_holdover_returns :
    (let s := { slave with time := { slave.time with state := .holdover, gm := some 9 } }
     (after (.sync 3 ⟨0, 9⟩ (rt 5 100) 0) s).time.state = .locked ∧ (after (.sync 3 ⟨0, 9⟩ (rt 5 101) 0) s).time.state = .acquiring) := by decide +kernel
/-- A pulse 100 ns after the whole second. -/
def pps : State := { setp op [(0x0501, 2)] with time := { op.time with ltime := 5 * secUnit + 100 * nsUnit } }
theorem test_pps_nearest_second : (after (.ppsEdge 25000000 false) pps).time.offset = (100 * nsUnit : Nat) ∧
    (after (.ppsEdge 25000000 false) pps).time.ppsLast = some (5 * secUnit + 100 * nsUnit) := by decide +kernel
theorem test_pps_pending_second :
    (let s := { pps with time := { pps.time with ppsSec := some (9, 4 * secUnit) } }
     (after (.ppsEdge 25000000 false) s).time.offset = ((5 * secUnit + 100 * nsUnit : Nat) : Int) - (9 * secUnit : Nat) ∧
     (after (.ppsEdge 25000000 false) s).time.ppsSec = none) ∧
    (let s := { pps with time := { pps.time with ppsSec := some (9, 5 * secUnit) } }
     (after (.ppsEdge 25000000 false) s).time.offset = (100 * nsUnit : Nat) ∧ (after (.ppsEdge 25000000 false) s).time.ppsSec = some (9, 5 * secUnit)) := by
  decide +kernel
theorem test_pps_invalid : (after (.ppsEdge 25005001 false) pps).time = { pps.time with ppsLast := some (5 * secUnit + 100 * nsUnit), ppsCycle := some 1000000000 } ∧
    (after (.ppsEdge 25000000 true) pps).time = { pps.time with ppsLast := some (5 * secUnit + 100 * nsUnit), ppsCycle := some 1000000000 } ∧
    (let s := { pps with time := { pps.time with ppsLast := some (4 * secUnit + 200000000 * nsUnit) } }
     (after (.ppsEdge 25000000 false) s).time.offset = 0) := by decide +kernel
theorem test_sync_receipt_timeout :
    (let s := { op with time := { op.time with state := .locked, interval := 100000000, lastSample := 700000000 } }
     (after .syncReceiptTimeout s).time.state = .holdover ∧ (after .syncReceiptTimeout s).time.holdSince = 1000000000 ∧
     (after .syncReceiptTimeout s).dw.irqW1c = 0x100) ∧
    (let s := { op with time := { op.time with state := .locked, interval := 100000000, lastSample := 700000001 } }
     after .syncReceiptTimeout s = s) := by decide +kernel
theorem test_holdover_time :
    (after .holdoverTime { op with time := { op.time with state := .holdover, holdSince := 200000000 } }).time.state = .lost ∧
    (after .holdoverTime { op with time := { op.time with state := .holdover, holdSince := 200000001 } }).time.state = .holdover := by decide +kernel
/-- The encoder runs unindexed at angle 0. -/
def enc : State := { op with angle := { op.angle with state := .unindexed } }
theorem test_count_edge_forward : (let t := (after (.countEdge true false false) enc).angle
    t.angle = 16 ∧ t.turn = 0 ∧ t.rev = false ∧ t.encA = true) := by decide +kernel
theorem test_count_edge_reverse : (let t := (after (.countEdge false true false) enc).angle
    t.angle = 65520 ∧ t.turn = 0xFFFFFFFF ∧ t.rev = true) ∧ (after (.countEdge true false false) (setp enc [(0x0518, 1)])).angle.angle = 65520 := by
  decide +kernel
theorem test_count_edge_index : (let t := (after (.countEdge true false true) (setp enc [(0x0512, 0x100)])).angle
    t.angle = 0x100 ∧ t.indexed = true ∧ t.state = .stalled ∧ t.zTaken = true) := by decide +kernel
theorem test_quadrature_error : (let t := (after (.countEdge true true false) enc).angle
    t.angle = 0 ∧ t.quadErrs = 1 ∧ t.quadTurn = 1 ∧ t.state = .unindexed) ∧
    (after (.countEdge true true false) { enc with angle := { enc.angle with quadTurn := 15 } }).angle.state = .lost := by decide +kernel
theorem test_stall_time : (after .stallTime { op with angle := { op.angle with state := .running, lastEdge := 992000000 } }).angle.state = .stalled ∧
    (after .stallTime { op with angle := { op.angle with state := .running, lastEdge := 992000001 } }).angle.state = .running := by decide +kernel
theorem test_angle_gate_edge :
    (let e : PlacedEdge := ⟨3, 0, 1000000000, 1, true, 5, 77⟩
     let s := { op with angle := { op.angle with placed := [e, { e with port := 4 }, { e with fire := 1000000001 }] } }
     (after (.angleGateEdge 3) s).angle.placed = [{ e with port := 4 }, { e with fire := 1000000001 }] ∧
     ((after (.angleGateEdge 3) s).angle.guards.map (fun b => (b.port, b.cls, b.close))) = [(3, 5, 77)]) := by decide +kernel
/-- At 25,000,000 edges of FREQ_IN in 800,000,000 cycles the reference advances as nominal. -/
theorem test_pps_rate :
    (let s := { pps with time := { pps.time with ppsCycle := some 200000000, refIncr := nominalIncr + 5 } }
     (after (.ppsEdge 25000000 false) s).time.refIncr = nominalIncr ∧
     (after (.ppsEdge 25000250 false) s).time.refIncr = 25000250 * 40 * nsUnit / 800000000) := by decide +kernel
theorem test_capture : (let t := after .capture op
    t.snap.ltime = 5 * secUnit ∧ t.snap.cycle = 1000000000 ∧ t.snap.count = 1 ∧ t.snap.tstate = 1 ∧ t.snap.cause = 0 ∧ t.dw.irqW1c = 0x200) := by decide +kernel
theorem test_snap_second : (let s := { op with snap := { op.snap with auto := 1, secSeen := 4 } }
    (after .snapSecondCapture s).snap.cause = 1 ∧ (after .snapSecondCapture s).snap.secSeen = 5) ∧
    (let s := { op with snap := { op.snap with auto := 1, secSeen := 5 } }; after .snapSecondCapture s = s) := by decide +kernel
theorem test_sync_transmission :
    (let s := { setp op [(0x0523, 2)] with sw := { op.sw with link := 8 }, time := { op.time with state := .locked, gm := some 9, upstream := some (4 * secUnit, 3 * secUnit) } }
     (SMap.get GptpPort.reset (after (.syncTransmission 3) s).gptp 3).syncSeq = 1 ∧
     ((SMap.get GptpPort.reset (after (.syncTransmission 3) s).gptp 3).sentSync.map FollowUp.stamp) = some (5 * secUnit : Nat) ∧
     ((SMap.get GptpPort.reset (after (.syncTransmission 3) s).gptp 3).sentSync.map FollowUp.time) = some (6 * secUnit : Nat)) := by decide +kernel
theorem test_pdelay : (let t := after (.pdelayReq 3 (rt 5 100) (rt 5 300) (600 * nsUnit)) slave
    let g := SMap.get GptpPort.reset t.gptp 3
    g.linkDelay = (200 * nsUnit : Nat) ∧ g.pdelaySeq = 1 ∧ g.lastResp = some (5 * secUnit + 300 * nsUnit, 5 * secUnit + 600 * nsUnit)) := by decide +kernel

/-! 03: ingress. -/

/-- A frame of 64 bytes, DA to FCS, from `b` padded with zeros. -/
def frm (b : List Byte) : List Byte := let x := fitBytes 60 b; x ++ natLe 4 (fcsOf x).toNat
def mac (i : Nat) : List Byte := [2, 0, 0, 0, 0, BitVec.ofNat 8 i]
def rx (p : Port) (b : List Byte) : Instr := .frameReceive ⟨p, .express, frm b, false, 0, 0⟩

/-- A state in which `n` FCLK cycles have passed. -/
def later (n : Nat) (s : State) : State := { s with time := { s.time with cycle := s.time.cycle + n } }
/-- A frame, the first of the run, has been received whole, and every step of its arrival before its store has been taken. -/
def arrived (c : Instr) (s : State) : State := State.endSteps 0 3 (State.headSteps 0 13 (later 100000 (after c s)))

/-- P3, P4 and P5 are up and members of VLAN 1, which learns and floods. The MAC table holds address 9 behind P4 and address 7 behind P3. -/
def bridge : State :=
  let s := { op with sw := { op.sw with link := 0x38 } }
  let s := s.wr (0x04180000 + 16) 16 (0x38 + kf 24 15)
  let s := s.wr (macAddr ((macPlaces (mac 9) 0).headD 0)) 16 (leNat (mac 9) + kf 68 1 + kf 88 1)
  s.wr (macAddr ((macPlaces (mac 7) 0).headD 0)) 16 (leNat (mac 7) + kf 67 1 + kf 88 1)

theorem test_rx_flood : (let t := arrived (rx 3 (List.replicate 6 0xFF ++ mac 7)) bridge
    t.c64 (portReg 3 0x100) = 1 ∧ t.c64 (portReg 3 0x108) = 64 ∧ (t.arr 0).map (fun a => (a.head.dests, a.head.cls, a.own, a.es)) = some (0x30, 0, 0x30, 3) ∧
    (t.arr 0).map Arrival.allDests = some 0x30) := by decide +kernel
theorem test_rx_known : (let t := arrived (rx 3 (mac 9 ++ mac 7 ++ [0x81, 0, 0xA0, 1])) bridge
    (t.arr 0).map (fun a => (a.head.dests, a.head.cls, a.head.vid, a.head.dropped)) = some (0x10, 5, 1, 0)) := by decide +kernel
/-- A frame of 64 bytes from P3 that waits for P4 alone, whole in cell 5. -/
def f64 : Frame :=
  { inp := 3, len := 64, cells := [5], whole := true, cls := 0, dom := 0, vid := 1, pcp := none, dei := false, ctag := false, rtag := false,
    seq := none, rtags := none, untag := 0xFFFFFF, trap := false, ip := 0, ipOff := 0, ecn := 0, dests := 0x10, queued := 0x10, cutOk := 0,
    markEcn := 0, markDei := 0, multi := false, copy := none, copyCls := 0, copyDom := 0, bad := false, first := 900, endAt := 1000, readBy := [], freed := 0,
    gptp := false, ts := none }
theorem test_rx_drops :
    after (rx 3 (mac 9)) { bridge with sw := { bridge.sw with link := 0x30 } } = { bridge with sw := { bridge.sw with link := 0x30 } } ∧
    (arrived (.frameReceive ⟨3, .express, List.replicate 63 0, false, 0, 0⟩) bridge).c32 (portReg 3 0x114) = 1 ∧
    (let t := arrived (rx 3 (mac 9 ++ mac 7 ++ [0x81, 0, 0x0F, 0xFF])) bridge
     t.c32 (portReg 3 0x120) = 1 ∧ t.sw.frames = [] ∧ t.c64 (portReg 3 0x100) = 1) ∧
    (let t := arrived (.frameReceive ⟨3, .express, List.replicate 64 0, false, 0, 0⟩) bridge
     t.c32 (portReg 3 0x110) = 1 ∧ t.c64 (portReg 3 0x100) = 0) := by decide +kernel
theorem test_rx_not_admitted : (let s := setp bridge [(0x0123, 0), (0x0143, 23)]
    (arrived (rx 3 (mac 9 ++ mac 7)) s).c32 (portReg 3 0x144) = 1 ∧ s.admits 3 = false ∧ (setp bridge [(0x0123, 0), (0x0143, 24)]).admits 3 = true) := by
  decide +kernel

/-- Recovery function 5 in use, history length 8, reset timer 2 ms. -/
def frer (r : Recov) (opt : Nat) : State := (op.wr (0x04190000 + 80) 4 (opt + kf 3 8 + kf 16 2)).setRecov 5 r
theorem test_recovery_new : (let p := (frer ⟨false, 10, 0xFB, some 1⟩ 1).recover 5 (some 13)
    p.1 = true ∧ p.2.recov 5 = ⟨false, 13, 0xD9, some 1000000000⟩ ∧ p.2.c32 (recovCnt 5 0x10) = 0 ∧ p.2.c32 (recovCnt 5 0) = 1) := by decide +kernel
theorem test_recovery_lost : (let p := (frer ⟨false, 65535, 0xBF, some 1⟩ 1).recover 5 (some 1)
    p.1 = true ∧ (p.2.recov 5).hist = 0xFD ∧ p.2.c32 (recovCnt 5 0x10) = 1) := by decide +kernel
theorem test_recovery_old : (let s := frer ⟨false, 10, 0xFB, some 1⟩ 1
    s.recover 5 (some 9) = (false, s.bump (recovCnt 5 4)) ∧ s.recover 5 (some 10) = (false, s.bump (recovCnt 5 4)) ∧
    (s.recover 5 (some 8)).1 = true ∧ ((s.recover 5 (some 8)).2.recov 5).hist = 0xFF ∧ (s.recover 5 (some 8)).2.c32 (recovCnt 5 8) = 1 ∧
    s.recover 5 (some 18) = (false, s.bump (recovCnt 5 0xC)) ∧ s.recover 5 (some 2) = (false, s.bump (recovCnt 5 0xC)) ∧
    (s.recover 5 (some 17)).1 = true ∧ (s.recover 5 (some 3)).1 = false) := by decide +kernel
theorem test_recovery_take_any : (let p := (frer Recov.reset 1).recover 5 (some 77)
    p.1 = true ∧ p.2.recov 5 = ⟨false, 77, 1, some 1000000000⟩) ∧
    (let s := frer ⟨false, 10, 0xFB, some 1⟩ 3
     (s.recover 5 (some 11)).1 = true ∧ s.recover 5 (some 10) = (false, s.bump (recovCnt 5 4))) := by decide +kernel
theorem test_recovery_timeout : (let s := frer ⟨false, 10, 1, some (1000000000 - 1600000)⟩ 1
    ((after (.recoveryResetTimeout 5) s).recov 5).takeAny = true ∧ (after (.recoveryResetTimeout 5) s).c32 (recovCnt 5 0x14) = 1) ∧
    (let s := frer ⟨false, 10, 1, some (1000000001 - 1600000)⟩ 1; after (.recoveryResetTimeout 5) s = s) := by decide +kernel

/-- A frame without tags to DA, of an EtherType. -/
def head (da : List Byte) (et : Nat) : Parsed := parseFrame (fitBytes 60 (da ++ mac 7 ++ natBe 2 et)) 64
theorem test_forward_reserved :
    (let h := bridge.forward 3 (head [1, 0x80, 0xC2, 0, 0, 0x0E] 0x88F7) 1 none; (h.dropped, h.dests, h.learn) = (0, 2 ^ 22, none)) ∧
    (let h := bridge.forward 3 (head [1, 0x80, 0xC2, 0, 0, 1] 0x8808) 1 none; (h.dropped, h.count) = (4, 0x128)) ∧
    (let h := bridge.forward 3 (head [1, 0x80, 0xC2, 0, 0, 0x0F] 0x88F7) 1 none; (h.dropped, h.count) = (4, 0x124)) := by decide +kernel
theorem test_forward_vlan :
    (let h := bridge.forward 3 (head (mac 9) 0x800) 2 none; (h.dropped, h.count) = (4, 0x120)) ∧
    (let h := bridge.forward 6 (head (mac 9) 0x800) 1 none; (h.dropped, h.count) = (4, 0x120)) ∧
    (let h := bridge.forward 4 (head (mac 9) 0x800) 1 none; (h.dropped, h.count) = (4, 0x130)) ∧
    (let h := bridge.forward 3 (head (mac 9) 0x800) 1 none; (h.dropped, h.dests, h.learn) = (0, 0x10, some 0)) ∧
    (let h := bridge.forward 3 (head (List.replicate 6 0xFF) 0x800) 1 none; (h.dropped, h.dests) = (0, 0x30)) := by decide +kernel

theorem test_link_up : (let t := after (.linkUp 3 1000) (setp op [(0x0243, 1)])
    t.sw.link = 8 ∧ SMap.get 0 t.sw.rate 3 = 1000 ∧ t.dw.linkChg = 8) ∧ after (.linkUp 3 1000) op = op ∧
    (after (.linkUp 8 25000) op).sw.link = 0x100 := by decide +kernel
theorem test_link_down : (let s := { bridge with dw := { bridge.dw with linkChgEn := 0x10 } }
    let t := after (.linkDown 4) (State.enqueue { s with sw := { s.sw with frames := [(0, some { f64 with dests := 0x30, queued := 0x20 })] } } 0 4)
    t.sw.link = 0x28 ∧ t.dw.linkChg = 0x10 ∧ (t.leaf 4 0 0).items = [] ∧ t.c32 (qCnt 4 0 0x1C) = 1 ∧ (t.frame 0).map (·.dests) = some 0x20 ∧
    bit t.dwIrq 3 = true) := by decide +kernel
theorem test_aging : (let a (age stat : Nat) := leNat (mac 9) + kf 68 1 + kf 88 1 + kf 89 stat + kf 96 age
    let s := ((setp op [(0x0210, 5)]).wr (macAddr 0) 16 (a 2 0)).wr (macAddr 1) 16 (a 3 0)
    let s := (s.wr (macAddr 32767) 16 (a 3 1))
    let t := after .agingSweep s
    t.sw.agePhase = 1000000000 ∧ t.macEntry 0 = a 3 0 ∧ t.macEntry 1 = 0 ∧ t.macEntry 32767 = a 3 1 ∧
    after .agingSweep { s with sw := { s.sw with agePhase := 1 } } = { s with sw := { s.sw with agePhase := 1 } }) := by decide +kernel
/-! 04, 05: buffer, fabric and egress. -/

/-- Bytes 1 to 32 as half-cell 7, with their check symbols. -/
def half : State := { (op.writeHalf 7 ((List.range 32).map (fun i => BitVec.ofNat 8 (i + 1)))) with sw := { op.sw with scrubPos := 7, scrubLeft := 3, scrubDue := 999999990 } }
theorem test_scrub_clean : (let t := after (.scrubRead []) half
    t.sw.scrubPos = 8 ∧ t.sw.scrubLeft = 2 ∧ t.mem = half.mem ∧ t.check = half.check ∧ t.cnt32 = []) := by decide +kernel
theorem test_scrub_corrects : (let t := after (.scrubRead [(0, 0x5A)]) half
    t.rd8 0x080000E0 = 0x5B ∧ t.c32 0x0489000C = 1 ∧ t.sw.rsLast = 0x280007 ∧ t.sw.scrubDue = 1000000010 ∧ t.scrubBack.rd8 0x080000E0 = 0x5B) := by
  decide +kernel
theorem test_scrub_writes_back : (let t := (later 4 (after (.scrubRead [(0, 0x5A)]) half)).scrubBack
    t.mem = half.mem ∧ t.check = half.check ∧ t.sw.scrubHold = []) := by decide +kernel
theorem test_scrub_two : (let t := after (.scrubRead [(31, 1), (35, 0x80)]) half
    t.c32 0x04890010 = 1 ∧ t.c32 0x0489000C = 0 ∧ (later 4 t).scrubBack.check = half.check) := by decide +kernel
theorem test_scrub_due : (let s := { half with sw := { half.sw with scrubDue := 1000000001 } }; after (.scrubRead []) s = s) ∧
    (let s := { half with sw := { half.sw with readAt := 1000000001 } }; after (.scrubRead []) s = s) ∧
    (let s := { half with sw := { half.sw with readAt := 1000000001, scrubDue := 999999936 } }; (after (.scrubRead []) s).sw.scrubPos = 8) := by
  decide +kernel
theorem test_scrub_fails : (let t := after (.scrubRead [(0, 1), (1, 2), (2, 3), (3, 9)]) half
    t.pw.mode = .failSilent ∧ (t.pw.fr.last.map (fun e => (e.code, e.unit, e.detail.take 2))) = some (0x0101, 1, [7, 0xFF])) := by
  decide +kernel
theorem test_scrub_wraps : (let t := after (.scrubRead []) { op with sw := { op.sw with scrubPos := 393215 } }
    t.sw.scrubPos = 0 ∧ t.c32 0x04890018 = 1) := by decide +kernel
theorem test_rs_gen : rsGen = [15, 54, 120, 64] ∧ (let cw := (List.range 32) ++ rsCheck (List.range 32)
    rsSyns cw = [0, 0, 0, 0] ∧ rsDecode (rsFlip cw 35 7) = some (cw, 1)) := by decide +kernel

/-- A cell of zeros from P1 to P2 in flight. -/
def flying (q : Nat) : CellTx :=
  { fid := 9, inp := 1, out := 2, dest := 2, idx := 0, cell := 5, cls := 0, seq := BitVec.ofNat 12 q, at_ := 5, data := [], upset := [] }
def cells (l f : List CellTx) : State := { op with fab := { op.fab with flight := l, store := f } }
theorem test_cell_wrong_plane : (let t := after (.cellArrive 2 1 1 4 []) (cells [flying 4] [])
    t.pw.mode = .failSilent ∧ (t.pw.fr.last.map (fun e => (e.code, e.unit, e.detail))) = some (0x0103, 1, [1, 2, 4, 4])) ∧
    (after (.cellArrive 2 1 0 256 []) (cells [flying 256] [])).pw.mode = .failSilent := by decide +kernel
theorem test_cell_ahead : (let t := after (.cellArrive 2 1 3 255 []) (cells [flying 255] [])
    t.fab.store = [{ flying 255 with at_ := 1000000000 }] ∧ t.fab.flight = [] ∧ t.c32 (portReg 2 0x194) = 1 ∧ t.c32 (portReg 2 0x198) = 1) := by
  decide +kernel
theorem test_cell_in_order : (let t := after (.cellArrive 2 1 0 0 [(1, 4, 0x11)]) (cells [flying 0] [flying 1, flying 3])
    t.fab.store = [flying 1, flying 3, { flying 0 with at_ := 1000000000, upset := [(1, 4, 0x11)] }] ∧ t.fab.flight = [] ∧
    (let u := t.releaseNext 2
     SMap.get 0 u.fab.expect 26 = 1 ∧ u.fab.store = [flying 1, flying 3] ∧ u.fab.out.map (fun c => (c.seq, c.at_)) = [(0, 1000000008)] ∧
     SMap.get 0 (u.releaseNext 2).fab.expect 26 = 2 ∧ ((u.releaseNext 2).releaseNext 2).fab.store = [flying 3])) := by decide +kernel
theorem test_confluence_timeout : (let t := after (.confluenceTimeout 2) { cells [] [flying 3] with time := { op.time with cycle := 1605 } }
    t.pw.mode = .failSilent ∧ (t.pw.fr.last.map (fun e => (e.code, e.unit, e.detail))) = some (0x0102, 2, [1, 0, 3, 1])) ∧
    (after (.confluenceTimeout 2) { cells [] [flying 3] with time := { op.time with cycle := 1604 } }).pw.mode = .operating := by decide +kernel

def raw64 : List Byte := frm (mac 9 ++ mac 7)
def txf (f : Frame) (c : Fin 8) : TxFrame :=
  { fid := 0, frame := f, dest := 4, cls := c, dom := 0, pcpCls := false, cost := 64, known := true, tau := 100000, begun := true, got := 1, raw := raw64,
    sent := 0, fragAt := 0, preempted := false, overran := false, sa := none, cut := none }
/-- P4 is up and holds the frame: in its queue, or in transmission. -/
def queued : State :=
  let s := { op with sw := { op.sw with link := 0x38, frames := [(0, some f64)], used := [(5, true)], occ := [(3, 1)] }, time := { op.time with cycle := 100050 } }
  (s.setCls 4 2 { ClassQ.reset with v := 700, depth := 1 }).setLeaf 4 2 6 ⟨900, [⟨0, 4, 1010, none, true⟩]⟩
def sending (x : TxFrame) : State := ({ queued with sw := { queued.sw with frames := [(0, some x.frame)] } }).setEgr 4 { Egress.reset with tx := some x }

theorem test_select : (let t := after (.egressSelect 4) queued
    (t.leaf 4 2 6).items = [] ∧ (t.leaf 4 2 6).s = 964 ∧ (t.cls 4 2).v = 900 ∧ (t.egr 4).lastSelect = 100051 ∧
    ((t.egr 4).tx.map (fun y => (y.fid, y.dest, y.begun, y.tau))) = some (0, 4, false, 100094) ∧
    t.fab.pulls.map (fun p => (p.idx, p.at_)) = [(0, 100052)] ∧ { t with time.cycle := 100051 }.readPorts.fab.waiting = [] ∧
    (let u := { t with time.cycle := 100052 }.readPorts
     u.fab.waiting.map (fun c => (c.cell, c.seq, c.at_)) = [(5, 0, 100056)] ∧ u.fab.pulls = [])) := by decide +kernel
theorem test_select_lower_tag : (let s := queued.setLeaf 4 2 9 ⟨899, [⟨0, 4, 1010, none, true⟩]⟩
    s.chooseLeaf 4 2 = some 9 ∧ (queued.setLeaf 4 2 9 ⟨900, [⟨0, 4, 1010, none, true⟩]⟩).chooseLeaf 4 2 = some 6 ∧
    (queued.setLeaf 4 2 9 ⟨699, [⟨0, 4, 1010, none, true⟩]⟩).chooseLeaf 4 2 = some 9 ∧ queued.chooseLeaf 4 3 = none) := by decide +kernel
theorem test_select_class_order : (let s := queued.setLeaf 4 7 0 ⟨0, [⟨0, 4, 1010, none, true⟩]⟩
    (chooseClass 4 100094 false false (s.classOrder 4) s).1 = .take 7 ∧ s.classOrder 4 = [7, 6, 5, 4, 3, 2, 1, 0] ∧
    s.mayServe 4 2 100094 = true ∧ s.mayServe 4 3 100094 = false) := by decide +kernel
theorem test_wire_good : (let t := after (.frameTransmitEnd 4) (sending { txf f64 2 with tau := 0 })
    SMap.get [] t.sw.wire 4 = raw64 ∧ (t.egr 4).tx = none ∧ t.c64 (txCnt 4 2 8) = 64 ∧ t.c32 (portReg 4 0x180) = 0) := by decide +kernel
theorem test_wire_stomped : (let t := after (.frameTransmitEnd 4) (sending { txf { f64 with bad := true } 2 with tau := 0 })
    SMap.get [] t.sw.wire 4 = raw64.take 60 ++ natLe 4 (0xFFFFFFFF - leNat (raw64.drop 60)) ∧ t.c32 (portReg 4 0x180) = 1 ∧
    t.c32 (portReg 4 0x184) = 1) := by decide +kernel
theorem test_wire_tagged : (let t := after (.frameTransmitEnd 4) (sending { txf { f64 with untag := 0, dei := true } 2 with tau := 0 })
    (SMap.get [] t.sw.wire 4).take 18 = mac 9 ++ mac 7 ++ [0x81, 0, 0x10, 1, 0, 0] ∧ (SMap.get [] t.sw.wire 4).length = 68) := by decide +kernel
theorem test_wire_too_early : (let s := sending { txf f64 2 with tau := 100004 }; after (.frameTransmitEnd 4) s = s) ∧
    (after (.frameTransmitEnd 4) (sending { txf f64 2 with tau := 100003 })).sw.wire ≠ [] := by decide +kernel
theorem test_underrun : (let x := { txf { f64 with len := 128, cells := [5, 6] } 2 with tau := 0 }
    let s := sending x
    let t := after (.underrun 4) s
    SMap.get [] t.sw.wire 4 = raw64 ++ natLe 4 (0xFFFFFFFF - (fcsOf raw64).toNat) ∧ t.c32 (portReg 4 0x188) = 1 ∧ t.c32 (portReg 4 0x180) = 1 ∧
    (t.egr 4).tx = none ∧ t.c32 (portReg 4 0x184) = 0) := by decide +kernel
theorem test_ats_eligible : (let s := (queued.setLeaf 4 2 6 ⟨0, [⟨0, 4, 1, some 100050, false⟩, ⟨1, 4, 1, some 100051, false⟩, ⟨2, 4, 1, none, true⟩]⟩)
    ((after (.atsEligible 4 2 6) s).leaf 4 2 6).items.map (·.act) = [true, false, true]) := by decide +kernel
theorem test_verify_timeout : (let s (n v : Nat) := queued.setEgr 4 { Egress.reset with verify := 1, attempts := n, verifyAt := v }
    let s (n v : Nat) := { s n v with time := { op.time with cycle := 8000007 } }
    ((after (.mmVerifyTimeout 4) (s 2 7)).egr 4).attempts = 3 ∧ ((after (.mmVerifyTimeout 4) (s 3 7)).egr 4).verify = 3 ∧
    after (.mmVerifyTimeout 4) (s 3 8) = s 3 8) := by decide +kernel

/-- A preemptable frame of 200 bytes of class 0 has been in transmission for 320 cycles at 1 Gb/s, and an express one is selected. -/
def preempting (len : Nat) : State :=
  let s := (setp queued [(0x0444, 1)]).wr (classAddr 4 0 + 2) 1 4
  let s := s.setEgr 4 { Egress.reset with tx := some (txf { f64 with len := len, cells := [5, 6, 7, 8] } 0),
                                          next := [{ txf f64 7 with begun := false, got := 0 }] }
  { s with sw := { s.sw with rate := [(4, 1000)], frames := [(0, some { f64 with len := len, cells := [5, 6, 7, 8] })] }, time := { op.time with cycle := 100320 } }
theorem test_preempt : (let s := preempting 200
    s.isPreemptable 4 0 = true ∧ s.isPreemptable 4 7 = false ∧ s.minFrag 4 = 64 ∧
    (let t := after (.preempt 4) s
     (t.egr 4).held.map (fun x => (x.sent, x.preempted)) = some (64, true) ∧ (t.egr 4).tx.map (·.cls) = some 7 ∧ t.c32 (txCnt 4 0 0x1C) = 1)) := by
  decide +kernel
theorem test_preempt_too_short : after (.preempt 4) (preempting 127) = preempting 127 ∧ after (.preempt 4) (preempting 128) ≠ preempting 128 := by decide +kernel

/-- P4 runs a list of two entries: gates 0xFF for 400 ns, gates 0x01 for 600 ns; a pending list holds one entry, gates 0x0F. -/
def listed (g : Gate) : State :=
  let s := setp op [(0x0424, 1)]
  let s := ((s.wrB (gateEntryAddr 4 false 0) (natLe 2 0xFF ++ natLe 4 400 ++ natLe 2 0 ++ natLe 2 1 ++ natLe 4 600)).wrB (gateEntryAddr 4 true 0)
    (natLe 2 0x0F ++ natLe 4 5000))
  s.setGate 4 g
def gate0 : Gate := { Gate.reset with cur := some ⟨7, false, 2, 1000, 0⟩, entry := 0, nextEdge := 5 * secUnit }
theorem test_gate_edge : (let t := after (.gateEdge 4) (listed gate0)
    t.gate 4 = { gate0 with entry := 1, nextEdge := 5 * secUnit + 600 * nsUnit, state := 1 } ∧ t.c32 (portReg 4 0x208) = 0) ∧
    (let t := after (.gateEdge 4) (listed { gate0 with entry := 1 })
     (t.gate 4).entry = 0 ∧ (t.gate 4).state = 0xFF ∧ t.c32 (portReg 4 0x208) = 1) ∧
    (let s := listed { gate0 with nextEdge := 5 * secUnit + 1 }; after (.gateEdge 4) s = s) := by decide +kernel
theorem test_gate_switch : (let s := listed { gate0 with pend := some ⟨8, false, 1, 5000, 0⟩, switchAt := 5 * secUnit }
    let t := after (.gateListSwitch 4) s
    (t.gate 4).cur = some ⟨8, false, 1, 5000, 0⟩ ∧ (t.gate 4).pend = none ∧ (t.gate 4).state = 0x0F ∧ t.c32 (portReg 4 0x20C) = 1 ∧
    t.rd (gateEntryAddr 4 false 0) 1 = 0x0F) ∧
    (let s := listed { gate0 with pend := some ⟨8, false, 1, 5000, 0⟩, switchAt := 5 * secUnit + 1 }; after (.gateListSwitch 4) s = s) := by
  decide +kernel
theorem test_weir : (let s := listed { gate0 with state := 0xFF }
    -- the closing of class 1 comes in 400 ns, inside its guard band of 998 cycles; class 0 never closes
    (s.weir 4 1 1000000000).1 = .guard ∧ (s.weir 4 0 1000000000).1 = .open_ ∧ s.guardBand 4 1 = 998) := by decide +kernel
theorem test_overrun : (let s := listed gate0
    let s := s.setEgr 4 { Egress.reset with tx := some (txf f64 2) }
    ((after (.gateEdge 4) s).egr 4).tx.map (·.overran) = some true) := by decide +kernel

/-! 06: millrace windows. -/

/-- P4 has one window for P3 in its current set: opening 5,000 ns into the cycle of 1 ms, arrival interval 200 ns, span 1,500 ns. -/
def milled (lt : Nat) (m : Millrace) : State :=
  let s := setp (listed { gate0 with cur := some ⟨7, false, 1, 1000000, 0⟩, nextEdge := 6 * secUnit }) [(0x0604, 1)]
  let s := s.wrB (windowAddr 4 false 0) (natLe 4 (3 + 9 * 256) ++ natLe 4 600 ++ natLe 4 5000 ++ natLe 4 200 ++ natLe 4 1500)
  { s with sw := { s.sw with link := 0x38, mills := [(4, m)] }, time := { s.time with ltime := lt, state := .locked } }
def set1 : Millrace := { Millrace.reset with curGen := some 7, curCount := 1 }
/-- Local time 998 cycles before the opening. -/
def decideAt : Nat := 5 * secUnit + 5000 * nsUnit - 998 * nominalIncr
theorem test_window_decided : (let t := after (.windowDecision 4 0) (milled decideAt set1)
    (t.mill 4).decided = [⟨0, 3, 9, 600, 5000, 5 * secUnit + 5000 * nsUnit, 200, 1500, true, List.replicate 8 998⟩] ∧ t.cnt32 = []) ∧
    (let s := milled (decideAt - 1) set1; after (.windowDecision 4 0) s = s) ∧
    after (.windowDecision 4 1) (milled decideAt set1) = milled decideAt set1 := by decide +kernel
theorem test_window_withdrawn : (let s := milled decideAt set1
    let s := { s with sw := { s.sw with link := 0x30 } }
    let t := after (.windowDecision 4 0) s
    (t.mill 4).decided = [] ∧ t.c32 (portReg 4 0x268) = 1 ∧ t.c32 (windowCnt 4 0 0xC) = 1) := by decide +kernel
def dec1 : DecidedWin := ⟨0, 3, 9, 600, 5000, 5 * secUnit, 200, 1500, true, List.replicate 8 998⟩
theorem test_window_opens : (let t := after (.windowOpen 4) (milled (5 * secUnit) { set1 with decided := [dec1] })
    (t.mill 4).opened = some ⟨dec1, 1000000000, false, 0, 0, 0⟩ ∧ (t.mill 4).decided = [] ∧ (t.weir 4 7 1000000000).1 = .closed ∧
    (t.weir 4 7 1000000160).1 = .closed ∧ (t.weir 4 7 1000000161).1 ≠ .closed) ∧
    (let s := milled (5 * secUnit - 1) { set1 with decided := [dec1] }; after (.windowOpen 4) s = s) := by decide +kernel
theorem test_window_ends : (let s := milled (5 * secUnit) { set1 with opened := some ⟨dec1, 1000000000 - 160, false, 0, 0, 0⟩ }
    (after (.windowEnd 4) s).mill 4 = { set1 with freeAt := 1000000001 } ∧ (after (.windowEnd 4) s).c32 (portReg 4 0x264) = 1 ∧ (after (.windowEnd 4) s).c32 (windowCnt 4 0 8) = 1) ∧
    (let s := milled (5 * secUnit) { set1 with opened := some ⟨dec1, 1000000000 - 159, false, 0, 0, 0⟩ }; after (.windowEnd 4) s = s) ∧
    ((after (.windowEnd 4) (milled 0 { set1 with opened := some ⟨dec1, 0, true, 1000000000, 0, 0⟩ })).mill 4).opened = none := by decide +kernel
theorem test_window_adopt : (let m := { set1 with nextGen := some 9, nextCount := 1, nextSet := natLe 4 7, nextAt := 5 * secUnit, decided := [dec1] }
    let s := (milled (5 * secUnit) m).bump (windowCnt 4 0 0)
    let t := after (.windowSetAdopt 4) s
    (t.mill 4).curGen = some 9 ∧ (t.mill 4).nextGen = none ∧ (t.mill 4).decided = [{ dec1 with ownSet := false }] ∧
    t.rd (windowAddr 4 false 0) 4 = 7 ∧ t.c32 (windowCnt 4 0 0) = 0) ∧
    (let s := milled (5 * secUnit) { set1 with nextGen := some 9, nextCount := 0, nextAt := 5 * secUnit + 1 }; after (.windowSetAdopt 4) s = s) := by
  decide +kernel
theorem test_candidate_passes : (let s := milled (5 * secUnit) { set1 with opened := some ⟨dec1, 1000000000 - 15, false, 0, 0, 0⟩ }
    (s.candWindows 3 (1000000000 - 6) = [4]) ∧ s.candWindows 5 (1000000000 - 6) = [] ∧ s.candWindows 3 (1000000000 - 16) = [] ∧
    s.candWindows 3 (1000000000 + 144) = [4] ∧ s.candWindows 3 (1000000000 + 145) = []) := by decide +kernel

/-! 07: the screen. -/

/-- Rule `r` of bank 0: the bits of `mask` must equal those of `val`. -/
def rule (s : State) (r val mask act : Nat) : State := s.wrB (ruleBase false + r * 160) (natLe 64 val ++ natLe 64 mask ++ natLe 32 act)
/-- Rules 4 and 8191 are valid; rule 3 is not. Rule 4 drops what has 5 in its low bits, rule 8191 passes with class 6 and counts. -/
def ruled : State := rule (rule (rule op 3 0 0 2) 4 5 7 (1 + 2)) 8191 0 0 (1 + 8 + 128 + kf 12 6)
theorem test_rules : ruled.judgeKey 0 13 = (some 4, 3) ∧ (ruled.judgeKey 0 14).1 = some 8191 ∧ op.judgeKey 0 14 = (none, 0) ∧
    (setp op [(0x0759, 3)]).judgeKey 25 14 = (none, 18) := by decide +kernel
theorem test_screen_drop : (let r := ruled.screen 25 13 100 none .frame []
    r.1.pass = false ∧ r.2.c32 (scrCnt 25 8) = 1 ∧ r.2.c64 (scrCnt 25 0) = 0 ∧ r.2.mem = ruled.mem) ∧
    (let r := (setp op [(0x0740, 1)]).screen 0 13 100 none .frame []; r.1.pass = false ∧ r.2.c32 (scrCnt 0 0xC) = 1) := by decide +kernel
theorem test_screen_pass : (let r := ruled.screen 0 14 100 none .frame []
    r.1.pass = true ∧ r.1.cls = some 6 ∧ r.1.dom = none ∧ r.2.c64 (scrCnt 0 0) = 1 ∧ r.2.c64 (0x048C0000 + 8191 * 16) = 1) := by decide +kernel
theorem test_screen_conn : (let s := rule op 0 0 0 (1 + 4); let r := s.screen 0 1 100 none .frame []
    r.1.pass = false ∧ r.2.c32 (scrCnt 0 0x10) = 1) := by decide +kernel
/-- Meter 7 is in use: 1,000 and 500 kb/s, bursts of 1,500 and 300 bytes. -/
def metered (opt : Nat) (x : Meter) : State := (op.wrB (meterAddr 7) (natLe 4 1000 ++ natLe 4 1500 ++ natLe 4 500 ++ natLe 4 300 ++ natLe 4 opt)).setMeter 7 x
def m7 : Meter := ⟨0, 0, 24999, 0, 1000000000 - 25000, false⟩
theorem test_meter_green : (let r := (metered 1 m7).charge 7 3
    -- 1,000 per cycle over 25,000 cycles is 1,000 steps of 1/256 byte, and the remainder is carried
    r.1 = (.green, false) ∧ r.2.meter 7 = ⟨1000 - 768, 500, 24999, 0, 1000000000, false⟩ ∧ r.2.c64 (meterCnt 7 0) = 1) := by decide +kernel
theorem test_meter_yellow_red : (let r := (metered 9 { m7 with te := 600 }).charge 7 4
    r.1 = (.yellow, true) ∧ (r.2.meter 7).te = 1100 - 1024 ∧ r.2.c32 (meterCnt 7 8) = 1 ∧ r.2.c32 (meterCnt 7 0x10) = 1) ∧
    (let r := (metered 17 m7).charge 7 4
     r.1 = (.red, true) ∧ (r.2.meter 7).mar = true ∧ r.2.c32 (meterCnt 7 0xC) = 1) ∧
    (let s := metered 0 m7; s.charge 7 4 = ((.green, false), s)) := by decide +kernel
theorem test_meter_coupled : (let r := (metered 5 { m7 with tc := 1500 * 256 - 900 }).charge 7 0
    (r.2.meter 7).te = 500 + 100 ∧ (r.2.meter 7).tc = 1500 * 256) ∧
    ((((metered 1 Meter.reset).charge 7 1500).1, ((metered 1 Meter.reset).charge 7 1501).1) = ((.green, false), (.red, true))) := by decide +kernel
/-- A segment of a tracked connection. -/
def seg (kind flags pay : Nat) : ConnUnit := ⟨kind, false, [], [], 1, 2, 0, 0, 0, 0, flags, false, pay⟩
theorem test_tcp_steps :
    tcpStep (seg 0 2 0) 1 true none = some 1 ∧ tcpStep (seg 0 0x12 0) 1 false none = some 2 ∧ tcpStep (seg 0 0x10 0) 1 true none = none ∧
    tcpStep (seg 0 5 0) 2 true none = some 5 ∧ tcpStep (seg 0 1 0) 2 false none = some 4 ∧ tcpStep (seg 0 1 0) 4 false (some false) = some 4 ∧
    tcpStep (seg 0 1 0) 4 true (some false) = some 5 ∧ tcpStep (seg 0 0x10 0) 5 true none = some 5 ∧ tcpStep (seg 0 0x18 0) 5 true none = none := by
  decide +kernel
theorem test_doip_steps : -- payload types 0x0005, 0x0006 and 0x8001 behind 02 FD
    tcpStep (seg 2 0x10 0x0500FD02) 2 true none = some 2 ∧ tcpStep (seg 2 0x10 0x0180FD02) 2 true none = none ∧
    tcpStep (seg 2 0x10 0x0600FD02) 2 false none = some 3 ∧ tcpStep (seg 2 0x10 0x0180FD02) 3 true none = some 3 := by decide +kernel
/-- Entry 65,535 is in use in state 2, last met at tick 1,250 - `age`; the idle time of its selector is 5,000 ms. -/
def conned (age : Nat) : State :=
  { (op.wrB (connAddr 65535) (natLe 8 (1 + 2 * 16) ++ natLe 4 0 ++ natLe 4 (10000 - age) ++ natLe 4 9)) with
    time := { op.time with cycle := 10000 * 800000 } }
theorem test_conn_sweep : (let t := after (.connSweep 65535) (conned 5001)
    (conned 5001).connUsed = 1 ∧ t.mem = [] ∧ t.connUsed = 0 ∧ t.c32 0x0490000C = 1) ∧ after (.connSweep 65535) (conned 5000) = conned 5000 ∧
    after (.connSweep 65534) (conned 5001) = conned 5001 := by decide +kernel
theorem test_conn_remove : (let t := after (.connRemove 2) (req (conned 0) 2 0x0720 (natLe 4 65535))
    status t 2 = 0 ∧ (List.range 64).all (fun i => t.rd8 (connAddr 65535 + i) = 0) ∧ t.connUsed = 0 ∧ (t.mb 2).state = .done) ∧
    status (after (.connRemove 2) (req (conned 0) 2 0x0720 (natLe 4 65534))) 2 = Status.noEntry.code ∧
    status (after (.connRemove 2) (req (conned 0) 2 0x0720 (natLe 4 65536))) 2 = Status.badField.code := by decide +kernel
theorem test_rule_swap : (let s := (ruled.add64 (0x048C0000 + 16) 5)
    let s (n : Nat) := { s with scr := { s.scr with load := some ⟨9, 1000, 1000000000 - n, 1000, [], some 3⟩ }, host := { s.host with busy := some (3, .ruleLoad), mbs := [(3, ⟨.busy, none, 0, 0⟩)] } }
    let t := after .ruleBankSwap (s 4000)
    t.scr.bank = true ∧ t.scr.gen = 9 ∧ t.scr.load = none ∧ t.c64 (0x048C0000 + 16) = 0 ∧ t.c32 0x04900010 = 1 ∧ (t.mb 3).state = .done ∧
    after .ruleBankSwap (s 3999) = s 3999) := by decide +kernel

/-! 08: CAN. -/

/-- CAN channel 5 is in Normal mode and idle; its staging buffer 2 holds ID 0x123, three bytes, TAG 0xBEEF, a lifetime of 10 ms. -/
def can5 (c : Can) : State :=
  ((setp op [(0x0805, 1)]).wrB (txsAddr 5 2) (natLe 16 (0x123 + kf 32 3 + kf 48 0xBEEF) ++ natLe 4 10 ++ natLe 12 0 ++ [1, 2, 3])).setCan 5 c
def idle : Can := { Can.reset with mode := 1, pstate := 2, opts := 0x80 }
def msg5 (id : Nat) (d : List Byte) : CanMsg :=
  ⟨BitVec.ofNat 29 id, false, false, false, false, false, false, false, canDlc d.length, 0, 0, 0, d⟩
def ent (src life : Nat) : CanEntry := ⟨msg5 0x123 [1, 2, 3], src, 0xBEEF, life, 1230, none⟩

/-- The state after twenty cycles of the gateway lookup port alone: a key posted has its verdict (R193, R194). -/
def judged (s : State) : State :=
  (List.replicate 20 ()).foldl (fun s _ => ({ s with time := { s.time with cycle := s.time.cycle + 1 } }).gwTick) s
theorem test_tx_push : (let t := judged (after (.txPush 5 2 false) (can5 idle))
    (t.can 5).queue = [{ ent 2 10 with tick := 1250 }] ∧ t.rd (txsAddr 5 2 + 20) 1 = 1 ∧ (t.can 5).prio = none) ∧
    (let t := judged (after (.txPush 5 2 true) (can5 idle)); (t.can 5).prio = some { ent 2 10 with tick := 1250 } ∧ t.rd (txsAddr 5 2 + 20) 1 = 2) := by
  decide +kernel
theorem test_tx_push_refused :
    (let r (c : Can) (p : Bool) := let t := judged (after (.txPush 5 2 p) (can5 c)); (t.rd (txsAddr 5 2 + 20) 1, (t.can 5).irq, (t.can 5).queue.length)
     r { idle with mode := 3 } false = (7, 0x80, 0) ∧ r { idle with queue := List.replicate 32 (ent 0 0) } false = (3, 0x80, 32) ∧
     r { idle with queue := List.replicate 31 (ent 0 0) } false = (1, 0, 32) ∧ r { idle with prio := some (ent 0 0) } true = (3, 0x80, 0)) ∧
    (after (.txPush 5 1 false) ((can5 idle).wr (txsAddr 5 1) 8 (0x800 + kf 32 3))).rd (txsAddr 5 1 + 20) 1 = 4 ∧
    (judged (after (.txPush 5 2 false) (setp (can5 idle) [(0x0758, 1)]))).rd (txsAddr 5 2 + 20) 1 = 5 ∧
    (after (.txPush 5 1 false) ((can5 { idle with queue := [{ ent 0 0 with long := some 3 }] }).wr (txsAddr 5 1) 11 (0x123 + kf 32 3 + kf 47 1 + kf 81 3))).rd
      (txsAddr 5 1 + 20) 1 = 6 := by decide +kernel
theorem test_tx_start : (let c := { idle with queue := [ent 2 0] }
    (after (.canTxStart 5) (can5 c)).can 5 = { c with attempt := some false, sof := op.ts, pstate := 4, lastTx := some (msg5 0x123 [1, 2, 3]) }) ∧
    ((after (.canTxStart 5) (can5 { idle with queue := [ent 2 0], prio := some (ent 1 0) })).can 5).attempt = some true ∧
    (let s := can5 { idle with queue := [ent 2 0], mode := 2 }; after (.canTxStart 5) s = s) := by decide +kernel
/-- An attempt from the queue head is in progress. -/
def trying : Can := { idle with queue := [ent 2 0, ent 3 5], prio := none, attempt := some false, pstate := 4, sof := 77, tec := 5, lastTx := some (msg5 0x123 [1, 2, 3]) }
theorem test_tx_sent : (let t := after (.canTxEnd 5 .sent none) (can5 trying)
    (t.can 5).queue = [ent 3 5] ∧ (t.can 5).tec = 4 ∧ (t.can 5).attempt = none ∧ (t.can 5).pstate = 2 ∧ t.c64 (canReg 5 0x108) = 1 ∧
    (t.rd (txsAddr 5 2 + 24) 2, t.rd (txsAddr 5 2 + 26) 1, t.rd (txsAddr 5 2 + 28) 4) = (0xBEEF, 1, 77) ∧ (t.can 5).irq = 4) := by decide +kernel
theorem test_tx_lost : (let t := after (.canTxEnd 5 .lostArbitration none) (can5 trying)
    (t.can 5).queue = trying.queue ∧ (t.can 5).attempt = none ∧ t.c32 (canReg 5 0x128) = 1 ∧ (t.can 5).tec = 5) ∧
    (let t := after (.canTxEnd 5 .error none) (can5 { trying with opts := 0x40 })
     (t.can 5).queue = [ent 3 5] ∧ t.rd (txsAddr 5 2 + 26) 1 = 3 ∧ (t.can 5).irq = 8) := by decide +kernel
theorem test_abort_head : (let t := after (.abortHead 5) (can5 { trying with attempt := none })
    (t.can 5).queue = [ent 3 5] ∧ t.rd (txsAddr 5 2 + 26) 1 = 3 ∧ t.c32 (canReg 5 0x148) = 1) ∧
    ((after (.abortHead 5) (can5 trying)).can 5) = { trying with doomed := some 3 } ∧ after (.abortHead 5) (can5 idle) = can5 idle := by decide +kernel
theorem test_abort_prio : (let t := after (.abortPrio 5) (can5 { trying with prio := some (ent 1 0) })
    (t.can 5).prio = none ∧ (t.can 5).queue = trying.queue ∧ t.rd (txsAddr 5 1 + 26) 1 = 3) ∧
    ((after (.abortPrio 5) (can5 { trying with prio := some (ent 1 0), attempt := some true })).can 5).doomed = some 3 := by decide +kernel
theorem test_flush : (let t := after (.flush 5) (can5 { trying with attempt := none, prio := some (ent 1 0) })
    (t.can 5).queue = [] ∧ (t.can 5).prio = none ∧ t.c32 (canReg 5 0x148) = 3 ∧ t.rd (txsAddr 5 3 + 26) 1 = 4) ∧
    (let t := after (.flush 5) (can5 trying); (t.can 5).queue = [ent 2 0] ∧ (t.can 5).attempt = some false ∧ (t.can 5).doomed = some 4) := by decide +kernel
theorem test_lifetime : (let t := after (.canLifetimeExpiry 5) (can5 { trying with attempt := none, prio := some (ent 1 20) })
    -- 20 ms have passed since the pushes at tick 1,230
    (t.can 5).queue = [ent 2 0] ∧ (t.can 5).prio = some (ent 1 20) ∧ t.c32 (canReg 5 0x144) = 1 ∧ t.rd (txsAddr 5 3 + 26) 1 = 2) ∧
    ((after (.canLifetimeExpiry 5) (can5 { trying with queue := [ent 2 19] })).can 5).doomed = some 2 := by decide +kernel
theorem test_bus_error : (let t := after (.canBusError 5 .stuff ⟨.frame, false, false⟩ false) (can5 trying)
    (t.can 5).tec = 13 ∧ (t.can 5).lec = 1 ∧ t.c32 (canReg 5 0x114) = 1 ∧ (t.can 5).errFlag = some true) ∧
    (let t := after (.canBusError 5 .bitRecessive ⟨.frame, false, false⟩ true) (can5 trying); t.c32 (canReg 5 0x124) = 1 ∧ (t.can 5).tec = 13) ∧
    (let t := after (.canBusError 5 .bitRecessive ⟨.flag, false, false⟩ true) (can5 { idle with recErr := 121, pstate := 3 })
     (t.can 5).recErr = 129 ∧ (t.can 5).lec = 4 ∧ t.c32 (canReg 5 0x150) = 1 ∧ (t.can 5).irq = 0x10) ∧
    (let t := after (.canBusError 5 .crc ⟨.frame, false, false⟩ false) (can5 { idle with mode := 2 }); (t.can 5).recErr = 0 ∧ t.c32 (canReg 5 0x110) = 1) := by
  decide +kernel
theorem test_bus_error_rules :
    (let r (k : CanErrKind) (p : CanErrPlace) (d : Bool) (c : Can) := let t := after (.canBusError 5 k ⟨p, d, false⟩ false) (can5 c); ((t.can 5).tec, (t.can 5).recErr)
     r .stuff .frame true trying = (5, 0) ∧ r .ack .frame false { trying with tec := 130 } = (130, 0) ∧ r .ack .frame true { trying with tec := 130 } = (138, 0) ∧
     r .form .frame false idle = (0, 1) ∧ r .bitDominant .afterFlag true idle = (0, 8) ∧ r .bitDominant .dominantRun true trying = (13, 0) ∧
     r .stuff .frame false { idle with pstate := 1 } = (0, 0)) := by decide +kernel
theorem test_bus_off : (let t := after (.canBusError 5 .stuff ⟨.frame, false, false⟩ false) (can5 { trying with tec := 248 })
    (t.can 5).busOff = true ∧ (t.can 5).recovering = true ∧ (t.can 5).queue = trying.queue ∧ (t.can 5).attempt = none ∧
    (t.can 5).irq = 0x30 ∧ t.c32 (canReg 5 0x14C) = 1) ∧
    (let t := after (.canBusError 5 .stuff ⟨.frame, false, false⟩ false) (can5 { trying with tec := 247 }); (t.can 5).busOff = false ∧ (t.can 5).tec = 255) ∧
    (let t := after (.canBusError 5 .stuff ⟨.frame, false, false⟩ false) (can5 { trying with tec := 248, boOpts := 3 })
     (t.can 5).queue = [] ∧ (t.can 5).recovering = false ∧ t.c32 (canReg 5 0x148) = 2) := by decide +kernel
def off5 : Can := { idle with busOff := true, recovering := true, pstate := 6, tec := 256, recErr := 3, queue := [ent 2 0] }
theorem test_bus_off_recovery : (let t := after (.busOffRecoveryComplete 5) (can5 off5)
    ((t.can 5).tec, (t.can 5).recErr, (t.can 5).busOff, (t.can 5).pstate, (t.can 5).irq, (t.can 5).queue) = (0, 0, false, 2, 0x50, [ent 2 0])) ∧
    (let s := can5 { off5 with recovering := false }
     after (.busOffRecoveryComplete 5) s = s ∧ ((after (.recover 5) s).can 5).recovering = true ∧ ((after (.recover 5) s).can 5).pstate = 6) := by
  decide +kernel
theorem test_mode_change : (let t := after (.canModeChange 5) (setp op [(0x0805, 1), (0x0825, 0x1F1F7E01), (0x0885, 3)])
    (t.can 5).mode = 1 ∧ (t.can 5).pstate = 1 ∧ (t.can 5).nominal = 0x1F1F7E01 ∧ (t.can 5).opts = 3) ∧
    (let t := after (.canModeChange 5) (setp (can5 { trying with attempt := none, pstate := 2, tec := 9 }) [(0x0805, 0)])
     (t.can 5).mode = 0 ∧ (t.can 5).queue = [] ∧ (t.can 5).tec = 0 ∧ (t.can 5).pstate = 0 ∧ t.c32 (canReg 5 0x148) = 2) ∧
    (let t := after (.canModeChange 5) (setp (can5 { trying with attempt := none, pstate := 2, tec := 9 }) [(0x0805, 2)])
     (t.can 5).mode = 2 ∧ (t.can 5).queue = trying.queue ∧ (t.can 5).tec = 9) ∧
    after (.canModeChange 5) (can5 trying) = can5 trying := by decide +kernel
theorem test_integration : ((after (.canIntegration 5) (can5 { idle with pstate := 1 })).can 5).pstate = 2 ∧
    after (.canIntegration 5) (can5 { idle with pstate := 5 }) = can5 { idle with pstate := 5 } := by decide +kernel
/-- Receive objects 4 and 9 take ID 0x321 in the classical format. -/
def rxObj (c : Can) : State := ((can5 c).wr (canObj 5 4) 5 (0x321 + kf 32 3)).wr (canObj 5 9) 5 (0x321 + kf 32 3)
theorem test_can_receive : (let t := judged (after (.canReceive 5 (msg5 0x321 [7, 8]) false 800) (rxObj { idle with recErr := 3 }))
    t.rd (canObj 5 4 + 8) 1 = 1 ∧ t.rd (canObj 5 4 + 12) 4 = 1 ∧ t.rd (canObj 5 4 + 16) 4 = (5000000000 - 1000) % 2 ^ 32 ∧
    t.rd (canObj 5 4 + 20) 2 = 0x2002 ∧ t.rdB (canObj 5 4 + 32) 3 = [7, 8, 0] ∧ t.rd (canObj 5 9 + 8) 1 = 0 ∧ (t.can 5).irq = 1 ∧
    (t.can 5).recErr = 2 ∧ t.c64 (canReg 5 0x100) = 1 ∧ t.c64 (scrCnt 24 0) = 1) := by decide +kernel
theorem test_can_receive_lost : (let t := judged (after (.canReceive 5 (msg5 0x321 [7]) false 0) ((rxObj idle).wr (canObj 5 4 + 8) 1 1))
    t.rd (canObj 5 4 + 8) 1 = 3 ∧ t.c32 (canReg 5 0x130) = 1 ∧ (t.can 5).irq = 3) ∧
    (let t := after (.canReceive 5 (msg5 0x322 [7]) false 0) (rxObj idle); t.c32 (canReg 5 0x12C) = 1 ∧ t.mem = (rxObj idle).mem) ∧
    (let t := judged (after (.canReceive 5 (msg5 0x321 [7]) false 0) (setp (rxObj idle) [(0x0758, 1)]))
     t.c32 (canReg 5 0x134) = 1 ∧ t.mem = (rxObj idle).mem) ∧
    (let s := rxObj { idle with pstate := 1 }; after (.canReceive 5 (msg5 0x321 [7]) false 0) s = s) := by decide +kernel

/-! 08: LIN. -/

/-- Channel 6 is a commander; table 1 sends object 0x10 (published, two bytes) and then object 0x11 (subscribed, two bytes), two time bases each. -/
def lin6 (role : Nat) (l : Lin) : State :=
  let s := setp op [(0x0906, role)]
  let s := (s.wr (linObj 6 0x10) 2 (2 + 2 * 4 + 64)).wr (linObj 6 0x11) 2 (1 + 2 * 4)
  let s := (s.wr (linEntry 6 1 0) 8 (0x10 + kf 16 2)).wr (linEntry 6 1 1) 8 (0x11 + kf 16 2)
  s.setLin 6 l
def run1 : Lin := { Lin.reset with running := true, table := 1, entry := 0, started := true, slotEnd := 1000000000 }
theorem test_lin_sched : (let t := after (.linSched 6 1) (lin6 1 Lin.reset)
    t.lin 6 = { Lin.reset with running := true, table := 1, slotEnd := 1000000000, irq := 0x10 }) ∧
    (after (.linSched 6 2) (lin6 1 Lin.reset)).c32 (linReg 6 0x128) = 1 ∧
    (after (.linSched 6 1) (setp (lin6 1 Lin.reset) [(0x0936, 1)])).c32 (linReg 6 0x128) = 1 ∧
    (after (.linSched 6 0xFF) (lin6 1 run1)).lin 6 = { run1 with pending := some none } ∧
    (after (.linSched 6 1) (lin6 1 run1)).lin 6 = { run1 with pending := some (some 1) } := by decide +kernel
/-- A header on channel 6, whose objects' fields are those of `lin6`. -/
def hdr6 (i : Nat) (k : LinKind) (at_ : Nat) (past : Bool) : LinHdr := { id := i, kind := k, at_ := at_, past := past, ctrl := (lin6 1 Lin.reset).linCtrl 6, sig := (lin6 1 Lin.reset).param 0x0956 }
theorem test_lin_slot : (let t := after (.linSlot 6) (lin6 1 run1)
    ((t.lin 6).entry, (t.lin 6).slotEnd, (t.lin 6).lastTx, t.c64 (linReg 6 0x100)) = (1, 1000000000 + 8000000, [0x11], 0) ∧
    (t.lin 6).headTs = BitVec.ofNat 32 5000000000 ∧ -- 13 + 21 bit times at 19,200 bit/s
    (t.lin 6).header = some (hdr6 0x11 .plain (1000000000 + 1416667) false)) ∧
    (let s := lin6 1 { run1 with slotEnd := 1000000001 }; after (.linSlot 6) s = s) := by decide +kernel
theorem test_lin_slot_publishes : -- the buffer goes out when the identifier completes, and the header counts there
    (let s := lin6 1 { run1 with entry := 0, header := some (hdr6 0x10 .plain 1000000000 false), slotEnd := 2000000000 }
    let t := (s.linCommit 6 0x10 [0xAA, 0x55]).linTick
    (t.lin 6).sending = some 0x10 ∧ (t.lin 6).lastTx = [0xAA, 0x55, 0xAF] ∧ t.linUpdated 6 0x10 = false ∧ t.c64 (linReg 6 0x100) = 1) := by decide +kernel
theorem test_lin_slot_switches : (let t := after (.linSlot 6) (lin6 1 { run1 with pending := some none }); (t.lin 6).running = false) ∧
    (let t := after (.linSlot 6) ((lin6 1 { run1 with collNext := some 3 }).wr (linEntry 6 3 0) 8 (0x11 + kf 16 2)) -- a collision inside a resolving table
     ((t.lin 6).table, (t.lin 6).entry, (t.lin 6).rets) = (3, 0, [(1, 0)])) ∧
    (let t := after (.linSlot 6) ((lin6 1 { run1 with table := 3, rets := [(1, 0)] }).wr (linEntry 6 3 0) 8 (0x11 + kf 16 2))
     ((t.lin 6).table, (t.lin 6).entry, (t.lin 6).rets) = (1, 1, [])) ∧
    (let t := after (.linSlot 6) (lin6 1 { run1 with pending := some (some 1), entry := 1 }); (t.lin 6).entry = 0 ∧ (t.lin 6).irq = 0x10) := by decide +kernel
theorem test_lin_no_response : -- 42 bit times after the header
    (let s (n : Nat) := lin6 1 { run1 with header := some (hdr6 0x11 .plain (1000000000 - n) true) }
     (after (.linNoResponse 6) (s 1750000)).c32 (linReg 6 0x108) = 1 ∧ ((after (.linNoResponse 6) (s 1750000)).lin 6).header = none ∧
     after (.linNoResponse 6) (s 1749999) = s 1749999) := by decide +kernel
theorem test_lpub : (let s := (lin6 2 Lin.reset).wrB (linObj 6 0x10 + 16) [1, 2, 3]
    let t := judged (after (.lpub 6 0x10) s)
    (t.linBuf 6 0x10).take 2 = [1, 2] ∧ t.linFlags 6 0x10 = 12 ∧ (judged (after (.lpub 6 0x10) (setp s [(0x0758, 1)]))).c32 (linReg 6 0x134) = 1) := by decide +kernel
theorem test_lin_header : (let s := (lin6 2 Lin.reset).linCommit 6 0x10 [0xAA, 0x55]
    let t := after (.linHeader 6 0x50 19200 800) s
    (t.lin 6).sending = some 0x10 ∧ (t.lin 6).lastTx = [0xAA, 0x55, 0xAF] ∧ (t.lin 6).headTs = BitVec.ofNat 32 (5000000000 - 1000) ∧
    t.c64 (linReg 6 0x100) = 1) := by decide +kernel
theorem test_lin_header_errors : (after (.linHeader 6 0x10 19200 0) (lin6 2 Lin.reset)).c32 (linReg 6 0x110) = 1 ∧
    (after (.linHeader 6 0x50 21889 0) (lin6 2 Lin.reset)).c32 (linReg 6 0x11C) = 1 ∧
    (after (.linHeader 6 0x50 21888 0) (lin6 2 Lin.reset)).c32 (linReg 6 0x12C) = 1 ∧
    (let t := after (.linHeader 6 0x11 19200 0) (lin6 2 Lin.reset); (t.lin 6).header = some { hdr6 0x11 .plain 1000000000 true with ctrl := (lin6 2 Lin.reset).linCtrl 6 } ∧ (t.lin 6).sending = none) := by
  decide +kernel
theorem test_lin_response : (let s := lin6 1 { run1 with header := some (hdr6 0x11 .plain 5 true), headTs := 9 }
    let t := judged (after (.linResponse 6 ⟨[3, 4], 0xF8, false, false⟩) s)
    t.rdB (linObj 6 0x11 + 16) 2 = [3, 4] ∧ t.linFlags 6 0x11 = 1 ∧ t.rd (linObj 6 0x11 + 8) 4 = 9 ∧ (t.lin 6).header = none ∧
    (after (.linResponse 6 ⟨[3, 4], 0xF7, false, false⟩) s).c32 (linReg 6 0x10C) = 1 ∧
    (after (.linResponse 6 ⟨[3, 4], 0xF8, true, false⟩) s).c32 (linReg 6 0x114) = 1 ∧
    ((after (.linResponse 6 ⟨[3, 4], 0xF7, false, false⟩) s).lin 6).respErr = true) := by decide +kernel
theorem test_lin_response_sent : (let s := lin6 1 { run1 with sending := some 0x10, header := some (hdr6 0x10 .plain 5 true) }
    ((after (.linResponse 6 ⟨[], 0, false, false⟩) s).lin 6).irq = 4 ∧ (after (.linResponse 6 ⟨[], 0, false, true⟩) s).c32 (linReg 6 0x118) = 1) := by
  decide +kernel
theorem test_lin_collision : (let s := (lin6 1 { run1 with header := some (hdr6 0x11 .event 5 true) }).wr (linEntry 6 1 0) 8 (0x11 + kf 8 1 + kf 16 2 + kf 24 4)
    let t := after (.linResponse 6 ⟨[], 0, true, false⟩) s
    (t.lin 6).collNext = some 4 ∧ t.c32 (linReg 6 0x120) = 1 ∧ (t.lin 6).irq = 0x20) := by decide +kernel
/-- Ebb with 40,000,000 cycles of its countdown left. -/
def ebbing (s : State) : State :=
  { s with time := { s.time with cycle := 3000000000 }, nm := { s.nm with state := .ebb, countAt := 3040000000 - s.ebbCycles } }
theorem test_go_to_sleep : (let t := after .goToSleep (ebbing (lin6 1 run1))
    ((t.lin 6).asleep, (t.lin 6).running, (t.lin 6).resume) = (true, false, some 1) ∧
    (t.lin 6).lastTx = [0x3C] ∧ t.lin 7 = Lin.reset ∧
    ((later 1416667 t).linTick.lin 6).lastTx = [0, 0xFF, 0xFF, 0xFF, 0xFF, 0xFF, 0xFF, 0xFF, 0]) ∧
    (let s := ebbing (lin6 1 { run1 with slotEnd := 3000000001 }) -- in mid-slot the command waits for the slot's end
     let t := after .goToSleep s; (t.lin 6).sleepDue = true ∧ (t.lin 6).running = true ∧ ((later 1 t).linTick.lin 6).asleep = true) ∧
    (let s := { ebbing (lin6 1 run1) with time := { op.time with cycle := 2999999999 } }; after .goToSleep s = s) := by decide +kernel
theorem test_lin_restart : (let s (n : Nat) := lin6 1 { Lin.reset with resume := some 1, wakeAt := some (1000000000 - n) }
    ((after (.linRestart 6) (s 80000000)).lin 6).running = true ∧ ((after (.linRestart 6) (s 80000000)).lin 6).table = 1 ∧
    after (.linRestart 6) (s 79999999) = s 79999999) := by decide +kernel

/-! 09: the gateway. -/

/-- Route 7 takes what CAN channel 5 object 4 receives into gateway object 300, and sends it to CAN channel 6 under ID 0x55, in the event mode `trig`. -/
def route7 (trig extra : Nat) : Nat := 1 + trig * 2 + 1 * 8 + 1 * 32 + kf 8 300 + kf 48 5 + kf 56 4 + kf 112 6 + kf 128 0x55 + kf 192 25 + kf 208 10 + kf 224 3 + extra
def gw (w head : Nat) : State := ((op.wr (routeAddr 7) 32 w).wr (goAddr 300) 32 head).setCan 6 idle
def pdu (d : List Byte) : Pdu := ⟨0x321, true, false, false, false, false, false, 0, 0, 0, d, 99⟩
theorem test_go_update : (let s := gw (route7 0 0) 1
    let x := s.goUpdate 7 (pdu [1, 2, 3])
    let h := x.2.goHead 300
    x.1 = true ∧ x.2.goData 300 = [1, 2, 3] ∧ (bits h 59 48, bit h 60, bits h 95 64, bits h 127 96) = (7, true, 1, 99) ∧
    (bits h 143 128, bits h 188 160, bit h 189, bits h 203 192) = (1, 0x321, true, 3) ∧ x.2.c64 (gwReg 0x110) = 1) := by decide +kernel
theorem test_go_update_stops :
    (let s := gw (route7 0 0) 0; s.goUpdate 7 (pdu [1]) = (false, s.bump (routeCnt 7 12))) ∧
    (let s := gw (route7 0 0) (3 + kf 48 8 + kf 60 1); s.goUpdate 7 (pdu [1]) = (false, s.bump (gwReg 0x13C))) ∧
    ((gw (route7 0 0) (3 + kf 48 8 + kf 60 1 + kf 32 1)).goUpdate 7 (pdu [1])).1 = true ∧
    (let s := gw (route7 0 0) 1; s.goUpdate 7 (pdu (List.replicate 65 0)) = (false, s.bump (routeCnt 7 12))) ∧
    ((gw (route7 0 0) 1).goUpdate 7 (pdu (List.replicate 64 0))).1 = true := by decide +kernel
/-- Check-value unit 1 computes CRC-8 with polynomial 0x1D, initial value and final XOR 0xFF (SAE J1850). -/
def crc8 (s : State) (mode : Nat) : State := s.setCv 1 { CvUnit.reset with poly := 0x1D, init := 0xFF, xor_ := 0xFF, cfg := BitVec.ofNat 10 (8 + mode * 512) }
theorem test_e2e : (let s := crc8 (gw (route7 0 (kf 20 1 + kf 22 1)) 1) 0
    -- the check value of "123456789" under this CRC is 0x4B
    let x := s.goUpdate 7 (pdu [0x31, 0x32, 0x33, 0x34, 0x35, 0x36, 0x37, 0x38, 0x39, 0x4B])
    let y := (s.wr (goAddr 300 + 96) 1 0xEE |>.wr (goAddr 300 + 160) 1 1).goUpdate 7 (pdu [0x31, 0x4B])
    x.2.goData 300 = [0x31, 0x32, 0x33, 0x34, 0x35, 0x36, 0x37, 0x38, 0x39] ∧ bits (x.2.goHead 300) 34 32 = 0 ∧
    y.2.goData 300 = [0xEE] ∧ bits (y.2.goHead 300) 34 32 = 6 ∧ y.2.c32 (gwReg 0x138) = 1 ∧ y.2.c32 (routeCnt 7 12) = 1) := by decide +kernel
theorem test_gateway_event : (let s := ((gw (route7 0 0) 1).setCan 5 idle).wr (canObj 5 4) 5 (0x321 + kf 32 3)
    let t := judged (after (.canReceive 5 (msg5 0x321 [7, 8]) false 0) s)
    t.goData 300 = [7, 8] ∧ (t.can 6).queue.map (fun e => (e.msg.id, e.msg.data, e.src, e.lifetime)) = [(0x55, [7, 8], 11, 25)] ∧
    t.c32 (routeCnt 7 0) = 1) := by decide +kernel
theorem test_gw_stale : (let s (age : Nat) := { gw 0 (1 + kf 16 20 + kf 60 1) with bus := { op.bus with goTick := [(300, 1250 - age)] } }
    let t := after (.gwStale 300) (s 21)
    bit (t.goHead 300) 32 = true ∧ t.c32 (gwReg 0x140) = 1 ∧ after (.gwStale 300) (s 20) = s 20) ∧
    (let s := { (gw 0 (1 + 4 + kf 16 20 + kf 60 1)).wr (goAddr 300 + 160) 1 2 with bus := { op.bus with goTick := [(300, 1000)] } }
     let t := after (.gwStale 300) s
     t.goData 300 = [0, 0] ∧ bits (t.goHead 300) 34 32 = 5 ∧ bits (t.goHead 300) 95 64 = 1) := by decide +kernel
/-- The boundaries of route 7 lie at 3 ms + k · 10 ms; at 5.005 s the last is k = 500 (5.003 s). -/
def cyc (trig : Nat) (x : RouteRun) : State :=
  let s := (gw (route7 trig 0) (1 + kf 192 2)).setRun 7 x
  { s with time := { s.time with ltime := 5005000000 * nsUnit } }
/-- Local time at boundary 500, or `ns` after it. -/
def bnd (ns : Nat) (s : State) : State := { s with time := { s.time with ltime := (5003000000 + ns) * nsUnit } }
theorem test_cyclic_run : (let t := after (.periodBoundary 7) (bnd 0 (cyc 1 { RouteRun.reset with last := some 499 }))
    -- three quarters of the period after 5.003 s end at 5.0105 s, before the next boundary
    (t.can 6).queue.map (·.msg.data) = [[0, 0]] ∧ ((t.run 7).last, (t.run 7).cur, (t.run 7).overrun) = (some 500, none, 0) ∧ t.c32 (routeCnt 7 0) = 1) ∧
    -- between boundaries nothing is run, nor after a step of local time that passed the boundary
    (let s := bnd 100000 (cyc 1 { RouteRun.reset with last := some 499 }); after (.periodBoundary 7) s = s) ∧
    (let s := bnd 0 (cyc 1 { RouteRun.reset with last := some 499 })
     let s := { s with time := { s.time with since := s.time.ltime + 1 } }; after (.periodBoundary 7) s = s) := by
  decide +kernel
theorem test_cyclic_gap : (let t := after (.periodBoundary 7) (bnd 0 (cyc 1 { RouteRun.reset with last := some 490 }))
    t.c32 (routeCnt 7 8) = 9 ∧ (t.run 7).last = some 500) ∧
    (let s := cyc 1 { RouteRun.reset with last := some 500 }; after (.periodBoundary 7) s = s) ∧
    (let s := cyc 1 { RouteRun.reset with cur := some 499, trying := true }
     (after (.periodBoundary 7) s).c32 (routeCnt 7 4) = 1 ∧ ((after (.periodBoundary 7) s).run 7).overrun = 500 ∧
     (after (.periodBoundary 7) (after (.periodBoundary 7) s)).c32 (routeCnt 7 4) = 1) := by decide +kernel
theorem test_cyclic_refused : (let s := (bnd 0 (cyc 1 { RouteRun.reset with last := some 499 })).setCan 6 { idle with queue := List.replicate 32 (ent 0 0) }
    let t := after (.periodBoundary 7) s
    ((t.run 7).cur, (t.run 7).trying, (t.run 7).retryAt) = (some 500, true, 1000000000 + 8000) ∧
    after (.runRetry 7) t = t ∧
    (let u := after (.runRetry 7) { (t.setCan 6 idle) with time := { t.time with cycle := 1000008000 } }; (u.run 7).last = some 500 ∧ (u.can 6).queue.length = 1)) := by
  decide +kernel
theorem test_spaced_run : (let s := cyc 1 { RouteRun.reset with last := some 499, cur := some 500, startAt := 5005000000 }
    ((after (.spacedRun 7) s).run 7).last = some 500 ∧
    (let s := cyc 1 { RouteRun.reset with cur := some 500, startAt := 5005000001 }; after (.spacedRun 7) s = s)) := by decide +kernel
theorem test_after_run : -- run 499 is handed over at 5.005 s: three quarters later is 5.0125 s, past B500 = 5.003 s, within the two periods of PID 0x0B02
    (let t := (cyc 1 RouteRun.reset).afterRun 7 499; ((t.run 7).cur, (t.run 7).startAt) = (some 500, 5012500000)) ∧
    -- run 497: B498 is 4.983 s; B499 = 4.993 s is the first from which 5.0125 s is within the limit
    (let t := (cyc 1 RouteRun.reset).afterRun 7 497
     ((t.run 7).cur, (t.run 7).startAt, t.c32 (routeCnt 7 8)) = (some 499, 5012500000, 1)) := by decide +kernel
theorem test_unchanged_is_passed_over : (let s := bnd 0 (cyc 2 { RouteRun.reset with last := some 499 })
    let t := after (.periodBoundary 7) s
    (t.run 7).last = some 500 ∧ (t.can 6).queue = [] ∧ t.c32 (routeCnt 7 0) = 0) := by decide +kernel

/-- Slot 9 receives stream 1 to 8; its last sequence number is 0x10. -/
def acf : State := ((gw (route7 0 0) 1).wr (slotAddr 9) 16 1).wrB (slotAddr 9 + 16) [1, 2, 3, 4, 5, 6, 7, 8, 0x10] |>.wr (routeAddr 7) 32
  (1 + 3 * 8 + kf 8 300 + kf 48 2 + kf 64 9 + kf 80 0x123)
def ntscf (len seq : Nat) (b : List Byte) : List Byte :=
  mac 9 ++ mac 7 ++ [0x22, 0xF0, 0x82] ++ natBe 2 (0x8000 + len) ++ [BitVec.ofNat 8 seq] ++ [1, 2, 3, 4, 5, 6, 7, 8] ++ b
/-- A brief CAN message of bus 2, ID 0x123, two bytes. -/
def brief : List Byte := natBe 2 (2 * 512 + 3) ++ [0x80, 2, 0, 0, 1, 0x23, 0xAA, 0xBB, 0, 0]
/-- `acf` with a frame that has left at P23. -/
def atGw (b : List Byte) (stomped : Bool) : State := { acf with sw := { acf.sw with toGw := [(b, stomped)] } }
def acfOf (b : List Byte) (stomped : Bool) : State := after (.acfFrameReceive b stomped) (atGw b stomped)
theorem test_acf : (let t := judged (acfOf (ntscf 12 0x11 brief) false)
    t.goData 300 = [0xAA, 0xBB] ∧ t.c64 (gwReg 0x100) = 1 ∧ t.c32 (gwReg 0x130) = 0 ∧ t.rd (slotAddr 9 + 24) 1 = 0x11 ∧ t.c64 (scrCnt 24 0) = 1) ∧
    (let t := judged (acfOf (ntscf 12 0x13 brief) false); t.c32 (gwReg 0x130) = 1 ∧ t.goData 300 = [0xAA, 0xBB]) := by decide +kernel
theorem test_acf_drops : (acfOf (ntscf 12 0x11 brief) true).c32 (gwReg 0x12C) = 1 ∧
    (acfOf (ntscf 0 0x11 brief) false).c32 (gwReg 0x128) = 1 ∧
    (acfOf (ntscf 8 0x11 brief) false).c32 (gwReg 0x11C) = 1 ∧
    (acfOf (ntscf 4 0x11 (natBe 2 (9 * 512 + 1) ++ [0, 0])) false).c32 (gwReg 0x120) = 1 ∧
    (judged (acfOf (ntscf 12 0x11 (brief.set 3 3)) false)).c32 (gwReg 0x124) = 1 ∧
    after (.acfFrameReceive brief false) (atGw (ntscf 12 0x11 brief) false) = atGw (ntscf 12 0x11 brief) false := by decide +kernel
theorem test_cv : (let s := after (.cvStart 1) (crc8 op 1)
    let feed (l : List Byte) (s : State) := l.foldl (fun s b => after (.cvFeed8 1 b) s) s
    ((feed [0x31, 0x32, 0x33, 0x34, 0x35, 0x36, 0x37, 0x38, 0x39] s).cv 1).result = 0x4B ∧
    ((after (.cvFeed16 1 0x3231) s).cv 1).run = ((feed [0x31, 0x32] s).cv 1).run ∧
    ((after (.cvFeed32 1 0x34333231) s).cv 1).run = ((feed [0x31, 0x32, 0x33, 0x34] s).cv 1).run ∧
    after (.cvFeed8 1 7) (crc8 op 0) = crc8 op 0 ∧ after (.cvStart 1) (crc8 op 0) = crc8 op 0) := by decide +kernel

/-! 10: host bridges, mailboxes, objects. -/

/-- The PCIe link is up. -/
def host : State := { op with host := { op.host with pcieLink := true, msixOn := 0xF } }
def post (off v : Nat) : Posted := { space := .window, off := off, words := [(BitVec.ofNat 32 v, 0xF)], split := false, failed := false }
def withQ (q : List Posted) : State := { host with host := { host.host with pcieQ := q } }
theorem test_pcie_write : (after (.pcieMemoryWrite .bar0 0x30 [] 0xF 0x12345678) host).host.pcieQ = [post 0x30 0x12345678] ∧
    (after (.pcieMemoryWrite .bar0 0x30 [(2, 0xF)] 3 1) host).host.pcieQ = [{ post 0x30 1 with words := [(1, 3), (2, 0xF)], split := true }] ∧
    after (.pcieMemoryWrite .bar0 0x30 [] 0xF 1) op = op ∧
    (after (.pcieMemoryWrite .bar0 0x30 [] 0xF 1) (withQ (List.replicate 64 (post 0 0)))).host.pcieQ.length = 64 := by decide +kernel
theorem test_deliver : (let t := after (.postedWriteDeliver .pcie) (withQ [post 0x30 0x12345678, post 0x34 9])
    t.dw.scratch0 = 0x12345678 ∧ t.host.pcieQ = [post 0x34 9]) ∧
    (let t := after (.postedWriteDeliver .pcie) (withQ [{ post 0x30 0 with words := [(0x12345678, 2)] }]); t.dw.scratch0 = 0x5600) := by decide +kernel
theorem test_deliver_parts : -- a write of two words is delivered word by word, and another master may act between
    (let s := withQ [{ post 0x30 0 with words := [(1, 0xF), (2, 0xF)], split := true }]
     let t := after (.postedWriteDeliver .pcie) s
     t.dw.scratch0 = 1 ∧ t.dw.scratch1 = 0 ∧ (after (.postedWriteDeliver .pcie) t).dw.scratch1 = 2 ∧
     (after (.postedWriteDeliver .pcie) t).host.pcieQ = []) := by decide +kernel
theorem test_deliver_fails : (let t := after (.postedWriteDeliver .pcie) (withQ [{ post 0x10 1 with space := .aperture }])
    -- aperture 0 opens the boot ROM: read-only
    t.host.pcieQ = [] ∧ t.host.pwe.map (fun e => (e.addr, e.cause, e.spi, e.split)) = [(0x10, 2, false, false)] ∧ bit t.dwIrq 0 = true) ∧
    (let s := withQ [{ post 0x100000 1 with space := .aperture }]; (after (.postedWriteDeliver .pcie) s).host.pwe.map (·.cause) = [1]) ∧
    (let s := withQ [{ post 0x8000 1 with space := .mailboxes }]; (after (.postedWriteDeliver .pcie) s).host.pwe.map (·.cause) = [1]) ∧
    (after (.targetTimeout .pcie false) (withQ [post 0x30 1])).host.pwe.map (·.cause) = [3] := by decide +kernel
theorem test_reserved_one : (match exec (.postedWriteDeliver .pcie) (withQ [post 0x74 0x80]) with | .fault .reservedOne => true | _ => false) = true ∧
    (match exec (.registerWrite .core0 0x03010084 0x10000 0xF) op with | .fault .reservedOne => true | _ => false) = true ∧
    (match exec (.registerWrite .core0 0x03010084 0x10000 3) op with | .next _ => true | _ => false) = true ∧
    (match exec (.pcieMemoryRead .bar0 0 1) (withQ [post 0x74 0x80]) with | .fault .reservedOne => true | _ => false) = true := by decide +kernel
theorem test_pwe_pop : (let e (n : Nat) : PweEntry := ⟨BitVec.ofNat 32 n, 1, false, false, 0⟩
    let s := { host with host := { host.host with pwe := [e 1, e 2], pweLost := 7 } }
    (after .dwPwePop s).host.pwe = [e 2] ∧ (after .dwPwePop s).host.pweLost = 7 ∧ (after .dwPwePop (after .dwPwePop s)).host.pweLost = 0 ∧
    after .dwPwePop host = host) := by decide +kernel
theorem test_pwe_full : (let s := { withQ [{ post 0x10 1 with space := .aperture }] with host := { (withQ [{ post 0x10 1 with space := .aperture }]).host with
      pwe := List.replicate 32 ⟨0, 1, false, false, 0⟩, pweLost := 254 } }
    let t := after (.postedWriteDeliver .pcie) s
    t.host.pwe.length = 32 ∧ t.host.pweLost = 255) := by decide +kernel
theorem test_spi_write : (let t := after (.write 0x30 [1, 2]) op
    t.host.spiQ.map (fun p => (p.space, p.off, p.words.map (·.1))) = [(.window, 0x30, [1]), (.window, 0x34, [2])]) ∧
    (after (.write 0x17C [1, 2, 3]) op).host.spiQ.map (·.space) = [.window, .none_] ∧
    (after (.write 2 [1]) op).host.pwe.map (fun e => (e.cause, e.spi)) = [(6, true)] ∧
    (let s := { op with host := { op.host with spiQ := List.replicate 64 (post 0 0) } }
     (after (.write 0x30 [1]) s).host.pwe.map (·.cause) = [5] ∧ (after (.write 0x30 [1]) s).host.spiQ.length = 64) := by decide +kernel
theorem test_unknown_instruction : (after (.unknownInstruction 0x9F) op).host.pwe.map (fun e => (e.cause, e.spi)) = [(6, true)] ∧
    (after .status op).host.spiOut = [0] ∧ (after .status (after (.unknownInstruction 0x9F) op)).host.spiOut = [4] ∧
    (after .status { silent with host := { silent.host with spiQ := [post 0 0] } }).host.spiOut = [3] := by decide +kernel
theorem test_pcie_read : (after (.pcieMemoryRead .bar0 0 1) host).host.pcieAns = some ⟨[0x41921F3C], 0⟩ ∧
    (after (.pcieMemoryRead .bar0 0x34 1) (withQ [post 0x34 9])).host.pcieAns = some ⟨[9], 0⟩ ∧
    (after (.pcieMemoryRead .bar0 0x180 1) host).host.pcieAns = some ⟨[0], 0⟩ ∧
    (after (.pcieMemoryRead .bar2 0x8000 1) host).host.pcieAns = some ⟨[], 1⟩ := by decide +kernel
theorem test_pcie_read_wide : (let s := { host with host := { host.host with aperPcie := 0xB } }
    let s := { s with cnt64 := [(0x0B000100, 0x123456789ABCDEF0)] }
    let t := after (.pcieMemoryRead .bar4 0x100 2) s
    -- the two parts are read in two cycles
    t.host.pcieAns = none ∧ t.readTick.host.pcieAns = some ⟨[0x9ABCDEF0, 0x12345678], 0⟩) := by decide +kernel
theorem test_read_clears : (let s := (op.bump (portReg 3 0x114))
    let ap (n : Nat) := { s with host := { s.host with aperSpi := BitVec.ofNat 32 n } }
    let t := after (.read 0x01030114 1) (ap 0xB)
    t.host.spiOut = [0xA5, 1, 0, 0, 0] ∧ t.c32 (portReg 3 0x114) = 0 ∧
    (after (.read 0x01030114 1) (ap 0x10B)).c32 (portReg 3 0x114) = 1 ∧ (after (.read 0x01030114 1) (ap 0x10B)).host.spiOut = [0xA5, 1, 0, 0, 0]) := by
  decide +kernel
theorem test_spi_read : (after (.read 1 1) op).host.spiOut = [0xE6, 0xFF, 0xFF, 0xFF, 0xFF] ∧ (after (.read 0x180 1) op).host.spiOut = [0xE1, 0xFF, 0xFF, 0xFF, 0xFF] ∧
    (after (.read 0 2) { op with ls := { op.ls with heartbeat := 1 } }).host.spiOut.take 5 = [0xA5, 0x3C, 0x1F, 0x92, 0x41] ∧
    (after (.read 0x10000 1) silent).host.spiOut = [0xE4, 0xFF, 0xFF, 0xFF, 0xFF] ∧
    (after (.targetTimeout .spi true) op).host.spiOut = [0xE3] := by decide +kernel
theorem test_config_and_reset : (after (.pcieConfigurationRequest 0 none) host).host.pcieAns = some ⟨[0x41921F3C], 0⟩ ∧
    (let s := { withQ [post 0 0] with host := { (withQ [post 0 0]).host with aperPcie := 7, aperSpi := 8 } }
     let t := after .functionLevelReset s
     (t.host.pcieQ, t.host.aperPcie, t.host.aperSpi, t.host.pcieLink) = ([], 0, 8, true)) := by decide +kernel
theorem test_perst : (let t := after (.perstN true) (withQ [post 0 0]); t.host.pcieLink = false ∧ t.host.pcieQ = [] ∧ t.host.perst = true) ∧
    (after (.perstN false) op).host.pcieLink = true := by decide +kernel
theorem test_register_write : (after (.registerWrite .core0 0x03010030 0xAABBCCDD 0xC) op).dw.scratch0 = 0xAABB0000 ∧
    (after (.registerWrite .pcie 0 1 0xF) op).host.pwe.map (·.cause) = [2] ∧ after (.registerWrite .core0 0 1 0xF) op = op ∧
    (after (.registerWrite .core0 0x01000010 0x01020304 5) op).mem = [(0x01000010, 4), (0x01000012, 2)] := by decide +kernel

/-! Mailboxes. -/

theorem test_doorbells : (let s := after (.dwMbRing 6) op
    s.host.rings = [1, 2] ∧ (s.mb 1).state = .pending ∧ (after (.dwMbRing 2) s).host.overring = 2 ∧ (after (.dwMbRing 2) s).host.rings = [1, 2] ∧
    (let t := after (.dwMbAbort 2) s; (t.mb 1).state = .done ∧ status t 1 = 8 ∧ t.host.rings = [2] ∧ ((after (.dwMbDone 6) t).mb 1).state = .idle)) := by
  decide +kernel
theorem test_echo : (let t := after (.echo 3) (req op 3 1 [9, 8, 7])
    status t 3 = 0 ∧ reply t 3 = [9, 8, 7] ∧ t.rd (respAddr 3) 4 = 0x00070001 ∧ (t.mb 3).state = .done ∧ t.host.rings = [] ∧
    -- the same request again gets its stored response with REPLAY 1
    (let u := after (.echo 3) (req (after (.dwMbDone 8) t) 3 1 [9, 8, 7]); u.rd (respAddr 3 + 5) 1 = 0x80 ∧ reply { u with mem := t.mem } 3 = [9, 8, 7])) := by
  decide +kernel
theorem test_ring_order : (let s := after (.dwMbRing 2) (after (.dwMbRing 12) op); s.host.rings = [1, 2, 3]) ∧
    (let s := after (.dwMbRing 2) { after (.dwMbRing 12) op with time := { op.time with cycle := op.now + 1 } }; s.host.rings = [2, 3, 1]) := by decide +kernel
/-- Firmware takes the oldest request at the latest 20 µs after the ring; then it is Busy, and only it is executed (R278, R279). -/
theorem test_taken : (let s := { after (.dwMbRing 12) op with host := { (after (.dwMbRing 12) op).host with free := usCycles 20 } }
    let t := s.takeTick
    t.host.busy = some (2, .taken) ∧ (t.mb 2).state = .busy ∧ t.host.rings = [3] ∧ (t.canTake 2, t.canTake 3) = (true, false) ∧ t.takeTick = t) := by decide +kernel
theorem test_order_of_mailboxes : (let s := req (req op 3 1 [1]) 4 1 [2]; after (.echo 4) s = s ∧ (after (.echo 4) (after (.echo 3) s)).host.rings = []) := by decide +kernel
theorem test_get_info : (op.canTake 5 = false ∧ (req op 5 2 []).canTake 5 = true ∧ (req op 5 2 []).reqCmd 5 = 2) ∧
    status (after (.getInfo 5) (req op 5 2 [0])) 5 = 2 ∧ status (after (.unknownCommand 5) (req op 5 0x99 [])) 5 = 1 ∧
    after (.getInfo 5) (req op 5 0x99 []) = req op 5 0x99 [] := by decide +kernel
theorem test_param_get : (let t := after (.paramGet 5) (req (setp op [(0x0508, 77)]) 5 3 (natLe 4 0x0508 ++ natLe 4 0x050A))
    reply t 5 = [8, 5, 1, 0] ++ natLe 8 77 ++ [0x0A, 5, 5, 0] ++ natLe 8 0) ∧
    (let t := after (.paramGet 5) (req (setp op [(0x050A, 0xFFFFFFFF)]) 5 3 (natLe 4 0x050A)); (reply t 5).drop 4 = List.replicate 8 0xFF) ∧
    status (after (.paramGet 5) (req op 5 3 [1, 2])) 5 = 2 ∧ status (after (.paramGet 5) (req op 5 3 (natLe 4 0x10508))) 5 = 3 := by decide +kernel
theorem test_param_set : (let t := after (.paramSet 5) (req op 5 4 (natLe 4 0x0508 ++ natLe 8 77 ++ natLe 4 0x0507 ++ natLe 8 9))
    status t 5 = 0 ∧ t.param 0x0508 = 77 ∧ t.param 0x0507 = 9) ∧
    (let t := after (.paramSet 5) (req op 5 4 (natLe 4 0x0508 ++ natLe 8 77 ++ natLe 4 0x0507 ++ natLe 8 60001)); t.params = [] ∧ status t 5 = 6) ∧
    status (after (.paramSet 5) (req op 5 4 (natLe 4 0x0103 ++ natLe 8 1))) 5 = 5 ∧ status (after (.paramSet 5) (req op 5 4 (natLe 4 0x0000 ++ natLe 8 1))) 5 = 4 := by
  decide +kernel
def area (size : Nat) (d : List Byte) : State := { op with host := { op.host with area := some ⟨5, 1, size, d, 7, none⟩ } }
theorem test_obj_open : (after (.objOpen 5) (req op 5 0x10 (natLe 4 1 ++ natLe 4 1376256))).host.area = some ⟨5, 1, 1376256, [], 1000000000, none⟩ ∧
    status (after (.objOpen 5) (req op 5 0x10 (natLe 4 1 ++ natLe 4 1376257))) 5 = 0x17 ∧
    status (after (.objOpen 5) (req op 5 0x10 (natLe 4 0xB ++ natLe 4 4))) 5 = 0x10 ∧ status (after (.objOpen 5) (req op 5 0x10 (natLe 4 0x100 ++ natLe 4 4))) 5 = 3 ∧
    status (after (.objOpen 6) (req (area 4 []) 6 0x10 (natLe 4 1 ++ natLe 4 4))) 6 = 7 ∧ status (after (.objOpen 5) (req op 5 0x10 (natLe 4 1 ++ natLe 4 0))) 5 = 0 := by
  decide +kernel
theorem test_obj_write : (let t := after (.objWrite 5) (req (area 4 [1]) 5 0x11 (natLe 4 1 ++ [2, 3, 4])); (t.host.area.map (·.data)) = some [1, 2, 3, 4] ∧ status t 5 = 0) ∧
    status (after (.objWrite 5) (req (area 4 [1]) 5 0x11 (natLe 4 1 ++ [2, 3, 4, 5]))) 5 = 0x19 ∧
    status (after (.objWrite 5) (req (area 4 [1]) 5 0x11 (natLe 4 0 ++ [2]))) 5 = 0x19 ∧ status (after (.objWrite 6) (req (area 4 [1]) 6 0x11 (natLe 4 1 ++ [2]))) 6 = 0x18 := by
  decide +kernel
theorem test_obj_end : (let t := after (.objCommit 5) (req (area 4 [1]) 5 0x12 []); status t 5 = 0x1A ∧ t.host.area = none) ∧
    (let t := after (.objCancel 5) (req (area 4 [1]) 5 0x13 []); status t 5 = 0 ∧ t.host.area = none) ∧
    status (after (.objCancel 6) (req (area 4 [1]) 6 0x13 [])) 6 = 0x18 ∧ status (after (.objCommit 6) (req (area 4 [1]) 6 0x12 [])) 6 = 0x18 ∧
    (let t := after (.objCommit 5) (req (area 4 [1, 2, 3, 4]) 5 0x12 []); 0x10 ≤ status t 5 ∧ status t 5 ≤ 0x16 ∧ t.host.area = none) := by decide +kernel
/-- An OBJ_DMA of 600 bytes has begun. -/
def dma (d : List Byte) : State :=
  let a : Assembly := ⟨5, 1, 600, d, 7, some (0x1000, 1000000000)⟩
  { host with host := { host.host with busy := some (5, .dma), mbs := [(5, ⟨.busy, none, 0, 0⟩)], area := some a } }
theorem test_obj_dma : (let t := after (.objDma 5) (req host 5 0x14 (natLe 4 1 ++ natLe 4 600 ++ natLe 8 0x1000))
    t.host.busy = some (5, .dma) ∧ (t.mb 5).state = .busy ∧ t.host.area = some ⟨5, 1, 600, [], 1000000000, some (0x1000, 1000000000)⟩) ∧
    status (after (.objDma 5) (req op 5 0x14 (natLe 4 1 ++ natLe 4 600 ++ natLe 8 0x1000))) 5 = 0x1B := by decide +kernel
theorem test_dma_completion : (let t := after (.objDmaCompletion (List.replicate 600 7) true) (dma []); (t.host.area.map (·.data.length)) = some 512 ∧ t.host.busy = some (5, .dma)) ∧
    (let t := after (.objDmaCompletion [] false) (dma []); status t 5 = 0x1B ∧ t.host.area = none ∧ (t.mb 5).state = .done) ∧
    (let t := after (.objDmaCompletion (List.replicate 88 7) true) (dma (List.replicate 512 7)); 0x10 ≤ status t 5 ∧ status t 5 ≤ 0x16 ∧ t.host.area = none) := by
  decide +kernel
theorem test_dma_ends : (let s (n : Nat) := { dma [] with time := { op.time with cycle := 1000000000 + n } }
    status (after .objDmaTimeout (s 80000000)) 5 = 0x1B ∧ after .objDmaTimeout (s 79999999) = s 79999999) ∧
    (let t := after .pcieLinkLoss (dma []); status t 5 = 0x1B ∧ t.host.pcieLink = false ∧ t.host.area = none) ∧
    (let t := after (.dwMbAbort 0x20) (dma []); status t 5 = 8 ∧ t.host.area = none ∧ t.host.busy = none) := by decide +kernel
theorem test_area_timeout : (let s (n : Nat) := { area 4 [] with time := { op.time with cycle := 7 + n } }
    (after .objAreaTimeout (s 800000000)).host.area = none ∧ after .objAreaTimeout (s 799999999) = s 799999999) := by decide +kernel
theorem test_diag_counters : (let s := (op.setC32 (portReg 3 0x114) 5).add64 (portReg 3 0x100) 0x100000002
    let t := after (.diagCounters 5) (req s 5 0x1104 (natLe 4 (portReg 3 0x114) ++ natLe 4 (portReg 3 0x100 + 1)))
    reply t 5 = natLe 8 5 ++ natLe 8 0x100000002 ∧ t.c32 (portReg 3 0x114) = 0 ∧ t.c64 (portReg 3 0x100) = 0x100000002 ∧
    status (after (.diagCounters 5) (req s 5 0x1104 (natLe 4 0x03010000))) 5 = 3) := by decide +kernel
theorem test_frame_send_refused : status (after (.frameSend 5) (req op 5 0x30 (natLe 4 8 ++ List.replicate 60 0))) 5 = 3 ∧
    status (after (.frameSend 5) (req op 5 0x30 (List.replicate 63 0))) 5 = 2 := by decide +kernel
theorem test_frame_send : (let s := (setp op [(0x0136, 0), (0x0156, 0)])
    let t := after (.frameSend 5) (req s 5 0x30 (natLe 4 5 ++ List.replicate 60 0))
    -- an empty queue has room for one frame, which the admission of P22 refuses here
    t.sw.arriving.map (fun a => (a.port, a.stop)) = [(22, 1000000042)] ∧ (later 1 t).ingressTick.c32 (portReg 22 0x144) = 1) := by decide +kernel

/-! 10, table objects. -/

/-- The code with which an object of a type is refused, zero where it is accepted (R287, R309). -/
def refuses (s : State) (type : Nat) (b : List Byte) : Nat := ((s.objCheck type b).map (fun x => x.1.code)).getD 0
def loaded (s : State) (type : Nat) (b : List Byte) : State := after (.objLoad 5) (req s 5 0x15 (natLe 4 type ++ b))
def vlanObj (first rest n : Nat) (e : Nat) : List Byte := natLe 16 (first + kf 16 n + rest) ++ natLe 16 e
theorem test_vlan_object : (let t := loaded op 3 (vlanObj 5 0 1 (0x38 + kf 24 1)); status t 5 = 0 ∧ t.rd 0x04180050 16 = 0x01000038 ∧ t.nm.snapDirty = true) ∧
    -- VLAN 0 cannot be valid: the refusal names entry 0 and byte 3 of it
    (let t := loaded op 3 (vlanObj 0 0 1 (kf 24 1)); status t 5 = 0x12 ∧ reply t 5 = natLe 4 0 ++ natLe 4 19) ∧
    (let t := loaded op 3 (vlanObj 5 (kf 40 1) 1 0); status t 5 = 0x12 ∧ reply t 5 = natLe 4 0xFFFFFFFF ++ natLe 4 4) ∧
    [refuses op 3 (vlanObj 4096 0 1 0), refuses op 3 (vlanObj 4095 0 2 0), status (loaded op 3 []) 5, status (loaded op 256 [0]) 5] = [0x16, 0x11, 0, 3] := by
  decide +kernel
theorem test_mac_object : (let e := leNat (mac 9) + kf 67 1 + kf 88 1 + kf 89 1
    let i := (macPlaces (mac 9) 0).headD 0
    let t := loaded op 2 (vlanObj i 0 1 e); status t 5 = 0 ∧ t.rd (macAddr i) 16 = e ∧ refuses op 2 (vlanObj (i + 1000) 0 1 e) = 0x13) := by decide +kernel
def classObj (port e0 : Nat) : List Byte := natLe 8 (port + kf 16 8) ++ natLe 16 e0 ++ (List.replicate 7 (natLe 16 1522)).flatten
theorem test_class_object : (let t := loaded op 6 (classObj 3 (1000 + kf 16 1 + kf 32 5000)); status t 5 = 0 ∧ t.rd (classAddr 3 0) 16 = 1000 + kf 16 1 + kf 32 5000 ∧ t.rd (classAddr 3 7) 2 = 1522) ∧
    [refuses op 6 (classObj 3 63), refuses op 6 (classObj 3 9217), refuses op 6 (classObj 24 64), refuses op 6 (classObj 8 (64 + kf 18 1)),
     refuses op 6 (classObj 23 9216)] = [0x12, 0x12, 0x12, 0x12, 0] := by decide +kernel
def gateObj (rest : Nat) (i0 i1 : Nat) : List Byte := natLe 32 (3 + kf 16 9 + kf 32 2 + kf 64 1000 + rest) ++ natLe 8 (0x0F + kf 16 i0) ++ natLe 8 (0xF0 + kf 16 i1)
theorem test_gate_object : (let t := loaded op 7 (gateObj (kf 192 7) 400 600)
    status t 5 = 0 ∧ (t.gate 3).pend = some ⟨9, false, 2, 1000, 7 * secUnit⟩ ∧ (t.gate 3).switchAt = 7 * secUnit ∧ t.rd (gateEntryAddr 3 true 1) 8 = 0xF0 + kf 16 600) ∧
    [refuses op 7 (gateObj 0 400 601), refuses op 7 (gateObj 0 9 991), refuses op 7 (gateObj (kf 160 1000000000) 400 600)] = [0x15, 0x12, 0x12] ∧
    -- a base time in the past: the first multiple of the cycle at least the lead time, 100 µs, ahead
    ((loaded op 7 (gateObj 0 400 600)).gate 3).switchAt = 5 * secUnit + 100000 * nsUnit := by decide +kernel
/-- Port 3 has a pending gate list of generation 9 and a cycle of 1 ms, at 1 Gb/s. -/
def gated : State := { op.setGate 3 { Gate.reset with pend := some ⟨9, false, 1, 1000000, 0⟩ } with sw := { (op.setGate 3 { Gate.reset with pend := some ⟨9, false, 1, 1000000, 0⟩ }).sw with rate := [(3, 1000)] } }
def winObj (gen len at_ guard : Nat) : List Byte := natLe 16 (3 + kf 16 gen + kf 32 1) ++ natLe 32 (4 + kf 32 64 + kf 64 at_ + kf 96 guard + kf 128 len)
theorem test_window_object : (let t := loaded gated 8 (winObj 9 200000 800000 10); status t 5 = 0 ∧ (t.mill 3).pendGen = some 9 ∧ (t.mill 3).pendCount = 1) ∧
    [refuses gated 8 (winObj 8 200000 0 10), refuses gated 8 (winObj 9 200001 800000 10), refuses gated 8 (winObj 9 200000 0 9), refuses op 8 (winObj 9 200000 0 10)] =
      [0x14, 0x15, 0x12, 0x15] := by decide +kernel
def ruleObj (type gen first n : Nat) (act : Nat) : List Byte := natLe 16 (type + kf 16 gen + kf 32 first + kf 48 n) ++ (List.replicate n (natLe 128 0 ++ natLe 32 act)).flatten
theorem test_rule_object : (let t := loaded op 9 (ruleObj 0 1 0 1 1)
    t.host.busy = some (5, .ruleLoad) ∧ t.scr.load.map (fun l => (l.gen, l.count)) = some (1, 1) ∧ t.rd8 (ruleBase true + 128) = 0 ∧
    -- the entry is written in the load's cycles 0 to 3
    (later 3 t).ruleTick.rd8 (ruleBase true + 128) = 1 ∧ (later 2 t).ruleTick.rd8 (ruleBase true + 128) = 0 ∧
    (let u := after .ruleBankSwap (later 4 t).ruleTick; u.scr.bank = true ∧ u.scr.gen = 1 ∧ status u 5 = 0)) ∧
    (let t := loaded op 9 (ruleObj 1 0 7 1 1); status t 5 = 0 ∧ t.rd8 (ruleBase false + 7 * 160 + 128) = 1) ∧
    [refuses op 9 (ruleObj 0 0 0 1 1), refuses op 9 (ruleObj 1 1 0 1 1), refuses op 9 (ruleObj 2 1 0 1 1), refuses op 9 (ruleObj 1 0 8191 2 1), refuses op 9 (ruleObj 1 0 0 1 0x41)] =
      [0x14, 0x14, 0x10, 0x16, 0x15] := by decide +kernel
def gwObj (type first n : Nat) (e : List Byte) : List Byte := natLe 16 (type + kf 16 first + kf 32 n) ++ e
theorem test_gateway_object : (let t := loaded op 0xA (gwObj 0 7 1 (natLe 32 (1 + kf 3 1 + kf 5 1))); status t 5 = 0 ∧ t.rd (routeAddr 7) 4 = 0x29) ∧
    (let t := loaded op 0xA (gwObj 1 300 1 (natLe 256 (1 + kf 1280 8))); status t 5 = 0 ∧ bits (t.goHead 300) 143 128 = 1) ∧
    [refuses op 0xA (gwObj 0 7 1 (natLe 32 1)), refuses op 0xA (gwObj 1 300 1 (natLe 256 3)), refuses op 0xA (gwObj 3 0 0 [0]), refuses op 0xA (gwObj 0 4095 2 (natLe 64 0))] =
      [0x15, 0x15, 0x10, 0x16] := by decide +kernel

/-! 11: parameters and the direct window. -/

theorem test_param_conflict : (let f (l : List (Nat × Nat)) := (op.paramFailure 0 l)
    f [(0x0C03, 1500)] = some (0, 0x0C03, .conflict) ∧ f [(0x0C01, 1600), (0x0C03, 1500)] = none ∧ f [(0x0C05, 255), (0x0C11, 0x700)] = none ∧
    f [(0x0C05, 255), (0x0C11, 0x701)] = some (1, 0x0C11, .conflict)) ∧
    (let f (l : List (Nat × Nat)) := (op.paramFailure 0 l)
     f [(0x0E01, 7)] = some (0, 0x0E01, .conflict) ∧ f [(0x0512, 1), (0x0511, 48)] = some (0, 0x0512, .conflict) ∧ f [(0x0511, 48)] = some (0, 0x0511, .range) ∧
     f [(0x0C04, 1001)] = some (0, 0x0C04, .range)) ∧
    (setp op [(0x0E01, 3)]).paramFailure 0 [(0x0E01, 7)] = none ∧ (setp op [(0x0E01, 3)]).paramFailure 0 [(0x0E01, 6)] = some (0, 0x0E01, .conflict) := by
  decide +kernel
theorem test_param_can : (let f (l : List (Nat × Nat)) := (op.paramFailure 0 l)
    -- triple sampling only up to 125 kbit/s: the default is 500 kbit/s
    f [(0x0883, 4)] = some (0, 0x0883, .conflict) ∧ f [(0x0883, 1)] = none ∧ f [(0x0883, 0x30)] = some (0, 0x0883, .range) ∧
    -- SJW above TSEG2
    f [(0x0821, 0x201F7E00)] = some (0, 0x0821, .range) ∧ f [(0x0821, 0x9F1F7E00)] = some (0, 0x0821, .range)) := by decide +kernel
theorem test_param_negative : (op.paramFailure 0 [(0x050A, 2 ^ 64 - 1000)] = none ∧ op.paramFailure 0 [(0x050A, 2 ^ 32 - 1000)] = some (0, 0x050A, .range) ∧
    op.paramFailure 0 [(0x050A, 2 ^ 64 - 1001)] = some (0, 0x050A, .range)) ∧
    (let t := after (.paramSet 5) (req op 5 4 (natLe 4 0x050A ++ natLe 8 (2 ^ 64 - 5))); t.paramInt 0x050A = -5 ∧ t.nm.snapDirty = true) := by decide +kernel
theorem test_param_taken : Taken (req op 5 4 (natLe 4 0x0508 ++ natLe 8 77)) 5 4 (natLe 4 0x0508 ++ natLe 8 77) := by
  unfold Taken; decide +kernel
theorem test_register_codes : (let s := { op with dw := { op.dw with scratch0 := 0x11223344, irqW1c := 0x3F00, linkChg := 0xFFFFFF } }
    let w (o v be : Nat) := s.writeWord (0x03010000 + o) v be
    (w 0x030 0xAABBCCDD 5).dw.scratch0 = 0x11BB33DD ∧ (w 0x080 0x1100 3).dw.irqW1c = 0x2E00 ∧ (w 0x080 0x1100 1).dw.irqW1c = 0x3F00 ∧
    (w 0x09C 0xFF0001 6).dw.linkChg = 0x00FFFF ∧ (w 0x06C 0x1FF 0xF).host.aperPcie = 0x10F ∧ w 0 1 0xF = s ∧ w 0x100 1 0xF = s) ∧
    op.accessCause 0 true = 2 ∧ op.accessCause 0x02000000 true = 2 ∧ op.accessCause 0x02200000 true = 0 ∧ op.accessCause 0x00010000 true = 1 := by decide +kernel
theorem test_word_of_sram : (let t := op.writeWord 0x0141FFFC 0x04030201 0xA
    (List.range 6).map (fun i => t.rd8 (0x0141FFFB + i)) = [0, 0, 2, 0, 4, 0]) := by decide +kernel
theorem test_irq_force : (after (.dwIrqForce 0xFFFF) op).dw.irqW1c = 0x3701 ∧
    (match exec (.dwIrqForce 0x10000) op with | .fault .reservedOne => true | _ => false) = true := by decide +kernel
/-- An edge waits for the end of the moderation interval of 25 µs, which began at cycle 999,980,000. -/
def late : State := { host with host := { host.host with lastMsix3 := some 999980000, msix3Due := true }, dw := { op.dw with irqLat := 25 } }
theorem test_irq_moderation : (let t := after .irqModerationExpiry late
    SMap.get 0 t.host.msix 3 = 1 ∧ t.host.msix3Due = false ∧ t.host.lastMsix3 = some 1000000000) ∧
    -- a masked vector sends nothing
    SMap.get 0 (after .irqModerationExpiry { late with host := { late.host with msixOn := 7 } }).host.msix 3 = 0 ∧
    (let s := { late with dw := { late.dw with irqLat := 26 } }; after .irqModerationExpiry s = s) := by decide +kernel

/-! 12: network management. -/

/-- Node 9 sends keep-alives on CAN channel 0, in Normal mode; the countdown of 1.5 s stands at its end. -/
def ebb : State := { (setp op [(0x0C05, 9), (0x0C10, 1)]).setCan 0 { Can.reset with mode := 1, pstate := 2 } with nm := { Nm.reset with state := .ebb, firstKa := false } }
def latched (m : BitVec 9) : State := { ebb with nm := { ebb.nm with latch := m } }
/-- The countdown, from cycle 0, has reached the Ebb timeout. -/
def ended (s : State) : State := { s with time := { s.time with cycle := 1200000000 } }
theorem test_commit_accepted : (let t := after .commit (ended ebb)
    t.nm.state = .commit ∧ t.nm.accepted = true ∧ t.nm.commitAt = 1200000000 ∧ t.nm.sleeps = 1) ∧
    (let t := after .commit (later 199999999 ebb); t.nm.state = .ebb ∧ t.nm.accepted = false ∧ t.nm.latch = 0) ∧
    (let t := after .commit { ebb with nm := { ebb.nm with state := .awake, accepted := true } }; t.nm.state = .awake ∧ t.nm.accepted = false) := by decide +kernel
theorem test_commit_refused : (let t := after .commit (ended (latched 0x100))
    t.nm.state = .ebb ∧ t.nm.countAt = 1200000000 ∧ t.nm.latch = 0 ∧ t.nm.accepted = false ∧ t.nm.aborts = 0) ∧
    (let t := after .commit (ended (latched 0x110)); t.nm.state = .awake ∧ t.nm.aborts = 1 ∧ t.nm.latch = 0 ∧ t.nm.sleeps = 0 ∧ t.nm.wakeHold = true) := by decide +kernel
theorem test_ebb_timeout : (let s (n : Nat) (h : Option Activity) := { ebb with time := { op.time with cycle := n }, pw := { op.pw with token := { Token.reset with holder := h } } }
    (after .ebbTimeout (s 1200000000 none)).nm.state = .commit ∧ after .ebbTimeout (s 1199999999 none) = s 1199999999 none ∧
    after .ebbTimeout (s 1200000000 (some .staging)) = s 1200000000 (some .staging) ∧ (after .ebbTimeout (s 1200000000 (some .scrub))).nm.state = .commit) := by decide +kernel
theorem test_ebb_timeout_witness : ebb.nm.countAt + msCycles (ebb.param 0x0C01) = 1200000000 := by decide +kernel
theorem test_wake_line_edge : (let t := after (.wakeLineEdge 1) ebb
    t.nm.state = .awake ∧ t.nm.aborts = 1 ∧ t.nm.lines = 2 ∧ t.nm.pulses = 0xD ∧ t.dw.irqW1c = 0x2000 ∧ t.nm.latch = 0x82 ∧ t.nm.firstKa = true ∧
     t.nmTick.nm.latch = 0) ∧ -- firmware clears the bits as it handles them
    (let t := after (.wakeLineEdge 3) { slack with nm := { ebb.nm with state := .commit } }; t.nm.latch = 8 ∧ t.pw = slack.pw) := by decide +kernel
theorem test_wake_line_other : (let t := after (.wakeLineEdge 0) { ebb with nm := { ebb.nm with state := .commit } }; t.nm.latch = 1 ∧ t.nm.state = .commit) ∧
    (let t := after (.wakeLineEdge 2) { ebb with nm := { ebb.nm with state := .awake, wakeHold := true } }; t.nm.state = .awake ∧ t.dw.irqW1c = 0x2000 ∧ t.nm.aborts = 0) ∧
    (let s := { ebb with nm := { ebb.nm with pulses := 4 } }; after (.wakeLineEdge 2) s = { s with nm := { s.nm with lines := 4 } }) ∧
    (let s := setp ebb [(0x0C22, 2)]; after (.wakeLineEdge 2) s = { s with nm := { s.nm with lines := 4 } }) ∧
    -- one filter time, 1 µs, after the end of the device's own pulse
    (let s (n : Nat) := { ebb with nm := { ebb.nm with pulseEnd := [(2, n)] } }
     (after (.wakeLineEdge 2) (s 999999201)).nm.state = .ebb ∧ (after (.wakeLineEdge 2) (s 999999200)).nm.state = .awake) := by decide +kernel
theorem test_wake_line_low : (let s := { op with nm := { op.nm with lines := 2, nodes := [(7, ⟨some 5, some 5, false⟩)], hostAwake := some 4, wakeHold := true } }
    let t := after (.wakeLineLow 1) s
    t.nm.lines = 0 ∧ (t.node 7).awakeAt = some 1000000000 ∧ (t.node 7).lastKa = some 5 ∧ t.nm.hostAwake = some 1000000000 ∧ after (.wakeLineLow 0) s = s) := by
  decide +kernel
theorem test_wake_pulse_end : (let s (n : Nat) := { op with nm := { op.nm with pulses := 6, pulseAt := [(1, n)] } }
    (after (.wakePulseEnd 1) (s 999920000)).nm.pulses = 4 ∧ (after (.wakePulseEnd 1) (s 999920000)).nm.pulseEnd = [(1, 1000000000)] ∧
    after (.wakePulseEnd 1) (s 999920001) = s 999920001 ∧ after (.wakePulseEnd 0) (s 0) = s 0) := by decide +kernel
theorem test_bus_wakes : (let s := { slack with nm := { ebb.nm with state := .commit } }
    let t := after (.canWakePattern 7) s
    (t.nm.latch, t.nm.chan, t.nm.chanSet) = (0x10, 7, true) ∧
    (let u := after (.linWakePulse 4) t; (u.nm.latch, u.nm.chan) = (0x30, 7)) ∧ (after (.phyWake 2) s).nm.latch = 0x40 ∧ (after (.phyWake 2) s).nm.chan = 2 ∧
    after (.phyWake 2) (setp s [(0x0C2A, 0xFB)]) = setp s [(0x0C2A, 0xFB)] ∧ after (.canWakePattern 7) op = op) := by decide +kernel
theorem test_lin_pulse_wakes_responder : (let s := (setp op [(0x0903, 2)]).setLin 3 { Lin.reset with asleep := true }
    ((after (.linWakePulse 3) s).lin 3).asleep = false ∧ (after (.linWakePulse 3) s).nm.latch = 0) := by decide +kernel
theorem test_sw_wake : (after .aonSwWake ebb).nm.latch = 0x80 ∧ after .aonSwWake slack = slack := by decide +kernel
/-- In Awake with a host that needs the network. -/
def need : State := { ebb with nm := { ebb.nm with state := .awake, host := true } }
theorem test_keep_alive : (let t := after .keepAliveSend { need with nm := { need.nm with firstKa := true } }
    (t.can 0).queue.map (fun e => (e.msg.id, e.msg.data, e.lifetime)) = [(0x689, [9, 3, 0, 0, 0, 0, 0, 0], 500)] ∧ (t.can 1).queue = [] ∧
    t.nm.lastKaTx = some 1000000000 ∧ t.nm.firstKa = false ∧ t.nm.kaTx = 1) ∧
    (let t := after .keepAliveSend { need with nm := { need.nm with lastKaTx := some 600000000 } }; (t.can 0).queue.map (·.msg.data.take 2) = [[9, 1]]) ∧
    (let s := { need with nm := { need.nm with lastKaTx := some 600000001 } }; after .keepAliveSend s = s) ∧ after .keepAliveSend ebb = ebb := by decide +kernel
theorem test_wake_hold : (let s (n : Nat) (x : NmState) := { ebb with nm := { ebb.nm with state := x, wakeHold := true, awakeAt := n }, time := { op.time with cycle := 1200000000 } }
    (after .wakeHoldExpiry (s 0 .awake)).nm.state = .ebb ∧ (after .wakeHoldExpiry (s 0 .awake)).nm.wakeHold = false ∧
    (let t := after .wakeHoldExpiry { s 0 .awake with nm := { (s 0 .awake).nm with host := true } }; t.nm.state = .awake ∧ t.nm.wakeHold = false) ∧
    after .wakeHoldExpiry (s 1 .awake) = s 1 .awake) := by decide +kernel
theorem test_host_need : (let t := after (.nmHostNeed 2) (req ebb 2 0x0C01 []); status t 2 = 0 ∧ t.nm.state = .awake ∧ t.nm.aborts = 1 ∧ t.nm.host = true) ∧
    (let t := after (.nmHostRelease 2) (req need 2 0x0C02 []); status t 2 = 0 ∧ t.nm.state = .ebb ∧ t.nm.host = false) := by decide +kernel
theorem test_host_in_commit : (let s := { ebb with nm := { ebb.nm with state := .commit } }
    (let t := after (.nmHostNeed 2) (req s 2 0x0C01 []); status t 2 = 0xB ∧ t.nm.latch = 0x80 ∧ t.nm.host = false) ∧
    (let t := after (.nmHostRelease 2) (req s 2 0x0C02 []); status t 2 = 0xB ∧ t.nm.latch = 0x80)) := by decide +kernel
theorem test_nm_status : (let s := { need with nm := { need.nm with kaRx := 1, kaTx := 2, aborts := 3, sleeps := 4, snapOk := true, ignoredN := 5, badKa := 6, lastNode := 8, lastSrc := 1, nodes := [(17, ⟨some 0, none, true⟩)] } }
    reply (after (.nmStatus 2) (req s 2 0x0C03 [])) 2 = natLe 4 0x104 ++ natLe 4 0 ++ natLe 4 0x108 ++ natLe 4 1 ++ natLe 32 0x20000 ++ natLe 4 1 ++ natLe 4 2 ++ natLe 4 3 ++ natLe 4 4 ++ natLe 4 0x60005) := by decide +kernel
theorem test_nm_status_ebb : reply (after (.nmStatus 2) (req ebb 2 0x0C03 [])) 2 = natLe 4 1 ++ natLe 4 250 ++ List.replicate 4 0 ++ natLe 4 1 ++ List.replicate 52 0 := by decide +kernel
/-- 30 minutes and one cycle after the start of the awake clock of node 9 and node 12. -/
def long (d : Nat) : State := { need with nm := { need.nm with nodes := [(9, ⟨some 1, some 1, false⟩), (12, ⟨some (1440000000000 - 800000000), some 0, false⟩)], hostAwake := some 0 }, time := { op.time with cycle := 1440000000000 + d } }
theorem test_maximum_awake : (let t := after (.maximumAwakeTime 12) (long 1); (t.node 12).ignored = true ∧ t.nm.ignoredN = 1 ∧ t.nm.hostIgnored = false) ∧
    after (.maximumAwakeTime 12) (long 0) = long 0 ∧
    (let t := after (.maximumAwakeTime 9) (long 1); t.nm.hostIgnored = true ∧ t.nm.ignoredN = 1 ∧ t.nm.state = .ebb ∧ t.ignoredMap = 0x200) := by decide +kernel
theorem test_ignored_release : (let s (n : Nat) := { op with nm := { op.nm with wakeHold := true, nodes := [(12, ⟨some n, some 0, true⟩)] }, time := { op.time with cycle := 1200000000 } }
    (after (.ignoredNodeRelease 12) (s 0)).node 12 = ⟨some 0, some 0, false⟩ ∧ after (.ignoredNodeRelease 12) (s 1) = s 1) := by decide +kernel
/-- A change waits for the rewrite of the static part; a valid and an invalid entry of the static station table stand in memory. -/
def dirty : State := { (op.wrB 0x04000000 [1]).wrB 0x04100000 (1 :: List.replicate 10 0 ++ [3] ++ List.replicate 4 0 ++ [9] ++ List.replicate 10 0 ++ [1]) with nm := { op.nm with snapDirty := true, snapSeq := 6 } }
theorem test_static_rewrite : (let t := after .snapshotStaticRewrite dirty
    t.nm.snapDirty = false ∧ t.upd.wearSnap = 1 ∧ t.nm.snapSeq = 6 ∧ t.snapshot.map (fun r => (r.seq, r.tables)) = some (7, [(0x04100000, 1), (0x0410000B, 3)])) ∧
    (let s := { dirty with pw := { op.pw with token := { Token.reset with holder := some .otp } } }; after .snapshotStaticRewrite s = s) ∧
    after .snapshotStaticRewrite op = op := by decide +kernel
/-- A cycle of Commit. -/
def inCommit (s : State) (d : Nat) : State := stepped { s with pw := { s.pw with fwReady := true }, nm := { s.nm with state := .commit, commitAt := 1000000001 - d } }
theorem test_commit_steps : (let t := inCommit dirty 80000; t.snapshot.map (·.seq) = some 7 ∧ t.nm.snapSeq = 6) ∧
    (let t := inCommit { dirty with nm := { dirty.nm with snapOk := true } } 1360000; t.nm.snapSeq = 7) ∧
    (let t := inCommit { dirty with nm := { dirty.nm with snapOk := true }, pw := { dirty.pw with storeOk := false } } 1360000; t.nm.snapSeq = 6 ∧ t.nm.snapOk = false) ∧
    (inCommit op 1520000).pw.inh1 = false ∧ (inCommit op 1519999).pw.inh1 = true := by decide +kernel
theorem test_commit_silences : (let t := inCommit { ((setp op []).setCan 4 { Can.reset with mode := 1, pstate := 2, queue := [⟨⟨5, false, false, false, false, false, false, false, 0, 0, 0, 0, []⟩, 5000, 0, 0, 0, none⟩] }) with
      sw := { op.sw with link := 7 } } 1440000
    t.can 4 = { Can.reset with irq := (t.can 4).irq } ∧ t.sw.link = 0) := by decide +kernel
theorem test_commit_ends_in_slack : (let t := inCommit { op with sec := { op.sec with wks := [(3, WorkKey.reset)] } } 1600000
    (t.pw.mode, t.pw.inh0, t.pw.inh1, t.pw.fwReady) = (.slack, false, false, false) ∧ t.sec.wks = [] ∧ t.nm.state = .commit) := by decide +kernel

/-! 13: lockstep and the pair. -/

def hw (a d : Nat) : HeldWrite := ⟨BitVec.ofNat 32 a, BitVec.ofNat 32 d, 0xF⟩
def win (lead trail : Nat) (w : List HeldWrite) : CoreWindow := ⟨[BitVec.ofNat 64 lead], [BitVec.ofNat 64 trail], 0, w, [], none⟩
theorem test_misr : misrStep 0x8000000000000001 0 = 0x19 ∧ misrStep 3 5 = 3 := by decide +kernel
theorem test_window_equal : (let t := after (.lockstepCompare (win 1 1 [hw 0x01000000 5, hw 0x01000000 6]) (win 2 2 [hw 0x01000000 7])) op
    t.mem = [(0x01000000, 6)] ∧ t.ls = { op.ls with windowN := op.ls.windowN + 1 }) ∧
    -- a window whose comparison is not yet due
    (let s := { op with ls := { op.ls with coreFrom := 1000000000 } }; after (.lockstepCompare (win 1 1 []) (win 2 3 [])) s = s) ∧
    (match exec (.lockstepCompare (win 1 1 [hw 0x03010084 0x10000]) (win 1 1 [])) op with | .fault .reservedOne => true | _ => false) = true := by decide +kernel
/-- A read to another address is made in the window, whatever the compare shows; one to the address of a held write waits for its release. -/
theorem test_window_reads : (let s := op.bump (lsReg 0x1C)
    let rd (w : List HeldWrite) (trail : Nat) := after (.lockstepCompare { win 1 1 w with reads := [⟨BitVec.ofNat 32 (lsReg 0x1C), w.length⟩] } (win 2 trail [])) s
    s.c32 (lsReg 0x1C) = 1 ∧ (rd [] 2).c32 (lsReg 0x1C) = 0 ∧ (rd [hw 0x01000000 5] 3).c32 (lsReg 0x1C) = 0 ∧
    (rd [hw (lsReg 0x1C) 0] 3).c32 (lsReg 0x1C) = 1) := by decide +kernel
theorem test_window_ecc : (let t := after (.lockstepCompare { win 1 1 [hw 0x01000000 5] with eccBad := some 0 } (win 2 2 [])) op
    t.pw.mode = .failSilent ∧ t.mem = [] ∧ t.pw.fr.last.map (fun e => (e.code, e.unit)) = some (0x0204, 0)) ∧
    (let t := after (.lockstepCompare (win 1 1 []) { win 2 2 [] with badRail := 4 }) op
     t.pw.mode = .failSilent ∧ t.pw.fr.last.map (fun e => (e.code, e.unit, e.detail)) = some (0x0203, 1, [4, 0])) := by decide +kernel
/-- A checkpoint with SEQ 0xFFFFFFFF stands in half 0. -/
def ckpt : State := ((op.wrB 0x01400010 (List.replicate 16 7)).wrB 0x01400000 ([0xFF, 0xFF, 0xFF, 0xFF, 16, 0, 0, 0])).wrB 0x01400008
  (natLe 4 (crc32c ([0xFF, 0xFF, 0xFF, 0xFF, 16, 0, 0, 0] ++ List.replicate 16 7)))
theorem test_window_unequal : (let t := after (.lockstepCompare (win 1 1 [hw 0x01000000 5]) (win 2 3 [])) ckpt
    t.ls.lsCore = true ∧ t.ls.diff = 1 ∧ t.ls.nbits = 1 ∧ t.ls.both = false ∧ t.ls.restarting = true ∧ t.ls.single = true ∧ t.ls.half = false ∧
    t.ls.total = 1 ∧ t.mem = ckpt.mem ∧ t.fw = false ∧ t.pw.mode = .operating ∧ t.ls.last1 = some 1000000000) ∧
    (let t := after (.lockstepCompare (win 3 1 []) (win 2 2 [])) op
     t.pw.mode = .failSilent ∧ t.pw.fr.last.map (·.code) = some 0x0205) := by decide +kernel
theorem test_third_mismatch : (let s (n : Nat) := { ckpt with ls := { ckpt.ls with last1 := some 900000000, last2 := some n, single := false } }
    let t := after (.lockstepCompare (win 3 1 []) (win 2 2 [])) (s 200000001)
    t.pw.mode = .failSilent ∧ t.pw.fr.last.map (fun e => (e.code, e.unit)) = some (0x0201, 0) ∧
    (after (.lockstepCompare (win 3 1 []) (win 2 2 [])) (s 200000000)).ls.restarting = true) := by decide +kernel
theorem test_restart_answers : (let s := { ckpt with host := { ckpt.host with busy := some (5, .blockStore), mbs := [(5, ⟨.busy, none, 0, 0⟩)] } }
    let t := after (.lockstepCompare (win 3 1 []) (win 2 2 [])) s
    status t 5 = 9 ∧ (t.mb 5).state = .done ∧ t.host.busy = none) := by decide +kernel
theorem test_checkpoint : (let t := after (.checkpoint (List.replicate 16 9)) ckpt
    t.newestCkpt = some true ∧ t.ckptSeq true = 0 ∧ t.ckptLen true = 16 ∧ t.rdB 0x01410010 16 = List.replicate 16 9 ∧ t.ckptSeq false = 0xFFFFFFFF) ∧
    after (.checkpoint (List.replicate 15 9)) ckpt = ckpt := by decide +kernel
theorem test_injection_restart : (let s := { op with ls := { op.ls with restarting := true, single := true } }
    let t := after (.comparatorInjectionTest none) s
    t.ls.restarting = false ∧ t.ls.single = false ∧ t.c32 (lsReg 0x20) = 1 ∧
    (let t := after (.comparatorInjectionTest (some ⟨1, 3, 0x18, 0⟩)) s
     t.pw.mode = .failSilent ∧ t.pw.fr.last.map (fun e => (e.code, e.unit, e.detail)) = some (0x0202, 1, [3, 0x18, 0, 2])) ∧
    -- an invalid rail pair at an extra compare
    (after (.comparatorInjectionTest (some ⟨1, 3, 8, 4⟩)) s).pw.fr.last.map (fun e => (e.code, e.unit, e.detail)) = some (0x0203, 1, [4, 0])) := by decide +kernel
theorem test_injection_service : (let s := { op with ls := { op.ls with testing := true }, pw := { op.pw with token := { Token.reset with holder := some .comparator } } }
    let t := after (.comparatorInjectionTest (some ⟨1, 3, 8, 0⟩)) s
    t.ls.testing = false ∧ t.pw.token.holder = none ∧ t.c32 (lsReg 0x1C) = 1 ∧
    (after (.comparatorInjectionTest (some ⟨0, 63, 0, 0⟩)) s).pw.fr.last.map (·.detail) = some [63, 0, 0, 3]) := by decide +kernel
theorem test_injection_due : (let s (n : Nat) := { op with pw := { op.pw with token := { Token.reset with lastCmp := some n } } }
    (after (.comparatorInjectionTest none) (s 920000000)).pw.token.lastCmp = some 1000000000 ∧ after (.comparatorInjectionTest none) (s 920000001) = s 920000001) := by decide +kernel

/-- A device of a pair in a role whose partner it hears. -/
def hb (role run : Nat) (tk : Bool) : Heartbeat := ⟨BitVec.ofNat 2 role, 1, tk, 0xFFFFFFFFFFFFFFFF, 0, BitVec.ofNat 32 run⟩
def pr (role : Nat) : State := { setp op [(0x0D01, 1)] with pair := { Pair.reset with role := BitVec.ofNat 2 role, present := true, lock := true, partner := some (hb (3 - role) 4 false), lastRx := 999999000 } }
theorem test_heartbeat_send : (let t := after .heartbeatSend (setp (pr 1) [(0x0D02, 2), (0x0105, 0x11223344)])
    let r := t.pair.lastSent
    r.length = 44 ∧ (r.take 11) = [1, 0, 0, 0, 0, 0, 32, 0, 1, 2, 0] ∧ (r.drop 24).take 4 = [0x44, 0x33, 0x22, 0x11] ∧ t.c64 (mirReg 8) = 1) := by decide +kernel
theorem test_heartbeat_join : (let s := { pr 2 with pair := { (pr 2).pair with present := false, partner := none, readyAt := some 5 } }
    let t := after (.heartbeat (hb 1 4 false)) s
    t.pair.role = 2 ∧ t.pair.present = true ∧ t.pair.readyAt = none ∧ t.pair.lastRx = 1000000000 ∧ (List.range 5).all (fun i => (t.mirTable (i + 1)).needSync) ∧
    t.c64 (mirReg 0x10) = 1) := by decide +kernel
theorem test_heartbeat_both_secondary : (let r (at_ : Option Nat) (mine his : Nat) := (after (.heartbeat { hb 2 4 false with prefRole := BitVec.ofNat 2 his })
      (setp { pr 2 with pair := { (pr 2).pair with readyAt := at_ } } [(0x0D02, mine)])).pair.role
    -- the election belongs to the start: outside it two secondaries stay as they are
    (r (some 5) 1 2, r (some 5) 2 1, r none 1 2) = (1, 2, 2)) := by decide +kernel
theorem test_heartbeat_primary : (let s := { pr 1 with pair := { (pr 1).pair with takeover := true } }
    (let t := after (.heartbeat (hb 2 5 false)) s; t.pair.role = 1 ∧ t.pair.takeover = false ∧ (t.mirTable 3).needSync = true ∧ t.pair.split = false) ∧
    (let t := after (.heartbeat (hb 2 4 false)) s; t.pair.role = 1 ∧ t.pair.takeover = true ∧ t.pair.tables = [])) := by decide +kernel
theorem test_split : (let s (tk : Bool) := { ((pr 1).wrB 0x04100000 [1]).wrB 0x04C00000 [1] with pair := { (pr 1).pair with silent := true, present := false, takeover := tk } }
    (let t := after (.heartbeat (hb 1 4 false)) (s true)
     t.pair.role = 2 ∧ t.pair.takeover = false ∧ t.mem = [] ∧ t.pair.split = true ∧ t.c32 (mirReg 0x2C) = 1 ∧ t.dw.fwEvent = 2) ∧
    (let t := after (.heartbeat (hb 1 4 true)) (s false); t.pair.role = 1 ∧ t.mem = (s false).mem ∧ t.pair.split = true)) := by decide +kernel
theorem test_role_timeout : (let s (n : Nat) := { pr 2 with pair := { (pr 2).pair with readyAt := some n, present := false, partner := none } }
    (after .pairRoleTimeout (s 984000000)).pair.role = 1 ∧ (after .pairRoleTimeout (s 984000000)).pair.takeover = false ∧ after .pairRoleTimeout (s 984000001) = s 984000001) := by
  decide +kernel
theorem test_partner_silence : (let s (r n : Nat) := { pr r with pair := { (pr r).pair with lastRx := n } }
    (let t := after .partnerSilence (s 2 999996800)
     t.pair.role = 1 ∧ t.pair.takeover = true ∧ t.pair.takeovers = 1 ∧ t.pair.tkTs = op.ts ∧ t.c32 (mirReg 0x28) = 1 ∧ t.pair.silent = true ∧ t.pair.present = false) ∧
    (let t := after .partnerSilence (s 1 999996800); t.pair.role = 1 ∧ t.pair.takeover = false ∧ t.cnt32 = [] ∧ t.pair.silent = true) ∧
    -- before 4 µs it is the loss of block lock
    (let t := after .partnerSilence (s 2 999996801); t.pair.role = 1 ∧ t.pair.lock = false)) := by decide +kernel
theorem test_takeover_lin : (let s := { (setp (pr 2) [(0x0903, 1), (0x0963, 2)]).wrB 0x04B80000 [] with pair := { (pr 2).pair with lastRx := 0 } }
    -- table 2 of channel 3 has no valid entry: nothing starts
    ((after .partnerSilence s).lin 3).running = false) := by decide +kernel
theorem test_role_change : (let t := after (.roleChange (rt 6 0)) (pr 2); t.pair.roleAt = some (6 * secUnit) ∧ t.c64 (mirReg 0x10) = 1 ∧ t.pair.role = 2) ∧
    (let s := { pr 2 with pair := { (pr 2).pair with roleAt := some (5 * secUnit) } }
     let t := after .mirrorCompare s; t.pair.role = 1 ∧ t.pair.roleAt = none ∧ t.c64 (mirReg 8) = 5) ∧
    (let s := { pr 1 with time := { op.time with ltime := 5 * secUnit + nominalIncr } }; after .mirrorCompare s = s) := by decide +kernel
theorem test_mirror_compare : (let s := (pr 1).wrB 0x04100000 (1 :: List.replicate 10 0 ++ [1])
    let t := after .mirrorCompare s
    (t.mirTable 1).local_ = some (BitVec.ofNat 64 (2 ^ 32 + crc32c (List.replicate 6 0 ++ (1 :: List.replicate 10 0 ++ [1]) ++ List.replicate 4 0))) ∧
    (t.mirTable 2).local_ = some 0 ∧ t.pair.role = 1) := by decide +kernel
theorem test_digest : (let m (l : Option (BitVec 64)) (b : Bool) := (pr 1).setMirTable 2 { MirTable.reset with local_ := l, suspect := b }
    ((after (.digest 1 5) (m (some 5) true)).mirTable 2).suspect = false ∧ (after (.digest 1 5) (m (some 5) true)).pair.lastCmp = 2 ∧
    ((after (.digest 1 5) (m (some 6) false)).mirTable 2).suspect = true ∧ (after (.digest 1 5) (m (some 6) false)).pair.cmpFails = 0 ∧
    (let t := after (.digest 1 5) (m (some 6) true); t.pair.cmpFails = 1 ∧ (t.mirTable 2).needSync = true ∧ t.c32 (mirReg 0x20) = 1) ∧
    ((after (.digest 1 5) (m none false)).mirTable 2).remote = some 5) := by decide +kernel
theorem test_entry_update : (let t := after (.entryUpdate ⟨1, 2, 9, true⟩ (List.replicate 16 3)) (pr 2)
    t.rdB 0x04100020 16 = List.replicate 16 3 ∧ t.mirVersion 1 2 = 9 ∧ t.c64 (mirReg 0x10) = 1) ∧
    (after (.entryUpdate ⟨1, 2, 9, true⟩ (List.replicate 16 3)) (pr 1)).mem = [] ∧
    (let t := after (.entryUpdate ⟨2, 1, 0x0201, true⟩ (1 :: List.replicate 63 0)) (pr 2)
     t.mem = [(0x04C00040, 1), (0x04C00048, 1), (0x04C00049, 2)] ∧ t.connUsed = 1 ∧ (after (.entryUpdate ⟨2, 1, 3, false⟩ []) t).mem = []) := by decide +kernel
theorem test_entry_update_nm : (let u (n : Nat) (s : State) := after (.entryUpdate ⟨3, 0, 1, true⟩ (natLe 2 n ++ natLe 32 4)) s
    (u 1 (pr 2)).nm.state = .ebb ∧ ((u 1 (pr 2)).node 2).ignored = true ∧ (u 2 (u 1 (pr 2))).nm.state = .commit ∧ (u 0 (u 1 (pr 2))).nm.state = .awake) := by decide +kernel
theorem test_entry_update_other : (let t := after (.entryUpdate ⟨4, 23, 6, true⟩ (List.replicate 16 1)) (pr 2); SMap.get [] t.pair.mirSched 23 = List.replicate 16 1 ∧ t.mem = []) ∧
    (let t := after (.entryUpdate ⟨5, 7, 0x0605, true⟩ (List.replicate 96 1)) ((pr 2).wrB (goAddr 7) [0, 0, 1, 0]); t.rd (goAddr 7) 4 = 0x10000 ∧ t.rd (goAddr 7 + 16) 2 = 0x0605) ∧
    (after (.entryUpdate ⟨6, 0, 0, true⟩ []) (pr 2)).mem = [] := by decide +kernel
/-- The secondary receives a resync of the MAC table; entries 1 and 2 are valid, and 2 was received. -/
def receiving : State := (((pr 2).wrB 0x0410001B [1]).wrB 0x0410002B [1]).setMirTable 1 { MirTable.reset with needSync := true, recv := some [2] }
theorem test_resync_receive : (let t := after (.resyncEnd 0) receiving; t.mem = [(0x0410002B, 1)] ∧ (t.mirTable 1).recv = none ∧ (t.mirTable 1).needSync = false) ∧
    ((after (.resyncBegin 0) (pr 2)).mirTable 1).recv = some [] ∧ (after (.resyncBegin 0) (pr 1)).pair.tables = [] ∧
    ((after (.entryUpdate ⟨1, 5, 1, true⟩ []) receiving).mirTable 1).recv = some [2, 5] := by decide +kernel
/-- The primary resyncs the MAC table, of which entry 1 is valid, and an update waits. -/
def sync : State := setp (((pr 1).wrB 0x0410001B [1]).setMirTable 1 { MirTable.reset with needSync := true }) [(0x0D03, 0)]
theorem test_resync : (let t := after (.resync 0) sync
    t.pair.resync = some 0 ∧ t.pw.token.holder = some .resync ∧ t.c64 (mirReg 8) = 2 ∧
    (let u := after (.resyncCompleted 0) { t with pair := { t.pair with queue := [[1]] } }
     u.pair.resync = none ∧ u.pair.queue = [] ∧ u.pw.token.holder = none ∧ u.c64 (mirReg 8) = 4 ∧ u.c32 (mirReg 0x24) = 1 ∧ (u.mirTable 1).needSync = false)) ∧
    (let s := { sync with pw := { op.pw with token := { Token.reset with holder := some .scrub } } }; (after (.resync 0) s).pw.token.queue = [.resync]) ∧
    after (.resync 1) sync = sync ∧ after (.resyncCompleted 0) sync = sync := by decide +kernel
theorem test_other_records : (after (.badRecord true) (pr 2)).c32 (mirReg 0x18) = 1 ∧ (after (.badRecord false) (pr 2)).c64 (mirReg 0x10) = 1 ∧ after (.badRecord true) op = op := by
  decide +kernel
theorem test_wake_request : (let s (r : Nat) := { pr r with nm := { op.nm with state := .ebb } }
    (after .wakeRequest (s 1)).nm.state = .awake ∧ (after .wakeRequest (s 1)).nm.aborts = 1 ∧ (after .wakeRequest (s 2)).nm.state = .ebb) := by decide +kernel
theorem test_transaction : (after (.mailboxTransaction 0x03003010 (some 0x04030201)) (pr 2)).rd 0x03003010 4 = 0x04030201 ∧
    (after (.mailboxTransaction 0x03010040 (some 0x40)) (pr 2)).host.rings = [6] ∧ (after (.mailboxTransaction 0x03002000 (some 1)) (pr 2)).mem = [] ∧
    (let t := after (.mailboxTransaction 0x03003010 none) ((pr 2).wrB 0x03003010 [9])
     t.pair.lastSent = mirRecord 7 0 0 0 false (natLe 4 0x03003010 ++ natLe 4 9)) := by decide +kernel
theorem test_pair_role : (let s := { pr 1 with pair := { (pr 1).pair with lastCmp := 0x1F }, time := { op.time with state := .free } }
    let c (s : State) (r : Nat) := after (.pairRole 3) (req s 3 0x0D02 (natLe 4 r))
    status (c s 3) 3 = 3 ∧ status (c { s with pair := { s.pair with lastCmp := 0xF } } 2) 3 = 0xB ∧ status (c op 2) 3 = 0xB ∧
    -- a resync runs; at the secondary it shows by its begin record
    status (c { s with pair := { s.pair with resync := some 1 } } 2) 3 = 0xB ∧
    status (c (({ s with pair := { s.pair with role := 2 } }).setMirTable 1 { MirTable.reset with recv := some [] }) 1) 3 = 0xB) := by decide +kernel
theorem test_pair_status : reply (after (.pairStatus 3) (req { pr 1 with pair := { (pr 1).pair with lastCmp := 0x1F, cfgDiff := true, takeovers := 6, cmpFails := 7 } } 3 0x0D01 [])) 3 =
    natLe 4 0x139 ++ List.replicate 8 0xFF ++ natLe 4 6 ++ natLe 4 7 ++ natLe 4 0x1F := by decide +kernel

/-! 14: security. Vectors: SP 800-38B, the GCM specification, FIPS 180, RFC 6979. -/

def k256 : List Byte := natBe 32 0x603deb1015ca71be2b73aef0857d77811f352c073b6108d72d9810a30914dff4
def k128 : List Byte := natBe 16 0x2b7e151628aed2a6abf7158809cf4f3c
theorem test_cmac : cmac k256 [] = natBe 16 0x028962f61b7bf89efc6b551f4667d983 ∧
    cmac k256 (natBe 16 0x6bc1bee22e409f96e93d7e117393172a) = natBe 16 0x28a7023f452e8f82bd4bf28d8c37c35c := by decide +kernel
theorem test_sha384 : sha384 [0x61, 0x62, 0x63] =
    natBe 48 0xcb00753f45a35e8bb5a03d699ac65007272c32ab0eded1631a8b605a43ff5bed8086072ba1e7cc2358baeca134c825a7 := by decide +kernel
def hash1 : List Byte := natBe 48 0x9A9083505BC92276AEC4BE312696EF7BF3BF603F4BBD381196A029F340585312313BCA4A9B5B890EFEE42C77B1EE25FE
def pub : List Byte := natBe 96 0xEC3A4E415B4E19A4568618029F427FA5DA9A8BC4AE92E02E06AAE5286B300C64DEF8F0EA9055866064A254515480BC138015D9B72D7D57244EA8EF9AC0C621896708A59367F9DFB9F54CA84B3F1C9DB1288B231C3AE0D4FE7344FD2533264720
def sample : List Byte := [0x73, 0x61, 0x6d, 0x70, 0x6c, 0x65]
def sigs : List Byte := natBe 96 0x94EDBB92A5ECB8AAD4736E56C691916B3F88140666CE9FA73D64C4EA95AD133C81A648152E44ACF96E36DD1E80FABE4699EF4AEB15F178CEA1FE40DB2603138F130E740A19624526203B6351D0A3A94FA329C145786E679E7B82C71A38628AC8
theorem test_ecdsa : ecdsaVerify pub hash1 sigs = true ∧ ecdsaVerify pub (List.replicate 48 1) sigs = false := by decide +kernel

/-- A committed slot. -/
def slotOf (use : Nat) (d : List Byte) : Slot :=
  { data := BitVec.ofNat 256 (leNat d), desc := BitVec.ofNat 32 use, check := slotCheck (BitVec.ofNat 256 (leNat d)) (BitVec.ofNat 32 use), commit := true, spoil := false }
/-- Slot 1 wraps keys, slot 2 derives them, slot 3 holds the digest of `pub`, slot 4 is spoiled; slot 0 is blank. -/
def vault : State :=
  { setp op [(0x0260, 1), (0x0D03, 0)] with
    sec := { op.sec with slots := [(1, slotOf 0 k256), (2, slotOf 1 k256), (3, slotOf 2 (natBe 32 0x794113f29edd796b85dfaade5d707be345371383e7bac485d62edbcbd377ba1f)), (4, { slotOf 0 k256 with spoil := true })] } }
/-- The key-wrapping plaintext 02 10 34 12 00 00 00 00 and `k128`, wrapped under `k256` outside the model. -/
def blob2 : List Byte := natBe 32 0xcc58889ff2228052c54ff0ba605a5739d1624a18949729c55b2bfd2ea09c5a12
def inner (engine : Byte) (key : List Byte) : List Byte := [engine, BitVec.ofNat 8 key.length, 0x34, 0x12, 0, 0, 0, 0] ++ key
def load (s : State) (w : Nat) (blob tail : List Byte) : State := after (.keyLoad 1) (req s 1 0x0E01 (natLe 4 w ++ natLe 4 blob.length ++ blob ++ tail))
theorem test_key_load_plain : (let t := load op 0x205 k128 []; status t 1 = 0 ∧ t.wk 5 = ⟨true, 5, 16, 0, k128⟩ ∧ t.dw.fwEvent = 8) ∧
    status (load { op with sec := { op.sec with locked := true } } 0x205 k128 []) 1 = 0x38 ∧ status (load op 0x205 [1] []) 1 = 2 ∧ status (load op 0x225 k128 []) 1 = 3 := by
  decide +kernel
theorem test_unwrap : keyUnwrap k256 blob2 = some (inner 2 k128) := by decide +kernel
theorem test_unwrap_witness : (vault.slot 1).bytes = k256 ∧ (vault.slot 1).state = .committed ∧ (vault.slot 1).use = 0 ∧ vault.wkBound 7 = false ∧
    innerKey (inner 2 k128) = some ⟨true, 2, 16, 0x1234, k128⟩ ∧ innerKey (inner 6 k128) = none ∧ innerKey (inner 4 k128) = none := by decide +kernel
theorem test_key_load_taken : Taken (req vault 1 0x0E01 (natLe 4 (7 + 65536) ++ natLe 4 32 ++ blob2)) 1 0x0E01 (natLe 4 (7 + 65536) ++ natLe 4 32 ++ blob2) := by
  unfold Taken; decide +kernel
theorem test_key_load_slots : (let f (ks : Nat) := status (load vault (7 + ks * 65536) (List.replicate 32 0) []) 1; [f 0, f 2, f 4] = [0xB, 0x34, 0x37]) := by decide +kernel
def bindTx : Nat := kf 4 1 + kf 5 2 + kf 9 1 + kf 10 1 + kf 64 0x99 + kf 128 0x88 + kf 224 0x77
def derive (s : State) (w : Nat) (tail : List Byte) : State := after (.keyDerive 1) (req s 1 0x0E03 (natLe 4 w ++ natLe 4 0x10002 ++ [1, 2] ++ [3] ++ tail))
theorem test_bind : (let t := derive vault (7 + 0x1100 + 32 * 65536 + 2 * 2 ^ 24) (natLe 32 bindTx)
    status t 1 = 0 ∧ t.sec.sas = [(saKey 0 1 0 2, ⟨7, true, true, false, 0, 0x99, 0x88, 0x77, 1⟩)]) := by decide +kernel
theorem test_bind_refused : status (load op (7 + 0x1200) k128 (natLe 32 (bindTx + 1))) 1 = 3 ∧ status (load vault (7 + 0x1200) k128 (natLe 32 (bindTx + kf 7 1))) 1 = 3 ∧
    (let t := load vault (7 + 0x1200) k128 (natLe 32 bindTx); status t 1 = 0x34 ∧ t.c32 (secReg 8) = 1) := by decide +kernel
/-- Registers 2 to 5 hold keys; an SA uses register 4. -/
def keyed : State := { vault with sec := { vault.sec with wks := [(2, ⟨true, 5, 32, 0, List.replicate 32 0⟩), (3, ⟨true, 5, 16, 0, k128⟩), (4, ⟨true, 1, 32, 0, k256⟩), (5, ⟨true, 2, 16, 0, k128⟩)], sas := [(saKey 0 1 0 2, ⟨4, true, true, false, 0, 0, 0, 0, 1⟩)] } }
theorem test_bound_key : status (derive keyed (4 + 0x1100 + 32 * 65536 + 2 * 2 ^ 24) (natLe 32 bindTx)) 1 = 0xB ∧ status (load keyed 0x204 k128 []) 1 = 0xB := by decide +kernel
theorem test_key_clear : (let t := after (.keyClear 1) (req keyed 1 0x0E02 (natLe 4 0x10))
    status t 1 = 0 ∧ t.sec.sas = [] ∧ t.sec.wks.map (·.1) = [2, 3, 5]) ∧ (let t := after (.keyClear 1) (req keyed 1 0x0E02 (natLe 4 8)); t.sec.sas.length = 1 ∧ (t.wk 3).valid = false) := by
  decide +kernel
theorem test_key_derive : (let d (s : State) (ks : Nat) := derive s (9 + 0x200 + 32 * 65536 + ks * 2 ^ 24) []
    let f (n : Nat) := natBe 4 n ++ [1, 2, 0, 3, 2, 0, 0, 1, 0]
    (d vault 2).wk 9 = ⟨true, 2, 32, 0, cmac k256 (f 1) ++ cmac k256 (f 2)⟩ ∧ status (d vault 2) 1 = 0 ∧ status (d vault 1) 1 = 0x34 ∧
    status (d { vault with sec := { vault.sec with locked := true } } 2) 1 = 0x38) := by decide +kernel
def prog (s : State) (ks use : Nat) : State := after (.otpProgram 1) (req s 1 0x0E04 (natLe 4 ks ++ natLe 4 use ++ List.replicate 32 5))
theorem test_otp_program : (let t := prog vault 0 2
    t.host.busy = some (1, .otp) ∧ t.pw.token.holder = some .otp ∧ t.sec.slots = vault.sec.slots ∧
    (let u := after .otpProgrammingComplete t; (u.slot 0).state = .committed ∧ (u.slot 0).bytes = List.replicate 32 5 ∧ (u.slot 0).use = 2 ∧ status u 1 = 0 ∧
      u.pw.token.holder = none ∧ u.dw.fwEvent = 8)) := by decide +kernel
theorem test_otp_refused : [status (prog vault 1 0) 1, status (prog vault 4 0) 1, status (prog vault 0 3) 1, status (prog { vault with pw := { op.pw with storeOk := false } } 0 0) 1,
    status (prog { vault with pw := { op.pw with token := { Token.reset with holder := some .scrub } } } 0 0) 1] = [0x36, 0x37, 3, 0x33, 7] ∧
    (let t := prog { vault with pw := { op.pw with token := { Token.reset with holder := some .staging } } } 0 0; t.pw.token.queue = [.otp] ∧ t.host.busy = some (1, .otp)) ∧
    after .otpProgrammingComplete vault = vault := by decide +kernel
def signed (w : Nat) (pre post : List Byte) (s : State) : State := after (.sigVerify 1) (req s 1 0x0E05 (natLe 4 w ++ pre ++ post ++ sigs))
theorem test_sig_verify : (let s := { keyed with sec := { keyed.sec with wks := [(3, ⟨true, 3, 96, 0, pub⟩), (4, ⟨true, 1, 32, 0, k256⟩)] } }
    status (signed 0x300 [] hash1 s) 1 = 0 ∧ (let t := signed 0x300 [] (List.replicate 48 1) s; status t 1 = 0x39 ∧ t.c32 (secReg 0xC) = 1) ∧ (let t := signed 0x400 [] hash1 s; status t 1 = 0x34 ∧ t.c32 (secReg 8) = 1) ∧
    status (signed 0x500 [] hash1 s) 1 = 0xB) := by decide +kernel
theorem test_sig_verify_root : (let s := vault.wrB 0x01000000 sample
    status (signed 0x30003 pub (natLe 4 0x01000000 ++ natLe 4 6) s) 1 = 0 ∧
    status (signed 0x30003 pub (natLe 4 0x013FFFFF ++ natLe 4 2) s) 1 = 3) := by decide +kernel
def crypt (c : Instr) (op wk al dl : Nat) (body : List Byte) : State := after c (req keyed 1 0x0E06 (natLe 4 (op + wk * 256) ++ natLe 4 (al + dl * 65536) ++ body))
theorem test_host_crypto : (let iv : List Byte := List.replicate 12 0
    let ct : List Byte := natBe 32 0xcea7403d4d606b6e074ec5d3baf39d18d0d1c8a799996bf0265b98b5d48ab919
    reply (crypt (.aesGcmEncrypt 1) 1 2 0 16 (iv ++ List.replicate 16 0)) 1 = ct ∧ reply (crypt (.aesGcmDecrypt 1) 2 2 0 16 (iv ++ ct)) 1 = List.replicate 16 0 ∧
    status (crypt (.aesGcmEncrypt 1) 1 4 0 0 iv) 1 = 0x34) := by decide +kernel
theorem test_host_cmac : reply (crypt (.aesCmacGenerate 1) 3 3 0 0 []) 1 = natBe 16 0xbb1d6929e95937287fa37d129b756746 ∧
    status (crypt (.aesCmacVerify 1) 4 3 0 0 (natBe 16 0xbb1d6929e95937287fa37d129b756746)) 1 = 0 ∧ status (crypt (.aesCmacVerify 1) 4 3 0 0 (List.replicate 16 0)) 1 = 0x39 := by decide +kernel
theorem test_host_sha : reply (crypt (.sha384 1) 5 0 0 6 sample) 1 = hash1 := by decide +kernel
theorem test_authenticator : (let s := { keyed with sec := { keyed.sec with auth := [(2, { AuthCtx.reset with keyIdx := 5 })] } }
    let t := after (.authStart 2) s
    let u := after (.authFeed32 2 0x04030201) (after (.authFeed8 2 9) t)
    let v := after (.authFinish 2) u
    (t.auth 2).busy = true ∧ (u.auth 2).msg = [9, 1, 2, 3, 4] ∧ (v.auth 2).tag = cmac k128 [9, 1, 2, 3, 4] ∧ ((v.auth 2).done, (v.auth 2).busy, (v.auth 2).err) = (true, false, false)) ∧
    (let t := after (.authStart 1) keyed; (t.auth 1).err = true ∧ t.c32 (secReg 8) = 1 ∧ after (.authFeed8 1 1) t = t ∧ after (.authFeed32 1 1) t = t ∧ after (.authFinish 1) t = t) := by decide +kernel
theorem test_wk_mat : (let t := after (.wkMat .pcie 3 3 0xAABBCCDD) keyed; (t.wk 3).key = k128.take 12 ++ [0xDD, 0xCC, 0xBB, 0xAA]) ∧
    (let t := after (.wkMat .core0 3 4 1) keyed; t.wk 3 = keyed.wk 3) ∧ (let t := after (.wkMat .core0 4 0 1) keyed; t.c32 (secReg 0x10) = 1 ∧ t.sec = keyed.sec) := by decide +kernel
theorem test_tamper : (let t := after (.tamperEvent 5) keyed
    (t.sec.tamper, t.sec.phase, t.sec.tamperN) = (5, 1, 1) ∧ t.sec.locked = true ∧ t.sec.wks = [] ∧ t.sec.sas = [] ∧ t.dw.irqW1c = 0x1000) ∧
    (let t := after (.tamperEvent 3) slack; (t.sec.tamper, t.sec.phase, t.sec.locked) = (1, 2, true)) ∧ after (.tamperEvent 2) slack = slack ∧
    after (.tamperEvent 8) (setp op [(0x0E01, 7)]) = setp op [(0x0E01, 7)] := by decide +kernel
theorem test_tamper_stops_otp : (let t := after (.tamperEvent 1) (prog { vault with pw := { op.pw with token := { Token.reset with holder := some .staging } } } 0 0)
    status t 1 = 0x38 ∧ t.sec.otp = none ∧ t.pw.token.queue = [] ∧ t.host.busy = none ∧ t.sec.slots = vault.sec.slots) := by decide +kernel

/-! 15: field update. The image was signed outside the model with the private key of RFC 6979. -/

/-- A payload: a manifest of one firmware component, which holds the byte 07. -/
def payload : List Byte := [1] ++ List.replicate 15 0 ++ natLe 4 1 ++ natLe 4 48 ++ natLe 4 1 ++ [0xba, 0x37, 0xb7, 0x86] ++ List.replicate 16 0 ++ [7]
def digest1 : List Byte := natBe 48 0x47f1c038606126220132771184b785b0745306b0288a95694026d6f2b7c69868216539755f88b1f13158bf01f2738391
/-- Its header: VERSION 6, NOT_BEFORE 4 s, DEADLINE 100 s, slot 3, RELEASE 77. -/
def headTo (len pair : Nat) : List Byte := natLe 4 0x4C584192 ++ natLe 2 1 ++ natLe 2 0x4192 ++ natLe 4 len ++ natLe 4 6 ++ natLe 16 (kf 64 4) ++ natLe 4 100 ++ natLe 12 (pair + kf 32 3) ++
  digest1 ++ pub ++ natLe 8 77 ++ List.replicate 216 0
def hdr : List Byte := headTo 49 0 ++ natBe 96 0x2ca8c560f92280756d4d4e5903043a370532b246669e6110b033f9ab150d51863208e24bd70ce3738d027638bbd54cd290242038d5efdac3fe165674f83efc21aebb59331c2edafe9d6158c735a096ed44959dee5d7c8d692b163b4082d5ea43
/-- The island is there and at rest, the battery full; SVC has a connection and holds a message. -/
def still : State := { vault with isl := { vault.isl with present := true }, pw := { op.pw with battRaw := 4000 } }
/-- A message waits at the update engine, which has posted it to MB8. -/
def svc (s : State) (m : List Byte) : State := { s with host := { s.host with rings := [8], mbs := [(8, ⟨.pending, none, 0, 0⟩)] }, upd := { s.upd with svc := some ⟨0, 0, 0, [], 0, true, 0x0E00, none⟩, svcMsg := some m, posted := true } }
/-- OP, STATUS and NEXT of the answer over SVC. -/
def ans (s : State) : List Byte := s.upd.svcOut.drop 12
def ok (op st : Nat) (n : Nat) : List Byte := [BitVec.ofNat 8 (op + 0x80), 0] ++ natLe 2 st ++ natLe 4 n
theorem test_conditions : still.moving = false ∧ still.battLow = false ∧ op.moving = true ∧ op.battLow = true ∧ still.targetArea = false ∧ hdr.length = 512 ∧
    (imgLen hdr, imgBlocks hdr, imgVersion hdr, imgRelease hdr) = (49, 1, 6, 77) ∧ imgNotBefore hdr = 4 * secUnit ∧ imgDeadline hdr = 104 * secUnit := by decide +kernel
theorem test_header : (let t := after (.header .svc) (svc still (natLe 4 1 ++ natLe 4 0 ++ hdr))
    t.upd.areaA.state = .receiving ∧ t.upd.owner = some .svc ∧ t.upd.areaA.map = [] ∧ t.upd.areaB = Area.reset ∧ ans t = ok 1 0 0) := by decide +kernel
theorem test_header_signature : ans (after (.header .svc) (svc still (natLe 4 1 ++ natLe 4 0 ++ hdr.take 511 ++ [0]))) = ok 1 0x39 0xFFFF ∧
    ans (after (.header .svc) (svc { still with upd := { still.upd with active := some (natLe 12 0 ++ natLe 4 7) } } (natLe 4 1 ++ natLe 4 0 ++ hdr))) = ok 1 0x3A 0xFFFF := by decide +kernel
/-- A header with a length and zero signature: refused before or at its signature. -/
def offer (s : State) (len : Nat) : List Byte := ans (after (.header .svc) (svc s (natLe 4 1 ++ natLe 4 0 ++ headTo len 0 ++ List.replicate 96 0)))
theorem test_header_refused : [offer still 0, offer still 2093056, offer still 2093057] = [ok 1 0x3A 0xFFFF, ok 1 0x39 0xFFFF, ok 1 0x3A 0xFFFF] ∧
    offer op 49 = ok 1 0x30 0xFFFF ∧ offer { still with pw := { still.pw with battRaw := 0 } } 49 = ok 1 0x31 0xFFFF ∧
    offer { still with upd := { still.upd with ownerLock := true } } 49 = ok 1 0x32 0xFFFF := by decide +kernel
/-- A session of SVC in area A. -/
def sess (st : AreaState) (len : Nat) (map : List Nat) (o : Option UpdSrc) : State :=
  { still with upd := { still.upd with areaA := { Area.reset with state := st, header := headTo len 0 ++ List.replicate 96 0, map := map }, owner := o } }
theorem test_header_again : (let m := natLe 4 1 ++ natLe 4 0 ++ headTo 49 0 ++ List.replicate 96 0
    (let t := after (.header .svc) (svc (sess .receiving 49 [] (some (.mailbox 5))) m); t.upd.owner = some .svc ∧ ans t = ok 1 0 0) ∧
    (let s := sess .receiving 50 [] (some (.mailbox 5)); let t := after (.header .svc) (svc s m); t.upd.owner = some (.mailbox 5) ∧ ans t = ok 1 0xB 0) ∧
    ans (after (.header .svc) (svc (sess .armed 50 [0] none) m)) = ok 1 0xB 0xFFFF) := by decide +kernel
def part (i off : Nat) (last : Bool) (d : List Byte) : List Byte := natLe 4 (2 + i * 65536) ++ natLe 4 (off + (if last then 65536 else 0)) ++ natLe 4 2566472073 ++ d
theorem test_block_fragments : (let s := sess .receiving 8192 [] (some .svc)
    (let t := after (.block .svc) (svc s (part 1 0 false [1, 2, 3, 4])); t.upd.parts = [⟨1, [1, 2, 3, 4], 0⟩] ∧ ans t = [0x82, 0, 0, 0] ∧
      (after (.block .svc) (svc t (part 1 4 false [5, 6, 7, 8]))).upd.parts = [⟨1, [1, 2, 3, 4, 5, 6, 7, 8], 0⟩] ∧
      (let u := after (.block .svc) (svc t (part 1 8 false [5, 6, 7, 8])); u.upd.parts = [] ∧ ans u = ok 2 3 0) ∧
      -- a fragment of another block does not disturb the first
      (let u := after (.block .svc) (svc t (part 0 0 false [5, 6, 7, 8]))
       u.upd.parts.length = 2 ∧ (after (.block .svc) (svc u (part 1 4 false [5, 6, 7, 8]))).upd.parts.contains ⟨1, [1, 2, 3, 4, 5, 6, 7, 8], 0⟩ = true)) ∧
    ans (after (.block .svc) (svc s (part 0 4 true [1, 2, 3, 4]))) = ok 2 3 0 ∧
    ans (after (.block .svc) (svc (sess .receiving 8192 [] (some (.mailbox 5))) (part 0 0 false [1, 2, 3, 4]))) = ok 2 0xB 0) := by decide +kernel
theorem crcByte_lt (c : Nat) (b : Byte) (h : c < 2 ^ 32) : crcByte 0x82F63B78 c b < 2 ^ 32 := by
  have f : ∀ c, c < 2 ^ 32 → crcBit 0x82F63B78 c < 2 ^ 32 := by
    intro c h
    unfold crcBit
    split
    · exact Nat.xor_lt_two_pow (by omega) (by decide)
    · omega
  have g : c ^^^ b.toNat < 2 ^ 32 := Nat.xor_lt_two_pow h (by have := b.isLt; omega)
  exact f _ (f _ (f _ (f _ (f _ (f _ (f _ (f _ g)))))))
theorem crc32c_lt (l : List Byte) : crc32c l < 2 ^ 32 := by
  have f : ∀ (l : List Byte) (c : Nat), c < 2 ^ 32 → l.foldl (crcByte 0x82F63B78) c < 2 ^ 32 := by
    intro l
    induction l with
    | nil => intro c h; exact h
    | cons b l ih => intro c h; exact ih _ (crcByte_lt c b h)
  exact Nat.xor_lt_two_pow (f l _ (by decide)) (by decide)
/-- Block `i` of a session is complete but for its last four bytes. -/
def nearly (i : Nat) (map : List Nat) : State := { sess .receiving 8192 map (some .svc) with upd := { (sess .receiving 8192 map (some .svc)).upd with parts := [⟨i, List.replicate 4092 0, 0⟩] } }
theorem test_block_witness : (let d : List Byte := List.replicate 4092 0 ++ [0, 0, 0, 0]
    let crc := BitVec.ofNat 32 (crc32c d)
    crc32c d = crc.toNat ∧ crc32c d ≠ (crc + 1).toNat ∧ d.length = 4096 ∧
    UpdTaken (svc (nearly 1 [0]) (natLe 4 (2 + 1 * 65536) ++ natLe 4 (4092 + 65536) ++ natLe 4 crc.toNat ++ [0, 0, 0, 0])) .svc
      (natLe 4 (2 + 1 * 65536) ++ natLe 4 (4092 + 65536) ++ natLe 4 crc.toNat ++ [0, 0, 0, 0]) ∧
    (nearly 1 [0]).owns .svc = true ∧ (nearly 1 [0]).stagedArea.state = .receiving ∧ imgBlocks (nearly 1 [0]).stagedArea.header = 2 ∧
    (nearly 1 [0]).updRefused = none ∧ (nearly 1 [0]).pw.storeOk = true) := by
  have h := crc32c_lt (List.replicate 4092 0 ++ [0, 0, 0, 0])
  refine ⟨?_, ?_, by rw [List.length_append, List.length_replicate]; rfl, ⟨by decide +kernel, rfl, by decide +kernel⟩, by decide +kernel⟩
  · simp only [BitVec.toNat_ofNat]; omega
  · have one : (1 : BitVec 32).toNat = 1 := rfl
    rw [BitVec.toNat_add, BitVec.toNat_ofNat, one]; omega

/-- A checked block waits to be stored, for a mailbox. -/
def ready (storeOk : Bool) (h : Option Activity) : State :=
  let s := sess .receiving 8192 [1] (some (.mailbox 5))
  { s with pw := { s.pw with storeOk := storeOk, token := { Token.reset with holder := h } }, host := { s.host with busy := some (5, .blockStore), mbs := [(5, ⟨.busy, none, 0, 0⟩)] },
           upd := { s.upd with ready := some (⟨0, [9, 0, 0], 0⟩, .mailbox 5) } }
theorem test_block_store : (let t := after .blockStore (ready true (some .staging))
    t.rd8 0x02200000 = 9 ∧ t.upd.areaA.map = [1, 0] ∧ t.pw.token.holder = none ∧ status t 5 = 0 ∧ reply t 5 = natLe 4 0xFFFF ∧ (t.mb 5).state = .done) ∧
    after .blockStore (ready true none) = ready true none := by decide +kernel
theorem test_block_store_supply : (let t := after .blockStore (ready false (some .staging)); t.rd8 0x02200000 = 0 ∧ t.upd.areaA.map = [1] ∧ status t 5 = 0x33 ∧ t.upd.refusals = 1) := by
  decide +kernel
/-- The payload stands in area A with a header that matches. -/
def whole (pay : List Byte) (pair role : Nat) : State :=
  { (still.wrB 0x02200000 pay) with upd := { still.upd with areaA := { Area.reset with state := .receiving, header := headTo 49 pair ++ List.replicate 96 0, map := [0] }, owner := some .svc },
                                     pair := { still.pair with role := BitVec.ofNat 2 role } }
theorem test_finish : (let t := after (.finish .svc) (svc (whole payload 0 0) (natLe 4 3)); t.upd.areaA.state = .armed ∧ ans t = ok 3 0 0xFFFF ∧ t.upd.owner = some .svc) ∧
    (let t := after (.finish .svc) (svc (whole (payload.take 48) 0 0) (natLe 4 3)); t.upd.areaA.state = .empty ∧ (ans t).take 4 = [0x83, 0, 0x39, 0] ∧ t.upd.owner = none) ∧
    ans (after (.finish .svc) (svc (sess .receiving 8192 [0] (some .svc)) (natLe 4 3))) = ok 3 0xB 1 := by decide +kernel
theorem test_manifest : checkPayload hdr payload 9 = none ∧ checkPayload hdr (payload.take 48 ++ [8]) 9 = some 0 ∧ checkPayload hdr (List.replicate 49 0) 9 = some 9 ∧
    -- a PAIR image without its partner image
    checkPayload (headTo 49 1) payload 9 = some 9 := by decide +kernel
theorem test_records : (State.reset.applyRecord 0 (natLe 4 0x0508 ++ natLe 8 7)).map (·.param 0x0508) = some 7 ∧ (State.reset.applyRecord 0 (natLe 4 0x0508 ++ natLe 8 0)).isNone = true ∧
    (State.reset.applyRecords [0] 3 (natLe 8 (kf 8 12) ++ natLe 4 0x0508 ++ natLe 8 7)).isSome = true ∧ (State.reset.applyRecords [7] 3 (natLe 8 (kf 8 12) ++ natLe 4 0x0508 ++ natLe 8 7)).isNone = true := by
  decide +kernel
theorem test_cancel : (let t := after (.cancel .svc) (svc (sess .verified 49 [0] (some .svc)) (natLe 4 4)); t.upd.areaA.state = .empty ∧ t.upd.owner = none ∧ (ans t).take 4 = [0x84, 0, 0, 0]) ∧
    ans (after (.cancel .svc) (svc (sess .armed 49 [0] (some (.mailbox 5))) (natLe 4 4))) = ok 4 0xB 0xFFFF ∧
    (let t := after (.cancel (.mailbox 5)) (req (sess .armed 49 [0] (some (.mailbox 5))) 5 0x0F03 (natLe 4 4)); status t 5 = 0 ∧ t.upd.areaA.state = .empty) := by decide +kernel
/-- A secondary that is ARMED with a PAIR image. -/
def pairArmed (role : Nat) : State := { whole payload 1 role with upd := { (whole payload 1 role).upd with areaA := { (whole payload 1 role).upd.areaA with state := .armed } } }
theorem test_go : (let m := natLe 4 5 ++ natLe 4 0 ++ natLe 16 (kf 64 9)
    (let t := after (.go .svc) (svc (pairArmed 2) m); t.upd.actAt = some (9 * secUnit) ∧ ans t = ok 5 0 0xFFFF) ∧ ans (after (.go .svc) (svc (pairArmed 1) m)) = ok 5 0xB 0xFFFF ∧
    ans (after (.go .svc) (svc (pairArmed 2) (natLe 4 5 ++ natLe 4 0 ++ natLe 16 (kf 32 1000000000)))) = ok 5 0x20 0xFFFF) := by decide +kernel
theorem test_pair_go : (let s := { pairArmed 1 with upd := { (pairArmed 1).upd with partnerArmed := true, partnerReady := true }, pair := { (pairArmed 1).pair with present := true }, time := { op.time with state := .locked } }
    (let t := after .pairGoIssue s; t.upd.actAt = some (5 * secUnit + 10000000 * nsUnit) ∧ t.upd.goSent = true ∧ t.c64 (mirReg 8) = 1) ∧
    (let u := { s with upd := { s.upd with actAt := some (6 * secUnit), goOk := some (6 * secUnit - 1000000 * nsUnit) } }; after .pairGoIssue u = u) ∧
    (let u := { s with upd := { s.upd with partnerArmed := false } }; after .pairGoIssue u = u)) := by decide +kernel
theorem test_activation_deadline : (let s (d : Nat) := { sess .armed 49 [0] none with time := { op.time with ltime := 104 * secUnit + d } }
    (let t := after .activationDeadline (s 1); t.upd.areaA.state = .empty ∧ t.upd.expired = 1) ∧ after .activationDeadline (s 0) = s 0) := by decide +kernel
theorem test_upd_status : reply (after (.updStatus 5) (req { sess .receiving 8192 [1] (some (.mailbox 5)) with pw := { still.pw with battRaw := 0 } } 5 0x0F01 [])) 5 =
    [1, 7, 4, 0] ++ natLe 4 0x10000 ++ natLe 4 0 ++ natLe 4 6 ++ List.replicate 24 0 := by decide +kernel
theorem test_upd_lock : (let s := { vault with upd := { vault.upd with lockCount := 5 } }
    let l (c : Nat) := status (after (.updLock 5) (req s 5 0x0F02 (natLe 4 0x301 ++ natLe 4 c ++ pub ++ List.replicate 96 0))) 5
    (l 5, l 6) = (0xB, 0x39) ∧ status (after (.updLock 5) (req s 5 0x0F02 (natLe 4 0x303 ++ natLe 4 6 ++ pub ++ List.replicate 96 0))) 5 = 3) := by decide +kernel
/-- SVC has the address 10.0.0.1. -/
def net : State := setp op [(0x0F07, 0x0A000001)]
def arp : List Byte := List.replicate 6 0xFF ++ mac 9 ++ [8, 6, 0, 1, 8, 0, 6, 4, 0, 1] ++ mac 9 ++ [10, 0, 0, 2] ++ List.replicate 6 0 ++ [10, 0, 0, 1] ++ List.replicate 18 0
/-- SVC receives a frame, and its lookup port takes it. -/
def svcRx (b : List Byte) (s : State) : State := (after (.svcFrameReceive b) s).svcTick
theorem test_svc_arp : (let o := (svcRx arp net).upd.svcOut; o.take 6 = mac 9 ∧ (o.drop 12).take 10 = [8, 6, 0, 1, 8, 0, 6, 4, 0, 2]) ∧
    (svcRx arp net).upd.svcOut.drop 28 = [10, 0, 0, 1] ++ mac 9 ++ [10, 0, 0, 2] ∧ after (.svcFrameReceive arp) (setp net [(0x0F05, 0)]) = setp net [(0x0F05, 0)] := by decide +kernel
/-- A TCP segment from 10.0.0.2 port 1000 to port 13400. -/
def tcp (seq flags : Nat) (d : List Byte) : List Byte := mac 1 ++ mac 9 ++ [8, 0, 0x45, 0] ++ natBe 2 (40 + d.length) ++ [0, 0, 0, 0, 64, 6, 0, 0, 10, 0, 0, 2, 10, 0, 0, 1] ++
  natBe 2 1000 ++ natBe 2 13400 ++ natBe 4 seq ++ natBe 4 0 ++ [0x50, BitVec.ofNat 8 flags] ++ List.replicate 6 0 ++ d
theorem test_svc_connect : (let t := svcRx (tcp 9 2 []) net
    t.upd.svc.map (fun c => (c.peer, c.rxNext, c.routed, c.buffer)) = some (0x0A00000203E8, 10, false, []) ∧ bit t.needMask 2 = true ∧
    (svcRx (tcp 10 4 []) t).upd.svc = none ∧ (svcRx (tcp 10 0x10 []) net).upd.svc = none) := by decide +kernel
theorem test_svc_doip : (let s := { net with upd := { net.upd with svc := some ⟨0x0A00000203E8, 10, 0, [], 0, false, 0, none⟩ } }
    let t := svcRx (tcp 10 0x10 (doip 5 [0x0E, 0x00, 0, 0, 0, 0, 0])) s
    t.upd.svcOut = doip 6 [0x0E, 0x00, 0x10, 0x00, 0x10, 0, 0, 0, 0] ∧ t.upd.svc.map (fun c => (c.routed, c.tester)) = some (true, 0x0E00) ∧
    (let u := svcRx (tcp 25 0x10 (doip 0x8001 ([0x0E, 0x00, 0x10, 0x00] ++ natLe 4 4))) t; u.upd.svcMsg = some (natLe 4 4)) ∧
    (svcRx (tcp 10 0x10 (doip 0x8001 ([0x0E, 0x00, 0x10, 0x00] ++ natLe 4 4))) s).upd.svcMsg = none) := by decide +kernel
theorem test_alive_check : (let s := { net with upd := { net.upd with svc := some ⟨0x0A00000203E8, 10, 0, [], 0, true, 0x0E00, none⟩ } }
    -- a second tester calls: the device asks the first whether it is alive, and takes its answer
    let call := (tcp 9 2 []).set 29 3
    let t := svcRx call s
    t.upd.svcOut = doip 7 [] ∧ t.upd.svc.map (·.alive) = some (some 1000000000) ∧
    (svcRx (tcp 10 0x10 (doip 8 [0x0E, 0x00])) t).upd.svc.map (·.alive) = some none ∧
    (svcRx call (later 399999999 t)).upd.svc.map (·.peer) = some 0x0A00000203E8 ∧ (svcRx call (later 400000000 t)).upd.svc.map (·.peer) = some 0x0A00000303E8) := by
  decide +kernel

/-! 16: the Nernum island. -/

/-- A calibration: K_A, K_B, tolerance 5 %, PERIOD 60 s, CAL_GEN. -/
def cal (ka kb gen : Nat) : List Byte := natLe 32 (ka + kf 32 kb + kf 64 5 + kf 80 60 + kf 232 gen)
def isl (f : Island → Island) : State := { op with isl := f { Island.reset with present := true, osc := 100, useCal := some (cal 8000 4000 1), lastPer := 0 } }
theorem test_pulse_a : (let t := (after (.wheelPulse 4000 false) (isl (fun i => { i with rem := 7500, last1 := some 100, tq := 0 }))).isl
    -- 4,000 periods after the previous pulse: 921,600 · 4,000,000 / (8,000 · 4,000) exceeds the largest speed
    t.cntA = 1 ∧ t.perA = 1 ∧ t.dist = 1 ∧ t.rem = 500 ∧ t.osc = 4100 ∧ t.time = 1000000 * nsUnit ∧ t.last1 = some 4100 ∧ t.last2 = some 100 ∧ t.speed = 0xFFFE ∧
    t.moving = true ∧ t.pend.map (·.kind) = [8] ∧ t.speedMax = 0xFFFE) := by decide +kernel
theorem test_pulse_speed : (let t := (after (.wheelPulse 100000 false) (isl (fun i => { i with last1 := some 100 }))).isl; t.speed = 4608 ∧ t.dist = 0 ∧ t.rem = 1000) ∧
    (let t := (after (.wheelPulse 0 false) (isl id)).isl; t.speed = 57) ∧ (let t := (after (.wheelPulse 1 true) (isl id)).isl; t.cntB = 1 ∧ t.dist = 0 ∧ t.last1 = none ∧ t.speed = 0) ∧
    (let t := (after (.wheelPulse 1 false) (isl (fun i => { i with useCal := none }))).isl; t.cntA = 1 ∧ t.speed = 0xFFFF ∧ t.dist = 0 ∧ t.pend = []) ∧
    after (.wheelPulse 9 false) op = op := by decide +kernel
theorem test_speed_zero : (let s := isl (fun i => { i with last1 := some 100, last2 := some 50, speed := 9, moving := true })
    (let t := (after (.speedZero 8000000) s).isl; t.speed = 0 ∧ t.zeroAt = some 8000100 ∧ t.moving = true) ∧ (after (.speedZero 7999999) s).isl.speed = 9) := by decide +kernel
theorem test_motion_stop : (let s := isl (fun i => { i with zeroAt := some 100, moving := true })
    (let t := (after (.motionStop 40000000) s).isl; t.moving = false ∧ t.pend.map (·.kind) = [9]) ∧ (after (.motionStop 39999999) s).isl.pend = []) := by decide +kernel
theorem test_periodic : (let s (a b : Nat) (f : Bool) := isl (fun i => { i with time := 60 * secUnit - 250 * nsUnit, perA := a, perB := b, failA := f, rem := 77 })
    let p (s : State) := (after (.periodicRecord 1) s).isl
    -- 800 pulses of A are 100 m, 400 pulses of B too: equal; 760 and 400 differ by 5 %, 759 and 400 by more
    (p (s 800 400 false)).pend.map (fun q => (q.kind, q.detail, q.disagree)) = [(1, 77, false)] ∧ (p (s 800 420 false)).pend.map (·.disagree) = [false] ∧ (p (s 800 422 false)).pend.map (·.disagree) = [true] ∧
    (p (s 799 300 false)).pend.map (·.disagree) = [false] ∧ (p (s 800 400 false)).perA = 0 ∧ (p (s 800 400 false)).lastPer = 1 ∧
    (let t := p (s 0 50 false); t.failA = true ∧ t.srcB = true ∧ t.pend.map (·.kind) = [7, 1]) ∧ (p (s 0 49 false)).failA = false ∧ (p (s 49 60 true)).failA = true ∧ (p (s 50 60 true)).failA = false) ∧
    (after (.periodicRecord 0) (isl (fun i => { i with time := 60 * secUnit - 1 }))).isl.pend = [] := by decide +kernel
def trig (k : Fin 10) : PendRec := ⟨k, 5 * secUnit, 1, 0x44332211, 0x6655, 0x0807060504030201, true, true⟩
theorem test_record : (let t := (after (.recordWrite 0) (isl (fun i => { i with pend := [trig 1, trig 7], nextSeq := 2032 + 9, ring := [(9, [1]), (10, [2])], speedMax := 0x7788, speed := 3, cntA := 0xA, cntB := 0xB }))).isl
    t.latest.take 52 = natLe 4 2041 ++ [7, 0x11, 1, 0] ++ natLe 16 (kf 64 5) ++ [0x11, 0x22, 0x33, 0x44, 0x55, 0x66, 0x88, 0x77] ++ natLe 4 0xA ++ natLe 4 0xB ++ natLe 4 1 ++ [1, 2, 3, 4, 5, 6, 7, 8] ∧
    (SMap.get [] t.ring 9).take 4 = natLe 4 2041 ∧ SMap.get [] t.ring 10 = [2] ∧ t.nextSeq = 2042 ∧ t.pend = [trig 1] ∧ t.speedMax = 3) := by decide +kernel
theorem test_reference_link : (let s (st : TimeState) := { isl (fun i => { i with time := 4 * secUnit }) with time := { op.time with state := st } }
    (let t := (after (.referenceLinkMessage 0) (s .locked)).isl; t.time = 5 * secUnit ∧ t.tq = 0 ∧ t.refAt = some 100 ∧ t.pend = []) ∧ (after (.referenceLinkMessage 0) (s .lost)).isl.tq = 2) ∧
    (let s := { isl (fun i => { i with time := 4 * secUnit - 2 * nsUnit }) with time := { op.time with state := .holdover } }
     (after (.referenceLinkMessage 0) s).isl.pend.map (fun p => (p.kind, p.time, p.detail)) = [(3, 4 * secUnit - 2 * nsUnit, 1000000002)]) := by decide +kernel
theorem test_tq_expiry : (let s := isl (fun i => { i with tq := 0, refAt := some 100 })
    (after (.tqExpiry 4000001) s).isl.tq = 1 ∧ (after (.tqExpiry 4000000) s).isl.tq = 0) := by decide +kernel
theorem test_seal : (let t := (after (.sealOpened 0) (isl id)).isl; t.sealLow = true ∧ t.pend.map (fun p => (p.kind, p.sealOpen)) = [(4, true)]) ∧
    (let t := (after (.sealClosed 0) (isl (fun i => { i with sealLow := true }))).isl; t.sealLow = false ∧ t.pend.map (fun p => (p.kind, p.sealOpen)) = [(5, false)]) ∧
    after (.sealClosed 0) (isl id) = isl id := by decide +kernel
theorem test_calibration : (let s (b : List Byte) := isl (fun i => { i with sealLow := true, staged := some b, rem := 9, cal0 := cal 8000 4000 1 ++ natLe 4 (crc32c (cal 8000 4000 1)) })
    (let t := (after (.calibrationPoll 0) (s (cal 9000 4000 2))).isl
     t.useCal = some (cal 9000 4000 2) ∧ t.rem = 0 ∧ t.cal1 = cal 9000 4000 2 ++ natLe 4 (crc32c (cal 9000 4000 2)) ∧ t.pend.map (fun p => (p.kind, p.detail)) = [(6, BitVec.ofNat 64 (8000 + 9000 * 2 ^ 32))]) ∧
    (after (.calibrationPoll 0) (s (cal 9000 4000 1))).isl.calRefused = true ∧ (after (.calibrationPoll 0) (s (cal 999 4000 2))).isl.calRefused = true ∧
    (after (.calibrationPoll 0) (s (cal 200000 1000 2))).isl.calRefused = false ∧
    (let u := { s (cal 9000 4000 2) with isl := { (s (cal 9000 4000 2)).isl with sealLow := false } }; after (.calibrationPoll 0) u = u)) := by decide +kernel
theorem test_island_start : (let c := cal 8000 4000 1
    let s := { op with isl := { Island.reset with cal1 := c ++ natLe 4 (crc32c c), cal0 := [1], nextSeq := 5, cntA := 3, dist := 4, rem := 5 } }
    let t := (after (.islandStart 0) s).isl
    t.present = true ∧ t.useCal = some c ∧ t.tq = 2 ∧ t.speed = 0 ∧ (t.cntA, t.dist, t.rem) = (3, 4, 5) ∧ t.pend.map (fun p => (p.kind, p.detail)) = [(2, 4)]) ∧
    (let t := (after (.islandStart 0) op).isl; t.speed = 0xFFFF ∧ t.pend.map (·.detail) = [0xFFFFFFFF]) ∧ after (.islandStart 3) (isl id) = isl id := by decide +kernel
theorem test_island_stop : (let t := after .islandStop (isl (fun i => { i with pend := [trig 1] })); t.isl.present = false ∧ t.isl.pend = [] ∧ t.islandByte 8 = 0) ∧ (isl id).islandByte 8 = 0x15 := by decide +kernel
/-- Records 2 and 3 stand in the ring. -/
def rec_ (n : Nat) : List Byte := natLe 4 n ++ [1] ++ List.replicate 251 0
def ring : State := { keyed with isl := { (isl id).isl with ring := [(2, rec_ 2), (3, rec_ 3)], nextSeq := 4 } }
def nrn (s : State) (w seq n : Nat) : State := after (.nrnRead 5) (req s 5 0x1001 (natLe 4 w ++ natLe 4 seq ++ natLe 4 n))
theorem test_nrn_read : reply (nrn ring 1 2 1) 5 = rec_ 2 ∧ [status (nrn ring 1 1 1) 5, status (nrn ring 1 2 0) 5, status (nrn ring 1 2 4) 5, status (nrn op 1 2 3) 5] = [0x21, 3, 3, 0xB] ∧
    status (nrn { ring with sec := { ring.sec with locked := true } } 0x101 2 1) 5 = 0x38 ∧ (let t := nrn ring 0x30101 2 1; status t 5 = 0x34 ∧ t.c32 (secReg 8) = 1) := by decide +kernel
theorem test_nrn_two : (reply (nrn ring 1 2 3) 5).length = 512 ∧ (ring.isl.find 2034).isNone = true := by decide +kernel
theorem test_nrn_stage : (let t := after (.nrnStage 5) (req ring 5 0x1001 (natLe 4 2 ++ cal 8000 4000 1)); t.isl.staged = some (cal 8000 4000 1) ∧ status t 5 = 0) ∧
    reply (after (.nrnFetch 5) (req ring 5 0x1001 (natLe 4 3))) 5 = [0, 0, 0, 0] ∧
    reply (after (.nrnFetch 5) (req { ring with isl := { ring.isl with staged := some (cal 1 2 3) } } 5 0x1001 (natLe 4 3))) 5 = [1, 0, 0, 0] ++ cal 1 2 3 := by decide +kernel

/-! 17: supplies, starts, diagnostics. -/

theorem test_first_start : (let t := after (.rstNRelease good) State.reset
    (t.pw.mode, t.pw.cause, t.pw.fwReady, t.pw.bistDone) = (.operating, 0, true, true) ∧ t.pw.bistPass = true ∧ t.pw.coldStarts = 1 ∧ (t.nm.state, t.nm.wakeHold) = (.awake, true) ∧
    t.ls.single = false ∧ t.pair.run = 1 ∧ t.pw.vaonStart = false ∧ t.nm.snapDirty = true) := by decide +kernel
theorem test_first_start_witness : Clean good ∧ Startable State.reset.mainReset 0 false (msCycles 14) good ∧
    (AfterRecords State.reset.mainReset 0 false (msCycles 14) good).upd.active = none ∧ RecordsAgree State.reset := by
  unfold Clean Startable RecordsAgree; decide +kernel
theorem test_reset : (let s := { op with dw := { op.dw with scratch0 := 5 }, nm := { op.nm with latch := 3 }, params := [(0x0508, some 7)], mem := [(0x01000000, 1), (0x02000000, 2)], pw := { op.pw with inh1 := false, vaonStart := false } }
    let t := after .rstNAssert s
    (t.pw.rstLow, t.pw.inh1, t.pw.mode) = (true, true, .startUp) ∧ t.dw.scratch0 = 0 ∧ t.nm.latch = 3 ∧ t.params = [] ∧ t.mem = [(0x02000000, 2)] ∧ after .rstNAssert t = t ∧
    (let u := after (.rstNRelease good) t; u.pw.cause = 1 ∧ u.nm.wakeSrc = 3 ∧ u.nm.latch = 0 ∧ u.pw.mode = .operating)) := by decide +kernel
theorem test_vaon : (let s := { op with pw := { op.pw with fr := { FaultRecord.reset with starts := 4, silent := true } }, sec := { op.sec with tamper := 1, tamperN := 2, locked := true }, mem := [(0x02000000, 2)], nm := { op.nm with snapSeq := 9 } }
    let t := after .vaonLoss s
    (t.pw.mode, t.pw.vaon, t.pw.inh0) = (.off, false, false) ∧ t.pw.fr = FaultRecord.reset ∧ t.nm = Nm.reset ∧ (t.sec.tamper, t.sec.tamperN) = (0, 0) ∧ t.mem = [(0x02000000, 2)] ∧
    after .vaonLoss t = t ∧
    (let u := after (.vaonApplied good) t; (u.pw.mode, u.pw.cause, u.pw.vaon) = (.operating, 0, true) ∧ u.sec.locked = false) ∧
    (after (.vaonApplied { good with tamperActive := 2 }) t).sec.locked = true) := by decide +kernel
theorem test_selftest_fails : (let t := after (.rstNRelease { good with selfTest := some (3, 0x01000010, 0xAA, 0xAB) }) State.reset
    t.pw.mode = .failSilent ∧ t.pw.bistBlock = 3 ∧ t.pw.fwReady = false ∧ t.pw.fr.first.map (fun e => (e.code, e.unit, e.detail)) = some (0x0401, 3, [0x01000010, 0xAA, 0xAB, 0]) ∧ t.pw.fsRun = true) ∧
    (let t := after (.rstNRelease { good with cmpTest := some ⟨1, 5, 0x21, 0⟩ }) State.reset
     t.pw.mode = .failSilent ∧ t.pw.fr.first.map (fun e => (e.code, e.unit, e.detail)) = some (0x0202, 1, [5, 0x21, 0, 0])) ∧
    (let t := after (.rstNRelease { good with imageOk := false }) State.reset; t.pw.fr.first.map (fun e => (e.code, e.detail.take 2)) = some (0x0403, [0, 0])) := by decide +kernel
theorem test_after_silent : (let t := after (.rstNRelease good) (after .rstNAssert { silent with pw := { silent.pw with fsRun := true, vaonStart := false, fr := { FaultRecord.reset with first := some ⟨1, 2, 3, 4, 5, []⟩ } } })
    t.pw.causeFs = true ∧ t.pw.fsRun = false ∧ t.pw.fr.starts = 1 ∧ t.pw.fr.first = some ⟨1, 2, 3, 4, 5, []⟩) := by decide +kernel
/-- In Slack with a valid snapshot of seconds value 7 and PID 0x0508 at 20; WAKE1 woke the device. -/
def snapped : RetSnap := { slack.retained with seq := 6, params := [(0x0508, some 20)], tables := [(0x04100000, 5)], ltime := 7 * secUnit, bytes := 1572864, nmCount := [1, 2, 3, 4, 5, 6] }
def asleep (seq : Nat) : State := { slack with snapshot := some snapped, nm := { op.nm with state := .commit, latch := 2, snapSeq := BitVec.ofNat 32 seq }, pw := { slack.pw with vaonStart := false } }
theorem test_warm_wake : (let t := after (.warmWake good 3) (asleep 6)
    (t.pw.mode, t.pw.cause, t.pw.warm) = (.operating, 2, true) ∧ t.param 0x0508 = 20 ∧ (t.nm.kaRx, t.nm.sleeps, t.nm.badKa) = (1, 4, 6) ∧ t.nm.state = .awake ∧
    t.nm.wakeSrc = 2 ∧ t.pw.warmWakes = 1 ∧ t.time.state = .unset ∧ t.nm.pulses = 0xD ∧ t.nm.snapOk = true) := by decide +kernel
theorem test_warm_wake_cold : (let t := after (.warmWake good 3) (asleep 7); (t.pw.cause, t.pw.warm) = (3, false) ∧ t.param 0x0508 = 10 ∧ t.nm.kaRx = 0) ∧
    after (.warmWake good 3) { asleep 6 with nm := { (asleep 6).nm with latch := 0 } } = { asleep 6 with nm := { (asleep 6).nm with latch := 0 } } ∧ after (.warmWake good 3) op = op := by
  decide +kernel
theorem test_warm_wake_witness : (op.restoreSnap snapped).rd8 0x04100000 = 5 ∧ (asleep 6).snapValid snapped = true ∧ (asleep 7).snapValid snapped = false ∧ (asleep 6).param 0x0C30 = 1 := by decide +kernel
/-- An ARMED image without PAIR; area B was the source. -/
def armed : State :=
  let s := { whole payload 0 0 with time := { op.time with state := .locked } }
  (s.setStage false { s.upd.areaA with state := .armed }).setStage true { Area.reset with state := .source }
/-- It has become COPYING and the device has reset. -/
def copying : State := { ({ armed.setStage false { armed.stage false with state := .copying } with upd.wrote := [] }.resetMain) with snapshot := none, upd.actRun := true }
/-- Power lost while the active record is written: the copy that stands is the old one, and the area is copied again. -/
theorem test_activation_cut : (let u := copying.finishCopy true true (some .activeRecord)
    u.pw.mode = .off ∧ (u.upd.recActive.newer).map (fun x => x.2.seq) = some 0 ∧ (u.upd.recA.newer).map (fun x => x.2.state) = some .copying) := by
  decide +kernel
theorem test_activation : armed.activates armed.stagedArea.header = true ∧ armed.staged = some false ∧
    (let u := { armed with time := { op.time with state := .unset } }; after (.activation good true true) u = u) := by decide +kernel
theorem test_activation_copies : (let t := copying.finishCopy true false none
     t.upd.active = some armed.stagedArea.header ∧ (t.upd.areaA.state, t.upd.areaB.state) = (.source, .previous) ∧ (t.upd.recActive.newer).map (fun x => (x.2.state, x.2.seq)) = some (.source, 1)) := by decide +kernel
theorem test_activation_fails : (let t := after (.activation good false false) armed
    t.pw.mode = .failSilent ∧ t.pw.fr.first.map (fun e => (e.code, e.unit, e.detail)) = some (0x0402, 0, [6]) ∧ t.upd.areaA.state = .copying) := by decide +kernel
theorem test_supply_low : (let t := after (.supplyLow .vio18 1709) op; (t.pw.supplyLow, t.pw.storeOk) = (0, false)) ∧
    (let t := after (.supplyLow .vio18 1710) op; (t.pw.supplyLow, t.pw.storeOk) = (0, true)) ∧ (after (.supplyLow .vcore 699) op).pw.supplyLow = 1 ∧
    (after (.supplyLow .vcore 700) op).pw.supplyLow = 0 ∧ (after (.supplyLow .vaon 2899) op).pw.supplyLow = 16 ∧ after (.supplyLow .vcore 0) slack = slack := by decide +kernel
theorem test_store_ok : (let s (low : BitVec 5) := { op with pw := { op.pw with storeOk := false, supplyLow := low } }
    (after .storeOkSet (s 0)).pw.storeOk = true ∧ (after .storeOkSet (s 2)).pw.storeOk = false) := by decide +kernel
/-- R447: VCORE between its two thresholds holds STORE_OK off, and after it the 1 ms count from its return. -/
theorem test_store_wait : (let s := after (.supplyLow .vcore 710) op
    let t := after (.supplyLow .vcore 720) { s with time := { s.time with cycle := 100 } }
    s.pw.storeOk = false ∧ after .storeOkSet s = s ∧ after .storeOkSet t = t ∧
    (after .storeOkSet { t with time := { t.time with cycle := 800100 } }).pw.storeOk = true) := by decide +kernel
theorem test_supply_fault : (let s := { op with pw := { op.pw with supplyLow := 2, storeOk := false }, sw := { op.sw with link := 9 }, host := { op.host with pcieLink := true, msixOn := 0xF } }
    let t := after (.supplyFault 1) s
    t.pw.mode = .failSilent ∧ t.pw.fr.last.map (fun e => (e.code, e.unit, e.detail)) = some (0x0302, 1, [2]) ∧ t.sw.link = 0 ∧ t.irqnLow = true ∧ after (.supplyFault 0) s = s ∧
    SMap.get 0 t.host.msix 2 = 1 ∧ t.dw.linkChg = 9) := by decide +kernel
theorem test_refclk : (let t := after (.refclkLoss true false) op
    t.pw.mode = .failSilent ∧ t.pw.fr.last.map (fun e => (e.code, e.detail)) = some (0x0301, [1]) ∧ (t.sec.tamper, t.sec.locked) = (4, true)) ∧
    (after (.refclkLoss true true) (setp op [(0x0E01, 3)])).sec.locked = false := by decide +kernel
theorem test_samples : (after (.tempSample 0x8123) op).pw.dieTemp = 0x8123 ∧ (after (.battSample 0xABC) op).pw.battRaw = 0xABC ∧ after (.battSample 1) slack = slack := by decide +kernel
theorem test_jtag : (after .bypass op).jtag = ⟨.bypass, [], false, [false]⟩ ∧ (after .idcode op).jtag.instr = .idcode ∧
    (after (.samplePreload [true]) op).jtag = ⟨.samplePreload, [true], false, [true]⟩ ∧ (after (.extest [true]) op).jtag.instr = .bypass ∧
    (after (.extest [true]) State.reset).jtag = ⟨.extest, [true], true, [true]⟩ := by decide +kernel
/-- R437: two faults in one FCLK cycle, the higher code first in the queue. -/
theorem test_same_cycle : (let s := { silent with pw := { silent.pw with supplyLow := 2, fr := { FaultRecord.reset with first := some ⟨0x0401, 2, 3, 4, silent.now, []⟩, last := some ⟨0x0401, 2, 3, 4, silent.now, []⟩, count := 1, here := true } } }
    let t := after (.supplyFault 1) s; (t.pw.fr.first.map (·.code), t.pw.fr.last.map (·.code), t.pw.fr.count) = (some 0x0302, some 0x0401, 2)) := by decide +kernel
theorem test_fault_clear : (let s := { op with pw := { op.pw with fr := { FaultRecord.reset with starts := 4, silent := true, count := 3, last := some ⟨1, 2, 3, 4, 5, []⟩ } } }
    let t := after (.faultClear 5) (req s 5 0x0040 []); t.pw.fr = FaultRecord.reset ∧ status t 5 = 0) := by decide +kernel
def held (h : Option Activity) (q : List Activity) : State := { setp op [(0x0D03, 0)] with pw := { op.pw with token := ⟨h, q, none⟩ } }
theorem test_memtest : (let t := after (.diagMemtest 5) (req (held none []) 5 0x1101 [0x10, 0, 0, 0])
    t.host.busy = some (5, .memtest 0x10) ∧ t.pw.token.holder = some .memtest ∧ t.host.memtest = some 0x10 ∧
    (let u := after (.regionTestEnd none) t; status u 5 = 0 ∧ u.pw.token.holder = none ∧ u.host.memtest = none ∧ (u.mb 5).state = .done) ∧
    (let u := after (.regionTestEnd (some (0x040FFFFC, 1, 2))) t
     u.pw.mode = .failSilent ∧ u.pw.fr.last.map (fun e => (e.code, e.unit, e.detail)) = some (0x0401, 2, [0x040FFFFC, 1, 2, 3]))) ∧
    (let f (r : Byte) (h : Option Activity) := status (after (.diagMemtest 5) (req (held h []) 5 0x1101 [r, 0, 0, 0])) 5; [f 0x24 none, f 0x10 (some .scrub), f 0x0F none] = [3, 7, 3]) := by decide +kernel
theorem test_scrub_fast : (let t := after (.diagScrubFast 5) (req (held none []) 5 0x1102 [])
    t.pw.token.holder = some .scrub ∧ t.sw.scrubLeft = 393216 ∧ after .scrubSweepEnd t = t ∧
    (let u := after .scrubSweepEnd { t with sw := { t.sw with scrubLeft := 0 } }; status u 5 = 0 ∧ u.pw.token.holder = none)) ∧
    (let t := after (.diagScrubFast 5) (req (held (some .comparator) []) 5 0x1102 []); t.pw.token.queue = [.scrub] ∧ t.host.busy = some (5, .scrubFast)) := by decide +kernel
theorem test_cmp_test : (let t := after (.diagCmpTest 5) (req (held none []) 5 0x1103 [])
    t.pw.token.holder = some .comparator ∧ t.ls.testing = true ∧ t.host.busy = some (5, .cmpTest) ∧
    (let u := after (.comparatorInjectionTest none) t; status u 5 = 0 ∧ u.pw.token.holder = none)) ∧
    (after (.diagCmpTest 5) (req (held (some .otp) []) 5 0x1103 [])).pw.token.queue = [.comparator] := by decide +kernel
theorem test_grant : (let t := after .maintenanceTokenGrant (held none [.staging, .scrub]); t.pw.token.holder = some .staging ∧ t.pw.token.queue = [.scrub]) ∧
    after .maintenanceTokenGrant (held (some .otp) [.scrub]) = held (some .otp) [.scrub] ∧
    (let s := { op with pw := { op.pw with token := ⟨none, [.staging], some 920000000⟩ } }
     let t := after .maintenanceTokenGrant s; t.pw.token.holder = some .comparator ∧ t.pw.token.lastCmp = some 1000000000 ∧ t.pw.token.queue = [.staging] ∧ t.ls.testing = true) ∧
    -- a scrub cannot begin 9.8 ms before the next comparator test, a staging store can
    (let s := { op with pw := { op.pw with token := ⟨none, [.scrub, .staging], some (920000001 + 7840000)⟩ } }
     (after .maintenanceTokenGrant s).pw.token.holder = some .staging) := by decide +kernel

/-! States that meet the hypotheses of a statement together. -/

theorem test_arrive_witness : (let f : RxFrame := ⟨3, .express, frm (mac 9 ++ mac 7), false, 0, 0⟩
    bridge.live = true ∧ bridge.linkUp 3 = true ∧ bridge.receiving f = false ∧ ∀ o, o < 20 → (bridge.mill o).opened = none) ∧
    (let s := after (rx 3 (mac 9 ++ mac 7)) bridge
     ∃ a, s.arr 0 = some a ∧ s.arr a.fid = some a ∧ a.cand = none ∧ a.admitted = false ∧ a.raw.length ≤ s.param 0x0283 ∧ 64 ≤ a.raw.length ∧
       s.admits 3 = true ∧ (setp s [(0x0123, 0), (0x0143, 0)]).admits 3 = false) := by
  refine ⟨by decide +kernel, ?_⟩
  exact ⟨((after (rx 3 (mac 9 ++ mac 7)) bridge).arr 0).get (by decide +kernel), by decide +kernel⟩
theorem test_last_byte_witness : ((after (rx 3 (mac 9 ++ mac 7)) bridge).arr 0).any (fun a => !a.runt && !a.past && !a.code && !a.fcsBad && !a.stored && a.es == 0) = true ∧
    ((after (rx 3 (mac 9 ++ mac 7 ++ [0x81, 0, 0x0F, 0xFF])) bridge).arr 0).any (fun a => let a := { a with buf := a.raw }; !a.parsed.trunc && a.parsed.ctag == some (0, false, 4095)) = true := by
  decide +kernel
theorem test_scrub_witness : half.live = true ∧ half.sw.scrubPos < 393216 ∧ half.sw.scrubDue ≤ half.time.cycle ∧ half.sw.readAt ≤ half.time.cycle ∧
    half.pw.inh0 = true ∧ half.pw.vaon = true ∧ half.upd.ready = none ∧
    (let h := (after (.scrubRead [(0, 0x5A)]) half).sw.scrubHold; h.map (fun x => (x.1, x.2.1, x.2.2.length)) = [(1000000004, 7, 36)]) := by
  decide +kernel
theorem test_period_witness : (let s := bnd 0 (cyc 1 { RouteRun.reset with last := some 499 })
    s.routeRuns 7 = true ∧ (s.run 7).cur = none ∧ s.boundaries (s.route 7) = 501 ∧ s.firstBoundary (s.route 7) ≤ 500 ∧
    ltNs s.time.ltime ≤ routePhase (s.route 7) + 500 * routePeriod (s.route 7) + runWait ∧ s.newBoundary 7 = some 500) ∧
    (let s := cyc 1 { RouteRun.reset with cur := some 500, trying := true, retryAt := 1000000000 }; s.runReady 7 true = some 500) ∧
    (cyc 1 { RouteRun.reset with cur := some 500, startAt := 5005000000 }).runReady 7 false = some 500 := by decide +kernel
theorem test_window_due_witness : op.live = true ∧ op.pw.vaon = true ∧ op.pw.inh0 = true ∧ op.compareDue = true ∧ op.ckptDue = true ∧
    { op with ls := { op.ls with ckptTick := some 1250 } }.ckptDue = false := by decide +kernel
theorem test_heartbeat_due : (let s := { setp (pr 1) [(0x0D02, 2)] with pair := { (pr 1).pair with sentAt := some 999999201 } }
    after .heartbeatSend s = s ∧ (after .heartbeatSend (later 1 s)).pair.sentAt = some 1000000001) := by decide +kernel
theorem test_resync_witness : sync.tokenOf = none ∧ sync.heldBack .resync = false ∧ Activity.resync ∉ sync.pw.token.queue := by decide +kernel
theorem test_calibration_witness : (let s := isl (fun i => { i with sealLow := true, staged := some (cal 9000 4000 2), pollAt := none })
    s.isl.sealLow = true ∧ s.isl.pollDue = true ∧ s.fw = true ∧ s.host.busy = none ∧ s.host.rings = [] ∧ (s.mb 9).state = .idle ∧
    (s.mb 9).stored = none ∧ s.isl.useCal ≠ some (cal 9000 4000 2) ∧ s.isl.calOk (cal 9000 4000 2) = true ∧ s.isl.pend = [] ∧
    { s.isl with pollAt := some s.isl.osc }.pollDue = false) := by decide +kernel
theorem test_warm_clause_witness : (let s := asleep 6
    s.pw.mode = .slack ∧ s.pw.vaon = true ∧ s.pw.rstLow = false ∧ s.nm.latch ≠ 0 ∧ s.snapshot = some snapped ∧ s.param 0x0C30 ≠ 0 ∧ s.snapValid snapped = true) ∧
    (let s := { asleep 6 with snapshot := none }
     let base := { s.mainReset with nm := { s.mainReset.nm with slackMs := 3 }, pw := { s.mainReset.pw with storeOk := false, supplyLow := 0, storeLow := 0 } }
     Startable base 3 false (msCycles 14) good ∧ (AfterRecords base 3 false (msCycles 14) good).upd.active = none ∧
     s.pw.supplyLow = 0 ∧ s.pw.storeLow = 0 ∧ (after (.warmWake good 3) s).pw.cause = 3) ∧ Clean good := by
  refine ⟨by decide +kernel, by unfold Startable; decide +kernel, ?_⟩
  unfold Clean; decide +kernel
/-- The image of `armed` under the header that is signed. -/
def armedSigned : State := armed.setStage false { armed.upd.areaA with header := hdr }
theorem test_activation_witness : (let h := armedSigned.stagedArea.header
    armedSigned.staged = some false ∧ (armedSigned.stage false).state = .armed ∧ (armedSigned.stage true).state ≠ .copying ∧ armedSigned.activates h = true ∧
    RecordsAgree armedSigned ∧ armedSigned.worn false = false ∧ armedSigned.activeWorn = false ∧ Clean good ∧
    imgLen h ≤ 2093056 ∧ sha384 (armedSigned.stagePayload false) = slice h 48 48 ∧
    (armedSigned.slot (hdrBits h 325 320)).state = .committed ∧ (armedSigned.slot (hdrBits h 325 320)).use = 2 ∧
    (sha384 (slice h 96 96)).take 32 = (armedSigned.slot (hdrBits h 325 320)).bytes ∧
    (manifest (armedSigned.stagePayload false)).all (fun e => (kindRecords (compKind e)).isEmpty) = true) := by
  unfold RecordsAgree Clean; decide +kernel
theorem test_activation_signature_witness : (let h := armedSigned.stagedArea.header
    ecdsaVerify (slice h 96 96) (sha384 (h.take 416)) (slice h 416 96) = true) := by decide +kernel
theorem test_grant_witness : (let s := held none [.staging, .scrub]
    s.live = true ∧ s.nm.state ≠ .commit ∧ s.cmpDue = none ∧ s.pw.token.queue.find? (fun x => !s.heldBack x) = some .staging) ∧
    (let s := after (.diagScrubFast 5) (req (held none []) 5 0x1102 [])
     s.live = true ∧ s.pw.token.holder = some .scrub ∧ s.host.busy = some (5, .scrubFast)) ∧
    (let s := after (.diagMemtest 5) (req (held none []) 5 0x1101 [0x10, 0, 0, 0])
     s.pw.token.holder = some .memtest ∧ s.host.memtest = some 0x10 ∧ s.host.busy = some (5, .memtest 0x10)) := by decide +kernel
theorem test_block_store_refused : -- a condition of R397 that has gone meanwhile refuses the block, which is not stored
    (let s := ready true (some .staging); let s := { s with upd := { s.upd with ownerLock := true } }
     let t := after .blockStore s
     s.updRefused ≠ none ∧ status t 5 = 0x32 ∧ t.rd8 0x02200000 = 0 ∧ (t.stage false).map = [1]) := by decide +kernel

/-! States that meet the hypotheses of the clauses about the lookup ports, the bridges, the records and the pair. -/

/-- A key of the gateway lookup port: an LPUB of object `o`. -/
def gwKey (o : Nat) : GwKey := ⟨.lpub 6 o (List.replicate 8 0), 0, [], 1000000000⟩
theorem test_gw_order : -- received messages first, then the two other sources in turn
    (let g : GwPort := { op.scr.gw with first := [gwKey 1], second := [gwKey 2, gwKey 3], third := [gwKey 4], turn := false }
     let pop (g : GwPort) := (g.next.map (fun x => x.2)).getD g
     [g, pop g, pop (pop g), pop (pop (pop g))].map (fun g => g.next.map (fun x => x.1)) = [some (gwKey 1), some (gwKey 2), some (gwKey 4), some (gwKey 3)]) := by
  decide +kernel
theorem test_gw_takes : (let s := { op with scr := { op.scr with gw := { op.scr.gw with first := [gwKey 1] } } }
    s.scr.gw.nextAt ≤ s.time.cycle - 1 ∧ s.gwAccept.scr.gw.nextAt = 1000000003 ∧ s.gwAccept.scr.gw.hand.map (fun l => (l.from_, l.hs)) = [(999999999, 0)] ∧
    -- the next one waits for its four cycles
    (let t := { s.gwAccept with scr := { s.gwAccept.scr with gw := { s.gwAccept.scr.gw with first := [gwKey 2] } } }
     (later 3 t).gwAccept = later 3 t ∧ (later 4 t).gwAccept.scr.gw.first = [])) := by decide +kernel
theorem test_can_ended_witness : (let c := { idle with ended := true, opts := 8, lastTx := some { msg5 1 [] with fdf := true } }
    ((after (.canTxEnd 5 .error (some 300)) (can5 c)).can 5) = { c with ended := false, tdcv := 255 }) := by decide +kernel
theorem test_part_held : (let q := [{ post 0 1 with space := .aperture, off := 0x14 }]
    let s := { withQ q with host := { (withQ q).host with aperPcie := 0xA }, scr := { op.scr with gw := { op.scr.gw with third := List.replicate 64 (gwKey 1) } } }
    s.partHeld .pcie = true ∧ (after (.postedWriteDeliver .pcie) s).host.pcieQ = q ∧
    ({ s with scr := { s.scr with gw := { s.scr.gw with third := List.replicate 63 (gwKey 1) } } }).partHeld .pcie = false) := by decide +kernel
theorem test_read_waits : (let s := { host with host := { host.host with aperPcie := 0xC, aperSpi := 0xC } }
    s.readWaits .pcie .aperture 0x3020 = true ∧ (after (.pcieMemoryRead .bar4 0x3020 1) s).host.reading = some ⟨.aperture, 0x3020, 1, [], 0⟩ ∧
    (let t := after (.read 0x01003020 1) s
     t.host.spiWait = some (0x01003020, 1, 1000000000) ∧ (later 1599 t).spiTick.host.spiWait.isSome = true ∧
     (later 1600 t).spiTick.host.spiOut = [0xE3, 0xFF, 0xFF, 0xFF, 0xFF])) := by decide +kernel
theorem test_table_load : (let t := loaded op 3 (vlanObj 5 0 2 (0x38 + kf 24 1) ++ natLe 16 (0x38 + kf 24 1))
    -- the first entry is written with the command, the second in the next cycle
    t.rd 0x04180050 4 = 0x01000038 ∧ t.rd 0x04180060 4 = 0 ∧ t.host.busy = some (5, .tableLoad) ∧ t.host.table.map (fun l => l.rest.length) = some 1 ∧
    t.tableTick.rd 0x04180060 4 = 0x01000038 ∧ t.tableTick.host.busy = none ∧ status t.tableTick 5 = 0) := by decide +kernel
theorem test_w1c_same_cycle : (let s := op.irq 13
    (s.writeWord 0x03010080 0x2000 0xF).dw.irqW1c = 0x2000 ∧ ((later 1 s).writeWord 0x03010080 0x2000 0xF).dw.irqW1c = 0) := by decide +kernel
theorem test_capture_same_cycle : (let s := after .capture op
    s.snap.at_ = some 1000000000 ∧ after .capture s = s ∧ (after .capture (later 1 s)).snap.cycle = 1000000001) := by decide +kernel
theorem test_start_tag : (let s := (op.setLeaf 3 2 4 { op.leaf 3 2 4 with s := 5 }).setCls 3 2 { op.cls 3 2 with v := 9 }
    s.startTag 3 2 4 = 9 ∧ (s.setLeaf 3 2 4 { op.leaf 3 2 4 with s := 12 }).startTag 3 2 4 = 12) := by decide +kernel
theorem test_retained_write : retainedWord 0x03010030 = true ∧ (op.writeWord 0x03010030 1 0xF).nm.snapDirty = true ∧ retainedWord 0x01000000 = false := by
  decide +kernel

/-! The pair. -/

theorem test_heartbeat_one_way : -- the partner has taken over while this side still hears it
    (let t := after (.heartbeat (hb 1 4 true)) (pr 1)
     t.pair.split = true ∧ t.c32 (mirReg 0x2C) = 1 ∧ (t.mirTable 3).needSync = true ∧ t.pair.role = 1) ∧
    (let s := { pr 1 with pair := { (pr 1).pair with takeover := true } }; (after (.heartbeat (hb 1 4 true)) s).pair.role = 2) := by decide +kernel
theorem test_takeover_waits_for_the_bus :
    (let s := { (setp (pr 2) [(0x0803, 1), (0x0906, 1), (0x0966, 2)]).setCan 3 { Can.reset with mode := 1, pstate := 3 } with pair := { (pr 2).pair with lastRx := 0 } }
     let s := s.setLin 6 { Lin.reset with header := some (hdr6 0x11 .plain 1000000000 false) }
     let t := after .partnerSilence s
     s.canIdle 3 = false ∧ s.linIdle 6 = false ∧ (t.can 3).hold = true ∧ (t.lin 6).initDue = true ∧ (t.lin 6).running = false) := by decide +kernel
theorem test_object_gone : (let s := (pr 2).wrB (goAddr 7) (List.replicate 96 1)
    let t := after (.entryUpdate ⟨5, 7, 0, false⟩ []) s
    t.rdB (goAddr 7 + 4) 92 = List.replicate 92 0 ∧ t.rdB (goAddr 7) 4 = [1, 1, 1, 1]) := by decide +kernel
theorem test_ring_mask : (after (.mailboxTransaction 0x03010040 (some 0x1C1)) (pr 2)).host.rings = [6, 7] := by decide +kernel

/-! The records and update messages. -/

theorem test_worn_witness : (let w (s : State) := { s with upd := { s.upd with areaA := { s.upd.areaA with wear := 99000000 } } }
    (w (sess .receiving 49 [0] (some .svc))).worn false = true ∧
    ans (after (.cancel .svc) (svc (w (sess .receiving 49 [0] (some .svc))) (natLe 4 4))) = ok 4 0xB 0xFFFF ∧
    ans (after (.finish .svc) (svc (w (whole payload 0 0)) (natLe 4 3))) = ok 3 0xB 0xFFFF ∧
    (let t := after .blockStore (w (ready true (some .staging))); status t 5 = 0xB ∧ t.upd.areaA.map = [1] ∧ t.rd8 0x02200000 = 0)) := by decide +kernel
theorem test_record_copies : -- a record write goes to the copy that is not the newer valid one
    (let t := armed.setStage false { armed.stage false with state := .copying }
     armed.upd.recA.target = false ∧ t.upd.recA.target = true ∧ (t.upd.recA.newer).map (fun x => (x.1, x.2.state)) = some (false, .copying) ∧
     -- a master's write corrupts the copy that it hits
     ((t.spoilCopy 0x023FF010).upd.recA.newer).map (fun x => x.2.state) = some .armed) := by decide +kernel
theorem test_partner_finish_witness : (let s := req (whole payload 1 2) 6 0x0F03 (natLe 4 3)
    let s := { s with upd := { s.upd with owner := some (.mailbox 6) } }
    UpdTaken s (.mailbox 6) (natLe 4 3) ∧ s.owns (.mailbox 6) = true ∧ s.stagedArea.state = .receiving ∧ s.nextBlock = 0xFFFF ∧ s.worn false = false) := by
  unfold UpdTaken Taken; decide +kernel
theorem test_lock_spoiled : (let l (s : State) (ks : Nat) := status (after (.updLock 5) (req s 5 0x0F02 (natLe 4 (1 + ks * 256) ++ natLe 4 6 ++ pub ++ List.replicate 96 0))) 5
    (l vault 4, l vault 3) = (0x37, 0x39)) := by decide +kernel
theorem test_refused_length : -- a wrong length restarts the second of an object's holder, and is noted as a refusal of an update command
    (let s := later 5 (req (area 4 [1]) 5 0x11 [0])
     let t := after (.objWrite 5) s; status t 5 = 2 ∧ t.host.area.map (·.last) = some 1000000005) ∧
    (after (.objCommit 5) (req (area 4 [1]) 5 0x12 [0])).host.area = none ∧
    (let t := after (.updStatus 5) (req vault 5 0x0F01 [0]); status t 5 = 2 ∧ t.upd.refusals = 0 ∧ t.upd.last = 2) := by decide +kernel

end Sys2Proof.Tests
end

