-- ==== Sys2Proof/Proofs/RegisterWrites.lean ====
section
/-! SUPPORT. Words that masters write (O40): the byte lanes, words of the direct window, memory, the mark of the snapshot, the
error log of a bridge, and the moderation of MSI-X vector 3. -/

namespace Sys2Proof.Machine

/-! Byte lanes. -/

/-- The mask of four byte enables has the bits of the enabled bytes. -/
theorem testBit_laneMask (be : BitVec 4) {i : Nat} (h : i < 32) : (laneMask be.toNat).testBit i = be.getLsbD (i / 8) := by
  have all : ∀ (b : BitVec 4) (j : Fin 32), (laneMask b.toNat).testBit j = b.getLsbD (j / 8) := by decide +kernel
  exact all be ⟨i, h⟩

/-- A field takes the enabled bytes of a write and keeps the others (R7). -/
theorem testBit_mergeW (old v : Nat) (be : BitVec 4) {i : Nat} (h : i < 32) :
    (mergeW old v be.toNat).testBit i = if be.getLsbD (i / 8) then v.testBit i else old.testBit i := by
  have full : (0xFFFFFFFF : Nat).testBit i = true := by
    rw [show (0xFFFFFFFF : Nat) = 2 ^ 32 - 1 from rfl, Nat.testBit_two_pow_sub_one]; simpa using h
  simp only [mergeW, Nat.testBit_or, Nat.testBit_and, Nat.testBit_xor, testBit_laneMask be h, full]
  cases be.getLsbD (i / 8) <;> simp

/-- A RW field of `n` bits after a write. -/
theorem getLsbD_ofNat_mergeW {n : Nat} (old : BitVec n) (v : Word) (be : BitVec 4) {i : Nat} (hi : i < n) (h : i < 32) :
    (BitVec.ofNat n (mergeW old.toNat v.toNat be.toNat)).getLsbD i = if be.getLsbD (i / 8) then v.getLsbD i else old.getLsbD i := by
  rw [BitVec.getLsbD_ofNat, testBit_mergeW _ _ _ h]
  simp [hi, BitVec.testBit_toNat]

/-- The ones of a write as a mask of `n` bits. -/
theorem getLsbD_ofNat_ones {n : Nat} (v : Word) (be : BitVec 4) {i : Nat} (hi : i < n) (h : i < 32) :
    (BitVec.ofNat n (ones v.toNat be.toNat)).getLsbD i = (be.getLsbD (i / 8) && v.getLsbD i) := by
  rw [BitVec.getLsbD_ofNat, ones, Nat.testBit_and, testBit_laneMask be h]
  simp [hi, BitVec.testBit_toNat, Bool.and_comm]

/-- A W1C field of `n` bits in which the bits `held` stay set. -/
theorem getLsbD_and_not_ones_or {n : Nat} (old held : BitVec n) (v : Word) (be : BitVec 4) {i : Nat} (hi : i < n) (h : i < 32) :
    (old &&& (~~~BitVec.ofNat n (ones v.toNat be.toNat) ||| held)).getLsbD i =
      (old.getLsbD i && (!(be.getLsbD (i / 8) && v.getLsbD i) || held.getLsbD i)) := by
  rw [BitVec.getLsbD_and, BitVec.getLsbD_or, BitVec.getLsbD_not, getLsbD_ofNat_ones v be hi h]
  simp [hi]

/-- A W1C field of `n` bits after a write: the ones of the write clear it. -/
theorem getLsbD_and_not_ones {n : Nat} (old : BitVec n) (v : Word) (be : BitVec 4) {i : Nat} (hi : i < n) (h : i < 32) :
    (old &&& ~~~BitVec.ofNat n (ones v.toNat be.toNat)).getLsbD i = (old.getLsbD i && !(be.getLsbD (i / 8) && v.getLsbD i)) := by
  simpa using getLsbD_and_not_ones_or old 0 v be hi h

/-- The bits of a word that counts under a condition. -/
theorem getLsbD_if_zero {n : Nat} (p : Prop) [Decidable p] (x : BitVec n) (i : Nat) :
    (if p then x else 0).getLsbD i = (decide p && x.getLsbD i) := by
  by_cases h : p <;> simp [h]

/-! Words of the direct window. -/

/-- The state in which the snapshot waits for its rewrite (R329). -/
def State.markSnap (s : State) : State := { s with nm := { s.nm with snapDirty := true } }

/-- A write of a word of the direct window. -/
theorem writeWord_dw (s : State) {o : Nat} (ho : o ≤ 0x17F) (v be : Nat) :
    s.writeWord (0x03010000 + o) v be = (if retainedWord (0x03010000 + o) then s.markSnap else s).writeDw o v be := by
  have hd : (0x03010000 ≤ 0x03010000 + o && 0x03010000 + o ≤ 0x0301017F) = true := by simp; omega
  simp only [State.writeWord, hd, if_true, Nat.add_sub_cancel_left, State.markSnap]

/-- A word of the direct window that a warm wake restores. -/
theorem writeWord_dw_retained (s : State) {o : Nat} (ho : o ≤ 0x17F) (hr : retainedWord (0x03010000 + o) = true) (v be : Nat) :
    s.writeWord (0x03010000 + o) v be = s.markSnap.writeDw o v be := by
  rw [writeWord_dw s ho, if_pos hr]

/-- A word of the direct window that a warm wake does not restore. -/
theorem writeWord_dw_plain (s : State) {o : Nat} (ho : o ≤ 0x17F) (hr : retainedWord (0x03010000 + o) = false) (v be : Nat) :
    s.writeWord (0x03010000 + o) v be = s.writeDw o v be := by
  rw [writeWord_dw s ho, if_neg (Bool.eq_false_iff.1 hr)]

/-- The aperture register of PCIe keeps no reserved bit, and its low bits take the enabled bytes. -/
theorem aperture_mergeW (old v : Word) (be : BitVec 4) :
    (BitVec.ofNat 32 (mergeW old.toNat v.toNat be.toNat) &&& 0x10F) &&& 0xFFFFFEF0 = 0 ∧
    ∀ i, i < 4 → (BitVec.ofNat 32 (mergeW old.toNat v.toNat be.toNat) &&& 0x10F).getLsbD i =
      if be.getLsbD (i / 8) then v.getLsbD i else old.getLsbD i := by
  constructor
  · rw [BitVec.and_assoc]
    exact BitVec.and_zero
  · intro i hi
    have low : ∀ j : Fin 4, (0x10F : Word).getLsbD j = true := by decide
    rw [BitVec.getLsbD_and, getLsbD_ofNat_mergeW old v be (by omega) (by omega), low ⟨i, hi⟩, Bool.and_true]

/-! Where words stand (R22). -/

@[simp] theorem inRegions_nil (a : Nat) : inRegions [] a = false := rfl

@[simp] theorem inRegions_cons (lo hi : Nat) (l : List (Nat × Nat)) (a : Nat) :
    inRegions ((lo, hi) :: l) a = true ↔ (lo ≤ a ∧ a ≤ hi) ∨ inRegions l a = true := by
  simp only [inRegions, List.any_cons, Bool.or_eq_true, Bool.and_eq_true, decide_eq_true_eq]

/-- Where words that a warm wake restores stand: in no RO region and not in SRAM; none rings a mailbox, and of the registers of the bus
channels they are the interrupt enables alone. -/
theorem retainedWord_place {a : Nat} (h : retainedWord a = true) :
    0x03010030 ≤ a ∧ (a ≤ 0x04B5FFFF ∨ 0x0A000000 ≤ a) ∧ a ≤ 0x0A02FFFF ∧
    (0x03010000 ≤ a → a - 0x03010000 ≠ 0x040 ∧ a - 0x03010000 ≠ 0x048 ∧ a - 0x03010000 ≠ 0x04C) ∧
    (0x0A000000 ≤ a → a ≤ 0x0A01FFFF → a % 0x1000 = 0x00C) ∧ (0x0A020000 ≤ a → a % 0x1000 = 0x008) := by
  simp only [retainedWord, inRegions_cons, inRegions_nil, Bool.or_eq_true, Bool.and_eq_true, decide_eq_true_eq, beq_iff_eq, Bool.false_eq_true,
    or_false] at h
  omega

/-- A region marked RO is a region that is listed, holds nothing that a warm wake restores, and lies outside the direct window. -/
theorem ro_apart {a : Nat} (h : inRegions roRegions a = true) :
    retainedWord a = false ∧ ¬ (0x03010000 ≤ a ∧ a ≤ 0x0301017F) ∧ inRegions regions a = true := by
  simp only [roRegions, inRegions_cons, inRegions_nil, Bool.false_eq_true, or_false] at h
  refine ⟨Bool.eq_false_iff.2 fun hr => ?_, by omega, ?_⟩
  · obtain ⟨low, gap, high, -⟩ := retainedWord_place hr
    omega
  · simp only [regions, inRegions_cons]
    omega

/-- A write into a region marked RO changes nothing. -/
theorem writeWord_ro (s : State) {a : Nat} (h : inRegions roRegions a = true) (v be : Nat) : s.writeWord a v be = s := by
  obtain ⟨hr, hd, -⟩ := ro_apart h
  have hd' : ¬ ((0x03010000 ≤ a && a ≤ 0x0301017F) = true) := by simpa using hd
  simp only [State.writeWord, hr, Bool.false_eq_true, if_false, if_neg hd', h, if_true]

/-- Outside fail-silent a write into a region marked RO fails with cause 2. -/
theorem accessCause_ro {s : State} (hm : s.pw.mode ≠ .failSilent) {a : Nat} (h : inRegions roRegions a = true) : s.accessCause a true = 2 := by
  obtain ⟨-, -, hg⟩ := ro_apart h
  simp [State.accessCause, hm, hg, h]

/-- The cause of a failed access fits the four bits that the error log has for it. -/
theorem accessCause_lt (s : State) (a : Nat) (w : Bool) : s.accessCause a w < 16 := by
  unfold State.accessCause
  split
  · decide
  split
  · decide
  split <;> decide

/-! Words of memory. -/

/-- A repetition keeps whatever each pass keeps. -/
theorem foldN_keeps {P : State → Prop} {n : Nat} {f : State → Nat → State} {s : State} (h0 : P s) (hf : ∀ t i, P t → P (f t i)) :
    P (foldN n f s) := by
  induction n with
  | zero => exact h0
  | succ n ih => rw [foldN, List.range_succ, List.foldl_append]; exact hf _ _ ih

/-- The first `n` byte lanes of a word of plain memory are written. -/
def State.writeLanes (s : State) (a v be n : Nat) : State :=
  foldN n (fun s i => if bit be i then s.wr (a + i) 1 (v / 2 ^ (8 * i)) else s) s

theorem writeLanes_succ (s : State) (a v be n : Nat) :
    s.writeLanes a v be (n + 1) =
      if bit be n then (s.writeLanes a v be n).wr (a + n) 1 (v / 2 ^ (8 * n)) else s.writeLanes a v be n := by
  simp only [State.writeLanes, foldN, List.range_succ, List.foldl_append, List.foldl_cons, List.foldl_nil]

/-- A write of a word of plain memory writes its four byte lanes. -/
theorem writeMem_plain (s : State) {a : Nat} (h : wordAccess a = none) (v be : Nat) : s.writeMem a v be = s.writeLanes a v be 4 := by
  simp only [State.writeMem, h, State.writeLanes]

/-- Byte lanes change memory and nothing else. -/
theorem writeLanes_only_mem (s : State) (a v be n : Nat) : ∃ m, s.writeLanes a v be n = { s with mem := m } := by
  refine foldN_keeps (P := fun t => ∃ m, t = { s with mem := m }) ⟨s.mem, rfl⟩ ?_
  rintro _ i ⟨m, rfl⟩
  split
  · exact ⟨_, rfl⟩
  · exact ⟨m, rfl⟩

/-- A write of a word of memory changes memory and nothing else. -/
theorem writeMem_only_mem (s : State) (a v be : Nat) : ∃ m, s.writeMem a v be = { s with mem := m } := by
  cases h : wordAccess a with
  | none => rw [writeMem_plain s h]; exact writeLanes_only_mem s a v be 4
  | some x => simp only [State.writeMem, h]; exact ⟨_, rfl⟩

/-- One byte is written. -/
theorem wr_one_rd8 (s : State) (a v b : Nat) : (s.wr a 1 v).rd8 b = if b = a then BitVec.ofNat 8 v else s.rd8 b := by
  split
  · next h => subst h; exact memGet_memSet_same _ _ _
  · next h => exact memGet_memSet_other _ _ h

/-- What a byte reads after some lanes are written. -/
theorem writeLanes_rd8 (s : State) (a v be n b : Nat) :
    (s.writeLanes a v be n).rd8 b =
      if a ≤ b ∧ b < a + n ∧ bit be (b - a) = true then BitVec.ofNat 8 (v / 2 ^ (8 * (b - a))) else s.rd8 b := by
  induction n with
  | zero => rw [if_neg (by omega)]; rfl
  | succ n ih =>
    rw [writeLanes_succ]
    by_cases hb : b = a + n
    · subst hb
      split
      · next hn => rw [wr_one_rd8, if_pos rfl]; simp [hn]
      · next hn => rw [ih]; simp [hn]
    · have same : (b < a + (n + 1)) = (b < a + n) := propext (by omega)
      simp only [same]
      rw [← ih]
      split
      · rw [wr_one_rd8, if_neg hb]
      · rfl

/-- A lane of a word as a byte. -/
theorem ofNat_lane (v : Word) (i : Nat) : BitVec.ofNat 8 (v.toNat / 2 ^ (8 * i)) = (v >>> (8 * i)).setWidth 8 := by
  apply BitVec.eq_of_toNat_eq
  simp [Nat.shiftRight_eq_div_pow]

/-- SRAM stands in none of the tables whose words have fields of their own, and a write into it has no further effect. -/
theorem writeWord_sram (s : State) {a : Nat} (h1 : 0x01000000 ≤ a) (h2 : a ≤ 0x0141FFFF) (v be : Nat) :
    s.writeWord a v be = s.writeLanes a v be 4 := by
  have out {base stride count : Nat} (hb : 0x0141FFFF < base) : blockOf base stride count a = none := if_neg (by simp; omega)
  have plain : wordAccess a = none := by
    have hc : ¬ ((0x0A000000 ≤ a && a ≤ 0x0A01FFFF && 0x400 ≤ a % 0x1000 && a % 0x1000 < 0x600) = true) := by simp; omega
    unfold wordAccess
    rw [out (by decide), out (by decide), out (by decide)]
    exact if_neg hc
  have kept : retainedWord a = false := Bool.eq_false_iff.2 fun h => by
    obtain ⟨low, -⟩ := retainedWord_place h
    omega
  have table (t : State) : s.afterTable t a v be = t := by
    unfold State.afterTable
    rw [out (by decide), out (by decide), out (by decide), out (by decide)]
  have copy (t : State) : t.spoilCopy a = t := if_neg (by simp; omega)
  have ro : inRegions roRegions a = false := Bool.eq_false_iff.2 fun h => by
    simp only [roRegions, inRegions_cons, inRegions_nil, Bool.false_eq_true, or_false] at h
    omega
  have mem : inRegions memRanges a = true := (inRegions_cons _ _ _ _).2 (.inl ⟨h1, h2⟩)
  unfold State.writeWord
  simp only [kept, ro, mem, Bool.false_eq_true, if_false, if_true, Bool.and_eq_true, decide_eq_true_eq]
  rw [if_neg (by omega), if_neg (by omega), if_neg (by omega), if_neg (by omega), if_neg (by omega), if_neg (by omega), if_neg (by omega)]
  rw [table, copy, writeMem_plain s plain]

/-! The mark of the snapshot (R329). -/

@[simp] theorem capture_nm (s : State) (c : BitVec 2) : (s.capture c).nm = s.nm := by
  unfold State.capture
  split
  · rfl
  · exact State.irq_nm _ _

@[simp] theorem writeSnapCtrl_nm (s : State) (v be : Nat) : (s.writeSnapCtrl v be).nm = s.nm := by
  have trigger (t : State) : (if bit (ones v be) 0 then t.capture 0 else t).nm = t.nm := by
    split
    · exact capture_nm _ _
    · rfl
  refine (trigger _).trans ?_
  split <;> rfl

@[simp] theorem popPwe_nm (s : State) : s.popPwe.nm = s.nm := by
  unfold State.popPwe
  split <;> rfl

/-- Of the direct window only the mailbox registers can do what clears the mark. -/
theorem writeDw_snapDirty (s : State) {o : Nat} (h : o ≠ 0x040 ∧ o ≠ 0x048 ∧ o ≠ 0x04C) (v be : Nat) :
    (s.writeDw o v be).nm.snapDirty = s.nm.snapDirty := by
  obtain ⟨ring, done, abort⟩ := h
  unfold State.writeDw
  dsimp only
  split
  case h_3 | h_4 | h_5 => contradiction
  -- DW_PWE_POP
  case h_8 =>
    split
    · rfl
    · rw [popPwe_nm]
  -- DW_SNAP_CTRL
  case h_25 => rw [writeSnapCtrl_nm]
  all_goals rfl

/-! What follows a write into table memory leaves network management alone. -/

@[simp] theorem entryUpdate_nm (s : State) (table index version : Nat) (valid : Bool) (body : List Byte) :
    (s.entryUpdate table index version valid body).nm = s.nm := by
  unfold State.entryUpdate
  split
  · rfl
  dsimp only
  split
  · exact State.add64_nm _ _ _
  split
  · exact State.bump_nm _ _
  · rfl

@[simp] theorem keptUpdate_nm (s : State) (table index : Nat) (valid : Bool) (body : List Byte) :
    (s.keptUpdate table index valid body).nm = s.nm := by
  unfold State.keptUpdate
  split
  · rfl
  · exact entryUpdate_nm _ _ _ _ _ _

@[simp] theorem mirrorConn_nm (s : State) (e : Nat) (old : List Byte) : (s.mirrorConn e old).nm = s.nm := by
  unfold State.mirrorConn
  dsimp only
  split
  · rfl
  split
  · rfl
  · exact entryUpdate_nm _ _ _ _ _ _

@[simp] theorem lpub_nm (m i : Nat) (s : State) : (lpub m i s).nm = s.nm := by
  unfold lpub
  split <;> rfl

@[simp] theorem afterTable_nm (s t : State) (a v be : Nat) : (s.afterTable t a v be).nm = t.nm := by
  unfold State.afterTable
  split
  · split
    · exact lpub_nm _ _ _
    · rfl
  · exact keptUpdate_nm _ _ _ _ _
  · exact entryUpdate_nm _ _ _ _ _ _
  · exact mirrorConn_nm _ _ _
  · rfl

@[simp] theorem spoilCopy_nm (s : State) (a : Nat) : (s.spoilCopy a).nm = s.nm := by
  unfold State.spoilCopy
  split <;> rfl

@[simp] theorem writeMem_nm (s : State) (a v be : Nat) : (s.writeMem a v be).nm = s.nm := by
  obtain ⟨m, hm⟩ := writeMem_only_mem s a v be
  rw [hm]

/-- A write of what a warm wake restores waits for the rewrite of the snapshot (R329). -/
theorem writeWord_marks_snapshot (s : State) {a : Nat} (h : retainedWord a = true) (v be : Nat) :
    (s.writeWord a v be).nm.snapDirty = true := by
  obtain ⟨-, -, high, dwPlace, canPlace, linPlace⟩ := retainedWord_place h
  unfold State.writeWord
  rw [if_pos h]
  generalize hu : ({ s with nm := { s.nm with snapDirty := true } } : State) = u
  have marked : u.nm.snapDirty = true := by rw [← hu]
  clear hu
  simp only [Bool.and_eq_true, decide_eq_true_eq]
  split
  · next hd => rw [writeDw_snapDirty u (dwPlace hd.1)]; exact marked
  split
  · exact marked
  split
  · next hc =>
    split
    · rw [writeMem_nm]; exact marked
    · rw [canPlace hc.1 hc.2]; exact marked
  split
  · next hl => rw [linPlace hl.1]; exact marked
  rw [if_neg (by omega), if_neg (by omega), if_neg (by omega)]
  split
  · split
    · rw [writeMem_nm]; exact marked
    · rw [spoilCopy_nm, afterTable_nm, writeMem_nm]; exact marked
  · split
    · split <;> exact marked
    · exact marked

/-! MSI-X vector 3 and the error log of a bridge. -/

/-- What an edge of DW_IRQ can do: nothing, mark a message as due, or send it. -/
theorem msixEdges_cases (s t : State) : msixEdges s t = t.host ∨ msixEdges s t = { t.host with msix3Due := true } ∨
    msixEdges s t = { t.host.send 3 with lastMsix3 := some t.now } := by
  unfold msixEdges
  dsimp only
  split
  · exact .inl rfl
  · exact .inr ((Decidable.em _).imp (fun h => if_pos h) (fun h => if_neg h))

/-- The messages of a command leave the error log of the bridges alone. -/
theorem settle_pwe (s t : State) : (settle s t).host.pwe = t.host.pwe ∧ (settle s t).host.pweLost = t.host.pweLost := by
  change (msixEdges s t).pwe = _ ∧ (msixEdges s t).pweLost = _
  obtain h | h | h := msixEdges_cases s t <;> rw [h]
  · exact ⟨rfl, rfl⟩
  · exact ⟨rfl, rfl⟩
  · exact ⟨HostIf.send_pwe _ _, HostIf.send_pweLost _ _⟩

/-- No bit of DW_IRQ & DW_IRQ_EN rises in a number that stays as it is. -/
theorem no_rising_bit (x : Nat) : x &&& (0xFFFE ^^^ (x &&& 0xFFFE)) = 0 := by
  apply Nat.eq_of_testBit_eq
  intro i
  simp only [Nat.testBit_and, Nat.testBit_xor, Nat.zero_testBit]
  cases x.testBit i <;> cases (0xFFFE : Nat).testBit i <;> rfl

/-- A command that leaves the sources of DW_IRQ as they were sends no message for an edge. -/
theorem msixEdges_same {s t : State} (h : t.dwIrq &&& t.dw.irqEn.toNat = s.dwIrq &&& s.dw.irqEn.toNat) : msixEdges s t = t.host := by
  unfold msixEdges
  simp only [h]
  rw [if_pos]
  simp only [no_rising_bit, decide_true, Bool.true_or]

/-- A change of the host interface alone. -/
theorem settle_host_only (s : State) (h : HostIf) : settle s { s with host := h } = { s with host := h } := by
  have e : msixEdges s { s with host := h } = h := msixEdges_same rfl
  unfold settle
  rw [e]

/-- A bit that is set in the latched word of DW_IRQ reads 1 there. -/
theorem irq_latched (s : State) {i : Nat} (h : i < 16) : (s.irq i).dw.irqW1c.getLsbD i = true := by
  change (s.dw.irqW1c ||| BitVec.ofNat 16 (2 ^ i)).getLsbD i = true
  rw [BitVec.getLsbD_or, BitVec.getLsbD_ofNat, Nat.testBit_two_pow_self]
  simp [h]

/-- A bridge that logs a failed access has it logged, with its cause (R274). -/
theorem logged_logPwe (s : State) (b : Bridge) (a : Nat) {c : Nat} (hc : c < 16) (split : Bool) :
    Logged s (settle s (s.logPwe b a c split)) b c := by
  unfold Logged
  rw [(settle_pwe _ _).1, (settle_pwe _ _).2, settle_dw, settle_mem]
  have sent (b : Bool) : (if b then s.host.send 1 else s.host).pwe = s.host.pwe ∧
      (if b then s.host.send 1 else s.host).pweLost = s.host.pweLost := by
    cases b
    · exact ⟨rfl, rfl⟩
    · exact ⟨HostIf.send_pwe _ _, HostIf.send_pweLost _ _⟩
  unfold State.logPwe
  by_cases full : 32 ≤ s.host.pwe.length
  · rw [if_pos full]
    exact ⟨fun h => absurd full (by omega), fun _ => ⟨rfl, rfl⟩, rfl⟩
  · rw [if_neg full]
    refine ⟨fun _ => ⟨_, congrArg (· ++ [_]) (sent _).1, ?_, rfl, rfl, (sent _).2, irq_latched _ (by decide)⟩, fun h => absurd h full, rfl⟩
    simpa using Nat.mod_eq_of_lt hc

/-! The commands. -/

/-- A running device has its bridges up. -/
theorem bridgeUp_of_live {s : State} (h : s.live = true) : s.bridgeUp = true := by
  simp only [State.live, Bool.and_eq_true] at h
  simp only [State.bridgeUp, h, Bool.true_or, Bool.and_true]

/-- A served write that sets no reserved bit takes effect. -/
theorem exec_registerWrite_served {s : State} (hl : s.live = true) (m : Master) (a v : Word) (be : BitVec 4)
    (hc : s.accessCause a.toNat true = 0) (hr : setsReserved a.toNat v.toNat be.toNat = false) :
    exec (.registerWrite m a v be) s = .next (settle s (s.writeWord a.toNat v.toNat be.toNat)) := by
  change execRegisterWrite m a v be s = _
  simp only [execRegisterWrite, registerWrite, hl, hc, hr, Bool.and_false, Bool.false_eq_true, if_false, if_true, done_eq]

/-- A served write that sets a reserved bit stops the run (R6). -/
theorem exec_registerWrite_reserved {s : State} (hl : s.live = true) (m : Master) (a v : Word) (be : BitVec 4)
    (hc : s.accessCause a.toNat true = 0) (hr : setsReserved a.toNat v.toNat be.toNat = true) :
    exec (.registerWrite m a v be) s = .fault .reservedOne := by
  change execRegisterWrite m a v be s = _
  simp only [execRegisterWrite, hl, hc, hr, decide_true, Bool.and_self, if_true]

/-- A write that is not served does not stop the run. -/
theorem exec_registerWrite_error {s : State} (m : Master) (a v : Word) (be : BitVec 4) (hc : s.accessCause a.toNat true ≠ 0) :
    exec (.registerWrite m a v be) s = .next (settle s (registerWrite m a.toNat v.toNat be.toNat s)) := by
  change execRegisterWrite m a v be s = _
  simp only [execRegisterWrite, hc, decide_false, Bool.and_false, Bool.false_and, Bool.false_eq_true, if_false, done_eq]

/-- The master that a bridge is. -/
def masterOf : Bridge → Master
  | .pcie => .pcie
  | .spi => .spi

/-- A bridge logs the write that is not served (R272, R274). -/
theorem exec_registerWrite_logged {s : State} (hl : s.live = true) (b : Bridge) (a v : Word) (be : BitVec 4)
    (hc : s.accessCause a.toNat true ≠ 0) :
    ∃ t, exec (.registerWrite (masterOf b) a v be) s = .next t ∧ Logged s t b (s.accessCause a.toNat true) := by
  refine ⟨_, exec_registerWrite_error _ a v be hc, ?_⟩
  have logs : registerWrite (masterOf b) a.toNat v.toNat be.toNat s = s.logPwe b a.toNat (s.accessCause a.toNat true) false := by
    cases b <;> simp only [masterOf, registerWrite, if_neg hc, bridgeUp_of_live hl, Bool.not_true, Bool.false_eq_true, if_false]
  rw [logs]
  exact logged_logPwe s b _ (accessCause_lt _ _ _) _

/-- No other master leaves a trace of a write that is not served. -/
theorem registerWrite_error_other {m : Master} (hp : m ≠ .pcie) (hs : m ≠ .spi) {s : State} {a : Nat} (hc : s.accessCause a true ≠ 0)
    (v be : Nat) : registerWrite m a v be s = s := by
  cases m with
  | pcie => exact absurd rfl hp
  | spi => exact absurd rfl hs
  | _ => simp only [registerWrite, if_neg hc, ite_self]

/-- The bits of DW_IRQ that DW_IRQ_FORCE can set are those that are latched (R311, R313). -/
theorem getLsbD_forced (v : Word) {i : Nat} (h : i < 16) :
    (BitVec.ofNat 16 (v.toNat &&& 0x3701)).getLsbD i = (v.getLsbD i && decide (i ∈ [0, 8, 9, 10, 12, 13])) := by
  have latched : ∀ j : Fin 16, (0x3701 : Nat).testBit j = decide (j.val ∈ [0, 8, 9, 10, 12, 13]) := by decide
  rw [BitVec.getLsbD_ofNat, Nat.testBit_and, latched ⟨i, h⟩, BitVec.testBit_toNat]
  simp [h]

/-- DW_IRQ_FORCE has bits 31:16 reserved. -/
theorem setsReserved_force (v : Word) : setsReserved 0x03010088 v.toNat 0xF = true ↔ v &&& 0xFFFF0000 ≠ 0 := by
  have hb : reservedBits 0x03010088 = 0xFFFF0000 := by decide
  have hm : laneMask 0xF = 0xFFFFFFFF := by decide
  rw [setsReserved, hb, hm, bne_iff_ne, Nat.and_comm 0xFFFF0000, Nat.and_assoc, Ne, Ne, ← BitVec.toNat_inj]
  exact Iff.rfl

/-- DW_IRQ_FORCE of a reserved bit stops the run (R6). -/
theorem exec_dwIrqForce_reserved {s : State} (hl : s.live = true) {v : Word} (h : v &&& 0xFFFF0000 ≠ 0) :
    exec (.dwIrqForce v) s = .fault .reservedOne := by
  change execDwIrqForce v s = _
  simp only [execDwIrqForce, hl, (setsReserved_force v).2 h, Bool.and_self, if_true]

/-- DW_IRQ_FORCE sets the latched bits among those written (R311). -/
theorem exec_dwIrqForce {s : State} (hl : s.live = true) {v : Word} (h : v &&& 0xFFFF0000 = 0) :
    exec (.dwIrqForce v) s = .next (settle s (s.setIrq (BitVec.ofNat 16 (v.toNat &&& 0x3701)))) := by
  have hr : setsReserved 0x03010088 v.toNat 0xF = false := by
    rw [← Bool.not_eq_true, setsReserved_force]
    exact not_not_intro h
  change execDwIrqForce v s = _
  simp only [execDwIrqForce, hl, hr, Bool.and_false, Bool.false_eq_true, if_false, if_true, done_eq, State.forceIrq]

/-- The host interface after the message of vector 3 that ends an interval (R313). -/
def State.msix3Sent (s : State) : HostIf := { s.host.send 3 with lastMsix3 := some s.now, msix3Due := false }

/-- An interval with edges that has expired ends with one message of vector 3. -/
theorem exec_irqModerationExpiry_due {s : State} {t0 : Nat} (hl : s.live = true) (h0 : s.host.lastMsix3 = some t0) (hd : s.host.msix3Due = true)
    (hp : s.host.pcieLink = true) (h : t0 + usCycles s.dw.irqLat.toNat ≤ s.now) :
    exec .irqModerationExpiry s = .next { s with host := s.msix3Sent } := by
  rw [← settle_host_only s s.msix3Sent]
  change execIrqModerationExpiry s = _
  simp only [execIrqModerationExpiry, irqModerationExpiry, h0, hl, hd, hp, h, decide_true, Bool.and_self, if_true, done_eq,
    State.msix3Sent]

/-- An interval that has not expired goes on. -/
theorem exec_irqModerationExpiry_early {s : State} {t0 : Nat} (h0 : s.host.lastMsix3 = some t0) (h : s.now < t0 + usCycles s.dw.irqLat.toNat) :
    exec .irqModerationExpiry s = .next (settle s s) := by
  change execIrqModerationExpiry s = _
  simp only [execIrqModerationExpiry, irqModerationExpiry, h0, ge_iff_le, decide_eq_false (Nat.not_le.2 h), Bool.and_false, Bool.false_eq_true,
    if_false, done_eq]

/-- The vector that is enabled and unmasked is sent once more while the link is up. -/
theorem send_counts {h : HostIf} {v : Nat} (hp : h.pcieLink = true) (hv : h.msixOn.getLsbD v = true) :
    SMap.get 0 (h.send v).msix v = SMap.get 0 h.msix v + 1 := by
  simp only [HostIf.send, hp, hv, Bool.and_self, if_true, SMap.get_set_same]

/-- Settles O40: what each access code makes of a write, by the byte lanes of its word, one lemma for each place that the word may stand in. -/
theorem registerWrites : Obligations.RegisterWrites := by
  unfold Obligations.RegisterWrites
  refine ⟨?_, ?_, ?_, fun s a v be h => writeWord_marks_snapshot s h v be, ?_, ?_⟩
  · intro s m a v be hl x
    refine ⟨exec_registerWrite_served hl m a v be, exec_registerWrite_reserved hl m a v be, fun hc hp hs => ?_, ?_, ?_⟩
    · rw [exec_registerWrite_error m a v be hc, registerWrite_error_other hp hs hc]
    · rintro hc rfl
      exact exec_registerWrite_logged hl .spi a v be hc
    · rintro hc rfl
      exact exec_registerWrite_logged hl .pcie a v be hc
  · intro s v be lane at_ u
    refine ⟨?_, ?_, ?_, ?_, ?_, ?_, ?_, ?_, ?_, ?_⟩
    · exact ⟨_, writeWord_dw_retained s (by decide) (by decide) _ _, fun i hi => getLsbD_ofNat_mergeW _ v be hi hi⟩
    · exact ⟨_, writeWord_dw_retained s (by decide) (by decide) _ _, fun i hi => getLsbD_ofNat_mergeW _ v be hi (by omega)⟩
    · refine ⟨_, writeWord_dw_plain s (by decide) (by decide) _ _, fun i hi => ?_⟩
      rw [getLsbD_and_not_ones_or _ _ v be hi (by omega), getLsbD_if_zero]
      rfl
    · exact ⟨_, writeWord_dw_plain s (by decide) (by decide) _ _, fun i hi => getLsbD_and_not_ones _ v be hi (by omega)⟩
    · exact ⟨_, writeWord_dw_retained s (by decide) (by decide) _ _, aperture_mergeW _ v be⟩
    · exact writeWord_dw_plain s (by decide) (by decide) _ _
    · exact writeWord_dw_plain s (by decide) (by decide) _ _
    · exact writeWord_dw_plain s (by decide) (by decide) _ _
    · exact writeWord_dw_plain s (by decide) (by decide) _ _
    · intro a ha
      have hro : inRegions roRegions a = true := by simp only [roRegions, inRegions_cons]; omega
      exact ⟨writeWord_ro s hro _ _, fun hm => accessCause_ro hm hro⟩
  · intro s a v be h1 h2 t
    have ht : t = s.writeLanes a v.toNat be.toNat 4 := writeWord_sram s h1 (by omega) _ _
    obtain ⟨m, hm⟩ := writeLanes_only_mem s a v.toNat be.toNat 4
    refine ⟨fun i hi => ?_, fun b hb => ?_, ?_, ?_, ?_, ?_, ?_⟩
    · rw [ht, writeLanes_rd8, Nat.add_sub_cancel_left, ofNat_lane]
      simp [hi, bit, BitVec.testBit_toNat]
    · rw [ht, writeLanes_rd8, if_neg (by omega)]
    all_goals rw [ht, hm]
  · intro s v hl
    exact ⟨exec_dwIrqForce_reserved hl, fun h => ⟨_, exec_dwIrqForce hl h, rfl, fun i hi => by
      rw [← getLsbD_forced v hi]; exact BitVec.getLsbD_or⟩⟩
  · intro s t0 hl h0 hd hp hv due
    have hdue : due = t0 + usCycles s.dw.irqLat.toNat := by simp only [due, usCycles, Nat.mul_comm]
    refine ⟨fun h => ⟨_, exec_irqModerationExpiry_due hl h0 hd hp (hdue ▸ h), send_counts hp hv, rfl, rfl, rfl, rfl⟩, fun h => ?_⟩
    exact exec_irqModerationExpiry_early h0 (hdue ▸ h)

end Sys2Proof.Machine
end

