-- ==== Sys2Proof/Proofs/CanonicalRules.lean ====
section
/-! SUPPORT. The canonical form of memory (O4): what branches, folds and the writes of memory do to it. -/

namespace Sys2Proof.Machine

/-! Branches, folds and pairs. -/

@[simp] theorem ite_mem {c : Prop} [Decidable c] {s t : State} : (if c then s else t).mem = if c then s.mem else t.mem := apply_ite ..

@[simp] theorem ite_snd {β : Type} {c : Prop} [Decidable c] {s t : β × State} : (if c then s else t).2 = if c then s.2 else t.2 := apply_ite ..

@[simp] theorem wf_ite {c : Prop} [Decidable c] {m n : SMap Byte} :
    Memory.wf (if c then m else n) = if c then Memory.wf m else Memory.wf n := apply_ite ..

theorem wf_mem_ite {c : Prop} [Decidable c] {s t : State} (hs : Memory.wf s.mem = true) (ht : Memory.wf t.mem = true) :
    Memory.wf (if c then s else t).mem = true := by
  split
  · exact hs
  · exact ht

/-- The state that a pair carries is the one that it was split into. -/
theorem snd_mem_of_eq {β : Type} {p : β × State} {b : β} {t : State} (h : p = (b, t)) : t.mem = p.2.mem := by rw [h]

@[simp] theorem foldl_mem {α : Type} {f : State → α → State} (hf : ∀ t x, (f t x).mem = t.mem) {s : State} (l : List α) :
    (l.foldl f s).mem = s.mem := by
  induction l generalizing s with
  | nil => rfl
  | cons x l ih => exact ih.trans (hf s x)

@[simp] theorem foldN_mem {f : State → Nat → State} (hf : ∀ t x, (f t x).mem = t.mem) {s : State} (n : Nat) :
    (foldN n f s).mem = s.mem := foldl_mem hf _

@[simp] theorem foldl_wf {α : Type} {f : State → α → State} (hf : ∀ t x, Memory.wf t.mem = true → Memory.wf (f t x).mem = true)
    {s : State} (h : Memory.wf s.mem = true) (l : List α) : Memory.wf (l.foldl f s).mem = true := by
  induction l generalizing s with
  | nil => exact h
  | cons x l ih => exact ih (hf s x h)

@[simp] theorem foldN_wf {f : State → Nat → State} (hf : ∀ t x, Memory.wf t.mem = true → Memory.wf (f t x).mem = true)
    {s : State} (h : Memory.wf s.mem = true) (n : Nat) : Memory.wf (foldN n f s).mem = true := foldl_wf hf h _

@[simp] theorem foldl_snd_mem {α β : Type} {f : β × State → α → β × State} (hf : ∀ t x, (f t x).2.mem = t.2.mem) {s : β × State}
    (l : List α) : (l.foldl f s).2.mem = s.2.mem := by
  induction l generalizing s with
  | nil => rfl
  | cons x l ih => exact ih.trans (hf s x)

@[simp] theorem foldl_snd_wf {α β : Type} {f : β × State → α → β × State}
    (hf : ∀ t x, Memory.wf t.2.mem = true → Memory.wf (f t x).2.mem = true) {s : β × State} (h : Memory.wf s.2.mem = true) (l : List α) :
    Memory.wf (l.foldl f s).2.mem = true := by
  induction l generalizing s with
  | nil => exact h
  | cons x l ih => exact ih (hf s x h)

/-! The writes of memory (R22). -/

@[simp] theorem memWrite_wf {m : SMap Byte} (a : Nat) (bs : List Byte) (h : Memory.wf m = true) : Memory.wf (memWrite m a bs) = true :=
  wf_memWrite m a bs h

@[simp] theorem wf_wrB (s : State) (a : Nat) (bs : List Byte) (h : Memory.wf s.mem = true) : Memory.wf (s.wrB a bs).mem = true :=
  State.wrB_wf s a bs h

@[simp] theorem wf_wr (s : State) (a n v : Nat) (h : Memory.wf s.mem = true) : Memory.wf (s.wr a n v).mem = true := State.wr_wf s a n v h

@[simp] theorem wf_clearMem (s : State) (a n : Nat) (h : Memory.wf s.mem = true) : Memory.wf (s.clearMem a n).mem = true :=
  State.clearMem_wf s a n h

end Sys2Proof.Machine
end

