-- ==== Sys2Proof/Proofs/CanonicalTraffic.lean ====
section
/-! SUPPORT. Memory and its canonical form through the functions of the model (O4):
time, screen, CAN, buffer and ingress.
A lemma `f_mem` says that `f` leaves
memory as it was, a lemma `f_wf` that it keeps the canonical form. -/

namespace Sys2Proof.Machine

/-! Named operations. -/

@[simp] theorem State.setIrq_mem (s : State) (v : BitVec 16) : (s.setIrq v).mem = s.mem := by simp [State.setIrq]

/-! Parameters (R294 to R307). -/

/-- Parameters set one after another leave memory alone. -/
theorem foldr_setParam_mem {s : State} (l : List (Nat × Nat × Nat)) :
    (l.foldr (fun x v => v.setParam x.1 x.2.2) s).mem = s.mem := by
  induction l with
  | nil => rfl
  | cons x l ih => simpa using ih

@[simp] theorem State.asOf_mem (s : State) (t : Nat) {f : State → State} (hf : ∀ u, (f u).mem = u.mem) : (s.asOf t f).mem = s.mem := by
  unfold State.asOf
  dsimp only
  split
  · exact hf s
  · exact (hf _).trans (foldr_setParam_mem _)

@[simp] theorem State.asOf_wf (s : State) (t : Nat) {f : State → State} (hf : ∀ u, Memory.wf u.mem = true → Memory.wf (f u).mem = true)
    (hm : Memory.wf s.mem = true) : Memory.wf (s.asOf t f).mem = true := by
  unfold State.asOf
  dsimp only
  split
  · exact hf s hm
  · refine hf _ ?_
    rw [foldr_setParam_mem]
    exact hm

/-! Weirs and millrace windows (R131, R143 to R166). -/

@[simp] theorem State.markOverrun_mem (s : State) (p : Nat) (closed : Nat → Bool) : (s.markOverrun p closed).mem = s.mem := by
  unfold State.markOverrun
  dsimp only
  repeat' split
  all_goals simp

@[simp] theorem State.applyGates_mem (s : State) (p st : Nat) : (s.applyGates p st).mem = s.mem := by simp [State.applyGates]

@[simp] theorem State.refreshGates_mem (s : State) (p : Nat) : (s.refreshGates p).mem = s.mem := by
  unfold State.refreshGates
  dsimp only
  repeat' split
  all_goals simp

@[simp] theorem State.seatGates_mem (s : State) (p a : Nat) : (s.seatGates p a).mem = s.mem := by
  unfold State.seatGates
  dsimp only
  repeat' split
  all_goals simp

@[simp] theorem State.refreshAllGates_mem (s : State) : s.refreshAllGates.mem = s.mem := by simp [State.refreshAllGates]
@[simp] theorem State.judgeOpening_mem (s : State) (p w : Nat) (m : Int) : (s.judgeOpening p w m).mem = s.mem := by simp [State.judgeOpening]

@[simp] theorem State.countWithdrawn_mem (s : State) (p w : Nat) (own : Bool) : (s.countWithdrawn p w own).mem = s.mem := by
  simp [State.countWithdrawn]

@[simp] theorem State.withdrawDecided_mem (s : State) (p : Nat) (ownCounts : Bool) : (s.withdrawDecided p ownCounts).mem = s.mem := by
  simp [State.withdrawDecided]

@[simp] theorem State.withdrawOpenings_mem (p w busyTo n : Nat) (s : State) : (State.withdrawOpenings p w busyTo n s).mem = s.mem := by
  induction n generalizing s with
  | zero => rfl
  | succ n ih =>
    rw [State.withdrawOpenings]
    split
    · simp [ih]
    · rfl

/-- A set that becomes current withdraws openings of some of its windows, each over one number of cycles. -/
theorem withdrawLate_eq_foldl (s : State) (p busyTo : Nat) :
    ∃ l n, s.withdrawLate p busyTo = List.foldl (fun u w => State.withdrawOpenings p w busyTo n u) s l := by
  unfold State.withdrawLate
  cases (s.gate p).cur with
  | some h => exact ⟨_, _, rfl⟩
  | none => exact ⟨[], 0, rfl⟩

@[simp] theorem State.withdrawLate_mem (s : State) (p busyTo : Nat) : (s.withdrawLate p busyTo).mem = s.mem := by
  obtain ⟨l, n, h⟩ := withdrawLate_eq_foldl s p busyTo
  rw [h]
  exact foldl_mem (fun u w => State.withdrawOpenings_mem _ _ _ _ _) _

@[simp] theorem State.clearWindowCnt_mem (s : State) (p : Nat) : (s.clearWindowCnt p).mem = s.mem := by simp [State.clearWindowCnt]

@[simp] theorem State.carryBand_mem (s : State) (p c : Nat) : (s.carryBand p c).mem = s.mem := by
  unfold State.carryBand
  split <;> simp

@[simp] theorem State.carryBands_mem (s : State) (p : Nat) (closed : Nat → Bool) : (s.carryBands p closed).mem = s.mem := by simp [State.carryBands]
@[simp] theorem State.countCycle_mem (s : State) (p : Nat) : (s.countCycle p).mem = s.mem := by simp [State.countCycle]

@[simp] theorem gateEdge_mem (s : State) (p : Nat) : (gateEdge s p).mem = s.mem := by
  unfold gateEdge
  dsimp only
  repeat' split
  all_goals simp

@[simp] theorem switchWindows_wf (s : State) (p : Nat) (hm : Memory.wf s.mem = true) : Memory.wf (switchWindows s p).mem = true := by
  simp [switchWindows, hm]

@[simp] theorem gateListSwitch_wf (s : State) (p : Nat) (hm : Memory.wf s.mem = true) : Memory.wf (gateListSwitch s p).mem = true := by
  unfold gateListSwitch
  dsimp only
  repeat' split
  all_goals simp [hm]

@[simp] theorem windowSetAdopt_wf (s : State) (p : Nat) (hm : Memory.wf s.mem = true) : Memory.wf (windowSetAdopt s p).mem = true := by
  unfold windowSetAdopt
  dsimp only
  repeat' split
  all_goals simp [hm]

@[simp] theorem windowDecision_mem (s : State) (p w : Nat) : (windowDecision s p w).mem = s.mem := by
  unfold windowDecision
  dsimp only
  repeat' split
  all_goals simp

@[simp] theorem windowOpen_mem (s : State) (p : Nat) : (windowOpen s p).mem = s.mem := by
  unfold windowOpen
  dsimp only
  repeat' split
  all_goals simp

@[simp] theorem windowEnd_mem (s : State) (p : Nat) : (windowEnd s p).mem = s.mem := by
  unfold windowEnd
  dsimp only
  repeat' split
  all_goals simp

@[simp] theorem scheduleStep_mem (s : State) : (scheduleStep s).mem = s.mem := by
  refine foldN_mem (fun s p => ?_) 24
  dsimp only
  split
  · simp
  · split <;> simp

/-! Time, angle and snapshot (R36 to R65, R314). -/

@[simp] theorem State.setTimeState_mem (s : State) (st : TimeState) : (s.setTimeState st).mem = s.mem := by simp [State.setTimeState]

@[simp] theorem State.skipRuns_mem (s : State) (old : Nat) : (s.skipRuns old).mem = s.mem := by
  refine foldl_mem (fun s e => ?_) _
  dsimp only
  split <;> simp

@[simp] theorem State.stepTime_mem (s : State) (off : Int) : (s.stepTime off).mem = s.mem := by simp [State.stepTime]
@[simp] theorem State.slewTime_mem (s : State) (off : Int) : (s.slewTime off).mem = s.mem := by simp [State.slewTime]

@[simp] theorem State.setRate_mem (s : State) (freq : Option Nat) : (s.setRate freq).mem = s.mem := by
  unfold State.setRate
  split <;> simp

@[simp] theorem State.timeSample_mem (s : State) (off : Int) (ivl : Nat) (gmChange : Bool) (rate : Option Nat) :
    (s.timeSample off ivl gmChange rate).mem = s.mem := by
  simp [State.timeSample]

@[simp] theorem State.capture_mem (s : State) (cause : BitVec 2) : (s.capture cause).mem = s.mem := by simp [State.capture]
@[simp] theorem State.placePort_mem (s : State) (p : Nat) (here : Bool) : (s.placePort p here).mem = s.mem := by simp [State.placePort]
@[simp] theorem State.replacePort_mem (s : State) (p : Nat) : (s.replacePort p).mem = s.mem := by simp [State.replacePort]
@[simp] theorem State.fireEdge_mem (s : State) (e : PlacedEdge) : (s.fireEdge e).mem = s.mem := by simp [State.fireEdge]
@[simp] theorem State.fireDue_mem (s : State) (p : Nat → Bool) : (s.fireDue p).mem = s.mem := by simp [State.fireDue]

@[simp] theorem State.setAngleState_mem (s : State) (st : AngleState) : (s.setAngleState st).mem = s.mem := by
  unfold State.setAngleState
  split
  · rfl
  · refine (foldN_mem (fun s p => ?_) 24).trans (by simp)
    split <;> simp

@[simp] theorem State.countOne_mem (s : State) (fwd z : Bool) : (s.countOne fwd z).mem = s.mem := by
  unfold State.countOne
  extract_lets _ _ _ _ _ _ _ _ _ take _ _ _ _ _ _ s1 s2 follow s3
  have h2 : s2.mem = s.mem := by
    simp only [s2, ite_mem]
    rw [foldN_mem fun s p => by split <;> simp]
    simp [s1]
  have h3 : s3.mem = s.mem := by
    simp only [s3]
    split <;> simp [h2]
  simp [h3]

@[simp] theorem State.lateEdges_mem (s : State) : s.lateEdges.mem = s.mem := by simp [State.lateEdges]
@[simp] theorem ppsEdge_mem (freqCount : Nat) (freqAbsent : Bool) (s : State) : (ppsEdge freqCount freqAbsent s).mem = s.mem := by simp [ppsEdge]
@[simp] theorem State.setPtp_mem (s : State) (p : Nat) (g : GptpPort) : (s.setPtp p g).mem = s.mem := by simp [State.setPtp]
@[simp] theorem State.takeAnnounce_mem (s : State) (p : Nat) (b : List Byte) : (s.takeAnnounce p b).mem = s.mem := by simp [State.takeAnnounce]

@[simp] theorem State.sendAnnounces_mem (s : State) : s.sendAnnounces.mem = s.mem := by
  unfold State.sendAnnounces
  split <;> simp

@[simp] theorem sync_mem (p : Nat) (gm : SyncSource) (ref : RT) (interval : Fin 6) (s : State) : (sync p gm ref interval s).mem = s.mem := by
  simp [sync]

@[simp] theorem syncReceiptTimeout_mem (s : State) : (syncReceiptTimeout s).mem = s.mem := by simp [syncReceiptTimeout]
@[simp] theorem holdoverTime_mem (s : State) : (holdoverTime s).mem = s.mem := by simp [holdoverTime]
@[simp] theorem countEdge_mem (a b z : Bool) (s : State) : (countEdge a b z s).mem = s.mem := by simp [countEdge]
@[simp] theorem angleGateEdge_mem (p : Nat) (s : State) : (angleGateEdge p s).mem = s.mem := by simp [angleGateEdge]
@[simp] theorem stallTime_mem (s : State) : (stallTime s).mem = s.mem := by simp [stallTime]

@[simp] theorem syncTransmission_mem (p : Nat) (s : State) : (syncTransmission p s).mem = s.mem := by
  unfold syncTransmission
  dsimp only
  repeat' split
  all_goals simp

@[simp] theorem pdelayReq_mem (p : Nat) (t2 t3 : RT) (turnaround : Nat) (s : State) : (pdelayReq p t2 t3 turnaround s).mem = s.mem := by
  simp [pdelayReq]

@[simp] theorem capture_mem (s : State) : (capture s).mem = s.mem := by simp [capture]
@[simp] theorem snapSecondCapture_mem (s : State) : (snapSecondCapture s).mem = s.mem := by simp [snapSecondCapture]

/-! Mirror records (R347 to R352). -/

@[simp] theorem State.sendRecord_mem (s : State) (r : List Byte) : (s.sendRecord r).mem = s.mem := by simp [State.sendRecord]
@[simp] theorem State.setMirTable_mem (s : State) (t : Nat) (m : MirTable) : (s.setMirTable t m).mem = s.mem := by simp [State.setMirTable]

@[simp] theorem State.entryUpdate_mem (s : State) (table index version : Nat) (valid : Bool) (body : List Byte) :
    (s.entryUpdate table index version valid body).mem = s.mem := by
  simp [State.entryUpdate]

@[simp] theorem State.keptUpdate_mem (s : State) (table index : Nat) (valid : Bool) (body : List Byte) :
    (s.keptUpdate table index valid body).mem = s.mem := by
  simp [State.keptUpdate]

@[simp] theorem State.mirrorMac_mem (s : State) (i : Nat) : (s.mirrorMac i).mem = s.mem := by simp [State.mirrorMac]
@[simp] theorem State.mirrorConn_mem (s : State) (e : Nat) (old : List Byte) : (s.mirrorConn e old).mem = s.mem := by simp [State.mirrorConn]
@[simp] theorem State.mirrorSched_mem (s : State) (p : Nat) : (s.mirrorSched p).mem = s.mem := by simp [State.mirrorSched]

/-! Local need and keep-alives (R316 to R322, R328). -/

@[simp] theorem State.levelGone_mem (s before : State) : (s.levelGone before).mem = s.mem := by simp [State.levelGone]
@[simp] theorem State.mirrorNm_mem (s : State) : s.mirrorNm.mem = s.mem := by simp [State.mirrorNm]
@[simp] theorem State.setNm_mem (s : State) (x : NmState) : (s.setNm x).mem = s.mem := by simp [State.setNm]
@[simp] theorem State.wakePulses_mem (s : State) (except : Nat) : (s.wakePulses except).mem = s.mem := by simp [State.wakePulses]
@[simp] theorem State.enterAwake_mem (s : State) (except : Nat) : (s.enterAwake except).mem = s.mem := by simp [State.enterAwake]
@[simp] theorem State.linWakeUp_mem (s : State) : s.linWakeUp.mem = s.mem := by simp [State.linWakeUp]
@[simp] theorem State.latchMissed_mem (s : State) (m : BitVec 9) : (s.latchMissed m).mem = s.mem := by simp [State.latchMissed]
@[simp] theorem State.abortEbb_mem (s : State) (except : Nat) : (s.abortEbb except).mem = s.mem := by simp [State.abortEbb]

@[simp] theorem State.wakeRequest_mem (s : State) (except : Nat) : (s.wakeRequest except).mem = s.mem := by
  unfold State.wakeRequest
  split <;> simp

@[simp] theorem State.countKa_mem (s : State) (node : Nat) (awoken : Bool) (src : Nat) : (s.countKa node awoken src).mem = s.mem := by
  unfold State.countKa
  dsimp only
  repeat' split
  all_goals simp

/-! The screen (R177 to R201). -/

@[simp] theorem State.charge_mem (s : State) (m len : Nat) : (s.charge m len).2.mem = s.mem := by simp [State.charge]
@[simp] theorem State.noteConn_mem (s : State) : s.noteConn.mem = s.mem := by simp [State.noteConn]

@[simp] theorem State.connDrop_wf (s : State) (e : Nat) (hm : Memory.wf s.mem = true) : Memory.wf (s.connDrop e).mem = true := by
  simp [State.connDrop, hm]

@[simp] theorem State.connWrite_wf (s : State) (u : ConnUnit) (lport sel e : Nat) (hm : Memory.wf s.mem = true) :
    Memory.wf (s.connWrite u lport sel e).mem = true := by
  unfold State.connWrite
  iterate 5 apply State.wr_wf
  exact hm

@[simp] theorem State.connCreate_wf (s : State) (u : ConnUnit) (lport sel : Nat) (hm : Memory.wf s.mem = true) :
    Memory.wf (s.connCreate u lport sel).mem = true := by
  simp [State.connCreate, hm]

@[simp] theorem State.connChange_wf (s : State) (u : ConnUnit) (track : Bool) (lport sel : Nat) (hm : Memory.wf s.mem = true) :
    Memory.wf (s.connChange u track lport sel).mem = true := by
  unfold State.connChange
  split
  · split
    · extract_lets a w w' fin _ s1 s2
      have h1 : Memory.wf s1.mem = true := by simp [s1, hm]
      have h2 : Memory.wf s2.mem = true := by simp [s2, h1]
      exact State.wr_wf _ _ _ _ h2
    · simp [hm]
  · simp [hm]

@[simp] theorem State.connUpdate_wf (s : State) (u : ConnUnit) (track : Bool) (lport sel : Nat) (hm : Memory.wf s.mem = true) :
    Memory.wf (s.connUpdate u track lport sel).mem = true := by
  simp [State.connUpdate, hm]

@[simp] theorem State.copyUnit_mem (s : State) (path : CopyPath) (lport len rule reason : Nat) (pass : Bool) (unit : List Byte) :
    (s.copyUnit path lport len rule reason pass unit).2.mem = s.mem := by
  unfold State.copyUnit
  dsimp only
  repeat' split
  all_goals simp

@[simp] theorem State.countHit_mem (s : State) (m : Option Nat × Nat) : (s.countHit m).mem = s.mem := by
  unfold State.countHit
  split <;> simp

@[simp] theorem State.dispose_mem (s : State) (m : Option Nat × Nat) (lport key : Nat) : (s.dispose m lport key).2.mem = s.mem := by
  simp [State.dispose]

@[simp] theorem State.chargeUnit_mem (s : State) (act cause len : Nat) (sm : Option Nat) : (s.chargeUnit act cause len sm).2.mem = s.mem := by
  unfold State.chargeUnit
  dsimp only
  repeat' split
  all_goals simp

@[simp] theorem State.trackUnit_wf (s : State) (act cause lport key : Nat) (hm : Memory.wf s.mem = true) :
    Memory.wf (s.trackUnit act cause lport key).mem = true := by
  unfold State.trackUnit
  split <;> simp [hm]

@[simp] theorem State.closeUnit_mem (s : State) (m : Option Nat × Nat) (cause lport len : Nat) (path : CopyPath) (unit : List Byte) :
    (s.closeUnit m cause lport len path unit).2.mem = s.mem := by
  simp [State.closeUnit]

@[simp] theorem State.screen_wf (s : State) (lport key len : Nat) (sm : Option Nat) (path : CopyPath) (unit : List Byte) (hm :
    Memory.wf s.mem = true) : Memory.wf (s.screen lport key len sm path unit).2.mem = true := by
  simp [State.screen, hm]

@[simp] theorem State.postKey_mem (s : State) (u : GwUnit) (key : Nat) (data : List Byte) : (s.postKey u key data).mem = s.mem := by
  simp [State.postKey]

@[simp] theorem State.gwAccept_mem (s : State) : s.gwAccept.mem = s.mem := by
  unfold State.gwAccept
  split <;> simp

@[simp] theorem State.putLookup_mem (s : State) (l : GwLookup) : (s.putLookup l).mem = s.mem := by simp [State.putLookup]

@[simp] theorem State.gwStep_wf (s : State) (l : GwLookup) (hm : Memory.wf s.mem = true) : Memory.wf (s.gwStep l).mem = true := by
  unfold State.gwStep
  refine State.asOf_wf _ _ (fun u hu => ?_) hm
  dsimp only
  repeat' split
  all_goals simp [hu]

@[simp] theorem connSweep_wf (e : Nat) (s : State) (hm : Memory.wf s.mem = true) : Memory.wf (connSweep e s).mem = true := by simp [connSweep, hm]

/-! CAN channels (R203 to R226). -/

@[simp] theorem State.canIrq_mem (s : State) (n i : Nat) : (s.canIrq n i).mem = s.mem := by simp [State.canIrq]
@[simp] theorem State.canErr_mem (s : State) (n : Nat) (c : Can) : (s.canErr n c).mem = s.mem := by simp [State.canErr]
@[simp] theorem State.canLatch_mem (s : State) (n : Nat) : (s.canLatch n).mem = s.mem := by simp [State.canLatch]
@[simp] theorem State.canTick_mem (s : State) : s.canTick.mem = s.mem := by simp [State.canTick]

@[simp] theorem State.canLeft_wf (s : State) (n : Nat) (e : CanEntry) (outcome cnt : Nat) (ts : Word) (hm : Memory.wf s.mem = true) :
    Memory.wf (s.canLeft n e outcome cnt ts).mem = true := by
  unfold State.canLeft
  extract_lets a s1 s2
  have h1 : Memory.wf s1.mem = true := by
    simp only [s1]
    split
    · iterate 3 apply State.wr_wf
      exact hm
    · exact hm
  simp [s2, h1]

@[simp] theorem State.canFlush_wf (s : State) (n outcome : Nat) (hm : Memory.wf s.mem = true) : Memory.wf (s.canFlush n outcome).mem = true := by
  unfold State.canFlush
  dsimp only
  repeat' split
  all_goals simp +contextual [hm]

@[simp] theorem State.canPut_mem (s : State) (n : Nat) (e : CanEntry) (prio : Bool) : ∀ t, (s.canPut n e prio) = some t → t.mem = s.mem := by
  unfold State.canPut
  split <;> simp

@[simp] theorem State.pushResult_wf (s : State) (n b r : Nat) (hm : Memory.wf s.mem = true) : Memory.wf (s.pushResult n b r).mem = true := by
  simp [State.pushResult, hm]

@[simp] theorem State.pushRefused_wf (s : State) (n b r : Nat) (hm : Memory.wf s.mem = true) : Memory.wf (s.pushRefused n b r).mem = true := by
  simp [State.pushRefused, hm]

@[simp] theorem State.pushJudged_wf (s : State) (n b : Nat) (prio : Bool) (e : CanEntry) (pass : Bool) (hm : Memory.wf s.mem = true) :
    Memory.wf (s.pushJudged n b prio e pass).mem = true := by
  unfold State.pushJudged
  split
  · simp [hm]
  · split
    · simp [hm]
    · split
      · next heq => exact State.pushResult_wf _ _ _ _ (by rw [State.canPut_mem _ _ _ _ _ heq]; exact hm)
      · simp [hm]

@[simp] theorem txPush_wf (n b : Nat) (prio : Bool) (s : State) (hm : Memory.wf s.mem = true) : Memory.wf (txPush n b prio s).mem = true := by
  simp [txPush, hm]

@[simp] theorem canTxStart_mem (n : Nat) (s : State) : (canTxStart n s).mem = s.mem := by
  unfold canTxStart
  dsimp only
  repeat' split
  all_goals simp

@[simp] theorem State.canFailed_wf (s : State) (n : Nat) (hm : Memory.wf s.mem = true) : Memory.wf (s.canFailed n).mem = true := by
  unfold State.canFailed
  dsimp only
  repeat' split
  all_goals simp [hm]

@[simp] theorem State.canGap_mem (s : State) (n : Nat) : (s.canGap n).mem = s.mem := by simp [State.canGap]

@[simp] theorem canTxEnd_wf (n : Nat) (r : CanTxResult) (delay : Option Nat) (s : State) (hm : Memory.wf s.mem = true) :
    Memory.wf (canTxEnd n r delay s).mem = true := by
  unfold canTxEnd
  extract_lets c fd c1 s1 u _ s2
  split
  · simp [hm]
  · split
    · have h1 : Memory.wf s1.mem = true := by simp [s1, hm]
      clear_value s1
      simp only [s2]
      split
      · split <;> simp [h1]
      · simp [u, h1]
      · simp [h1]
    · exact hm

@[simp] theorem canLifetimeExpiry_wf (n : Nat) (s : State) (hm : Memory.wf s.mem = true) : Memory.wf (canLifetimeExpiry n s).mem = true := by
  unfold canLifetimeExpiry
  dsimp only
  repeat' split
  all_goals simp +contextual [hm]

@[simp] theorem recover_mem (n : Nat) (s : State) : (recover n s).mem = s.mem := by simp [recover]

@[simp] theorem abortHead_wf (n : Nat) (s : State) (hm : Memory.wf s.mem = true) : Memory.wf (abortHead n s).mem = true := by
  unfold abortHead
  dsimp only
  repeat' split
  all_goals simp [hm]

@[simp] theorem abortPrio_wf (n : Nat) (s : State) (hm : Memory.wf s.mem = true) : Memory.wf (abortPrio n s).mem = true := by
  unfold abortPrio
  dsimp only
  repeat' split
  all_goals simp [hm]

@[simp] theorem canFlushAll_wf (n : Nat) (s : State) (hm : Memory.wf s.mem = true) : Memory.wf (canFlushAll n s).mem = true := by
  simp [canFlushAll, hm]

@[simp] theorem State.canBusOff_wf (s : State) (n : Nat) (hm : Memory.wf s.mem = true) : Memory.wf (s.canBusOff n).mem = true := by
  simp [State.canBusOff, hm]

@[simp] theorem State.canNoteErr_mem (s : State) (n : Nat) (kind : CanErrKind) (after : Bool) : (s.canNoteErr n kind after).mem = s.mem := by
  simp [State.canNoteErr]

@[simp] theorem State.canCount_wf (s : State) (n : Nat) (rule : CanErrRule) (a3 : Bool) (hm : Memory.wf s.mem = true) :
    Memory.wf (s.canCount n rule a3).mem = true := by
  simp [State.canCount, hm]

@[simp] theorem canBusError_wf (n : Nat) (kind : CanErrKind) (at_ : CanErrAt) (after : Bool) (s : State) (hm : Memory.wf s.mem = true) :
    Memory.wf (canBusError n kind at_ after s).mem = true := by
  simp [canBusError, hm]

@[simp] theorem busOffRecoveryComplete_mem (n : Nat) (s : State) : (busOffRecoveryComplete n s).mem = s.mem := by simp [busOffRecoveryComplete]

@[simp] theorem canModeChange_wf (n : Nat) (s : State) (hm : Memory.wf s.mem = true) : Memory.wf (canModeChange n s).mem = true := by
  simp [canModeChange, hm]

@[simp] theorem canIntegration_mem (n : Nat) (s : State) : (canIntegration n s).mem = s.mem := by simp [canIntegration]

@[simp] theorem State.canStore_wf (s : State) (n k : Nat) (m : CanMsg) (ts : Word) (hm : Memory.wf s.mem = true) :
    Memory.wf (s.canStore n k m ts).mem = true := by
  unfold State.canStore
  extract_lets a lost len _ _ _ _ _ _ s7 s8 s9
  have h7 : Memory.wf s7.mem = true := by
    iterate 7 apply State.wr_wf
    exact hm
  have h8 : Memory.wf s8.mem = true := by
    simp only [s8]
    split <;> exact State.wrB_wf _ _ _ h7
  simp [s9, h8]

@[simp] theorem State.canGood_mem (s : State) (n : Nat) : (s.canGood n).mem = s.mem := by simp [State.canGood]

/-! The device fault (R31 to R34). -/

@[simp] theorem State.endStore_wf (s : State) (half : Bool) (hm : Memory.wf s.mem = true) : Memory.wf (s.endStore half).mem = true := by
  unfold State.endStore
  split <;> simp [hm]

@[simp] theorem State.cutStore_wf (s : State) (hm : Memory.wf s.mem = true) : Memory.wf s.cutStore.mem = true := by simp [State.cutStore, hm]
@[simp] theorem State.dropWork_wf (s : State) (hm : Memory.wf s.mem = true) : Memory.wf s.dropWork.mem = true := by simp [State.dropWork, hm]
@[simp] theorem State.failSilent_wf (s : State) (hm : Memory.wf s.mem = true) : Memory.wf s.failSilent.mem = true := by simp [State.failSilent, hm]

@[simp] theorem State.deviceFault_wf (s : State) (code unit : Nat) (detail : List Nat) (hm : Memory.wf s.mem = true) :
    Memory.wf (s.deviceFault code unit detail).mem = true := by
  simp [State.deviceFault, hm]

/-! MACsec (R371 to R375). -/

@[simp] theorem macsecCheck_mem (s : State) (p k : Nat) (b : List Byte) : (macsecCheck s p k b).2.mem = s.mem := by
  unfold macsecCheck
  split <;> simp

@[simp] theorem macsecTake_mem (s : State) (p : Nat) : (macsecTake s p).2.mem = s.mem := by
  unfold macsecTake
  split <;> simp

/-! Buffer and queues (R95 to R107, R128 to R130). -/

@[simp] theorem State.setOcc_mem (s : State) (n v : Nat) : (s.setOcc n v).mem = s.mem := by simp [State.setOcc]
@[simp] theorem State.notePeaks_mem (s : State) (n : Nat) : (s.notePeaks n).mem = s.mem := by simp [State.notePeaks]
@[simp] theorem State.takeCell_mem (s : State) : s.takeCell.2.mem = s.mem := by simp [State.takeCell]

@[simp] theorem State.writeHalf_wf (s : State) (h : Nat) (b : List Byte) (hm : Memory.wf s.mem = true) : Memory.wf (s.writeHalf h b).mem = true := by
  simp [State.writeHalf, hm]

@[simp] theorem State.writeCell_wf (s : State) (c : Nat) (b : List Byte) (hm : Memory.wf s.mem = true) : Memory.wf (s.writeCell c b).mem = true := by
  simp [State.writeCell, hm]

@[simp] theorem State.releaseCells_mem (s : State) (fid : Nat) : (s.releaseCells fid).mem = s.mem := by
  unfold State.releaseCells
  split <;> simp

@[simp] theorem State.finishDest_mem (s : State) (fid d : Nat) : (s.finishDest fid d).mem = s.mem := by
  unfold State.finishDest
  split <;> simp

@[simp] theorem State.mcFail_mem (s : State) (f : Frame) (d : Nat) : (s.mcFail f d).mem = s.mem := by simp [State.mcFail]
@[simp] theorem State.addDepth_mem (s : State) (o c n : Nat) : (s.addDepth o c n).mem = s.mem := by simp [State.addDepth]
@[simp] theorem State.chargeCredit_mem (s : State) (o c : Nat) (len : Int) : (s.chargeCredit o c len).mem = s.mem := by simp [State.chargeCredit]

@[simp] theorem State.chargeLimit_mem (s : State) (o : Nat) (key : Option Nat) (len t : Nat) : (s.chargeLimit o key len t).mem = s.mem := by
  simp [State.chargeLimit]

@[simp] theorem State.subDepth_mem (s : State) (o c n : Nat) : (s.subDepth o c n).mem = s.mem := by simp [State.subDepth]
@[simp] theorem State.pushLeaf_mem (s : State) (o c dom : Nat) (x : LeafItem) : (s.pushLeaf o c dom x).mem = s.mem := by simp [State.pushLeaf]

@[simp] theorem State.cellIn_wf (s : State) (a : Arrival) (hm : Memory.wf s.mem = true) : Memory.wf (s.cellIn a).mem = true := by
  unfold State.cellIn
  split <;> simp [hm]

@[simp] theorem State.cellsIn_wf (n : Nat) (s : State) (a : Arrival) (hm : Memory.wf s.mem = true) : Memory.wf (State.cellsIn n s a).mem = true := by
  induction n generalizing s with
  | zero => exact hm
  | succ n ih => exact ih _ (State.cellIn_wf _ _ hm)

@[simp] theorem State.atsEligibility_mem (s : State) (o c lenBytes endAt : Nat) : (s.atsEligibility o c lenBytes endAt).2.mem = s.mem := by
  simp [State.atsEligibility]

@[simp] theorem State.enqueue_mem (s : State) (fid d : Nat) : (s.enqueue fid d).mem = s.mem := by
  unfold State.enqueue
  dsimp only
  repeat' split
  all_goals simp

@[simp] theorem State.abandon_mem (s : State) (fid d : Nat) : (s.abandon fid d).mem = s.mem := by
  unfold State.abandon
  split <;> simp

@[simp] theorem State.unlink_mem (s : State) (f : Frame) (fid d : Nat) : (s.unlink f fid d).mem = s.mem := by simp [State.unlink]

@[simp] theorem State.unqueue_mem (s : State) (fid d off : Nat) : (s.unqueue fid d off).mem = s.mem := by
  unfold State.unqueue
  split <;> simp

@[simp] theorem State.correctLeaf_mem (s : State) (o c dom cost len : Nat) : (s.correctLeaf o c dom cost len).mem = s.mem := by
  simp [State.correctLeaf]

@[simp] theorem State.correctTx_mem (s : State) (o : Nat) (x : TxFrame) (len : Nat) : (s.correctTx o x len).mem = s.mem := by simp [State.correctTx]

@[simp] theorem State.dropPortQueues_mem (s : State) (o : Nat) : (s.dropPortQueues o).mem = s.mem := by
  unfold State.dropPortQueues
  extract_lets s1 e s2
  have h2 : s2.mem = s.mem := (foldl_mem (fun s x => by simp) _).trans (foldl_mem (fun s x => by simp) _)
  simp [h2]

/-! The ingress pipeline (R68 to R94, R118 to R120). -/

@[simp] theorem State.learn_wf (s : State) (p : Nat) (sa : List Byte) (fid : Nat) (hm : Memory.wf s.mem = true) :
    Memory.wf (s.learn p sa fid).mem = true := by
  unfold State.learn
  split <;> simp [hm]

@[simp] theorem State.recover_mem (s : State) (i : Nat) (seq : Option (BitVec 16)) : (s.recover i seq).2.mem = s.mem := by
  unfold State.recover
  split <;> simp

@[simp] theorem State.countDrop_mem (s : State) (port count : Nat) : (s.countDrop port count).mem = s.mem := by simp [State.countDrop]

@[simp] theorem State.badAt_mem (s : State) (fid d len : Nat) : (s.badAt fid d len).mem = s.mem := by
  unfold State.badAt
  dsimp only
  repeat' split
  all_goals simp

@[simp] theorem State.foundBad_mem (s : State) (fid len : Nat) : (s.foundBad fid len).mem = s.mem := by
  unfold State.foundBad
  split <;> simp

@[simp] theorem State.finishCand_mem (s : State) (o : Nat) (fail : Option (Nat × Nat)) (a : Arrival) : (s.finishCand o fail a).mem = s.mem := by
  unfold State.finishCand
  dsimp only
  repeat' split
  all_goals simp

@[simp] theorem State.putArr_mem (s : State) (a : Arrival) : (s.putArr a).mem = s.mem := by simp [State.putArr]
@[simp] theorem State.dropArr_mem (s : State) (fid : Nat) : (s.dropArr fid).mem = s.mem := by simp [State.dropArr]

@[simp] theorem State.candFail_mem (s : State) (a : Arrival) (k : Nat) : (s.candFail a k).mem = s.mem := by
  unfold State.candFail
  split <;> simp

@[simp] theorem State.candBad_mem (s : State) (a : Arrival) : (s.candBad a).mem = s.mem := by simp [State.candBad]
@[simp] theorem State.candCheck_mem (s : State) (a : Arrival) (bad : Bool) (k : Nat) : (s.candCheck a bad k).mem = s.mem := by simp [State.candCheck]

@[simp] theorem State.admitStep_mem (s : State) (a : Arrival) : (s.admitStep a).mem = s.mem := by
  unfold State.admitStep
  extract_lets p macsec maxF past a1 ok s1 quiet opens a2 s2
  have h2 : s2.mem = s.mem := by simp [s2, s1]
  split
  · split
    · simp [h2]
    · exact h2
  · exact h2

@[simp] theorem State.parseStep_mem (s : State) (a : Arrival) : (s.parseStep a).mem = s.mem := by simp [State.parseStep]

@[simp] theorem State.streamStep_mem (s : State) (a : Arrival) : (s.streamStep a).mem = s.mem := by
  unfold State.streamStep
  dsimp only
  repeat' split
  all_goals simp

@[simp] theorem State.lookupStep_mem (s : State) (a : Arrival) : (s.lookupStep a).mem = s.mem := by simp [State.lookupStep]
@[simp] theorem State.hitStep_mem (s : State) (a : Arrival) : (s.hitStep a).mem = s.mem := by simp [State.hitStep]
@[simp] theorem State.disposeStep_mem (s : State) (a : Arrival) : (s.disposeStep a).mem = s.mem := by simp [State.disposeStep]
@[simp] theorem State.destStep_mem (s : State) (a : Arrival) : (s.destStep a).mem = s.mem := by simp [State.destStep]
@[simp] theorem State.chargeStep_mem (s : State) (a : Arrival) : (s.chargeStep a).mem = s.mem := by simp [State.chargeStep]

@[simp] theorem State.connStep_wf (s : State) (a : Arrival) (hm : Memory.wf s.mem = true) : Memory.wf (s.connStep a).mem = true :=
  State.asOf_wf _ _ (fun u hu => State.trackUnit_wf _ _ _ _ _ (by simpa using hu)) hm

@[simp] theorem State.judgeStep_mem (s : State) (a : Arrival) : (s.judgeStep a).mem = s.mem := by simp [State.judgeStep]
@[simp] theorem State.verdictStep_mem (s : State) (a : Arrival) : (s.verdictStep a).mem = s.mem := by simp [State.verdictStep]
@[simp] theorem State.classStep_mem (s : State) (a : Arrival) : (s.classStep a).mem = s.mem := by simp [State.classStep]

@[simp] theorem State.cutStep_wf (s : State) (a : Arrival) (hm : Memory.wf s.mem = true) : Memory.wf (s.cutStep a).mem = true := by
  simp [State.cutStep, hm]

@[simp] theorem State.stageStep_wf (s : State) (a : Arrival) (hm : Memory.wf s.mem = true) : Memory.wf (s.stageStep a).mem = true := by
  unfold State.stageStep
  split <;> simp [hm]

@[simp] theorem State.openStep_mem (s : State) (a : Arrival) : (s.openStep a).mem = s.mem := by
  unfold State.openStep
  extract_lets p ready b gone late
  split
  · simp
  · split
    · split
      · simp
      · split
        · simp
        · simp
        · split
          · next heq => simp [snd_mem_of_eq heq]
          · next heq => simp [snd_mem_of_eq heq]
    · split <;> simp [late]

@[simp] theorem State.headStep_wf (s : State) (a : Arrival) (hm : Memory.wf s.mem = true) : Memory.wf (s.headStep a).mem = true := by
  unfold State.headStep
  split <;> simp [hm]

@[simp] theorem State.headSteps_wf (fid n : Nat) (s : State) (hm : Memory.wf s.mem = true) : Memory.wf (State.headSteps fid n s).mem = true := by
  induction n generalizing s with
  | zero => exact hm
  | succ n ih =>
    rw [State.headSteps]
    split
    · split
      · exact ih _ (State.headStep_wf _ _ hm)
      · exact hm
    · exact hm

@[simp] theorem State.lastByte_mem (s : State) (a : Arrival) : (s.lastByte a).mem = s.mem := by simp [State.lastByte]

@[simp] theorem State.checkStep_mem (s : State) (a : Arrival) : (s.checkStep a).mem = s.mem := by
  unfold State.checkStep
  extract_lets p counted s1 
  have h1 : s1.mem = s.mem := by simp [s1]
  split
  next failed t heq => 
  have ht : t.mem = s.mem := by
    split at heq
    · split at heq
      · cases heq; exact h1
      · split at heq
        · next hc => cases heq; simp [snd_mem_of_eq hc, h1]
        · next hc => cases heq; simp [snd_mem_of_eq hc, h1]
    · cases heq; exact h1
  extract_lets _ s2 long s3 bad need held need' s4 s5
  have h3 : s4.mem = s.mem := by simp [s4, s3, s2, ht]
  have h5 : s5.mem = s.mem := by
    simp only [s5]
    split <;> simp [h3]
  simp [h3, h5]

@[simp] theorem State.recoverStep_mem (s : State) (a : Arrival) : (s.recoverStep a).mem = s.mem := by simp [State.recoverStep]
@[simp] theorem State.enqueueWhole_mem (s : State) (a : Arrival) (d : Nat) : (s.enqueueWhole a d).mem = s.mem := by simp [State.enqueueWhole]

@[simp] theorem State.storeStep_wf (s : State) (a : Arrival) (hm : Memory.wf s.mem = true) : Memory.wf (s.storeStep a).mem = true := by
  unfold State.storeStep
  extract_lets a1 s1 s2 all _ _
  have h1 : s1.mem = s.mem := by simp [s1]
  have h2 : s2.mem = s.mem := by
    simp only [s2]
    split <;> simp [h1]
  clear_value s1 s2
  split
  · simp [h1, hm]
  · split
    · simp [h2, hm]
    · split
      next b t heq =>
      have ht : Memory.wf t.mem = true := by
        split at heq
        · cases heq; simp [h2, hm]
        · split at heq
          · cases heq; simp [h2, hm]
          · cases heq; simp [h2, hm]
      split
      · exact ht
      · simp [ht]

@[simp] theorem State.orderStep_wf (s : State) (a : Arrival) (hm : Memory.wf s.mem = true) : Memory.wf (s.orderStep a).mem = true := by
  unfold State.orderStep
  dsimp only
  repeat' split
  all_goals simp [hm]

@[simp] theorem State.endStep_wf (s : State) (a : Arrival) (hm : Memory.wf s.mem = true) : Memory.wf (s.endStep a).mem = true := by
  unfold State.endStep
  split <;> simp [hm]

@[simp] theorem State.endSteps_wf (fid n : Nat) (s : State) (hm : Memory.wf s.mem = true) : Memory.wf (State.endSteps fid n s).mem = true := by
  induction n generalizing s with
  | zero => exact hm
  | succ n ih =>
    rw [State.endSteps]
    split
    · split
      · exact ih _ (State.endStep_wf _ _ hm)
      · exact hm
    · exact hm

@[simp] theorem State.cellStep_wf (s : State) (fid : Nat) (hm : Memory.wf s.mem = true) : Memory.wf (s.cellStep fid).mem = true := by
  unfold State.cellStep
  dsimp only
  repeat' split
  all_goals simp [hm]

@[simp] theorem State.candStep_mem (s : State) (fid : Nat) : (s.candStep fid).mem = s.mem := by
  unfold State.candStep
  dsimp only
  repeat' split
  all_goals simp

@[simp] theorem State.arrivalDone_mem (s : State) (fid : Nat) : (s.arrivalDone fid).mem = s.mem := by
  unfold State.arrivalDone
  split <;> simp

@[simp] theorem State.turn_wf (s : State) (fid : Nat) (hm : Memory.wf s.mem = true) : Memory.wf (s.turn fid).mem = true := by simp [State.turn, hm]

@[simp] theorem State.arrivalTick_wf (s : State) (fid : Nat) (hm : Memory.wf s.mem = true) : Memory.wf (s.arrivalTick fid).mem = true := by
  unfold State.arrivalTick
  extract_lets fresh s1 s2 s3
  have h1 : Memory.wf s1.mem = true := State.headSteps_wf _ _ _ hm
  have h2 : Memory.wf s2.mem = true := by simp [s2, h1]
  have h3 : Memory.wf s3.mem = true := by simp [s3, h2]
  simp [h3]

@[simp] theorem State.parForget_mem (s : State) : s.parForget.mem = s.mem := by simp [State.parForget]

@[simp] theorem State.ingressTick_wf (s : State) (hm : Memory.wf s.mem = true) : Memory.wf s.ingressTick.mem = true := by
  unfold State.ingressTick
  extract_lets ids s1 byStop
  have h1 : Memory.wf s1.mem = true := foldl_wf State.arrivalTick_wf hm _
  rw [State.parForget_mem]
  exact foldl_wf State.turn_wf h1 _

@[simp] theorem State.arrive_mem (s : State) (f : RxFrame) (sure : Bool) : (s.arrive f sure).mem = s.mem := by
  unfold State.arrive
  dsimp only
  repeat' split
  all_goals simp

@[simp] theorem State.receive_mem (s : State) (f : RxFrame) : (s.receive f).mem = s.mem := by simp [State.receive]
@[simp] theorem State.handOver_mem (s : State) (f : RxFrame) : (s.handOver f).2.mem = s.mem := by simp [State.handOver]

@[simp] theorem frameReceive_mem (f : RxFrame) (s : State) : (frameReceive f s).mem = s.mem := by
  unfold frameReceive
  split <;> simp

@[simp] theorem State.cutArrival_mem (s : State) (a : Arrival) : (s.cutArrival a).mem = s.mem := by
  unfold State.cutArrival
  extract_lets p n raw buf b s1 s2
  split
  · simp [s1]
  · split <;> simp [s2]

@[simp] theorem State.cutArrivals_mem (s : State) (p : Nat) : (s.cutArrivals p).mem = s.mem := by simp [State.cutArrivals]
@[simp] theorem linkDown_mem (p : Nat) (s : State) : (linkDown p s).mem = s.mem := by simp [linkDown]
@[simp] theorem State.startVerify_mem (s : State) (p : Nat) : (s.startVerify p).mem = s.mem := by simp [State.startVerify]
@[simp] theorem linkUp_mem (p mbps : Nat) (s : State) : (linkUp p mbps s).mem = s.mem := by simp [linkUp]
@[simp] theorem agingSweep_wf (s : State) (hm : Memory.wf s.mem = true) : Memory.wf (agingSweep s).mem = true := by simp +contextual [agingSweep, hm]

@[simp] theorem recoveryResetTimeout_mem (i : Nat) (s : State) : (recoveryResetTimeout i s).mem = s.mem := by
  unfold recoveryResetTimeout
  dsimp only
  repeat' split
  all_goals simp

end Sys2Proof.Machine
end

