-- ==== Sys2Proof/Proofs/CanonicalServices.lean ====
section
/-! SUPPORT. Memory and its canonical form through the functions of the model (O4):
LIN, gateway, mailboxes, table objects and egress.
A lemma `f_mem` says that `f` leaves
memory as it was, a lemma `f_wf` that it keeps the canonical form. -/

namespace Sys2Proof.Machine

/-! LIN channels (R227 to R238). -/

@[simp] theorem State.linIrq_mem (s : State) (m i : Nat) : (s.linIrq m i).mem = s.mem := by simp [State.linIrq]

@[simp] theorem State.setLinFlags_wf (s : State) (m i v : Nat) (hm : Memory.wf s.mem = true) : Memory.wf (s.setLinFlags m i v).mem = true := by
  simp [State.setLinFlags, hm]

@[simp] theorem State.clearUpdated_wf (s : State) (m i : Nat) (hm : Memory.wf s.mem = true) : Memory.wf (s.clearUpdated m i).mem = true := by
  simp [State.clearUpdated, hm]

@[simp] theorem State.linCommit_wf (s : State) (m i : Nat) (data : List Byte) (hm : Memory.wf s.mem = true) :
    Memory.wf (s.linCommit m i data).mem = true := by
  simp [State.linCommit, hm]

@[simp] theorem State.lpubJudged_wf (s : State) (m i : Nat) (data : List Byte) (pass : Bool) (hm : Memory.wf s.mem = true) :
    Memory.wf (s.lpubJudged m i data pass).mem = true := by
  simp [State.lpubJudged, hm]

@[simp] theorem lpub_mem (m i : Nat) (s : State) : (lpub m i s).mem = s.mem := by simp [lpub]
@[simp] theorem State.linEnd_mem (s : State) (m : Nat) : (s.linEnd m).mem = s.mem := by simp [State.linEnd]

@[simp] theorem State.linSent_mem (s : State) (m : Nat) : (s.linSent m).mem = s.mem := by
  unfold State.linSent
  split <;> simp

@[simp] theorem State.linAnswer_wf (s : State) (m : Nat) (h : LinHdr) (o : Nat) (assoc : Bool) (hm : Memory.wf s.mem = true) :
    Memory.wf (s.linAnswer m h o assoc).mem = true := by
  simp [State.linAnswer, hm]

@[simp] theorem State.linPublish_wf (s : State) (m : Nat) (h : LinHdr) (hm : Memory.wf s.mem = true) : Memory.wf (s.linPublish m h).mem = true := by
  simp [State.linPublish, hm]

@[simp] theorem State.linComplete_wf (s : State) (m : Nat) (h : LinHdr) (hm : Memory.wf s.mem = true) : Memory.wf (s.linComplete m h).mem = true := by
  simp [State.linComplete, hm]

@[simp] theorem State.linError_mem (s : State) (m off : Nat) : (s.linError m off).mem = s.mem := by simp [State.linError]

@[simp] theorem linHeader_wf (m pid baud age : Nat) (s : State) (hm : Memory.wf s.mem = true) :
    Memory.wf (linHeader m pid baud age s).mem = true := by
  simp [linHeader, hm]

@[simp] theorem State.linStart_mem (s : State) (m : Nat) (t : Fin 8) : (s.linStart m t).mem = s.mem := by simp [State.linStart]
@[simp] theorem linSched_mem (m v : Nat) (s : State) : (linSched m v s).mem = s.mem := by simp [linSched]

@[simp] theorem State.linAdvance_mem (s : State) (m : Nat) : (s.linAdvance m).mem = s.mem := by
  unfold State.linAdvance
  dsimp only
  repeat' split
  all_goals simp

@[simp] theorem State.linSendHeader_mem (s : State) (m i : Nat) (kind : LinKind) : (s.linSendHeader m i kind).mem = s.mem := by
  simp [State.linSendHeader]

@[simp] theorem State.linRunEntry_mem (s : State) (m : Nat) : (s.linRunEntry m).mem = s.mem := by
  unfold State.linRunEntry
  dsimp only
  repeat' split
  all_goals simp

@[simp] theorem linSlot_mem (m : Nat) (s : State) : (linSlot m s).mem = s.mem := by simp [linSlot]

@[simp] theorem linNoResponse_mem (m : Nat) (s : State) : (linNoResponse m s).mem = s.mem := by
  unfold linNoResponse
  dsimp only
  repeat' split
  all_goals simp

@[simp] theorem State.linSleep_mem (s : State) (m : Nat) : (s.linSleep m).mem = s.mem := by simp [State.linSleep]
@[simp] theorem goToSleep_mem (s : State) : (goToSleep s).mem = s.mem := by simp [goToSleep]

@[simp] theorem linRestart_mem (m : Nat) (s : State) : (linRestart m s).mem = s.mem := by
  unfold linRestart
  dsimp only
  repeat' split
  all_goals simp

@[simp] theorem State.linFirst_mem (s : State) (m : Nat) : (s.linFirst m).mem = s.mem := by simp [State.linFirst]

@[simp] theorem State.linFollow_mem (s : State) (m : Nat) : (s.linFollow m).mem = s.mem := by
  unfold State.linFollow
  dsimp only
  repeat' split
  all_goals simp

@[simp] theorem State.linChange_mem (s : State) (m role rate : Nat) : (s.linChange m role rate).mem = s.mem := by simp [State.linChange]

@[simp] theorem State.linCycle_wf (s : State) (m : Nat) (hm : Memory.wf s.mem = true) : Memory.wf (s.linCycle m).mem = true := by
  unfold State.linCycle
  dsimp only
  repeat' split
  all_goals simp [hm]

@[simp] theorem State.linTick_wf (s : State) (hm : Memory.wf s.mem = true) : Memory.wf s.linTick.mem = true := by simp +contextual [State.linTick, hm]

@[simp] theorem State.linStore_wf (s : State) (m i : Nat) (data : List Byte) (ts : Word) (hm : Memory.wf s.mem = true) :
    Memory.wf (s.linStore m i data ts).mem = true := by
  unfold State.linStore
  extract_lets a f lost s1 s2 s3 s4 s5
  have h4 : Memory.wf s4.mem = true := by
    apply State.wrB_wf
    iterate 2 apply State.wr_wf
    exact State.setLinFlags_wf _ _ _ _ hm
  simp [s5, h4]

/-! The gateway (R241 to R262). -/

@[simp] theorem cvStart_mem (u : Nat) (s : State) : (cvStart u s).mem = s.mem := by simp [cvStart]
@[simp] theorem State.cvFeed_mem (s : State) (u : Nat) (bs : List Byte) : (s.cvFeed u bs).mem = s.mem := by simp [State.cvFeed]
@[simp] theorem State.mirrorGo_mem (s : State) (g : Nat) : (s.mirrorGo g).mem = s.mem := by simp [State.mirrorGo]

@[simp] theorem State.goWrite_wf (s : State) (g w : Nat) (data : List Byte) (hm : Memory.wf s.mem = true) :
    Memory.wf (s.goWrite g w data).mem = true := by
  unfold State.goWrite
  dsimp only
  repeat' split
  all_goals simp [hm]

@[simp] theorem State.e2eCheck_mem (s : State) (r w : Nat) (data : List Byte) : (s.e2eCheck r w data).2.mem = s.mem := by simp [State.e2eCheck]

@[simp] theorem State.goUpdate_wf (s : State) (r : Nat) (p : Pdu) (hm : Memory.wf s.mem = true) : Memory.wf (s.goUpdate r p).2.mem = true := by
  unfold State.goUpdate
  dsimp only
  repeat' split
  all_goals simp [hm]

@[simp] theorem State.runData_mem (s : State) (r w : Nat) (data : List Byte) (fit : Nat → Option Nat) (pad : Byte) :
    (s.runData r w data fit pad).2.mem = s.mem := by
  unfold State.runData
  dsimp only
  repeat' split
  all_goals simp

@[simp] theorem State.runCan_mem (s : State) (r w : Nat) : (s.runCan r w).2.mem = s.mem := by
  unfold State.runCan
  extract_lets g o fmt n c rtr len fk
  split
  next d t heq =>
  have ht : t.mem = s.mem := by
    split at heq
    · split at heq <;> cases heq <;> rfl
    · split at heq
      · cases heq; rfl
      · simp [snd_mem_of_eq heq]
  split
  · exact ht
  · extract_lets off m
    split
    · exact ht
    · split
      · next u hput => exact (State.canPut_mem _ _ _ _ u hput).trans ht
      · exact ht

@[simp] theorem State.runLin_wf (s : State) (r w : Nat) (hm : Memory.wf s.mem = true) : Memory.wf (s.runLin r w).2.mem = true := by
  unfold State.runLin
  dsimp only
  repeat' split
  all_goals simp [hm]

@[simp] theorem State.runAcf_wf (s : State) (r w : Nat) (hm : Memory.wf s.mem = true) : Memory.wf (s.runAcf r w).2.mem = true := by
  unfold State.runAcf
  extract_lets i sl g sa fmt cap
  split
  · exact hm
  · split
    next d t heq =>
    have ht : Memory.wf t.mem = true := by
      split at heq
      · cases heq; exact hm
      · rw [snd_mem_of_eq heq]; simp [hm]
    split
    · exact ht
    · split
      · simpa using ht
      · extract_lets _ _
        split
        · simpa using ht
        · split
          next ok u hand =>
          have hu : Memory.wf u.mem = true := by rw [snd_mem_of_eq hand]; simp [ht]
          split
          · simp [hu]
          · exact hu

@[simp] theorem State.goRun_wf (s : State) (r : Nat) (hm : Memory.wf s.mem = true) : Memory.wf (s.goRun r).2.mem = true := by
  unfold State.goRun
  dsimp only
  repeat' split
  all_goals simp [hm]

@[simp] theorem State.eventRuns_wf (s : State) (g : Nat) (hm : Memory.wf s.mem = true) : Memory.wf (s.eventRuns g).mem = true := by
  simp +contextual [State.eventRuns, hm]

@[simp] theorem State.feed_wf (s : State) (rs : List Nat) (p : Pdu) (hm : Memory.wf s.mem = true) : Memory.wf (s.feed rs p).mem = true := by
  unfold State.feed
  split
  · exact hm
  · refine foldl_wf (fun u r hu => ?_) hm _
    simp [hu]

@[simp] theorem State.takeRun_mem (s : State) (r k startAt : Nat) : (s.takeRun r k startAt).mem = s.mem := by simp [State.takeRun]
@[simp] theorem State.afterRun_mem (s : State) (r k : Nat) : (s.afterRun r k).mem = s.mem := by simp [State.afterRun]
@[simp] theorem State.noteOverrun_mem (s : State) (r k : Nat) : (s.noteOverrun r k).mem = s.mem := by simp [State.noteOverrun]

@[simp] theorem State.tryRun_wf (s : State) (r k : Nat) (hm : Memory.wf s.mem = true) : Memory.wf (s.tryRun r k).mem = true := by
  change MemInv _
  have hr : MemInv ((s.noteOverrun r k).goRun r).2 := State.goRun_wf _ _ (by simp [hm])
  unfold State.tryRun
  extract_lets w same _ t
  change MemInv (t.goRun r).2 at hr
  clear_value same t
  split
  · simp [MemInv, hm]
  · generalize t.goRun r = q at hr ⊢
    obtain ⟨e, t⟩ := q
    unfold MemInv at hr ⊢
    cases e <;> simpa using hr

@[simp] theorem State.boundaryRun_wf (s : State) (r k : Nat) (hm : Memory.wf s.mem = true) : Memory.wf (s.boundaryRun r k).mem = true := by
  unfold State.boundaryRun
  dsimp only
  repeat' split
  all_goals simp [hm]

@[simp] theorem State.cyclicRun_wf (s : State) (r : Nat) (hm : Memory.wf s.mem = true) : Memory.wf (s.cyclicRun r).mem = true := by
  unfold State.cyclicRun
  split
  · exact hm
  · split <;> simp [hm]

@[simp] theorem State.runLower_wf (s : State) (r : Nat) (hm : Memory.wf s.mem = true) : Memory.wf (s.runLower r).mem = true := by
  simp +contextual [State.runLower, hm]

@[simp] theorem periodBoundary_wf (r : Nat) (s : State) (hm : Memory.wf s.mem = true) : Memory.wf (periodBoundary r s).mem = true := by
  unfold periodBoundary
  split
  · exact hm
  · generalize (s.run r).cur = cur
    cases cur with
    | some k => simp [hm]
    | none =>
      generalize s.newBoundary r = due
      cases due with
      | some k => simp [hm]
      | none => exact hm

@[simp] theorem runRetry_wf (r : Nat) (s : State) (hm : Memory.wf s.mem = true) : Memory.wf (runRetry r s).mem = true := by
  unfold runRetry
  split <;> simp [hm]

@[simp] theorem spacedRun_wf (r : Nat) (s : State) (hm : Memory.wf s.mem = true) : Memory.wf (spacedRun r s).mem = true := by
  unfold spacedRun
  split <;> simp [hm]

@[simp] theorem gwStale_wf (g : Nat) (s : State) (hm : Memory.wf s.mem = true) : Memory.wf (gwStale g s).mem = true := by simp [gwStale, hm]
@[simp] theorem State.acfTake_mem (s : State) (slot : Nat) (m : AcfMsg) : (s.acfTake slot m).mem = s.mem := by simp [State.acfTake]
@[simp] theorem State.gwRest_mem (s : State) (r : Option (Nat × Word × List Byte)) : (s.gwRest r).mem = s.mem := by simp [State.gwRest]

@[simp] theorem State.acfNext_mem (s : State) (slot : Nat) (ts : Word) (b : List Byte) : (s.acfNext slot ts b).mem = s.mem := by
  unfold State.acfNext
  dsimp only
  repeat' split
  all_goals simp

@[simp] theorem State.acfWalk_mem (n : Nat) (s : State) : (State.acfWalk n s).mem = s.mem := by
  induction n generalizing s with
  | zero => rfl
  | succ n ih =>
    rw [State.acfWalk]
    split
    · simp [ih]
    · rfl

@[simp] theorem State.acfRefill_mem (s : State) : s.acfRefill.mem = s.mem := by simp [State.acfRefill]

@[simp] theorem State.acfFrame_wf (s : State) (b : List Byte) (stomped : Bool) (hm : Memory.wf s.mem = true) :
    Memory.wf (s.acfFrame b stomped).mem = true := by
  unfold State.acfFrame
  dsimp only
  repeat' split
  all_goals simp [hm]

@[simp] theorem acfFrameReceive_wf (b : List Byte) (stomped : Bool) (s : State) (hm : Memory.wf s.mem = true) :
    Memory.wf (acfFrameReceive b stomped s).mem = true := by
  unfold acfFrameReceive
  split <;> simp [hm]

@[simp] theorem State.canKeepAlive_mem (s : State) (n : Nat) (m : CanMsg) : (s.canKeepAlive n m).mem = s.mem := by simp [State.canKeepAlive]
@[simp] theorem State.canHeard_mem (s : State) (n : Nat) : (s.canHeard n).mem = s.mem := by simp [State.canHeard]

@[simp] theorem State.canJudged_wf (s : State) (n : Nat) (m : CanMsg) (own : Bool) (ts : Word) (obj : Option Nat) (rs : List Nat) (pass : Bool) (hm :
    Memory.wf s.mem = true) : Memory.wf (s.canJudged n m own ts obj rs pass).mem = true := by
  unfold State.canJudged
  dsimp only
  repeat' split
  all_goals simp [hm]

@[simp] theorem canReceive_mem (n : Nat) (m : CanMsg) (own : Bool) (age : Nat) (s : State) : (canReceive n m own age s).mem = s.mem := by
  simp [canReceive]

@[simp] theorem State.linTake_mem (s : State) (m o : Nat) (enh : Bool) (data : List Byte) : (s.linTake m o enh data).mem = s.mem := by
  simp [State.linTake]

@[simp] theorem State.linJudged_wf (s : State) (m o : Nat) (data : List Byte) (ts : Word) (rs : List Nat) (pass : Bool) (hm :
    Memory.wf s.mem = true) : Memory.wf (s.linJudged m o data ts rs pass).mem = true := by
  simp [State.linJudged, hm]

@[simp] theorem State.linReceived_mem (s : State) (m : Nat) (h : LinHdr) (r : LinRx) : (s.linReceived m h r).mem = s.mem := by
  simp [State.linReceived]

@[simp] theorem linResponse_mem (m : Nat) (r : LinRx) (s : State) : (linResponse m r s).mem = s.mem := by
  unfold linResponse
  dsimp only
  repeat' split
  all_goals simp

@[simp] theorem State.gwJudged_wf (s : State) (u : GwUnit) (pass : Bool) (hm : Memory.wf s.mem = true) :
    Memory.wf (s.gwJudged u pass).mem = true := by
  unfold State.gwJudged
  split <;> simp [hm]

@[simp] theorem State.gwTurn_wf (s : State) (l : GwLookup) (hm : Memory.wf s.mem = true) : Memory.wf (s.gwTurn l).mem = true := by
  simp [State.gwTurn, hm]

@[simp] theorem State.gwTick_wf (s : State) (hm : Memory.wf s.mem = true) : Memory.wf s.gwTick.mem = true := by simp +contextual [State.gwTick, hm]

/-! The maintenance token (R439 to R443). -/

@[simp] theorem State.requestToken_mem (s : State) (a : Activity) : (s.requestToken a).2.mem = s.mem := by
  unfold State.requestToken
  split <;> simp

@[simp] theorem maintenanceTokenGrant_mem (s : State) : (maintenanceTokenGrant s).mem = s.mem := by
  unfold maintenanceTokenGrant
  dsimp only
  repeat' split
  all_goals simp

/-! Mailboxes (R276 to R285). -/

@[simp] theorem State.complete_wf (s : State) (mb : Nat) (st : Status) (pay : List Byte) (hm : Memory.wf s.mem = true) :
    Memory.wf (s.complete mb st pay).mem = true := by
  simp [State.complete, hm]

@[simp] theorem State.completeOnly_wf (s : State) (mb : Nat) (st : Status) (hm : Memory.wf s.mem = true) :
    Memory.wf (s.completeOnly mb st).mem = true := by
  simp [State.completeOnly, hm]

@[simp] theorem State.ring_mem (s : State) (mb : Mb) : (s.ring mb).mem = s.mem := by simp [State.ring]

@[simp] theorem State.takeTick_mem (s : State) : s.takeTick.mem = s.mem := by
  unfold State.takeTick
  split <;> simp

@[simp] theorem State.answer_wf (s : State) (mb : Mb) (r : Reply) (hm : Memory.wf s.mem = true) : Memory.wf (s.answer mb r).mem = true := by
  unfold State.answer
  split <;> simp [hm]

@[simp] theorem State.touchArea_mem (s : State) (mb : Mb) : (s.touchArea mb).mem = s.mem := by
  unfold State.touchArea
  split <;> simp

@[simp] theorem State.freeArea_mem (s : State) : s.freeArea.mem = s.mem := by simp [State.freeArea]
@[simp] theorem State.noteRefusal_mem (s : State) (st : Status) (isMsg : Bool) : (s.noteRefusal st isMsg).mem = s.mem := by simp [State.noteRefusal]

@[simp] theorem State.refuseLength_wf (s : State) (mb : Mb) (hm : Memory.wf s.mem = true) : Memory.wf (s.refuseLength mb).mem = true := by
  simp [State.refuseLength, hm]

@[simp] theorem State.runRequest_wf (s : State) (mb : Mb) (lenOk : Nat → Bool) {f : List Byte → State → Reply × State}
    (hf : ∀ p u, Memory.wf u.mem = true → Memory.wf (f p u).2.mem = true) (hm : Memory.wf s.mem = true) :
    Memory.wf (s.runRequest mb lenOk f).mem = true := by
  simp [State.runRequest, hf, hm]

@[simp] theorem State.serve_wf (s : State) (mb : Mb) (isCode lenOk : Nat → Bool) {f : List Byte → State → Reply × State}
    (hf : ∀ p u, Memory.wf u.mem = true → Memory.wf (f p u).2.mem = true) (hm : Memory.wf s.mem = true) :
    Memory.wf (s.serve mb isCode lenOk f).mem = true := by
  unfold State.serve
  extract_lets n
  split
  · exact hm
  · split
    · simp [hm]
    · exact State.runRequest_wf s mb lenOk hf hm

@[simp] theorem State.finishBusy_wf (s : State) (w : Waiting) (st : Status) (pay : List Byte) (hm : Memory.wf s.mem = true) :
    Memory.wf (s.finishBusy w st pay).mem = true := by
  unfold State.finishBusy
  split <;> simp [hm]

@[simp] theorem State.postRequest_wf (s : State) (mb : Mb) (cmd len : Nat) (pay : List Byte) (hm : Memory.wf s.mem = true) :
    Memory.wf (s.postRequest mb cmd len pay).mem = true := by
  simp [State.postRequest, hm]

@[simp] theorem State.takeResponse_mem (s : State) (n : Nat) : (s.takeResponse n).mem = s.mem := by simp [State.takeResponse]

@[simp] theorem State.completeSec_wf (s : State) (mb : Nat) (st : Status) (hm : Memory.wf s.mem = true) :
    Memory.wf (s.completeSec mb st).mem = true := by
  simp [State.completeSec, hm]

@[simp] theorem State.restartMailboxes_wf (s : State) (hm : Memory.wf s.mem = true) : Memory.wf s.restartMailboxes.mem = true := by
  unfold State.restartMailboxes
  split <;> simp [hm]

@[simp] theorem dwMbRing_mem (mask : BitVec 16) (s : State) : (dwMbRing mask s).mem = s.mem := by simp [dwMbRing]
@[simp] theorem dwMbDone_mem (mask : BitVec 16) (s : State) : (dwMbDone mask s).mem = s.mem := by simp [dwMbDone]

@[simp] theorem dwMbAbort_wf (mask : BitVec 16) (s : State) (hm : Memory.wf s.mem = true) : Memory.wf (dwMbAbort mask s).mem = true := by
  unfold dwMbAbort
  split
  · exact hm
  · refine foldN_wf (fun u n hu => ?_) hm 16
    split
    · exact hu
    · split
      · simp [hu]
      · split <;> simp [hu]
      · exact hu

@[simp] theorem echo_wf (mb : Mb) (s : State) (hm : Memory.wf s.mem = true) : Memory.wf (echo mb s).mem = true := by simp [echo, hm]
@[simp] theorem getInfo_wf (mb : Mb) (s : State) (hm : Memory.wf s.mem = true) : Memory.wf (getInfo mb s).mem = true := by simp [getInfo, hm]

@[simp] theorem unknownCommand_wf (mb : Mb) (s : State) (hm : Memory.wf s.mem = true) : Memory.wf (unknownCommand mb s).mem = true := by
  unfold unknownCommand
  split
  · exact hm
  · split
    · exact State.serve_wf _ _ _ _ (fun _ _ hu => hu) hm
    · simp [hm]

@[simp] theorem State.paramEntry_mem (s : State) (pid : Nat) : (s.paramEntry pid).2.mem = s.mem := by
  unfold State.paramEntry
  split <;> simp

@[simp] theorem paramGet_wf (mb : Mb) (s : State) (hm : Memory.wf s.mem = true) : Memory.wf (paramGet mb s).mem = true := by simp [paramGet, hm]

/-! Table objects (R287 to R291). -/

@[simp] theorem State.refuseObj_mem (s : State) (st : Status) (at_ : ObjAt) (hdr size : Nat) : (s.refuseObj st at_ hdr size).2.mem = s.mem := by
  simp [State.refuseObj]

@[simp] theorem State.tableWrite_wf (s : State) (type idx e : Nat) (hm : Memory.wf s.mem = true) :
    Memory.wf (s.tableWrite type idx e).mem = true := by
  unfold State.tableWrite
  dsimp only
  split
  · rw [State.mirrorMac_mem]
    apply State.wr_wf
    split
    · exact foldl_wf (fun u j hu => by rw [State.mirrorMac_mem]; exact State.clearMem_wf _ _ _ hu) hm _
    · exact hm
  · split
    · simp [hm]
    · split <;> simp [hm]

@[simp] theorem State.tableNext_wf (s : State) (hm : Memory.wf s.mem = true) : Memory.wf s.tableNext.mem = true := by
  unfold State.tableNext
  dsimp only
  repeat' split
  all_goals simp [hm]

@[simp] theorem State.tablesNow_wf (s : State) (hm : Memory.wf s.mem = true) : Memory.wf s.tablesNow.mem = true := by
  simp +contextual [State.tablesNow, hm]

@[simp] theorem State.tableTick_wf (s : State) (hm : Memory.wf s.mem = true) : Memory.wf s.tableTick.mem = true := by
  unfold State.tableTick
  split <;> simp [hm]

@[simp] theorem State.tableApply_wf (s : State) (type : Nat) (b : List Byte) (hm : Memory.wf s.mem = true) :
    Memory.wf (s.tableApply type b).2.mem = true := by
  simp [State.tableApply, hm]

@[simp] theorem State.classApply_wf (s : State) (b : List Byte) (hm : Memory.wf s.mem = true) : Memory.wf (s.classApply b).mem = true := by
  simp +contextual [State.classApply, hm]

@[simp] theorem State.gateApply_wf (s : State) (b : List Byte) (hm : Memory.wf s.mem = true) : Memory.wf (s.gateApply b).mem = true := by
  simp [State.gateApply, hm]

@[simp] theorem State.windowApply_wf (s : State) (b : List Byte) (hm : Memory.wf s.mem = true) : Memory.wf (s.windowApply b).mem = true := by
  unfold State.windowApply
  dsimp only
  repeat' split
  all_goals simp [hm]

@[simp] theorem State.ruleWrite_wf (s : State) (bank : Bool) (first : Nat) (es : List Nat) (hm : Memory.wf s.mem = true) :
    Memory.wf (s.ruleWrite bank first es).mem = true := by
  simp +contextual [State.ruleWrite, hm]

@[simp] theorem State.ruleClear_wf (s : State) (bank : Bool) (hm : Memory.wf s.mem = true) : Memory.wf (s.ruleClear bank).mem = true := by
  simp +contextual [State.ruleClear, hm]

@[simp] theorem State.ruleApply_wf (s : State) (b : List Byte) (hm : Memory.wf s.mem = true) : Memory.wf (s.ruleApply b).2.mem = true := by
  simp [State.ruleApply, hm]

@[simp] theorem State.ruleNext_wf (s : State) (l : RuleLoad) (hm : Memory.wf s.mem = true) : Memory.wf (s.ruleNext l).mem = true := by
  simp [State.ruleNext, hm]

@[simp] theorem State.ruleTick_wf (s : State) (hm : Memory.wf s.mem = true) : Memory.wf s.ruleTick.mem = true := by
  unfold State.ruleTick
  split <;> simp [hm]

@[simp] theorem State.swapBanks_mem (s : State) (l : RuleLoad) : (s.swapBanks l).mem = s.mem := by simp [State.swapBanks]

@[simp] theorem State.rulesNow_wf (n : Nat) (s : State) (hm : Memory.wf s.mem = true) : Memory.wf (State.rulesNow n s).mem = true := by
  induction n generalizing s with
  | zero =>
    rw [State.rulesNow]
    split <;> simp [hm]
  | succ n ih =>
    rw [State.rulesNow]
    split
    · split
      · exact ih _ (State.ruleNext_wf _ _ hm)
      · simp [hm]
    · exact hm

@[simp] theorem ruleBankSwap_wf (s : State) (hm : Memory.wf s.mem = true) : Memory.wf (ruleBankSwap s).mem = true := by
  unfold ruleBankSwap
  split <;> simp [hm]

@[simp] theorem State.routeWrite_wf (s : State) (r e : Nat) (hm : Memory.wf s.mem = true) : Memory.wf (s.routeWrite r e).mem = true := by
  simp [State.routeWrite, hm]

@[simp] theorem State.goLoad_wf (s : State) (g e : Nat) (hm : Memory.wf s.mem = true) : Memory.wf (s.goLoad g e).mem = true := by
  simp [State.goLoad, hm]

@[simp] theorem State.gwApply_wf (s : State) (b : List Byte) (hm : Memory.wf s.mem = true) : Memory.wf (s.gwApply b).mem = true := by
  simp +contextual [State.gwApply, hm]

@[simp] theorem State.loadObject_wf (s : State) (type : Nat) (b : List Byte) (hm : Memory.wf s.mem = true) :
    Memory.wf (s.loadObject type b).2.mem = true := by
  unfold State.loadObject
  split <;> simp [hm]

@[simp] theorem objLoad_wf (mb : Mb) (s : State) (hm : Memory.wf s.mem = true) : Memory.wf (objLoad mb s).mem = true := by
  simp +contextual [objLoad, hm]

@[simp] theorem objOpen_wf (mb : Mb) (s : State) (hm : Memory.wf s.mem = true) : Memory.wf (objOpen mb s).mem = true := by simp [objOpen, hm]

@[simp] theorem objWrite_wf (mb : Mb) (s : State) (hm : Memory.wf s.mem = true) : Memory.wf (objWrite mb s).mem = true := by
  unfold objWrite
  refine State.serve_wf _ _ _ _ (fun p u hu => ?_) hm
  dsimp only
  repeat' split
  all_goals simp [hu]

@[simp] theorem objCommit_wf (mb : Mb) (s : State) (hm : Memory.wf s.mem = true) : Memory.wf (objCommit mb s).mem = true := by
  unfold objCommit
  refine State.serve_wf _ _ _ _ (fun p u hu => ?_) hm
  dsimp only
  repeat' split
  all_goals simp [hu]

@[simp] theorem objCancel_wf (mb : Mb) (s : State) (hm : Memory.wf s.mem = true) : Memory.wf (objCancel mb s).mem = true :=
  State.serve_wf _ _ _ _ (fun p u hu => by split <;> simp [hu]) hm

@[simp] theorem objAreaTimeout_mem (s : State) : (objAreaTimeout s).mem = s.mem := by
  unfold objAreaTimeout
  split <;> simp

@[simp] theorem objDma_wf (mb : Mb) (s : State) (hm : Memory.wf s.mem = true) : Memory.wf (objDma mb s).mem = true := by simp [objDma, hm]

@[simp] theorem State.dmaFail_wf (s : State) (hm : Memory.wf s.mem = true) : Memory.wf s.dmaFail.mem = true := by
  unfold State.dmaFail
  split <;> simp [hm]

@[simp] theorem objDmaCompletion_wf (data : List Byte) (ok : Bool) (s : State) (hm : Memory.wf s.mem = true) :
    Memory.wf (objDmaCompletion data ok s).mem = true := by
  unfold objDmaCompletion
  split <;> simp [hm]


@[simp] theorem objDmaTimeout_wf (s : State) (hm : Memory.wf s.mem = true) : Memory.wf (objDmaTimeout s).mem = true := by
  unfold objDmaTimeout
  split
  · split
    · simp [hm]
    · exact hm
  · exact hm

@[simp] theorem connRemove_wf (mb : Mb) (s : State) (hm : Memory.wf s.mem = true) : Memory.wf (connRemove mb s).mem = true := by
  simp +contextual [connRemove, hm]

@[simp] theorem frameSend_wf (mb : Mb) (s : State) (hm : Memory.wf s.mem = true) : Memory.wf (frameSend mb s).mem = true := by simp [frameSend, hm]

/-! Egress, fabric and MAC (R107 to R142). -/

@[simp] theorem State.mmFollow_mem (s : State) (p : Nat) : (s.mmFollow p).mem = s.mem := by simp [State.mmFollow]
@[simp] theorem State.shaperStart_mem (s : State) (p c : Nat) : (s.shaperStart p c).mem = s.mem := by simp [State.shaperStart]

@[simp] theorem State.classEffect_mem (s : State) (p c : Nat) : (s.classEffect p c).mem = s.mem := by
  unfold State.classEffect
  split <;> simp

@[simp] theorem State.paramTakes_mem (s : State) (p base : Nat) : (s.paramTakes p base).mem = s.mem := by
  unfold State.paramTakes
  split <;> simp

@[simp] theorem State.takeEffect_mem (s : State) (p : Nat) : (s.takeEffect p).mem = s.mem := by simp [State.takeEffect]
@[simp] theorem State.holdBack_mem (s : State) (o c : Nat) (l : List Nat) : (s.holdBack o c l).mem = s.mem := by simp [State.holdBack]

@[simp] theorem chooseClass_mem (o tau : Nat) (resumeOk express : Bool) (cs : List Nat) (s : State) :
    (chooseClass o tau resumeOk express cs s).2.mem = s.mem := by
  induction cs generalizing s with
  | nil => rfl
  | cons c cs ih =>
    rw [chooseClass]
    iterate 2 (split; · rfl)
    split
    · exact ih s
    · split <;> simp [ih]

@[simp] theorem State.beginRead_mem (s : State) (p : Pull) : (s.beginRead p).mem = s.mem := by
  unfold State.beginRead
  split <;> simp

@[simp] theorem State.readPort_mem (s : State) (i : Nat) : (s.readPort i).mem = s.mem := by
  unfold State.readPort
  split <;> simp

@[simp] theorem State.readPorts_mem (s : State) : s.readPorts.mem = s.mem := by simp [State.readPorts]

@[simp] theorem State.endRead_mem (s : State) (c : CellTx) : (s.endRead c).mem = s.mem := by
  unfold State.endRead
  dsimp only
  repeat' split
  all_goals simp

@[simp] theorem State.readDone_mem (s : State) : s.readDone.mem = s.mem := by simp [State.readDone]
@[simp] theorem State.dropResident_mem (s : State) (o : Nat) : (s.dropResident o).mem = s.mem := by simp [State.dropResident]

@[simp] theorem State.takeClass_mem (s : State) (o c tau : Nat) (out : Port) : (s.takeClass o c tau out).mem = s.mem := by
  unfold State.takeClass
  dsimp only
  repeat' split
  all_goals simp

@[simp] theorem State.resumeHeld_mem (s : State) (o tau : Nat) : (s.resumeHeld o tau).mem = s.mem := by
  unfold State.resumeHeld
  dsimp only
  repeat' split
  all_goals simp

@[simp] theorem State.select_mem (s : State) (out : Port) (soon : Bool) : (s.select out soon).mem = s.mem := by
  unfold State.select
  extract_lets o tau s1 resumeOk
  have h1 : s1.mem = s.mem := by simp [s1]
  split
  all_goals next heq => simp [snd_mem_of_eq heq, h1]

@[simp] theorem egressSelect_mem (out : Port) (s : State) : (egressSelect out s).mem = s.mem := by simp [egressSelect]
@[simp] theorem State.launch_mem (s : State) (c : CellTx) : (s.launch c).mem = s.mem := by simp [State.launch]
@[simp] theorem State.planeSlot_mem (s : State) : s.planeSlot.mem = s.mem := by simp [State.planeSlot]
@[simp] theorem State.noteCorrected_mem (s : State) (half n src : Nat) : (s.noteCorrected half n src).mem = s.mem := by simp [State.noteCorrected]

@[simp] theorem State.decode_wf (s : State) (c : CellTx) (h : Nat) (hm : Memory.wf s.mem = true) : Memory.wf (s.decode c h).2.mem = true := by
  unfold State.decode
  split <;> simp [hm]

@[simp] theorem State.deliver_wf (s : State) (c : CellTx) (hm : Memory.wf s.mem = true) : Memory.wf (s.deliver c).mem = true := by
  unfold State.deliver
  extract_lets o
  have h0 := State.decode_wf s c 0 hm
  split
  · next heq => rw [heq] at h0; exact h0
  · next b0 t heq =>
    rw [heq] at h0
    have h1 := State.decode_wf t c 1 h0
    split
    · next heq1 => rw [heq1] at h1; exact h1
    · next b1 u heq1 =>
      rw [heq1] at h1
      simpa using h1

@[simp] theorem State.deliverDue_wf (s : State) (hm : Memory.wf s.mem = true) : Memory.wf s.deliverDue.mem = true := by
  simp +contextual [State.deliverDue, hm]

@[simp] theorem State.releaseNext_mem (s : State) (o : Nat) : (s.releaseNext o).mem = s.mem := by
  unfold State.releaseNext
  dsimp only
  repeat' split
  all_goals simp

@[simp] theorem State.releases_mem (s : State) : s.releases.mem = s.mem := by simp [State.releases]

@[simp] theorem cellArrive_wf (out inp : Port) (plane : Fin 4) (seq : BitVec 12) (upset : List (Fin 2 × Fin 36 × Byte)) (s : State) (hm :
    Memory.wf s.mem = true) : Memory.wf (cellArrive out inp plane seq upset s).mem = true := by
  unfold cellArrive
  dsimp only
  repeat' split
  all_goals simp [hm]

@[simp] theorem confluenceTimeout_wf (out : Port) (s : State) (hm : Memory.wf s.mem = true) : Memory.wf (confluenceTimeout out s).mem = true := by
  unfold confluenceTimeout
  dsimp only
  repeat' split
  all_goals simp [hm]

@[simp] theorem State.promote_mem (s : State) (o : Nat) : (s.promote o).mem = s.mem := by
  unfold State.promote
  dsimp only
  repeat' split
  all_goals simp

@[simp] theorem State.settleCosts_mem (s : State) (o : Nat) : (s.settleCosts o).mem = s.mem := by simp [State.settleCosts]
@[simp] theorem State.plcaRestart_mem (s : State) (i : Nat) : (s.plcaRestart i).mem = s.mem := by simp [State.plcaRestart]
@[simp] theorem State.beginTx_mem (s : State) (o : Nat) (x : TxFrame) : (s.beginTx o x).mem = s.mem := by simp [State.beginTx]

@[simp] theorem State.macPort_mem (s : State) (o : Nat) : (s.macPort o).mem = s.mem := by
  unfold State.macPort
  dsimp only
  repeat' split
  all_goals simp

@[simp] theorem State.macTick_mem (s : State) : s.macTick.mem = s.mem := by simp [State.macTick]
@[simp] theorem State.udpKeepAlive_mem (s : State) (b : List Byte) (vid : Nat) : (s.udpKeepAlive b vid).mem = s.mem := by simp [State.udpKeepAlive]

@[simp] theorem State.toFirmware_mem (s : State) (f : Frame) (d : Nat) (b : List Byte) : (s.toFirmware f d b).mem = s.mem := by
  simp [State.toFirmware]

@[simp] theorem State.sentFrame_mem (s : State) (o c : Nat) (f : Frame) (d : Nat) (b : List Byte) (stomped : Bool) :
    (s.sentFrame o c f d b stomped).mem = s.mem := by
  simp [State.sentFrame]

@[simp] theorem State.countSealed_mem (s : State) (o : Nat) (x : TxFrame) : (s.countSealed o x).mem = s.mem := by simp [State.countSealed]

@[simp] theorem underrun_mem (out : Port) (s : State) : (underrun out s).mem = s.mem := by
  unfold underrun
  dsimp only
  repeat' split
  all_goals simp

@[simp] theorem frameTransmitEnd_mem (out : Port) (s : State) : (frameTransmitEnd out s).mem = s.mem := by
  unfold frameTransmitEnd
  dsimp only
  repeat' split
  all_goals simp

@[simp] theorem atsEligible_mem (o c d : Nat) (s : State) : (atsEligible o c d s).mem = s.mem := by simp [atsEligible]

@[simp] theorem preempt_mem (out : Port) (s : State) : (preempt out s).mem = s.mem := by
  unfold preempt
  dsimp only
  repeat' split
  all_goals simp

@[simp] theorem mmVerifyTimeout_mem (p : Nat) (s : State) : (mmVerifyTimeout p s).mem = s.mem := by simp [mmVerifyTimeout]
@[simp] theorem listSwitch_wf (p : Nat) (s : State) (hm : Memory.wf s.mem = true) : Memory.wf (listSwitch p s).mem = true := by simp [listSwitch, hm]

@[simp] theorem State.putCodeword_wf (s : State) (h : Nat) (b : List Byte) (hm : Memory.wf s.mem = true) :
    Memory.wf (s.putCodeword h b).mem = true := by
  simp [State.putCodeword, hm]

@[simp] theorem State.scrubHalf_wf (s : State) (h : Nat) (upset : List (Nat × Nat)) (hm : Memory.wf s.mem = true) :
    Memory.wf (s.scrubHalf h upset).mem = true := by
  unfold State.scrubHalf
  dsimp only
  repeat' split
  all_goals simp [hm]

@[simp] theorem State.scrubBack_wf (s : State) (hm : Memory.wf s.mem = true) : Memory.wf s.scrubBack.mem = true := by
  simp +contextual [State.scrubBack, hm]

@[simp] theorem scrubRead_wf (upset : List (Fin 36 × Byte)) (s : State) (hm : Memory.wf s.mem = true) :
    Memory.wf (scrubRead upset s).mem = true := by
  simp [scrubRead, hm]

@[simp] theorem State.creditCycle_mem (s : State) (o c : Nat) : (s.creditCycle o c).mem = s.mem := by simp [State.creditCycle]
@[simp] theorem State.creditTick_mem (s : State) : s.creditTick.mem = s.mem := by simp [State.creditTick]

end Sys2Proof.Machine
end

