-- ==== Sys2Proof/Proofs/CanonicalDevice.lean ====
section
/-! SUPPORT. Memory and its canonical form through the functions of the model (O4):
island, network management, security, parameters and field update.
A lemma `f_mem` says that `f` leaves
memory as it was, a lemma `f_wf` that it keeps the canonical form. -/

namespace Sys2Proof.Machine

/-! The island (R414 to R428). -/

@[simp] theorem State.island_mem (s : State) (dt : Nat) (f : Island → Island) : (s.island dt f).mem = s.mem := by simp [State.island]
@[simp] theorem recordWrite_mem (dt : Nat) (s : State) : (recordWrite dt s).mem = s.mem := by simp [recordWrite]
@[simp] theorem wheelPulse_mem (dt : Nat) (chB : Bool) (s : State) : (wheelPulse dt chB s).mem = s.mem := by simp [wheelPulse]
@[simp] theorem speedZero_mem (dt : Nat) (s : State) : (speedZero dt s).mem = s.mem := by simp [speedZero]
@[simp] theorem motionStop_mem (dt : Nat) (s : State) : (motionStop dt s).mem = s.mem := by simp [motionStop]
@[simp] theorem periodicRecord_mem (dt : Nat) (s : State) : (periodicRecord dt s).mem = s.mem := by simp [periodicRecord]
@[simp] theorem referenceLinkMessage_mem (dt : Nat) (s : State) : (referenceLinkMessage dt s).mem = s.mem := by simp [referenceLinkMessage]
@[simp] theorem tqExpiry_mem (dt : Nat) (s : State) : (tqExpiry dt s).mem = s.mem := by simp [tqExpiry]
@[simp] theorem sealOpened_mem (dt : Nat) (s : State) : (sealOpened dt s).mem = s.mem := by simp [sealOpened]
@[simp] theorem sealClosed_mem (dt : Nat) (s : State) : (sealClosed dt s).mem = s.mem := by simp [sealClosed]
@[simp] theorem islandStart_mem (s : State) : (islandStart s).mem = s.mem := by simp [islandStart]
@[simp] theorem islandStop_mem (s : State) : (islandStop s).mem = s.mem := by simp [islandStop]

/-! Network management (R316 to R333). -/

@[simp] theorem State.nmFollow_mem (s before : State) : (s.nmFollow before).mem = s.mem := by
  unfold State.nmFollow
  dsimp only
  repeat' split
  all_goals simp

@[simp] theorem State.nmTick_mem (s : State) : s.nmTick.mem = s.mem := by simp [State.nmTick]
@[simp] theorem wakeHoldExpiry_mem (s : State) : (wakeHoldExpiry s).mem = s.mem := by simp [wakeHoldExpiry]

@[simp] theorem State.kaCan_mem (s : State) (n : Nat) : (s.kaCan n).mem = s.mem := by
  unfold State.kaCan
  extract_lets c m
  split
  · rfl
  · split
    · next t heq =>
      change t.mem = s.mem
      exact State.canPut_mem _ _ _ _ t heq
    · rfl

@[simp] theorem State.kaUdp_mem (s : State) : s.kaUdp.mem = s.mem := by simp [State.kaUdp]
@[simp] theorem keepAliveSend_mem (s : State) : (keepAliveSend s).mem = s.mem := by simp [keepAliveSend]
@[simp] theorem maximumAwakeTime_mem (node : Nat) (s : State) : (maximumAwakeTime node s).mem = s.mem := by simp [maximumAwakeTime]

@[simp] theorem ignoredNodeRelease_mem (node : Nat) (s : State) : (ignoredNodeRelease node s).mem = s.mem := by
  unfold ignoredNodeRelease
  dsimp only
  repeat' split
  all_goals simp

@[simp] theorem wakeLineEdge_mem (w : Nat) (s : State) : (wakeLineEdge w s).mem = s.mem := by
  unfold wakeLineEdge
  dsimp only
  repeat' split
  all_goals simp

@[simp] theorem wakeLineLow_mem (w : Nat) (s : State) : (wakeLineLow w s).mem = s.mem := by simp [wakeLineLow]
@[simp] theorem wakePulseEnd_mem (w : Nat) (s : State) : (wakePulseEnd w s).mem = s.mem := by simp [wakePulseEnd]
@[simp] theorem State.busWake_mem (s : State) (m : BitVec 9) (chan : Nat) : (s.busWake m chan).mem = s.mem := by simp [State.busWake]
@[simp] theorem canWakePattern_mem (n : Nat) (s : State) : (canWakePattern n s).mem = s.mem := by simp [canWakePattern]
@[simp] theorem linWakePulse_mem (m : Nat) (s : State) : (linWakePulse m s).mem = s.mem := by simp [linWakePulse]
@[simp] theorem phyWake_mem (k : Nat) (s : State) : (phyWake k s).mem = s.mem := by simp [phyWake]
@[simp] theorem aonSwWake_mem (s : State) : (aonSwWake s).mem = s.mem := by simp [aonSwWake]
@[simp] theorem State.writeStatic_wf (s : State) (hm : Memory.wf s.mem = true) : Memory.wf s.writeStatic.mem = true := by simp [State.writeStatic, hm]

@[simp] theorem snapshotStaticRewrite_wf (s : State) (hm : Memory.wf s.mem = true) : Memory.wf (snapshotStaticRewrite s).mem = true := by
  simp [snapshotStaticRewrite, hm]

@[simp] theorem State.commitStore_wf (s : State) (hm : Memory.wf s.mem = true) : Memory.wf s.commitStore.mem = true := by
  unfold State.commitStore
  dsimp only
  repeat' split
  all_goals simp [hm]

@[simp] theorem State.commitStored_mem (s : State) : s.commitStored.mem = s.mem := by simp [State.commitStored]

@[simp] theorem State.commitSilence_wf (s : State) (hm : Memory.wf s.mem = true) : Memory.wf s.commitSilence.mem = true := by
  unfold State.commitSilence
  rw [State.allLinksDown_mem]
  refine foldN_wf (fun u n hu => ?_) hm 32
  exact foldl_wf (fun v e hv => State.canLeft_wf _ _ _ _ _ _ hv) (by simp [hu]) _

@[simp] theorem State.enterSlack_wf (s : State) (hm : Memory.wf s.mem = true) : Memory.wf s.enterSlack.mem = true := by simp [State.enterSlack, hm]
@[simp] theorem State.commitStep_wf (s : State) (hm : Memory.wf s.mem = true) : Memory.wf s.commitStep.mem = true := by simp [State.commitStep, hm]
@[simp] theorem State.commitRefused_mem (s : State) : s.commitRefused.mem = s.mem := by simp [State.commitRefused]

@[simp] theorem State.requestCommit_mem (s : State) : s.requestCommit.mem = s.mem := by
  unfold State.requestCommit
  dsimp only
  repeat' split
  all_goals simp

@[simp] theorem commit_mem (s : State) : (commit s).mem = s.mem := by simp [commit]

@[simp] theorem State.abortForSleep_wf (s : State) (hm : Memory.wf s.mem = true) : Memory.wf s.abortForSleep.mem = true := by
  unfold State.abortForSleep
  dsimp only
  repeat' split
  all_goals simp [hm]

@[simp] theorem ebbTimeout_wf (s : State) (hm : Memory.wf s.mem = true) : Memory.wf (ebbTimeout s).mem = true := by simp [ebbTimeout, hm]
@[simp] theorem State.nmInCommit_mem (s : State) : s.nmInCommit.2.mem = s.mem := by simp [State.nmInCommit]
@[simp] theorem nmHostNeed_wf (mb : Mb) (s : State) (hm : Memory.wf s.mem = true) : Memory.wf (nmHostNeed mb s).mem = true := by simp [nmHostNeed, hm]

@[simp] theorem nmHostRelease_wf (mb : Mb) (s : State) (hm : Memory.wf s.mem = true) : Memory.wf (nmHostRelease mb s).mem = true := by
  simp [nmHostRelease, hm]

@[simp] theorem nmStatus_wf (mb : Mb) (s : State) (hm : Memory.wf s.mem = true) : Memory.wf (nmStatus mb s).mem = true := by simp [nmStatus, hm]

/-! Vault and keys (R362 to R391). -/

@[simp] theorem State.spoilInterrupted_mem (s : State) (marks : Nat → Bool) : (s.spoilInterrupted marks).mem = s.mem := by
  simp [State.spoilInterrupted]

@[simp] theorem State.openRefusal_mem (s : State) : s.openRefusal.2.mem = s.mem := by simp [State.openRefusal]
@[simp] theorem State.attrRefuse_mem (s : State) (st : Status) : (s.attrRefuse st).2.mem = s.mem := by simp [State.attrRefuse]
@[simp] theorem State.uninstall_mem (s : State) (mask : Nat) : (s.uninstall mask).mem = s.mem := by simp [State.uninstall]
@[simp] theorem State.install_mem (s : State) (wk b : Nat) : (s.install wk b).mem = s.mem := by simp [State.install]

@[simp] theorem State.keyWrite_mem (s : State) (wk : Nat) (k : WorkKey) (bind : Option Nat) : (s.keyWrite wk k bind).mem = s.mem := by
  unfold State.keyWrite
  split <;> simp

@[simp] theorem State.keyTarget_mem (s : State) (wk : Nat) (k : WorkKey) (bind : Option Nat) : (s.keyTarget wk k bind).2.mem = s.mem := by
  simp [State.keyTarget]

@[simp] theorem State.secServe_wf (s : State) (mb : Mb) (isCode : Nat → Bool) {f : List Byte → State → Reply × State}
    (hf : ∀ p u, Memory.wf u.mem = true → Memory.wf (f p u).2.mem = true) (hm : Memory.wf s.mem = true) :
    Memory.wf (s.secServe mb isCode f).mem = true := by
  simp [State.secServe, State.serve_wf _ _ _ _ hf hm]

@[simp] theorem keyLoad_wf (mb : Mb) (s : State) (hm : Memory.wf s.mem = true) : Memory.wf (keyLoad mb s).mem = true := by
  unfold keyLoad
  refine State.secServe_wf _ _ _ (fun p u hu => ?_) hm
  dsimp only
  repeat' split
  all_goals simp [hu]

@[simp] theorem keyClear_wf (mb : Mb) (s : State) (hm : Memory.wf s.mem = true) : Memory.wf (keyClear mb s).mem = true := by simp [keyClear, hm]

@[simp] theorem keyDerive_wf (mb : Mb) (s : State) (hm : Memory.wf s.mem = true) : Memory.wf (keyDerive mb s).mem = true := by
  unfold keyDerive
  refine State.secServe_wf _ _ _ (fun p u hu => ?_) hm
  dsimp only
  repeat' split
  all_goals simp [hu]

@[simp] theorem State.startOtp_mem (s : State) (ks : Nat) (data : BitVec 256) (desc : Word) : (s.startOtp ks data desc).2.mem = s.mem := by
  unfold State.startOtp
  split
  · rfl
  · split
    · rfl
    · next heq => simp [snd_mem_of_eq heq]

@[simp] theorem otpProgram_wf (mb : Mb) (s : State) (hm : Memory.wf s.mem = true) : Memory.wf (otpProgram mb s).mem = true := by
  unfold otpProgram
  refine State.secServe_wf _ _ _ (fun p u hu => ?_) hm
  dsimp only
  repeat' split
  all_goals simp [hu]

@[simp] theorem State.finishOtp_wf (s : State) (st : Status) (hm : Memory.wf s.mem = true) : Memory.wf (s.finishOtp st).mem = true := by
  unfold State.finishOtp
  split <;> simp [hm]

@[simp] theorem otpProgrammingComplete_wf (s : State) (hm : Memory.wf s.mem = true) : Memory.wf (otpProgrammingComplete s).mem = true := by
  unfold otpProgrammingComplete
  split <;> simp [hm]

@[simp] theorem sigVerify_wf (mb : Mb) (s : State) (hm : Memory.wf s.mem = true) : Memory.wf (sigVerify mb s).mem = true := by
  unfold sigVerify
  refine State.secServe_wf _ _ _ (fun p u hu => ?_) hm
  dsimp only
  repeat' split
  all_goals simp [hu]

@[simp] theorem State.cryptoRun_mem (s : State) (op : Nat) (key iv aad data tag : List Byte) :
    (s.cryptoRun op key iv aad data tag).2.mem = s.mem := by
  unfold State.cryptoRun
  dsimp only
  repeat' split
  all_goals simp

@[simp] theorem hostCrypto_wf (mine : Nat → Bool) (mb : Mb) (s : State) (hm : Memory.wf s.mem = true) :
    Memory.wf (hostCrypto mine mb s).mem = true := by
  unfold hostCrypto
  split
  · exact hm
  · refine State.secServe_wf _ _ _ (fun p u hu => ?_) hm
    dsimp only
    repeat' split
    all_goals simp [hu]

@[simp] theorem aesGcmEncrypt_wf (mb : Mb) (s : State) (hm : Memory.wf s.mem = true) : Memory.wf (aesGcmEncrypt mb s).mem = true := by
  simp [aesGcmEncrypt, hm]

@[simp] theorem aesGcmDecrypt_wf (mb : Mb) (s : State) (hm : Memory.wf s.mem = true) : Memory.wf (aesGcmDecrypt mb s).mem = true := by
  simp [aesGcmDecrypt, hm]

@[simp] theorem aesCmacGenerate_wf (mb : Mb) (s : State) (hm : Memory.wf s.mem = true) : Memory.wf (aesCmacGenerate mb s).mem = true := by
  simp [aesCmacGenerate, hm]

@[simp] theorem aesCmacVerify_wf (mb : Mb) (s : State) (hm : Memory.wf s.mem = true) : Memory.wf (aesCmacVerify mb s).mem = true := by
  simp [aesCmacVerify, hm]

@[simp] theorem sha384Command_wf (mb : Mb) (s : State) (hm : Memory.wf s.mem = true) : Memory.wf (sha384Command mb s).mem = true := by
  simp [sha384Command, hm]

@[simp] theorem authStart_mem (a : Nat) (s : State) : (authStart a s).mem = s.mem := by
  unfold authStart
  dsimp only
  repeat' split
  all_goals simp

@[simp] theorem authFeed_mem (a : Nat) (bs : List Byte) (s : State) : (authFeed a bs s).mem = s.mem := by simp [authFeed]
@[simp] theorem authFinish_mem (a : Nat) (s : State) : (authFinish a s).mem = s.mem := by simp [authFinish]
@[simp] theorem wkMat_mem (wk word : Nat) (v : Word) (s : State) : (wkMat wk word v s).mem = s.mem := by simp [wkMat]

@[simp] theorem State.latchTamper_mem (s : State) (src : BitVec 4) (phase : BitVec 2) : (s.latchTamper src phase).mem = s.mem := by
  simp [State.latchTamper]

@[simp] theorem State.wipeKeys_mem (s : State) : s.wipeKeys.mem = s.mem := by
  unfold State.wipeKeys
  extract_lets hit s1
  have hhit : ∀ u o x, (hit u o x).2.mem = u.mem := by
    intro u o x
    simp only [hit]
    split <;> simp
  have h1 : s1.mem = s.mem := foldN_mem (fun u o => by simp [hhit]) 10
  clear_value s1
  exact (foldN_mem (fun u a => by split <;> simp) 4).trans h1

@[simp] theorem State.stopOtp_wf (s : State) (hm : Memory.wf s.mem = true) : Memory.wf s.stopOtp.mem = true := by simp [State.stopOtp, hm]

@[simp] theorem State.stopTaken_wf (s : State) (hm : Memory.wf s.mem = true) : Memory.wf s.stopTaken.mem = true := by
  unfold State.stopTaken
  split <;> simp [hm]

@[simp] theorem tamperEvent_wf (src : BitVec 4) (s : State) (hm : Memory.wf s.mem = true) : Memory.wf (tamperEvent src s).mem = true := by
  simp [tamperEvent, hm]

/-! NRN_RECORD (R429). -/

@[simp] theorem State.nrnReadReply_mem (s : State) (w : Nat) (p : List Byte) : (s.nrnReadReply w p).2.mem = s.mem := by
  unfold State.nrnReadReply
  dsimp only
  repeat' split
  all_goals simp

@[simp] theorem State.nrnStageReply_mem (s : State) (w : Nat) (p : List Byte) : (s.nrnStageReply w p).2.mem = s.mem := by simp [State.nrnStageReply]

@[simp] theorem State.nrnFetchReply_mem (s : State) (w : Nat) (p : List Byte) : (s.nrnFetchReply w p).2.mem = s.mem := by
  unfold State.nrnFetchReply
  iterate 3 (split; · rfl)
  split <;> rfl

@[simp] theorem nrnRecord_wf (mine : Nat → Bool) (mb : Mb) (s : State) (hm : Memory.wf s.mem = true) :
    Memory.wf (nrnRecord mine mb s).mem = true := by
  unfold nrnRecord
  split
  · exact hm
  · refine State.serve_wf _ _ _ _ (fun p u hu => ?_) hm
    dsimp only
    repeat' split
    all_goals simp [hu]

@[simp] theorem nrnRead_wf (mb : Mb) (s : State) (hm : Memory.wf s.mem = true) : Memory.wf (nrnRead mb s).mem = true := by simp [nrnRead, hm]
@[simp] theorem nrnStage_wf (mb : Mb) (s : State) (hm : Memory.wf s.mem = true) : Memory.wf (nrnStage mb s).mem = true := by simp [nrnStage, hm]
@[simp] theorem nrnFetch_wf (mb : Mb) (s : State) (hm : Memory.wf s.mem = true) : Memory.wf (nrnFetch mb s).mem = true := by simp [nrnFetch, hm]

@[simp] theorem State.islandFetch_wf (s : State) (hm : Memory.wf s.mem = true) : Memory.wf s.islandFetch.2.mem = true := by
  simp [State.islandFetch, hm]

@[simp] theorem calibrationPoll_wf (dt : Nat) (s : State) (hm : Memory.wf s.mem = true) : Memory.wf (calibrationPoll dt s).mem = true := by
  simp [calibrationPoll, hm]

/-! PARAM_SET (R286). -/

@[simp] theorem State.paramCheck_mem (s : State) (pid v : Nat) : ∀ t, (s.paramCheck pid v) = .inr t → t.mem = s.mem := by
  unfold State.paramCheck
  dsimp only
  repeat' split
  all_goals simp

@[simp] theorem State.restartLink_mem (s : State) (p : Nat) : (s.restartLink p).mem = s.mem := by simp [State.restartLink]
@[simp] theorem State.selectTime_mem (s : State) (v : Nat) : (s.selectTime v).mem = s.mem := by simp [State.selectTime]
@[simp] theorem State.encoderFollow_mem (s : State) (old v : Nat) : (s.encoderFollow old v).mem = s.mem := by simp [State.encoderFollow]
@[simp] theorem State.pairMode_mem (s : State) (old v : Nat) : (s.pairMode old v).mem = s.mem := by simp [State.pairMode]
@[simp] theorem State.svcOff_mem (s : State) : s.svcOff.mem = s.mem := by simp [State.svcOff]
@[simp] theorem State.waitSelection_mem (s : State) (pid old : Nat) : (s.waitSelection pid old).mem = s.mem := by simp [State.waitSelection]
@[simp] theorem State.paramEffect_mem (s : State) (pid old v : Nat) : (s.paramEffect pid old v).mem = s.mem := by simp [State.paramEffect]

@[simp] theorem State.paramApply_mem (s : State) (pid v : Nat) : (s.paramApply pid v).mem = s.mem := by
  unfold State.paramApply
  split <;> simp

@[simp] theorem State.paramsApply_mem (s : State) (es : List (Nat × Nat)) : (s.paramsApply es).mem = s.mem := by simp [State.paramsApply]

@[simp] theorem paramSet_wf (mb : Mb) (s : State) (hm : Memory.wf s.mem = true) : Memory.wf (paramSet mb s).mem = true := by
  unfold paramSet
  refine State.serve_wf _ _ _ _ (fun p u hu => ?_) hm
  dsimp only
  repeat' split
  all_goals simp [hu]

/-! Field update (R392 to R413). -/

@[simp] theorem State.setStage_wf (s : State) (b : Bool) (a : Area) (hm : Memory.wf s.mem = true) : Memory.wf (s.setStage b a).mem = true := by
  simp [State.setStage, hm]

@[simp] theorem State.spoilCopy_mem (s : State) (a : Nat) : (s.spoilCopy a).mem = s.mem := by simp [State.spoilCopy]

@[simp] theorem State.emptyStage_wf (s : State) (b : Bool) (hm : Memory.wf s.mem = true) : Memory.wf (s.emptyStage b).mem = true := by
  simp [State.emptyStage, hm]

@[simp] theorem State.applyRecord_wf (s : State) (rtype : Nat) (body : List Byte) (hm : Memory.wf s.mem = true) :
    ∀ t, s.applyRecord rtype body = some t → Memory.wf t.mem = true := by
  intro t h
  unfold State.applyRecord at h
  have hl := State.loadObject_wf s rtype body hm
  split at h
  · split at h
    · cases h
    · cases h; simp [hm]
  · split at h
    · next heq => cases h; rw [heq] at hl; exact hl
    · next heq =>
      rw [heq] at hl
      dsimp only at h
      split at h <;> cases h <;> simp [hl]
    · cases h

@[simp] theorem State.applyRecords_wf (s : State) (kinds : List Nat) (n : Nat) (b : List Byte) (hm : Memory.wf s.mem = true) :
    ∀ t, s.applyRecords kinds n b = some t → Memory.wf t.mem = true := by
  induction n generalizing s b with
  | zero =>
    intro t h
    rw [State.applyRecords] at h
    split at h
    · cases h; exact hm
    · cases h
  | succ n ih =>
    intro t h
    rw [State.applyRecords] at h
    split at h
    · cases h; exact hm
    · dsimp only at h
      split at h
      · cases h
      · split at h
        · next u hu => exact ih u _ (State.applyRecord_wf s _ _ hm u hu) t h
        · cases h

@[simp] theorem State.applyManifest_wf (s : State) (p : List Byte) (i : Nat) (es : List Nat) (hm : Memory.wf s.mem = true) :
    ∀ t, s.applyManifest p i es = .inr t → Memory.wf t.mem = true := by
  induction es generalizing s i with
  | nil =>
    intro t h
    rw [State.applyManifest] at h
    cases h
    exact hm
  | cons e es ih =>
    intro t h
    rw [State.applyManifest] at h
    split at h
    · exact ih s _ hm t h
    · dsimp only at h
      split at h
      · next u hu => exact ih u _ (State.applyRecords_wf s _ _ _ hm u hu) t h
      · cases h

@[simp] theorem State.svcSend_mem (s : State) (m : List Byte) : (s.svcSend m).mem = s.mem := by
  unfold State.svcSend
  split <;> simp

@[simp] theorem State.postUpd_wf (s : State) (hm : Memory.wf s.mem = true) : Memory.wf s.postUpd.mem = true := by
  unfold State.postUpd
  split <;> simp [hm]

@[simp] theorem State.svcReply_mem (s : State) (op code : Nat) (pay : List Byte) : (s.svcReply op code pay).mem = s.mem := by simp [State.svcReply]

@[simp] theorem State.relayAborted_mem (s : State) : s.relayAborted.mem = s.mem := by
  unfold State.relayAborted
  split <;> simp

@[simp] theorem State.svcAnswer_wf (s : State) (op : Nat) (st : Status) (next : Option Nat) (hm : Memory.wf s.mem = true) :
    Memory.wf (s.svcAnswer op st next).mem = true := by
  simp [State.svcAnswer, hm]

@[simp] theorem State.updServe_wf (s : State) (src : UpdSrc) (mine : Nat → Bool) {f : List Byte → State → UpdReply × State}
    (hf : ∀ p u, Memory.wf u.mem = true → Memory.wf (f p u).2.mem = true) (hm : Memory.wf s.mem = true) :
    Memory.wf (s.updServe src mine f).mem = true := by
  unfold State.updServe
  split
  · extract_lets op
    split
    · exact hm
    · rw [State.nmFollow_mem]
      refine State.serve_wf _ _ _ _ (fun p u hu => ?_) hm
      have hp := hf p u hu
      split <;> next heq => rw [heq] at hp; simpa using hp
  · split
    · next p _ =>
      extract_lets t
      have ht : Memory.wf t.mem = true := by simp [t, hm]
      split
      · exact hm
      · have hp := hf p t ht
        split <;> next heq => rw [heq] at hp; simp [hp]
    · exact hm

@[simp] theorem State.updNo_mem (s : State) (st : Status) : (s.updNo st).2.mem = s.mem := by simp [State.updNo]

/-- A session begins in area `b`: the one there was ends, and the record of the area is written. -/
theorem headerStage_wf (s : State) (t : Bool) (a : State → Area) (hm : Memory.wf s.mem = true) :
    let u := match s.staged with
      | some b => if b = t then s else s.emptyStage b
      | none => s
    Memory.wf (u.setStage t (a u)).mem = true := by
  refine State.setStage_wf _ _ _ ?_
  split
  · split
    · exact hm
    · exact State.emptyStage_wf _ _ hm
  · exact hm

@[simp] theorem header_wf (src : UpdSrc) (s : State) (hm : Memory.wf s.mem = true) : Memory.wf (header src s).mem = true := by
  unfold header
  refine wf_mem_ite hm (State.updServe_wf _ _ _ (fun p u hu => ?_) hm)
  extract_lets w hd _ moved t
  clear_value w hd t
  have hmoved : Memory.wf moved.mem = true := hu
  clear_value moved
  iterate 7 (split; · simp [hu, hmoved])
  split
  · simp [hu]
  · iterate 3 (split; · simp [hu])
    exact headerStage_wf u t (fun v => { v.stage t with state := .receiving, header := hd, map := [] }) hu

@[simp] theorem State.dropPart_mem (s : State) (i : Nat) : (s.dropPart i).mem = s.mem := by simp [State.dropPart]

@[simp] theorem State.blockComplete_mem (s : State) (src : UpdSrc) (x : Partial) : (s.blockComplete src x).2.mem = s.mem := by
  unfold State.blockComplete
  dsimp only
  repeat' split
  all_goals simp

@[simp] theorem block_wf (src : UpdSrc) (s : State) (hm : Memory.wf s.mem = true) : Memory.wf (block src s).mem = true := by simp [block, hm]

@[simp] theorem State.blockAnswer_wf (s : State) (src : UpdSrc) (st : Status) (hm : Memory.wf s.mem = true) :
    Memory.wf (s.blockAnswer src st).mem = true := by
  unfold State.blockAnswer
  split <;> simp [hm]

@[simp] theorem blockStore_wf (s : State) (hm : Memory.wf s.mem = true) : Memory.wf (blockStore s).mem = true := by
  unfold blockStore
  split
  · next x src b _ _ =>
    split
    · exact hm
    · extract_lets _ t u
      have ht : Memory.wf t.mem = true := by simp [t, hm]
      have hu : Memory.wf u.mem = true := State.wrB_wf _ _ _ ht
      clear_value t u
      split
      · simp [ht]
      · simp [ht, hu]
  · exact hm

@[simp] theorem State.relaySend_mem (s : State) (r : Relay) : (s.relaySend r).mem = s.mem := by simp [State.relaySend]

@[simp] theorem State.relayStatus_wf (s : State) (r : Relay) (code : Nat) (hm : Memory.wf s.mem = true) :
    Memory.wf (s.relayStatus r code).mem = true := by
  unfold State.relayStatus
  dsimp only
  repeat' split
  all_goals simp [hm]

@[simp] theorem State.relayNext_mem (s : State) (r : Relay) (next : Nat) : (s.relayNext r next).mem = s.mem := by simp [State.relayNext]

@[simp] theorem finish_wf (src : UpdSrc) (s : State) (hm : Memory.wf s.mem = true) : Memory.wf (finish src s).mem = true := by
  unfold finish
  refine wf_mem_ite hm (State.updServe_wf _ _ _ (fun p u hu => ?_) hm)
  dsimp only
  split
  · simp [hu]
  · iterate 4 (split; · simp [hu])
    split
    · simp [hu]
    · simp [hu]

@[simp] theorem cancel_wf (src : UpdSrc) (s : State) (hm : Memory.wf s.mem = true) : Memory.wf (cancel src s).mem = true := by
  unfold cancel
  split
  · exact hm
  · refine State.updServe_wf _ _ _ (fun p u hu => ?_) hm
    dsimp only
    repeat' split
    all_goals simp [hu]

@[simp] theorem go_wf (src : UpdSrc) (s : State) (hm : Memory.wf s.mem = true) : Memory.wf (go src s).mem = true := by simp [go, hm]
@[simp] theorem pairGoIssue_mem (s : State) : (pairGoIssue s).mem = s.mem := by simp [pairGoIssue]

@[simp] theorem activationDeadline_wf (s : State) (hm : Memory.wf s.mem = true) : Memory.wf (activationDeadline s).mem = true := by
  unfold activationDeadline
  split <;> simp [hm]

@[simp] theorem State.partnerAnswer_wf (s : State) (off : Nat) (w : Word) (hm : Memory.wf s.mem = true) :
    Memory.wf (s.partnerAnswer off w).mem = true := by
  unfold State.partnerAnswer
  dsimp only
  repeat' split
  all_goals simp [hm]

@[simp] theorem updStatus_wf (mb : Mb) (s : State) (hm : Memory.wf s.mem = true) : Memory.wf (updStatus mb s).mem = true := by simp [updStatus, hm]

@[simp] theorem updLock_wf (mb : Mb) (s : State) (hm : Memory.wf s.mem = true) : Memory.wf (updLock mb s).mem = true := by
  unfold updLock
  refine wf_mem_ite hm (State.serve_wf _ _ _ _ (fun p u hu => ?_) hm)
  dsimp only
  iterate 6 (split; · simp [hu])
  simp [hu]

@[simp] theorem State.svcPacket_mem (s : State) (dst : List Byte) (proto : Nat) (p : List Byte) : (s.svcPacket dst proto p).2.mem = s.mem := by
  simp [State.svcPacket]

@[simp] theorem State.svcArp_mem (s : State) (b : List Byte) (p : Parsed) : (s.svcArp b p).mem = s.mem := by simp [State.svcArp]
@[simp] theorem State.svcIcmp_mem (s : State) (b : List Byte) (p : Parsed) : (s.svcIcmp b p).mem = s.mem := by simp [State.svcIcmp]
@[simp] theorem State.svcUdp_mem (s : State) (b : List Byte) (p : Parsed) : (s.svcUdp b p).mem = s.mem := by simp [State.svcUdp]

@[simp] theorem State.doipMessage_wf (s : State) (type : Nat) (m : List Byte) (hm : Memory.wf s.mem = true) :
    Memory.wf (s.doipMessage type m).mem = true := by
  unfold State.doipMessage
  split <;> simp [hm]

@[simp] theorem State.doipStream_wf (s : State) (n : Nat) (hm : Memory.wf s.mem = true) : Memory.wf (s.doipStream n).mem = true := by
  induction n generalizing s with
  | zero => exact hm
  | succ n ih =>
    rw [State.doipStream]
    split
    · exact hm
    · dsimp only
      split
      · exact hm
      · split
        · exact ih _ (by simpa using hm)
        · split
          · exact hm
          · exact ih _ (State.doipMessage_wf _ _ _ hm)

@[simp] theorem State.svcTcp_wf (s : State) (b : List Byte) (p : Parsed) (hm : Memory.wf s.mem = true) : Memory.wf (s.svcTcp b p).mem = true := by
  unfold State.svcTcp
  extract_lets o seq hl data peer syn lost
  clear_value o seq hl data peer syn lost
  split
  · exact hm
  · split
    · simp [hm]
    · split
      · split
        · simp [hm]
        · exact hm
      · split
        · exact hm
        · simp [hm]

@[simp] theorem svcFrameReceive_mem (b : List Byte) (s : State) : (svcFrameReceive b s).mem = s.mem := by simp [svcFrameReceive]

@[simp] theorem State.svcFrame_wf (s : State) (b : List Byte) (hm : Memory.wf s.mem = true) : Memory.wf (s.svcFrame b).mem = true := by
  simp [State.svcFrame, hm]

@[simp] theorem State.svcTick_wf (s : State) (hm : Memory.wf s.mem = true) : Memory.wf s.svcTick.mem = true := by simp +contextual [State.svcTick, hm]

end Sys2Proof.Machine
end

