-- ==== Sys2Proof/Proofs/CanonicalHost.lean ====
section
/-! SUPPORT. Memory and its canonical form through the functions of the model (O4):
reads and writes over the interconnect, lockstep, the pair, starts and the cycle.
A lemma `f_mem` says that `f` leaves
memory as it was, a lemma `f_wf` that it keeps the canonical form. -/

namespace Sys2Proof.Machine

/-! Reads (R22, R92). -/

@[simp] theorem State.rcClear_mem (s : State) (a : Nat) : (s.rcClear a).mem = s.mem := by
  unfold State.rcClear
  dsimp only
  repeat' split
  all_goals simp

@[simp] theorem State.readBuffer_wf (s : State) (a : Nat) (hm : Memory.wf s.mem = true) : Memory.wf (s.readBuffer a).2.mem = true := by
  unfold State.readBuffer
  dsimp only
  repeat' split
  all_goals simp [hm]

@[simp] theorem State.seeRecov_mem (s : State) (a : Nat) : (s.seeRecov a).mem = s.mem := by
  unfold State.seeRecov
  split <;> simp

@[simp] theorem State.readWord_wf (s : State) (a : Nat) (peek : Bool) (hm : Memory.wf s.mem = true) : Memory.wf (s.readWord a peek).2.mem = true := by
  simp [State.readWord, hm]

/-! Host bridges (R263 to R275). -/

@[simp] theorem State.feedValue_mem (s : State) (n v be : Nat) : (s.feedValue n v be).2.mem = s.mem := by simp [State.feedValue]

@[simp] theorem State.popPwe_mem (s : State) : s.popPwe.mem = s.mem := by
  unfold State.popPwe
  split <;> simp

@[simp] theorem State.forceIrq_mem (s : State) (v : Nat) : (s.forceIrq v).mem = s.mem := by simp [State.forceIrq]
@[simp] theorem State.writeSnapCtrl_mem (s : State) (v be : Nat) : (s.writeSnapCtrl v be).mem = s.mem := by simp [State.writeSnapCtrl]

@[simp] theorem State.writeDw_wf (s : State) (o v be : Nat) (hm : Memory.wf s.mem = true) : Memory.wf (s.writeDw o v be).mem = true := by
  unfold State.writeDw
  split <;> simp [hm]

@[simp] theorem State.writeMem_wf (s : State) (a v be : Nat) (hm : Memory.wf s.mem = true) : Memory.wf (s.writeMem a v be).mem = true := by
  unfold State.writeMem
  dsimp only
  repeat' split
  all_goals simp +contextual [hm]

@[simp] theorem State.afterTable_mem (s s' : State) (a v be : Nat) : (s.afterTable s' a v be).mem = s'.mem := by
  unfold State.afterTable
  split <;> simp

@[simp] theorem State.writeCan_wf (s : State) (n o v be : Nat) (hm : Memory.wf s.mem = true) : Memory.wf (s.writeCan n o v be).mem = true := by
  unfold State.writeCan
  extract_lets c x s1 s2 s3
  have h1 : Memory.wf s1.mem = true := by simp [s1, hm]
  have h2 : Memory.wf s2.mem = true := by simp [s2, h1]
  have h3 : Memory.wf s3.mem = true := by simp [s3, h2]
  clear_value s1 s2 s3
  split
  · simp [hm]
  · simp [hm]
  · simp [h3]
  · simp [hm]
  · exact hm

@[simp] theorem State.writeLin_mem (s : State) (m o v be : Nat) : (s.writeLin m o v be).mem = s.mem := by
  unfold State.writeLin
  split <;> simp

@[simp] theorem State.writeCv_mem (s : State) (u o v be : Nat) : (s.writeCv u o v be).mem = s.mem := by simp [State.writeCv]

@[simp] theorem State.writeSec_mem (s : State) (o v be : Nat) : (s.writeSec o v be).mem = s.mem := by
  unfold State.writeSec
  extract_lets w i a x
  clear_value w i a x
  split
  · split
    · rfl
    · exact wkMat_mem _ _ _ _
  · split
    · split
      · rfl
      · generalize (o - 0x3000) % 0x40 = r
        split <;> simp
    · rfl

@[simp] theorem State.writeAon_mem (s : State) (o v be : Nat) : (s.writeAon o v be).mem = s.mem := by
  unfold State.writeAon
  split <;> simp

@[simp] theorem State.writeWord_wf (s : State) (a v be : Nat) (hm : Memory.wf s.mem = true) : Memory.wf (s.writeWord a v be).mem = true := by
  unfold State.writeWord
  extract_lets _ s1 t
  have h1 : Memory.wf s1.mem = true := by simp [s1, hm]
  have ht : Memory.wf t.mem = true := State.writeMem_wf _ _ _ _ h1
  clear_value s1 t
  iterate 7 (split; · simp [h1])
  split
  · split <;> simp [ht]
  · split
    · simp [h1]
    · exact h1

@[simp] theorem State.logPwe_mem (s : State) (b : Bridge) (addr cause : Nat) (split : Bool) : (s.logPwe b addr cause split).mem = s.mem := by
  simp [State.logPwe]

@[simp] theorem State.deliverPart_wf (s : State) (b : Bridge) (p : Posted) (x : Word × BitVec 4) (hm : Memory.wf s.mem = true) :
    Memory.wf (s.deliverPart b p x).mem = true := by
  unfold State.deliverPart
  split <;> simp [hm]

@[simp] theorem State.setQueue_mem (s : State) (b : Bridge) (q : List Posted) : (s.setQueue b q).mem = s.mem := by
  unfold State.setQueue
  split <;> simp

@[simp] theorem State.partOver_mem (s s' : State) (b : Bridge) (p : Posted) (q : List Posted) (c : Nat) : (s.partOver s' b p q c).mem = s'.mem := by
  unfold State.partOver
  extract_lets s1
  have h1 : s1.mem = s'.mem := by simp [s1]
  split <;> simp [h1]

@[simp] theorem State.deliverOne_wf (s : State) (b : Bridge) (hm : Memory.wf s.mem = true) : Memory.wf (s.deliverOne b).mem = true := by
  unfold State.deliverOne
  split
  · exact hm
  · split
    · split
      · simp [hm]
      · simp [hm]
    · exact hm

@[simp] theorem State.deliverAll_wf (s : State) (b : Bridge) (hm : Memory.wf s.mem = true) : Memory.wf (s.deliverAll b).mem = true := by
  simp +contextual [State.deliverAll, hm]

@[simp] theorem State.deliverFree_wf (s : State) (b : Bridge) (hm : Memory.wf s.mem = true) : Memory.wf (s.deliverFree b).mem = true := by
  simp +contextual [State.deliverFree, hm]

@[simp] theorem pcieMemoryWrite_mem (bar : Bar) (off : Nat) (ws : List (Word × BitVec 4)) (s : State) :
    (pcieMemoryWrite bar off ws s).mem = s.mem := by
  simp [pcieMemoryWrite]

@[simp] theorem postedWriteDeliver_wf (b : Bridge) (s : State) (hm : Memory.wf s.mem = true) : Memory.wf (postedWriteDeliver b s).mem = true := by
  simp [postedWriteDeliver, hm]

@[simp] theorem State.bridgeRead_wf (s : State) (b : Bridge) (sp : Space) (off : Nat) (hm : Memory.wf s.mem = true) :
    Memory.wf (s.bridgeRead b sp off).2.2.mem = true := by
  unfold State.bridgeRead
  dsimp only
  repeat' split
  all_goals simp [hm]

@[simp] theorem State.readPart_wf (s : State) (r : Reading) (hm : Memory.wf s.mem = true) : Memory.wf (s.readPart r).mem = true := by
  simp [State.readPart, hm]

@[simp] theorem State.readTick_wf (s : State) (hm : Memory.wf s.mem = true) : Memory.wf s.readTick.mem = true := by
  unfold State.readTick
  split <;> simp [hm]

@[simp] theorem State.readRest_wf (s : State) (hm : Memory.wf s.mem = true) : Memory.wf s.readRest.mem = true := by
  simp +contextual [State.readRest, hm]

@[simp] theorem State.afterRead_wf (s : State) {f : State → State} (hf : ∀ u, Memory.wf u.mem = true → Memory.wf (f u).mem = true)
    (hm : Memory.wf s.mem = true) : Memory.wf (s.afterRead f).mem = true := by
  simp [State.afterRead, hf, hm]

@[simp] theorem pcieMemoryRead_wf (bar : Bar) (off n : Nat) (s : State) (hm : Memory.wf s.mem = true) :
    Memory.wf (pcieMemoryRead bar off n s).mem = true := by
  simp +contextual [pcieMemoryRead, hm]

@[simp] theorem pcieConfigurationRequest_wf (reg : Nat) (w : Option Word) (s : State) (hm : Memory.wf s.mem = true) :
    Memory.wf (pcieConfigurationRequest reg w s).mem = true := by
  unfold pcieConfigurationRequest
  split <;> simp [hm]

@[simp] theorem State.resetPcie_mem (s : State) : s.resetPcie.mem = s.mem := by simp [State.resetPcie]
@[simp] theorem functionLevelReset_mem (s : State) : (functionLevelReset s).mem = s.mem := by simp [functionLevelReset]
@[simp] theorem perstN_wf (low : Bool) (s : State) (hm : Memory.wf s.mem = true) : Memory.wf (perstN low s).mem = true := by simp [perstN, hm]
@[simp] theorem pcieLinkLoss_wf (s : State) (hm : Memory.wf s.mem = true) : Memory.wf (pcieLinkLoss s).mem = true := by simp [pcieLinkLoss, hm]
@[simp] theorem State.spiAccept_mem (s : State) (p : Posted) : (s.spiAccept p).mem = s.mem := by simp [State.spiAccept]
@[simp] theorem spiWrite_mem (addr : Nat) (ws : List Word) (s : State) : (spiWrite addr ws s).mem = s.mem := by simp [spiWrite]

@[simp] theorem State.spiReadWords_wf (s : State) (sp : Space) (off n : Nat) (hm : Memory.wf s.mem = true) :
    Memory.wf (s.spiReadWords sp off n).2.mem = true := by
  induction n generalizing s off with
  | zero => exact hm
  | succ n ih =>
    rw [State.spiReadWords]
    have hr := State.bridgeRead_wf s .spi sp off hm
    generalize s.bridgeRead .spi sp off = q at hr ⊢
    obtain ⟨v, c, t⟩ := q
    dsimp only at hr ⊢
    split
    · simpa using hr
    · exact ih t (off + 4) hr

@[simp] theorem State.spiReadFrom_wf (s : State) (addr n from_ : Nat) (hm : Memory.wf s.mem = true) :
    Memory.wf (s.spiReadFrom addr n from_).mem = true := by
  simp [State.spiReadFrom, hm]

@[simp] theorem spiRead_wf (addr n : Nat) (s : State) (hm : Memory.wf s.mem = true) : Memory.wf (spiRead addr n s).mem = true := by simp [spiRead, hm]

@[simp] theorem State.spiTick_wf (s : State) (hm : Memory.wf s.mem = true) : Memory.wf s.spiTick.mem = true := by
  unfold State.spiTick
  split <;> simp [hm]

@[simp] theorem spiStatus_mem (s : State) : (spiStatus s).mem = s.mem := by simp [spiStatus]
@[simp] theorem unknownInstruction_mem (op : Byte) (s : State) : (unknownInstruction op s).mem = s.mem := by simp [unknownInstruction]

@[simp] theorem targetTimeout_mem (b : Bridge) (isRead : Bool) (s : State) : (targetTimeout b isRead s).mem = s.mem := by
  unfold targetTimeout
  dsimp only
  repeat' split
  all_goals simp

@[simp] theorem dwPwePop_mem (s : State) : (dwPwePop s).mem = s.mem := by simp [dwPwePop]

@[simp] theorem irqModerationExpiry_mem (s : State) : (irqModerationExpiry s).mem = s.mem := by
  unfold irqModerationExpiry
  dsimp only
  repeat' split
  all_goals simp

@[simp] theorem registerWrite_wf (m : Master) (a v be : Nat) (s : State) (hm : Memory.wf s.mem = true) :
    Memory.wf (registerWrite m a v be s).mem = true := by
  unfold registerWrite
  dsimp only
  repeat' split
  all_goals simp [hm]

@[simp] theorem State.readCounter_wf (s : State) (w : Nat) (hm : Memory.wf s.mem = true) : Memory.wf (s.readCounter w).2.mem = true := by
  simp [State.readCounter, hm]

@[simp] theorem diagCounters_wf (mb : Mb) (s : State) (hm : Memory.wf s.mem = true) : Memory.wf (diagCounters mb s).mem = true := by
  refine State.serve_wf _ _ _ _ (fun p u hu => ?_) hm
  dsimp only
  split
  · exact hu
  · refine foldl_snd_wf (s := ([], u)) (fun acc w hacc => ?_) hu (words (p.length / 4) p)
    exact State.readCounter_wf acc.2 w hacc

/-! Lockstep (R334 to R346). -/

@[simp] theorem State.writeCkpt_wf (s : State) (body : List Byte) (hm : Memory.wf s.mem = true) : Memory.wf (s.writeCkpt body).mem = true := by
  unfold State.writeCkpt
  extract_lets _
  split
  next seq t heq =>
  have ht : t.mem = s.mem := by
    split at heq <;> cases heq <;> simp
  extract_lets _
  iterate 3 apply State.wrB_wf
  rw [ht]
  exact hm

@[simp] theorem checkpoint_wf (body : List Byte) (s : State) (hm : Memory.wf s.mem = true) : Memory.wf (checkpoint body s).mem = true := by
  simp [checkpoint, hm]

@[simp] theorem State.restartToken_mem (s : State) : s.restartToken.mem = s.mem := by
  unfold State.restartToken
  dsimp only
  repeat' split
  all_goals simp

@[simp] theorem State.restartCores_wf (s : State) (hm : Memory.wf s.mem = true) : Memory.wf s.restartCores.mem = true := by
  unfold State.restartCores
  dsimp only
  repeat' split
  all_goals simp [hm]

@[simp] theorem State.mismatch_wf (s : State) (d0 d1 : BitVec 64) (hm : Memory.wf s.mem = true) : Memory.wf (s.mismatch d0 d1).mem = true := by
  unfold State.mismatch
  dsimp only
  repeat' split
  all_goals simp [hm]

@[simp] theorem State.release_wf (s : State) (w : HeldWrite) (hm : Memory.wf s.mem = true) : Memory.wf (s.release w).mem = true := by
  simp [State.release, hm]

@[simp] theorem State.coreReads_wf (s : State) (p : CoreRead → Bool) (w : CoreWindow) (hm : Memory.wf s.mem = true) :
    Memory.wf (s.coreReads p w).mem = true := by
  simp +contextual [State.coreReads, hm]

@[simp] theorem State.cmpFault_wf (s : State) (f : CmpReport) (ctx : Nat) (hm : Memory.wf s.mem = true) :
    Memory.wf (s.cmpFault f ctx).mem = true := by
  simp [State.cmpFault, hm]

@[simp] theorem comparatorInjectionTest_wf (fail : Option CmpReport) (s : State) (hm : Memory.wf s.mem = true) :
    Memory.wf (comparatorInjectionTest fail s).mem = true := by
  unfold comparatorInjectionTest
  dsimp only
  repeat' split
  all_goals simp [hm]

/-! The redundant pair (R347 to R361). -/

@[simp] theorem State.mirReceived_mem (s : State) : s.mirReceived.mem = s.mem := by simp [State.mirReceived]
@[simp] theorem State.syncAll_mem (s : State) : s.syncAll.mem = s.mem := by simp [State.syncAll]
@[simp] theorem State.setRole_mem (s : State) (r : BitVec 2) : (s.setRole r).mem = s.mem := by simp [State.setRole]

@[simp] theorem State.judge_mem (s : State) (t : Nat) : (s.judge t).mem = s.mem := by
  unfold State.judge
  dsimp only
  repeat' split
  all_goals simp

@[simp] theorem State.linInitial_mem (s : State) : s.linInitial.mem = s.mem := by simp [State.linInitial]
@[simp] theorem State.canHold_mem (s : State) : s.canHold.mem = s.mem := by simp [State.canHold]
@[simp] theorem State.takeover_mem (s : State) : s.takeover.mem = s.mem := by simp [State.takeover]

@[simp] theorem State.clearTable_wf (s : State) (lo hi : Nat) (hm : Memory.wf s.mem = true) : Memory.wf (s.clearTable lo hi).mem = true := by
  simp [State.clearTable, hm]

@[simp] theorem State.yieldRole_wf (s : State) (hm : Memory.wf s.mem = true) : Memory.wf s.yieldRole.mem = true := by simp [State.yieldRole, hm]
@[simp] theorem State.endSplit_mem (s : State) : s.endSplit.mem = s.mem := by simp [State.endSplit]

@[simp] theorem State.heartbeatSecondary_mem (s : State) (h : Heartbeat) (fresh starting : Bool) :
    (s.heartbeatSecondary h fresh starting).mem = s.mem := by
  simp [State.heartbeatSecondary]

@[simp] theorem State.heartbeatPrimary_wf (s : State) (h : Heartbeat) (fresh silent split : Bool) (hm : Memory.wf s.mem = true) :
    Memory.wf (s.heartbeatPrimary h fresh silent split).mem = true := by
  simp [State.heartbeatPrimary, hm]

@[simp] theorem heartbeat_wf (h : Heartbeat) (s : State) (hm : Memory.wf s.mem = true) : Memory.wf (heartbeat h s).mem = true := by
  simp [heartbeat, hm]

@[simp] theorem heartbeatSend_mem (s : State) : (heartbeatSend s).mem = s.mem := by simp [heartbeatSend]

@[simp] theorem pairRoleTimeout_mem (s : State) : (pairRoleTimeout s).mem = s.mem := by
  unfold pairRoleTimeout
  split <;> simp

@[simp] theorem partnerSilence_mem (s : State) : (partnerSilence s).mem = s.mem := by simp [partnerSilence]
@[simp] theorem roleChange_mem (at_ : RT) (s : State) : (roleChange at_ s).mem = s.mem := by simp [roleChange]
@[simp] theorem State.exchangeRoles_mem (s : State) : s.exchangeRoles.mem = s.mem := by simp [State.exchangeRoles]

@[simp] theorem mirrorCompare_mem (s : State) : (mirrorCompare s).mem = s.mem := by
  unfold mirrorCompare
  dsimp only
  repeat' split
  all_goals simp

@[simp] theorem digest_mem (t : Nat) (v : BitVec 64) (s : State) : (digest t v s).mem = s.mem := by simp [digest]

@[simp] theorem State.writeConn_wf (s : State) (e : Nat) (b : List Byte) (hm : Memory.wf s.mem = true) : Memory.wf (s.writeConn e b).mem = true := by
  simp [State.writeConn, hm]

@[simp] theorem State.writeGo_wf (s : State) (g version : Nat) (body : List Byte) (hm : Memory.wf s.mem = true) :
    Memory.wf (s.writeGo g version body).mem = true := by
  unfold State.writeGo
  dsimp only
  repeat' split
  all_goals simp [hm]

@[simp] theorem State.clearEntry_wf (s : State) (t i : Nat) (hm : Memory.wf s.mem = true) : Memory.wf (s.clearEntry t i).mem = true := by
  unfold State.clearEntry
  split <;> simp [hm]

@[simp] theorem State.followNm_mem (s : State) (body : List Byte) : (s.followNm body).mem = s.mem := by
  unfold State.followNm
  dsimp only
  repeat' split
  all_goals simp

@[simp] theorem State.applyUpdate_wf (s : State) (h : MirHeader) (body : List Byte) (hm : Memory.wf s.mem = true) :
    Memory.wf (s.applyUpdate h body).mem = true := by
  unfold State.applyUpdate
  dsimp only
  repeat' split
  all_goals simp [hm]

@[simp] theorem entryUpdate_wf (h : MirHeader) (body : List Byte) (s : State) (hm : Memory.wf s.mem = true) :
    Memory.wf (entryUpdate h body s).mem = true := by
  simp [entryUpdate, hm]

@[simp] theorem resyncBegin_mem (t : Nat) (s : State) : (resyncBegin t s).mem = s.mem := by simp [resyncBegin]

@[simp] theorem resyncEnd_wf (t : Nat) (s : State) (hm : Memory.wf s.mem = true) : Memory.wf (resyncEnd t s).mem = true := by
  unfold resyncEnd
  dsimp only
  repeat' split
  all_goals simp +contextual [hm]

@[simp] theorem State.startSync_mem (s : State) (t : Nat) : (s.startSync t).mem = s.mem := by simp [State.startSync]

@[simp] theorem resync_mem (t : Nat) (s : State) : (resync t s).mem = s.mem := by
  unfold resync
  split
  · rfl
  · split
    · simp
    · split <;> next heq => simp [snd_mem_of_eq heq]

@[simp] theorem resyncCompleted_mem (t : Nat) (s : State) : (resyncCompleted t s).mem = s.mem := by simp [resyncCompleted]
@[simp] theorem badRecord_mem (badCrc : Bool) (s : State) : (badRecord badCrc s).mem = s.mem := by simp [badRecord]
@[simp] theorem wakeRequest_mem (s : State) : (wakeRequest s).mem = s.mem := by simp [wakeRequest]

@[simp] theorem mailboxTransaction_wf (a : Nat) (w : Option Word) (s : State) (hm : Memory.wf s.mem = true) :
    Memory.wf (mailboxTransaction a w s).mem = true := by
  unfold mailboxTransaction
  split <;> simp [hm]

@[simp] theorem pairRole_wf (mb : Mb) (s : State) (hm : Memory.wf s.mem = true) : Memory.wf (pairRole mb s).mem = true := by simp [pairRole, hm]
@[simp] theorem pairStatus_wf (mb : Mb) (s : State) (hm : Memory.wf s.mem = true) : Memory.wf (pairStatus mb s).mem = true := by simp [pairStatus, hm]

/-! Supplies and starts (R430 to R434). -/

@[simp] theorem State.mainReset_wf (s : State) (hm : Memory.wf s.mem = true) : Memory.wf s.mainReset.mem = true :=
  SMap.wf_keepKeys memReset s.mem isMram hm

@[simp] theorem State.resetMain_wf (s : State) (hm : Memory.wf s.mem = true) : Memory.wf s.resetMain.mem = true := by simp [State.resetMain, hm]
@[simp] theorem rstNAssert_wf (s : State) (hm : Memory.wf s.mem = true) : Memory.wf (rstNAssert s).mem = true := by simp [rstNAssert, hm]
@[simp] theorem State.tornStore_wf (s : State) (hm : Memory.wf s.mem = true) : Memory.wf s.tornStore.mem = true := by simp [State.tornStore, hm]
@[simp] theorem vaonLoss_wf (s : State) (hm : Memory.wf s.mem = true) : Memory.wf (vaonLoss s).mem = true := by simp [vaonLoss, hm]

@[simp] theorem State.onStart_wf (s : State) {f : State → State} (hf : ∀ u, Memory.wf u.mem = true → Memory.wf (f u).mem = true)
    (hm : Memory.wf s.mem = true) : Memory.wf (s.onStart f).mem = true := by
  simp [State.onStart, hf, hm]

@[simp] theorem State.beginStart_mem (s : State) (cause : BitVec 3) (warm : Bool) (most : Nat) (r : StartReport) :
    (s.beginStart cause warm most r).mem = s.mem := by
  simp [State.beginStart]

@[simp] theorem State.cutPower_wf (s : State) (hm : Memory.wf s.mem = true) : Memory.wf s.cutPower.mem = true := by simp [State.cutPower, hm]

@[simp] theorem State.startTamper_wf (s : State) (r : StartReport) (hm : Memory.wf s.mem = true) : Memory.wf (s.startTamper r).mem = true := by
  simp [State.startTamper, hm]

@[simp] theorem State.classifySlots_wf (r : StartReport) (s : State) (hm : Memory.wf s.mem = true) :
    Memory.wf (State.classifySlots r s).mem = true := by
  unfold State.classifySlots
  split <;> simp [hm]

@[simp] theorem State.readCopy_mem (s : State) (b : Bool) : (s.readCopy b).mem = s.mem := by
  unfold State.readCopy
  split <;> simp

@[simp] theorem State.readLock_mem (s : State) : s.readLock.mem = s.mem := by
  unfold State.readLock
  dsimp only
  repeat' split
  all_goals simp

@[simp] theorem State.readRecords_mem (s : State) : s.readRecords.mem = s.mem := by
  unfold State.readRecords
  dsimp only
  repeat' split
  all_goals simp

@[simp] theorem State.selfTestFault_wf (s : State) (b : Byte) (d : List Word) (ctx : Nat) (hm : Memory.wf s.mem = true) :
    Memory.wf (s.selfTestFault b d ctx).mem = true := by
  simp [State.selfTestFault, hm]

@[simp] theorem State.testBlocks_wf (s : State) (r : StartReport) (p : Nat → Bool) (ctx : Nat) (hm : Memory.wf s.mem = true) :
    Memory.wf (s.testBlocks r p ctx).mem = true := by
  unfold State.testBlocks
  split <;> simp [hm]

@[simp] theorem State.testComparator_wf (s : State) (r : StartReport) (ctx : Nat) (hm : Memory.wf s.mem = true) :
    Memory.wf (s.testComparator r ctx).mem = true := by
  unfold State.testComparator
  split <;> simp [hm]

@[simp] theorem State.bistPassed_mem (s : State) (r : StartReport) : (s.bistPassed r).mem = s.mem := by simp [State.bistPassed]
@[simp] theorem State.writeActive_mem (s : State) (b : Bool) : (s.writeActive b).mem = s.mem := by simp [State.writeActive]

@[simp] theorem State.copyImage_wf (s : State) (b ok1 ok2 : Bool) (cut : Option StartCut) (hm : Memory.wf s.mem = true) :
    Memory.wf (s.copyImage b ok1 ok2 cut).2.mem = true := by
  unfold State.copyImage
  extract_lets h n blocks
  have hb : ∀ k, Memory.wf (blocks k).mem = true := fun k => State.wrB_wf _ _ _ hm
  clear_value blocks
  split
  · exact State.cutPower_wf _ (State.wrB_wf _ _ _ (State.wrB_wf _ _ _ hm))
  · split
    · exact hb n
    · split
      · exact State.wrB_wf _ _ _ (by simp [hb])
      · split
        · exact State.cutPower_wf _ (hb n)
        · simp [hb]

@[simp] theorem State.nameSource_wf (s : State) (b : Bool) (cut : Option StartCut) (hm : Memory.wf s.mem = true) :
    Memory.wf (s.nameSource b cut).mem = true := by
  simp [State.nameSource, hm]

@[simp] theorem State.finishCopy_wf (s : State) (ok1 ok2 : Bool) (cut : Option StartCut) (hm : Memory.wf s.mem = true) :
    Memory.wf (s.finishCopy ok1 ok2 cut).mem = true := by
  unfold State.finishCopy
  extract_lets go
  have hgo : ∀ b, Memory.wf (go b).mem = true := by
    intro b
    have hc := State.copyImage_wf s b ok1 ok2 cut hm
    simp only [go]
    split <;> next heq => rw [heq] at hc; simp [hc]
  simp [hgo, hm]

@[simp] theorem State.unrestorable_wf (s : State) (hm : Memory.wf s.mem = true) : Memory.wf s.unrestorable.mem = true := by
  simp [State.unrestorable, hm]

@[simp] theorem State.checkImage_wf (s : State) (r : StartReport) (hm : Memory.wf s.mem = true) : Memory.wf (s.checkImage r).mem = true := by
  unfold State.checkImage
  split
  · exact hm
  · split
    · next b _ =>
      have hc := State.copyImage_wf s b true r.restoreOk r.cut hm
      split <;> next heq => rw [heq] at hc; simp [hc]
    · simp [hm]

@[simp] theorem State.startFirmware_wf (s : State) (warm : Bool) (hm : Memory.wf s.mem = true) : Memory.wf (s.startFirmware warm).mem = true := by
  simp [State.startFirmware, hm]

@[simp] theorem State.applyConfig_wf (s : State) (hm : Memory.wf s.mem = true) : Memory.wf s.applyConfig.mem = true := by
  unfold State.applyConfig
  extract_lets t
  have ht : Memory.wf t.mem = true := by
    simp only [t]
    split
    · split
      · next heq => exact State.applyManifest_wf _ _ _ _ hm _ heq
      · exact hm
    · exact hm
  simpa using ht

@[simp] theorem State.enterRun_mem (s : State) (except : Nat) : (s.enterRun except).mem = s.mem := by simp [State.enterRun]

@[simp] theorem State.coldStart_wf (s : State) (cause : BitVec 3) (unlock : Bool) (copy : Bool × Bool) (except : Nat) (r : StartReport)
    (hm : Memory.wf s.mem = true) : Memory.wf (s.coldStart cause unlock copy except r).mem = true := by
  unfold State.coldStart
  dsimp only
  refine State.onStart_wf _ (fun u hu => ?_) ?_
  · rw [State.enterRun_mem]
    exact State.applyConfig_wf _ (State.startFirmware_wf _ _ (by simpa using hu))
  refine State.onStart_wf _ (fun u hu => State.testBlocks_wf _ _ _ _ hu) ?_
  refine State.onStart_wf _ (fun u hu => State.testComparator_wf _ _ _ hu) ?_
  refine State.onStart_wf _ (fun u hu => State.testBlocks_wf _ _ _ _ hu) ?_
  refine State.onStart_wf _ (fun u hu => State.checkImage_wf _ _ hu) ?_
  refine State.onStart_wf _ (fun u hu => State.testBlocks_wf _ _ _ _ hu) ?_
  refine State.onStart_wf _ (fun u hu => State.classifySlots_wf _ _ hu) ?_
  refine State.onStart_wf _ (fun u hu => State.finishCopy_wf _ _ _ _ hu) ?_
  rw [State.readRecords_mem]
  exact State.startTamper_wf _ _ (by simpa using hm)

@[simp] theorem rstNRelease_wf (r : StartReport) (s : State) (hm : Memory.wf s.mem = true) : Memory.wf (rstNRelease r s).mem = true := by
  simp [rstNRelease, hm]

@[simp] theorem vaonApplied_wf (r : StartReport) (s : State) (hm : Memory.wf s.mem = true) : Memory.wf (vaonApplied r s).mem = true := by
  simp [vaonApplied, hm]

/-- Stored tables, written back byte by byte. -/
theorem foldl_memSet_wf (l : List (Nat × Byte)) {m : SMap Byte} (h : Memory.wf m = true) :
    Memory.wf (l.foldl (fun m e => memSet m e.1 e.2) m) = true := by
  induction l generalizing m with
  | nil => exact h
  | cons e l ih => exact ih (wf_memSet m e.1 e.2 h)

@[simp] theorem State.restoreSnap_wf (s : State) (x : RetSnap) (hm : Memory.wf s.mem = true) : Memory.wf (s.restoreSnap x).mem = true := by
  unfold State.restoreSnap
  extract_lets dw cnt mem idle mills _ _ _ _ _ _ s1 kept _ _ _ _ _ s2 s3 s4 time angle _ _ _ s5
  have hmem : Memory.wf mem = true := foldl_memSet_wf _ hm
  have h4 : s4.mem = s2.mem := (foldl_mem (fun u e => by simp) _).trans (foldl_mem (fun u e => by simp) _)
  rw [foldN_mem (fun u p => by simp)]
  change Memory.wf s4.mem = true
  rw [h4]
  exact hmem

@[simp] theorem State.warmStart_wf (s : State) (x : RetSnap) (except : Nat) (r : StartReport) (hm : Memory.wf s.mem = true) :
    Memory.wf (s.warmStart x except r).mem = true := by
  unfold State.warmStart
  refine State.onStart_wf _ (fun u hu => ?_) ?_
  · change Memory.wf (State.enterRun _ _).mem = true
    rw [State.enterRun_mem]
    exact State.startFirmware_wf _ _ (State.restoreSnap_wf _ _ (by simpa using hu))
  refine State.onStart_wf _ (fun u hu => State.testBlocks_wf _ _ _ _ hu) ?_
  refine State.onStart_wf _ (fun u hu => State.testComparator_wf _ _ _ hu) ?_
  refine State.onStart_wf _ (fun u hu => State.classifySlots_wf _ _ hu) ?_
  rw [State.readRecords_mem]
  exact State.startTamper_wf _ _ (by simpa using hm)

@[simp] theorem warmWake_wf (r : StartReport) (slackMs : Nat) (s : State) (hm : Memory.wf s.mem = true) :
    Memory.wf (warmWake r slackMs s).mem = true := by
  unfold warmWake
  dsimp only
  repeat' split
  all_goals simp [hm]

@[simp] theorem activation_wf (r : StartReport) (copyOk recopyOk : Bool) (s : State) (hm : Memory.wf s.mem = true) :
    Memory.wf (activation r copyOk recopyOk s).mem = true := by
  unfold activation
  split
  · extract_lets a s1
    split
    · exact State.coldStart_wf _ _ _ _ _ _ (State.resetMain_wf _ (State.setStage_wf s _ a hm))
    · exact hm
  · exact hm

@[simp] theorem supplyLow_mem (rail : Rail) (mv : Nat) (s : State) : (supplyLow rail mv s).mem = s.mem := by simp [supplyLow]

@[simp] theorem supplyFault_wf (rail : Nat) (s : State) (hm : Memory.wf s.mem = true) : Memory.wf (supplyFault rail s).mem = true := by
  simp [supplyFault, hm]

@[simp] theorem storeOkSet_mem (s : State) : (storeOkSet s).mem = s.mem := by simp [storeOkSet]
@[simp] theorem tempSample_mem (temp : BitVec 16) (s : State) : (tempSample temp s).mem = s.mem := by simp [tempSample]
@[simp] theorem battSample_mem (raw : BitVec 12) (s : State) : (battSample raw s).mem = s.mem := by simp [battSample]

@[simp] theorem refclkLoss_wf (fabricLocked coreLocked : Bool) (s : State) (hm : Memory.wf s.mem = true) :
    Memory.wf (refclkLoss fabricLocked coreLocked s).mem = true := by
  simp [refclkLoss, hm]

/-! Diagnostics (R438, R444). -/

@[simp] theorem faultClear_wf (mb : Mb) (s : State) (hm : Memory.wf s.mem = true) : Memory.wf (faultClear mb s).mem = true := by simp [faultClear, hm]

@[simp] theorem State.diagRequest_mem (s : State) (a : Activity) (w : Waiting) : (s.diagRequest a w).2.mem = s.mem := by
  unfold State.diagRequest
  split
  · rfl
  · next heq => simp [snd_mem_of_eq heq]

@[simp] theorem diagMemtest_wf (mb : Mb) (s : State) (hm : Memory.wf s.mem = true) : Memory.wf (diagMemtest mb s).mem = true := by
  refine State.serve_wf _ _ _ _ (fun p u hu => ?_) hm
  dsimp only
  split
  · exact hu
  · have hd : Memory.wf (u.diagRequest .memtest (.memtest (BitVec.ofNat 8 (leNat p)))).2.mem = true := by simp [hu]
    split
    · next heq => rw [heq] at hd; exact hd
    · exact hd

@[simp] theorem regionTestEnd_wf (bad : Option (Word × Word × Word)) (s : State) (hm : Memory.wf s.mem = true) :
    Memory.wf (regionTestEnd bad s).mem = true := by
  unfold regionTestEnd
  dsimp only
  repeat' split
  all_goals simp [hm]

@[simp] theorem diagScrubFast_wf (mb : Mb) (s : State) (hm : Memory.wf s.mem = true) : Memory.wf (diagScrubFast mb s).mem = true := by
  simp [diagScrubFast, hm]

@[simp] theorem scrubSweepEnd_wf (s : State) (hm : Memory.wf s.mem = true) : Memory.wf (scrubSweepEnd s).mem = true := by simp [scrubSweepEnd, hm]

@[simp] theorem diagCmpTest_wf (mb : Mb) (s : State) (hm : Memory.wf s.mem = true) : Memory.wf (diagCmpTest mb s).mem = true := by
  simp [diagCmpTest, hm]

/-! Boundary scan (R461). -/

@[simp] theorem State.jtagSet_mem (s : State) (i : Jtag) (drive : Bool) (out : List Bool) : (s.jtagSet i drive out).mem = s.mem := by
  simp [State.jtagSet]

@[simp] theorem jtagBypass_mem (s : State) : (jtagBypass s).mem = s.mem := by simp [jtagBypass]
@[simp] theorem jtagIdcode_mem (s : State) : (jtagIdcode s).mem = s.mem := by simp [jtagIdcode]
@[simp] theorem jtagSample_mem (pins : List Bool) (s : State) : (jtagSample pins s).mem = s.mem := by simp [jtagSample]
@[simp] theorem jtagExtest_mem (pins : List Bool) (s : State) : (jtagExtest pins s).mem = s.mem := by simp [jtagExtest]

/-! One cycle. -/

@[simp] theorem State.firmwareTick_wf (s : State) (hm : Memory.wf s.mem = true) : Memory.wf s.firmwareTick.mem = true := by
  unfold State.firmwareTick
  split
  · extract_lets _ s1 s2 s3 s4 _ s5 s6
    have h2 : Memory.wf s2.mem = true := by simp [s2, s1, hm]
    have h3 : Memory.wf s3.mem = true := by
      simp only [s3]
      split
      · simp [h2]
      · exact h2
    have h4 : Memory.wf s4.mem = true := by simp [s4, h3]
    have h5 : Memory.wf s5.mem = true := by simp [s5, h4]
    have h6 : Memory.wf s6.mem = true := by simp [s6, h5]
    simp [h6]
  · exact hm

@[simp] theorem State.slewTick_mem (s : State) : s.slewTick.mem = s.mem := by simp [State.slewTick]

@[simp] theorem State.oneCycle_wf (s : State) (hm : Memory.wf s.mem = true) : Memory.wf s.oneCycle.mem = true := by
  unfold State.oneCycle
  split
  · exact hm
  · extract_lets s1 _ s2 s3
    have h1 : Memory.wf s1.mem = true := by simp [s1, hm]
    have h2 : Memory.wf s2.mem = true := h1
    have h3 : Memory.wf s3.mem = true := by simp [s3, h2]
    clear_value s1 s2 s3
    refine wf_mem_ite ?_ h3
    apply State.commitStep_wf
    apply State.firmwareTick_wf
    apply State.linTick_wf
    rw [State.canTick_mem]
    apply State.scrubBack_wf
    apply State.ruleTick_wf
    rw [State.planeSlot_mem, State.macTick_mem]
    apply State.deliverDue_wf
    apply State.svcTick_wf
    apply State.gwTick_wf
    apply State.ingressTick_wf
    apply State.tableTick_wf
    simp [h3]

end Sys2Proof.Machine
end

