-- ==== Sys2Proof/Proofs/MemoryStaysCanonical.lean ====
section
/-! SUPPORT. Every command keeps memory in its canonical form (O4). -/

namespace Sys2Proof.Machine

/-- The next state of an outcome, where it has one, holds memory in its canonical form. -/
def CanonicalOut : Out → Prop
  | .next t => MemInv t
  | _ => True

theorem next_canonical {t : State} (hm : Memory.wf t.mem = true) : CanonicalOut (.next t) := hm

theorem fault_canonical (r : Fault) : CanonicalOut (.fault r) := trivial

/-- The messages of an effect leave memory alone. -/
theorem done_canonical {s t : State} (hm : Memory.wf t.mem = true) : CanonicalOut (done s t) :=
  next_canonical (by simpa using hm)

theorem done_canonical_of_mem {s t u : State} (h : t.mem = u.mem) (hm : Memory.wf u.mem = true) : CanonicalOut (done s t) :=
  done_canonical (by rw [h]; exact hm)

theorem settleOut_canonical {s : State} {o : Out} (h : CanonicalOut o) : CanonicalOut (settleOut s o) := by
  cases o with
  | next t => exact done_canonical h
  | fault r => exact fault_canonical r
  | refused r => trivial

/-- The three forms of a command that may stop on a reserved bit (R6). -/
theorem ite_canonical {c : Prop} [Decidable c] {o p : Out} (ho : CanonicalOut o) (hp : CanonicalOut p) : CanonicalOut (if c then o else p) := by
  split
  · exact ho
  · exact hp

theorem afterPosted_canonical {s : State} {b : Bridge} {f : State → State} (hf : ∀ u, Memory.wf u.mem = true → Memory.wf (f u).mem = true)
    (hm : Memory.wf s.mem = true) : CanonicalOut (s.afterPosted b f) :=
  ite_canonical (fault_canonical _) (done_canonical (hf _ (State.deliverAll_wf _ _ hm)))

theorem execPostedWriteDeliver_canonical (b : Bridge) (s : State) (hm : Memory.wf s.mem = true) : CanonicalOut (execPostedWriteDeliver b s) :=
  ite_canonical (fault_canonical _) (done_canonical (postedWriteDeliver_wf _ _ hm))

theorem execPcieMemoryRead_canonical (bar : Bar) (off n : Nat) (s : State) (hm : Memory.wf s.mem = true) :
    CanonicalOut (execPcieMemoryRead bar off n s) :=
  ite_canonical (afterPosted_canonical (fun u hu => pcieMemoryRead_wf _ _ _ u hu) hm) (done_canonical hm)

theorem execPcieConfigurationRequest_canonical (reg : Fin 1024) (w : Option Word) (s : State) (hm : Memory.wf s.mem = true) :
    CanonicalOut (execPcieConfigurationRequest reg w s) :=
  ite_canonical (afterPosted_canonical (fun u hu => pcieConfigurationRequest_wf _ _ u hu) hm) (done_canonical hm)

theorem execRead_canonical (addr : Word) (n : Nat) (s : State) (hm : Memory.wf s.mem = true) : CanonicalOut (execRead addr n s) :=
  ite_canonical (afterPosted_canonical (fun u hu => spiRead_wf _ _ u hu) hm) (done_canonical hm)

theorem execDwIrqForce_canonical (v : Word) (s : State) (hm : Memory.wf s.mem = true) : CanonicalOut (execDwIrqForce v s) :=
  ite_canonical (fault_canonical _) (done_canonical (by simp [hm]))

theorem execRegisterWrite_canonical (m : Master) (addr v : Word) (be : BitVec 4) (s : State) (hm : Memory.wf s.mem = true) :
    CanonicalOut (execRegisterWrite m addr v be s) :=
  ite_canonical (fault_canonical _) (done_canonical (registerWrite_wf _ _ _ _ _ hm))

theorem execMailboxTransaction_canonical (addr : Word) (w : Option Word) (s : State) (hm : Memory.wf s.mem = true) :
    CanonicalOut (execMailboxTransaction addr w s) :=
  ite_canonical (done_canonical hm) (ite_canonical (fault_canonical _) (done_canonical (mailboxTransaction_wf _ _ _ hm)))

/-- Writes are released one after another, up to a device fault or a reserved bit. -/
theorem releaseAll_canonical (bad : Nat → Option Nat) (l : List (Nat × Nat × HeldWrite)) (s : State) (hm : Memory.wf s.mem = true) :
    CanonicalOut (State.releaseAll bad l s) := by
  induction l generalizing s with
  | nil => exact next_canonical hm
  | cons x l ih =>
    obtain ⟨c, i, w⟩ := x
    exact ite_canonical (next_canonical (State.deviceFault_wf _ _ _ _ hm))
      (ite_canonical (fault_canonical _) (ih _ (State.release_wf _ _ hm)))

theorem lockstepCompare_canonical (w0 w1 : CoreWindow) (s : State) (hm : Memory.wf s.mem = true) : CanonicalOut (lockstepCompare w0 w1 s) := by
  unfold lockstepCompare
  refine ite_canonical (next_canonical hm) ?_
  extract_lets a b _ s1 s2 bad
  have h2 : Memory.wf s2.mem = true := State.coreReads_wf _ _ _ (State.coreReads_wf _ _ _ hm)
  clear_value s2
  iterate 3 refine ite_canonical (next_canonical (by simp [h2])) ?_
  have hr := releaseAll_canonical bad (releaseOrder 0 a.held b.held) s2 h2
  generalize State.releaseAll bad (releaseOrder 0 a.held b.held) s2 = o at hr
  cases o with
  | next t => exact next_canonical (State.coreReads_wf _ _ _ (State.coreReads_wf _ _ _ hr))
  | fault r => exact fault_canonical r
  | refused r => trivial

theorem execLockstepCompare_canonical (w0 w1 : CoreWindow) (s : State) (hm : Memory.wf s.mem = true) :
    CanonicalOut (execLockstepCompare w0 w1 s) :=
  settleOut_canonical (lockstepCompare_canonical _ _ _ hm)

/-- Every command keeps memory in its canonical form. -/
theorem exec_canonical (i : Instr) (s : State) (hm : Memory.wf s.mem = true) : CanonicalOut (exec i s) := by
  cases i with
  | vaonApplied _ => exact done_canonical (vaonApplied_wf _ _ hm)
  | vaonLoss => exact done_canonical (vaonLoss_wf _ hm)
  | rstNAssert => exact done_canonical (rstNAssert_wf _ hm)
  | rstNRelease _ => exact done_canonical (rstNRelease_wf _ _ hm)
  | refclkLoss _ _ => exact done_canonical (refclkLoss_wf _ _ _ hm)
  | supplyLow _ _ => exact done_canonical_of_mem (supplyLow_mem ..) hm
  | supplyFault _ => exact done_canonical (supplyFault_wf _ _ hm)
  | storeOkSet => exact done_canonical_of_mem (storeOkSet_mem ..) hm
  | tempSample _ => exact done_canonical_of_mem (tempSample_mem ..) hm
  | battSample _ => exact done_canonical_of_mem (battSample_mem ..) hm
  | ppsEdge _ _ => exact done_canonical_of_mem (ppsEdge_mem ..) hm
  | sync _ _ _ _ => exact done_canonical_of_mem (sync_mem ..) hm
  | syncReceiptTimeout => exact done_canonical_of_mem (syncReceiptTimeout_mem ..) hm
  | holdoverTime => exact done_canonical_of_mem (holdoverTime_mem ..) hm
  | countEdge _ _ _ => exact done_canonical_of_mem (countEdge_mem ..) hm
  | angleGateEdge _ => exact done_canonical_of_mem (angleGateEdge_mem ..) hm
  | stallTime => exact done_canonical_of_mem (stallTime_mem ..) hm
  | frameReceive _ => exact done_canonical_of_mem (frameReceive_mem ..) hm
  | linkDown _ => exact done_canonical_of_mem (linkDown_mem ..) hm
  | linkUp _ _ => exact done_canonical_of_mem (linkUp_mem ..) hm
  | agingSweep => exact done_canonical (agingSweep_wf _ hm)
  | recoveryResetTimeout _ => exact done_canonical_of_mem (recoveryResetTimeout_mem ..) hm
  | scrubRead _ => exact done_canonical (scrubRead_wf _ _ hm)
  | scrubSweepEnd => exact done_canonical (scrubSweepEnd_wf _ hm)
  | egressSelect _ => exact done_canonical_of_mem (egressSelect_mem ..) hm
  | cellArrive _ _ _ _ _ => exact done_canonical (cellArrive_wf _ _ _ _ _ _ hm)
  | confluenceTimeout _ => exact done_canonical (confluenceTimeout_wf _ _ hm)
  | underrun _ => exact done_canonical_of_mem (underrun_mem ..) hm
  | frameTransmitEnd _ => exact done_canonical_of_mem (frameTransmitEnd_mem ..) hm
  | atsEligible _ _ _ => exact done_canonical_of_mem (atsEligible_mem ..) hm
  | gateEdge _ => exact done_canonical (by simp [hm])
  | gateListSwitch _ => exact done_canonical (by simp [hm])
  | preempt _ => exact done_canonical_of_mem (preempt_mem ..) hm
  | mmVerifyTimeout _ => exact done_canonical_of_mem (mmVerifyTimeout_mem ..) hm
  | windowDecision _ _ => exact done_canonical (by simp [hm])
  | windowOpen _ => exact done_canonical (by simp [hm])
  | windowEnd _ => exact done_canonical (by simp [hm])
  | windowSetAdopt _ => exact done_canonical (by simp [hm])
  | connSweep _ => exact done_canonical (connSweep_wf _ _ hm)
  | ruleBankSwap => exact done_canonical (ruleBankSwap_wf _ hm)
  | canReceive _ _ _ _ => exact done_canonical_of_mem (canReceive_mem ..) hm
  | canBusError _ _ _ _ => exact done_canonical (canBusError_wf _ _ _ _ _ hm)
  | busOffRecoveryComplete _ => exact done_canonical_of_mem (busOffRecoveryComplete_mem ..) hm
  | canModeChange _ => exact done_canonical (canModeChange_wf _ _ hm)
  | txPush _ _ _ => exact done_canonical (txPush_wf _ _ _ _ hm)
  | canTxStart _ => exact done_canonical_of_mem (canTxStart_mem ..) hm
  | canTxEnd _ _ _ => exact done_canonical (canTxEnd_wf _ _ _ _ hm)
  | canLifetimeExpiry _ => exact done_canonical (canLifetimeExpiry_wf _ _ hm)
  | recover _ => exact done_canonical_of_mem (recover_mem ..) hm
  | abortHead _ => exact done_canonical (abortHead_wf _ _ hm)
  | abortPrio _ => exact done_canonical (abortPrio_wf _ _ hm)
  | flush _ => exact done_canonical (canFlushAll_wf _ _ hm)
  | linHeader _ _ _ _ => exact done_canonical (linHeader_wf _ _ _ _ _ hm)
  | linResponse _ _ => exact done_canonical_of_mem (linResponse_mem ..) hm
  | lpub _ _ => exact done_canonical_of_mem (lpub_mem ..) hm
  | linSched _ _ => exact done_canonical_of_mem (linSched_mem ..) hm
  | linSlot _ => exact done_canonical_of_mem (linSlot_mem ..) hm
  | linNoResponse _ => exact done_canonical_of_mem (linNoResponse_mem ..) hm
  | goToSleep => exact done_canonical_of_mem (goToSleep_mem ..) hm
  | linRestart _ => exact done_canonical_of_mem (linRestart_mem ..) hm
  | periodBoundary _ => exact done_canonical (periodBoundary_wf _ _ hm)
  | runRetry _ => exact done_canonical (runRetry_wf _ _ hm)
  | spacedRun _ => exact done_canonical (spacedRun_wf _ _ hm)
  | acfFrameReceive _ _ => exact done_canonical (acfFrameReceive_wf _ _ _ hm)
  | gwStale _ => exact done_canonical (gwStale_wf _ _ hm)
  | cvStart _ => exact done_canonical_of_mem (cvStart_mem ..) hm
  | cvFeed8 _ _ => exact done_canonical (by simp [hm])
  | cvFeed16 _ _ => exact done_canonical (by simp [hm])
  | cvFeed32 _ _ => exact done_canonical (by simp [hm])
  | pcieMemoryWrite _ _ _ _ _ => exact done_canonical_of_mem (pcieMemoryWrite_mem ..) hm
  | postedWriteDeliver _ => exact execPostedWriteDeliver_canonical _ _ hm
  | pcieMemoryRead _ _ _ => exact execPcieMemoryRead_canonical _ _ _ _ hm
  | pcieConfigurationRequest _ _ => exact execPcieConfigurationRequest_canonical _ _ _ hm
  | functionLevelReset => exact done_canonical_of_mem (functionLevelReset_mem ..) hm
  | perstN _ => exact done_canonical (perstN_wf _ _ hm)
  | write _ _ => exact done_canonical_of_mem (spiWrite_mem ..) hm
  | read _ _ => exact execRead_canonical _ _ _ hm
  | status => exact done_canonical_of_mem (spiStatus_mem ..) hm
  | targetTimeout _ _ => exact done_canonical_of_mem (targetTimeout_mem ..) hm
  | dwPwePop => exact done_canonical_of_mem (dwPwePop_mem ..) hm
  | dwMbRing _ => exact done_canonical_of_mem (dwMbRing_mem ..) hm
  | dwMbDone _ => exact done_canonical_of_mem (dwMbDone_mem ..) hm
  | dwMbAbort _ => exact done_canonical (dwMbAbort_wf _ _ hm)
  | registerWrite _ _ _ _ => exact execRegisterWrite_canonical _ _ _ _ _ hm
  | echo _ => exact done_canonical (echo_wf _ _ hm)
  | getInfo _ => exact done_canonical (getInfo_wf _ _ hm)
  | paramGet _ => exact done_canonical (paramGet_wf _ _ hm)
  | paramSet _ => exact done_canonical (paramSet_wf _ _ hm)
  | objOpen _ => exact done_canonical (objOpen_wf _ _ hm)
  | objWrite _ => exact done_canonical (objWrite_wf _ _ hm)
  | objCommit _ => exact done_canonical (objCommit_wf _ _ hm)
  | objCancel _ => exact done_canonical (objCancel_wf _ _ hm)
  | objDma _ => exact done_canonical (objDma_wf _ _ hm)
  | objDmaCompletion _ _ => exact done_canonical (objDmaCompletion_wf _ _ _ hm)
  | objDmaTimeout => exact done_canonical (objDmaTimeout_wf _ hm)
  | objAreaTimeout => exact done_canonical_of_mem (objAreaTimeout_mem ..) hm
  | objLoad _ => exact done_canonical (objLoad_wf _ _ hm)
  | frameSend _ => exact done_canonical (frameSend_wf _ _ hm)
  | faultClear _ => exact done_canonical (faultClear_wf _ _ hm)
  | connRemove _ => exact done_canonical (connRemove_wf _ _ hm)
  | nmHostNeed _ => exact done_canonical (nmHostNeed_wf _ _ hm)
  | nmHostRelease _ => exact done_canonical (nmHostRelease_wf _ _ hm)
  | nmStatus _ => exact done_canonical (nmStatus_wf _ _ hm)
  | pairStatus _ => exact done_canonical (pairStatus_wf _ _ hm)
  | pairRole _ => exact done_canonical (pairRole_wf _ _ hm)
  | keyLoad _ => exact done_canonical (keyLoad_wf _ _ hm)
  | keyClear _ => exact done_canonical (keyClear_wf _ _ hm)
  | keyDerive _ => exact done_canonical (keyDerive_wf _ _ hm)
  | otpProgram _ => exact done_canonical (otpProgram_wf _ _ hm)
  | otpProgrammingComplete => exact done_canonical (otpProgrammingComplete_wf _ hm)
  | sigVerify _ => exact done_canonical (sigVerify_wf _ _ hm)
  | aesGcmEncrypt _ => exact done_canonical (aesGcmEncrypt_wf _ _ hm)
  | aesGcmDecrypt _ => exact done_canonical (aesGcmDecrypt_wf _ _ hm)
  | aesCmacGenerate _ => exact done_canonical (aesCmacGenerate_wf _ _ hm)
  | aesCmacVerify _ => exact done_canonical (aesCmacVerify_wf _ _ hm)
  | sha384 _ => exact done_canonical (sha384Command_wf _ _ hm)
  | updStatus _ => exact done_canonical (updStatus_wf _ _ hm)
  | updLock _ => exact done_canonical (updLock_wf _ _ hm)
  | header _ => exact done_canonical (header_wf _ _ hm)
  | block _ => exact done_canonical (block_wf _ _ hm)
  | blockStore => exact done_canonical (blockStore_wf _ hm)
  | finish _ => exact done_canonical (finish_wf _ _ hm)
  | cancel _ => exact done_canonical (cancel_wf _ _ hm)
  | go _ => exact done_canonical (go_wf _ _ hm)
  | pairGoIssue => exact done_canonical_of_mem (pairGoIssue_mem ..) hm
  | activation _ _ _ => exact done_canonical (activation_wf _ _ _ _ hm)
  | activationDeadline => exact done_canonical (activationDeadline_wf _ hm)
  | svcFrameReceive _ => exact done_canonical_of_mem (svcFrameReceive_mem ..) hm
  | nrnRead _ => exact done_canonical (nrnRead_wf _ _ hm)
  | nrnStage _ => exact done_canonical (nrnStage_wf _ _ hm)
  | nrnFetch _ => exact done_canonical (nrnFetch_wf _ _ hm)
  | diagMemtest _ => exact done_canonical (diagMemtest_wf _ _ hm)
  | regionTestEnd _ => exact done_canonical (regionTestEnd_wf _ _ hm)
  | diagScrubFast _ => exact done_canonical (diagScrubFast_wf _ _ hm)
  | diagCmpTest _ => exact done_canonical (diagCmpTest_wf _ _ hm)
  | diagCounters _ => exact done_canonical (diagCounters_wf _ _ hm)
  | maintenanceTokenGrant => exact done_canonical_of_mem (maintenanceTokenGrant_mem ..) hm
  | capture => exact done_canonical_of_mem (capture_mem ..) hm
  | snapSecondCapture => exact done_canonical_of_mem (snapSecondCapture_mem ..) hm
  | dwIrqForce _ => exact execDwIrqForce_canonical _ _ hm
  | irqModerationExpiry => exact done_canonical_of_mem (irqModerationExpiry_mem ..) hm
  | snapshotStaticRewrite => exact done_canonical (snapshotStaticRewrite_wf _ hm)
  | keepAliveSend => exact done_canonical_of_mem (keepAliveSend_mem ..) hm
  | wakeHoldExpiry => exact done_canonical_of_mem (wakeHoldExpiry_mem ..) hm
  | ebbTimeout => exact done_canonical (ebbTimeout_wf _ hm)
  | commit => exact done_canonical_of_mem (commit_mem ..) hm
  | wakeLineEdge _ => exact done_canonical_of_mem (wakeLineEdge_mem ..) hm
  | canWakePattern _ => exact done_canonical_of_mem (canWakePattern_mem ..) hm
  | linWakePulse _ => exact done_canonical_of_mem (linWakePulse_mem ..) hm
  | phyWake _ => exact done_canonical_of_mem (phyWake_mem ..) hm
  | aonSwWake => exact done_canonical_of_mem (aonSwWake_mem ..) hm
  | warmWake _ _ => exact done_canonical (warmWake_wf _ _ _ hm)
  | wakePulseEnd _ => exact done_canonical_of_mem (wakePulseEnd_mem ..) hm
  | maximumAwakeTime _ => exact done_canonical_of_mem (maximumAwakeTime_mem ..) hm
  | ignoredNodeRelease _ => exact done_canonical_of_mem (ignoredNodeRelease_mem ..) hm
  | lockstepCompare _ _ => exact execLockstepCompare_canonical _ _ _ hm
  | checkpoint _ => exact done_canonical (checkpoint_wf _ _ hm)
  | comparatorInjectionTest _ => exact done_canonical (comparatorInjectionTest_wf _ _ hm)
  | heartbeatSend => exact done_canonical_of_mem (heartbeatSend_mem ..) hm
  | heartbeat _ => exact done_canonical (heartbeat_wf _ _ hm)
  | entryUpdate _ _ => exact done_canonical (entryUpdate_wf _ _ _ hm)
  | digest _ _ => exact done_canonical_of_mem (digest_mem ..) hm
  | resyncBegin _ => exact done_canonical_of_mem (resyncBegin_mem ..) hm
  | resyncEnd _ => exact done_canonical (resyncEnd_wf _ _ hm)
  | roleChange _ => exact done_canonical_of_mem (roleChange_mem ..) hm
  | mailboxTransaction _ _ => exact execMailboxTransaction_canonical _ _ _ hm
  | wakeRequest => exact done_canonical_of_mem (wakeRequest_mem ..) hm
  | mirrorCompare => exact done_canonical_of_mem (mirrorCompare_mem ..) hm
  | resync _ => exact done_canonical_of_mem (resync_mem ..) hm
  | partnerSilence => exact done_canonical_of_mem (partnerSilence_mem ..) hm
  | pairRoleTimeout => exact done_canonical_of_mem (pairRoleTimeout_mem ..) hm
  | tamperEvent _ => exact done_canonical (tamperEvent_wf _ _ hm)
  | wkMat _ _ _ _ => exact done_canonical_of_mem (wkMat_mem ..) hm
  | authStart _ => exact done_canonical_of_mem (authStart_mem ..) hm
  | authFeed8 _ _ => exact done_canonical_of_mem (authFeed_mem ..) hm
  | authFeed32 _ _ => exact done_canonical_of_mem (authFeed_mem ..) hm
  | authFinish _ => exact done_canonical_of_mem (authFinish_mem ..) hm
  | islandStart _ => exact done_canonical_of_mem (islandStart_mem ..) hm
  | islandStop => exact done_canonical_of_mem (islandStop_mem ..) hm
  | wheelPulse _ _ => exact done_canonical_of_mem (wheelPulse_mem ..) hm
  | speedZero _ => exact done_canonical_of_mem (speedZero_mem ..) hm
  | motionStop _ => exact done_canonical_of_mem (motionStop_mem ..) hm
  | periodicRecord _ => exact done_canonical_of_mem (periodicRecord_mem ..) hm
  | recordWrite _ => exact done_canonical_of_mem (recordWrite_mem ..) hm
  | referenceLinkMessage _ => exact done_canonical_of_mem (referenceLinkMessage_mem ..) hm
  | sealOpened _ => exact done_canonical_of_mem (sealOpened_mem ..) hm
  | sealClosed _ => exact done_canonical_of_mem (sealClosed_mem ..) hm
  | calibrationPoll _ => exact done_canonical (calibrationPoll_wf _ _ hm)
  | bypass => exact done_canonical_of_mem (jtagBypass_mem ..) hm
  | idcode => exact done_canonical_of_mem (jtagIdcode_mem ..) hm
  | samplePreload _ => exact done_canonical_of_mem (jtagSample_mem ..) hm
  | extest _ => exact done_canonical_of_mem (jtagExtest_mem ..) hm
  | syncTransmission _ => exact done_canonical_of_mem (syncTransmission_mem ..) hm
  | pdelayReq _ _ _ _ => exact done_canonical_of_mem (pdelayReq_mem ..) hm
  | canIntegration _ => exact done_canonical_of_mem (canIntegration_mem ..) hm
  | unknownInstruction _ => exact done_canonical_of_mem (unknownInstruction_mem ..) hm
  | unknownCommand _ => exact done_canonical (unknownCommand_wf _ _ hm)
  | wakeLineLow _ => exact done_canonical_of_mem (wakeLineLow_mem ..) hm
  | badRecord _ => exact done_canonical_of_mem (badRecord_mem ..) hm
  | resyncCompleted _ => exact done_canonical_of_mem (resyncCompleted_mem ..) hm
  | tqExpiry _ => exact done_canonical_of_mem (tqExpiry_mem ..) hm
  | pcieLinkLoss => exact done_canonical (pcieLinkLoss_wf _ hm)

/-- Settles O4: each function of the model writes memory through `memWrite` or leaves entries out, one lemma for each function, and
every command is one call of them. -/
theorem memoryStaysCanonical : Obligations.MemoryStaysCanonical := by
  unfold Obligations.MemoryStaysCanonical
  intro s t hs h
  unfold step at h
  split at h
  · have ht : CanonicalOut (execTick s) := done_canonical (State.oneCycle_wf s hs)
    rw [h] at ht
    exact ht
  · next c rest _ =>
    have ht : CanonicalOut (exec c { s with pending := rest }) := exec_canonical _ _ hs
    rw [h] at ht
    exact ht

end Sys2Proof.Machine
end

