-- ==== Sys2Proof/Proofs/SilentDevice.lean ====
section
/-! SUPPORT. What stands still in a device in fail-silent (R32 to R35): the main side, firmware, the mailboxes. -/

namespace Sys2Proof.Machine

/-- A property that every turn keeps holds after a fold. -/
theorem foldl_keeps {α : Type} {P : State → Prop} {f : State → α → State} {s : State} (h : P s) (hf : ∀ u x, P u → P (f u x)) (l : List α) :
    P (l.foldl f s) := by
  induction l generalizing s with
  | nil => exact h
  | cons x l ih => exact ih (hf s x h)

namespace Silent
variable {s : State}

theorem mode (h : Silent s) : s.pw.mode = .failSilent := h.1
theorem vaon (h : Silent s) : s.pw.vaon = true := h.2.1
theorem rstLow (h : Silent s) : s.pw.rstLow = false := h.2.2.1
theorem noHolder (h : Silent s) : s.pw.token.holder = none := h.2.2.2.2.2.2.2.2.2.1
theorem notBusy (h : Silent s) : s.host.busy = none := h.2.2.2.2.2.2.2.2.2.2
theorem noEgress (h : Silent s) : s.sw.egress = [] := h.2.2.2.2.2.2.1

/-- The main side does not run in fail-silent (R32). -/
theorem live (h : Silent s) : s.live = false := by simp [State.live, h.mode]
theorem fw (h : Silent s) : s.fw = false := by simp [State.fw, h.live]
theorem canTake (h : Silent s) (n : Nat) : s.canTake n = false := by simp [State.canTake, h.fw]
theorem paired (h : Silent s) : s.paired = false := by simp [State.paired, h.live]
theorem listens (h : Silent s) : s.listens = false := by simp [State.listens, h.live, h.mode]

/-- No mailbox is served. -/
theorem serve (h : Silent s) (mb : Mb) (p q : Nat → Bool) (f : List Byte → State → Reply × State) : s.serve mb p q f = s := by
  simp [State.serve, h.canTake]

theorem secServe (h : Silent s) (mb : Mb) (p : Nat → Bool) (f : List Byte → State → Reply × State) : s.secServe mb p f = s := by
  simp [State.secServe, h.serve]

/-- Network management stands still. -/
theorem nmFollow (h : Silent s) : s.nmFollow s = s := by simp [State.nmFollow, h.fw]

end Silent

/-- A message of the update engine changes nothing that decides whether firmware runs. -/
theorem State.postUpd_pw (s : State) : s.postUpd.pw = s.pw := by
  unfold State.postUpd
  split
  · split
    · rfl
    · rfl
  · rfl

namespace Silent
variable {s : State}

theorem updServe (h : Silent s) (src : UpdSrc) (mine : Nat → Bool) (f : List Byte → State → UpdReply × State) : s.updServe src mine f = s := by
  unfold State.updServe
  have hp : s.postUpd.canTake 8 = false := by simp [State.canTake, State.fw, State.live, State.postUpd_pw, h.mode]
  cases src with
  | mailbox mb => simp [h.serve, h.nmFollow]
  | svc =>
    dsimp only
    split
    · simp [hp]
    · rfl

theorem hostCrypto (h : Silent s) (mine : Nat → Bool) (mb : Mb) : hostCrypto mine mb s = s := by simp [Machine.hostCrypto, h.secServe]

theorem nrnRecord (h : Silent s) (mine : Nat → Bool) (mb : Mb) : nrnRecord mine mb s = s := by simp [Machine.nrnRecord, h.serve]

end Silent

end Sys2Proof.Machine
end

