-- ==== Sys2Proof/Proofs/SilentBridges.lean ====
section
/-! SUPPORT. The bridges of a device in fail-silent: they refuse and log writes, and read the direct window (R32). -/

namespace Sys2Proof.Machine

/-! Bridges. -/

/-- Silence is about power, traffic, wake pulses and the token: a change elsewhere keeps it. -/
theorem Silent.of_eq {s t : State} (h : Silent s) (hpw : t.pw = s.pw := by simp) (hlink : t.sw.link = s.sw.link := by simp)
    (hframes : t.sw.frames = s.sw.frames := by simp) (hegr : t.sw.egress = s.sw.egress := by simp)
    (hfab : t.fab = s.fab := by simp) (hpulse : t.nm.pulses = s.nm.pulses := by simp) (hbusy : t.host.busy = s.host.busy := by simp) :
    Silent t := by
  unfold Silent
  rw [hpw, hlink, hframes, hegr, hfab, hpulse, hbusy]
  exact h

/-- A further device fault is counted in the record alone (R32, R437). -/
theorem State.deviceFault_silent {s : State} (h : Silent s) (code unit : Nat) (detail : List Nat) : Silent (s.deviceFault code unit detail) := by
  unfold State.deviceFault
  split
  · exact h
  · rw [if_pos h.mode]
    exact h

theorem State.irq_silent {s : State} (h : Silent s) (i : Nat) : Silent (s.irq i) := h

theorem State.logPwe_silent {s : State} (h : Silent s) (b : Bridge) (a c : Nat) (p : Bool) : Silent (s.logPwe b a c p) := by
  unfold State.logPwe
  split
  · exact h
  · simp only [h.mode]
    exact h

theorem State.setQueue_silent {s : State} (h : Silent s) (b : Bridge) (q : List Posted) : Silent (s.setQueue b q) := by
  cases b with
  | pcie => exact h
  | spi => exact h

/-- No write reaches a target (R32). -/
theorem State.deliverPart_of_silent {s : State} (h : Silent s) (b : Bridge) (p : Posted) (x : Word × BitVec 4) : s.deliverPart b p x = s := by
  unfold State.deliverPart
  split
  · simp [State.accessCause, h.mode]
  · rfl

theorem State.partOver_silent {s t : State} (h : Silent t) (b : Bridge) (p : Posted) (q : List Posted) (c : Nat) : Silent (s.partOver t b p q c) := by
  unfold State.partOver
  have hl : ∀ a : Nat, Silent (if c ≠ 0 && !p.failed then t.logPwe b a c p.split else t) := fun a => by
    split
    · exact State.logPwe_silent h ..
    · exact h
  dsimp only
  split
  · exact State.setQueue_silent (hl _) ..
  · exact State.setQueue_silent (hl _) ..

theorem State.deliverOne_silent {s : State} (h : Silent s) (b : Bridge) : Silent (s.deliverOne b) := by
  unfold State.deliverOne
  split
  · exact h
  split
  · split
    · rw [State.deliverPart_of_silent (State.setQueue_silent h ..)]
      exact State.partOver_silent (State.setQueue_silent h ..) ..
    · exact State.setQueue_silent h ..
  · exact h

theorem State.deliverAll_silent {s : State} (h : Silent s) (b : Bridge) : Silent (s.deliverAll b) :=
  foldN_keeps h (fun _ _ hu => State.deliverOne_silent hu b)

theorem State.deliverFree_silent {s : State} (h : Silent s) (b : Bridge) : Silent (s.deliverFree b) := by
  refine foldN_keeps h (fun u _ hu => ?_)
  split
  · exact hu
  · exact State.deliverOne_silent hu b

theorem State.bump_silent {s : State} (h : Silent s) (a : Nat) : Silent (s.bump a) := h.of_eq

theorem State.noteCorrected_silent {s : State} (h : Silent s) (a n k : Nat) : Silent (s.noteCorrected a n k) := by
  unfold State.noteCorrected
  split
  · exact h
  · exact h.of_eq

theorem State.rcClear_silent {s : State} (h : Silent s) (a : Nat) : Silent (s.rcClear a) := by
  unfold State.rcClear
  split
  · exact h.of_eq
  split
  · exact h.of_eq
  split
  · exact h.of_eq
  generalize blockOf 0x04890100 16 24 a = x
  generalize blockOf 0x04880000 32 192 a = y
  generalize blockOf 0x0B000000 0x10000 24 a = z
  split
  · exact h.of_eq
  · exact h.of_eq
  · exact h.of_eq
  · exact h.of_eq

theorem State.readBuffer_silent {s : State} (h : Silent s) (a : Nat) : Silent (s.readBuffer a).2 := by
  unfold State.readBuffer
  dsimp only
  split
  · dsimp only
    split
    · exact h
    · exact State.noteCorrected_silent h ..
  · exact State.deviceFault_silent h ..

theorem State.seeRecov_silent {s : State} (h : Silent s) (a : Nat) : Silent (s.seeRecov a) := by
  unfold State.seeRecov
  split
  · dsimp only
    split
    · exact h
    · exact h
  · exact h

/-- A read has side effects on counters, its high word and the channel's recovery alone (R268, R275). -/
theorem State.readWord_silent {s : State} (h : Silent s) (a : Nat) (peek : Bool) : Silent (s.readWord a peek).2 := by
  unfold State.readWord
  split
  · exact h
  split
  · exact h
  split
  · dsimp only
    split
    · exact h
    · exact State.rcClear_silent h a
  split
  · exact State.readBuffer_silent h a
  · exact State.seeRecov_silent h a

theorem State.bridgeRead_silent {s : State} (h : Silent s) (b : Bridge) (sp : Space) (off : Nat) : Silent (s.bridgeRead b sp off).2.2 := by
  unfold State.bridgeRead
  dsimp only
  split
  · split
    · exact h
    · exact State.readWord_silent h ..
  · exact h
  · exact h

theorem State.readPart_silent {s : State} (h : Silent s) (r : Reading) : Silent (s.readPart r) := by
  have hb := State.bridgeRead_silent h .pcie r.space r.off
  unfold State.readPart
  dsimp only
  generalize s.bridgeRead .pcie r.space r.off = o at hb ⊢
  split
  · exact hb
  · exact hb

theorem State.readTick_silent {s : State} (h : Silent s) : Silent s.readTick := by
  unfold State.readTick
  split
  · dsimp only
    split
    · exact State.readPart_silent (State.deliverFree_silent h .pcie) _
    · exact State.deliverFree_silent h .pcie
  · exact h

theorem State.readRest_silent {s : State} (h : Silent s) : Silent s.readRest :=
  foldN_keeps h (fun _ _ hu => State.readTick_silent hu)

theorem State.afterRead_silent {s : State} (h : Silent s) {f : State → State} (hf : ∀ u, Silent u → Silent (f u)) : Silent (s.afterRead f) := by
  unfold State.afterRead
  dsimp only
  split
  · exact State.readRest_silent h
  · exact hf _ (State.readRest_silent h)

theorem State.spiReadWords_silent {s : State} (h : Silent s) (sp : Space) (off n : Nat) : Silent (s.spiReadWords sp off n).2 := by
  induction n generalizing s off with
  | zero => exact h
  | succ n ih =>
    have hb := State.bridgeRead_silent h .spi sp off
    unfold State.spiReadWords
    dsimp only
    generalize s.bridgeRead .spi sp off = o at hb ⊢
    split
    · exact hb
    · exact ih hb _

theorem State.spiReadFrom_silent {s : State} (h : Silent s) (addr n t : Nat) : Silent (s.spiReadFrom addr n t) := by
  unfold State.spiReadFrom
  extract_lets _ u
  have hu : Silent u := State.deliverFree_silent (by exact h) .spi
  clear_value u
  have hb := State.bridgeRead_silent hu .spi (spiSpace addr).1 (spiSpace addr).2
  have hw := State.spiReadWords_silent hu (spiSpace addr).1 (spiSpace addr).2 n
  dsimp only
  generalize (if addr % 4 ≠ 0 then 6 else (u.bridgeRead .spi (spiSpace addr).1 (spiSpace addr).2).2.1) = cause
  split
  · exact hu
  split
  · split
    · exact hu
    · exact hu
  · exact hw

theorem State.spiTick_silent {s : State} (h : Silent s) : Silent s.spiTick := by
  unfold State.spiTick
  split
  · exact State.spiReadFrom_silent h ..
  · exact h

/-- A cycle lets time pass, and a read in hand goes on. -/
theorem State.oneCycle_silent {s : State} (h : Silent s) : Silent s.oneCycle := by
  unfold State.oneCycle
  split
  · exact h
  · extract_lets s1 _ s2 s3
    have h1 : s1 = s := if_neg (by simp [h.live])
    have h2 : Silent s2 := by
      unfold s2
      rw [h1]
      exact h
    clear_value s2
    have h3 : Silent s3 := by
      unfold s3
      split
      · exact State.spiTick_silent (State.readTick_silent h2)
      · exact h2
    clear_value s3
    rw [if_neg (by simp [h3.live])]
    exact h3

theorem pcieMemoryWrite_silent {s : State} (h : Silent s) (bar : Bar) (off : Nat) (ws : List (Word × BitVec 4)) :
    Silent (pcieMemoryWrite bar off ws s) := by
  unfold pcieMemoryWrite
  split
  · exact h
  · exact h

theorem postedWriteDeliver_silent {s : State} (h : Silent s) (b : Bridge) : Silent (postedWriteDeliver b s) := by
  unfold postedWriteDeliver
  split
  · exact State.deliverOne_silent h b
  · exact h

theorem pcieMemoryRead_silent {s : State} (h : Silent s) (bar : Bar) (off n : Nat) : Silent (pcieMemoryRead bar off n s) :=
  State.afterRead_silent h (fun _ hu => State.readTick_silent (by exact hu))

theorem pcieConfigurationRequest_silent {s : State} (h : Silent s) (reg : Nat) (w : Option Word) : Silent (pcieConfigurationRequest reg w s) := by
  refine State.afterRead_silent h (fun u hu => ?_)
  split
  · exact hu
  split
  · exact hu
  · exact hu

theorem State.dmaFail_of_silent {s : State} (h : Silent s) : s.dmaFail = s := by simp [State.dmaFail, h.notBusy]

theorem functionLevelReset_silent {s : State} (h : Silent s) : Silent (functionLevelReset s) := by
  unfold functionLevelReset
  split
  · exact h
  · exact h

theorem perstN_silent {s : State} (h : Silent s) (low : Bool) : Silent (perstN low s) := by
  unfold perstN
  dsimp only
  split
  · exact h
  split
  · rw [State.dmaFail_of_silent (by exact h)]
    exact h
  · exact h

theorem pcieLinkLoss_silent {s : State} (h : Silent s) : Silent (pcieLinkLoss s) := by
  unfold pcieLinkLoss
  split
  · rw [State.dmaFail_of_silent (by exact h)]
    exact h
  · exact h

theorem State.spiAccept_silent {s : State} (h : Silent s) (p : Posted) : Silent (s.spiAccept p) := by
  unfold State.spiAccept
  split
  · exact State.logPwe_silent h ..
  · exact h

theorem spiWrite_silent {s : State} (h : Silent s) (a : Nat) (ws : List Word) : Silent (spiWrite a ws s) := by
  unfold spiWrite
  split
  · exact h
  extract_lets _ u
  have hu : Silent u := h
  clear_value u
  split
  · exact State.logPwe_silent hu ..
  · exact foldl_keeps hu (fun _ p h => State.spiAccept_silent h p) _

theorem spiStatus_silent {s : State} (h : Silent s) : Silent (spiStatus s) := by
  unfold spiStatus
  split
  · exact h
  · exact h

theorem unknownInstruction_silent {s : State} (h : Silent s) (op : Byte) : Silent (unknownInstruction op s) := by
  unfold unknownInstruction
  split
  · exact h
  · exact State.logPwe_silent (by exact h) ..

theorem targetTimeout_silent {s : State} (h : Silent s) (b : Bridge) (isRead : Bool) : Silent (targetTimeout b isRead s) := by
  unfold targetTimeout
  split
  · exact h
  split
  · cases b with
    | pcie =>
      dsimp only
      split
      · exact h
      · exact h
    | spi => exact h
  · split
    · exact State.partOver_silent h ..
    · exact h

/-- Every write is answered with cause 4, and a bridge logs it (R32, R265). -/
theorem registerWrite_silent {s : State} (h : Silent s) (m : Master) (a v be : Nat) : Silent (registerWrite m a v be s) := by
  unfold registerWrite
  dsimp only
  split
  · rw [h.live]
    exact h
  split
  · exact h
  split
  · exact State.logPwe_silent h ..
  · exact State.logPwe_silent h ..
  · exact h

end Sys2Proof.Machine
end

