-- ==== Sys2Proof/Proofs/SilentCommands.lean ====
section
/-! SUPPORT. Commands that a device in fail-silent still runs, and those that it leaves. -/

namespace Sys2Proof.Machine

/-! Power and supply. -/

theorem supplyLow_silent {s : State} (h : Silent s) (rail : Rail) (mv : Nat) : Silent (supplyLow rail mv s) := by
  unfold supplyLow
  split
  · exact h
  · exact h

theorem supplyFault_silent {s : State} (h : Silent s) (rail : Nat) : Silent (supplyFault rail s) := by
  unfold supplyFault
  split
  · exact State.deviceFault_silent h ..
  · exact h

theorem storeOkSet_silent {s : State} (h : Silent s) : Silent (storeOkSet s) := by
  unfold storeOkSet
  split
  · exact h
  · exact h

theorem tempSample_silent {s : State} (h : Silent s) (t : BitVec 16) : Silent (tempSample t s) := by
  unfold tempSample
  split
  · exact h
  · exact h

theorem battSample_silent {s : State} (h : Silent s) (raw : BitVec 12) : Silent (battSample raw s) := by
  unfold battSample
  split
  · exact h
  · exact h

/-! Tamper events (R386 to R388). -/

/-- No frame is in a transmitter: nothing loses its protection. -/
theorem State.setEgr_idle_silent {s : State} (h : Silent s) (o : Nat) :
    Silent (s.setEgr o { s.egr o with tx := none, held := none }) := by
  have he : s.egr o = Egress.reset := by simp [State.egr, h.noEgress, SMap.get]
  have hn : SMap.set Egress.reset s.sw.egress o { s.egr o with tx := none, held := none } = s.sw.egress := by
    rw [he, h.noEgress]
    rfl
  exact h.of_eq (hlink := rfl) (hframes := rfl) (hegr := hn)

theorem State.wipeKeys_silent {s : State} (h : Silent s) : Silent s.wipeKeys := by
  unfold State.wipeKeys
  extract_lets hit s1 caught arriving _ _ s2
  have h1 : Silent s1 := by
    refine foldN_keeps h (fun u k hu => ?_)
    have he : u.egr k = Egress.reset := by simp [State.egr, hu.noEgress, SMap.get]
    have ht : (u.egr k).tx = none := by rw [he]; rfl
    have hh : (u.egr k).held = none := by rw [he]; rfl
    simp only [hit, ht, hh]
    exact State.setEgr_idle_silent hu k
  clear_value s1
  have h2 : Silent s2 := h1
  clear_value s2
  refine foldN_keeps h2 (fun u k hu => ?_)
  split
  · exact hu
  · exact hu

theorem State.cutOtp_silent {s : State} (h : Silent s) : Silent s.cutOtp := by
  unfold State.cutOtp
  split
  · dsimp only
    rw [if_pos (by simp [h.noHolder])]
    exact h
  · exact h

theorem State.finishOtp_of_silent {s : State} (h : Silent s) (st : Status) : s.finishOtp st = s := by simp [State.finishOtp, h.notBusy]

theorem State.releaseToken_of_silent {s : State} (h : Silent s) (a : Activity) : s.releaseToken a = s := by
  simp [State.releaseToken, h.noHolder]

theorem State.stopOtp_silent {s : State} (h : Silent s) : Silent s.stopOtp := by
  unfold State.stopOtp
  split
  · exact h
  · extract_lets u _ _ v
    have hv : Silent v := State.cutOtp_silent h
    clear_value v
    rw [State.releaseToken_of_silent hv, State.finishOtp_of_silent hv]
    exact hv

theorem State.stopTaken_of_silent {s : State} (h : Silent s) : s.stopTaken = s := by simp [State.stopTaken, h.notBusy]

theorem tamperEvent_silent {s : State} (h : Silent s) (src : BitVec 4) : Silent (tamperEvent src s) := by
  unfold tamperEvent
  extract_lets m
  split
  · exact h
  · rw [if_neg (by simp [h.mode])]
    have ho : Silent (s.latchTamper m (if s.pw.mode = .startUp then 0 else 1)).wipeKeys.stopOtp :=
      State.stopOtp_silent (State.wipeKeys_silent (by exact h))
    rw [State.stopTaken_of_silent ho]
    exact State.irq_silent ho 12

theorem refclkLoss_silent {s : State} (h : Silent s) (a b : Bool) : Silent (refclkLoss a b s) := by
  unfold refclkLoss
  split
  · exact h
  · exact State.deviceFault_silent (by exact tamperEvent_silent h 4) ..

/-! The always-on domain: an edge is latched and recorded, and starts nothing (R32). -/

theorem wakeLineEdge_silent {s : State} (h : Silent s) (w : Nat) : Silent (wakeLineEdge w s) := by
  unfold wakeLineEdge
  dsimp only
  split
  · exact h
  split
  · exact h
  rw [if_neg (by simp [h.mode]), if_pos h.mode]
  exact h

theorem State.levelGone_silent {s t : State} (h : Silent s) : Silent (s.levelGone t) := by
  unfold State.levelGone
  split
  · exact h
  · exact h

theorem wakeLineLow_silent {s : State} (h : Silent s) (w : Nat) : Silent (wakeLineLow w s) := by
  unfold wakeLineLow
  split
  · exact h
  · rw [h.live]
    exact State.levelGone_silent (by exact h)

theorem linWakePulse_of_silent {s : State} (h : Silent s) (m : Nat) : linWakePulse m s = s := by
  simp [linWakePulse, h.live, h.listens]

/-! The positions of the shaft are followed in every state (R59). -/

theorem countEdge_silent {s : State} (h : Silent s) (a b z : Bool) : Silent (countEdge a b z s) := by
  unfold countEdge
  extract_lets ca cb taken _ u
  have hu : Silent u := h
  clear_value u
  rw [if_pos (by simp [hu.live])]
  exact hu

/-! The island works without the main side (R424). -/

theorem State.island_silent {s : State} (h : Silent s) (dt : Nat) (f : Island → Island) : Silent (s.island dt f) := by
  unfold State.island
  split
  · exact h
  · exact h

theorem islandStart_silent {s : State} (h : Silent s) : Silent (islandStart s) := by
  unfold islandStart
  split
  · exact h
  · exact h

theorem islandStop_silent {s : State} (h : Silent s) : Silent (islandStop s) := by
  unfold islandStop
  split
  · exact h
  · dsimp only
    repeat' split
    all_goals exact h

theorem referenceLinkMessage_silent {s : State} (h : Silent s) (dt : Nat) : Silent (referenceLinkMessage dt s) := by
  unfold referenceLinkMessage
  split
  · exact h
  · exact State.island_silent h ..

theorem State.postRequest_silent {s : State} (h : Silent s) (mb : Mb) (c n : Nat) (p : List Byte) : Silent (s.postRequest mb c n p) := h

theorem State.islandFetch_silent {s : State} (h : Silent s) : Silent s.islandFetch.2 := by
  have hu : Silent (if (s.mb 9).state = .idle then s.postRequest 9 0x1001 4 (natLe 4 3) else s) := by
    split
    · exact State.postRequest_silent h ..
    · exact h
  unfold State.islandFetch
  extract_lets u
  have hn : Silent u := by
    unfold u nrnFetch
    rw [hu.nrnRecord]
    exact hu
  clear_value u
  split
  · exact hn
  · exact hn

theorem calibrationPoll_silent {s : State} (h : Silent s) (dt : Nat) : Silent (calibrationPoll dt s) := by
  unfold calibrationPoll
  dsimp only
  refine State.island_silent ?_ dt _
  split
  · exact State.islandFetch_silent h
  · exact h

/-! The boundary register (R461). -/

theorem State.jtagSet_silent {s : State} (h : Silent s) (i : Jtag) (d : Bool) (o : List Bool) : Silent (s.jtagSet i d o) := by
  unfold State.jtagSet
  split
  · exact h
  · exact h

theorem jtagSample_silent {s : State} (h : Silent s) (pins : List Bool) : Silent (jtagSample pins s) := by
  unfold jtagSample
  split
  · exact h
  · exact h

/-- EXTEST acts as BYPASS while RST_N is high. -/
theorem jtagExtest_silent {s : State} (h : Silent s) (pins : List Bool) : Silent (jtagExtest pins s) := by
  unfold jtagExtest
  rw [h.rstLow]
  exact State.jtagSet_silent h ..

/-! Commands of a running device. -/

theorem preempt_of_silent {s : State} (h : Silent s) (out : Port) : preempt out s = s := by
  unfold preempt
  dsimp only
  split
  · simp [h.live]
  · rfl

theorem canTxStart_of_silent {s : State} (h : Silent s) (n : Nat) : canTxStart n s = s := by
  have hc : s.canMayStart n = false := by simp [State.canMayStart, h.live]
  simp [canTxStart, hc]

theorem Silent.routeRuns {s : State} (h : Silent s) (r : Nat) : s.routeRuns r = false := by simp [State.routeRuns, h.live]

theorem periodBoundary_of_silent {s : State} (h : Silent s) (r : Nat) : periodBoundary r s = s := by simp [periodBoundary, h.routeRuns]

theorem runRetry_of_silent {s : State} (h : Silent s) (r : Nat) : runRetry r s = s := by
  unfold runRetry
  split
  · simp [h.routeRuns]
  · rfl

theorem spacedRun_of_silent {s : State} (h : Silent s) (r : Nat) : spacedRun r s = s := by
  unfold spacedRun
  split
  · simp [h.routeRuns]
  · rfl

theorem objDmaTimeout_of_silent {s : State} (h : Silent s) : objDmaTimeout s = s := by
  unfold objDmaTimeout
  split
  · split
    · simp [h.fw]
    · rfl
  · rfl

theorem ignoredNodeRelease_of_silent {s : State} (h : Silent s) (node : Nat) : ignoredNodeRelease node s = s := by
  unfold ignoredNodeRelease
  dsimp only
  split
  · simp [h.fw]
  · rfl

theorem Silent.mayActivate {s : State} (h : Silent s) (hd : List Byte) : s.mayActivate hd = false := by simp [State.mayActivate, h.fw]

theorem Silent.activates {s : State} (h : Silent s) (hd : List Byte) : s.activates hd = false := by
  simp [State.activates, h.mayActivate, h.fw]

theorem pairGoIssue_of_silent {s : State} (h : Silent s) : pairGoIssue s = s := by simp [pairGoIssue, h.mayActivate]

theorem activation_of_silent {s : State} (h : Silent s) (r : StartReport) (a b : Bool) : activation r a b s = s := by
  unfold activation
  split
  · simp [h.activates]
  · rfl

theorem resync_of_silent {s : State} (h : Silent s) (t : Nat) : resync t s = s := by
  have hm : s.maySync t = false := by simp [State.maySync, h.paired]
  simp [resync, hm]

theorem recoveryResetTimeout_of_silent {s : State} (h : Silent s) (i : Nat) : recoveryResetTimeout i s = s := by
  unfold recoveryResetTimeout
  dsimp only
  split
  · simp [h.live]
  · rfl

theorem linNoResponse_of_silent {s : State} (h : Silent s) (m : Nat) : linNoResponse m s = s := by
  unfold linNoResponse
  dsimp only
  split
  · simp [h.live]
  · rfl

theorem linRestart_of_silent {s : State} (h : Silent s) (m : Nat) : linRestart m s = s := by
  unfold linRestart
  dsimp only
  split
  · simp [h.live]
  · rfl

theorem acfFrameReceive_of_silent {s : State} (h : Silent s) (b : List Byte) (stomped : Bool) : acfFrameReceive b stomped s = s := by
  unfold acfFrameReceive
  split
  · simp [h.live]
  · rfl

theorem ruleBankSwap_of_silent {s : State} (h : Silent s) : ruleBankSwap s = s := by
  unfold ruleBankSwap
  split
  · simp [h.live]
  · rfl

theorem objAreaTimeout_of_silent {s : State} (h : Silent s) : objAreaTimeout s = s := by
  unfold objAreaTimeout
  split
  · simp [h.fw]
  · rfl

theorem underrun_of_silent {s : State} (h : Silent s) (out : Port) : underrun out s = s := by
  unfold underrun
  dsimp only
  split
  · simp [h.live]
  · rfl

theorem frameTransmitEnd_of_silent {s : State} (h : Silent s) (out : Port) : frameTransmitEnd out s = s := by
  unfold frameTransmitEnd
  dsimp only
  split
  · simp [h.live]
  · rfl

theorem otpProgrammingComplete_of_silent {s : State} (h : Silent s) : otpProgrammingComplete s = s := by
  unfold otpProgrammingComplete
  split
  · simp [h.live]
  · rfl

theorem blockStore_of_silent {s : State} (h : Silent s) : blockStore s = s := by
  unfold blockStore
  split
  · simp [h.live]
  · rfl

theorem activationDeadline_of_silent {s : State} (h : Silent s) : activationDeadline s = s := by
  unfold activationDeadline
  split
  · simp [h.fw]
  · rfl

theorem irqModerationExpiry_of_silent {s : State} (h : Silent s) : irqModerationExpiry s = s := by
  unfold irqModerationExpiry
  dsimp only
  split
  · simp [h.live]
  · rfl

theorem pairRoleTimeout_of_silent {s : State} (h : Silent s) : pairRoleTimeout s = s := by
  unfold pairRoleTimeout
  split
  · simp [h.paired]
  · rfl

theorem regionTestEnd_of_silent {s : State} (h : Silent s) (bad : Option (Word × Word × Word)) : regionTestEnd bad s = s := by
  unfold regionTestEnd
  split
  · simp [h.live]
  · rfl

end Sys2Proof.Machine
end

