-- ==== Sys2Proof/Proofs/FailSilentStays.lean ====
section
/-! SUPPORT. Every command but RST_N low and the loss of VAON keeps a device silent (O5). -/

namespace Sys2Proof.Machine

/-- The next state of an outcome, where it has one, is silent. -/
def SilentOut : Out → Prop
  | .next t => Silent t
  | _ => True

/-- A silent device sends no message of an edge of DW_IRQ. -/
theorem done_silent {s t : State} (h : Silent t) : SilentOut (done s t) := by
  have he : settle s t = t := by simp [settle, msixEdges, h.mode]
  show Silent (settle s t)
  rw [he]
  exact h

/-- A command that a silent device does not run leaves the state as it is. -/
theorem idle_silent {s t : State} (h : Silent s) (ht : t = s) : SilentOut (done s t) := done_silent (ht ▸ h)

theorem ite_silent {c : Prop} [Decidable c] {o p : Out} (ho : SilentOut o) (hp : SilentOut p) : SilentOut (if c then o else p) := by
  split
  · exact ho
  · exact hp

theorem fault_silent (r : Fault) : SilentOut (.fault r) := trivial

theorem afterPosted_silent {s : State} (h : Silent s) (b : Bridge) {f : State → State} (hf : ∀ u, Silent u → Silent (f u)) :
    SilentOut (s.afterPosted b f) :=
  ite_silent (fault_silent _) (done_silent (hf _ (State.deliverAll_silent h b)))

theorem execPostedWriteDeliver_silent {s : State} (h : Silent s) (b : Bridge) : SilentOut (execPostedWriteDeliver b s) :=
  ite_silent (fault_silent _) (done_silent (postedWriteDeliver_silent h b))

theorem execPcieMemoryRead_silent {s : State} (h : Silent s) (bar : Bar) (off n : Nat) : SilentOut (execPcieMemoryRead bar off n s) :=
  ite_silent (afterPosted_silent h _ (fun _ hu => pcieMemoryRead_silent hu ..)) (done_silent h)

theorem execPcieConfigurationRequest_silent {s : State} (h : Silent s) (reg : Fin 1024) (w : Option Word) :
    SilentOut (execPcieConfigurationRequest reg w s) :=
  ite_silent (afterPosted_silent h _ (fun _ hu => pcieConfigurationRequest_silent hu ..)) (done_silent h)

theorem execRead_silent {s : State} (h : Silent s) (addr : Word) (n : Nat) : SilentOut (execRead addr n s) :=
  ite_silent (afterPosted_silent h _ (fun _ hu => State.spiReadFrom_silent hu ..)) (done_silent h)

theorem execRegisterWrite_silent {s : State} (h : Silent s) (m : Master) (addr v : Word) (be : BitVec 4) :
    SilentOut (execRegisterWrite m addr v be s) :=
  ite_silent (fault_silent _) (done_silent (registerWrite_silent h ..))

theorem execDwIrqForce_silent {s : State} (h : Silent s) (v : Word) : SilentOut (execDwIrqForce v s) :=
  ite_silent (fault_silent _) (idle_silent h (by simp [h.live]))

theorem execMailboxTransaction_silent {s : State} (h : Silent s) (addr : Word) (w : Option Word) :
    SilentOut (execMailboxTransaction addr w s) := by
  unfold execMailboxTransaction
  dsimp only
  rw [if_pos (by simp [h.paired])]
  exact done_silent h

theorem execLockstepCompare_silent {s : State} (h : Silent s) (w0 w1 : CoreWindow) : SilentOut (execLockstepCompare w0 w1 s) := by
  unfold execLockstepCompare lockstepCompare
  rw [if_pos (by simp [h.live])]
  exact done_silent h

/-- Every command but the assertion of RST_N and the loss of VAON keeps a silent device silent. -/
theorem exec_silent (i : Instr) {s : State} (h : Silent s) (hr : i ≠ .rstNAssert) (hv : i ≠ .vaonLoss) : SilentOut (exec i s) := by
  cases i with
  | vaonApplied _ => exact idle_silent h (by simp [vaonApplied, h.vaon])
  | vaonLoss => exact absurd rfl hv
  | rstNAssert => exact absurd rfl hr
  | rstNRelease _ => exact idle_silent h (by simp [rstNRelease, h.rstLow])
  | refclkLoss _ _ => exact done_silent (refclkLoss_silent h ..)
  | supplyLow _ _ => exact done_silent (supplyLow_silent h ..)
  | supplyFault _ => exact done_silent (supplyFault_silent h ..)
  | storeOkSet => exact done_silent (storeOkSet_silent h ..)
  | tempSample _ => exact done_silent (tempSample_silent h ..)
  | battSample _ => exact done_silent (battSample_silent h ..)
  | ppsEdge _ _ => exact idle_silent h (by simp [ppsEdge, h.live])
  | sync _ _ _ _ => exact idle_silent h (by simp [sync, h.fw])
  | syncReceiptTimeout => exact idle_silent h (by simp [syncReceiptTimeout, h.live])
  | holdoverTime => exact idle_silent h (by simp [holdoverTime, h.live])
  | countEdge _ _ _ => exact done_silent (countEdge_silent h ..)
  | angleGateEdge _ => exact idle_silent h (by simp [angleGateEdge, h.live])
  | stallTime => exact idle_silent h (by simp [stallTime, h.live])
  | frameReceive _ => exact idle_silent h (by simp [frameReceive, h.live])
  | linkDown _ => exact idle_silent h (by simp [linkDown, h.live])
  | linkUp _ _ => exact idle_silent h (by simp [linkUp, h.live])
  | agingSweep => exact idle_silent h (by simp [agingSweep, h.live])
  | recoveryResetTimeout _ => exact idle_silent h (recoveryResetTimeout_of_silent h ..)
  | scrubRead _ => exact idle_silent h (by simp [scrubRead, h.live])
  | scrubSweepEnd => exact idle_silent h (by simp [scrubSweepEnd, h.live])
  | egressSelect _ => exact idle_silent h (by simp [egressSelect, h.live])
  | cellArrive _ _ _ _ _ => exact idle_silent h (by simp [cellArrive, h.live])
  | confluenceTimeout _ => exact idle_silent h (by simp [confluenceTimeout, h.live])
  | underrun _ => exact idle_silent h (underrun_of_silent h ..)
  | frameTransmitEnd _ => exact idle_silent h (frameTransmitEnd_of_silent h ..)
  | atsEligible _ _ _ => exact idle_silent h (by simp [atsEligible, h.live])
  | gateEdge _ => exact idle_silent h (by simp [h.live])
  | gateListSwitch _ => exact idle_silent h (by simp [h.live])
  | preempt _ => exact idle_silent h (preempt_of_silent h ..)
  | mmVerifyTimeout _ => exact idle_silent h (by simp [mmVerifyTimeout, h.live])
  | windowDecision _ _ => exact idle_silent h (by simp [h.live])
  | windowOpen _ => exact idle_silent h (by simp [h.live])
  | windowEnd _ => exact idle_silent h (by simp [h.live])
  | windowSetAdopt _ => exact idle_silent h (by simp [h.live])
  | connSweep _ => exact idle_silent h (by simp [connSweep, h.live])
  | ruleBankSwap => exact idle_silent h (ruleBankSwap_of_silent h ..)
  | canReceive _ _ _ _ => exact idle_silent h (by simp [canReceive, h.live])
  | canBusError _ _ _ _ => exact idle_silent h (by simp [canBusError, h.live])
  | busOffRecoveryComplete _ => exact idle_silent h (by simp [busOffRecoveryComplete, h.live])
  | canModeChange _ => exact idle_silent h (by simp [canModeChange, h.live])
  | txPush _ _ _ => exact idle_silent h (by simp [txPush, h.live])
  | canTxStart _ => exact idle_silent h (canTxStart_of_silent h ..)
  | canTxEnd _ _ _ => exact idle_silent h (by simp [canTxEnd, h.live])
  | canLifetimeExpiry _ => exact idle_silent h (by simp [canLifetimeExpiry, h.live])
  | recover _ => exact idle_silent h (by simp [recover, h.live])
  | abortHead _ => exact idle_silent h (by simp [abortHead, h.live])
  | abortPrio _ => exact idle_silent h (by simp [abortPrio, h.live])
  | flush _ => exact idle_silent h (by simp [canFlushAll, h.live])
  | linHeader _ _ _ _ => exact idle_silent h (by simp [linHeader, h.live])
  | linResponse _ _ => exact idle_silent h (by simp [linResponse, h.live])
  | lpub _ _ => exact idle_silent h (by simp [lpub, h.live])
  | linSched _ _ => exact idle_silent h (by simp [linSched, h.live])
  | linSlot _ => exact idle_silent h (by simp [linSlot, h.live])
  | linNoResponse _ => exact idle_silent h (linNoResponse_of_silent h ..)
  | goToSleep => exact idle_silent h (by simp [goToSleep, h.live])
  | linRestart _ => exact idle_silent h (linRestart_of_silent h ..)
  | periodBoundary _ => exact idle_silent h (periodBoundary_of_silent h ..)
  | runRetry _ => exact idle_silent h (runRetry_of_silent h ..)
  | spacedRun _ => exact idle_silent h (spacedRun_of_silent h ..)
  | acfFrameReceive _ _ => exact idle_silent h (acfFrameReceive_of_silent h ..)
  | gwStale _ => exact idle_silent h (by simp [gwStale, h.live])
  | cvStart _ => exact idle_silent h (by simp [cvStart, h.live])
  | cvFeed8 _ _ => exact idle_silent h (by simp [State.cvFeed, h.live])
  | cvFeed16 _ _ => exact idle_silent h (by simp [State.cvFeed, h.live])
  | cvFeed32 _ _ => exact idle_silent h (by simp [State.cvFeed, h.live])
  | pcieMemoryWrite _ _ _ _ _ => exact done_silent (pcieMemoryWrite_silent h ..)
  | postedWriteDeliver _ => exact execPostedWriteDeliver_silent h ..
  | pcieMemoryRead _ _ _ => exact execPcieMemoryRead_silent h ..
  | pcieConfigurationRequest _ _ => exact execPcieConfigurationRequest_silent h ..
  | functionLevelReset => exact done_silent (functionLevelReset_silent h ..)
  | perstN _ => exact done_silent (perstN_silent h ..)
  | write _ _ => exact done_silent (spiWrite_silent h ..)
  | read _ _ => exact execRead_silent h ..
  | status => exact done_silent (spiStatus_silent h ..)
  | targetTimeout _ _ => exact done_silent (targetTimeout_silent h ..)
  | dwPwePop => exact idle_silent h (by simp [dwPwePop, h.live])
  | dwMbRing _ => exact idle_silent h (by simp [dwMbRing, h.live])
  | dwMbDone _ => exact idle_silent h (by simp [dwMbDone, h.live])
  | dwMbAbort _ => exact idle_silent h (by simp [dwMbAbort, h.live])
  | registerWrite _ _ _ _ => exact execRegisterWrite_silent h ..
  | echo _ => exact idle_silent h (by simp [echo, h.serve])
  | getInfo _ => exact idle_silent h (by simp [getInfo, h.serve])
  | paramGet _ => exact idle_silent h (by simp [paramGet, h.serve])
  | paramSet _ => exact idle_silent h (by simp [paramSet, h.serve])
  | objOpen _ => exact idle_silent h (by simp [objOpen, h.serve])
  | objWrite _ => exact idle_silent h (by simp [objWrite, h.serve])
  | objCommit _ => exact idle_silent h (by simp [objCommit, h.serve])
  | objCancel _ => exact idle_silent h (by simp [objCancel, h.serve])
  | objDma _ => exact idle_silent h (by simp [objDma, h.serve])
  | objDmaCompletion _ _ => exact idle_silent h (by simp [objDmaCompletion, h.notBusy])
  | objDmaTimeout => exact idle_silent h (objDmaTimeout_of_silent h ..)
  | objAreaTimeout => exact idle_silent h (objAreaTimeout_of_silent h ..)
  | objLoad _ => exact idle_silent h (by simp [objLoad, h.serve])
  | frameSend _ => exact idle_silent h (by simp [frameSend, h.serve])
  | faultClear _ => exact idle_silent h (by simp [faultClear, h.serve])
  | connRemove _ => exact idle_silent h (by simp [connRemove, h.serve])
  | nmHostNeed _ => exact idle_silent h (by simp [nmHostNeed, h.serve])
  | nmHostRelease _ => exact idle_silent h (by simp [nmHostRelease, h.serve])
  | nmStatus _ => exact idle_silent h (by simp [nmStatus, h.serve])
  | pairStatus _ => exact idle_silent h (by simp [pairStatus, h.serve])
  | pairRole _ => exact idle_silent h (by simp [pairRole, h.serve])
  | keyLoad _ => exact idle_silent h (by simp [keyLoad, h.secServe])
  | keyClear _ => exact idle_silent h (by simp [keyClear, h.secServe])
  | keyDerive _ => exact idle_silent h (by simp [keyDerive, h.secServe])
  | otpProgram _ => exact idle_silent h (by simp [otpProgram, h.secServe])
  | otpProgrammingComplete => exact idle_silent h (otpProgrammingComplete_of_silent h ..)
  | sigVerify _ => exact idle_silent h (by simp [sigVerify, h.secServe])
  | aesGcmEncrypt _ => exact idle_silent h (by simp [aesGcmEncrypt, h.hostCrypto])
  | aesGcmDecrypt _ => exact idle_silent h (by simp [aesGcmDecrypt, h.hostCrypto])
  | aesCmacGenerate _ => exact idle_silent h (by simp [aesCmacGenerate, h.hostCrypto])
  | aesCmacVerify _ => exact idle_silent h (by simp [aesCmacVerify, h.hostCrypto])
  | sha384 _ => exact idle_silent h (by simp [sha384Command, h.hostCrypto])
  | updStatus _ => exact idle_silent h (by simp [updStatus, h.serve])
  | updLock _ => exact idle_silent h (by simp [updLock, h.serve])
  | header _ => exact idle_silent h (by simp [header, h.updServe])
  | block _ => exact idle_silent h (by simp [block, h.updServe])
  | blockStore => exact idle_silent h (blockStore_of_silent h ..)
  | finish _ => exact idle_silent h (by simp [finish, h.updServe])
  | cancel _ => exact idle_silent h (by simp [cancel, h.updServe])
  | go _ => exact idle_silent h (by simp [go, h.updServe])
  | pairGoIssue => exact idle_silent h (pairGoIssue_of_silent h ..)
  | activation _ _ _ => exact idle_silent h (activation_of_silent h ..)
  | activationDeadline => exact idle_silent h (activationDeadline_of_silent h ..)
  | svcFrameReceive _ => exact idle_silent h (by simp [svcFrameReceive, h.fw])
  | nrnRead _ => exact idle_silent h (by simp [nrnRead, h.nrnRecord])
  | nrnStage _ => exact idle_silent h (by simp [nrnStage, h.nrnRecord])
  | nrnFetch _ => exact idle_silent h (by simp [nrnFetch, h.nrnRecord])
  | diagMemtest _ => exact idle_silent h (by simp [diagMemtest, h.serve])
  | regionTestEnd _ => exact idle_silent h (regionTestEnd_of_silent h ..)
  | diagScrubFast _ => exact idle_silent h (by simp [diagScrubFast, h.serve])
  | diagCmpTest _ => exact idle_silent h (by simp [diagCmpTest, h.serve])
  | diagCounters _ => exact idle_silent h (by simp [diagCounters, h.serve])
  | maintenanceTokenGrant => exact idle_silent h (by simp [maintenanceTokenGrant, h.live])
  | capture => exact idle_silent h (by simp [capture, h.live])
  | snapSecondCapture => exact idle_silent h (by simp [snapSecondCapture, h.live])
  | dwIrqForce _ => exact execDwIrqForce_silent h ..
  | irqModerationExpiry => exact idle_silent h (irqModerationExpiry_of_silent h ..)
  | snapshotStaticRewrite => exact idle_silent h (by simp [snapshotStaticRewrite, h.fw])
  | keepAliveSend => exact idle_silent h (by simp [keepAliveSend, h.fw])
  | wakeHoldExpiry => exact idle_silent h (by simp [wakeHoldExpiry, h.live])
  | ebbTimeout => exact idle_silent h (by simp [ebbTimeout, h.fw])
  | commit => exact idle_silent h (by simp [commit, State.requestCommit, h.live])
  | wakeLineEdge _ => exact done_silent (wakeLineEdge_silent h ..)
  | canWakePattern _ => exact idle_silent h (by simp [canWakePattern, h.listens])
  | linWakePulse _ => exact idle_silent h (linWakePulse_of_silent h ..)
  | phyWake _ => exact idle_silent h (by simp [phyWake, h.listens])
  | aonSwWake => exact idle_silent h (by simp [aonSwWake, h.live])
  | warmWake _ _ => exact idle_silent h (by simp [warmWake, h.mode])
  | wakePulseEnd _ => exact idle_silent h (by simp [wakePulseEnd, h.live])
  | maximumAwakeTime _ => exact idle_silent h (by simp [maximumAwakeTime, h.fw])
  | ignoredNodeRelease _ => exact idle_silent h (ignoredNodeRelease_of_silent h ..)
  | lockstepCompare _ _ => exact execLockstepCompare_silent h ..
  | checkpoint _ => exact idle_silent h (by simp [checkpoint, h.fw])
  | comparatorInjectionTest _ => exact idle_silent h (by simp [comparatorInjectionTest, h.live])
  | heartbeatSend => exact idle_silent h (by simp [heartbeatSend, h.paired])
  | heartbeat _ => exact idle_silent h (by simp [heartbeat, h.paired])
  | entryUpdate _ _ => exact idle_silent h (by simp [entryUpdate, h.paired])
  | digest _ _ => exact idle_silent h (by simp [digest, h.paired])
  | resyncBegin _ => exact idle_silent h (by simp [resyncBegin, h.paired])
  | resyncEnd _ => exact idle_silent h (by simp [resyncEnd, h.paired])
  | roleChange _ => exact idle_silent h (by simp [roleChange, h.paired])
  | mailboxTransaction _ _ => exact execMailboxTransaction_silent h ..
  | wakeRequest => exact idle_silent h (by simp [wakeRequest, h.paired])
  | mirrorCompare => exact idle_silent h (by simp [mirrorCompare, h.paired])
  | resync _ => exact idle_silent h (resync_of_silent h ..)
  | partnerSilence => exact idle_silent h (by simp [partnerSilence, h.paired])
  | pairRoleTimeout => exact idle_silent h (pairRoleTimeout_of_silent h ..)
  | tamperEvent _ => exact done_silent (tamperEvent_silent h ..)
  | wkMat _ _ _ _ => exact idle_silent h (by simp [wkMat, h.live])
  | authStart _ => exact idle_silent h (by simp [authStart, h.live])
  | authFeed8 _ _ => exact idle_silent h (by simp [authFeed, h.live])
  | authFeed32 _ _ => exact idle_silent h (by simp [authFeed, h.live])
  | authFinish _ => exact idle_silent h (by simp [authFinish, h.live])
  | islandStart _ => exact done_silent (islandStart_silent h ..)
  | islandStop => exact done_silent (islandStop_silent h ..)
  | wheelPulse _ _ => exact done_silent (State.island_silent h ..)
  | speedZero _ => exact done_silent (State.island_silent h ..)
  | motionStop _ => exact done_silent (State.island_silent h ..)
  | periodicRecord _ => exact done_silent (State.island_silent h ..)
  | recordWrite _ => exact done_silent (State.island_silent h ..)
  | referenceLinkMessage _ => exact done_silent (referenceLinkMessage_silent h ..)
  | sealOpened _ => exact done_silent (State.island_silent h ..)
  | sealClosed _ => exact done_silent (State.island_silent h ..)
  | calibrationPoll _ => exact done_silent (calibrationPoll_silent h ..)
  | bypass => exact done_silent (State.jtagSet_silent h ..)
  | idcode => exact done_silent (State.jtagSet_silent h ..)
  | samplePreload _ => exact done_silent (jtagSample_silent h ..)
  | extest _ => exact done_silent (jtagExtest_silent h ..)
  | syncTransmission _ => exact idle_silent h (by simp [syncTransmission, h.fw])
  | pdelayReq _ _ _ _ => exact idle_silent h (by simp [pdelayReq, h.fw])
  | canIntegration _ => exact idle_silent h (by simp [canIntegration, h.live])
  | unknownInstruction _ => exact done_silent (unknownInstruction_silent h ..)
  | unknownCommand _ => exact idle_silent h (by simp [unknownCommand, h.canTake])
  | wakeLineLow _ => exact done_silent (wakeLineLow_silent h ..)
  | badRecord _ => exact idle_silent h (by simp [badRecord, h.paired])
  | resyncCompleted _ => exact idle_silent h (by simp [resyncCompleted, h.fw])
  | tqExpiry _ => exact done_silent (State.island_silent h ..)
  | pcieLinkLoss => exact done_silent (pcieLinkLoss_silent h ..)

/-- Settles O5: no command but the two runs in a silent device, apart from the bridges' reads and logs, the latches of the always-on
domain, the fault record, the island and the boundary register, none of which touches what `Silent` speaks of. -/
theorem failSilentStays : Obligations.FailSilentStays := by
  unfold Obligations.FailSilentStays
  intro s t hs hr hv h
  unfold step at h
  split at h
  · have ht : SilentOut (execTick s) := done_silent (State.oneCycle_silent hs)
    rw [h] at ht
    exact ht
  · next c rest hp =>
    rw [hp] at hr hv
    have hs' : Silent { s with pending := rest } := hs
    have ht : SilentOut (exec c { s with pending := rest }) :=
      exec_silent c hs' (fun hc => hr (congrArg some hc)) (fun hc => hv (congrArg some hc))
    rw [h] at ht
    exact ht

end Sys2Proof.Machine
end

