-- ==== Sys2Proof/Proofs/NetworkManagement.lean ====
section
/-! SUPPORT. What the transitions of network management leave: the mirror, entry to Awake, a return from Ebb (R320, R327, R351). -/

namespace Sys2Proof.Machine

theorem getLsbD_setBit {w : Nat} (v : BitVec w) (i : Nat) (b : Bool) (j : Nat) (hi : i < w) :
    (setBit v i b).getLsbD j = if i = j then b else v.getLsbD j := by
  unfold setBit
  have hone : (1#w <<< i).getLsbD j = decide (i = j) := by
    rw [BitVec.getLsbD_shiftLeft, BitVec.getLsbD_one]
    by_cases h : i = j
    · subst h
      simp [hi]
      omega
    · simp only [h, decide_false]
      by_cases hl : j < i
      · simp [hl]
      · have : j - i ≠ 0 := by omega
        simp [this]
  split
  · rename_i hb
    rw [BitVec.getLsbD_or, hone]
    by_cases h : i = j <;> simp [h, hb]
  · rename_i hb
    rw [BitVec.getLsbD_and, BitVec.getLsbD_not, hone]
    by_cases h : i = j
    · simp [h, hb]
    · simp only [h, decide_false, if_false, Bool.not_false, Bool.and_true]
      by_cases hj : j < w
      · simp [hj]
      · simp [hj, BitVec.getLsbD_of_ge v j (by omega)]

/-! The mirror of network management (R351). -/

/-- A mirrored change touches the record of the pair and counters alone. -/
theorem keptUpdate_only (s : State) (table index : Nat) (valid : Bool) (body : List Byte) :
    ∃ p c d, s.keptUpdate table index valid body = { s with pair := p, cnt32 := c, cnt64 := d } := by
  unfold State.keptUpdate
  split
  · exact ⟨_, _, _, rfl⟩
  · unfold State.entryUpdate
    extract_lets v _ r
    split
    · exact ⟨_, _, _, rfl⟩
    split
    · exact ⟨_, _, _, rfl⟩
    split
    · exact ⟨_, _, _, rfl⟩
    · exact ⟨_, _, _, rfl⟩

theorem mirrorNm_only (s : State) : ∃ p c d, s.mirrorNm = { s with pair := p, cnt32 := c, cnt64 := d } := keptUpdate_only ..

/-- A change of state marks DW_FW_EVENT bit 0 and goes to the mirror (R320). -/
theorem setNm_other {s : State} {x : NmState} (h : s.nm.state ≠ x) :
    ∃ p c d, s.setNm x = { ({ s with nm.state := x }.fwEvent 0) with pair := p, cnt32 := c, cnt64 := d } := by
  unfold State.setNm
  rw [if_neg h]
  exact mirrorNm_only _

/-- What follows a change: the state of network management, its event, and the mirror, where the change brings no local need in Ebb. -/
theorem nmFollow_only {s t : State} (h : s.nm.state = .ebb → s.localNeed = true → t.localNeed = true) :
    ∃ x w p c d, s.nmFollow t = { s with nm.state := x, dw := w, pair := p, cnt32 := c, cnt64 := d } := by
  have hm : ∀ u : State, (∃ x w p c d, u = { s with nm.state := x, dw := w, pair := p, cnt32 := c, cnt64 := d }) →
      ∃ x w p c d, (if u.nm.state = t.nm.state && u.mirrorNmBody ≠ t.mirrorNmBody then u.mirrorNm else u) =
        { s with nm.state := x, dw := w, pair := p, cnt32 := c, cnt64 := d } := by
    rintro u ⟨x, w, p, c, d, rfl⟩
    split
    · obtain ⟨p, c, d, hp⟩ := mirrorNm_only { s with nm.state := x, dw := w, pair := p, cnt32 := c, cnt64 := d }
      exact ⟨x, w, p, c, d, hp⟩
    · exact ⟨x, w, p, c, d, rfl⟩
  refine hm _ ?_
  have hid : ∃ x w p c d, s = { s with nm.state := x, dw := w, pair := p, cnt32 := c, cnt64 := d } := ⟨_, _, _, _, _, rfl⟩
  split
  · exact hid
  split
  · next hs =>
    split
    · obtain ⟨p, c, d, he⟩ := setNm_other (s := s) (x := .ebb) (by simp [hs])
      exact ⟨_, _, _, _, _, he⟩
    · exact hid
  · next hs =>
    rw [if_neg]
    · exact hid
    · simp only [Bool.and_eq_true, Bool.not_eq_true', not_and, Bool.not_eq_false]
      exact h hs
  · exact hid

/-- Awake with local need stays. -/
theorem nmFollow_awake {s : State} (t : State) (hs : s.nm.state = .awake) (hn : s.localNeed = true) :
    ∃ p c d, s.nmFollow t = { s with pair := p, cnt32 := c, cnt64 := d } := by
  unfold State.nmFollow
  extract_lets u
  have hu : u = s := by simp [u, hs, hn]
  rw [hu]
  split
  · exact mirrorNm_only s
  · exact ⟨_, _, _, rfl⟩

/-! Entry to Awake (R320, R327). -/

/-- The end of a level touches the awake clocks alone (R328). -/
theorem levelGone_only (s t : State) : ∃ n a, s.levelGone t = { s with nm.nodes := n, nm.hostAwake := a } := by
  unfold State.levelGone
  split
  · exact ⟨_, _, rfl⟩
  · exact ⟨_, _, rfl⟩

/-- One output line begins its pulse. -/
def pulseStep (except : Nat) (s : State) (w : Nat) : State :=
  if s.paramBit (0x0C20 + w) 1 && !bit except w then
    { s with nm.pulses := setBit s.nm.pulses w true, nm.pulseAt := SMap.set 0 s.nm.pulseAt w s.now }
  else s

theorem wakePulses_eq (s : State) (except : Nat) : s.wakePulses except = (foldN 4 (pulseStep except) s).levelGone s := rfl

/-- Every output line but the excepted ones carries a pulse, and those keep their level. -/
theorem pulseSteps (s : State) (except n : Nat) (hn : n ≤ 4) :
    ∃ p a, foldN n (pulseStep except) s = { s with nm.pulses := p, nm.pulseAt := a } ∧
      (∀ v < n, s.paramBit (0x0C20 + v) 1 = true → bit except v = false → p.getLsbD v = true) ∧
      (∀ v, bit except v = true → p.getLsbD v = s.nm.pulses.getLsbD v) := by
  induction n with
  | zero => exact ⟨_, _, rfl, by simp, fun _ _ => rfl⟩
  | succ n ih =>
    obtain ⟨p, a, he, hd, hk⟩ := ih (by omega)
    have hf : foldN (n + 1) (pulseStep except) s = pulseStep except (foldN n (pulseStep except) s) n := by
      simp [foldN, List.range_succ]
    have hb : ({ s with nm.pulses := p, nm.pulseAt := a } : State).paramBit (0x0C20 + n) 1 = s.paramBit (0x0C20 + n) 1 := rfl
    rw [hf, he]
    unfold pulseStep
    rw [hb]
    split
    · next hc =>
      refine ⟨_, _, rfl, fun v hv hp hx => ?_, fun v hx => ?_⟩
      · rw [getLsbD_setBit _ _ _ _ (by omega)]
        split
        · rfl
        · exact hd v (by omega) hp hx
      · rw [getLsbD_setBit _ _ _ _ (by omega), if_neg, hk v hx]
        rintro rfl
        simp [hx] at hc
    · next hc =>
      refine ⟨_, _, rfl, fun v hv hp hx => ?_, hk⟩
      by_cases hvn : v = n
      · subst hvn
        simp [hp, hx] at hc
      · exact hd v (by omega) hp hx

/-- The pulses of an entry to Awake. -/
theorem wakePulses_only (s : State) (except : Nat) : ∃ p a n h,
    s.wakePulses except = { s with nm := { s.nm with pulses := p, pulseAt := a, nodes := n, hostAwake := h } } ∧
      (∀ v < 4, s.paramBit (0x0C20 + v) 1 = true → bit except v = false → p.getLsbD v = true) ∧
      (∀ v, bit except v = true → p.getLsbD v = s.nm.pulses.getLsbD v) := by
  obtain ⟨p, a, he, hd, hk⟩ := pulseSteps s except 4 (Nat.le_refl 4)
  obtain ⟨n, h, hl⟩ := levelGone_only { s with nm.pulses := p, nm.pulseAt := a } s
  exact ⟨p, a, n, h, by rw [wakePulses_eq, he, hl], hd, hk⟩

/-- What an entry to Awake leaves in network management, and what of the rest it touches. -/
theorem enterAwake_only (s : State) (except : Nat) : ∃ p a n h r c d,
    s.enterAwake except =
      { (s.fwEvent 0) with nm := { s.nm with state := .awake, wakeHold := true, awakeAt := s.now, firstKa := true, lastKaTx := none,
                                             pulses := p, pulseAt := a, nodes := n, hostAwake := h },
                           pair := r, cnt32 := c, cnt64 := d } ∧
      (∀ v < 4, s.paramBit (0x0C20 + v) 1 = true → bit except v = false → p.getLsbD v = true) ∧
      (∀ v, bit except v = true → p.getLsbD v = s.nm.pulses.getLsbD v) := by
  unfold State.enterAwake
  extract_lets _ u
  obtain ⟨r, c, d, hm⟩ := mirrorNm_only ({ u with nm.state := .awake }.fwEvent 0)
  obtain ⟨p, a, n, h, hw, hd, hk⟩ :=
    wakePulses_only { ({ u with nm.state := .awake }.fwEvent 0) with pair := r, cnt32 := c, cnt64 := d } except
  exact ⟨p, a, n, h, r, c, d, by rw [hm, hw]; rfl, hd, hk⟩

/-- A LIN channel that was put to sleep wakes: the channels' records alone change. -/
theorem linWakeUp_only (s : State) : ∃ l, s.linWakeUp = { s with bus.lin := l } := by
  refine foldN_keeps (P := fun t => ∃ l, t = { s with bus.lin := l }) ⟨_, rfl⟩ ?_
  rintro _ m ⟨l, rfl⟩
  dsimp only
  split
  · split
    · exact ⟨_, rfl⟩
    · exact ⟨_, rfl⟩
  split
  · exact ⟨_, rfl⟩
  · exact ⟨_, rfl⟩

/-- A return from Ebb counts an abort and enters Awake. -/
theorem abortEbb_only (s : State) (except : Nat) : ∃ p a n h r c d l,
    s.abortEbb except =
      { (s.fwEvent 0) with nm := { s.nm with aborts := satInc s.nm.aborts, state := .awake, wakeHold := true, awakeAt := s.now,
                                             firstKa := true, lastKaTx := none, pulses := p, pulseAt := a, nodes := n, hostAwake := h },
                           pair := r, cnt32 := c, cnt64 := d, bus.lin := l } ∧
      (∀ v < 4, s.paramBit (0x0C20 + v) 1 = true → bit except v = false → p.getLsbD v = true) ∧
      (∀ v, bit except v = true → p.getLsbD v = s.nm.pulses.getLsbD v) := by
  obtain ⟨l, hl⟩ := linWakeUp_only { s with nm.aborts := satInc s.nm.aborts }
  obtain ⟨p, a, n, h, r, c, d, he, hd, hk⟩ := enterAwake_only { s with nm.aborts := satInc s.nm.aborts, bus.lin := l } except
  refine ⟨p, a, n, h, r, c, d, l, ?_, hd, hk⟩
  unfold State.abortEbb
  rw [hl, he]
  rfl

end Sys2Proof.Machine
end

