-- ==== Sys2Proof/Proofs/CommitRequests.lean ====
section
/-! SUPPORT. Requests of Commit and the Ebb timeout (R320, R321, R442). -/

namespace Sys2Proof.Machine

/-! Requests of Commit (R320, R321). -/

theorem commit_awake {s : State} (hl : s.live = true) (hs : s.nm.state = .awake) :
    commit s = { s with nm := { s.nm with accepted := false } } := by
  simp [commit, State.requestCommit, hl, hs]

theorem commit_commit {s : State} (hl : s.live = true) (hs : s.nm.state = .commit) : commit s = s := by
  simp [commit, State.requestCommit, hl, hs]

theorem commit_early {s : State} (hl : s.live = true) (hs : s.nm.state = .ebb) (hc : s.time.cycle < s.nm.countAt + msCycles (s.param 0x0C01)) :
    commit s = { s with nm := { s.nm with accepted := false } } :=
  if_pos (by simp [hl, hs, State.now, State.ebbCycles, hc])

/-- Once the countdown has reached its timeout, firmware's request is tested against the latch. -/
theorem commit_late {s : State} (hc : s.nm.countAt + msCycles (s.param 0x0C01) ≤ s.time.cycle) :
    commit s = s.requestCommit := by
  refine if_neg ?_
  rw [Bool.and_eq_true]
  exact fun h => Nat.not_lt.mpr hc (of_decide_eq_true h.2)

theorem requestCommit_clear {s : State} (hl : s.live = true) (hs : s.nm.state = .ebb) (hz : s.nm.latch = 0) :
    s.requestCommit = { s with nm := { s.nm with accepted := true, sleeps := satInc s.nm.sleeps, commitAt := s.now } }.setNm .commit := by
  simp [State.requestCommit, hl, hs, hz]

theorem requestCommit_latched {s : State} (hl : s.live = true) (hs : s.nm.state = .ebb) (hz : s.nm.latch ≠ 0) :
    s.requestCommit = s.commitRefused := by
  unfold State.requestCommit
  rw [if_neg (by simp [hl]), hs]
  simp only [hz, ne_eq, not_false_iff, if_true]

/-- A refused request clears the latch; only KA restarts the countdown, anything else returns to Awake. -/
theorem commitRefused_fw {s : State} (hf : s.fw = true) (hp : s.secondary = false) :
    s.commitRefused =
      (let u := { s with nm := { s.nm with accepted := false, latch := 0, missed := false } }
       if s.nm.latch &&& 0xFF ≠ 0 then u.abortEbb (s.nm.latch.toNat % 16) else { u with nm.countAt := s.now }) := by
  unfold State.commitRefused
  extract_lets l _ u _ v w
  have hu : u.fw = true := hf
  have hv : v.secondary = false := hp
  rw [if_neg (by simp [hu]), if_neg (by simp [hv])]
  rfl

theorem live_of_fw {s : State} (h : s.fw = true) : s.live = true := by
  simp only [State.fw, Bool.and_eq_true] at h
  exact h.1.1

/-- Firmware marks the change of state; while it restarts that waits. -/
theorem fwEvent_bit (s : State) (i : Nat) (hi : i < 5) :
    if s.ls.restarting then (s.fwEvent i).dw.fwDue.getLsbD i = true else (s.fwEvent i).dw.fwEvent.getLsbD i = true := by
  unfold State.fwEvent
  split
  · simp [getLsbD_setBit _ _ _ _ hi]
  · simp [getLsbD_setBit _ _ _ _ hi]

theorem requestCommit_accepted {s : State} (hl : s.live = true) (hs : s.nm.state = .ebb) (hz : s.nm.latch = 0) :
    ∃ t, s.requestCommit = t ∧ t.nm.state = .commit ∧ t.nm.accepted = true ∧ t.nm.commitAt = s.time.cycle ∧ t.nm.sleeps = satInc s.nm.sleeps ∧
      t.nm.latch = 0 ∧ (if s.ls.restarting then t.dw.fwDue.getLsbD 0 = true else t.dw.fwEvent.getLsbD 0 = true) ∧ t.mem = s.mem ∧
      t.params = s.params ∧ t.bus = s.bus ∧ t.sw = s.sw := by
  rw [requestCommit_clear hl hs hz]
  obtain ⟨p, c, d, h⟩ := setNm_other (s := { s with nm := { s.nm with accepted := true, sleeps := satInc s.nm.sleeps, commitAt := s.now } })
    (x := .commit) (by simp [hs])
  rw [h]
  exact ⟨_, rfl, rfl, rfl, rfl, rfl, hz, fwEvent_bit _ 0 (by omega), rfl, rfl, rfl, rfl⟩

theorem sameMem_of_mem {s t : State} (h : t.mem = s.mem) : SameMem s t := fun a => by simp [State.rd8, h]

/-- Commit is asked for (R320, R321). -/
theorem commit_cases (s : State) (hl : s.live = true) :
    (s.nm.state = .awake → exec .commit s = .next (settle s { s with nm := { s.nm with accepted := false } })) ∧
    (s.nm.state = .commit → exec .commit s = .next (settle s s)) ∧
    (s.nm.state = .ebb → s.time.cycle < s.nm.countAt + msCycles (s.param 0x0C01) →
      exec .commit s = .next (settle s { s with nm := { s.nm with accepted := false } })) ∧
    (s.nm.state = .ebb → s.nm.countAt + msCycles (s.param 0x0C01) ≤ s.time.cycle → s.nm.latch = 0 →
      ∃ t, exec .commit s = .next t ∧ t.nm.state = .commit ∧ t.nm.accepted = true ∧ t.nm.commitAt = s.time.cycle ∧
        t.nm.sleeps = satInc s.nm.sleeps ∧ t.nm.latch = 0 ∧
        (if s.ls.restarting then t.dw.fwDue.getLsbD 0 = true else t.dw.fwEvent.getLsbD 0 = true) ∧ SameMem s t ∧ t.params = s.params ∧
        t.bus = s.bus ∧ t.sw = s.sw) ∧
    (s.nm.state = .ebb → s.nm.countAt + msCycles (s.param 0x0C01) ≤ s.time.cycle → s.nm.latch ≠ 0 → s.fw = true → s.secondary = false →
      ∃ t, exec .commit s = .next t ∧ t.nm.accepted = false ∧ t.nm.latch = 0 ∧ t.nm.sleeps = s.nm.sleeps ∧
        (s.nm.latch = 0x100 → t.nm.state = .ebb ∧ t.nm.countAt = s.time.cycle ∧ t.nm.aborts = s.nm.aborts) ∧
        (s.nm.latch &&& 0xFF ≠ 0 → t.nm.state = .awake ∧ t.nm.aborts = satInc s.nm.aborts ∧ t.nm.wakeHold = true ∧ t.nm.firstKa = true)) := by
  have hx : exec .commit s = .next (settle s (commit s)) := rfl
  refine ⟨fun hs => ?_, fun hs => ?_, fun hs hc => ?_, fun hs hc hz => ?_, fun hs hc hz hf hp => ?_⟩
  · rw [hx, commit_awake hl hs]
  · rw [hx, commit_commit hl hs]
  · rw [hx, commit_early hl hs hc]
  · obtain ⟨t, he, hst, hacc, hat, hsl, hla, hev, hmem, hpar, hbus, hsw⟩ := requestCommit_accepted hl hs hz
    exact ⟨settle s t, by rw [hx, commit_late hc, he], hst, hacc, hat, hsl, hla, hev, sameMem_of_mem hmem, hpar, hbus, hsw⟩
  · rw [hx, commit_late hc, requestCommit_latched hl hs hz, commitRefused_fw hf hp]
    dsimp only
    by_cases hb : s.nm.latch &&& 0xFF ≠ 0
    · rw [if_pos hb]
      obtain ⟨p, a, n, h, r, c, d, l, he, -, -⟩ :=
        abortEbb_only { s with nm := { s.nm with accepted := false, latch := 0, missed := false } } (s.nm.latch.toNat % 16)
      rw [he]
      refine ⟨_, rfl, rfl, rfl, rfl, fun hk => ?_, fun _ => ⟨rfl, rfl, rfl, rfl⟩⟩
      rw [hk] at hb
      exact absurd rfl hb
    · rw [if_neg hb]
      exact ⟨_, rfl, rfl, rfl, rfl, fun _ => ⟨hs, rfl, rfl⟩, fun h => absurd h hb⟩

theorem abortForSleep_free {s : State} (h : s.pw.token.holder = none) : s.abortForSleep = s := by
  simp [State.abortForSleep, State.holds, h]

/-- The countdown reaches the Ebb timeout with the token free: firmware asks for Commit (R320, R442). -/
theorem ebbTimeout_cases (s : State) (hf : s.fw = true) (hp : s.secondary = false) (ht : s.pw.token.holder = none) :
    (s.nm.state = .ebb → s.nm.countAt + msCycles (s.param 0x0C01) ≤ s.time.cycle → exec .ebbTimeout s = exec .commit s) ∧
    ((s.nm.state ≠ .ebb ∨ s.time.cycle < s.nm.countAt + msCycles (s.param 0x0C01)) → exec .ebbTimeout s = .next (settle s s)) := by
  have hx : exec .ebbTimeout s = .next (settle s (ebbTimeout s)) := rfl
  refine ⟨fun hs hc => ?_, fun h => ?_⟩
  · have he : ebbTimeout s = s.requestCommit := by
      simp [ebbTimeout, hf, hs, hp, State.now, State.ebbCycles, hc, abortForSleep_free ht, ht]
    rw [hx, he, ← commit_late hc]
    rfl
  · have he : ebbTimeout s = s := by
      unfold ebbTimeout
      rw [if_neg]
      simp only [Bool.and_eq_true]
      rintro ⟨⟨⟨-, hs⟩, -⟩, hc⟩
      rcases h with h | h
      · exact h (of_decide_eq_true hs)
      · exact Nat.not_le.mpr h (of_decide_eq_true hc)
    rw [hx, he]

end Sys2Proof.Machine
end

