-- ==== Sys2Proof/Proofs/WakeEvents.lean ====
section
/-! SUPPORT. Wake lines, bus and PHY wakes, AON_SW_WAKE and wake pulses (R319 to R322, R325 to R327, R332). -/

namespace Sys2Proof.Machine

/-! Wake lines (R319 to R322, R325, R327). -/

/-- The levels of the wake lines with `w` high. -/
def State.lineHigh (s : State) (w : Nat) : State := { s with nm.lines := setBit s.nm.lines w true }

/-- An accepted edge of line `w` in the latch. -/
def State.lineLatched (s : State) (w : Nat) : State := (s.lineHigh w).latchWake (BitVec.ofNat 9 (2 ^ w))

@[simp] theorem State.latchWake_nm (s : State) (m : BitVec 9) : (s.latchWake m).nm = { s.nm with latch := s.nm.latch ||| m } := rfl
@[simp] theorem State.lineLatched_nm (s : State) (w : Nat) : (s.lineLatched w).nm =
    { s.nm with lines := setBit s.nm.lines w true, latch := s.nm.latch ||| BitVec.ofNat 9 (2 ^ w) } := rfl
@[simp] theorem State.lineLatched_pw (s : State) (w : Nat) : (s.lineLatched w).pw = s.pw := rfl
@[simp] theorem State.lineLatched_mem (s : State) (w : Nat) : (s.lineLatched w).mem = s.mem := rfl
@[simp] theorem State.lineLatched_ls (s : State) (w : Nat) : (s.lineLatched w).ls = s.ls := rfl
@[simp] theorem State.lineLatched_pair (s : State) (w : Nat) : (s.lineLatched w).pair = s.pair := rfl
@[simp] theorem State.lineLatched_time (s : State) (w : Nat) : (s.lineLatched w).time = s.time := rfl
@[simp] theorem State.lineLatched_params (s : State) (w : Nat) : (s.lineLatched w).params = s.params := rfl

/-- An edge counts as a level in every case; it is accepted where the input bit is set and the device does not drive the line. -/
theorem wakeLineEdge_accepted {s : State} {w : Nat} (hv : s.pw.vaon = true) (hb : s.paramBit (0x0C20 + w) 0 = true)
    (hl : s.nm.lines.getLsbD w = false) (hd : s.lineDeaf w = false) :
    wakeLineEdge w s =
      if s.pw.mode = .slack then s.lineLatched w
      else if s.pw.mode = .failSilent then (s.lineLatched w).irq 13
      else if !s.live then s.lineHigh w
      else match s.nm.state with
        | .commit => s.lineLatched w
        | .awake => ((s.lineLatched w).irq 13).nmFollow s
        | .ebb => (((s.lineLatched w).irq 13).wakeRequest (2 ^ w)).nmFollow (s.lineHigh w) := by
  unfold wakeLineEdge
  dsimp only
  rw [if_neg (by simp [hv, hl]), if_neg (by simp [hb, hd])]
  rfl

theorem live_mode {s : State} (h : s.live = true) : s.pw.mode = .operating := by
  simp only [State.live, Bool.and_eq_true, beq_iff_eq] at h
  exact h.1

/-- While the main side runs, the state of network management decides. -/
theorem wakeLineEdge_live {s : State} {w : Nat} (hv : s.pw.vaon = true) (hb : s.paramBit (0x0C20 + w) 0 = true)
    (hl : s.nm.lines.getLsbD w = false) (hd : s.lineDeaf w = false) (hr : s.live = true) :
    wakeLineEdge w s =
      match s.nm.state with
      | .commit => s.lineLatched w
      | .awake => ((s.lineLatched w).irq 13).nmFollow s
      | .ebb => (((s.lineLatched w).irq 13).wakeRequest (2 ^ w)).nmFollow (s.lineHigh w) := by
  rw [wakeLineEdge_accepted hv hb hl hd]
  simp [live_mode hr, hr]

/-- A level of a wake line is a source of local need (R319). -/
theorem localNeed_of_wakeLevel {s : State} (h : s.wakeLevel = true) : s.localNeed = true := by
  simp only [State.localNeed, State.needMask, h, if_true, bne_iff_ne, ne_eq]
  omega

theorem wakeLevel_of_line {s : State} {w : Nat} (hw : w < 4) (hb : s.paramBit (0x0C20 + w) 0 = true) (hl : s.nm.lines.getLsbD w = true)
    (hd : s.lineDeaf w = false) : s.wakeLevel = true := by
  rw [State.wakeLevel, List.any_eq_true]
  exact ⟨w, List.mem_range.mpr hw, by simp [hb, hl, hd]⟩

theorem localNeed_of_wakeHold {s : State} (h : s.nm.wakeHold = true) : s.localNeed = true := by
  simp only [State.localNeed, State.needMask, h, if_true, bne_iff_ne, ne_eq]
  omega

/-- In Awake an edge is recorded, and the device stays awake. -/
theorem wakeLineEdge_awake {s : State} {w : Nat} (hw : w < 4) (hv : s.pw.vaon = true) (hb : s.paramBit (0x0C20 + w) 0 = true)
    (hl : s.nm.lines.getLsbD w = false) (hd : s.lineDeaf w = false) (hr : s.live = true) (hs : s.nm.state = .awake) :
    ∃ p c d, wakeLineEdge w s =
      { ((s.lineLatched w).irq 13) with pair := p, cnt32 := c, cnt64 := d } := by
  have hb' : ((s.lineLatched w).irq 13).paramBit (0x0C20 + w) 0 = true := by
    simp only [State.paramBit, State.param, State.irq_params, State.lineLatched_params] at hb ⊢
    exact hb
  have hl' : ((s.lineLatched w).irq 13).nm.lines.getLsbD w = true := by
    simp only [State.irq_nm, State.lineLatched_nm]
    exact (getLsbD_setBit _ _ _ _ hw).trans (if_pos rfl)
  have hd' : ((s.lineLatched w).irq 13).lineDeaf w = false := by
    simp only [State.lineDeaf, State.live, State.now, State.param, State.irq_nm, State.irq_pw, State.irq_time, State.irq_params,
      State.lineLatched_nm, State.lineLatched_pw, State.lineLatched_time, State.lineLatched_params] at hd ⊢
    exact hd
  have hs' : ((s.lineLatched w).irq 13).nm.state = .awake := by simpa using hs
  rw [wakeLineEdge_live hv hb hl hd hr, hs]
  exact nmFollow_awake s hs' (localNeed_of_wakeLevel (wakeLevel_of_line hw hb' hl' hd'))

theorem fwEvent_irqW1c (s : State) (i : Nat) : (s.fwEvent i).dw.irqW1c = s.dw.irqW1c := by
  unfold State.fwEvent
  split
  · rfl
  · rfl

theorem wakeRequest_ebb {s : State} (e : Nat) (hf : s.fw = true) (hp : s.secondary = false) (hs : s.nm.state = .ebb) :
    s.wakeRequest e = (s.latchWake 0x80).abortEbb e := by
  simp [State.wakeRequest, hs, hf, hp]

/-- A wake request out of Ebb, and what follows it. -/
theorem abortEbb_follow (s t : State) (e : Nat) : ∃ p a n h r c d l,
    (s.abortEbb e).nmFollow t =
      { (s.fwEvent 0) with nm := { s.nm with aborts := satInc s.nm.aborts, state := .awake, wakeHold := true, awakeAt := s.now,
                                             firstKa := true, lastKaTx := none, pulses := p, pulseAt := a, nodes := n, hostAwake := h },
                           pair := r, cnt32 := c, cnt64 := d, bus.lin := l } ∧
      (∀ v < 4, s.paramBit (0x0C20 + v) 1 = true → bit e v = false → p.getLsbD v = true) ∧
      (∀ v, bit e v = true → p.getLsbD v = s.nm.pulses.getLsbD v) := by
  obtain ⟨p, a, n, h, r, c, d, l, he, hon, hkeep⟩ := abortEbb_only s e
  have hs : (s.abortEbb e).nm.state = .awake := by rw [he]
  have hh : (s.abortEbb e).nm.wakeHold = true := by rw [he]
  obtain ⟨r, c, d, hn⟩ := nmFollow_awake t hs (localNeed_of_wakeHold hh)
  refine ⟨p, a, n, h, r, c, d, l, ?_, hon, hkeep⟩
  rw [hn, he]

/-- In Ebb an edge is a wake request: the device enters Awake and drives the other output lines. -/
theorem wakeLineEdge_ebb {s : State} {w : Nat} (hw : w < 4) (hv : s.pw.vaon = true) (hb : s.paramBit (0x0C20 + w) 0 = true)
    (hl : s.nm.lines.getLsbD w = false) (hd : s.lineDeaf w = false) (hf : s.fw = true) (hp : s.secondary = false) (hs : s.nm.state = .ebb) :
    ∃ t, wakeLineEdge w s = t ∧ t.nm.state = .awake ∧ t.nm.aborts = satInc s.nm.aborts ∧ t.dw.irqW1c.getLsbD 13 = true ∧
      t.nm.latch = s.nm.latch ||| BitVec.ofNat 9 (2 ^ w) ||| 0x80 ∧ t.nm.lines.getLsbD w = true ∧ t.nm.lastKaTx = none ∧
      (∀ v : Fin 4, v.val ≠ w → s.paramBit (0x0C20 + v.val) 1 = true → t.nm.pulses.getLsbD v.val = true) ∧
      t.nm.pulses.getLsbD w = s.nm.pulses.getLsbD w := by
  rw [wakeLineEdge_live hv hb hl hd (live_of_fw hf), hs]
  dsimp only
  have hf' : ((s.lineLatched w).irq 13).fw = true := by
    simp only [State.fw, State.live, State.irq_pw, State.irq_ls, State.lineLatched_pw, State.lineLatched_ls] at hf ⊢
    exact hf
  rw [wakeRequest_ebb (2 ^ w) hf' (by simpa [State.secondary] using hp) (by simpa using hs)]
  obtain ⟨p, a, n, h, r, c, d, l, he, hon, hkeep⟩ := abortEbb_follow (((s.lineLatched w).irq 13).latchWake 0x80) (s.lineHigh w) (2 ^ w)
  rw [he]
  have hpar : ∀ v, (((s.lineLatched w).irq 13).latchWake 0x80).paramBit (0x0C20 + v) 1 = s.paramBit (0x0C20 + v) 1 := fun v => by
    simp [State.paramBit, State.param]
  simp only [State.latchWake_nm, State.irq_nm, State.lineLatched_nm] at hkeep ⊢
  refine ⟨_, rfl, rfl, rfl, ?_, rfl, (getLsbD_setBit _ _ _ _ hw).trans (if_pos rfl), rfl, fun v hvw hp => ?_, ?_⟩
  · exact (congrArg (fun x : BitVec 16 => x.getLsbD 13) (fwEvent_irqW1c _ 0)).trans
      (irq_latched (s.lineLatched w) (by omega))
  · refine hon v.val v.isLt ((hpar v.val).trans hp) ?_
    rw [bit, Nat.testBit_two_pow]
    simpa using fun h => hvw h.symm
  · refine hkeep w ?_
    rw [bit, Nat.testBit_two_pow]
    simp
/-- An accepted edge of a wake line, by the state of the device. -/
theorem wakeLineEdge_cases (s : State) (w : Fin 4) (hv : s.pw.vaon = true) (hb : s.paramBit (0x0C20 + w.val) 0 = true)
    (hl : s.nm.lines.getLsbD w.val = false) (hd : s.lineDeaf w.val = false) :
    (s.pw.mode = .slack → ∃ t, exec (.wakeLineEdge w) s = .next t ∧ t.nm.latch = s.nm.latch ||| BitVec.ofNat 9 (2 ^ w.val) ∧
      t.pw = s.pw ∧ t.mem = s.mem) ∧
    (s.pw.mode = .failSilent → ∃ t, exec (.wakeLineEdge w) s = .next t ∧ t.nm.latch = s.nm.latch ||| BitVec.ofNat 9 (2 ^ w.val) ∧
      t.dw.irqW1c.getLsbD 13 = true ∧ t.pw = s.pw ∧ t.mem = s.mem) ∧
    (s.live = true → s.nm.state = .commit → ∃ t, exec (.wakeLineEdge w) s = .next t ∧
      t.nm.latch = s.nm.latch ||| BitVec.ofNat 9 (2 ^ w.val) ∧ t.nm.state = .commit ∧ t.mem = s.mem) ∧
    (s.fw = true → s.secondary = false → s.nm.state = .ebb →
      ∃ t, exec (.wakeLineEdge w) s = .next t ∧ t.nm.state = .awake ∧ t.nm.aborts = satInc s.nm.aborts ∧ t.dw.irqW1c.getLsbD 13 = true ∧
        t.nm.latch = s.nm.latch ||| BitVec.ofNat 9 (2 ^ w.val) ||| 0x80 ∧ t.nm.lines.getLsbD w.val = true ∧ t.nm.lastKaTx = none ∧
        (∀ v : Fin 4, v ≠ w → s.paramBit (0x0C20 + v.val) 1 = true → t.nm.pulses.getLsbD v.val = true) ∧
        t.nm.pulses.getLsbD w.val = s.nm.pulses.getLsbD w.val) ∧
    (s.fw = true → s.nm.state = .awake → ∃ t, exec (.wakeLineEdge w) s = .next t ∧ t.nm.state = .awake ∧
      t.dw.irqW1c.getLsbD 13 = true ∧ t.nm.lines.getLsbD w.val = true ∧ t.nm.latch = s.nm.latch ||| BitVec.ofNat 9 (2 ^ w.val) ∧
      t.nm.aborts = s.nm.aborts) := by
  have hx : exec (.wakeLineEdge w) s = .next (settle s (wakeLineEdge w.val s)) := rfl
  refine ⟨fun hm => ?_, fun hm => ?_, fun hr hs => ?_, fun hf hp hs => ?_, fun hf hs => ?_⟩
  · rw [hx, wakeLineEdge_accepted hv hb hl hd, if_pos hm]
    exact ⟨_, rfl, rfl, rfl, rfl⟩
  · rw [hx, wakeLineEdge_accepted hv hb hl hd, if_neg (by simp [hm]), if_pos hm]
    exact ⟨_, rfl, rfl, by rw [settle_dw]; exact irq_latched (s.lineLatched w.val) (by omega), by simp, by simp⟩
  · rw [hx, wakeLineEdge_live hv hb hl hd hr, hs]
    exact ⟨_, rfl, rfl, hs, rfl⟩
  · obtain ⟨t, he, hst, hab, hirq, hla, hli, hka, hon, hkeep⟩ := wakeLineEdge_ebb w.isLt hv hb hl hd hf hp hs
    exact ⟨settle s t, by rw [hx, he], hst, hab, hirq, hla, hli, hka, fun v hvw => hon v (fun h => hvw (Fin.ext h)), hkeep⟩
  · obtain ⟨p, c, d, he⟩ := wakeLineEdge_awake w.isLt hv hb hl hd (live_of_fw hf) hs
    rw [hx, he]
    refine ⟨_, rfl, by simpa using hs, ?_, ?_, by simp, by simp⟩
    · rw [settle_dw]
      exact irq_latched (s.lineLatched w.val) (by omega)
    · simp only [settle_nm, State.irq_nm, State.lineLatched_nm]
      exact (getLsbD_setBit _ _ _ _ w.isLt).trans (if_pos rfl)

/-- An edge that is not accepted: the line counts as high from then on. -/
theorem wakeLineEdge_ignored (s : State) (w : Fin 4) :
    (s.pw.vaon = true → s.nm.lines.getLsbD w.val = false → (s.paramBit (0x0C20 + w.val) 0 = false ∨ s.lineDeaf w.val = true) →
      exec (.wakeLineEdge w) s = .next (settle s { s with nm := { s.nm with lines := setBit s.nm.lines w.val true } })) ∧
    (s.pw.vaon = false ∨ s.nm.lines.getLsbD w.val = true → exec (.wakeLineEdge w) s = .next (settle s s)) := by
  have hx : exec (.wakeLineEdge w) s = .next (settle s (wakeLineEdge w.val s)) := rfl
  refine ⟨fun hv hl hn => ?_, fun h => ?_⟩
  · have he : wakeLineEdge w.val s = { s with nm.lines := setBit s.nm.lines w.val true } := by
      unfold wakeLineEdge
      dsimp only
      rw [if_neg (by rw [hv, hl]; decide), if_pos (by simpa using hn)]
    rw [hx, he]
  · have he : wakeLineEdge w.val s = s := if_pos (by simpa using h)
    rw [hx, he]

/-! A falling line (R319, R328). -/

/-- The state with line `w` low. -/
def State.lineLow (s : State) (w : Nat) : State := { s with nm.lines := setBit s.nm.lines w false }

/-- A line that falls gives no level that did not stand before. -/
theorem wakeLevel_of_lineLow {s : State} {w : Nat} (hw : w < 4) (h : (s.lineLow w).wakeLevel = true) : s.wakeLevel = true := by
  rw [State.wakeLevel, List.any_eq_true] at h ⊢
  obtain ⟨v, hv, hx⟩ := h
  refine ⟨v, hv, ?_⟩
  have hl : (s.lineLow w).nm.lines.getLsbD v = if w = v then false else s.nm.lines.getLsbD v := getLsbD_setBit _ _ _ _ hw
  have hd : (s.lineLow w).lineDeaf v = s.lineDeaf v := rfl
  have hp : (s.lineLow w).paramBit (0x0C20 + v) 0 = s.paramBit (0x0C20 + v) 0 := rfl
  simp only [hl, hd, hp, Bool.and_eq_true] at hx ⊢
  obtain ⟨⟨hb, hlv⟩, hnd⟩ := hx
  split at hlv
  · exact absurd hlv (by simp)
  · exact ⟨⟨hb, hlv⟩, hnd⟩

theorem localNeed_of_lineLow {s : State} {w : Nat} (hw : w < 4) (h : (s.lineLow w).localNeed = true) : s.localNeed = true := by
  by_cases hs : s.wakeLevel = true
  · exact localNeed_of_wakeLevel hs
  · have hl : (s.lineLow w).wakeLevel = s.wakeLevel := by
      rw [Bool.eq_false_iff.mpr hs, Bool.eq_false_iff]
      exact fun hx => hs (wakeLevel_of_lineLow hw hx)
    simp only [State.localNeed, State.needMask, hl] at h ⊢
    exact h

/-- WAKE_LINE_LOW: the level of one line, the awake clocks, and what follows a need that has gone. -/
theorem wakeLineLow_only {s : State} {w : Nat} (hw : w < 4) (hv : s.pw.vaon = true) (hl : s.nm.lines.getLsbD w = true) :
    ∃ x n a d p c e, wakeLineLow w s =
      { s with nm := { s.nm with lines := setBit s.nm.lines w false, state := x, nodes := n, hostAwake := a }, dw := d, pair := p, cnt32 := c,
               cnt64 := e } := by
  obtain ⟨n, a, hg⟩ := levelGone_only (s.lineLow w) s
  have he : wakeLineLow w s = if s.live then ((s.lineLow w).levelGone s).nmFollow s else (s.lineLow w).levelGone s :=
    if_neg (by rw [hv, hl]; decide)
  rw [he]
  split
  · have hn : ((s.lineLow w).levelGone s).localNeed = true → s.localNeed = true := by
      rw [hg]
      exact fun h => localNeed_of_lineLow hw h
    obtain ⟨x, d, p, c, e, hf⟩ := nmFollow_only (s := (s.lineLow w).levelGone s) (t := s) (fun _ => hn)
    rw [hf, hg]
    exact ⟨_, _, _, _, _, _, _, rfl⟩
  · rw [hg]
    exact ⟨_, _, _, _, _, _, _, rfl⟩

theorem wakeLineLow_cases (s : State) (w : Fin 4) (hv : s.pw.vaon = true) (hl : s.nm.lines.getLsbD w.val = true) :
    ∃ t, exec (.wakeLineLow w) s = .next t ∧ t.nm.lines.getLsbD w.val = false ∧
      (∀ v : Fin 4, v ≠ w → t.nm.lines.getLsbD v.val = s.nm.lines.getLsbD v.val) ∧ t.nm.latch = s.nm.latch ∧ SameMem s t := by
  have hx : exec (.wakeLineLow w) s = .next (settle s (wakeLineLow w.val s)) := rfl
  obtain ⟨x, n, a, d, p, c, e, he⟩ := wakeLineLow_only w.isLt hv hl
  rw [hx, he]
  refine ⟨_, rfl, (getLsbD_setBit _ _ _ _ w.isLt).trans (if_pos rfl), fun v hvw => ?_, rfl, sameMem_of_mem rfl⟩
  exact (getLsbD_setBit _ _ _ _ w.isLt).trans (if_neg fun h => hvw (Fin.ext h.symm))

/-! Bus and PHY wakes, AON_SW_WAKE, and the end of a pulse (R321, R326, R327). -/

/-- A state after a bus source: it is latched, and the first one is recorded. -/
theorem busWake_fields (s : State) (m : BitVec 9) (c : Nat) :
    (s.busWake m c).nm.latch = s.nm.latch ||| m ∧
      (s.busWake m c).nm.chan = (if s.nm.chanSet then s.nm.chan else BitVec.ofNat 5 c) ∧ (s.busWake m c).nm.chanSet = true ∧
      (s.busWake m c).mem = s.mem ∧ (s.busWake m c).pw = s.pw := by
  have he : s.busWake m c = if s.nm.chanSet then s.latchWake m else
      { s.latchWake m with nm := { (s.latchWake m).nm with chan := BitVec.ofNat 5 c, chanSet := true } } := rfl
  rw [he]
  by_cases h : s.nm.chanSet = true
  · rw [if_pos h, if_pos h]
    exact ⟨rfl, rfl, h, rfl, rfl⟩
  · rw [if_neg h, if_neg h]
    exact ⟨rfl, rfl, rfl, rfl, rfl⟩

/-- A responder that sleeps answers again; the pulse is a wake event where the always-on domain listens (R323, R326). -/
theorem linWakePulse_listening {s : State} (m : Nat) (hs : s.listens = true) (hp : s.paramBit 0x0C29 m = true) :
    ∃ l, linWakePulse m s = ({ s with bus.lin := l } : State).busWake 0x20 m := by
  have hu : ∀ u : State, (∃ l, u = { s with bus.lin := l }) →
      ∃ l, (if u.listens && u.paramBit 0x0C29 m then u.busWake 0x20 m else u) = ({ s with bus.lin := l } : State).busWake 0x20 m := by
    rintro _ ⟨l, rfl⟩
    have hs' : ({ s with bus.lin := l } : State).listens = true := hs
    have hp' : ({ s with bus.lin := l } : State).paramBit 0x0C29 m = true := hp
    exact ⟨l, if_pos (by rw [hs', hp']; rfl)⟩
  refine hu _ ?_
  split
  · exact ⟨_, rfl⟩
  · exact ⟨_, rfl⟩

theorem linWakePulse_deaf {s : State} (m : Nat) (hs : s.listens = false) (ha : (s.lin m).asleep = false) : linWakePulse m s = s := by
  simp [linWakePulse, ha, hs]

/-- The bus and PHY wakes where the always-on domain listens. -/
theorem busWakes_listening (s : State) (ch : CanCh) (m : LinCh) (k : Fin 8) (hs : s.listens = true) :
    let rec_ (l : BitVec 9) (c : Nat) (t : State) : Prop := t.nm.latch = s.nm.latch ||| l ∧
      t.nm.chan = (if s.nm.chanSet then s.nm.chan else BitVec.ofNat 5 c) ∧ t.nm.chanSet = true ∧ t.mem = s.mem ∧ t.pw = s.pw
    (s.paramBit 0x0C28 ch.val = true →
      (s.live = true → (s.can ch.val).attempt = none ∧ ((s.can ch.val).ours = false ∨ (s.can ch.val).busyTo ≤ s.time.cycle)) →
      ∃ t, exec (.canWakePattern ch) s = .next t ∧ rec_ 0x10 ch.val t) ∧
    (s.paramBit 0x0C29 m.val = true → ∃ t, exec (.linWakePulse m) s = .next t ∧ rec_ 0x20 m.val t) ∧
    (s.paramBit 0x0C2A k.val = true → ∃ t, exec (.phyWake k) s = .next t ∧ rec_ 0x40 k.val t) := by
  refine ⟨fun hp hc => ?_, fun hp => ?_, fun hp => ?_⟩
  · have he : canWakePattern ch.val s = s.busWake 0x10 ch.val := by
      refine if_pos ?_
      rw [hs, hp]
      cases hl : s.live with
      | false => rfl
      | true =>
        obtain ⟨ha, hb⟩ := hc hl
        have hq : ((s.can ch.val).ours && decide (s.now < (s.can ch.val).busyTo)) = false := by
          rcases hb with hb | hb
          · rw [hb]
            rfl
          · rw [decide_eq_false (Nat.not_lt.mpr hb : ¬ s.now < (s.can ch.val).busyTo), Bool.and_false]
        rw [ha, hq]
        rfl
    exact ⟨settle s (s.busWake 0x10 ch.val), congrArg (fun u => Host.Outcome.next (settle s u)) he, busWake_fields ..⟩
  · obtain ⟨l, he⟩ := linWakePulse_listening m.val hs hp
    exact ⟨settle s _, congrArg (fun u => Host.Outcome.next (settle s u)) he, busWake_fields ..⟩
  · have he : phyWake k.val s = s.busWake 0x40 k.val := if_pos (by rw [hs, hp]; rfl)
    exact ⟨settle s (s.busWake 0x40 k.val), congrArg (fun u => Host.Outcome.next (settle s u)) he, busWake_fields ..⟩

/-- Elsewhere they have no effect. -/
theorem busWakes_deaf (s : State) (ch : CanCh) (m : LinCh) (k : Fin 8) (hs : s.listens = false) :
    exec (.canWakePattern ch) s = .next (settle s s) ∧ exec (.phyWake k) s = .next (settle s s) ∧
      ((s.lin m.val).asleep = false → exec (.linWakePulse m) s = .next (settle s s)) := by
  have hc : canWakePattern ch.val s = s := by simp [canWakePattern, hs]
  have hk : phyWake k.val s = s := by simp [phyWake, hs]
  exact ⟨congrArg (fun u => Host.Outcome.next (settle s u)) hc, congrArg (fun u => Host.Outcome.next (settle s u)) hk,
    fun ha => congrArg (fun u => Host.Outcome.next (settle s u)) (linWakePulse_deaf m.val hs ha)⟩

theorem aonSwWake_cases (s : State) (hl : s.live = true) :
    (s.nm.state = .commit → exec .aonSwWake s = .next (settle s { s with nm := { s.nm with latch := s.nm.latch ||| 0x80 } })) ∧
    (s.nm.state ≠ .commit →
      exec .aonSwWake s = .next (settle s { s with nm := { s.nm with latch := s.nm.latch ||| 0x80, missed := true } })) := by
  have he : aonSwWake s = if s.nm.state = .commit then s.latchWake 0x80 else s.latchMissed 0x80 := if_neg (by rw [hl]; decide)
  refine ⟨fun hs => ?_, fun hs => ?_⟩
  · exact congrArg (fun u => Host.Outcome.next (settle s u)) (he.trans (if_pos hs))
  · exact congrArg (fun u => Host.Outcome.next (settle s u)) (he.trans (if_neg hs))

theorem wakePulseEnd_cases (s : State) (w : Fin 4) (hl : s.live = true) (hp : s.nm.pulses.getLsbD w.val = true) :
    let due := SMap.get 0 s.nm.pulseAt w.val + usCycles (s.param (0x0C24 + w.val))
    (due ≤ s.time.cycle → ∃ t, exec (.wakePulseEnd w) s = .next t ∧ t.nm.pulses.getLsbD w.val = false ∧
      (∀ v : Fin 4, v ≠ w → t.nm.pulses.getLsbD v.val = s.nm.pulses.getLsbD v.val) ∧ t.nm.state = s.nm.state ∧ t.mem = s.mem) ∧
    (s.time.cycle < due → exec (.wakePulseEnd w) s = .next (settle s s)) := by
  intro due
  have hc : (s.live && s.nm.pulses.getLsbD w.val && decide (s.now ≥ due)) = decide (due ≤ s.time.cycle) := by
    rw [hl, hp]
    rfl
  refine ⟨fun h => ?_, fun h => ?_⟩
  · have he : wakePulseEnd w.val s =
        { s with nm := { s.nm with pulses := setBit s.nm.pulses w.val false, pulseEnd := SMap.put s.nm.pulseEnd w.val s.now } } :=
      if_pos (hc.trans (decide_eq_true h))
    refine ⟨_, congrArg (fun u => Host.Outcome.next (settle s u)) he, ?_, fun v hvw => ?_, rfl, rfl⟩
    · exact (getLsbD_setBit _ _ _ _ w.isLt).trans (if_pos rfl)
    · exact (getLsbD_setBit _ _ _ _ w.isLt).trans (if_neg fun h => hvw (Fin.ext h.symm))
  · have he : wakePulseEnd w.val s = s := if_neg (by rw [hc, decide_eq_false (Nat.not_le.mpr h)]; decide)
    exact congrArg (fun u => Host.Outcome.next (settle s u)) he

end Sys2Proof.Machine
end

