-- ==== Sys2Proof/Proofs/CommitCycle.lean ====
section
/-! SUPPORT. A cycle of a device in Commit with nothing under way. -/

namespace Sys2Proof.Machine

/-- What holds of every entry of a map and of its default holds of every read. -/
theorem SMap.get_of_all {β : Type} {P : β → Prop} {d : β} (hd : P d) {m : SMap β} (hm : ∀ e ∈ m, P e.2) (k : Nat) : P (SMap.get d m k) := by
  induction m with
  | nil => exact hd
  | cons e m ih =>
    obtain ⟨j, v⟩ := e
    unfold SMap.get
    split
    · exact hm (j, v) (List.mem_cons_self ..)
    · exact ih (fun e he => hm e (List.mem_cons_of_mem _ he))

/-- A cycle of a device in Commit: `s` is in cycle `n`, with power, network management and snapshot as `u` has them and nothing under way. -/
structure CommitCalm (u : State) (n : Nat) (s : State) : Prop where
  pw : s.pw = u.pw
  nm : s.nm = u.nm
  snapshot : s.snapshot = u.snapshot
  cycle : s.time.cycle = n
  arriving : s.sw.arriving = []
  scrubHold : s.sw.scrubHold = []
  egress : ∀ o, (s.egr o).tx = none ∧ (s.egr o).next = []
  pulls : s.fab.pulls = []
  waiting : s.fab.waiting = []
  out : s.fab.out = []
  load : s.scr.load = none
  hand : s.scr.gw.hand = []
  first : s.scr.gw.first = []
  second : s.scr.gw.second = []
  third : s.scr.gw.third = []
  rest : s.scr.gw.rest = none
  svcIn : s.scr.svcIn = []
  lin : ∀ m, (s.lin m).header = none ∧ (s.lin m).sleepDue = false ∧ (s.lin m).old = none ∧ (s.lin m).initDue = false
  table : s.host.table = none
  rings : s.host.rings = []
  svc : s.upd.svc = none
  svcMsg : s.upd.svcMsg = none

namespace CommitCalm
variable {u s t : State} {n : Nat}

/-- A change elsewhere keeps the calm. -/
theorem of_eq (h : CommitCalm u n s) (hpw : t.pw = s.pw := by simp) (hnm : t.nm = s.nm := by simp) (hsnap : t.snapshot = s.snapshot := by simp)
    (hcyc : t.time.cycle = s.time.cycle := by simp) (harr : t.sw.arriving = s.sw.arriving := by simp)
    (hscrub : t.sw.scrubHold = s.sw.scrubHold := by simp) (hegr : ∀ o, (t.egr o).tx = none ∧ (t.egr o).next = [] := by assumption)
    (hfab : t.fab = s.fab := by simp) (hload : t.scr.load = s.scr.load := by simp) (hgw : t.scr.gw = s.scr.gw := by simp)
    (hsvcIn : t.scr.svcIn = s.scr.svcIn := by simp) (hlin : t.bus.lin = s.bus.lin := by simp) (hhost : t.host = s.host := by simp)
    (hupd : t.upd = s.upd := by simp) : CommitCalm u n t where
  pw := hpw.trans h.pw
  nm := hnm.trans h.nm
  snapshot := hsnap.trans h.snapshot
  cycle := hcyc.trans h.cycle
  arriving := harr.trans h.arriving
  scrubHold := hscrub.trans h.scrubHold
  egress := hegr
  pulls := by rw [hfab, h.pulls]
  waiting := by rw [hfab, h.waiting]
  out := by rw [hfab, h.out]
  load := hload.trans h.load
  hand := by rw [hgw, h.hand]
  first := by rw [hgw, h.first]
  second := by rw [hgw, h.second]
  third := by rw [hgw, h.third]
  rest := by rw [hgw, h.rest]
  svcIn := hsvcIn.trans h.svcIn
  lin := by
    have hl := h.lin
    simp only [State.lin, hlin] at hl ⊢
    exact hl
  table := by rw [hhost, h.table]
  rings := by rw [hhost, h.rings]
  svc := by rw [hupd, h.svc]
  svcMsg := by rw [hupd, h.svcMsg]

theorem slewTick (h : CommitCalm u n s) : CommitCalm u n s.slewTick := by
  have he := h.egress
  unfold State.slewTick
  split
  · exact h
  dsimp only
  split
  · exact h.of_eq
  · exact h.of_eq

theorem setCls (h : CommitCalm u n s) (o c : Nat) (q : ClassQ) : CommitCalm u n (s.setCls o c q) :=
  h.of_eq (harr := rfl) (hscrub := rfl) (hegr := h.egress)

theorem creditCycle (h : CommitCalm u n s) (o c : Nat) : CommitCalm u n (s.creditCycle o c) := by
  unfold State.creditCycle
  dsimp only
  split
  · split
    · exact h.setCls ..
    · exact h
  split
  · exact h.setCls ..
  split
  · exact h.setCls ..
  split
  · split
    · exact h.setCls ..
    · exact h.setCls ..
  · exact h

theorem creditTick (h : CommitCalm u n s) : CommitCalm u n s.creditTick := by
  unfold State.creditTick
  refine foldl_keeps h (fun v k hv => ?_) _
  split
  · exact hv.creditCycle ..
  · exact hv

theorem readPorts (h : CommitCalm u n s) : s.readPorts = s := by simp [State.readPorts, h.pulls]

theorem readDone (h : CommitCalm u n s) : s.readDone = s := by simp [State.readDone, h.waiting]

theorem tableTick (h : CommitCalm u n s) : s.tableTick = s := by simp [State.tableTick, h.table]

theorem ingressTick (h : CommitCalm u n s) : CommitCalm u n s.ingressTick := by
  have hids : (List.range 24).flatMap (fun p => (s.sw.arriving.filter (fun a => a.port.val = p)).map (fun a => a.fid)) = [] := by
    rw [List.flatMap_eq_nil_iff]
    simp [h.arriving]
  have he : s.ingressTick = s.parForget := by
    unfold State.ingressTick
    rw [hids]
    simp [h.arriving]
  rw [he]
  unfold State.parForget
  split
  · exact h
  · exact h.of_eq (hegr := h.egress)

theorem gwTick (h : CommitCalm u n s) : s.gwTick = s := by
  have hr : s.acfRefill = s := by simp [State.acfRefill, h.rest, State.acfWalk]
  have ha : s.gwAccept = s := by simp [State.gwAccept, GwPort.next, h.first, h.second, h.third]
  simp [State.gwTick, hr, ha, h.hand]

theorem svcTick (h : CommitCalm u n s) : CommitCalm u n s.svcTick := by
  unfold State.svcTick
  rw [h.svcIn]
  exact h.of_eq (hegr := h.egress) (hsvcIn := h.svcIn.symm)

theorem deliverDue (h : CommitCalm u n s) : CommitCalm u n s.deliverDue := by
  unfold State.deliverDue
  rw [h.out]
  have hf : ({ s.fab with out := [] } : Fabric) = s.fab := by rw [← h.out]
  exact h.of_eq (hegr := h.egress) (hfab := hf)

theorem setEgr (h : CommitCalm u n s) (o : Nat) (e : Egress) (ht : e.tx = none) (hn : e.next = []) : CommitCalm u n (s.setEgr o e) := by
  refine h.of_eq (harr := rfl) (hscrub := rfl) (hegr := fun p => ?_)
  by_cases hp : p = o
  · subst hp
    rw [show (s.setEgr p e).egr p = e from SMap.get_set_same ..]
    exact ⟨ht, hn⟩
  · rw [show (s.setEgr o e).egr p = s.egr p from SMap.get_set_other _ _ _ _ hp]
    exact h.egress p

theorem setLeaf (h : CommitCalm u n s) (o c d : Nat) (l : Leaf) : CommitCalm u n (s.setLeaf o c d l) :=
  h.of_eq (harr := rfl) (hscrub := rfl) (hegr := h.egress)

theorem correctTx (h : CommitCalm u n s) (o : Nat) (x : TxFrame) (l : Nat) : CommitCalm u n (s.correctTx o x l) := by
  unfold State.correctTx
  split
  · exact h
  · exact h.setLeaf ..

theorem settleCosts (h : CommitCalm u n s) (o : Nat) : CommitCalm u n (s.settleCosts o) := by
  unfold State.settleCosts
  dsimp only
  split
  · exact h
  · refine foldl_keeps (h.setEgr o _ ?_ ?_) (fun v x hv => hv.correctTx ..) _
    · rw [(h.egress o).1]
      rfl
    · rw [(h.egress o).2]
      rfl

/-- With no frame selected a MAC settles the costs of the frame that it holds, and begins none. -/
theorem macPort (h : CommitCalm u n s) (o : Nat) : CommitCalm u n (s.macPort o) := by
  have hc := h.settleCosts o
  have hp : (s.settleCosts o).promote o = s.settleCosts o := by simp [State.promote, hc.egress o]
  unfold State.macPort
  dsimp only
  rw [hp, (hc.egress o).1]
  exact hc

theorem macTick (h : CommitCalm u n s) : CommitCalm u n s.macTick := foldl_keeps h (fun _ o hv => hv.macPort o) _

theorem planeSlot (h : CommitCalm u n s) : s.planeSlot = s := by simp [State.planeSlot, h.waiting]

theorem ruleTick (h : CommitCalm u n s) : s.ruleTick = s := by simp [State.ruleTick, h.load]

theorem scrubBack (h : CommitCalm u n s) : CommitCalm u n s.scrubBack := by
  unfold State.scrubBack
  rw [h.scrubHold]
  exact h.of_eq (hegr := h.egress) (hscrub := h.scrubHold.symm)

theorem setCan (h : CommitCalm u n s) (c : Nat) (x : Can) : CommitCalm u n (s.setCan c x) := h.of_eq (hegr := h.egress) (hlin := rfl)

theorem canTick (h : CommitCalm u n s) : CommitCalm u n s.canTick := by
  unfold State.canTick
  refine foldl_keeps h (fun v e hv => ?_) _
  split
  · exact (hv.setCan ..).setCan ..
  · exact hv

theorem linCycle (h : CommitCalm u n s) (m : Nat) : s.linCycle m = s := by
  obtain ⟨hh, hs, ho, hi⟩ := h.lin m
  have hf : s.linFollow m = s := by simp [State.linFollow, ho]
  simp [State.linCycle, hh, hs, hf, hi]

theorem linTick (h : CommitCalm u n s) : CommitCalm u n s.linTick :=
  foldl_keeps h (fun v e hv => by rw [hv.linCycle]; exact hv) _

theorem setPtp (h : CommitCalm u n s) (p : Nat) (g : GptpPort) : CommitCalm u n (s.setPtp p g) :=
  h.of_eq rfl rfl rfl rfl rfl rfl h.egress rfl rfl rfl rfl rfl rfl rfl

theorem sendAnnounces (h : CommitCalm u n s) : CommitCalm u n s.sendAnnounces := by
  unfold State.sendAnnounces
  split
  · split
    · exact h
    · refine foldN_keeps h (fun v p hv => ?_)
      split
      · exact hv.setPtp ..
      · exact hv
  · exact h

theorem takeTick (h : CommitCalm u n s) : s.takeTick = s := by
  unfold State.takeTick
  rw [h.rings]
  cases s.host.busy with
  | none => rfl
  | some b => rfl

/-- Firmware in Commit leaves network management as it is (R322). -/
theorem firmwareTick (h : CommitCalm u n s) (hc : u.nm.state = .commit) : CommitCalm u n s.firmwareTick := by
  unfold State.firmwareTick
  split
  · extract_lets _ v1 v2 v3 v4 _ v5 v6
    have h1 : CommitCalm u n v1 := by
      unfold v1
      split
      · exact h
      · exact h.of_eq (hegr := h.egress) (hload := rfl) (hgw := rfl) (hsvcIn := rfl)
    have h2 : CommitCalm u n v2 := by
      have he : v2 = v1 := by simp [v2, State.nmTick, h1.nm, hc]
      rw [he]
      exact h1
    have h3 : CommitCalm u n v3 := by
      have he : v3 = v2 := by simp [v3, h2.svc]
      rw [he]
      exact h2
    have h4 : CommitCalm u n v4 := by
      have he : v4 = v3 := by simp [v4, h3.svcMsg]
      rw [he]
      exact h3
    have h5 : CommitCalm u n v5 := by
      unfold v5
      split
      · exact h4.of_eq (hegr := h4.egress)
      · exact h4
    have h6 : CommitCalm u n v6 := by
      unfold v6
      split
      · exact h5.sendAnnounces
      · exact h5
    rw [h6.takeTick]
    exact h6
  · exact h

end CommitCalm

end Sys2Proof.Machine
end

