-- ==== Sys2Proof/Proofs/CommitAndWake.lean ====
section
/-! SUPPORT. Commit, wake events and Slack (O41). -/

namespace Sys2Proof.Machine

/-! Commit ends in Slack (R324). -/

theorem enterSlack_fields (s : State) :
    s.enterSlack.pw.mode = .slack ∧ s.enterSlack.pw.inh0 = false ∧ s.enterSlack.pw.inh1 = false ∧ s.enterSlack.pw.fwReady = false ∧
      s.enterSlack.sec.wks = [] ∧ s.enterSlack.sw.frames = [] ∧ s.enterSlack.nm = s.nm ∧ s.enterSlack.snapshot = s.snapshot := by
  have hf : s.discardTraffic.silenceBuses.dropWork.sw.frames = [] := by
    change s.discardTraffic.silenceBuses.cutOtp.cutStore.tornRecords.sw.frames = []
    rw [State.tornRecords_sw, State.cutStore_sw, State.cutOtp_sw, State.silenceBuses_sw]
    rfl
  have hn : s.discardTraffic.silenceBuses.dropWork.nm = s.nm := by simp
  have hs : s.discardTraffic.silenceBuses.dropWork.snapshot = s.snapshot := by simp
  exact ⟨rfl, rfl, rfl, rfl, rfl, hf, hn, hs⟩

/-- 2 ms after the acceptance of Commit the main rails go off. -/
theorem commitStep_last {s : State} (hl : s.live = true) (hc : s.nm.state = .commit) (hd : s.time.cycle = s.nm.commitAt + 1600000) :
    s.commitStep = s.enterSlack := by
  have hn : s.now - s.nm.commitAt = 1600000 := by
    change s.time.cycle - s.nm.commitAt = 1600000
    omega
  unfold State.commitStep
  rw [if_neg (by simp [hl, hc])]
  dsimp only
  rw [hn]
  rfl

/-- The last cycle of Commit with nothing under way. -/
theorem oneCycle_commit {s : State} (hl : s.live = true) (hv : s.pw.vaon = true) (hc : s.nm.state = .commit)
    (hi : Idle { s with nm := { s.nm with latch := 0 } }) (hd : s.time.cycle + 1 = s.nm.commitAt + 1600000) :
    ∃ t, CommitCalm s (s.time.cycle + 1) t ∧ s.oneCycle = t.enterSlack := by
  obtain ⟨harr, hpulls, hwait, hstore, hout, hscrub, hload, hegr, hlin, hhand, hfirst, hsecond, hthird, hrest, hsvcIn, hread, hspi, htab, -, -,
    hsvc, hmsg, hrings⟩ := hi
  have hm : s.mainOn = true := by
    have hx := hl
    simp only [State.live, Bool.and_eq_true, Bool.not_eq_true'] at hx
    simp [State.mainOn, hv, live_mode hl, hx.2]
  unfold State.oneCycle
  rw [if_neg (by simp [hm])]
  extract_lets s1 _ s2 s3
  have h1 : s1 = s := by
    unfold s1
    rw [if_pos hl]
    exact if_pos (by rw [show s.fab.store = [] from hstore]; rfl)
  have h2 : CommitCalm s (s.time.cycle + 1) s2 := by
    unfold s2
    rw [h1]
    exact {
      pw := rfl, nm := rfl, snapshot := rfl, cycle := rfl, arriving := harr, scrubHold := hscrub
      egress := fun o => SMap.get_of_all (P := fun e : Egress => e.tx = none ∧ e.next = []) ⟨rfl, rfl⟩ hegr o
      pulls := hpulls, waiting := hwait, out := hout, load := hload, hand := hhand, first := hfirst, second := hsecond, third := hthird
      rest := hrest, svcIn := hsvcIn
      lin := fun m => SMap.get_of_all
        (P := fun l : Lin => l.header = none ∧ l.sleepDue = false ∧ l.old = none ∧ l.initDue = false) ⟨rfl, rfl, rfl, rfl⟩ hlin m
      table := htab, rings := hrings, svc := hsvc, svcMsg := hmsg }
  have hr : s2.host.reading = none ∧ s2.host.spiWait = none := by
    unfold s2
    rw [h1]
    exact ⟨hread, hspi⟩
  clear_value s2
  have h3 : s3 = s2 := by
    have hrt : s2.readTick = s2 := by simp [State.readTick, hr.1]
    have hst : s2.spiTick = s2 := by simp [State.spiTick, hr.2]
    simp [s3, hrt, hst]
  rw [h3]
  have hlive : ∀ t : State, t.pw = s.pw → t.live = true := fun t ht => by simpa [State.live, ht] using hl
  rw [if_pos (hlive s2 h2.pw)]
  have h4 := h2.slewTick.creditTick
  rw [h4.readPorts, h4.readDone, h4.tableTick]
  have h5 := h4.ingressTick
  rw [h5.gwTick]
  have h6 := h5.svcTick.deliverDue.macTick
  rw [h6.planeSlot, h6.ruleTick]
  have h7 := h6.scrubBack.canTick.linTick.firmwareTick hc
  exact ⟨_, h7, commitStep_last (hlive _ h7.pw) (by rw [h7.nm, hc]) (by rw [h7.cycle, h7.nm, hd])⟩

/-- Slack begins 2 ms after the acceptance of Commit, with the latch and the snapshot as they were. -/
theorem step_commit_slack (s : State) (hp : s.pending = []) (hl : s.live = true) (hv : s.pw.vaon = true) (hc : s.nm.state = .commit)
    (hi : Idle { s with nm := { s.nm with latch := 0 } }) (hd : s.time.cycle + 1 = s.nm.commitAt + 1600000) :
    ∃ t, step s = .next t ∧ t.pw.mode = .slack ∧ t.pw.inh0 = false ∧ t.pw.inh1 = false ∧ t.pw.fwReady = false ∧ t.sec.wks = [] ∧
      t.sw.frames = [] ∧ t.nm.latch = s.nm.latch ∧ t.snapshot = s.snapshot ∧ t.nm.snapSeq = s.nm.snapSeq := by
  obtain ⟨t, ht, he⟩ := oneCycle_commit hl hv hc hi hd
  have hstep : step s = .next (settle s t.enterSlack) := by
    unfold step
    rw [hp]
    exact congrArg (fun u => Host.Outcome.next (settle s u)) he
  obtain ⟨hmode, hi0, hi1, hfw, hwk, hfr, hnm, hsn⟩ := enterSlack_fields t
  refine ⟨_, hstep, ?_⟩
  simp only [settle_pw, settle_sec, settle_sw, settle_nm, settle_snapshot]
  exact ⟨hmode, hi0, hi1, hfw, hwk, hfr, by rw [hnm, ht.nm], by rw [hsn, ht.snapshot], by rw [hnm, ht.nm]⟩

/-- Settles O41: the answers of `commit` by the state of network management, what an edge, a fall and a pulse of a wake line leave, the bus
sources where the always-on domain listens, and the last cycle of Commit over a state with nothing under way. -/
theorem commitAndWake : Obligations.CommitAndWake := by
  unfold Obligations.CommitAndWake
  exact ⟨commit_cases, ebbTimeout_cases, wakeLineEdge_cases, wakeLineEdge_ignored, wakeLineLow_cases, busWakes_listening, busWakes_deaf,
    aonSwWake_cases, wakePulseEnd_cases, step_commit_slack⟩

end Sys2Proof.Machine
end

