-- ==== Sys2Proof/Proofs/LocalTime.lean ====
section
/-! SUPPORT. The timestamps of local time (O6). -/

namespace Sys2Proof.Machine

/-- Whole nanoseconds of an instant, from its seconds and the nanoseconds of its last second. -/
theorem ltNs_eq_sec_ns (t : Nat) : ltNs t = t / secUnit * 1000000000 + t % secUnit / nsUnit := by
  unfold ltNs secUnit nsUnit
  omega

theorem ts32_eq_sec_ns (t : Nat) :
    ts32 t = BitVec.ofNat 32 ((ltRT t).sec.toNat * 1000000000 + (ltRT t).ns.toNat) := by
  have hns : (ltRT t).ns.toNat = t % secUnit / nsUnit := by
    simp only [ltRT, BitVec.toNat_ofNat, secUnit, nsUnit]
    omega
  have hsec : (ltRT t).sec.toNat = t / secUnit % 2 ^ 48 := by simp only [ltRT, BitVec.toNat_ofNat]
  apply BitVec.eq_of_toNat_eq
  rw [hns, hsec, ts32, ltNs_eq_sec_ns]
  simp only [BitVec.toNat_ofNat]
  omega

theorem ts32_add_wrap (t : Nat) : ts32 (t + 2 ^ 32 * nsUnit) = ts32 t := by
  apply BitVec.eq_of_toNat_eq
  simp only [ts32, ltNs, nsUnit, BitVec.toNat_ofNat]
  omega

/-- The serial difference of two timestamps is the true one, while that is less than 2³¹ ns (R42). -/
theorem toInt_ts32_sub (a b : Nat) (h : ((ltNs a : Int) - ltNs b).natAbs < 2 ^ 31) :
    (ts32 a - ts32 b).toInt = (ltNs a : Int) - ltNs b := by
  rw [ts32, ts32, BitVec.toInt_sub, BitVec.toInt_ofNat', BitVec.toInt_ofNat', Int.sub_bmod_bmod, Int.bmod_sub_bmod]
  exact Int.bmod_eq_of_le (by omega) (by omega)

/-- Settles O6: TS32 counts the nanoseconds of local time modulo 2³², so it wraps every 2³² ns and its serial difference is the true one below
2³¹ ns. -/
theorem ts32SerialArithmetic : Obligations.Ts32SerialArithmetic :=
  ⟨fun s => ts32_eq_sec_ns s.time.ltime, ts32_add_wrap, toInt_ts32_sub⟩

end Sys2Proof.Machine
end

