-- ==== Sys2Proof/Proofs/TimeSource.lean ====
section
/-! SUPPORT. Gates that follow the reference, states of the time source, samples, and the steering of local time (R38, R52 to R56). -/

namespace Sys2Proof.Machine

/-- What a time sample, a timer or a capture never touches: parameters, the angle source, network management, the vault, the update, the
island. -/
structure OffReference (s t : State) : Prop where
  params : t.params = s.params
  angle : t.angle = s.angle
  nm : t.nm = s.nm
  sec : t.sec = s.sec
  upd : t.upd = s.upd
  isl : t.isl = s.isl

theorem OffReference.trans {s t u : State} (h : OffReference s t) (k : OffReference t u) : OffReference s u where
  params := k.params.trans h.params
  angle := k.angle.trans h.angle
  nm := k.nm.trans h.nm
  sec := k.sec.trans h.sec
  upd := k.upd.trans h.upd
  isl := k.isl.trans h.isl

/-- At most gates, window sets, runs of routes, queues and counters have moved: local time, what a reference never touches and the latched
interrupts of the direct window are as before. -/
structure GatesOnly (s t : State) : Prop where
  off : OffReference s t
  time : t.time = s.time
  irq : t.dw.irqW1c = s.dw.irqW1c

namespace GatesOnly
variable {s t u : State}

theorem refl (s : State) : GatesOnly s s := ⟨⟨rfl, rfl, rfl, rfl, rfl, rfl⟩, rfl, rfl⟩

theorem trans (h : GatesOnly s t) (k : GatesOnly t u) : GatesOnly s u :=
  ⟨h.off.trans k.off, k.time.trans h.time, k.irq.trans h.irq⟩

/-- A change elsewhere leaves all of this. -/
theorem elsewhere (h : GatesOnly s t) (params : u.params = t.params := by rfl) (angle : u.angle = t.angle := by rfl)
    (nm : u.nm = t.nm := by rfl) (sec : u.sec = t.sec := by rfl) (upd : u.upd = t.upd := by rfl) (isl : u.isl = t.isl := by rfl)
    (time : u.time = t.time := by rfl) (irq : u.dw.irqW1c = t.dw.irqW1c := by rfl) : GatesOnly s u :=
  h.trans ⟨⟨params, angle, nm, sec, upd, isl⟩, time, irq⟩

theorem setGate (h : GatesOnly s t) (p : Nat) (g : Gate) : GatesOnly s (t.setGate p g) := h.elsewhere
theorem bump (h : GatesOnly s t) (a : Nat) : GatesOnly s (t.bump a) := h.elsewhere
theorem gateErr (h : GatesOnly s t) (p o : Nat) : GatesOnly s (t.gateErr p o) := h.elsewhere

theorem markOverrun (h : GatesOnly s t) (p : Nat) (c : Nat → Bool) : GatesOnly s (t.markOverrun p c) := by
  unfold State.markOverrun
  dsimp only
  split
  · split
    · exact h.elsewhere
    · exact h
  · exact h

theorem applyGates (h : GatesOnly s t) (p st : Nat) : GatesOnly s (t.applyGates p st) := by
  unfold State.applyGates
  exact (h.setGate ..).markOverrun ..

theorem refreshGates (h : GatesOnly s t) (p : Nat) : GatesOnly s (t.refreshGates p) := by
  unfold State.refreshGates
  dsimp only
  split
  · exact h.applyGates ..
  · split
    · exact h.applyGates ..
    · exact (h.setGate ..).applyGates ..

theorem refreshAllGates (h : GatesOnly s t) : GatesOnly s t.refreshAllGates := by
  refine foldN_keeps h (fun v p hv => ?_)
  split
  · exact hv.refreshGates p
  · exact hv

theorem seatGates (h : GatesOnly s t) (p a : Nat) : GatesOnly s (t.seatGates p a) := by
  unfold State.seatGates
  dsimp only
  split
  · split
    · exact (h.setGate ..).refreshGates ..
    · exact h
  · exact h

theorem countCycle (h : GatesOnly s t) (p : Nat) : GatesOnly s (t.countCycle p) := by
  unfold State.countCycle
  split
  · exact h.bump ..
  · exact h

theorem countWithdrawn (h : GatesOnly s t) (p w : Nat) (own : Bool) : GatesOnly s (t.countWithdrawn p w own) := by
  unfold State.countWithdrawn
  dsimp only
  split
  · exact h.elsewhere
  · exact h.elsewhere

theorem withdrawDecided (h : GatesOnly s t) (p : Nat) (own : Bool) : GatesOnly s (t.withdrawDecided p own) :=
  (foldl_keeps h (fun _ _ hv => hv.countWithdrawn ..) _).elsewhere

theorem scheduleStep (h : GatesOnly s t) : GatesOnly s (scheduleStep t) := by
  refine foldN_keeps h (fun v p hv => ?_)
  extract_lets w _ _
  have hw : GatesOnly s w := by
    unfold w
    split
    · split
      · exact hv
      · exact (hv.refreshGates p).gateErr ..
    · exact hv
  split
  · exact (hw.withdrawDecided p true).elsewhere
  · exact hw

theorem skipRuns (h : GatesOnly s t) (old : Nat) : GatesOnly s (t.skipRuns old) := by
  refine foldl_keeps h (fun v e hv => ?_) _
  dsimp only
  split
  · split
    · exact hv.elsewhere
    · exact hv
  · exact hv

end GatesOnly

/-! The states of the time source (R52 to R55). -/

/-- A change of the state of the time source touches nothing else of the reference but the count of samples inside the lock window. -/
theorem setTimeState_other {s : State} {st : TimeState} (h : s.time.state ≠ st) :
    OffReference s (s.setTimeState st) ∧
      (s.setTimeState st).time = { s.time with state := st, inWindow := if st = .acquiring then 0 else s.time.inWindow } ∧
      (s.setTimeState st).dw.irqW1c.getLsbD 8 = true := by
  unfold State.setTimeState
  rw [if_neg h]
  dsimp only
  generalize hu : ({ s with time.state := st, time.inWindow := if st = TimeState.acquiring then 0 else s.time.inWindow } : State) = u
  have k : GatesOnly (u.irq 8) (u.irq 8).refreshAllGates := (GatesOnly.refl _).refreshAllGates
  subst hu
  refine ⟨?_, k.time, ?_⟩
  · exact ⟨k.off.params, k.off.angle, k.off.nm, k.off.sec, k.off.upd, k.off.isl⟩
  · rw [k.irq]
    exact irq_latched _ (by decide)

theorem setTimeState_same {s : State} {st : TimeState} (h : s.time.state = st) : s.setTimeState st = s := if_pos h

/-! Samples (R53, R54). -/

/-- The table of R53: the state after a valid sample, `n` samples before it in a row having lain inside the lock window. -/
def TimeState.afterSample (st : TimeState) (n : Nat) (gmChange inWin big : Bool) : TimeState :=
  match st with
  | .free => .free
  | .unset | .lost => .acquiring
  | .acquiring => if !gmChange && inWin && decide (n + 1 ≥ 8) then .locked else .acquiring
  | .locked => if gmChange || big then .acquiring else .locked
  | .holdover => if gmChange || !inWin then .acquiring else .locked

/-- `u` is `s` with a sample entered, before local time is steered: offset `off`, measured rate `rate`, state `st`. -/
structure Sampled (s u : State) (off : Int) (rate : Nat) (st : TimeState) : Prop where
  other : OffReference s u
  state : u.time.state = st
  offset : u.time.offset = off
  refIncr : u.time.refIncr = rate
  lastSample : u.time.lastSample = s.time.cycle
  cycle : u.time.cycle = s.time.cycle
  ltime : u.time.ltime = s.time.ltime
  gm : u.time.gm = s.time.gm
  steps : u.time.steps = s.time.steps
  upstream : u.time.upstream = s.time.upstream
  ppsSec : u.time.ppsSec = s.time.ppsSec
  ppsLast : u.time.ppsLast = s.time.ppsLast
  ppsCycle : u.time.ppsCycle = s.time.ppsCycle

theorem Sampled.setTimeState {s u : State} {off : Int} {rate : Nat} {st : TimeState} (h : Sampled s u off rate st) (st' : TimeState) :
    Sampled s (u.setTimeState st') off rate st' := by
  by_cases hs : u.time.state = st'
  · rw [setTimeState_same hs]
    exact { h with state := hs }
  · obtain ⟨ho, ht, -⟩ := setTimeState_other hs
    exact {
      other := h.other.trans ho, state := by rw [ht], offset := by rw [ht]; exact h.offset, refIncr := by rw [ht]; exact h.refIncr
      lastSample := by rw [ht]; exact h.lastSample, cycle := by rw [ht]; exact h.cycle, ltime := by rw [ht]; exact h.ltime
      gm := by rw [ht]; exact h.gm, steps := by rw [ht]; exact h.steps, upstream := by rw [ht]; exact h.upstream
      ppsSec := by rw [ht]; exact h.ppsSec, ppsLast := by rw [ht]; exact h.ppsLast, ppsCycle := by rw [ht]; exact h.ppsCycle }

theorem Sampled.setInWindow {s u : State} {off : Int} {rate : Nat} {st : TimeState} (h : Sampled s u off rate st) (n : Nat) :
    Sampled s { u with time.inWindow := n } off rate st :=
  { h with other := h.other.trans ⟨rfl, rfl, rfl, rfl, rfl, rfl⟩ }

/-- The measured rate that a sample gives. -/
def State.sampleRate (s : State) (rate : Option Nat) : Nat := (s.setRate rate).time.refIncr

theorem setTimeState_inWindow (s : State) (st : TimeState) :
    (s.setTimeState st).time.inWindow = if s.time.state ≠ st ∧ st = .acquiring then 0 else s.time.inWindow := by
  by_cases hs : s.time.state = st
  · simp [setTimeState_same hs, hs]
  · rw [(setTimeState_other hs).2.1]
    simp [hs]

/-- A sample that leaves the source in Acquiring when the count of samples is left out of account locks it at the eighth inside the
window; one that enters Acquiring, or names another grandmaster, is the first of them. -/
theorem afterSample_of_acquiring {st : TimeState} {gmChange inWin big : Bool} (h : st.afterSample 0 gmChange inWin big = .acquiring) (n : Nat) :
    st.afterSample n gmChange inWin big =
      if inWin = true ∧ 8 ≤ (if st ≠ .acquiring ∨ gmChange = true then 0 else n) + 1 then .locked else .acquiring := by
  cases st <;> cases gmChange <;> simp_all [TimeState.afterSample]

theorem afterSample_of_not_acquiring {st : TimeState} {gmChange inWin big : Bool} (h : st.afterSample 0 gmChange inWin big ≠ .acquiring) (n : Nat) :
    st.afterSample n gmChange inWin big = st.afterSample 0 gmChange inWin big := by
  cases st <;> simp_all [TimeState.afterSample]

/-- A sample with its measured rate entered, before it moves the state. -/
def State.enterSample (s : State) (off : Int) (ivl : Nat) (rate : Option Nat) : State :=
  let s := s.setRate rate
  { s with time.offset := off, time.lastSample := s.now, time.interval := ivl }

theorem enterSample_sampled (s : State) (off : Int) (ivl : Nat) (rate : Option Nat) :
    Sampled s (s.enterSample off ivl rate) off (s.sampleRate rate) s.time.state ∧
      (s.enterSample off ivl rate).time.inWindow = s.time.inWindow := by
  cases rate with
  | none => exact ⟨⟨⟨rfl, rfl, rfl, rfl, rfl, rfl⟩, rfl, rfl, rfl, rfl, rfl, rfl, rfl, rfl, rfl, rfl, rfl, rfl⟩, rfl⟩
  | some r => exact ⟨⟨⟨rfl, rfl, rfl, rfl, rfl, rfl⟩, rfl, rfl, rfl, rfl, rfl, rfl, rfl, rfl, rfl, rfl, rfl, rfl⟩, rfl⟩

/-- A sample enters the state of R53; then it steps local time exactly in Acquiring with an offset above the threshold, and slews it
otherwise. -/
theorem timeSample_cases (s : State) (off : Int) (ivl : Nat) (gmChange : Bool) (rate : Option Nat) :
    let inWin := decide (off.natAbs ≤ s.param 0x0505 * nsUnit)
    let big := decide (off.natAbs > s.param 0x0506 * nsUnit)
    let st := s.time.state.afterSample s.time.inWindow gmChange inWin big
    ∃ u, Sampled s u off (s.sampleRate rate) st ∧
      s.timeSample off ivl gmChange rate = if st = .acquiring ∧ big = true then u.stepTime off else u.slewTime off := by
  intro inWin big st
  have hwin : decide (((off.natAbs : Nat) : Int) ≤ ((s.param 0x0505 * nsUnit : Nat) : Int)) = inWin := decide_eq_decide.mpr Int.ofNat_le
  have hbig : decide (((off.natAbs : Nat) : Int) > ((s.param 0x0506 * nsUnit : Nat) : Int)) = big := decide_eq_decide.mpr Int.ofNat_lt
  unfold State.timeSample
  extract_lets win thr a rated _ entered next _ fresh moved n _ counted
  have hentered : Sampled s entered off (s.sampleRate rate) s.time.state ∧ entered.time.inWindow = s.time.inWindow :=
    enterSample_sampled s off ivl rate
  have hfresh : Sampled s fresh off (s.sampleRate rate) s.time.state ∧
      fresh.time.inWindow = if gmChange = true then 0 else s.time.inWindow := by
    unfold fresh
    split
    · exact ⟨hentered.1.setInWindow 0, rfl⟩
    · exact hentered
  have hnext : next = s.time.state.afterSample 0 gmChange inWin big := by
    have hfar : decide (a > win) = !inWin := by
      rw [← hwin, ← decide_not]
      exact decide_eq_decide.mpr not_le.symm
    unfold next
    rw [hentered.1.state, hfar, hbig]
    cases s.time.state <;> simp [TimeState.afterSample]
  have hmoved : Sampled s moved off (s.sampleRate rate) next := hfresh.1.setTimeState next
  rw [hmoved.state]
  by_cases hacq : next = .acquiring
  · have hcount : moved.time.inWindow = if s.time.state ≠ .acquiring ∨ gmChange = true then 0 else s.time.inWindow := by
      unfold moved
      rw [setTimeState_inWindow, hfresh.1.state, hfresh.2, hacq]
      by_cases hs : s.time.state = .acquiring <;> simp [hs]
    have hst : st = if 8 ≤ n then .locked else .acquiring := by
      unfold st n
      rw [afterSample_of_acquiring (hnext ▸ hacq), hcount]
      by_cases hw : inWin = true
      · rw [if_pos (of_decide_eq_true (hwin.trans hw))]
        simp [hw]
      · rw [if_neg (fun h => hw (hwin ▸ decide_eq_true h))]
        simp [hw]
    have hcounted : Sampled s counted off (s.sampleRate rate) .acquiring := hacq ▸ hmoved.setInWindow n
    rw [if_pos hacq]
    by_cases h8 : 8 ≤ n
    · rw [if_pos h8] at hst ⊢
      exact ⟨_, hst ▸ hcounted.setTimeState .locked, by simp [hst]⟩
    · rw [if_neg h8] at hst ⊢
      refine ⟨counted, hst ▸ hcounted, ?_⟩
      simp only [hst, true_and, ← hbig, decide_eq_true_eq]
      rfl
  · have hst : st = next := by
      rw [hnext] at hacq ⊢
      exact afterSample_of_not_acquiring hacq _
    exact ⟨moved, hst ▸ hmoved, by rw [if_neg hacq, if_neg (fun h => hacq (hst ▸ h.1))]⟩

/-! Stepping and slewing local time (R38, R54). -/

/-- An instant of local time after a step by `off`. -/
def movedBy (off : Int) (t : Nat) : Nat := ((t : Int) - off).toNat

theorem stepTime_off (s : State) (off : Int) : OffReference s (s.stepTime off) := by
  unfold State.stepTime
  extract_lets _ _ _ u
  exact OffReference.trans (t := u) ⟨rfl, rfl, rfl, rfl, rfl, rfl⟩ (((GatesOnly.refl u).skipRuns _).scheduleStep).off

/-- A step moves local time and what is measured from it, ends the slew, and counts (R54). -/
theorem stepTime_time (s : State) (off : Int) :
    (s.stepTime off).time = { s.time with
      ltime := movedBy off s.time.ltime, since := movedBy off s.time.ltime, steps := satInc s.time.steps, slew := 0, incr := s.time.refIncr,
      ppsLast := s.time.ppsLast.map (movedBy off), ppsSec := s.time.ppsSec.map (fun x => (x.1, movedBy off x.2)),
      upstream := s.time.upstream.map (fun x => (x.1, movedBy off x.2)) } := by
  unfold State.stepTime
  extract_lets _ _ _ u
  exact (((GatesOnly.refl u).skipRuns _).scheduleStep).time

theorem slewTime_off (s : State) (off : Int) : OffReference s (s.slewTime off) := ⟨rfl, rfl, rfl, rfl, rfl, rfl⟩

/-- A slew sets the increment and nothing else of local time. -/
theorem slewTime_time (s : State) (off : Int) :
    (s.slewTime off).time = { s.time with slew := off, incr := (s.slewTime off).time.incr } := rfl

/-- The increment is within the steering range of R38. -/
def InSteering (i : Nat) : Prop := nominalIncr - steerMax ≤ i ∧ i ≤ nominalIncr + steerMax

theorem clampIncr_inSteering (i : Int) : InSteering (clampIncr i) := by
  unfold InSteering clampIncr
  omega

/-- Clamping a value no further than `d` from an increment in range brings it no further away. -/
theorem clampIncr_near {r d : Nat} (h : InSteering r) {i : Int} (hlo : (r : Int) - d ≤ i) (hhi : i ≤ r + d) :
    clampIncr i - r ≤ d ∧ r - clampIncr i ≤ d := by
  obtain ⟨h1, h2⟩ := h
  unfold clampIncr
  omega

theorem sampleRate_none_inSteering (s : State) : InSteering (s.sampleRate none) := by
  have hlt := Nat.mod_lt (s.draw).1 (by omega : 0 < 2 * steerMax + 1)
  have hr : s.sampleRate none = nominalIncr - steerMax + (s.draw).1 % (2 * steerMax + 1) := rfl
  have hs : steerMax ≤ nominalIncr := by decide
  unfold InSteering
  omega

theorem sampleRate_some (s : State) (r : Nat) : s.sampleRate (some r) = clampIncr r := rfl

/-- The rate of a slew is in the steering range, and within the maximum slew of the measured rate (R38). -/
theorem slewTime_incr (s : State) (off : Int) (h : InSteering s.time.refIncr) :
    InSteering (s.slewTime off).time.incr ∧
      (s.slewTime off).time.incr - s.time.refIncr ≤ s.time.refIncr * s.param 0x0508 / 1000000 ∧
      s.time.refIncr - (s.slewTime off).time.incr ≤ s.time.refIncr * s.param 0x0508 / 1000000 := by
  let lim := s.time.refIncr * s.param 0x0508 / 1000000
  let dep : Int := if off = 0 || lim = 0 then 0 else ((1 + (s.draw).1 % lim : Nat) : Int)
  have hdep : 0 ≤ dep ∧ dep ≤ lim := by
    unfold dep
    split
    · omega
    · next hz =>
      have hl : 0 < lim := Nat.pos_of_ne_zero (fun h0 => hz (by simp [h0]))
      have := Nat.mod_lt (s.draw).1 hl
      omega
  have hi : (s.slewTime off).time.incr =
      clampIncr (if off > 0 then (s.time.refIncr : Int) - dep else (s.time.refIncr : Int) + dep) := rfl
  rw [hi]
  refine ⟨clampIncr_inSteering _, clampIncr_near h ?_ ?_⟩
  · split <;> omega
  · split <;> omega

/-- `t` is `s` after a sample of offset `off`, rate `rate` and table state `st`; `big`: the offset is above the step threshold (R53, R54). -/
structure SampleTaken (s t : State) (off : Int) (rate : Nat) (st : TimeState) (big : Prop) : Prop where
  other : OffReference s t
  state : t.time.state = st
  offset : t.time.offset = off
  refIncr : t.time.refIncr = rate
  lastSample : t.time.lastSample = s.time.cycle
  cycle : t.time.cycle = s.time.cycle
  gm : t.time.gm = s.time.gm
  ppsCycle : t.time.ppsCycle = s.time.ppsCycle
  inSteering : InSteering t.time.incr
  stepped : st = .acquiring ∧ big →
    t.time.ltime = movedBy off s.time.ltime ∧ t.time.steps = satInc s.time.steps ∧
      t.time.upstream = s.time.upstream.map (fun x => (x.1, movedBy off x.2)) ∧
      t.time.ppsLast = s.time.ppsLast.map (movedBy off) ∧ t.time.ppsSec = s.time.ppsSec.map (fun x => (x.1, movedBy off x.2))
  slewed : ¬ (st = .acquiring ∧ big) →
    t.time.ltime = s.time.ltime ∧ t.time.steps = s.time.steps ∧ t.time.upstream = s.time.upstream ∧
      t.time.ppsLast = s.time.ppsLast ∧ t.time.ppsSec = s.time.ppsSec ∧
      t.time.incr - t.time.refIncr ≤ t.time.refIncr * s.param 0x0508 / 1000000 ∧
      t.time.refIncr - t.time.incr ≤ t.time.refIncr * s.param 0x0508 / 1000000

namespace Sampled
variable {s u : State} {off : Int} {rate : Nat} {st : TimeState} {big : Prop}

theorem stepTime (h : Sampled s u off rate st) (hr : InSteering rate) (hb : st = .acquiring ∧ big) :
    SampleTaken s (u.stepTime off) off rate st big := by
  have ho := h.other.trans (stepTime_off u off)
  have ht := stepTime_time u off
  generalize u.stepTime off = t at ho ht ⊢
  constructor
  case other => exact ho
  case slewed => exact fun hn => absurd hb hn
  case stepped => intro _; simp [ht, h.ltime, h.steps, h.upstream, h.ppsLast, h.ppsSec]
  all_goals simp [ht, h.state, h.offset, h.refIncr, h.lastSample, h.cycle, h.gm, h.ppsCycle, hr]

theorem slewTime (h : Sampled s u off rate st) (hr : InSteering rate) (hb : ¬ (st = .acquiring ∧ big)) :
    SampleTaken s (u.slewTime off) off rate st big := by
  have ho := h.other.trans (slewTime_off u off)
  have ht := slewTime_time u off
  have hp : u.param 0x0508 = s.param 0x0508 := by simp only [State.param, h.other.params]
  obtain ⟨hin, hup, hdown⟩ := slewTime_incr u off (h.refIncr ▸ hr)
  rw [hp] at hup hdown
  generalize (u.slewTime off).time.incr = i at ht hin hup hdown
  rw [h.refIncr] at hup hdown
  generalize u.slewTime off = t at ho ht ⊢
  constructor
  case other => exact ho
  case stepped => exact fun hn => absurd hn hb
  case slewed =>
    intro _
    simp only [ht, h.ltime, h.steps, h.upstream, h.ppsLast, h.ppsSec, h.refIncr, true_and]
    exact ⟨hup, hdown⟩
  all_goals simp [ht, h.state, h.offset, h.refIncr, h.lastSample, h.cycle, h.gm, h.ppsCycle, hin]

end Sampled

theorem timeSample_taken (s : State) (off : Int) (ivl : Nat) (gmChange : Bool) {rate : Option Nat} (hr : InSteering (s.sampleRate rate)) :
    SampleTaken s (s.timeSample off ivl gmChange rate) off (s.sampleRate rate)
      (s.time.state.afterSample s.time.inWindow gmChange (decide (off.natAbs ≤ s.param 0x0505 * nsUnit))
        (decide (off.natAbs > s.param 0x0506 * nsUnit)))
      (off.natAbs > s.param 0x0506 * nsUnit) := by
  obtain ⟨u, hu, he⟩ := timeSample_cases s off ivl gmChange rate
  rw [he]
  split
  · next hb => exact hu.stepTime hr ⟨hb.1, of_decide_eq_true hb.2⟩
  · next hb => exact hu.slewTime hr (fun hn => hb ⟨hn.1, decide_eq_true hn.2⟩)

end Sys2Proof.Machine
end

