-- ==== Sys2Proof/Proofs/TimeSamples.lean ====
section
/-! SUPPORT. Sync and PPS samples (O8). -/

namespace Sys2Proof.Machine

/-! SYNC (R40, R47, R53). -/

/-- Another grandmaster than the last one sends. -/
def State.gmChanged (s : State) (gm : BitVec 64) : Bool :=
  match s.time.gm with
  | some g => g != gm
  | none => false

theorem gmChanged_iff (s : State) (gm : BitVec 64) : s.gmChanged gm = true ↔ ∃ g, s.time.gm = some g ∧ g ≠ gm := by
  unfold State.gmChanged
  cases s.time.gm <;> simp

/-- A Sync of the domain at a slave port is a sample against what its follow-up gives. -/
theorem sync_sample {s : State} {p : Nat} {gm : SyncSource} {ref : RT} (iv : Fin 6) (hfw : s.fw = true) (hsrc : s.param 0x0501 = 1)
    (hrole : s.gptpRole p 1 = true) (hdom : gm.domain.toNat = s.param 0x0502) (hns : ref.ns.toNat ≤ 999999999) :
    sync p gm ref iv s =
      { s with time := { s.time with gm := some gm.identity, upstream := some (s.syncTime p ref, s.portStamp 0x0540 p) } }.timeSample
        ((s.portStamp 0x0540 p : Int) - s.syncTime p ref) (800000000 / 2 ^ (5 - iv.val)) (s.gmChanged gm.identity) none := by
  have hg : (!s.fw || s.param 0x0501 != 1 || !s.gptpRole p 1 || decide (gm.domain.toNat ≠ s.param 0x0502) ||
      decide (ref.ns.toNat > 999999999)) = false := by
    simp [hfw, hsrc, hrole, hdom, hns]
  unfold sync
  rw [hg]
  rfl

theorem inSteering_bounds {i : Nat} (h : InSteering i) :
    nominalIncr - nominalIncr * 250 / 1000000 ≤ i ∧ i ≤ nominalIncr + nominalIncr * 250 / 1000000 := h

theorem afterSample_acquiring {st : TimeState} {n : Nat} {c i b : Bool} (h : c = true ∨ st = .unset ∨ st = .lost) (hf : st ≠ .free) :
    st.afterSample n c i b = .acquiring := by
  cases st <;> simp_all [TimeState.afterSample]

theorem afterSample_from_acquiring (n : Nat) (i b : Bool) :
    (TimeState.acquiring.afterSample n false i b = .locked ↔ i = true ∧ n + 1 ≥ 8) ∧
      (TimeState.acquiring.afterSample n false i b = .acquiring ↔ ¬ (i = true ∧ n + 1 ≥ 8)) := by
  by_cases h : i = true ∧ n + 1 ≥ 8 <;> simp_all [TimeState.afterSample]

theorem afterSample_from_locked (n : Nat) (i b : Bool) :
    (TimeState.locked.afterSample n false i b = .acquiring ↔ b = true) ∧
      (TimeState.locked.afterSample n false i b = .locked ↔ ¬ b = true) := by
  cases b <;> simp [TimeState.afterSample]

theorem afterSample_from_holdover (n : Nat) (i b : Bool) :
    (TimeState.holdover.afterSample n false i b = .locked ↔ i = true) ∧
      (TimeState.holdover.afterSample n false i b = .acquiring ↔ ¬ i = true) := by
  cases i <;> simp [TimeState.afterSample]

theorem sync_cases (s : State) (p : Port) (d : Byte) (gm : BitVec 64) (ref : RT) (iv : Fin 6) (hfw : s.fw = true) (hsrc : s.param 0x0501 = 1)
    (hrole : s.gptpRole p.val 1 = true) (hdom : d.toNat = s.param 0x0502) (hns : ref.ns.toNat ≤ 999999999) (hfree : s.time.state ≠ .free) :
    let here := ((s.time.ltime : Int) + s.paramInt (0x0540 + p.val) * (nsUnit : Int)).toNat
    let there := ((RT.toLt ref : Int) + (SMap.get GptpPort.reset s.gptp p.val).linkDelay).toNat
    let off : Int := (here : Int) - there
    let inWin := off.natAbs ≤ s.param 0x0505 * nsUnit
    let big := off.natAbs > s.param 0x0506 * nsUnit
    let change := ∃ g, s.time.gm = some g ∧ g ≠ gm
    ∃ t, exec (.sync p ⟨d, gm⟩ ref iv) s = .next t ∧
      t.time.gm = some gm ∧ t.time.cycle = s.time.cycle ∧ t.time.lastSample = s.time.cycle ∧ t.time.offset = off ∧
      (change ∨ s.time.state = .unset ∨ s.time.state = .lost → t.time.state = .acquiring) ∧
      (¬ change → s.time.state = .acquiring →
        (t.time.state = .locked ↔ inWin ∧ s.time.inWindow + 1 ≥ 8) ∧ (t.time.state = .acquiring ↔ ¬ (inWin ∧ s.time.inWindow + 1 ≥ 8))) ∧
      (¬ change → s.time.state = .locked → (t.time.state = .acquiring ↔ big) ∧ (t.time.state = .locked ↔ ¬ big)) ∧
      (¬ change → s.time.state = .holdover → (t.time.state = .locked ↔ inWin) ∧ (t.time.state = .acquiring ↔ ¬ inWin)) ∧
      (t.time.state = .acquiring ∧ big → t.time.ltime = ((s.time.ltime : Int) - off).toNat ∧ t.time.upstream = some (there, there) ∧
        t.time.steps = satInc s.time.steps) ∧
      (¬ (t.time.state = .acquiring ∧ big) → t.time.ltime = s.time.ltime ∧ t.time.upstream = some (there, here) ∧ t.time.steps = s.time.steps ∧
        (t.time.incr - t.time.refIncr ≤ t.time.refIncr * s.param 0x0508 / 1000000) ∧
        (t.time.refIncr - t.time.incr ≤ t.time.refIncr * s.param 0x0508 / 1000000)) ∧
      nominalIncr - nominalIncr * 250 / 1000000 ≤ t.time.incr ∧ t.time.incr ≤ nominalIncr + nominalIncr * 250 / 1000000 ∧
      SameMem s t ∧ t.params = s.params ∧ t.angle = s.angle ∧ t.nm = s.nm ∧ t.sec = s.sec ∧ t.upd = s.upd ∧ t.isl = s.isl := by
  intro here there off inWin big change
  have hch : change ↔ s.gmChanged gm = true := (gmChanged_iff s gm).symm
  let s0 : State := { s with time := { s.time with gm := some gm, upstream := some (there, here) } }
  have hsync : sync p.val ⟨d, gm⟩ ref iv s = s0.timeSample off (800000000 / 2 ^ (5 - iv.val)) (s.gmChanged gm) none :=
    sync_sample iv hfw hsrc hrole hdom hns
  have hmem : (s0.timeSample off (800000000 / 2 ^ (5 - iv.val)) (s.gmChanged gm) none).mem = s.mem := by simp [s0]
  have ht : SampleTaken s0 (s0.timeSample off (800000000 / 2 ^ (5 - iv.val)) (s.gmChanged gm) none) off (s0.sampleRate none)
      (s.time.state.afterSample s.time.inWindow (s.gmChanged gm) (decide inWin) (decide big)) big :=
    timeSample_taken s0 off _ _ (sampleRate_none_inSteering s0)
  have he : exec (.sync p ⟨d, gm⟩ ref iv) s = .next (settle s (sync p.val ⟨d, gm⟩ ref iv s)) := rfl
  refine ⟨_, he, ?_⟩
  rw [hsync]
  generalize s0.timeSample off (800000000 / 2 ^ (5 - iv.val)) (s.gmChanged gm) none = t at hmem ht ⊢
  simp only [settle_time, settle_params, settle_angle, settle_nm, settle_sec, settle_upd, settle_isl, ht.state]
  have hst := ht.state
  refine ⟨ht.gm, ht.cycle, ht.lastSample, ht.offset, fun h => ?_, fun hc hs => ?_, fun hc hs => ?_, fun hc hs => ?_, fun hb => ?_, fun hb => ?_,
    (inSteering_bounds ht.inSteering).1, (inSteering_bounds ht.inSteering).2, sameMem_of_mem (by simpa using hmem), ht.other.params,
    ht.other.angle, ht.other.nm, ht.other.sec, ht.other.upd, ht.other.isl⟩
  · exact afterSample_acquiring (by rwa [hch] at h) hfree
  · rw [hch, Bool.not_eq_true] at hc
    rw [hs, hc]
    simpa using afterSample_from_acquiring s.time.inWindow (decide inWin) (decide big)
  · rw [hch, Bool.not_eq_true] at hc
    rw [hs, hc]
    simpa using afterSample_from_locked s.time.inWindow (decide inWin) (decide big)
  · rw [hch, Bool.not_eq_true] at hc
    rw [hs, hc]
    simpa using afterSample_from_holdover s.time.inWindow (decide inWin) (decide big)
  · obtain ⟨hl, hsteps, hup, -, -⟩ := ht.stepped hb
    refine ⟨hl, hup.trans ?_, hsteps⟩
    have : movedBy off here = there := by unfold movedBy off; omega
    simp [s0, this]
  · obtain ⟨hl, hsteps, hup, -, -, h1, h2⟩ := ht.slewed hb
    exact ⟨hl, hup, hsteps, h1, h2⟩

/-! PPS_EDGE (R49 to R51, R54). -/

theorem param_setParam_same (s : State) (pid : Nat) {v : Nat} (hv : v = pidDefault pid) : (s.setParam pid v).param pid = v := by
  simp only [State.setParam, State.param, if_pos hv, SMap.get_set_same]
  exact hv.symm

theorem param_setParam_other (s : State) {pid q : Nat} (v : Nat) (h : q ≠ pid) : (s.setParam pid v).param q = s.param q := by
  simp only [State.setParam, State.param, SMap.get_set_other _ _ _ _ h]

/-- The captured instant of a PPS edge, with its compensation. -/
def State.ppsInstant (s : State) : Nat := ((s.time.ltime : Int) - s.paramInt 0x050A * (nsUnit : Int)).toNat

/-- The edge comes less than 900 ms after the one before it (R51). -/
def State.ppsNear (s : State) : Bool :=
  match s.time.ppsLast with
  | some l => decide ((s.ppsInstant : Int) - l < (900000000 * nsUnit : Nat))
  | none => false

theorem ppsNear_iff (s : State) :
    s.ppsNear = true ↔ ∃ l, s.time.ppsLast = some l ∧ (s.ppsInstant : Int) - l < (900000000 * nsUnit : Nat) := by
  unfold State.ppsNear
  cases s.time.ppsLast <;> simp

/-- The rate that `n` edges of FREQ_IN show, where an edge came before (R49). -/
def State.ppsRate (s : State) (n : Nat) : Nat :=
  (match s.time.ppsCycle with
    | some c => if s.now > c then some (n * 40 * nsUnit / (s.now - c)) else none
    | none => none).getD s.time.refIncr

/-- A pending seconds value that was written at least `wait` before `t`. -/
def pendingSeconds (sec : Option (Nat × Nat)) (wait t : Nat) : Option Nat :=
  match sec with
  | some (v, w) => if w + wait ≤ t then some v else none
  | none => none

/-- The pending seconds value that the edge consumes (R50). -/
def State.ppsDue (s : State) : Option Nat := pendingSeconds s.time.ppsSec (10000000 * nsUnit) s.ppsInstant

/-- The second nearest to the edge (R50). -/
def State.ppsNearest (s : State) : Nat :=
  if s.ppsInstant % secUnit ≥ 500000000 * nsUnit then s.ppsInstant / secUnit + 1 else s.ppsInstant / secUnit

/-- The instant of an edge is kept. -/
def State.ppsSeen (s : State) : State := { s with time := { s.time with ppsLast := some s.ppsInstant, ppsCycle := some s.time.cycle } }

/-- A valid edge consumes a seconds value that is due. -/
def State.ppsTaken (s : State) : State :=
  if s.ppsDue.isSome then { s.ppsSeen with time := { s.ppsSeen.time with ppsSec := none } }.setParam 0x0509 0 else s.ppsSeen

theorem fw_live {s : State} (h : s.fw = true) : s.live = true := by
  simp only [State.fw, Bool.and_eq_true] at h
  exact h.1.1

/-- What firmware makes of a valid edge: a sample, and the snapshot where edges trigger it (R49 to R51, R314). -/
def State.ppsSample (s : State) (n : Nat) : State :=
  let u := s.ppsTaken.timeSample ((s.ppsInstant : Int) - ((s.ppsDue.getD s.ppsNearest * secUnit : Nat) : Int)) 800000000 false (some (s.ppsRate n))
  if u.snap.auto = 2 then u.capture 2 else u

theorem ppsEdge_eq (s : State) (n : Nat) (absent : Bool) :
    ppsEdge n absent s =
      if !s.live then s
      else if !(decide (n ≤ 25005000) && decide (n ≥ 24995000) && !absent && !s.ppsNear) || s.param 0x0501 != 2 then s.ppsSeen
      else if !s.fw then (if s.ppsSeen.snap.auto = 2 then s.ppsSeen.capture 2 else s.ppsSeen)
      else s.ppsSample n := rfl

theorem ppsEdge_invalid {s : State} {n : Nat} {absent : Bool} (hfw : s.fw = true)
    (h : ¬ (24995000 ≤ n ∧ n ≤ 25005000 ∧ absent = false ∧ s.ppsNear = false)) : ppsEdge n absent s = s.ppsSeen := by
  have hv : (decide (n ≤ 25005000) && decide (n ≥ 24995000) && !absent && !s.ppsNear) = false := by
    rw [Bool.eq_false_iff]
    intro hb
    simp only [Bool.and_eq_true, decide_eq_true_eq, Bool.not_eq_true'] at hb
    obtain ⟨⟨⟨hhi, hlo⟩, ha⟩, hn⟩ := hb
    exact h ⟨hlo, hhi, ha, hn⟩
  simp [ppsEdge_eq, fw_live hfw, hv]

theorem ppsEdge_valid {s : State} {n : Nat} {absent : Bool} (hfw : s.fw = true) (hsrc : s.param 0x0501 = 2)
    (h : 24995000 ≤ n ∧ n ≤ 25005000 ∧ absent = false ∧ s.ppsNear = false) : ppsEdge n absent s = s.ppsSample n := by
  simp [ppsEdge_eq, fw_live hfw, hfw, hsrc, h]

/-- A capture changes the snapshot and an interrupt, and nothing else of the reference (R314). -/
theorem capture_other (s : State) (c : BitVec 2) : OffReference s (s.capture c) ∧ (s.capture c).time = s.time := by
  unfold State.capture
  split <;> exact ⟨⟨rfl, rfl, rfl, rfl, rfl, rfl⟩, rfl⟩

theorem SampleTaken.of_time {s t u : State} {off : Int} {rate : Nat} {st : TimeState} {big : Prop} (h : SampleTaken s t off rate st big)
    (ho : OffReference t u) (ht : u.time = t.time) : SampleTaken s u off rate st big := by
  constructor
  case other => exact h.other.trans ho
  all_goals rw [ht]
  exacts [h.state, h.offset, h.refIncr, h.lastSample, h.cycle, h.gm, h.ppsCycle, h.inSteering, h.stepped, h.slewed]

/-- The seconds value that a valid edge leaves pending. -/
def State.ppsKept (s : State) : Option (Nat × Nat) :=
  if s.time.ppsSec.any (fun x => decide (x.2 + 10000000 * nsUnit ≤ s.ppsInstant)) then none else s.time.ppsSec

/-- A seconds value that is at least `wait` old at `t` is taken, and one that is not stays. -/
theorem pendingSeconds_cases (sec : Option (Nat × Nat)) (wait t : Nat) {kept : Option (Nat × Nat)}
    (hk : kept = if sec.any (fun x => decide (x.2 + wait ≤ t)) then none else sec) :
    (∃ v w, sec = some (v, w) ∧ w + wait ≤ t ∧ pendingSeconds sec wait t = some v ∧ kept = none) ∨
      ((sec = none ∨ ∃ v w, sec = some (v, w) ∧ t < w + wait) ∧ pendingSeconds sec wait t = none ∧ kept = sec) := by
  subst hk
  cases sec with
  | none => exact .inr ⟨.inl rfl, rfl, rfl⟩
  | some x =>
    obtain ⟨v, w⟩ := x
    by_cases hw : w + wait ≤ t
    · exact .inl ⟨v, w, rfl, hw, if_pos hw, by simp [hw]⟩
    · exact .inr ⟨.inr ⟨v, w, rfl, Nat.lt_of_not_le hw⟩, if_neg hw, by simp [hw]⟩

/-- An edge consumes a seconds value written at least 10 ms before it, and takes the nearest second without one (R50). -/
theorem ppsDue_cases (s : State) :
    (∃ v w, s.time.ppsSec = some (v, w) ∧ w + 10000000 * nsUnit ≤ s.ppsInstant ∧ s.ppsDue = some v ∧ s.ppsKept = none) ∨
      ((s.time.ppsSec = none ∨ ∃ v w, s.time.ppsSec = some (v, w) ∧ s.ppsInstant < w + 10000000 * nsUnit) ∧ s.ppsDue = none ∧
        s.ppsKept = s.time.ppsSec) :=
  pendingSeconds_cases _ _ _ rfl

/-- Taking a seconds value consumes it with its parameter (R50). -/
theorem ppsTaken_fields (s : State) :
    s.ppsTaken.time = { s.time with ppsLast := some s.ppsInstant, ppsCycle := some s.time.cycle, ppsSec := s.ppsKept } ∧
      s.ppsTaken.angle = s.angle ∧ s.ppsTaken.sec = s.sec ∧ s.ppsTaken.isl = s.isl ∧ s.ppsTaken.mem = s.mem ∧
      (∀ q, q ≠ 0x0509 → s.ppsTaken.param q = s.param q) ∧ (s.ppsDue.isSome = true → s.ppsTaken.param 0x0509 = 0) := by
  obtain ⟨v, w, -, -, hd, hk⟩ | ⟨-, hd, hk⟩ := ppsDue_cases s
  · have hp : s.ppsTaken = { s.ppsSeen with time := { s.ppsSeen.time with ppsSec := none } }.setParam 0x0509 0 := if_pos (by rw [hd]; rfl)
    rw [hp, hk]
    exact ⟨rfl, rfl, rfl, rfl, rfl, fun q hq => param_setParam_other _ _ hq, fun _ => param_setParam_same _ _ (by decide)⟩
  · have hp : s.ppsTaken = s.ppsSeen := if_neg (by rw [hd]; simp)
    rw [hp, hk]
    exact ⟨rfl, rfl, rfl, rfl, rfl, fun q _ => rfl, fun h => by rw [hd] at h; simp at h⟩

/-- The offset that a valid edge shows. -/
def State.ppsOffset (s : State) : Int := (s.ppsInstant : Int) - ((s.ppsDue.getD s.ppsNearest * secUnit : Nat) : Int)

theorem ppsSample_taken (s : State) (n : Nat) :
    ∃ st, SampleTaken s.ppsTaken (s.ppsSample n) s.ppsOffset (clampIncr (s.ppsRate n)) st (s.ppsOffset.natAbs > s.param 0x0506 * nsUnit) := by
  obtain ⟨-, -, -, -, -, hpar, -⟩ := ppsTaken_fields s
  have ht := timeSample_taken s.ppsTaken s.ppsOffset 800000000 false (rate := some (s.ppsRate n)) (clampIncr_inSteering _)
  rw [hpar 0x0506 (by decide), sampleRate_some] at ht
  have he : s.ppsSample n = if (s.ppsTaken.timeSample s.ppsOffset 800000000 false (some (s.ppsRate n))).snap.auto = 2
      then (s.ppsTaken.timeSample s.ppsOffset 800000000 false (some (s.ppsRate n))).capture 2
      else s.ppsTaken.timeSample s.ppsOffset 800000000 false (some (s.ppsRate n)) := rfl
  rw [he]
  split
  · exact ⟨_, ht.of_time (capture_other _ 2).1 (capture_other _ 2).2⟩
  · exact ⟨_, ht⟩

theorem ppsSample_mem (s : State) (n : Nat) : (s.ppsSample n).mem = s.mem := by
  obtain ⟨-, -, -, -, hm, -, -⟩ := ppsTaken_fields s
  unfold State.ppsSample
  dsimp only
  split <;> simp [hm]

theorem ppsEdge_cases (s : State) (n : Nat) (absent : Bool) (hfw : s.fw = true) (hsrc : s.param 0x0501 = 2) :
    let edge := ((s.time.ltime : Int) - s.paramInt 0x050A * (nsUnit : Int)).toNat
    let near := ∃ l, s.time.ppsLast = some l ∧ (edge : Int) - l < (900000000 * nsUnit : Nat)
    let valid := 24995000 ≤ n ∧ n ≤ 25005000 ∧ absent = false ∧ ¬ near
    let big (o : Int) := o.natAbs > s.param 0x0506 * nsUnit
    (¬ valid → exec (.ppsEdge n absent) s = .next (settle s { s with time := { s.time with ppsLast := some edge, ppsCycle := some s.time.cycle } })) ∧
    (valid → ∃ t, exec (.ppsEdge n absent) s = .next t ∧
      (∀ v w, s.time.ppsSec = some (v, w) → w + 10000000 * nsUnit ≤ edge →
        t.time.offset = (edge : Int) - (v * secUnit : Nat) ∧ t.time.ppsSec = none ∧ t.param 0x0509 = 0) ∧
      (∀ c, s.time.ppsCycle = some c → c < s.time.cycle →
        t.time.refIncr = clampIncr ((n * 40 * nsUnit / (s.time.cycle - c) : Nat) : Int)) ∧
      (∀ q, q ≠ 0x0509 → t.param q = s.param q) ∧
      ((s.time.ppsSec = none ∨ ∃ v w, s.time.ppsSec = some (v, w) ∧ edge < w + 10000000 * nsUnit) →
        t.time.offset = (edge : Int) -
          ((if edge % secUnit ≥ 500000000 * nsUnit then edge / secUnit + 1 else edge / secUnit) * secUnit : Nat)) ∧
      let kept := if s.time.ppsSec.any (fun x => decide (x.2 + 10000000 * nsUnit ≤ edge)) then none else s.time.ppsSec
      (t.time.state = .acquiring ∧ big t.time.offset →
        t.time.ltime = ((s.time.ltime : Int) - t.time.offset).toNat ∧ t.time.ppsLast = some ((edge : Int) - t.time.offset).toNat ∧
        t.time.ppsSec = kept.map (fun x => (x.1, ((x.2 : Int) - t.time.offset).toNat))) ∧
      (¬ (t.time.state = .acquiring ∧ big t.time.offset) →
        t.time.ltime = s.time.ltime ∧ t.time.ppsLast = some edge ∧ t.time.ppsSec = kept) ∧
      t.time.ppsCycle = some s.time.cycle ∧
      t.time.cycle = s.time.cycle ∧ SameMem s t ∧ t.angle = s.angle ∧ t.sec = s.sec ∧ t.isl = s.isl) := by
  intro edge near valid big
  have hedge : edge = s.ppsInstant := rfl
  have hnear : near ↔ s.ppsNear = true := (ppsNear_iff s).symm
  have hvalid : valid ↔ 24995000 ≤ n ∧ n ≤ 25005000 ∧ absent = false ∧ s.ppsNear = false := by
    unfold valid
    rw [hnear, Bool.not_eq_true]
  rw [hedge, hvalid]
  have he : exec (.ppsEdge n absent) s = .next (settle s (ppsEdge n absent s)) := rfl
  refine ⟨fun h => by rw [he, ppsEdge_invalid hfw h]; rfl, fun h => ⟨_, by rw [he, ppsEdge_valid hfw hsrc h], ?_⟩⟩
  obtain ⟨st, ht⟩ := ppsSample_taken s n
  have hmem := ppsSample_mem s n
  obtain ⟨htime, hangle, hsec, hisl, -, hpar, hzero⟩ := ppsTaken_fields s
  have hparam : ∀ q, (s.ppsSample n).param q = s.ppsTaken.param q := fun q => by simp only [State.param, ht.other.params]
  generalize s.ppsSample n = t at ht hmem hparam ⊢
  have hset : ∀ q, (settle s t).param q = t.param q := fun q => rfl
  simp only [settle_time, settle_angle, settle_sec, settle_isl, hset, hparam, ht.state, ht.offset, ht.refIncr, ht.cycle, ht.ppsCycle]
  refine ⟨fun v w hv hw => ?_, fun c hc hlt => ?_, hpar, fun hnone => ?_, fun hb => ?_, fun hb => ?_, by rw [htime], by rw [htime],
    sameMem_of_mem (by simpa using hmem), ht.other.angle.trans hangle, ht.other.sec.trans hsec, ht.other.isl.trans hisl⟩
  · obtain ⟨v', w', hs, -, hd, hk⟩ | ⟨hn | ⟨v', w', hs, hlt⟩, -, -⟩ := ppsDue_cases s
    · obtain ⟨rfl, rfl⟩ : v' = v ∧ w' = w := by simpa [hs] using hv
      refine ⟨by unfold State.ppsOffset; rw [hd]; rfl, ?_, hzero (by rw [hd]; rfl)⟩
      by_cases hb : st = .acquiring ∧ s.ppsOffset.natAbs > s.param 0x0506 * nsUnit
      · obtain ⟨-, -, -, -, hpend⟩ := ht.stepped hb
        rw [hpend, htime, hk]
        rfl
      · obtain ⟨-, -, -, -, hpend, -⟩ := ht.slewed hb
        rw [hpend, htime, hk]
    · simp [hn] at hv
    · obtain ⟨rfl, rfl⟩ : v' = v ∧ w' = w := by simpa [hs] using hv
      exact absurd hw (Nat.not_le_of_lt hlt)
  · unfold State.ppsRate State.now
    rw [hc]
    simp [hlt]
  · obtain ⟨v, w, hs, hw, -⟩ | ⟨-, hd, -⟩ := ppsDue_cases s
    · obtain hn | ⟨v', w', hs', hlt⟩ := hnone
      · simp [hs] at hn
      · obtain ⟨rfl, rfl⟩ : v = v' ∧ w = w' := by simpa [hs] using hs'
        exact absurd hw (Nat.not_le_of_lt hlt)
    · unfold State.ppsOffset
      rw [hd]
      rfl
  · obtain ⟨hl, -, -, hlast, hpend⟩ := ht.stepped hb
    rw [hl, hlast, hpend, htime]
    exact ⟨rfl, rfl, rfl⟩
  · obtain ⟨hl, -, -, hlast, hpend, -⟩ := ht.slewed hb
    rw [hl, hlast, hpend, htime]
    exact ⟨rfl, rfl, rfl⟩

/-- Settles O8: each sample enters the table of R53 and then steps or slews, for a Sync and for a valid PPS edge. -/
theorem timeSamples : Obligations.TimeSamples := ⟨sync_cases, ppsEdge_cases⟩

end Sys2Proof.Machine
end

