-- ==== Sys2Proof/Proofs/ReferenceEvents.lean ====
section
/-! SUPPORT. Timers of the time source, captures of the snapshot, and the frames of gPTP (O9). -/

namespace Sys2Proof.Machine

/-! Timers of the time source (R53). -/

theorem syncReceiptTimeout_due (s : State) (hl : s.live = true) (hst : s.time.state = .locked ∨ s.time.state = .acquiring)
    (hdue : s.time.cycle ≥ s.time.lastSample + s.param 0x0504 * s.time.interval) :
    ∃ t, exec .syncReceiptTimeout s = .next t ∧ t.time = { s.time with state := .holdover, holdSince := s.time.cycle } ∧
      t.dw.irqW1c.getLsbD 8 = true ∧ t.angle = s.angle ∧ SameMem s t := by
  have hne : s.time.state ≠ .holdover := by rcases hst with h | h <;> simp [h]
  have hg : (s.live && (decide (s.time.state = .locked) || decide (s.time.state = .acquiring)) &&
      decide (s.now ≥ s.time.lastSample + s.param 0x0504 * s.time.interval)) = true := by
    simp [hl, hst, State.now, hdue]
  have he : exec .syncReceiptTimeout s =
      .next (settle s { s.setTimeState .holdover with time := { (s.setTimeState .holdover).time with holdSince := s.time.cycle } }) :=
    congrArg (fun u => Host.Outcome.next (settle s u)) (if_pos hg)
  obtain ⟨ho, ht, hi⟩ := setTimeState_other hne
  refine ⟨_, he, ?_, hi, ho.angle, sameMem_of_mem (State.setTimeState_mem s .holdover)⟩
  rw [settle_time, ht]
  rfl

theorem holdoverTime_due (s : State) (hl : s.live = true) (hst : s.time.state = .holdover)
    (hdue : s.time.cycle ≥ s.time.holdSince + s.param 0x0507 * 800000) :
    ∃ t, exec .holdoverTime s = .next t ∧ t.time = { s.time with state := .lost } ∧
      t.dw.irqW1c.getLsbD 8 = true ∧ t.angle = s.angle ∧ SameMem s t := by
  have hne : s.time.state ≠ .lost := by simp [hst]
  have hg : (s.live && decide (s.time.state = .holdover) && decide (s.now ≥ s.time.holdSince + msCycles (s.param 0x0507))) = true := by
    simp [hl, hst, State.now, msCycles, hdue]
  have he : exec .holdoverTime s = .next (settle s (s.setTimeState .lost)) :=
    congrArg (fun u => Host.Outcome.next (settle s u)) (if_pos hg)
  obtain ⟨ho, ht, hi⟩ := setTimeState_other hne
  refine ⟨_, he, ?_, hi, ho.angle, sameMem_of_mem (by simp)⟩
  rw [settle_time, ht]
  rfl

theorem syncReceiptTimeout_early (s : State) (h : s.time.cycle < s.time.lastSample + s.param 0x0504 * s.time.interval) :
    exec .syncReceiptTimeout s = .next (settle s s) := by
  have hg : ¬ (s.live && (decide (s.time.state = .locked) || decide (s.time.state = .acquiring)) &&
      decide (s.now ≥ s.time.lastSample + s.param 0x0504 * s.time.interval)) = true := by
    simp [State.now, h]
  exact congrArg (fun u => Host.Outcome.next (settle s u)) (if_neg hg)

theorem holdoverTime_early (s : State) (h : s.time.cycle < s.time.holdSince + s.param 0x0507 * 800000) :
    exec .holdoverTime s = .next (settle s s) := by
  have hg : ¬ (s.live && decide (s.time.state = .holdover) && decide (s.now ≥ s.time.holdSince + msCycles (s.param 0x0507))) = true := by
    simp [State.now, msCycles, h]
  exact congrArg (fun u => Host.Outcome.next (settle s u)) (if_neg hg)

/-! The snapshot (R46, R314). -/

theorem state_capture_again {s : State} (h : s.snap.at_ = some s.time.cycle) (c : BitVec 2) : s.capture c = s := if_pos h

/-- A capture in a cycle that has seen none yet takes every value of this cycle. -/
theorem state_capture_first {s : State} (h : s.snap.at_ ≠ some s.time.cycle) (c : BitVec 2) :
    ∃ sn : Snap, s.capture c = { s with snap := sn }.irq 9 ∧ sn.ltime = s.time.ltime ∧ sn.cycle = s.time.cycle ∧ sn.stamp = s.angleStamp ∧
      sn.tstate = s.time.state.code ∧ sn.astate = s.angle.state.code ∧ sn.cause = c ∧ sn.count = s.snap.count + 1 ∧
      sn.auto = s.snap.auto ∧ sn.secSeen = s.snap.secSeen :=
  ⟨_, if_neg h, rfl, rfl, rfl, rfl, rfl, rfl, rfl, rfl, rfl⟩

theorem capture_again (s : State) (h : s.snap.at_ = some s.time.cycle) : exec .capture s = .next (settle s s) := by
  have he : capture s = s := by
    unfold capture
    rw [state_capture_again h, ite_self]
  exact congrArg (fun u => Host.Outcome.next (settle s u)) he

theorem capture_first (s : State) (hl : s.live = true) (h : s.snap.at_ ≠ some s.time.cycle) :
    ∃ t, exec .capture s = .next t ∧ t.snap.ltime = s.time.ltime ∧ t.snap.cycle = s.time.cycle ∧
      t.snap.stamp = s.angleStamp ∧ t.snap.tstate = s.time.state.code ∧ t.snap.astate = s.angle.state.code ∧ t.snap.cause = 0 ∧
      t.snap.count = s.snap.count + 1 ∧ t.snap.auto = s.snap.auto ∧ t.dw.irqW1c.getLsbD 9 = true ∧ t.time = s.time ∧ t.angle = s.angle ∧
      SameMem s t := by
  have he : exec .capture s = .next (settle s (s.capture 0)) := congrArg (fun u => Host.Outcome.next (settle s u)) (if_pos hl)
  obtain ⟨sn, hs, hlt, hcy, hstamp, hts, has, hcause, hcount, hauto, -⟩ := state_capture_first h 0
  rw [hs] at he
  refine ⟨_, he, ?_⟩
  simp only [settle_snap, settle_time, settle_angle, settle_dw, State.irq_snap, State.irq_time, State.irq_angle, true_and]
  exact ⟨hlt, hcy, hstamp, hts, has, hcause, hcount, hauto, irq_latched _ (by decide), sameMem_of_mem (by simp)⟩

theorem snapSecondCapture_due (s : State) (hl : s.live = true) (ha : s.snap.auto = 1) (hsec : s.time.ltime / secUnit ≠ s.snap.secSeen)
    (h : s.snap.at_ ≠ some s.time.cycle) :
    ∃ t, exec .snapSecondCapture s = .next t ∧ t.snap.secSeen = s.time.ltime / secUnit ∧ t.snap.cause = 1 ∧
      t.snap.ltime = s.time.ltime ∧ t.snap.cycle = s.time.cycle ∧ t.snap.count = s.snap.count + 1 ∧ t.time = s.time := by
  let u : State := { s with snap := { s.snap with secSeen := s.time.ltime / secUnit } }
  have hg : (s.live && decide (s.snap.auto = 1) && decide (s.time.ltime / secUnit ≠ s.snap.secSeen)) = true := by simp [hl, ha, hsec]
  have he : exec .snapSecondCapture s = .next (settle s (u.capture 1)) := congrArg (fun u => Host.Outcome.next (settle s u)) (if_pos hg)
  obtain ⟨sn, hs, hlt, hcy, -, -, -, hcause, hcount, -, hseen⟩ := state_capture_first (s := u) h 1
  rw [hs] at he
  refine ⟨_, he, ?_⟩
  simp only [settle_snap, settle_time, State.irq_snap, State.irq_time]
  exact ⟨hseen, hcause, hlt, hcy, hcount, rfl⟩

/-! gPTP (R40, R47). -/

theorem ptp_setPtp_same (s : State) (p : Nat) (g : GptpPort) : SMap.get GptpPort.reset (s.setPtp p g).gptp p = g := SMap.get_set_same ..

theorem ptp_setPtp_other (s : State) {p q : Nat} (g : GptpPort) (h : q ≠ p) :
    SMap.get GptpPort.reset (s.setPtp p g).gptp q = SMap.get GptpPort.reset s.gptp q := SMap.get_set_other _ _ _ _ h

theorem syncTransmission_sends (s : State) (p : Port) (up : Nat × Nat) (hfw : s.fw = true) (hsrc : s.param 0x0501 = 1)
    (hrole : s.gptpRole p.val 2 = true) (hgm : s.time.gm ≠ none) (hup : s.time.upstream = some up)
    (hst : s.time.state = .acquiring ∨ s.time.state = .locked) :
    let stamp := ((s.time.ltime : Int) + s.paramInt (0x0560 + p.val) * (nsUnit : Int)).toNat
    ∃ t, exec (.syncTransmission p) s = .next t ∧
      (∃ f, (SMap.get GptpPort.reset t.gptp p.val).sentSync = some f ∧ f.domain.toNat = s.param 0x0502 % 256 ∧ f.stamp = stamp ∧
        f.seq = (SMap.get GptpPort.reset s.gptp p.val).syncSeq ∧ f.time = up.1 + f.residence ∧
        (s.time.incr = s.time.refIncr ∧ 0 < s.time.incr → f.residence = stamp - up.2)) ∧
      (SMap.get GptpPort.reset t.gptp p.val).syncSeq = (SMap.get GptpPort.reset s.gptp p.val).syncSeq + 1 ∧
      (∀ q, q ≠ p.val → SMap.get GptpPort.reset t.gptp q = SMap.get GptpPort.reset s.gptp q) ∧ t.time = s.time := by
  intro stamp
  obtain ⟨t, seen⟩ := up
  have hg : (s.fw && s.param 0x0501 == 1 && s.gptpRole p.val 2 && s.time.gm.isSome &&
      (decide (s.time.state = .acquiring) || decide (s.time.state = .locked))) = true := by
    simp [hfw, hsrc, hrole, hst, Option.isSome_iff_ne_none, hgm]
  let res := (stamp - seen) * s.time.refIncr / max 1 s.time.incr
  let f : FollowUp := ⟨BitVec.ofNat 8 (s.param 0x0502), (s.ptp p.val).syncSeq, stamp, t + res, res⟩
  let g : GptpPort := { s.ptp p.val with syncSeq := (s.ptp p.val).syncSeq + 1, sentSync := some f }
  have he : syncTransmission p.val s = s.setPtp p.val g := by
    unfold syncTransmission
    rw [if_pos hg, hup]
    rfl
  refine ⟨_, congrArg (fun u => Host.Outcome.next (settle s u)) he, ?_⟩
  simp only [settle_gptp, settle_time, ptp_setPtp_same]
  refine ⟨⟨f, rfl, rfl, rfl, rfl, rfl, fun ⟨hi, hpos⟩ => ?_⟩, rfl, fun q hq => ptp_setPtp_other s g hq, rfl⟩
  change (stamp - seen) * s.time.refIncr / max 1 s.time.incr = stamp - seen
  rw [← hi, Nat.max_eq_right hpos, Nat.mul_div_cancel _ hpos]

theorem pdelayReq_exchange (s : State) (p : Port) (t2 t3 : RT) (turn : Nat) (hfw : s.fw = true) (hsrc : s.param 0x0501 = 1)
    (hon : s.gptpOn p.val = true) :
    ∃ t, exec (.pdelayReq p t2 t3 turn) s = .next t ∧
      (SMap.get GptpPort.reset t.gptp p.val).lastResp = some (RT.toLt t3,
        ((s.time.ltime : Int) + s.paramInt (0x0540 + p.val) * (nsUnit : Int)).toNat + turn) ∧
      (SMap.get GptpPort.reset t.gptp p.val).pdelaySeq = (SMap.get GptpPort.reset s.gptp p.val).pdelaySeq + 1 ∧
      (∀ q, q ≠ p.val → SMap.get GptpPort.reset t.gptp q = SMap.get GptpPort.reset s.gptp q) ∧ t.time = s.time := by
  have hg : (s.fw && s.param 0x0501 == 1 && s.gptpOn p.val) = true := by simp [hfw, hsrc, hon]
  have he : ∃ num den delay, pdelayReq p.val t2 t3 turn s = s.setPtp p.val { s.ptp p.val with
      pdelaySeq := (s.ptp p.val).pdelaySeq + 1, lastResp := some (RT.toLt t3, s.portStamp 0x0540 p.val + turn)
      rateNum := num, rateDen := den, linkDelay := delay } := by
    unfold pdelayReq
    rw [if_pos hg]
    exact ⟨_, _, _, rfl⟩
  obtain ⟨num, den, delay, he⟩ := he
  refine ⟨_, congrArg (fun u => Host.Outcome.next (settle s u)) he, ?_⟩
  simp only [settle_gptp, settle_time, ptp_setPtp_same]
  exact ⟨rfl, rfl, fun q hq => ptp_setPtp_other s _ hq, rfl⟩

/-- Settles O9: the two timers of the time source, the captures of the snapshot, and what gPTP sends and keeps. -/
theorem referenceEvents : Obligations.ReferenceEvents :=
  ⟨syncReceiptTimeout_due, holdoverTime_due, syncReceiptTimeout_early, holdoverTime_early, capture_again, capture_first,
    snapSecondCapture_due, syncTransmission_sends, pdelayReq_exchange⟩

end Sys2Proof.Machine
end

