-- ==== Sys2Proof/Proofs/ShaftAngle.lean ====
section
/-! SUPPORT. Encoder edges, index pulses and stalls of the angle source (O10). -/

namespace Sys2Proof.Machine

/-! Edges of angle-indexed gate lists (R62 to R64). -/

/-- The angle source without its placed edges and guard bands. -/
def AngleUnit.bare (a : AngleUnit) : AngleUnit := { a with placed := [], guards := [] }

/-- The angle source differs in placed edges and guard bands at most; time and parameters are as before. -/
structure EdgesOnly (s t : State) : Prop where
  time : t.time = s.time
  params : t.params = s.params
  angle : t.angle.bare = s.angle.bare

theorem GatesOnly.edgesOnly {s t : State} (h : GatesOnly s t) : EdgesOnly s t := ⟨h.time, h.off.params, by rw [h.off.angle]⟩

namespace EdgesOnly
variable {s t u : State}

theorem refl (s : State) : EdgesOnly s s := ⟨rfl, rfl, rfl⟩

theorem trans (h : EdgesOnly s t) (k : EdgesOnly t u) : EdgesOnly s u :=
  ⟨k.time.trans h.time, k.params.trans h.params, k.angle.trans h.angle⟩

theorem param (h : EdgesOnly s t) (pid : Nat) : t.param pid = s.param pid := by simp only [State.param, h.params]

theorem state (h : EdgesOnly s t) : t.angle.state = s.angle.state := by
  have hb := congrArg AngleUnit.state h.angle
  exact hb

end EdgesOnly

/-- An edge that fires moves gates and guard bands, and stays placed or not as it is. -/
theorem fireEdge_edgesOnly (s : State) (e : PlacedEdge) : EdgesOnly s (s.fireEdge e) ∧ (s.fireEdge e).angle.placed = s.angle.placed := by
  unfold State.fireEdge
  split
  · exact ⟨⟨rfl, rfl, rfl⟩, rfl⟩
  · extract_lets v _ _ w x
    have hw : EdgesOnly s w := ⟨rfl, rfl, rfl⟩
    have hx : GatesOnly w x := (GatesOnly.refl w).applyGates ..
    split
    · have hc := hx.countCycle e.port
      exact ⟨hw.trans hc.edgesOnly, (congrArg AngleUnit.placed hc.off.angle :)⟩
    · exact ⟨hw.trans hx.edgesOnly, (congrArg AngleUnit.placed hx.off.angle :)⟩

/-- The placed edges that are due fire and are gone. -/
theorem fireDue_edgesOnly (s : State) (p : Nat → Bool) :
    EdgesOnly s (s.fireDue p) ∧
      (s.fireDue p).angle.placed = s.angle.placed.filter (fun e => !(p e.port && decide (e.fire ≤ s.time.cycle))) := by
  unfold State.fireDue
  extract_lets due _ u
  have hu : EdgesOnly s u ∧ u.angle.placed = u.angle.placed := ⟨⟨rfl, rfl, rfl⟩, rfl⟩
  exact foldl_keeps (P := fun t => EdgesOnly s t ∧ t.angle.placed = u.angle.placed) hu
    (fun t e ht => ⟨ht.1.trans (fireEdge_edgesOnly t e).1, (fireEdge_edgesOnly t e).2.trans ht.2⟩) due

theorem lateEdges_edgesOnly (s : State) : EdgesOnly s s.lateEdges := by
  unfold State.lateEdges
  extract_lets fired late u
  have hu : EdgesOnly s u :=
    foldl_keeps (s := fired) (f := fun t (e : PlacedEdge) => t.gateErr e.port 0x0214) (fireDue_edgesOnly s _).1 (fun t e ht => ht.trans ⟨rfl, rfl, rfl⟩) late
  exact ⟨hu.time, hu.params, hu.angle⟩

theorem placePort_edgesOnly (s : State) (p : Nat) (here : Bool) : EdgesOnly s (s.placePort p here) := by
  unfold State.placePort
  extract_lets g isAngle listed
  split
  · exact .refl s
  · exact ⟨rfl, rfl, rfl⟩

/-! States of the angle source (R65). -/

/-- A change of the state of the angle source moves edges, bands and gates beside it. -/
theorem setAngleState_edgesOnly (s : State) (st : AngleState) :
    EdgesOnly { s with angle := { s.angle with state := st } } (s.setAngleState st) := by
  unfold State.setAngleState
  split
  · next h => exact ⟨rfl, rfl, by rw [← h]⟩
  · extract_lets keep _ u v
    have hv : EdgesOnly { s with angle := { s.angle with state := st } } v := ⟨rfl, rfl, rfl⟩
    refine hv.trans (GatesOnly.edgesOnly (foldN_keeps (GatesOnly.refl v) (fun w p hw => ?_)))
    split
    · split
      · exact hw
      · split
        · exact hw.seatGates ..
        · exact hw.refreshGates ..
    · exact hw

/-! One count (R59, R60). -/

/-- The angle source after one count at the cycle `now`, before its state follows. -/
def State.counted (s : State) (fwd z : Bool) : AngleUnit :=
  let u := s.angleUnit
  let a := s.angle
  let d : Int := if fwd then u else -(u : Int)
  let tk := s.time.ltime - s.param 0x0517 * nominalIncr
  let full : Int := (a.turn.toNat * 65536 + a.angle.toNat : Nat) + d
  let full := (full % (2 ^ 48 : Nat)).toNat
  let turned := full / 65536 ≠ a.turn.toNat
  let before := if a.rev = !fwd then a.hist else []
  let a := { a with turn := BitVec.ofNat 32 (full / 65536), angle := BitVec.ofNat 16 full, rev := !fwd, lastEdge := s.now,
                    quadTurn := if turned then 0 else a.quadTurn }
  let take := z && !a.zTaken
  let a := if take then
      let off := s.param 0x0512
      let diff := sext 16 (off + 65536 - full % 65536)
      let full' := (((full : Int) + diff) % (2 ^ 48 : Nat)).toNat
      let mism := diff.natAbs > s.param 0x0513 * u
      { a with angle := BitVec.ofNat 16 full', turn := BitVec.ofNat 32 (full' / 65536),
               mismatch := if mism then satInc a.mismatch else a.mismatch, indexed := true,
               quadTurn := if a.state = .unindexed || a.state = .lost then 0 else a.quadTurn }
    else a
  { a with zTaken := z, hist := ((a.angle.toNat, tk) :: before).take 65 }

/-- What one count of direction `fwd` makes of an angle source: the count is `u` units and falls in the cycle `now`, and `idx` is the index
offset (R59, R60). Placed edges, guard bands, the state and the record of edges are left out. -/
def OneCount (now u idx : Nat) (fwd z : Bool) (a b : AngleUnit) : Prop :=
  b.encA = a.encA ∧ b.encB = a.encB ∧ b.rev = !fwd ∧ b.lastEdge = now ∧ b.zTaken = z ∧ b.quadErrs = a.quadErrs ∧
    (z = false ∨ a.zTaken = true →
      ((b.turn.toNat * 65536 + b.angle.toNat : Nat) : Int) =
          (((a.turn.toNat * 65536 + a.angle.toNat : Nat) : Int) + (if fwd then (u : Int) else -(u : Int))) % (2 ^ 48 : Nat) ∧
        b.mismatch = a.mismatch ∧ b.indexed = a.indexed) ∧
    (z = true ∧ a.zTaken = false → b.angle = BitVec.ofNat 16 idx ∧ b.indexed = true)

/-- Turn and angle, 32 and 16 bits, hold a value below 2⁴⁸. -/
theorem turn_angle_split {n : Nat} (h : n < 2 ^ 48) :
    (BitVec.ofNat 32 (n / 65536)).toNat * 65536 + (BitVec.ofNat 16 n).toNat = n := by
  simp only [BitVec.toNat_ofNat]
  omega

/-- Moving an angle by the shorter way to the index offset leads to the index offset (R60). -/
theorem index_corrected (full idx : Nat) :
    BitVec.ofNat 16 (((full : Int) + sext 16 (idx + 65536 - full % 65536)) % (2 ^ 48 : Nat)).toNat = BitVec.ofNat 16 idx := by
  apply BitVec.eq_of_toNat_eq
  simp only [BitVec.toNat_ofNat]
  have hs : sext 16 (idx + 65536 - full % 65536) = ((idx + 65536 - full % 65536) % 65536 : Nat) ∨
      sext 16 (idx + 65536 - full % 65536) = ((idx + 65536 - full % 65536) % 65536 : Nat) - 65536 := by
    unfold sext
    split
    · exact .inr rfl
    · exact .inl rfl
  omega

theorem counted_oneCount (s : State) (fwd z : Bool) :
    OneCount s.time.cycle s.angleUnit (s.param 0x0512) fwd z s.angle (s.counted fwd z) ∧ (s.counted fwd z).state = s.angle.state := by
  have hsplit := turn_angle_split (n := ((((s.angle.turn.toNat * 65536 + s.angle.angle.toNat : Nat) : Int) +
    (if fwd then (s.angleUnit : Int) else -(s.angleUnit : Int))) % (2 ^ 48 : Nat)).toNat) (by omega)
  unfold State.counted
  extract_lets u a d tk sum full turned before moved take off diff corrected mism indexed
  change (BitVec.ofNat 32 (full / 65536)).toNat * 65536 + (BitVec.ofNat 16 full).toNat = full at hsplit
  by_cases ht : take = true
  · have hi : indexed = _ := if_pos ht
    have htaken : z = true ∧ s.angle.zTaken = false := by simpa [take, moved, a] using ht
    rw [hi]
    refine ⟨⟨rfl, rfl, rfl, rfl, rfl, rfl, fun h => ?_, fun _ => ⟨index_corrected full off, rfl⟩⟩, rfl⟩
    rcases h with h | h <;> simp [h] at htaken
  · have hi : indexed = moved := if_neg ht
    have htaken : ¬ (z = true ∧ s.angle.zTaken = false) := by simpa [take, moved, a] using ht
    rw [hi]
    refine ⟨⟨rfl, rfl, rfl, rfl, rfl, rfl, fun _ => ⟨?_, rfl, rfl⟩, fun h => absurd h htaken⟩, rfl⟩
    rw [hsplit]
    unfold full sum
    exact Int.toNat_of_nonneg (Int.emod_nonneg _ (by decide))

/-- The pending angle-indexed lists whose earliest local time has come are due (R148). -/
def State.dueLists (s : State) : State :=
  foldN 24 (fun s p => let g := s.gate p
    match g.pend with
    | some h => if h.angle && s.time.ltime ≥ g.switchAt then s.setGate p { g with due := true } else s
    | none => s) s

theorem dueLists_gatesOnly (s : State) : GatesOnly s s.dueLists := by
  refine foldN_keeps (GatesOnly.refl s) (fun v p hv => ?_)
  dsimp only
  split
  · split
    · exact hv.setGate ..
    · exact hv
  · exact hv

/-- After a count the source runs or is stalled by its speed, once it is indexed; `take`: the count took an index (R65). -/
def State.followSpeed (s : State) (take : Bool) : State :=
  let follow := if s.fastEnough then AngleState.running else .stalled
  match s.angle.state with
  | .unindexed => if take then s.setAngleState follow else s
  | .lost => if take then s.setAngleState follow else s
  | .running => s.setAngleState follow
  | .stalled => s.setAngleState follow
  | .off => s

theorem followSpeed_edgesOnly (s : State) (take : Bool) :
    ∃ st, EdgesOnly { s with angle := { s.angle with state := st } } (s.followSpeed take) ∧
      (take = true → s.angle.state = .unindexed ∨ s.angle.state = .lost → st = .running ∨ st = .stalled) := by
  unfold State.followSpeed
  extract_lets _ follow
  have hfollow : follow = .running ∨ follow = .stalled := by
    unfold follow
    split
    · exact .inl rfl
    · exact .inr rfl
  have hmove : ∃ st, EdgesOnly { s with angle := { s.angle with state := st } } (s.setAngleState follow) ∧
      (take = true → s.angle.state = .unindexed ∨ s.angle.state = .lost → st = .running ∨ st = .stalled) :=
    ⟨follow, setAngleState_edgesOnly s follow, fun _ _ => hfollow⟩
  have hstay : take = false ∨ s.angle.state = .off → ∃ st, EdgesOnly { s with angle := { s.angle with state := st } } s ∧
      (take = true → s.angle.state = .unindexed ∨ s.angle.state = .lost → st = .running ∨ st = .stalled) :=
    fun h => ⟨s.angle.state, .refl s, fun ht hs => by rcases h with h | h <;> simp_all⟩
  split
  · split
    · exact hmove
    · next hn => exact hstay (.inl (by simpa using hn))
  · split
    · exact hmove
    · next hn => exact hstay (.inl (by simpa using hn))
  · exact hmove
  · exact hmove
  · next ho => exact hstay (.inr ho)

/-- A count moves the unit, makes lists due at a turn boundary, follows the speed, and captures the snapshot at an index. -/
theorem countOne_stages (s : State) (fwd z : Bool) :
    ∃ boundary : Bool, s.countOne fwd z =
      let u : State := { s with angle := s.counted fwd z }
      let v := (if boundary then u.dueLists else u).followSpeed (z && !s.angle.zTaken)
      if (z && !s.angle.zTaken) && v.snap.auto = 3 then v.capture 3 else v := ⟨_, rfl⟩

/-- A count leaves the counted unit in the state that follows from it. -/
theorem countOne_edgesOnly (s : State) (fwd z : Bool) :
    ∃ st, EdgesOnly { s with angle := { s.counted fwd z with state := st } } (s.countOne fwd z) ∧
      (z = true ∧ s.angle.zTaken = false → s.angle.state = .unindexed ∨ s.angle.state = .lost → st = .running ∨ st = .stalled) := by
  obtain ⟨boundary, hstages⟩ := countOne_stages s fwd z
  have hstate := (counted_oneCount s fwd z).2
  rw [hstages]
  extract_lets _ u v
  have hdue : GatesOnly u (if boundary then u.dueLists else u) := by
    split
    · exact dueLists_gatesOnly u
    · exact .refl u
  obtain ⟨st, hv, hst⟩ := followSpeed_edgesOnly (if boundary then u.dueLists else u) (z && !s.angle.zTaken)
  rw [hdue.off.angle] at hst hv
  have huv : EdgesOnly { u with angle := { u.angle with state := st } } v := ⟨hv.time.trans hdue.time, hv.params.trans hdue.off.params, hv.angle⟩
  refine ⟨st, ?_, fun ⟨hz, ht⟩ hs => hst (by simp [hz, ht]) (hstate ▸ hs)⟩
  split
  · obtain ⟨ho, ht⟩ := capture_other v 3
    exact huv.trans ⟨ht, ho.params, by rw [ho.angle]⟩
  · exact huv

/-- Placed edges, guard bands and state do not bear on what a count makes of the unit. -/
theorem OneCount.of_bare {now u idx : Nat} {fwd z : Bool} {a b a' b' : AngleUnit} {st : AngleState} (h : OneCount now u idx fwd z a b)
    (ha : a.bare = a'.bare) (hb : b'.bare = { b with state := st }.bare) : OneCount now u idx fwd z a' b' := by
  have hbare : OneCount now u idx fwd z a.bare { b with state := st }.bare := h
  rw [ha, ← hb] at hbare
  exact hbare

/-! COUNT_EDGE (R59, R60, R64, R65). -/

/-- The levels of the encoder are followed; a pulse of ENC_Z goes on while it stays high. -/
def State.followLevels (s : State) (a b z : Bool) : State :=
  { s with angle := { s.angle with encA := a, encB := b, zTaken := s.angle.zTaken && z } }

/-- The direction that a change to the levels `a`, `b` gives (R59, R64). -/
def State.countsUp (s : State) (a b : Bool) : Bool := (if a != s.angle.encA then a != b else a == b) != (s.param 0x0518 == 1)

/-- The placed edges at the angle of the count fire with it, while the source runs (R63). -/
def State.fireHere (s : State) : State :=
  if s.angle.state = .running then (foldN 24 (fun s p => s.placePort p true) s).fireDue (fun _ => true) else s

theorem fireHere_edgesOnly (s : State) : EdgesOnly s s.fireHere := by
  unfold State.fireHere
  split
  · have hp : EdgesOnly s (foldN 24 (fun s p => s.placePort p true) s) :=
      foldN_keeps (EdgesOnly.refl s) (fun v p hv => hv.trans (placePort_edgesOnly v p true))
    exact hp.trans (fireDue_edgesOnly _ _).1
  · exact .refl s

/-- What an accepted change does: nothing is counted while the source is Off; two changes in one cycle are a quadrature error. -/
theorem countEdge_eq (s : State) (a b z : Bool) :
    countEdge a b z s =
      let u := s.followLevels a b z
      if !s.live || s.angle.state = .off then { u with angle := { u.angle with zTaken := false } }
      else if (a != s.angle.encA) && (b != s.angle.encB) then
        let v : State := { u with angle := { u.angle with quadErrs := satInc s.angle.quadErrs, quadTurn := s.angle.quadTurn + 1 } }
        if s.angle.quadTurn + 1 ≥ 16 && s.angle.state ≠ .lost then
          { v with angle := { v.angle with indexed := false, hist := [] } }.setAngleState .lost
        else v
      else if !(a != s.angle.encA) && !(b != s.angle.encB) then u
      else (u.lateEdges.countOne (s.countsUp a b) z).fireHere := rfl

/-- A single change counts once: the unit moves, and the state follows. -/
theorem countEdge_single {s : State} {a b z : Bool} (hl : s.live = true) (hoff : s.angle.state ≠ .off)
    (h : (a != s.angle.encA) = !(b != s.angle.encB)) :
    ∃ st, OneCount s.time.cycle s.angleUnit (s.param 0x0512) (s.countsUp a b) z (s.followLevels a b z).angle (countEdge a b z s).angle ∧
      (countEdge a b z s).time = s.time ∧ (countEdge a b z s).angle.state = st ∧
      (z = true ∧ s.angle.zTaken = false → s.angle.state = .unindexed ∨ s.angle.state = .lost → st = .running ∨ st = .stalled) := by
  have he : countEdge a b z s = ((s.followLevels a b z).lateEdges.countOne (s.countsUp a b) z).fireHere := by
    rw [countEdge_eq]
    cases ha : (a != s.angle.encA) <;> cases hb : (b != s.angle.encB) <;> simp_all
  have hlate : EdgesOnly (s.followLevels a b z) (s.followLevels a b z).lateEdges := lateEdges_edgesOnly _
  rw [he]
  generalize (s.followLevels a b z).lateEdges = v at hlate ⊢
  obtain ⟨st, hcount, hst⟩ := countOne_edgesOnly v (s.countsUp a b) z
  have ht := hcount.trans (fireHere_edgesOnly _)
  generalize (v.countOne (s.countsUp a b) z).fireHere = t at ht ⊢
  have hone := (counted_oneCount v (s.countsUp a b) z).1
  have hunit : v.angleUnit = s.angleUnit := by unfold State.angleUnit; rw [hlate.param]; rfl
  have hz : v.angle.zTaken = (s.angle.zTaken && z) := (congrArg AngleUnit.zTaken hlate.angle :)
  rw [hlate.time, hunit, hlate.param] at hone
  refine ⟨st, hone.of_bare hlate.angle ht.angle, ht.time.trans hlate.time, ht.state, fun ⟨hz1, hz0⟩ hs => hst ⟨hz1, ?_⟩ ?_⟩
  · simp [hz, hz0]
  · rwa [hlate.state]

/-- One accepted change moves the angle by one count, or to the index offset (R59, R60, R64). -/
theorem countEdge_moves (s : State) (a b z : Bool) (hl : s.live = true) (hoff : s.angle.state ≠ .off)
    (hone : (a = !s.angle.encA ∧ b = s.angle.encB) ∨ (a = s.angle.encA ∧ b = !s.angle.encB)) :
    let adv := if a = !s.angle.encA then (if a ≠ b then true else false) else (if a = b then true else false)
    let fwd := if s.param 0x0518 = 1 then !adv else adv
    let u : Int := s.angleUnit
    let full := (((s.angle.turn.toNat * 65536 + s.angle.angle.toNat : Nat) : Int) + (if fwd then u else -u)) % (2 ^ 48 : Nat)
    ∃ t, exec (.countEdge a b z) s = .next t ∧ t.angle.encA = a ∧ t.angle.encB = b ∧ t.angle.rev = !fwd ∧
      t.angle.lastEdge = s.time.cycle ∧ t.angle.zTaken = z ∧ t.angle.quadErrs = s.angle.quadErrs ∧
      (z = false ∨ s.angle.zTaken = true →
        ((t.angle.turn.toNat * 65536 + t.angle.angle.toNat : Nat) : Int) = full ∧ t.angle.mismatch = s.angle.mismatch ∧
        t.angle.indexed = s.angle.indexed) ∧
      (z = true ∧ s.angle.zTaken = false →
        t.angle.angle = BitVec.ofNat 16 (s.param 0x0512) ∧ t.angle.indexed = true ∧
        (s.angle.state = .unindexed ∨ s.angle.state = .lost → t.angle.state = .running ∨ t.angle.state = .stalled)) ∧
      t.time = s.time ∧ SameMem s t := by
  intro adv fwd u full
  have hfwd : s.countsUp a b = fwd := by
    have hadv : (if a != s.angle.encA then a != b else a == b) = adv := by
      unfold adv
      cases a <;> cases b <;> cases s.angle.encA <;> rfl
    unfold State.countsUp fwd
    rw [hadv]
    by_cases hp : s.param 0x0518 = 1
    · simp [hp]
    · simp [hp, beq_eq_false_iff_ne.mpr hp]
  have hsingle : (a != s.angle.encA) = !(b != s.angle.encB) := by
    rcases hone with ⟨ha, hb⟩ | ⟨ha, hb⟩ <;> simp [ha, hb]
  obtain ⟨st, hcount, htime, hstate, hst⟩ := countEdge_single (z := z) hl hoff hsingle
  rw [hfwd] at hcount
  obtain ⟨hA, hB, hrev, hlast, hz, hquad, hfree, hindex⟩ := hcount
  have he : exec (.countEdge a b z) s = .next (settle s (countEdge a b z s)) := rfl
  refine ⟨_, he, ?_⟩
  simp only [settle_angle, settle_time]
  refine ⟨hA, hB, hrev, hlast, hz, hquad, fun h => hfree ?_, fun h => ?_, htime, sameMem_of_mem (by simp)⟩
  · rcases h with h | h
    · exact .inl h
    · cases z
      · exact .inl rfl
      · exact .inr (by simp [State.followLevels, h])
  · obtain ⟨hangle, hindexed⟩ := hindex ⟨h.1, by simp [State.followLevels, h.2]⟩
    exact ⟨hangle, hindexed, fun hs => hstate ▸ hst h hs⟩

/-- Both levels changing in one cycle count a quadrature error, and the sixteenth of a turn loses the source (R59). -/
theorem countEdge_quadrature (s : State) (hl : s.live = true) (hoff : s.angle.state ≠ .off) :
    ∃ t, exec (.countEdge (!s.angle.encA) (!s.angle.encB) false) s = .next t ∧ t.angle.angle = s.angle.angle ∧ t.angle.turn = s.angle.turn ∧
      t.angle.quadErrs = satInc s.angle.quadErrs ∧ t.angle.quadTurn = s.angle.quadTurn + 1 ∧
      (s.angle.quadTurn + 1 ≥ 16 → t.angle.state = .lost) ∧ (s.angle.quadTurn + 1 < 16 → t.angle.state = s.angle.state) ∧ t.time = s.time := by
  let v : State := { s with angle := { s.angle with
    encA := !s.angle.encA, encB := !s.angle.encB, zTaken := s.angle.zTaken && false, quadErrs := satInc s.angle.quadErrs
    quadTurn := s.angle.quadTurn + 1 } }
  have he : countEdge (!s.angle.encA) (!s.angle.encB) false s =
      if s.angle.quadTurn + 1 ≥ 16 && s.angle.state ≠ .lost then
        { v with angle := { v.angle with indexed := false, hist := [] } }.setAngleState .lost
      else v := by
    rw [countEdge_eq]
    simp [hl, hoff, v, State.followLevels]
  have hx : exec (.countEdge (!s.angle.encA) (!s.angle.encB) false) s =
      .next (settle s (countEdge (!s.angle.encA) (!s.angle.encB) false s)) := rfl
  refine ⟨_, hx, ?_⟩
  rw [he]
  simp only [settle_angle, settle_time]
  split
  · next hlost =>
    have h16 : 16 ≤ s.angle.quadTurn + 1 := of_decide_eq_true (Bool.and_eq_true_iff.mp hlost).1
    have hs := setAngleState_edgesOnly { v with angle := { v.angle with indexed := false, hist := [] } } .lost
    generalize ({ v with angle := { v.angle with indexed := false, hist := [] } } : State).setAngleState .lost = t at hs ⊢
    exact ⟨(congrArg AngleUnit.angle hs.angle :), (congrArg AngleUnit.turn hs.angle :), (congrArg AngleUnit.quadErrs hs.angle :),
      (congrArg AngleUnit.quadTurn hs.angle :), fun _ => hs.state, fun hlt => absurd h16 (Nat.not_le_of_lt hlt), hs.time⟩
  · next hkept =>
    refine ⟨rfl, rfl, rfl, rfl, fun h16 => ?_, fun _ => rfl, rfl⟩
    by_contra hne
    exact hkept (Bool.and_eq_true_iff.mpr ⟨decide_eq_true h16, decide_eq_true hne⟩)

/-- While the source is Off the levels are followed and nothing counts (R65). -/
theorem countEdge_off (s : State) (a b z : Bool) (hoff : s.angle.state = .off) :
    exec (.countEdge a b z) s = .next (settle s { s with angle := { s.angle with encA := a, encB := b, zTaken := false } }) := by
  have he : countEdge a b z s = { s with angle := { s.angle with encA := a, encB := b, zTaken := false } } := by
    rw [countEdge_eq]
    simp [hoff, State.followLevels]
  exact congrArg (fun t => Host.Outcome.next (settle s t)) he

/-- Without count edges for the stall time a running source stalls (R65). -/
theorem stallTime_due (s : State) (hl : s.live = true) (hoff : s.angle.state ≠ .off)
    (hdue : s.time.cycle ≥ s.angle.lastEdge + s.param 0x0516 * 800) :
    ∃ t, exec .stallTime s = .next t ∧ (t.angle.state = if s.angle.state = .running then .stalled else s.angle.state) ∧
      t.angle.angle = s.angle.angle ∧ t.angle.turn = s.angle.turn ∧ t.time = s.time := by
  let v : State := { s with angle := { s.angle with hist := [] } }
  have he : stallTime s = if s.angle.state = .running then v.setAngleState .stalled else v := by
    have hg : (s.live && decide (s.angle.state ≠ .off) && decide (s.now ≥ s.angle.lastEdge + usCycles (s.param 0x0516))) = true := by
      simp [hl, hoff, State.now, usCycles, hdue]
    unfold stallTime
    exact if_pos hg
  have hx : exec .stallTime s = .next (settle s (stallTime s)) := rfl
  refine ⟨_, hx, ?_⟩
  rw [he]
  simp only [settle_angle, settle_time]
  split
  · have hs := setAngleState_edgesOnly v .stalled
    generalize v.setAngleState .stalled = t at hs ⊢
    exact ⟨hs.state, (congrArg AngleUnit.angle hs.angle :), (congrArg AngleUnit.turn hs.angle :), hs.time⟩
  · exact ⟨rfl, rfl, rfl, rfl⟩

/-- The edges of a port that are due fire, and every other one stays placed (R62, R63). -/
theorem angleGateEdge_fires (s : State) (p : Port) (hl : s.live = true) :
    ∃ t, exec (.angleGateEdge p) s = .next t ∧
      t.angle.placed = s.angle.placed.filter (fun e => !(e.port == p.val && decide (e.fire ≤ s.time.cycle))) ∧
      t.angle.angle = s.angle.angle ∧ t.angle.state = s.angle.state ∧ t.time = s.time := by
  have he : angleGateEdge p.val s = s.fireDue (fun q => q == p.val) := if_pos hl
  obtain ⟨hs, hplaced⟩ := fireDue_edgesOnly s (fun q => q == p.val)
  refine ⟨_, congrArg (fun t => Host.Outcome.next (settle s t)) he, ?_⟩
  simp only [settle_angle, settle_time]
  exact ⟨hplaced, (congrArg AngleUnit.angle hs.angle :), hs.state, hs.time⟩

/-- Settles O10: one count, the quadrature error of two changes at once, the levels while the source is Off, the stall time, and the placed
edges of a port. -/
theorem shaftAngle : Obligations.ShaftAngle :=
  ⟨countEdge_moves, countEdge_quadrature, countEdge_off, stallTime_due, angleGateEdge_fires⟩

end Sys2Proof.Machine
end

