-- ==== Sys2Proof/Proofs/EmptyQueueTick.lean ====
section
/-! SUPPORT. A cycle of a device with nothing under way (O2). -/

namespace Sys2Proof.Machine

/-! What one cycle leaves of a device with nothing under way. -/

/-- Commands in the queue, parameters, memory, the vault, the update, the island, the lockstep pair, the redundant pair and the time of `t` are
those of `s`. -/
structure CycleKept (s t : State) : Prop where
  pending : t.pending = s.pending := by rfl
  params : t.params = s.params := by rfl
  mem : t.mem = s.mem := by rfl
  sec : t.sec = s.sec := by rfl
  upd : t.upd = s.upd := by rfl
  isl : t.isl = s.isl := by rfl
  ls : t.ls = s.ls := by rfl
  pair : t.pair = s.pair := by rfl
  time : t.time = s.time := by rfl

namespace CycleKept
variable {s t u : State}

theorem refl (s : State) : CycleKept s s where

theorem trans (h : CycleKept s t) (k : CycleKept t u) : CycleKept s u where
  pending := k.pending.trans h.pending
  params := k.params.trans h.params
  mem := k.mem.trans h.mem
  sec := k.sec.trans h.sec
  upd := k.upd.trans h.upd
  isl := k.isl.trans h.isl
  ls := k.ls.trans h.ls
  pair := k.pair.trans h.pair
  time := k.time.trans h.time

end CycleKept

theorem setCls_kept (s : State) (o c : Nat) (q : ClassQ) : CycleKept s (s.setCls o c q) where

theorem creditCycle_kept (s : State) (o c : Nat) : CycleKept s (s.creditCycle o c) := by
  unfold State.creditCycle
  dsimp only
  split
  · split
    · exact setCls_kept ..
    · exact .refl s
  split
  · exact setCls_kept ..
  split
  · exact setCls_kept ..
  split
  · split
    · exact setCls_kept ..
    · exact setCls_kept ..
  · exact .refl s

theorem creditTick_kept (s : State) : CycleKept s s.creditTick := by
  unfold State.creditTick
  refine foldl_keeps (CycleKept.refl s) (fun v k hv => ?_) _
  split
  · exact hv.trans (creditCycle_kept ..)
  · exact hv

theorem parForget_kept (s : State) : CycleKept s s.parForget := by
  unfold State.parForget
  split
  · exact .refl s
  · exact {}

theorem correctTx_kept (s : State) (o : Nat) (x : TxFrame) (l : Nat) : CycleKept s (s.correctTx o x l) := by
  unfold State.correctTx
  split
  · exact .refl s
  · exact {}

theorem settleCosts_kept (s : State) (o : Nat) : CycleKept s (s.settleCosts o) := by
  unfold State.settleCosts
  dsimp only
  split
  · exact .refl s
  · exact foldl_keeps (CycleKept.trans (t := s) (.refl s) {}) (fun v x hv => hv.trans (correctTx_kept ..)) _

theorem canTick_kept (s : State) : CycleKept s s.canTick := by
  unfold State.canTick
  refine foldl_keeps (CycleKept.refl s) (fun v e hv => ?_) _
  split
  · exact hv.trans {}
  · exact hv

theorem sendAnnounces_kept (s : State) : CycleKept s s.sendAnnounces := by
  unfold State.sendAnnounces
  split
  · split
    · exact .refl s
    · refine foldN_keeps (CycleKept.refl s) (fun v p hv => ?_)
      split
      · exact hv.trans {}
      · exact hv
  · exact .refl s

/-! Local need over time (R319, R327). -/

/-- `t` is a later state that differs in nothing local need looks at. -/
structure NeedKept (s t : State) : Prop where
  pw : t.pw = s.pw
  nm : t.nm = s.nm
  params : t.params = s.params
  upd : t.upd = s.upd
  now : s.now ≤ t.now

namespace NeedKept
variable {s t : State}

theorem param (h : NeedKept s t) (pid : Nat) : t.param pid = s.param pid := by simp only [State.param, h.params]

/-- A wake line that no longer ignores its input stays so as time passes. -/
theorem lineDeaf (h : NeedKept s t) {w : Nat} (hw : s.lineDeaf w = false) : t.lineDeaf w = false := by
  unfold State.lineDeaf State.live at *
  rw [h.pw, h.nm, h.param]
  rw [Bool.or_eq_false_iff, Bool.and_eq_false_iff] at hw ⊢
  obtain ⟨hpulse, hend⟩ := hw
  refine ⟨hpulse, hend.imp id fun hlate => ?_⟩
  generalize s.nm.pulseEnd.find? _ = last at hlate ⊢
  cases last with
  | none => rfl
  | some e =>
    have hle := h.now
    simp only [decide_eq_false_iff_not, Nat.not_lt] at hlate ⊢
    omega

theorem wakeLevel (h : NeedKept s t) (hw : s.wakeLevel = true) : t.wakeLevel = true := by
  unfold State.wakeLevel State.paramBit at *
  rw [List.any_eq_true] at hw ⊢
  obtain ⟨w, hmem, hset⟩ := hw
  simp only [Bool.and_eq_true, Bool.not_eq_true'] at hset
  obtain ⟨⟨hbit, hline⟩, hdeaf⟩ := hset
  exact ⟨w, hmem, by simp [h.param, h.nm, hbit, hline, h.lineDeaf hdeaf]⟩

/-- Local need does not end by time alone. -/
theorem localNeed (h : NeedKept s t) (hn : s.localNeed = true) : t.localNeed = true := by
  unfold State.localNeed State.needMask at *
  rw [h.nm, h.upd]
  by_cases hw : s.wakeLevel = true
  · simp [h.wakeLevel hw]
  · simp only [hw] at hn
    by_cases ht : t.wakeLevel = true
    · simp [ht]
    · simpa [ht] using hn

end NeedKept

/-! One cycle with nothing under way. -/

/-- `t` comes in the cycle of `v`, with nothing under way, and nothing that `CycleKept` names has changed since `v`. -/
structure QuietCycle (v t : State) : Prop where
  calm : CommitCalm v v.time.cycle t
  kept : CycleKept v t

namespace QuietCycle
variable {v t : State}

theorem creditTick (h : QuietCycle v t) : QuietCycle v t.creditTick := ⟨h.calm.creditTick, h.kept.trans (creditTick_kept t)⟩

theorem ingressTick (h : QuietCycle v t) : QuietCycle v t.ingressTick := by
  have hids : (List.range 24).flatMap (fun p => (t.sw.arriving.filter (fun a => a.port.val = p)).map (fun a => a.fid)) = [] := by
    simp [h.calm.arriving]
  have he : t.ingressTick = t.parForget := by
    unfold State.ingressTick
    rw [hids]
    simp [h.calm.arriving]
  exact ⟨h.calm.ingressTick, he ▸ h.kept.trans (parForget_kept t)⟩

theorem svcTick (h : QuietCycle v t) : QuietCycle v t.svcTick := by
  refine ⟨h.calm.svcTick, h.kept.trans ?_⟩
  unfold State.svcTick
  rw [h.calm.svcIn]
  exact {}

theorem deliverDue (h : QuietCycle v t) : QuietCycle v t.deliverDue := by
  refine ⟨h.calm.deliverDue, h.kept.trans ?_⟩
  unfold State.deliverDue
  rw [h.calm.out]
  exact {}

theorem macPort (h : QuietCycle v t) (o : Nat) : QuietCycle v (t.macPort o) := by
  have hs := h.calm.settleCosts o
  have hp : (t.settleCosts o).promote o = t.settleCosts o := by simp [State.promote, hs.egress o]
  have he : t.macPort o = t.settleCosts o := by
    unfold State.macPort
    dsimp only
    rw [hp, (hs.egress o).1]
  exact ⟨h.calm.macPort o, he ▸ h.kept.trans (settleCosts_kept t o)⟩

theorem macTick (h : QuietCycle v t) : QuietCycle v t.macTick := foldl_keeps h (fun _ o hw => hw.macPort o) _

theorem scrubBack (h : QuietCycle v t) : QuietCycle v t.scrubBack := by
  refine ⟨h.calm.scrubBack, h.kept.trans ?_⟩
  unfold State.scrubBack
  rw [h.calm.scrubHold]
  exact {}

theorem canTick (h : QuietCycle v t) : QuietCycle v t.canTick := ⟨h.calm.canTick, h.kept.trans (canTick_kept t)⟩

theorem linTick (h : QuietCycle v t) : QuietCycle v t.linTick :=
  foldl_keeps h (fun w e hw => by rw [hw.calm.linCycle]; exact hw) _

theorem sendAnnounces (h : QuietCycle v t) : QuietCycle v t.sendAnnounces := ⟨h.calm.sendAnnounces, h.kept.trans (sendAnnounces_kept t)⟩

end QuietCycle

/-- Firmware that finds no wake latch and local need as network management has it leaves both (R320). -/
theorem nmTick_quiet {s : State} (hl : s.nm.latch = 0) (hn : s.nm.state = .awake → s.localNeed = true ∨ s.secondary = true) : s.nmTick = s := by
  unfold State.nmTick
  split
  · rfl
  · rw [hl]
    have hstay : (decide (s.nm.state = .awake) && !s.localNeed && !s.secondary) = false := by
      cases hst : s.nm.state
      case awake => rcases hn hst with h | h <;> simp [h]
      all_goals simp
    simp [hstay]

/-- The lockstep pair after a cycle: DW_HEARTBEAT counts at each millisecond while firmware runs (R311). -/
def State.beat (s : State) : Lockstep :=
  if s.fw = true ∧ s.time.cycle % 800000 = 0 then { s.ls with heartbeat := s.ls.heartbeat + 1 } else s.ls

theorem QuietCycle.fw_eq {v t : State} (h : QuietCycle v t) : t.fw = v.fw := by
  unfold State.fw State.live
  rw [h.calm.pw, h.kept.ls]

/-- What firmware does in a cycle of a device with nothing under way. -/
theorem QuietCycle.firmwareTick {v t : State} (h : QuietCycle v t) (hl : v.nm.latch = 0)
    (hn : v.nm.state = .awake → v.localNeed = true ∨ v.secondary = true) : QuietCycle { v with ls := v.beat } t.firmwareTick := by
  have hfw := h.fw_eq
  unfold State.firmwareTick
  split
  · next hrun =>
    extract_lets _ emptied managed streamed posted _ beaten announced
    have h1 : QuietCycle v emptied := by
      unfold emptied
      split
      · exact h
      · exact ⟨h.calm.of_eq (hegr := h.calm.egress) (hload := rfl) (hgw := rfl) (hsvcIn := rfl), h.kept.trans {}⟩
    have h2 : managed = emptied := by
      refine nmTick_quiet (by rw [h1.calm.nm, hl]) fun hawake => ?_
      have hneed : NeedKept v emptied := ⟨h1.calm.pw, h1.calm.nm, h1.kept.params, h1.kept.upd, (congrArg TimeRef.cycle h1.kept.time).ge⟩
      have hpair : emptied.secondary = v.secondary := by simp only [State.secondary, h1.kept.pair]
      rw [hpair]
      exact (hn (h1.calm.nm ▸ hawake)).imp_left hneed.localNeed
    have h3 : streamed = managed := by simp [streamed, h2, h1.calm.svc]
    have h4 : posted = streamed := by simp [posted, h3, h2, h1.calm.svcMsg]
    have h5 : QuietCycle { v with ls := v.beat } beaten := by
      have hp : QuietCycle v posted := by rw [h4, h3, h2]; exact h1
      have hnow : posted.now = v.time.cycle := hp.calm.cycle
      have hc : CommitCalm { v with ls := v.beat } v.time.cycle posted := { hp.calm with }
      unfold beaten
      rw [hnow]
      split
      · next hms =>
        have hb : v.beat = { v.ls with heartbeat := v.ls.heartbeat + 1 } := if_pos ⟨hfw ▸ hrun, hms⟩
        exact ⟨hc.of_eq (hegr := hc.egress), { hp.kept with
          ls := (congrArg (fun l : Lockstep => { l with heartbeat := l.heartbeat + 1 }) hp.kept.ls).trans hb.symm }⟩
      · next hms =>
        have hb : v.beat = v.ls := if_neg (fun hx => hms hx.2)
        exact ⟨hc, { hp.kept with ls := hp.kept.ls.trans hb.symm }⟩
    have h6 : QuietCycle { v with ls := v.beat } announced := by
      unfold announced
      split
      · exact h5.sendAnnounces
      · exact h5
    rw [h6.calm.takeTick]
    exact h6
  · next hidle =>
    have hb : v.beat = v.ls := if_neg (fun hx => hidle (hfw ▸ hx.1))
    exact ⟨{ h.calm with }, { h.kept with ls := h.kept.ls.trans hb.symm }⟩

/-- One more FCLK cycle and its increment of local time (R37, R39). -/
def State.advance (s : State) : State :=
  { s with time := { s.time with cycle := s.time.cycle + 1, ltime := s.time.ltime + s.time.incr } }

/-- A slew in hand changes its rest and, at its end, the increment; nothing else (R38). -/
theorem slewTick_fields (s : State) :
    s.slewTick = { s with time := s.slewTick.time } ∧ s.slewTick.time.cycle = s.time.cycle ∧ s.slewTick.time.ltime = s.time.ltime ∧
      (s.time.slew = 0 → s.slewTick.time.incr = s.time.incr) := by
  unfold State.slewTick
  split
  · exact ⟨rfl, rfl, rfl, fun _ => rfl⟩
  · next hs =>
    have hne : s.time.slew ≠ 0 := fun h => hs (by simp [h])
    dsimp only
    split
    · exact ⟨rfl, rfl, rfl, fun h => absurd h hne⟩
    · exact ⟨rfl, rfl, rfl, fun h => absurd h hne⟩

/-- Without a read in hand the bridges do nothing in a cycle. -/
theorem bridgeTick_idle {s : State} (hr : s.host.reading = none) (hs : s.host.spiWait = none) :
    (if s.bridgeUp then s.readTick.spiTick else s) = s := by
  have hrt : s.readTick = s := by simp [State.readTick, hr]
  have hst : s.spiTick = s := by simp [State.spiTick, hs]
  simp [hrt, hst]

theorem mainOn_of {s : State} (hv : s.pw.vaon = true) (hr : s.pw.rstLow = false) (hm : s.pw.mode = .operating ∨ s.pw.mode = .failSilent) :
    s.mainOn = true := by
  rcases hm with h | h <;> simp [State.mainOn, hv, hr, h]

/-- What a cycle carries on in a device that runs, after time and the bridges. -/
def State.carryOn (s : State) : State :=
  s.creditTick.readPorts.readDone.tableTick.ingressTick.gwTick.svcTick.deliverDue.macTick.planeSlot.ruleTick.scrubBack.canTick.linTick.firmwareTick.commitStep

theorem oneCycle_eq {s : State} (h : s.mainOn = true) :
    s.oneCycle =
      let u := (if s.live then s.releases else s).advance
      let w := if u.bridgeUp then u.readTick.spiTick else u
      if w.live then w.slewTick.carryOn else w := by
  unfold State.oneCycle
  rw [if_neg (by simp [h])]
  rfl

/-- A cycle carries on with nothing where nothing is under way. -/
theorem QuietCycle.carryOn {v t : State} (h : QuietCycle v t) (hc : v.nm.state ≠ .commit) (hl : v.nm.latch = 0)
    (hn : v.nm.state = .awake → v.localNeed = true ∨ v.secondary = true) : QuietCycle { v with ls := v.beat } t.carryOn := by
  unfold State.carryOn
  have h1 := h.creditTick
  rw [h1.calm.readPorts, h1.calm.readDone, h1.calm.tableTick]
  have h2 := h1.ingressTick
  rw [h2.calm.gwTick]
  have h3 := h2.svcTick.deliverDue.macTick
  rw [h3.calm.planeSlot, h3.calm.ruleTick]
  have h4 := h3.scrubBack.canTick.linTick.firmwareTick hl hn
  have hlast := h4.calm.nm
  generalize (t.creditTick.ingressTick.svcTick.deliverDue.macTick.scrubBack.canTick.linTick).firmwareTick = w at h4 hlast ⊢
  have hcommit : w.commitStep = w := if_pos (by rw [hlast]; simp [hc])
  rw [hcommit]
  exact h4

/-- Nothing is under way in the cycle that follows a state with nothing under way. -/
theorem advance_calm {s : State} (hi : Idle s) : CommitCalm s (s.time.cycle + 1) s.advance := by
  obtain ⟨harr, hpulls, hwait, -, hout, hscrub, hload, hegr, hlin, hhand, hfirst, hsecond, hthird, hrest, hsvcIn, -, -, htab, -, -, hsvc, hmsg,
    hrings⟩ := hi
  exact {
    pw := rfl, nm := rfl, snapshot := rfl, cycle := rfl, arriving := harr, scrubHold := hscrub
    egress := fun o => SMap.get_of_all (P := fun e : Egress => e.tx = none ∧ e.next = []) ⟨rfl, rfl⟩ hegr o
    pulls := hpulls, waiting := hwait, out := hout, load := hload, hand := hhand, first := hfirst, second := hsecond, third := hthird
    rest := hrest, svcIn := hsvcIn
    lin := fun m => SMap.get_of_all
      (P := fun l : Lin => l.header = none ∧ l.sleepDue = false ∧ l.old = none ∧ l.initDue = false) ⟨rfl, rfl, rfl, rfl⟩ hlin m
    table := htab, rings := hrings, svc := hsvc, svcMsg := hmsg }

/-- One cycle of a running device with nothing under way: time passes, and firmware's heartbeat counts. -/
theorem oneCycle_quiet {s : State} (hv : s.pw.vaon = true) (hr : s.pw.rstLow = false) (hm : s.pw.mode = .operating)
    (hc : s.nm.state ≠ .commit) (hi : Idle s) :
    QuietCycle { s with time := s.advance.slewTick.time, ls := s.advance.slewTick.beat } s.oneCycle := by
  have hl : s.live = true := by simp [State.live, hm, hr]
  obtain ⟨hslew, hcycle, -, -⟩ := slewTick_fields s.advance
  have hcalm := (advance_calm hi).slewTick
  obtain ⟨-, -, -, hstore, -, -, -, -, -, -, -, -, -, -, -, hread, hspi, -, hlatch, hneed, -, -, -⟩ := hi
  have hrel : s.releases = s := by simp [State.releases, hstore]
  have hone : s.oneCycle = s.advance.slewTick.carryOn := by
    rw [oneCycle_eq (mainOn_of hv hr (.inl hm)), if_pos hl, hrel]
    dsimp only
    rw [bridgeTick_idle (s := s.advance) hread hspi]
    exact if_pos hl
  have hquiet : QuietCycle s.advance.slewTick s.advance.slewTick :=
    ⟨{ hcalm with pw := rfl, nm := rfl, snapshot := rfl, cycle := rfl }, .refl _⟩
  have hkept : NeedKept s s.advance.slewTick :=
    ⟨hcalm.pw, hcalm.nm, by rw [hslew]; rfl, by rw [hslew]; rfl, by unfold State.now; rw [hcycle]; exact Nat.le_succ _⟩
  have hpair : s.advance.slewTick.secondary = s.secondary := by rw [hslew]; rfl
  have hstart : { s.advance.slewTick with ls := s.advance.slewTick.beat } =
      { s with time := s.advance.slewTick.time, ls := s.advance.slewTick.beat } :=
    congrArg (fun u : State => { u with ls := s.advance.slewTick.beat }) hslew
  rw [hone, ← hstart]
  refine hquiet.carryOn (hcalm.nm ▸ hc) (hcalm.nm ▸ hlatch) fun hawake => ?_
  rw [hpair]
  exact (hneed (hcalm.nm ▸ hawake)).imp_left hkept.localNeed

/-! A step on an empty queue (R37, R39, R311). -/

theorem step_empty {s : State} (hp : s.pending = []) : step s = .next (settle s s.oneCycle) := by
  unfold step
  rw [hp]
  rfl

/-- In fail-silent time goes on, and nothing else (R32). -/
theorem step_empty_failSilent (s : State) (hp : s.pending = []) (hv : s.pw.vaon = true) (hr : s.pw.rstLow = false)
    (hm : s.pw.mode = .failSilent) (hread : s.host.reading = none) (hspi : s.host.spiWait = none) :
    step s = .next (settle s { s with time := { s.time with cycle := s.time.cycle + 1, ltime := s.time.ltime + s.time.incr } }) := by
  have hl : s.live = false := by simp [State.live, hm]
  have hone : s.oneCycle = s.advance := by
    have hrel : (if s.live then s.releases else s) = s := if_neg (by simp [hl])
    rw [oneCycle_eq (mainOn_of hv hr (.inr hm)), hrel]
    dsimp only
    rw [bridgeTick_idle (s := s.advance) hread hspi]
    exact if_neg (fun h => absurd (h.symm.trans hl) (by decide))
  rw [step_empty hp, hone]
  rfl

/-- A running device with nothing under way keeps everything but time and heartbeat. -/
theorem step_empty_idle (s : State) (hp : s.pending = []) (hv : s.pw.vaon = true) (hr : s.pw.rstLow = false) (hm : s.pw.mode = .operating)
    (hc : s.nm.state ≠ .commit) (hi : Idle s) :
    ∃ t, step s = .next t ∧ t.time.cycle = s.time.cycle + 1 ∧ t.time.ltime = s.time.ltime + s.time.incr ∧ t.pw.mode = .operating ∧
      t.pending = [] ∧ t.params = s.params ∧ SameMem s t ∧ t.sec = s.sec ∧ t.upd = s.upd ∧ t.isl = s.isl ∧ t.nm = s.nm ∧
      t.ls = (if s.fw = true ∧ (s.time.cycle + 1) % 800000 = 0 then { s.ls with heartbeat := s.ls.heartbeat + 1 } else s.ls) ∧
      (s.time.slew = 0 → t.time.incr = s.time.incr) := by
  have hquiet := oneCycle_quiet hv hr hm hc hi
  obtain ⟨hslew, hcycle, hltime, hincr⟩ := slewTick_fields s.advance
  refine ⟨_, step_empty hp, ?_⟩
  generalize s.oneCycle = t at hquiet ⊢
  have hbeat : s.advance.slewTick.beat =
      if s.fw = true ∧ (s.time.cycle + 1) % 800000 = 0 then { s.ls with heartbeat := s.ls.heartbeat + 1 } else s.ls := by
    unfold State.beat
    rw [hcycle, hslew]
    rfl
  obtain ⟨hcalm, hkept⟩ := hquiet
  simp only [settle_time, settle_pw, settle_pending, settle_params, settle_sec, settle_upd, settle_isl, settle_nm, settle_ls, hkept.time]
  exact ⟨hcycle, hltime, by rw [hcalm.pw]; exact hm, hkept.pending.trans hp, hkept.params, sameMem_of_mem (by simpa using hkept.mem), hkept.sec,
    hkept.upd, hkept.isl, hcalm.nm, hkept.ls.trans hbeat, hincr⟩

/-- A device that is Off, in Slack, starting or held by RST_N idles. -/
theorem step_empty_off (s : State) (hp : s.pending = [])
    (h : s.pw.vaon = false ∨ s.pw.rstLow = true ∨ s.pw.mode = .slack ∨ s.pw.mode = .off ∨ s.pw.mode = .startUp) :
    step s = .next (settle s s) := by
  have hoff : s.mainOn = false := by
    unfold State.mainOn
    rcases h with h | h | h | h | h <;> simp [h]
  have hone : s.oneCycle = s := if_pos (by simp [hoff])
  rw [step_empty hp, hone]

/-- Settles O2: fail-silent, a step for every state, a cycle of a running device with nothing under way, and a device that idles. -/
theorem emptyQueueTick : Obligations.EmptyQueueTick :=
  ⟨step_empty_failSilent, fun _ hp => ⟨_, step_empty hp⟩, step_empty_idle, step_empty_off⟩

end Sys2Proof.Machine
end

