-- ==== Sys2Proof/Proofs/IngressReads.lean ====
section
/-! SUPPORT. Reads of a counter, a recovery function or a frame that arrives, after a write of the ingress side (O11, O12). -/

namespace Sys2Proof.Machine

/-! Counters and recovery functions. -/

@[simp] theorem State.c32_bump_same (s : State) (a : Nat) : (s.bump a).c32 a = satInc (s.c32 a) := SMap.get_set_same ..

theorem State.c32_bump_other (s : State) {a b : Nat} (h : b ≠ a) : (s.bump a).c32 b = s.c32 b := SMap.get_set_other _ _ _ _ h

theorem State.c32_bumpBy_other (s : State) (n : Nat) {a b : Nat} (h : b ≠ a) : (s.bumpBy a n).c32 b = s.c32 b :=
  SMap.get_set_other _ _ _ _ h

theorem State.toNat_c32_bumpBy (s : State) (a n : Nat) : ((s.bumpBy a n).c32 a).toNat = min 0xFFFFFFFF ((s.c32 a).toNat + n) := by
  rw [show (s.bumpBy a n).c32 a = BitVec.ofNat 32 (min ((s.c32 a).toNat + n) 0xFFFFFFFF) from SMap.get_set_same .., BitVec.toNat_ofNat]
  omega

theorem State.c64_add64_same (s : State) (a n : Nat) : (s.add64 a n).c64 a = s.c64 a + BitVec.ofNat 64 n := SMap.get_set_same ..

theorem State.c64_add64_other (s : State) (n : Nat) {a b : Nat} (h : b ≠ a) : (s.add64 a n).c64 b = s.c64 b := SMap.get_set_other _ _ _ _ h

@[simp] theorem State.c32_portErr_same (s : State) (p off : Nat) :
    (s.portErr p off).c32 (portReg p off) = satInc (s.c32 (portReg p off)) := SMap.get_set_same ..

@[simp] theorem State.recov_setRecov_same (s : State) (i : Nat) (r : Recov) : (s.setRecov i r).recov i = r := SMap.get_set_same ..

theorem State.recov_setRecov_other (s : State) {i j : Nat} (r : Recov) (h : j ≠ i) : (s.setRecov i r).recov j = s.recov j :=
  SMap.get_set_other _ _ _ _ h

/-! The list of the frames that arrive. -/

/-- The record of a frame is found again after it was replaced. -/
theorem State.arr_putArr {s : State} {a b : Arrival} (h : s.arr b.fid = some a) : (s.putArr b).arr b.fid = some b := by
  unfold State.arr State.putArr at *
  dsimp only
  generalize s.sw.arriving = l at h ⊢
  induction l with
  | nil => simp at h
  | cons x l ih =>
    by_cases hx : x.fid = b.fid
    · simp [hx]
    · simp only [List.map_cons, if_neg hx, List.find?_cons, decide_eq_false hx] at h ⊢
      exact ih h

theorem State.arr_single {s : State} {a : Arrival} (h : s.sw.arriving = [a]) : s.arr a.fid = some a := by simp [State.arr, h]

theorem State.putArr_single {s : State} {a b : Arrival} (h : s.sw.arriving = [a]) (hf : b.fid = a.fid) : (s.putArr b).sw.arriving = [b] := by
  simp [State.putArr, h, hf]

@[simp] theorem State.putArr_time (s : State) (a : Arrival) : (s.putArr a).time = s.time := rfl

@[simp] theorem State.c32_putArr (s : State) (a : Arrival) (r : Nat) : (s.putArr a).c32 r = s.c32 r := rfl

@[simp] theorem State.c64_putArr (s : State) (a : Arrival) (r : Nat) : (s.putArr a).c64 r = s.c64 r := rfl

@[simp] theorem State.c32_notePeaks (s : State) (p r : Nat) : (s.notePeaks p).c32 r = s.c32 r := rfl

@[simp] theorem State.arr_notePeaks (s : State) (p fid : Nat) : (s.notePeaks p).arr fid = s.arr fid := rfl

end Sys2Proof.Machine
end

