-- ==== Sys2Proof/Proofs/SequenceRecovery.lean ====
section
/-! SUPPORT. What sequence recovery makes of one frame, and its reset timer (O12). -/

namespace Sys2Proof.Machine

/-! A frame that passes. -/

/-- The state after a frame that a recovery function passes with the new state `x`: its timer starts and PASSED counts. -/
def State.recoverPass (s : State) (i : Nat) (x : Recov) : State :=
  (s.setRecov i { x with timer := some s.now }).bump (recovCnt i 0)

section
variable (s : State) (i : Nat) (x : Recov)

@[simp] theorem State.recoverPass_recov : (s.recoverPass i x).recov i = { x with timer := some s.now } := by
  simp only [State.recoverPass, State.recov, State.bump_sw]
  exact State.recov_setRecov_same ..

theorem State.recoverPass_recov_other {j : Nat} (h : j ≠ i) : (s.recoverPass i x).recov j = s.recov j := by
  simp only [State.recoverPass, State.recov, State.bump_sw]
  exact State.recov_setRecov_other _ _ h

@[simp] theorem State.recoverPass_passed : (s.recoverPass i x).c32 (recovCnt i 0) = satInc (s.c32 (recovCnt i 0)) := State.c32_bump_same ..

theorem State.recoverPass_c32_other {a : Nat} (h : a ≠ recovCnt i 0) : (s.recoverPass i x).c32 a = s.c32 a := State.c32_bump_other _ h

end

/-! The algorithm of R87, one equation for each branch. -/

/-- The configuration word of a recovery function. -/
abbrev State.recovCfg (s : State) (i : Nat) : Nat := s.rd (0x04190000 + i * 16) 4

/-- History and `seq` after a frame `d` ahead of the last one. -/
def Recov.advance (r : Recov) (q : BitVec 16) (len d : Nat) : Recov :=
  { r with seq := q, hist := BitVec.ofNat 32 ((r.hist.toNat * 2 ^ d + 1) % 2 ^ len) }

/-- The sequence numbers that leave a history of `len` bits unseen as it advances by `d`. -/
def Recov.lost (r : Recov) (len d : Nat) : Nat :=
  ((List.range len).filter (fun b => decide (len - d ≤ b) && !r.hist.getLsbD b)).length

section
variable {s : State} {i : Nat} {q : BitVec 16} (h0 : bit (s.recovCfg i) 0 = true)
include h0

theorem recover_match_pass (h1 : bit (s.recovCfg i) 1 = true) (h : (s.recov i).takeAny = true ∨ q ≠ (s.recov i).seq) :
    s.recover i (some q) = (true, s.recoverPass i { s.recov i with takeAny := false, seq := q }) := by
  simp only [State.recover, h0, h1, Bool.not_true, Bool.false_eq_true, if_false, if_true]
  rw [if_pos (by simpa using h)]
  rfl

theorem recover_match_again (h1 : bit (s.recovCfg i) 1 = true) (ht : (s.recov i).takeAny = false) (hq : q = (s.recov i).seq) :
    s.recover i (some q) = (false, s.bump (recovCnt i 4)) := by
  simp [State.recover, h0, h1, ht, hq]

theorem recover_takeAny (h1 : bit (s.recovCfg i) 1 = false) (ht : (s.recov i).takeAny = true) :
    s.recover i (some q) = (true, s.recoverPass i { s.recov i with takeAny := false, seq := q, hist := 1 }) := by
  simp only [State.recover, h0, h1, ht, Bool.not_true, Bool.false_eq_true, if_false, if_true]
  rfl

/-- Vector recovery of a frame whose number lies `delta` ahead of the last one. -/
theorem recover_vector (h1 : bit (s.recovCfg i) 1 = false) (ht : (s.recov i).takeAny = false) {delta : Int} {len : Nat}
    (hd : delta = (q - (s.recov i).seq).toInt) (hl : len = bits (s.recovCfg i) 8 3) :
    s.recover i (some q) =
      if delta ≥ len ∨ delta ≤ -(len : Int) then (false, s.bump (recovCnt i 0xC))
      else if 0 < delta then
        (true, (s.bumpBy (recovCnt i 0x10) ((s.recov i).lost len delta.toNat)).recoverPass i ((s.recov i).advance q len delta.toNat))
      else if (s.recov i).hist.getLsbD (-delta).toNat then (false, s.bump (recovCnt i 4))
      else (true, (s.bump (recovCnt i 8)).recoverPass i { s.recov i with hist := setBit (s.recov i).hist (-delta).toNat true }) := by
  subst hd hl
  simp only [State.recover, State.recoverPass, Recov.advance, Recov.lost, h0, h1, ht, Bool.not_true, Bool.false_eq_true, if_false,
    Bool.or_eq_true, decide_eq_true_eq, gt_iff_lt]

/-- A recovery function discards a frame in one counter, or passes it from a state that differs in counters other than PASSED alone. -/
theorem recover_cases :
    (∃ c, s.recover i (some q) = (false, s.bump c)) ∨
    ∃ x u, s.recover i (some q) = (true, State.recoverPass u i x) ∧ u.sw = s.sw ∧ u.c32 (recovCnt i 0) = s.c32 (recovCnt i 0) := by
  cases h1 : bit (s.recovCfg i) 1 with
  | true =>
    by_cases h : (s.recov i).takeAny = true ∨ q ≠ (s.recov i).seq
    · exact .inr ⟨_, s, recover_match_pass h0 h1 h, rfl, rfl⟩
    · rw [not_or, Bool.not_eq_true, not_not] at h
      exact .inl ⟨_, recover_match_again h0 h1 h.1 h.2⟩
  | false =>
    cases ht : (s.recov i).takeAny with
    | true => exact .inr ⟨_, s, recover_takeAny h0 h1 ht, rfl, rfl⟩
    | false =>
      rw [recover_vector h0 h1 ht rfl rfl]
      split
      · exact .inl ⟨_, rfl⟩
      split
      · exact .inr ⟨_, _, rfl, by simp, State.c32_bumpBy_other _ _ (by simp [recovCnt])⟩
      split
      · exact .inl ⟨_, rfl⟩
      · exact .inr ⟨_, _, rfl, by simp, State.c32_bump_other _ (by simp [recovCnt])⟩

theorem recover_passed (hp : (s.recover i (some q)).1 = true) :
    (s.recover i (some q)).2.c32 (recovCnt i 0) = satInc (s.c32 (recovCnt i 0)) := by
  obtain ⟨c, hr⟩ | ⟨x, u, hr, -, hc⟩ := recover_cases (q := q) h0
  · rw [hr] at hp
    exact absurd hp Bool.false_ne_true
  · rw [hr, State.recoverPass_passed, hc]

theorem recover_recov_other {j : Nat} (hj : j ≠ i) : (s.recover i (some q)).2.recov j = s.recov j := by
  obtain ⟨c, hr⟩ | ⟨x, u, hr, hsw, -⟩ := recover_cases (q := q) h0
  · rw [hr]
    simp only [State.recov, State.bump_sw]
  · rw [hr, State.recoverPass_recov_other _ _ _ hj, State.recov, hsw]
    rfl

end

/-- The history moves up by `d`, and the new number takes its lowest bit. -/
theorem Recov.getLsbD_advance (r : Recov) (q : BitVec 16) {len d b : Nat} (hd : 0 < d) (hb : b < len) (hl : len ≤ 32) :
    (r.advance q len d).hist.getLsbD b = if b = 0 then true else if b < d then false else r.hist.getLsbD (b - d) := by
  have hone : 1 < 2 ^ d := Nat.one_lt_two_pow (by omega)
  simp only [Recov.advance, BitVec.getLsbD_ofNat, Nat.testBit_mod_two_pow, Nat.mul_comm _ (2 ^ d), Nat.testBit_two_pow_mul_add _ hone]
  rw [decide_eq_true hb, decide_eq_true (show b < 32 by omega), Bool.true_and, Bool.true_and]
  split
  · rw [Bool.eq_iff_iff, Nat.testBit_one_eq_true_iff_self_eq_zero]
    simp
  · next hlt => rw [if_neg (by omega)]; rfl

/-! RECOVERY_RESET_TIMEOUT (R87). -/

theorem exec_recoveryResetTimeout (i : Fin 2048) (s : State) :
    exec (.recoveryResetTimeout i) s = .next (settle s (recoveryResetTimeout i.val s)) := rfl

section
variable {s : State} {i at_ : Nat}

theorem recoveryResetTimeout_due (hl : s.live = true) (ht : (s.recov i).takeAny = false) (ha : (s.recov i).timer = some at_)
    (hd : at_ + 800000 * bits (s.recovCfg i) 31 16 ≤ s.time.cycle) :
    recoveryResetTimeout i s = (s.setRecov i { s.recov i with takeAny := true, timer := none }).bump (recovCnt i 0x14) := by
  rw [Nat.mul_comm] at hd
  simp only [recoveryResetTimeout, ha]
  exact if_pos (by simp [hl, ht, State.now, msCycles, hd])

theorem recoveryResetTimeout_early (ha : (s.recov i).timer = some at_) (hd : s.time.cycle < at_ + 800000 * bits (s.recovCfg i) 31 16) :
    recoveryResetTimeout i s = s := by
  rw [Nat.mul_comm] at hd
  simp only [recoveryResetTimeout, ha]
  exact if_neg (by simp [State.now, msCycles, hd])

end

/-- Settles O12: the branches of the algorithm of R87, a frame without R-TAG, and the reset timer. -/
theorem sequenceRecovery : Obligations.SequenceRecovery := by
  unfold Obligations.SequenceRecovery
  refine ⟨?_, fun s i => rfl, ?_⟩
  · intro s i q _ h0 cfg len r delta p t
    have hvector (h1 : bit cfg 1 = false) (ht : r.takeAny = false) := recover_vector (q := q) h0 h1 ht (delta := delta) (len := len) rfl rfl
    refine ⟨fun h1 ht => ?_, fun h1 ht hd => ?_, fun h1 ht hpos hlt => ?_, fun h1 ht hneg hlt hseen => ?_, fun h1 ht hneg hlt hseen _ => ?_,
      fun h1 h => ?_, fun h1 => recover_match_again h0 h1, recover_passed h0, fun j => recover_recov_other h0⟩
    · simp only [t, p, recover_takeAny h0 h1 ht, State.recoverPass_recov]
      exact ⟨trivial, rfl⟩
    · exact (hvector h1 ht).trans (if_pos hd)
    · have hp := (hvector h1 ht).trans ((if_neg (by omega)).trans (if_pos hpos))
      simp only [t, p, hp, State.recoverPass_recov]
      refine ⟨trivial, rfl, ht, rfl, fun b => r.getLsbD_advance q (by omega), ?_⟩
      rw [State.recoverPass_c32_other _ _ _ (by simp [recovCnt]), State.toNat_c32_bumpBy]
      rfl
    · exact (hvector h1 ht).trans ((if_neg (by omega)).trans ((if_neg (by omega)).trans (if_pos hseen)))
    · have hp := (hvector h1 ht).trans ((if_neg (by omega)).trans ((if_neg (by omega)).trans (if_neg (by simp [r, hseen]))))
      simp only [t, p, hp, State.recoverPass_recov]
      refine ⟨trivial, rfl, rfl, ?_, rfl⟩
      rw [State.recoverPass_c32_other _ _ _ (by simp [recovCnt]), State.c32_bump_same]
    · simp only [t, p, recover_match_pass h0 h1 h, State.recoverPass_recov]
      exact ⟨trivial, trivial, trivial, rfl⟩
  · intro s i at_ hl ht ha due
    rw [exec_recoveryResetTimeout]
    exact ⟨fun hd => by rw [recoveryResetTimeout_due hl ht ha hd], fun hd => by rw [recoveryResetTimeout_early ha hd]⟩

end Sys2Proof.Machine
end

