-- ==== Sys2Proof/Proofs/FramesArriving.lean ====
section
/-! SUPPORT. A frame from its preamble to its last byte: its record, admission, the counters of its MAC, and the drop of VID 4,095 (O11). -/

namespace Sys2Proof.Machine

/-! FRAME_RECEIVE (R68). -/

theorem exec_frameReceive (f : RxFrame) (s : State) : exec (.frameReceive f) s = .next (settle s (frameReceive f s)) := rfl

theorem candWindows_closed {s : State} (h : ∀ o, o < 20 → (s.mill o).opened = none) (p t : Nat) : s.candWindows p t = [] := by
  rw [State.candWindows, List.filter_eq_nil_iff]
  intro o ho
  rw [h o (List.mem_range.mp ho)]
  simp

theorem frameReceive_idle {s : State} {f : RxFrame} (hu : f.unit = .express)
    (h : s.live = false ∨ s.linkUp f.port.val = false ∨ s.receiving f = true) : frameReceive f s = s := by
  unfold frameReceive
  rcases h with h | h | h <;> simp [h, hu]

theorem frameReceive_express {s : State} {f : RxFrame} (hu : f.unit = .express) (hl : s.live = true) (hk : s.linkUp f.port.val = true)
    (hr : s.receiving f = false) : frameReceive f s = s.arrive f false := by
  simp [frameReceive, hl, hk, hu, hr, State.receive]

/-- Where no window is open, an express frame at an external port begins to arrive, and nothing else happens. -/
theorem arrive_express {s : State} {f : RxFrame} (hp : f.port.val < 22) (hw : ∀ o, o < 20 → (s.mill o).opened = none) :
    ∃ a, s.arrive f false = { s with sw.nextFid := s.sw.nextFid + 1, sw.arriving := s.sw.arriving ++ [a] } ∧ a.port = f.port ∧
      a.raw = f.bytes ∧ a.code = f.codeErr ∧ a.fid = s.sw.nextFid ∧ a.pre = s.time.cycle ∧
      a.start = s.time.cycle + 8 * 6400 / s.lineRate f.port.val ∧
      a.stop = s.time.cycle + byteCycles (f.bytes.length + 8) (s.lineRate f.port.val) ∧ a.hs = 0 ∧ a.es = 0 ∧ a.cand = none ∧
      a.admitted = false := by
  unfold State.arrive
  simp only [hp, candWindows_closed hw, decide_true, if_true, ite_self, Bool.and_true, List.drop_nil, List.foldl_nil, List.head?_nil,
    Bool.false_eq_true, if_false, Arrival.byteAt, Arrival.ext]
  exact ⟨_, rfl, rfl, rfl, rfl, rfl, rfl, rfl, rfl, rfl, rfl, rfl, rfl⟩

/-! The first byte (R73, R102). -/

section
variable {s : State} {a : Arrival} (hc : a.cand = none) (ha : a.admitted = false) (hlen : a.raw.length ≤ s.param (0x0280 + a.port.val))
include hc ha hlen

/-- A frame that the input refuses is quiet, holds no cells and counts in IN_BUF_DROP. -/
theorem admitStep_refused (h : s.admits a.port.val = false) :
    ∃ b, s.admitStep a = ((s.portErr a.port.val 0x144).putArr b).notePeaks a.port.val ∧ b.fid = a.fid ∧ b.quiet = true ∧ b.hs = 14 ∧
      b.resv = 0 := by
  have hpast {tag : Nat} : ¬ a.raw.length > s.param (0x0280 + a.port.val) + tag := by omega
  unfold State.admitStep
  simp only [if_neg hpast, ha, h, hc]
  exact ⟨_, rfl, rfl, rfl, rfl, rfl⟩

/-- A frame of full length that the input admits reserves the cells of the largest frame. -/
theorem admitStep_admitted (h : s.admits a.port.val = true) (hmin : 64 ≤ a.raw.length) :
    ∃ b, s.admitStep a = (s.putArr b).notePeaks a.port.val ∧ b.fid = a.fid ∧ b.quiet = false ∧ b.admitted = true ∧
      b.resv = s.reserve a.port.val ∧ b.raw = a.raw ∧ b.stop = a.stop := by
  have hpast {tag : Nat} : ¬ a.raw.length > s.param (0x0280 + a.port.val) + tag := by omega
  have hrunt : a.runt = false := by simp [Arrival.runt, hmin]
  unfold State.admitStep
  simp only [if_neg hpast, ha, h, hc, hrunt]
  exact ⟨_, rfl, rfl, rfl, rfl, rfl, rfl, rfl⟩

end

/-! The last byte (R73, R92). -/

section
variable {s : State} {a : Arrival}

theorem lastByte_refused (hc : a.cand = none) (ha : a.admitted = false) : s.lastByte a = s.putArr { a with es := 1 } := by
  simp [State.lastByte, hc, ha]

theorem lastByte_runt (ha : a.admitted = true) (hr : a.runt = true) :
    s.lastByte a = (s.putArr { a with es := 1 }).portErr a.port.val 0x114 := by
  simp [State.lastByte, ha, hr]

theorem lastByte_past (ha : a.admitted = true) (hr : a.runt = false) (hp : a.past = true) :
    s.lastByte a = (s.putArr { a with es := 1 }).portErr a.port.val 0x118 := by
  simp [State.lastByte, ha, hr, hp, Arrival.macBad]

theorem lastByte_bad (ha : a.admitted = true) (hr : a.runt = false) (hp : a.past = false) (he : a.ext = true)
    (hb : a.code = true ∨ a.fcsBad = true) : s.lastByte a = s.putArr { a with es := 1 } := by
  have hbad : a.macBad = true := by
    rcases hb with hb | hb <;> simp [Arrival.macBad, he, hb]
  simp [State.lastByte, ha, hr, hp, hbad]

theorem lastByte_good (ha : a.admitted = true) (hr : a.runt = false) (hp : a.past = false) (hc : a.code = false) (hf : a.fcsBad = false) :
    s.lastByte a = ((s.putArr { a with es := 1 }).add64 (portReg a.port.val 0x100) 1).add64 (portReg a.port.val 0x108) a.raw.length := by
  simp [State.lastByte, ha, hr, hp, hc, hf, Arrival.macBad]

end

@[simp] theorem lastByte_sw (s : State) (a : Arrival) : (s.lastByte a).sw = (s.putArr { a with es := 1 }).sw := by
  unfold State.lastByte
  dsimp only
  split_ifs <;> simp only [State.portErr_sw, State.add64_sw]

@[simp] theorem lastByte_time (s : State) (a : Arrival) : (s.lastByte a).time = s.time := by
  unfold State.lastByte
  dsimp only
  split_ifs <;> simp only [State.portErr_time, State.add64_time, State.putArr_time]

/-! Steps of a frame that are not due. -/

section
variable {s : State} {a : Arrival} {fid : Nat}

theorem headSteps_done (h : s.arr fid = some a) (hs : a.hs = 14) (n : Nat) : State.headSteps fid n s = s := by
  cases n with
  | zero => rfl
  | succ n => simp [State.headSteps, h, hs]

theorem endSteps_wait (h : s.arr fid = some a) (hr : s.endReady a = false) (n : Nat) : State.endSteps fid n s = s := by
  cases n with
  | zero => rfl
  | succ n => simp [State.endSteps, h, hr]

theorem endSteps_ready (h : s.arr fid = some a) (hr : s.endReady a = true) (n : Nat) :
    State.endSteps fid (n + 1) s = State.endSteps fid n (s.endStep a) := by
  simp [State.endSteps, h, hr]

theorem candStep_none (h : s.arr fid = some a) (hc : a.cand = none) : s.candStep fid = s := by simp [State.candStep, h, hc]

theorem arrivalDone_early (h : s.arr fid = some a) (he : a.es < 5) : s.arrivalDone fid = s := by
  have hn : ¬ 5 ≤ a.es := by omega
  simp [State.arrivalDone, h, hn]

theorem parForget_nil (h : s.sw.parHist = []) : s.parForget = s := by simp [State.parForget, h]

end

/-! A cycle of a frame that was refused, alone on its way (R102). -/

/-- The frame `a` is alone on its way: the steps of its head have ended, and its last byte or the checks after it are still to come. -/
structure EndsAlone (s : State) (a : Arrival) : Prop where
  alone : s.sw.arriving = [a]
  noCand : a.cand = none
  loose : a.stored = false
  head : a.hs = 14
  early : a.es < 2
  noChange : s.sw.parHist = []

namespace EndsAlone
variable {s t : State} {a b : Arrival}

theorem arr (h : EndsAlone s a) : s.arr a.fid = some a := State.arr_single h.alone

theorem es_lt (h : EndsAlone s a) : a.es < 5 := h.early.trans (by decide)

theorem endReady_wait (hd : s.time.cycle < a.endDue) : s.endReady a = false := by
  have hn : ¬ a.endDue ≤ s.now := by simpa [State.now] using hd
  simp [State.endReady, hn]

theorem endReady_due (h : EndsAlone s a) (hd : a.endDue ≤ s.time.cycle) : s.endReady a = true := by
  have hnow : a.endDue ≤ s.now := hd
  have hes : a.es < 4 := h.early.trans (by decide)
  simp [State.endReady, h.head, h.early, h.es_lt, hes, hnow]

/-- One cycle of the frame is the steps of its end. -/
theorem arrivalTick_eq (h : EndsAlone s a) (ht : State.endSteps a.fid 5 s = t) (hb : EndsAlone t b) (hf : b.fid = a.fid) : s.arrivalTick a.fid = t := by
  have hbarr : t.arr a.fid = some b := hf ▸ hb.arr
  unfold State.arrivalTick
  simp only [h.arr, h.loose, headSteps_done h.arr h.head, Bool.false_eq_true, if_false, ht, candStep_none hbarr hb.noCand,
    arrivalDone_early hbarr hb.es_lt]

theorem turn_wait (h : EndsAlone s a) (hd : s.time.cycle < a.endDue) : s.turn a.fid = s := by
  rw [State.turn, endSteps_wait h.arr (endReady_wait hd), arrivalDone_early h.arr h.es_lt]

end EndsAlone

theorem flatMap_range_single {α : Type} (x : α) (p n : Nat) :
    (List.range n).flatMap (fun q => if p = q then [x] else []) = if p < n then [x] else [] := by
  induction n with
  | zero => rfl
  | succ n ih =>
    rw [List.range_succ, List.flatMap_append, ih, List.flatMap_singleton]
    by_cases hn : p = n
    · simp [hn]
    · rw [if_neg hn, List.append_nil]
      exact if_congr (by omega) rfl rfl

/-- A cycle of the ingress side with one frame, which is refused, and waits after it. -/
theorem EndsAlone.ingressTick_eq {s t : State} {a b : Arrival} (h : EndsAlone s a) (ht : State.endSteps a.fid 5 s = t) (hb : EndsAlone t b)
    (hf : b.fid = a.fid) (hd : t.time.cycle < b.endDue) : s.ingressTick = t := by
  have hids : (List.range 24).flatMap (fun p => (s.sw.arriving.filter (fun x => x.port.val = p)).map (fun x => x.fid)) = [a.fid] := by
    rw [h.alone]
    have hone (q : Nat) : ([a].filter (fun x => x.port.val = q)).map (fun x => x.fid) = if a.port.val = q then [a.fid] else [] := by
      by_cases hq : a.port.val = q <;> simp [hq]
    simp only [hone, flatMap_range_single]
    exact if_pos a.port.isLt
  unfold State.ingressTick
  rw [hids]
  simp only [List.foldl_cons, List.foldl_nil, h.arrivalTick_eq ht hb hf, hb.alone, List.filter_nil, List.nil_append, List.append_nil,
    List.map_cons, List.map_nil, hb.turn_wait hd]
  exact parForget_nil hb.noChange

theorem EndsAlone.ingressTick_wait {s : State} {a : Arrival} (h : EndsAlone s a) (hd : s.time.cycle < a.endDue) : s.ingressTick = s :=
  h.ingressTick_eq (endSteps_wait h.arr (endReady_wait hd) 5) h rfl hd

theorem EndsAlone.ingressTick_lastByte {s : State} {a : Arrival} (h : EndsAlone s a) (he : a.es = 0) (hd : a.stop ≤ s.time.cycle)
    (hn : s.time.cycle < a.stop + 2) : s.ingressTick = s.lastByte a := by
  have hb : EndsAlone (s.lastByte a) { a with es := 1 } := {
    alone := by
      rw [lastByte_sw]
      exact State.putArr_single h.alone rfl
    noCand := h.noCand
    loose := h.loose
    head := h.head
    early := Nat.one_lt_two
    noChange := by
      rw [lastByte_sw]
      exact h.noChange }
  have hwait : (s.lastByte a).time.cycle < ({ a with es := 1 } : Arrival).endDue := by
    rw [lastByte_time]
    exact hn
  refine h.ingressTick_eq ?_ hb rfl hwait
  have hstep : s.endStep a = s.lastByte a := by simp [State.endStep, he]
  rw [endSteps_ready h.arr (h.endReady_due (by simpa [Arrival.endDue, he] using hd)), hstep]
  exact endSteps_wait hb.arr (EndsAlone.endReady_wait hwait) 4

/-! Stage 1 (R71). -/

theorem candCheck_none {s : State} {a : Arrival} (hc : a.cand = none) (bad : Bool) (k : Nat) : s.candCheck a bad k = s := by
  simp [State.candCheck, State.candFail, hc]

/-- A frame of VID 4,095 is dropped. -/
theorem parseStep_vid4095 {s : State} {a : Arrival} {pcp : Nat} {dei : Bool} (hc : a.cand = none) (ht : a.parsed.trunc = false)
    (hv : a.parsed.ctag = some (pcp, dei, 4095)) : s.parseStep a = (s.portErr a.port.val 0x120).putArr { a.dropBy 1 with hs := 13 } := by
  simp only [State.parseStep, ht, hv, Bool.false_eq_true, if_false, beq_self_eq_true, Bool.true_or, if_true]
  exact candCheck_none (a := { a.dropBy 1 with hs := 13 }) hc true 1

/-- Settles O11: FRAME_RECEIVE, the first byte, the last byte, a cycle of a refused frame, and VID 4,095. -/
theorem framesArriving : Obligations.FramesArriving := by
  unfold Obligations.FramesArriving
  refine ⟨fun s f hp hu => ⟨fun h => ?_, fun hl hk hr hw => ?_⟩, fun s a harr hp hc ha hlen => ⟨fun h => ?_, fun h hmin => ?_⟩, ?_, ?_,
    fun s a pcp dei hc ht hv => ⟨parseStep_vid4095 hc ht hv, rfl, rfl⟩⟩
  · rw [exec_frameReceive, frameReceive_idle hu h]
  · obtain ⟨a, he, hrec⟩ := arrive_express hp hw
    obtain ⟨hport, hraw, hcode, hfid, hpre, hstart, hstop, hhs, hes, hcand, hadm⟩ := hrec
    refine ⟨_, a, (exec_frameReceive f s).trans (by rw [frameReceive_express hu hl hk hr, he]), ?_⟩
    exact ⟨rfl, hport, hraw, hcode, hfid, rfl, hpre, hstart, hstop, hhs, hes, hcand, hadm, rfl, sameMem_of_mem rfl, rfl, rfl, rfl, rfl, rfl, rfl⟩
  · obtain ⟨b, he, hf, hq, hhs, hresv⟩ := admitStep_refused hc ha hlen h
    rw [he, State.arr_notePeaks, State.c32_notePeaks, State.c32_putArr, State.c32_portErr_same]
    refine ⟨b, ?_, hq, hhs, hresv, rfl, sameMem_of_mem (by simp)⟩
    rw [← hf] at harr ⊢
    exact State.arr_putArr (s := s.portErr a.port.val 0x144) harr
  · obtain ⟨b, he, hf, hb⟩ := admitStep_admitted hc ha hlen h hmin
    obtain ⟨hq, hadm, hresv, hraw, hstop⟩ := hb
    rw [he, State.arr_notePeaks]
    refine ⟨b, ?_, hq, hadm, hresv, hraw, hstop, rfl, sameMem_of_mem (by simp)⟩
    rw [← hf] at harr ⊢
    exact State.arr_putArr harr
  · intro s a hp hc p u
    refine ⟨lastByte_refused hc, lastByte_runt, lastByte_past, fun ha hr hn => lastByte_bad ha hr hn (by simp [Arrival.ext, hp]),
      fun ha hr hn hcode hf => ?_⟩
    have hne : portReg p 0x108 ≠ portReg p 0x100 := by simp [portReg]
    rw [lastByte_good ha hr hn hcode hf]
    refine ⟨?_, ?_, ?_, sameMem_of_mem (by simp)⟩
    · rw [State.c64_add64_other _ _ hne.symm, State.c64_add64_same, State.c64_putArr]
      rfl
    · rw [State.c64_add64_same, State.c64_add64_other _ _ hne, State.c64_putArr]
    · simp only [State.add64_cnt32]
      rfl
  · intro s a harr hc _ hst hhs hes hpar
    have h : EndsAlone s a := ⟨harr, hc, hst, hhs, by omega, hpar⟩
    exact ⟨fun hd => h.ingressTick_wait (by simpa [Arrival.endDue, hes] using hd), h.ingressTick_lastByte hes⟩

end Sys2Proof.Machine
end

