-- ==== Sys2Proof/Proofs/Forwarding.lean ====
section
/-! SUPPORT. The destination set of stage 4: what the stage makes of a reserved address and of any other frame (O13). -/

namespace Sys2Proof.Machine

/-! Reserved addresses (R74). -/

section
variable {s : State} {port vid : Nat} {p : Parsed} {e : Option Nat} (hr : p.reserved = true)
include hr

theorem forward_reserved_trap (hda : byteAt p.da 5 = 0x0E) (het : p.etype = 0x88F7 ∨ p.etype = 0x88CC) :
    (s.forward port p vid e).dropped = 0 ∧ (s.forward port p vid e).dests = 2 ^ 22 ∧ (s.forward port p vid e).learn = none := by
  simp [State.forward, hr, hda, het, Head.drop]

theorem forward_reserved_trap22 (hda : byteAt p.da 5 = 0x0E) (het : p.etype = 0x88F7 ∨ p.etype = 0x88CC) :
    (s.forward port p vid e).trap22 = true := by
  simp [State.forward, hr, hda, het]

theorem forward_reserved_pause (hda : byteAt p.da 5 = 1) (het : p.etype = 0x8808) :
    (s.forward port p vid e).dropped = 4 ∧ (s.forward port p vid e).count = 0x128 ∧ (s.forward port p vid e).learn = none := by
  simp [State.forward, hr, hda, het]

theorem forward_reserved_other (ht : ¬ (byteAt p.da 5 = 0x0E ∧ (p.etype = 0x88F7 ∨ p.etype = 0x88CC)))
    (hp : ¬ (byteAt p.da 5 = 1 ∧ p.etype = 0x8808)) :
    (s.forward port p vid e).dropped = 4 ∧ (s.forward port p vid e).count = 0x124 ∧ (s.forward port p vid e).learn = none := by
  simp [State.forward, hr, ht, hp]

/-- A reserved address is trapped to P22 alone, or dropped. -/
theorem forward_reserved_cases : (s.forward port p vid e).dropped = 4 ∨
    (s.forward port p vid e).dropped = 0 ∧ (s.forward port p vid e).dests = 2 ^ 22 ∧ (s.forward port p vid e).trap22 = true := by
  by_cases ht : byteAt p.da 5 = 0x0E ∧ (p.etype = 0x88F7 ∨ p.etype = 0x88CC)
  · obtain ⟨hdrop, hdests, -⟩ := forward_reserved_trap (s := s) (port := port) (vid := vid) (e := e) hr ht.1 ht.2
    exact .inr ⟨hdrop, hdests, forward_reserved_trap22 hr ht.1 ht.2⟩
  by_cases hp : byteAt p.da 5 = 1 ∧ p.etype = 0x8808
  · exact .inl (forward_reserved_pause hr hp.1 hp.2).1
  · exact .inl (forward_reserved_other hr ht hp).1

end

/-! Destination sets (R82). -/

/-- The ports of `cand` that a frame from `port` reaches in a VLAN of entry `v`. -/
def reachable (v port cand : Nat) : Nat := cand &&& bits v 23 0 &&& ((2 ^ 24 - 1) ^^^ 2 ^ port)

/-- A destination set, with P22 where the frame is trapped. -/
def withTrap (set : Nat) (trap : Bool) : Nat := if trap then set ||| 2 ^ 22 else set

theorem bit_members (v i : Nat) : bit (bits v 23 0) i = (decide (i < 24) && bit v i) := by
  rw [bit, bits, Nat.shiftRight_zero]
  exact Nat.testBit_mod_two_pow v 24 i

theorem bit_reachable (v port cand i : Nat) :
    bit (reachable v port cand) i = (bit cand i && (decide (i < 24) && bit v i) && decide (i ≠ port)) := by
  have hm := bit_members v i
  simp only [bit] at hm ⊢
  simp only [reachable, Nat.testBit_and, Nat.testBit_xor, Nat.testBit_two_pow_sub_one, Nat.testBit_two_pow, hm]
  by_cases hi : i < 24 <;> by_cases he : port = i <;> simp [hi, he, Ne.symm]

theorem bit_withTrap_other (set : Nat) (trap : Bool) {i : Nat} (hi : i ≠ 22) : bit (withTrap set trap) i = bit set i := by
  cases trap
  · rfl
  · simp [withTrap, bit, Nat.testBit_or, Nat.testBit_two_pow_of_ne (Ne.symm hi)]

/-- OUT_PORTS of the stream entry `e` of a frame, where it holds (R82). -/
def outPorts (e : Option Nat) : Option Nat :=
  match e with
  | some x => if bit x 472 then some (bits x 471 448) else none
  | none => none

/-- The MAC entry of the destination address, which neither OUT_PORTS nor a broadcast looks at (R82). -/
def State.daEntry (s : State) (p : Parsed) (fid : Nat) (e : Option Nat) : Option Nat :=
  if (outPorts e).isSome || leNat p.da = 2 ^ 48 - 1 then none else (s.macFind p.da fid).map s.macEntry

/-- The ports that OUT_PORTS, the MAC entry `hit` of the destination or the VLAN of entry `v` asks for (R82). -/
def askedPorts (p : Parsed) (v : Nat) (e hit : Option Nat) : Nat :=
  match outPorts e, hit with
  | some x, _ => x
  | none, some x => bits x 87 64
  | none, none =>
    if leNat p.da = 2 ^ 48 - 1 then bits v 23 0
    else if bit (byteAt p.da 0) 0 then (if bit v 27 then bits v 23 0 else 0)
    else (if bit v 26 then bits v 23 0 else 0)

/-- What the filter of a secondary leaves of a destination set (R350). -/
def State.pairKept (s : State) (p : Parsed) (e : Option Nat) (set : Nat) : Nat :=
  if s.secondary && !(p.rtag.isSome || (match e with | some x => bit x 416 || bit x 428 | none => false)) then set &&& 0xC00000 else set

theorem pairKept_primary {s : State} (h : s.secondary = false) (p : Parsed) (e : Option Nat) (set : Nat) : s.pairKept p e set = set := by
  simp [State.pairKept, h]

theorem bit_of_pairKept (s : State) (p : Parsed) (e : Option Nat) (set i : Nat) : bit (s.pairKept p e set) i = true → bit set i = true :=
  iteInduction (motive := fun x => bit x i = true → bit set i = true)
    (fun _ h => ((Bool.and_eq_true ..).mp ((Nat.testBit_and ..).symm.trans h)).1) (fun _ h => h)

theorem secondary_of_pairKept_zero {s : State} {p : Parsed} {e : Option Nat} {set : Nat} (hs : set ≠ 0) (h : s.pairKept p e set = 0) :
    s.secondary = true := by
  by_contra hn
  exact hs ((pairKept_primary (by simpa using hn) p e set).symm.trans h)

/-- The MAC entry `hit` of the destination traps the frame to P22, which `set` does not hold (R82). -/
def trapsHit (hit : Option Nat) (set : Nat) : Bool :=
  match hit with
  | some x => bit x 90 && !bit set 22
  | none => false

/-- The destination set of a frame from `port` before a trap and the filter of a secondary. -/
def State.reached (s : State) (port : Nat) (p : Parsed) (v : Nat) (e : Option Nat) : Nat :=
  reachable v port (askedPorts p v e (s.daEntry p (bits v 75 64) e))

/-- A broadcast without OUT_PORTS meets no MAC entry and reaches all members of the VLAN. -/
theorem reached_broadcast {s : State} {p : Parsed} {e : Option Nat} (hda : leNat p.da = 2 ^ 48 - 1)
    (he : ∀ x, e = some x → bit x 472 = false) (port v : Nat) :
    s.daEntry p (bits v 75 64) e = none ∧ s.reached port p v e = reachable v port (bits v 23 0) := by
  have hout : outPorts e = none := by
    cases e with
    | none => rfl
    | some x => simp [outPorts, he x rfl]
  simp [State.reached, State.daEntry, askedPorts, hout, hda]

/-! The stage as a whole. -/

/-- Head `h` sends a frame to the ports that it reaches and, trapped, to P22, as far as the filter of a secondary leaves them. -/
structure Sends (s : State) (port : Nat) (p : Parsed) (v : Nat) (e : Option Nat) (h : Head) : Prop where
  passed : h.dropped = 0
  nonempty : h.dests ≠ 0
  trap : h.trap22 = trapsHit (s.daEntry p (bits v 75 64) e) (s.reached port p v e)
  dests : h.dests = s.pairKept p e (withTrap (s.reached port p v e) h.trap22)

/-- What stage 4 makes of a frame of no reserved address: it is dropped by its VLAN, by a locked source, with an empty set or by a secondary, or
it is sent. -/
inductive Forwards (s : State) (port : Nat) (p : Parsed) (v : Nat) (e : Option Nat) (h : Head) : Prop where
  | dropped (hd : h.dropped = 4) (hc : h.count = 0x120 ∨ h.count = 0x13C ∨ h.count = 0x130 ∨ (s.secondary = true ∧ h.count = 1))
  | sent (hs : Sends s port p v e h)

theorem forward_cases (s : State) (port vid : Nat) {p : Parsed} (e : Option Nat) (hr : p.reserved = false) :
    Forwards s port p (s.vlan vid) e (s.forward port p vid e) := by
  unfold State.forward
  dsimp only
  rw [if_neg (by simp [hr])]
  refine iteInduction (fun _ => .dropped rfl (.inl rfl)) fun _ => ?_
  refine iteInduction (fun _ => .dropped rfl (.inr (.inl rfl))) fun _ => ?_
  refine iteInduction (fun _ => .dropped rfl (.inr (.inr (.inl rfl)))) fun hset => ?_
  refine iteInduction (fun hz => ?_) fun hne => .sent ⟨rfl, hne, rfl, rfl⟩
  exact .dropped rfl (.inr (.inr (.inr ⟨secondary_of_pairKept_zero (p := p) (e := e) hset hz, rfl⟩)))

theorem forward_no_vlan {s : State} {port vid : Nat} {p : Parsed} {e : Option Nat} (hr : p.reserved = false) (hp : port < 24)
    (h : bit (s.vlan vid) 24 = false ∨ (s.paramBit (0x02C0 + port) 2 = true ∧ bit (s.vlan vid) port = false)) :
    (s.forward port p vid e).dropped = 4 ∧ (s.forward port p vid e).count = 0x120 := by
  have hc : (!bit (s.vlan vid) 24 || (s.inOpt port 2 && !bit (bits (s.vlan vid) 23 0) port)) = true := by
    simpa [State.inOpt, bit_members, hp] using h
  unfold State.forward
  dsimp only
  rw [if_neg (by simp [hr]), if_pos hc]
  exact ⟨rfl, rfl⟩

namespace Sends
variable {s : State} {port v : Nat} {p : Parsed} {e : Option Nat} {h : Head}

/-- A destination that no trap adds is a member of the VLAN and not the ingress port. -/
theorem within (hs : Sends s port p v e h) {i : Nat} (hi : h.trap22 = false ∨ i ≠ 22) (hb : bit h.dests i = true) :
    bit v i = true ∧ i < 24 ∧ i ≠ port := by
  have hset := bit_of_pairKept s p e _ i (hs.dests ▸ hb)
  have hreach : bit (s.reached port p v e) i = true := by
    obtain ht | hi := hi
    · rwa [ht] at hset
    · rwa [bit_withTrap_other _ _ hi] at hset
  rw [State.reached, bit_reachable] at hreach
  simp only [Bool.and_eq_true, decide_eq_true_eq] at hreach
  obtain ⟨⟨-, hlt, hv⟩, hne⟩ := hreach
  exact ⟨hv, hlt, hne⟩

theorem broadcast (hs : Sends s port p v e h) (hda : leNat p.da = 2 ^ 48 - 1) (hsec : s.secondary = false)
    (he : ∀ x, e = some x → bit x 472 = false) {i : Nat} (hi : i < 24) : bit h.dests i = (bit v i && decide (i ≠ port)) := by
  obtain ⟨hhit, hall⟩ := reached_broadcast (s := s) hda he port v
  have htrap : h.trap22 = false := hs.trap.trans (by rw [hhit]; rfl)
  rw [hs.dests, pairKept_primary hsec, htrap, hall]
  exact (bit_reachable ..).trans (by simp [bit_members, hi])

end Sends

/-- Settles O13: a reserved address is trapped or dropped; any other frame is dropped with a counter of the stage, or sent within its VLAN. -/
theorem forwarding : Obligations.Forwarding := by
  unfold Obligations.Forwarding
  intro s port vid p e hp h v
  cases hr : p.reserved with
  | true =>
    have hcases : h.dropped = 4 ∨ h.dropped = 0 ∧ h.dests = 2 ^ 22 ∧ h.trap22 = true := forward_reserved_cases hr
    have htrap (hd : h.dropped = 0) : h.dests = 2 ^ 22 ∧ h.trap22 = true := (hcases.resolve_left (by omega)).2
    refine ⟨hcases.symm.imp_left And.left, fun hd ht => ?_, fun hd i hi hb => ?_, fun hd => ?_, fun _ => forward_reserved_trap hr,
      fun _ => forward_reserved_pause hr, fun _ => forward_reserved_other hr, nofun, nofun, nofun⟩
    · exact absurd ((htrap hd).2.symm.trans ht) (by decide)
    · rw [(htrap hd).1, bit, Nat.testBit_two_pow_of_ne (Ne.symm hi)] at hb
      exact absurd hb Bool.false_ne_true
    · rw [(htrap hd).1]
      decide
  | false =>
    have hvlan := fun hv => forward_no_vlan (s := s) (vid := vid) (e := e) hr hp hv
    obtain ⟨hd, hc⟩ | hs : Forwards s port p v e h := forward_cases s port vid e hr
    · have h0 {c : Prop} (hz : h.dropped = 0) : c := absurd (hd.symm.trans hz) (by decide)
      exact ⟨.inr hd, h0, h0, h0, nofun, nofun, nofun, fun _ => hvlan, fun _ _ => hc, fun _ => h0⟩
    · have h4 {c : Prop} (hz : h.dropped = 4) : c := absurd (hs.passed.symm.trans hz) (by decide)
      refine ⟨.inl hs.passed, fun _ ht => ⟨?_, fun i hb => ?_⟩, fun _ i hi hb => ?_, fun _ => hs.nonempty, nofun, nofun, nofun, fun _ => hvlan,
        fun _ => h4, fun _ _ hda hsec he i hi => hs.broadcast hda hsec he hi⟩
      · by_contra hb
        exact (hs.within (.inl ht) (by simpa using hb)).2.2 rfl
      · obtain ⟨hv, hlt, -⟩ := hs.within (.inl ht) hb
        exact ⟨hv, hlt⟩
      · obtain ⟨hv, -, hne⟩ := hs.within (.inr hi) hb
        exact ⟨hv, hne⟩

end Sys2Proof.Machine
end

