-- ==== Sys2Proof/Proofs/BufferCode.lean ====
section
/-! SUPPORT. The code of a half-cell: its field adds, its syndromes add, and the division by g(x) leaves a codeword (O16). -/

namespace Sys2Proof.Machine

/-! Multiplication in GF(2⁸) adds (R96): addition is exclusive or. -/

theorem rsX_eq {a : Nat} (ha : a < 256) : rsX a = (a <<< 1) ^^^ (if a.testBit 7 then 0x11D else 0) := by
  have hb : a.testBit 7 = decide (128 ≤ a) := by
    rw [Nat.testBit_eq_decide_div_mod_eq]
    congr 1
    rw [eq_iff_iff]
    omega
  unfold rsX
  rw [hb, Nat.shiftLeft_eq]
  by_cases h : 128 ≤ a
  · simp [h, show 256 ≤ a * 2 by omega]
  · simp [h, show ¬ 256 ≤ a * 2 by omega]

theorem rsX_lt {a : Nat} (ha : a < 256) : rsX a < 256 := by
  unfold rsX
  dsimp only
  split
  · have hq : (a * 2 ^^^ 0x11D) / 2 ^ 8 = 0 := by
      rw [Nat.xor_div_two_pow, show a * 2 / 2 ^ 8 = 1 by omega]
      rfl
    omega
  · omega

theorem rsX_xor {a b : Nat} (ha : a < 256) (hb : b < 256) : rsX (a ^^^ b) = rsX a ^^^ rsX b := by
  rw [rsX_eq ha, rsX_eq hb, rsX_eq (Nat.xor_lt_two_pow (n := 8) ha hb), Nat.testBit_xor, Nat.shiftLeft_xor_distrib]
  cases a.testBit 7 <;> cases b.testBit 7 <;> simp [Nat.xor_assoc, Nat.xor_comm, Nat.xor_left_comm]

/-- One step of a product by `b`: the sum so far and the present multiple of the first factor. -/
def rsMulStep (b : Nat) (acc : Nat × Nat) (i : Nat) : Nat × Nat := (if bit b i then acc.1 ^^^ acc.2 else acc.1, rsX acc.2)

theorem rsMul_eq (a b : Nat) : rsMul a b = ((List.range 8).foldl (rsMulStep b) (0, a)).1 := rfl

theorem foldl_rsMulStep_lt (b : Nat) (l : List Nat) {p : Nat × Nat} (h1 : p.1 < 256) (h2 : p.2 < 256) :
    (l.foldl (rsMulStep b) p).1 < 256 := by
  induction l generalizing p with
  | nil => exact h1
  | cons i l ih =>
    refine ih ?_ (rsX_lt h2)
    rw [rsMulStep]
    split
    · exact Nat.xor_lt_two_pow (n := 8) h1 h2
    · exact h1

theorem foldl_rsMulStep_xor (b : Nat) (l : List Nat) {p q : Nat × Nat} (hp : p.2 < 256) (hq : q.2 < 256) :
    (l.foldl (rsMulStep b) (p.1 ^^^ q.1, p.2 ^^^ q.2)).1 = (l.foldl (rsMulStep b) p).1 ^^^ (l.foldl (rsMulStep b) q).1 := by
  induction l generalizing p q with
  | nil => rfl
  | cons i l ih =>
    have hstep : rsMulStep b (p.1 ^^^ q.1, p.2 ^^^ q.2) i =
        ((rsMulStep b p i).1 ^^^ (rsMulStep b q i).1, (rsMulStep b p i).2 ^^^ (rsMulStep b q i).2) := by
      cases hb : bit b i <;> simp [rsMulStep, hb, rsX_xor hp hq, Nat.xor_assoc, Nat.xor_left_comm]
    rw [List.foldl_cons, hstep]
    exact ih (rsX_lt hp) (rsX_lt hq)

theorem rsMul_lt {a : Nat} (b : Nat) (ha : a < 256) : rsMul a b < 256 := foldl_rsMulStep_lt b _ (p := (0, a)) (by omega) ha

theorem rsMul_xor {a b : Nat} (c : Nat) (ha : a < 256) (hb : b < 256) : rsMul (a ^^^ b) c = rsMul a c ^^^ rsMul b c := by
  simpa [rsMul_eq] using foldl_rsMulStep_xor c (List.range 8) (p := (0, a)) (q := (0, b)) ha hb

@[simp] theorem rsMul_zero_left (b : Nat) : rsMul 0 b = 0 := by
  simpa using rsMul_xor (a := 0) (b := 0) b (by omega) (by omega)

/-! Syndromes add, and are 0 for the multiples of g(x) (R96). -/

/-- The evaluation of symbols at αⁱ, behind symbols whose value is `a`. -/
def rsHorner (i a : Nat) (l : List Nat) : Nat := l.foldl (fun a c => rsMul a (rsPow i) ^^^ c) a

theorem rsSyn_append (i : Nat) (l m : List Nat) : rsSyn i (l ++ m) = rsHorner i (rsSyn i l) m := List.foldl_append

theorem rsHorner_lt (i : Nat) {a : Nat} {l : List Nat} (ha : a < 256) (hl : ∀ x ∈ l, x < 256) : rsHorner i a l < 256 := by
  induction l generalizing a with
  | nil => exact ha
  | cons c l ih =>
    obtain ⟨hc, hl⟩ := List.forall_mem_cons.1 hl
    exact ih (Nat.xor_lt_two_pow (n := 8) (rsMul_lt _ ha) hc) hl

theorem rsHorner_xor (i : Nat) {a b : Nat} {l m : List Nat} (ha : a < 256) (hb : b < 256) (hl : ∀ x ∈ l, x < 256) (hm : ∀ x ∈ m, x < 256)
    (hlen : l.length = m.length) :
    rsHorner i (a ^^^ b) (List.zipWith (· ^^^ ·) l m) = rsHorner i a l ^^^ rsHorner i b m := by
  induction l generalizing a b m with
  | nil => cases m with
    | nil => rfl
    | cons d m => simp at hlen
  | cons c l ih => cases m with
    | nil => simp at hlen
    | cons d m =>
      obtain ⟨hc, hl⟩ := List.forall_mem_cons.1 hl
      obtain ⟨hd, hm⟩ := List.forall_mem_cons.1 hm
      have hsum : rsMul (a ^^^ b) (rsPow i) ^^^ (c ^^^ d) = (rsMul a (rsPow i) ^^^ c) ^^^ (rsMul b (rsPow i) ^^^ d) := by
        rw [rsMul_xor _ ha hb]
        ac_rfl
      rw [List.zipWith_cons_cons, rsHorner, List.foldl_cons, hsum]
      exact ih (Nat.xor_lt_two_pow (n := 8) (rsMul_lt _ ha) hc) (Nat.xor_lt_two_pow (n := 8) (rsMul_lt _ hb) hd) hl hm (by simpa using hlen)

theorem rsGen_eq : rsGen = [15, 54, 120, 64] := by decide

/-- A property of bytes that sums keep holds of every byte once it holds of the powers of x. -/
theorem byte_xor_induction {P : Nat → Prop} (zero : P 0) (add : ∀ {a b}, a < 256 → b < 256 → P a → P b → P (a ^^^ b))
    (pow : ∀ k, k < 8 → P (2 ^ k)) {a : Nat} (ha : a < 256) : P a := by
  have hk : ∀ k, k ≤ 8 → ∀ a, a < 2 ^ k → P a := by
    intro k
    induction k with
    | zero =>
      intro _ a ha
      rwa [show a = 0 by omega]
    | succ k ih =>
      intro hk a ha
      have hpow : 2 ^ k ≤ 2 ^ 7 := Nat.pow_le_pow_right (by omega) (by omega)
      by_cases hlt : a < 2 ^ k
      · exact ih (by omega) a hlt
      · have hq : (a ^^^ 2 ^ k) / 2 ^ k = 0 := by
          rw [Nat.xor_div_two_pow, Nat.div_self (by omega), show a / 2 ^ k = 1 from Nat.div_eq_of_lt_le (by omega) (by omega)]
          rfl
        have hlow : a ^^^ 2 ^ k < 2 ^ k := (Nat.div_eq_zero_iff_lt (by omega)).1 hq
        rw [← Nat.xor_xor_cancel_right a (2 ^ k)]
        exact add (by omega) (by omega) (ih (by omega) _ hlow) (pow k (by omega))
  exact hk 8 (by omega) a ha

theorem rsGen_map_lt {f : Nat} (hf : f < 256) : ∀ x ∈ rsGen.map (rsMul f), x < 256 := by
  rw [List.forall_mem_map]
  exact fun g _ => rsMul_lt g hf

/-- A multiple of g(x) by a symbol is a codeword. -/
theorem rsHorner_generator {i : Nat} (hi : i < 4) {f : Nat} (hf : f < 256) : rsHorner i f (rsGen.map (rsMul f)) = 0 := by
  refine byte_xor_induction (P := fun f => rsHorner i f (rsGen.map (rsMul f)) = 0) ?zero ?add ?pow hf
  case zero => simp [rsHorner, rsGen_eq]
  case add =>
    intro a b ha hb h1 h2
    have hsum : rsGen.map (rsMul (a ^^^ b)) = List.zipWith (· ^^^ ·) (rsGen.map (rsMul a)) (rsGen.map (rsMul b)) := by
      simp [rsGen_eq, rsMul_xor _ ha hb]
    rw [hsum, rsHorner_xor i ha hb (rsGen_map_lt ha) (rsGen_map_lt hb) (by simp), h1, h2]
    rfl
  case pow =>
    have hall : ∀ k < 8, ∀ i < 4, rsHorner i (2 ^ k) (rsGen.map (rsMul (2 ^ k))) = 0 := by decide
    exact fun k hk => hall k hk i hi

/-! The division by g(x) leaves a codeword (R96). -/

/-- Four check symbols behind data of value `h` make a codeword, as far as syndrome i says. -/
structure Completes (i h : Nat) (r : List Nat) : Prop where
  length : r.length = 4
  symbols : ∀ x ∈ r, x < 256
  zero : rsHorner i h r = 0

/-- The codeword of one more data symbol is the present one, shifted, and a multiple of g(x) that clears the place of its last data symbol. -/
theorem Completes.step {i h d : Nat} {r : List Nat} (hi : i < 4) (hh : h < 256) (hd : d < 256) (hr : Completes i h r) :
    Completes i (rsMul h (rsPow i) ^^^ d) (rsStep r d) := by
  obtain ⟨hlen, hsym, hzero⟩ := hr
  obtain ⟨r3, low, rfl⟩ := List.exists_cons_of_length_eq_add_one hlen
  obtain ⟨h3, hlow⟩ := List.forall_mem_cons.1 hsym
  have hf : r3 ^^^ d < 256 := Nat.xor_lt_two_pow (n := 8) h3 hd
  have hstep : rsStep (r3 :: low) d = List.zipWith (· ^^^ ·) (low ++ [0]) (rsGen.map (rsMul (r3 ^^^ d))) := rfl
  have hshift : ∀ x ∈ low ++ [0], x < 256 := by simpa [or_imp, forall_and] using hlow
  have hlen4 : (low ++ [0]).length = (rsGen.map (rsMul (r3 ^^^ d))).length := by simpa [rsGen_eq] using hlen
  refine ⟨?_, ?_, ?_⟩
  · rw [hstep, List.length_zipWith, ← hlen4]
    simpa using hlen
  · rw [hstep, ← List.map_uncurry_zip_eq_zipWith, List.forall_mem_map]
    rintro ⟨x, y⟩ hxy
    obtain ⟨hx, hy⟩ := List.of_mem_zip hxy
    exact Nat.xor_lt_two_pow (n := 8) (hshift x hx) (rsGen_map_lt hf y hy)
  · have hval : rsMul h (rsPow i) ^^^ d = (rsMul h (rsPow i) ^^^ r3) ^^^ (r3 ^^^ d) := by
      rw [Nat.xor_assoc, Nat.xor_xor_cancel_left]
    have hold : rsHorner i (rsMul h (rsPow i) ^^^ r3) (low ++ [0]) = 0 := by
      rw [rsHorner, List.foldl_append, show List.foldl _ _ low = 0 from hzero]
      simp
    rw [hstep, hval, rsHorner_xor i (Nat.xor_lt_two_pow (n := 8) (rsMul_lt _ hh) h3) hf hshift (rsGen_map_lt hf) hlen4, hold,
      rsHorner_generator hi hf]
    rfl

theorem rsCheck_completes {i : Nat} (hi : i < 4) {data : List Nat} (h : ∀ x ∈ data, x < 256) :
    Completes i (rsSyn i data) (rsCheck data) := by
  induction data using List.reverseRecOn with
  | nil => exact ⟨rfl, by simp [rsCheck], by simp [rsSyn, rsCheck, rsHorner]⟩
  | append_singleton data d ih =>
    have hdata : ∀ x ∈ data, x < 256 := fun x hx => h x (by simp [hx])
    rw [rsSyn_append, rsCheck, List.foldl_append]
    exact (ih hdata).step hi (rsHorner_lt i (by omega) hdata) (h d (by simp))

theorem rsSyns_rsCheck {data : List Nat} (h : ∀ x ∈ data, x < 256) : rsSyns (data ++ rsCheck data) = [0, 0, 0, 0] := by
  have hz {i : Nat} (hi : i < 4) : rsSyn i (data ++ rsCheck data) = 0 := by rw [rsSyn_append, (rsCheck_completes hi h).zero]
  simp [rsSyns, List.range_succ, hz]

/-- A word whose syndromes are 0 is delivered as it is (R97). -/
theorem rsDecode_codeword {cw : List Nat} (h : rsSyns cw = [0, 0, 0, 0]) : rsDecode cw = some (cw, 0) := by
  simp [rsDecode, h]

/-- Settles O16: the invariant of the division, that data and remainder make a codeword, for each of the four roots of g(x). -/
theorem codewordsDecode : Obligations.CodewordsDecode := by
  unfold Obligations.CodewordsDecode
  intro data _ hdata
  have hs := rsSyns_rsCheck hdata
  exact ⟨hs, rsDecode_codeword hs⟩

end Sys2Proof.Machine
end

