-- ==== Sys2Proof/Proofs/SwitchReads.lean ====
section
/-! SUPPORT. Reads of memory, a counter or the egress state of a port after a write, and a device fault of a running device (O15, O17, O18). -/

namespace Sys2Proof.Machine

/-! Memory and counters. -/

theorem State.rdB_of_mem {s t : State} (h : t.mem = s.mem) (a n : Nat) : t.rdB a n = s.rdB a n := by
  induction n generalizing a with
  | zero => rfl
  | succ n ih => simp only [State.rdB, State.rd8, h, ih]

theorem sameMemBut_of_mem {s t u : State} {a n : Nat} (h : SameMemBut s t a n) (hm : u.mem = t.mem) : SameMemBut s u a n :=
  fun b hb => by rw [State.rd8, hm]; exact h b hb

theorem portReg_mod {p off : Nat} (h : off < 65536) : portReg p off % 65536 = off := by
  unfold portReg
  omega

theorem State.c32_portErr_other (s : State) (p off : Nat) {a : Nat} (h : a ≠ portReg p off) : (s.portErr p off).c32 a = s.c32 a :=
  SMap.get_set_other _ _ _ _ h

theorem State.c32_peak_other (s : State) (v : Nat) {a b : Nat} (h : b ≠ a) : (s.peak a v).c32 b = s.c32 b := SMap.get_set_other _ _ _ _ h

@[simp] theorem c32_settle (s t : State) (a : Nat) : (settle s t).c32 a = t.c32 a := rfl

/-! The egress state of a port. -/

@[simp] theorem State.egr_setEgr_same (s : State) (o : Nat) (e : Egress) : (s.setEgr o e).egr o = e := SMap.get_set_same ..

@[simp] theorem egr_settle (s t : State) (o : Nat) : (settle s t).egr o = t.egr o := rfl

@[simp] theorem State.egr_portErr (s : State) (p off o : Nat) : (s.portErr p off).egr o = s.egr o := rfl

theorem State.egr_setEgr_other (s : State) {o p : Nat} (e : Egress) (h : p ≠ o) : (s.setEgr o e).egr p = s.egr p := SMap.get_set_other _ _ _ _ h

/-! Device faults. -/

/-- A device fault of a device that runs: fail-silent, with its entry the last one of the record (R31 to R34). -/
theorem deviceFault_live {s : State} (hl : s.live = true) (hi : s.pw.inh0 = true) (hv : s.pw.vaon = true) (code unit : Nat) (detail : List Nat) :
    (s.deviceFault code unit detail).pw.mode = .failSilent ∧
    (s.deviceFault code unit detail).pw.fr.last = some (faultEntry s code unit detail) ∧
    (s.upd.ready = none → (s.deviceFault code unit detail).mem = s.mem) := by
  have hlive : s.pw.mode = .operating ∧ s.pw.rstLow = false := by simpa [State.live] using hl
  obtain ⟨hmode, hrst⟩ := hlive
  obtain ⟨hm, -, hf, -, -, -, -, -, -, -, hmem, -⟩ := deviceFault_fields hi hv hrst (by simp [hmode]) code unit detail
  exact ⟨hm, by rw [hf, add_last], hmem⟩

end Sys2Proof.Machine
end

