-- ==== Sys2Proof/Proofs/Scrubbing.lean ====
section
/-! SUPPORT. A read of the scrubber, what the decoder says of it, and its write-back (O15). -/

namespace Sys2Proof.Machine

/-! Codewords of memory (R96, R100). -/

@[simp] theorem State.putCodeword_pw (s : State) (h : Nat) (b : List Byte) : (s.putCodeword h b).pw = s.pw := rfl
@[simp] theorem State.putCodeword_upd (s : State) (h : Nat) (b : List Byte) : (s.putCodeword h b).upd = s.upd := rfl
@[simp] theorem State.putCodeword_time (s : State) (h : Nat) (b : List Byte) : (s.putCodeword h b).time = s.time := rfl

theorem State.putCodeword_sameMemBut (s : State) (h : Nat) (b : List Byte) : SameMemBut s (s.putCodeword h b) (0x08000000 + h * 32) 32 := by
  intro a ha
  have hlen : (b.take 32).length ≤ 32 := List.length_take_le 32 b
  exact s.wrB_rd8_other _ _ (by omega)

theorem State.putCodeword_rd8 (s : State) (h : Nat) {b : List Byte} (hb : b.length = 36) {j : Nat} (hj : j < 32) :
    (s.putCodeword h b).rd8 (0x08000000 + h * 32 + j) = b.getD j 0 := by
  have hlen : j < (b.take 32).length := by
    rw [List.length_take]
    omega
  rw [List.getD_eq_getElem _ _ (by omega), ← List.getElem_take (h := hlen)]
  exact s.wrB_rd8_same _ _ hlen

@[simp] theorem State.putCodeword_check_same (s : State) (h : Nat) (b : List Byte) :
    SMap.get 0 (s.putCodeword h b).check h = BitVec.ofNat 32 (leNat (b.drop 32)) := SMap.get_set_same ..

theorem State.putCodeword_check_other (s : State) {h k : Nat} (b : List Byte) (hk : k ≠ h) :
    SMap.get 0 (s.putCodeword h b).check k = SMap.get 0 s.check k := SMap.get_set_other _ _ _ _ hk

/-! SCRUB_READ (R97, R99). -/

/-- The half-cell that the scrubber reads after the present one. -/
def State.scrubAfter (s : State) : Nat := if s.sw.scrubPos + 1 ≥ halfCells then 0 else s.sw.scrubPos + 1

/-- A pass over the buffer that ends is counted (R99). -/
def State.countPass (s : State) (next : Nat) : State := if next = 0 then s.bump 0x04890018 else s

/-- A read of the scrubber begins: the next half-cell, the next instant, and the count of passes over the buffer. -/
def State.scrubBegin (s : State) : State :=
  { s with sw.scrubPos := s.scrubAfter, sw.scrubLeft := s.sw.scrubLeft - 1,
           sw.scrubDue := s.sw.scrubDue + (if s.sw.scrubLeft = 0 then 320 else 20), sw.scrubAt := s.now + 1,
           sw.readHold := if s.sw.readAt ≤ s.now then s.sw.readHold else s.now + 1 }.countPass s.scrubAfter

/-- The codeword that the scrubber reads, with the errors that have arisen in it. -/
def State.scrubWord (s : State) (up : List (Fin 36 × Byte)) : List Nat :=
  up.foldl (fun w x => rsFlip w x.1.val x.2.toNat) (codeword (s.rdB (0x08000000 + s.sw.scrubPos * 32) 32) (SMap.get 0 s.check s.sw.scrubPos))

/-- The state in which the codeword is decoded: the errors stand in memory. -/
def State.scrubArisen (s : State) (up : List (Fin 36 × Byte)) : State :=
  if up.isEmpty then s.scrubBegin else s.scrubBegin.putCodeword s.sw.scrubPos ((s.scrubWord up).map (BitVec.ofNat 8))

/-- A read of the scrubber begins in this cycle: it is due, none has begun, and the read port is idle or the read is 64 cycles late. -/
def State.ScrubDue (s : State) : Prop :=
  s.live = true ∧ s.sw.scrubDue ≤ s.time.cycle ∧ s.sw.scrubAt ≤ s.time.cycle ∧
  (s.sw.readAt ≤ s.time.cycle ∨ s.sw.scrubDue + 64 ≤ s.time.cycle)

theorem State.countPass_only (s : State) (n : Nat) : ∃ c, s.countPass n = { s with cnt32 := c } := by
  unfold State.countPass
  split
  · exact ⟨_, rfl⟩
  · exact ⟨_, rfl⟩

/-- What the beginning of a read changes: the registers of the scrubber and its counters. -/
theorem State.scrubBegin_only (s : State) : ∃ c, s.scrubBegin =
    { s with sw.scrubPos := s.scrubAfter, sw.scrubLeft := s.sw.scrubLeft - 1,
             sw.scrubDue := s.sw.scrubDue + (if s.sw.scrubLeft = 0 then 320 else 20), sw.scrubAt := s.now + 1,
             sw.readHold := (if s.sw.readAt ≤ s.now then s.sw.readHold else s.now + 1), cnt32 := c } :=
  State.countPass_only _ _

@[simp] theorem State.scrubBegin_mem (s : State) : s.scrubBegin.mem = s.mem := by
  obtain ⟨c, h⟩ := s.scrubBegin_only
  rw [h]

@[simp] theorem State.scrubBegin_check (s : State) : s.scrubBegin.check = s.check := by
  obtain ⟨c, h⟩ := s.scrubBegin_only
  rw [h]

theorem scrubRead_waits {s : State} (up : List (Fin 36 × Byte)) (h : s.time.cycle < s.sw.scrubDue ∨ s.time.cycle < s.sw.scrubAt ∨
    (s.time.cycle < s.sw.readAt ∧ s.time.cycle < s.sw.scrubDue + 64)) : scrubRead up s = s := by
  unfold scrubRead
  rw [← State.now] at h
  refine if_pos ?_
  simp
  omega

theorem scrubRead_due {s : State} (h : s.ScrubDue) (up : List (Fin 36 × Byte)) :
    scrubRead up s = s.scrubBegin.scrubHalf s.sw.scrubPos (up.map (fun (j, v) => (j.val, v.toNat))) := by
  obtain ⟨hl, hd, ha, hp⟩ := h
  unfold scrubRead
  rw [← State.now] at hd ha hp
  refine if_neg ?_
  simp [hl]
  omega

theorem State.scrubBegin_word (s : State) (up : List (Fin 36 × Byte)) :
    (up.map (fun (j, v) => (j.val, v.toNat))).foldl (fun w (j, v) => rsFlip w j v)
      (codeword (s.scrubBegin.rdB (0x08000000 + s.sw.scrubPos * 32) 32) (SMap.get 0 s.scrubBegin.check s.sw.scrubPos)) = s.scrubWord up := by
  rw [List.foldl_map, State.rdB_of_mem s.scrubBegin_mem, State.scrubBegin_check]
  rfl

theorem State.scrubArisen_of_empty (s : State) : s.scrubArisen [] = s.scrubBegin := rfl

@[simp] theorem State.scrubArisen_sw (s : State) (up : List (Fin 36 × Byte)) : (s.scrubArisen up).sw = s.scrubBegin.sw := by
  unfold State.scrubArisen
  split <;> rfl

@[simp] theorem State.scrubArisen_pw (s : State) (up : List (Fin 36 × Byte)) : (s.scrubArisen up).pw = s.pw := by
  obtain ⟨c, h⟩ := s.scrubBegin_only
  unfold State.scrubArisen
  split <;> simp [h]

@[simp] theorem State.scrubArisen_upd (s : State) (up : List (Fin 36 × Byte)) : (s.scrubArisen up).upd = s.upd := by
  obtain ⟨c, h⟩ := s.scrubBegin_only
  unfold State.scrubArisen
  split <;> simp [h]

@[simp] theorem State.scrubArisen_time (s : State) (up : List (Fin 36 × Byte)) : (s.scrubArisen up).time = s.time := by
  obtain ⟨c, h⟩ := s.scrubBegin_only
  unfold State.scrubArisen
  split <;> simp [h]

theorem State.scrubArisen_c32 (s : State) (up : List (Fin 36 × Byte)) (a : Nat) : (s.scrubArisen up).c32 a = s.scrubBegin.c32 a := by
  unfold State.scrubArisen
  split <;> rfl

theorem State.scrubArisen_sameMemBut (s : State) (up : List (Fin 36 × Byte)) :
    SameMemBut s (s.scrubArisen up) (0x08000000 + s.sw.scrubPos * 32) 32 := by
  unfold State.scrubArisen
  split
  · exact fun b _ => by rw [State.rd8, State.scrubBegin_mem, State.rd8]
  · intro b hb
    rw [State.putCodeword_sameMemBut _ _ _ b hb, State.rd8, State.scrubBegin_mem, State.rd8]

theorem State.scrubArisen_check_other (s : State) (up : List (Fin 36 × Byte)) {k : Nat} (hk : k ≠ s.sw.scrubPos) :
    SMap.get 0 (s.scrubArisen up).check k = SMap.get 0 s.check k := by
  unfold State.scrubArisen
  split
  · rw [State.scrubBegin_check]
  · rw [State.putCodeword_check_other _ _ hk, State.scrubBegin_check]

theorem State.c32_scrubBegin_other (s : State) {a : Nat} (h : a ≠ 0x04890018) : s.scrubBegin.c32 a = s.c32 a := by
  unfold State.scrubBegin State.countPass
  split
  · exact State.c32_bump_other _ h
  · rfl

theorem State.c32_scrubBegin_passes (s : State) : s.scrubBegin.c32 0x04890018 =
    if s.scrubAfter = 0 then satInc (s.c32 0x04890018) else s.c32 0x04890018 := by
  unfold State.scrubBegin State.countPass
  split
  · exact State.c32_bump_same ..
  · rfl

/-! A corrected half-cell (R97, R125, R313). -/

theorem State.noteCorrected_zero (s : State) (half src : Nat) : s.noteCorrected half 0 src = s := rfl

section
variable (s : State) (half src : Nat) {n : Nat}

theorem State.noteCorrected_eq (hn : n ≠ 0) : s.noteCorrected half n src =
    State.irq { s.bump (if n = 1 then 0x0489000C else 0x04890010) with sw.rsLast := BitVec.ofNat 32 (half + src * 2 ^ 19 + 2 ^ 21) } 10 :=
  if_neg hn

@[simp] theorem State.noteCorrected_check : (s.noteCorrected half n src).check = s.check := by
  unfold State.noteCorrected
  split <;> rfl

@[simp] theorem State.noteCorrected_time : (s.noteCorrected half n src).time = s.time := by
  unfold State.noteCorrected
  split <;> rfl

theorem State.noteCorrected_sw (hn : n ≠ 0) :
    (s.noteCorrected half n src).sw = { s.sw with rsLast := BitVec.ofNat 32 (half + src * 2 ^ 19 + 2 ^ 21) } := by
  rw [State.noteCorrected_eq s half src hn, State.irq_sw]
  dsimp only
  rw [State.bump_sw]

theorem State.noteCorrected_irq (hn : n ≠ 0) : (s.noteCorrected half n src).dw.irqW1c.getLsbD 10 = true := by
  rw [State.noteCorrected_eq s half src hn, State.irq, State.setIrq]
  dsimp only
  rw [BitVec.getLsbD_or, show (BitVec.ofNat 16 (2 ^ 10)).getLsbD 10 = true by decide, Bool.or_true]

theorem State.c32_noteCorrected_same (hn : n ≠ 0) :
    (s.noteCorrected half n src).c32 (if n = 1 then 0x0489000C else 0x04890010) = satInc (s.c32 (if n = 1 then 0x0489000C else 0x04890010)) := by
  rw [State.noteCorrected_eq s half src hn, State.c32, State.irq_cnt32]
  exact State.c32_bump_same ..

theorem State.c32_noteCorrected_other {a : Nat} (h1 : a ≠ 0x0489000C) (h2 : a ≠ 0x04890010) :
    (s.noteCorrected half n src).c32 a = s.c32 a := by
  by_cases hn : n = 0
  · rw [hn, State.noteCorrected_zero]
  · rw [State.noteCorrected_eq s half src hn, State.c32, State.irq_cnt32]
    exact State.c32_bump_other _ (by split <;> assumption)

end

/-! What a read leaves. -/

/-- The codeword that the scrubber has corrected is counted and waits for its write-back (R97, R100). -/
def State.scrubCorrected (s : State) (up : List (Fin 36 × Byte)) (w : List Nat) (n : Nat) : State :=
  if n = 0 then s.scrubArisen up
  else State.noteCorrected { s.scrubArisen up with sw.scrubHold := s.sw.scrubHold ++ [(s.time.cycle + 4, s.sw.scrubPos, w.map (BitVec.ofNat 8))] }
    s.sw.scrubPos n 1

theorem scrubRead_corrected {s : State} (h : s.ScrubDue) {up : List (Fin 36 × Byte)} {w : List Nat} {n : Nat}
    (hd : rsDecode (s.scrubWord up) = some (w, n)) : scrubRead up s = s.scrubCorrected up w n := by
  obtain ⟨c, hb⟩ := s.scrubBegin_only
  have hhold : (s.scrubArisen up).sw.scrubHold = s.sw.scrubHold := by rw [State.scrubArisen_sw, hb]
  have hnow : (s.scrubArisen up).now = s.time.cycle := by rw [State.now, State.scrubArisen_time]
  rw [scrubRead_due h, State.scrubCorrected, ← hhold, ← hnow, State.scrubHalf]
  simp only [s.scrubBegin_word up, decodeHalf, hd, List.isEmpty_map]
  rfl

theorem scrubRead_uncorrectable {s : State} (h : s.ScrubDue) {up : List (Fin 36 × Byte)} (hd : rsDecode (s.scrubWord up) = none) :
    scrubRead up s = (s.scrubArisen up).deviceFault 0x0101 1 [s.sw.scrubPos, 0xFF, (decodeHalf (s.scrubWord up)).2] := by
  rw [scrubRead_due h, State.scrubHalf]
  simp only [s.scrubBegin_word up, decodeHalf, hd, List.isEmpty_map]
  rfl

section
variable (s : State) (up : List (Fin 36 × Byte)) (w : List Nat) (n : Nat)

@[simp] theorem State.scrubCorrected_mem : (s.scrubCorrected up w n).mem = (s.scrubArisen up).mem := by
  unfold State.scrubCorrected
  split
  · rfl
  · rw [State.noteCorrected_mem]

@[simp] theorem State.scrubCorrected_check : (s.scrubCorrected up w n).check = (s.scrubArisen up).check := by
  unfold State.scrubCorrected
  split
  · rfl
  · rw [State.noteCorrected_check]

@[simp] theorem State.scrubCorrected_time : (s.scrubCorrected up w n).time = s.time := by
  unfold State.scrubCorrected
  split
  · rw [State.scrubArisen_time]
  · rw [State.noteCorrected_time]
    exact State.scrubArisen_time ..

theorem State.scrubCorrected_zero : s.scrubCorrected up w 0 = s.scrubArisen up := rfl

theorem State.scrubCorrected_eq {n : Nat} (hn : n ≠ 0) : s.scrubCorrected up w n = State.noteCorrected { s.scrubArisen up with
    sw.scrubHold := s.sw.scrubHold ++ [(s.time.cycle + 4, s.sw.scrubPos, w.map (BitVec.ofNat 8))] } s.sw.scrubPos n 1 := if_neg hn

/-- Of the switch a read changes the registers of the scrubber alone. -/
theorem State.scrubCorrected_sw : ∃ hold last port, (s.scrubCorrected up w n).sw =
    { s.sw with scrubPos := s.scrubAfter, scrubLeft := s.sw.scrubLeft - 1, scrubHold := hold, rsLast := last, readHold := port,
                scrubDue := s.sw.scrubDue + (if s.sw.scrubLeft = 0 then 320 else 20), scrubAt := s.now + 1 } := by
  obtain ⟨c, hb⟩ := s.scrubBegin_only
  by_cases hn : n = 0
  · rw [hn, State.scrubCorrected_zero, State.scrubArisen_sw, hb]
    exact ⟨_, _, _, rfl⟩
  · rw [State.scrubCorrected_eq s up w hn, State.noteCorrected_sw _ _ _ hn]
    dsimp only
    rw [State.scrubArisen_sw, hb]
    exact ⟨_, _, _, rfl⟩

theorem State.scrubCorrected_hold_zero : (s.scrubCorrected up w 0).sw.scrubHold = s.sw.scrubHold := by
  obtain ⟨c, hb⟩ := s.scrubBegin_only
  rw [State.scrubCorrected_zero, State.scrubArisen_sw, hb]

theorem State.scrubCorrected_held {n : Nat} (hn : n ≠ 0) :
    (s.scrubCorrected up w n).sw.scrubHold = s.sw.scrubHold ++ [(s.time.cycle + 4, s.sw.scrubPos, w.map (BitVec.ofNat 8))] ∧
    (s.scrubCorrected up w n).sw.rsLast = BitVec.ofNat 32 (s.sw.scrubPos + 2 ^ 19 + 2 ^ 21) ∧
    (s.scrubCorrected up w n).dw.irqW1c.getLsbD 10 = true := by
  rw [State.scrubCorrected_eq s up w hn]
  refine ⟨by rw [State.noteCorrected_sw _ _ _ hn], ?_, State.noteCorrected_irq _ _ _ hn⟩
  rw [State.noteCorrected_sw _ _ _ hn, Nat.one_mul]

theorem State.c32_scrubCorrected_other {a : Nat} (h1 : a ≠ 0x0489000C) (h2 : a ≠ 0x04890010) :
    (s.scrubCorrected up w n).c32 a = s.scrubBegin.c32 a := by
  unfold State.scrubCorrected
  split
  · exact State.scrubArisen_c32 ..
  · rw [State.c32_noteCorrected_other _ _ _ h1 h2]
    exact State.scrubArisen_c32 ..

theorem State.c32_scrubCorrected_same {n : Nat} (hn : n ≠ 0) : (s.scrubCorrected up w n).c32 (if n = 1 then 0x0489000C else 0x04890010) =
    satInc (s.c32 (if n = 1 then 0x0489000C else 0x04890010)) := by
  rw [State.scrubCorrected_eq s up w hn, State.c32_noteCorrected_same _ _ _ hn]
  congr 1
  exact (State.scrubArisen_c32 ..).trans (State.c32_scrubBegin_other _ (by split <;> decide))

end

/-! Write-back (R100). -/

theorem scrubBack_waits {s : State} {at_ h : Nat} {b : List Byte} (hs : s.sw.scrubHold = [(at_, h, b)]) (hd : s.time.cycle < at_) :
    s.scrubBack = s := by
  have hn : ¬ at_ ≤ s.now := Nat.not_le.2 hd
  have hnone : s.sw.scrubHold.filter (fun x => x.1 ≤ s.now) = [] := by simp [hs, hn]
  have hall : s.sw.scrubHold.filter (fun x => !(x.1 ≤ s.now)) = s.sw.scrubHold := by simp [hs, hn]
  rw [State.scrubBack, hnone, hall]
  rfl

theorem scrubBack_due {s : State} {at_ h : Nat} {b : List Byte} (hs : s.sw.scrubHold = [(at_, h, b)]) (hd : at_ ≤ s.time.cycle) :
    s.scrubBack = State.putCodeword { s with sw.scrubHold := [] } h b := by
  have hn : at_ ≤ s.now := hd
  simp [State.scrubBack, hs, hn]

/-- A write of a half-cell cancels its write-back. -/
theorem mem_writeHalf_scrubHold {s : State} {h : Nat} {b : List Byte} {x : Nat × Nat × List Byte} (hx : x ∈ (s.writeHalf h b).sw.scrubHold) :
    x ∈ s.sw.scrubHold ∧ x.2.1 ≠ h := by
  have hx : x ∈ s.sw.scrubHold.filter (fun x => x.2.1 ≠ h) := hx
  simpa using hx

theorem exec_scrubRead (s : State) (up : List (Fin 36 × Byte)) : exec (.scrubRead up) s = .next (settle s (scrubRead up s)) := rfl

/-- Settles O15: a read that is due by what the decoder says, one that is not, the write-back, and what a write of a half-cell cancels. -/
theorem scrubbing : Obligations.Scrubbing := by
  unfold Obligations.Scrubbing
  refine ⟨fun s up hl hpos hdue hat hport => ?_, fun s up h => ?_, ?_, ?_⟩
  · have h : s.ScrubDue := ⟨hl, hdue, hat, hport⟩
    have hnext : (if s.sw.scrubPos = 393215 then 0 else s.sw.scrubPos + 1) = s.scrubAfter := by
      unfold State.scrubAfter halfCells
      split <;> split <;> omega
    dsimp only
    rw [hnext]
    refine ⟨fun w n hd => ?_, fun hd hi hv hr => ?_⟩
    · refine ⟨settle s (s.scrubCorrected up w n), by rw [exec_scrubRead, scrubRead_corrected h hd], ?_⟩
      obtain ⟨hold, last, port, hsw⟩ := s.scrubCorrected_sw up w n
      simp only [settle_sw, settle_check, settle_dw, settle_time, State.scrubCorrected_time, State.scrubCorrected_check]
      refine ⟨by rw [hsw], by rw [hsw], by rw [hsw], by rw [hsw]; rfl, ?_, ?_, ?_, ?_, ?_, ?_, ?_, ?_, ?_, by rw [hsw], trivial⟩
      · rintro rfl
        exact ⟨sameMem_of_mem (by simp [State.scrubArisen_of_empty]), by simp [State.scrubArisen_of_empty]⟩
      · exact sameMemBut_of_mem (s.scrubArisen_sameMemBut up) (by simp)
      · exact fun k hk => s.scrubArisen_check_other up hk
      · rintro rfl
        exact s.scrubCorrected_hold_zero up w
      · exact fun hn => s.scrubCorrected_held up w hn
      · rintro rfl
        exact s.c32_scrubCorrected_same up w (n := 1) (by decide)
      · rintro rfl
        exact s.c32_scrubCorrected_same up w (n := 2) (by decide)
      · intro h0
        exact (s.c32_scrubCorrected_other up w n (by decide) (by decide)).trans (s.c32_scrubBegin_passes.trans (if_pos h0))
      · intro h0
        exact (s.c32_scrubCorrected_other up w n (by decide) (by decide)).trans (s.c32_scrubBegin_passes.trans (if_neg h0))
    · obtain ⟨hm, hlast, hmem⟩ := deviceFault_live (s := s.scrubArisen up) (by simpa [State.live] using hl) (by simpa using hi)
        (by simpa using hv) 0x0101 1 [s.sw.scrubPos, 0xFF, (decodeHalf (s.scrubWord up)).2]
      refine ⟨_, by rw [exec_scrubRead, scrubRead_uncorrectable h hd], ?_⟩
      rw [settle_pw]
      exact ⟨hm, sameMemBut_of_mem (s.scrubArisen_sameMemBut up) (by rw [settle_mem, hmem (by simpa using hr)]), _, hlast, rfl, rfl, rfl⟩
  · rw [exec_scrubRead, scrubRead_waits up h]
  · intro s at_ h b hs hb
    refine ⟨fun hd => scrubBack_waits hs hd, fun hd => ?_⟩
    rw [scrubBack_due hs hd]
    exact ⟨rfl, State.putCodeword_sameMemBut _ h b, fun j hj => State.putCodeword_rd8 _ h hb hj, State.putCodeword_check_same _ h b⟩
  · exact fun s h b x hx => mem_writeHalf_scrubHold hx

end Sys2Proof.Machine
end

