-- ==== Sys2Proof/Proofs/Confluence.lean ====
section
/-! SUPPORT. Cells that arrive at a confluence, the release of the cell in order, and the timeout of a cell that is held (O17). -/

namespace Sys2Proof.Machine

/-! CELL_ARRIVE (R112, R113). -/

section
variable {s : State} {o i : Port} {pl : Fin 4} {q : BitVec 12} (up : List (Fin 2 × Fin 36 × Byte))

/-- How far the number `q` of a cell from input `i` is ahead of the one that output `o` expects. -/
def State.cellAhead (s : State) (o i : Port) (q : BitVec 12) : Nat := (q - SMap.get 0 s.fab.expect (i.val * 24 + o.val)).toNat

theorem cellArrive_integrity (hl : s.live = true) (h : q.toNat % 4 ≠ pl.val ∨ 256 ≤ s.cellAhead o i q) :
    cellArrive o i pl q up s = s.deviceFault 0x0103 pl.val [i.val, o.val, q.toNat, s.cellAhead o i q] := by
  unfold cellArrive
  rw [if_neg (by simp [hl])]
  exact if_pos (by simpa [State.cellAhead] using h)

/-- The cell as its confluence stores it. -/
def CellTx.stored (c : CellTx) (at_ : Nat) (up : List (Fin 2 × Fin 36 × Byte)) : CellTx :=
  { c with at_ := at_, upset := up.map (fun (h, j, v) => (h.val, j.val, v.toNat)) }

/-- A cell that has arrived, with its errors, is stored by its confluence. -/
def State.storeCell (s : State) (c : CellTx) : State :=
  { s with fab.flight := s.fab.flight.filter (fun (x : CellTx) => !x.same c), fab.store := s.fab.store ++ [c] }

/-- A cell ahead of the expected one is counted, with the peak of the cells that the output holds (R125). -/
def State.countAhead (s : State) (o : Port) : State :=
  (s.portErr o.val 0x194).peak (portReg o.val 0x198) (s.fab.store.filter (fun x => x.out = o)).length

theorem cellArrive_stored {c : CellTx} (hl : s.live = true) (hp : q.toNat % 4 = pl.val) (hd : s.cellAhead o i q < 256)
    (hf : s.fab.flight.find? (fun c => c.inp = i && c.out = o && c.seq = q && c.at_ ≤ s.now) = some c) :
    cellArrive o i pl q up s = if s.cellAhead o i q = 0 then s.storeCell (c.stored s.time.cycle up)
      else (s.storeCell (c.stored s.time.cycle up)).countAhead o := by
  unfold cellArrive
  rw [if_neg (by simp [hl])]
  dsimp only
  rw [if_neg (by simpa [State.cellAhead, hp] using hd), hf]
  rfl

end

/-- Counting a cell that is ahead touches counters alone. -/
theorem countAhead_only (ahead : Prop) [Decidable ahead] (s : State) (o : Port) :
    ∃ c d, (if ahead then s else s.countAhead o) = { s with cnt32 := c, dw.portErr := d } := by
  split
  · exact ⟨_, _, rfl⟩
  · exact ⟨_, _, rfl⟩

theorem State.c32_countAhead (s : State) (o : Port) :
    (s.countAhead o).c32 (portReg o.val 0x194) = satInc (s.c32 (portReg o.val 0x194)) := by
  unfold State.countAhead
  rw [State.c32_peak_other _ _ (by simp [portReg]), State.c32_portErr_same]

/-! The release of the cell in order (R113). -/

/-- The cell that output `o` expects of its input. -/
def State.inOrder (s : State) (o : Nat) (c : CellTx) : Bool := c.out.val = o && c.seq = SMap.get 0 s.fab.expect (c.inp.val * 24 + o)

/-- The one of two cells that comes from the lower input, the one found first on equal inputs. -/
def lowerInput (b : Option CellTx) (c : CellTx) : Option CellTx :=
  match b with
  | none => some c
  | some x => if c.inp.val < x.inp.val then some c else some x

/-- A cell leaves the confluence of output `o`. -/
def State.releaseCell (s : State) (o : Nat) (c : CellTx) : State :=
  { s with fab.store := s.fab.store.filter (fun (x : CellTx) => !x.same c), fab.out := s.fab.out ++ [{ c with at_ := s.now + 8 }],
           fab.expect := SMap.set 0 s.fab.expect (c.inp.val * 24 + o) (SMap.get 0 s.fab.expect (c.inp.val * 24 + o) + 1) }

theorem releaseNext_some {s : State} {o : Nat} {c : CellTx} (h : (s.fab.store.filter (s.inOrder o)).foldl lowerInput none = some c) :
    s.releaseNext o = s.releaseCell o c := by
  unfold State.releaseNext
  dsimp only
  split
  · next d hd => rw [Option.some.inj (hd.symm.trans h)]; rfl
  · next hd => exact absurd (hd.symm.trans h) nofun

theorem releaseNext_none {s : State} {o : Nat} (h : s.fab.store.filter (s.inOrder o) = []) : s.releaseNext o = s := by
  unfold State.releaseNext
  dsimp only
  rw [show s.fab.store.filter (fun c => c.out.val = o && c.seq = SMap.get 0 s.fab.expect (c.inp.val * 24 + o)) = [] from h]
  rfl

/-- Going through cells finds one of the lowest input. -/
theorem foldl_lowerInput (l : List CellTx) (b : CellTx) :
    ∃ c ∈ b :: l, l.foldl lowerInput (some b) = some c ∧ ∀ x ∈ b :: l, c.inp.val ≤ x.inp.val := by
  induction l generalizing b with
  | nil => exact ⟨b, by simp, rfl, by simp⟩
  | cons y l ih =>
    rw [List.foldl_cons, lowerInput]
    by_cases hy : y.inp.val < b.inp.val
    · rw [if_pos hy]
      obtain ⟨c, hc, hfold, hmin⟩ := ih y
      refine ⟨c, List.mem_cons_of_mem _ hc, hfold, List.forall_mem_cons.2 ⟨?_, hmin⟩⟩
      exact (hmin y List.mem_cons_self).trans hy.le
    · rw [if_neg hy]
      obtain ⟨c, hc, hfold, hmin⟩ := ih b
      obtain ⟨hb, hl⟩ := List.forall_mem_cons.1 hmin
      refine ⟨c, ?_, hfold, by simpa using ⟨hb, hb.trans (Nat.not_lt.1 hy), hl⟩⟩
      rcases List.mem_cons.1 hc with rfl | hc <;> simp [*]

theorem releaseNext_inOrder {s : State} {o : Nat} (h : ∃ c ∈ s.fab.store, s.inOrder o c = true) :
    ∃ c ∈ s.fab.store, s.inOrder o c = true ∧ (∀ x ∈ s.fab.store, s.inOrder o x = true → c.inp.val ≤ x.inp.val) ∧
      s.releaseNext o = s.releaseCell o c := by
  obtain ⟨d, hd, hdo⟩ := h
  have hne : d ∈ s.fab.store.filter (s.inOrder o) := List.mem_filter.2 ⟨hd, hdo⟩
  obtain ⟨b, l, hl⟩ := List.exists_cons_of_ne_nil (List.ne_nil_of_mem hne)
  obtain ⟨c, hc, hfold, hmin⟩ := foldl_lowerInput l b
  rw [← hl] at hc hmin
  obtain ⟨hc, hco⟩ := List.mem_filter.1 hc
  refine ⟨c, hc, hco, fun x hx hxo => hmin x (List.mem_filter.2 ⟨hx, hxo⟩), releaseNext_some ?_⟩
  rw [hl, List.foldl_cons]
  exact hfold

/-! CONFLUENCE_TIMEOUT (R114). -/

theorem confluenceTimeout_found {s : State} {o : Port} {c : CellTx} (hl : s.live = true)
    (hf : s.fab.store.find? (fun c => c.out = o && s.now ≥ c.at_ + 1600) = some c) :
    confluenceTimeout o s = s.deviceFault 0x0102 o.val [c.inp.val, (SMap.get 0 s.fab.expect (c.inp.val * 24 + o.val)).toNat, c.seq.toNat,
      (s.fab.store.filter (fun x => x.out = o)).length] := by
  unfold confluenceTimeout
  rw [if_neg (by simp [hl]), hf]

theorem exec_cellArrive (s : State) (o i : Port) (pl : Fin 4) (q : BitVec 12) (up : List (Fin 2 × Fin 36 × Byte)) :
    exec (.cellArrive o i pl q up) s = .next (settle s (cellArrive o i pl q up s)) := rfl

theorem exec_confluenceTimeout (s : State) (o : Port) : exec (.confluenceTimeout o) s = .next (settle s (confluenceTimeout o s)) := rfl

/-- Settles O17: a cell that does not fit and one that does, the release at the end of a cycle, and the timeout. -/
theorem confluence : Obligations.Confluence := by
  unfold Obligations.Confluence
  refine ⟨fun s o i pl q up hl => ⟨fun h hi hv => ?_, fun c hp hd hf => ?_⟩, fun s o => ⟨fun h => ?_, fun h => ?_⟩, ?_⟩
  · obtain ⟨hm, hlast, -⟩ := deviceFault_live hl hi hv 0x0103 pl.val [i.val, o.val, q.toNat, s.cellAhead o i q]
    refine ⟨_, by rw [exec_cellArrive, cellArrive_integrity up hl h], ?_⟩
    rw [settle_pw]
    exact ⟨hm, _, hlast, rfl, rfl, rfl⟩
  · have hcell : c.inp = i ∧ c.out = o ∧ c.seq = q ∧ c.at_ ≤ s.now := by simpa [and_assoc] using List.find?_some hf
    obtain ⟨rfl, rfl, rfl, -⟩ := hcell
    obtain ⟨n, e, hu⟩ := countAhead_only (s.cellAhead c.out c.inp c.seq = 0) (s.storeCell (c.stored s.time.cycle up)) c.out
    refine ⟨_, by rw [exec_cellArrive, cellArrive_stored up hl hp hd hf], ?_⟩
    simp only [settle_fab, settle_pw, settle_sw]
    refine ⟨by rw [hu]; rfl, by rw [hu]; rfl, by rw [hu]; rfl, by rw [hu]; rfl, ?_, by rw [hu]; exact live_mode hl, by rw [hu]; rfl,
      sameMem_of_mem (by rw [settle_mem, hu]; rfl)⟩
    rw [State.c32, settle_cnt32, ← State.c32]
    split
    · next h0 => exact (if_pos h0).symm
    · next h0 => exact (State.c32_countAhead ..).trans (if_neg h0).symm
  · exact releaseNext_none (List.filter_eq_nil_iff.2 fun c hc => ne_true_of_eq_false (h c hc))
  · obtain ⟨c, hc, hdue, hmin, ht⟩ := releaseNext_inOrder h
    have hseq : c.seq = SMap.get 0 s.fab.expect (c.inp.val * 24 + o) := by
      simp only [State.inOrder, Bool.and_eq_true, decide_eq_true_eq] at hdue
      exact hdue.2
    refine ⟨c, hc, hdue, hmin, ?_⟩
    rw [ht]
    refine ⟨rfl, rfl, ?_, fun k hk => SMap.get_set_other _ _ _ _ hk, rfl, rfl⟩
    rw [hseq]
    exact SMap.get_set_same ..
  · intro s o c hl hi hv hf
    obtain ⟨hm, hlast, -⟩ := deviceFault_live hl hi hv 0x0102 o.val [c.inp.val,
      (SMap.get 0 s.fab.expect (c.inp.val * 24 + o.val)).toNat, c.seq.toNat, (s.fab.store.filter (fun x => x.out = o)).length]
    refine ⟨_, by rw [exec_confluenceTimeout, confluenceTimeout_found hl hf], ?_⟩
    rw [settle_pw]
    exact ⟨hm, _, hlast, rfl, rfl, rfl⟩

end Sys2Proof.Machine
end

