-- ==== Sys2Proof/Proofs/FrameEnds.lean ====
section
/-! SUPPORT. What the steps behind the MAC leave as a frame ends: wires, the frames selected next, time and the counters of stomped frames (O18). -/

namespace Sys2Proof.Machine

/-! What goes on behind the MAC as a frame ends (R107, R121, R123, R129, R140). -/

/-- The counters of a port that a stomped frame counts in (R124): EG_STOMP and those of its two reasons. -/
def stompOffsets : List Nat := [0x180, 0x184, 0x188]

theorem lt_of_mem_stompOffsets {off : Nat} (h : off ∈ stompOffsets) : off < 65536 := by
  have hall : ∀ x ∈ stompOffsets, x < 65536 := by decide
  exact hall off h

/-- A change that leaves what has left each port, the frames that it sends next, time, and the counters of stomped frames. -/
structure EndKept (s t : State) : Prop where
  wire : t.sw.wire = s.sw.wire
  tx : ∀ p, (t.egr p).tx = (s.egr p).tx
  next : ∀ p, (t.egr p).next = (s.egr p).next
  time : t.time = s.time
  stomps : ∀ p, ∀ off ∈ stompOffsets, t.c32 (portReg p off) = s.c32 (portReg p off)

namespace EndKept
variable {s t u : State}

theorem refl (s : State) : EndKept s s := ⟨rfl, fun _ => rfl, fun _ => rfl, rfl, fun _ _ _ => rfl⟩

theorem trans (h : EndKept s t) (k : EndKept t u) : EndKept s u :=
  ⟨k.wire.trans h.wire, fun p => (k.tx p).trans (h.tx p), fun p => (k.next p).trans (h.next p), k.time.trans h.time,
    fun p off ho => (k.stomps p off ho).trans (h.stomps p off ho)⟩

/-- A change elsewhere. -/
theorem elsewhere (h : EndKept s t) (wire : u.sw.wire = t.sw.wire := by rfl) (egress : u.sw.egress = t.sw.egress := by rfl)
    (time : u.time = t.time := by rfl) (cnt32 : u.cnt32 = t.cnt32 := by rfl) : EndKept s u :=
  h.trans ⟨wire, fun p => by rw [State.egr, egress, State.egr], fun p => by rw [State.egr, egress, State.egr], time,
    fun p off _ => by rw [State.c32, cnt32, State.c32]⟩

/-- Another counter. -/
theorem bump (h : EndKept s t) {a : Nat} (ha : a % 65536 ∉ stompOffsets) : EndKept s (t.bump a) := by
  refine h.trans ⟨rfl, fun _ => rfl, fun _ => rfl, rfl, fun p off ho => State.c32_bump_other _ ?_⟩
  rintro rfl
  exact ha (by rwa [portReg_mod (lt_of_mem_stompOffsets ho)])

theorem ite {c : Prop} [Decidable c] {u v : State} (hu : EndKept s u) (hv : EndKept s v) : EndKept s (if c then u else v) := by
  split
  · exact hu
  · exact hv

theorem setFrame (h : EndKept s t) (f : Nat) (v : Option Frame) : EndKept s (t.setFrame f v) := h.elsewhere
theorem setCls (h : EndKept s t) (o c : Nat) (q : ClassQ) : EndKept s (t.setCls o c q) := h.elsewhere
theorem setLeaf (h : EndKept s t) (o c d : Nat) (l : Leaf) : EndKept s (t.setLeaf o c d l) := h.elsewhere
theorem add64 (h : EndKept s t) (a n : Nat) : EndKept s (t.add64 a n) := h.elsewhere

theorem releaseCells (h : EndKept s t) (fid : Nat) : EndKept s (t.releaseCells fid) := by
  unfold State.releaseCells
  split
  · exact h.elsewhere
  · exact h

theorem finishDest (h : EndKept s t) (fid d : Nat) : EndKept s (t.finishDest fid d) := by
  unfold State.finishDest
  split
  · exact (h.setFrame _ _).releaseCells fid
  · exact h

theorem abandon (h : EndKept s t) (fid d : Nat) : EndKept s (t.abandon fid d) := by
  unfold State.abandon
  split
  · exact h
  · exact ((ite (h.setCls _ _ _) h).elsewhere).finishDest fid d

theorem correctTx (h : EndKept s t) (o : Nat) (x : TxFrame) (len : Nat) : EndKept s (t.correctTx o x len) :=
  ite h (h.setLeaf _ _ _ _)

theorem chargeCredit (h : EndKept s t) (o c : Nat) (len : Int) : EndKept s (t.chargeCredit o c len) := ite (h.setCls _ _ _) h

theorem mcFail (h : EndKept s t) (f : Frame) (d : Nat) : EndKept s (t.mcFail f d) :=
  ite ((h.bump (by rw [portReg_mod (by decide)]; decide)).elsewhere (t := t.bump (portReg (destPort d) 0x190))) h

theorem countSealed (h : EndKept s t) (o : Nat) (x : TxFrame) : EndKept s (t.countSealed o x) :=
  ite h (ite (h.bump (by rw [portReg_mod (by decide)]; decide)) (h.add64 _ _))

/-- A port keeps what it sends and what it sends next. -/
theorem setEgr (h : EndKept s t) (o : Nat) {e : Egress} (ht : e.tx = (t.egr o).tx) (hn : e.next = (t.egr o).next) : EndKept s (t.setEgr o e) := by
  refine h.trans ⟨rfl, fun p => ?_, fun p => ?_, rfl, fun _ _ _ => rfl⟩
  · by_cases hp : p = o
    · rw [hp, State.egr_setEgr_same, ht]
    · rw [State.egr_setEgr_other _ _ hp]
  · by_cases hp : p = o
    · rw [hp, State.egr_setEgr_same, hn]
    · rw [State.egr_setEgr_other _ _ hp]

theorem chargeLimit (h : EndKept s t) (o : Nat) (key : Option Nat) (len at_ : Nat) : EndKept s (t.chargeLimit o key len at_) :=
  ite h (h.setEgr o rfl rfl)

/-! A keep-alive or an Announce that reaches firmware (R47, R316 to R320, R351). -/

theorem keptUpdate (h : EndKept s t) (table index : Nat) (valid : Bool) (body : List Byte) : EndKept s (t.keptUpdate table index valid body) := by
  have hfull : EndKept s (State.bump t (mirReg 0x1C)) := h.bump (by decide)
  exact ite h (ite h.elsewhere (ite h.elsewhere (ite hfull.elsewhere h.elsewhere)))

theorem fwEvent (h : EndKept s t) (i : Nat) : EndKept s (t.fwEvent i) := h.elsewhere

theorem linWakeUp (h : EndKept s t) : EndKept s t.linWakeUp := by
  obtain ⟨l, hl⟩ := linWakeUp_only t
  rw [hl]
  exact h.elsewhere

theorem enterAwake (h : EndKept s t) (except : Nat) : EndKept s (t.enterAwake except) := by
  unfold State.enterAwake
  extract_lets _ u
  have hu : EndKept s ({ u with nm.state := .awake }.fwEvent 0).mirrorNm :=
    ((h.elsewhere (u := { u with nm.state := .awake })).fwEvent 0).keptUpdate ..
  obtain ⟨p, a, n, m, hw, -⟩ := wakePulses_only ({ u with nm.state := .awake }.fwEvent 0).mirrorNm except
  rw [hw]
  exact hu.elsewhere

theorem wakeRequest (h : EndKept s t) (except : Nat) : EndKept s (t.wakeRequest except) := by
  unfold State.wakeRequest
  split
  · exact h
  · have ha : EndKept s { t.latchWake 0x80 with nm.aborts := satInc t.nm.aborts } := h.elsewhere
    exact ite h.elsewhere (ite h.elsewhere (ha.linWakeUp.enterAwake except))
  · exact h.elsewhere

theorem countKa (h : EndKept s t) (node : Nat) (awoken : Bool) (src : Nat) : EndKept s (t.countKa node awoken src) := by
  unfold State.countKa
  extract_lets x silent ignored awakeAt met _ counted
  have hc : EndKept s counted := h.elsewhere
  refine ite h.elsewhere ?_
  split
  · exact hc
  · exact ite ((hc.elsewhere (u := counted.latchWake 0x100)).wakeRequest 0) hc.elsewhere
  · exact hc.elsewhere

theorem udpKeepAlive (h : EndKept s t) (b : List Byte) (vid : Nat) : EndKept s (t.udpKeepAlive b vid) := ite (h.countKa _ _ _) h

theorem takeAnnounce (h : EndKept s t) (p : Nat) (b : List Byte) : EndKept s (t.takeAnnounce p b) := ite h h.elsewhere

theorem toFirmware (h : EndKept s t) (f : Frame) (d : Nat) (b : List Byte) : EndKept s (t.toFirmware f d b) := by
  unfold State.toFirmware
  extract_lets _ handed _
  have hh : EndKept s handed := h.elsewhere
  exact ite hh ((ite (hh.takeAnnounce _ _) hh).udpKeepAlive _ _)

end EndKept

end Sys2Proof.Machine
end

