-- ==== Sys2Proof/Proofs/TransmitEnds.lean ====
section
/-! SUPPORT. The bytes with which a frame leaves its port, at its end and at an underrun, and the frame that takes its place (O18). -/

namespace Sys2Proof.Machine

/-! A frame leaves its port (R120, R124, R133). -/

/-- The MAC has no frame, and is free from cycle `n` on. -/
def State.macFreed (s : State) (o n : Nat) : State := s.setEgr o { s.egr o with tx := none, freeAt := n }

@[simp] theorem State.egr_macFreed (s : State) (o n : Nat) : (s.macFreed o n).egr o = { s.egr o with tx := none, freeAt := n } :=
  State.egr_setEgr_same ..

/-- Bytes stand on the wire of a port. -/
def State.putWire (s : State) (o : Nat) (b : List Byte) : State := { s with sw.wire := SMap.set [] s.sw.wire o b }

theorem EndKept.sentFrame (s : State) (o c : Nat) (f : Frame) (d : Nat) (b : List Byte) (stomped : Bool) :
    EndKept (s.putWire o b) (s.sentFrame o c f d b stomped) := by
  unfold State.sentFrame
  extract_lets _ t body
  have ht : EndKept (s.putWire o b) t := (EndKept.refl (s.putWire o b)).add64 (txCnt o c 8) b.length
  exact ite (ite ht (ht.toFirmware _ _ _)) (ite ht.elsewhere ht)

theorem State.promote_egr {s : State} {o : Nat} (h : (s.egr o).tx = none) :
    ((s.promote o).egr o).tx = (s.egr o).next.head? ∧ ((s.promote o).egr o).next = (s.egr o).next.tail := by
  unfold State.promote
  dsimp only
  rw [h]
  cases hn : (s.egr o).next with
  | nil => exact ⟨h, hn⟩
  | cons x l => simp

theorem State.promote_only (s : State) (o : Nat) : ∃ e, s.promote o = { s with sw.egress := e } := by
  unfold State.promote
  dsimp only
  split
  · exact ⟨_, rfl⟩
  · exact ⟨_, rfl⟩

/-- From `s` on, a frame has left port `o` with the bytes `b`: they stand on its wire and on no other, the frame selected next takes its place, and
the counters of stomped frames stand. -/
structure FrameLeft (s : State) (o : Nat) (b : List Byte) (t : State) : Prop where
  wire : SMap.get [] t.sw.wire o = b
  others : ∀ p, p ≠ o → SMap.get [] t.sw.wire p = SMap.get [] s.sw.wire p
  tx : (t.egr o).tx = (s.egr o).next.head?
  next : (t.egr o).next = (s.egr o).next.tail
  time : t.time = s.time
  stomps : ∀ off ∈ stompOffsets, t.c32 (portReg o off) = s.c32 (portReg o off)

theorem EndKept.promoted {s t : State} {o : Nat} {b : List Byte} (h : EndKept (s.putWire o b) t) (ht : (s.egr o).tx = none) :
    FrameLeft s o b (t.promote o) := by
  obtain ⟨htx, hnext⟩ := State.promote_egr ((h.tx o).trans ht)
  obtain ⟨e, he⟩ := t.promote_only o
  have hwire : (t.promote o).sw.wire = SMap.set [] s.sw.wire o b := by
    rw [he]
    exact h.wire
  rw [h.next o] at htx hnext
  refine ⟨by rw [hwire, SMap.get_set_same], fun p hp => by rw [hwire, SMap.get_set_other _ _ _ _ hp], htx, hnext, ?_, fun off ho => ?_⟩
  · rw [he]
    exact h.time
  · rw [he]
    exact h.stomps o off ho

namespace FrameLeft
variable {s t u : State} {o : Nat} {b : List Byte}

theorem of_kept (k : EndKept s t) (h : FrameLeft t o b u) : FrameLeft s o b u :=
  ⟨h.wire, fun p hp => by rw [h.others p hp, k.wire], by rw [h.tx, k.next], by rw [h.next, k.next], h.time.trans k.time,
    fun off ho => (h.stomps off ho).trans (k.stomps o off ho)⟩

theorem of_macFreed {n : Nat} (h : FrameLeft (s.macFreed o n) o b u) : FrameLeft s o b u :=
  ⟨h.wire, h.others, by rw [h.tx, State.egr_macFreed], by rw [h.next, State.egr_macFreed], h.time, h.stomps⟩

end FrameLeft

/-! The bytes of a check sequence. -/

theorem natLe_four_injective {a b : Word} (h : natLe 4 a.toNat = natLe 4 b.toNat) : a = b := by
  simp only [natLe, List.cons.injEq, and_true, ← BitVec.toNat_inj, BitVec.toNat_ofNat] at h
  apply BitVec.eq_of_toNat_eq
  omega

/-- The FCS behind `m` is its own exactly where the carried one was that of the bytes. -/
theorem carried_fcs_iff (m : List Byte) (fcs own carried : Word) :
    m ++ natLe 4 (fcs ^^^ own ^^^ carried).toNat = m ++ natLe 4 fcs.toNat ↔ carried = own := by
  rw [List.append_right_inj, BitVec.xor_assoc]
  refine ⟨fun h => ?_, fun h => by rw [h, BitVec.xor_self, BitVec.xor_zero]⟩
  have hz : fcs ^^^ (own ^^^ carried) = fcs ^^^ 0 := (natLe_four_injective h).trans BitVec.xor_zero.symm
  exact (BitVec.xor_eq_zero_iff.1 ((BitVec.xor_right_inj fcs).1 hz)).symm

/-! FRAME_TRANSMIT_END (R98, R134). -/

/-- A frame found bad is counted as stomped. -/
def State.countBad (s : State) (o : Nat) (bad : Bool) : State := if bad then (s.portErr o 0x180).portErr o 0x184 else s

/-- What leaves for a frame whose last byte has been sent: its bytes with their FCS, in which a corruption in the buffer shows, or with the
complement of it. -/
def TxFrame.wireBytes (x : TxFrame) (f : Frame) : List Byte :=
  let b := (f.send x.dest x.pcpCls x.raw).1
  let carried := (f.send x.dest x.pcpCls x.raw).2
  if f.bad then stompedFrame (x.sealed b) else x.sealed b ++ natLe 4 (fcsOf (x.sealed b) ^^^ fcsOf b ^^^ carried).toNat

/-- A frame whose class has reached Closed during its transmission is counted (R134). -/
def State.countOverrun (s : State) (o : Nat) (x : TxFrame) : State :=
  let t := if x.overran then s.bump (txCnt o x.cls.val 0x10) else s
  if x.overran then { t with dw.gateSum := setBit t.dw.gateSum o true } else t

theorem EndKept.countOverrun {s t : State} (h : EndKept s t) (o : Nat) (x : TxFrame) : EndKept s (t.countOverrun o x) := by
  have hb : EndKept s (t.bump (txCnt o x.cls.val 0x10)) := by
    refine h.bump ?_
    simp [txCnt, stompOffsets]
    omega
  unfold State.countOverrun
  exact ite (ite hb h).elsewhere (ite hb h)

/-- The counts as the last byte of a frame leaves. -/
def State.endCounts (s : State) (o : Nat) (x : TxFrame) : State :=
  ((s.countBad o (s.txFrame x).bad).countSealed o x).countOverrun o x

theorem State.endCounts_kept (s : State) (o : Nat) (x : TxFrame) : EndKept (s.countBad o (s.txFrame x).bad) (s.endCounts o x) :=
  ((EndKept.refl _).countSealed o x).countOverrun o x

theorem TxFrame.wireBytes_bad {x : TxFrame} {f : Frame} (h : f.bad = true) :
    x.wireBytes f = stompedFrame (x.sealed (f.send x.dest x.pcpCls x.raw).1) := if_pos h

theorem TxFrame.wireBytes_good {x : TxFrame} {f : Frame} (h : f.bad = false) :
    x.wireBytes f = x.sealed (f.send x.dest x.pcpCls x.raw).1 ++
      natLe 4 (fcsOf (x.sealed (f.send x.dest x.pcpCls x.raw).1) ^^^ fcsOf (f.send x.dest x.pcpCls x.raw).1 ^^^
        (f.send x.dest x.pcpCls x.raw).2).toNat := if_neg (by simp [h])

theorem TxFrame.sealed_unprotected {x : TxFrame} (h : x.sa = none) (b : List Byte) : x.sealed b = b := by rw [TxFrame.sealed, h]

@[simp] theorem State.egr_countBad (s : State) (o p : Nat) (bad : Bool) : (s.countBad o bad).egr p = s.egr p := by
  unfold State.countBad
  split <;> simp

@[simp] theorem State.countBad_sw (s : State) (o : Nat) (bad : Bool) : (s.countBad o bad).sw = s.sw := by
  unfold State.countBad
  split <;> simp

@[simp] theorem State.countBad_time (s : State) (o : Nat) (bad : Bool) : (s.countBad o bad).time = s.time := by
  unfold State.countBad
  split <;> simp

theorem frameTransmitEnd_due {s : State} {o : Port} {x : TxFrame} (hl : s.live = true) (hx : (s.egr o.val).tx = some x) (hb : x.begun = true)
    (hg : (s.txFrame x).total ≤ x.got) (hd : s.byteLeaves o.val x (s.outLen (s.txFrame x) x.dest) ≤ s.time.cycle) :
    ∃ n, frameTransmitEnd o s = ((((s.endCounts o.val x).macFreed o.val n).sentFrame o.val x.cls.val (s.txFrame x) x.dest
      (x.wireBytes (s.txFrame x)) (s.txFrame x).bad).finishDest x.fid x.dest).promote o.val := by
  have hnot : ¬ (!s.live || !x.begun || x.got < (s.txFrame x).total || s.now < s.byteLeaves o.val x (s.outLen (s.txFrame x) x.dest)) = true := by
    rw [← State.now] at hd
    simp [hl, hb]
    omega
  unfold frameTransmitEnd
  dsimp only
  rw [hx]
  dsimp only
  rw [if_neg hnot]
  exact ⟨_, rfl⟩

/-- The end of a transmission, from the counts of a bad frame on. -/
theorem frameTransmitEnd_left {s : State} {o : Port} {x : TxFrame} (hl : s.live = true) (hx : (s.egr o.val).tx = some x) (hb : x.begun = true)
    (hg : (s.txFrame x).total ≤ x.got) (hd : s.byteLeaves o.val x (s.outLen (s.txFrame x) x.dest) ≤ s.time.cycle) :
    FrameLeft (s.countBad o.val (s.txFrame x).bad) o.val (x.wireBytes (s.txFrame x)) (frameTransmitEnd o s) := by
  obtain ⟨n, ht⟩ := frameTransmitEnd_due hl hx hb hg hd
  rw [ht]
  exact ((((EndKept.sentFrame ..).finishDest _ _).promoted (by rw [State.egr_macFreed])).of_macFreed).of_kept (s.endCounts_kept o.val x)

/-! UNDERRUN (R121). -/

/-- The counts and charges of a frame that is stomped for want of its next cell. -/
def State.underrunCounts (s : State) (o n : Nat) (x : TxFrame) : State :=
  let sent := (stompedFrame (s.inHand o x)).length
  let t := (((s.macFreed o n).portErr o 0x188).portErr o 0x180).countSealed o x
  ((t.chargeLimit o (limitKey x.fid x.dest) (sent - x.sent) x.tau).chargeCredit o x.cls.val
    ((sent : Int) - t.outLen (s.txFrame x) x.dest)).mcFail (s.txFrame x) x.dest

theorem State.underrunCounts_kept (s : State) (o n : Nat) (x : TxFrame) :
    EndKept (((s.macFreed o n).portErr o 0x188).portErr o 0x180) (s.underrunCounts o n x) :=
  ((((EndKept.refl _).countSealed _ _).chargeLimit _ _ _ _).chargeCredit _ _ _).mcFail _ _

theorem underrun_due {s : State} {o : Port} {x : TxFrame} (hl : s.live = true) (hx : (s.egr o.val).tx = some x) (hb : x.begun = true)
    (hg : x.got + (s.nearCells o.val x).length < (s.txFrame x).total)
    (hd : s.byteLeaves o.val x (s.inHand o.val x).length ≤ s.time.cycle + 22) :
    ∃ n len, underrun o s = ((((s.underrunCounts o.val n x).sentFrame o.val x.cls.val (s.txFrame x) x.dest
      (stompedFrame (s.inHand o.val x)) true).correctTx o.val x len).abandon x.fid x.dest).promote o.val := by
  have hnot : ¬ (!s.live || !x.begun || x.got + (s.nearCells o.val x).length ≥ (s.txFrame x).total ||
      s.now + 22 < s.byteLeaves o.val x (s.inHand o.val x).length) = true := by
    rw [← State.now] at hd
    simp [hl, hb]
    omega
  unfold underrun
  dsimp only
  rw [hx]
  dsimp only
  rw [if_neg hnot]
  exact ⟨_, _, rfl⟩

theorem State.portErr_macFreed (s : State) (o n p off : Nat) : (s.macFreed o n).portErr p off = (s.portErr p off).macFreed o n := rfl

/-- An underrun, from the counts of the stomped frame on. -/
theorem underrun_left {s : State} {o : Port} {x : TxFrame} (hl : s.live = true) (hx : (s.egr o.val).tx = some x) (hb : x.begun = true)
    (hg : x.got + (s.nearCells o.val x).length < (s.txFrame x).total)
    (hd : s.byteLeaves o.val x (s.inHand o.val x).length ≤ s.time.cycle + 22) :
    FrameLeft ((s.portErr o.val 0x188).portErr o.val 0x180) o.val (stompedFrame (s.inHand o.val x)) (underrun o s) := by
  obtain ⟨n, len, ht⟩ := underrun_due hl hx hb hg hd
  have hk := s.underrunCounts_kept o.val n x
  rw [State.portErr_macFreed, State.portErr_macFreed] at hk
  have htx : ((s.underrunCounts o.val n x).egr o.val).tx = none := (hk.tx o.val).trans (by rw [State.egr_macFreed])
  rw [ht]
  exact (((((EndKept.sentFrame ..).correctTx _ _ _).abandon _ _).promoted htx).of_kept hk).of_macFreed

theorem exec_frameTransmitEnd (s : State) (o : Port) : exec (.frameTransmitEnd o) s = .next (settle s (frameTransmitEnd o s)) := rfl

theorem exec_underrun (s : State) (o : Port) : exec (.underrun o) s = .next (settle s (underrun o s)) := rfl

/-- Settles O18: the end of a frame by what was found of it, the complement of the FCS, and an underrun. -/
theorem transmitEnds : Obligations.TransmitEnds := by
  unfold Obligations.TransmitEnds
  refine ⟨fun s o x hl hx hb => ?_, fun b => rfl, fun s o x hl hx hb hg => ?_⟩
  · intro f b carried hg hd
    have h := frameTransmitEnd_left hl hx hb hg hd
    refine ⟨_, exec_frameTransmitEnd s o, ?_⟩
    rw [c32_settle, c32_settle, egr_settle, settle_sw, settle_time]
    refine ⟨fun hbad => ?_, fun hbad hsa => ?_, fun hbad hc => ?_, fun hbad hc => ?_, ?_, ?_, ?_, ?_, ?_⟩
    · rw [h.wire, h.stomps _ (by decide), h.stomps _ (by decide), TxFrame.wireBytes_bad hbad, State.countBad, if_pos hbad,
        State.c32_portErr_same, State.c32_portErr_other _ _ _ (by simp [portReg]), State.c32_portErr_same,
        State.c32_portErr_other _ _ _ (by simp [portReg])]
      exact ⟨rfl, rfl, rfl⟩
    · rw [h.wire, h.stomps _ (by decide), TxFrame.wireBytes_good hbad, TxFrame.sealed_unprotected hsa, BitVec.xor_self, BitVec.zero_xor,
        State.countBad, if_neg (ne_true_of_eq_false hbad)]
      exact ⟨rfl, rfl⟩
    · exact (h.wire.trans (TxFrame.wireBytes_good hbad)).trans ((carried_fcs_iff ..).2 hc)
    · exact fun hw => hc ((carried_fcs_iff ..).1 ((h.wire.trans (TxFrame.wireBytes_good hbad)).symm.trans hw))
    · rw [h.tx, State.egr_countBad]
    · rw [h.next, State.egr_countBad]
    · exact fun p hp => by rw [h.others p hp, State.countBad_sw]
    · exact sameMem_of_mem (by rw [settle_mem, frameTransmitEnd_mem])
    · rw [h.time, State.countBad_time]
  · intro b hd
    have h := underrun_left hl hx hb hg hd
    refine ⟨_, exec_underrun s o, ?_⟩
    rw [c32_settle, c32_settle, egr_settle, settle_sw, settle_time]
    refine ⟨h.wire, ?_, ?_, ?_, sameMem_of_mem (by rw [settle_mem, underrun_mem]), ?_⟩
    · rw [h.stomps _ (by decide), State.c32_portErr_other _ _ _ (by simp [portReg]), State.c32_portErr_same]
    · rw [h.stomps _ (by decide), State.c32_portErr_same, State.c32_portErr_other _ _ _ (by simp [portReg])]
    · rw [h.tx, State.egr_portErr, State.egr_portErr]
    · rw [h.time, State.portErr_time, State.portErr_time]

end Sys2Proof.Machine
end

