-- ==== Sys2Proof/Proofs/Eligibility.lean ====
section
/-! SUPPORT. Weirs, credits and eligibility as guard bands are counted, and the search through the classes of a port (O19). -/

namespace Sys2Proof.Machine

/-! Weirs and openings as class queues and counters change (R131, R150, R151, R164). -/

/-- The state with other class queues and other 32-bit counters. -/
def State.recounted (s : State) (m : SMap ClassQ) (n : SMap Word) : State := { s with sw.classes := m, cnt32 := n }

section
variable (s : State) (m : SMap ClassQ) (n : SMap Word)

theorem State.rdB_recounted : (s.recounted m n).rdB = s.rdB := funext fun a => funext fun l => State.rdB_of_mem (s := s) (t := s.recounted m n) rfl a l
theorem State.rd_recounted : (s.recounted m n).rd = s.rd := by unfold State.rd; rw [State.rdB_recounted]
theorem State.gateGates_recounted : (s.recounted m n).gateGates = s.gateGates := by
  unfold State.gateGates
  rw [State.rd_recounted]
theorem State.gateInterval_recounted : (s.recounted m n).gateInterval = s.gateInterval := by
  unfold State.gateInterval
  rw [State.rd_recounted]

theorem State.walkGate_recounted : (s.recounted m n).walkGate = s.walkGate := by
  funext p b unit x j k st
  induction j generalizing k st with
  | zero => rfl
  | succ j ih =>
    unfold State.walkGate
    rw [State.gateInterval_recounted]
    dsimp only
    rw [ih]

theorem State.gateSegs_recounted : (s.recounted m n).gateSegs = s.gateSegs := by
  funext p b cnt limit j k st
  induction j generalizing k st with
  | zero => rfl
  | succ j ih =>
    unfold State.gateSegs
    rw [State.gateInterval_recounted, State.gateGates_recounted, ih]

theorem State.gateAt_recounted : (s.recounted m n).gateAt = s.gateAt := by
  unfold State.gateAt
  rw [State.walkGate_recounted]

theorem State.angleGateAt_recounted : (s.recounted m n).angleGateAt = s.angleGateAt := by
  unfold State.angleGateAt
  rw [State.gateGates_recounted]
  rfl

theorem State.gatePlan_recounted : (s.recounted m n).gatePlan = s.gatePlan := by
  unfold State.gatePlan
  rw [State.gateAt_recounted, State.gateSegs_recounted, State.angleGateAt_recounted]
  rfl

theorem State.windowGuards_recounted : (s.recounted m n).windowGuards = s.windowGuards := by
  unfold State.windowGuards
  rw [State.gatePlan_recounted]
  rfl

theorem State.windowPlan_recounted : (s.recounted m n).windowPlan = s.windowPlan := by
  unfold State.windowPlan
  rw [State.rd_recounted]
  rfl

theorem State.nextOpening_recounted : (s.recounted m n).nextOpening = s.nextOpening := by
  unfold State.nextOpening State.windowOpening
  rw [State.rd_recounted]
  rfl

theorem State.windowsBy_recounted : (s.recounted m n).windowsBy = s.windowsBy := by
  unfold State.windowsBy
  rw [State.nextOpening_recounted, State.windowGuards_recounted, State.windowPlan_recounted]
  rfl

theorem State.gateStateAt_recounted : (s.recounted m n).gateStateAt = s.gateStateAt := by
  unfold State.gateStateAt
  rw [State.gatePlan_recounted]
  rfl

theorem State.bandsAt_recounted : (s.recounted m n).bandsAt = s.bandsAt := by
  unfold State.bandsAt State.gateBands State.millBands State.listBands
  rw [State.gatePlan_recounted, State.windowsBy_recounted, State.angleGateAt_recounted]
  rfl

/-- No class queue and no counter goes into a weir. -/
theorem State.weir_recounted : (s.recounted m n).weir = s.weir := by
  unfold State.weir State.millClosed
  rw [State.windowsBy_recounted, State.gateStateAt_recounted, State.bandsAt_recounted]
  rfl

theorem State.openFor_recounted : (s.recounted m n).openFor = s.openFor := by
  unfold State.openFor State.gateChanges
  rw [State.gatePlan_recounted, State.gateGates_recounted]
  rfl

end

/-! Eligibility as guard bands are counted (R132, R151). -/

/-- Class queues that hold the credits of `s`. -/
def SameCredits (s : State) (m : SMap ClassQ) : Prop :=
  ∀ k, (SMap.get ClassQ.reset m k).credit = (SMap.get ClassQ.reset s.sw.classes k).credit ∧
    (SMap.get ClassQ.reset m k).carry = (SMap.get ClassQ.reset s.sw.classes k).carry

theorem State.mayServe_recounted {s : State} {m : SMap ClassQ} (h : SameCredits s m) (n : SMap Word) (o c tau : Nat) :
    (s.recounted m n).mayServe o c tau = s.mayServe o c tau := by
  have hcredit : (s.recounted m n).creditAt o c tau = s.creditAt o c tau := by
    unfold State.creditAt
    rw [State.openFor_recounted]
    dsimp only
    rw [show ((s.recounted m n).cls o c).credit = (s.cls o c).credit from (h _).1,
      show ((s.recounted m n).cls o c).carry = (s.cls o c).carry from (h _).2]
    rfl
  unfold State.mayServe
  rw [hcredit]
  rfl

/-- From `s` on, at most guard bands have been counted. -/
def BandsCounted (s t : State) : Prop := ∃ m n, SameCredits s m ∧ t = s.recounted m n

namespace BandsCounted
variable {s t u : State}

theorem refl (s : State) : BandsCounted s s := ⟨s.sw.classes, s.cnt32, fun _ => ⟨rfl, rfl⟩, rfl⟩

theorem trans (h : BandsCounted s t) (k : BandsCounted t u) : BandsCounted s u := by
  obtain ⟨m, n, hm, rfl⟩ := h
  obtain ⟨m', n', hm', rfl⟩ := k
  exact ⟨m', n', fun i => ⟨(hm' i).1.trans (hm i).1, (hm' i).2.trans (hm i).2⟩, rfl⟩

theorem holdBack (s : State) (o c : Nat) (l : List Nat) : BandsCounted s (s.holdBack o c l) := by
  unfold State.holdBack
  dsimp only
  split
  · exact refl s
  · refine ⟨_, _, fun k => ?_, rfl⟩
    by_cases hk : k = o * 8 + c
    · subst hk
      rw [SMap.get_set_same]
      exact ⟨rfl, rfl⟩
    · rw [SMap.get_set_other _ _ _ _ hk]
      exact ⟨rfl, rfl⟩

theorem mayServe (h : BandsCounted s t) (o c tau : Nat) : t.mayServe o c tau = s.mayServe o c tau := by
  obtain ⟨m, n, hm, rfl⟩ := h
  exact State.mayServe_recounted hm n o c tau

theorem weir (h : BandsCounted s t) : t.weir = s.weir := by
  obtain ⟨m, n, -, rfl⟩ := h
  exact State.weir_recounted s m n

end BandsCounted

/-- The search takes a class that may be served and whose weir is open, and none of the classes before it is such a one; it counts guard bands. -/
theorem chooseClass_take {s t : State} {o tau c : Nat} {l : List Nat} (h : chooseClass o tau false false l s = (.take c, t)) :
    BandsCounted s t ∧ ∃ before after, l = before ++ c :: after ∧ s.mayServe o c tau = true ∧ (s.weir o c tau).1 = .open_ ∧
      ∀ b ∈ before, s.mayServe o b tau = false ∨ (s.weir o b tau).1 ≠ .open_ := by
  induction l generalizing s with
  | nil => simp [chooseClass] at h
  | cons a l ih =>
    have skip : ∀ u, BandsCounted s u → (s.mayServe o a tau = false ∨ (s.weir o a tau).1 ≠ .open_) →
        chooseClass o tau false false l u = (.take c, t) →
        BandsCounted s t ∧ ∃ before after, a :: l = before ++ c :: after ∧ s.mayServe o c tau = true ∧ (s.weir o c tau).1 = .open_ ∧
          ∀ b ∈ before, s.mayServe o b tau = false ∨ (s.weir o b tau).1 ≠ .open_ := by
      intro u hu ha hs
      obtain ⟨ht, before, after, rfl, hc, hw, hb⟩ := ih hs
      simp only [hu.mayServe, hu.weir] at hc hw hb
      exact ⟨hu.trans ht, a :: before, after, rfl, hc, hw, List.forall_mem_cons.2 ⟨ha, hb⟩⟩
    simp only [chooseClass, Bool.and_false, Bool.false_eq_true, if_false] at h
    by_cases hm : s.mayServe o a tau = true
    · rw [hm] at h
      rcases hw : s.weir o a tau with ⟨w, g⟩
      rw [hw] at h
      cases w with
      | open_ =>
        obtain ⟨⟨rfl⟩, rfl⟩ := h
        exact ⟨.refl _, [], l, rfl, hm, by rw [hw], by simp⟩
      | guard => exact skip _ (.holdBack s o a g) (.inr (by simp [hw])) h
      | closed => exact skip s (.refl s) (.inr (by simp [hw])) h
    · rw [Bool.not_eq_true] at hm
      rw [hm] at h
      exact skip s (.refl s) (.inl hm) h

end Sys2Proof.Machine
end

