-- ==== Sys2Proof/Proofs/EgressSelection.lean ====
section
/-! SUPPORT. The leaf that a class serves, what takes effect at a selection, and EGRESS_SELECT (O19). -/

namespace Sys2Proof.Machine

/-! The leaf of a class (R129, R130). -/

/-- How far the start tag of a leaf lies ahead of virtual time, by serial arithmetic. -/
def State.tagAhead (s : State) (o c d : Nat) : Int := (s.startTag o c d - (s.cls o c).v).toInt

theorem State.startTag_of_ahead {s : State} {o c d : Nat} (h : 0 ≤ ((s.leaf o c d).s - (s.cls o c).v).toInt) :
    s.startTag o c d = (s.leaf o c d).s := if_neg (Int.not_lt.2 h)

theorem State.tagAhead_nonneg (s : State) (o c d : Nat) : 0 ≤ s.tagAhead o c d := by
  unfold State.tagAhead State.startTag
  dsimp only
  split
  · simp
  · next h => exact Int.not_lt.1 h

/-- Leaf `d` is served no later than leaf `x`: a smaller start tag, or an equal one and no higher domain. -/
def State.leafFirst (s : State) (o c d x : Nat) : Prop :=
  s.tagAhead o c d < s.tagAhead o c x ∨ (s.tagAhead o c d = s.tagAhead o c x ∧ d ≤ x)

theorem State.leafFirst.refl (s : State) (o c d : Nat) : s.leafFirst o c d d := .inr ⟨rfl, le_rfl⟩

theorem State.leafFirst.trans {s : State} {o c x y z : Nat} (h : s.leafFirst o c x y) (k : s.leafFirst o c y z) : s.leafFirst o c x z := by
  unfold State.leafFirst at *
  omega

/-- The one of two leaves with the smaller start tag, the one found first on equal tags. -/
def State.betterLeaf (s : State) (o c : Nat) (b : Option Nat) (d : Nat) : Option Nat :=
  match b with
  | none => some d
  | some x => if s.tagAhead o c d < s.tagAhead o c x then some d else some x

theorem State.chooseLeaf_eq (s : State) (o c : Nat) : s.chooseLeaf o c = (s.activeLeaves o c).foldl (s.betterLeaf o c) none := by
  unfold State.chooseLeaf
  dsimp only
  congr 1
  funext b d
  cases b <;> rfl

/-- Going through leaves in the order of their domains finds the one that is served first. -/
theorem State.foldl_betterLeaf (s : State) (o c : Nat) {x : Nat} {l : List Nat} (h : (x :: l).Pairwise (· < ·)) :
    ∃ d ∈ x :: l, l.foldl (s.betterLeaf o c) (some x) = some d ∧ ∀ y ∈ x :: l, s.leafFirst o c d y := by
  induction l generalizing x with
  | nil => exact ⟨x, by simp, rfl, by simpa using .refl s o c x⟩
  | cons y l ih =>
    obtain ⟨hx, hl⟩ := List.pairwise_cons.1 h
    have hxy : x < y := hx y List.mem_cons_self
    rw [List.foldl_cons, State.betterLeaf]
    by_cases hy : s.tagAhead o c y < s.tagAhead o c x
    · rw [if_pos hy]
      obtain ⟨d, hd, hfold, hfirst⟩ := ih hl
      refine ⟨d, List.mem_cons_of_mem _ hd, hfold, List.forall_mem_cons.2 ⟨?_, hfirst⟩⟩
      exact (hfirst y List.mem_cons_self).trans (.inl hy)
    · rw [if_neg hy]
      obtain ⟨d, hd, hfold, hfirst⟩ := ih (List.pairwise_cons.2 ⟨fun z hz => hx z (List.mem_cons_of_mem _ hz), hl.of_cons⟩)
      obtain ⟨hdx, hdl⟩ := List.forall_mem_cons.1 hfirst
      have hfy : s.leafFirst o c x y := by
        unfold State.leafFirst
        omega
      refine ⟨d, ?_, hfold, List.forall_mem_cons.2 ⟨hdx, List.forall_mem_cons.2 ⟨hdx.trans hfy, hdl⟩⟩⟩
      rcases List.mem_cons.1 hd with rfl | hd <;> simp [*]

theorem State.mem_activeLeaves {s : State} {o c d : Nat} : d ∈ s.activeLeaves o c ↔ d < 16 ∧ s.leafActive o c d = true := by
  simp [State.activeLeaves]

/-- A class with an Active leaf has a chosen one, and it is the one that is served first. -/
theorem State.chooseLeaf_first {s : State} {o c e : Nat} (he : e ∈ s.activeLeaves o c) :
    ∃ d ∈ s.activeLeaves o c, s.chooseLeaf o c = some d ∧ ∀ y ∈ s.activeLeaves o c, s.leafFirst o c d y := by
  have hsorted : (s.activeLeaves o c).Pairwise (· < ·) := List.pairwise_lt_range.filter _
  rw [State.chooseLeaf_eq]
  generalize s.activeLeaves o c = l at he hsorted
  cases l with
  | nil => simp at he
  | cons x l => exact s.foldl_betterLeaf o c hsorted

theorem State.activeLeaves_ne_nil {s : State} {o c d : Nat} (h : s.chooseLeaf o c = some d) : s.activeLeaves o c ≠ [] := by
  intro hn
  rw [State.chooseLeaf_eq, hn] at h
  exact absurd h nofun

/-! What takes effect at a selection, and the frames that have waited too long (R106, R135, R158). -/

/-- A change that leaves time and the instant of each port's last selection. -/
structure SelectKept (s t : State) : Prop where
  time : t.time = s.time
  lastSelect : ∀ p, (t.egr p).lastSelect = (s.egr p).lastSelect

namespace SelectKept
variable {s t u : State}

theorem refl (s : State) : SelectKept s s := ⟨rfl, fun _ => rfl⟩

theorem trans (h : SelectKept s t) (k : SelectKept t u) : SelectKept s u :=
  ⟨k.time.trans h.time, fun p => (k.lastSelect p).trans (h.lastSelect p)⟩

theorem elsewhere (h : SelectKept s t) (egress : u.sw.egress = t.sw.egress := by rfl) (time : u.time = t.time := by rfl) : SelectKept s u :=
  h.trans ⟨time, fun p => by rw [State.egr, egress, State.egr]⟩

theorem setEgr (h : SelectKept s t) (o : Nat) {e : Egress} (he : e.lastSelect = (t.egr o).lastSelect) : SelectKept s (t.setEgr o e) := by
  refine h.trans ⟨rfl, fun p => ?_⟩
  by_cases hp : p = o
  · rw [hp, State.egr_setEgr_same, he]
  · rw [State.egr_setEgr_other _ _ hp]

theorem ite {c : Prop} [Decidable c] {u v : State} (hu : SelectKept s u) (hv : SelectKept s v) : SelectKept s (if c then u else v) := by
  split
  · exact hu
  · exact hv

theorem setGate (h : SelectKept s t) (p : Nat) (g : Gate) : SelectKept s (t.setGate p g) := h.elsewhere
theorem setFrame (h : SelectKept s t) (f : Nat) (v : Option Frame) : SelectKept s (t.setFrame f v) := h.elsewhere
theorem setCls (h : SelectKept s t) (o c : Nat) (q : ClassQ) : SelectKept s (t.setCls o c q) := h.elsewhere
theorem bump (h : SelectKept s t) (a : Nat) : SelectKept s (t.bump a) := h.elsewhere

theorem markOverrun (h : SelectKept s t) (p : Nat) (closed : Nat → Bool) : SelectKept s (t.markOverrun p closed) := by
  unfold State.markOverrun
  dsimp only
  split
  · exact ite (h.setEgr p rfl) h
  · exact h

theorem applyGates (h : SelectKept s t) (p st : Nat) : SelectKept s (t.applyGates p st) := by
  unfold State.applyGates
  exact (h.setGate p _).markOverrun p _

theorem refreshGates (h : SelectKept s t) (p : Nat) : SelectKept s (t.refreshGates p) := by
  unfold State.refreshGates
  dsimp only
  split
  · exact h.applyGates p _
  · exact ite (h.applyGates p _) ((h.setGate p _).applyGates p _)

theorem mmFollow (h : SelectKept s t) (p : Nat) : SelectKept s (t.mmFollow p) := ite (ite (h.setEgr p rfl) h) (h.setEgr p rfl)

theorem classEffect (h : SelectKept s t) (p c : Nat) : SelectKept s (t.classEffect p c) := by
  unfold State.classEffect
  split
  · exact h
  · exact ite h.elsewhere h.elsewhere

theorem paramTakes (h : SelectKept s t) (p base : Nat) : SelectKept s (t.paramTakes p base) := by
  unfold State.paramTakes
  split
  · exact h
  · next v _ =>
    have hs : SelectKept s { t with sw.parOld := SMap.set none t.sw.parOld (base + p) none } := h.elsewhere
    exact ite (hs.refreshGates p) (ite (hs.mmFollow p) hs)

theorem takeEffect (h : SelectKept s t) (p : Nat) : SelectKept s (t.takeEffect p) :=
  foldl_keeps (foldN_keeps h (fun _ c hv => hv.classEffect p c)) (fun _ base hv => hv.paramTakes p base) _

theorem releaseCells (h : SelectKept s t) (fid : Nat) : SelectKept s (t.releaseCells fid) := by
  unfold State.releaseCells
  split
  · exact h.elsewhere
  · exact h

theorem finishDest (h : SelectKept s t) (fid d : Nat) : SelectKept s (t.finishDest fid d) := by
  unfold State.finishDest
  split
  · exact (h.setFrame _ _).releaseCells fid
  · exact h

theorem abandon (h : SelectKept s t) (fid d : Nat) : SelectKept s (t.abandon fid d) := by
  unfold State.abandon
  split
  · exact h
  · exact ((ite (h.setCls _ _ _) h).elsewhere).finishDest fid d

theorem mcFail (h : SelectKept s t) (f : Frame) (d : Nat) : SelectKept s (t.mcFail f d) := ite h.elsewhere h

theorem unqueue (h : SelectKept s t) (fid d off : Nat) : SelectKept s (t.unqueue fid d off) := by
  unfold State.unqueue
  split
  · exact h
  · exact (((h.elsewhere (u := t.unlink _ fid d)).bump _).mcFail _ d).abandon fid d

theorem dropResident (h : SelectKept s t) (o : Nat) : SelectKept s (t.dropResident o) :=
  foldl_keeps h (fun _ _ hu => foldl_keeps hu (fun _ x hv => hv.unqueue x.fid x.dest 0x18) _) _

end SelectKept

/-! EGRESS_SELECT (R133). -/

@[simp] theorem State.leaf_setLeaf_same (s : State) (o c d : Nat) (l : Leaf) : (s.setLeaf o c d l).leaf o c d = l := SMap.get_set_same ..

@[simp] theorem State.cls_setCls_same (s : State) (o c : Nat) (q : ClassQ) : (s.setCls o c q).cls o c = q := SMap.get_set_same ..

theorem BandsCounted.selectKept {s t : State} (h : BandsCounted s t) : SelectKept s t := by
  obtain ⟨m, n, -, rfl⟩ := h
  exact (SelectKept.refl s).elsewhere

/-- The frame that port `o` has selected, as it stands before the MAC. -/
def State.headTx (s : State) (o c d tau : Nat) (x : LeafItem) (f : Frame) : TxFrame :=
  { fid := x.fid, frame := f, dest := x.dest, cls := BitVec.toFin (BitVec.ofNat 3 c), dom := BitVec.toFin (BitVec.ofNat 4 d),
    pcpCls := s.inForceBit (0x04A0 + o) 0, cost := s.cost d (s.outLen f x.dest), known := true, tau := tau, begun := false, got := 0,
    raw := [], sent := 0, fragAt := 0, preempted := false, overran := false, sa := none, cut := none }

/-- The pull of the cells of that frame. -/
def State.headPull (s : State) (o : Port) (c : Nat) (x : LeafItem) (f : Frame) : Pull :=
  { fid := x.fid, inp := f.inp, out := o, dest := x.dest, cls := BitVec.toFin (BitVec.ofNat 3 c), idx := 0, at_ := s.now + 2 }

/-- The class and the leaf move on by the frame `x`. -/
def State.headServed (s : State) (o c d : Nat) (x : LeafItem) (rest : List LeafItem) (f : Frame) : State :=
  (s.setCls o c { s.cls o c with v := s.startTag o c d }).setLeaf o c d
    { s.leaf o c d with items := rest, s := s.startTag o c d + BitVec.ofNat 32 (s.cost d (s.outLen f x.dest)) }

/-- A pull joins those of the fabric. -/
def State.addPull (s : State) (p : Pull) : State := { s with fab.pulls := s.fab.pulls ++ [p] }

section
variable (s : State) (p : Pull) (o c d : Nat) (x : LeafItem) (rest : List LeafItem) (f : Frame) (e : Egress)

@[simp] theorem State.addPull_pulls : (s.addPull p).fab.pulls = s.fab.pulls ++ [p] := rfl
@[simp] theorem State.addPull_sw : (s.addPull p).sw = s.sw := rfl
@[simp] theorem State.addPull_time : (s.addPull p).time = s.time := rfl
@[simp] theorem State.leaf_addPull : (s.addPull p).leaf o c d = s.leaf o c d := rfl
@[simp] theorem State.cls_addPull : (s.addPull p).cls o c = s.cls o c := rfl
@[simp] theorem State.egr_addPull : (s.addPull p).egr o = s.egr o := rfl

@[simp] theorem State.leaf_setEgr (q : Nat) : (s.setEgr q e).leaf o c d = s.leaf o c d := rfl
@[simp] theorem State.cls_setEgr (q : Nat) : (s.setEgr q e).cls o c = s.cls o c := rfl
@[simp] theorem State.setEgr_frames (q : Nat) : (s.setEgr q e).sw.frames = s.sw.frames := rfl

@[simp] theorem State.egr_setLeaf (l : Leaf) : (s.setLeaf o c d l).egr = s.egr := rfl
@[simp] theorem State.egr_setCls (q : ClassQ) : (s.setCls o c q).egr = s.egr := rfl
theorem State.inForceBit_setLeaf (l : Leaf) : (s.setLeaf o c d l).inForceBit = s.inForceBit := rfl
theorem State.inForceBit_setCls (q : ClassQ) : (s.setCls o c q).inForceBit = s.inForceBit := rfl
@[simp] theorem State.setCls_frames (q : ClassQ) : (s.setCls o c q).sw.frames = s.sw.frames := rfl
@[simp] theorem State.setLeaf_frames (l : Leaf) : (s.setLeaf o c d l).sw.frames = s.sw.frames := rfl

@[simp] theorem State.headServed_fab : (s.headServed o c d x rest f).fab = s.fab := by simp [State.headServed]
@[simp] theorem State.headServed_frames : (s.headServed o c d x rest f).sw.frames = s.sw.frames := by simp [State.headServed]
@[simp] theorem State.headServed_time : (s.headServed o c d x rest f).time = s.time := by simp [State.headServed]

theorem State.leaf_headServed : (s.headServed o c d x rest f).leaf o c d =
    { s.leaf o c d with items := rest, s := s.startTag o c d + BitVec.ofNat 32 (s.cost d (s.outLen f x.dest)) } :=
  State.leaf_setLeaf_same (s.setCls o c { s.cls o c with v := s.startTag o c d }) o c d _

theorem State.cls_headServed : (s.headServed o c d x rest f).cls o c = { s.cls o c with v := s.startTag o c d } :=
  State.cls_setCls_same s o c _

end

/-- Port `o` takes the head `x` of a leaf. -/
def State.headTaken (s : State) (o : Port) (c d tau : Nat) (x : LeafItem) (rest : List LeafItem) (f : Frame) : State :=
  ((s.headServed o.val c d x rest f).setEgr o.val ((s.egr o.val).add (s.headTx o.val c d tau x f))).addPull (s.headPull o c x f)

theorem State.takeClass_eq {s : State} {o : Port} {c d tau : Nat} {x : LeafItem} {rest : List LeafItem} {f : Frame}
    (hd : s.chooseLeaf o.val c = some d) (hi : (s.leaf o.val c d).items = x :: rest) (hf : s.frame x.fid = some f)
    (hw : f.endAt ≤ s.now) : s.takeClass o.val c tau o = s.headTaken o c d tau x rest f := by
  unfold State.takeClass
  simp only [hd, hi, hf, hw, decide_true, if_true]
  simp only [State.now, State.setEgr_fab, State.setLeaf_fab, State.setCls_fab, State.setLeaf_time, State.setCls_time, State.egr_setLeaf,
    State.egr_setCls, State.inForceBit_setLeaf, State.inForceBit_setCls]
  unfold State.headTaken State.addPull State.headServed State.headTx State.headPull
  simp only [State.setEgr_fab, State.setLeaf_fab, State.setCls_fab, State.now]

theorem Egress.add_tx {e : Egress} {y : TxFrame} (h : e.tx = none) : (e.add y).tx = some y := by simp [Egress.add, h]

theorem Egress.add_next {e : Egress} {y : TxFrame} (h : e.tx ≠ none) : (e.add y).tx = e.tx ∧ (e.add y).next = e.next ++ [y] := by
  simp [Egress.add, h]

theorem Egress.add_lastSelect (e : Egress) (y : TxFrame) : (e.add y).lastSelect = e.lastSelect := by
  unfold Egress.add
  split <;> rfl

/-- What a selection of port `o` goes through before it looks for a class (R106, R135, R158). -/
def State.selectStart (s : State) (o : Nat) : State :=
  ((s.setEgr o { s.egr o with lastSelect := s.time.cycle + 1 }).takeEffect o).dropResident o

theorem State.selectStart_kept (s : State) (o : Nat) :
    SelectKept (s.setEgr o { s.egr o with lastSelect := s.time.cycle + 1 }) (s.selectStart o) :=
  ((SelectKept.refl _).takeEffect o).dropResident o

/-- A selection of a port that holds no frame takes the class that the search finds. -/
theorem State.select_take {s u t : State} {o : Port} {c : Nat} (hu : (s.takeEffect o.val).dropResident o.val = u)
    (hh : (u.egr o.val).held = none) (hc : chooseClass o.val (s.now + 44) false false (u.classOrder o.val) u = (.take c, t)) :
    s.select o true = t.takeClass o.val c (s.now + 44) o := by
  unfold State.select
  simp only [hu, hh, Bool.and_false, Bool.not_true, hc]

theorem egressSelect_take {s t : State} {o : Port} {c : Nat} (hl : s.live = true) (hn : s.nm.state ≠ .commit)
    (hs : (s.ahead o.val).1 ≤ s.time.cycle + 44) (hp : (s.egr o.val).lastSelect = 0 ∨ (s.egr o.val).lastSelect + 3 ≤ s.time.cycle)
    (hh : ((s.selectStart o.val).egr o.val).held = none)
    (hc : chooseClass o.val (s.time.cycle + 44) false false ((s.selectStart o.val).classOrder o.val) (s.selectStart o.val) = (.take c, t)) :
    egressSelect o s = t.takeClass o.val c (s.time.cycle + 44) o := by
  rw [← State.now] at hs hp
  unfold egressSelect
  dsimp only
  rw [if_neg (by simp [hl, hn]), if_neg (by simp [hs]; omega), decide_eq_true hs]
  exact State.select_take rfl hh hc

theorem egressSelect_none {s : State} {o : Port} (h : s.live = false ∨ s.nm.state = .commit ∨
    ((s.egr o.val).lastSelect ≠ 0 ∧ s.time.cycle < (s.egr o.val).lastSelect + 3)) : egressSelect o s = s := by
  unfold egressSelect
  dsimp only
  rcases h with h | h | ⟨h, k⟩
  · rw [if_pos (by simp [h])]
  · rw [if_pos (by simp [h])]
  · split
    · rfl
    · rw [if_pos (by simp [h, State.now, k])]

theorem exec_egressSelect (s : State) (o : Port) : exec (.egressSelect o) s = .next (settle s (egressSelect o s)) := rfl

@[simp] theorem leaf_settle (s t : State) (o c d : Nat) : (settle s t).leaf o c d = t.leaf o c d := rfl

@[simp] theorem cls_settle (s t : State) (o c : Nat) : (settle s t).cls o c = t.cls o c := rfl

/-- Settles O19: a selection from the head of the chosen leaf, one that does not come, the search through the classes, and the choice of a leaf. -/
theorem egressSelection : Obligations.EgressSelection := by
  unfold Obligations.EgressSelection
  refine ⟨?_, fun s o h => ?_, fun s t o tau c l h => ?_, fun s o c d h => ?_, fun s o c d => ⟨s.tagAhead_nonneg o c d, State.startTag_of_ahead⟩,
    fun s o c h => ?_⟩
  · intro s s1 s2 o c d x rest f hl hn e hs hp h1 hh hc hc8 hd hi hf hw
    have hstart : s1 = s.selectStart o.val := by rw [h1, State.selectStart]
    rw [hstart] at hh hc
    obtain ⟨htime, hlast⟩ := (s.selectStart_kept o.val).trans (chooseClass_take hc).1.selectKept
    rw [State.setEgr_time] at htime
    have hsel : egressSelect o s = s2.headTaken o c d (s.time.cycle + 44) x rest f := by
      rw [egressSelect_take hl hn hs hp hh hc, State.takeClass_eq hd hi hf (by rw [State.now, htime]; exact hw)]
    have hmem : SameMem s (settle s (egressSelect o s)) := sameMem_of_mem (by rw [settle_mem, egressSelect_mem])
    refine ⟨_, exec_egressSelect s o, ?_⟩
    rw [hsel] at hmem ⊢
    rw [leaf_settle, cls_settle, egr_settle, settle_fab, settle_sw, settle_time]
    simp only [State.headTaken, State.leaf_addPull, State.leaf_setEgr, State.leaf_headServed, State.cls_addPull, State.cls_setEgr,
      State.cls_headServed, State.egr_addPull, State.egr_setEgr_same, State.addPull_pulls, State.setEgr_fab, State.headServed_fab,
      State.addPull_sw, State.setEgr_frames, State.headServed_frames, State.addPull_time, State.setEgr_time, State.headServed_time]
    refine ⟨trivial, trivial, trivial, ?_, ⟨s2.headTx o.val c d (s.time.cycle + 44) x f, rfl, rfl, rfl, rfl, ?_, Egress.add_tx, Egress.add_next⟩,
      ⟨s2.headPull o c x f, rfl, rfl, rfl, rfl, rfl, rfl, ?_⟩, trivial, hmem, htime⟩
    · rw [Egress.add_lastSelect, hlast, State.egr_setEgr_same]
    · simpa [State.headTx] using Nat.mod_eq_of_lt hc8
    · rw [State.headPull, State.now, htime]
  · rw [exec_egressSelect, egressSelect_none h]
  · obtain ⟨hb, before, after, hl, hm, hw, hbefore⟩ := chooseClass_take h
    exact ⟨before, after, hl, by rw [hb.mayServe, hm], by rw [hb.weir, hw], hbefore⟩
  · obtain ⟨e, he⟩ := List.exists_mem_of_ne_nil _ (State.activeLeaves_ne_nil h)
    obtain ⟨d', hd', hd, hfirst⟩ := State.chooseLeaf_first he
    obtain rfl : d' = d := Option.some.inj (hd.symm.trans h)
    obtain ⟨hlt, hact⟩ := State.mem_activeLeaves.1 hd'
    exact ⟨hlt, hact, fun y hy hya => hfirst y (State.mem_activeLeaves.2 ⟨hy, hya⟩)⟩
  · obtain ⟨d, hd⟩ := h
    obtain ⟨_, -, hc, -⟩ := State.chooseLeaf_first (State.mem_activeLeaves.2 hd)
    rw [hc]
    rfl

end Sys2Proof.Machine
end

