-- ==== Sys2Proof/Proofs/ShapersAndPreemption.lean ====
section
/-! SUPPORT. Eligibility times that arrive, the verification timer of preemption, and PREEMPT (O20). -/

namespace Sys2Proof.Machine

/-! ATS_ELIGIBLE and MM_VERIFY_TIMEOUT (R138, R141). -/

theorem State.leaf_setLeaf_other (s : State) {o c d o' c' d' : Nat} (l : Leaf) (hc : c < 8) (hd : d < 16) (hc' : c' < 8) (hd' : d' < 16)
    (h : (o', c', d') ≠ (o, c, d)) : (s.setLeaf o c d l).leaf o' c' d' = s.leaf o' c' d' := by
  refine SMap.get_set_other _ _ _ _ fun hk => h ?_
  simp only [Prod.mk.injEq]
  omega

/-- A waiting frame whose eligibility time has come is Active. -/
def LeafItem.atTime (x : LeafItem) (now : Nat) : LeafItem := match x.elig with
  | some t => if t ≤ now then { x with act := true } else x
  | none => x

theorem LeafItem.atTime_eq (x : LeafItem) (now : Nat) : x.atTime now = { x with act := x.act || (match x.elig with
    | some e => decide (e ≤ now)
    | none => false) } := by
  unfold LeafItem.atTime
  obtain ⟨fid, dest, enq, elig, act⟩ := x
  cases elig with
  | none => simp
  | some t => by_cases ht : t ≤ now <;> simp [ht]

theorem atsEligible_eq {s : State} (hl : s.live = true) (o c d : Nat) : atsEligible o c d s =
    s.setLeaf o c d { s.leaf o c d with items := (s.leaf o c d).items.map (fun x => x.atTime s.now) } := by
  unfold atsEligible
  rw [if_neg (by simp [hl])]
  rfl

theorem exec_atsEligible (s : State) (o : Port) (c : Fin 8) (d : Fin 16) :
    exec (.atsEligible o c d) s = .next (settle s (atsEligible o.val c.val d.val s)) := rfl

theorem mmVerifyTimeout_due {s : State} {p : Nat} (hl : s.live = true) (hv : (s.egr p).verify = 1)
    (hd : (s.egr p).verifyAt + 8000000 ≤ s.time.cycle) :
    mmVerifyTimeout p s = s.setEgr p (if (s.egr p).attempts < 3
      then { s.egr p with attempts := (s.egr p).attempts + 1, verifyAt := s.time.cycle } else { s.egr p with verify := 3 }) := by
  unfold mmVerifyTimeout
  dsimp only
  have hlate : ¬ s.now < (s.egr p).verifyAt + msCycles 10 := by
    simp only [State.now, msCycles]
    omega
  rw [if_neg (by simp [hl, hv, hlate])]
  split
  · rfl
  · rfl

theorem mmVerifyTimeout_early {s : State} {p : Nat} (hd : s.time.cycle < (s.egr p).verifyAt + 8000000) : mmVerifyTimeout p s = s :=
  if_pos (by simp [State.now, msCycles, hd])

theorem exec_mmVerifyTimeout (s : State) (p : Fin 8) : exec (.mmVerifyTimeout p) s = .next (settle s (mmVerifyTimeout p.val s)) := rfl

/-! PREEMPT (R142). -/

/-- The first 8-byte boundary at which the frame `x` of port `o` can stop: it has not been passed, the minimum fragment has left, and 8 bytes
since the frame last began. -/
def State.stopAt (s : State) (o : Nat) (x : TxFrame) : Nat :=
  max ((s.bytesBegun o x s.time.cycle + 7) / 8 * 8) ((max (s.minFrag o) (x.sent + 8) + 7) / 8 * 8)

theorem State.stopAt_bounds (s : State) (o : Nat) (x : TxFrame) :
    s.stopAt o x % 8 = 0 ∧ s.minFrag o ≤ s.stopAt o x ∧ s.bytesBegun o x s.time.cycle ≤ s.stopAt o x := by
  unfold State.stopAt
  omega

@[simp] theorem State.egr_chargeCredit (s : State) (o c : Nat) (n : Int) (p : Nat) : (s.chargeCredit o c n).egr p = s.egr p := by
  unfold State.chargeCredit
  split <;> rfl

@[simp] theorem State.c32_chargeCredit (s : State) (o c : Nat) (n : Int) (a : Nat) : (s.chargeCredit o c n).c32 a = s.c32 a := by
  unfold State.chargeCredit
  split <;> rfl

theorem State.egr_promote {s : State} {o : Nat} {y : TxFrame} {l : List TxFrame} (ht : (s.egr o).tx = none) (hn : (s.egr o).next = y :: l) :
    (s.promote o).egr o = { s.egr o with tx := some y, next := l } := by
  unfold State.promote
  simp only [ht, hn]
  exact State.egr_setEgr_same ..

@[simp] theorem State.c32_promote (s : State) (o a : Nat) : (s.promote o).c32 a = s.c32 a := by
  obtain ⟨e, he⟩ := s.promote_only o
  rw [he]
  rfl

/-- The frame `x` of port `o` is held after `b` bytes; the port is free from cycle `n` on. -/
def State.holdTx (s : State) (o : Nat) (x : TxFrame) (b n : Nat) : State :=
  s.setEgr o { s.egr o with tx := none, held := some { x with sent := b, begun := false, preempted := true }, freeAt := n }

/-- A preemption charges the class for the fragment alone. -/
def State.fragmentCharged (s : State) (o : Nat) (x : TxFrame) : State :=
  s.chargeCredit o x.cls.val (((s.stopAt o x - x.sent + 4 : Nat) : Int) - ((s.outLen (s.txFrame x) x.dest - x.sent : Nat) : Int))

/-- An express frame stands behind the frame of the MAC (R142). -/
def State.expressNext (s : State) (o : Nat) : Bool := match (s.egr o).next with
  | y :: _ => !s.isPreemptable o y.cls.val
  | [] => false

/-- The weir of a class is in Guard or Closed. -/
def State.weirHolds (s : State) (o c : Nat) : Bool := match (s.weir o c s.now).1 with
  | .open_ => false
  | _ => true

/-- What PREEMPT does with the frame `x` of the MAC. -/
theorem preempt_eq {s : State} {o : Port} {x : TxFrame} (hx : (s.egr o.val).tx = some x) : preempt o s =
    if !s.live || !x.begun || !s.isPreemptable o.val x.cls.val || s.frameHeld o.val || !(s.expressNext o.val || s.weirHolds o.val x.cls.val) ||
      s.stopAt o.val x + 64 > s.outLen (s.txFrame x) x.dest then s
    else
      let t := if x.preempted then s.fragmentCharged o.val x else (s.fragmentCharged o.val x).bump (txCnt o.val x.cls.val 0x1C)
      (t.holdTx o.val x (s.stopAt o.val x) (t.byteLeaves o.val x (s.stopAt o.val x + 4 + 12))).promote o.val := by
  unfold preempt
  dsimp only
  rw [hx]
  rfl

@[simp] theorem State.egr_bump (s : State) (a o : Nat) : (s.bump a).egr o = s.egr o := rfl

@[simp] theorem State.egr_fragmentCharged (s : State) (o : Nat) (x : TxFrame) (p : Nat) : (s.fragmentCharged o x).egr p = s.egr p :=
  State.egr_chargeCredit ..

@[simp] theorem State.c32_fragmentCharged (s : State) (o : Nat) (x : TxFrame) (a : Nat) : (s.fragmentCharged o x).c32 a = s.c32 a :=
  State.c32_chargeCredit ..

theorem State.egr_holdTx (s : State) (o : Nat) (x : TxFrame) (b n : Nat) : (s.holdTx o x b n).egr o =
    { s.egr o with tx := none, held := some { x with sent := b, begun := false, preempted := true }, freeAt := n } := State.egr_setEgr_same ..

@[simp] theorem State.c32_holdTx (s : State) (o : Nat) (x : TxFrame) (b n a : Nat) : (s.holdTx o x b n).c32 a = s.c32 a := rfl

/-- The frame selected next takes the place of one that is held. -/
theorem State.egr_holdTx_promote {s : State} {o : Nat} {y : TxFrame} {l : List TxFrame} (hn : (s.egr o).next = y :: l) (x : TxFrame) (b n : Nat) :
    ((s.holdTx o x b n).promote o).egr o =
      { s.egr o with tx := some y, next := l, held := some { x with sent := b, begun := false, preempted := true }, freeAt := n } := by
  rw [State.egr_promote (y := y) (l := l) (by rw [State.egr_holdTx]) (by rw [State.egr_holdTx, hn]), State.egr_holdTx]

section
variable {s : State} {o : Port} {x y : TxFrame} {l : List TxFrame}

/-- An express frame behind a preemptable one stops it, where at least 64 bytes are left behind the boundary. -/
theorem preempt_express (hl : s.live = true) (hx : (s.egr o.val).tx = some x) (hb : x.begun = true) (hp : x.preempted = false)
    (hc : s.isPreemptable o.val x.cls.val = true) (hh : s.frameHeld o.val = false) (hn : (s.egr o.val).next = y :: l)
    (hy : s.isPreemptable o.val y.cls.val = false) (hlen : s.stopAt o.val x + 64 ≤ s.outLen (s.txFrame x) x.dest) :
    ∃ n, preempt o s =
      (((s.fragmentCharged o.val x).bump (txCnt o.val x.cls.val 0x1C)).holdTx o.val x (s.stopAt o.val x) n).promote o.val := by
  have he : s.expressNext o.val = true := by simp [State.expressNext, hn, hy]
  rw [preempt_eq hx, if_neg (by simp [hl, hb, hc, hh, he, hlen])]
  simp only [hp, Bool.false_eq_true, if_false]
  exact ⟨_, rfl⟩

theorem preempt_short (hx : (s.egr o.val).tx = some x) (hlen : s.outLen (s.txFrame x) x.dest < s.stopAt o.val x + 64) : preempt o s = s := by
  rw [preempt_eq hx, if_pos (by simp [hlen])]

end

theorem exec_preempt (s : State) (o : Port) : exec (.preempt o) s = .next (settle s (preempt o s)) := rfl

/-- Settles O20: the frames of a leaf whose time has come, the verification timer before and at its end, and a preemption with and without
room for the rest of the frame. -/
theorem shapersAndPreemption : Obligations.ShapersAndPreemption := by
  unfold Obligations.ShapersAndPreemption
  refine ⟨fun s o c d hl => ?_, fun s p hl hv hd => ?_, fun s p hd => ?_, fun s o x y l hl hx hb hp hc hh hn hy => ?_⟩
  · refine ⟨_, exec_atsEligible s o c d, ?_, fun i x hx => ?_, fun o' c' d' hc' hd' h => ?_, ?_⟩
    · rw [leaf_settle, atsEligible_eq hl, State.leaf_setLeaf_same, List.length_map]
    · rw [leaf_settle, atsEligible_eq hl, State.leaf_setLeaf_same, List.getElem?_map, hx, Option.map_some, LeafItem.atTime_eq]
      rfl
    · rw [leaf_settle, atsEligible_eq hl, State.leaf_setLeaf_other _ _ c.isLt d.isLt hc' hd' h]
    · exact sameMem_of_mem (by rw [settle_mem, atsEligible_mem])
  · rw [exec_mmVerifyTimeout, mmVerifyTimeout_due hl hv hd]
  · rw [exec_mmVerifyTimeout, mmVerifyTimeout_early hd]
  · intro len b
    refine ⟨fun hlen => ?_, fun hlen => ?_⟩
    · obtain ⟨n, h⟩ := preempt_express hl hx hb hp hc hh hn hy hlen
      obtain ⟨h8, hF, hbegun⟩ := s.stopAt_bounds o.val x
      have hnext : (((s.fragmentCharged o.val x).bump (txCnt o.val x.cls.val 0x1C)).egr o.val).next = y :: l := by
        rw [State.egr_bump, State.egr_fragmentCharged, hn]
      have hmem : SameMem s (settle s (preempt o s)) := sameMem_of_mem (by rw [settle_mem, preempt_mem])
      refine ⟨_, exec_preempt s o, ?_⟩
      rw [h] at hmem ⊢
      rw [egr_settle, c32_settle, State.egr_holdTx_promote hnext, State.c32_promote, State.c32_holdTx, State.c32_bump_same,
        State.c32_fragmentCharged]
      exact ⟨rfl, rfl, rfl, h8, hF, hbegun, rfl, hmem⟩
    · rw [exec_preempt, preempt_short hx hlen]

end Sys2Proof.Machine
end

