-- ==== Sys2Proof/Proofs/ListSwitch.lean ====
section
/-! SUPPORT. What the steps of a gate-list switch leave of its port, and counters that only rise (O21). -/

namespace Sys2Proof.Machine

/-! Counters that only rise. -/

theorem toNat_satInc (v : Word) : (satInc v).toNat = min (v.toNat + 1) (2 ^ 32 - 1) := by
  have hlt := v.isLt
  unfold satInc
  split
  · next h => simp [h]
  · next h =>
    have hv : v.toNat ≠ 2 ^ 32 - 1 := fun e => h (BitVec.eq_of_toNat_eq (by simp [e]))
    rw [BitVec.toNat_add]
    simp
    omega

theorem State.c32_le_bump (s : State) (a b : Nat) : (s.c32 a).toNat ≤ ((s.bump b).c32 a).toNat := by
  by_cases h : a = b
  · rw [h, State.c32_bump_same]
    have hlt := (s.c32 b).isLt
    rw [toNat_satInc]
    omega
  · rw [State.c32_bump_other s h]

/-- A change after which the counter at `a` stands no lower. -/
def Rises (a : Nat) (s t : State) : Prop := (s.c32 a).toNat ≤ (t.c32 a).toNat

namespace Rises
variable {a : Nat} {s t u : State}

theorem bump (h : Rises a s t) (b : Nat) : Rises a s (t.bump b) := Nat.le_trans h (t.c32_le_bump a b)

theorem of_cnt32 (h : Rises a s t) (hc : u.cnt32 = t.cnt32) : Rises a s u := by
  unfold Rises State.c32 at *
  rwa [hc]

theorem ite {c : Prop} [Decidable c] {u v : State} (hu : Rises a s u) (hv : Rises a s v) : Rises a s (if c then u else v) := by
  split
  · exact hu
  · exact hv

theorem countWithdrawn (h : Rises a s t) (p w : Nat) (own : Bool) : Rises a s (t.countWithdrawn p w own) := by
  have hp : Rises a s (t.portErr p 0x268) := (h.bump (portReg p 0x268)).of_cnt32 rfl
  exact ite (hp.bump _) hp

end Rises

/-! What the steps of a switch leave of port `p` (R149, R160, R163). -/

/-- A change that leaves the current list of port `p`, time, the pending window set, the open window and what has been judged of window `k`, and
after which the counter at `a` stands no lower. -/
structure SwitchKept (p k a : Nat) (s t : State) : Prop where
  cur : (t.gate p).cur = (s.gate p).cur
  time : t.time = s.time
  pendCount : (t.mill p).pendCount = (s.mill p).pendCount
  opened : (t.mill p).opened = (s.mill p).opened
  judged : SMap.get [] (t.mill p).judged k = SMap.get [] (s.mill p).judged k
  count : Rises a s t

namespace SwitchKept
variable {p k a : Nat} {s t u : State}

theorem refl (s : State) : SwitchKept p k a s s := ⟨rfl, rfl, rfl, rfl, rfl, le_rfl⟩

theorem trans (h : SwitchKept p k a s t) (j : SwitchKept p k a t u) : SwitchKept p k a s u :=
  ⟨j.cur.trans h.cur, j.time.trans h.time, j.pendCount.trans h.pendCount, j.opened.trans h.opened, j.judged.trans h.judged, h.count.trans j.count⟩

theorem elsewhere (h : SwitchKept p k a s t) (gates : u.sw.gates = t.sw.gates := by rfl) (mills : u.sw.mills = t.sw.mills := by rfl)
    (time : u.time = t.time := by rfl) (cnt32 : u.cnt32 = t.cnt32 := by rfl) : SwitchKept p k a s u := by
  have hg : u.gate p = t.gate p := by rw [State.gate, gates, State.gate]
  have hm : u.mill p = t.mill p := by rw [State.mill, mills, State.mill]
  exact h.trans ⟨by rw [hg], time, by rw [hm], by rw [hm], by rw [hm], Rises.of_cnt32 (Nat.le_refl _) cnt32⟩

theorem ite {c : Prop} [Decidable c] {u v : State} (hu : SwitchKept p k a s u) (hv : SwitchKept p k a s v) :
    SwitchKept p k a s (if c then u else v) := by
  split
  · exact hu
  · exact hv

theorem bump (h : SwitchKept p k a s t) (b : Nat) : SwitchKept p k a s (t.bump b) :=
  h.trans ⟨rfl, rfl, rfl, rfl, rfl, t.c32_le_bump a b⟩

theorem setCls (h : SwitchKept p k a s t) (o c : Nat) (q : ClassQ) : SwitchKept p k a s (t.setCls o c q) := h.elsewhere

theorem setGate (h : SwitchKept p k a s t) {g : Gate} (hg : g.cur = (t.gate p).cur) : SwitchKept p k a s (t.setGate p g) :=
  h.trans ⟨(congrArg Gate.cur (SMap.get_set_same ..)).trans hg, rfl, rfl, rfl, rfl, le_rfl⟩

theorem setMill (h : SwitchKept p k a s t) {m : Millrace} (hc : m.pendCount = (t.mill p).pendCount) (ho : m.opened = (t.mill p).opened)
    (hj : SMap.get [] m.judged k = SMap.get [] (t.mill p).judged k) : SwitchKept p k a s (t.setMill p m) := by
  have hm : (t.setMill p m).mill p = m := SMap.get_set_same ..
  exact h.trans ⟨rfl, rfl, by rw [hm, hc], by rw [hm, ho], by rw [hm, hj], le_rfl⟩

theorem markOverrun (h : SwitchKept p k a s t) (q : Nat) (closed : Nat → Bool) : SwitchKept p k a s (t.markOverrun q closed) := by
  unfold State.markOverrun
  dsimp only
  split
  · exact ite h.elsewhere h
  · exact h

theorem applyGates (h : SwitchKept p k a s t) (st : Nat) : SwitchKept p k a s (t.applyGates p st) := by
  unfold State.applyGates
  exact (h.setGate (g := { t.gate p with state := BitVec.ofNat 8 st }) rfl).markOverrun p _

theorem refreshGates (h : SwitchKept p k a s t) : SwitchKept p k a s (t.refreshGates p) := by
  unfold State.refreshGates
  dsimp only
  split
  · exact h.applyGates _
  · refine ite (h.applyGates _) (SwitchKept.applyGates (h.setGate ?_) _)
    rfl

theorem carryBand (h : SwitchKept p k a s t) (q c : Nat) : SwitchKept p k a s (t.carryBand q c) := by
  unfold State.carryBand
  dsimp only
  split
  · exact h
  · split
    · exact h.setCls _ _ _
    · exact h

theorem carryBands (h : SwitchKept p k a s t) (q : Nat) (closed : Nat → Bool) : SwitchKept p k a s (t.carryBands q closed) :=
  foldl_keeps h (fun _ c hv => ite (hv.carryBand q c) hv) _

theorem countCycle (h : SwitchKept p k a s t) (q : Nat) : SwitchKept p k a s (t.countCycle q) := ite (h.bump _) h

theorem countWithdrawn (h : SwitchKept p k a s t) (q w : Nat) (own : Bool) : SwitchKept p k a s (t.countWithdrawn q w own) := by
  have hp : SwitchKept p k a s (t.portErr q 0x268) := (h.bump _).elsewhere (t := t.bump (portReg q 0x268))
  exact ite (hp.bump _) hp

theorem withdrawDecided (h : SwitchKept p k a s t) (own : Bool) : SwitchKept p k a s (t.withdrawDecided p own) :=
  (foldl_keeps h (fun _ _ hv => hv.countWithdrawn ..) _).setMill rfl rfl rfl

theorem judgeOpening (h : SwitchKept p k a s t) {w : Nat} (hw : k ≠ w) (m : Int) : SwitchKept p k a s (t.judgeOpening p w m) := by
  unfold State.judgeOpening
  refine h.setMill rfl rfl ?_
  dsimp only
  rw [SMap.get_set_other _ _ _ _ hw]

theorem withdrawOpenings (h : SwitchKept p k a s t) {w : Nat} (hw : k ≠ w) (busyTo n : Nat) :
    SwitchKept p k a s (State.withdrawOpenings p w busyTo n t) := by
  induction n generalizing t with
  | zero => exact h
  | succ n ih =>
    rw [State.withdrawOpenings]
    split
    · exact ite (ih ((h.judgeOpening hw _).countWithdrawn ..)) h
    · exact h

end SwitchKept

end Sys2Proof.Machine
end

