-- ==== Sys2Proof/Proofs/GateLists.lean ====
section
/-! SUPPORT. A switch that counts more than once: the counter of a withdrawn window of a large set is the count of switches of port 0 (O21). -/

namespace Sys2Proof.Machine

/-! The count of a switch after it (R149, R353). -/

namespace Rises
variable {a : Nat} {s t u : State}

theorem withdrawOpenings (h : Rises a s t) (p w busyTo n : Nat) : Rises a s (State.withdrawOpenings p w busyTo n t) := by
  induction n generalizing t with
  | zero => exact h
  | succ n ih =>
    rw [State.withdrawOpenings]
    split
    · next m o _ =>
      have hj : Rises a s (t.judgeOpening p w m) := h.of_cnt32 rfl
      exact ite (ih (hj.countWithdrawn ..)) h
    · exact h

theorem keptUpdate (h : Rises a s t) (table index : Nat) (valid : Bool) (body : List Byte) : Rises a s (t.keptUpdate table index valid body) := by
  have hfull : Rises a s (t.bump (mirReg 0x1C)) := h.bump _
  exact ite h (ite (h.of_cnt32 rfl) (ite (h.of_cnt32 rfl) (ite (hfull.of_cnt32 rfl) (h.of_cnt32 rfl))))

theorem placePort (h : Rises a s t) (p : Nat) (here : Bool) : Rises a s (t.placePort p here) := by
  unfold State.placePort
  extract_lets g isAngle listed
  exact ite h (h.of_cnt32 rfl)

theorem listSwitch (s : State) (p : Nat) : Rises a (gateListSwitch s p) (listSwitch p s) := by
  unfold Machine.listSwitch
  extract_lets t
  have ht : Rises a t t := le_rfl
  have hr : Rises a t (t.replacePort p) := by
    unfold State.replacePort
    extract_lets _ u
    have hu : Rises a t u := ht.of_cnt32 rfl
    exact ite (hu.placePort p false) hu
  refine ite ht ?_
  unfold State.mirrorSched
  extract_lets b on _ u
  have hu : Rises a t u := ite (hr.of_cnt32 rfl) hr
  exact hu.keptUpdate _ _ _ _

end Rises

/-! A window whose opening is withdrawn at a switch (R160, R162, R163). -/

theorem length_rdB (s : State) (a n : Nat) : (s.rdB a n).length = n := by
  induction n generalizing a with
  | zero => rfl
  | succ n ih => simp [State.rdB, ih]

theorem leNat_lt (l : List Byte) : leNat l < 256 ^ l.length := by
  induction l with
  | nil => simp [leNat]
  | cons b l ih =>
    have := b.isLt
    simp only [leNat, List.length_cons, Nat.pow_succ]
    omega

/-- At local time 0 a list that begins there is current at port `p`, and no opening of window `k` has been judged. -/
structure Unjudged (p k : Nat) (s : State) : Prop where
  list : ∃ h, (s.gate p).cur = some h ∧ h.angle = false ∧ h.base = 0
  time : s.time = TimeRef.reset
  judged : SMap.get [] (s.mill p).judged k = []

theorem SwitchKept.unjudged {p k a : Nat} {s t : State} (h : SwitchKept p k a s t) (hs : Unjudged p k s) : Unjudged p k t :=
  ⟨by rw [h.cur]; exact hs.list, h.time.trans hs.time, h.judged.trans hs.judged⟩

/-- The next opening of window `k` is that of the present cycle of the list. -/
theorem Unjudged.nextOpening {p k : Nat} {s : State} (hs : Unjudged p k s) : ∃ m o, s.nextOpening p k = some (m, o) ∧ o < 2 ^ 64 := by
  obtain ⟨⟨h, hg, ha, hb⟩, ht, hj⟩ := hs
  have hpos : (cyclePos h 0).2 = 0 := by simp [cyclePos, hb]
  have hrd := leNat_lt (s.rdB (windowAddr p false k + 8) 4)
  rw [length_rdB] at hrd
  refine ⟨0, s.windowOpening p k h 0, ?_, ?_⟩
  · unfold State.nextOpening
    simp only [hg, ha, ht, hj, Bool.false_eq_true, if_false]
    rw [show (cyclePos h TimeRef.reset.ltime).2 = 0 from hpos]
    simp [List.range_succ, TimeRef.reset, nominalIncr]
  · simp [State.windowOpening, hb, State.rd, nsUnit]
    omega

/-- A port that is taken until far behind the opening withdraws it, and the window counts it. -/
theorem Unjudged.withdrawn {p k busyTo n : Nat} {s : State} (hs : Unjudged p k s) (hb : 2 ^ 64 ≤ busyTo)
    (hc : 1 ≤ (s.c32 (windowCnt p k 0xC)).toNat) : 2 ≤ ((State.withdrawOpenings p k busyTo (n + 1) s).c32 (windowCnt p k 0xC)).toNat := by
  obtain ⟨m, o, hn, ho⟩ := hs.nextOpening
  have hbusy : s.cyclesTo o < (s.windowGuards p o).1 ∨ o < busyTo := .inr (by omega)
  rw [State.withdrawOpenings]
  simp only [hn]
  rw [if_pos (by simpa using hbusy)]
  have hj : Rises (windowCnt p k 0xC) s ((s.judgeOpening p k m).portErr p 0x268) := by
    have h1 : Rises (windowCnt p k 0xC) s (s.judgeOpening p k m) := Rises.of_cnt32 (Nat.le_refl _) rfl
    exact (h1.bump (portReg p 0x268)).of_cnt32 rfl
  have hw : 2 ≤ (((s.judgeOpening p k m).countWithdrawn p k true).c32 (windowCnt p k 0xC)).toNat := by
    rw [State.countWithdrawn, if_pos rfl, State.c32_bump_same]
    have hone := hc.trans hj
    rw [toNat_satInc]
    omega
  exact hw.trans (Rises.withdrawOpenings (Nat.le_refl _) p k busyTo n)

theorem Unjudged.withdrawnLate {p k busyTo : Nat} {s : State} (hs : Unjudged p k s) (hk : (s.mill p).curCount = k + 1) (hb : 2 ^ 64 ≤ busyTo)
    (hc : 1 ≤ (s.c32 (windowCnt p k 0xC)).toNat) : 2 ≤ ((s.withdrawLate p busyTo).c32 (windowCnt p k 0xC)).toNat := by
  obtain ⟨h, hg, -, -⟩ := hs.list
  unfold State.withdrawLate
  simp only [hg, hk]
  rw [show List.range (k + 1) = List.range k ++ [k] from List.range_succ, List.foldl_append, List.foldl_cons, List.foldl_nil]
  have hbefore : ∀ n, SwitchKept p k (windowCnt p k 0xC) s ((List.range k).foldl (fun u w => State.withdrawOpenings p w busyTo n u) s) :=
    fun n => List.foldlRecOn (motive := SwitchKept p k (windowCnt p k 0xC) s) _ _ (.refl s)
      (fun _ hu w hw => hu.withdrawOpenings (Nat.ne_of_gt (List.mem_range.1 hw)) busyTo n)
  exact ((hbefore _).unjudged hs).withdrawn hb (hc.trans (hbefore _).count)

theorem State.c32_clearWindowCnt (s : State) {p a : Nat} (ha : windowCnt p 64 0 ≤ a) : (s.clearWindowCnt p).c32 a = s.c32 a := by
  unfold State.c32 State.clearWindowCnt SMap.dropKeys
  rw [SMap.get_filter (p := fun j => !(decide (windowCnt p 0 0 ≤ j) && decide (j < windowCnt p 64 0)))]
  simp [Nat.not_lt.2 ha]

/-- The set of `k + 1` windows that becomes current on a port with a long open window withdraws the last of them. -/
theorem switchWindows_counts {p k : Nat} {s : State} {w : OpenWin} (hp : p < 20) (hs : Unjudged p k s) (hk : (s.mill p).pendCount = k + 1)
    (ho : (s.mill p).opened = some w) (hw : w.candidate = true) (hend : w.candEnd = 2 ^ 64) (ha : 64 ≤ k)
    (hc : 1 ≤ (s.c32 (windowCnt p k 0xC)).toNat) : 2 ≤ ((switchWindows s p).c32 (windowCnt p k 0xC)).toNat := by
  have hd : SwitchKept p k (windowCnt p k 0xC) s (s.withdrawDecided p false) := (SwitchKept.refl s).withdrawDecided false
  unfold switchWindows
  rw [if_neg (by omega)]
  extract_lets u v x bytes opened y z busy
  have hpend : x.pendCount = k + 1 := hd.pendCount.trans hk
  have hopen : x.opened = some w := hd.opened.trans ho
  have hopened : opened = some { w with win.ownSet := false } := by
    simp only [opened, hopen, hw, if_true]
  have hcur : (z.mill p).curCount = x.pendCount := congrArg Millrace.curCount (SMap.get_set_same ..)
  have hjudged : (z.mill p).judged = [] := congrArg Millrace.judged (SMap.get_set_same ..)
  have hz : Unjudged p k z := by
    obtain ⟨hl, ht, -⟩ := hd.unjudged hs
    exact ⟨hl, ht, by rw [hjudged]; rfl⟩
  refine hz.withdrawnLate (hcur.trans hpend) ?_ ?_
  · simp only [busy, hopened, State.ltAt, State.now, hz.time, hend, TimeRef.reset, nominalIncr]
    omega
  · rw [show z.c32 (windowCnt p k 0xC) = v.c32 (windowCnt p k 0xC) from rfl]
    simp only [v]
    rw [State.c32_clearWindowCnt _ (by simp [windowCnt]; omega)]
    exact hc.trans hd.count

/-- The pending time-indexed list `h` of port `p` has become current in its bank, and its switch has been counted (R149). -/
def State.listTaken (s : State) (p : Nat) (h : GateHdr) : State :=
  ((s.wrB (gateEntryAddr p false 0) (s.rdB (gateEntryAddr p true 0) (h.count * 8))).setGate p
    { s.gate p with cur := some h, pend := none, due := false }).bump (portReg p 0x20C)

@[simp] theorem State.gate_setGate_same (s : State) (p : Nat) (g : Gate) : (s.setGate p g).gate p = g := SMap.get_set_same ..

@[simp] theorem State.gate_bump (s : State) (a p : Nat) : (s.bump a).gate p = s.gate p := rfl

theorem State.gate_listTaken (s : State) (p : Nat) (h : GateHdr) :
    (s.listTaken p h).gate p = { s.gate p with cur := some h, pend := none, due := false } := by
  rw [State.listTaken, State.gate_bump, State.gate_setGate_same]

/-- At its switch a time-indexed list is taken, and then its windows. -/
theorem gateListSwitch_taken {s : State} {p : Nat} {h : GateHdr} (hp : (s.gate p).pend = some h) (ha : h.angle = false)
    (hr : (s.gate p).switchAt ≤ s.time.ltime) (k a : Nat) :
    ∃ u, SwitchKept p k a (s.listTaken p h) u ∧ gateListSwitch s p = switchWindows u p := by
  have hkept : ∀ closed, SwitchKept p k a (s.listTaken p h) (((s.listTaken p h).refreshGates p).carryBands p closed) :=
    fun closed => (SwitchKept.refl _).refreshGates.carryBands p closed
  unfold gateListSwitch
  simp only [hp, ha, Bool.false_eq_true, if_false, hr, decide_true, Bool.not_true]
  exact ⟨_, SwitchKept.ite ((hkept _).countCycle p) (hkept _), rfl⟩

theorem exec_gateListSwitch {s : State} (hl : s.live = true) (p : Port) :
    exec (.gateListSwitch p) s = .next (settle s (listSwitch p.val s)) := by
  show done s (if s.live then listSwitch p.val s else s) = _
  rw [if_pos hl]
  rfl

/-- The window whose counter of withdrawals has the address of the switch counter of port 0. -/
def sharedWindow : Nat := 0x675020

theorem sharedWindow_counter : windowCnt 0 sharedWindow 0xC = portReg 0 0x20C := by decide

/-- A list of one entry from local time 0 on. -/
def oneEntry : GateHdr := { gen := 0, angle := false, count := 1, cycleTime := 1, base := 0 }

/-- A window that has been open since the start and ends at `2 ^ 64`. -/
def longWindow : OpenWin :=
  { win := { idx := 0, inPort := 0, handle := 0, maxLen := 0, cyc := 0, open_ := 0, arrive := 0, span := 0, ownSet := true, guard := [] }
    openedAt := 0, candidate := true, candEnd := 2 ^ 64, candFrom := 0, candTo := 0 }

/-- A running device: at port 0 the switch to `oneEntry` is due, a set of `sharedWindow + 1` windows is pending, and `longWindow` is open. -/
def crowdedPort : State :=
  (({ State.reset with pw := { Power.reset with mode := .operating, rstLow := false } }).setGate 0 { Gate.reset with pend := some oneEntry }).setMill 0
    { Millrace.reset with pendCount := sharedWindow + 1, opened := some longWindow }

theorem gate_crowdedPort : crowdedPort.gate 0 = { Gate.reset with pend := some oneEntry } := by decide

theorem mill_crowdedPort : crowdedPort.mill 0 = { Millrace.reset with pendCount := sharedWindow + 1, opened := some longWindow } := by decide

theorem unjudged_listTaken : Unjudged 0 sharedWindow (crowdedPort.listTaken 0 oneEntry) := by
  refine ⟨⟨oneEntry, ?_, rfl, rfl⟩, rfl, ?_⟩
  · rw [State.gate_listTaken]
  · rw [show (crowdedPort.listTaken 0 oneEntry).mill 0 = crowdedPort.mill 0 from rfl, mill_crowdedPort]
    rfl

/-- The switch of `crowdedPort` raises its counter to 2 or more. -/
theorem crowdedPort_counts : 2 ≤ ((listSwitch 0 crowdedPort).c32 (portReg 0 0x20C)).toNat := by
  obtain ⟨u, hu, hswitch⟩ := gateListSwitch_taken (s := crowdedPort) (p := 0) (by rw [gate_crowdedPort]) (h := oneEntry) rfl
    (by rw [gate_crowdedPort]; exact Nat.le_refl 0) sharedWindow (portReg 0 0x20C)
  have hmill : (crowdedPort.listTaken 0 oneEntry).mill 0 = crowdedPort.mill 0 := rfl
  have hone : 1 ≤ ((crowdedPort.listTaken 0 oneEntry).c32 (portReg 0 0x20C)).toNat := by
    rw [State.listTaken, State.c32_bump_same]
    decide
  have hcounts : 2 ≤ ((switchWindows u 0).c32 (windowCnt 0 sharedWindow 0xC)).toNat := by
    refine switchWindows_counts (w := longWindow) (by decide) (hu.unjudged unjudged_listTaken) ?_ ?_ rfl rfl (by decide) ?_
    · rw [hu.pendCount, hmill, mill_crowdedPort]
    · rw [hu.opened, hmill, mill_crowdedPort]
    · rw [sharedWindow_counter]
      exact hone.trans hu.count
  rw [sharedWindow_counter, ← hswitch] at hcounts
  exact hcounts.trans (Rises.listSwitch crowdedPort 0)

/-- Refutes O21: nothing bounds the window set that waits with a pending list, and where it has more than `sharedWindow` windows, the counter of a
withdrawn one (R175) has the address of the port's count of switches (R157), so that one switch counts more than once. -/
theorem not_gateLists : ¬ Obligations.GateLists := by
  unfold Obligations.GateLists
  rintro ⟨-, hlists, -⟩
  have hlive : crowdedPort.live = true := by decide
  obtain ⟨-, hswitch⟩ := hlists crowdedPort 0 oneEntry hlive (by rw [show ((0 : Port).val) = 0 from rfl, gate_crowdedPort]) rfl (by simp [oneEntry])
  obtain ⟨t, ht, -, -, hcount, -⟩ := hswitch (by rw [show ((0 : Port).val) = 0 from rfl, gate_crowdedPort]; exact Nat.le_refl 0)
  rw [exec_gateListSwitch hlive] at ht
  obtain rfl := Host.Outcome.next.inj ht
  have hzero : crowdedPort.c32 (portReg 0 0x20C) = 0 := rfl
  have htwo := crowdedPort_counts
  rw [c32_settle, show ((0 : Port).val) = 0 from rfl, hzero] at hcount
  rw [hcount] at htwo
  exact absurd htwo (by decide)

end Sys2Proof.Machine
end

