-- ==== Sys2Proof/Proofs/MillraceUnit.lean ====
section
/-! SUPPORT. Reads of a millrace unit after a write, weirs that it closes, and what a withdrawal leaves (O22). -/

namespace Sys2Proof.Machine

/-! The millrace unit of a port. -/

@[simp] theorem State.mill_setMill_same (s : State) (p : Nat) (x : Millrace) : (s.setMill p x).mill p = x := SMap.get_set_same ..

theorem State.mill_setMill_other (s : State) {p q : Nat} (x : Millrace) (h : q ≠ p) : (s.setMill p x).mill q = s.mill q :=
  SMap.get_set_other _ _ _ _ h

@[simp] theorem State.c32_setMill (s : State) (p : Nat) (x : Millrace) (a : Nat) : (s.setMill p x).c32 a = s.c32 a := rfl

@[simp] theorem State.mill_wrB (s : State) (a : Nat) (bs : List Byte) (p : Nat) : (s.wrB a bs).mill p = s.mill p := rfl

@[simp] theorem State.mill_bump (s : State) (a p : Nat) : (s.bump a).mill p = s.mill p := rfl

@[simp] theorem State.mill_portErr (s : State) (q off p : Nat) : (s.portErr q off).mill p = s.mill p := rfl

@[simp] theorem State.mill_clearWindowCnt (s : State) (q p : Nat) : (s.clearWindowCnt q).mill p = s.mill p := rfl

@[simp] theorem mill_settle (s t : State) (p : Nat) : (settle s t).mill p = t.mill p := rfl

@[simp] theorem State.mill_markOverrun (s : State) (q : Nat) (closed : Nat → Bool) (p : Nat) : (s.markOverrun q closed).mill p = s.mill p := by
  unfold State.markOverrun
  dsimp only
  split
  · split <;> rfl
  · rfl

@[simp] theorem State.mill_carryBand (s : State) (q c p : Nat) : (s.carryBand q c).mill p = s.mill p := by
  unfold State.carryBand
  dsimp only
  split
  · rfl
  · split <;> rfl

@[simp] theorem State.mill_carryBands (s : State) (q : Nat) (closed : Nat → Bool) (p : Nat) : (s.carryBands q closed).mill p = s.mill p := by
  refine foldl_keeps (P := fun u => u.mill p = s.mill p) rfl (fun u c hu => ?_) _
  split
  · rw [State.mill_carryBand, hu]
  · exact hu

/-! Weirs that the unit closes (R164, R166). -/

theorem State.weir_closed_of_busy {s : State} {p cyc : Nat} (h : cyc < (s.mill p).freeFrom) (c : Nat) : (s.weir p c cyc).1 = .closed := by
  have hclosed : s.millClosed p cyc = true := by simp [State.millClosed, h]
  simp [State.weir, hclosed]

theorem State.weirClosedNow_of_opened {s : State} {p : Nat} {w : OpenWin} (h : (s.mill p).opened = some w) (c : Nat) :
    s.weirClosedNow p c = true := by simp [State.weirClosedNow, h]

theorem Millrace.freeFrom_opened {x : Millrace} {w : OpenWin} (h : x.opened = some w) : x.freeFrom = w.endAt + 1 := by
  simp [Millrace.freeFrom, h]

theorem Millrace.freeFrom_idle {x : Millrace} (h : x.opened = none) : x.freeFrom = x.freeAt := by simp [Millrace.freeFrom, h]

theorem OpenWin.endAt_empty {w : OpenWin} (h : w.candidate = false) :
    w.endAt = min (w.openedAt + nsCycles w.win.arrive) (w.openedAt + nsCycles w.win.span) := by simp [OpenWin.endAt, h]

theorem OpenWin.endAt_candidate {w : OpenWin} (h : w.candidate = true) : w.endAt = min w.candEnd (w.openedAt + nsCycles w.win.span) := by
  simp [OpenWin.endAt, h]

/-! The counters of a window and of its port (R174, R175). -/

theorem windowCnt_mod (p w off : Nat) : windowCnt p w off % 16 = off % 16 := by
  unfold windowCnt
  omega

theorem portReg_mod16 (p off : Nat) : portReg p off % 16 = off % 16 := by
  unfold portReg
  omega

theorem ne_of_mod16_ne {a b : Nat} (h : a % 16 ≠ b % 16) : a ≠ b := fun e => h (by rw [e])

theorem State.c32_clearWindowCnt_own (s : State) (p : Nat) {w off : Nat} (hw : w < 64) (hoff : off < 16) :
    (s.clearWindowCnt p).c32 (windowCnt p w off) = 0 := by
  have hlow : windowCnt p 0 0 ≤ windowCnt p w off := by
    unfold windowCnt
    omega
  have hhigh : windowCnt p w off < windowCnt p 64 0 := by
    unfold windowCnt
    omega
  unfold State.c32 State.clearWindowCnt SMap.dropKeys
  rw [SMap.get_filter (p := fun j => !(decide (windowCnt p 0 0 ≤ j) && decide (j < windowCnt p 64 0)))]
  simp [hlow, hhigh]

theorem State.c32_countWithdrawn_port (s : State) (p w : Nat) :
    (s.countWithdrawn p w true).c32 (portReg p 0x268) = satInc (s.c32 (portReg p 0x268)) := by
  have hne : portReg p 0x268 ≠ windowCnt p w 0xC := ne_of_mod16_ne (by rw [portReg_mod16, windowCnt_mod]; decide)
  rw [State.countWithdrawn, if_pos rfl, State.c32_bump_other _ hne, State.c32_portErr_same]

theorem State.c32_countWithdrawn_window (s : State) (p w : Nat) :
    (s.countWithdrawn p w true).c32 (windowCnt p w 0xC) = satInc (s.c32 (windowCnt p w 0xC)) := by
  have hne : windowCnt p w 0xC ≠ portReg p 0x268 := ne_of_mod16_ne (by rw [portReg_mod16, windowCnt_mod]; decide)
  rw [State.countWithdrawn, if_pos rfl, State.c32_bump_same, State.c32_portErr_other _ _ _ hne]

theorem State.c32_countWithdrawn_low (s : State) (p w : Nat) (own : Bool) {a : Nat} (ha : a % 16 < 8) :
    (s.countWithdrawn p w own).c32 a = s.c32 a := by
  have hport : a ≠ portReg p 0x268 := ne_of_mod16_ne (by rw [portReg_mod16]; omega)
  have hwin : a ≠ windowCnt p w 0xC := ne_of_mod16_ne (by rw [windowCnt_mod]; omega)
  unfold State.countWithdrawn
  dsimp only
  split
  · rw [State.c32_bump_other _ hwin, State.c32_portErr_other _ _ _ hport]
  · exact State.c32_portErr_other _ _ _ hport

@[simp] theorem State.mill_countWithdrawn (s : State) (q w : Nat) (own : Bool) (p : Nat) : (s.countWithdrawn q w own).mill p = s.mill p := by
  unfold State.countWithdrawn
  dsimp only
  split <;> rfl

/-! Openings judged and withdrawn (R159, R160). -/

theorem State.mill_judgeOpening_same (s : State) (p w : Nat) (m : Int) :
    ∃ j, (s.judgeOpening p w m).mill p = { s.mill p with judged := j } := ⟨_, State.mill_setMill_same ..⟩

theorem State.mill_judgeOpening_other (s : State) {p q : Nat} (w : Nat) (m : Int) (h : q ≠ p) : (s.judgeOpening p w m).mill q = s.mill q :=
  State.mill_setMill_other _ _ h

/-- A change that at most judges openings of port `p` and counts them as withdrawn: of the millrace units it moves only what has been judged at
`p`, and no counter of the first two of a window (R175). -/
structure OpeningsJudged (p : Nat) (s t : State) : Prop where
  mill : ∃ j, t.mill p = { s.mill p with judged := j }
  others : ∀ q, q ≠ p → t.mill q = s.mill q
  time : t.time = s.time
  counts : ∀ a, a % 16 < 8 → t.c32 a = s.c32 a

namespace OpeningsJudged
variable {p : Nat} {s t u : State}

theorem refl (s : State) : OpeningsJudged p s s := ⟨⟨_, rfl⟩, fun _ _ => rfl, rfl, fun _ _ => rfl⟩

theorem trans (h : OpeningsJudged p s t) (k : OpeningsJudged p t u) : OpeningsJudged p s u := by
  obtain ⟨⟨i, hi⟩, hq, ht, hc⟩ := h
  obtain ⟨⟨j, hj⟩, kq, kt, kc⟩ := k
  exact ⟨⟨j, by rw [hj, hi]⟩, fun q hne => (kq q hne).trans (hq q hne), kt.trans ht, fun a ha => (kc a ha).trans (hc a ha)⟩

theorem judgeOpening (h : OpeningsJudged p s t) (w : Nat) (m : Int) : OpeningsJudged p s (t.judgeOpening p w m) :=
  h.trans ⟨t.mill_judgeOpening_same p w m, fun _ hq => t.mill_judgeOpening_other w m hq, rfl, fun _ _ => rfl⟩

theorem countWithdrawn (h : OpeningsJudged p s t) (w : Nat) (own : Bool) : OpeningsJudged p s (t.countWithdrawn p w own) := by
  have htime : (t.countWithdrawn p w own).time = t.time := by
    unfold State.countWithdrawn
    dsimp only
    split <;> rfl
  exact h.trans ⟨⟨(t.mill p).judged, t.mill_countWithdrawn p w own p⟩, fun q _ => t.mill_countWithdrawn p w own q, htime,
    fun _ ha => t.c32_countWithdrawn_low p w own ha⟩

theorem withdrawOpenings (h : OpeningsJudged p s t) (w busyTo n : Nat) : OpeningsJudged p s (State.withdrawOpenings p w busyTo n t) := by
  induction n generalizing t with
  | zero => exact h
  | succ n ih =>
    rw [State.withdrawOpenings]
    split
    · split
      · exact ih ((h.judgeOpening ..).countWithdrawn ..)
      · exact h
    · exact h

theorem withdrawLate (h : OpeningsJudged p s t) (busyTo : Nat) : OpeningsJudged p s (t.withdrawLate p busyTo) := by
  obtain ⟨l, n, hl⟩ := withdrawLate_eq_foldl t p busyTo
  rw [hl]
  exact foldl_keeps h (fun _ w hu => hu.withdrawOpenings w busyTo n) l

end OpeningsJudged

end Sys2Proof.Machine
end

