-- ==== Sys2Proof/Proofs/MillraceWindows.lean ====
section
/-! SUPPORT. The commands of a millrace unit: decision, opening, end, and the adoption of a window set (O22). -/

namespace Sys2Proof.Machine

/-! The decision (R159, R160). -/

section
variable {s : State} {p w : Nat} {m : Int} {o : Nat}

/-- Where the conditions of R159 hold, a window is planned as its entry says. -/
theorem State.windowPlan_ports {guards : List Nat} (h : s.millPorts p (bits (s.rd (windowAddr p false w) 1) 4 0) = true) :
    ∃ d, s.windowPlan p w m o guards = some d ∧ d.idx = w ∧ d.inPort = bits (s.rd (windowAddr p false w) 1) 4 0 ∧ d.open_ = o ∧
      d.ownSet = true ∧ d.guard = guards := ⟨_, if_pos h, rfl, rfl, rfl, rfl, rfl⟩

theorem State.windowPlan_none {guards : List Nat} (h : s.millPorts p (bits (s.rd (windowAddr p false w) 1) 4 0) = false) :
    s.windowPlan p w m o guards = none := if_neg (by simp [h])

theorem windowDecision_early (hn : s.nextOpening p w = some (m, o)) (hc : (s.windowGuards p o).1 < s.cyclesTo o) :
    windowDecision s p w = s := by
  unfold windowDecision
  simp only [hn, gt_iff_lt, hc, if_true, ite_self]

/-- At its decision instant a window is judged, and then it is decided as it is planned, or withdrawn. -/
theorem windowDecision_due (hw : w < (s.mill p).curCount) (hn : s.nextOpening p w = some (m, o)) (hc : s.cyclesTo o ≤ (s.windowGuards p o).1) :
    windowDecision s p w = match s.windowPlan p w m o (s.windowGuards p o).2 with
      | some d => (s.judgeOpening p w m).setMill p
          { (s.judgeOpening p w m).mill p with decided := ((s.judgeOpening p w m).mill p).decided ++ [d] }
      | none => (s.judgeOpening p w m).countWithdrawn p w true := by
  unfold windowDecision
  dsimp only
  rw [if_neg (by omega), hn]
  dsimp only
  rw [if_neg (by omega)]
  rfl

end

theorem exec_windowDecision {s : State} (hl : s.live = true) (p : Fin 20) (w : Fin 64) :
    exec (.windowDecision p w) s = .next (settle s (windowDecision s p.val w.val)) := by
  show done s (if s.live then windowDecision s p.val w.val else s) = _
  rw [if_pos hl]
  rfl

theorem windowDecision_cases (s : State) (p : Fin 20) (w : Fin 64) (m : Int) (o : Nat) (hl : s.live = true)
    (hw : w.val < (s.mill p.val).curCount) (hn : s.nextOpening p.val w.val = some (m, o)) :
    let inPort := bits (s.rd (windowAddr p.val false w.val) 1) 4 0
    ((s.windowGuards p.val o).1 < s.cyclesTo o → exec (.windowDecision p w) s = .next (settle s s)) ∧
    (s.cyclesTo o ≤ (s.windowGuards p.val o).1 → s.millPorts p.val inPort = true →
      ∃ t d, exec (.windowDecision p w) s = .next t ∧ (t.mill p.val).decided = (s.mill p.val).decided ++ [d] ∧ d.idx = w.val ∧
        d.inPort = inPort ∧ d.open_ = o ∧ d.ownSet = true ∧ d.guard = (s.windowGuards p.val o).2 ∧
        t.cnt32 = s.cnt32 ∧ SameMem s t ∧ (∀ q, q ≠ p.val → t.mill q = s.mill q)) ∧
    (s.cyclesTo o ≤ (s.windowGuards p.val o).1 → s.millPorts p.val inPort = false →
      ∃ t, exec (.windowDecision p w) s = .next t ∧ (t.mill p.val).decided = (s.mill p.val).decided ∧
        t.c32 (portReg p.val 0x268) = satInc (s.c32 (portReg p.val 0x268)) ∧
        t.c32 (windowCnt p.val w.val 0xC) = satInc (s.c32 (windowCnt p.val w.val 0xC)) ∧ SameMem s t) := by
  intro inPort
  have hmem : SameMem s (settle s (windowDecision s p.val w.val)) := sameMem_of_mem (by rw [settle_mem, windowDecision_mem])
  obtain ⟨j, hj⟩ := s.mill_judgeOpening_same p.val w.val m
  rw [exec_windowDecision hl]
  refine ⟨fun hc => by rw [windowDecision_early hn hc], fun hc hp => ?_, fun hc hp => ?_⟩
  · obtain ⟨d, hplan, hidx, hin, hopen, hown, hguard⟩ := State.windowPlan_ports (m := m) (o := o) (guards := (s.windowGuards p.val o).2) hp
    refine ⟨_, d, rfl, ?_, hidx, hin, hopen, hown, hguard, ?_, hmem, fun q hq => ?_⟩
    all_goals rw [windowDecision_due hw hn hc, hplan]
    · rw [mill_settle, State.mill_setMill_same, hj]
    · rfl
    · rw [mill_settle, State.mill_setMill_other _ _ hq, State.mill_judgeOpening_other _ _ _ hq]
  · refine ⟨_, rfl, ?_, ?_, ?_, hmem⟩
    all_goals rw [windowDecision_due hw hn hc, State.windowPlan_none hp]
    · rw [mill_settle, State.mill_countWithdrawn, hj]
    · rw [c32_settle, State.c32_countWithdrawn_port]
      rfl
    · rw [c32_settle, State.c32_countWithdrawn_window]
      rfl

/-! The opening (R164). -/

/-- Of a window found before and a decided window, the one that opens first. -/
def DecidedWin.orEarlier (b : Option DecidedWin) (x : DecidedWin) : Option DecidedWin := match b with
  | none => some x
  | some y => if x.open_ < y.open_ then some x else some y

theorem firstOpening_eq (l : List DecidedWin) : firstOpening l = l.foldl DecidedWin.orEarlier none := rfl

/-- `b` holds no window other than `d` that opens as early as `d`. -/
def DecidedWin.Beats (d : DecidedWin) (b : Option DecidedWin) : Prop := ∀ x, b = some x → x ≠ d → d.open_ < x.open_

theorem DecidedWin.Beats.orEarlier {d x : DecidedWin} {b : Option DecidedWin} (hb : d.Beats b) (hx : x ≠ d → d.open_ < x.open_) :
    d.Beats (DecidedWin.orEarlier b x) := by
  cases b with
  | none =>
    rintro _ ⟨⟩
    exact hx
  | some y =>
    unfold DecidedWin.orEarlier
    dsimp only
    split
    · rintro _ ⟨⟩
      exact hx
    · exact hb

theorem DecidedWin.Beats.orEarlier_self {d : DecidedWin} {b : Option DecidedWin} (hb : d.Beats b) : DecidedWin.orEarlier b d = some d := by
  cases b with
  | none => rfl
  | some y =>
    unfold DecidedWin.orEarlier
    dsimp only
    by_cases hy : y = d
    · rw [hy, ite_self]
    · rw [if_pos (hb y rfl hy)]

theorem DecidedWin.orEarlier_of_le {d x : DecidedWin} (hx : x ≠ d → d.open_ < x.open_) : DecidedWin.orEarlier (some d) x = some d := by
  unfold DecidedWin.orEarlier
  dsimp only
  by_cases h : x = d
  · rw [h, ite_self]
  · rw [if_neg (Nat.not_lt.2 (hx h).le)]

/-- The window that opens before every other is found, from a window found before or from the list. -/
theorem foldl_orEarlier {d : DecidedWin} {l : List DecidedWin} {b : Option DecidedWin} (hl : ∀ x ∈ l, x ≠ d → d.open_ < x.open_)
    (hb : d.Beats b) (h : b = some d ∨ d ∈ l) : l.foldl DecidedWin.orEarlier b = some d := by
  induction l generalizing b with
  | nil => exact h.resolve_right List.not_mem_nil
  | cons x l ih =>
    have hx : x ≠ d → d.open_ < x.open_ := hl x List.mem_cons_self
    refine ih (fun y hy => hl y (List.mem_cons_of_mem x hy)) (hb.orEarlier hx) ?_
    rcases h with rfl | h
    · exact .inl (DecidedWin.orEarlier_of_le hx)
    · rcases List.mem_cons.1 h with rfl | h
      · exact .inl hb.orEarlier_self
      · exact .inr h

theorem firstOpening_of_earliest {d : DecidedWin} {l : List DecidedWin} (hd : d ∈ l) (h : ∀ x ∈ l, x ≠ d → d.open_ < x.open_) :
    firstOpening l = some d := by
  rw [firstOpening_eq]
  exact foldl_orEarlier h (fun _ hx => nomatch hx) (.inr hd)

section
variable {s : State} {p : Nat} {d : DecidedWin}

theorem windowOpen_early (hd : firstOpening (s.mill p).decided = some d) (ht : s.time.ltime < d.open_) : windowOpen s p = s := by
  unfold windowOpen
  simp [hd, ht]

/-- The window `d` as it opens in this cycle. -/
def State.openedNow (s : State) (d : DecidedWin) : OpenWin :=
  { win := d, openedAt := s.time.cycle, candidate := false, candEnd := 0, candFrom := 0, candTo := 0 }

theorem State.openedNow_lasts (s : State) (d : DecidedWin) : s.time.cycle ≤ (s.openedNow d).endAt := by
  rw [OpenWin.endAt_empty rfl]
  exact Nat.le_min.2 ⟨Nat.le_add_right .., Nat.le_add_right ..⟩

theorem mill_windowOpen (hd : firstOpening (s.mill p).decided = some d) (ho : (s.mill p).opened = none) (ht : d.open_ ≤ s.time.ltime) :
    (windowOpen s p).mill p =
      { s.mill p with decided := (s.mill p).decided.erase d, opened := some (s.openedNow d), lastIdx := d.idx } := by
  unfold windowOpen
  dsimp only
  rw [hd]
  dsimp only
  rw [if_neg (by simp [ho, ht]), State.mill_carryBands, State.mill_markOverrun, State.mill_setMill_same]
  rfl

end

theorem exec_windowOpen {s : State} (hl : s.live = true) (p : Fin 20) :
    exec (.windowOpen p) s = .next (settle s (windowOpen s p.val)) := by
  show done s (if s.live then windowOpen s p.val else s) = _
  rw [if_pos hl]
  rfl

theorem windowOpen_cases (s : State) (p : Fin 20) (d : DecidedWin) (hl : s.live = true) (hd : d ∈ (s.mill p.val).decided)
    (hfirst : ∀ x ∈ (s.mill p.val).decided, x ≠ d → d.open_ < x.open_) (ho : (s.mill p.val).opened = none) :
    (s.time.ltime < d.open_ → exec (.windowOpen p) s = .next (settle s s)) ∧
    (d.open_ ≤ s.time.ltime → ∃ t, exec (.windowOpen p) s = .next t ∧
      (t.mill p.val).opened = some { win := d, openedAt := s.time.cycle, candidate := false, candEnd := 0, candFrom := 0, candTo := 0 } ∧
      (t.mill p.val).decided = (s.mill p.val).decided.erase d ∧ (∀ c, t.weirClosedNow p.val c = true) ∧
      (∀ c, (t.weir p.val c s.time.cycle).1 = .closed) ∧ SameMem s t) := by
  have hd := firstOpening_of_earliest hd hfirst
  rw [exec_windowOpen hl]
  refine ⟨fun ht => by rw [windowOpen_early hd ht], fun ht => ?_⟩
  have hmill := mill_windowOpen hd ho ht
  rw [← mill_settle s] at hmill
  have hopened := congrArg Millrace.opened hmill
  refine ⟨_, rfl, hopened, congrArg Millrace.decided hmill, State.weirClosedNow_of_opened hopened, State.weir_closed_of_busy ?_,
    sameMem_of_mem (by rw [settle_mem, windowOpen_mem])⟩
  rw [Millrace.freeFrom_opened hopened]
  exact Nat.lt_succ_of_le (s.openedNow_lasts d)

/-! The end (R166). -/

section
variable {s : State} {p : Nat} {w : OpenWin}

theorem windowEnd_early (ho : (s.mill p).opened = some w) (ht : s.time.cycle < w.endAt) (hl : s.linkUp p = true) : windowEnd s p = s := by
  unfold windowEnd
  simp [ho, hl, State.now, Nat.not_le.2 ht]

/-- The window `w` of port `p` has ended in time. -/
def State.windowEnded (s : State) (p : Nat) (w : OpenWin) : State :=
  s.setMill p { s.mill p with opened := none, freeAt := w.endAt + 1 }

theorem windowEnd_candidate (ho : (s.mill p).opened = some w) (hc : w.candidate = true) (ht : w.endAt ≤ s.time.cycle) :
    windowEnd s p = s.windowEnded p w := by
  unfold windowEnd
  simp [ho, hc, State.now, ht, State.windowEnded]

theorem windowEnd_empty (ho : (s.mill p).opened = some w) (hc : w.candidate = false)
    (ht : w.openedAt + nsCycles w.win.arrive ≤ s.time.cycle) :
    windowEnd s p = if w.win.ownSet then ((s.windowEnded p w).portErr p 0x264).bump (windowCnt p w.win.idx 8)
      else (s.windowEnded p w).portErr p 0x264 := by
  have hend : w.endAt ≤ s.time.cycle := by
    rw [OpenWin.endAt_empty hc]
    omega
  unfold windowEnd
  simp [ho, hc, State.now, ht, hend, State.windowEnded]

end

theorem exec_windowEnd {s : State} (hl : s.live = true) (p : Fin 20) : exec (.windowEnd p) s = .next (settle s (windowEnd s p.val)) := by
  show done s (if s.live then windowEnd s p.val else s) = _
  rw [if_pos hl]
  rfl

theorem windowEnd_cases_empty (s : State) (p : Fin 20) (w : OpenWin) (hl : s.live = true) (ho : (s.mill p.val).opened = some w)
    (hc : w.candidate = false) :
    (w.openedAt + nsCycles w.win.arrive ≤ s.time.cycle → ∃ t, exec (.windowEnd p) s = .next t ∧ (t.mill p.val).opened = none ∧
      t.c32 (portReg p.val 0x264) = satInc (s.c32 (portReg p.val 0x264)) ∧
      (w.win.ownSet = true → t.c32 (windowCnt p.val w.win.idx 8) = satInc (s.c32 (windowCnt p.val w.win.idx 8))) ∧ SameMem s t) ∧
    (s.time.cycle < w.openedAt + nsCycles w.win.arrive → s.time.cycle < w.openedAt + nsCycles w.win.span → s.linkUp p.val = true →
      exec (.windowEnd p) s = .next (settle s s)) := by
  rw [exec_windowEnd hl]
  refine ⟨fun ht => ?_, fun ha hs hlink => ?_⟩
  · have hne : portReg p.val 0x264 ≠ windowCnt p.val w.win.idx 8 := ne_of_mod16_ne (by rw [portReg_mod16, windowCnt_mod]; decide)
    refine ⟨_, rfl, ?_, ?_, fun hown => ?_, sameMem_of_mem (by rw [settle_mem, windowEnd_mem])⟩
    all_goals rw [windowEnd_empty ho hc ht]
    · split
      all_goals simp [State.windowEnded]
    · rw [c32_settle]
      split
      · rw [State.c32_bump_other _ hne, State.c32_portErr_same, State.windowEnded, State.c32_setMill]
      · rw [State.c32_portErr_same, State.windowEnded, State.c32_setMill]
    · rw [c32_settle, if_pos hown, State.c32_bump_same, State.c32_portErr_other _ _ _ hne.symm, State.windowEnded, State.c32_setMill]
  · rw [windowEnd_early ho (by rw [OpenWin.endAt_empty hc]; exact lt_min ha hs) hlink]

/-! The adoption of a window set (R162, R163, R175). -/

/-- The set of generation `gen` that waited for its cycle start at port `p` is in the current bank; windows of the earlier set stand. -/
def State.setAdopted (s : State) (p : Nat) (gen : BitVec 16) : State :=
  ((s.clearWindowCnt p).setMill p { s.mill p with
    curGen := some gen, curCount := (s.mill p).nextCount, nextGen := none, nextCount := 0, nextSet := [], judged := []
    decided := (s.mill p).decided.map (fun d => { d with ownSet := false })
    opened := (s.mill p).opened.map (fun w => { w with win := { w.win with ownSet := false } }) }).wrB
    (windowAddr p false 0) (s.mill p).nextSet

section
variable {s : State} {p : Nat} {gen : BitVec 16}

theorem windowSetAdopt_early (hg : (s.mill p).nextGen = some gen) (ht : s.time.ltime < (s.mill p).nextAt) : windowSetAdopt s p = s := by
  unfold windowSetAdopt
  simp only [hg, ht, if_true]

theorem windowSetAdopt_due (hg : (s.mill p).nextGen = some gen) (ht : (s.mill p).nextAt ≤ s.time.ltime) :
    ∃ busy, windowSetAdopt s p = (s.setAdopted p gen).withdrawLate p busy := by
  unfold windowSetAdopt
  simp only [hg]
  rw [if_neg (Nat.not_lt.2 ht)]
  exact ⟨_, rfl⟩

theorem State.c32_setAdopted {w off : Nat} (hw : w < 64) (hoff : off < 16) : (s.setAdopted p gen).c32 (windowCnt p w off) = 0 :=
  s.c32_clearWindowCnt_own p hw hoff

theorem State.setAdopted_rd8 {i : Nat} (hi : i < (s.mill p).nextSet.length) :
    (s.setAdopted p gen).rd8 (windowAddr p false 0 + i) = (s.mill p).nextSet.getD i 0 := by
  rw [List.getD_eq_getElem _ _ hi]
  exact State.wrB_rd8_same _ _ _ hi

theorem State.setAdopted_sameMemBut : SameMemBut s (s.setAdopted p gen) (windowAddr p false 0) (s.mill p).nextSet.length :=
  fun _ ha => State.wrB_rd8_other _ _ _ ha

theorem State.mill_setAdopted_other {q : Nat} (h : q ≠ p) : (s.setAdopted p gen).mill q = s.mill q := by
  rw [State.setAdopted, State.mill_wrB, State.mill_setMill_other _ _ h, State.mill_clearWindowCnt]

end

theorem exec_windowSetAdopt {s : State} (hl : s.live = true) (p : Fin 20) :
    exec (.windowSetAdopt p) s = .next (settle s (windowSetAdopt s p.val)) := by
  show done s (if s.live then windowSetAdopt s p.val else s) = _
  rw [if_pos hl]
  rfl

theorem windowSetAdopt_cases (s : State) (p : Fin 20) (gen : BitVec 16) (hl : s.live = true) (hg : (s.mill p.val).nextGen = some gen) :
    let x := s.mill p.val
    (s.time.ltime < x.nextAt → exec (.windowSetAdopt p) s = .next (settle s s)) ∧
    (x.nextAt ≤ s.time.ltime → ∃ t, exec (.windowSetAdopt p) s = .next t ∧
      (t.mill p.val).curGen = some gen ∧ (t.mill p.val).curCount = x.nextCount ∧ (t.mill p.val).nextGen = none ∧
      (t.mill p.val).decided = x.decided.map (fun d => { d with ownSet := false }) ∧
      (∀ i, i < x.nextSet.length → t.rd8 (windowAddr p.val false 0 + i) = x.nextSet.getD i 0) ∧
      (∀ w, w < 64 → t.c32 (windowCnt p.val w 0) = 0 ∧ t.c32 (windowCnt p.val w 4) = 0) ∧
      SameMemBut s t (windowAddr p.val false 0) x.nextSet.length ∧ (∀ q, q ≠ p.val → t.mill q = s.mill q) ∧ t.time = s.time) := by
  intro x
  rw [exec_windowSetAdopt hl]
  refine ⟨fun ht => by rw [windowSetAdopt_early hg ht], fun ht => ?_⟩
  obtain ⟨busy, hset⟩ := windowSetAdopt_due hg ht
  obtain ⟨⟨j, hmill⟩, hothers, htime, hcounts⟩ := (OpeningsJudged.refl (p := p.val) (s.setAdopted p.val gen)).withdrawLate busy
  have hmem : (settle s (windowSetAdopt s p.val)).mem = (s.setAdopted p.val gen).mem := by rw [settle_mem, hset, State.withdrawLate_mem]
  have hcleared : ∀ w off, w < 64 → off < 8 → (settle s (windowSetAdopt s p.val)).c32 (windowCnt p.val w off) = 0 := fun w off hw hoff => by
    rw [c32_settle, hset, hcounts _ (by rw [windowCnt_mod]; omega), State.c32_setAdopted hw (by omega)]
  rw [State.setAdopted, State.mill_wrB, State.mill_setMill_same, ← State.setAdopted, ← hset, ← mill_settle s] at hmill
  refine ⟨_, rfl, congrArg Millrace.curGen hmill, congrArg Millrace.curCount hmill, congrArg Millrace.nextGen hmill,
    congrArg Millrace.decided hmill, fun i hi => ?_, fun w hw => ⟨hcleared w 0 hw (by decide), hcleared w 4 hw (by decide)⟩,
    sameMemBut_of_mem State.setAdopted_sameMemBut hmem, fun q hq => ?_, ?_⟩
  · rw [State.rd8, hmem]
    exact State.setAdopted_rd8 hi
  · rw [mill_settle, hset, hothers q hq, State.mill_setAdopted_other hq]
  · rw [settle_time, hset, htime]
    rfl

/-- Settles O22: the decision of a window, its opening, its end without and with a candidate, the cycle after an end, and the adoption of a set. -/
theorem millraceWindows : Obligations.MillraceWindows := by
  unfold Obligations.MillraceWindows
  refine ⟨⟨windowDecision_cases, windowOpen_cases, windowEnd_cases_empty, fun s p w hl ho hc ht => ?_⟩, fun s p c hfree ho => ?_,
    windowSetAdopt_cases⟩
  · have hend : w.endAt ≤ s.time.cycle := by
      rw [OpenWin.endAt_candidate hc]
      exact (Nat.min_le_left ..).trans ht
    rw [exec_windowEnd hl, windowEnd_candidate ho hc hend, State.windowEnded]
  · exact State.weir_closed_of_busy (by rwa [Millrace.freeFrom_idle ho]) c

end Sys2Proof.Machine
end

