-- ==== Sys2Proof/Proofs/ScreenReads.lean ====
section
/-! SUPPORT. Reads of a meter, a counter or an entry of memory after a write of the screen, and what a mirrored entry changes (O23, O24, O25). -/

namespace Sys2Proof.Machine

/-! Meters and counters. -/

@[simp] theorem State.meter_setMeter_same (s : State) (m : Nat) (x : Meter) : (s.setMeter m x).meter m = x := SMap.get_set_same ..

theorem State.meter_setMeter_other (s : State) {m k : Nat} (x : Meter) (h : k ≠ m) : (s.setMeter m x).meter k = s.meter k :=
  SMap.get_set_other _ _ _ _ h

@[simp] theorem State.meter_bump (s : State) (a m : Nat) : (s.bump a).meter m = s.meter m := rfl

@[simp] theorem State.meter_add64 (s : State) (a n m : Nat) : (s.add64 a n).meter m = s.meter m := rfl

@[simp] theorem State.c32_setMeter (s : State) (m : Nat) (x : Meter) (a : Nat) : (s.setMeter m x).c32 a = s.c32 a := rfl

@[simp] theorem State.c64_setMeter (s : State) (m : Nat) (x : Meter) (a : Nat) : (s.setMeter m x).c64 a = s.c64 a := rfl

@[simp] theorem State.c32_add64 (s : State) (b n a : Nat) : (s.add64 b n).c32 a = s.c32 a := rfl

@[simp] theorem State.c64_bump (s : State) (b a : Nat) : (s.bump b).c64 a = s.c64 a := rfl

@[simp] theorem c64_settle (s t : State) (a : Nat) : (settle s t).c64 a = t.c64 a := rfl

/-- A 64-bit counter that counts one. -/
@[simp] theorem State.c64_add64_one (s : State) (a : Nat) : (s.add64 a 1).c64 a = s.c64 a + 1 := s.c64_add64_same a 1

/-! Entries of a canonical map. -/

theorem SMap.wfAbove_lt {β : Type} [DecidableEq β] {d : Nat → β} {b : Nat} {m : SMap β} (h : SMap.wfAbove d (some b) m = true) :
    ∀ e ∈ m, b < e.1 := by
  induction m generalizing b with
  | nil => simp
  | cons x m ih =>
    obtain ⟨k, v⟩ := x
    simp only [SMap.wfAbove, Bool.and_eq_true, decide_eq_true_eq] at h
    obtain ⟨⟨hb, -⟩, hm⟩ := h
    intro e he
    rcases List.mem_cons.1 he with rfl | he
    · exact hb
    · exact hb.trans (ih hm e he)

/-- The keys of a canonical map rise. -/
theorem SMap.pairwise_of_wf {β : Type} [DecidableEq β] {d : Nat → β} {m : SMap β} (h : SMap.wf d m = true) :
    List.Pairwise (fun x y => x.1 < y.1) m := by
  unfold SMap.wf at h
  generalize none = b at h
  induction m generalizing b with
  | nil => exact List.Pairwise.nil
  | cons x m ih =>
    obtain ⟨k, v⟩ := x
    simp only [SMap.wfAbove, Bool.and_eq_true] at h
    exact List.Pairwise.cons (SMap.wfAbove_lt h.2) (ih _ h.2)

/-- An entry of a canonical map is what its key reads as. -/
theorem SMap.get_of_mem {β : Type} [DecidableEq β] {d : Nat → β} {m : SMap β} (h : SMap.wf d m = true) {e : Nat × β} (he : e ∈ m) (x : β) :
    SMap.get x m e.1 = e.2 := by
  have hp := SMap.pairwise_of_wf h
  clear h
  induction m with
  | nil => exact absurd he (List.not_mem_nil)
  | cons y m ih =>
    obtain ⟨hy, hm⟩ := List.pairwise_cons.1 hp
    rcases List.mem_cons.1 he with rfl | he
    · exact if_pos rfl
    · exact (if_neg (hy e he).ne).trans (ih he hm)

/-- A key that does not read as an unlisted one is listed. -/
theorem SMap.mem_of_get_ne {β : Type} {m : SMap β} {k : Nat} {x : β} (h : SMap.get x m k ≠ x) : (k, SMap.get x m k) ∈ m := by
  induction m with
  | nil => exact absurd rfl h
  | cons y m ih =>
    obtain ⟨j, v⟩ := y
    by_cases hj : j = k
    · simp [SMap.get, hj]
    · simp only [SMap.get, if_neg hj] at h ⊢
      exact List.mem_cons_of_mem _ (ih h)

/-! Bits of memory. -/

/-- The lowest bit of a field is that of its first byte. -/
theorem State.bit_rd_zero (s : State) (a n : Nat) : bit (s.rd a (n + 1)) 0 = (s.rd8 a).getLsbD 0 := by
  rw [State.rd, State.rdB, leNat, bit, Nat.testBit_zero, BitVec.getLsbD, Nat.testBit_zero]
  congr 2
  omega

/-- Outside the class tables a byte with its lowest bit set is listed in memory. -/
theorem State.mem_of_rd8_bit {s : State} {a : Nat} (ha : 0x04460C00 ≤ a) (h : (s.rd8 a).getLsbD 0 = true) : (a, s.rd8 a) ∈ s.mem := by
  have hz : memReset a = 0 := if_neg (by omega)
  refine SMap.mem_of_get_ne fun e => ?_
  rw [State.rd8, memGet, e, hz] at h
  exact absurd h (by decide)

/-- A byte listed in a canonical memory is the one read. -/
theorem State.rd8_of_mem {s : State} (h : MemInv s) {e : Nat × Byte} (he : e ∈ s.mem) : s.rd8 e.1 = e.2 := SMap.get_of_mem h he _

/-! What a mirrored entry changes (R351, R352, R354). -/

/-- A change of the pair's own state and of the counters of the MIR engine. -/
structure MirrorOnly (s t : State) : Prop where
  rest : ∃ p c d, t = { s with pair := p, cnt32 := c, cnt64 := d }
  c32 : ∀ a, a ≠ mirReg 0x1C → t.c32 a = s.c32 a
  c64 : ∀ a, a ≠ mirReg 0x08 → t.c64 a = s.c64 a

namespace MirrorOnly
variable {s t u : State}

theorem refl (s : State) : MirrorOnly s s := ⟨⟨_, _, _, rfl⟩, fun _ _ => rfl, fun _ _ => rfl⟩

theorem trans (h : MirrorOnly s t) (k : MirrorOnly t u) : MirrorOnly s u := by
  obtain ⟨⟨p, c, d, rfl⟩, h32, h64⟩ := h
  obtain ⟨⟨q, e, f, rfl⟩, k32, k64⟩ := k
  exact ⟨⟨q, e, f, rfl⟩, fun a ha => (k32 a ha).trans (h32 a ha), fun a ha => (k64 a ha).trans (h64 a ha)⟩

theorem mem (h : MirrorOnly s t) : t.mem = s.mem := by obtain ⟨p, c, d, rfl⟩ := h.rest; rfl
theorem time (h : MirrorOnly s t) : t.time = s.time := by obtain ⟨p, c, d, rfl⟩ := h.rest; rfl
theorem params (h : MirrorOnly s t) : t.params = s.params := by obtain ⟨p, c, d, rfl⟩ := h.rest; rfl

theorem entryUpdate (s : State) (table index version : Nat) (valid : Bool) (body : List Byte) :
    MirrorOnly s (s.entryUpdate table index version valid body) := by
  unfold State.entryUpdate State.sendRecord State.setMirTable
  dsimp only
  split
  · exact refl s
  split
  · exact ⟨⟨_, _, _, rfl⟩, fun _ _ => rfl, fun _ ha => State.c64_add64_other _ _ ha⟩
  split
  · exact ⟨⟨_, _, _, rfl⟩, fun _ ha => State.c32_bump_other _ ha, fun _ _ => rfl⟩
  · exact ⟨⟨_, _, _, rfl⟩, fun _ _ => rfl, fun _ _ => rfl⟩

theorem mirrorConn (s : State) (e : Nat) (old : List Byte) : MirrorOnly s (s.mirrorConn e old) := by
  unfold State.mirrorConn
  extract_lets new only last _ noted valid
  split
  · exact refl s
  split
  · exact refl s
  · have hnoted : MirrorOnly s noted := ⟨⟨_, _, _, rfl⟩, fun _ _ => rfl, fun _ _ => rfl⟩
    exact hnoted.trans (entryUpdate noted ..)

end MirrorOnly

end Sys2Proof.Machine
end

