-- ==== Sys2Proof/Proofs/Meters.lean ====
section
/-! SUPPORT. One charge of a meter: an equation for each colour (O24). -/

namespace Sys2Proof.Machine

/-! A charge (R191). -/

/-- The option bits of a meter: VALID, UNIT, CF, DROP_YELLOW, MAR_EN (R190). -/
abbrev State.meterOpt (s : State) (m : Nat) : Nat := s.rd (meterAddr m + 16) 1

/-- Divisor of the increments of a meter in tokens of 1/256 byte or unit. -/
def State.meterScale (s : State) (m : Nat) : Nat := if bit (s.meterOpt m) 1 then 3125000 else 25000

/-- The committed bucket as it has grown since the last charge, before it is clipped. -/
def State.meterNew (s : State) (m : Nat) : Nat :=
  (s.meter m).tc + (s.rd (meterAddr m) 4 * (s.now - (s.meter m).last) + (s.meter m).tcRem) / s.meterScale m

/-- A meter at a charge, its buckets filled and clipped and nothing taken yet. -/
def State.meterFilled (s : State) (m : Nat) : Meter :=
  { s.meter m with
    tc := min (s.rd (meterAddr m + 4) 4 * 256) (s.meterNew m)
    te := min (s.rd (meterAddr m + 12) 4 * 256)
      ((s.meter m).te + (s.rd (meterAddr m + 8) 4 * (s.now - (s.meter m).last) + (s.meter m).teRem) / s.meterScale m +
        (if bit (s.meterOpt m) 2 then s.meterNew m - s.rd (meterAddr m + 4) 4 * 256 else 0))
    tcRem := (s.rd (meterAddr m) 4 * (s.now - (s.meter m).last) + (s.meter m).tcRem) % s.meterScale m
    teRem := (s.rd (meterAddr m + 8) 4 * (s.now - (s.meter m).last) + (s.meter m).teRem) % s.meterScale m
    last := s.now }

/-- The tokens that a unit of `len` bytes takes. -/
def State.meterNeed (s : State) (m len : Nat) : Nat := (if bit (s.meterOpt m) 1 then 1 else len) * 256

section
variable {s : State} {m len : Nat}

theorem charge_unused (h : bit (s.meterOpt m) 0 = false) : s.charge m len = ((.green, false), s) := by
  unfold State.charge
  dsimp only
  rw [if_pos (by simpa using h)]

/-- A charge of a meter in use. -/
theorem charge_used (h : bit (s.meterOpt m) 0 = true) : s.charge m len =
    if (s.meter m).mar then ((.red, true), (s.setMeter m (s.meterFilled m)).bump (meterCnt m 0xC))
    else if s.meterNeed m len ≤ (s.meterFilled m).tc then
      ((.green, false), (s.setMeter m { s.meterFilled m with tc := (s.meterFilled m).tc - s.meterNeed m len }).add64 (meterCnt m 0) 1)
    else if s.meterNeed m len ≤ (s.meterFilled m).te then
      let t := (s.setMeter m { s.meterFilled m with te := (s.meterFilled m).te - s.meterNeed m len }).bump (meterCnt m 8)
      if bit (s.meterOpt m) 3 then ((.yellow, true), t.bump (meterCnt m 0x10)) else ((.yellow, false), t)
    else ((.red, true), (s.setMeter m { s.meterFilled m with mar := bit (s.meterOpt m) 4 }).bump (meterCnt m 0xC)) := by
  unfold State.charge
  dsimp only
  rw [if_neg (by simp [h])]
  rfl

end

/-! What a charge changes. -/

/-- A change of meter `m` and its counters alone. -/
structure MeterOnly (m : Nat) (s t : State) : Prop where
  meters : ∀ k, k ≠ m → t.meter k = s.meter k
  c32 : ∀ a, a < meterCnt m 0 ∨ meterCnt m 32 ≤ a → t.c32 a = s.c32 a
  c64 : ∀ a, a < meterCnt m 0 ∨ meterCnt m 32 ≤ a → t.c64 a = s.c64 a
  time : t.time = s.time

namespace MeterOnly
variable {m : Nat} {s t : State}

theorem refl (m : Nat) (s : State) : MeterOnly m s s := ⟨fun _ _ => rfl, fun _ _ => rfl, fun _ _ => rfl, rfl⟩

theorem setMeter (s : State) (m : Nat) (x : Meter) : MeterOnly m s (s.setMeter m x) :=
  ⟨fun _ hk => s.meter_setMeter_other x hk, fun _ _ => rfl, fun _ _ => rfl, rfl⟩

theorem bump (h : MeterOnly m s t) {off : Nat} (ho : off < 32) : MeterOnly m s (t.bump (meterCnt m off)) := by
  refine ⟨h.meters, fun a ha => ?_, h.c64, h.time⟩
  have hne : a ≠ meterCnt m off := by unfold meterCnt at *; omega
  rw [State.c32_bump_other _ hne, h.c32 a ha]

theorem add64 (h : MeterOnly m s t) {off : Nat} (ho : off < 32) (n : Nat) : MeterOnly m s (t.add64 (meterCnt m off) n) := by
  refine ⟨h.meters, h.c32, fun a ha => ?_, h.time⟩
  have hne : a ≠ meterCnt m off := by unfold meterCnt at *; omega
  rw [State.c64_add64_other _ _ hne, h.c64 a ha]

theorem charge (s : State) (m len : Nat) : MeterOnly m s (s.charge m len).2 := by
  cases h : bit (s.meterOpt m) 0 with
  | false => rw [charge_unused h]; exact refl m s
  | true =>
    rw [charge_used h]
    dsimp only
    split
    · exact (setMeter ..).bump (by decide)
    split
    · exact (setMeter ..).add64 (by decide) 1
    split
    · have hcounted := (setMeter s m { s.meterFilled m with te := (s.meterFilled m).te - s.meterNeed m len }).bump (off := 8) (by decide)
      split
      · exact hcounted.bump (by decide)
      · exact hcounted
    · exact (setMeter ..).bump (by decide)

end MeterOnly

/-- The counter of dropped yellow units is not the one of yellow units. -/
theorem meterCnt_yellow_ne (m : Nat) : meterCnt m 8 ≠ meterCnt m 0x10 := by
  unfold meterCnt
  omega

/-- Settles O24: the four outcomes of a charge in use, by the equation of `charge_used`, and a meter that is not in use. -/
theorem meters : Obligations.Meters := by
  unfold Obligations.Meters
  intro s m len _
  refine ⟨charge_unused, fun hv => ?_, fun _ => ⟨(MeterOnly.charge s m len).meters, s.charge_mem m len, (MeterOnly.charge s m len).time⟩⟩
  extract_lets scale dt new tc te need colour
  have hopt : s.rd (0x04200000 + m * 32 + 16) 1 = s.meterOpt m := rfl
  have htc : (s.meterFilled m).tc = tc := rfl
  have hte : (s.meterFilled m).te = te := rfl
  have hlast : (s.meterFilled m).last = s.time.cycle := rfl
  have hkept : (s.meterFilled m).mar = (s.meter m).mar := rfl
  have hcharge := charge_used (len := len) hv
  rw [htc, hte, show s.meterNeed m len = need from rfl] at hcharge
  by_cases hmar : (s.meter m).mar = true
  · have hred : colour = .red := if_pos hmar
    rw [if_pos hmar] at hcharge
    simp [hcharge, hred, hmar, htc, hte, hlast, hkept]
  rw [if_neg hmar] at hcharge
  by_cases hgreen : need ≤ tc
  · have hcol : colour = .green := by simp [colour, hmar, hgreen]
    rw [if_pos hgreen] at hcharge
    simp [hcharge, hcol, hte, hlast, hkept]
  rw [if_neg hgreen] at hcharge
  by_cases hyellow : need ≤ te
  · have hcol : colour = .yellow := by simp [colour, hmar, hgreen, hyellow]
    rw [if_pos hyellow] at hcharge
    have hcount (t : State) : (t.bump (meterCnt m 0x10)).c32 (meterCnt m 8) = t.c32 (meterCnt m 8) := t.c32_bump_other (meterCnt_yellow_ne m)
    cases hdrop : bit (s.meterOpt m) 3 <;> simp [hcharge, hcol, hopt, hdrop, htc, hlast, hkept, hcount]
  · have hred : colour = .red := by simp [colour, hmar, hgreen, hyellow]
    rw [if_neg hyellow] at hcharge
    simp [hcharge, hred, hopt, hmar, htc, hte, hlast]

end Sys2Proof.Machine
end

