-- ==== Sys2Proof/Proofs/RuleLookup.lean ====
section
/-! SUPPORT. The rule that decides: of the valid ones that match, the first in ascending index (O23). -/

namespace Sys2Proof.Machine

/-! The valid rules of a bank (R181, R182). -/

/-- The rule banks lie above the class tables. -/
theorem ruleBase_ge (bank : Bool) : 0x04460C00 ≤ ruleBase bank := by cases bank <;> decide

/-- An entry of memory holds VALID of rule `r` of a bank, and it is 1. -/
theorem validRule_entry {bank : Bool} {e : Nat × Byte} {r : Nat} :
    (if ruleBase bank ≤ e.1 && e.1 < ruleBase bank + 8192 * 160 && (e.1 - ruleBase bank) % 160 = 128 && e.2.getLsbD 0
      then some ((e.1 - ruleBase bank) / 160) else none) = some r ↔
    r < 8192 ∧ e.1 = ruleBase bank + r * 160 + 128 ∧ e.2.getLsbD 0 = true := by
  rw [Option.ite_none_right_eq_some]
  simp only [Bool.and_eq_true, decide_eq_true_eq, Option.some.injEq]
  constructor
  · rintro ⟨⟨⟨⟨hlow, hhigh⟩, hmod⟩, hbit⟩, hr⟩
    exact ⟨by omega, by omega, hbit⟩
  · rintro ⟨hr, he, hbit⟩
    exact ⟨⟨⟨⟨by omega, by omega⟩, by omega⟩, hbit⟩, by omega⟩

/-- VALID of a rule is the lowest bit of the first byte of its action. -/
theorem bit_ruleAction_zero (s : State) (bank : Bool) (r : Nat) :
    bit (s.ruleAction bank r) 0 = (s.rd8 (ruleBase bank + r * 160 + 128)).getLsbD 0 := s.bit_rd_zero _ 31

section
variable {s : State} {bank : Bool}

theorem lt_of_mem_validRules {r : Nat} (h : r ∈ s.validRules bank) : r < 8192 := by
  obtain ⟨e, -, he⟩ := List.mem_filterMap.1 h
  exact (validRule_entry.1 he).1

/-- The rules listed are those with VALID 1. -/
theorem mem_validRules (h : MemInv s) {r : Nat} : r ∈ s.validRules bank ↔ r < 8192 ∧ bit (s.ruleAction bank r) 0 = true := by
  unfold State.validRules
  simp only [List.mem_filterMap, validRule_entry, bit_ruleAction_zero]
  constructor
  · rintro ⟨e, he, hr, haddr, hbit⟩
    exact ⟨hr, by rw [← haddr, State.rd8_of_mem h he, hbit]⟩
  · rintro ⟨hr, hbit⟩
    have hlow := ruleBase_ge bank
    exact ⟨_, State.mem_of_rd8_bit (by omega) hbit, hr, rfl, hbit⟩

/-- They stand in ascending index. -/
theorem validRules_pairwise (h : MemInv s) : (s.validRules bank).Pairwise (· < ·) := by
  unfold State.validRules
  rw [List.pairwise_filterMap]
  refine (SMap.pairwise_of_wf h).imp fun {e f} hlt r hr q hq => ?_
  obtain ⟨-, he, -⟩ := validRule_entry.1 hr
  obtain ⟨-, hf, -⟩ := validRule_entry.1 hq
  omega

/-- In a list of rising numbers a search finds the least one that there is. -/
theorem least_of_find? {p : Nat → Bool} {l : List Nat} (hl : l.Pairwise (· < ·)) {r : Nat} (h : l.find? p = some r) :
    ∀ q ∈ l, q < r → p q = false := by
  obtain ⟨-, before, after, rfl, hbefore⟩ := List.find?_eq_some_iff_append.1 h
  intro q hq hlt
  rcases List.mem_append.1 hq with hq | hq
  · simpa using hbefore q hq
  · rcases List.mem_cons.1 hq with rfl | hq
    · exact absurd hlt (Nat.lt_irrefl _)
    · have hlater := (List.pairwise_cons.1 (List.pairwise_append.1 hl).2.1).1 q hq
      omega

end

/-! The lookup of a key (R181). -/

section
variable {s : State} {lport key : Nat}

/-- A rule that decides is one of the valid rules of the active bank, the first that matches. -/
theorem judgeKey_rule {r a : Nat} (h : s.judgeKey lport key = (some r, a)) :
    (s.validRules s.activeBank).find? (s.ruleMatches s.activeBank key) = some r ∧ a = s.ruleAction s.activeBank r := by
  unfold State.judgeKey at h
  split at h
  · next q hq =>
    obtain ⟨hr, ha⟩ := Prod.mk.inj h
    obtain rfl := Option.some.inj hr
    exact ⟨hq, ha.symm⟩
  · exact absurd (Prod.mk.inj h).1 (by simp)

theorem judgeKey_default {a : Nat} (h : s.judgeKey lport key = (none, a)) :
    (s.validRules s.activeBank).find? (s.ruleMatches s.activeBank key) = none := by
  unfold State.judgeKey at h
  split at h
  · exact absurd (Prod.mk.inj h).1 (by simp)
  · next hnone => exact hnone

/-- The first valid rule that matches decides. -/
theorem judgeKey_first (hm : MemInv s) {r a : Nat} (h : s.judgeKey lport key = (some r, a)) :
    (r < 8192 ∧ bit (s.ruleAction s.activeBank r) 0 = true ∧ s.ruleMatches s.activeBank key r = true) ∧
    ∀ q, q < r → ¬ (q < 8192 ∧ bit (s.ruleAction s.activeBank q) 0 = true ∧ s.ruleMatches s.activeBank key q = true) := by
  obtain ⟨hfind, -⟩ := judgeKey_rule h
  obtain ⟨hr, hvalid⟩ := (mem_validRules hm).1 (List.mem_of_find?_eq_some hfind)
  refine ⟨⟨hr, hvalid, List.find?_some hfind⟩, fun q hlt ⟨hq, hqvalid, hmatch⟩ => ?_⟩
  have hmiss := least_of_find? (validRules_pairwise hm) hfind q ((mem_validRules hm).2 ⟨hq, hqvalid⟩) hlt
  exact absurd (hmatch.symm.trans hmiss) (by decide)

/-- The default action applies where no valid rule matches. -/
theorem judgeKey_no_rule (hm : MemInv s) {a : Nat} (h : s.judgeKey lport key = (none, a)) (r : Nat) :
    ¬ (r < 8192 ∧ bit (s.ruleAction s.activeBank r) 0 = true ∧ s.ruleMatches s.activeBank key r = true) :=
  fun ⟨hr, hvalid, hmatch⟩ => List.find?_eq_none.1 (judgeKey_default h) r ((mem_validRules hm).2 ⟨hr, hvalid⟩) hmatch

end

end Sys2Proof.Machine
end

