-- ==== Sys2Proof/Proofs/VerdictCounters.lean ====
section
/-! SUPPORT. The counters of verdicts of a lookup port, and the steps of a lookup that leave them (O23). -/

namespace Sys2Proof.Machine

/-! The steps of a lookup that charge meters and create entries, one state after the other (R183, R184). -/

/-- The stream meter `sm` is charged for a unit that nothing has dropped. -/
def State.chargeStream (s : State) (cause len : Nat) (sm : Option Nat) : Nat × State :=
  match sm with
  | some m => if cause = 0 then (if (s.charge m len).1.2 then 0x14 else 0, (s.charge m len).2) else (cause, s)
  | none => (cause, s)

theorem chargeUnit_eq (s : State) (act cause len : Nat) (sm : Option Nat) :
    s.chargeUnit act cause len sm =
      if (s.chargeStream cause len sm).1 = 0 && bit act 5 && sm ≠ some (bits act 31 20) then
        (if ((s.chargeStream cause len sm).2.charge (bits act 31 20) len).1.2 then 0x14 else 0,
          ((s.chargeStream cause len sm).2.charge (bits act 31 20) len).2)
      else s.chargeStream cause len sm := by
  unfold State.chargeUnit State.chargeStream
  rfl

theorem State.chargeStream_cases (s : State) (cause len : Nat) (sm : Option Nat) :
    s.chargeStream cause len sm = (cause, s) ∨
      ∃ m, sm = some m ∧ cause = 0 ∧ s.chargeStream cause len sm = (if (s.charge m len).1.2 then 0x14 else 0, (s.charge m len).2) := by
  unfold State.chargeStream
  split
  · next m =>
    split
    · next hc => exact .inr ⟨m, rfl, hc, rfl⟩
    · exact .inl rfl
  · exact .inl rfl

/-- The place `e` is free for a new entry: an expired one that holds it is removed and counted (R184). -/
def State.connFreed (s : State) (e : Nat) : State :=
  if bit (s.rd (connAddr e) 1) 0 then (s.connDrop e).bump 0x0490000C else s

/-- No place is free, which is counted, or an entry is written at one. -/
theorem State.connCreate_cases (s : State) (u : ConnUnit) (lport sel : Nat) :
    s.connCreate u lport sel = s.bump (scrCnt lport 0x24) ∨
      ∃ e, s.connCreate u lport sel = ((s.draw.2.connFreed e).connWrite u lport sel e).noteConn.bump (scrCnt lport 0x20) := by
  unfold State.connCreate State.connFreed
  dsimp only
  split
  · exact .inl rfl
  · exact .inr ⟨_, rfl⟩

@[simp] theorem State.noteConn_cnt32 (s : State) : s.noteConn.cnt32 = s.cnt32 := by cases s; rfl
@[simp] theorem State.noteConn_cnt64 (s : State) : s.noteConn.cnt64 = s.cnt64 := by cases s; rfl
@[simp] theorem State.connDrop_cnt32 (s : State) (e : Nat) : (s.connDrop e).cnt32 = s.cnt32 := by cases s; rfl
@[simp] theorem State.connDrop_cnt64 (s : State) (e : Nat) : (s.connDrop e).cnt64 = s.cnt64 := by cases s; rfl

@[simp] theorem State.connWrite_cnt32 (s : State) (u : ConnUnit) (lport sel e : Nat) : (s.connWrite u lport sel e).cnt32 = s.cnt32 := by
  simp only [State.connWrite, State.wr_cnt32]

@[simp] theorem State.connWrite_cnt64 (s : State) (u : ConnUnit) (lport sel e : Nat) : (s.connWrite u lport sel e).cnt64 = s.cnt64 := by
  simp only [State.connWrite, State.wr_cnt64]

/-! The counters of verdicts (R199). -/

/-- The counters of dropped units of a lookup port: by a rule, by the default action, for the state of a connection, by a meter. -/
def dropOffsets : List Nat := [0x8, 0xC, 0x10, 0x14]

theorem lt_of_mem_dropOffsets {off : Nat} (h : off ∈ dropOffsets) : off < 0x18 := by
  have hall : ∀ x ∈ dropOffsets, x < 0x18 := by decide
  exact hall off h

theorem scrCnt_inj {lport a b : Nat} (h : scrCnt lport a = scrCnt lport b) : a = b := by
  unfold scrCnt at h
  omega

/-- A change that leaves the counters of verdicts of lookup port `p`. -/
structure VerdictsKept (p : Nat) (s t : State) : Prop where
  passed : t.c64 (scrCnt p 0) = s.c64 (scrCnt p 0)
  dropped : ∀ off ∈ dropOffsets, t.c32 (scrCnt p off) = s.c32 (scrCnt p off)

namespace VerdictsKept
variable {p : Nat} {s t u : State}

theorem refl (p : Nat) (s : State) : VerdictsKept p s s := ⟨rfl, fun _ _ => rfl⟩

theorem trans (h : VerdictsKept p s t) (k : VerdictsKept p t u) : VerdictsKept p s u :=
  ⟨k.passed.trans h.passed, fun off ho => (k.dropped off ho).trans (h.dropped off ho)⟩

/-- A change elsewhere. -/
theorem elsewhere (h : VerdictsKept p s t) (cnt64 : u.cnt64 = t.cnt64 := by rfl) (cnt32 : u.cnt32 = t.cnt32 := by rfl) : VerdictsKept p s u :=
  h.trans ⟨by rw [State.c64, cnt64, State.c64], fun off _ => by rw [State.c32, cnt32, State.c32]⟩

theorem ite {c : Prop} [Decidable c] {u v : State} (hu : VerdictsKept p s u) (hv : VerdictsKept p s v) : VerdictsKept p s (if c then u else v) := by
  split
  · exact hu
  · exact hv

theorem bump (h : VerdictsKept p s t) {a : Nat} (ha : ∀ off ∈ dropOffsets, scrCnt p off ≠ a) : VerdictsKept p s (t.bump a) :=
  h.trans ⟨rfl, fun off ho => State.c32_bump_other _ (ha off ho)⟩

/-- Another counter of the lookup port. -/
theorem bumpPort (h : VerdictsKept p s t) {off : Nat} (ho : off ∉ dropOffsets) : VerdictsKept p s (t.bump (scrCnt p off)) :=
  h.bump fun _ hx e => ho (scrCnt_inj e ▸ hx)

/-- The counters of the two states count on alike. -/
theorem passBoth (h : VerdictsKept p s t) : VerdictsKept p (s.add64 (scrCnt p 0) 1) (t.add64 (scrCnt p 0) 1) :=
  ⟨by rw [State.c64_add64_one, State.c64_add64_one, h.passed], h.dropped⟩

theorem dropBoth (h : VerdictsKept p s t) {off : Nat} (ho : off ∈ dropOffsets) :
    VerdictsKept p (s.bump (scrCnt p off)) (t.bump (scrCnt p off)) := by
  refine ⟨h.passed, fun x hx => ?_⟩
  by_cases he : x = off
  · rw [he, State.c32_bump_same, State.c32_bump_same, h.dropped off ho]
  · have hne : scrCnt p x ≠ scrCnt p off := fun e => he (scrCnt_inj e)
    rw [State.c32_bump_other _ hne, State.c32_bump_other _ hne, h.dropped x hx]

/-! The steps of a lookup (R183, R192). -/

/-- A meter and its counters. -/
theorem meter {m : Nat} (hm : m < 4096) (h : VerdictsKept p s t) (k : MeterOnly m t u) : VerdictsKept p s u := by
  have hout (off : Nat) : meterCnt m 32 ≤ scrCnt p off := by
    unfold meterCnt scrCnt
    omega
  exact h.trans ⟨k.c64 _ (.inr (hout 0)), fun off _ => k.c32 _ (.inr (hout off))⟩

theorem countHit (h : VerdictsKept p s t) {m : Option Nat × Nat} (hm : ∀ r, m.1 = some r → r < 8192) : VerdictsKept p s (t.countHit m) := by
  unfold State.countHit
  split
  · next r hr =>
    have hlt := hm r hr
    have hne : scrCnt p 0 ≠ 0x048C0000 + r * 16 := by
      unfold scrCnt
      omega
    exact ite (h.trans ⟨State.c64_add64_other _ _ hne, fun _ _ => rfl⟩) h
  · exact h

theorem chargeUnit (h : VerdictsKept p s t) (act cause len : Nat) {sm : Option Nat} (hm : ∀ m, sm = some m → m < 4096) :
    VerdictsKept p s (t.chargeUnit act cause len sm).2 := by
  have hstream : VerdictsKept p s (t.chargeStream cause len sm).2 := by
    rcases t.chargeStream_cases cause len sm with he | ⟨m, hs, -, he⟩
    · rw [he]; exact h
    · rw [he]; exact h.meter (hm m hs) (MeterOnly.charge t m len)
  rw [chargeUnit_eq]
  split
  · exact hstream.meter (Nat.mod_lt _ (by decide)) (MeterOnly.charge ..)
  · exact hstream

variable (hp : p < 26)
include hp

/-- A counter outside the blocks of the lookup ports. -/
theorem bumpOutside (h : VerdictsKept p s t) {a : Nat} (ha : a < 0x04900100 ∨ 0x04900800 ≤ a) : VerdictsKept p s (t.bump a) := by
  refine h.bump fun off ho => ?_
  have hlt := lt_of_mem_dropOffsets ho
  unfold scrCnt
  omega

theorem mirror (h : VerdictsKept p s t) (k : MirrorOnly t u) : VerdictsKept p s u := by
  have hlow (off : Nat) (ho : off < 0x18) : scrCnt p off < mirReg 0x08 := by
    unfold scrCnt mirReg
    omega
  refine h.trans ⟨k.c64 _ (hlow 0 (by decide)).ne, fun off ho => k.c32 _ ?_⟩
  have hlt := hlow off (lt_of_mem_dropOffsets ho)
  unfold mirReg at *
  omega

theorem connFreed (h : VerdictsKept p s t) (e : Nat) : VerdictsKept p s (t.connFreed e) := by
  have hdropped : VerdictsKept p s (t.connDrop e) := h.elsewhere (by simp) (by simp)
  exact ite (bumpOutside hp hdropped (.inl (by decide))) h

theorem connCreate (h : VerdictsKept p s t) (u : ConnUnit) (sel : Nat) : VerdictsKept p s (t.connCreate u p sel) := by
  rcases t.connCreate_cases u p sel with he | ⟨e, he⟩
  · rw [he]
    exact h.bumpPort (by decide)
  · rw [he]
    have hdrawn : VerdictsKept p s t.draw.2 := h.elsewhere (by simp) (by simp)
    have hfreed : VerdictsKept p s (t.draw.2.connFreed e) := connFreed hp hdrawn e
    have hwritten : VerdictsKept p s ((t.draw.2.connFreed e).connWrite u p sel e).noteConn := hfreed.elsewhere (by simp) (by simp)
    exact hwritten.bumpPort (by decide)

theorem connChange (h : VerdictsKept p s t) (u : ConnUnit) (track : Bool) (sel : Nat) : VerdictsKept p s (t.connChange u track p sel) := by
  unfold State.connChange
  split
  · split
    · extract_lets a w w' fin _ s1 s2
      have h1 : VerdictsKept p s s1 := ite h.elsewhere h
      have h2 : VerdictsKept p s s2 := ite h1 (h1.elsewhere (by simp) (by simp))
      exact h2.elsewhere (by simp) (by simp)
    · exact ite (h.elsewhere (by simp) (by simp)) h
  · exact ite (connCreate hp h u sel) h

theorem trackUnit (h : VerdictsKept p s t) (act cause key : Nat) : VerdictsKept p s (t.trackUnit act cause p key) := by
  unfold State.trackUnit State.connUpdate
  dsimp only
  split
  · exact ite (ite h (foldl_keeps (connChange hp h _ _ _) (fun v x hv => mirror hp hv (MirrorOnly.mirrorConn v x.1 x.2)) _)) h
  · exact h

end VerdictsKept

end Sys2Proof.Machine
end

