-- ==== Sys2Proof/Proofs/ScreenVerdicts.lean ====
section
/-! SUPPORT. The verdict on a unit, its counter and its copy, and the lookups of the gateway port (O23). -/

namespace Sys2Proof.Machine

/-! Copies (R192). -/

/-- The copy meter is charged, where it is active. -/
def State.chargeCopy (s : State) (len : Nat) : Bool × State :=
  if s.param 0x0703 = 1 then ((s.charge (s.param 0x0702 % 4096) len).1.2, (s.charge (s.param 0x0702 % 4096) len).2) else (false, s)

section
variable (s : State) (path : CopyPath) (p len rule reason : Nat) (pass : Bool) (unit : List Byte)

/-- A copy without cells is lost; none is made of a frame that passes at SVC; the copy meter refuses one, the queue has no room, or it is made. -/
theorem copyUnit_cases :
    let t := (s.chargeCopy len).2
    let r := (s.copyUnit path p len rule reason pass unit).2
    (path = .noCells ∧ r = s.bump (scrCnt p 0x1C)) ∨
      (path ≠ .noCells ∧ (r = s ∨ r = t.bump (scrCnt p 0x1C) ∨ r = (t.bump (scrCnt p 0x1C)).fwEvent 4 ∨
        ∃ q c, r = State.bump { t with scr := { t.scr with copyQ := q, svcCopy := c } } (scrCnt p 0x18))) := by
  unfold State.copyUnit
  dsimp only
  rw [← State.chargeCopy]
  generalize s.chargeCopy len = c
  obtain ⟨refused, t⟩ := c
  cases path with
  | noCells => exact .inl ⟨rfl, rfl⟩
  | frame =>
    refine .inr ⟨by decide, ?_⟩
    dsimp only
    rw [if_neg (by simp)]
    split_ifs
    · exact .inr (.inl rfl)
    · exact .inr (.inr (.inr ⟨t.scr.copyQ, t.scr.svcCopy, rfl⟩))
  | message =>
    refine .inr ⟨by decide, ?_⟩
    dsimp only
    rw [if_neg (by simp)]
    split_ifs
    · exact .inr (.inl rfl)
    · exact .inr (.inr (.inl rfl))
    · exact .inr (.inr (.inr ⟨_, t.scr.svcCopy, rfl⟩))
  | svc =>
    refine .inr ⟨by decide, ?_⟩
    dsimp only
    split_ifs
    · exact .inl rfl
    · exact .inr (.inl rfl)
    · exact .inr (.inr (.inr ⟨t.scr.copyQ, _, rfl⟩))

theorem chargeCopy_kept : VerdictsKept p s (s.chargeCopy len).2 := by
  unfold State.chargeCopy
  split
  · exact (VerdictsKept.refl p s).meter (Nat.mod_lt _ (by decide)) (MeterOnly.charge ..)
  · exact .refl p s

theorem copyUnit_kept : VerdictsKept p s (s.copyUnit path p len rule reason pass unit).2 := by
  have hcharged := chargeCopy_kept s p len
  have hlost := hcharged.bumpPort (off := 0x1C) (by decide)
  rcases copyUnit_cases s path p len rule reason pass unit with ⟨-, h⟩ | ⟨-, h | h | h | ⟨q, c, h⟩⟩ <;> rw [h]
  · exact (VerdictsKept.refl p s).bumpPort (by decide)
  · exact .refl p s
  · exact hlost
  · exact hlost.elsewhere
  · exact VerdictsKept.bumpPort (t := { (s.chargeCopy len).2 with scr := { (s.chargeCopy len).2.scr with copyQ := q, svcCopy := c } })
      hcharged.elsewhere (by decide)

/-- Only the copy meter is charged for a copy. -/
theorem copyUnit_meters (h : path = .noCells ∨ s.param 0x0703 ≠ 1) :
    (s.copyUnit path p len rule reason pass unit).2.scr.meters = s.scr.meters := by
  rcases copyUnit_cases s path p len rule reason pass unit with ⟨-, hr⟩ | ⟨hpath, hr⟩
  · rw [hr, State.bump_scr]
  · have hfree : (s.chargeCopy len).2 = s := by rw [State.chargeCopy, if_neg (h.resolve_left hpath)]
    rw [hfree] at hr
    rcases hr with hr | hr | hr | ⟨q, c, hr⟩ <;> rw [hr] <;> simp

end

/-! The disposition (R183). -/

section
variable {s : State} {m : Option Nat × Nat} {p key : Nat}

theorem dispose_drop (h : bits m.2 2 1 = 1) : s.dispose m p key = (if m.1.isSome then 0x08 else 0x0C, s) := if_pos h

theorem dispose_pass (h : bits m.2 2 1 = 0) : s.dispose m p key = (0, s) := by
  simp [State.dispose, h]

/-- A unit passes the disposition, or a rule or the default action drops it, or it is dropped for its state and counted at once. -/
theorem dispose_cases (s : State) (m : Option Nat × Nat) (p key : Nat) :
    s.dispose m p key = (0, s) ∨ (∃ c, (c = 0x08 ∨ c = 0x0C) ∧ s.dispose m p key = (c, s)) ∨
      s.dispose m p key = (0x10, s.bump (scrCnt p 0x10)) := by
  unfold State.dispose
  dsimp only
  split_ifs
  · exact .inr (.inl ⟨_, .inl rfl, rfl⟩)
  · exact .inr (.inl ⟨_, .inr rfl, rfl⟩)
  · exact .inr (.inr rfl)
  · exact .inl rfl

end

/-- What a unit is charged for settles the cause only of one that nothing has dropped (R183). -/
theorem chargeUnit_cause (s : State) (act cause len : Nat) (sm : Option Nat) :
    (s.chargeUnit act cause len sm).1 = cause ∨ (cause = 0 ∧ (s.chargeUnit act cause len sm).1 = 0x14) := by
  rw [chargeUnit_eq]
  have hstream : (s.chargeStream cause len sm).1 = cause ∨ (cause = 0 ∧ (s.chargeStream cause len sm).1 = 0x14) := by
    rcases s.chargeStream_cases cause len sm with he | ⟨m, -, hc, he⟩
    · exact .inl (by rw [he])
    · rw [he, hc]
      split
      · exact .inr ⟨rfl, rfl⟩
      · exact .inl rfl
  split
  · next h =>
    simp only [Bool.and_eq_true, decide_eq_true_eq] at h
    obtain ⟨⟨hfree, -⟩, -⟩ := h
    have hc : cause = 0 := hstream.elim (fun e => e.symm.trans hfree) And.left
    rw [hc]
    split_ifs
    · exact .inr ⟨rfl, rfl⟩
    · exact .inl rfl
  · exact hstream

theorem chargeUnit_dropped {cause : Nat} (h : cause ≠ 0) (s : State) (act len : Nat) (sm : Option Nat) :
    s.chargeUnit act cause len sm = (cause, s) := by
  have hstream : s.chargeStream cause len sm = (cause, s) := by
    rcases s.chargeStream_cases cause len sm with he | ⟨-, -, hc, -⟩
    · exact he
    · exact absurd hc h
  rw [chargeUnit_eq, hstream, if_neg (by simp [h])]

/-- A unit without a stream meter and a rule without POLICE are charged nothing. -/
theorem chargeUnit_free {act : Nat} (h : bit act 5 = false) (s : State) (cause len : Nat) : s.chargeUnit act cause len none = (cause, s) := by
  rw [chargeUnit_eq, if_neg (by simp [h])]
  rfl

theorem trackUnit_untracked {act : Nat} (h : bit act 6 = false) (hd : bits act 2 1 ≠ 2) (s : State) (cause p key : Nat) :
    s.trackUnit act cause p key = s := by
  unfold State.trackUnit
  split <;> simp [h, hd]

theorem trackUnit_dropped {cause : Nat} (h : cause ≠ 0) (s : State) (act p key : Nat) : s.trackUnit act cause p key = s := by
  unfold State.trackUnit
  split <;> simp [h]

/-! The verdict (R183, R199). -/

/-- The verdict is counted as a lookup ends; a drop for the state of a connection has been counted before. -/
def State.countVerdict (s : State) (p cause : Nat) : State :=
  if cause = 0 then s.add64 (scrCnt p 0) 1 else if cause = 0x10 then s else s.bump (scrCnt p cause)

theorem closeUnit_state (s : State) (m : Option Nat × Nat) (cause p len : Nat) (path : CopyPath) (unit : List Byte) :
    (s.closeUnit m cause p len path unit).2 =
      if bit m.2 4 then ((s.countVerdict p cause).copyUnit path p len (m.1.getD 0x3FFF) (bits m.2 47 40) (decide (cause = 0)) unit).2
      else s.countVerdict p cause := by
  unfold State.closeUnit State.countVerdict
  dsimp only
  split <;> rfl

theorem closeUnit_pass (s : State) (m : Option Nat × Nat) (cause p len : Nat) (path : CopyPath) (unit : List Byte) :
    (s.closeUnit m cause p len path unit).1.pass = decide (cause = 0) := by
  simp only [State.closeUnit]

theorem closeUnit_unchanged {cause : Nat} (h : cause ≠ 0) (s : State) (m : Option Nat × Nat) (p len : Nat) (path : CopyPath) (unit : List Byte) :
    (s.closeUnit m cause p len path unit).1.cls = none ∧ (s.closeUnit m cause p len path unit).1.dom = none := by
  simp [State.closeUnit, h]

section
variable {s t : State} {p c : Nat}

/-- A unit dropped for its state, in the counter that it counts in before its lookup ends (R193). -/
def State.countState (s : State) (p c : Nat) : State := if c = 0x10 then s.bump (scrCnt p 0x10) else s

/-- One verdict in one counter of the lookup port: units that pass for cause 0, else the counter at the offset of the cause. -/
def State.countCause (s : State) (p c : Nat) : State := if c = 0 then s.add64 (scrCnt p 0) 1 else s.bump (scrCnt p c)

theorem dispose_kept (h : VerdictsKept p s t) (m : Option Nat × Nat) (key : Nat) :
    VerdictsKept p (s.countState p (t.dispose m p key).1) (t.dispose m p key).2 := by
  rcases dispose_cases t m p key with hd | ⟨c, hc, hd⟩ | hd <;> rw [hd]
  · exact h
  · rwa [State.countState, if_neg (by omega)]
  · exact h.dropBoth (by decide)

theorem countState_chargeUnit (s t : State) (p act c len : Nat) (sm : Option Nat) :
    s.countState p (t.chargeUnit act c len sm).1 = s.countState p c := by
  rcases chargeUnit_cause t act c len sm with h | ⟨rfl, h⟩ <;> rw [h]
  rfl

theorem countVerdict_kept (h : VerdictsKept p (s.countState p c) t) (hc : c = 0 ∨ c ∈ dropOffsets) :
    VerdictsKept p (s.countCause p c) (t.countVerdict p c) := by
  unfold State.countState State.countCause State.countVerdict at *
  rcases eq_or_ne c 0 with rfl | h0
  · exact h.passBoth
  rw [if_neg h0, if_neg h0]
  rcases eq_or_ne c 0x10 with rfl | hs
  · exact h
  · rw [if_neg hs] at h ⊢
    exact h.dropBoth (hc.resolve_left h0)

end

/-! A unit judged in one step (R183). -/

/-- The cause with which the screen ends: the offset of the counter of a drop, or 0. -/
def State.screenCause (s : State) (p key len : Nat) (sm : Option Nat) : Nat :=
  let d := (s.countHit (s.judgeKey p key)).dispose (s.judgeKey p key) p key
  (d.2.chargeUnit (s.judgeKey p key).2 d.1 len sm).1

/-- The state in which the lookup ends. -/
def State.screenState (s : State) (p key len : Nat) (sm : Option Nat) : State :=
  let d := (s.countHit (s.judgeKey p key)).dispose (s.judgeKey p key) p key
  (d.2.chargeUnit (s.judgeKey p key).2 d.1 len sm).2.trackUnit (s.judgeKey p key).2 (s.screenCause p key len sm) p key

section
variable {s : State} {p key len : Nat} {sm : Option Nat} {path : CopyPath} {unit : List Byte}

theorem screen_eq : s.screen p key len sm path unit =
    (s.screenState p key len sm).closeUnit (s.judgeKey p key) (s.screenCause p key len sm) p len path unit := by
  simp only [State.screen, State.screenState, State.screenCause]

theorem screenCause_mem (s : State) (p key len : Nat) (sm : Option Nat) :
    s.screenCause p key len sm = 0 ∨ s.screenCause p key len sm ∈ dropOffsets := by
  unfold State.screenCause
  extract_lets d
  have hd : d.1 = 0 ∨ d.1 ∈ dropOffsets := by
    rcases dispose_cases (s.countHit (s.judgeKey p key)) (s.judgeKey p key) p key with h | ⟨c, rfl | rfl, h⟩ | h <;>
      simp [d, h, dropOffsets]
  rcases chargeUnit_cause d.2 (s.judgeKey p key).2 d.1 len sm with h | ⟨-, h⟩ <;> rw [h]
  · exact hd
  · exact .inr (by decide)

/-- A disposition that drops settles the cause and changes nothing but the hits of the rule. -/
theorem screen_drop (h : bits (s.judgeKey p key).2 2 1 = 1) :
    s.screenCause p key len sm = (if (s.judgeKey p key).1.isSome then 0x8 else 0xC) ∧
    s.screenState p key len sm = s.countHit (s.judgeKey p key) := by
  have hne : (if (s.judgeKey p key).1.isSome then 0x8 else 0xC) ≠ 0 := by split <;> decide
  have hc : s.screenCause p key len sm = if (s.judgeKey p key).1.isSome then 0x8 else 0xC := by
    simp only [State.screenCause, dispose_drop h, chargeUnit_dropped hne]
  refine ⟨hc, ?_⟩
  simp only [State.screenState, hc, dispose_drop h, chargeUnit_dropped hne, trackUnit_dropped hne]

/-- A unit passes that no meter is charged for and whose rule has disposition pass. -/
theorem screenCause_pass (h : bits (s.judgeKey p key).2 2 1 = 0) (hpolice : bit (s.judgeKey p key).2 5 = false) :
    s.screenCause p key len none = 0 := by
  simp only [State.screenCause, dispose_pass h, chargeUnit_free hpolice]

/-- The lookup leaves the counters of verdicts until it ends, but for a drop for the state of a connection. -/
theorem screenState_kept (hp : p < 26) (hsm : ∀ m, sm = some m → m < 4096) :
    VerdictsKept p (s.countState p (s.screenCause p key len sm)) (s.screenState p key len sm) := by
  have hhit : VerdictsKept p s (s.countHit (s.judgeKey p key)) :=
    (VerdictsKept.refl p s).countHit fun r hr => lt_of_mem_validRules (List.mem_of_find?_eq_some (judgeKey_rule (Prod.ext hr rfl)).1)
  unfold State.screenState
  extract_lets d
  rw [show s.screenCause p key len sm = (d.2.chargeUnit (s.judgeKey p key).2 d.1 len sm).1 from rfl, countState_chargeUnit]
  exact VerdictsKept.trackUnit hp ((dispose_kept hhit _ key).chargeUnit _ _ len hsm) ..

/-- One verdict in exactly one counter of the lookup port (R183, R199). -/
theorem screen_counts (hp : p < 26) (hsm : ∀ m, sm = some m → m < 4096) :
    VerdictsKept p (s.countCause p (s.screenCause p key len sm)) (s.screen p key len sm path unit).2 := by
  have hcounted := countVerdict_kept (screenState_kept (s := s) (key := key) (len := len) hp hsm) (screenCause_mem s p key len sm)
  rw [screen_eq, closeUnit_state]
  split
  · exact hcounted.trans (copyUnit_kept ..)
  · exact hcounted

theorem screen_pass : (s.screen p key len sm path unit).1.pass = decide (s.screenCause p key len sm = 0) := by
  rw [screen_eq, closeUnit_pass]

/-- A unit that is dropped is rewritten in nothing. -/
theorem screen_unchanged (h : s.screenCause p key len sm ≠ 0) :
    (s.screen p key len sm path unit).1.cls = none ∧ (s.screen p key len sm path unit).1.dom = none := by
  rw [screen_eq]
  exact closeUnit_unchanged h ..

/-- The end of a lookup leaves memory. -/
theorem screen_mem (h : (s.screenState p key len sm).mem = s.mem) : SameMem s (s.screen p key len sm path unit).2 :=
  sameMem_of_mem (by rw [screen_eq, State.closeUnit_mem, h])

/-- A rule without TRACK and require-state changes no entry. -/
theorem screenState_mem (h : bit (s.judgeKey p key).2 6 = false) (hd : bits (s.judgeKey p key).2 2 1 ≠ 2) :
    (s.screenState p key len sm).mem = s.mem := by
  unfold State.screenState
  rw [trackUnit_untracked h hd, State.chargeUnit_mem, State.dispose_mem, State.countHit_mem]

end

/-! A unit that its disposition drops (R183). -/

section
variable {s : State} {p key len : Nat} {sm : Option Nat} {path : CopyPath} {unit : List Byte}

theorem countHit_meters (s : State) (m : Option Nat × Nat) : (s.countHit m).scr.meters = s.scr.meters := by
  unfold State.countHit
  split
  · split <;> simp
  · rfl

@[simp] theorem State.countHit_params (s : State) (m : Option Nat × Nat) : (s.countHit m).params = s.params := by
  unfold State.countHit
  split
  · split <;> simp
  · rfl

theorem param_of_params {s t : State} (h : t.params = s.params) (pid : Nat) : t.param pid = s.param pid := by rw [State.param, h, State.param]

/-- A drop charges no meter but that of copies. -/
theorem screen_drop_meters (h : bits (s.judgeKey p key).2 2 1 = 1) (hcopy : path = .noCells ∨ s.param 0x0703 ≠ 1) :
    (s.screen p key len sm path unit).2.scr.meters = s.scr.meters := by
  obtain ⟨hc, hs⟩ := screen_drop (len := len) (sm := sm) h
  have hcounted : ((s.countHit (s.judgeKey p key)).countVerdict p (s.screenCause p key len sm)).params = s.params ∧
      ((s.countHit (s.judgeKey p key)).countVerdict p (s.screenCause p key len sm)).scr.meters = s.scr.meters := by
    unfold State.countVerdict
    split_ifs <;> simp [countHit_meters]
  rw [screen_eq, closeUnit_state, hs]
  split
  · rw [copyUnit_meters, hcounted.2]
    rwa [param_of_params hcounted.1]
  · exact hcounted.2

end

/-! What the counters of a verdict read (R199). -/

section
variable {s t : State} {p c : Nat}

theorem passed_of_countCause (h : VerdictsKept p (s.countCause p 0) t) :
    t.c64 (scrCnt p 0) = s.c64 (scrCnt p 0) + 1 ∧ ∀ off ∈ dropOffsets, t.c32 (scrCnt p off) = s.c32 (scrCnt p off) :=
  ⟨h.passed.trans (s.c64_add64_one _), h.dropped⟩

theorem dropped_of_countCause (h : VerdictsKept p (s.countCause p c) t) (hc : c ∈ dropOffsets) :
    t.c64 (scrCnt p 0) = s.c64 (scrCnt p 0) ∧ t.c32 (scrCnt p c) = satInc (s.c32 (scrCnt p c)) ∧
    ∀ off ∈ dropOffsets, off ≠ c → t.c32 (scrCnt p off) = s.c32 (scrCnt p off) := by
  have hne : c ≠ 0 := by
    rintro rfl
    exact absurd hc (by decide)
  rw [State.countCause, if_neg hne] at h
  exact ⟨h.passed, (h.dropped c hc).trans (s.c32_bump_same _),
    fun off ho hoff => (h.dropped off ho).trans (s.c32_bump_other fun e => hoff (scrCnt_inj e))⟩

end

/-! The gateway lookup port (R193, R194). -/

theorem gwAccept_early {s : State} (h : s.time.cycle - 1 < s.scr.gw.nextAt) : s.gwAccept = s := if_pos h

theorem gwAccept_key {s : State} {k : GwKey} {g : GwPort} (h : s.scr.gw.nextAt ≤ s.time.cycle - 1) (hk : s.scr.gw.next = some (k, g)) :
    ∃ l : GwLookup, l.k = k ∧ l.from_ = s.time.cycle - 1 ∧ l.hs = 0 ∧
      s.gwAccept = { s with scr.gw := { g with hand := g.hand ++ [l], nextAt := s.time.cycle - 1 + 4 } } := by
  have hdue : ¬ s.now - 1 < s.scr.gw.nextAt := Nat.not_lt.2 h
  unfold State.gwAccept
  dsimp only
  rw [if_neg hdue, hk]
  exact ⟨_, rfl, rfl, rfl, rfl⟩

theorem gwTurn_early {s : State} {l : GwLookup} (h : s.time.cycle < l.due) : s.gwTurn l = s := if_pos h

theorem gwTurn_judged {s : State} {l : GwLookup} (hs : l.hs = 6) (h : l.from_ + 14 ≤ s.time.cycle) :
    s.gwTurn l = State.gwJudged { s with scr.gw := { s.scr.gw with hand := s.scr.gw.hand.filter (fun x => x.from_ ≠ l.from_) } }
      l.k.unit l.verdict.pass := by
  have hdue : ¬ s.now < l.due := by
    rw [GwLookup.due, hs]
    exact Nat.not_lt.2 h
  rw [State.gwTurn, if_neg hdue, if_neg (by omega)]

/-- Settles O23: the cause with which the screen ends and the one counter that it counts in, the first matching rule, the sources of the gateway
port in turn, and the cycles in which it accepts a key and passes a verdict on. -/
theorem screenVerdicts : Obligations.ScreenVerdicts := by
  unfold Obligations.ScreenVerdicts
  refine ⟨fun s p key len sm path unit hp hsm => ?_, fun s p key hm => ?_, fun g => ?_, fun s _ => ?_⟩
  · intro r j t cnt old
    have hkept : VerdictsKept p (s.countCause p (s.screenCause p key len sm)) t := screen_counts hp hsm
    have hpass : r.1.pass = decide (s.screenCause p key len sm = 0) := screen_pass
    refine ⟨fun h => ?_, fun h => ?_, fun h hcopy => ?_, ?_, fun htrack hdisp => screen_mem (screenState_mem htrack hdisp)⟩
    · have hzero : s.screenCause p key len sm = 0 := by simpa [hpass] using h
      rw [hzero] at hkept
      obtain ⟨hcount, hothers⟩ := passed_of_countCause hkept
      exact ⟨hcount, hothers _ (by decide), hothers _ (by decide), hothers _ (by decide), hothers _ (by decide)⟩
    · have hne : s.screenCause p key len sm ≠ 0 := by simpa [hpass] using h
      have hmem := (screenCause_mem s p key len sm).resolve_left hne
      obtain ⟨hsame, hcount, hothers⟩ := dropped_of_countCause hkept hmem
      obtain ⟨hcls, hdom⟩ : r.1.cls = none ∧ r.1.dom = none := screen_unchanged hne
      exact ⟨hsame, hcls, hdom, _, hmem, hcount, hothers⟩
    · obtain ⟨hcause, hstate⟩ := screen_drop (len := len) (sm := sm) h
      have hmem : s.screenCause p key len sm ∈ dropOffsets := by
        rw [hcause]
        split <;> decide
      have hne : s.screenCause p key len sm ≠ 0 := fun e => absurd (e ▸ hmem) (by decide)
      obtain ⟨-, hcount, -⟩ := dropped_of_countCause hkept hmem
      refine ⟨by simp [hpass, hne], screen_mem (by rw [hstate, State.countHit_mem]), screen_drop_meters h hcopy, ?_⟩
      rwa [hcause] at hcount
    · rintro hdisp rfl hpolice
      rw [hpass, screenCause_pass hdisp hpolice]
      rfl
  · exact ⟨fun r a h => ⟨(judgeKey_first hm h).1, (judgeKey_rule h).2, (judgeKey_first hm h).2⟩, fun a h => judgeKey_no_rule hm h⟩
  · refine ⟨fun k l h => ?_, fun k l h1 h2 h3 => ?_, fun k l h1 h2 h3 => ?_, fun a l b m h1 h2 h3 => ?_⟩
    · simp only [GwPort.next, h]
    · simp only [GwPort.next, h1, h2, h3]
    · simp only [GwPort.next, h1, h2, h3]
    · simp only [GwPort.next, h1, h2, h3]
  · exact ⟨gwAccept_early, fun _ _ => gwAccept_key, fun _ => gwTurn_early, fun _ => gwTurn_judged⟩

end Sys2Proof.Machine
end

