-- ==== Sys2Proof/Proofs/ScreenCommands.lean ====
section
/-! SUPPORT. The states of a TCP or DoIP connection, the visit of the sweeper and the swap of the rule banks (O25). -/

namespace Sys2Proof.Machine

/-! A segment of a TCP or DoIP connection (R186). -/

section
variable {u : ConnUnit} {init : Bool} {fin : Option Bool}

theorem tcpStep_synSent : tcpStep u 1 init fin =
    if bit u.flags 2 then some 5 else if init && bit u.flags 1 && !bit u.flags 4 then some 1
    else if !init && (bit u.flags 1 && bit u.flags 4) then some 2 else none := by
  rw [← Bool.and_assoc]
  rfl

theorem tcpStep_established_tcp (h : u.kind = 0) :
    tcpStep u 2 init fin = if bit u.flags 2 then some 5 else if bit u.flags 0 then some 4 else some 2 := by
  simp [tcpStep, h]

theorem tcpStep_established_refused (hk : u.kind = 2) (hi : init = true) (hp : u.plen0 = false) (h5 : u.doip ≠ some 5) (h7 : u.doip ≠ some 7)
    (h8 : u.doip ≠ some 8) : tcpStep u 2 init fin = none := by
  simp [tcpStep, hk, hi, hp, h5, h7, h8]

theorem tcpStep_established_responder (hk : u.kind = 2) (hi : init = false) : tcpStep u 2 init fin =
    if bit u.flags 2 then some 5 else if bit u.flags 0 then some 4 else if u.doip = some 6 then some 3 else some 2 := by
  simp [tcpStep, hk, hi]

theorem tcpStep_closing : tcpStep u 4 init fin =
    if bit u.flags 2 then some 5 else if bit u.flags 0 = true ∧ fin ≠ some init then some 5 else some 4 := by
  simp [tcpStep]

theorem tcpStep_closed : tcpStep u 5 init fin = if u.flags = 16 then some 5 else none := rfl

end

/-! Entries in use (R188, R201). -/

/-- A byte of memory that counts in SCR_CONN_USED: the first one of a connection entry, with VALID 1. -/
def usedByte (x : Nat × Byte) : Bool := 0x04C00000 ≤ x.1 && x.1 < 0x05000000 && x.1 % 64 = 0 && x.2.getLsbD 0

theorem connUsed_eq (s : State) : s.connUsed = (s.mem.filter usedByte).length := rfl

theorem connUsed_of_mem {s t : State} (h : t.mem = s.mem) : t.connUsed = s.connUsed := by rw [connUsed_eq, h, connUsed_eq]

/-- The removal of an entry in use takes one from SCR_CONN_USED. -/
theorem connUsed_connDrop {s : State} (hm : MemInv s) {e : Nat} (he : e < 65536) (hv : bit (s.rd (connAddr e) 1) 0 = true) :
    (s.connDrop e).connUsed = s.connUsed - 1 := by
  have hbit : (s.rd8 (connAddr e)).getLsbD 0 = true := by rw [← s.bit_rd_zero _ 0, hv]
  have haddr : 0x04C00000 ≤ connAddr e ∧ connAddr e < 0x05000000 ∧ connAddr e % 64 = 0 := by
    unfold connAddr
    omega
  obtain ⟨hlow, hhigh, hmod⟩ := haddr
  have hin : (connAddr e, s.rd8 (connAddr e)) ∈ s.mem.filter usedByte :=
    List.mem_filter.2 ⟨State.mem_of_rd8_bit (by omega) hbit, by simp [usedByte, hlow, hhigh, hmod, hbit]⟩
  have hnodup : (s.mem.filter usedByte).Nodup :=
    ((SMap.pairwise_of_wf hm).imp fun hlt => ne_of_apply_ne Prod.fst hlt.ne).filter _
  have hmem : (s.connDrop e).mem = s.mem.filter (fun x => !(connAddr e ≤ x.1 && x.1 < connAddr e + 64)) := rfl
  have hdrop : (s.connDrop e).mem.filter usedByte = (s.mem.filter usedByte).erase (connAddr e, s.rd8 (connAddr e)) := by
    rw [hnodup.erase_eq_filter, hmem, List.filter_comm]
    refine List.filter_congr fun x hx => ?_
    obtain ⟨hxm, hxu⟩ := List.mem_filter.1 hx
    simp only [usedByte, Bool.and_eq_true, decide_eq_true_eq] at hxu
    obtain ⟨⟨-, hxmod⟩, -⟩ := hxu
    by_cases hx : x.1 = connAddr e
    · have hxe : x = (connAddr e, s.rd8 (connAddr e)) := Prod.ext hx (by rw [← hx, State.rd8_of_mem hm hxm])
      simp [hxe]
    · have hne : x ≠ (connAddr e, s.rd8 (connAddr e)) := fun h => hx (congrArg Prod.fst h)
      have hout : x.1 < connAddr e ∨ connAddr e + 64 ≤ x.1 := by omega
      rw [bne_iff_ne.2 hne]
      simpa using hout
  rw [connUsed_eq, hdrop, List.length_erase_of_mem hin, connUsed_eq]

/-- A cleared byte reads as at reset, the others as before. -/
theorem rd8_clearMem (s : State) (a n b : Nat) : (s.clearMem a n).rd8 b = if a ≤ b ∧ b < a + n then memReset b else s.rd8 b := by
  unfold State.rd8 State.clearMem memGet SMap.dropKeys
  rw [SMap.get_filter (p := fun k => !(decide (a ≤ k) && decide (k < a + n)))]
  by_cases h : a ≤ b ∧ b < a + n
  · simp [h]
  · simp only [← Bool.decide_and, h, decide_false, Bool.not_false, if_true, if_false]

theorem connDrop_rd8 (s : State) (e b : Nat) : (s.connDrop e).rd8 b = if connAddr e ≤ b ∧ b < connAddr e + 64 then 0 else s.rd8 b := by
  rw [show (s.connDrop e).rd8 b = (s.clearMem (connAddr e) 64).rd8 b from rfl, rd8_clearMem]
  refine ite_congr rfl (fun h => if_neg ?_) fun _ => rfl
  unfold connAddr at h
  omega

/-! CONN_SWEEP (R188). -/

section
variable {s : State} {e : Nat}

/-- A place without an entry, and an entry whose limit has not passed, are left as they are. -/
theorem connSweep_kept (h : bit (s.rd (connAddr e) 1) 0 = false ∨ s.connExpired e = false) : connSweep e s = s := by
  unfold connSweep
  rcases h with h | h <;> simp [h]

theorem connSweep_removed (hl : s.live = true) (hs : s.secondary = false) (hv : bit (s.rd (connAddr e) 1) 0 = true) (hx : s.connExpired e = true) :
    MirrorOnly ((s.connDrop e).bump 0x0490000C) (connSweep e s) := by
  rw [connSweep, if_pos (by simp [hl, hs, hv, hx])]
  exact MirrorOnly.mirrorConn ..

theorem connSweep_cases (hl : s.live = true) (hs : s.secondary = false) (he : e < 65536) (hv : bit (s.rd (connAddr e) 1) 0 = true)
    (hx : s.connExpired e = true) :
    (∀ i, i < 64 → (connSweep e s).rd8 (connAddr e + i) = 0) ∧ SameMemBut s (connSweep e s) (connAddr e) 64 ∧
    (MemInv s → (connSweep e s).connUsed = s.connUsed - 1) ∧ (connSweep e s).c32 0x0490000C = satInc (s.c32 0x0490000C) ∧
    (connSweep e s).time = s.time ∧ (connSweep e s).params = s.params := by
  have hsweep := connSweep_removed hl hs hv hx
  have hrd (b : Nat) : (connSweep e s).rd8 b = (s.connDrop e).rd8 b := by rw [State.rd8, hsweep.mem, State.bump_mem, State.rd8]
  refine ⟨fun i hi => ?_, fun b hb => ?_, fun hm => ?_, ?_, hsweep.time, hsweep.params⟩
  · rw [hrd, connDrop_rd8, if_pos (by omega)]
  · rw [hrd, connDrop_rd8, if_neg (by omega)]
  · rw [connUsed_of_mem hsweep.mem, connUsed_of_mem (State.bump_mem ..), connUsed_connDrop hm he hv]
  · rw [hsweep.c32 _ (by decide), State.c32_bump_same]
    rfl

end

/-! RULE_BANK_SWAP (R197). -/

section
variable {s : State} {l : RuleLoad}

theorem ruleBankSwap_idle (h : s.scr.load = none) : ruleBankSwap s = s := by
  unfold ruleBankSwap
  rw [h]

theorem ruleBankSwap_early (h : s.scr.load = some l) (hd : s.time.cycle < l.start + 4 * l.count ∨ l.next < l.count) : ruleBankSwap s = s := by
  simp only [ruleBankSwap, h]
  refine if_pos ?_
  rcases hd with hd | hd <;> simp [State.now, hd]

theorem ruleBankSwap_due (hl : s.live = true) (h : s.scr.load = some l) (hd : l.start + 4 * l.count ≤ s.time.cycle) (hn : l.count ≤ l.next) :
    ruleBankSwap s = (s.swapBanks l).finishBusy .ruleLoad .ok [] := by
  simp only [ruleBankSwap, h]
  exact if_neg (by simp [State.now, hl, Nat.not_lt.2 hd, Nat.not_lt.2 hn])

/-- RULE_HITS start again, and no other 64-bit counter changes. -/
theorem c64_swapBanks (s : State) (l : RuleLoad) (a : Nat) :
    (s.swapBanks l).c64 a = if 0x048C0000 ≤ a ∧ a < 0x048E0000 then 0 else s.c64 a := by
  have hkeys : (s.swapBanks l).c64 a = SMap.get 0 (s.cnt64.filter (fun x => !(ruleHits 0 ≤ x.1 && x.1 < ruleHits 8192))) a := rfl
  rw [hkeys, SMap.get_filter (p := fun k => !(decide (ruleHits 0 ≤ k) && decide (k < ruleHits 8192))), show ruleHits 0 = 0x048C0000 from rfl,
    show ruleHits 8192 = 0x048E0000 from rfl]
  by_cases h : 0x048C0000 ≤ a ∧ a < 0x048E0000
  · simp [h]
  · simp only [← Bool.decide_and, h, decide_false, Bool.not_false, if_true, if_false]
    rfl

end

/-! The answer to the mailbox that waits for the load (R278, R282). -/

section
variable {s : State}

/-- A Busy mailbox gets its response, or none waits for it. -/
theorem finishBusy_cases (s : State) (w : Waiting) (st : Status) (pay : List Byte) :
    s.finishBusy w st pay = s ∨ ∃ b : Mb, s.finishBusy w st pay = s.complete b.val st pay := by
  unfold State.finishBusy
  split
  · split
    · exact .inr ⟨_, rfl⟩
    · exact .inl rfl
  · exact .inl rfl

@[simp] theorem finishBusy_scr (s : State) (w : Waiting) (st : Status) (pay : List Byte) : (s.finishBusy w st pay).scr = s.scr := by
  rcases finishBusy_cases s w st pay with h | ⟨b, h⟩ <;> simp [h]

@[simp] theorem finishBusy_cnt32 (s : State) (w : Waiting) (st : Status) (pay : List Byte) : (s.finishBusy w st pay).cnt32 = s.cnt32 := by
  rcases finishBusy_cases s w st pay with h | ⟨b, h⟩ <;> simp [h]

@[simp] theorem finishBusy_cnt64 (s : State) (w : Waiting) (st : Status) (pay : List Byte) : (s.finishBusy w st pay).cnt64 = s.cnt64 := by
  rcases finishBusy_cases s w st pay with h | ⟨b, h⟩ <;> simp [h]

/-- Memory outside the mailbox buffers stays. -/
theorem finishBusy_rd8 (s : State) (w : Waiting) (st : Status) {a : Nat} (ha : a < 0x03000000 ∨ 0x03008000 ≤ a) :
    (s.finishBusy w st []).rd8 a = s.rd8 a := by
  rcases finishBusy_cases s w st [] with h | ⟨b, h⟩
  · rw [h]
  · have hb := b.isLt
    rw [h]
    refine complete_rd8_other s b.val st [] ?_
    simp only [respAddr, reqAddr, List.length_nil]
    omega

/-- A mailbox that enters Done is no longer Busy, and no command executes. -/
theorem enterDone_done {b : Mb} {w : Waiting} (h : s.host.busy = some (b, w)) (r : Option (BitVec 16 × BitVec 16 × List Byte)) :
    (s.enterDone b.val r).host.busy = none ∧ ((s.enterDone b.val r).mb b.val).state = .done := by
  have hsent : (if s.dw.mbIrqEn.getLsbD b.val then s.host.send 0 else s.host).busy = some (b, w) := by split <;> simp [h]
  unfold State.enterDone State.setMb State.mb
  dsimp only
  rw [hsent]
  exact ⟨if_pos rfl, congrArg MbRec.state (SMap.get_set_same ..)⟩

/-- The command of a Busy mailbox completes. -/
theorem complete_done {b : Mb} {w : Waiting} (h : s.host.busy = some (b, w)) (st : Status) (pay : List Byte) :
    (s.complete b.val st pay).host.busy = none ∧ ((s.complete b.val st pay).mb b.val).state = .done := by
  unfold State.complete
  exact enterDone_done (by rw [State.wrB_host, h]) _

@[simp] theorem busy_settle (s t : State) : (settle s t).host.busy = t.host.busy := by
  rcases msixEdges_cases s t with h | h | h <;> simp [settle, h]

@[simp] theorem mb_settle (s t : State) (n : Nat) : (settle s t).mb n = t.mb n := by
  unfold State.mb
  rcases msixEdges_cases s t with h | h | h <;> simp [settle, h]

end

theorem exec_connSweep (s : State) (e : Fin 65536) : exec (.connSweep e) s = .next (settle s (connSweep e.val s)) := rfl

theorem exec_ruleBankSwap (s : State) : exec .ruleBankSwap s = .next (settle s (ruleBankSwap s)) := rfl

/-- A swap that is due (R197, R201). -/
theorem ruleBankSwap_cases {s : State} {l : RuleLoad} (hl : s.live = true) (h : s.scr.load = some l) (hd : l.start + 4 * l.count ≤ s.time.cycle)
    (hn : l.count ≤ l.next) :
    ∃ t, exec .ruleBankSwap s = .next t ∧ t.scr.bank = !s.scr.bank ∧ t.scr.gen = l.gen ∧
      t.scr.load = none ∧ t.scr.meters = s.scr.meters ∧ t.c32 0x04900010 = satInc (s.c32 0x04900010) ∧
      (∀ r, r < 8192 → t.c64 (ruleHits r) = 0) ∧
      (∀ a, (a < 0x048C0000 ∨ 0x048E0000 ≤ a) → t.c64 a = s.c64 a) ∧
      (∀ a, (a < 0x03000000 ∨ 0x03008000 ≤ a) → t.rd8 a = s.rd8 a) ∧
      (∀ b, s.host.busy = some (b, .ruleLoad) → t.host.busy = none ∧ (t.mb b.val).state = .done) := by
  have hc64 (a : Nat) : (settle s ((s.swapBanks l).finishBusy .ruleLoad .ok [])).c64 a = (s.swapBanks l).c64 a := by
    rw [c64_settle, State.c64, finishBusy_cnt64, State.c64]
  refine ⟨_, by rw [exec_ruleBankSwap, ruleBankSwap_due hl h hd hn], by simp [State.swapBanks], by simp [State.swapBanks],
    by simp [State.swapBanks], by simp [State.swapBanks], ?_, fun r hr => ?_, fun a ha => ?_, fun a ha => ?_, fun b hb => ?_⟩
  · rw [c32_settle, State.c32, finishBusy_cnt32]
    exact SMap.get_set_same ..
  · rw [hc64, c64_swapBanks, if_pos (by unfold ruleHits; omega)]
  · rw [hc64, c64_swapBanks, if_neg (by omega)]
  · rw [State.rd8, settle_mem]
    exact (finishBusy_rd8 _ _ _ ha).trans (by rw [State.rd8, State.swapBanks_mem, State.rd8])
  · have hbusy : (s.swapBanks l).host.busy = some (b, .ruleLoad) := hb
    have hfinish : (s.swapBanks l).finishBusy .ruleLoad .ok [] = (s.swapBanks l).complete b.val .ok [] := by simp [State.finishBusy, hbusy]
    rw [hfinish, busy_settle, mb_settle]
    exact complete_done hbusy .ok []

/-- Settles O25: the states of a tracked TCP or DoIP connection, a visit of the sweeper, and the swap of the banks. -/
theorem connectionsAndScreenCommands : Obligations.ConnectionsAndScreenCommands := by
  unfold Obligations.ConnectionsAndScreenCommands
  refine ⟨fun u init fin => ?_, fun s e hl hs hv hx => ?_, fun s e h => ?_, fun s l hl h => ⟨fun hd => ?_, ruleBankSwap_cases hl h⟩,
    fun s h => ?_⟩
  · refine ⟨tcpStep_synSent, tcpStep_established_tcp, tcpStep_established_refused, tcpStep_established_responder, rfl, tcpStep_closing,
      fun n hn => ?_, fun h => ?_⟩
    · rw [tcpStep_closed] at hn
      split at hn
      · next hflags => exact ⟨(Option.some.inj hn).symm, hflags⟩
      · exact absurd hn (by simp)
    · rw [tcpStep_closed, if_pos h]
  · obtain ⟨hzero, hothers, hused, hcount, htime, hparams⟩ := connSweep_cases hl hs e.isLt hv hx
    exact ⟨_, exec_connSweep s e, fun i hi => by rw [State.rd8, settle_mem]; exact hzero i hi, sameMemBut_of_mem hothers (settle_mem ..),
      fun hm => by rw [connUsed_of_mem (settle_mem ..), hused hm], hcount, by rw [settle_time, htime], by rw [settle_params, hparams]⟩
  · rw [exec_connSweep, connSweep_kept h]
  · rw [exec_ruleBankSwap, ruleBankSwap_early h hd]
  · rw [exec_ruleBankSwap, ruleBankSwap_idle h]

end Sys2Proof.Machine
end

