-- ==== Sys2Proof/Proofs/BusReads.lean ====
section
/-! SUPPORT. Reads of memory, a counter, a CAN channel or a LIN channel after a write (O26 to O30). -/

namespace Sys2Proof.Machine

/-! Memory. -/

theorem length_natLe (n v : Nat) : (natLe n v).length = n := by
  induction n generalizing v with
  | zero => rfl
  | succ n ih => rw [natLe, List.length_cons, ih]

theorem leNat_natLe (n v : Nat) : leNat (natLe n v) = v % 256 ^ n := by
  induction n generalizing v with
  | zero => simp [natLe, leNat, Nat.mod_one]
  | succ n ih =>
    rw [natLe, leNat, ih, BitVec.toNat_ofNat, Nat.pow_succ' (n := n)]
    exact (Nat.mod_mul (a := 256)).symm

theorem State.rdB_wrB_same (s : State) (a : Nat) (bs : List Byte) : (s.wrB a bs).rdB a bs.length = bs := by
  induction bs generalizing s a with
  | nil => rfl
  | cons b bs ih =>
    have hhead : (s.wrB a (b :: bs)).rd8 a = b := State.wrB_rd8_same s a (b :: bs) (i := 0) (Nat.succ_pos _)
    rw [List.length_cons, State.rdB, hhead]
    exact congrArg _ (ih { s with mem := memSet s.mem a b } (a + 1))

/-- Bytes that read as before. -/
theorem State.rdB_congr {s t : State} {a n : Nat} (h : ∀ b, a ≤ b → b < a + n → t.rd8 b = s.rd8 b) : t.rdB a n = s.rdB a n := by
  induction n generalizing a with
  | zero => rfl
  | succ n ih => rw [State.rdB, State.rdB, h a (Nat.le_refl a) (by omega), ih fun b h1 h2 => h b (by omega) (by omega)]

theorem State.rd_congr {s t : State} {a n : Nat} (h : ∀ b, a ≤ b → b < a + n → t.rd8 b = s.rd8 b) : t.rd a n = s.rd a n :=
  congrArg leNat (State.rdB_congr h)

theorem State.rd_of_mem {s t : State} (h : t.mem = s.mem) (a n : Nat) : t.rd a n = s.rd a n := congrArg leNat (State.rdB_of_mem h a n)

theorem State.rd_lt (s : State) (a n : Nat) : s.rd a n < 256 ^ n := by
  have h := leNat_lt (s.rdB a n)
  rwa [length_rdB] at h

/-- A write outside a byte leaves it alone. -/
theorem State.rd8_wr_other (s : State) {a n b : Nat} (v : Nat) (h : b < a ∨ a + n ≤ b) : (s.wr a n v).rd8 b = s.rd8 b :=
  s.wrB_rd8_other a _ (by rwa [length_natLe])

theorem State.rd_wr_same (s : State) (a n v : Nat) : (s.wr a n v).rd a n = v % 256 ^ n := by
  have h := s.rdB_wrB_same a (natLe n v)
  rw [length_natLe] at h
  rw [State.rd, State.wr, h, leNat_natLe]

/-- A write beside a field leaves it alone. -/
theorem State.rd_wr_other (s : State) {a n b m : Nat} (v : Nat) (h : a + n ≤ b ∨ b + m ≤ a) : (s.wr b m v).rd a n = s.rd a n :=
  State.rd_congr fun i h1 h2 => s.rd8_wr_other v (by omega)

theorem State.rd_wrB_other (s : State) {a n b : Nat} (bs : List Byte) (h : a + n ≤ b ∨ b + bs.length ≤ a) : (s.wrB b bs).rd a n = s.rd a n :=
  State.rd_congr fun i h1 h2 => s.wrB_rd8_other b bs (by omega)

theorem State.wr_sameMemBut (s : State) (a n v : Nat) : SameMemBut s (s.wr a n v) a n := fun _ h => s.rd8_wr_other v h

/-! A CAN channel. -/

@[simp] theorem State.can_setCan_same (s : State) (n : Nat) (c : Can) : (s.setCan n c).can n = c := SMap.get_set_same ..

theorem State.can_setCan_other (s : State) {n k : Nat} (c : Can) (h : k ≠ n) : (s.setCan n c).can k = s.can k := SMap.get_set_other _ _ _ _ h

@[simp] theorem State.can_bump (s : State) (a n : Nat) : (s.bump a).can n = s.can n := rfl
@[simp] theorem State.can_add64 (s : State) (a k n : Nat) : (s.add64 a k).can n = s.can n := rfl
@[simp] theorem State.can_wr (s : State) (a k v n : Nat) : (s.wr a k v).can n = s.can n := rfl
@[simp] theorem State.can_draw (s : State) (n : Nat) : s.draw.2.can n = s.can n := rfl
@[simp] theorem can_settle (s t : State) (n : Nat) : (settle s t).can n = t.can n := rfl
@[simp] theorem State.c32_setCan (s : State) (n : Nat) (c : Can) (a : Nat) : (s.setCan n c).c32 a = s.c32 a := rfl
@[simp] theorem State.c64_setCan (s : State) (n : Nat) (c : Can) (a : Nat) : (s.setCan n c).c64 a = s.c64 a := rfl
@[simp] theorem State.c32_wr (s : State) (b k v a : Nat) : (s.wr b k v).c32 a = s.c32 a := rfl
@[simp] theorem State.c64_wr (s : State) (b k v a : Nat) : (s.wr b k v).c64 a = s.c64 a := rfl

@[simp] theorem canReg_inj (n a b : Nat) : canReg n a = canReg n b ↔ a = b := by
  unfold canReg
  omega

/-! A LIN channel. -/

@[simp] theorem State.lin_setLin_same (s : State) (m : Nat) (l : Lin) : (s.setLin m l).lin m = l := SMap.get_set_same ..

theorem State.lin_setLin_other (s : State) {m k : Nat} (l : Lin) (h : k ≠ m) : (s.setLin m l).lin k = s.lin k := SMap.get_set_other _ _ _ _ h

@[simp] theorem State.lin_bump (s : State) (a m : Nat) : (s.bump a).lin m = s.lin m := rfl
@[simp] theorem State.lin_add64 (s : State) (a k m : Nat) : (s.add64 a k).lin m = s.lin m := rfl
@[simp] theorem State.lin_wr (s : State) (a k v m : Nat) : (s.wr a k v).lin m = s.lin m := rfl
@[simp] theorem lin_settle (s t : State) (m : Nat) : (settle s t).lin m = t.lin m := rfl
@[simp] theorem State.c32_setLin (s : State) (m : Nat) (l : Lin) (a : Nat) : (s.setLin m l).c32 a = s.c32 a := rfl
@[simp] theorem State.c64_setLin (s : State) (m : Nat) (l : Lin) (a : Nat) : (s.setLin m l).c64 a = s.c64 a := rfl

@[simp] theorem linReg_inj (m a b : Nat) : linReg m a = linReg m b ↔ a = b := by
  unfold linReg
  omega

end Sys2Proof.Machine
end

