-- ==== Sys2Proof/Proofs/CanChannel.lean ====
section
/-! SUPPORT. What the operations of a CAN channel leave of the device and what they change: interrupt flags, error state, and the entries
that leave the channel (O26, O27, O28). -/

namespace Sys2Proof.Machine

/-! What a channel leaves of the device. -/

/-- A change of channel `n`, of memory and of counters. -/
structure CanOnly (n : Nat) (s t : State) : Prop where
  rest : ∃ m b c d f, t = { s with mem := m, bus.can := b, cnt32 := c, cnt64 := d, fresh := f }
  others : ∀ k, k ≠ n → t.can k = s.can k

/-- Entries leave channel `n` one after the other. -/
def State.canLeftAll (s : State) (n outcome cnt : Nat) (l : List CanEntry) : State := l.foldl (fun s e => s.canLeft n e outcome cnt s.ts) s

namespace CanOnly
variable {n : Nat} {s t u : State}

theorem refl (s : State) : CanOnly n s s := ⟨⟨_, _, _, _, _, rfl⟩, fun _ _ => rfl⟩

theorem trans (h : CanOnly n s t) (k : CanOnly n t u) : CanOnly n s u := by
  obtain ⟨⟨_, _, _, _, _, rfl⟩, h⟩ := h
  obtain ⟨⟨_, _, _, _, _, rfl⟩, k⟩ := k
  exact ⟨⟨_, _, _, _, _, rfl⟩, fun i hi => (k i hi).trans (h i hi)⟩

theorem time (h : CanOnly n s t) : t.time = s.time := by obtain ⟨⟨_, _, _, _, _, rfl⟩, -⟩ := h; rfl
theorem pair (h : CanOnly n s t) : t.pair = s.pair := by obtain ⟨⟨_, _, _, _, _, rfl⟩, -⟩ := h; rfl
theorem ts (h : CanOnly n s t) : t.ts = s.ts := by rw [State.ts, h.time, State.ts]

theorem setCan (h : CanOnly n s t) (c : Can) : CanOnly n s (t.setCan n c) :=
  h.trans ⟨⟨_, _, _, _, _, rfl⟩, fun _ hk => t.can_setCan_other c hk⟩
theorem bump (h : CanOnly n s t) (a : Nat) : CanOnly n s (t.bump a) := h.trans ⟨⟨_, _, _, _, _, rfl⟩, fun _ _ => rfl⟩
theorem add64 (h : CanOnly n s t) (a k : Nat) : CanOnly n s (t.add64 a k) := h.trans ⟨⟨_, _, _, _, _, rfl⟩, fun _ _ => rfl⟩
theorem wr (h : CanOnly n s t) (a k v : Nat) : CanOnly n s (t.wr a k v) := h.trans ⟨⟨_, _, _, _, _, rfl⟩, fun _ _ => rfl⟩
theorem draw (h : CanOnly n s t) : CanOnly n s t.draw.2 := h.trans ⟨⟨_, _, _, _, _, rfl⟩, fun _ _ => rfl⟩
theorem canIrq (h : CanOnly n s t) (i : Nat) : CanOnly n s (t.canIrq n i) := h.setCan _
theorem canLatch (h : CanOnly n s t) : CanOnly n s (t.canLatch n) := h.setCan _
theorem canGap (h : CanOnly n s t) : CanOnly n s (t.canGap n) := h.setCan _

theorem canErr (h : CanOnly n s t) (c : Can) : CanOnly n s (t.canErr n c) := by
  have hset := h.setCan c
  unfold State.canErr
  dsimp only
  split <;> split
  · exact (hset.canIrq 4).bump _
  · exact hset.bump _
  · exact hset.canIrq 4
  · exact hset

theorem canLeft (h : CanOnly n s t) (e : CanEntry) (outcome cnt : Nat) (ts : Word) : CanOnly n s (t.canLeft n e outcome cnt ts) := by
  unfold State.canLeft
  dsimp only
  have hnoted : CanOnly n s (if e.src < 4 then
      ((t.wr (txsAddr n e.src + 24) 2 e.tag.toNat).wr (txsAddr n e.src + 26) 1 outcome).wr (txsAddr n e.src + 28) 4 ts.toNat else t) := by
    split
    · exact ((h.wr _ _ _).wr _ _ _).wr _ _ _
    · exact h
  split
  · exact hnoted.canIrq _
  · split
    · exact (hnoted.canIrq _).add64 _ _
    · exact (hnoted.canIrq _).bump _

theorem canLeftAll (h : CanOnly n s t) (outcome cnt : Nat) (l : List CanEntry) : CanOnly n s (t.canLeftAll n outcome cnt l) := by
  induction l generalizing t with
  | nil => exact h
  | cons e l ih => exact ih (h.canLeft e outcome cnt t.ts)

end CanOnly

/-! CAN_IRQ (R225). -/

/-- `d` is the channel `c` with more bits of CAN_IRQ set. -/
def Can.Raised (c d : Can) : Prop := ∃ i, d = { c with irq := i } ∧ ∀ j, c.irq.getLsbD j = true → i.getLsbD j = true

namespace Can.Raised
variable {c d e : Can} {j : Nat}

theorem refl (c : Can) : Raised c c := ⟨c.irq, rfl, fun _ h => h⟩

theorem trans (h : Raised c d) (k : Raised d e) : Raised c e := by
  obtain ⟨i, rfl, hi⟩ := h
  obtain ⟨j, rfl, hj⟩ := k
  exact ⟨j, rfl, fun k hk => hj k (hi k hk)⟩

theorem irq (h : Raised c d) (hj : c.irq.getLsbD j = true) : d.irq.getLsbD j = true := by
  obtain ⟨i, rfl, hi⟩ := h
  exact hi j hj

end Can.Raised

variable {s : State} {n : Nat}

theorem canIrq_raised (s : State) (n : Nat) {i : Nat} (hi : i < 8) : (s.can n).Raised ((s.canIrq n i).can n) := by
  refine ⟨_, State.can_setCan_same .., fun j hj => ?_⟩
  rw [getLsbD_setBit _ _ _ _ hi, hj, ite_self]

theorem canIrq_bit (s : State) (n : Nat) {i : Nat} (hi : i < 8) : ((s.canIrq n i).can n).irq.getLsbD i = true := by
  rw [State.canIrq, State.can_setCan_same]
  exact (getLsbD_setBit _ _ _ _ hi).trans (if_pos rfl)

@[simp] theorem State.c32_canIrq (s : State) (n i a : Nat) : (s.canIrq n i).c32 a = s.c32 a := rfl
@[simp] theorem State.c64_canIrq (s : State) (n i a : Nat) : (s.canIrq n i).c64 a = s.c64 a := rfl

/-! ERRSTATE (R221). -/

theorem canErr_raised (s : State) (n : Nat) (c : Can) : c.Raised ((s.canErr n c).can n) := by
  have hset : c.Raised ((s.setCan n c).can n) := by rw [State.can_setCan_same]; exact .refl c
  unfold State.canErr
  dsimp only
  split <;> split
  · exact hset.trans (canIrq_raised _ n (by decide))
  · exact hset
  · exact hset.trans (canIrq_raised _ n (by decide))
  · exact hset

theorem c32_canErr_other (s : State) (n : Nat) (c : Can) {a : Nat} (h : a ≠ canReg n 0x150) : (s.canErr n c).c32 a = s.c32 a := by
  unfold State.canErr
  dsimp only
  split <;> split <;> simp [State.c32_bump_other _ h]

@[simp] theorem c64_canErr (s : State) (n : Nat) (c : Can) (a : Nat) : (s.canErr n c).c64 a = s.c64 a := by
  unfold State.canErr
  dsimp only
  split <;> split <;> simp

/-! Entries that leave (R205, R218, R220). -/

section
variable (s n) (e : CanEntry) (outcome cnt : Nat) (ts : Word)

/-- The report of an entry in the staging buffer that it came from. -/
def State.canNoted : State :=
  if e.src < 4 then
    ((s.wr (txsAddr n e.src + 24) 2 e.tag.toNat).wr (txsAddr n e.src + 26) 1 outcome).wr (txsAddr n e.src + 28) 4 ts.toNat
  else s

theorem canLeft_eq : s.canLeft n e outcome cnt ts =
    if cnt = 0 then (s.canNoted n e outcome ts).canIrq n (if outcome = 1 then 2 else 3)
    else if outcome = 1 then ((s.canNoted n e outcome ts).canIrq n (if outcome = 1 then 2 else 3)).add64 (canReg n cnt) 1
    else ((s.canNoted n e outcome ts).canIrq n (if outcome = 1 then 2 else 3)).bump (canReg n cnt) := rfl

theorem canNoted_staged (h : e.src < 4) : s.canNoted n e outcome ts =
    ((s.wr (txsAddr n e.src + 24) 2 e.tag.toNat).wr (txsAddr n e.src + 26) 1 outcome).wr (txsAddr n e.src + 28) 4 ts.toNat := if_pos h

theorem canNoted_only_mem : ∃ m, s.canNoted n e outcome ts = { s with mem := m } := by
  unfold State.canNoted
  split
  · exact ⟨_, rfl⟩
  · exact ⟨s.mem, rfl⟩

theorem canLeft_mem : (s.canLeft n e outcome cnt ts).mem = (s.canNoted n e outcome ts).mem := by
  rw [canLeft_eq]
  split
  · simp
  · split <;> simp

theorem canLeft_can : (s.canLeft n e outcome cnt ts).can n = ((s.canNoted n e outcome ts).canIrq n (if outcome = 1 then 2 else 3)).can n := by
  rw [canLeft_eq]
  split
  · rfl
  · split <;> rfl

theorem canLeft_raised : (s.can n).Raised ((s.canLeft n e outcome cnt ts).can n) := by
  rw [canLeft_can]
  obtain ⟨m, hm⟩ := canNoted_only_mem s n e outcome ts
  rw [hm]
  exact canIrq_raised { s with mem := m } n (by split <;> decide)

/-- The report of an entry, as the staging buffer it came from and CAN_IRQ show it. -/
theorem canLeft_reported (ho : outcome < 256) : CanReported s (s.canLeft n e outcome cnt ts) n e outcome ts := by
  have htag := e.tag.isLt
  have hts := ts.isLt
  have hmem := canLeft_mem s n e outcome cnt ts
  refine ⟨fun hsrc => ?_, fun hsrc => ?_, ?_⟩
  · rw [canNoted_staged s n e outcome ts hsrc] at hmem
    refine ⟨?_, ?_, ?_, fun b hb => ?_⟩
    · rw [State.rd_of_mem hmem, State.rd_wr_other _ _ (by omega), State.rd_wr_other _ _ (by omega), State.rd_wr_same]
      exact Nat.mod_eq_of_lt htag
    · rw [State.rd_of_mem hmem, State.rd_wr_other _ _ (by omega), State.rd_wr_same]
      exact Nat.mod_eq_of_lt ho
    · rw [State.rd_of_mem hmem, State.rd_wr_same]
      exact Nat.mod_eq_of_lt hts
    · rw [State.rd8, hmem]
      exact (State.rd8_wr_other _ _ (by omega)).trans ((State.rd8_wr_other _ _ (by omega)).trans (State.rd8_wr_other _ _ (by omega)))
  · rw [State.canNoted, if_neg (by omega)] at hmem
    exact sameMem_of_mem hmem
  · rw [canLeft_can]
    exact canIrq_bit _ n (by split <;> decide)

theorem c32_canLeft_other {a : Nat} (h : a ≠ canReg n cnt) : (s.canLeft n e outcome cnt ts).c32 a = s.c32 a := by
  obtain ⟨m, hm⟩ := canNoted_only_mem s n e outcome ts
  rw [canLeft_eq, hm]
  split
  · rfl
  · split
    · rfl
    · exact State.c32_bump_other _ h

/-- The counter of a removal (R220). -/
theorem c32_canLeft_same (ho : outcome ≠ 1) (hc : cnt ≠ 0) :
    (s.canLeft n e outcome cnt ts).c32 (canReg n cnt) = satInc (s.c32 (canReg n cnt)) := by
  obtain ⟨m, hm⟩ := canNoted_only_mem s n e outcome ts
  rw [canLeft_eq, hm, if_neg hc, if_neg ho]
  exact State.c32_bump_same ..

/-- The counter of frames sent (R218). -/
theorem c64_canLeft_sent (hc : cnt ≠ 0) : (s.canLeft n e 1 cnt ts).c64 (canReg n cnt) = s.c64 (canReg n cnt) + 1 := by
  obtain ⟨m, hm⟩ := canNoted_only_mem s n e 1 ts
  rw [canLeft_eq, hm, if_neg hc, if_pos rfl]
  exact State.c64_add64_one ..

end

/-- The report of an entry stands in memory and in CAN_IRQ. -/
theorem CanReported.congr {t s' t' : State} {e : CanEntry} {outcome : Nat} {ts : Word} (h : CanReported s t n e outcome ts)
    (hs : s'.mem = s.mem) (ht : t'.mem = t.mem) (hirq : (t'.can n).irq = (t.can n).irq) : CanReported s' t' n e outcome ts := by
  obtain ⟨hsrc, hroute, hbit⟩ := h
  refine ⟨fun hlt => ?_, fun hle a => ?_, by rw [hirq]; exact hbit⟩
  · obtain ⟨htag, hout, hstamp, hrest⟩ := hsrc hlt
    refine ⟨(State.rd_of_mem ht ..).trans htag, (State.rd_of_mem ht ..).trans hout, (State.rd_of_mem ht ..).trans hstamp, fun b hb => ?_⟩
    rw [State.rd8, State.rd8, hs, ht]
    exact hrest b hb
  · rw [State.rd8, State.rd8, hs, ht]
    exact hroute hle a

theorem CanReported.settled {t : State} {e : CanEntry} {outcome : Nat} {ts : Word} {u : State} (h : CanReported s t n e outcome ts) :
    CanReported s (settle u t) n e outcome ts := h.congr rfl (settle_mem u t) (by rw [can_settle])

theorem canLeftAll_raised (s : State) (n outcome cnt : Nat) (l : List CanEntry) : (s.can n).Raised ((s.canLeftAll n outcome cnt l).can n) := by
  induction l generalizing s with
  | nil => exact .refl _
  | cons e l ih => exact (canLeft_raised s n e outcome cnt s.ts).trans (ih _)

theorem c32_canLeftAll_other (s : State) (n outcome cnt : Nat) (l : List CanEntry) {a : Nat} (h : a ≠ canReg n cnt) :
    (s.canLeftAll n outcome cnt l).c32 a = s.c32 a := by
  induction l generalizing s with
  | nil => rfl
  | cons e l ih => exact (ih _).trans (c32_canLeft_other s n e outcome cnt s.ts h)

/-- Each entry that leaves counts once; a counter stops at all ones (R57, R220). -/
theorem toNat_c32_canLeftAll (s : State) (n : Nat) {outcome cnt : Nat} (l : List CanEntry) (ho : outcome ≠ 1) (hc : cnt ≠ 0) :
    ((s.canLeftAll n outcome cnt l).c32 (canReg n cnt)).toNat = min 0xFFFFFFFF ((s.c32 (canReg n cnt)).toNat + l.length) := by
  induction l generalizing s with
  | nil =>
    have := (s.c32 (canReg n cnt)).isLt
    simp only [State.canLeftAll, List.foldl_nil, List.length_nil]
    omega
  | cons e l ih =>
    refine (ih (s.canLeft n e outcome cnt s.ts)).trans ?_
    rw [c32_canLeft_same s n e outcome cnt s.ts ho hc, toNat_satInc, List.length_cons]
    omega

/-! A flush (R205, R220, R222). -/

/-- What a flush leaves of a channel: the entry in the attempt, marked with an outcome. -/
def Can.flushed (c : Can) (outcome : Nat) : Can :=
  { c with prio := if c.attempt = some true then c.prio else none, queue := if c.attempt = some false then c.queue.take 1 else [],
           doomed := if c.attempt.isSome && c.doomed.isNone then some (BitVec.ofNat 3 outcome) else c.doomed }

/-- The entries that a flush removes. -/
def Can.leaving (c : Can) : List CanEntry :=
  (match c.prio with | some e => if c.attempt = some true then [] else [e] | none => []) ++
    c.queue.drop (if c.attempt = some false then c.queue.take 1 else []).length

theorem canFlush_eq (s : State) (n outcome : Nat) :
    s.canFlush n outcome = (s.setCan n ((s.can n).flushed outcome)).canLeftAll n outcome (outcomeCnt outcome) (s.can n).leaving := rfl

theorem CanOnly.canFlush {t : State} (h : CanOnly n s t) (outcome : Nat) : CanOnly n s (t.canFlush n outcome) := by
  rw [canFlush_eq]
  exact (h.setCan _).canLeftAll ..

theorem canFlush_raised (s : State) (n outcome : Nat) : ((s.can n).flushed outcome).Raised ((s.canFlush n outcome).can n) := by
  have h := canLeftAll_raised (s.setCan n ((s.can n).flushed outcome)) n outcome (outcomeCnt outcome) (s.can n).leaving
  rwa [State.can_setCan_same] at h

theorem c32_canFlush_other (s : State) (n outcome : Nat) {a : Nat} (h : a ≠ canReg n (outcomeCnt outcome)) :
    (s.canFlush n outcome).c32 a = s.c32 a := by
  rw [canFlush_eq]
  exact c32_canLeftAll_other _ n _ _ _ h

/-- Outside an attempt every entry leaves. -/
theorem flushed_idle {c : Can} (h : c.attempt = none) (outcome : Nat) : c.flushed outcome = { c with prio := none, queue := [] } := by
  simp [Can.flushed, h]

theorem leaving_idle {c : Can} (h : c.attempt = none) : c.leaving = c.entries := by
  cases hp : c.prio <;> simp [Can.leaving, Can.entries, h, hp]

/-- A flush outside an attempt counts every entry that waited. -/
theorem toNat_c32_canFlush (h : (s.can n).attempt = none) :
    ((s.canFlush n 4).c32 (canReg n 0x148)).toNat = min 0xFFFFFFFF ((s.c32 (canReg n 0x148)).toNat + (s.can n).entries.length) := by
  rw [canFlush_eq, leaving_idle h]
  exact toNat_c32_canLeftAll _ n _ (by decide) (by decide)

/-- The candidate of an attempt stays through a flush. -/
theorem flushed_candidate {c : Can} {fp : Bool} {e : CanEntry} (ha : c.attempt = some fp) (hc : c.candidate = some (fp, e)) (outcome : Nat) :
    (c.flushed outcome).candidate = some (fp, e) := by
  cases hp : c.prio with
  | some x =>
    obtain ⟨rfl, rfl⟩ : true = fp ∧ x = e := by simpa [Can.candidate, hp] using hc
    simp [Can.flushed, Can.candidate, ha, hp]
  | none =>
    cases hq : c.queue with
    | nil => simp [Can.candidate, hp, hq] at hc
    | cons x q =>
      obtain ⟨rfl, rfl⟩ : false = fp ∧ x = e := by simpa [Can.candidate, hp, hq] using hc
      simp [Can.flushed, Can.candidate, ha, hq]

/-! The end of an attempt (R218). -/

/-- The entry in the attempt stands in its place. -/
def Can.Attempting (c : Can) (fp : Bool) (e : CanEntry) : Prop :=
  c.attempt = some fp ∧ if fp then c.prio = some e else ∃ q, c.queue = e :: q

/-- The channel after the entry in the attempt has left. -/
def Can.afterAttempt (c : Can) (fp : Bool) : Can :=
  { c with prio := if fp then none else c.prio, queue := if fp then c.queue else c.queue.drop 1, attempt := none, doomed := none }

theorem takeAttempt_of_attempting {c : Can} {fp : Bool} {e : CanEntry} (h : c.Attempting fp e) : c.takeAttempt = (some e, c.afterAttempt fp) := by
  obtain ⟨ha, hp⟩ := h
  cases fp with
  | true =>
    have hp : c.prio = some e := hp
    simp [Can.takeAttempt, Can.afterAttempt, ha, hp]
  | false =>
    obtain ⟨q, hq⟩ : ∃ q, c.queue = e :: q := hp
    simp [Can.takeAttempt, Can.afterAttempt, ha, hq]

/-- Taking the entry in the attempt ends the attempt. -/
theorem takeAttempt_channel (c : Can) : ∃ p q d, c.takeAttempt.2 = { c with prio := p, queue := q, attempt := none, doomed := d } := by
  unfold Can.takeAttempt
  split
  · exact ⟨none, c.queue, none, rfl⟩
  · exact ⟨c.prio, c.queue.drop 1, none, rfl⟩
  · next ha => exact ⟨c.prio, c.queue, c.doomed, by rw [← ha]⟩

/-- An attempt that fails: the entry stays, was not there, or leaves and is reported. -/
theorem canFailed_cases (s : State) (n : Nat) :
    s.canFailed n = s.setCan n { s.can n with attempt := none } ∨
    s.canFailed n = s.setCan n (s.can n).takeAttempt.2 ∨
    ∃ e o k, (k = 0 ∨ k = 0x108 ∨ k = 0x144 ∨ k = 0x148) ∧ s.canFailed n = (s.setCan n (s.can n).takeAttempt.2).canLeft n e o k s.ts := by
  unfold State.canFailed
  dsimp only
  split
  · next o k hleave =>
    have hk : k = 0 ∨ k = 0x108 ∨ k = 0x144 ∨ k = 0x148 := by
      split at hleave
      · next d _ =>
        obtain ⟨-, rfl⟩ := Prod.mk.inj (Option.some.inj hleave)
        unfold outcomeCnt
        split
        · exact .inr (.inl rfl)
        · split
          · exact .inr (.inr (.inl rfl))
          · exact .inr (.inr (.inr rfl))
      · split at hleave
        · obtain ⟨-, rfl⟩ := Prod.mk.inj (Option.some.inj hleave)
          exact .inl rfl
        · exact absurd hleave (by simp)
    split
    · next e c htake => exact .inr (.inr ⟨e, o, k, hk, by rw [htake]⟩)
    · next c htake => exact .inr (.inl (by rw [htake]))
  · exact .inl rfl

/-- An attempt that fails is over. -/
theorem canFailed_over (s : State) (n : Nat) :
    ∃ p q d, ({ s.can n with prio := p, queue := q, attempt := none, doomed := d } : Can).Raised ((s.canFailed n).can n) := by
  obtain ⟨p, q, d, htake⟩ := takeAttempt_channel (s.can n)
  obtain h | h | ⟨e, o, k, -, h⟩ := canFailed_cases s n
  · exact ⟨(s.can n).prio, (s.can n).queue, (s.can n).doomed, by rw [h, State.can_setCan_same]; exact .refl _⟩
  · exact ⟨p, q, d, by rw [h, htake, State.can_setCan_same]; exact .refl _⟩
  · refine ⟨p, q, d, ?_⟩
    have hr := canLeft_raised (s.setCan n (s.can n).takeAttempt.2) n e o k s.ts
    rwa [← h, State.can_setCan_same, htake] at hr

theorem CanOnly.canFailed {t : State} (h : CanOnly n s t) : CanOnly n s (t.canFailed n) := by
  obtain hf | hf | ⟨e, o, k, -, hf⟩ := canFailed_cases t n <;> rw [hf]
  · exact h.setCan _
  · exact h.setCan _
  · exact (h.setCan _).canLeft ..

theorem c32_canFailed_other (s : State) (n : Nat) {a : Nat} (h0 : a ≠ canReg n 0) (h1 : a ≠ canReg n 0x108) (h2 : a ≠ canReg n 0x144)
    (h3 : a ≠ canReg n 0x148) : (s.canFailed n).c32 a = s.c32 a := by
  obtain hf | hf | ⟨e, o, k, hk, hf⟩ := canFailed_cases s n
  · rw [hf, State.c32_setCan]
  · rw [hf, State.c32_setCan]
  · rw [hf, c32_canLeft_other _ n e o k s.ts (by rcases hk with rfl | rfl | rfl | rfl <;> assumption), State.c32_setCan]

/-- Outside single-shot mode an entry that is not marked stays (R218). -/
theorem canFailed_kept (hd : (s.can n).doomed = none) (ho : (s.can n).opts.getLsbD 6 = false) :
    s.canFailed n = s.setCan n { s.can n with attempt := none } := by
  simp only [State.canFailed, hd, ho, Bool.false_eq_true, if_false]

/-- In single-shot mode the entry leaves with OUTCOME 3 (R218). -/
theorem canFailed_single {fp : Bool} {e : CanEntry} (h : (s.can n).Attempting fp e) (hd : (s.can n).doomed = none)
    (ho : (s.can n).opts.getLsbD 6 = true) : s.canFailed n = (s.setCan n ((s.can n).afterAttempt fp)).canLeft n e 3 0 s.ts := by
  simp only [State.canFailed, hd, ho, if_true, takeAttempt_of_attempting h]

end Sys2Proof.Machine
end

