-- ==== Sys2Proof/Proofs/CanTransmission.lean ====
section
/-! SUPPORT. A push and its verdict, an attempt, its end, and what aborts, flushes and expiries remove (O26). -/

namespace Sys2Proof.Machine

variable {s : State} {n : Nat}

/-- An index of a channel is the one its number names. -/
theorem fin_ofNat_val {k : Nat} [NeZero k] (i : Fin k) : Fin.ofNat k i.val = i := Fin.ext (Nat.mod_eq_of_lt i.isLt)

/-! TX_PUSH (R216). -/

section
variable {b : Nat} {prio : Bool}

/-- The entry that a staging buffer holds. -/
def State.stagedEntry (s : State) (n b : Nat) : CanEntry :=
  let w := s.rd (txsAddr n b) 18
  { msg := s.stagedMsg n b, src := b, tag := BitVec.ofNat 16 (bits w 63 48), lifetime := bits w 143 128, tick := s.tick,
    long := if bit w 47 then some (Fin.ofNat 4 (bits w 82 81)) else none }

/-- The long area that a staging buffer names is referenced. -/
def State.stagedBusy (s : State) (n b : Nat) : Bool :=
  let w := s.rd (txsAddr n b) 18
  bit w 47 && (s.can n).longBusy (bits w 82 81)

/-- The place that a push is for is taken. -/
def Can.full (c : Can) (prio : Bool) : Bool := if prio then c.prio.isSome else decide (c.queue.length ≥ 32)

theorem txPush_eq (hl : s.live = true) : txPush n b prio s =
    if (s.can n).mode = 0 || (s.can n).mode = 3 then s.pushRefused n b 7
    else if s.stagedBad n b then s.pushRefused n b 4
    else if s.stagedBusy n b then s.pushRefused n b 6
    else if (s.can n).full prio then (s.bump (canReg n 0x140)).pushRefused n b 3
    else (s.pushResult n b 0).postKey (.push (Fin.ofNat 32 n) (Fin.ofNat 4 b) prio (s.stagedEntry n b))
      (canKey n true none (s.stagedMsg n b)) (s.stagedMsg n b).data := by
  unfold txPush
  rw [hl]
  rfl

/-- A push stops at the first check that refuses it; one that passes them all goes to the screen. -/
theorem txPush_cases (hl : s.live = true) :
    ((s.can n).mode = 0 ∨ (s.can n).mode = 3 → txPush n b prio s = s.pushRefused n b 7) ∧
    (¬ ((s.can n).mode = 0 ∨ (s.can n).mode = 3) → s.stagedBad n b = true → txPush n b prio s = s.pushRefused n b 4) ∧
    (¬ ((s.can n).mode = 0 ∨ (s.can n).mode = 3) → s.stagedBad n b = false → s.stagedBusy n b = true →
      txPush n b prio s = s.pushRefused n b 6) ∧
    (¬ ((s.can n).mode = 0 ∨ (s.can n).mode = 3) → s.stagedBad n b = false → s.stagedBusy n b = false → (s.can n).full prio = true →
      txPush n b prio s = (s.bump (canReg n 0x140)).pushRefused n b 3) ∧
    (¬ ((s.can n).mode = 0 ∨ (s.can n).mode = 3) → s.stagedBad n b = false → s.stagedBusy n b = false → (s.can n).full prio = false →
      txPush n b prio s = (s.pushResult n b 0).postKey (.push (Fin.ofNat 32 n) (Fin.ofNat 4 b) prio (s.stagedEntry n b))
        (canKey n true none (s.stagedMsg n b)) (s.stagedMsg n b).data) := by
  rw [txPush_eq hl]
  simp only [← Bool.decide_or, decide_eq_true_eq]
  refine ⟨fun h => if_pos h, fun h h1 => ?_, fun h h1 h2 => ?_, fun h h1 h2 h3 => ?_, fun h h1 h2 h3 => ?_⟩ <;> rw [if_neg h]
  · rw [if_pos h1]
  · rw [if_neg (by simp [h1]), if_pos h2]
  · rw [if_neg (by simp [h1]), if_neg (by simp [h2]), if_pos h3]
  · rw [if_neg (by simp [h1]), if_neg (by simp [h2]), if_neg (by simp [h3])]

/-- A place that is taken takes no entry, and one that is free takes it (R217). -/
theorem canPut_full {e : CanEntry} (h : (s.can n).full prio = true) : s.canPut n e prio = none := by
  cases prio with
  | true => exact if_pos h
  | false =>
    have hlen : (s.can n).queue.length ≥ 32 := of_decide_eq_true h
    exact if_pos hlen

theorem canPut_free {e : CanEntry} (h : (s.can n).full prio = false) : s.canPut n e prio =
    some (s.setCan n (if prio then { s.can n with prio := some e } else { s.can n with queue := (s.can n).queue ++ [e] })) := by
  cases prio with
  | true =>
    have hnone : ¬ (s.can n).prio.isSome = true := by simpa [Can.full] using h
    exact if_neg hnone
  | false =>
    have hlen : ¬ (s.can n).queue.length ≥ 32 := of_decide_eq_false h
    exact if_neg hlen

variable {e : CanEntry}

theorem pushJudged_refused : s.pushJudged n b prio e false = (s.bump (canReg n 0x13C)).pushRefused n b 5 := rfl

theorem pushJudged_full (h0 : (s.can n).mode ≠ 0) (h3 : (s.can n).mode ≠ 3) (h : (s.can n).full prio = true) :
    s.pushJudged n b prio e true = (s.bump (canReg n 0x140)).pushRefused n b 3 := by
  simp [State.pushJudged, h0, h3, canPut_full h]

theorem pushJudged_taken (h0 : (s.can n).mode ≠ 0) (h3 : (s.can n).mode ≠ 3) (h : (s.can n).full prio = false) :
    s.pushJudged n b prio e true =
      (s.setCan n (if prio then { s.can n with prio := some e } else { s.can n with queue := (s.can n).queue ++ [e] })).pushResult n b
        (if prio then 2 else 1) := by
  simp [State.pushJudged, h0, h3, canPut_free h]

/-- A push that the screen passes is copied whole, if mode and room still stand. -/
theorem pushJudged_taken_fields (h0 : (s.can n).mode ≠ 0) (h3 : (s.can n).mode ≠ 3) (h : (s.can n).full prio = false) :
    (s.pushJudged n b prio e true).can n =
      (if prio then { s.can n with prio := some e } else { s.can n with queue := (s.can n).queue ++ [e] }) ∧
    (s.pushJudged n b prio e true).rd (txsAddr n b + 20) 1 = (if prio then 2 else 1) ∧
    SameMemBut s (s.pushJudged n b prio e true) (txsAddr n b + 20) 1 ∧
    ∀ k, k ≠ n → (s.pushJudged n b prio e true).can k = s.can k := by
  rw [pushJudged_taken h0 h3 h]
  refine ⟨State.can_setCan_same .., ?_, fun a ha => State.rd8_wr_other _ _ ha, fun k hk => s.can_setCan_other _ hk⟩
  rw [State.pushResult, State.rd_wr_same]
  cases prio <;> rfl

end

/-! CAN_TX_START (R218). -/

section
variable {fp : Bool} {e : CanEntry}

/-- The message that an entry sends: data of a long area is read as it is sent. -/
def State.canSends (s : State) (n : Nat) (e : CanEntry) : CanMsg :=
  let m := match e.long with
    | some j => { e.msg with data := s.rdB (canTxLong n j.val) e.msg.data.length }
    | none => e.msg
  { m with esi := decide ((s.can n).errState = 1) && m.fdf }

theorem canSends_id (s : State) (n : Nat) (e : CanEntry) : (s.canSends n e).id = e.msg.id := by
  unfold State.canSends
  cases e.long <;> rfl

theorem canSends_length (s : State) (n : Nat) (e : CanEntry) : (s.canSends n e).data.length = e.msg.data.length := by
  unfold State.canSends
  cases e.long with
  | none => rfl
  | some j => exact length_rdB ..

theorem canSends_short (h : e.long = none) : (s.canSends n e).data = e.msg.data := by
  unfold State.canSends
  rw [h]

theorem canTxStart_blocked (h : s.canMayStart n = false) : canTxStart n s = s := by
  unfold canTxStart
  rw [h]
  rfl

theorem canTxStart_started (h : s.canMayStart n = true) (hc : (s.can n).candidate = some (fp, e)) : canTxStart n s =
    s.setCan n { s.can n with attempt := some fp, sof := s.ts, pstate := 4, ended := false, lastTx := some (s.canSends n e) } := by
  unfold canTxStart
  rw [if_pos h, hc]
  rfl

theorem canMode_normal (h : (s.can n).mode = 1) (hs : s.secondary = false) (hh : (s.can n).hold = false) : s.canMode n = 1 := by
  simp [State.canMode, h, hs, hh]

theorem canMayStart_normal (hl : s.live = true) (hnm : s.nm.state ≠ .commit) (hmode : s.canMode n = 1) (hp : s.param (0x0800 + n) = 1)
    (hidle : s.canIdle n = true) (hbo : (s.can n).busOff = false) (hat : (s.can n).startAt ≤ s.time.cycle) : s.canMayStart n = true := by
  simp [State.canMayStart, hl, hnm, hmode, hp, hidle, hbo, State.now, hat]

theorem canMayStart_conditions (h : s.canMayStart n = true) : (s.can n).mode = 1 ∧ (s.can n).hold = false ∧ s.param (0x0800 + n) = 1 ∧
    (s.can n).busOff = false ∧ (s.can n).pstate = 2 ∧ (s.can n).busyTo ≤ s.time.cycle ∧ (s.can n).startAt ≤ s.time.cycle := by
  simp only [State.canMayStart, State.canIdle, State.now, Bool.and_eq_true, decide_eq_true_eq, Bool.not_eq_true'] at h
  obtain ⟨⟨⟨⟨⟨⟨-, hmode⟩, hp⟩, ⟨⟨hpst, -⟩, hbusy⟩⟩, hbo⟩, hat⟩, -⟩ := h
  have hm : (s.can n).mode = 1 ∧ (s.can n).hold = false := by
    unfold State.canMode at hmode
    dsimp only at hmode
    split at hmode
    · omega
    · next hn =>
      refine ⟨Fin.ext hmode, ?_⟩
      simp [hmode] at hn
      exact hn.2
  exact ⟨hm.1, hm.2, hp, hbo, hpst, of_decide_eq_true hbusy, of_decide_eq_true hat⟩

end

/-! The candidate of an attempt (R218). -/

theorem candidate_prio {c : Can} {e : CanEntry} (h : c.prio = some e) : c.candidate = some (true, e) := by
  simp [Can.candidate, h]

theorem candidate_head {c : Can} {e : CanEntry} {q : List CanEntry} (h : c.prio = none) (hq : c.queue = e :: q) :
    c.candidate = some (false, e) := by
  simp [Can.candidate, h, hq]

/-! CAN_TX_END (R218). -/

section
variable {fp : Bool} {e : CanEntry} {r : CanTxResult} {d : Option Nat}

/-- The last message that a channel began to send is an FD or XL frame. -/
def Can.sentFd (c : Can) : Bool := match c.lastTx with | some m => m.fdf | none => false

/-- TDCV after an attempt that ends: the transmitter delay, if one was measured (R208). -/
def Can.measured (c : Can) (d : Option Nat) : Byte :=
  match d with
  | some x => if c.opts.getLsbD 3 && c.sentFd then BitVec.ofNat 8 (min 255 x) else c.tdcv
  | none => c.tdcv

theorem measured_fd {c : Can} {x : Nat} {m : CanMsg} (ho : c.opts.getLsbD 3 = true) (hm : c.lastTx = some m) (hf : m.fdf = true) :
    c.measured (some x) = BitVec.ofNat 8 (min 255 x) := by
  have hfd : c.sentFd = true := by simp [Can.sentFd, hm, hf]
  exact if_pos (by rw [ho, hfd]; rfl)

/-- The end of an attempt, once TDCV stands. -/
def State.canOver (s : State) (n : Nat) : CanTxResult → State
  | .sent =>
    match (s.can n).takeAttempt with
    | (some e, c) => ((s.canErr n { c with tec := c.tec - 1 }).canLeft n e 1 0x108 c.sof).canGap n
    | (none, c) => s.setCan n c
  | .lostArbitration =>
    let s := (s.bump (canReg n 0x128)).canFailed n
    s.setCan n { s.can n with pstate := 3 }
  | .error => (s.canFailed n).canGap n

/-- CAN_TX_END of a channel whose TDCV stands. -/
def State.canEnds (s : State) (n : Nat) (r : CanTxResult) (c : Can) : State :=
  if s.live && c.ended then s.setCan n { c with ended := false }
  else if s.live && c.attempt.isSome then (s.setCan n { c with pstate := 2 }).canOver n r
  else s

theorem canTxEnd_eq : canTxEnd n r d s = s.canEnds n r { s.can n with tdcv := (s.can n).measured d } := by
  cases d with
  | none => cases r <;> rfl
  | some x =>
    have hc : (if (s.can n).opts.getLsbD 3 && (s.can n).sentFd then { s.can n with tdcv := BitVec.ofNat 8 (min 255 x) } else s.can n) =
        { s.can n with tdcv := (s.can n).measured (some x) } := by
      unfold Can.measured
      dsimp only
      split <;> rfl
    rw [← hc]
    cases r <;> rfl

/-- An attempt that bus-off has ended leaves only its delay to report. -/
theorem canTxEnd_ended (hl : s.live = true) (h : (s.can n).ended = true) :
    canTxEnd n r d s = s.setCan n { s.can n with ended := false, tdcv := (s.can n).measured d } := by
  rw [canTxEnd_eq]
  exact if_pos (by rw [hl, h]; rfl)

/-- The channel as an attempt of its own ends. -/
def Can.atEnd (c : Can) (d : Option Nat) : Can := { c with tdcv := c.measured d, pstate := 2 }

theorem canTxEnd_attempt (hl : s.live = true) (ha : (s.can n).attempt = some fp) (he : (s.can n).ended = false) :
    canTxEnd n r d s = (s.setCan n ((s.can n).atEnd d)).canOver n r := by
  have hlive : ¬ (s.live && (s.can n).ended) = true := by simp [he]
  have hin : (s.live && (s.can n).attempt.isSome) = true := by simp [hl, ha]
  exact canTxEnd_eq.trans ((if_neg hlive).trans (if_pos hin))

/-- The attempt of a frame that is sent has ended, and `c` is the channel without its entry. -/
def State.canSent (s : State) (n : Nat) (e : CanEntry) (c : Can) : State := ((s.canErr n c).canLeft n e 1 0x108 c.sof).canGap n

theorem canTxEnd_sent (hl : s.live = true) (ha : (s.can n).Attempting fp e) (he : (s.can n).ended = false) :
    canTxEnd n .sent d s = (s.setCan n ((s.can n).atEnd d)).canSent n e { ((s.can n).atEnd d).afterAttempt fp with tec := (s.can n).tec - 1 } := by
  have ha' : ((s.can n).atEnd d).Attempting fp e := ha
  rw [canTxEnd_attempt hl ha.1 he]
  unfold State.canOver
  rw [State.can_setCan_same, takeAttempt_of_attempting ha']
  rfl

theorem canGap_can (s : State) (n : Nat) : ∃ w, (s.canGap n).can n = { s.can n with
    busyTo := s.time.cycle + s.canBits n 3, ours := true, startAt := w } := ⟨_, State.can_setCan_same ..⟩

/-- A frame that is sent is reported and counted, and intermission follows it. -/
theorem canSent_fields (s : State) {n : Nat} (e : CanEntry) {c : Can} (hn : c.nominal = (s.can n).nominal) :
    CanReported s (s.canSent n e c) n e 1 c.sof ∧ (s.canSent n e c).c64 (canReg n 0x108) = s.c64 (canReg n 0x108) + 1 ∧
    ∃ i w, (s.canSent n e c).can n = { c with irq := i, busyTo := s.time.cycle + s.canBits n 3, ours := true, startAt := w } := by
  unfold State.canSent
  have htime := ((CanOnly.refl s).canErr c).canLeft (n := n) e 1 0x108 c.sof |>.time
  have hrep := canLeft_reported (s.canErr n c) n e 1 0x108 c.sof (by decide)
  have hcount := c64_canLeft_sent (s.canErr n c) n e 0x108 c.sof (by decide)
  obtain ⟨i, hi, -⟩ := (canErr_raised s n c).trans (canLeft_raised (s.canErr n c) n e 1 0x108 c.sof)
  generalize (s.canErr n c).canLeft n e 1 0x108 c.sof = t at htime hrep hcount hi ⊢
  obtain ⟨w, hw⟩ := canGap_can t n
  have hbits : t.canBits n 3 = s.canBits n 3 := by rw [State.canBits, hi, State.canBits, ← hn]
  refine ⟨hrep.congr (s.canErr_mem n c).symm (State.canGap_mem t n) (by rw [hw]), hcount.trans (by rw [c64_canErr]), i, w, ?_⟩
  rw [hw, hi, hbits, htime]

/-- CAN_TX_END concerns its own channel. -/
theorem canTxEnd_only (hl : s.live = true) (ha : (s.can n).Attempting fp e) (he : (s.can n).ended = false) :
    CanOnly n s (canTxEnd n .sent d s) := by
  rw [canTxEnd_sent hl ha he]
  exact ((((CanOnly.refl s).setCan _).canErr _).canLeft ..).canGap

/-- A frame that is sent leaves with OUTCOME 1 and lowers TEC by one. -/
theorem canTxEnd_sent_fields (hl : s.live = true) (ha : (s.can n).Attempting fp e) (he : (s.can n).ended = false) :
    CanReported s (canTxEnd n .sent d s) n e 1 (s.can n).sof ∧
    (canTxEnd n .sent d s).c64 (canReg n 0x108) = s.c64 (canReg n 0x108) + 1 ∧
    ∃ i v w, (canTxEnd n .sent d s).can n = { (s.can n).afterAttempt fp with
      irq := i, tdcv := v, pstate := 2, tec := (s.can n).tec - 1, busyTo := s.time.cycle + s.canBits n 3, ours := true, startAt := w } := by
  rw [canTxEnd_sent hl ha he]
  obtain ⟨hrep, hcount, i, w, hi⟩ := canSent_fields (s.setCan n ((s.can n).atEnd d)) (n := n) e
    (c := { ((s.can n).atEnd d).afterAttempt fp with tec := (s.can n).tec - 1 }) (by rw [State.can_setCan_same]; rfl)
  have hbits : (s.setCan n ((s.can n).atEnd d)).canBits n 3 = s.canBits n 3 := by rw [State.canBits, State.can_setCan_same]; rfl
  refine ⟨hrep.congr rfl rfl rfl, hcount, i, (s.can n).measured d, w, ?_⟩
  rw [hi, hbits]
  rfl

/-- An attempt that loses arbitration keeps its entry, outside single-shot mode; the channel receives on. -/
theorem canTxEnd_lost (hl : s.live = true) (ha : (s.can n).attempt = some fp) (he : (s.can n).ended = false)
    (hd : (s.can n).doomed = none) (ho : (s.can n).opts.getLsbD 6 = false) : canTxEnd n .lostArbitration d s =
      (((s.setCan n ((s.can n).atEnd d)).bump (canReg n 0x128)).setCan n { (s.can n).atEnd d with attempt := none }).setCan n
        { (s.can n).atEnd d with attempt := none, pstate := 3 } := by
  rw [canTxEnd_attempt hl ha he]
  unfold State.canOver
  dsimp only
  rw [canFailed_kept (by rwa [State.can_bump, State.can_setCan_same]) (by rwa [State.can_bump, State.can_setCan_same]), State.can_setCan_same,
    State.can_bump, State.can_setCan_same]

/-- In single-shot mode an attempt that fails takes its entry with it. -/
theorem canTxEnd_error (hl : s.live = true) (ha : (s.can n).Attempting fp e) (he : (s.can n).ended = false)
    (hd : (s.can n).doomed = none) (ho : (s.can n).opts.getLsbD 6 = true) : canTxEnd n .error d s =
      (((s.setCan n ((s.can n).atEnd d)).setCan n (((s.can n).atEnd d).afterAttempt fp)).canLeft n e 3 0 s.ts).canGap n := by
  have ha' : ((s.can n).atEnd d).Attempting fp e := ha
  rw [canTxEnd_attempt hl ha.1 he]
  unfold State.canOver
  dsimp only
  rw [canFailed_single (fp := fp) (e := e) (by rwa [State.can_setCan_same]) (by rwa [State.can_setCan_same])
    (by rwa [State.can_setCan_same]), State.can_setCan_same]
  rfl

theorem canTxEnd_error_fields (hl : s.live = true) (ha : (s.can n).Attempting fp e) (he : (s.can n).ended = false)
    (hd : (s.can n).doomed = none) (ho : (s.can n).opts.getLsbD 6 = true) :
    CanReported s (canTxEnd n .error d s) n e 3 s.ts ∧ ((canTxEnd n .error d s).can n).attempt = none ∧
    ((canTxEnd n .error d s).can n).queue = if fp then (s.can n).queue else (s.can n).queue.drop 1 := by
  rw [canTxEnd_error hl ha he hd ho]
  generalize hu : (s.setCan n ((s.can n).atEnd d)).setCan n (((s.can n).atEnd d).afterAttempt fp) = u
  have hcan : u.can n = ((s.can n).atEnd d).afterAttempt fp := by rw [← hu, State.can_setCan_same]
  obtain ⟨w, hw⟩ := canGap_can (u.canLeft n e 3 0 s.ts) n
  obtain ⟨i, hi, -⟩ := canLeft_raised u n e 3 0 s.ts
  refine ⟨(canLeft_reported u n e 3 0 s.ts (by decide)).congr (by simp [← hu]) (State.canGap_mem _ n) (by rw [hw]), ?_, ?_⟩
  · rw [hw, hi, hcan]
    rfl
  · rw [hw, hi, hcan]
    rfl

end

/-! ABORT_HEAD and ABORT_PRIO (R220). -/

section
variable {e : CanEntry} {q : List CanEntry}

theorem abortHead_removes (hl : s.live = true) (hq : (s.can n).queue = e :: q) (ha : (s.can n).attempt ≠ some false) :
    abortHead n s = (s.setCan n { s.can n with queue := q }).canLeft n e 3 0x148 s.ts := by
  simp only [abortHead, hl, Bool.not_true, Bool.false_eq_true, if_false, hq, if_neg ha]

theorem abortHead_marks (hl : s.live = true) (hq : (s.can n).queue = e :: q) (ha : (s.can n).attempt = some false)
    (hd : (s.can n).doomed = none) : abortHead n s = s.setCan n { s.can n with doomed := some 3 } := by
  unfold abortHead
  dsimp only
  rw [if_neg (by simp [hl])]
  split
  · rw [if_pos ha, if_pos (by simp [hd])]
  · next hnil => exact absurd (hq.symm.trans hnil) (by simp)

theorem abortHead_empty (hq : (s.can n).queue = []) : abortHead n s = s := by
  simp [abortHead, hq]

theorem abortPrio_removes (hl : s.live = true) (hp : (s.can n).prio = some e) (ha : (s.can n).attempt ≠ some true) :
    abortPrio n s = (s.setCan n { s.can n with prio := none }).canLeft n e 3 0x148 s.ts := by
  simp only [abortPrio, hl, Bool.not_true, Bool.false_eq_true, if_false, hp, if_neg ha]

theorem abortPrio_marks (hl : s.live = true) (hp : (s.can n).prio = some e) (ha : (s.can n).attempt = some true)
    (hd : (s.can n).doomed = none) : abortPrio n s = s.setCan n { s.can n with doomed := some 3 } := by
  unfold abortPrio
  dsimp only
  rw [if_neg (by simp [hl])]
  split
  · rw [if_pos ha, if_pos (by simp [hd])]
  · next hnone => exact absurd (hp.symm.trans hnone) (by simp)

theorem abortPrio_empty (hp : (s.can n).prio = none) : abortPrio n s = s := by
  simp [abortPrio, hp]

/-- An entry that is aborted leaves with OUTCOME 3 and counts. -/
theorem aborted_fields (s : State) (n : Nat) (e : CanEntry) (c : Can) :
    CanReported s ((s.setCan n c).canLeft n e 3 0x148 s.ts) n e 3 s.ts ∧
    ((s.setCan n c).canLeft n e 3 0x148 s.ts).c32 (canReg n 0x148) = satInc (s.c32 (canReg n 0x148)) ∧
    ∃ i, ((s.setCan n c).canLeft n e 3 0x148 s.ts).can n = { c with irq := i } := by
  obtain ⟨i, hi, -⟩ := canLeft_raised (s.setCan n c) n e 3 0x148 s.ts
  rw [State.can_setCan_same] at hi
  exact ⟨(canLeft_reported (s.setCan n c) n e 3 0x148 s.ts (by decide)).congr (by simp) rfl rfl,
    c32_canLeft_same _ n e 3 0x148 s.ts (by decide) (by decide), i, hi⟩

end

/-! FLUSH and CAN_LIFETIME_EXPIRY (R220). -/

theorem canFlushAll_eq (hl : s.live = true) : canFlushAll n s = s.canFlush n 4 := if_pos hl

/-- What an expiry leaves of a channel whose entries satisfying `x` have expired, and the entries that it removes: the one in the attempt
stays, marked. -/
def Can.lapsed (c : Can) (x : CanEntry → Bool) : Can × List CanEntry :=
  let slot := match c.prio with
    | some e => if x e then (if c.attempt = some true then ([], some e, x e && c.doomed.isNone) else ([e], none, false)) else ([], some e, false)
    | none => ([], none, false)
  let head := if c.attempt = some false then c.queue.take 1 else []
  let rest := c.queue.drop head.length
  let due := match head.head? with | some e => x e && c.doomed.isNone | none => false
  ({ c with prio := slot.2.1, queue := head ++ rest.filter (fun e => !x e), doomed := if slot.2.2 || due then some 2 else c.doomed },
    slot.1 ++ rest.filter x)

theorem canLifetimeExpiry_eq (hl : s.live = true) : canLifetimeExpiry n s =
    (s.setCan n ((s.can n).lapsed s.canExpired).1).canLeftAll n 2 0x144 ((s.can n).lapsed s.canExpired).2 := by
  have hlive : ¬ (!s.live) = true := by simp [hl]
  exact if_neg hlive

theorem lapsed_idle {c : Can} (h : c.attempt = none) (x : CanEntry → Bool) :
    c.lapsed x = ({ c with prio := c.prio.filter (fun e => !x e), queue := c.queue.filter (fun e => !x e) }, c.entries.filter x) := by
  cases hp : c.prio with
  | none => simp [Can.lapsed, Can.entries, h, hp]
  | some e => by_cases hx : x e = true <;> simp [Can.lapsed, Can.entries, h, hp, hx, Option.filter]

/-- The candidate of an attempt stays through an expiry. -/
theorem lapsed_candidate {c : Can} {fp : Bool} {e : CanEntry} (ha : c.attempt = some fp) (hc : c.candidate = some (fp, e)) (x : CanEntry → Bool) :
    (c.lapsed x).1.candidate = some (fp, e) := by
  cases hp : c.prio with
  | some y =>
    obtain ⟨rfl, rfl⟩ : true = fp ∧ y = e := by simpa [Can.candidate, hp] using hc
    by_cases hx : x y = true <;> simp [Can.lapsed, Can.candidate, ha, hp, hx]
  | none =>
    cases hq : c.queue with
    | nil => simp [Can.candidate, hp, hq] at hc
    | cons y q =>
      obtain ⟨rfl, rfl⟩ : false = fp ∧ y = e := by simpa [Can.candidate, hp, hq] using hc
      simp [Can.lapsed, Can.candidate, ha, hp, hq]

theorem lapsed_attempt (c : Can) (x : CanEntry → Bool) : (c.lapsed x).1.attempt = c.attempt := rfl

/-- A flush of a channel without an attempt removes and counts every entry. -/
theorem canFlushAll_idle (hl : s.live = true) (ha : (s.can n).attempt = none) :
    ((canFlushAll n s).can n).queue = [] ∧ ((canFlushAll n s).can n).prio = none ∧
    ((canFlushAll n s).c32 (canReg n 0x148)).toNat = min 0xFFFFFFFF ((s.c32 (canReg n 0x148)).toNat + (s.can n).entries.length) ∧
    ∀ k, k ≠ n → (canFlushAll n s).can k = s.can k := by
  rw [canFlushAll_eq hl]
  obtain ⟨i, hi, -⟩ := canFlush_raised s n 4
  rw [flushed_idle ha] at hi
  exact ⟨by rw [hi], by rw [hi], toNat_c32_canFlush ha, ((CanOnly.refl s).canFlush 4).others⟩

/-- An expiry on a channel without an attempt removes and counts what has expired. -/
theorem canLifetimeExpiry_idle (hl : s.live = true) (ha : (s.can n).attempt = none) :
    ((canLifetimeExpiry n s).can n).queue = (s.can n).queue.filter (fun e => !s.canExpired e) ∧
    ((canLifetimeExpiry n s).can n).prio = (s.can n).prio.filter (fun e => !s.canExpired e) ∧
    ((canLifetimeExpiry n s).c32 (canReg n 0x144)).toNat =
      min 0xFFFFFFFF ((s.c32 (canReg n 0x144)).toNat + ((s.can n).entries.filter s.canExpired).length) := by
  rw [canLifetimeExpiry_eq hl, lapsed_idle ha]
  generalize hc : ({ s.can n with prio := _, queue := _ } : Can) = c
  obtain ⟨i, hi, -⟩ := canLeftAll_raised (s.setCan n c) n 2 0x144 ((s.can n).entries.filter s.canExpired)
  rw [State.can_setCan_same] at hi
  exact ⟨by rw [hi, ← hc], by rw [hi, ← hc], toNat_c32_canLeftAll (s.setCan n c) n _ (by decide) (by decide)⟩

/-- An entry in the attempt stays through a flush and through an expiry. -/
theorem attempt_stays {fp : Bool} {e : CanEntry} (hl : s.live = true) (ha : (s.can n).attempt = some fp)
    (hc : (s.can n).candidate = some (fp, e)) :
    ((canFlushAll n s).can n).attempt = some fp ∧ ((canFlushAll n s).can n).candidate = some (fp, e) ∧
    ((canLifetimeExpiry n s).can n).attempt = some fp ∧ ((canLifetimeExpiry n s).can n).candidate = some (fp, e) := by
  obtain ⟨i, hi, -⟩ := canFlush_raised s n 4
  obtain ⟨j, hj, -⟩ := canLeftAll_raised (s.setCan n ((s.can n).lapsed s.canExpired).1) n 2 0x144 ((s.can n).lapsed s.canExpired).2
  rw [← canLifetimeExpiry_eq hl, State.can_setCan_same] at hj
  rw [canFlushAll_eq hl, hi, hj]
  exact ⟨ha, flushed_candidate ha hc 4, ha, lapsed_candidate ha hc s.canExpired⟩

/-! The commands. -/

section
variable (s : State) (ch : CanCh)

theorem exec_txPush (b : Fin 4) (prio : Bool) : exec (.txPush ch b prio) s = .next (settle s (txPush ch.val b.val prio s)) := rfl
theorem exec_canTxStart : exec (.canTxStart ch) s = .next (settle s (canTxStart ch.val s)) := rfl
theorem exec_canTxEnd (r : CanTxResult) (d : Option Nat) : exec (.canTxEnd ch r d) s = .next (settle s (canTxEnd ch.val r d s)) := rfl
theorem exec_abortHead : exec (.abortHead ch) s = .next (settle s (abortHead ch.val s)) := rfl
theorem exec_abortPrio : exec (.abortPrio ch) s = .next (settle s (abortPrio ch.val s)) := rfl
theorem exec_flush : exec (.flush ch) s = .next (settle s (canFlushAll ch.val s)) := rfl
theorem exec_canLifetimeExpiry : exec (.canLifetimeExpiry ch) s = .next (settle s (canLifetimeExpiry ch.val s)) := rfl

end

/-- An attempt that begins, and what keeps one from beginning. -/
theorem exec_canTxStart_cases {ch : CanCh} {fp : Bool} {e : CanEntry} (hc : (s.can ch.val).candidate = some (fp, e)) :
    (s.canMayStart ch.val = true → ∃ t m, exec (.canTxStart ch) s = .next t ∧
      t.can ch.val = { s.can ch.val with attempt := some fp, sof := s.ts, pstate := 4, ended := false, lastTx := some m } ∧
      m.id = e.msg.id ∧ m.data.length = e.msg.data.length ∧ (e.long = none → m.data = e.msg.data) ∧ SameMem s t ∧
      ∀ k, k ≠ ch.val → t.can k = s.can k) ∧
    (s.canMayStart ch.val = false → exec (.canTxStart ch) s = .next (settle s s)) := by
  rw [exec_canTxStart]
  refine ⟨fun hmay => ?_, fun hmay => by rw [canTxStart_blocked hmay]⟩
  have hstart := canTxStart_started hmay hc
  refine ⟨_, s.canSends ch.val e, rfl, ?_, canSends_id .., canSends_length .., canSends_short, sameMem_of_mem (by simp), fun k hk => ?_⟩
  · rw [can_settle, hstart, State.can_setCan_same]
  · rw [can_settle, hstart, State.can_setCan_other _ _ hk]

/-- An attempt that ends: sent, lost, or failed in single-shot mode. -/
theorem exec_canTxEnd_cases {ch : CanCh} {fp : Bool} {e : CanEntry} (d : Option Nat) (hl : s.live = true) (ha : (s.can ch.val).Attempting fp e)
    (he : (s.can ch.val).ended = false) :
    let n := ch.val
    let c := s.can n
    (∃ t, exec (.canTxEnd ch .sent d) s = .next t ∧ CanReported s t n e 1 c.sof ∧
      t.c64 (canReg n 0x108) = s.c64 (canReg n 0x108) + 1 ∧ (t.can n).attempt = none ∧ (t.can n).pstate = 2 ∧
      (t.can n).busyTo = s.time.cycle + s.canBits n 3 ∧ (t.can n).tec = c.tec - 1 ∧ (t.can n).prio = (if fp then none else c.prio) ∧
      (t.can n).queue = (if fp then c.queue else c.queue.drop 1) ∧ (∀ k, k ≠ n → t.can k = s.can k)) ∧
    (c.doomed = none → c.opts.getLsbD 6 = false →
      ∃ t, exec (.canTxEnd ch .lostArbitration d) s = .next t ∧ t.c32 (canReg n 0x128) = satInc (s.c32 (canReg n 0x128)) ∧
        (t.can n).attempt = none ∧ (t.can n).pstate = 3 ∧ (t.can n).prio = c.prio ∧ (t.can n).queue = c.queue ∧ (t.can n).tec = c.tec ∧
        SameMem s t) ∧
    (c.doomed = none → c.opts.getLsbD 6 = true →
      ∃ t, exec (.canTxEnd ch .error d) s = .next t ∧ CanReported s t n e 3 s.ts ∧ (t.can n).attempt = none ∧
        (t.can n).queue = (if fp then c.queue else c.queue.drop 1)) := by
  refine ⟨?_, fun hd ho => ?_, fun hd ho => ?_⟩ <;> refine ⟨_, exec_canTxEnd .., ?_⟩
  · obtain ⟨hrep, hcount, i, v, w, hi⟩ := canTxEnd_sent_fields (d := d) hl ha he
    rw [c64_settle, can_settle, hi]
    exact ⟨hrep.settled, hcount, rfl, rfl, rfl, rfl, rfl, rfl, (canTxEnd_only hl ha he).others⟩
  · rw [canTxEnd_lost hl ha.1 he hd ho, can_settle, State.can_setCan_same, c32_settle, State.c32_setCan, State.c32_setCan,
      State.c32_bump_same, State.c32_setCan]
    exact ⟨rfl, rfl, rfl, rfl, rfl, rfl, sameMem_of_mem (by simp)⟩
  · obtain ⟨hrep, hover, hqueue⟩ := canTxEnd_error_fields (d := d) hl ha he hd ho
    exact ⟨hrep.settled, hover, hqueue⟩

/-- An entry outside the attempt is aborted; one in it is marked. -/
theorem exec_abortHead_cases {ch : CanCh} {e : CanEntry} {q : List CanEntry} (hl : s.live = true) (hq : (s.can ch.val).queue = e :: q) :
    ((s.can ch.val).attempt ≠ some false →
      ∃ t, exec (.abortHead ch) s = .next t ∧ (t.can ch.val).queue = q ∧ (t.can ch.val).prio = (s.can ch.val).prio ∧
        CanReported s t ch.val e 3 s.ts ∧ t.c32 (canReg ch.val 0x148) = satInc (s.c32 (canReg ch.val 0x148))) ∧
    ((s.can ch.val).attempt = some false → (s.can ch.val).doomed = none →
      exec (.abortHead ch) s = .next (settle s (s.setCan ch.val { s.can ch.val with doomed := some 3 }))) := by
  rw [exec_abortHead]
  refine ⟨fun ha => ⟨_, rfl, ?_⟩, fun ha hd => by rw [abortHead_marks hl hq ha hd]⟩
  obtain ⟨hrep, hcount, i, hi⟩ := aborted_fields s ch.val e { s.can ch.val with queue := q }
  rw [abortHead_removes hl hq ha, can_settle, c32_settle, hi]
  exact ⟨rfl, rfl, hrep.settled, hcount⟩

theorem exec_abortPrio_cases {ch : CanCh} {e : CanEntry} (hl : s.live = true) (hp : (s.can ch.val).prio = some e) :
    ((s.can ch.val).attempt ≠ some true →
      ∃ t, exec (.abortPrio ch) s = .next t ∧ (t.can ch.val).queue = (s.can ch.val).queue ∧ (t.can ch.val).prio = none ∧
        CanReported s t ch.val e 3 s.ts ∧ t.c32 (canReg ch.val 0x148) = satInc (s.c32 (canReg ch.val 0x148))) ∧
    ((s.can ch.val).attempt = some true → (s.can ch.val).doomed = none →
      exec (.abortPrio ch) s = .next (settle s (s.setCan ch.val { s.can ch.val with doomed := some 3 }))) := by
  rw [exec_abortPrio]
  refine ⟨fun ha => ⟨_, rfl, ?_⟩, fun ha hd => by rw [abortPrio_marks hl hp ha hd]⟩
  obtain ⟨hrep, hcount, i, hi⟩ := aborted_fields s ch.val e { s.can ch.val with prio := none }
  rw [abortPrio_removes hl hp ha, can_settle, c32_settle, hi]
  exact ⟨rfl, rfl, hrep.settled, hcount⟩

/-- Settles O26: a push and its verdict, the candidate, the attempt and its end, and what aborts, flushes and expiries remove. -/
theorem canTransmission : Obligations.CanTransmission := by
  unfold Obligations.CanTransmission
  refine ⟨fun s ch b prio hl => ?_, fun s ch b prio e => ?_, fun s ch fp e hc => ⟨fun hl hnm hs hm hh hp hpst ha hbo hbusy hat => ?_, fun h => ?_⟩,
    fun c => ⟨fun _ => candidate_prio, fun _ _ => candidate_head⟩, fun s ch fp e d hl ha hp he => exec_canTxEnd_cases d hl ⟨ha, hp⟩ he,
    fun s ch r d hl he => ?_, fun s ch e hl => ?_, fun s ch hl => ⟨fun ha => ?_, fun ha => ?_, fun fp e ha hc => ?_⟩⟩
  · obtain ⟨hoff, hbad, hbusy, hfull, hjudge⟩ := txPush_cases (n := ch.val) (b := b.val) (prio := prio) hl
    rw [fin_ofNat_val, fin_ofNat_val] at hjudge
    rw [exec_txPush]
    exact ⟨fun h => by rw [hoff h]; rfl, fun h h1 => by rw [hbad h h1]; rfl, fun h h1 h2 => by rw [hbusy h h1 h2]; rfl,
      fun h h1 h2 h3 => by rw [hfull h h1 h2 h3]; rfl,
      fun h h1 h2 h3 => ⟨s.stagedEntry ch.val b.val, rfl, rfl, rfl, rfl, rfl, by rw [hjudge h h1 h2 h3]; rfl⟩⟩
  · exact ⟨rfl, fun h0 h3 hf => pushJudged_full h0 h3 hf, fun h0 h3 hf => pushJudged_taken_fields h0 h3 hf⟩
  · exact (exec_canTxStart_cases hc).1 (canMayStart_normal hl hnm (canMode_normal hm hs hh) hp
      (by simp [State.canIdle, hpst, ha, hbusy, State.now]) hbo hat)
  · refine (exec_canTxStart_cases hc).2 (Bool.eq_false_iff.2 fun hmay => ?_)
    obtain ⟨hmode, hhold, hparam, hon, hidle, hfree, hat⟩ := canMayStart_conditions hmay
    rcases h with h | h | h | h | h | h | h
    · exact h hmode
    · simp [hhold] at h
    · exact h hparam
    · simp [hon] at h
    · exact h hidle
    · omega
    · omega
  · rw [exec_canTxEnd, canTxEnd_ended hl he]
    exact ⟨(s.can ch.val).measured d, rfl, fun h => by rw [h]; rfl, fun x m h ho hm hf => by rw [h, measured_fd ho hm hf]⟩
  · exact ⟨fun q hq => (exec_abortHead_cases hl hq).1, fun q hq => (exec_abortHead_cases hl hq).2, fun hp => (exec_abortPrio_cases hl hp).1,
      fun hp => (exec_abortPrio_cases hl hp).2, fun hq => by rw [exec_abortHead, abortHead_empty hq],
      fun hp => by rw [exec_abortPrio, abortPrio_empty hp]⟩
  · refine ⟨_, exec_flush .., ?_⟩
    simp only [can_settle, c32_settle]
    exact canFlushAll_idle hl ha
  · refine ⟨_, exec_canLifetimeExpiry .., ?_⟩
    simp only [can_settle, c32_settle]
    exact canLifetimeExpiry_idle hl ha
  · obtain ⟨hflush, hflushed, hexpiry, hlapsed⟩ := attempt_stays hl ha hc
    exact ⟨_, _, exec_flush .., hflush, hflushed, exec_canLifetimeExpiry .., hexpiry, hlapsed⟩

end Sys2Proof.Machine
end

