-- ==== Sys2Proof/Proofs/CanErrors.lean ====
section
/-! SUPPORT. What an error of a frame counts, bus-off and its end, and changes of mode (O27). -/

namespace Sys2Proof.Machine

variable {s : State} {n : Nat}

/-! Bus-off (R222). -/

/-- The channel as it enters bus-off. -/
def Can.goneOff (c : Can) : Can :=
  { c with busOff := true, ended := c.attempt.isSome, recovering := !c.boOpts.getLsbD 0, recov := 0,
           pstate := if !c.boOpts.getLsbD 0 then 6 else 5 }

/-- Bus-off is shown and counted. -/
def State.busOffShown (s : State) (n : Nat) : State := ((s.canErr n (s.can n).goneOff).canIrq n 5).bump (canReg n 0x14C)

/-- An attempt ends with bus-off. -/
def State.busOffEnded (s : State) (n : Nat) (had : Bool) : State := if had then s.canFailed n else s

theorem busOffShown_raised (s : State) (n : Nat) : (s.can n).goneOff.Raised ((s.busOffShown n).can n) :=
  (canErr_raised s n _).trans (canIrq_raised _ n (by decide))

theorem busOffShown_bit (s : State) (n : Nat) : ((s.busOffShown n).can n).irq.getLsbD 5 = true := canIrq_bit _ n (by decide)

theorem busOffShown_only (s : State) (n : Nat) : CanOnly n s (s.busOffShown n) := (((CanOnly.refl s).canErr _).canIrq 5).bump _

theorem c32_busOffShown_same (s : State) (n : Nat) : (s.busOffShown n).c32 (canReg n 0x14C) = satInc (s.c32 (canReg n 0x14C)) := by
  rw [State.busOffShown, State.c32_bump_same, State.c32_canIrq, c32_canErr_other _ _ _ (by simp)]

theorem c32_busOffShown_other (s : State) (n : Nat) {a : Nat} (h : a ≠ canReg n 0x150) (h' : a ≠ canReg n 0x14C) :
    (s.busOffShown n).c32 a = s.c32 a := by
  rw [State.busOffShown, State.c32_bump_other _ h', State.c32_canIrq, c32_canErr_other _ _ _ h]

theorem busOffShown_mem (s : State) (n : Nat) : (s.busOffShown n).mem = s.mem := by simp [State.busOffShown]

theorem busOffEnded_only (s : State) (n : Nat) (had : Bool) : CanOnly n s (s.busOffEnded n had) := by
  unfold State.busOffEnded
  split
  · exact (CanOnly.refl s).canFailed
  · exact .refl s

/-- No attempt goes on after bus-off. -/
theorem busOffEnded_over {had : Bool} (h : had = (s.can n).attempt.isSome) :
    ∃ p q d, ({ s.can n with prio := p, queue := q, attempt := none, doomed := d } : Can).Raised ((s.busOffEnded n had).can n) := by
  unfold State.busOffEnded
  split
  · exact canFailed_over s n
  · next hno =>
    have hnone : (s.can n).attempt = none := by
      rw [h] at hno
      simpa using hno
    exact ⟨_, _, _, by rw [← hnone]; exact .refl _⟩

theorem busOffEnded_kept (had : Bool) (hd : (s.can n).doomed = none)
    (ho : (s.can n).opts.getLsbD 6 = false) : (s.busOffEnded n had).mem = s.mem ∧ ((s.busOffEnded n had).can n).queue = (s.can n).queue ∧
      ((s.busOffEnded n had).can n).prio = (s.can n).prio := by
  unfold State.busOffEnded
  split
  · rw [canFailed_kept hd ho, State.can_setCan_same]
    exact ⟨by simp, rfl, rfl⟩
  · exact ⟨rfl, rfl, rfl⟩

/-- The error counters of R226 lie apart from what an entry that leaves, or a change of ERRSTATE, counts. -/
theorem c32_busOffEnded_other (s : State) {n : Nat} (had : Bool) {k : Nat} (h0 : k ≠ 0) (h1 : k ≠ 0x108) (h2 : k ≠ 0x144) (h3 : k ≠ 0x148) :
    (s.busOffEnded n had).c32 (canReg n k) = s.c32 (canReg n k) := by
  unfold State.busOffEnded
  split
  · exact c32_canFailed_other s n (by simpa) (by simpa) (by simpa) (by simpa)
  · rfl

/-- A channel enters bus-off: it is shown, and the attempt ends. -/
def State.busOffEntered (s : State) (n : Nat) : State := (s.busOffShown n).busOffEnded n (s.can n).attempt.isSome

theorem canBusOff_eq (s : State) (n : Nat) :
    s.canBusOff n = if (s.can n).boOpts.getLsbD 1 then (s.busOffEntered n).canFlush n 4 else s.busOffEntered n := rfl

theorem busOffEntered_only (s : State) (n : Nat) : CanOnly n s (s.busOffEntered n) := (busOffShown_only s n).trans (busOffEnded_only _ n _)

theorem busOffEntered_can (s : State) (n : Nat) : ∃ p q d i, (s.busOffEntered n).can n = { (s.can n).goneOff with
    prio := p, queue := q, attempt := none, doomed := d, irq := i } ∧ i.getLsbD 5 = true := by
  have hshown := busOffShown_raised s n
  have hbit := busOffShown_bit s n
  obtain ⟨i, hi, -⟩ := hshown
  obtain ⟨p, q, d, hended⟩ := busOffEnded_over (s := s.busOffShown n) (n := n) (had := (s.can n).attempt.isSome) (by rw [hi]; rfl)
  have hlast := hended.irq hbit
  obtain ⟨j, hj, -⟩ := hended
  refine ⟨p, q, d, j, by rw [State.busOffEntered, hj, hi], ?_⟩
  rwa [hj] at hlast

theorem c32_busOffEntered_same (s : State) (n : Nat) : (s.busOffEntered n).c32 (canReg n 0x14C) = satInc (s.c32 (canReg n 0x14C)) := by
  rw [State.busOffEntered, c32_busOffEnded_other _ _ (by decide) (by decide) (by decide) (by decide), c32_busOffShown_same]

theorem c32_busOffEntered_other (s : State) (n : Nat) {k : Nat} (hk : 0x108 < k ∧ k < 0x144) :
    (s.busOffEntered n).c32 (canReg n k) = s.c32 (canReg n k) := by
  rw [State.busOffEntered, c32_busOffEnded_other _ _ (by omega) (by omega) (by omega) (by omega),
    c32_busOffShown_other _ _ (by simp; omega) (by simp; omega)]

/-- Outside single-shot mode an entry that is not marked stays through bus-off. -/
theorem busOffEntered_kept (hd : (s.can n).doomed = none) (ho : (s.can n).opts.getLsbD 6 = false) : (s.busOffEntered n).mem = s.mem ∧
    ((s.busOffEntered n).can n).queue = (s.can n).queue ∧ ((s.busOffEntered n).can n).prio = (s.can n).prio := by
  obtain ⟨i, hi, -⟩ := busOffShown_raised s n
  obtain ⟨hmem, hqueue, hprio⟩ := busOffEnded_kept (s := s.busOffShown n) (n := n) (s.can n).attempt.isSome (by rw [hi]; exact hd)
    (by rw [hi]; exact ho)
  rw [hi] at hqueue hprio
  exact ⟨hmem.trans (busOffShown_mem s n), hqueue, hprio⟩

theorem canBusOff_only (s : State) (n : Nat) : CanOnly n s (s.canBusOff n) := by
  rw [canBusOff_eq]
  split
  · exact (busOffEntered_only s n).canFlush 4
  · exact busOffEntered_only s n

/-- A channel in bus-off has no attempt; with flushing set nothing waits in it. -/
theorem canBusOff_can (s : State) (n : Nat) : ∃ p q d i, (s.canBusOff n).can n = { (s.can n).goneOff with
    prio := p, queue := q, attempt := none, doomed := d, irq := i } ∧ i.getLsbD 5 = true ∧
    ((s.can n).boOpts.getLsbD 1 = true → p = none ∧ q = []) := by
  obtain ⟨p, q, d, i, hi, hbit⟩ := busOffEntered_can s n
  rw [canBusOff_eq]
  split
  · obtain ⟨j, hj, hmono⟩ := canFlush_raised (s.busOffEntered n) n 4
    rw [flushed_idle (by rw [hi]), hi] at hj
    refine ⟨none, [], d, j, hj, hmono 5 ?_, fun _ => ⟨rfl, rfl⟩⟩
    rw [flushed_idle (by rw [hi]), hi]
    exact hbit
  · next hno => exact ⟨p, q, d, i, hi, hbit, fun h => absurd h hno⟩

theorem c32_canBusOff_same (s : State) (n : Nat) : (s.canBusOff n).c32 (canReg n 0x14C) = satInc (s.c32 (canReg n 0x14C)) := by
  rw [canBusOff_eq]
  split
  · rw [c32_canFlush_other _ n 4 (by simp [outcomeCnt]), c32_busOffEntered_same]
  · exact c32_busOffEntered_same s n

theorem c32_canBusOff_other (s : State) (n : Nat) {k : Nat} (hk : 0x108 < k ∧ k < 0x144) :
    (s.canBusOff n).c32 (canReg n k) = s.c32 (canReg n k) := by
  rw [canBusOff_eq]
  split
  · rw [c32_canFlush_other _ n 4 (by simp [outcomeCnt]; omega), c32_busOffEntered_other s n hk]
  · exact c32_busOffEntered_other s n hk

theorem canBusOff_kept (hb : (s.can n).boOpts.getLsbD 1 = false) (hd : (s.can n).doomed = none) (ho : (s.can n).opts.getLsbD 6 = false) :
    (s.canBusOff n).mem = s.mem ∧ ((s.canBusOff n).can n).queue = (s.can n).queue ∧ ((s.canBusOff n).can n).prio = (s.can n).prio := by
  rw [canBusOff_eq, if_neg (by simp only [hb]; decide)]
  exact busOffEntered_kept hd ho

/-! What an error counts (R204, R221). -/

/-- The channel with TEC and REC as a rule of ISO 11898-1 has them, and the error flag that was sent. -/
def Can.counted (c : Can) (r : CanErrRule) (f : Option Bool) : Can :=
  { c with tec := (c.countErr r).tec, recErr := (c.countErr r).recErr, errFlag := f }

theorem countErr_flag (c : Can) (r : CanErrRule) (f : Option Bool) : { c.countErr r with errFlag := f } = c.counted r f := by
  cases r <;> rfl

/-- An error is counted in a channel: TEC above 255 is bus-off (R222). -/
def State.canTally (s : State) (n : Nat) (c : Can) : State :=
  if ((s.canErr n c).can n).tec > 255 then (s.canErr n c).canBusOff n else s.canErr n c

theorem canTally_only (s : State) (n : Nat) (c : Can) : CanOnly n s (s.canTally n c) := by
  unfold State.canTally
  split
  · exact ((CanOnly.refl s).canErr c).trans (canBusOff_only _ n)
  · exact (CanOnly.refl s).canErr c

theorem c32_canTally_other (s : State) (n : Nat) (c : Can) {k : Nat} (hk : 0x108 < k ∧ k < 0x144) :
    (s.canTally n c).c32 (canReg n k) = s.c32 (canReg n k) := by
  have herr : (s.canErr n c).c32 (canReg n k) = s.c32 (canReg n k) := c32_canErr_other _ _ _ (by simp; omega)
  unfold State.canTally
  split
  · rw [c32_canBusOff_other _ n hk, herr]
  · exact herr

theorem canTally_on (s : State) (n : Nat) {c : Can} (h : c.tec ≤ 255) :
    (s.canTally n c).mem = s.mem ∧ ∃ i, (s.canTally n c).can n = { c with irq := i } := by
  obtain ⟨i, hi, -⟩ := canErr_raised s n c
  have hon : ¬ ((s.canErr n c).can n).tec > 255 := by rw [hi]; exact Nat.not_lt.2 h
  rw [State.canTally, if_neg hon]
  exact ⟨s.canErr_mem n c, i, hi⟩

theorem canTally_off (s : State) (n : Nat) {c : Can} (h : 255 < c.tec) :
    (∃ p q d i, (s.canTally n c).can n = { c.goneOff with prio := p, queue := q, attempt := none, doomed := d, irq := i } ∧
      i.getLsbD 5 = true ∧ (c.boOpts.getLsbD 1 = true → p = none ∧ q = [])) ∧
    (s.canTally n c).c32 (canReg n 0x14C) = satInc (s.c32 (canReg n 0x14C)) ∧
    (c.boOpts.getLsbD 1 = false → c.doomed = none → c.opts.getLsbD 6 = false →
      (s.canTally n c).mem = s.mem ∧ ((s.canTally n c).can n).queue = c.queue ∧ ((s.canTally n c).can n).prio = c.prio) := by
  obtain ⟨j, hj, -⟩ := canErr_raised s n c
  have hoff : ((s.canErr n c).can n).tec > 255 := by rw [hj]; exact h
  rw [State.canTally, if_pos hoff]
  refine ⟨?_, ?_, fun hb hd ho => ?_⟩
  · obtain ⟨p, q, d, i, hi, hbit, hflush⟩ := canBusOff_can (s.canErr n c) n
    rw [hj] at hi hflush
    exact ⟨p, q, d, i, hi, hbit, hflush⟩
  · rw [c32_canBusOff_same, c32_canErr_other _ _ _ (by simp)]
  · obtain ⟨hmem, hqueue, hprio⟩ := canBusOff_kept (s := s.canErr n c) (n := n) (by rw [hj]; exact hb) (by rw [hj]; exact hd)
      (by rw [hj]; exact ho)
    rw [hj] at hqueue hprio
    exact ⟨hmem.trans (s.canErr_mem n c), hqueue, hprio⟩

/-- An error of an XL frame whose error signalling is off is not signalled, and what it counts is free (R204, log entry 13). -/
theorem canCount_silent {rule : CanErrRule} (hx : (s.can n).opts.getLsbD 4 = false) :
    ∃ r, (r = rule ∨ r = .exempt) ∧ s.canCount n rule true = s.draw.2.canTally n ((s.can n).counted r none) := by
  refine ⟨if s.draw.1 % 2 = 0 then .exempt else rule, ?_, ?_⟩
  · split
    · exact .inr rfl
    · exact .inl rfl
  · rw [← countErr_flag]
    simp only [State.canCount, hx, Bool.not_false, Bool.and_self, if_true]
    rfl

theorem canCount_signalled {rule : CanErrRule} {xl : Bool} (hx : ¬ ((s.can n).opts.getLsbD 4 = false ∧ xl = true)) :
    s.canCount n rule xl = s.canTally n ((s.can n).counted rule (some (decide ((s.can n).errState = 0)))) := by
  have hno : (xl && !(s.can n).opts.getLsbD 4) = false := by
    cases xl <;> simp_all
  rw [← countErr_flag]
  simp only [State.canCount, hno, Bool.false_eq_true, if_false]
  rfl

/-! CAN_BUS_ERROR (R204, R221). -/

/-- An error inside a frame, or inside an error flag, shows in LEC and in its counter. -/
def State.errSeen (s : State) (n : Nat) (kind : CanErrKind) (place : CanErrPlace) (after : Bool) : State :=
  if place = .frame || place = .flag then s.canNoteErr n kind after else s

/-- A receiver that meets an error waits for the bus to be idle. -/
def State.errWaits (s : State) (n : Nat) (tx : Bool) : State :=
  if tx then s
  else s.setCan n { s.can n with pstate := if s.canMode n = 2 then 1 else 2, busyTo := s.now + s.canBits n 17, ours := false }

/-- The frame in which an error falls is an XL frame: that of the attempt, else as the error was seen. -/
def Can.xlFrame (c : Can) (xl : Bool) : Bool := match c.attempt, c.lastTx with | some _, some m => m.xlf | _, _ => xl

theorem canBusError_eq {kind : CanErrKind} {at_ : CanErrAt} {after : Bool} (hl : s.live = true) (hm : (s.can n).mode ≠ 0)
    (hp : (s.can n).pstate = 2 ∨ (s.can n).pstate = 3 ∨ (s.can n).pstate = 4) :
    let t := (s.errSeen n kind at_.place after).errWaits n (s.can n).attempt.isSome
    canBusError n kind at_ after s = if t.canMode n = 1 then
      t.canCount n ((s.can n).errRule kind at_.place after at_.dominant) ((s.can n).xlFrame at_.xl)
    else t.setCan n { t.can n with errFlag := none } := by
  have hin : (s.live && decide ((s.can n).mode ≠ 0) &&
      (decide ((s.can n).pstate = 2) || decide ((s.can n).pstate = 3) || decide ((s.can n).pstate = 4))) = true := by
    simp [hl, hm, or_assoc, hp]
  exact if_pos hin

theorem canNoteErr_only (s : State) (n : Nat) (kind : CanErrKind) (after : Bool) : CanOnly n s (s.canNoteErr n kind after) := by
  unfold State.canNoteErr
  dsimp only
  split
  · exact (((CanOnly.refl s).bump _).bump _).setCan _
  · exact ((CanOnly.refl s).bump _).setCan _

theorem canNoteErr_can (s : State) (n : Nat) (kind : CanErrKind) (after : Bool) :
    (s.canNoteErr n kind after).can n = { s.can n with lec := (canErrCode kind).1 } := by
  unfold State.canNoteErr
  dsimp only
  rw [State.can_setCan_same]
  split <;> rfl

theorem c32_canNoteErr (s : State) (n : Nat) (kind : CanErrKind) (after : Bool) :
    (s.canNoteErr n kind after).c32 (canReg n (canErrCode kind).2) = satInc (s.c32 (canReg n (canErrCode kind).2)) ∧
    (s.canNoteErr n kind after).c32 (canReg n 0x124) =
      (if after && decide (kind = .bitRecessive) && (s.can n).attempt.isSome then satInc (s.c32 (canReg n 0x124)) else s.c32 (canReg n 0x124)) := by
  have hne : (canErrCode kind).2 ≠ 0x124 := by cases kind <;> decide
  unfold State.canNoteErr
  dsimp only
  rw [State.c32_setCan, State.c32_setCan]
  split
  · rw [State.c32_bump_other _ (by simpa using hne), State.c32_bump_same, State.c32_bump_same, State.c32_bump_other _ (by simpa using hne.symm)]
    exact ⟨rfl, rfl⟩
  · rw [State.c32_bump_same, State.c32_bump_other _ (by simpa using hne.symm)]
    exact ⟨rfl, rfl⟩

/-- An error that LEC and its counter show: inside a frame, or inside an error flag (R226). -/
def Shows (p : CanErrPlace) : Prop := p = .frame ∨ p = .flag

section
variable {kind : CanErrKind} {place : CanErrPlace} {after : Bool}

theorem errSeen_shown (h : Shows place) : s.errSeen n kind place after = s.canNoteErr n kind after := by
  rcases h with rfl | rfl <;> rfl

theorem errSeen_hidden (h : ¬ Shows place) : s.errSeen n kind place after = s := by
  cases place with
  | frame => exact absurd (.inl rfl) h
  | flag => exact absurd (.inr rfl) h
  | afterFlag => rfl
  | dominantRun => rfl

theorem c32_errSeen_other (s : State) (n : Nat) (kind : CanErrKind) (place : CanErrPlace) (after : Bool) {k : Nat} (hk : 0x144 ≤ k) :
    (s.errSeen n kind place after).c32 (canReg n k) = s.c32 (canReg n k) := by
  by_cases h : Shows place
  · have hcode : (canErrCode kind).2 < 0x144 := by cases kind <;> decide
    rw [errSeen_shown h]
    unfold State.canNoteErr
    dsimp only
    rw [State.c32_setCan]
    split
    · rw [State.c32_bump_other _ (by simp; omega), State.c32_bump_other _ (by simp; omega)]
    · rw [State.c32_bump_other _ (by simp; omega)]
  · rw [errSeen_hidden h]

theorem errSeen_only (s : State) (n : Nat) (kind : CanErrKind) (place : CanErrPlace) (after : Bool) :
    CanOnly n s (s.errSeen n kind place after) ∧ (s.errSeen n kind place after).mem = s.mem := by
  unfold State.errSeen
  split
  · exact ⟨canNoteErr_only s n kind after, s.canNoteErr_mem n kind after⟩
  · exact ⟨.refl s, rfl⟩

theorem errSeen_can (s : State) (n : Nat) (kind : CanErrKind) (place : CanErrPlace) (after : Bool) :
    ∃ l, (s.errSeen n kind place after).can n = { s.can n with lec := l } ∧ (Shows place → l = (canErrCode kind).1) ∧
      (¬ Shows place → l = (s.can n).lec) := by
  by_cases h : Shows place
  · exact ⟨_, by rw [errSeen_shown h, canNoteErr_can], fun _ => rfl, fun hno => absurd h hno⟩
  · exact ⟨_, by rw [errSeen_hidden h], fun hyes => absurd hyes h, fun _ => rfl⟩

theorem canMode_congr {s t : State} (hm : (t.can n).mode = (s.can n).mode) (hh : (t.can n).hold = (s.can n).hold) (hp : t.pair = s.pair) :
    t.canMode n = s.canMode n := by
  unfold State.canMode State.secondary
  rw [hm, hh, hp]

theorem canBits_congr {s t : State} (h : (t.can n).nominal = (s.can n).nominal) (k : Nat) : t.canBits n k = s.canBits n k := by
  unfold State.canBits
  rw [h]

theorem errWaits_only (s : State) (n : Nat) (tx : Bool) : CanOnly n s (s.errWaits n tx) ∧ (s.errWaits n tx).mem = s.mem ∧
    ∀ a, (s.errWaits n tx).c32 a = s.c32 a := by
  unfold State.errWaits
  split
  · exact ⟨.refl s, rfl, fun _ => rfl⟩
  · exact ⟨(CanOnly.refl s).setCan _, s.setCan_mem n _, fun _ => rfl⟩

theorem errWaits_can (s : State) (n : Nat) (tx : Bool) : ∃ p b o, (s.errWaits n tx).can n = { s.can n with pstate := p, busyTo := b, ours := o } ∧
    (tx = false → b = s.time.cycle + s.canBits n 17 ∧ (s.canMode n = 2 → p = 1)) := by
  unfold State.errWaits
  split
  · next h => exact ⟨_, _, _, rfl, fun hno => by rw [h] at hno; simp at hno⟩
  · exact ⟨_, _, _, State.can_setCan_same .., fun _ => ⟨rfl, fun h => if_pos h⟩⟩

/-- An error has been read, before TEC and REC count it. -/
def State.errHeard (s : State) (n : Nat) (kind : CanErrKind) (place : CanErrPlace) (after : Bool) : State :=
  (s.errSeen n kind place after).errWaits n (s.can n).attempt.isSome

theorem errHeard_fields (s : State) (n : Nat) (kind : CanErrKind) (place : CanErrPlace) (after : Bool) :
    CanOnly n s (s.errHeard n kind place after) ∧ (s.errHeard n kind place after).mem = s.mem ∧
    (s.errHeard n kind place after).canMode n = s.canMode n ∧
    (∀ a, (s.errHeard n kind place after).c32 a = (s.errSeen n kind place after).c32 a) ∧
    ∃ l p b o, (s.errHeard n kind place after).can n = { s.can n with lec := l, pstate := p, busyTo := b, ours := o } ∧
      (Shows place → l = (canErrCode kind).1) ∧ (¬ Shows place → l = (s.can n).lec) ∧
      ((s.can n).attempt = none → b = s.time.cycle + s.canBits n 17 ∧ (s.canMode n = 2 → p = 1)) := by
  unfold State.errHeard
  obtain ⟨hseen, hmem⟩ := errSeen_only s n kind place after
  obtain ⟨hwait, hmem', hc32⟩ := errWaits_only (s.errSeen n kind place after) n (s.can n).attempt.isSome
  obtain ⟨l, hl, hshown, hhidden⟩ := errSeen_can s n kind place after
  obtain ⟨p, b, o, hcan, hidle⟩ := errWaits_can (s.errSeen n kind place after) n (s.can n).attempt.isSome
  rw [canMode_congr (s := s) (by rw [hl]) (by rw [hl]) hseen.pair, canBits_congr (s := s) (by rw [hl]), hseen.time] at hidle
  rw [hl] at hcan
  exact ⟨hseen.trans hwait, hmem'.trans hmem, canMode_congr (by rw [hcan]) (by rw [hcan]) (hseen.trans hwait).pair, hc32,
    l, p, b, o, hcan, hshown, hhidden, fun h => hidle (by rw [h]; rfl)⟩

end

theorem countErr_congr {c d : Can} (r : CanErrRule) (ht : d.tec = c.tec) (hr : d.recErr = c.recErr) :
    (d.countErr r).tec = (c.countErr r).tec ∧ (d.countErr r).recErr = (c.countErr r).recErr := by
  cases r <;> simp [Can.countErr, ht, hr]

/-- The error counters that frames count, R226. -/
theorem canErrCode_range (kind : CanErrKind) : 0x108 < (canErrCode kind).2 ∧ (canErrCode kind).2 < 0x144 := by
  cases kind <;> decide

/-- The count of an error in Normal mode, as R221 and R222 have it: signalled or silent, short of bus-off or in it. -/
theorem canCount_cases (s : State) (n : Nat) (rule : CanErrRule) (xl : Bool) :
    ∃ u r f, (u = s ∨ u = s.draw.2) ∧ s.canCount n rule xl = u.canTally n ((s.can n).counted r f) ∧
      (r = rule ∨ (r = .exempt ∧ (s.can n).opts.getLsbD 4 = false ∧ xl = true)) ∧
      (¬ ((s.can n).opts.getLsbD 4 = false ∧ xl = true) → r = rule ∧ f = some (decide ((s.can n).errState = 0))) := by
  by_cases h : (s.can n).opts.getLsbD 4 = false ∧ xl = true
  · obtain ⟨ho, rfl⟩ := h
    obtain ⟨r, hr, hcount⟩ := canCount_silent (s := s) (n := n) (rule := rule) ho
    exact ⟨_, r, _, .inr rfl, hcount, hr.imp id fun he => ⟨he, ho, rfl⟩, fun hno => absurd ⟨ho, rfl⟩ hno⟩
  · exact ⟨s, rule, _, .inl rfl, canCount_signalled h, .inl rfl, fun _ => ⟨rfl, rfl⟩⟩

theorem canTally_keeps (s : State) (n : Nat) (c : Can) : ((s.canTally n c).can n).lec = c.lec ∧ ((s.canTally n c).can n).busyTo = c.busyTo := by
  by_cases h : c.tec ≤ 255
  · obtain ⟨-, i, hi⟩ := canTally_on s n h
    rw [hi]
    exact ⟨rfl, rfl⟩
  · obtain ⟨⟨p, q, d, i, hi, -⟩, -⟩ := canTally_off s n (Nat.lt_of_not_le h)
    rw [hi]
    exact ⟨rfl, rfl⟩

section
variable {kind : CanErrKind} {place : CanErrPlace} {after dominant xl : Bool}

/-- A channel in which an error counts: it is running, and on the bus. -/
def Can.Hears (c : Can) : Prop := c.mode ≠ 0 ∧ (c.pstate = 2 ∨ c.pstate = 3 ∨ c.pstate = 4)

theorem canBusError_normal (hl : s.live = true) (hc : (s.can n).Hears) (h1 : s.canMode n = 1) :
    canBusError n kind ⟨place, dominant, xl⟩ after s =
      (s.errHeard n kind place after).canCount n ((s.can n).errRule kind place after dominant) ((s.can n).xlFrame xl) := by
  obtain ⟨-, -, hmode, -⟩ := errHeard_fields s n kind place after
  exact (canBusError_eq hl hc.1 hc.2).trans (if_pos (hmode.trans h1))

theorem canBusError_restricted (hl : s.live = true) (hc : (s.can n).Hears) (h1 : s.canMode n ≠ 1) :
    canBusError n kind ⟨place, dominant, xl⟩ after s =
      (s.errHeard n kind place after).setCan n { (s.errHeard n kind place after).can n with errFlag := none } := by
  obtain ⟨-, -, hmode, -⟩ := errHeard_fields s n kind place after
  exact (canBusError_eq hl hc.1 hc.2).trans (if_neg fun h => h1 (hmode.symm.trans h))

/-- In Normal mode an error is counted by its rule, or, in an XL frame without error signalling, perhaps by none. -/
theorem canBusError_tally (hl : s.live = true) (hc : (s.can n).Hears) (h1 : s.canMode n = 1) :
    ∃ u r f, (u = s.errHeard n kind place after ∨ u = (s.errHeard n kind place after).draw.2) ∧
      canBusError n kind ⟨place, dominant, xl⟩ after s = u.canTally n (((s.errHeard n kind place after).can n).counted r f) ∧
      (r = (s.can n).errRule kind place after dominant ∨ (r = .exempt ∧ (s.can n).opts.getLsbD 4 = false ∧ (s.can n).xlFrame xl = true)) ∧
      (¬ ((s.can n).opts.getLsbD 4 = false ∧ (s.can n).xlFrame xl = true) →
        r = (s.can n).errRule kind place after dominant ∧ f = some (decide ((s.can n).errState = 0))) := by
  obtain ⟨-, -, -, -, l, p, b, o, hcan, -⟩ := errHeard_fields s n kind place after
  obtain ⟨u, r, f, hu, hcount, hrule, hflag⟩ := canCount_cases (s.errHeard n kind place after) n
    ((s.can n).errRule kind place after dominant) ((s.can n).xlFrame xl)
  rw [hcan] at hrule hflag
  exact ⟨u, r, f, hu, by rw [canBusError_normal hl hc h1, hcount], hrule, hflag⟩

/-- What an error shows of itself does not depend on what TEC and REC make of it. -/
theorem canBusError_kept (hl : s.live = true) (hc : (s.can n).Hears) :
    let t := canBusError n kind ⟨place, dominant, xl⟩ after s
    let u := s.errHeard n kind place after
    CanOnly n s t ∧ (t.can n).lec = (u.can n).lec ∧ (t.can n).busyTo = (u.can n).busyTo ∧
    ∀ k, 0x108 < k ∧ k < 0x144 → t.c32 (canReg n k) = (s.errSeen n kind place after).c32 (canReg n k) := by
  intro t u
  obtain ⟨honly, -, -, hc32, -⟩ := errHeard_fields s n kind place after
  by_cases h1 : s.canMode n = 1
  · obtain ⟨v, r, f, hv, ht, -⟩ := canBusError_tally (kind := kind) (place := place) (after := after) (dominant := dominant) (xl := xl) hl hc h1
    have hvo : CanOnly n s v ∧ ∀ a, v.c32 a = u.c32 a := by
      rcases hv with rfl | rfl
      · exact ⟨honly, fun _ => rfl⟩
      · exact ⟨honly.draw, fun _ => rfl⟩
    obtain ⟨hlec, hbusy⟩ := canTally_keeps v n ((u.can n).counted r f)
    have htally : t = v.canTally n ((u.can n).counted r f) := ht
    rw [htally]
    exact ⟨hvo.1.trans (canTally_only ..), hlec, hbusy, fun k hk => by rw [c32_canTally_other _ _ _ hk, hvo.2, hc32]⟩
  · have ht : t = u.setCan n { u.can n with errFlag := none } := canBusError_restricted hl hc h1
    rw [ht, State.can_setCan_same]
    exact ⟨honly.setCan _, rfl, rfl, fun k _ => by rw [State.c32_setCan, hc32]⟩

/-- Outside Normal mode an error counts in no error counter and sends no flag. -/
theorem canBusError_uncounted (hl : s.live = true) (hc : (s.can n).Hears) (h1 : s.canMode n ≠ 1) :
    ∃ l p b o, (canBusError n kind ⟨place, dominant, xl⟩ after s).can n =
      { s.can n with lec := l, pstate := p, busyTo := b, ours := o, errFlag := none } ∧
      ((s.can n).attempt = none → s.canMode n = 2 → p = 1) := by
  obtain ⟨-, -, -, -, l, p, b, o, hcan, -, -, hwait⟩ := errHeard_fields s n kind place after
  exact ⟨l, p, b, o, by rw [canBusError_restricted hl hc h1, State.can_setCan_same, hcan], fun ha => (hwait ha).2⟩

/-- An error short of bus-off: TEC and REC by its rule, or as they were in a silent XL frame. -/
theorem canBusError_on (hl : s.live = true) (hc : (s.can n).Hears) (h1 : s.canMode n = 1)
    (hx : ((s.can n).countErr ((s.can n).errRule kind place after dominant)).tec ≤ 255) (ht : (s.can n).tec ≤ 255) :
    let c := s.can n
    let t := canBusError n kind ⟨place, dominant, xl⟩ after s
    let x := c.countErr (c.errRule kind place after dominant)
    let silent := c.opts.getLsbD 4 = false ∧ c.xlFrame xl = true
    (((t.can n).tec = x.tec ∧ (t.can n).recErr = x.recErr) ∨ (silent ∧ (t.can n).tec = c.tec ∧ (t.can n).recErr = c.recErr)) ∧
      (t.can n).busOff = c.busOff ∧ (t.can n).queue = c.queue ∧ (t.can n).prio = c.prio ∧ (t.can n).attempt = c.attempt ∧ SameMem s t ∧
      (¬ silent → (t.can n).errFlag = some (decide (c.errState = 0))) := by
  intro c t x silent
  obtain ⟨-, hmem, -, -, l, p, b, o, hcan, -⟩ := errHeard_fields s n kind place after
  obtain ⟨u, r, f, hu, htally, hrule, hflag⟩ :=
    canBusError_tally (kind := kind) (place := place) (after := after) (dominant := dominant) (xl := xl) hl hc h1
  have hum : u.mem = s.mem := by rcases hu with rfl | rfl <;> simp [hmem]
  rw [hcan] at htally
  have hle : (c.countErr r).tec ≤ 255 := by
    rcases hrule with rfl | ⟨rfl, -⟩
    · exact hx
    · exact ht
  obtain ⟨htec, hrec⟩ := countErr_congr (c := c) (d := { c with lec := l, pstate := p, busyTo := b, ours := o }) r rfl rfl
  obtain ⟨hm, i, hi⟩ := canTally_on u n (c := ({ c with lec := l, pstate := p, busyTo := b, ours := o } : Can).counted r f)
    (by rw [← htec] at hle; exact hle)
  have hsame : t = u.canTally n (({ c with lec := l, pstate := p, busyTo := b, ours := o } : Can).counted r f) := htally
  rw [← hsame] at hm hi
  rw [hi]
  refine ⟨?_, rfl, rfl, rfl, rfl, sameMem_of_mem (hm.trans hum), fun hs => (hflag hs).2⟩
  rcases hrule with rfl | ⟨rfl, hs⟩
  · exact .inl ⟨htec, hrec⟩
  · exact .inr ⟨hs, htec, hrec⟩

/-- An error that lifts TEC above 255 (R222). -/
theorem canBusError_off (hl : s.live = true) (hc : (s.can n).Hears) (h1 : s.canMode n = 1)
    (hs : ¬ ((s.can n).opts.getLsbD 4 = false ∧ (s.can n).xlFrame xl = true))
    (hx : 255 < ((s.can n).countErr ((s.can n).errRule kind place after dominant)).tec) :
    let c := s.can n
    let t := canBusError n kind ⟨place, dominant, xl⟩ after s
    (t.can n).busOff = true ∧ (t.can n).recovering = !c.boOpts.getLsbD 0 ∧
      (t.can n).attempt = none ∧ (t.can n).irq.getLsbD 5 = true ∧
      t.c32 (canReg n 0x14C) = satInc (s.c32 (canReg n 0x14C)) ∧
      (c.boOpts.getLsbD 1 = false → c.doomed = none → c.opts.getLsbD 6 = false →
        (t.can n).queue = c.queue ∧ (t.can n).prio = c.prio ∧ SameMem s t) ∧
      (c.boOpts.getLsbD 1 = true → (t.can n).queue = [] ∧ (t.can n).prio = none) := by
  intro c t
  obtain ⟨honly, hmem, -, hc32, l, p, b, o, hcan, -⟩ := errHeard_fields s n kind place after
  obtain ⟨u, r, f, hu, htally, -, hflag⟩ :=
    canBusError_tally (kind := kind) (place := place) (after := after) (dominant := dominant) (xl := xl) hl hc h1
  have hheard : (s.errHeard n kind place after).c32 (canReg n 0x14C) = s.c32 (canReg n 0x14C) := by
    rw [hc32, c32_errSeen_other s n kind place after (by decide)]
  have hum : u.mem = s.mem ∧ u.c32 (canReg n 0x14C) = s.c32 (canReg n 0x14C) := by
    rcases hu with rfl | rfl
    · exact ⟨hmem, hheard⟩
    · exact ⟨hmem, hheard⟩
  rw [hcan] at htally
  rw [← (hflag hs).1] at hx
  obtain ⟨htec, -⟩ := countErr_congr (c := c) (d := { c with lec := l, pstate := p, busyTo := b, ours := o }) r rfl rfl
  obtain ⟨⟨p', q, d, i, hi, hbit, hflush⟩, hcount, hkept⟩ := canTally_off u n
    (c := ({ c with lec := l, pstate := p, busyTo := b, ours := o } : Can).counted r f) (by rw [← htec] at hx; exact hx)
  have hsame : t = u.canTally n (({ c with lec := l, pstate := p, busyTo := b, ours := o } : Can).counted r f) := htally
  rw [← hsame] at hi hcount hkept
  refine ⟨by rw [hi]; rfl, by rw [hi]; rfl, by rw [hi], by rw [hi]; exact hbit, by rw [hcount, hum.2], fun hb hd ho => ?_, fun hb => ?_⟩
  · obtain ⟨hm, hqueue, hprio⟩ := hkept hb hd ho
    exact ⟨hqueue, hprio, sameMem_of_mem (hm.trans hum.1)⟩
  · obtain ⟨hprio, hqueue⟩ := hflush hb
    rw [hi]
    exact ⟨hqueue, hprio⟩

end

/-! Recovery, integration and changes of mode (R204, R205, R222, R224). -/

theorem recover_begins (hl : s.live = true) (hb : (s.can n).busOff = true) (hr : (s.can n).recovering = false) :
    recover n s = s.setCan n { s.can n with recovering := true, pstate := 6 } := if_pos (by rw [hl, hb, hr]; rfl)

theorem recover_idle (hb : (s.can n).busOff = false) : recover n s = s := if_neg (by simp [hb])

theorem busOffRecoveryComplete_idle (h : (s.can n).busOff = false ∨ (s.can n).recovering = false) : busOffRecoveryComplete n s = s :=
  if_neg (by rcases h with h | h <;> simp [h])

/-- The channel after a recovery from bus-off. -/
def Can.recovered (c : Can) : Can := { c with tec := 0, recErr := 0, busOff := false, recovering := false, recov := 128, pstate := 2 }

theorem busOffRecoveryComplete_eq (hl : s.live = true) (hb : (s.can n).busOff = true) (hr : (s.can n).recovering = true) :
    busOffRecoveryComplete n s = ((s.canErr n (s.can n).recovered).canIrq n 6).canLatch n := if_pos (by rw [hl, hb, hr]; rfl)

theorem canLatch_can (s : State) (n : Nat) : (s.canLatch n).can n = { s.can n with
    opts := BitVec.ofNat 9 (s.param (0x0880 + n)), boOpts := BitVec.ofNat 2 (s.param (0x08C0 + n)) } := State.can_setCan_same ..

/-- A recovery clears both error counters and keeps what waits. -/
theorem busOffRecoveryComplete_can (hl : s.live = true) (hb : (s.can n).busOff = true) (hr : (s.can n).recovering = true) :
    ∃ i o b, (busOffRecoveryComplete n s).can n = { (s.can n).recovered with irq := i, opts := o, boOpts := b } ∧ i.getLsbD 6 = true := by
  rw [busOffRecoveryComplete_eq hl hb hr, canLatch_can]
  obtain ⟨i, hi, -⟩ := (canErr_raised s n (s.can n).recovered).trans (canIrq_raised (s.canErr n (s.can n).recovered) n (i := 6) (by decide))
  have hbit := canIrq_bit (s.canErr n (s.can n).recovered) n (i := 6) (by decide)
  rw [hi] at hbit
  exact ⟨i, _, _, by rw [hi], hbit⟩

theorem canIntegration_done (hl : s.live = true) (hp : (s.can n).pstate = 1) :
    canIntegration n s = (s.setCan n { s.can n with pstate := 2, busyTo := s.time.cycle }).canLatch n := if_pos (by rw [hl, hp]; rfl)

theorem canIntegration_idle (hp : (s.can n).pstate ≠ 1) : canIntegration n s = s := if_neg (by simp [hp])

theorem canMayChange_attempt (h : s.canMayChange n = true) : (s.can n).attempt = none := by
  simp only [State.canMayChange, Bool.and_eq_true, Option.isNone_iff_eq_none] at h
  exact h.1.2

/-- In Commit no mode change takes effect once the channels are Off (R324). -/
theorem canMayChange_commit (hs : s.nm.state = .commit) (ht : s.nm.commitAt + 1440000 ≤ s.time.cycle) : s.canMayChange n = false := by
  have hd : decide (s.now ≥ s.nm.commitAt + usCycles 1800) = true := decide_eq_true ht
  simp only [State.canMayChange, hs, hd]
  simp

theorem canMayChange_busy (h : (s.can n).attempt ≠ none ∨ ((s.can n).pstate = 2 ∧ s.time.cycle < (s.can n).busyTo) ∨ (s.can n).pstate = 1 ∨
    (s.can n).pstate = 3 ∨ (s.can n).pstate = 4) : s.canMayChange n = false := by
  by_contra hmay
  have hmay := Bool.eq_true_of_not_eq_false hmay
  have hnone := canMayChange_attempt hmay
  simp only [State.canMayChange, State.canIdle, State.now, Bool.and_eq_true, Bool.or_eq_true, decide_eq_true_eq] at hmay
  obtain ⟨⟨hplace, -⟩, -⟩ := hmay
  rcases h with h | ⟨hp, hb⟩ | h | h | h
  · exact h hnone
  · rcases hplace with ((h | h) | h) | ⟨-, h⟩
    · exact absurd (hp.symm.trans h) (by decide)
    · exact absurd (hp.symm.trans h) (by decide)
    · exact absurd (hp.symm.trans h) (by decide)
    · exact Nat.not_lt.2 (of_decide_eq_true h) hb
  all_goals simp [h] at hplace

section
variable {m : Fin 4}

theorem canModeChange_blocked (hm : s.param (0x0800 + n) = m.val) (h : (s.can n).mode = m ∨ s.canMayChange n = false) :
    canModeChange n s = s := by
  unfold canModeChange
  dsimp only
  rw [hm, fin_ofNat_val]
  rcases h with h | h <;> simp [h]

/-- A mode change takes effect as its own mode and the one before it ask (R204, R205). -/
theorem canModeChange_eq (hl : s.live = true) (hm : s.param (0x0800 + n) = m.val) (hne : (s.can n).mode ≠ m) (hmay : s.canMayChange n = true) :
    canModeChange n s =
      if (s.can n).mode = 0 then
        (s.setCan n { s.can n with
          mode := m, pstate := 1, tec := 0, recErr := 0, nominal := BitVec.ofNat 32 (s.param (0x0820 + n)),
          fdData := BitVec.ofNat 32 (s.param (0x0840 + n)), xlData := BitVec.ofNat 32 (s.param (0x0860 + n)) }).canLatch n
      else
        let u := if m = 0 || m = 3 then s.canFlush n 4 else s
        (if m = 0 then u.canErr n { u.can n with
            mode := m, pstate := 0, tec := 0, recErr := 0, busOff := false, recovering := false, recov := 0 }
          else u.setCan n { u.can n with mode := m }).canLatch n := by
  have hin : (s.live && decide ((s.can n).mode ≠ Fin.ofNat 4 (s.param (0x0800 + n))) && s.canMayChange n) = true := by
    rw [hm, fin_ofNat_val, hl, hmay]
    simp [hne]
  refine (if_pos hin).trans ?_
  rw [hm, fin_ofNat_val]

/-- A channel that leaves Off integrates with the settings of its parameters. -/
theorem canModeChange_starts (hl : s.live = true) (hm : s.param (0x0800 + n) = m.val) (h0 : (s.can n).mode = 0) (hm0 : m ≠ 0)
    (hmay : s.canMayChange n = true) : ∃ f x b, (canModeChange n s).can n = { s.can n with
      mode := m, pstate := 1, tec := 0, recErr := 0, nominal := BitVec.ofNat 32 (s.param (0x0820 + n)), fdData := f, xlData := x,
      opts := BitVec.ofNat 9 (s.param (0x0880 + n)), boOpts := b } := by
  rw [canModeChange_eq hl hm (by rw [h0]; exact hm0.symm) hmay, if_pos h0, canLatch_can, State.can_setCan_same]
  exact ⟨_, _, _, rfl⟩

theorem canModeChange_starts_mem (hl : s.live = true) (hm : s.param (0x0800 + n) = m.val) (h0 : (s.can n).mode = 0) (hm0 : m ≠ 0)
    (hmay : s.canMayChange n = true) : (canModeChange n s).mem = s.mem := by
  rw [canModeChange_eq hl hm (by rw [h0]; exact hm0.symm) hmay, if_pos h0]
  simp

/-- A channel that goes Off, or to Bus Monitoring, removes and counts what waits. -/
theorem canModeChange_stops (hl : s.live = true) (hm : s.param (0x0800 + n) = m.val) (h0 : (s.can n).mode ≠ 0) (hne : (s.can n).mode ≠ m)
    (hmay : s.canMayChange n = true) (hm' : m = 0 ∨ m = 3) :
    ((canModeChange n s).can n).mode = m ∧ ((canModeChange n s).can n).queue = [] ∧ ((canModeChange n s).can n).prio = none ∧
    ((canModeChange n s).c32 (canReg n 0x148)).toNat = min 0xFFFFFFFF ((s.c32 (canReg n 0x148)).toNat + (s.can n).entries.length) ∧
    (m = 0 → ((canModeChange n s).can n).tec = 0 ∧ ((canModeChange n s).can n).recErr = 0 ∧ ((canModeChange n s).can n).pstate = 0) := by
  have hflush : (m = 0 || m = 3) = true := by simpa using hm'
  have hcount := toNat_c32_canFlush (canMayChange_attempt hmay)
  obtain ⟨i, hi, -⟩ := canFlush_raised s n 4
  rw [flushed_idle (canMayChange_attempt hmay)] at hi
  rw [canModeChange_eq hl hm hne hmay, if_neg h0, if_pos hflush, canLatch_can]
  dsimp only
  by_cases hz : m = 0
  · rw [if_pos hz]
    obtain ⟨j, hj, -⟩ := canErr_raised (s.canFlush n 4) n { (s.canFlush n 4).can n with
      mode := m, pstate := 0, tec := 0, recErr := 0, busOff := false, recovering := false, recov := 0 }
    have hc32 (c : Can) : ((s.canFlush n 4).canErr n c).c32 (canReg n 0x148) = (s.canFlush n 4).c32 (canReg n 0x148) :=
      c32_canErr_other _ n c (by simp)
    rw [hj, hi]
    exact ⟨rfl, rfl, rfl, by rw [State.canLatch, State.c32_setCan, hc32]; exact hcount, fun _ => ⟨rfl, rfl, rfl⟩⟩
  · rw [if_neg hz, State.can_setCan_same, hi]
    exact ⟨rfl, rfl, rfl, by rw [State.canLatch, State.c32_setCan, State.c32_setCan]; exact hcount, fun h => absurd h hz⟩

/-- Between the modes that transmit, entries and error counters stay. -/
theorem canModeChange_switches (hl : s.live = true) (hm : s.param (0x0800 + n) = m.val) (h0 : (s.can n).mode ≠ 0) (hne : (s.can n).mode ≠ m)
    (hmay : s.canMayChange n = true) (hm' : m = 1 ∨ m = 2) :
    ∃ o b, (canModeChange n s).can n = { s.can n with mode := m, opts := o, boOpts := b } ∧ (canModeChange n s).mem = s.mem := by
  have hkeep : (m = 0 || m = 3) = false := by rcases hm' with rfl | rfl <;> rfl
  have hz : m ≠ 0 := by rcases hm' with rfl | rfl <;> decide
  rw [canModeChange_eq hl hm hne hmay, if_neg h0, hkeep, canLatch_can]
  simp only [Bool.false_eq_true, if_false, if_neg hz, State.can_setCan_same]
  exact ⟨_, _, rfl, by simp⟩

end

/-! The commands. -/

section
variable (s : State) (ch : CanCh)

theorem exec_canBusError (kind : CanErrKind) (at_ : CanErrAt) (after : Bool) :
    exec (.canBusError ch kind at_ after) s = .next (settle s (canBusError ch.val kind at_ after s)) := rfl
theorem exec_recover : exec (.recover ch) s = .next (settle s (recover ch.val s)) := rfl
theorem exec_busOffRecoveryComplete : exec (.busOffRecoveryComplete ch) s = .next (settle s (busOffRecoveryComplete ch.val s)) := rfl
theorem exec_canIntegration : exec (.canIntegration ch) s = .next (settle s (canIntegration ch.val s)) := rfl
theorem exec_canModeChange : exec (.canModeChange ch) s = .next (settle s (canModeChange ch.val s)) := rfl

end

/-- Recovery from bus-off is asked for and completes, and integration ends. -/
theorem exec_recovery_cases (s : State) (ch : CanCh) (hl : s.live = true) :
    let n := ch.val
    let c := s.can n
    (c.busOff = true → c.recovering = false →
      exec (.recover ch) s = .next (settle s (s.setCan n { c with recovering := true, pstate := 6 }))) ∧
    (c.busOff = false → exec (.recover ch) s = .next (settle s s)) ∧
    (c.busOff = true → c.recovering = true →
      ∃ t, exec (.busOffRecoveryComplete ch) s = .next t ∧ (t.can n).tec = 0 ∧ (t.can n).recErr = 0 ∧ (t.can n).busOff = false ∧
        (t.can n).recov = 128 ∧ (t.can n).pstate = 2 ∧ (t.can n).irq.getLsbD 6 = true ∧ (t.can n).queue = c.queue ∧
        (t.can n).prio = c.prio ∧ SameMem s t) ∧
    ((c.busOff = false ∨ c.recovering = false) → exec (.busOffRecoveryComplete ch) s = .next (settle s s)) ∧
    (c.pstate = 1 → exec (.canIntegration ch) s = .next (settle s ((s.setCan n { c with pstate := 2, busyTo := s.time.cycle }).canLatch n))) ∧
    (c.pstate ≠ 1 → exec (.canIntegration ch) s = .next (settle s s)) := by
  refine ⟨fun hb hr => ?_, fun hb => ?_, fun hb hr => ⟨_, exec_busOffRecoveryComplete .., ?_⟩, fun h => ?_, fun hp => ?_, fun hp => ?_⟩
  · rw [exec_recover, recover_begins hl hb hr]
  · rw [exec_recover, recover_idle hb]
  · obtain ⟨i, o, b, hi, hbit⟩ := busOffRecoveryComplete_can hl hb hr
    rw [can_settle, hi]
    exact ⟨rfl, rfl, rfl, rfl, rfl, hbit, rfl, rfl, sameMem_of_mem (by simp [busOffRecoveryComplete_eq hl hb hr])⟩
  · rw [exec_busOffRecoveryComplete, busOffRecoveryComplete_idle h]
  · rw [exec_canIntegration, canIntegration_done hl hp]
  · rw [exec_canIntegration, canIntegration_idle hp]

/-- Settles O27: what an error counts, bus-off and its end, integration, and changes of mode. -/
theorem canErrorsAndModes : Obligations.CanErrorsAndModes := by
  unfold Obligations.CanErrorsAndModes
  refine ⟨fun s ch kind place after dominant xl hl => ?_, fun c => ⟨rfl, rfl, rfl, rfl, rfl, rfl⟩, exec_recovery_cases,
    fun s ch m hl hm => ⟨fun h => ?_, fun h0 hm0 hmay => ⟨_, exec_canModeChange .., ?_⟩,
      fun h0 hne hmay hm' => ⟨_, exec_canModeChange .., canModeChange_stops hl hm h0 hne hmay hm'⟩,
      fun h0 hne hmay hm' => ⟨_, exec_canModeChange .., ?_⟩⟩,
    fun s n => canMayChange_commit⟩
  · intro n c x counted silent hmode hp
    have hc : c.Hears := ⟨hmode, hp⟩
    refine ⟨_, exec_canBusError .., ?_⟩
    obtain ⟨honly, hlec, hbusy, hc32⟩ := canBusError_kept (kind := kind) (place := place) (after := after) (dominant := dominant) (xl := xl) hl hc
    obtain ⟨-, -, -, -, l, p, b, o, hcan, hshown, hhidden, hwait⟩ := errHeard_fields s n kind place after
    rw [hcan] at hlec hbusy
    simp only [can_settle, c32_settle]
    refine ⟨fun h => ?_, fun h => ?_, fun h => ⟨hbusy.trans (hwait h).1, fun h2 => ?_⟩, fun h1 => ?_,
      fun h1 hx ht => canBusError_on hl hc h1 hx ht, fun h1 hs hx => canBusError_off hl hc h1 hs hx, honly.others⟩
    · obtain ⟨hcode, hover⟩ := c32_canNoteErr s n kind after
      rw [← errSeen_shown h] at hcode hover
      exact ⟨hlec.trans (hshown h), (hc32 _ (canErrCode_range kind)).trans hcode, (hc32 _ (by decide)).trans hover⟩
    · refine ⟨hlec.trans (hhidden h), (hc32 _ (canErrCode_range kind)).trans ?_⟩
      rw [errSeen_hidden h]
    · obtain ⟨l, p, b, o, hi, hp1⟩ := canBusError_uncounted (kind := kind) (place := place) (after := after) (dominant := dominant) (xl := xl)
        hl hc (by rw [h2]; decide)
      rw [hi]
      exact hp1 h h2
    · obtain ⟨l, p, b, o, hi, -⟩ := canBusError_uncounted (kind := kind) (place := place) (after := after) (dominant := dominant) (xl := xl)
        hl hc h1
      rw [hi]
      exact ⟨rfl, rfl, rfl, rfl, rfl⟩
  · rw [exec_canModeChange, canModeChange_blocked hm (h.imp id canMayChange_busy)]
  · obtain ⟨f, x, b, hi⟩ := canModeChange_starts hl hm h0 hm0 hmay
    rw [can_settle, hi]
    exact ⟨rfl, rfl, rfl, rfl, rfl, rfl, rfl, sameMem_of_mem (canModeChange_starts_mem hl hm h0 hm0 hmay)⟩
  · obtain ⟨o, b, hi, hmem⟩ := canModeChange_switches hl hm h0 hne hmay hm'
    rw [can_settle, hi]
    exact ⟨rfl, rfl, rfl, rfl, rfl, sameMem_of_mem hmem⟩

end Sys2Proof.Machine
end

