-- ==== Sys2Proof/Proofs/CanReception.lean ====
section
/-! SUPPORT. A message on the bus, its verdict, the object that takes it, and what a store writes (O28). -/

namespace Sys2Proof.Machine

variable {s : State} {n : Nat}

/-! A message on the bus (R203, R204, R209). -/

theorem canGood_only (s : State) (n : Nat) : CanOnly n s (s.canGood n) := by
  unfold State.canGood
  dsimp only
  split
  · exact .refl s
  · split
    · exact (CanOnly.refl s).draw.canErr _
    · exact (CanOnly.refl s).canErr _

theorem canHeard_only (s : State) (n : Nat) : CanOnly n s (s.canHeard n) := (canGood_only s n).setCan _

/-- A frame that is received well: acknowledged in Normal mode and restricted operation, with the bus idle after intermission. -/
theorem canHeard_can (s : State) (n : Nat) : (s.canHeard n).can n = { (s.canGood n).can n with
    pstate := 2, busyTo := s.time.cycle + (s.canGood n).canBits n 4, ours := false,
    acked := decide (s.canMode n = 1 ∨ s.canMode n = 2) } := by
  rw [State.canHeard, State.can_setCan_same, State.now, (canGood_only s n).time, Bool.decide_or]

/-- The format of a message is one that the channel has switched on (R203). -/
def Can.formatOn (c : Can) (m : CanMsg) : Bool := (!m.fdf || m.xlf || c.opts.getLsbD 0) && (!m.xlf || c.opts.getLsbD 1)

theorem formatOn_iff (c : Can) (m : CanMsg) : c.formatOn m = true ↔
    (m.fdf = false ∨ m.xlf = true ∨ c.opts.getLsbD 0 = true) ∧ (m.xlf = false ∨ c.opts.getLsbD 1 = true) := by
  simp only [Can.formatOn, Bool.and_eq_true, Bool.or_eq_true, Bool.not_eq_true', or_assoc]

/-- The channel can take a message: its own one, heard as it is sent, or another node's. -/
def Can.ready (c : Can) (own : Bool) : Bool := if own then c.attempt.isSome && c.opts.getLsbD 7 else c.pstate = 2 || c.pstate = 3

theorem ready_iff (c : Can) (own : Bool) : c.ready own = true ↔
    if own then c.attempt.isSome = true ∧ c.opts.getLsbD 7 = true else c.pstate = 2 ∨ c.pstate = 3 := by
  cases own <;> simp [Can.ready]

/-- A valid message counts. -/
def State.canArrived (s : State) (n : Nat) (own : Bool) : State := (if own then s else s.canHeard n).add64 (canReg n 0x100) 1

theorem canArrived_time (s : State) (n : Nat) (own : Bool) : (s.canArrived n own).time = s.time := by
  unfold State.canArrived
  rw [State.add64_time]
  split
  · rfl
  · exact (canHeard_only s n).time

/-- The routes that the object of a message feeds. -/
def State.canRoutes (s : State) (n : Nat) (m : CanMsg) : List Nat := match s.objFor n m with | some k => s.feeding 1 n k | none => []

/-- A valid message goes to the screen, matched or not. -/
def State.canToScreen (s : State) (n : Nat) (m : CanMsg) (own : Bool) (age : Nat) : State :=
  (if (s.objFor n m).isNone then s.bump (canReg n 0x12C) else s).postKey
    (.canRx (Fin.ofNat 32 n) m own (ts32 (s.time.ltime - age * s.time.incr)) (s.objFor n m) (s.canRoutes n m))
    (canKey n false (s.canRoutes n m).head? m) m.data

theorem canReceive_eq (n : Nat) (x : CanMsg) (own : Bool) (age : Nat) (s : State) : canReceive n x own age s =
    if !s.live || (s.can n).mode = 0 || !(s.can n).ready own then s
    else if !(s.can n).formatOn x then
      if (s.can n).opts.getLsbD 8 && !own then s.setCan n { s.can n with pstate := 1 } else s
    else (s.canArrived n own).canToScreen n (canNorm x) own age := by
  rfl

theorem canReceive_idle {x : CanMsg} {own : Bool} {age : Nat} (h : s.live = false ∨ (s.can n).mode = 0 ∨ (s.can n).ready own = false) :
    canReceive n x own age s = s := by
  rw [canReceive_eq]
  rcases h with h | h | h <;> simp [h]

/-- A format that is off: nothing, or with protocol exception the channel integrates anew (R203). -/
theorem canReceive_formatOff {x : CanMsg} {own : Bool} {age : Nat} (hl : s.live = true) (hm : (s.can n).mode ≠ 0)
    (hr : (s.can n).ready own = true) (hf : (s.can n).formatOn x = false) : canReceive n x own age s =
      if (s.can n).opts.getLsbD 8 = true ∧ own = false then s.setCan n { s.can n with pstate := 1 } else s := by
  rw [canReceive_eq, if_neg (by simp [hl, hm, hr]), if_pos (by simp [hf])]
  simp only [Bool.and_eq_true, Bool.not_eq_true']

theorem canReceive_delivers {x : CanMsg} {own : Bool} {age : Nat} (hl : s.live = true) (hm : (s.can n).mode ≠ 0)
    (hr : (s.can n).ready own = true) (hf : (s.can n).formatOn x = true) :
    canReceive n x own age s = (s.canArrived n own).canToScreen n (canNorm x) own age := by
  rw [canReceive_eq, if_neg (by simp [hl, hm, hr]), if_neg (by simp [hf])]

/-! The verdict (R209 to R212). -/

/-- An XL message longer than a receive object, which has no long area (R212). -/
def State.canOverrun (s : State) (n k : Nat) (m : CanMsg) : Bool := m.xlf && decide (m.data.length > 64) && (s.objLong n k).isNone

section
variable {m : CanMsg} {own : Bool} {ts : Word} {rs : List Nat} {k : Nat}

/-- A message that passes is stored, unless it overruns its object, and another node's may be a keep-alive. -/
theorem canJudged_pass : s.canJudged n m own ts (some k) rs true =
    let u := if s.canOverrun n k m then s.bump (canReg n 0x138) else (s.canStore n k m ts).feed rs (canPdu m ts)
    if own then u else u.canKeepAlive n m := by
  have hovr : s.canOverrun n k m = (m.xlf && decide (m.data.length > 64) && (s.objLong n k).isNone) := rfl
  unfold State.canJudged
  simp only [if_true, ← hovr]
  cases s.canOverrun n k m <;> cases own <;> rfl

theorem canJudged_unmatched : s.canJudged n m own ts none rs true = if own then s else s.canKeepAlive n m := by
  cases own <;> rfl

/-- A message that is dropped counts and is not stored. -/
theorem canJudged_dropped (obj : Option Nat) : (s.canJudged n m own ts obj rs false).mem = s.mem ∧
    (s.canJudged n m own ts obj rs false).c32 (canReg n 0x134) = satInc (s.c32 (canReg n 0x134)) ∧
    (s.canJudged n m own ts obj rs false).bus = s.bus := by
  have hdropped : ∃ b : Bool, s.canJudged n m own ts obj rs false =
      if b then (s.bump (canReg n 0x134)).bump (canReg n 0x138) else s.bump (canReg n 0x134) := by
    cases obj with
    | none => exact ⟨false, rfl⟩
    | some k => exact ⟨_, rfl⟩
  obtain ⟨b, hb⟩ := hdropped
  rw [hb]
  cases b with
  | false => exact ⟨by simp, State.c32_bump_same .., by simp⟩
  | true =>
    refine ⟨by simp, ?_, by simp⟩
    rw [if_pos rfl, State.c32_bump_other _ (by simp), State.c32_bump_same]

end

/-- The object that takes a message is the lowest-numbered one that matches (R210). -/
theorem objFor_lowest {m : CanMsg} {k : Nat} (h : s.objFor n m = some k) :
    k < 128 ∧ s.objMatches n m k = true ∧ ∀ i, i < k → s.objMatches n m i = false := by
  obtain ⟨hmatch, hk, hlow⟩ := List.find?_range_eq_some.1 h
  exact ⟨by simpa using hk, hmatch, fun i hi => by simpa using hlow i hi⟩

/-! A store (R211, R212). -/

/-- Where the data of a message stored in object `k` begins. -/
def State.canBase (s : State) (n k : Nat) : Nat := match s.objLong n k with | some j => canLong n j | none => canObj n k + 32

/-- NEWDAT of receive object `k`. -/
def State.unread (s : State) (n k : Nat) : Bool := bit (s.rd (canObj n k + 8) 1) 0

/-- The flags and the header fields of a message are written. -/
def State.canHeader (s : State) (n k : Nat) (m : CanMsg) (ts : Word) : State :=
  let a := canObj n k
  let f := s.rd (a + 8) 1
  let s := s.wr (a + 8) 1 (bits f 7 2 * 4 + (if bit f 0 || bit f 1 then 3 else 1))
  let s := s.wr (a + 12) 4 (s.rd (a + 12) 4 + 1)
  let s := s.wr (a + 16) 4 ts.toNat
  let s := s.wr (a + 20) 2 (m.data.length + (if m.xlf then 0 else m.dlc.toNat) * 4096)
  let s := s.wr (a + 22) 1 (b2n (m.fdf || m.xlf) + 2 * b2n m.xlf + 4 * b2n m.brs + 8 * b2n m.esi + 16 * b2n m.rtr + 32 * b2n m.sec)
  let s := s.wr (a + 24) 2 (m.sdt.toNat + 256 * m.vcid.toNat)
  s.wr (a + 28) 4 m.af.toNat

theorem canStore_eq (s : State) (n k : Nat) (m : CanMsg) (ts : Word) : s.canStore n k m ts =
    let u := ((s.canHeader n k m ts).wrB ((s.canHeader n k m ts).canBase n k) m.data).canIrq n 0
    if s.unread n k then (u.canIrq n 1).bump (canReg n 0x130) else u := by
  have hdata (t : State) : (match t.objLong n k with | some j => t.wrB (canLong n j) m.data | none => t.wrB (canObj n k + 32) m.data) =
      t.wrB (t.canBase n k) m.data := by
    unfold State.canBase
    cases t.objLong n k <;> rfl
  have h := hdata (s.canHeader n k m ts)
  dsimp only
  rw [← h]
  rfl

/-- The header fields lie between the control word of an object and its data. -/
theorem canHeader_other (s : State) (n k : Nat) (m : CanMsg) (ts : Word) {b : Nat} (h : b < canObj n k + 8 ∨ canObj n k + 32 ≤ b) :
    (s.canHeader n k m ts).rd8 b = s.rd8 b := by
  unfold State.canHeader
  dsimp only
  simp (disch := omega) only [State.rd8_wr_other]

/-- The flags byte: NEWDAT set, and LOST over an unread message. -/
theorem newFlags_bits (f : Nat) (lost : Bool) :
    bit ((bits f 7 2 * 4 + (if lost then 3 else 1)) % 256 ^ 1) 0 = true ∧ bit ((bits f 7 2 * 4 + (if lost then 3 else 1)) % 256 ^ 1) 1 = lost := by
  have hlow : bits f 7 2 < 64 := Nat.mod_lt _ (by decide)
  cases lost <;> simp only [bit, Nat.testBit_eq_decide_div_mod_eq, decide_eq_true_eq, decide_eq_false_iff_not, if_true, Bool.false_eq_true,
    if_false] <;> omega

theorem b2n_le (b : Bool) : b2n b ≤ 1 := by cases b <;> decide

/-- RTR among the format bits of an object. -/
theorem formatBits_rtr (a b c d r e : Bool) : bit ((b2n a + 2 * b2n b + 4 * b2n c + 8 * b2n d + 16 * b2n r + 32 * b2n e) % 256 ^ 1) 4 = r := by
  have ha := b2n_le a
  have hb := b2n_le b
  have hc := b2n_le c
  have hd := b2n_le d
  have he := b2n_le e
  rw [bit, Nat.testBit_eq_decide_div_mod_eq]
  cases r <;> simp only [b2n, if_true, Bool.false_eq_true, if_false, decide_eq_true_eq, decide_eq_false_iff_not] at * <;> omega

theorem canHeader_fields (s : State) (n k : Nat) {m : CanMsg} (ts : Word) (hm : m.data.length ≤ 2048) :
    let a := canObj n k
    let t := s.canHeader n k m ts
    bit (t.rd (a + 8) 1) 0 = true ∧ bit (t.rd (a + 8) 1) 1 = (bit (s.rd (a + 8) 1) 0 || bit (s.rd (a + 8) 1) 1) ∧
    t.rd (a + 12) 4 = (s.rd (a + 12) 4 + 1) % 2 ^ 32 ∧ t.rd (a + 16) 4 = ts.toNat ∧
    bits (t.rd (a + 20) 2) 11 0 = m.data.length ∧ bit (t.rd (a + 22) 1) 4 = m.rtr := by
  intro a t
  have hflags : t.rd (a + 8) 1 =
      (bits (s.rd (a + 8) 1) 7 2 * 4 + (if bit (s.rd (a + 8) 1) 0 || bit (s.rd (a + 8) 1) 1 then 3 else 1)) % 256 ^ 1 := by
    simp (disch := omega) only [t, State.canHeader, State.rd_wr_other]
    exact State.rd_wr_same ..
  have hseq : t.rd (a + 12) 4 = (s.rd (a + 12) 4 + 1) % 256 ^ 4 := by
    simp (disch := omega) only [t, State.canHeader, State.rd_wr_other]
    exact State.rd_wr_same ..
  have hts : t.rd (a + 16) 4 = ts.toNat % 256 ^ 4 := by
    simp (disch := omega) only [t, State.canHeader, State.rd_wr_other]
    exact State.rd_wr_same ..
  have hlen : t.rd (a + 20) 2 = (m.data.length + (if m.xlf then 0 else m.dlc.toNat) * 4096) % 256 ^ 2 := by
    simp (disch := omega) only [t, State.canHeader, State.rd_wr_other]
    exact State.rd_wr_same ..
  have hfmt : t.rd (a + 22) 1 =
      (b2n (m.fdf || m.xlf) + 2 * b2n m.xlf + 4 * b2n m.brs + 8 * b2n m.esi + 16 * b2n m.rtr + 32 * b2n m.sec) % 256 ^ 1 := by
    simp (disch := omega) only [t, State.canHeader, State.rd_wr_other]
    exact State.rd_wr_same ..
  rw [hflags, hseq, hts, hlen, hfmt]
  refine ⟨(newFlags_bits _ _).1, (newFlags_bits _ _).2, rfl, Nat.mod_eq_of_lt ts.isLt, ?_, formatBits_rtr ..⟩
  generalize (if m.xlf then 0 else m.dlc.toNat) = d
  simp only [bits, Nat.shiftRight_zero]
  omega

/-- The header of a store leaves what the objects are and which long areas they use. -/
theorem objLong_canHeader (s : State) (n k i : Nat) (m : CanMsg) (ts : Word) : (s.canHeader n k m ts).objLong n i = s.objLong n i := by
  have hrd (j : Nat) : (s.canHeader n k m ts).rd (canObj n j + 4) 1 = s.rd (canObj n j + 4) 1 :=
    State.rd_congr fun b h1 h2 => canHeader_other s n k m ts (by unfold canObj at *; omega)
  unfold State.objLong
  simp only [hrd]

/-- The data of a message lies beyond the header fields of its object. -/
theorem canBase_outside (s : State) (n : Nat) {k : Nat} (hk : k < 128) : canObj n k + 32 ≤ s.canBase n k := by
  unfold State.canBase canObj canLong
  split <;> omega

theorem canStore_mem (s : State) (n k : Nat) (m : CanMsg) (ts : Word) :
    (s.canStore n k m ts).mem = ((s.canHeader n k m ts).wrB (s.canBase n k) m.data).mem := by
  have hbase : (s.canHeader n k m ts).canBase n k = s.canBase n k := by
    unfold State.canBase
    rw [objLong_canHeader]
  rw [canStore_eq, hbase]
  dsimp only
  split <;> simp

theorem canStore_rd8 (s : State) (n k : Nat) (m : CanMsg) (ts : Word) (b : Nat) :
    (s.canStore n k m ts).rd8 b = ((s.canHeader n k m ts).wrB (s.canBase n k) m.data).rd8 b := by
  rw [State.rd8, canStore_mem, State.rd8]

/-- The header fields of an object after a store are those of the message. -/
theorem canStore_header (s : State) {n k : Nat} (m : CanMsg) (ts : Word) (hk : k < 128) {o l : Nat} (ho : o + l ≤ 32) :
    (s.canStore n k m ts).rd (canObj n k + o) l = (s.canHeader n k m ts).rd (canObj n k + o) l := by
  have hout := canBase_outside s n hk
  exact State.rd_congr fun b h1 h2 => (canStore_rd8 ..).trans (State.wrB_rd8_other _ _ _ (by omega))

/-- The data of a message is stored whole. -/
theorem canStore_data (s : State) (n k : Nat) (m : CanMsg) (ts : Word) {i : Nat} (hi : i < m.data.length) :
    (s.canStore n k m ts).rd8 (s.canBase n k + i) = m.data.getD i 0 := by
  rw [canStore_rd8, State.wrB_rd8_same _ _ _ hi, List.getD_eq_getElem _ _ hi]

/-- A store leaves the rest of memory, beyond its data too. -/
theorem canStore_other (s : State) (n k : Nat) (m : CanMsg) (ts : Word) {b : Nat} (ha : b < canObj n k + 8 ∨ canObj n k + 32 ≤ b)
    (hb : b < s.canBase n k ∨ s.canBase n k + m.data.length ≤ b) : (s.canStore n k m ts).rd8 b = s.rd8 b := by
  rw [canStore_rd8, State.wrB_rd8_other _ _ _ hb, canHeader_other s n k m ts ha]

theorem canStore_irq (s : State) (n k : Nat) (m : CanMsg) (ts : Word) : ((s.canStore n k m ts).can n).irq.getLsbD 0 = true := by
  rw [canStore_eq]
  generalize (s.canHeader n k m ts).wrB ((s.canHeader n k m ts).canBase n k) m.data = u
  have hbit := canIrq_bit u n (i := 0) (by decide)
  dsimp only
  split
  · exact (canIrq_raised (u.canIrq n 0) n (i := 1) (by decide)).irq hbit
  · exact hbit

@[simp] theorem State.c32_wrB (s : State) (b : Nat) (bs : List Byte) (a : Nat) : (s.wrB b bs).c32 a = s.c32 a := rfl

theorem c32_canHeader (s : State) (n k : Nat) (m : CanMsg) (ts : Word) (a : Nat) : (s.canHeader n k m ts).c32 a = s.c32 a := by
  simp only [State.canHeader, State.c32_wr]

/-- A message that an unread one is lost for counts. -/
theorem canStore_lost (s : State) (n k : Nat) (m : CanMsg) (ts : Word) : (s.canStore n k m ts).c32 (canReg n 0x130) =
    if s.unread n k then satInc (s.c32 (canReg n 0x130)) else s.c32 (canReg n 0x130) := by
  have hdata : ((s.canHeader n k m ts).wrB ((s.canHeader n k m ts).canBase n k) m.data).c32 (canReg n 0x130) = s.c32 (canReg n 0x130) := by
    rw [State.c32_wrB, c32_canHeader]
  rw [canStore_eq]
  generalize (s.canHeader n k m ts).wrB ((s.canHeader n k m ts).canBase n k) m.data = u at hdata ⊢
  dsimp only
  split
  · rw [State.c32_bump_same, State.c32_canIrq, State.c32_canIrq, hdata]
  · rw [State.c32_canIrq, hdata]

/-! The obligation. -/

theorem exec_canReceive (s : State) (ch : CanCh) (x : CanMsg) (own : Bool) (age : Nat) :
    exec (.canReceive ch x own age) s = .next (settle s (canReceive ch.val x own age s)) := rfl

/-- A store, as the object and its channel show it. -/
theorem canStore_fields (s : State) {n k : Nat} (m : CanMsg) (ts : Word) (hk : k < 128) (hlen : m.data.length ≤ 2048) :
    let a := canObj n k
    let base := s.canBase n k
    let t := s.canStore n k m ts
    let lost := s.unread n k
    bit (t.rd (a + 8) 1) 0 = true ∧ bit (t.rd (a + 8) 1) 1 = (lost || bit (s.rd (a + 8) 1) 1) ∧
    t.rd (a + 12) 4 = (s.rd (a + 12) 4 + 1) % 2 ^ 32 ∧ t.rd (a + 16) 4 = ts.toNat ∧
    bits (t.rd (a + 20) 2) 11 0 = m.data.length ∧ bit (t.rd (a + 22) 1) 4 = m.rtr ∧
    (∀ i, i < m.data.length → t.rd8 (base + i) = m.data.getD i 0) ∧
    (∀ b, (b < a + 8 ∨ a + 32 ≤ b) → (b < base ∨ base + m.data.length ≤ b) → t.rd8 b = s.rd8 b) ∧
    (t.can n).irq.getLsbD 0 = true ∧
    t.c32 (canReg n 0x130) = (if lost then satInc (s.c32 (canReg n 0x130)) else s.c32 (canReg n 0x130)) := by
  intro a base t lost
  obtain ⟨hnew, hlost, hseq, hts, hdlen, hrtr⟩ := canHeader_fields s n k ts hlen
  refine ⟨?_, ?_, ?_, ?_, ?_, ?_, fun i hi => canStore_data s n k m ts hi, fun b => canStore_other s n k m ts, canStore_irq s n k m ts,
    canStore_lost s n k m ts⟩ <;> rw [canStore_header s m ts hk (by decide)]
  · exact hnew
  · exact hlost
  · exact hseq
  · exact hts
  · exact hdlen
  · exact hrtr

/-- Settles O28: a message on the bus, its verdict, the object that takes it, and its store. -/
theorem canReception : Obligations.CanReception := by
  unfold Obligations.CanReception
  refine ⟨fun s ch x own age => ?_, fun s ch m own ts rs => ⟨fun k h => ?_, fun k hx hlen hlong => ?_, canJudged_unmatched (rs := rs) (ts := ts),
    canJudged_dropped (own := own)⟩, fun s n k m => objFor_lowest, fun s n k m ts hn hk hlen _ => ?_⟩
  · intro n c m fmtOn ready s1 obj rs ts
    have hready : ready ↔ c.ready own = true := (ready_iff c own).symm
    have hfmt : fmtOn ↔ c.formatOn x = true := (formatOn_iff c x).symm
    rw [exec_canReceive, hready, hfmt, Bool.not_eq_true, Bool.not_eq_true]
    refine ⟨fun h => by rw [canReceive_idle h], fun hl hm hr hf => by rw [canReceive_formatOff hl hm hr hf], fun _ => canHeard_can s n,
      fun hl hm hr hf => ?_⟩
    rw [canReceive_delivers hl hm hr hf, State.canToScreen, canArrived_time, fin_ofNat_val]
    simp only [Option.isNone_iff_eq_none]
    rfl
  · have hovr : s.canOverrun ch.val k m = false := by
      rcases h with h | h | h
      · simp [State.canOverrun, h]
      · simp [State.canOverrun, h]
      · simp [State.canOverrun, h]
    refine canJudged_pass.trans ?_
    rw [hovr]
    rfl
  · have hnone : s.objLong ch.val k = none := by simpa using hlong
    have hovr : s.canOverrun ch.val k m = true := by simp [State.canOverrun, hx, hlen, hnone]
    refine canJudged_pass.trans ?_
    rw [hovr]
    rfl
  · exact canStore_fields s m ts hk hlen

end Sys2Proof.Machine
end

