-- ==== Sys2Proof/Proofs/LinChannel.lean ====
section
/-! SUPPORT. What the operations of a LIN channel leave of the device, and what they make of its header, its slot and its table (O29, O30). -/

namespace Sys2Proof.Machine

/-! What a channel leaves of the device. -/

/-- A change of LIN channels and of 32-bit counters. -/
def LinBus (s t : State) : Prop := ∃ l c, t = { s with bus.lin := l, cnt32 := c }

namespace LinBus
variable {s t u : State}

theorem refl (s : State) : LinBus s s := ⟨_, _, rfl⟩

theorem trans (h : LinBus s t) (k : LinBus t u) : LinBus s u := by
  obtain ⟨_, _, rfl⟩ := h
  obtain ⟨_, _, rfl⟩ := k
  exact ⟨_, _, rfl⟩

theorem mem (h : LinBus s t) : t.mem = s.mem := by obtain ⟨_, _, rfl⟩ := h; rfl
theorem time (h : LinBus s t) : t.time = s.time := by obtain ⟨_, _, rfl⟩ := h; rfl
theorem params (h : LinBus s t) : t.params = s.params := by obtain ⟨_, _, rfl⟩ := h; rfl
theorem pair (h : LinBus s t) : t.pair = s.pair := by obtain ⟨_, _, rfl⟩ := h; rfl
theorem cnt64 (h : LinBus s t) : t.cnt64 = s.cnt64 := by obtain ⟨_, _, rfl⟩ := h; rfl
theorem linSend (h : LinBus s t) : t.bus.linSend = s.bus.linSend := by obtain ⟨_, _, rfl⟩ := h; rfl
theorem now (h : LinBus s t) : t.now = s.now := by rw [State.now, h.time, State.now]
theorem param (h : LinBus s t) (pid : Nat) : t.param pid = s.param pid := by unfold State.param; rw [h.params]
theorem secondary (h : LinBus s t) : t.secondary = s.secondary := by unfold State.secondary; rw [h.pair]
theorem c64 (h : LinBus s t) (a : Nat) : t.c64 a = s.c64 a := by unfold State.c64; rw [h.cnt64]
theorem rd (h : LinBus s t) (a n : Nat) : t.rd a n = s.rd a n := State.rd_of_mem h.mem a n
theorem linSlotLen (h : LinBus s t) (m tb e : Nat) : t.linSlotLen m tb e = s.linSlotLen m tb e := by
  unfold State.linSlotLen
  rw [h.rd]
theorem linFrames (h : LinBus s t) (m tb e : Nat) : t.linFrames m tb e = s.linFrames m tb e := by
  unfold State.linFrames
  rw [h.rd]
theorem linFlags (h : LinBus s t) (m i : Nat) : t.linFlags m i = s.linFlags m i := h.rd ..
theorem linUpdated (h : LinBus s t) (m i : Nat) : t.linUpdated m i = s.linUpdated m i := by
  unfold State.linUpdated
  rw [h.linFlags]
theorem linCtrl (h : LinBus s t) (m : Nat) : t.linCtrl m = s.linCtrl m := by
  unfold State.linCtrl
  simp only [h.rd]
theorem linBuf (h : LinBus s t) (m i : Nat) : t.linBuf m i = s.linBuf m i := by
  unfold State.linBuf
  rw [h.linSend]
theorem linRole (h : LinBus s t) {m : Nat} (ho : (t.lin m).old = (s.lin m).old) : t.linRole m = s.linRole m := by
  unfold State.linRole
  rw [ho, h.param]
theorem linRate (h : LinBus s t) {m : Nat} (ho : (t.lin m).old = (s.lin m).old) : t.linRate m = s.linRate m := by
  unfold State.linRate
  rw [ho, h.param]
theorem linBits (h : LinBus s t) {m : Nat} (ho : (t.lin m).old = (s.lin m).old) (n : Nat) : t.linBits m n = s.linBits m n := by
  unfold State.linBits
  rw [h.linRate ho]
theorem linNext (h : LinBus s t) (m : Nat) (tb : Fin 8) (e : Fin 64) (rs : List (Fin 8 × Fin 64)) : t.linNext m tb e rs = s.linNext m tb e rs := by
  induction rs generalizing tb e with
  | nil => simp only [State.linNext, h.linSlotLen]
  | cons r rs ih => simp only [State.linNext, h.linSlotLen, ih]

end LinBus

/-- A change of LIN channel `m` and of 32-bit counters. -/
structure LinOnly (m : Nat) (s t : State) : Prop where
  bus : LinBus s t
  others : ∀ k, k ≠ m → t.lin k = s.lin k

namespace LinOnly
variable {m : Nat} {s t u : State}

theorem refl (s : State) : LinOnly m s s := ⟨.refl s, fun _ _ => rfl⟩

theorem trans (h : LinOnly m s t) (k : LinOnly m t u) : LinOnly m s u :=
  ⟨h.bus.trans k.bus, fun i hi => (k.others i hi).trans (h.others i hi)⟩

theorem setLin (h : LinOnly m s t) (l : Lin) : LinOnly m s (t.setLin m l) := h.trans ⟨⟨_, _, rfl⟩, fun _ hk => t.lin_setLin_other l hk⟩
theorem bump (h : LinOnly m s t) (a : Nat) : LinOnly m s (t.bump a) := h.trans ⟨⟨_, _, rfl⟩, fun _ _ => rfl⟩
theorem linIrq (h : LinOnly m s t) (i : Nat) : LinOnly m s (t.linIrq m i) := h.setLin _
theorem linEnd (h : LinOnly m s t) : LinOnly m s (t.linEnd m) := h.setLin _
theorem linStart (h : LinOnly m s t) (tb : Fin 8) : LinOnly m s (t.linStart m tb) := (h.setLin _).linIrq 4
theorem linSendHeader (h : LinOnly m s t) (i : Nat) (k : LinKind) : LinOnly m s (t.linSendHeader m i k) := h.setLin _
theorem linError (h : LinOnly m s t) (off : Nat) : LinOnly m s (t.linError m off) := ((h.bump _).setLin _).linIrq 3

theorem linSent (h : LinOnly m s t) : LinOnly m s (t.linSent m) := by
  unfold State.linSent
  split
  · exact (h.linEnd.setLin _).linIrq 2
  · exact h

theorem linRunEntry (h : LinOnly m s t) : LinOnly m s (t.linRunEntry m) := by
  unfold State.linRunEntry
  dsimp only
  split
  · exact h.linSendHeader ..
  · split
    · exact h.linSendHeader ..
    · exact h
  · exact h.linSendHeader ..
  · exact h.linSendHeader ..
  · exact h.linSendHeader ..
  · exact h

theorem linSleep (h : LinOnly m s t) : LinOnly m s (t.linSleep m) := (h.linSent.setLin _).linSendHeader ..

end LinOnly

/-! LIN_IRQ, and what a channel is left with (R233, R238). -/

section
variable (s : State) (m : Nat)

theorem linIrq_lin (i : Nat) : (s.linIrq m i).lin m = { s.lin m with irq := setBit (s.lin m).irq i true } := State.lin_setLin_same ..

theorem linIrq_bit {i : Nat} (hi : i < 6) : ((s.linIrq m i).lin m).irq.getLsbD i = true := by
  rw [linIrq_lin]
  exact (getLsbD_setBit _ _ _ _ hi).trans (if_pos rfl)

@[simp] theorem State.c32_linIrq (i a : Nat) : (s.linIrq m i).c32 a = s.c32 a := rfl
@[simp] theorem State.c64_linIrq (i a : Nat) : (s.linIrq m i).c64 a = s.c64 a := rfl

theorem linEnd_lin : (s.linEnd m).lin m = { s.lin m with header := none, sending := none, idleFrom := s.time.cycle } := State.lin_setLin_same ..

@[simp] theorem State.c32_linEnd (a : Nat) : (s.linEnd m).c32 a = s.c32 a := rfl

/-- A response that has been sent whole leaves the bus; the response error signal that it carried is cleared (R233). -/
theorem linSent_sending {o : Nat} {h : LinHdr} (hs : (s.lin m).sending = some o) (hh : (s.lin m).header = some h) :
    (s.linSent m).lin m = { s.lin m with
      header := none, sending := none, idleFrom := s.time.cycle,
      respErr := (s.lin m).respErr && !(bit h.sig 12 && decide (bits h.sig 5 0 = o)), irq := setBit (s.lin m).irq 2 true } := by
  unfold State.linSent
  rw [hs]
  dsimp only
  rw [linIrq_lin, State.lin_setLin_same, linEnd_lin, hh]

theorem linSent_idle (hs : (s.lin m).sending = none) : s.linSent m = s := by
  unfold State.linSent
  rw [hs]

/-- Whatever was being sent, what the schedule, sleep and a change of role go by stays. -/
theorem linSent_lin : ∃ h b r i, (s.linSent m).lin m = { s.lin m with header := h, sending := none, idleFrom := b, respErr := r, irq := i } := by
  cases hs : (s.lin m).sending with
  | none => exact ⟨_, _, _, _, by rw [linSent_idle s m hs, ← hs]⟩
  | some o =>
    unfold State.linSent
    rw [hs]
    dsimp only
    rw [linIrq_lin, State.lin_setLin_same, linEnd_lin]
    exact ⟨_, _, _, _, rfl⟩

end

end Sys2Proof.Machine
end

