-- ==== Sys2Proof/Proofs/LinSchedules.lean ====
section
/-! SUPPORT. Table switches, the end of a slot, headers, sleep and restart of a LIN commander (O29). -/

namespace Sys2Proof.Machine

variable {s : State} {m : Nat}

/-! LIN_SCHED (R235). -/

/-- A position lies inside the leading run of a range in which `p` holds. -/
theorem lt_length_takeWhile_range (p : Nat → Bool) (k e : Nat) :
    e < ((List.range k).takeWhile p).length ↔ e < k ∧ ∀ i, i ≤ e → p i = true := by
  rw [List.takeWhile_eq_take_findIdx_not, List.length_take, Nat.min_eq_left List.findIdx_le_length, List.lt_findIdx_iff]
  simp

/-- A table passes the check of a switch if it has an entry and each of its entries passes. -/
theorem linTableOk_iff (s : State) (m t : Nat) : s.linTableOk m t = true ↔
    s.linSlotLen m t 0 ≠ 0 ∧ ∀ e, e < 64 → (∀ i, i ≤ e → s.linSlotLen m t i ≠ 0) → s.linEntryOk m t e = true := by
  have hrun (e : Nat) := lt_length_takeWhile_range (fun e => decide (s.linSlotLen m t e ≠ 0)) 64 e
  simp only [decide_eq_true_eq] at hrun
  have hfirst : ((List.range 64).takeWhile (fun e => decide (s.linSlotLen m t e ≠ 0))).length ≠ 0 ↔ s.linSlotLen m t 0 ≠ 0 := by
    rw [← Nat.pos_iff_ne_zero, hrun]
    simp
  simp only [State.linTableOk, Bool.and_eq_true, decide_eq_true_eq, List.all_eq_true, List.mem_range, hfirst, hrun, and_imp]

section
variable {v : Nat}

theorem linSched_stop (hl : s.live = true) (hr : s.linRole m = 1) (hrun : (s.lin m).running = true) :
    linSched m 0xFF s = s.setLin m { s.lin m with pending := some none } := by
  simp [linSched, hl, hr, hrun]

theorem linSched_refused (hl : s.live = true) (hr : s.linRole m = 1) (hv : v < 8) (hok : s.linTableOk m v = false) :
    linSched m v s = s.bump (linReg m 0x128) := by
  have hne : v ≠ 0xFF := by omega
  simp [linSched, hl, hr, hv, hok, hne]

theorem linSched_waits (hl : s.live = true) (hr : s.linRole m = 1) (hv : v < 8) (hok : s.linTableOk m v = true)
    (hrun : (s.lin m).running = true) : linSched m v s = s.setLin m { s.lin m with pending := some (some (Fin.ofNat 8 v)) } := by
  have hne : v ≠ 0xFF := by omega
  simp [linSched, hl, hr, hv, hok, hne, hrun]

theorem linSched_starts (hl : s.live = true) (hr : s.linRole m = 1) (hv : v < 8) (hok : s.linTableOk m v = true)
    (hrun : (s.lin m).running = false) : linSched m v s = s.linStart m (Fin.ofNat 8 v) := by
  have hne : v ≠ 0xFF := by omega
  simp [linSched, hl, hr, hv, hok, hne, hrun]

end

/-- A table that starts is at its entry 0, and no slot of it has begun. -/
theorem linStart_lin (s : State) (m : Nat) (t : Fin 8) : (s.linStart m t).lin m = { s.lin m with
    running := true, rets := [], collNext := none, table := t, entry := 0, started := false, pending := none, slotEnd := s.time.cycle,
    irq := setBit (s.lin m).irq 4 true } := by
  rw [State.linStart, linIrq_lin, State.lin_setLin_same]
  rfl

theorem linStart_bit (s : State) (m : Nat) (t : Fin 8) : ((s.linStart m t).lin m).irq.getLsbD 4 = true := linIrq_bit _ m (by decide)

/-! LIN_SLOT (R235, R236). -/

/-- What is on the bus at the end of a slot leaves it. -/
def State.linQuiet (s : State) (m : Nat) : State := if ((s.linSent m).lin m).header.isSome then (s.linSent m).linEnd m else s.linSent m

/-- The entry at the schedule's place begins, or the table has ended. -/
def State.linEnter (s : State) (m : Nat) : State :=
  let l := s.lin m
  let len := s.linSlotLen m l.table.val l.entry.val
  if !l.running then s
  else if len = 0 then s.setLin m { l with running := false, started := false }
  else
    let start := if l.started && s.now < l.slotEnd + 800 then l.slotEnd else s.now
    (s.setLin m { l with started := true, slotEnd := start + msCycles (len * s.param (0x0930 + m)) }).linRunEntry m

/-- A commander whose slot can end: its schedule runs, and it neither sleeps nor is the secondary's. -/
structure Scheduling (s : State) (m : Nat) : Prop where
  live : s.live = true
  role : s.linRole m = 1
  primary : s.secondary = false
  running : (s.lin m).running = true
  awake : (s.lin m).asleep = false

theorem linSlot_early (h : s.time.cycle < (s.lin m).slotEnd) : linSlot m s = s := by
  have hno : ¬ s.now ≥ (s.lin m).slotEnd := Nat.not_le.2 h
  simp [linSlot, hno]

theorem linSlot_due (h : Scheduling s m) (hd : (s.lin m).slotEnd ≤ s.time.cycle) : linSlot m s = ((s.linQuiet m).linAdvance m).linEnter m := by
  have hin : (s.live && decide (s.linRole m = 1) && (s.lin m).running && !s.secondary && !(s.lin m).asleep && decide (s.now ≥ (s.lin m).slotEnd)) = true := by
    have hnow : s.now ≥ (s.lin m).slotEnd := hd
    simp [h.live, h.role, h.primary, h.running, h.awake, hnow]
  exact if_pos hin

theorem linQuiet_only (s : State) (m : Nat) : LinOnly m s (s.linQuiet m) := by
  unfold State.linQuiet
  split
  · exact (LinOnly.refl s).linSent.linEnd
  · exact (LinOnly.refl s).linSent

theorem linQuiet_lin (s : State) (m : Nat) : ∃ b r i, (s.linQuiet m).lin m = { s.lin m with
    header := none, sending := none, idleFrom := b, respErr := r, irq := i } := by
  obtain ⟨h, b, r, i, hi⟩ := linSent_lin s m
  unfold State.linQuiet
  split
  · rw [linEnd_lin, hi]
    exact ⟨_, _, _, rfl⟩
  · next hno =>
    have hnone : h = none := by
      rw [hi] at hno
      simpa using hno
    rw [hi, hnone]
    exact ⟨_, _, _, rfl⟩

/-! The schedule's place after a slot. -/

theorem linAdvance_stops (hp : (s.lin m).pending = some none) : s.linAdvance m =
    s.setLin m { s.lin m with running := false, rets := [], collNext := none, pending := none, started := false } := by
  unfold State.linAdvance
  simp [hp]

theorem linAdvance_switches {tb : Fin 8} (hp : (s.lin m).pending = some (some tb)) (hr : (s.lin m).rets = []) :
    s.linAdvance m = s.linStart m tb := by
  unfold State.linAdvance
  simp [hp, hr]

theorem linAdvance_resolves {ct : Fin 8} (hp : (s.lin m).pending = none) (hc : (s.lin m).collNext = some ct)
    (hlen : s.linSlotLen m ct.val 0 ≠ 0) (hs : (s.lin m).started = true) : s.linAdvance m =
    s.setLin m { s.lin m with collNext := none, table := ct, entry := 0, rets := ((s.lin m).table, (s.lin m).entry) :: (s.lin m).rets } := by
  unfold State.linAdvance
  simp [hp, hc, hlen, hs]

theorem linAdvance_moves (hp : (s.lin m).pending = none) (hc : (s.lin m).collNext = none) (hs : (s.lin m).started = true) : s.linAdvance m =
    s.setLin m { s.lin m with
      collNext := none, table := (s.linNext m (s.lin m).table (s.lin m).entry (s.lin m).rets).1,
      entry := (s.linNext m (s.lin m).table (s.lin m).entry (s.lin m).rets).2.1,
      rets := (s.linNext m (s.lin m).table (s.lin m).entry (s.lin m).rets).2.2 } := by
  unfold State.linAdvance
  simp [hp, hc, hs]

/-! The slot that begins. -/

theorem linSendHeader_lin (s : State) (m i : Nat) (k : LinKind) : (s.linSendHeader m i k).lin m = { s.lin m with
    header := some { id := i, kind := k, at_ := s.time.cycle + s.linBits m (s.param (0x0940 + m) + 21), past := false, ctrl := s.linCtrl m,
                     sig := s.param (0x0950 + m) }
    headTs := s.ts
    lastTx := [BitVec.ofNat 8 (linPid i)] } := State.lin_setLin_same ..

/-- An entry begins the header of one of its frames, or none. -/
theorem linRunEntry_cases (s : State) (m : Nat) : s.linRunEntry m = s ∨ ∃ i k, s.linRunEntry m = s.linSendHeader m i k := by
  unfold State.linRunEntry
  dsimp only
  split
  · exact .inr ⟨_, _, rfl⟩
  · split
    · exact .inr ⟨_, _, rfl⟩
    · exact .inl rfl
  · exact .inr ⟨_, _, rfl⟩
  · exact .inr ⟨_, _, rfl⟩
  · exact .inr ⟨_, _, rfl⟩
  · exact .inl rfl

theorem linRunEntry_lin (s : State) (m : Nat) : ∃ h ts tx, (s.linRunEntry m).lin m = { s.lin m with header := h, headTs := ts, lastTx := tx } := by
  obtain h | ⟨i, k, h⟩ := linRunEntry_cases s m
  · rw [h]
    exact ⟨_, _, _, rfl⟩
  · rw [h, linSendHeader_lin]
    exact ⟨_, _, _, rfl⟩

theorem linRunEntry_plain {i : Nat} (hf : s.linFrames m (s.lin m).table.val (s.lin m).entry.val = (0, [i])) :
    s.linRunEntry m = s.linSendHeader m i .plain := by
  simp [State.linRunEntry, hf]

/-- A sporadic slot with no frame updated begins no header. -/
theorem linRunEntry_silent {ids : List Nat} (hf : s.linFrames m (s.lin m).table.val (s.lin m).entry.val = (2, ids))
    (hno : ∀ i, i ∈ ids → s.linUpdated m i = false) : s.linRunEntry m = s := by
  have hnone : ids.find? (s.linUpdated m) = none := List.find?_eq_none.2 (by simpa using hno)
  simp [State.linRunEntry, hf, hnone]

/-- The slot at the schedule's place, as it stands while its entry begins. -/
def State.linSlotAt (s : State) (m : Nat) : Lin :=
  let l := s.lin m
  let start := if l.started && s.now < l.slotEnd + 800 then l.slotEnd else s.now
  { l with started := true, slotEnd := start + msCycles (s.linSlotLen m l.table.val l.entry.val * s.param (0x0930 + m)) }

theorem linEnter_stopped (hr : (s.lin m).running = false) : s.linEnter m = s := by
  simp [State.linEnter, hr]

theorem linEnter_begins (hr : (s.lin m).running = true) (hlen : s.linSlotLen m (s.lin m).table.val (s.lin m).entry.val ≠ 0) :
    s.linEnter m = (s.setLin m (s.linSlotAt m)).linRunEntry m := by
  simp [State.linEnter, State.linSlotAt, hr, hlen]

theorem linEnter_lin (hr : (s.lin m).running = true) (hlen : s.linSlotLen m (s.lin m).table.val (s.lin m).entry.val ≠ 0) :
    ∃ h ts tx, (s.linEnter m).lin m = { s.linSlotAt m with header := h, headTs := ts, lastTx := tx } := by
  obtain ⟨h, ts, tx, hi⟩ := linRunEntry_lin (s.setLin m (s.linSlotAt m)) m
  rw [linEnter_begins hr hlen, hi, State.lin_setLin_same]
  exact ⟨_, _, _, rfl⟩

theorem linEnter_only (h : LinOnly m s t) : LinOnly m s (t.linEnter m) := by
  unfold State.linEnter
  dsimp only
  split
  · exact h
  · split
    · exact h.setLin _
    · exact (h.setLin _).linRunEntry

theorem linNext_again (t : Fin 8) (e : Fin 64) :
    s.linNext m t e [] = (t, if s.linSlotLen m t.val (e.val + 1) = 0 then 0 else Fin.ofNat 64 (e.val + 1), []) := rfl

/-- An entry with a length is one of the 64 of its table. -/
theorem ofNat_of_linSlotLen {t e : Nat} (h : s.linSlotLen m t e ≠ 0) : (Fin.ofNat 64 e).val = e := by
  have he : e < 64 := by
    by_contra hge
    exact h (if_neg hge)
  exact Nat.mod_eq_of_lt he

theorem linNext_again_entry (t : Fin 8) (e : Fin 64) : (s.linNext m t e []).2.1.val =
    if s.linSlotLen m t.val (e.val + 1) = 0 then 0 else e.val + 1 := by
  rw [linNext_again]
  split
  · rfl
  · next h => exact ofNat_of_linSlotLen h

/-- A table that resolves a collision and has ended returns to the entry after the one that collided. -/
theorem linNext_returns {t : Fin 8} {e : Fin 64} {r : Fin 8 × Fin 64} {rs : List (Fin 8 × Fin 64)}
    (hend : s.linSlotLen m t.val (e.val + 1) = 0) (hr : s.linSlotLen m r.1.val (r.2.val + 1) ≠ 0) :
    s.linNext m t e (r :: rs) = (r.1, Fin.ofNat 64 (r.2.val + 1), rs) := by
  rw [State.linNext, if_pos hend]
  cases rs with
  | nil => rw [linNext_again, if_neg hr]
  | cons q qs => rw [State.linNext, if_neg hr]

/-! A slot that is due (R235, R236). -/

/-- With no switch and no collision the schedule moves to its next entry. -/
theorem linSlot_moves (h : Scheduling s m) (hd : (s.lin m).slotEnd ≤ s.time.cycle) (hs : (s.lin m).started = true)
    (hc : (s.lin m).collNext = none) (hp : (s.lin m).pending = none) {t : Fin 8} {e : Fin 64} {rs : List (Fin 8 × Fin 64)}
    (hn : s.linNext m (s.lin m).table (s.lin m).entry (s.lin m).rets = (t, e, rs)) :
    ∃ u, linSlot m s = u.linEnter m ∧ LinOnly m s u ∧ ∃ b r i, u.lin m = { s.lin m with
      header := none, sending := none, idleFrom := b, respErr := r, irq := i, collNext := none, table := t, entry := e, rets := rs } := by
  have hq := linQuiet_only s m
  obtain ⟨b, r, i, hi⟩ := linQuiet_lin s m
  refine ⟨_, linSlot_due h hd, ?_, b, r, i, ?_⟩ <;>
    rw [linAdvance_moves (by rw [hi, hp]) (by rw [hi, hc]) (by rw [hi, hs])]
  · exact hq.setLin _
  · rw [State.lin_setLin_same, hi]
    simp only [hq.bus.linNext, hn]

/-- A pending table starts. -/
theorem linSlot_switches (h : Scheduling s m) (hd : (s.lin m).slotEnd ≤ s.time.cycle) {tb : Fin 8} (hr : (s.lin m).rets = [])
    (hp : (s.lin m).pending = some (some tb)) :
    ∃ u, linSlot m s = u.linEnter m ∧ LinOnly m s u ∧ (u.lin m).running = true ∧ (u.lin m).table = tb ∧ (u.lin m).entry = 0 ∧
      (u.lin m).pending = none ∧ (u.lin m).irq.getLsbD 4 = true := by
  obtain ⟨b, r, i, hi⟩ := linQuiet_lin s m
  have hu := linAdvance_switches (s := s.linQuiet m) (tb := tb) (by rw [hi, hp]) (by rw [hi, hr])
  have hirq := linStart_bit (s.linQuiet m) m tb
  refine ⟨_, linSlot_due h hd, ?_⟩
  rw [hu]
  refine ⟨(linQuiet_only s m).linStart tb, ?_, ?_, ?_, ?_, hirq⟩ <;> rw [linStart_lin]

/-- A pending stop ends the schedule. -/
theorem linSlot_stops (h : Scheduling s m) (hd : (s.lin m).slotEnd ≤ s.time.cycle) (hp : (s.lin m).pending = some none) :
    ((linSlot m s).lin m).running = false ∧ ((linSlot m s).lin m).pending = none := by
  obtain ⟨b, r, i, hi⟩ := linQuiet_lin s m
  have hu := linAdvance_stops (s := s.linQuiet m) (by rw [hi, hp])
  have hrun : (((s.linQuiet m).linAdvance m).lin m).running = false := by rw [hu, State.lin_setLin_same]
  have hpend : (((s.linQuiet m).linAdvance m).lin m).pending = none := by rw [hu, State.lin_setLin_same]
  rw [linSlot_due h hd, linEnter_stopped hrun]
  exact ⟨hrun, hpend⟩

/-- A collision in the slot is resolved by a table of its own, at its entry 0. -/
theorem linSlot_resolves (h : Scheduling s m) (hd : (s.lin m).slotEnd ≤ s.time.cycle) (hs : (s.lin m).started = true) {ct : Fin 8}
    (hc : (s.lin m).collNext = some ct) (hp : (s.lin m).pending = none) (hlen : s.linSlotLen m ct.val 0 ≠ 0) :
    ∃ u, linSlot m s = u.linEnter m ∧ LinOnly m s u ∧ ∃ b r i, u.lin m = { s.lin m with
      header := none, sending := none, idleFrom := b, respErr := r, irq := i, collNext := none, table := ct, entry := 0
      rets := ((s.lin m).table, (s.lin m).entry) :: (s.lin m).rets } := by
  have hq := linQuiet_only s m
  obtain ⟨b, r, i, hi⟩ := linQuiet_lin s m
  have hu := linAdvance_resolves (s := s.linQuiet m) (ct := ct) (by rw [hi, hp]) (by rw [hi, hc]) (by rwa [hq.bus.linSlotLen]) (by rw [hi, hs])
  refine ⟨_, linSlot_due h hd, ?_, b, r, i, ?_⟩ <;> rw [hu]
  · exact hq.setLin _
  · rw [State.lin_setLin_same, hi]

/-- An entry that begins keeps the schedule's place. -/
theorem linEnter_place (hr : (s.lin m).running = true) (hlen : s.linSlotLen m (s.lin m).table.val (s.lin m).entry.val ≠ 0) :
    ((s.linEnter m).lin m).running = true ∧ ((s.linEnter m).lin m).table = (s.lin m).table ∧
    ((s.linEnter m).lin m).entry = (s.lin m).entry ∧ ((s.linEnter m).lin m).rets = (s.lin m).rets ∧
    ((s.linEnter m).lin m).pending = (s.lin m).pending ∧ ((s.linEnter m).lin m).collNext = (s.lin m).collNext ∧
    ((s.linEnter m).lin m).irq = (s.lin m).irq := by
  obtain ⟨h, ts, tx, hi⟩ := linEnter_lin hr hlen
  rw [hi]
  exact ⟨hr, rfl, rfl, rfl, rfl, rfl, rfl⟩

theorem linEnter_slotEnd (hr : (s.lin m).running = true) (hlen : s.linSlotLen m (s.lin m).table.val (s.lin m).entry.val ≠ 0) :
    ((s.linEnter m).lin m).slotEnd = (s.linSlotAt m).slotEnd := by
  obtain ⟨h, ts, tx, hi⟩ := linEnter_lin hr hlen
  rw [hi]

/-- An entry of TYPE 0 begins the header of its frame. -/
theorem linEnter_plain (hr : (s.lin m).running = true) (hlen : s.linSlotLen m (s.lin m).table.val (s.lin m).entry.val ≠ 0) {i : Nat}
    (hf : s.linFrames m (s.lin m).table.val (s.lin m).entry.val = (0, [i])) :
    ∃ h, ((s.linEnter m).lin m).header = some h ∧ h.id = i ∧ h.kind = .plain ∧ h.past = false ∧
      h.at_ = s.time.cycle + s.linBits m (s.param (0x0940 + m) + 21) ∧ ((s.linEnter m).lin m).lastTx = [BitVec.ofNat 8 (linPid i)] := by
  have hb : LinBus s (s.setLin m (s.linSlotAt m)) := ⟨_, _, rfl⟩
  have hv : (s.setLin m (s.linSlotAt m)).lin m = s.linSlotAt m := State.lin_setLin_same ..
  have hold : ((s.setLin m (s.linSlotAt m)).lin m).old = (s.lin m).old := by rw [hv]; rfl
  rw [linEnter_begins hr hlen, linRunEntry_plain (by rw [hv, hb.linFrames]; exact hf), linSendHeader_lin]
  refine ⟨_, rfl, rfl, rfl, rfl, ?_, rfl⟩
  rw [hb.time, hb.param, hb.linBits hold]

/-- A sporadic entry with no frame updated stays silent. -/
theorem linEnter_silent (hr : (s.lin m).running = true) (hlen : s.linSlotLen m (s.lin m).table.val (s.lin m).entry.val ≠ 0)
    {ids : List Nat} (hf : s.linFrames m (s.lin m).table.val (s.lin m).entry.val = (2, ids)) (hno : ∀ i, i ∈ ids → s.linUpdated m i = false) :
    ((s.linEnter m).lin m).header = (s.lin m).header := by
  have hb : LinBus s (s.setLin m (s.linSlotAt m)) := ⟨_, _, rfl⟩
  have hv : (s.setLin m (s.linSlotAt m)).lin m = s.linSlotAt m := State.lin_setLin_same ..
  rw [linEnter_begins hr hlen, linRunEntry_silent (by rw [hv, hb.linFrames]; exact hf) (fun i hi => by rw [hb.linUpdated, hno i hi]), hv]
  rfl

theorem exec_linSlot (s : State) (ch : LinCh) : exec (.linSlot ch) s = .next (settle s (linSlot ch.val s)) := rfl

theorem linSlot_sameMem (s : State) (m : Nat) : SameMem s (settle s (linSlot m s)) := sameMem_of_mem (by simp)

/-- The next entry of a schedule that resolves nothing. -/
def State.linFollowing (s : State) (m : Nat) : Nat :=
  if s.linSlotLen m (s.lin m).table.val ((s.lin m).entry.val + 1) = 0 then 0 else (s.lin m).entry.val + 1

/-- A table that has an entry has one at the schedule's next place. -/
theorem linSlotLen_following (h0 : s.linSlotLen m (s.lin m).table.val 0 ≠ 0) : s.linSlotLen m (s.lin m).table.val (s.linFollowing m) ≠ 0 := by
  unfold State.linFollowing
  split
  · exact h0
  · assumption

/-- R236: the slot of the next entry. -/
theorem linSlot_follows (h : Scheduling s m) (hd : (s.lin m).slotEnd ≤ s.time.cycle) (hs : (s.lin m).started = true)
    (hc : (s.lin m).collNext = none) (hr : (s.lin m).rets = []) (hp : (s.lin m).pending = none)
    (h0 : s.linSlotLen m (s.lin m).table.val 0 ≠ 0) :
    let t := linSlot m s
    let start := if s.time.cycle < (s.lin m).slotEnd + 800 then (s.lin m).slotEnd else s.time.cycle
    LinOnly m s t ∧ (t.lin m).running = true ∧ (t.lin m).table = (s.lin m).table ∧ (t.lin m).entry.val = s.linFollowing m ∧
      (t.lin m).slotEnd = start + msCycles (s.linSlotLen m (s.lin m).table.val (s.linFollowing m) * s.param (0x0930 + m)) ∧
      (∀ i, s.linFrames m (s.lin m).table.val (s.linFollowing m) = (0, [i]) →
        ∃ h, (t.lin m).header = some h ∧ h.id = i ∧ h.kind = .plain ∧ h.past = false ∧
          h.at_ = s.time.cycle + s.linBits m (s.param (0x0940 + m) + 21) ∧ (t.lin m).lastTx = [BitVec.ofNat 8 (linPid i)]) ∧
      (∀ ids, s.linFrames m (s.lin m).table.val (s.linFollowing m) = (2, ids) → (∀ i, i ∈ ids → s.linUpdated m i = false) →
        (t.lin m).header = none) := by
  have hn : s.linNext m (s.lin m).table (s.lin m).entry (s.lin m).rets =
      ((s.lin m).table, (s.linNext m (s.lin m).table (s.lin m).entry []).2.1, []) := by rw [hr]; rfl
  obtain ⟨u, hu, hou, b, r, i, hi⟩ := linSlot_moves h hd hs hc hp hn
  have hentry : (u.lin m).entry.val = s.linFollowing m := by rw [hi]; exact linNext_again_entry _ _
  have htable : (u.lin m).table = (s.lin m).table := by rw [hi]
  have hrun : (u.lin m).running = true := by rw [hi]; exact h.running
  have hstart : (u.lin m).started = true := by rw [hi]; exact hs
  have hend : (u.lin m).slotEnd = (s.lin m).slotEnd := by rw [hi]
  have hold : (u.lin m).old = (s.lin m).old := by rw [hi]
  have hlen : u.linSlotLen m (u.lin m).table.val (u.lin m).entry.val ≠ 0 := by
    rw [hou.bus.linSlotLen, htable, hentry]
    exact linSlotLen_following h0
  have hframes : u.linFrames m (u.lin m).table.val (u.lin m).entry.val = s.linFrames m (s.lin m).table.val (s.linFollowing m) := by
    rw [hou.bus.linFrames, htable, hentry]
  obtain ⟨hrun', htable', hentry', -⟩ := linEnter_place hrun hlen
  dsimp only
  rw [hu]
  refine ⟨linEnter_only hou, hrun', htable'.trans htable, by rw [hentry', hentry], ?_, fun i hf => ?_, fun ids hf hno => ?_⟩
  · rw [linEnter_slotEnd hrun hlen, State.linSlotAt]
    simp only [hou.bus.linSlotLen, hou.bus.param, hou.bus.time, htable, hentry, hstart, hend, Bool.true_and, decide_eq_true_eq, State.now]
  · have hplain := linEnter_plain hrun hlen (hframes.trans hf)
    rwa [hou.bus.time, hou.bus.param, hou.bus.linBits hold] at hplain
  · rw [linEnter_silent hrun hlen (hframes.trans hf) (fun i hin => by rw [hou.bus.linUpdated, hno i hin]), hi]

/-! A header completes (R230, R232, R323). -/

/-- Nothing but the header on the bus is due on a channel. -/
structure LinSteady (s : State) (m : Nat) : Prop where
  sleepDue : (s.lin m).sleepDue = false
  old : (s.lin m).old = none
  initDue : (s.lin m).initDue = false

theorem linFollow_none (h : (s.lin m).old = none) : s.linFollow m = s := by
  unfold State.linFollow
  dsimp only
  rw [h]

/-- A header that has yet to complete. -/
structure LinOpen (s : State) (m : Nat) (h : LinHdr) : Prop where
  header : (s.lin m).header = some h
  past : h.past = false

theorem linCycle_early {h : LinHdr} (ho : LinOpen s m h) (hs : LinSteady s m) (hd : s.time.cycle < h.at_) : s.linCycle m = s := by
  have hno : ¬ s.now ≥ h.at_ := Nat.not_le.2 hd
  simp [State.linCycle, ho.header, hno, hs.sleepDue, hs.initDue, linFollow_none hs.old]

theorem linCycle_due {h : LinHdr} (ho : LinOpen s m h) (hd : h.at_ ≤ s.time.cycle) (hs : LinSteady (s.linComplete m h) m) :
    s.linCycle m = s.linComplete m h := by
  have hnow : s.now ≥ h.at_ := hd
  simp [State.linCycle, ho.header, ho.past, hnow, hs.sleepDue, hs.initDue, linFollow_none hs.old]

/-- A header that has completed counts, whatever follows (R230, R238). -/
def State.linHeard (s : State) (m : Nat) (h : LinHdr) : State :=
  let s := (s.setLin m { s.lin m with header := some { h with past := true } }).add64 (linReg m 0x100) 1
  if (h.cfg h.id).bad then s.bump (linReg m 0x128) else s

/-- This channel responds to a header itself. -/
def State.linResponds (s : State) (m : Nat) (h : LinHdr) : Bool :=
  h.publishes && !s.secondary && (decide (s.linRole m = 1) || !(s.lin m).asleep)

section
variable (s : State) (m : Nat) (h : LinHdr)

theorem linHeard_lin : (s.linHeard m h).lin m = { s.lin m with header := some { h with past := true } } := by
  unfold State.linHeard
  split <;> exact State.lin_setLin_same ..

@[simp] theorem linHeard_mem : (s.linHeard m h).mem = s.mem := by
  unfold State.linHeard
  split <;> rfl

theorem linHeard_linSend : (s.linHeard m h).bus.linSend = s.bus.linSend := by
  unfold State.linHeard
  split <;> rfl

theorem linHeard_time : (s.linHeard m h).time = s.time := by
  unfold State.linHeard
  split <;> rfl

theorem linHeard_secondary : (s.linHeard m h).secondary = s.secondary := by
  unfold State.linHeard
  split <;> rfl

theorem linHeard_param (pid : Nat) : (s.linHeard m h).param pid = s.param pid := by
  unfold State.linHeard
  split <;> rfl

theorem linHeard_linRole : (s.linHeard m h).linRole m = s.linRole m := by
  unfold State.linRole
  rw [linHeard_lin, linHeard_param]

theorem linHeard_c64 : (s.linHeard m h).c64 (linReg m 0x100) = s.c64 (linReg m 0x100) + 1 := by
  unfold State.linHeard
  split <;> exact State.c64_add64_one ..

theorem linHeard_c32 {off : Nat} (ho : off ≠ 0x128) : (s.linHeard m h).c32 (linReg m off) = s.c32 (linReg m off) := by
  unfold State.linHeard
  split
  · exact State.c32_bump_other _ (by simpa using ho)
  · rfl

/-- What a header that completes does, by what it stands for and whether this channel responds to it. -/
theorem linComplete_eq : s.linComplete m h =
    if h.kind = .sleep then (s.linHeard m h).setLin m { (s.linHeard m h).lin m with
      sending := some h.id, lastTx := sleepData ++ [linChecksum 0x3C false sleepData] }
    else if s.linResponds m h then (s.linHeard m h).linPublish m { h with past := true } else s.linHeard m h := by
  have hr : s.linResponds m h = (h.publishes && !(s.linHeard m h).secondary &&
      (decide ((s.linHeard m h).linRole m = 1) || !((s.linHeard m h).lin m).asleep)) := by
    rw [State.linResponds, linHeard_secondary, linHeard_linRole, linHeard_lin]
  rw [hr]
  rfl

end

/-- A header that this channel does not respond to only counts. -/
theorem linComplete_heard {h : LinHdr} (hk : h.kind ≠ .sleep) (hr : s.linResponds m h = false) : s.linComplete m h = s.linHeard m h := by
  rw [linComplete_eq, if_neg hk, hr]
  rfl

theorem linHeard_valid {h : LinHdr} (hbad : (h.cfg h.id).bad = false) :
    s.linHeard m h = (s.setLin m { s.lin m with header := some { h with past := true } }).add64 (linReg m 0x100) 1 := by
  rw [State.linHeard, hbad]
  rfl

/-- The go-to-sleep command is sent after its header. -/
theorem linComplete_sleep {h : LinHdr} (hk : h.kind = .sleep) : s.linComplete m h = (s.linHeard m h).setLin m { (s.linHeard m h).lin m with
    sending := some h.id, lastTx := sleepData ++ [linChecksum 0x3C false sleepData] } := by
  rw [linComplete_eq, if_pos hk]

theorem linNoResponse_due {h : LinHdr} (hl : s.live = true) (hr : s.linRole m = 1) (hs : (s.lin m).sending = none)
    (hh : (s.lin m).header = some h) (hp : h.past = true) (hd : h.at_ + s.linBits m (14 * (h.len + 1)) ≤ s.time.cycle) :
    linNoResponse m s = if h.kind = .event then s.linEnd m else (s.linEnd m).bump (linReg m 0x108) := by
  have hnow : s.now ≥ h.at_ + s.linBits m (14 * (h.len + 1)) := hd
  simp [linNoResponse, hh, hl, hr, hp, hs, hnow]

theorem linNoResponse_early {h : LinHdr} (hh : (s.lin m).header = some h) (hd : s.time.cycle < h.at_ + s.linBits m (14 * (h.len + 1))) :
    linNoResponse m s = s := by
  have hno : ¬ s.now ≥ h.at_ + s.linBits m (14 * (h.len + 1)) := Nat.not_le.2 hd
  simp [linNoResponse, hh, hno]

/-! Sleep and restart (R323). -/

/-- What GO_TO_SLEEP does on a channel. -/
def State.linToSleep (s : State) (m : Nat) : State :=
  let l := s.lin m
  if s.linRole m = 1 && !l.asleep then
    if l.running && l.started && s.now < l.slotEnd then s.setLin m { l with sleepDue := true } else s.linSleep m
  else s

theorem goToSleep_ebb (hl : s.live = true) (hn : s.nm.state = .ebb) (hp : s.secondary = false) (he : s.ebbLeft ≤ 40000000) :
    goToSleep s = (List.range 16).foldl State.linToSleep s := by
  have hin : (s.live && decide (s.nm.state = .ebb) && !s.secondary && decide (s.ebbLeft ≤ msCycles 50)) = true := by
    have hms : s.ebbLeft ≤ msCycles 50 := he
    simp [hl, hn, hp, hms]
  exact if_pos hin

theorem linToSleep_only (s : State) (m : Nat) : LinOnly m s (s.linToSleep m) := by
  unfold State.linToSleep
  dsimp only
  split
  · split
    · exact (LinOnly.refl s).setLin _
    · exact (LinOnly.refl s).linSleep
  · exact .refl s

theorem foldl_linToSleep_other (k : Nat) (ms : List Nat) (hk : k ∉ ms) (s : State) :
    LinBus s (ms.foldl State.linToSleep s) ∧ (ms.foldl State.linToSleep s).lin k = s.lin k := by
  induction ms generalizing s with
  | nil => exact ⟨.refl s, rfl⟩
  | cons m ms ih =>
    obtain ⟨hkm, hkms⟩ : k ≠ m ∧ k ∉ ms := by simpa using hk
    obtain ⟨hb, hl⟩ := ih hkms (s.linToSleep m)
    have ho := linToSleep_only s m
    exact ⟨ho.bus.trans hb, hl.trans (ho.others k hkm)⟩

/-- Channels go to sleep each by itself. -/
theorem foldl_linToSleep_lin (k : Nat) (ms : List Nat) (hd : ms.Nodup) (hk : k ∈ ms) (s : State) :
    ∃ u, LinBus s u ∧ u.lin k = s.lin k ∧ (ms.foldl State.linToSleep s).lin k = (u.linToSleep k).lin k := by
  obtain ⟨before, after, rfl⟩ := List.append_of_mem hk
  obtain ⟨-, hafter, hdisj⟩ := List.nodup_append.1 hd
  have hbefore : k ∉ before := fun h => hdisj k h k (by simp) rfl
  obtain ⟨hb, hl⟩ := foldl_linToSleep_other k before hbefore s
  refine ⟨_, hb, hl, ?_⟩
  rw [List.foldl_append, List.foldl_cons]
  exact (foldl_linToSleep_other k after (List.nodup_cons.1 hafter).1 _).2

/-- A channel that is no commander, or already asleep, is left alone. -/
theorem linToSleep_idle (h : s.linRole m ≠ 1 ∨ (s.lin m).asleep = true) : s.linToSleep m = s := by
  refine if_neg ?_
  obtain h | h := h <;> simp [h]

/-- A commander in a slot waits for its end. -/
theorem linToSleep_waits (hr : s.linRole m = 1) (ha : (s.lin m).asleep = false) (hrun : (s.lin m).running = true)
    (hs : (s.lin m).started = true) (hd : s.time.cycle < (s.lin m).slotEnd) :
    s.linToSleep m = s.setLin m { s.lin m with sleepDue := true } := by
  have hnow : s.now < (s.lin m).slotEnd := hd
  simp [State.linToSleep, hr, ha, hrun, hs, hnow]

/-- A commander outside a slot begins the command. -/
theorem linToSleep_sleeps (hr : s.linRole m = 1) (ha : (s.lin m).asleep = false)
    (hd : (s.lin m).running = false ∨ (s.lin m).started = false ∨ (s.lin m).slotEnd ≤ s.time.cycle) : s.linToSleep m = s.linSleep m := by
  have hin : (s.linRole m = 1 && !(s.lin m).asleep) = true := by simp [hr, ha]
  refine (if_pos hin).trans (if_neg ?_)
  have hlate : (s.lin m).slotEnd ≤ s.time.cycle → ¬ s.now < (s.lin m).slotEnd := Nat.not_lt.2
  obtain hd | hd | hd := hd
  · simp [hd]
  · simp [hd]
  · simp [hlate hd]

/-- The schedule has ended, and the header of the command is on the bus. -/
theorem linSleep_lin (s : State) (m : Nat) : ((s.linSleep m).lin m).asleep = true ∧ ((s.linSleep m).lin m).running = false ∧
    ((s.linSleep m).lin m).sleepDue = false ∧
    (∃ h, ((s.linSleep m).lin m).header = some h ∧ h.id = 0x3C ∧ h.kind = .sleep ∧ h.past = false) ∧
    ((s.lin m).running = true → (s.lin m).rets = [] → ((s.linSleep m).lin m).resume = some (s.lin m).table) := by
  obtain ⟨h, b, r, i, hi⟩ := linSent_lin s m
  unfold State.linSleep
  rw [linSendHeader_lin, State.lin_setLin_same, hi]
  refine ⟨rfl, rfl, rfl, ⟨_, rfl, rfl, rfl, rfl⟩, fun hrun hrets => ?_⟩
  simp [hrun, hrets]

theorem linRestart_early {t : Nat} (hw : (s.lin m).wakeAt = some t) (hd : s.time.cycle < t + 80000000) : linRestart m s = s := by
  have hno : ¬ s.now ≥ t + msCycles 100 := Nat.not_le.2 hd
  simp [linRestart, hw, hno]

theorem linRestart_due {t : Nat} {tb : Fin 8} (hl : s.live = true) (hw : (s.lin m).wakeAt = some t) (hr : (s.lin m).resume = some tb)
    (hd : t + 80000000 ≤ s.time.cycle) : linRestart m s = (s.setLin m { s.lin m with wakeAt := none, resume := none }).linStart m tb := by
  have hnow : s.now ≥ t + msCycles 100 := hd
  simp [linRestart, hw, hr, hl, hnow]

/-! The settlement. -/

theorem exec_linSched (s : State) (ch : LinCh) (v : Byte) : exec (.linSched ch v) s = .next (settle s (linSched ch.val v.toNat s)) := rfl
theorem exec_linNoResponse (s : State) (ch : LinCh) : exec (.linNoResponse ch) s = .next (settle s (linNoResponse ch.val s)) := rfl
theorem exec_linRestart (s : State) (ch : LinCh) : exec (.linRestart ch) s = .next (settle s (linRestart ch.val s)) := rfl
theorem exec_goToSleep (s : State) : exec .goToSleep s = .next (settle s (goToSleep s)) := rfl

/-- A header of another node's frame that completes counts once. -/
theorem linCycle_heard {h : LinHdr} (ho : LinOpen s m h) (hs : LinSteady s m) (hd : h.at_ ≤ s.time.cycle) (hk : h.kind = .plain)
    (hbad : (h.cfg h.id).bad = false) (hpub : h.publishes = false) :
    s.linCycle m = (s.setLin m { s.lin m with header := some { h with past := true } }).add64 (linReg m 0x100) 1 := by
  have hc : s.linComplete m h = s.linHeard m h := linComplete_heard (by simp [hk]) (by simp [State.linResponds, hpub])
  have hsteady : LinSteady (s.linComplete m h) m := by
    rw [hc]
    constructor <;> rw [linHeard_lin]
    exacts [hs.sleepDue, hs.old, hs.initDue]
  rw [linCycle_due ho hd hsteady, hc, linHeard_valid hbad]

/-- As the header of the go-to-sleep command completes, its eight bytes follow. -/
theorem linCycle_sleep {h : LinHdr} (ho : LinOpen s m h) (hs : LinSteady s m) (hd : h.at_ ≤ s.time.cycle) (hk : h.kind = .sleep) :
    (s.linCycle m).c64 (linReg m 0x100) = s.c64 (linReg m 0x100) + 1 ∧ ((s.linCycle m).lin m).sending = some h.id ∧
    ((s.linCycle m).lin m).lastTx = [0x00, 0xFF, 0xFF, 0xFF, 0xFF, 0xFF, 0xFF, 0xFF, 0x00] := by
  have hl : (s.linComplete m h).lin m = { s.lin m with
      header := some { h with past := true }
      sending := some h.id
      lastTx := sleepData ++ [linChecksum 0x3C false sleepData] } := by
    rw [linComplete_sleep hk, State.lin_setLin_same, linHeard_lin]
  have hsteady : LinSteady (s.linComplete m h) m := by
    constructor <;> rw [hl]
    exacts [hs.sleepDue, hs.old, hs.initDue]
  have hbytes : sleepData ++ [linChecksum 0x3C false sleepData] = [0x00, 0xFF, 0xFF, 0xFF, 0xFF, 0xFF, 0xFF, 0xFF, 0x00] := by decide
  rw [linCycle_due ho hd hsteady, hl]
  refine ⟨?_, rfl, hbytes⟩
  rw [linComplete_sleep hk, State.c64_setLin, linHeard_c64]

/-- LIN_SCHED (R235). -/
theorem linSched_spec (s : State) (ch : LinCh) (v : Byte) (hl : s.live = true) (hr : s.linRole ch.val = 1) :
    let m := ch.val
    let l := s.lin m
    (v = 0xFF → l.running = true → exec (.linSched ch v) s = .next (settle s (s.setLin m { l with pending := some none }))) ∧
    (v.toNat < 8 → s.linTableOk m v.toNat = false → exec (.linSched ch v) s = .next (settle s (s.bump (linReg m 0x128)))) ∧
    (v.toNat < 8 → s.linTableOk m v.toNat = true → l.running = true →
      ∃ tb : Fin 8, tb.val = v.toNat ∧ exec (.linSched ch v) s = .next (settle s (s.setLin m { l with pending := some (some tb) }))) ∧
    (v.toNat < 8 → s.linTableOk m v.toNat = true → l.running = false →
      ∃ t, exec (.linSched ch v) s = .next t ∧ (t.lin m).running = true ∧ (t.lin m).table.val = v.toNat ∧ (t.lin m).entry = 0 ∧
        (t.lin m).started = false ∧ (t.lin m).slotEnd = s.time.cycle ∧ (t.lin m).irq.getLsbD 4 = true ∧ SameMem s t) := by
  refine ⟨?_, fun hv hok => ?_, fun hv hok hrun => ?_, fun hv hok hrun => ?_⟩
  · rintro rfl hrun
    have hff : (0xFF : Byte).toNat = 0xFF := rfl
    rw [exec_linSched, hff, linSched_stop hl hr hrun]
  · rw [exec_linSched, linSched_refused hl hr hv hok]
  · refine ⟨Fin.ofNat 8 v.toNat, Nat.mod_eq_of_lt hv, ?_⟩
    rw [exec_linSched, linSched_waits hl hr hv hok hrun]
  · refine ⟨_, exec_linSched s ch v, ?_⟩
    rw [lin_settle, linSched_starts hl hr hv hok hrun, linStart_lin]
    refine ⟨rfl, Nat.mod_eq_of_lt hv, rfl, rfl, rfl, ?_, sameMem_of_mem (by simp)⟩
    have hirq := linStart_bit s ch.val (Fin.ofNat 8 v.toNat)
    rwa [linStart_lin] at hirq

/-- What a statement about the end of a slot reads of the state after it. -/
theorem linSlot_outcome (s : State) (ch : LinCh) : ∃ t, exec (.linSlot ch) s = .next t ∧
    (∀ k, t.lin k = (linSlot ch.val s).lin k) ∧ (∀ a, t.c64 a = (linSlot ch.val s).c64 a) ∧ SameMem s t :=
  ⟨_, exec_linSlot s ch, fun _ => rfl, fun _ => rfl, linSlot_sameMem s ch.val⟩

/-- A pending table's first slot. -/
theorem linSlot_switch_place (h : Scheduling s m) (hd : (s.lin m).slotEnd ≤ s.time.cycle) {tb : Fin 8} (hr : (s.lin m).rets = [])
    (hp : (s.lin m).pending = some (some tb)) (hlen : s.linSlotLen m tb.val 0 ≠ 0) :
    ((linSlot m s).lin m).running = true ∧ ((linSlot m s).lin m).table = tb ∧ ((linSlot m s).lin m).entry = 0 ∧
    ((linSlot m s).lin m).pending = none ∧ ((linSlot m s).lin m).irq.getLsbD 4 = true := by
  obtain ⟨u, hu, ho, hrun, htable, hentry, hpend, hirq⟩ := linSlot_switches h hd hr hp
  obtain ⟨h1, h2, h3, -, h4, -, h5⟩ := linEnter_place hrun (by rwa [ho.bus.linSlotLen, htable, hentry])
  rw [hu]
  exact ⟨h1, h2.trans htable, h3.trans hentry, h4.trans hpend, (congrArg (·.getLsbD 4) h5).trans hirq⟩

/-- A resolving table's first slot. -/
theorem linSlot_resolve_place (h : Scheduling s m) (hd : (s.lin m).slotEnd ≤ s.time.cycle) (hs : (s.lin m).started = true) {ct : Fin 8}
    (hc : (s.lin m).collNext = some ct) (hp : (s.lin m).pending = none) (hlen : s.linSlotLen m ct.val 0 ≠ 0) :
    ((linSlot m s).lin m).table = ct ∧ ((linSlot m s).lin m).entry = 0 ∧ ((linSlot m s).lin m).collNext = none ∧
    ((linSlot m s).lin m).rets = ((s.lin m).table, (s.lin m).entry) :: (s.lin m).rets := by
  obtain ⟨u, hu, ho, b, r, i, hi⟩ := linSlot_resolves h hd hs hc hp hlen
  obtain ⟨-, h1, h2, h3, -, h4, -⟩ := linEnter_place (s := u) (m := m) (by rw [hi]; exact h.running) (by rw [ho.bus.linSlotLen, hi]; exact hlen)
  rw [hu, h1, h2, h3, h4, hi]
  simp only [and_self]

/-- The slot after a resolving table has ended. -/
theorem linSlot_return_place (h : Scheduling s m) (hd : (s.lin m).slotEnd ≤ s.time.cycle) (hs : (s.lin m).started = true)
    {r : Fin 8 × Fin 64} {rs : List (Fin 8 × Fin 64)} (hrets : (s.lin m).rets = r :: rs)
    (hc : (s.lin m).collNext = none) (hp : (s.lin m).pending = none)
    (hend : s.linSlotLen m (s.lin m).table.val ((s.lin m).entry.val + 1) = 0) (hlen : s.linSlotLen m r.1.val (r.2.val + 1) ≠ 0) :
    ((linSlot m s).lin m).table = r.1 ∧ ((linSlot m s).lin m).entry.val = r.2.val + 1 ∧ ((linSlot m s).lin m).rets = rs := by
  have hplace : (Fin.ofNat 64 (r.2.val + 1)).val = r.2.val + 1 := ofNat_of_linSlotLen hlen
  have hn : s.linNext m (s.lin m).table (s.lin m).entry (s.lin m).rets = (r.1, Fin.ofNat 64 (r.2.val + 1), rs) := by
    rw [hrets, linNext_returns hend hlen]
  obtain ⟨u, hu, ho, b, p, i, hi⟩ := linSlot_moves h hd hs hc hp hn
  obtain ⟨-, h1, h2, h3, -⟩ := linEnter_place (s := u) (m := m) (by rw [hi]; exact h.running)
    (by rw [ho.bus.linSlotLen, hi]; dsimp only; rwa [hplace])
  rw [hu, h1, h2, h3, hi]
  exact ⟨rfl, hplace, rfl⟩

/-- GO_TO_SLEEP (R323). -/
theorem goToSleep_spec (s : State) (ch : LinCh) (hl : s.live = true) (hn : s.nm.state = .ebb) (hp : s.secondary = false)
    (he : s.ebbLeft ≤ 40000000) :
    let l := s.lin ch.val
    ∃ t, exec .goToSleep s = .next t ∧ SameMem s t ∧
      ((s.linRole ch.val ≠ 1 ∨ l.asleep = true) → t.lin ch.val = l) ∧
      (s.linRole ch.val = 1 → l.asleep = false → l.running = true → l.started = true → s.time.cycle < l.slotEnd →
        t.lin ch.val = { l with sleepDue := true }) ∧
      (s.linRole ch.val = 1 → l.asleep = false → (l.running = false ∨ l.started = false ∨ l.slotEnd ≤ s.time.cycle) →
        (t.lin ch.val).asleep = true ∧ (t.lin ch.val).running = false ∧ (t.lin ch.val).sleepDue = false ∧
        (∃ h, (t.lin ch.val).header = some h ∧ h.id = 0x3C ∧ h.kind = .sleep ∧ h.past = false) ∧
        (l.running = true → l.rets = [] → (t.lin ch.val).resume = some l.table)) := by
  obtain ⟨u, hb, hu, hk⟩ := foldl_linToSleep_lin ch.val (List.range 16) List.nodup_range (List.mem_range.2 ch.isLt) s
  have hrole : u.linRole ch.val = s.linRole ch.val := hb.linRole (by rw [hu])
  refine ⟨_, exec_goToSleep s, sameMem_of_mem (by simp), ?_⟩
  rw [lin_settle, goToSleep_ebb hl hn hp he, hk]
  rw [← hu, ← hrole, ← hb.time]
  refine ⟨fun h => ?_, fun hr ha hrun hs hd => ?_, fun hr ha hd => ?_⟩
  · rw [linToSleep_idle h]
  · rw [linToSleep_waits hr ha hrun hs hd, State.lin_setLin_same]
  · rw [linToSleep_sleeps hr ha hd]
    exact linSleep_lin u ch.val

/-- Settles O29: a table passes its check iff each entry of its leading run does; a slot that is due takes the schedule to the place that the
pending switch, the collision or the table's order gives; and the sixteen channels go to sleep each by itself. -/
theorem linSchedules : Obligations.LinSchedules := by
  refine ⟨linSched_spec, linTableOk_iff, fun s ch hl hr hsec => ?_, fun s ch h => ?_, fun s ch h hl hr => ?_, goToSleep_spec,
    fun s ch at_ tb hl hw hres => ?_⟩
  · intro m l hrun ha
    have h : Scheduling s m := ⟨hl, hr, hsec, hrun, ha⟩
    obtain ⟨t, ht, htl, htc, hmem⟩ := linSlot_outcome s ch
    refine ⟨fun hd => ?_, fun hd hs => ⟨fun hc hrets hp h0 => ?_, fun tb hrets hp hlen => ?_, fun hp => ?_, fun ct hc hp hlen => ?_,
      fun r rs hrets hc hp hend hlen => ?_⟩⟩
    · rw [exec_linSlot, linSlot_early hd]
    · obtain ⟨ho, hrun', htable, hentry, hend, hplain, hsilent⟩ := linSlot_follows h hd hs hc hrets hp h0
      refine ⟨t, ht, ?_⟩
      simp only [htl, htc]
      exact ⟨hrun', htable, hentry, hend, ho.others, ho.bus.c64 _, hmem, hplain, hsilent⟩
    · refine ⟨t, ht, ?_⟩
      rw [htl]
      exact linSlot_switch_place h hd hrets hp hlen
    · obtain ⟨hstop, hpend⟩ := linSlot_stops h hd hp
      refine ⟨t, ht, ?_⟩
      rw [htl]
      exact ⟨hstop, hpend, hmem⟩
    · refine ⟨t, ht, ?_⟩
      rw [htl]
      exact linSlot_resolve_place h hd hs hc hp hlen
    · refine ⟨t, ht, ?_⟩
      rw [htl]
      exact linSlot_return_place h hd hs hrets hc hp hend hlen
  · intro m l hh hpast hsd hold hinit
    have ho : LinOpen s m h := ⟨hh, hpast⟩
    have hs : LinSteady s m := ⟨hsd, hold, hinit⟩
    refine ⟨linCycle_early ho hs, linCycle_heard ho hs, fun hd hk hid => ?_⟩
    rw [← hid]
    exact linCycle_sleep ho hs hd hk
  · intro l hsend hh hpast due u
    refine ⟨fun hd => ?_, fun hd => ?_⟩
    · rw [exec_linNoResponse, linNoResponse_due hl hr hsend hh hpast hd]
      rfl
    · rw [exec_linNoResponse, linNoResponse_early hh hd]
  · refine ⟨fun hd => ?_, fun hd => ?_⟩
    · rw [exec_linRestart, linRestart_early hw hd]
    · refine ⟨_, exec_linRestart s ch, ?_⟩
      rw [lin_settle, linRestart_due hl hw hres hd, linStart_lin, State.lin_setLin_same]
      exact ⟨rfl, rfl, rfl, rfl, sameMem_of_mem (by simp)⟩

end Sys2Proof.Machine
end

