-- ==== Sys2Proof/Proofs/LinResponses.lean ====
section
/-! SUPPORT. Commits, headers that a responder receives, and responses (O30). -/

namespace Sys2Proof.Machine

variable {s : State} {m : Nat}

/-! Commits and the flags of an object (R230, R232). -/

theorem exec_lpub (s : State) (ch : LinCh) (obj : Fin 64) : exec (.lpub ch obj) s = .next (settle s (lpub ch.val obj.val s)) := rfl

/-- A commit goes to the screen with the first LEN bytes of the object. -/
theorem lpub_live (hl : s.live = true) (ch : LinCh) (i : Nat) : lpub ch.val i s =
    s.postKey (.lpub ch i (s.rdB (linObj ch.val i + 16) 8))
      (linKey ch.val true none i (s.linCfg ch.val i).enh ((s.rdB (linObj ch.val i + 16) 8).take (s.linCfg ch.val i).len))
      ((s.rdB (linObj ch.val i + 16) 8).take (s.linCfg ch.val i).len) := by
  unfold lpub
  dsimp only
  rw [hl, fin_ofNat_val]
  rfl

theorem fitBytes_length (data : List Byte) : fitBytes data.length data = data := by
  simp [fitBytes]

theorem linCommit_buf (s : State) (m i : Nat) {data : List Byte} (h : data.length = 8) : (s.linCommit m i data).linBuf m i = data := by
  have hfit : fitBytes 8 data = data := by rw [← h, fitBytes_length]
  have hbus : (s.linCommit m i data).bus.linSend = SMap.set none s.bus.linSend (m * 64 + i) (some (fitBytes 8 data)) := rfl
  rw [State.linBuf, hbus, SMap.get_set_same, hfit]
  rfl

theorem linCommit_flags (s : State) (m i : Nat) (data : List Byte) :
    (s.linCommit m i data).linFlags m i = (s.linFlags m i ||| 12) % 256 := State.rd_wr_same ..

/-- A commit sets UPDATED and DATA_VALID. -/
theorem linCommit_bit (s : State) (m i : Nat) (data : List Byte) {k : Nat} (hk : k = 2 ∨ k = 3) :
    bit ((s.linCommit m i data).linFlags m i) k = true := by
  rw [linCommit_flags, show (256 : Nat) = 2 ^ 8 from rfl, bit, Nat.testBit_mod_two_pow, Nat.testBit_or]
  obtain rfl | rfl := hk <;> simp [Nat.testBit_eq_decide_div_mod_eq]

theorem linCommit_sameMemBut (s : State) (m i : Nat) (data : List Byte) : SameMemBut s (s.linCommit m i data) (linObj m i + 4) 1 :=
  sameMemBut_of_mem (s.wr_sameMemBut (linObj m i + 4) 1 (s.linFlags m i ||| 12)) rfl

theorem linFlags_lt (s : State) (m i : Nat) : s.linFlags m i < 256 := s.rd_lt (linObj m i + 4) 1

section
variable (s : State) (m i : Nat)

/-- UPDATED reads 0 once it is cleared. -/
theorem linUpdated_clearUpdated : (s.clearUpdated m i).linUpdated m i = false := by
  unfold State.clearUpdated
  split
  · next h =>
    have hf := linFlags_lt s m i
    have hafter : (s.setLinFlags m i (s.linFlags m i - 4)).linFlags m i = (s.linFlags m i - 4) % 256 := State.rd_wr_same ..
    rw [State.linUpdated, bit, Nat.testBit_eq_decide_div_mod_eq, decide_eq_true_eq] at h
    rw [State.linUpdated, hafter, bit, Nat.testBit_eq_decide_div_mod_eq, decide_eq_false_iff_not]
    omega
  · next h => simpa using h

theorem clearUpdated_sameMemBut : SameMemBut s (s.clearUpdated m i) (linObj m i + 4) 1 := by
  unfold State.clearUpdated
  split
  · exact s.wr_sameMemBut _ _ _
  · exact fun _ _ => rfl

theorem clearUpdated_lin (k : Nat) : (s.clearUpdated m i).lin k = s.lin k := by
  unfold State.clearUpdated
  split <;> rfl

theorem clearUpdated_c64 (a : Nat) : (s.clearUpdated m i).c64 a = s.c64 a := by
  unfold State.clearUpdated
  split <;> rfl

end

/-! A channel answers a header (R232, R237). -/

section
variable (s : State) (m : Nat) (h : LinHdr)

/-- The bytes with which the send buffer of object `o` answers a header. -/
def State.linReply (s : State) (m : Nat) (h : LinHdr) (o : Nat) (assoc : Bool) : List Byte :=
  let data := s.linSignal m h.sig o ((s.linBuf m o).take (if assoc then (h.cfg o).len else (h.cfg h.id).len))
  if assoc then BitVec.ofNat 8 (linPid o) :: data.drop 1 else data

theorem linAnswer_eq (o : Nat) (assoc : Bool) : s.linAnswer m h o assoc = (s.clearUpdated m o).setLin m { s.lin m with
    sending := some o, lastTx := s.linReply m h o assoc ++ [linChecksum h.id (h.cfg h.id).enh (s.linReply m h o assoc)] } := by
  rw [← clearUpdated_lin s m o m]
  rfl

theorem linAnswer_lin (o : Nat) (assoc : Bool) : (s.linAnswer m h o assoc).lin m = { s.lin m with
    sending := some o, lastTx := s.linReply m h o assoc ++ [linChecksum h.id (h.cfg h.id).enh (s.linReply m h o assoc)] } := by
  rw [linAnswer_eq, State.lin_setLin_same]

theorem linAnswer_updated (o : Nat) (assoc : Bool) : (s.linAnswer m h o assoc).linUpdated m o = false := by
  rw [linAnswer_eq]
  exact linUpdated_clearUpdated s m o

theorem linAnswer_sameMemBut (o : Nat) (assoc : Bool) : SameMemBut s (s.linAnswer m h o assoc) (linObj m o + 4) 1 := by
  rw [linAnswer_eq]
  exact clearUpdated_sameMemBut s m o

theorem linAnswer_c64 (o : Nat) (assoc : Bool) (a : Nat) : (s.linAnswer m h o assoc).c64 a = s.c64 a := by
  rw [linAnswer_eq]
  exact clearUpdated_c64 s m o a

/-- An event-triggered object that does not stand for a sporadic frame. -/
def LinHdr.byEvent (h : LinHdr) : Bool := (h.cfg h.id).event && decide (h.kind ≠ .sporadic)

end

section
variable {h : LinHdr}

theorem linPublish_associated (he : h.byEvent = true) (hu : s.linUpdated m (h.cfg h.id).assoc = true) :
    s.linPublish m h = s.linAnswer m h (h.cfg h.id).assoc true := (if_pos he).trans (if_pos hu)

theorem linPublish_silent (he : h.byEvent = true) (hu : s.linUpdated m (h.cfg h.id).assoc = false) : s.linPublish m h = s.linEnd m :=
  (if_pos he).trans (if_neg (Bool.eq_false_iff.1 hu))

theorem linPublish_own (he : h.byEvent = false) (hv : bit (s.linFlags m h.id) 3 = true) : s.linPublish m h = s.linAnswer m h h.id false :=
  (if_neg (Bool.eq_false_iff.1 he)).trans (if_pos hv)

theorem linPublish_uncommitted (he : h.byEvent = false) (hv : bit (s.linFlags m h.id) 3 = false) :
    s.linPublish m h = (s.linEnd m).bump (linReg m 0x12C) :=
  (if_neg (Bool.eq_false_iff.1 he)).trans (if_neg (Bool.eq_false_iff.1 hv))

end

/-- An answer or none, the header keeps its timestamp, and no header counts. -/
theorem linPublish_kept (s : State) (m : Nat) (h : LinHdr) :
    ((s.linPublish m h).lin m).headTs = (s.lin m).headTs ∧ ∀ a, (s.linPublish m h).c64 a = s.c64 a := by
  cases he : h.byEvent
  · cases hv : bit (s.linFlags m h.id) 3
    · rw [linPublish_uncommitted he hv, State.lin_bump, linEnd_lin]
      exact ⟨rfl, fun _ => rfl⟩
    · rw [linPublish_own he hv, linAnswer_lin]
      exact ⟨rfl, linAnswer_c64 s m h _ _⟩
  · cases hu : s.linUpdated m (h.cfg h.id).assoc
    · rw [linPublish_silent he hu, linEnd_lin]
      exact ⟨rfl, fun _ => rfl⟩
    · rw [linPublish_associated he hu, linAnswer_lin]
      exact ⟨rfl, linAnswer_c64 s m h _ _⟩

/-- A header that completes counts once and keeps its timestamp, whatever it stands for. -/
theorem linComplete_kept (s : State) (m : Nat) (h : LinHdr) : ((s.linComplete m h).lin m).headTs = (s.lin m).headTs ∧
    (s.linComplete m h).c64 (linReg m 0x100) = s.c64 (linReg m 0x100) + 1 := by
  rw [linComplete_eq]
  split
  · rw [State.lin_setLin_same, State.c64_setLin, linHeard_lin, linHeard_c64]
    exact ⟨rfl, rfl⟩
  · split
    · obtain ⟨hts, hc⟩ := linPublish_kept (s.linHeard m h) m { h with past := true }
      rw [hts, hc, linHeard_lin, linHeard_c64]
      exact ⟨rfl, rfl⟩
    · rw [linHeard_lin, linHeard_c64]
      exact ⟨rfl, rfl⟩

/-! A responder receives a header (R228, R229, R237). -/

theorem exec_linHeader (s : State) (ch : LinCh) (pid : Byte) (baud age : Nat) :
    exec (.linHeader ch pid baud age) s = .next (settle s (linHeader ch.val pid.toNat baud age s)) := rfl

/-- Whatever the bus carried before a header is over, and a synchronising responder has measured the rate. -/
def State.linSynced (s : State) (m baud : Nat) : State :=
  let s0 := (s.linSent m).linEnd m
  if s.paramBit (0x0920 + m) 0 then s0.setLin m { s0.lin m with baud := baud } else s0

/-- The header is out of rate for a synchronising responder. -/
def State.linFar (s : State) (m baud : Nat) : Bool :=
  s.paramBit (0x0920 + m) 0 && decide (((baud : Int) - s.linRate m).natAbs * 100 > s.linRate m * 14)

/-- The header of identifier `i`, received now. -/
def State.linHdr (s : State) (m i : Nat) : LinHdr :=
  { id := i, kind := .plain, at_ := s.time.cycle, past := true, ctrl := s.linCtrl m, sig := s.param (0x0950 + m) }

/-- A responder as it takes a header. -/
def State.linMarked (s : State) (m baud age : Nat) : State :=
  (s.linSynced m baud).setLin m { (s.linSynced m baud).lin m with headTs := ts32 (s.time.ltime - age * s.time.incr) }

section
variable (s : State) (m baud age : Nat)

theorem linCleared_only : LinOnly m s ((s.linSent m).linEnd m) := (LinOnly.refl s).linSent.linEnd

theorem linCleared_lin : ∃ r i, ((s.linSent m).linEnd m).lin m = { s.lin m with
    header := none, sending := none, idleFrom := s.time.cycle, respErr := r, irq := i } := by
  obtain ⟨h, b, r, i, hi⟩ := linSent_lin s m
  rw [linEnd_lin, hi, (LinOnly.refl s).linSent.bus.time]
  exact ⟨_, _, rfl⟩

theorem linCleared_c32 (a : Nat) : ((s.linSent m).linEnd m).c32 a = s.c32 a := by
  rw [State.c32_linEnd]
  unfold State.linSent
  split <;> rfl

theorem linSynced_only : LinOnly m s (s.linSynced m baud) := by
  unfold State.linSynced
  dsimp only
  split
  · exact (linCleared_only s m).setLin _
  · exact linCleared_only s m

theorem linSynced_lin : ∃ b, (s.linSynced m baud).lin m = { ((s.linSent m).linEnd m).lin m with baud := b } := by
  unfold State.linSynced
  dsimp only
  split
  · exact ⟨_, State.lin_setLin_same ..⟩
  · exact ⟨_, rfl⟩

theorem linSynced_c32 (a : Nat) : (s.linSynced m baud).c32 a = s.c32 a := by
  rw [← linCleared_c32 s m a]
  unfold State.linSynced
  dsimp only
  split <;> rfl

theorem linMarked_only : LinOnly m s (s.linMarked m baud age) := (linSynced_only s m baud).setLin _

theorem linMarked_lin : ∃ b, (s.linMarked m baud age).lin m = { ((s.linSent m).linEnd m).lin m with
    baud := b, headTs := ts32 (s.time.ltime - age * s.time.incr) } := by
  obtain ⟨b, hb⟩ := linSynced_lin s m baud
  rw [State.linMarked, State.lin_setLin_same, hb]
  exact ⟨_, rfl⟩

theorem linMarked_c32 (a : Nat) : (s.linMarked m baud age).c32 a = s.c32 a := linSynced_c32 s m baud a

/-- The header as the responder that takes it sees it. -/
theorem linMarked_hdr (i : Nat) : (s.linMarked m baud age).linHdr m i = s.linHdr m i := by
  have hb := (linMarked_only s m baud age).bus
  rw [State.linHdr, hb.time, hb.linCtrl, hb.param, State.linHdr]

theorem linMarked_eq : (s.linSynced m baud).setLin m { (s.linSynced m baud).lin m with
    headTs := ts32 ((s.linSynced m baud).time.ltime - age * (s.linSynced m baud).time.incr) } = s.linMarked m baud age := by
  rw [(linSynced_only s m baud).bus.time]
  rfl

/-- LIN_HEADER at a responder: out of rate, of wrong parity, or taken. -/
theorem linHeader_responder (pid : Nat) (hl : s.live = true) (hr : s.linRole m = 2) : linHeader m pid baud age s =
    if s.linFar m baud then (s.linSynced m baud).bump (linReg m 0x11C)
    else if linPid pid ≠ pid then ((s.linSynced m baud).bump (linReg m 0x110)).linIrq m 3
    else (s.linMarked m baud age).linComplete m (s.linHdr m (pid % 64)) := by
  have hb := (linCleared_only s m).bus
  have hold : (((s.linSent m).linEnd m).lin m).old = (s.lin m).old := by
    obtain ⟨r, i, hi⟩ := linCleared_lin s m
    rw [hi]
  have hrate : ((s.linSent m).linEnd m).linRate m = s.linRate m := hb.linRate hold
  have hsync : ((s.linSent m).linEnd m).paramBit (0x0920 + m) 0 = s.paramBit (0x0920 + m) 0 := by
    rw [State.paramBit, hb.param, State.paramBit]
  have hin : (s.live && decide (s.linRole m = 2)) = true := by simp [hl, hr]
  rw [← linMarked_hdr s m baud age, ← linMarked_eq]
  refine (if_pos hin).trans ?_
  simp only [hrate, hsync]
  rfl

end

/-! A header that is taken (R230, R232, R237). -/

theorem linHdr_cfg (s : State) (m j : Nat) {i : Nat} (hi : i < 64) : (s.linHdr m j).cfg i = s.linCfg m i := by
  simp [LinHdr.cfg, State.linHdr, State.linCtrl, State.linCfg, hi]

section
variable (s : State) (m baud age : Nat) {i : Nat}

/-- A responder that has taken a header and counted it. -/
def State.linHeld (s : State) (m baud age i : Nat) : State := (s.linMarked m baud age).linHeard m (s.linHdr m i)

theorem linHeld_lin (i : Nat) : ∃ b, (s.linHeld m baud age i).lin m = { ((s.linSent m).linEnd m).lin m with
    header := some (s.linHdr m i), baud := b, headTs := ts32 (s.time.ltime - age * s.time.incr) } := by
  obtain ⟨b, hb⟩ := linMarked_lin s m baud age
  rw [State.linHeld, linHeard_lin, hb]
  exact ⟨_, rfl⟩

theorem linHeld_mem (i : Nat) : (s.linHeld m baud age i).mem = s.mem := (linHeard_mem ..).trans (linMarked_only s m baud age).bus.mem

theorem linHeld_flags (i o : Nat) : (s.linHeld m baud age i).linFlags m o = s.linFlags m o := State.rd_of_mem (linHeld_mem s m baud age i) _ _

theorem linHeld_updated (i o : Nat) : (s.linHeld m baud age i).linUpdated m o = s.linUpdated m o := by
  unfold State.linUpdated
  rw [linHeld_flags]

theorem linHeld_buf (i o : Nat) : (s.linHeld m baud age i).linBuf m o = s.linBuf m o := by
  unfold State.linBuf
  rw [State.linHeld, linHeard_linSend, (linMarked_only s m baud age).bus.linSend]

theorem linHeld_c32 (i : Nat) {off : Nat} (ho : off ≠ 0x128) : (s.linHeld m baud age i).c32 (linReg m off) = s.c32 (linReg m off) :=
  (linHeard_c32 _ m _ ho).trans (linMarked_c32 s m baud age _)

/-- The response error signal that a header's answer carries is that of the channel as the bus came free. -/
theorem linHeld_signal (i p o : Nat) (data : List Byte) :
    (s.linHeld m baud age i).linSignal m p o data = ((s.linSent m).linEnd m).linSignal m p o data := by
  obtain ⟨b, hb⟩ := linHeld_lin s m baud age i
  unfold State.linSignal
  rw [hb]

/-- Whether a responder answers a header: it publishes the object, is no secondary and is awake. -/
theorem linMarked_responds (hr : s.linRole m = 2) (hi : i < 64) :
    (s.linMarked m baud age).linResponds m (s.linHdr m i) = ((s.linCfg m i).dir == 2 && !s.secondary && !(s.lin m).asleep) := by
  obtain ⟨b, hb⟩ := linMarked_lin s m baud age
  obtain ⟨r, q, hq⟩ := linCleared_lin s m
  have ho := linMarked_only s m baud age
  have hrole : (s.linMarked m baud age).linRole m = 2 := (ho.bus.linRole (by rw [hb, hq])).trans hr
  have hasleep : ((s.linMarked m baud age).lin m).asleep = (s.lin m).asleep := by rw [hb, hq]
  have hpub : (s.linHdr m i).publishes = ((s.linCfg m i).dir == 2) := by
    rw [← linHdr_cfg s m i hi]
    rfl
  simp [State.linResponds, hrole, hasleep, hpub, ho.bus.secondary]

/-- A header that this responder does not answer. -/
theorem linTaken_heard (hr : s.linRole m = 2) (hi : i < 64) (hno : (s.linCfg m i).dir ≠ 2 ∨ s.secondary = true ∨ (s.lin m).asleep = true) :
    (s.linMarked m baud age).linComplete m (s.linHdr m i) = s.linHeld m baud age i := by
  refine linComplete_heard (by simp [State.linHdr]) ?_
  rw [linMarked_responds s m baud age hr hi]
  obtain h | h | h := hno <;> simp [h]

end

/-- A responder that answers the headers of identifier `i`. -/
structure LinAnswering (s : State) (m i : Nat) : Prop where
  role : s.linRole m = 2
  id : i < 64
  dir : (s.linCfg m i).dir = 2
  primary : s.secondary = false
  awake : (s.lin m).asleep = false

section
variable {i : Nat} (baud age : Nat) (ha : LinAnswering s m i)
include ha

theorem linTaken_published : (s.linMarked m baud age).linComplete m (s.linHdr m i) = (s.linHeld m baud age i).linPublish m (s.linHdr m i) := by
  have hr : (s.linMarked m baud age).linResponds m (s.linHdr m i) = true := by
    rw [linMarked_responds s m baud age ha.role ha.id]
    simp [ha.dir, ha.primary, ha.awake]
  rw [linComplete_eq, if_neg (by simp [State.linHdr]), if_pos hr]
  rfl

theorem linHdr_byEvent : (s.linHdr m i).byEvent = (s.linCfg m i).event := by
  have hcfg : (s.linHdr m i).cfg (s.linHdr m i).id = s.linCfg m i := linHdr_cfg s m i ha.id
  rw [LinHdr.byEvent, hcfg]
  simp [State.linHdr]

/-- An object that was never committed is counted, and the header gets no answer. -/
theorem linTaken_uncommitted (he : (s.linCfg m i).event = false) (hv : bit (s.linFlags m i) 3 = false) :
    (s.linMarked m baud age).linComplete m (s.linHdr m i) = ((s.linHeld m baud age i).linEnd m).bump (linReg m 0x12C) := by
  rw [linTaken_published baud age ha]
  refine linPublish_uncommitted ((linHdr_byEvent ha).trans he) ?_
  rw [linHeld_flags]
  exact hv

/-- An object that has been committed answers. -/
theorem linTaken_own (he : (s.linCfg m i).event = false) (hv : bit (s.linFlags m i) 3 = true) :
    (s.linMarked m baud age).linComplete m (s.linHdr m i) = (s.linHeld m baud age i).linAnswer m (s.linHdr m i) i false := by
  rw [linTaken_published baud age ha]
  refine linPublish_own ((linHdr_byEvent ha).trans he) ?_
  rw [linHeld_flags]
  exact hv

/-- An event-triggered header with nothing new gets no answer. -/
theorem linTaken_silent (he : (s.linCfg m i).event = true) (hu : s.linUpdated m (s.linCfg m i).assoc = false) :
    (s.linMarked m baud age).linComplete m (s.linHdr m i) = (s.linHeld m baud age i).linEnd m := by
  have hcfg : (s.linHdr m i).cfg (s.linHdr m i).id = s.linCfg m i := linHdr_cfg s m i ha.id
  rw [linTaken_published baud age ha]
  refine linPublish_silent ((linHdr_byEvent ha).trans he) ?_
  rw [hcfg, linHeld_updated, hu]

/-- An event-triggered header with an updated object is answered from that object. -/
theorem linTaken_associated (he : (s.linCfg m i).event = true) (hu : s.linUpdated m (s.linCfg m i).assoc = true) :
    (s.linMarked m baud age).linComplete m (s.linHdr m i) =
    (s.linHeld m baud age i).linAnswer m (s.linHdr m i) (s.linCfg m i).assoc true := by
  have hcfg : (s.linHdr m i).cfg (s.linHdr m i).id = s.linCfg m i := linHdr_cfg s m i ha.id
  rw [linTaken_published baud age ha, linPublish_associated ((linHdr_byEvent ha).trans he), hcfg]
  rw [hcfg, linHeld_updated, hu]

/-- The bytes of that answer: the send buffer, with the response error signal in it. -/
theorem linReply_own : (s.linHeld m baud age i).linReply m (s.linHdr m i) i false =
    ((s.linSent m).linEnd m).linSignal m (s.param (0x0950 + m)) i ((s.linBuf m i).take (s.linCfg m i).len) := by
  have hcfg : (s.linHdr m i).cfg (s.linHdr m i).id = s.linCfg m i := linHdr_cfg s m i ha.id
  rw [State.linReply, linHeld_buf, hcfg, linHeld_signal]
  rfl

end

/-- State `t` reads as `u` does in memory, in its counters and on LIN channel `m`. -/
structure LinReads (m : Nat) (u t : State) : Prop where
  lin : t.lin m = u.lin m
  c32 : ∀ a, t.c32 a = u.c32 a
  c64 : ∀ a, t.c64 a = u.c64 a
  mem : t.mem = u.mem

theorem LinReads.settle (m : Nat) (s u : State) : LinReads m u (settle s u) := ⟨rfl, fun _ => rfl, fun _ => rfl, settle_mem s u⟩

theorem LinReads.updated {u t : State} (h : LinReads m u t) (k i : Nat) : t.linUpdated k i = u.linUpdated k i := by
  rw [State.linUpdated, State.linFlags, State.rd_of_mem h.mem]
  rfl

/-- LIN_HEADER at a responder (R228, R229, R232, R233, R237). -/
theorem linHeader_taken (s : State) (ch : LinCh) (pid : Byte) (baud age : Nat) (hr : s.linRole ch.val = 2)
    {t : State} (hv : LinReads ch.val ((s.linMarked ch.val baud age).linComplete ch.val (s.linHdr ch.val (pid.toNat % 64))) t) :
    let m := ch.val
    let s0 := (s.linSent m).linEnd m
    let i := pid.toNat % 64
    let c := s.linCfg m i
    t.c64 (linReg m 0x100) = s.c64 (linReg m 0x100) + 1 ∧
      (t.lin m).headTs = ts32 (s.time.ltime - age * s.time.incr) ∧
      ((c.dir ≠ 2 ∨ s.secondary = true ∨ (s.lin m).asleep = true) →
        (∃ h, (t.lin m).header = some h ∧ h.id = i ∧ h.kind = .plain ∧ h.past = true ∧ h.at_ = s.time.cycle) ∧
        (t.lin m).sending = none ∧ SameMem s t) ∧
      (c.dir = 2 → s.secondary = false → (s.lin m).asleep = false → c.event = false → bit (s.linFlags m i) 3 = false →
        (t.lin m).sending = none ∧ (t.lin m).header = none ∧ t.c32 (linReg m 0x12C) = satInc (s.c32 (linReg m 0x12C)) ∧ SameMem s t) ∧
      (c.dir = 2 → s.secondary = false → (s.lin m).asleep = false → c.event = false → bit (s.linFlags m i) 3 = true →
        let data := s0.linSignal m (s.param (0x0950 + m)) i ((s.linBuf m i).take c.len)
        (t.lin m).sending = some i ∧ (t.lin m).lastTx = data ++ [linChecksum i c.enh data] ∧ t.linUpdated m i = false ∧
        SameMemBut s t (linObj m i + 4) 1) ∧
      (c.dir = 2 → s.secondary = false → (s.lin m).asleep = false → c.event = true → s.linUpdated m c.assoc = false →
        (t.lin m).sending = none ∧ SameMem s t) ∧
      (c.dir = 2 → s.secondary = false → (s.lin m).asleep = false → c.event = true → s.linUpdated m c.assoc = true →
        (t.lin m).sending = some c.assoc ∧ (t.lin m).lastTx.head? = some (BitVec.ofNat 8 (linPid c.assoc)) ∧
        t.linUpdated m c.assoc = false) := by
  intro m s0 i c
  obtain ⟨hlin, hc32, hc64, hvmem⟩ := id hv
  have hi : i < 64 := Nat.mod_lt _ (by decide)
  obtain ⟨b, hb⟩ := linMarked_lin s m baud age
  obtain ⟨r, q, hq⟩ := linCleared_lin s m
  obtain ⟨d, hd⟩ := linHeld_lin s m baud age i
  have hmem := linHeld_mem s m baud age i
  rw [hlin, hc64, hc32]
  refine ⟨?_, ?_, fun hno => ?_, fun hdir hsec haw he hval => ?_, fun hdir hsec haw he hval => ?_, fun hdir hsec haw he hu => ?_,
    fun hdir hsec haw he hu => ?_⟩
  · rw [(linComplete_kept _ m _).2, (linMarked_only s m baud age).bus.c64]
  · rw [(linComplete_kept _ m _).1, hb]
  · have ht := linTaken_heard s m baud age hr hi hno
    rw [ht] at hvmem ⊢
    rw [hd, hq]
    exact ⟨⟨_, rfl, rfl, rfl, rfl, rfl⟩, rfl, sameMem_of_mem (hvmem.trans hmem)⟩
  · have ht := linTaken_uncommitted baud age ⟨hr, hi, hdir, hsec, haw⟩ he hval
    rw [ht] at hvmem ⊢
    rw [State.lin_bump, linEnd_lin, State.c32_bump_same, State.c32_linEnd, linHeld_c32 s m baud age i (by decide)]
    exact ⟨rfl, rfl, rfl, sameMem_of_mem (hvmem.trans hmem)⟩
  · have ha : LinAnswering s m i := ⟨hr, hi, hdir, hsec, haw⟩
    have ht := linTaken_own baud age ha he hval
    have hcfg : (s.linHdr m i).cfg (s.linHdr m i).id = c := linHdr_cfg s m i hi
    rw [hv.updated, ht]
    rw [ht] at hvmem
    rw [linAnswer_lin, linReply_own baud age ha, hcfg]
    refine ⟨rfl, rfl, linAnswer_updated .., sameMemBut_of_mem (fun a hout => ?_) hvmem⟩
    exact (linAnswer_sameMemBut _ m _ i false a hout).trans (sameMem_of_mem hmem a)
  · have ht := linTaken_silent baud age ⟨hr, hi, hdir, hsec, haw⟩ he hu
    rw [ht] at hvmem ⊢
    rw [linEnd_lin]
    exact ⟨rfl, sameMem_of_mem (hvmem.trans hmem)⟩
  · have ht := linTaken_associated baud age ⟨hr, hi, hdir, hsec, haw⟩ he hu
    rw [hv.updated, ht, linAnswer_lin]
    exact ⟨rfl, rfl, linAnswer_updated ..⟩

/-! A response completes (R229, R231, R236). -/

theorem exec_linResponse (s : State) (ch : LinCh) (r : LinRx) :
    exec (.linResponse ch r) s = .next (settle s (linResponse ch.val r s)) := rfl

theorem linError_lin (s : State) (m off : Nat) : (s.linError m off).lin m =
    { s.lin m with respErr := true, irq := setBit (s.lin m).irq 3 true } := by
  rw [State.linError, linIrq_lin, State.lin_setLin_same, State.lin_bump]

theorem linError_bit (s : State) (m off : Nat) : ((s.linError m off).lin m).irq.getLsbD 3 = true := linIrq_bit _ m (by decide)

theorem linError_c32 (s : State) (m off : Nat) : (s.linError m off).c32 (linReg m off) = satInc (s.c32 (linReg m off)) := by
  rw [State.linError, State.c32_linIrq, State.c32_setLin, State.c32_bump_same]

theorem linSent_bit {o : Nat} (hs : (s.lin m).sending = some o) : ((s.linSent m).lin m).irq.getLsbD 2 = true := by
  unfold State.linSent
  rw [hs]
  exact linIrq_bit _ m (by decide)

/-- A channel that takes part, with a header on its bus. -/
structure LinHearing (s : State) (m : Nat) (h : LinHdr) : Prop where
  live : s.live = true
  role : s.linRole m ≠ 0
  header : (s.lin m).header = some h

section
variable {h : LinHdr} {r : LinRx} (hh : LinHearing s m h)
include hh

theorem linResponse_during (hp : h.past = false) : linResponse m r s =
    if r.bitErr then ((s.linEnd m).bump (linReg m 0x118)).linIrq m 3 else s := by
  simp [linResponse, hh.live, hh.role, hh.header, hp]

theorem linResponse_own {o : Nat} (hp : h.past = true) (hs : (s.lin m).sending = some o) : linResponse m r s =
    if r.bitErr then (s.linEnd m).linError m 0x118 else s.linSent m := by
  simp [linResponse, hh.live, hh.role, hh.header, hp, hs]

theorem linResponse_received (hp : h.past = true) (hs : (s.lin m).sending = none) : linResponse m r s = s.linReceived m h r := by
  simp [linResponse, hh.live, hh.role, hh.header, hp, hs]

end

/-- A checksum error can show in the response to a header: its length is known (log entry 14). -/
def LinHdr.known (h : LinHdr) : Prop := (h.cfg h.id).dir ≠ 0 ∨ h.id = 0x3C ∨ h.id = 0x3D

/-- A response has the length and the checksum of its header. -/
def LinHdr.fits (h : LinHdr) (r : LinRx) : Prop := r.data.length = h.len ∧ r.checksum = linChecksum h.id (h.cfg h.id).enh r.data

section
variable {h : LinHdr} {r : LinRx}

theorem linReceived_framing (hk : h.kind ≠ .event) (hf : r.framing = true) : s.linReceived m h r = (s.linEnd m).linError m 0x114 := by
  simp [State.linReceived, hk, hf]

theorem linReceived_checksum (hk : h.kind ≠ .event) (hf : r.framing = false) (hkn : h.known) (hg : ¬ h.fits r) :
    s.linReceived m h r = (s.linEnd m).linError m 0x10C := by
  have hbad : (h.cfg h.id).dir ≠ 0 ∨ h.id = 0x3C ∨ h.id = 0x3D := hkn
  have hsum : r.data.length ≠ h.len ∨ r.checksum ≠ linChecksum h.id (h.cfg h.id).enh r.data := Decidable.not_and_iff_or_not.1 hg
  simp [State.linReceived, hk, hf, or_assoc, hbad, hsum]

theorem linReceived_unknown (hk : h.kind ≠ .event) (hf : r.framing = false) (hkn : ¬ h.known) : s.linReceived m h r = s.linEnd m := by
  obtain ⟨hdir, h60, h61⟩ : ¬ (h.cfg h.id).dir ≠ 0 ∧ ¬ h.id = 0x3C ∧ ¬ h.id = 0x3D := by simpa [LinHdr.known] using hkn
  have hdir' : (h.cfg h.id).dir = 0 := not_not.1 hdir
  simp [State.linReceived, hk, hf, hdir', h60, h61]

theorem linEnd_role (s : State) (m : Nat) : (s.linEnd m).linRole m = s.linRole m :=
  (LinOnly.refl s).linEnd.bus.linRole (by rw [linEnd_lin])

/-- A good response to an object that subscribes goes to the screen; only a responder falls asleep at the go-to-sleep command. -/
theorem linReceived_good (hk : h.kind ≠ .event) (hf : r.framing = false) (hg : h.fits r) (hd : (h.cfg h.id).dir = 1)
    (hs : s.linRole m = 1 ∨ h.id ≠ 0x3C) : s.linReceived m h r = (s.linEnd m).linTake m h.id (h.cfg h.id).enh r.data := by
  obtain ⟨hlen, hsum⟩ := hg
  have hawake : ¬ (s.linRole m = 2 ∧ h.id = 0x3C) := by
    rintro ⟨h2, hid⟩
    obtain h1 | hne := hs
    · omega
    · exact hne hid
  have hno : (decide ((s.linEnd m).linRole m = 2) && decide (h.id = 0x3C)) = false := by
    rw [linEnd_role]
    simpa using hawake
  simp [State.linReceived, hk, hf, hlen, hsum, hd, hno]

/-- A collision: the table that the entry names resolves it. -/
theorem linReceived_collision (hk : h.kind = .event) (he : r.framing = true ∨ r.bitErr = true) : s.linReceived m h r =
    (((s.linEnd m).setLin m { (s.linEnd m).lin m with
      collNext := some (Fin.ofNat 8 (bits (s.rd (linEntry m (s.lin m).table.val (s.lin m).entry.val) 8) 26 24)) }).bump
        (linReg m 0x120)).linIrq m 5 := by
  have hrd : (s.linEnd m).rd (linEntry m ((s.linEnd m).lin m).table.val ((s.linEnd m).lin m).entry.val) 8 =
      s.rd (linEntry m (s.lin m).table.val (s.lin m).entry.val) 8 := by
    rw [(LinOnly.refl s).linEnd.bus.rd, linEnd_lin]
  rw [← hrd]
  obtain he | he := he <;> simp [State.linReceived, hk, he]

end

section
variable {h : LinHdr} {r : LinRx} (hh : LinHearing s m h) (hp : h.past = true)
include hh hp

/-- A mismatch in the channel's own response ends it with an error (R229, R233). -/
theorem linResponse_mismatch {o : Nat} (hs : (s.lin m).sending = some o) (hb : r.bitErr = true) :
    let t := linResponse m r s
    (t.lin m).sending = none ∧ (t.lin m).respErr = true ∧ (t.lin m).irq.getLsbD 3 = true ∧
      t.c32 (linReg m 0x118) = satInc (s.c32 (linReg m 0x118)) ∧ t.mem = s.mem := by
  have ht : linResponse m r s = (s.linEnd m).linError m 0x118 := by rw [linResponse_own hh hp hs, if_pos hb]
  have hirq := linError_bit (s.linEnd m) m 0x118
  intro t
  rw [show t = (s.linEnd m).linError m 0x118 from ht]
  refine ⟨?_, ?_, hirq, linError_c32 .., by simp⟩ <;> rw [linError_lin, linEnd_lin]

/-- The channel's own response is sent whole (R233, R238). -/
theorem linResponse_sent {o : Nat} (hs : (s.lin m).sending = some o) (hb : r.bitErr = false) :
    let t := linResponse m r s
    (t.lin m).sending = none ∧ (t.lin m).irq.getLsbD 2 = true ∧
      (bit h.sig 12 = true → bits h.sig 5 0 = o → (t.lin m).respErr = false) ∧ t.mem = s.mem := by
  have ht : linResponse m r s = s.linSent m := by
    rw [linResponse_own hh hp hs, hb]
    rfl
  have hirq := linSent_bit hs
  intro t
  rw [show t = s.linSent m from ht]
  refine ⟨?_, hirq, fun hsig ho => ?_, by simp⟩ <;> rw [linSent_sending s m hs hh.header]
  simp [hsig, ho]

/-- A response with a framing or a checksum error ends with that error counted, and nothing is stored (R229, R231). -/
theorem linResponse_error {off : Nat} (hs : (s.lin m).sending = none) (hr : s.linReceived m h r = (s.linEnd m).linError m off) :
    let t := linResponse m r s
    (t.lin m).header = none ∧ (t.lin m).respErr = true ∧ t.c32 (linReg m off) = satInc (s.c32 (linReg m off)) ∧ t.mem = s.mem := by
  have ht : linResponse m r s = (s.linEnd m).linError m off := by rw [linResponse_received hh hp hs, hr]
  intro t
  rw [show t = (s.linEnd m).linError m off from ht]
  refine ⟨?_, ?_, linError_c32 .., by simp⟩ <;> rw [linError_lin, linEnd_lin]

/-- A collision in an event-triggered slot (R236). -/
theorem linResponse_collision (hs : (s.lin m).sending = none) (hk : h.kind = .event) (he : r.framing = true ∨ r.bitErr = true) :
    let t := linResponse m r s
    t.c32 (linReg m 0x120) = satInc (s.c32 (linReg m 0x120)) ∧ (t.lin m).irq.getLsbD 5 = true ∧ (t.lin m).header = none ∧
      (t.lin m).collNext.map Fin.val = some (bits (s.rd (linEntry m (s.lin m).table.val (s.lin m).entry.val) 8) 26 24) ∧ t.mem = s.mem := by
  have ht := linResponse_received hh (r := r) hp hs
  rw [linReceived_collision hk he] at ht
  rw [ht]
  refine ⟨?_, linIrq_bit _ m (by decide), ?_, ?_, by simp⟩
  · rw [State.c32_linIrq, State.c32_bump_same, State.c32_setLin, State.c32_linEnd]
  · rw [linIrq_lin, State.lin_bump, State.lin_setLin_same, linEnd_lin]
  · rw [linIrq_lin, State.lin_bump, State.lin_setLin_same]
    exact congrArg some (Nat.mod_mod _ _)

end

/-- Settles O30: a responder's header is out of rate, of wrong parity or completes, and what completes it answers by the object's
configuration; a response ends by the first of the errors it shows, or goes to the screen. -/
theorem linResponses : Obligations.LinResponses := by
  refine ⟨fun s ch obj hl => ?_, fun s ch i data hdata => ?_, fun s ch o data ts rs => ⟨rfl, rfl⟩, fun s ch pid baud age hl hr => ?_,
    fun s ch r h hl hr => ?_⟩
  · intro m i c d
    rw [exec_lpub, lpub_live hl]
  · have hpass : s.gwJudged (.lpub ch i data) true = s.linCommit ch.val i data := rfl
    intro t
    rw [show t = s.linCommit ch.val i data from hpass]
    exact ⟨linCommit_buf s ch.val i hdata, linCommit_bit s ch.val i data (.inl rfl), linCommit_bit s ch.val i data (.inr rfl),
      linCommit_sameMemBut s ch.val i data, rfl⟩
  · intro m rate sync far s0 s1 i c
    have hheader := linHeader_responder s m baud age pid.toNat hl hr
    refine ⟨fun hfar => ?_, fun hfar hpar => ?_, fun hfar hpar => ?_⟩
    · rw [if_pos (show s.linFar m baud = true from hfar)] at hheader
      rw [exec_linHeader, hheader]
      rfl
    · rw [if_neg (Bool.eq_false_iff.1 (show s.linFar m baud = false from hfar)), if_pos hpar] at hheader
      rw [exec_linHeader, hheader]
      rfl
    · rw [if_neg (Bool.eq_false_iff.1 (show s.linFar m baud = false from hfar)), if_neg (not_not.2 hpar)] at hheader
      refine ⟨_, exec_linHeader s ch pid baud age, ?_⟩
      rw [hheader]
      exact linHeader_taken s ch pid baud age hr (LinReads.settle m s _)
  · intro m l c hh
    have hear : LinHearing s m h := ⟨hl, hr, hh⟩
    obtain ⟨t, ht, htl, htc, -, htm⟩ : ∃ t, exec (.linResponse ch r) s = .next t ∧ LinReads m (linResponse m r s) t :=
      ⟨_, exec_linResponse s ch r, LinReads.settle m s _⟩
    refine ⟨fun hp => ?_, fun o hp hs hb => ?_, fun o hp hs hb => ?_, fun hp hs hk => ⟨fun hf => ?_, fun hf hkn hg => ?_, fun hf hkn => ?_,
      fun hf hg hd hrole => ?_⟩, fun hp hs hk he => ?_⟩
    · rw [exec_linResponse, linResponse_during hear hp]
    · obtain ⟨h1, h2, h3, h4, h5⟩ := linResponse_mismatch hear hp hs hb
      refine ⟨t, ht, ?_⟩
      rw [htl, htc]
      exact ⟨h1, h2, h3, h4, sameMem_of_mem (htm.trans h5)⟩
    · obtain ⟨h1, h2, h3, h4⟩ := linResponse_sent hear hp hs hb
      refine ⟨t, ht, ?_⟩
      rw [htl]
      exact ⟨h1, h2, h3, sameMem_of_mem (htm.trans h4)⟩
    · obtain ⟨h1, h2, h3, h4⟩ := linResponse_error hear hp hs (linReceived_framing hk hf)
      refine ⟨t, ht, ?_⟩
      rw [htl, htc]
      exact ⟨h1, h2, h3, sameMem_of_mem (htm.trans h4)⟩
    · obtain ⟨h1, h2, h3, h4⟩ := linResponse_error hear hp hs (linReceived_checksum hk hf hkn hg)
      refine ⟨t, ht, ?_⟩
      rw [htl, htc]
      exact ⟨h1, h2, h3, sameMem_of_mem (htm.trans h4)⟩
    · rw [exec_linResponse, linResponse_received hear hp hs, linReceived_unknown hk hf hkn]
    · rw [exec_linResponse, linResponse_received hear hp hs, linReceived_good hk hf hg hd hrole]
    · obtain ⟨h1, h2, h3, h4, h5⟩ := linResponse_collision hear hp hs hk he
      refine ⟨t, ht, ?_⟩
      rw [htl, htc]
      exact ⟨h1, h2, h3, h4, sameMem_of_mem (htm.trans h5)⟩

end Sys2Proof.Machine
end
